-- ==== Sys2Proof/Word.lean ====
section
/-! DEFINITION. Word types of the GW8, the small enumerations that instruction fields name, and the operand
records that the constructors of `Instr` carry: one record per field layout of spec/ (R67 to R75 and the tables of
the instruction chapters). A record holds the fields as names and numbers, never as raw bits. -/

namespace Sys2Proof

/-- A 64-bit register, address or doubleword (R8). -/
abbrev Word := BitVec 64
/-- One byte of memory (R4). -/
abbrev Byte := BitVec 8
/-- One vector register: 16,384 bits (R11). -/
abbrev VReg := BitVec 16384
/-- One physical accumulator: 128 x 128 elements of 32 bits, element (i, j) at position 128 i + j (R187). -/
abbrev AccData := BitVec 524288
/-- An instruction word (R59). -/
abbrev IWord := BitVec 96

abbrev SReg := Fin 32
abbrev VName := Fin 32
abbrev MName := Fin 16
abbrev AName := Fin 8
abbrev CName := Fin 16
abbrev QName := Fin 8
abbrev KName := Fin 8
abbrev SqName := Fin 2

/-- Privilege of a hart (R34). -/
inductive Mode where
  | user
  | supervisor
  deriving DecidableEq, Repr

/-- The type codes of R37 and R74. -/
inductive EType where
  | i8 | i16 | i32 | i64 | n8 | n16 | n32 | n64
  | f16 | bf16 | f32 | f64 | e4m3 | e5m2 | q4
  deriving DecidableEq, Repr

/-- Operation width of a scalar integer instruction (R92). -/
inductive IntWidth where
  | w64
  | i32
  | n32
  deriving DecidableEq, Repr

/-- Integer condition codes (R91). -/
inductive Cond where
  | eq | ne | lt | ge | ltu | geu
  deriving DecidableEq, Repr

/-- Scopes of acquire, release and fence (R108, R287). -/
inductive Scope where
  | hart | convoy | core | cluster | tower | package | system
  deriving DecidableEq, Repr

/-- Mask tests of `bm` (R107). -/
inductive MaskTest where
  | any | none | all | nall
  deriving DecidableEq, Repr

/-- Floating comparisons of `fset` and `vfcmp` (R102). -/
inductive FCmp where
  | eq | lt | le | un
  deriving DecidableEq, Repr

/-- Sign selectors of `fsgn` and `vfsgn` (R102). -/
inductive FSgn where
  | copy | inv | xor
  deriving DecidableEq, Repr

/-- Operators of `amo` (R112). -/
inductive AmoOp where
  | add | and | or | xor | min | max | minu | maxu | swap | cas | fadd
  deriving DecidableEq, Repr

/-- Operators of the plural accesses (R173). -/
inductive PluralOp where
  | add | fadd | min | max | minu | maxu | fmin | fmax | and | or | xor | swap
  deriving DecidableEq, Repr

/-- Operators of `vred` and `vscan` (R133). -/
inductive RedOp where
  | add | min | max | minu | maxu | and | or | xor
  deriving DecidableEq, Repr

/-- Operators of `vfred` and `vfscan` (R133). -/
inductive FRedOp where
  | fadd | fmin | fmax
  deriving DecidableEq, Repr

/-- Stage operations of `vchain` (R149). -/
inductive StageOp where
  | add | sub | rsub | mul | min | max | minu | maxu | and | or | xor | shl | shr | sar
  | fadd | fsub | frsub | fmul | fmin | fmax | fma | fmacc
  deriving DecidableEq, Repr

/-- Operand formats of `mma` (R75). -/
inductive MmaFmt where
  | f16 | bf16 | e4m3 | e5m2 | q4 | i8
  deriving DecidableEq, Repr

/-- Operand B of a scalar instruction: a register, or IMM when MOD.I is 1 (R68). -/
inductive Src where
  | reg (r : SReg)
  | imm (i : BitVec 32)
  deriving DecidableEq, Repr

/-- Operand B of a vector instruction: a group, a scalar when MOD.S is 1, or IMM when MOD.I is 1 (R68). -/
inductive VSrc where
  | vec (r : VName)
  | scalar (r : SReg)
  | imm (i : BitVec 32)
  deriving DecidableEq, Repr

/-- Class 0x01, two operands (R93). -/
structure SInt where
  w : IntWidth
  d : SReg
  a : SReg
  b : Src
  deriving DecidableEq, Repr

/-- Class 0x01, one operand: `clz`, `ctz`, `popc` (R93). -/
structure SIntUn where
  w : IntWidth
  d : SReg
  a : SReg
  deriving DecidableEq, Repr

/-- `set` (R93). -/
structure SSet where
  w : IntWidth
  cc : Cond
  d : SReg
  a : SReg
  b : Src
  deriving DecidableEq, Repr

/-- `sel` (R93). -/
structure SSel where
  w : IntWidth
  d : SReg
  a : SReg
  b : Src
  c : SReg
  deriving DecidableEq, Repr

/-- `bfx` (R95): `len1` is LEN - 1. -/
structure SBfx where
  d : SReg
  a : SReg
  sx : Bool
  pos : BitVec 6
  len1 : BitVec 6
  deriving DecidableEq, Repr

/-- `bfi` (R95). -/
structure SBfi where
  d : SReg
  a : SReg
  c : SReg
  pos : BitVec 6
  len1 : BitVec 6
  deriving DecidableEq, Repr

/-- `li` and `lpc` (R96). -/
structure LImm where
  d : SReg
  imm : Word
  deriving DecidableEq, Repr

/-- `jmpl` and `calll` (R97). -/
structure LJump where
  abs : Bool
  imm : Word
  deriving DecidableEq, Repr

/-- Class 0x03, two operands (R99). -/
structure SFp where
  f : EType
  d : SReg
  a : SReg
  b : Src
  deriving DecidableEq, Repr

/-- `fma` (R99). -/
structure SFma where
  f : EType
  d : SReg
  a : SReg
  b : Src
  c : SReg
  deriving DecidableEq, Repr

/-- `fsqrt` and `fclass` (R99). -/
structure SFpUn where
  f : EType
  d : SReg
  a : SReg
  deriving DecidableEq, Repr

/-- `fset` (R102). -/
structure SFset where
  f : EType
  cmp : FCmp
  d : SReg
  a : SReg
  b : Src
  deriving DecidableEq, Repr

/-- `fcvt` (R100). -/
structure SFcvt where
  fd : EType
  fs : EType
  d : SReg
  a : SReg
  deriving DecidableEq, Repr

/-- `fsgn` (R102). -/
structure SFsgn where
  f : EType
  sel : FSgn
  d : SReg
  a : SReg
  b : SReg
  deriving DecidableEq, Repr

/-- Branch target fields DISP and TSLOT (R70). -/
structure Target where
  disp : BitVec 33
  slot : BitVec 3
  deriving DecidableEq, Repr

/-- `b` (R103). -/
structure BrReg where
  cc : Cond
  a : SReg
  b : SReg
  t : Target
  deriving DecidableEq, Repr

/-- `bi` (R103). -/
structure BrImm where
  cc : Cond
  a : SReg
  imm : BitVec 16
  t : Target
  deriving DecidableEq, Repr

/-- `strip` (R105). -/
structure Strip where
  a : SReg
  b : SReg
  c : SReg
  e : SReg
  steps : BitVec 16
  t : Target
  deriving DecidableEq, Repr

/-- `vloopl` (R106). -/
structure VLoop where
  a : VName
  c : MName
  t : Target
  deriving DecidableEq, Repr

/-- `bm` (R107). -/
structure BrMask where
  test : MaskTest
  a : MName
  t : Target
  deriving DecidableEq, Repr

/-- `ld` (R109): `acq` is the scope of an acquiring load. -/
structure SLoad where
  t : EType
  d : SReg
  a : SReg
  b : Src
  acq : Option Scope
  deriving DecidableEq, Repr

/-- `st` (R109): `rel` is the scope of a releasing store. -/
structure SStore where
  t : EType
  c : SReg
  a : SReg
  b : Src
  rel : Option Scope
  unord : Bool
  deriving DecidableEq, Repr

/-- `amo` (R112). -/
structure Amo where
  t : EType
  op : AmoOp
  d : SReg
  a : SReg
  b : SReg
  c : SReg
  acq : Bool
  rel : Bool
  scope : Scope
  deriving DecidableEq, Repr

/-- `ldp` (R173). -/
structure PLoad where
  op : PluralOp
  d : SReg
  a : SReg
  b : SReg
  banked : Bool
  off : BitVec 32
  deriving DecidableEq, Repr

/-- `stp` (R173). -/
structure PStore where
  c : SReg
  a : SReg
  b : SReg
  banked : Bool
  off : BitVec 32
  deriving DecidableEq, Repr

/-- `pam` (R173). -/
structure PAtomic where
  op : PluralOp
  c : SReg
  a : SReg
  b : SReg
  banked : Bool
  off : BitVec 32
  deriving DecidableEq, Repr

/-- The kinds of a `fence`, R279: V, H, B, F, O, E, D. -/
structure Kinds where
  v : Bool
  h : Bool
  b : Bool
  f : Bool
  o : Bool
  e : Bool
  d : Bool
  deriving DecidableEq, Repr

/-- `fence` (R288). -/
structure Fence where
  scope : Scope
  kinds : Kinds
  deriving DecidableEq, Repr

/-- `fsig` (R293). -/
structure Fsig where
  t : EType
  a : SReg
  b : Src
  deriving DecidableEq, Repr

/-- `cbar` (R274). -/
structure SPair where
  a : SReg
  b : SReg
  deriving DecidableEq, Repr

/-- `wait` (R215): the target is s[B] or IMM zero-extended. -/
structure WaitK where
  d : SReg
  k : KName
  b : Src
  deriving DecidableEq, Repr

/-- `kadd` (R216): the amount is s[A] or IMM zero-extended. -/
structure KAdd where
  k : KName
  a : Src
  deriving DecidableEq, Repr

/-- `qput` (R264): `nb` names the status register of a non-waiting put. -/
structure QPut where
  q : QName
  a : Src
  par : Bool
  nb : Option SReg
  deriving DecidableEq, Repr

/-- `qget` (R264). -/
structure QGet where
  d : SReg
  q : QName
  nb : Option SReg
  deriving DecidableEq, Repr

/-- `launch` and `glaunch` (R319, R373). -/
structure Launch where
  k : KName
  a : SReg
  b : SReg
  c : SReg
  deriving DecidableEq, Repr

/-- `capture` (R231). -/
structure Capture where
  d : CName
  a : SReg
  bm : BitVec 32
  deriving DecidableEq, Repr

/-- `capref` (R231). -/
structure Capref where
  d : CName
  a : SReg
  b : SReg
  bm : BitVec 32
  deriving DecidableEq, Repr

/-- `applyq` (R231). -/
structure ApplyQ where
  a : CName
  k : KName
  c : SReg
  deriving DecidableEq, Repr

/-- `cld` from memory (R231). -/
structure CLoad where
  d : CName
  a : SReg
  off : BitVec 32
  deriving DecidableEq, Repr

/-- `cst` to memory (R231). -/
structure CStore where
  c : CName
  a : SReg
  off : BitVec 32
  deriving DecidableEq, Repr

/-- The CSR instructions (R161); `csrr` has a = 0. -/
structure Csr where
  d : SReg
  csr : BitVec 12
  a : SReg
  deriving DecidableEq, Repr

/-- Three scalar registers: `ctxsave`, `ctxload`, `wfe`. -/
structure S3 where
  d : SReg
  a : SReg
  b : SReg
  deriving DecidableEq, Repr

/-- `logctl.sync` (R331): `order` chooses the ordering log. -/
structure LogSync where
  order : Bool
  d : SReg
  deriving DecidableEq, Repr

/-- `logctl.swap` (R331). -/
structure LogSwap where
  order : Bool
  d : SReg
  a : SReg
  b : SReg
  deriving DecidableEq, Repr

/-- Two scalar registers. -/
structure S2 where
  d : SReg
  a : SReg
  deriving DecidableEq, Repr

/-- `vcfg` (R115). -/
structure VCfg where
  d : SReg
  ew : BitVec 2
  grp : BitVec 2
  deriving DecidableEq, Repr

/-- `setvl` and `mcpt` (R116, R121): for `setvl`, `.reg 0` names the strip counter. -/
structure SetVl where
  d : SReg
  a : Src
  deriving DecidableEq, Repr

/-- `mcpt` (R121). -/
structure MCpt where
  d : MName
  a : Src
  deriving DecidableEq, Repr

/-- Mask logic with two sources (R123). -/
structure M3 where
  d : MName
  a : MName
  b : MName
  deriving DecidableEq, Repr

/-- Mask logic with one source, and `mexp` (R122, R123). -/
structure M2 where
  d : MName
  a : MName
  deriving DecidableEq, Repr

/-- `mpop` and `mfirst` (R123). -/
structure MToS where
  d : SReg
  a : MName
  deriving DecidableEq, Repr

/-- Class 0x11 and 0x12, two operands (R124, R125). -/
structure VOp where
  t : EType
  d : VName
  a : VName
  b : VSrc
  m : MName
  deriving DecidableEq, Repr

/-- Class 0x11 and 0x12, one operand. -/
structure VUn where
  t : EType
  d : VName
  a : VName
  m : MName
  deriving DecidableEq, Repr

/-- `vcmp` (R124). -/
structure VCmp where
  t : EType
  cc : Cond
  d : MName
  a : VName
  b : VSrc
  m : MName
  deriving DecidableEq, Repr

/-- `vfma` (R125). -/
structure VFma where
  t : EType
  d : VName
  a : VName
  b : VSrc
  c : VName
  m : MName
  deriving DecidableEq, Repr

/-- `vfcmp` (R125). -/
structure VFcmp where
  t : EType
  cmp : FCmp
  d : MName
  a : VName
  b : VSrc
  m : MName
  deriving DecidableEq, Repr

/-- `vfsgn` (R125). -/
structure VFsgn where
  t : EType
  sel : FSgn
  d : VName
  a : VName
  b : VSrc
  m : MName
  deriving DecidableEq, Repr

/-- Class 0x13 (R127). -/
structure VConv where
  w : EType
  src : EType
  d : VName
  a : VName
  m : MName
  satm : MName
  amx : Bool
  deriving DecidableEq, Repr

/-- `vred` (R133). -/
structure VRed where
  t : EType
  op : RedOp
  d : SReg
  a : VName
  b : SReg
  m : MName
  deriving DecidableEq, Repr

/-- `vfred` (R133). -/
structure VFRed where
  t : EType
  op : FRedOp
  d : SReg
  a : VName
  b : SReg
  m : MName
  deriving DecidableEq, Repr

/-- `vscan` (R133). -/
structure VScan where
  t : EType
  op : RedOp
  excl : Bool
  d : VName
  a : VName
  b : SReg
  c : SReg
  m : MName
  deriving DecidableEq, Repr

/-- `vfscan` (R133). -/
structure VFScan where
  t : EType
  op : FRedOp
  excl : Bool
  d : VName
  a : VName
  b : SReg
  c : SReg
  m : MName
  deriving DecidableEq, Repr

/-- `vslup` and `vsldn` (R138): offset from s[B] or IMM. -/
structure VSlide where
  t : EType
  d : VName
  a : VName
  n : Src
  c : SReg
  m : MName
  deriving DecidableEq, Repr

/-- `vcomp` (R140). -/
structure VComp where
  t : EType
  d : VName
  a : VName
  c : SReg
  m : MName
  deriving DecidableEq, Repr

/-- `vbshl` and `vbshr` (R141). -/
structure VBsh where
  t : EType
  d : VName
  a : VName
  n : Src
  m : MName
  deriving DecidableEq, Repr

/-- `vfnl` (R141). -/
structure VFnl where
  t : EType
  d : VName
  a : VName
  b : VName
  c : SReg
  m : MName
  deriving DecidableEq, Repr

/-- `vmvs` (R142). -/
structure VMvs where
  t : EType
  d : SReg
  a : VName
  j : Src
  deriving DecidableEq, Repr

/-- `vmvx` (R142). -/
structure VMvx where
  t : EType
  d : VName
  a : SReg
  j : Src
  deriving DecidableEq, Repr

/-- `vid` (R142). -/
structure VId where
  t : EType
  d : VName
  a : SReg
  step : BitVec 32
  m : MName
  deriving DecidableEq, Repr

/-- `vspush` (R144). -/
structure VSPush where
  t : EType
  q : SqName
  c : SReg
  a : VName
  m : MName
  deriving DecidableEq, Repr

/-- `vspop` (R145). -/
structure VSPop where
  t : EType
  d : VName
  c : SReg
  q : SqName
  m : MName
  nb : Bool
  deriving DecidableEq, Repr

/-- An operand of a chain's continuation stage (R148): a scalar register or a vector group. -/
inductive StageSrc where
  | vec (r : VName)
  | scalar (r : SReg)
  deriving DecidableEq, Repr

/-- A continuation stage (R148); `y` is used by `fma` and `fmacc` only. -/
structure Stage where
  op : StageOp
  x : StageSrc
  y : StageSrc
  deriving DecidableEq, Repr

/-- `vchain` with its continuation word (R147, R148): the head stage, the first continuation stage and up to three
more. -/
structure VChain where
  t : EType
  op : StageOp
  d : VName
  a : VName
  b : VSrc
  c : VName
  m : MName
  stage1 : Stage
  more : List Stage
  deriving DecidableEq, Repr

/-- Index width of an indexed access (R178): 8, 16, 32 or 64 bits. -/
inductive IxWidth where
  | b8 | b16 | b32 | b64
  deriving DecidableEq, Repr

/-- Unit-stride vector access (R178); `v` is the destination of a load and the data of a store. -/
structure VMem where
  t : EType
  v : VName
  a : SReg
  m : MName
  unord : Bool
  off : BitVec 32
  deriving DecidableEq, Repr

/-- Strided vector access (R178). -/
structure VMemS where
  t : EType
  v : VName
  a : SReg
  b : SReg
  m : MName
  unord : Bool
  off : BitVec 32
  deriving DecidableEq, Repr

/-- Segment vector access (R178): `nf1` is NF - 1. -/
structure VMemG where
  t : EType
  v : VName
  a : SReg
  m : MName
  unord : Bool
  nf1 : BitVec 3
  off : BitVec 32
  deriving DecidableEq, Repr

/-- Indexed vector access (R178). -/
structure VMemX where
  t : EType
  v : VName
  a : SReg
  b : VName
  m : MName
  unord : Bool
  scl : Bool
  ix : IxWidth
  off : BitVec 32
  deriving DecidableEq, Repr

/-- `pdot` (R184). -/
structure PDot where
  t : EType
  d : VName
  a : VName
  b : SReg
  c : SReg
  stride : BitVec 8
  off : BitVec 16
  len : BitVec 16
  deriving DecidableEq, Repr

/-- `acfg` (R188): M - 1 and N - 1; `int` for INT32 elements. -/
structure ACfg where
  d : AName
  int : Bool
  m1 : BitVec 7
  n1 : BitVec 7
  deriving DecidableEq, Repr

/-- A shape record (R72). -/
structure Shape where
  ext1 : BitVec 7
  k1 : BitVec 6
  stride : BitVec 5
  off : BitVec 5
  kmaj : Bool
  deriving DecidableEq, Repr

/-- `mma` (R71). -/
structure Mma where
  d : AName
  a : VName
  b : VName
  s : SReg
  fmt : MmaFmt
  neg : Bool
  accz : Bool
  scaled : Bool
  sa : Shape
  sb : Shape
  deriving DecidableEq, Repr

/-- `ald` (R198). -/
structure ALoad where
  d : AName
  a : SReg
  b : SReg
  mw : EType
  stride : BitVec 5
  off : BitVec 5
  trans : Bool
  deriving DecidableEq, Repr

/-- `ast` (R198): `s` is used with `scaled` only. -/
structure AStore where
  d : AName
  a : SReg
  b : SReg
  s : SReg
  scaled : Bool
  mw : EType
  stride : BitVec 5
  off : BitVec 5
  trans : Bool
  deriving DecidableEq, Repr

/-- `arow` (R201). -/
structure ARow where
  d : VName
  a : AName
  int : Bool
  idx : Src
  col : Bool
  deriving DecidableEq, Repr

/-- `tfill` (R207): `m` is 0 or 8 to 15. -/
structure TFill where
  k : KName
  a : SReg
  b : SReg
  c : SReg
  m : MName
  deriving DecidableEq, Repr

/-- `tdrain` (R207). -/
structure TDrain where
  k : KName
  a : SReg
  b : SReg
  c : SReg
  deriving DecidableEq, Repr

/-- `cpy` and `cpy2` (R218): `cl` is the completion closure. -/
structure Copy where
  k : KName
  a : SReg
  b : SReg
  c : SReg
  m : MName
  chk : BitVec 3
  cl : Option CName
  deriving DecidableEq, Repr

/-- `cstat` (R221). -/
structure CStat where
  d : SReg
  c : SReg
  k : KName
  clr : Bool
  deriving DecidableEq, Repr

/-- `munion` and `minter` (R223). -/
structure Merge where
  t : EType
  d : SReg
  a : SReg
  kz : Bool
  ix64 : Bool
  deriving DecidableEq, Repr

/-- `mcount` (R223). -/
structure MCount where
  d : SReg
  a : SReg
  inter : Bool
  ix64 : Bool
  deriving DecidableEq, Repr

/-- `dopen` and `dseal` (R337). -/
structure DCmd where
  k : KName
  a : SReg
  cl : Option CName
  deriving DecidableEq, Repr

/-- `stow` (R337). -/
structure Stow where
  k : KName
  a : SReg
  b : SReg
  c : SReg
  cl : Option CName
  deriving DecidableEq, Repr

/-! ### What the agents outside the harts meet (the arguments of the table's rows 211 to 303) -/

/-- A register-file word that an ECC error can hit (R160). -/
inductive RegSite where
  | scalar (r : SReg) (hi : Bool)
  | vector (r : VName) (word : Nat)
  | maskBits (r : MName) (word : Nat)
  | maskCtl (r : MName)
  | closure (r : CName) (hi : Bool)
  | acc (a : AName) (elem : Nat)
  deriving DecidableEq, Repr

/-- An SRAM word that an ECC error can hit (R160, R313): a register of a hart, a tile-store word, or a doubleword of
an environment frame. -/
inductive SramSite where
  | hart (g : Nat) (r : RegSite)
  | tile (core : Nat) (word : Nat)
  | env (core win frame dw : Nat)
  deriving DecidableEq, Repr

/-- What a fabric item does at its destination (R371). -/
inductive ItemOp where
  | load
  | store (data : Word)
  | amo (op : AmoOp) (compare operand : Word) (returning : Bool)
  /-- The end of a gang's hart, told to the issuer (R375). -/
  | report (gang hart : Nat) (status : BitVec 8)
  /-- A flag of `fsig` in this package (R294), held until what it covers has performed: its key. -/
  | flag (key : Nat) (data : Word)
  deriving DecidableEq, Repr

/-- A packet of the fabric carrying one item (R365, R369, R371): source package, home plane, sequence number, the
sender's FCID, the view of the access, the destination address, the type and its operation; GID, element index and the
logged flag for R329; the planes and numbers of its earlier sendings (R370). -/
structure Packet where
  src : Nat
  plane : Nat
  seq : BitVec 32
  fcid : BitVec 20
  view : Mode
  dva : BitVec 44
  t : EType
  op : ItemOp
  unord : Bool
  gid : Nat
  elem : Nat
  logged : Bool
  resent : List (Nat × BitVec 32)
  deriving DecidableEq, Repr

/-- The answer to a remote load or returning `amo` (R113). -/
inductive Response where
  | value (w : Word)
  | fails (cause : BitVec 8)
  deriving DecidableEq, Repr

/-- How one unit of a `stow` ended (R343). -/
inductive StowResult where
  | done
  | flashFail
  | verifyFail
  | sourceFault
  deriving DecidableEq, Repr

/-- What a switch answers to a request for reduction slots (R389). -/
inductive SlotAnswer where
  | granted
  | queued
  | refused
  deriving DecidableEq, Repr

/-- A switch of a reduction tree, fixed at the start of the collective (R387 to R390): its tier and number, the tree, by
the axis of its step and its lowest member (R385), the ports on which its inputs arrive, the port at which member 0's
request arrives, the tier, number and port of the switch that takes its result (none at the top of the tree), and whether
it is the last one that is asked. -/
structure TreeSwitch where
  tier : Nat
  switch : Nat
  tree : Nat × Nat
  ports : List Nat
  port : Nat
  up : Option (Nat × Nat × Nat)
  last : Bool
  deriving DecidableEq, Repr

/-- A switch of a collective's reduction trees by name. -/
structure TreePlace where
  tier : Nat
  switch : Nat
  tree : Nat × Nat
  deriving DecidableEq, Repr

/-- A block of a collective as a member names it (R388): the step, counted from 0, and the block's number in it. -/
structure StepBlock where
  step : Nat
  block : Nat
  deriving DecidableEq, Repr

/-- The tag of a block in a slot (R388): the step, by its axis, the block's number, and the lowest member that receives
it. -/
structure BlockTag where
  step : Nat
  block : Nat
  owner : Nat
  deriving DecidableEq, Repr

/-- What happens at a slot of a switch (R388, R390): a block arrives on a port, or a receiver has pulled the result. -/
inductive SlotEvent where
  | arrive (port : Nat) (tag : BlockTag) (data : List Byte)
  | pulled (member : Nat)
  deriving DecidableEq, Repr

/-- What a member shows the others when they match (R386, R387): its FCID, its waybill, its effective FIXED, its member
table, of which a digest travels, and the planes that are up at it. -/
structure PeerView where
  fcid : BitVec 20
  waybill : BitVec 1024
  fixed : Bool
  table : List Nat
  planes : BitVec 96
  deriving DecidableEq, Repr

/-- A host access to a register of the control block (R355), or to the configuration of the functions (R353). Its operand
is the data of a write, the number of bytes of a read, the virtual device to which the physical function binds a virtual
one (0xFF for none), the size n of BAR 4, 2^(30 + n) bytes, or the number of a cluster barrier to report (R273). -/
inductive RegAccess where
  | write (off : Nat)
  | read (off : Nat)
  | bind (vf : Nat)
  | resize
  | cbar (cluster : Nat)
  deriving DecidableEq, Repr

end Sys2Proof
end

