-- ==== Sys2Proof/Config.lean ====
section
/-! DEFINITION. What an implementation of the GW8 fixes, and the free values: constants with no body, which no proof
can evaluate. A statement about a free value holds for every value of it. -/

namespace Sys2Proof.Config

/-- How many clocks beyond the first the n-th step takes (R247, R405: no result depends on it). Free value, log 5. -/
opaque freeClocks : Nat → Nat

/-- Which of differing covering page-table entries the n-th such walk uses (R302). Free value, log 8. -/
opaque freeEntry : Nat → Nat

/-- The byte that the n-th load from host memory returns (R285: the host's memory is outside the device). Free value,
log 9. -/
opaque freeHostByte : Nat → Byte

/-- The bytes of measurements, certificates and SPDM answers that the spec does not give (R360, R361). Free value,
log 18. -/
opaque freeSpdmBytes : Nat → List Byte

/-- The SHA-384 digest of some bytes, and the RSASSA-PSS-3072 and SLH-DSA-SHA2-192s signatures over them (R361). Free
values, log 18. -/
opaque freeDigest : List Byte → List Byte
opaque freeRsaSignature : List Byte → List Byte
opaque freeSlhSignature : List Byte → List Byte

/-- The staging percentage of the firmware configuration (R348, R359), 0 to 50. Fixed by the implementation, log 15. -/
opaque firmwareStaging : Nat

/-- The package number of the firmware configuration (R367). Fixed by the implementation, log 15. -/
opaque firmwarePackage : Nat

/-- Nominal arithmetic clock: 2.5 GHz, in MHz (R363). -/
def nominalClock : Nat := 2500

/-- Nominal power limit in watts (R363). -/
def nominalPower : Nat := 3600

end Sys2Proof.Config
end

