-- ==== Sys2Proof/Syntax.lean ====
section
/-! DEFINITION. The instruction set and the steps of the other agents: one constructor for each row of
spec/opcode_table.json, in the table's order but for RESERVED_ENCODING, which follows the instructions. An
instruction's constructor carries the operand record of its field layout; an agent's step carries what the agent
meets (log 1). -/

namespace Sys2Proof

/-- One constructor per row of spec/opcode_table.json. -/
inductive Instr where
  /-- NOP (R76): The all-zero word only advances the PC and is counted in instret. -/
  | nop
  /-- ADD (R93): Scalar integer add at width 64 or 32. -/
  | add (x : SInt)
  /-- SUB (R93): Scalar integer subtract. -/
  | sub (x : SInt)
  /-- MUL (R93): Low w bits of the scalar product. -/
  | mul (x : SInt)
  /-- MULH (R93): High w bits of the signed 2w-bit product. -/
  | mulh (x : SInt)
  /-- MULHU (R93): High w bits of the unsigned 2w-bit product. -/
  | mulhu (x : SInt)
  /-- DIV (R94): Signed division with saturating quotients and no fault. -/
  | div (x : SInt)
  /-- DIVU (R94): Unsigned division; division by zero gives all ones. -/
  | divu (x : SInt)
  /-- REM (R94): Signed remainder with the sign of the dividend. -/
  | rem (x : SInt)
  /-- REMU (R94): Unsigned remainder; zero divisor gives 0. -/
  | remu (x : SInt)
  /-- AND (R93): Scalar bitwise AND. -/
  | and (x : SInt)
  /-- OR (R93): Scalar bitwise OR. -/
  | or (x : SInt)
  /-- XOR (R93): Scalar bitwise XOR. -/
  | xor (x : SInt)
  /-- ANDN (R93): Scalar a AND NOT b. -/
  | andn (x : SInt)
  /-- SHL (R93): Scalar shift left by b mod w. -/
  | shl (x : SInt)
  /-- SHR (R93): Scalar logical shift right. -/
  | shr (x : SInt)
  /-- SAR (R93): Scalar arithmetic shift right. -/
  | sar (x : SInt)
  /-- ROT (R93): Scalar rotate left within w bits. -/
  | rot (x : SInt)
  /-- MIN (R93): Scalar signed minimum. -/
  | min (x : SInt)
  /-- MAX (R93): Scalar signed maximum. -/
  | max (x : SInt)
  /-- MINU (R93): Scalar unsigned minimum. -/
  | minu (x : SInt)
  /-- MAXU (R93): Scalar unsigned maximum. -/
  | maxu (x : SInt)
  /-- SET (R93): Writes 1 or 0 as the integer condition holds. -/
  | set (x : SSet)
  /-- SEL (R93): Selects a or b by whether s[C] is non-zero. -/
  | sel (x : SSel)
  /-- CLZ (R93): Counts leading zero bits within w. -/
  | clz (x : SIntUn)
  /-- CTZ (R93): Counts trailing zero bits within w. -/
  | ctz (x : SIntUn)
  /-- POPC (R93): Counts one bits within w. -/
  | popc (x : SIntUn)
  /-- BFX (R95): Extracts a bit field, optionally sign-extended. -/
  | bfx (x : SBfx)
  /-- BFI (R95): Inserts a bit field of s[A] into s[C]. -/
  | bfi (x : SBfi)
  /-- LI (R96): Loads a 64-bit immediate. -/
  | li (x : LImm)
  /-- LPC (R96): Writes the line address plus a 64-bit offset. -/
  | lpc (x : LImm)
  /-- JMPL (R97): Jumps to a relative or absolute 64-bit target. -/
  | jmpl (x : LJump)
  /-- CALLL (R97): Long call that links and pushes a frame. -/
  | calll (x : LJump)
  /-- FADD (R99): Scalar floating add rounded in frm. -/
  | fadd (x : SFp)
  /-- FSUB (R99): Scalar floating subtract. -/
  | fsub (x : SFp)
  /-- FMUL (R99): Scalar floating multiply. -/
  | fmul (x : SFp)
  /-- FMA (R99): Scalar fused multiply-add with one rounding. -/
  | fma (x : SFma)
  /-- FDIV (R99): Scalar floating divide. -/
  | fdiv (x : SFp)
  /-- FSQRT (R99): Scalar floating square root. -/
  | fsqrt (x : SFpUn)
  /-- FMIN (R99): Scalar minimumNumber. -/
  | fmin (x : SFp)
  /-- FMAX (R99): Scalar maximumNumber. -/
  | fmax (x : SFp)
  /-- FSET (R102): Scalar floating comparison writing 1 or 0. -/
  | fset (x : SFset)
  /-- FCVT (R100): Scalar conversion between integer and floating formats. -/
  | fcvt (x : SFcvt)
  /-- FCLASS (R101): Writes the class word of a floating value. -/
  | fclass (x : SFpUn)
  /-- FSGN (R102): Sign injection without flags. -/
  | fsgn (x : SFsgn)
  /-- B (R103): Conditional branch on two registers. -/
  | b (x : BrReg)
  /-- BI (R103): Conditional branch against a 16-bit immediate. -/
  | bi (x : BrImm)
  /-- JMP (R103): Unconditional line-relative jump. -/
  | jmp (t : Target)
  /-- CALL (R104): Call that links s31 and pushes a frame id. -/
  | call (t : Target)
  /-- JMPR (R103): Jump to the PC in s[A]. -/
  | jmpr (a : SReg)
  /-- CALLR (R104): Call to the PC in s[A]. -/
  | callr (a : SReg)
  /-- RET (R104): Returns to s31 and pops the frame ring. -/
  | ret
  /-- STRIP (R105): Decrements sc by vl, advances pointers and branches while sc is non-zero. -/
  | strip (x : Strip)
  /-- VLOOPL (R106): Counts down per-element trip counts, clears mask bits and branches while any remain. -/
  | vloopl (x : VLoop)
  /-- BM (R107): Branches on a mask test. -/
  | bm (x : BrMask)
  /-- LD (R109): Scalar load of one typed value. -/
  | ld (x : SLoad)
  /-- ST (R109): Scalar store of one typed value. -/
  | st (x : SStore)
  /-- AMO (R112): Indivisible read-modify-write on one word. -/
  | amo (x : Amo)
  /-- LDP (R176): Plural load combining one word from each bank of a set. -/
  | ldp (x : PLoad)
  /-- STP (R175): Plural store performed bank by bank from bstart. -/
  | stp (x : PStore)
  /-- PAM (R175): Plural atomic update bank by bank. -/
  | pam (x : PAtomic)
  /-- FENCE (R290): Waits for earlier accesses of the named classes and scope. -/
  | fence (x : Fence)
  /-- FSIG (R294): Flagged fence: stores a flag after covered stores have performed. -/
  | fsig (x : Fsig)
  /-- BAR (R262): Arrives at the convoy barrier. -/
  | bar
  /-- CBAR (R274): Arrives at a cluster barrier with a participant count. -/
  | cbar (x : SPair)
  /-- WAIT (R215): Waits until a completion counter reaches a target. -/
  | wait (x : WaitK)
  /-- KADD (R216): Adds to a completion counter as a package-scope release. -/
  | kadd (x : KAdd)
  /-- QPUT (R265): Appends an entry to a queue register. -/
  | qput (x : QPut)
  /-- QGET (R265): Removes the oldest entry of a queue register. -/
  | qget (x : QGet)
  /-- LAUNCH (R319): Reads a packet and enqueues it on a launch queue. -/
  | launch (x : Launch)
  /-- GLAUNCH (R375): Starts a gang launch on many packages, all or none. -/
  | glaunch (x : Launch)
  /-- YIELD (R269): Offers the convoy's time slice to waiting work. -/
  | yield (d : SReg)
  /-- EXIT (R270): Ends the hart after its stores perform. -/
  | exit
  /-- CAPTURE (R232): Allocates a frame and captures registers by value. -/
  | capture (x : Capture)
  /-- CAPREF (R232): Captures by value plus one by-reference address. -/
  | capref (x : Capref)
  /-- CDUP (R233): Validates a handle and adds a reference. -/
  | cdup (d : CName) (a : CName)
  /-- CDROP (R233): Validates a handle, drops a reference and frees the frame at zero. -/
  | cdrop (a : CName)
  /-- APPLY (R234): Calls a closure and sets env. -/
  | apply (a : CName)
  /-- APPLYQ (R238): Posts a closure to run as a new one-hart convoy. -/
  | applyq (x : ApplyQ)
  /-- CENV (R236): Reads a captured value or the by-reference address. -/
  | cenv (d : SReg) (k : BitVec 4)
  /-- CLD (R237): Loads a handle from memory without validation. -/
  | cld (x : CLoad)
  /-- CLD_R (R237): Moves a scalar register into a closure register. -/
  | cldR (d : CName) (a : SReg)
  /-- CST (R237): Stores a handle to memory. -/
  | cst (x : CStore)
  /-- CST_R (R237): Moves a closure register into a scalar register. -/
  | cstR (d : SReg) (c : CName)
  /-- TRAP (R162): Commits and raises software trap naming the next unit. -/
  | trap (n : BitVec 16)
  /-- ERET (R163): Returns to xpc in the recorded privilege. -/
  | eret
  /-- CSRR (R164): Reads a CSR at commit. -/
  | csrr (x : Csr)
  /-- CSRW (R164): Writes a CSR at commit. -/
  | csrw (x : Csr)
  /-- CSRS (R164): Sets CSR bits at commit. -/
  | csrs (x : Csr)
  /-- CSRC (R164): Clears CSR bits at commit. -/
  | csrc (x : Csr)
  /-- TLBI_ALL (R307): Invalidates every translation of the virtual device. -/
  | tlbiAll
  /-- TLBI_ASID (R307): Invalidates every translation of one ASID. -/
  | tlbiAsid (b : SReg)
  /-- TLBI_VA (R307): Invalidates the translations of one page of one ASID. -/
  | tlbiVa (x : SPair)
  /-- CTXSAVE (R252): Writes a halted hart's record to memory. -/
  | ctxsave (x : S3)
  /-- CTXLOAD (R252): Replaces a halted hart's state from a record. -/
  | ctxload (x : S3)
  /-- LOGCTL_SYNC (R331): Waits until reserved log entries are written and returns head. -/
  | logctlSync (x : LogSync)
  /-- LOGCTL_MARK (R331): Writes a marker entry to the ordering log. -/
  | logctlMark (x : S2)
  /-- LOGCTL_SWAP (R331): Syncs and installs a new log buffer in one access. -/
  | logctlSwap (x : LogSwap)
  /-- HALT (R165): Stops the hart after its stores perform. -/
  | halt
  /-- WFE (R166): Compares a word and arms a granule monitor. -/
  | wfe (x : S3)
  /-- VCFG (R115): Convoy barrier that sets vtype and clears vl. -/
  | vcfg (x : VCfg)
  /-- SETVL (R116): Sets vl to min of the request and VLMAX. -/
  | setvl (x : SetVl)
  /-- MCPT (R121): Writes a compact mask. -/
  | mcpt (x : MCpt)
  /-- MEXP (R122): Expands a mask to explicit form. -/
  | mexp (x : M2)
  /-- VADD (R124): Vector integer add. -/
  | vadd (x : VOp)
  /-- VSUB (R124): Vector integer subtract. -/
  | vsub (x : VOp)
  /-- VMUL (R124): Vector low-half multiply. -/
  | vmul (x : VOp)
  /-- VMULH (R124): Vector signed high-half multiply. -/
  | vmulh (x : VOp)
  /-- VMULHU (R124): Vector unsigned high-half multiply. -/
  | vmulhu (x : VOp)
  /-- VMACC (R124): Vector multiply-accumulate into D. -/
  | vmacc (x : VOp)
  /-- VDIV (R124): Vector division by R94. -/
  | vdiv (x : VOp)
  /-- VREM (R124): Vector remainder by R94. -/
  | vrem (x : VOp)
  /-- VAND (R124): Vector AND. -/
  | vand (x : VOp)
  /-- VOR (R124): Vector OR. -/
  | vor (x : VOp)
  /-- VXOR (R124): Vector XOR. -/
  | vxor (x : VOp)
  /-- VSHL (R124): Vector shift left. -/
  | vshl (x : VOp)
  /-- VSHR (R124): Vector logical shift right. -/
  | vshr (x : VOp)
  /-- VSAR (R124): Vector arithmetic shift right. -/
  | vsar (x : VOp)
  /-- VMIN (R124): Vector signed minimum. -/
  | vmin (x : VOp)
  /-- VMAX (R124): Vector signed maximum. -/
  | vmax (x : VOp)
  /-- VMINU (R124): Vector unsigned minimum. -/
  | vminu (x : VOp)
  /-- VMAXU (R124): Vector unsigned maximum. -/
  | vmaxu (x : VOp)
  /-- VADDS (R124): Vector saturating add. -/
  | vadds (x : VOp)
  /-- VSUBS (R124): Vector saturating subtract. -/
  | vsubs (x : VOp)
  /-- VABS (R124): Vector absolute value modulo 2^w. -/
  | vabs (x : VUn)
  /-- VCMP (R124): Vector integer compare into a mask. -/
  | vcmp (x : VCmp)
  /-- VSEL (R119): Selects a or b per element by the mask. -/
  | vsel (x : VOp)
  /-- VCLZ (R124): Vector leading-zero count. -/
  | vclz (x : VUn)
  /-- VPOPC (R124): Vector population count. -/
  | vpopc (x : VUn)
  /-- VFADD (R125): Vector floating add. -/
  | vfadd (x : VOp)
  /-- VFSUB (R125): Vector floating subtract. -/
  | vfsub (x : VOp)
  /-- VFMUL (R125): Vector floating multiply. -/
  | vfmul (x : VOp)
  /-- VFMA (R125): Vector fused multiply-add. -/
  | vfma (x : VFma)
  /-- VFDIV (R125): Vector floating divide. -/
  | vfdiv (x : VOp)
  /-- VFSQRT (R125): Vector square root. -/
  | vfsqrt (x : VUn)
  /-- VFMIN (R125): Vector minimumNumber. -/
  | vfmin (x : VOp)
  /-- VFMAX (R125): Vector maximumNumber. -/
  | vfmax (x : VOp)
  /-- VFCMP (R125): Vector floating compare into a mask. -/
  | vfcmp (x : VFcmp)
  /-- VFRCP (R126): Correctly rounded reciprocal. -/
  | vfrcp (x : VUn)
  /-- VFRSQ (R126): Correctly rounded reciprocal square root. -/
  | vfrsq (x : VUn)
  /-- VFEXP2 (R126): Correctly rounded power of two. -/
  | vfexp2 (x : VUn)
  /-- VFLOG2 (R126): Correctly rounded base-2 logarithm. -/
  | vflog2 (x : VUn)
  /-- VFSGN (R125): Vector sign injection. -/
  | vfsgn (x : VFsgn)
  /-- VFCLASS (R125): Vector class word. -/
  | vfclass (x : VUn)
  /-- VCVT (R128): Vector format conversion, optionally updating amax and a saturation mask. -/
  | vcvt (x : VConv)
  /-- VPK4 (R130): Packs elements into q4 codes under block scales. -/
  | vpk4 (x : VConv)
  /-- VUPK4 (R131): Unpacks q4 codes under block scales. -/
  | vupk4 (x : VConv)
  /-- VSCL (R132): Multiplies elements by their block scale. -/
  | vscl (x : VConv)
  /-- VRED (R134): Integer reduction into a scalar. -/
  | vred (x : VRed)
  /-- VFRED (R134): Floating reduction in the fixed tree order. -/
  | vfred (x : VFRed)
  /-- VSCAN (R135): Integer inclusive or exclusive scan. -/
  | vscan (x : VScan)
  /-- VFSCAN (R135): Floating scan folded in ascending order. -/
  | vfscan (x : VFScan)
  /-- VSLUP (R138): Slides elements up with fill. -/
  | vslup (x : VSlide)
  /-- VSLDN (R138): Slides elements down with fill. -/
  | vsldn (x : VSlide)
  /-- VGATH (R139): Gathers elements by index. -/
  | vgath (x : VOp)
  /-- VCOMP (R140): Compacts active elements. -/
  | vcomp (x : VComp)
  /-- VEXPD (R140): Expands packed elements to active positions. -/
  | vexpd (x : VUn)
  /-- VBSHL (R141): Shifts the element bit string left. -/
  | vbshl (x : VBsh)
  /-- VBSHR (R141): Shifts the element bit string right. -/
  | vbshr (x : VBsh)
  /-- VFNL (R141): Funnel shift of two bit strings. -/
  | vfnl (x : VFnl)
  /-- VMVS (R142): Moves one element to a scalar. -/
  | vmvs (x : VMvs)
  /-- VMVX (R142): Moves a scalar into one element. -/
  | vmvx (x : VMvx)
  /-- VID (R142): Writes an arithmetic sequence. -/
  | vid (x : VId)
  /-- VREV (R142): Reverses elements below vl. -/
  | vrev (x : VUn)
  /-- MAND (R123): Mask AND. -/
  | mand (x : M3)
  /-- MOR (R123): Mask OR. -/
  | mor (x : M3)
  /-- MXOR (R123): Mask XOR. -/
  | mxor (x : M3)
  /-- MNOT (R123): Mask NOT. -/
  | mnot (x : M2)
  /-- MANDN (R123): Mask AND NOT. -/
  | mandn (x : M3)
  /-- MPOP (R123): Counts active elements below vl. -/
  | mpop (x : MToS)
  /-- MFIRST (R123): Finds the first active element below vl. -/
  | mfirst (x : MToS)
  /-- VSPUSH (R144): Appends active elements to a stream queue. -/
  | vspush (x : VSPush)
  /-- VSPOP (R145): Fills active elements from a stream queue. -/
  | vspop (x : VSPop)
  /-- VCHAIN (R150): Runs a head stage and up to four continuation stages. -/
  | vchain (x : VChain)
  /-- VLD (R180): Unit-stride vector load. -/
  | vld (x : VMem)
  /-- VLDS (R180): Strided vector load. -/
  | vlds (x : VMemS)
  /-- VLDG (R180): Segment vector load. -/
  | vldg (x : VMemG)
  /-- VLDX (R182): Indexed vector load by bank-side units. -/
  | vldx (x : VMemX)
  /-- VST (R181): Unit-stride vector store. -/
  | vst (x : VMem)
  /-- VSTS (R181): Strided vector store. -/
  | vsts (x : VMemS)
  /-- VSTG (R181): Segment vector store. -/
  | vstg (x : VMemG)
  /-- VSTX (R181): Indexed vector store. -/
  | vstx (x : VMemX)
  /-- VSTXA (R183): Scatter-add merging equal addresses. -/
  | vstxa (x : VMemX)
  /-- VLDT (R212): Vector load from the tile store. -/
  | vldt (x : VMem)
  /-- VSTT (R212): Vector store to the tile store. -/
  | vstt (x : VMem)
  /-- PDOT (R185): Near-bank dot products over a bank set. -/
  | pdot (x : PDot)
  /-- ACFG (R188): Binds and zeroes an accumulator name. -/
  | acfg (x : ACfg)
  /-- AREL (R189): Releases an accumulator binding. -/
  | arel (d : AName)
  /-- AZERO (R190): Zeroes the bound accumulator region. -/
  | azero (d : AName)
  /-- MMA (R194): Matrix multiply-accumulate into an accumulator. -/
  | mma (x : Mma)
  /-- ALD (R200): Loads an accumulator from memory. -/
  | ald (x : ALoad)
  /-- AST (R199): Converts and stores an accumulator to memory. -/
  | ast (x : AStore)
  /-- AROW (R201): Copies one accumulator row or column to a vector. -/
  | arow (x : ARow)
  /-- TLOOK (R208): Finds the lowest owned slot with a tag. -/
  | tlook (x : S2)
  /-- TTAG (R208): Sets a tag and claims a slot. -/
  | ttag (x : S3)
  /-- TFILL (R209): Starts a fill of a tile slot by the copy engine. -/
  | tfill (x : TFill)
  /-- TDRAIN (R209): Starts a drain of a tile slot to memory. -/
  | tdrain (x : TDrain)
  /-- TWAIT (R208): Waits until a slot is neither filling nor draining. -/
  | twait (x : S2)
  /-- TREL (R211): Zeroes and releases a tile slot. -/
  | trel (a : SReg)
  /-- TSTAT (R208): Returns a slot's status word. -/
  | tstat (x : S2)
  /-- CPY (R219): Starts a linear copy-engine transfer. -/
  | cpy (x : Copy)
  /-- CPY2 (R219): Starts a two-dimensional copy-engine transfer. -/
  | cpy2 (x : Copy)
  /-- CSTAT (R221): Reads and optionally clears a counter's error record. -/
  | cstat (x : CStat)
  /-- MUNION (R224): Merges two sorted lists into their union. -/
  | munion (x : Merge)
  /-- MINTER (R224): Merges two sorted lists into their intersection products. -/
  | minter (x : Merge)
  /-- MCOUNT (R224): Counts merge steps without output values. -/
  | mcount (x : MCount)
  /-- DOPEN (R342): Queues an erase that opens a depot region. -/
  | dopen (x : DCmd)
  /-- STOW (R343): Queues programming of depot units from memory. -/
  | stow (x : Stow)
  /-- DSEAL (R344): Queues the sealing of a depot region. -/
  | dseal (x : DCmd)
  /-- DQUERY (R346): Returns a region's record. -/
  | dquery (x : S2)
  /-- RESERVED_ENCODING (R85): A word with a reserved CLASS or OP, a non-zero CLASS 0x00 word, or a CLASS 0x3F word
  reached other than as a continuation raises illegal instruction when it would execute. -/
  | reservedEncoding (w : IWord)
  /-- QGET_WAKE (R265): A waiting qget takes an entry once the queue is not empty. -/
  | qgetWake (g : Nat)
  /-- QPUT_WAKE (R265): A waiting qput appends once the queue has room. -/
  | qputWake (g : Nat)
  /-- WAIT_WAKE (R215): A waiting hart finds its counter at the target and acquires. -/
  | waitWake (g : Nat)
  /-- WFE_WAKE (R166): A write to the monitored granule wakes the hart with 1. -/
  | wfeWake (g : Nat)
  /-- WFE_TIMEOUT (R166): 10 us after arming the wait ends with 2. -/
  | wfeTimeout (g : Nat)
  /-- VSPUSH_WAKE (R144): A waiting push proceeds once the stream queue has room. -/
  | vspushWake (g : Nat)
  /-- VSPOP_WAKE (R145): A waiting pop proceeds once enough bytes are queued. -/
  | vspopWake (g : Nat)
  /-- TILE_STALL_RELEASE (R206): A stalled tile access proceeds when the slot becomes ready. -/
  | tileStallRelease (g : Nat)
  /-- CONVOY_DEADLOCK (R268): Within 4 us of deadlock the lowest participant takes cause 0x1B. -/
  | convoyDeadlock (cv : Nat)
  /-- MMA_COMPLETE (R196): An mma finishes its blocks and writes accumulator and flags. -/
  | mmaComplete (g : Nat)
  /-- PDOT_COMPLETE (R186): The last bank of a pdot finishes and the result commits. -/
  | pdotComplete (g : Nat)
  /-- NEAR_BANK_AGEING (R186): A near-bank command waiting 2 us competes at normal priority. -/
  | nearBankAgeing (g : Nat)
  /-- FILL_CHUNK_COMPLETE (R209): A fill or copy chunk completes and its mask bit is set. -/
  | fillChunkComplete (core : Nat) (id : Nat) (chunk : Nat)
  /-- TRANSFER_COMPLETE (R214): An engine operation finishes and increments its counter. -/
  | transferComplete (core : Nat) (id : Nat)
  /-- TRANSFER_FAILURE (R220): An engine transfer fails, sets all chunk bits and records the error. -/
  | transferFailure (core : Nat) (id : Nat) (cause : BitVec 8) (addr : Word)
  /-- ENGINE_FAULT_ANSWER (R308): A write to EFANS resolves or declines a queued fault. -/
  | engineFaultAnswer (vdev : Nat) (tag : BitVec 8) (declined : Bool)
  /-- POSTED_CLOSURE_START (R239): A posted closure starts as a one-hart convoy on its core. -/
  | postedClosureStart (core : Nat)
  /-- HART_END (R239): An ending hart writes its status, drops its reference and increments the counter. -/
  | hartEnd (g : Nat)
  /-- DISPATCH_PLACE (R321): The dispatcher places a waiting convoy and starts its harts. -/
  | dispatchPlace
  /-- PRE_EMPTION (R322): The dispatcher pre-empts a convoy and the core saves it. -/
  | preEmption (cv : Nat)
  /-- RESTORE (R320): A pre-empted convoy is restored to a core. -/
  | restore (cv : Nat)
  /-- ORDER_LOG_ENTRY_FILL (R330): A reserved ordering log entry is filled when its access performs. -/
  | orderLogEntryFill (ctx : Nat) (order : Bool)
  /-- HOST_LAUNCH_WRITE (R318): A host 64-byte write enqueues, holds or discards a packet. -/
  | hostLaunchWrite (fn : Nat) (q : Nat) (packet : BitVec 512)
  /-- HELD_PACKET_ENQUEUE (R318): A held packet is enqueued when route log room appears. -/
  | heldPacketEnqueue (q : Nat)
  /-- HOST_BAR4_READ (R354): Host read of device memory through BAR 4. -/
  | hostBar4Read (fn : Nat) (off : Nat) (len : Nat)
  /-- HOST_BAR4_WRITE (R354): Host write of device memory through BAR 4. -/
  | hostBar4Write (fn : Nat) (off : Nat) (data : List Byte)
  /-- CREATE_CONTEXT (R356): Host command that creates a context. -/
  | createContext (fn : Nat)
  /-- BIND_QUEUE (R356): Host command that binds a launch queue. -/
  | bindQueue (fn : Nat)
  /-- GRANT_REGION (R356): Host command that grants or revokes a depot region. -/
  | grantRegion (fn : Nat)
  /-- KILL_CONTEXT (R326): Host command that kills a context. -/
  | killContext (fn : Nat)
  /-- INVALIDATE (R356): Host command that invalidates translations as tlbi does. -/
  | invalidate (fn : Nat)
  /-- READ_HART (R356): Host command that writes a halted hart's record. -/
  | readHart (fn : Nat)
  /-- RESUME_HART (R356): Host command that resumes a halted hart. -/
  | resumeHart (fn : Nat)
  /-- CACHE_FLOOR (R356): Host command that sets a staging-cache floor. -/
  | cacheFloor (fn : Nat)
  /-- ASSIGN_CLUSTER (R356): Host command that assigns a cluster to a virtual device. -/
  | assignCluster (fn : Nat)
  /-- POWER_LIMIT (R363): Host command that sets the package power limit. -/
  | powerLimit (fn : Nat)
  /-- COMMAND_DONE (R356): A host command finishes, clears BUSY and raises vector 0. -/
  | commandDone (fn : Nat)
  /-- DISCARD_RESET (R355): A write to a DISCARD word sets it to zero. -/
  | discardReset (fn : Nat) (q : Nat)
  /-- REGISTER_WRITE (R355): A write to a control-block register with no row of its own. -/
  | registerWrite (fn : Nat) (x : RegAccess) (data : Word)
  /-- SPDM_GET_VERSION (R361): SPDM request answered over DOE. -/
  | spdmGetVersion
  /-- SPDM_GET_CAPABILITIES (R361): SPDM request answered over DOE. -/
  | spdmGetCapabilities
  /-- SPDM_NEGOTIATE_ALGORITHMS (R361): SPDM request answered over DOE. -/
  | spdmNegotiateAlgorithms
  /-- SPDM_GET_DIGESTS (R361): SPDM request answered over DOE. -/
  | spdmGetDigests
  /-- SPDM_GET_CERTIFICATE (R361): SPDM request returning the identity chain. -/
  | spdmGetCertificate (slot : Nat)
  /-- SPDM_CHALLENGE (R361): SPDM challenge answered with dual signatures. -/
  | spdmChallenge (slot : Nat) (nonce : BitVec 256)
  /-- SPDM_GET_MEASUREMENTS (R361): SPDM request returning the four measurements. -/
  | spdmGetMeasurements (nonce : BitVec 256)
  /-- SPDM_UNSUPPORTED (R361): Any other SPDM request gets an ERROR. -/
  | spdmUnsupported (code : BitVec 8)
  /-- PACKAGE_RESET (R359): Deassertion of PERST# starts boot. -/
  | packageReset
  /-- BOOT_PHASE_ADVANCE (R359): A boot phase completes or fails and BOOTSTAT advances. -/
  | bootPhaseAdvance (failure : BitVec 4)
  /-- IDLE_ENTRY (R362): After 10 us without work the package gates clocks. -/
  | idleEntry
  /-- IDLE_WAKE (R362): A launch, arrival or host access returns the package to active. -/
  | idleWake
  /-- POWER_REMOVED (R362): Power removal takes the package off. -/
  | powerRemoved
  /-- THERMAL_TRIP (R364): A junction at 105 C trips the package off. -/
  | thermalTrip
  /-- CLOCK_STEP (R363): The controller steps the arithmetic clock to hold the power limit. -/
  | clockStep (up : Bool)
  /-- REGISTER_ECC_ERROR (R160): An SRAM word error is corrected or marked poisoned. -/
  | registerEccError (site : SramSite) (uncorrectable : Bool)
  /-- DRAM_ECC_ERROR (R313): A DRAM granule error is corrected or poisoned. -/
  | dramEccError (granule : Nat) (uncorrectable : Bool)
  /-- DRAM_SCRUB (R313): Periodic 8-hour scrub of each bank. -/
  | dramScrub (core : Nat) (bank : Nat)
  /-- VERTICAL_LINK_FAILURE (R312): Exhausted beat retries fence the core. -/
  | verticalLinkFailure (core : Nat) (g : Nat) (elem : Nat) (addr : Word)
  /-- TRANSLATION_RETURN (R309): A parked inbound arrival enters the mesh after its walk. -/
  | translationReturn (n : Nat)
  /-- PORT_DOWN (R366): Failed flit retries or signal loss take a port and its plane down. -/
  | portDown (port : Nat)
  /-- FABRIC_PACKET_ARRIVAL (R369): A fabric packet is translated and performed in sequence at the destination. -/
  | fabricPacketArrival (p : Packet)
  /-- SWITCH_MARKER_ARRIVAL (R370): A switch marker releases new-plane packets of a stream. -/
  | switchMarkerArrival (src : Nat) (oldPlane : Nat) (newPlane : Nat) (last : BitVec 32)
  /-- FABRIC_ACK (R369): An acknowledgement frees the source's copy of a packet. -/
  | fabricAck (id : Nat) (cause : Option (BitVec 8))
  /-- REMOTE_RESPONSE (R113): A remote load or amo response arrives and the instruction commits or faults. -/
  | remoteResponse (id : Nat) (r : Response)
  /-- FABRIC_ITEM_TIMEOUT (R371): An item unacknowledged for 1 ms fails with 0x16. -/
  | fabricItemTimeout (id : Nat)
  /-- GANG_RESERVE (R375): A member receives RESERVE and reserves resources or stays silent. -/
  | gangReserve (issuer : Nat) (gang : Nat) (fcid : BitVec 20) (queue : Nat) (member : Nat) (packet : BitVec 512) (idx : Bool)
  /-- GANG_ACK (R375): The issuer receives a member's ACK and sends BEGIN once all arrive. -/
  | gangAck (gang : Nat) (member : Nat)
  /-- GANG_BEGIN (R375): A member receives BEGIN and enqueues the packet. -/
  | gangBegin (issuer : Nat) (gang : Nat)
  /-- GANG_TIMEOUT (R375): Missing ACKs after 50 us abort the gang. -/
  | gangTimeout (gang : Nat)
  /-- GANG_ABORT (R375): A member receives ABORT and frees its reservation. -/
  | gangAbort (issuer : Nat) (gang : Nat)
  /-- GANG_MEMBER_FAILURE (R376): A failed member triggers KILL and status reports. -/
  | gangMemberFailure (gang : Nat) (member : Nat) (killed : Bool)
  /-- GANG_KILL (R376): A member receives KILL and ends the gang's harts. -/
  | gangKill (issuer : Nat) (gang : Nat)
  /-- DEPOT_ERASE_DONE (R342): An erase finishes and the region opens or retires. -/
  | depotEraseDone (region : Nat) (ok : Bool)
  /-- STOW_UNIT_DONE (R343): One unit is programmed and verified. -/
  | stowUnitDone (region : Nat) (r : StowResult)
  /-- DEPOT_SEAL_DONE (R344): The seal record is written and the region is sealed. -/
  | depotSealDone (region : Nat) (ok : Bool)
  /-- DEPOT_COMMAND_COMPLETE (R339): A depot command completes, updates LAST and SEQ, increments and posts. -/
  | depotCommandComplete (region : Nat)
  /-- STAGING_LINE_FILL (R348): A missed line is filled from flash and the load served. -/
  | stagingLineFill (line : Nat) (flashError : Bool)
  /-- CACHE_REPARTITION (R349): Every 1 ms the staging-cache units are divided. -/
  | cacheRepartition
  /-- RING_VISIT (R379): The exchange engine visits a ring and takes a posted waybill. -/
  | ringVisit (ctx : Nat) (ring : Nat)
  /-- WAYBILL_MATCH (R386): Members with equal tags match and choose a plane. -/
  | waybillMatch (id : Nat) (peers : List PeerView)
  /-- SLOT_REQUEST (R389): A switch grants, queues or refuses reduction slots. -/
  | slotRequest (id : Nat) (x : TreeSwitch) (r : SlotAnswer)
  /-- SLOT_GRANT (R389): A queued slot request is granted as slots free. -/
  | slotGrant (id : Nat) (x : TreeSwitch)
  /-- BLOCK_PUSH (R388): A member pushes a tagged block through the aperture. -/
  | blockPush (id : Nat) (block : StepBlock)
  /-- SWITCH_FOLD (R390): A switch slot folds arriving blocks. -/
  | switchFold (tier : Nat) (switch : Nat) (slot : Nat) (e : SlotEvent)
  /-- BLOCK_PULL (R388): A receiver pulls a reduced block from the top switch. -/
  | blockPull (id : Nat) (block : StepBlock) (data : List Byte)
  /-- PARKED_BLOCK_RESUME (R392): A parked collective block is written or fails after the driver's answer. -/
  | parkedBlockResume (id : Nat) (block : Nat) (declined : Bool)
  /-- WAYBILL_COMPLETE (R393): A waybill completes, writes STATUS, adds INCR and advances TAIL. -/
  | waybillComplete (id : Nat)
  /-- COLLECTIVE_PLANE_LOST (R387): The collective's plane goes down and it ends with code 6. -/
  | collectivePlaneLost (id : Nat)
  /-- COLLECTIVE_PEER_FAILED (R394): A failed member makes the others end with code 4. -/
  | collectivePeerFailed (id : Nat) (peer : Nat)
  /-- ENGINE_TRANSLATION_FAULT (R308): An engine operation meets a page fault or permission fault, stalls, adds a record
  to the engine-fault queue and raises a host interrupt. -/
  | engineTranslationFault (core : Nat) (id : Nat)
  /-- TLB_PARITY_ERROR (R313): A parity error in TLB or walker state drops the entry, and the access is walked again. -/
  | tlbParityError (core : Nat) (index : Nat)
  /-- CLASS0_METERING_WINDOW (R325): At the end of each fixed 1 us window, a vault controller restores the 80,000-byte
  class-0 budget. -/
  | class0MeteringWindow (core : Nat)
  deriving DecidableEq, Repr

end Sys2Proof
end

