-- ==== Sys2Proof/Machine/State.lean ====
section
/-! DEFINITION. The state of one GW8 package: plain data, holding every piece of state that spec/ gives the machine.
Each register has one home. A map is a list of (key, value) pairs with rising keys; an absent key reads as the reset
value of its kind. -/

namespace Sys2Proof.Machine

/-- Why a step stops. -/
inductive Fault where
  /-- The package is unpowered (R362, R364): nothing on it runs until PERST# is applied. Raised by `step` alone.
  Safe: the device itself does nothing in that state. -/
  | powerOff
  deriving DecidableEq, Repr

/-- Why an instruction has no meaning here. -/
inductive Refusal where
  /-- The instruction of this mnemonic has no meaning in the model yet. Raised by arms of `exec` alone. Safe: no
  claim about a next state holds of it. -/
  | notModelled (mnemonic : String)
  deriving DecidableEq, Repr

/-! ### A hart -/

/-- A mask register (R13); `bound` names the transfer whose chunk-completion mask it is (R16). -/
structure MaskReg where
  explicit : Bool
  ew : Nat
  count : Nat
  bits : VReg
  bound : Option Nat
  deriving DecidableEq, Repr

/-- R8: compact, count 0, width 32 bits (4 bytes). -/
def MaskReg.reset : MaskReg := ⟨false, 4, 0, 0, none⟩

/-- A bound accumulator name (R17) with the contents of its physical accumulator (R187). -/
structure AccReg where
  phys : Nat
  rows : Nat
  cols : Nat
  int : Bool
  data : AccData
  deriving DecidableEq, Repr

/-- A committed `mma` whose blocks are not yet done (R195, R196), with the operand values it read. -/
structure PendingMma where
  i : Mma
  va : List VReg
  vb : List VReg
  vsa : VReg
  vsb : VReg
  s : Word
  deriving DecidableEq, Repr

/-- A translation held by a core (R304, R305): tag, page base and the leaf as walked. -/
structure TlbEntry where
  asid : BitVec 16
  base : Nat
  leaf : Word
  deriving DecidableEq, Repr

/-- A floating update deferred in deterministic mode (R333): virtual address, type, value and the issuing mode; `place`
is the address of its entry in the ordering log, which is reserved and waits for it to perform (R330), and `entry` the
translation that gave its word (R307). -/
structure Deferred where
  va : Word
  phys : Nat
  t : EType
  value : Word
  view : Mode
  place : Option Word
  entry : Option TlbEntry
  deriving DecidableEq, Repr

/-- How a started hart reports its end (R239, R319, R375): status address (0 for none), counter of which convoy, the
context and view that translate the status write (R404), and, for a hart of a gang, issuer package, gang and hart
index. -/
structure Join where
  status : Word
  counter : Option (Nat × KName)
  ctx : Nat
  view : Mode
  gang : Option (Nat × Nat × Nat)
  deriving DecidableEq, Repr

def Join.none : Join := ⟨0, .none, 0, .user, .none⟩

/-- What a hart slot is doing. -/
inductive Status where
  /-- It executes units. -/
  | running
  /-- The instruction waits as its description says (R115, R146, R166, R215, R265, R262, R274, R319, R331). -/
  | waiting (i : Instr)
  /-- The unit at the pc is held until it can proceed: issue stalls of R16, R196, R206, R219, R238, R339 and waits for
  fabric responses (R111). -/
  | stalled
  /-- `halt` (R165). -/
  | halted
  /-- Ended with this status; the steps of R239 from `step` on remain. -/
  | ending (status : BitVec 8) (step : Nat)
  deriving DecidableEq, Repr

/-- The restart and trap registers, the floating status and the other CSRs of one hart (R24 to R31). -/
structure Csrs where
  sc : Word
  vstart : BitVec 15
  bstart : BitVec 5
  posa : BitVec 32
  posb : BitVec 32
  chstep : BitVec 16
  fflags : BitVec 5
  frm : BitVec 3
  nanseen : Bool
  mag : BitVec 31
  vl : Nat
  env : Word
  frame : BitVec 32
  instret : Word
  xcause : BitVec 8
  xpc : Word
  xaddr : Word
  xelem : BitVec 14
  xbank : BitVec 5
  xstat : BitVec 5
  tvec : Word
  xscratch : Word
  deriving DecidableEq, Repr

def Csrs.reset : Csrs :=
  ⟨0, 0, 0, 0, 0, 0, 0, 0, false, 0, 0, 0, 0, 0, 0, 0, 0, 0, 0, 0, 0, 0⟩

/-- A merge that waits between two steps (R223, R224): its destination, its block as read, the positions, and the outputs
written. -/
structure MergeRun where
  d : SReg
  block : List Nat
  pa : Nat
  pb : Nat
  n : Nat
  deriving DecidableEq, Repr

/-- A pair in execution (log 72): items and commands numbered from `from_` on are its own, and `early` marks a wait for
one of them that its trial has passed over. -/
structure PairRun where
  from_ : Nat
  early : Bool
  deriving DecidableEq, Repr

/-- One resident hart (R8). `posted` counts what a unit still held has sent (R66, R371), `firm` marks a pair whose trial
has met no fault, `pair` stands while a pair is executed (log 72), `hostLast` is the address of its last host write
since its last flushing read (R285), `merge` is a merge in progress (R223), `aged` marks a `pdot` that has waited 2 µs
(R186). -/
structure Hart where
  convoy : Nat
  hidx : Nat
  status : Status
  mode : Mode
  pc : Word
  s : Vector Word 32
  v : Vector VReg 32
  m : Vector MaskReg 16
  acc : Vector (Option AccReg) 8
  c : Vector Word 16
  csr : Csrs
  ring : List (BitVec 32)
  frameCount : BitVec 32
  instNo : BitVec 32
  overflow : Bool
  det : Bool
  logged : Bool
  mma : List PendingMma
  deferred : List Deferred
  poison : List RegSite
  resp : List (Nat × Response)
  code : List Host.Cell
  join : Join
  start : Option Word
  stamp : Nat
  armed : Option (Nat × Nat)
  flushFault : Option Word
  posted : Nat
  firm : Bool
  pair : Option PairRun
  hostLast : Option Nat
  merge : Option MergeRun
  aged : Bool
  deriving DecidableEq, Repr

/-- R8, R36: what a hart slot holds before a start. -/
def Hart.reset : Hart :=
  { convoy := 0, hidx := 0, status := .running, mode := .user, pc := 0
    s := Vector.replicate 32 0, v := Vector.replicate 32 0, m := Vector.replicate 16 MaskReg.reset
    acc := Vector.replicate 8 none, c := Vector.replicate 16 0, csr := Csrs.reset
    ring := [], frameCount := 0, instNo := 0, overflow := false, det := false, logged := false
    mma := [], deferred := [], poison := [], resp := [], code := [], join := Join.none, start := none
    stamp := 0, armed := none, flushFault := none, posted := 0, firm := false, pair := none
    hostLast := none, merge := none, aged := false }

/-! ### A convoy -/

/-- The error record of a completion counter (R221) and the address that `cstat` gives with it. -/
structure KErr where
  word : Word
  addr : Word
  deriving DecidableEq, Repr

/-- What the record of a saved hart does not hold (R251): how it reports its end, its start handle, its deferred updates,
its fetch view, its poisoned words, the counter of its frame ids and its last host write. -/
structure OutHart where
  join : Join
  start : Option Word
  frameCount : BitVec 32
  deferred : List Deferred
  code : List Host.Cell
  poison : List RegSite
  hostLast : Option Nat
  deriving DecidableEq, Repr

/-! ### A context -/

/-- A log entry with a place and not yet written (R330). -/
structure LogEntry where
  at_ : Word
  data : BitVec 128
  deriving DecidableEq, Repr

/-- The registers of one log (R33) and its reserved entries; `fault` is the tag of the record in the engine-fault queue
that its writes wait for (R327); `held` counts the entries that gangs have reserved and not yet taken (R375). -/
structure Log where
  base : Word
  limit : Word
  head : Word
  en : Bool
  full : Bool
  pending : List LogEntry
  fault : Option (BitVec 8)
  held : Nat
  deriving DecidableEq, Repr

def Log.reset : Log := ⟨0, 0, 0, false, false, [], none, 0⟩

/-- A posted closure (R238): handle, class, counter of the poster's convoy, status address, view (R404), flags (R316),
launch sequence number (R317), the window that its handle indexes, the gang of the poster (R376); `engine` when an engine
posted it (R222). -/
structure Post where
  handle : Word
  win : Nat
  cls : Nat
  k : KName
  poster : Nat × Nat
  status : Word
  view : Mode
  engine : Bool
  ctx : Nat
  tag : BitVec 32
  det : Bool
  logged : Bool
  seq : BitVec 40
  gang : Option (Nat × Nat)
  deriving DecidableEq, Repr

/-- One context (R32, R235, R327, R356, R368, R389). `saved` holds when an environment window of it is in the save area
(R240), `savedWin` is then its number, with the posts that wait there; `windowPoison` are the poisoned doublewords of its
frames. -/
structure Context where
  vdev : Nat
  asid : BitVec 16
  ptbase : Word
  codebase : Word
  ctxbase : Word
  tvec : Word
  det : Bool
  fcid : BitVec 20
  prio : BitVec 3
  instances : BitVec 32
  killed : Bool
  route : Log
  order : Log
  saved : Bool
  savedWin : Nat
  windowPoison : List (Nat × List Nat)
  posts : List Post
  deriving DecidableEq, Repr

def Context.reset : Context :=
  { vdev := 0, asid := 0, ptbase := 0, codebase := 0, ctxbase := 0, tvec := 0, det := false, fcid := 0, prio := 0
    instances := 0, killed := false, route := Log.reset, order := Log.reset, saved := false, savedWin := 0
    windowPoison := [], posts := [] }

/-! ### A core -/

inductive TileState where
  | empty | filling | ready | draining
  deriving DecidableEq, Repr

/-- An entry of the tile table (R204). `hidden` marks a slot of a convoy's stream queues (R203). -/
structure Tile where
  tag : BitVec 48
  owner : Option Nat
  state : TileState
  susp : Bool
  hidden : Bool
  deriving DecidableEq, Repr

def Tile.reset : Tile := ⟨0, none, .empty, false, false⟩

/-- A frame of the environment store (R228). -/
structure Frame where
  refc : BitVec 16
  gen : BitVec 12
  cnt : BitVec 4
  ref : Bool
  live : Bool
  data : Vector Word 16
  poison : List Nat
  deriving DecidableEq, Repr

def Frame.reset : Frame := ⟨0, 1, 0, false, false, Vector.replicate 16 0, []⟩

/-- An environment window of a core (R226): its context, its frames and its allocation order (R229). `id` is its number,
which stays with it when it moves (R240); 0 is none. -/
structure Window where
  id : Nat
  ctx : Nat
  frames : List (Nat × Frame)
  order : List Nat
  deriving DecidableEq, Repr

inductive TransferKind where
  | cpy | cpy2 | tfill | tdrain
  deriving DecidableEq, Repr

/-- A transfer of the copy engine (R219): what was committed, the chunks done, those in `acks` that wait for the fabric,
the post of its completion closure (R222), the fault it waits on, and the cause and address of its failure while the
writes it has sent have not been answered (R214). -/
structure Transfer where
  id : Nat
  kind : TransferKind
  convoy : Nat
  hidx : Nat
  ctx : Nat
  view : Mode
  cls : Nat
  k : KName
  mask : Option MName
  dst : Word
  src : Word
  total : Nat
  row : Nat
  dpitch : Word
  spitch : Word
  slot : Nat
  chunk : Nat
  done : List Nat
  written : Nat
  cl : Option Post
  susp : Bool
  fault : Option (BitVec 8)
  acks : List Nat
  gang : Option (Nat × Nat)
  failed : Option (BitVec 8 × Word)
  deriving DecidableEq, Repr

/-- A tile slot of a convoy that is out whose contents are in the save area (R213): the suspended fill that it is owed,
and its poisoned words. -/
structure Reclaimed where
  slot : Nat
  fill : Option Transfer
  poison : List Nat
  deriving DecidableEq, Repr

/-- One convoy (R260, R8). `poster` names the convoy and the hart index that posted it; `members` are hart index and
GID of the harts that have not ended, and `out` what is kept of each while the convoy is out. `core` is none while it is
out, and `record` then names its record (R250). `sqPoison` holds, for each stream queue, the positions, counted from its
head, of the poisoned bytes (R313). `ended` holds once its last hart has ended, while reports of its harts are still owed:
its queues, counters and tiles are then gone (R261). `reclaimed` are its tile slots that stand in its record (R213). `win`
is the window that its handles index (R227), and `leaving` marks one whose pre-emption has begun (R248). -/
structure Convoy where
  ctx : Nat
  tag : BitVec 32
  cidx : Nat
  cls : Nat
  size : Nat
  members : List (Nat × Nat)
  core : Option Nat
  home : Nat
  ew : BitVec 2
  grp : BitVec 2
  q : Vector (List Word) 8
  k : Vector Word 8
  kerr : Vector KErr 8
  sq : Vector (List Byte) 2
  sqPoison : Vector (List Nat) 2
  arrived : BitVec 8
  poster : Option (Nat × Nat)
  suspended : Bool
  placedAt : Nat
  waitSince : Nat
  record : Option Word
  seq : BitVec 40
  det : Bool
  logged : Bool
  out : List (Nat × OutHart)
  ended : Bool
  reclaimed : List Reclaimed
  win : Nat
  leaving : Bool
  deriving DecidableEq, Repr

/-- R8, R28: `vtype` 2, queues empty, counters 0. -/
def Convoy.reset : Convoy :=
  { ctx := 0, tag := 0, cidx := 0, cls := 0, size := 1, members := [], core := none, home := 0
    ew := 2, grp := 0, q := Vector.replicate 8 [], k := Vector.replicate 8 0
    kerr := Vector.replicate 8 ⟨0, 0⟩, sq := Vector.replicate 2 [], sqPoison := Vector.replicate 2 [], arrived := 0, poster := none
    suspended := false, placedAt := 0, waitSince := 0, record := none, seq := 0, det := false
    logged := false, out := [], ended := false, reclaimed := [], win := 0, leaving := false }

/-- One core (R241, R203, R226, R238, R304, R312, R325, R186). -/
structure Core where
  fenced : Bool
  tlb : List TlbEntry
  tiles : List (Nat × Tile)
  tilePoison : List Nat
  windows : List (Nat × Window)
  posts : List Post
  transfers : List Transfer
  nextTransfer : Nat
  budget : Nat
  bankBusy : BitVec 32
  deriving DecidableEq, Repr

def Core.reset : Core :=
  { fenced := false, tlb := [], tiles := [], tilePoison := [], windows := [], posts := [], transfers := []
    nextTransfer := 0, budget := 80000, bankBusy := 0 }

/-- A cluster barrier (R273); `waiting` are the harts at it. BUSY is `count ≠ 0`. -/
structure CBar where
  count : Nat
  asid : BitVec 16
  waiting : List Nat
  deriving DecidableEq, Repr

def CBar.reset : CBar := ⟨0, 0, []⟩

/-- One cluster: the virtual device that owns it (R2, R356) and its barriers. -/
structure Cluster where
  vdev : Option Nat
  cbars : List (Nat × CBar)
  deriving DecidableEq, Repr

def Cluster.reset : Cluster := ⟨none, []⟩

/-- What an engine-fault record is about (R308): a transfer of a core, the status write of an ending hart, that of a
hart that left its slot before (R239), a log of a context, a `stow` of a region, a waybill ring, or a part of a
collective (its blocks, member table or completion). -/
inductive EngineTarget where
  | transfer (core id : Nat)
  | hartEnd (g : Nat)
  | late (id : Nat)
  | log (ctx : Nat) (order : Bool)
  | stow (region : Nat)
  | ring (ctx ring : Nat)
  | collective (id part : Nat)
  deriving DecidableEq, Repr

/-- A record of the engine-fault queue (R308). -/
structure EngineFault where
  va : Word
  asid : BitVec 16
  cause : BitVec 8
  engine : BitVec 8
  core : BitVec 8
  tag : BitVec 8
  target : EngineTarget
  deriving DecidableEq, Repr

/-- A report that is still owed for a hart with no slot (R239, R308, R312, R326): its context, convoy and index, how it
reports, its status, its core, and the record in the engine-fault queue that its status write waits for. -/
structure Late where
  id : Nat
  ctx : Nat
  convoy : Nat
  hidx : Nat
  join : Join
  status : BitVec 8
  core : BitVec 8
  fault : Option (BitVec 8)
  deriving DecidableEq, Repr

/-- One virtual device: launch sequence (R317), count of deterministic convoys (R332), engine-fault queue (R308),
restore list (R320), cache floor (R349). -/
structure VDev where
  seq : BitVec 40
  detCount : Nat
  efq : List EngineFault
  efWait : List EngineFault
  efTag : BitVec 8
  restores : List Nat
  floor : Nat
  deriving DecidableEq, Repr

def VDev.reset : VDev := ⟨0, 0, [], [], 0, [], 0⟩

/-! ### The package -/

/-- A packet in a launch queue (R317): what it is, its number, the next convoy to place, when it was enqueued, and how
its harts report (R319, R375); `logHeld` when its route-log entries are reserved (R375). -/
structure Queued where
  packet : BitVec 512
  seq : BitVec 40
  next : Nat
  since : Nat
  status : Word
  counter : Option (Nat × KName)
  ctx : Nat
  view : Mode
  det : Bool
  detBase : Nat
  gang : Option (Nat × Nat × Nat)
  reserved : List (Nat × List Nat)
  logHeld : Bool
  deriving DecidableEq, Repr

/-- A launch queue (R317): class, virtual device and context it is bound to, its packets, the packet held in the
endpoint and the writes stalled behind it (R318), and DISCARD (R355). -/
structure LQueue where
  bind : Option (Nat × Nat × Nat)
  entries : List Queued
  held : List (BitVec 512)
  discard : BitVec 32
  deriving DecidableEq, Repr

def LQueue.reset : LQueue := ⟨none, [], [], 0⟩

inductive DepotKind where
  | dopen | stow | dseal
  deriving DecidableEq, Repr

/-- An accepted depot command (R338, R339); `id` is a number from the same count as an item's. `begun` once it is
performed; `next` units are done; `asked` and `got` are the
bytes of the unit that come from another package; `code` once its work is over. -/
structure DepotCmd where
  id : Nat
  kind : DepotKind
  k : KName
  convoy : Nat
  hidx : Nat
  ctx : Nat
  view : Mode
  cls : Nat
  core : Nat
  unit : Nat
  units : Nat
  src : Word
  cl : Option Post
  begun : Bool
  next : Nat
  code : Option (BitVec 3)
  aborted : Bool
  fault : Option (BitVec 8)
  gang : Option (Nat × Nat)
  asked : Bool
  got : List (Nat × Byte)
  deriving DecidableEq, Repr

/-- STATE of a region record (R335). -/
inductive RegionState where
  | sealed | open_ | erasing | retired
  deriving DecidableEq, Repr

/-- A depot region (R334, R335): its record, its unit map, its grant and its commands. -/
structure Region where
  seq : BitVec 16
  done : Nat
  wear : Nat
  last : BitVec 3
  vfail : Bool
  state : RegionState
  units : BitVec 16384
  grant : Option Nat
  cmds : List DepotCmd
  busyDone : List DepotCmd
  deriving DecidableEq, Repr

/-- R335: sealed and erased at manufacture. -/
def Region.reset : Region := ⟨0, 0, 0, 0, false, .sealed, 0, none, [], []⟩

/-- A function of the endpoint (R353, R355, R356): the virtual device it is bound to, the size of its BAR 4, which is
2^(30 + bar4) bytes, and its control block. -/
structure Fn where
  vdev : Option Nat
  bar4 : Nat
  wbase : Word
  cmd : Word
  args : Vector Word 6
  busy : Bool
  lost : Bool
  code : BitVec 8
  intcause : BitVec 8
  deriving DecidableEq, Repr

def Fn.reset : Fn := ⟨none, 0, 0, 0, Vector.replicate 6 0, false, false, 0, 0⟩

/-- A command given by a write of GO (R356): who gave it, its code, its virtual device, its arguments, and its CODE once
its effect has taken place. -/
structure Command where
  fn : Nat
  op : BitVec 8
  vdev : Nat
  args : Vector Word 6
  code : Option (BitVec 8)
  deriving DecidableEq, Repr

/-- What the host or the SPDM requester last received. -/
inductive Reply where
  | unsupported
  | data (bytes : List Byte)
  | done
  | spdm (code : BitVec 8) (body : List Byte)
  | interrupt (fn : Nat) (vector : Nat)
  deriving DecidableEq, Repr

inductive Power where
  | active | idle | off
  deriving DecidableEq, Repr

/-- An item held at the source base die (R369, R371): who sent it, where to, on which plane with which number, and the
cause once it has failed. `hart` names the issuing hart by convoy and index; `covers` are the items that a flag of
`fsig` waits for (R294); `unsent` items wait for those; `transfer` names the byte of an engine's operation, `resentFrom`
the planes and numbers of earlier sendings (R370), and `since` is when the item was sent. `got` is the byte
that has come for an engine and is not written yet (R220); `entry` and `place` are the translation of a flag's word (R307)
and the place of its entry in the ordering log (R330). -/
structure Item where
  id : Nat
  dst : Nat
  plane : Nat
  seq : BitVec 32
  fcid : BitVec 20
  view : Mode
  va : Word
  t : EType
  op : ItemOp
  unord : Bool
  gid : Nat
  elem : Nat
  logged : Bool
  convoy : Nat
  hidx : Nat
  waits : Bool
  covers : List Nat
  unsent : Bool
  failed : Option (BitVec 8)
  resentFrom : List (Nat × BitVec 32)
  transfer : Option (Nat × Nat × Nat)
  since : Nat
  got : Option Word
  entry : Option TlbEntry
  place : Option Word
  deriving DecidableEq, Repr

/-- What a destination answers to a packet (R369, R371). -/
inductive Answer where
  | ack (cause : Option (BitVec 8))
  | response (r : Response)
  deriving DecidableEq, Repr

/-- The end of a stream at its destination (R369, R370). -/
structure InStream where
  next : BitVec 32
  /-- Packets that wait for an earlier number or for the marker. -/
  early : List Packet
  /-- Numbers already performed, with their answers. -/
  performed : List (BitVec 32 × Answer)
  /-- The old plane and the last number that must be performed first. -/
  until_ : Option (Nat × BitVec 32)
  deriving DecidableEq, Repr

def InStream.reset : InStream := ⟨0, [], [], none⟩

/-- What the base dies send to other packages: answers (R369), switch markers (R370), the messages of gangs
(R375, R376) and the blocks of collectives (R388). What a package sends to itself stays here until it arrives. -/
inductive Sent where
  | answer (dst plane : Nat) (seq : BitVec 32) (a : Answer)
  | marker (dst oldPlane newPlane : Nat) (last : BitVec 32)
  | reserve (dst gang member : Nat)
  | gangAck (dst gang member : Nat)
  | begin_ (dst gang : Nat)
  | abort (dst gang : Nat)
  | kill (dst gang : Nat)
  | push (id step block : Nat) (data : List Byte)
  deriving DecidableEq, Repr

/-- A gang at its issuer (R375, R376). -/
structure Gang where
  id : Nat
  convoy : Nat
  k : KName
  status : Word
  ctx : Nat
  view : Mode
  members : List Nat
  harts : Nat
  queue : Nat
  packet : BitVec 512
  idx : Bool
  acks : List Nat
  begun : Bool
  isOver : Bool
  reported : List Nat
  killed : Bool
  since : Nat
  deriving DecidableEq, Repr

/-- A gang's reservation at a member (R375): a queue entry, hart slots of each convoy, and `logged` route-log entries. -/
structure GangPart where
  issuer : Nat
  gang : Nat
  member : Nat
  ctx : Nat
  queue : Nat
  packet : BitVec 512
  slots : List (Nat × List Nat)
  detBase : Option Nat
  logged : Nat
  deriving DecidableEq, Repr

/-- Where a collective in flight stands at this member (R379 to R394): its ring and TAIL, the addresses of ring header
and waybill, the waybill and member table as taken, the plane chosen, the tiers and switches asked for and granted and
whether all of them are, how many blocks every receiver has pulled, the source blocks read, the blocks held between two
steps and those pushed on in a later one, by step and number (R385, R388), the destination blocks written, blocks that
wait in the parking buffer, the parts that wait for an answer with their causes and addresses, the answers given (R392),
its STATUS once it has ended, and whether it is complete here while other members still pull. -/
structure Coll where
  id : Nat
  ctx : Nat
  ring : Nat
  tail : Word
  header : Word
  addr : Word
  waybill : BitVec 1024
  table : List Nat
  matched : Bool
  plane : Nat
  queued : List TreePlace
  granted : List TreePlace
  slotted : Bool
  emptied : Nat
  read : List (Nat × List Byte)
  mid : List (StepBlock × List Byte)
  pushed : List StepBlock
  pulled : List Nat
  parked : List (Nat × List Byte)
  waits : List (Nat × BitVec 8)
  answers : List (Nat × Bool)
  outcome : Option (BitVec 64)
  done : Bool
  aborted : Bool
  deriving DecidableEq, Repr

/-- One slot of a switch's reduction units (R389, R390): its number, which collective holds it at which switch of its
tree, the tag of the block that it folds, the blocks that have arrived, in their order, with their ports, and the
receivers that have pulled the result. -/
structure SwitchSlot where
  at_ : TreeSwitch
  slot : Nat
  owner : Nat
  tag : Option BlockTag
  arrived : List (Nat × List Byte)
  pulled : List Nat
  deriving DecidableEq, Repr

/-- A request for reduction slots that waits at a switch (R389), with the priority of its tenant and the clock
at which it arrived. -/
structure SlotWait where
  at_ : TreeSwitch
  owner : Nat
  prio : BitVec 3
  since : Word
  deriving DecidableEq, Repr

/-- The staging cache (R348, R349): its percentage; lines held (4 KiB line numbers of the depot): 1 as filled for a load
that has not taken it yet, 3 once it has, 2 for one whose flash read failed; units by (tower, virtual device); for each
monitor, by the same pair, its lines by recency and the buckets of the sampled accesses of the interval, and the count
that chooses one access in 64; and the lines that loads wait for. -/
structure Staging where
  pct : Nat
  lines : List (Nat × Nat)
  units : List ((Nat × Nat) × Nat)
  recent : List ((Nat × Nat) × List Nat)
  hits : List ((Nat × Nat) × List Nat)
  sample : List ((Nat × Nat) × Nat)
  wanted : List Nat
  deriving DecidableEq, Repr

/-- One GW8 package. -/
structure State where
  /-- What happens next outside the harts' own units: steps of the other agents (log 1). -/
  agenda : List Instr
  /-- The hart whose unit is being executed. -/
  cur : Nat
  /-- The hart slot from which the next choice of a hart starts (R243, log 12). -/
  turn : Nat
  /-- Clocks since package reset (R25), wall clock in picoseconds, and the argument of the next free value. -/
  cycle : Word
  now : Nat
  freeCount : Nat
  harts : List (Nat × Hart)
  convoys : List (Nat × Convoy)
  contexts : List (Nat × Context)
  cores : List (Nat × Core)
  clusters : List (Nat × Cluster)
  vdevs : List (Nat × VDev)
  queues : List (Nat × LQueue)
  regions : List (Nat × Region)
  /-- Every byte of the vaults, the tile stores and the depot, by key (log 3); an unlisted key reads 0. -/
  mem : List Host.Cell
  /-- Poisoned 32-byte granules (R313), by key / 32. -/
  poison : List Nat
  /-- Writes issued to host memory (R285), latest first: bus address and byte. -/
  hostWrites : List (Nat × Byte)
  /-- Flushing reads issued to host memory (R285), latest first: bus address, and how many bytes had been written
  before. -/
  hostFlushes : List (Nat × Nat)
  /-- Round-robin pointers of the dispatcher, by effective class (R320). -/
  rr : List (Nat × Nat)
  staging : Staging
  power : Power
  bootPhase : Nat
  bootFail : BitVec 4
  /-- The measurements of slots 1 to 4 and the certificate chain of slot 0 (R360, R361), fixed at phase 5. -/
  measured : List (List Byte)
  chain : List Byte
  clockMHz : Nat
  powerLimit : Nat
  fns : List (Nat × Fn)
  commands : List Command
  /-- Machine-check log (R357), latest first, with MCHEAD, the places of the ring that have been read since they were
  written (R355), and MCOVF. -/
  mclog : List (BitVec 256)
  mchead : Nat
  mcread : List Nat
  mcovf : BitVec 32
  /-- What the host and the requester last received, latest first. -/
  replies : List Reply
  package : Nat
  /-- Planes that are up at this package (R365, R366). -/
  planes : BitVec 96
  items : List Item
  nextItem : Nat
  outSeq : List ((Nat × Nat) × BitVec 32)
  inStreams : List ((Nat × Nat) × InStream)
  /-- Base translation caches (R309), by tower: translations with the virtual device that they belong to. -/
  baseTlb : List (Nat × List (Nat × TlbEntry))
  /-- Arrivals in the parking buffers (R309). -/
  arrivals : List Packet
  sent : List Sent
  gangs : List Gang
  nextGang : Nat
  parts : List GangPart
  colls : List Coll
  nextColl : Nat
  switchSlots : List SwitchSlot
  slotWaits : List SlotWait
  nextConvoy : Nat
  nextContext : Nat
  nextWindow : Nat
  /-- The ring that the exchange engines visit next (R379), counted over contexts and rings. -/
  visit : Nat
  /-- When the package was last active (R362). -/
  activeAt : Nat
  /-- When the units of the staging cache were last divided (R349). -/
  dividedAt : Nat
  /-- Reports owed for harts that have no slot. -/
  lates : List Late
  nextLate : Nat
  deriving DecidableEq, Repr

/-- After PERST# is deasserted (R359): phase 1, nothing resident, no cluster assigned, memory zero. -/
def State.reset : State :=
  { agenda := [], cur := 0, turn := 0, cycle := 0, now := 0, freeCount := 0
    harts := [], convoys := [], contexts := [], cores := [], clusters := [], vdevs := [], queues := [], regions := []
    mem := [], poison := [], hostWrites := [], hostFlushes := [], rr := []
    staging := { pct := 0, lines := [], units := [], recent := [], hits := [], sample := [], wanted := [] }
    power := .active, bootPhase := 1, bootFail := 0, measured := [], chain := [], clockMHz := 2500, powerLimit := 3600
    fns := [], commands := [], mclog := [], mchead := 0, mcread := [], mcovf := 0, replies := []
    package := 0, planes := BitVec.allOnes 96, items := [], nextItem := 0, outSeq := [], inStreams := []
    baseTlb := [], arrivals := [], sent := [], gangs := [], nextGang := 0, parts := [], colls := [], nextColl := 0
    switchSlots := [], slotWaits := [], nextConvoy := 0, nextContext := 0, nextWindow := 0, visit := 0, activeAt := 0
    dividedAt := 0, lates := [], nextLate := 0 }

end Sys2Proof.Machine
end

