-- ==== Sys2Proof/Machine/Bits.lean ====
section
/-! DEFINITION. Bytes, maps and memory as lists: the plain functions that every operation of the machine is built
from. -/

namespace Sys2Proof.Machine

/-! ### Maps -/

/-- The value at key `k`. -/
def mget {α : Type} (m : List (Nat × α)) (k : Nat) : Option α :=
  (m.find? fun p => p.1 == k).map Prod.snd

/-- Insert before the first greater key. -/
def minsert {α : Type} : List (Nat × α) → Nat → α → List (Nat × α)
  | [], k, v => [(k, v)]
  | p :: t, k, v => if k < p.1 then (k, v) :: p :: t else p :: minsert t k v

/-- Remove key `k`. -/
def merase {α : Type} (m : List (Nat × α)) (k : Nat) : List (Nat × α) :=
  m.filter fun p => p.1 != k

/-- Set key `k` to `v`. -/
def mset {α : Type} (m : List (Nat × α)) (k : Nat) (v : α) : List (Nat × α) :=
  minsert (merase m k) k v

/-- Set a key of any kind; the latest stands first. -/
def aset {κ α : Type} [DecidableEq κ] (m : List (κ × α)) (k : κ) (v : α) : List (κ × α) :=
  (k, v) :: m.filter fun p => decide (p.1 ≠ k)

def aget {κ α : Type} [DecidableEq κ] (m : List (κ × α)) (k : κ) : Option α :=
  (m.find? fun p => decide (p.1 = k)).map Prod.snd

/-- Insert before the first element that `le` puts after it. -/
def insertBy {α : Type} (le : α → α → Bool) (x : α) : List α → List α
  | [] => [x]
  | y :: t => if le x y then x :: y :: t else y :: insertBy le x t

/-- Sort; equal elements keep their order. -/
def sortBy {α : Type} (le : α → α → Bool) : List α → List α
  | [] => []
  | x :: t => insertBy le x (sortBy le t)

/-! ### Bytes -/

/-- The value of little-endian bytes (R4). -/
def ofBytes : List Byte → Nat
  | [] => 0
  | b :: t => b.toNat + 256 * ofBytes t

/-- The low `n` bytes of a value, little-endian (R4). -/
def toBytes : Nat → Nat → List Byte
  | 0, _ => []
  | n + 1, v => BitVec.ofNat 8 v :: toBytes n (v / 256)

/-- Bits `lo` to `lo + len - 1` of a number. -/
def field (v lo len : Nat) : Nat := (v >>> lo) % 2 ^ len

/-- Bit `i` of a number. -/
def bit (v i : Nat) : Bool := field v i 1 == 1

/-- A `w`-bit number read as two's complement. -/
def toSigned (w v : Nat) : Int := if v % 2 ^ w < 2 ^ (w - 1) then (v % 2 ^ w : Nat) else (v % 2 ^ w : Nat) - (2 ^ w : Nat)

/-- The `w`-bit two's complement of an integer. -/
def ofSigned (w : Nat) (i : Int) : Nat := (i % (2 ^ w : Nat)).toNat

def b2n (b : Bool) : Nat := if b then 1 else 0

/-- Sign extension of the low `w` bits to a doubleword. -/
def sext (w v : Nat) : Word := BitVec.ofNat 64 (ofSigned 64 (toSigned w v))

/-- The immediate of R68: 32 bits, sign-extended. -/
def simm (i : BitVec 32) : Word := i.signExtend 64

/-! ### Memory -/

/-- The byte at a key; a key that is not listed reads 0. -/
def memRead (m : List Host.Cell) (k : Nat) : Byte := (mget m k).getD 0

/-- Write one byte; writing 0 removes the entry, so that equal memories are equal lists. -/
def memWrite (m : List Host.Cell) (k : Nat) (b : Byte) : List Host.Cell :=
  if b = 0 then merase m k else mset m k b

/-- `n` bytes from key `k`, little-endian. -/
def memReadN (m : List Host.Cell) (k n : Nat) : Nat :=
  m.foldl (fun acc p => if k ≤ p.1 ∧ p.1 < k + n then acc + p.2.toNat <<< (8 * (p.1 - k)) else acc) 0

def memWriteBytes : List Host.Cell → Nat → List Byte → List Host.Cell
  | m, _, [] => m
  | m, k, b :: t => memWriteBytes (memWrite m k b) (k + 1) t

def memReadBytes (m : List Host.Cell) (k n : Nat) : List Byte := toBytes n (memReadN m k n)

/-- Drop every byte with a key from `k` to `k + n - 1`: they read 0. -/
def memClear (m : List Host.Cell) (k n : Nat) : List Host.Cell :=
  m.filter fun p => p.1 < k || k + n ≤ p.1

/-- The canonical form of memory: keys strictly rising and no byte 0. -/
def memWf : List Host.Cell → Bool
  | [] => true
  | [p] => p.2 != 0
  | p :: q :: t => p.2 != 0 && decide (p.1 < q.1) && memWf (q :: t)

/-! ### Keys of memory (log 3) -/

def vaultKey (core off : Nat) : Nat := core * 2 ^ 30 + off
def depotKey (a : Nat) : Nat := 2 ^ 42 + a
def tileKey (core off : Nat) : Nat := 2 ^ 43 + core * 2 ^ 21 + off
def isVault (k : Nat) : Bool := k < 2 ^ 38
def isDepot (k : Nat) : Bool := decide (2 ^ 42 ≤ k) && decide (k < 2 ^ 43)

/-- Bank and bank offset of a striped vault offset (R168). -/
def stripedBank (x : Nat) : Nat := field x 5 5
def stripedOff (x : Nat) : Nat := (x >>> 10) * 32 + x % 32
/-- The striped name of bank `b`, bank offset `o` (R168). -/
def stripedOf (b o : Nat) : Nat := (o / 32) * 1024 + b * 32 + o % 32
/-- The striped name of a BANKED vault offset (R168). -/
def bankedToStriped (x : Nat) : Nat := stripedOf (x >>> 25) (x % 2 ^ 25)

/-- Bytes of a bank that the staging cache takes at a percentage (R348). -/
def stagingBytes (pct : Nat) : Nat := pct * 2 ^ 25 / 100 / 65536 * 65536
/-- Does a vault offset lie in the staging share, the top of its bank (R169)? -/
def inShare (pct off : Nat) : Bool := decide (2 ^ 25 ≤ stripedOff off + stagingBytes pct)

/-! ### Lines and the pc (R35, R59) -/

def lineOf (pc : Word) : Word := pc &&& ~~~0x3F#64
def slotOf (pc : Word) : Nat := (pc &&& 7#64).toNat
/-- The pc of the next slot (R59). -/
def nextSlot (pc : Word) : Word :=
  if slotOf pc < 4 then pc + 1 else lineOf pc + 64
/-- Does a pc break R35? -/
def pcBreaks (pc : Word) : Bool := (pc >>> 3) &&& 7#64 != 0 || decide (slotOf pc > 4)

/-! ### Types (R37) -/

/-- Bits of one element; a q4 code has 4. -/
def tBits : EType → Nat
  | .i8 | .n8 | .e4m3 | .e5m2 => 8
  | .i16 | .n16 | .f16 | .bf16 => 16
  | .i32 | .n32 | .f32 => 32
  | .i64 | .n64 | .f64 => 64
  | .q4 => 4

def tBytes (t : EType) : Nat := tBits t / 8

def tSigned : EType → Bool
  | .i8 | .i16 | .i32 | .i64 => true
  | _ => false

def tFloat : EType → Bool
  | .f16 | .bf16 | .f32 | .f64 | .e4m3 | .e5m2 | .q4 => true
  | _ => false

/-- A loaded value in a scalar register (R109): i-types sign-extended, the others placed in the low bits. -/
def extendTo (t : EType) (v : Nat) : Word :=
  if tSigned t then sext (tBits t) v else BitVec.ofNat 64 (v % 2 ^ tBits t)

end Sys2Proof.Machine
end

