-- ==== Sys2Proof/Machine/Float.lean ====
section
/-! DEFINITION. The arithmetic of R37 to R58: formats, exact values, rounding, flags, conversions. A result is an exact
value rounded once. -/

namespace Sys2Proof.Machine

/-- Contributions to `fflags` (R27, R43). -/
abbrev Flags := BitVec 5
def fNV : Flags := 1
def fDZ : Flags := 2
def fOF : Flags := 4
def fUF : Flags := 8
def fNX : Flags := 16

/-- The value of a floating operand: NaN (signalling or not), infinity, or (-1)^neg * m * 2^e. -/
inductive FVal where
  | nan (signalling : Bool)
  | inf (neg : Bool)
  | fin (neg : Bool) (m : Nat) (e : Int)
  deriving DecidableEq, Repr

/-- Exponent and fraction bits of a format (R37). -/
def fmtBits : EType → Nat × Nat
  | .f64 => (11, 52)
  | .f16 => (5, 10)
  | .bf16 => (8, 7)
  | .e4m3 => (4, 3)
  | .e5m2 => (5, 2)
  | _ => (8, 23)

def fmtBias (t : EType) : Nat := 2 ^ ((fmtBits t).1 - 1) - 1

/-- Exponent of the least bit of a subnormal (R38, R44, R45). -/
def fmtQmin (t : EType) : Int := 1 - (fmtBias t : Int) - ((fmtBits t).2 : Int)

/-- The encoding of infinity, magnitude bits only. -/
def fmtInf (t : EType) : Nat := (2 ^ (fmtBits t).1 - 1) * 2 ^ (fmtBits t).2

/-- Largest finite magnitude, as bits (R37). -/
def fmtMax (t : EType) : Nat := if t = .e4m3 then 0x7E else fmtInf t - 1

/-- The canonical NaN (R39). -/
def canonNaN (t : EType) : Nat :=
  if t = .e4m3 then 0x7F else fmtInf t + 2 ^ ((fmtBits t).2 - 1)

def signBit (t : EType) : Nat := (fmtBits t).1 + (fmtBits t).2

/-- Read an encoding (R38, R44, R45). -/
def fDecode (t : EType) (v : Nat) : FVal :=
  let fb := (fmtBits t).2
  let eb := (fmtBits t).1
  let s := bit v (eb + fb)
  let ex := field v fb eb
  let fr := field v 0 fb
  if t = .e4m3 then
    if ex = 15 ∧ fr = 7 then .nan false
    else if ex = 0 then .fin s fr (fmtQmin t) else .fin s (fr + 2 ^ fb) ((ex : Int) - 1 + fmtQmin t)
  else if ex = 2 ^ eb - 1 then
    if fr = 0 then .inf s else .nan (decide (fr < 2 ^ (fb - 1)))
  else if ex = 0 then .fin s fr (fmtQmin t)
  else .fin s (fr + 2 ^ fb) ((ex : Int) - 1 + fmtQmin t)

/-- Does a fraction round away from zero (R40)? `half` is the comparison of the discarded part with one half. -/
def roundUp (mode : Nat) (neg odd exact : Bool) (half : Ordering) : Bool :=
  if exact then false
  else match mode with
    | 0 => half == .gt || (half == .eq && odd)
    | 1 => half != .lt
    | 3 => neg
    | 4 => !neg
    | _ => false

/-- Round `m * 2^e` (a little more when `sticky`) to a multiple of `2^q`: the multiple, and whether it is inexact. -/
def roundAt (mode : Nat) (neg : Bool) (m : Nat) (e : Int) (sticky : Bool) (q : Int) : Nat × Bool :=
  if q ≤ e then (m <<< (e - q).toNat, sticky)
  else
    let sh := (q - e).toNat
    let n := m >>> sh
    let r := m % 2 ^ sh
    let h := 2 ^ (sh - 1)
    let half : Ordering := if r < h then .lt else if r = h then (if sticky then .gt else .eq) else .gt
    let exact := decide (r = 0) && !sticky
    (if roundUp mode neg (n % 2 == 1) exact half then n + 1 else n, !exact)

/-- Overflow (R42). -/
def overflowTo (t : EType) (mode : Nat) (neg : Bool) : Nat :=
  let toInf := match mode with
    | 0 => true
    | 1 => true
    | 3 => neg
    | 4 => !neg
    | _ => false
  (if toInf then fmtInf t else fmtMax t) + b2n neg * 2 ^ signBit t

/-- Round an exact non-NaN finite value to a format (R40 to R43). Tininess is judged after rounding with an unbounded
exponent (log 16). -/
def roundF (t : EType) (mode : Nat) (neg : Bool) (m : Nat) (e : Int) (sticky : Bool) : Nat × Flags :=
  if m = 0 ∧ !sticky then (b2n neg * 2 ^ signBit t, 0)
  else
    let fb : Nat := (fmtBits t).2
    let top : Int := e + (m.log2 : Int)
    let qn := top - (fb : Int)
    let q := max qn (fmtQmin t)
    let (n, ix) := roundAt mode neg m e sticky q
    let mag := (q - fmtQmin t).toNat * 2 ^ fb + n
    if mag > fmtMax t then (overflowTo t mode neg, fOF ||| fNX)
    else
      let nu := (roundAt mode neg m e sticky qn).1
      let tiny := decide (qn < fmtQmin t) && !(nu == 2 ^ (fb + 1) && qn + 1 == fmtQmin t)
      let fl : Flags := (if ix then fNX else 0) ||| (if ix && tiny then fUF else 0)
      (mag + b2n neg * 2 ^ signBit t, fl)

/-- The sign of an exact zero sum (R41). -/
def zeroSign (mode : Nat) (n1 n2 : Bool) : Bool :=
  if n1 = n2 then n1 else mode == 3

/-- Encode a value that needs no rounding rule of its own. -/
def fEncode (t : EType) (mode : Nat) : FVal → Nat × Flags
  | .nan s => (canonNaN t, if s then fNV else 0)
  | .inf n => (fmtInf t + b2n n * 2 ^ signBit t, 0)
  | .fin n m e => roundF t mode n m e false

def FVal.isNaN : FVal → Bool
  | .nan _ => true
  | _ => false

def FVal.isSig : FVal → Bool
  | .nan s => s
  | _ => false

def FVal.neg : FVal → FVal
  | .nan s => .nan s
  | .inf n => .inf (!n)
  | .fin n m e => .fin (!n) m e

/-- NV for signalling operands (R38). -/
def sigFlags (xs : List FVal) : Flags := if xs.any FVal.isSig then fNV else 0

/-- The signed integer `±m * 2^(e - lo)` for `lo ≤ e`. -/
def alignTo (n : Bool) (m : Nat) (e lo : Int) : Int :=
  let v : Int := (m <<< (e - lo).toNat : Nat)
  if n then -v else v

/-- The exact sum of two finite values as a value, with the zero rule of R41. -/
def exactSum (mode : Nat) (n1 : Bool) (m1 : Nat) (e1 : Int) (n2 : Bool) (m2 : Nat) (e2 : Int) : FVal :=
  let lo := min e1 e2
  let v := alignTo n1 m1 e1 lo + alignTo n2 m2 e2 lo
  if v = 0 then .fin (if m1 = 0 ∧ m2 = 0 then zeroSign mode n1 n2 else mode == 3) 0 lo
  else .fin (decide (v < 0)) v.natAbs lo

/-- a + b, rounded once (R99). -/
def fAddV (t : EType) (mode : Nat) (a b : FVal) : Nat × Flags :=
  match a, b with
  | .nan _, _ => (canonNaN t, sigFlags [a, b])
  | _, .nan _ => (canonNaN t, sigFlags [a, b])
  | .inf n, .inf n' => if n = n' then fEncode t mode (.inf n) else (canonNaN t, fNV)
  | .inf n, .fin _ _ _ => fEncode t mode (.inf n)
  | .fin _ _ _, .inf n => fEncode t mode (.inf n)
  | .fin n1 m1 e1, .fin n2 m2 e2 => fEncode t mode (exactSum mode n1 m1 e1 n2 m2 e2)

/-- The exact product; none for 0 times infinity. Its sign is that of both operands also where it is zero, for integer
operands too: R57 speaks of a product that is -0, and the spec does not say whether integer 0 times a negative integer is
one (DESIGN CHOICE, log 70). -/
def exactMul : FVal → FVal → Option FVal
  | .nan s, y => some (.nan (s || y.isSig))
  | x, .nan s => some (.nan (s || x.isSig))
  | .inf n, .inf n' => some (.inf (n != n'))
  | .inf n, .fin n' m _ => if m = 0 then none else some (.inf (n != n'))
  | .fin n m _, .inf n' => if m = 0 then none else some (.inf (n != n'))
  | .fin n m e, .fin n' m' e' => some (.fin (n != n') (m * m') (e + e'))

def fMulV (t : EType) (mode : Nat) (a b : FVal) : Nat × Flags :=
  match exactMul a b with
  | none => (canonNaN t, fNV)
  | some v => fEncode t mode v

/-- a * b + c with one rounding (R99). -/
def fFmaV (t : EType) (mode : Nat) (a b c : FVal) : Nat × Flags :=
  match exactMul a b with
  | none => (canonNaN t, fNV)
  | some p =>
    let r := fAddV t mode p c
    (r.1, r.2 ||| sigFlags [a, b, c])

/-- a / b (R99). -/
def fDivV (t : EType) (mode : Nat) (a b : FVal) : Nat × Flags :=
  match a, b with
  | .nan _, _ => (canonNaN t, sigFlags [a, b])
  | _, .nan _ => (canonNaN t, sigFlags [a, b])
  | .inf _, .inf _ => (canonNaN t, fNV)
  | .inf n, .fin n' _ _ => fEncode t mode (.inf (n != n'))
  | .fin n _ _, .inf n' => fEncode t mode (.fin (n != n') 0 0)
  | .fin n m e, .fin n' m' e' =>
    if m' = 0 then
      if m = 0 then (canonNaN t, fNV) else ((fEncode t mode (.inf (n != n'))).1, fDZ)
    else
      let k := (fmtBits t).2 + 4 + m'.log2
      let q := (m <<< k) / m'
      roundF t mode (n != n') q (e - e' - (k : Int)) (decide ((m <<< k) % m' ≠ 0))

/-- Integer square root by bits, the highest first. -/
def isqrtGo (n : Nat) : Nat → Nat → Nat
  | 0, r => r
  | b + 1, r =>
    let r' := r + 2 ^ b
    isqrtGo n b (if r' * r' ≤ n then r' else r)

def isqrt (n : Nat) : Nat := isqrtGo n (n.log2 / 2 + 1) 0

/-- Square root (R99). -/
def fSqrtV (t : EType) (mode : Nat) (a : FVal) : Nat × Flags :=
  match a with
  | .nan s => (canonNaN t, if s then fNV else 0)
  | .inf n => if n then (canonNaN t, fNV) else fEncode t mode (.inf false)
  | .fin n m e =>
    if m = 0 then fEncode t mode a
    else if n then (canonNaN t, fNV)
    else
      let k : Nat := 2 * ((fmtBits t).2 + 5) + (e % 2).toNat
      let x := m <<< k
      let r := isqrt x
      roundF t mode false r ((e - (k : Int)) / 2) (decide (r * r ≠ x))

/-- 1 / x (R126). -/
def fRcpV (t : EType) (mode : Nat) (a : FVal) : Nat × Flags := fDivV t mode (.fin false 1 0) a

/-- 1 / sqrt x (R126). -/
def fRsqV (t : EType) (mode : Nat) (a : FVal) : Nat × Flags :=
  match a with
  | .nan s => (canonNaN t, if s then fNV else 0)
  | .inf n => if n then (canonNaN t, fNV) else fEncode t mode (.fin false 0 0)
  | .fin n m e =>
    if m = 0 then ((fEncode t mode (.inf n)).1, fDZ)
    else if n then (canonNaN t, fNV)
    else
      let m' := m <<< (e % 2).toNat
      let e' := e - e % 2
      let k := (fmtBits t).2 + 5 + m'.log2
      let r := isqrt (2 ^ (2 * k) / m')
      roundF t mode false r (-(k : Int) - e' / 2) (decide (r * r * m' ≠ 2 ^ (2 * k)))

/-- Product of the roots 2^(2^-i) selected by the bits of a fraction of `n` bits, in fixed point of 256 bits;
`root` is 2^(2^-i). -/
def exp2Go (frac : Nat) : Nat → Nat → Nat → Nat
  | 0, _, acc => acc
  | n + 1, root, acc =>
    let root' := isqrt (root * 2 ^ 256)
    exp2Go frac n root' (if frac.testBit n then acc * root' / 2 ^ 256 else acc)

/-- 2^x correctly rounded (R126; log 16 for the working precision). -/
def fExp2V (t : EType) (mode : Nat) (a : FVal) : Nat × Flags :=
  match a with
  | .nan s => (canonNaN t, if s then fNV else 0)
  | .inf n => fEncode t mode (if n then .fin false 0 0 else .inf false)
  | .fin n m e =>
    if m = 0 then fEncode t mode (.fin false 1 0)
    else if e + (m.log2 : Int) > 10 then
      -- far beyond the exponent range of every format
      roundF t mode false 1 (if n then -4096 else 4096) true
    else if 0 ≤ e then
      let k : Int := (m <<< e.toNat : Nat)
      roundF t mode false 1 (if n then -k else k) false
    else
      let fb := (-e).toNat
      let v : Int := if n then -(m : Int) else m
      let whole := v / (2 ^ fb : Nat)
      let frac := (v % (2 ^ fb : Nat)).toNat
      if frac = 0 then roundF t mode false 1 whole false
      else roundF t mode false (exp2Go frac fb (2 * 2 ^ 256) (2 ^ 256)) (whole - 256) true

/-- Fraction bits of log2 of `y / 2^320` in [1, 2), by repeated squaring. -/
def log2Go : Nat → Nat → Nat → Nat
  | 0, _, acc => acc
  | n + 1, y, acc =>
    let y2 := y * y / 2 ^ 320
    if y2 < 2 ^ 321 then log2Go n y2 (acc * 2) else log2Go n (y2 / 2) (acc * 2 + 1)

/-- log2 x correctly rounded (R126; log 16 for the working precision). -/
def fLog2V (t : EType) (mode : Nat) (a : FVal) : Nat × Flags :=
  match a with
  | .nan s => (canonNaN t, if s then fNV else 0)
  | .inf n => if n then (canonNaN t, fNV) else fEncode t mode (.inf false)
  | .fin n m e =>
    if m = 0 then ((fEncode t mode (.inf true)).1, fDZ)
    else if n then (canonNaN t, fNV)
    else
      let k : Int := e + (m.log2 : Int)
      if m = 2 ^ m.log2 then fEncode t mode (.fin (decide (k < 0)) k.natAbs 0)
      else
        let f := log2Go 128 (m <<< (320 - m.log2)) 0
        let v : Int := k * (2 ^ 128 : Nat) + f
        if v ≥ 0 then roundF t mode false v.toNat (-128) true
        else roundF t mode true ((-v).toNat - 1) (-128) true

/-! ### Comparison (R50, R102) -/

/-- Order of two values that are no NaN; -0 and +0 are equal. -/
def fCompare (a b : FVal) : Ordering :=
  match a, b with
  | .inf n, .inf n' => if n = n' then .eq else if n then .lt else .gt
  | .inf n, _ => if n then .lt else .gt
  | _, .inf n => if n then .gt else .lt
  | .fin n1 m1 e1, .fin n2 m2 e2 =>
    let lo := min e1 e2
    compare (alignTo n1 m1 e1 lo) (alignTo n2 m2 e2 lo)
  | _, _ => .eq

def fNegative : FVal → Bool
  | .nan _ => false
  | .inf n => n
  | .fin n _ _ => n

/-- minimumNumber and maximumNumber on encodings (R50). -/
def fMinMax (t : EType) (wantMax : Bool) (x y : Nat) : Nat × Flags :=
  let a := fDecode t x
  let b := fDecode t y
  let fl := sigFlags [a, b]
  if a.isNaN then (if b.isNaN then canonNaN t else y, fl)
  else if b.isNaN then (x, fl)
  else
    let less := match fCompare a b with
      | .lt => true
      | .gt => false
      | .eq => fNegative a
    (if less != wantMax then x else y, fl)

/-- A floating comparison (R102). -/
def fCmpV (cmp : FCmp) (a b : FVal) : Bool × Flags :=
  let nan := a.isNaN || b.isNaN
  let sig : Flags := sigFlags [a, b]
  match cmp with
  | .eq => (!nan && fCompare a b == .eq, sig)
  | .lt => (!nan && fCompare a b == .lt, if nan then fNV else 0)
  | .le => (!nan && fCompare a b != .gt, if nan then fNV else 0)
  | .un => (nan, sig)

/-- The class word of R101. -/
def fClassV (t : EType) (v : Nat) : Nat :=
  let s := b2n (bit v (signBit t)) * 16
  match fDecode t v with
  | .nan sg => s + (if sg then 5 else 4)
  | .inf _ => s + 3
  | .fin _ m e =>
    if m = 0 then s + 32
    else if m < 2 ^ (fmtBits t).2 then s + 1
    else
      let integral := decide (0 ≤ e) || m % 2 ^ (-e).toNat == 0
      s + 2 + (if integral then 32 else 0)

/-- Sign selection on encodings (R102). -/
def fSgnV (t : EType) (sel : FSgn) (a b : Nat) : Nat :=
  let sa := bit a (signBit t)
  let sb := bit b (signBit t)
  let s := match sel with
    | .copy => sb
    | .inv => !sb
    | .xor => sa != sb
  a % 2 ^ signBit t + b2n s * 2 ^ signBit t

/-! ### Conversions (R48, R100) -/

/-- The value of an integer encoding. -/
def intVal (t : EType) (v : Nat) : Int :=
  if tSigned t then toSigned (tBits t) v else (v % 2 ^ tBits t : Nat)

def intMin (t : EType) : Int := if tSigned t then -(2 ^ (tBits t - 1) : Nat) else 0
def intMax (t : EType) : Int := if tSigned t then (2 ^ (tBits t - 1) : Nat) - 1 else (2 ^ tBits t : Nat) - 1

def valOf (t : EType) (v : Nat) : FVal :=
  if tFloat t then fDecode t v
  else
    let i := intVal t v
    .fin (decide (i < 0)) i.natAbs 0

/-- To an integer format (R48, R100): result, flags, saturated. -/
def toInt (t : EType) (mode : Nat) (fromFloat : Bool) : FVal → Nat × Flags × Bool
  | .nan _ => (0, fNV, false)
  | .inf n => (ofSigned (tBits t) (if n then intMin t else intMax t), fNV, true)
  | .fin n m e =>
    let (r, ix) := roundAt mode n m e false 0
    let i : Int := if n then -(r : Int) else r
    if i < intMin t then (ofSigned (tBits t) (intMin t), if fromFloat then fNV else 0, true)
    else if i > intMax t then (ofSigned (tBits t) (intMax t), if fromFloat then fNV else 0, true)
    else (ofSigned (tBits t) i, if ix then fNX else 0, false)

/-- To E4M3 or E5M2 (R48). -/
def toNarrowF (t : EType) (mode : Nat) : FVal → Nat × Flags × Bool
  | .nan _ => (canonNaN t, fNV, false)
  | .inf n => (fmtMax t + b2n n * 2 ^ signBit t, fOF ||| fNX, true)
  | .fin n m e =>
    match fDecode t (fmtMax t) with
    | .fin _ mm me =>
      let lo := min e me
      if alignTo false m e lo > alignTo false mm me lo then
        (fmtMax t + b2n n * 2 ^ signBit t, fOF ||| fNX, true)
      else
        let r := roundF t mode n m e false
        (r.1, r.2, false)
    | _ => (canonNaN t, 0, false)

/-- A conversion of one element (R48, R100): result bits, flags, saturated. -/
def convert (dst src : EType) (mode : Nat) (v : Nat) : Nat × Flags × Bool :=
  let x := valOf src v
  match dst with
  | .e4m3 | .e5m2 => toNarrowF dst mode x
  | .f16 | .bf16 | .f32 | .f64 =>
    let r := fEncode dst mode x
    (r.1, r.2, false)
  | _ => toInt dst mode (tFloat src) x

/-! ### Sums in RNE -/

/-- One RNE add of encodings (R52 to R55, R112). -/
def fAddRne (t : EType) (a b : Nat) : Nat × Flags := fAddV t 0 (fDecode t a) (fDecode t b)

/-- An add in any type: integers wrap, floating types round in RNE (R183). -/
def addIn (t : EType) (a b : Nat) : Nat :=
  if tFloat t then (fAddRne t a b).1 else (a + b) % 2 ^ tBits t

/-! ### q4 (R46, R47) -/

/-- Magnitude of index m, times 8, by TYPE (R47). -/
def q4Mag (ty m : Nat) : Nat :=
  match ty with
  | 1 => [0, 4, 8, 12, 16, 24, 32, 48].getD m 0
  | 2 => [0, 1, 2, 4, 8, 16, 32, 64].getD m 0
  | _ => [0, 8, 16, 24, 32, 48, 64, 96].getD m 0

/-- The value of a code under a scale byte; NaN in a poisoned block (R46). -/
def q4Val (scale code : Nat) : FVal :=
  let ty := field scale 6 2
  let e := field scale 0 6
  if e = 63 then .nan false
  else if ty = 0 then
    let i := toSigned 4 code
    .fin (decide (i < 0)) i.natAbs ((e : Int) - 32)
  else .fin (bit code 3) (q4Mag ty (field code 0 3)) ((e : Int) - 35)

/-- Nearest magnitude index: distance first, then even index (R48 step 4). `x8` is 8 |x| over 2^k, i.e. compares
`x8 / 2^k` with the table. -/
def q4Nearest (ty m : Nat) (e : Int) : Nat × Bool :=
  let best := (List.range 8).foldl (fun (acc : Nat × Option Int) i =>
    let lo := min e (-3)
    let d := (alignTo false m e lo - alignTo false (q4Mag ty i) (-3) lo).natAbs
    match acc.2 with
    | none => (i, some (d : Int))
    | some bd =>
      if (d : Int) < bd ∨ ((d : Int) = bd ∧ i % 2 = 0) then (i, some (d : Int)) else acc) (0, none)
  (best.1, best.2 != some 0)

/-- A conversion to a q4 code of a block (R48): `x` is already divided by the block's scale. -/
def toQ4 (ty : Nat) : FVal → Nat × Flags × Bool
  | .nan _ => (0, fNV, false)
  | .inf n =>
    if ty = 0 then (if n then 8 else 7, fNV, true) else (7 + 8 * b2n n, fNX, true)
  | .fin n m e =>
    if ty = 0 then
      let lo := min e 0
      let a := alignTo n m e lo
      if a > 7 * 2 ^ (-lo).toNat then (7, fNV, true)
      else if a < -8 * 2 ^ (-lo).toNat then (8, fNV, true)
      else
        let (r, ix) := roundAt 0 n m e false 0
        (ofSigned 4 (if n then -(r : Int) else r), if ix then fNX else 0, false)
    else
      let lo := min e (-3)
      if alignTo false m e lo > alignTo false (q4Mag ty 7) (-3) lo then (7 + 8 * b2n n, fNX, true)
      else
        let (i, ix) := q4Nearest ty m e
        (i + 8 * b2n n, if ix then fNX else 0, false)

end Sys2Proof.Machine
end

