-- ==== Sys2Proof/Machine/Ops.lean ====
section
/-! DEFINITION. The shared operations: reading and writing the state, taking and leaving an exception, translating
addresses, and every way to reach memory. An operation of an instruction runs in `M`: it ends normally, or with a trap
or a wait, and keeps what it did before a trap. -/

namespace Sys2Proof.Machine

/-! ### Outcomes of an operation -/

/-- A fault of a unit: its cause (R152) and the fields that are valid; `num` is the number of a software trap. -/
structure Trap where
  cause : BitVec 8
  addr : Option Word := none
  elem : Option Nat := none
  bank : Option Nat := none
  num : Option Word := none
  deriving DecidableEq, Repr

/-- Why an operation did not complete: a trap, or a wait (at the named instruction, or of the unit as a whole). `hold`
undoes the unit, `keep` leaves what it has done so far; so does `settle`, which waits for what the hart has sent. -/
inductive Stop where
  | trap (t : Trap)
  | hold (i : Option Instr)
  | keep (i : Option Instr)
  | settle
  deriving DecidableEq, Repr

/-- How a completed operation leaves the pc: the next slot, a target, the next slot followed by a trap (R162), or
nowhere, the operation having settled the hart itself. -/
inductive Ctl where
  | next
  | jump (target : Word)
  | soft (t : Trap)
  | stay
  deriving DecidableEq, Repr

abbrev M := EStateM Stop State

def raise {α : Type} (cause : BitVec 8) : M α := throw (.trap { cause })
def raiseAt {α : Type} (cause : BitVec 8) (addr : Word) : M α := throw (.trap { cause, addr := some addr })
def raiseElem {α : Type} (cause : BitVec 8) (e : Nat) : M α := throw (.trap { cause, elem := some e })
def illegal {α : Type} : M α := raise 0x01
def waitUnit {α : Type} : M α := throw (.hold none)
def waitAt {α : Type} (i : Instr) : M α := throw (.hold (some i))
def keepUnit {α : Type} : M α := throw (.keep none)
def settleUnit {α : Type} : M α := throw .settle
def keepAt {α : Type} (i : Instr) : M α := throw (.keep (some i))
def require (p : Bool) : M Unit := if p then pure () else illegal

/-! ### Parts of the state -/

def State.hartOf (s : State) (g : Nat) : Hart := (mget s.harts g).getD Hart.reset
def State.setHartOf (s : State) (g : Nat) (h : Hart) : State := { s with harts := mset s.harts g h }
/-- The hart whose unit is executed. -/
def State.hart (s : State) : Hart := s.hartOf s.cur
def State.setHart (s : State) (h : Hart) : State := s.setHartOf s.cur h
def State.convoyOf (s : State) (u : Nat) : Convoy := (mget s.convoys u).getD Convoy.reset
def State.setConvoyOf (s : State) (u : Nat) (c : Convoy) : State := { s with convoys := mset s.convoys u c }
def State.convoy (s : State) : Convoy := s.convoyOf s.hart.convoy
def State.setConvoy (s : State) (c : Convoy) : State := s.setConvoyOf s.hart.convoy c
def State.ctxOf (s : State) (n : Nat) : Context := (mget s.contexts n).getD Context.reset
def State.setCtxOf (s : State) (n : Nat) (c : Context) : State := { s with contexts := mset s.contexts n c }
def State.ctxId (s : State) : Nat := s.convoy.ctx
def State.ctx (s : State) : Context := s.ctxOf s.ctxId
def State.coreOf (s : State) (n : Nat) : Core := (mget s.cores n).getD Core.reset
def State.setCoreOf (s : State) (n : Nat) (c : Core) : State := { s with cores := mset s.cores n c }
/-- The core of the hart whose unit is executed: GID / 8 (R30). -/
def State.coreId (s : State) : Nat := s.cur / 8
def State.core (s : State) : Core := s.coreOf s.coreId
def State.setCore (s : State) (c : Core) : State := s.setCoreOf s.coreId c
def State.clusterOf (s : State) (n : Nat) : Cluster := (mget s.clusters n).getD Cluster.reset
def State.setClusterOf (s : State) (n : Nat) (c : Cluster) : State := { s with clusters := mset s.clusters n c }
def State.vdevOf (s : State) (n : Nat) : VDev := (mget s.vdevs n).getD VDev.reset
def State.setVdevOf (s : State) (n : Nat) (v : VDev) : State := { s with vdevs := mset s.vdevs n v }
def State.queueOf (s : State) (n : Nat) : LQueue := (mget s.queues n).getD LQueue.reset
def State.setQueueOf (s : State) (n : Nat) (q : LQueue) : State := { s with queues := mset s.queues n q }
def State.regionOf (s : State) (n : Nat) : Region := (mget s.regions n).getD Region.reset
def State.setRegionOf (s : State) (n : Nat) (r : Region) : State := { s with regions := mset s.regions n r }
def State.fnOf (s : State) (n : Nat) : Fn := (mget s.fns n).getD Fn.reset
def State.setFnOf (s : State) (n : Nat) (f : Fn) : State := { s with fns := mset s.fns n f }

def getHart : M Hart := do return (← get).hart
def setHart (h : Hart) : M Unit := modify fun s => s.setHart h
def modHart (f : Hart → Hart) : M Unit := modify fun s => s.setHart (f s.hart)
def modCsr (f : Csrs → Csrs) : M Unit := modHart fun h => { h with csr := f h.csr }
def getConvoy : M Convoy := do return (← get).convoy
def modConvoy (f : Convoy → Convoy) : M Unit := modify fun s => s.setConvoy (f s.convoy)
def getCore : M Core := do return (← get).core
def modCore (f : Core → Core) : M Unit := modify fun s => s.setCore (f s.core)
def getCtx : M Context := do return (← get).ctx

/-- The next argument of a free value. -/
def nextFree : EStateM ε State Nat := modifyGet fun s => (s.freeCount, { s with freeCount := s.freeCount + 1 })

/-! ### Taking an exception and returning from one (R153, R163) -/

/-- The trap record and the entry to the handler (R153): `pc` is the unit's pc, the first slot of a pair. -/
def trapEntry (t : Trap) (paired : Bool) (pc : Word) (h : Hart) : Hart :=
  let x := h.csr
  { h with
    mode := .supervisor
    pc := lineOf x.tvec
    status := .running
    resp := []
    posted := 0
    firm := false
    pair := none
    merge := none
    aged := false
    csr := { x with
      xcause := t.cause
      xpc := pc
      xaddr := t.addr.getD (t.num.getD x.xaddr)
      xelem := (t.elem.map (BitVec.ofNat 14)).getD x.xelem
      xbank := (t.bank.map (BitVec.ofNat 5)).getD x.xbank
      xstat := BitVec.ofNat 5 (b2n t.addr.isSome * 16 + b2n t.bank.isSome * 8 + b2n t.elem.isSome * 4
        + b2n paired * 2 + b2n (h.mode == .supervisor)) } }

/-- Take an exception. With `tvec`.LINE = 0 the hart ends at trap entry with the cause as its status (R271). -/
def takeTrap (t : Trap) (paired : Bool) (pc : Word) (h : Hart) : Hart :=
  let h' := trapEntry t paired pc h
  if lineOf h.csr.tvec = 0 then { h' with status := .ending t.cause 1 } else h'

/-- Return from an exception: the mode of `xstat`.PP and the pc of `xpc` (R163). -/
def eretTo (h : Hart) : Hart :=
  { h with mode := if bit h.csr.xstat.toNat 0 then .supervisor else .user }

/-! ### Ends of a unit -/

/-- A unit of `n` slots has committed: the pc moves and `instret` counts (R25). -/
def retire (n : Nat) (pc : Word) (h : Hart) : Hart :=
  { h with
    pc := pc
    resp := []
    posted := 0
    firm := false
    pair := none
    merge := none
    aged := false
    status := match h.status with
      | .waiting _ => .running
      | .stalled => .running
      | x => x
    csr := { h.csr with instret := h.csr.instret + BitVec.ofNat 64 n } }

/-- Some hart of the convoy committed a unit: deadlock detection resumes (R268). -/
def resumeDetection (s : State) : State :=
  if s.convoy.suspended then s.setConvoy { s.convoy with suspended := false } else s

/-- The end of a completed unit. `pc` is the pc of its last slot, `first` of its first. -/
def finishUnit (c : Ctl) (n : Nat) (pc : Word) (s : State) : State :=
  match c with
  | .next => (resumeDetection s).setHart (retire n (nextSlot pc) s.hart)
  | .jump t => (resumeDetection s).setHart (retire n t s.hart)
  | .soft t =>
    (resumeDetection s).setHart (takeTrap t false (nextSlot pc) (retire n (nextSlot pc) s.hart))
  | .stay => s

/-- A step of another agent: it completes, or leaves the state as it was when it is not enabled (log 1). -/
def runEvent (op : EStateM Unit State Unit) (s : State) : Host.Outcome State Fault Refusal :=
  match op s with
  | .ok _ s' => .next s'
  | .error _ _ => .next s

/-! ### Scalar, closure and mask registers -/

/-- Is a register word poisoned (R160)? -/
def poisoned (h : Hart) (p : RegSite → Bool) : Bool := h.poison.any p

def isScalarSite (r : SReg) : RegSite → Bool
  | .scalar r' _ => r' == r
  | _ => false

def isClosureSite (r : CName) : RegSite → Bool
  | .closure r' _ => r' == r
  | _ => false

/-- Drop the poison of written words. -/
def clearPoison (p : RegSite → Bool) (h : Hart) : Hart :=
  if h.poison.any p then { h with poison := h.poison.filter fun x => !p x } else h

/-- s[r]; s0 reads as zero (R10), and a poisoned register raises 0x14 (R160). -/
def readS (r : SReg) : M Word := do
  let h ← getHart
  if r = 0 then pure 0
  else if poisoned h (isScalarSite r) then raise 0x14
  else pure h.s[r]

/-- Write s[r]; a write to s0 is discarded (R10). -/
def Hart.writeS (r : SReg) (v : Word) (h : Hart) : Hart :=
  if r = 0 then h else clearPoison (isScalarSite r) { h with s := h.s.set r v }

def writeS (r : SReg) (v : Word) : M Unit := modHart (Hart.writeS r v)

def readC (r : CName) : M Word := do
  let h ← getHart
  if poisoned h (isClosureSite r) then raise 0x14 else pure h.c[r]

def writeC (r : CName) (v : Word) : M Unit :=
  modHart fun h => clearPoison (isClosureSite r) { h with c := h.c.set r v }

/-- Element bytes of `vtype` (R28). -/
def Convoy.ewBytes (c : Convoy) : Nat := 2 ^ c.ew.toNat
/-- Registers of a group under `vtype` (R28). -/
def Convoy.grpRegs (c : Convoy) : Nat := 2 ^ c.grp.toNat
/-- VLMAX (R28). -/
def Convoy.vlmax (c : Convoy) : Nat := c.grpRegs * 2048 / c.ewBytes

/-- A mask register as an instruction reads it: m0 is the compact form with COUNT = vl (R15). -/
def Hart.mask (h : Hart) (ewb : Nat) (m : MName) : MaskReg :=
  if m = 0 then ⟨false, ewb, h.csr.vl, 0, none⟩ else h.m[m]

/-- Is element `i` of width `ew` bytes active (R14)? -/
def MaskReg.active (k : MaskReg) (ew i : Nat) : Bool :=
  if k.explicit then k.bits.getLsbD i else decide ((i + 1) * ew ≤ k.count * k.ew)

/-- The compact form as explicit bits (R122). -/
def MaskReg.expand (k : MaskReg) (ew : Nat) : VReg :=
  if k.explicit then k.bits
  else
    let n := k.count * k.ew / ew
    if n ≥ 16384 then BitVec.allOnes 16384 else BitVec.ofNat 16384 (2 ^ n - 1)

/-- Poisoned words of a mask that reading bits of elements `lo ≤ i < hi` with `p i` consults: the lowest element, or
`vstart` for a poisoned control word of a compact mask (R160). -/
def maskPoison (h : Hart) (m : MName) (k : MaskReg) (lo hi : Nat) (p : Nat → Bool) : Option Nat :=
  if m = 0 ∨ h.poison = [] then none
  else if k.explicit then
    (List.range hi).find? fun i => lo ≤ i && p i && h.poison.any fun x => x == .maskBits m (i / 32)
  else if h.poison.any fun x => x == .maskCtl m then some h.csr.vstart.toNat
  else none

/-- Raise 0x14 when a consulted bit of a mask is poisoned (R160). -/
def checkMask (m : MName) (lo hi : Nat) (p : Nat → Bool) : M Unit := do
  let h ← getHart
  let c ← getConvoy
  match maskPoison h m (h.mask c.ewBytes m) lo hi p with
  | some e => raiseElem 0x14 e
  | none => pure ()

/-- Is a word of a mask poisoned after a write that covers `full` words or the control word. -/
def isMaskSite (m : MName) (p : Nat → Bool) (ctl : Bool) : RegSite → Bool
  | .maskBits m' w => m' == m && p w
  | .maskCtl m' => m' == m && ctl
  | _ => false

/-- An instruction that would write a bound chunk mask stalls at issue (R16). -/
def stallBound (m : MName) : M Unit := do
  let h ← getHart
  if m ≠ 0 ∧ h.m[m].bound.isSome then waitUnit else pure ()

/-- Write the compact form: it rewrites the control word (R13, R160); m0 discards (R15). -/
def writeMaskCompact (m : MName) (count ew : Nat) : M Unit :=
  if m = 0 then pure ()
  else modHart fun h => clearPoison (isMaskSite m (fun _ => false) true)
    { h with m := h.m.set m ⟨false, ew, count, 0, none⟩ }

/-- Write all bits of a mask in explicit form. -/
def writeMaskAll (m : MName) (bits : VReg) : M Unit :=
  if m = 0 then pure ()
  else modHart fun h => clearPoison (isMaskSite m (fun _ => true) true)
    { h with m := h.m.set m ⟨true, 0, 0, bits, none⟩ }

/-! ### Translation (R299 to R307) -/

inductive Acc where
  | load | store | fetch
  deriving DecidableEq, Repr

/-- The page fault of an access kind (R300). -/
def Acc.fault : Acc → BitVec 8
  | .load => 0x06
  | .store => 0x07
  | .fetch => 0x08

/-- The families of R171 and the other users of translation. -/
inductive Fam where
  | scalar | amo | plural | unit | seg | pdot | block | fetch | wfe | fsig | device
  deriving DecidableEq, Repr

/-- Where a word lies, seen from a core. -/
inductive Kind where
  | ownVault | otherVault | depot | host | fabric
  deriving DecidableEq, Repr

/-- What a family may touch (R171). The table names no device-made access (R404): those may reach vaults and host memory
(log 21). -/
def reach (f : Fam) (a : Acc) (k : Kind) : Bool :=
  match k with
  | .ownVault => true
  | .otherVault => f != .pdot
  | .fabric => f == .scalar || f == .amo || f == .unit || f == .block || f == .fsig
  | .depot => a != .store && (f == .scalar || f == .unit || f == .seg || f == .block || f == .fetch)
  | .host => f == .scalar || f == .unit || f == .block || f == .device

/-- log2 of the page sizes (R301). -/
def pageBits (size : Nat) : Nat := [12, 14, 16, 18, 21, 25, 30, 34].getD size 12

/-- Sizes that stand at a level (R302). -/
def sizeAt (level size : Nat) : Bool :=
  match level with
  | 0 => size ≤ 3
  | 1 => size == 4 || size == 5
  | 2 => size == 6 || size == 7
  | _ => false

/-- Entries that a leaf of this size fills (R302). -/
def fills (size : Nat) : Nat := [1, 4, 16, 64, 1, 16, 1, 16].getD size 1

/-- Where a leaf leads. -/
structure Loc where
  key : Nat
  host : Bool
  log : Bool
  banked : Bool
  deriving DecidableEq, Repr

def pteWord (s : State) (a : Nat) : Nat := memReadN s.mem a 8

/-- The number of the entry that a walk uses: when the entries that cover the page differ, one of them, freely chosen
(R302, log 8). -/
def pickEntry (table idx level : Nat) : EStateM (BitVec 8) State Nat := do
  let s ← get
  let at_ (i : Nat) := pteWord s (table + 8 * i)
  let group (n : Nat) := (List.range n).map fun j => idx / n * n + j
  let cands := [1, 2, 3, 5, 7].foldl (fun acc sz =>
    if sizeAt level sz && (group (fills sz)).any fun i => bit (at_ i) 0 && bit (at_ i) 1 && field (at_ i) 8 3 == sz
    then acc ++ group (fills sz) else acc) []
  if cands.all fun i => at_ i == at_ idx then pure idx
  else do
    let n ← nextFree
    pure ((idx :: cands).getD (Config.freeEntry n % (cands.length + 1)) idx)

/-- The form of an entry at a level (R303, first row). -/
def entryOk (level e : Nat) : Bool :=
  let size := field e 8 3
  let tgt := field e 62 2
  let addr := field e 12 50 * 4096
  if !bit e 0 || bit e 11 then false
  else if bit e 1 then
    sizeAt level size && addr % 2 ^ pageBits size == 0 && tgt != 3
      && (tgt != 0 || addr < 2 ^ 38) && (tgt != 1 || addr < 2 ^ 42) && (!bit e 7 || tgt == 0)
  else level != 0 && tgt == 0 && size == 0 && addr < 2 ^ 38

/-- Walk from a table at a level (R301): the leaf. -/
def walkFrom (cause : BitVec 8) (va : Nat) : Nat → Nat → EStateM (BitVec 8) State Nat
  | 0, _ => throw cause
  | level + 1, table => do
    let s ← get
    let idx := field va (12 + 9 * level) 9
    if table ≥ 2 ^ 38 then throw cause
    if (s.coreOf (table / 2 ^ 30)).fenced then throw 0x15
    let i ← pickEntry table idx level
    if s.poison.contains ((table + 8 * i) / 32) then throw 0x14
    let e := pteWord s (table + 8 * i)
    if !entryOk level e then throw cause
    if bit e 1 then pure e
    else walkFrom cause va level (field e 12 50 * 4096)

def leafBits (leaf : Nat) : Nat := pageBits (field leaf 8 3)

/-- A TLB entry that holds a translation (R304). -/
def tlbHit (tlb : List TlbEntry) (asid : BitVec 16) (va : Nat) : Option TlbEntry :=
  tlb.find? fun e => e.asid == asid && e.base ≤ va && va < e.base + 2 ^ leafBits e.leaf.toNat

/-- The leaf for a virtual address, from the core's TLB or by a walk that then fills it (R304, log 7). -/
def leafFor (core : Option Nat) (ctx : Context) (acc : Acc) (va : Nat) : EStateM (BitVec 8) State Nat := do
  let s ← get
  match core with
  | none => walkFrom acc.fault va 4 (ctx.ptbase.toNat / 4096 * 4096)
  | some c =>
    match tlbHit (s.coreOf c).tlb ctx.asid va with
    | some e => pure e.leaf.toNat
    | none => do
      let leaf ← walkFrom acc.fault va 4 (ctx.ptbase.toNat / 4096 * 4096)
      let e : TlbEntry := ⟨ctx.asid, va / 2 ^ leafBits leaf * 2 ^ leafBits leaf, BitVec.ofNat 64 leaf⟩
      modify fun s => s.setCoreOf c { s.coreOf c with tlb := (e :: (s.coreOf c).tlb).take 1024 }
      pure leaf

/-- Where a leaf puts an address (R302, R168). -/
def leafLoc (leaf va : Nat) : Loc :=
  let pa := field leaf 12 50 * 4096 + va % 2 ^ leafBits leaf
  let banked := bit leaf 7
  match field leaf 62 2 with
  | 1 => ⟨depotKey pa, false, bit leaf 6, false⟩
  | 2 => ⟨pa, true, bit leaf 6, false⟩
  | _ =>
    let off := pa % 2 ^ 30
    ⟨vaultKey (pa / 2 ^ 30) (if banked then bankedToStriped off else off), false, bit leaf 6, banked⟩

def kindOf (core : Option Nat) (l : Loc) : Kind :=
  if l.host then .host
  else if isDepot l.key then .depot
  else if core = some (l.key / 2 ^ 30) then .ownVault
  else .otherVault

/-- Has the permission bit of the access, and U in the user view (R303, second row). -/
def leafAllows (leaf : Nat) (acc : Acc) (view : Mode) : Bool :=
  (match acc with
    | .load => bit leaf 2
    | .store => bit leaf 3
    | .fetch => bit leaf 4) && (view == .supervisor || bit leaf 5)

/-- Is the region of a depot key sealed (R347)? -/
def depotSealed (s : State) (key : Nat) : Bool := (s.regionOf ((key - 2 ^ 42) / 2 ^ 30)).state == .sealed

/-- What an access of a family finds under a leaf (R303, R171, R110): the cause of the failure, or the place. `soft`
failures are those of R308: page faults and permission bits. A leaf leads nowhere in the staging share, which is a page
fault (R169 names no cause: log 63). -/
def underLeaf (core : Option Nat) (view : Mode) (fam : Fam) (acc : Acc) (va leaf : Nat) (s : State) :
    Except (BitVec 8 × Bool) Loc :=
  let l := leafLoc leaf va
  if !l.host && isVault l.key && inShare s.staging.pct (l.key % 2 ^ 30) then .error (acc.fault, true)
  else if !leafAllows leaf acc view then .error (0x09, true)
  else if !reach fam acc (kindOf core l) then .error (0x09, false)
  else if !l.host && isDepot l.key && !depotSealed s l.key then .error (0x12, false)
  else .ok l

/-- Translate an address of the translated part (R300 to R303). -/
def translate (core : Option Nat) (ctx : Context) (view : Mode) (fam : Fam) (acc : Acc) (va : Word) :
    EStateM (BitVec 8 × Bool) State Loc := do
  if field va.toNat 48 14 ≠ 0 then throw (acc.fault, true)
  let s ← get
  match leafFor core ctx acc va.toNat s with
  | .error c s' => do
    set s'
    throw (c, c == acc.fault)
  | .ok leaf s' => do
    set s'
    match underLeaf core view fam acc va.toNat leaf s' with
    | .error e => throw e
    | .ok l => pure l

/-- A memory data error at a key (R313, R312). -/
def dataError (s : State) (key : Nat) : Option (BitVec 8) :=
  if isVault key && (s.coreOf (key / 2 ^ 30)).fenced then some 0x15
  else if s.poison.contains (key / 32) then some 0x14
  else none

/-! ### Bytes in place -/

/-- A write wakes the monitors of `wfe` on its granules (R166). -/
def wakeMonitors (key n : Nat) (s : State) : State :=
  if s.harts.any fun p => p.2.armed.isSome then
    { s with harts := s.harts.map fun p =>
        match p.2.armed with
        | some (g, _) =>
          if key / 32 ≤ g ∧ g ≤ (key + n - 1) / 32 then (p.1, { p.2 with armed := some (g, 1) }) else p
        | none => p }
  else s

/-- Write bytes at a key: monitors wake, and a write of a whole granule clears its poison (R313). -/
def pokeBytes (key : Nat) (bs : List Byte) (s : State) : State :=
  let n := bs.length
  let s1 := { s with mem := memWriteBytes s.mem key bs }
  let s2 := if s.poison = [] then s1 else
    { s1 with poison := s1.poison.filter fun g => !(decide (key ≤ g * 32) && decide (g * 32 + 32 ≤ key + n)) }
  wakeMonitors key n s2

def pokeN (key n v : Nat) (s : State) : State := pokeBytes key (toBytes n v) s

/-- Bytes from host memory: what the host's memory holds is outside the device (R285, log 9). -/
def hostRead (n : Nat) : EStateM ε State Nat := do
  let f ← modifyGet fun s => (s.freeCount, { s with freeCount := s.freeCount + n })
  pure (ofBytes ((List.range n).map fun i => Config.freeHostByte (f + i)))

def hostWrite (a n v : Nat) (s : State) : State :=
  let ws := (List.zip (List.range n) (toBytes n v)).foldl (fun acc p => (a + p.1, p.2) :: acc) s.hostWrites
  { s with hostWrites := ws }

/-- The same by the current hart, which knows its last host write (R285). -/
def hostStore (a n v : Nat) (s : State) : State :=
  (hostWrite a n v s).setHart { s.hart with hostLast := some a }

/-! ### The staging cache on loads of depot pages (R347, R348) -/

/-- The line of a depot key. -/
def stagingLine (key : Nat) : Nat := (key - 2 ^ 42) / 4096

/-- The reuse-distance monitor that watches a line: the tower beside its region, and the device that holds the region. -/
def stagingOwner (s : State) (line : Nat) : Nat × Nat :=
  let r := line / 2 ^ 18
  (r / 512, ((s.regionOf r).grant).getD 32)

/-- A line access as its monitor sees it (R349): one in 64 of those that the monitor sees is sampled, into the bucket of
the distinct data, in 64 MiB, that was touched since the line was last accessed. -/
def stagingTouch (line : Nat) (s : State) : State :=
  let o := stagingOwner s line
  let x := s.staging
  let recent := (aget x.recent o).getD []
  let n := (aget x.sample o).getD 0
  let hits := match recent.idxOf? line with
    | some d => if n % 64 = 63 then aset x.hits o (d / 16384 :: (aget x.hits o).getD []) else x.hits
    | none => x.hits
  { s with staging := { x with
      recent := aset x.recent o (line :: recent.filter fun l => l != line), hits := hits
      sample := aset x.sample o (n + 1) } }

/-- Serve an access from a line that is held. The access for which it was filled was seen by the monitor at the fill. -/
def serveLine (line : Nat) (s : State) : State :=
  if mget s.staging.lines line = some 1 then
    { s with staging := { s.staging with lines := mset s.staging.lines line 3 } }
  else stagingTouch line s

/-- A load waits for a line. -/
def wantLine (line : Nat) (s : State) : State :=
  if s.staging.wanted.contains line then s
  else { s with staging := { s.staging with wanted := s.staging.wanted ++ [line] } }

/-- Serve a load from the line's copy: a missing line is waited for, a flash error raises 0x14. -/
def stagingServe (key : Nat) : M Bool := do
  let s ← get
  let line := stagingLine key
  match mget s.staging.lines line with
  | none => do
    set (wantLine line s)
    waitUnit
  | some 2 => do
    set { s with staging := { s.staging with lines := merase s.staging.lines line } }
    pure false
  | some _ => do
    set (serveLine line s)
    pure true

/-! ### The logs (R327 to R330) -/

/-- May a log take `n` more entries, beside those that gangs have reserved? -/
def Log.room (l : Log) (n : Nat) : Bool := !l.full && l.head.toNat + 16 * (n + l.held) ≤ l.limit.toNat

/-- Reserve an entry at head (R330); FULL is set when head reaches limit (R33). -/
def Log.reserve (l : Log) (e : BitVec 128) : Log :=
  { l with
    head := l.head + 16
    pending := l.pending ++ [⟨l.head, e⟩]
    full := l.full || decide (l.limit.toNat ≤ l.head.toNat + 16) }

/-- The entry of R329. -/
def orderEntry (gid kind elem iret gran : Nat) : BitVec 128 :=
  BitVec.ofNat 128 (gid % 2 ^ 11 * 2 ^ 117 + kind * 2 ^ 113 + elem % 2 ^ 14 * 2 ^ 99 + iret % 2 ^ 40 * 2 ^ 59
    + gran % 2 ^ 59)

/-- Reserve the ordering-log entries of accesses of the hart (R329, R330): `(kind, element, address)` each. IRET of an
instruction in the second slot of a pair is the count before the pair (DESIGN CHOICE, log 85). -/
def logAccesses (log : Bool) (es : List (Nat × Nat × Word)) : M Unit := do
  let s ← get
  let h := s.hart
  let c := s.ctx
  if !(log && h.logged && c.order.en) || es.isEmpty then pure ()
  else if !c.order.room es.length then do
    set (s.setCtxOf s.ctxId { c with order := { c.order with full := true } })
    throw (.trap { cause := 0x13 })
  else
    set (s.setCtxOf s.ctxId { c with order := es.foldl (fun l e =>
      l.reserve (orderEntry s.cur e.1 e.2.1 h.csr.instret.toNat (e.2.2.toNat / 32))) c.order })

/-- The route-log entry of R328. -/
def routeEntry (seq kind cidx core slots time : Nat) : BitVec 128 :=
  BitVec.ofNat 128 (seq % 2 ^ 40 * 2 ^ 88 + kind * 2 ^ 84 + cidx % 2 ^ 11 * 2 ^ 73 + core % 256 * 2 ^ 65
    + slots % 256 * 2 ^ 57 + time % 2 ^ 57)

/-! ### The fabric window (R113, R367 to R372) -/

def isFabric (va : Word) : Bool := va >>> 62 == 2
def fabricPkg (va : Word) : Nat := field va.toNat 44 18

/-- The plane for packets to a package (R369): the first live plane from (s + d) mod 96 on. -/
def homePlane (s : State) (dst : Nat) : Option Nat :=
  ((List.range 96).map fun i => ((s.package + dst) % 96 + i) % 96).find? fun p => s.planes.getLsbD p

/-- Do two items belong to one hart and one stream? -/
def sameStream (a b : Item) : Bool :=
  a.transfer.isNone && b.transfer.isNone && a.convoy == b.convoy && a.hidx == b.hidx && a.dst == b.dst

/-- Number an item on the home plane of its stream. -/
def numberItem (it : Item) (p : Nat) (s : State) : Item × State :=
  let q := (aget s.outSeq (it.dst, p)).getD 0
  ({ it with plane := p, seq := q, unsent := false, since := s.now }, { s with outSeq := aset s.outSeq (it.dst, p) (q + 1) })

/-- May two items touch one 32-bit word of their destination (R281, R283)? In one 4 KiB page the addresses say so. Two
pages, or a page's striped and banked names, can name one granule, in which a word keeps its place (R168). -/
def sameWord (a b : Item) : Bool :=
  let lo (i : Item) : Nat := i.va.toNat / 4
  let hi (i : Item) : Nat := (i.va.toNat + tBytes i.t - 1) / 4
  if a.va.toNat / 4096 = b.va.toNat / 4096 then decide (lo a ≤ hi b) && decide (lo b ≤ hi a)
  else decide (lo a % 8 ≤ hi b % 8) && decide (lo b % 8 ≤ hi a % 8)

/-- Does an earlier item hold another at the source? One of its stream that is held itself, so that a flag keeps its place
in program order (R294), and an outstanding one to its word where one of the two is UNORD (R283). -/
def holdsBack (j it : Item) : Bool :=
  j.failed.isNone && sameStream j it && ((!it.unord && j.unsent) || ((it.unord || j.unord) && sameWord it j))

/-- Must an item wait at the source? -/
def mustWait (s : State) (it : Item) : Bool := s.items.any fun j => holdsBack j it

/-- Send an item (R369); with no live plane it fails at once (R371). One that must wait is held. -/
def sendItem (it : Item) (s : State) : State :=
  let it := { it with id := s.nextItem, since := s.now }
  let s := { s with nextItem := s.nextItem + 1 }
  match homePlane s it.dst with
  | none => { s with items := s.items ++ [{ it with failed := some 0x16 }] }
  | some p =>
    if it.unsent || mustWait s it then
      { s with items := s.items ++ [{ it with unsent := true }] }
    else
      let r := numberItem it p s
      { r.2 with items := r.2.items ++ [r.1] }

/-- The item of an access of the current hart. -/
def hartItem (s : State) (va : Word) (t : EType) (op : ItemOp) (unord waits : Bool) (elem : Nat) : Item :=
  { id := 0, dst := fabricPkg va, plane := 0, seq := 0, fcid := s.ctx.fcid, view := s.hart.mode, va, t, op, unord, gid := s.cur, elem
    logged := s.hart.logged, convoy := s.hart.convoy, hidx := s.hart.hidx, waits, covers := [], unsent := false
    failed := none, resentFrom := [], transfer := none, since := s.now, got := none, entry := none
    place := none }

/-- A unit that cannot proceed is undone and held. A remote access that it waits for has been sent (R111), and the staging
cache stays asked; the stores that it had posted before are not, for the unit has not committed. A wait is counted from
its first hold in the same place. -/
def holdUnit (i : Option Instr) (s s' : State) : State :=
  let h := s.hart
  let st : Status := match i with
    | some x => .waiting x
    | none => .stalled
  let already := match i, h.status with
    | some x, .waiting y => y == x
    | none, .stalled => true
    | _, _ => false
  let t := { s.setHart { h with status := st, stamp := if already then h.stamp else s.now } with
    freeCount := s'.freeCount
    staging := { s.staging with wanted := s'.staging.wanted } }
  (s'.items.filter fun j => j.waits && decide (s.nextItem ≤ j.id)).foldl (fun u j => sendItem { j with unsent := false } u) t

/-- A unit that has done part of its work, which stays done, and waits. -/
def keepHeld (i : Option Instr) (s : State) : State := holdUnit i s s

/-- The remote stores and atomics of the current hart that the base die still holds, with the flags of its `fsig`s. -/
def hartItems (s : State) : List Item :=
  s.items.filter fun i => !i.waits && i.transfer.isNone && i.convoy == s.hart.convoy && i.hidx == s.hart.hidx

/-- Is a number that of an item or a command of the pair on trial itself (log 72)? -/
def State.onTrial (s : State) (id : Nat) : Bool := !s.hart.firm && s.hart.pair.any fun p => decide (p.from_ ≤ id)

/-- The trial of a pair passes over a wait that the pair must make. -/
def markEarly : M Unit := modHart fun h => { h with pair := h.pair.map fun p => { p with early := true } }

/-- Wait for accesses of the hart, by their numbers; the trial of a pair passes over those of the pair itself. -/
def awaitIds (ids : List Nat) (wait : M Unit) : M Unit := do
  let s ← get
  if ids.any fun n => !s.onTrial n then wait
  else if ids.isEmpty then pure ()
  else markEarly

/-- Wait for the outstanding items of the hart that `p` names. -/
def awaitWhere (p : State → Item → Bool) (wait : M Unit) : M Unit := do
  let s ← get
  awaitIds (((hartItems s).filter fun i => i.failed.isNone && p s i).map Item.id) wait

/-- Does the operation ask for the word that it replaces? -/
def asksOld : ItemOp → Bool
  | .amo _ _ _ r => r
  | _ => false

/-- Is a request of a pair on trial only a look? Where the pair itself has sent something to the same package, or must
wait before, and for every returning atomic, the trial asks with a load, which a squash leaves without effect (R111). -/
def trialLook (s : State) (va : Word) (op : ItemOp) : Bool :=
  !s.hart.firm && s.hart.pair.any fun p => p.early || asksOld op
    || (hartItems s).any fun i => decide (p.from_ ≤ i.id) && i.dst == fabricPkg va

/-- A remote access that waits for its response (R111): the response if it has come, else it is sent and waited for. A
failure at an element of a vector access sets `xelem` beside `xaddr` (R152 lists ADDR alone for 0x16, R156 wants the
element of every vector fault: log 64). -/
def remoteWait (va : Word) (t : EType) (op : ItemOp) (elem bank : Option Nat) : M Word := do
  let s ← get
  let look := trialLook s va op
  if look then markEarly
  let h ← getHart
  match h.resp with
  | (_, r) :: rest => do
    setHart { h with resp := rest }
    match r with
    | .value w => pure w
    | .fails c => throw (.trap { cause := c, addr := some va, elem, bank })
  | [] =>
    if s.items.any fun i => i.waits && i.hidx == h.hidx && i.convoy == h.convoy && i.failed.isNone then waitUnit
    else if (homePlane s (fabricPkg va)).isNone then
      throw (.trap { cause := 0x16, addr := some va, elem, bank })
    else do
      let it := hartItem s va t (if look then .load else op) false true (elem.getD 0)
      modify (sendItem { it with logged := it.logged && !look })
      waitUnit

/-- A remote store or non-returning atomic completes when the base die accepts it (R113). One that the unit has sent
before it was held (`posted`) is not sent again. -/
def remotePost (va : Word) (t : EType) (op : ItemOp) (unord : Bool) (elem : Nat) : M Unit := modify fun s =>
  if 0 < s.hart.posted then s.setHart { s.hart with posted := s.hart.posted - 1 }
  else sendItem (hartItem s va t op unord false elem) s

/-! ### Words of this package through the fabric window (R113, R281, R367) -/

/-- The key that a fabric-window address of this package leads to, through the tables of the context that receives it
(R113, R368): none for another package, and where it leads to no word of this one. -/
def ownKey (s : State) (fcid : BitVec 20) (view : Mode) (va : Word) : Option Nat :=
  if fabricPkg va != s.package || !isFabric va || fcid == 0 then none
  else match s.contexts.find? fun p => p.2.fcid == fcid && !p.2.killed with
    | none => none
    | some (_, c) =>
      match translate none c view .scalar .store (va &&& BitVec.ofNat 64 (2 ^ 44 - 1)) s with
      | .ok l _ => if l.host then none else some l.key
      | .error _ _ => none

/-- The key that an item leads to in this package. -/
def itemKey (s : State) (i : Item) : Option Nat :=
  if i.dst != s.package then none
  else match i.op with
    | .flag k _ => some k
    | _ => ownKey s i.fcid i.view i.va

/-- Does an item lead to a vault of this package? -/
def leadsTo (vault : Nat) (s : State) (i : Item) : Bool := (itemKey s i).any fun k => k / 2 ^ 30 == vault

/-- The accesses of one hart to one vault perform in program order, whatever path carries them (R281): an access waits for
the hart's earlier items that lead to its vault, the flag of an `fsig` among them (R294, log 65). -/
def awaitOwn (l : Loc) : M Unit := awaitWhere (leadsTo (l.key / 2 ^ 30)) waitUnit

/-- The key by which an access through the fabric window is compared with pending updates (R333). -/
def fabricKey (s : State) (view : Mode) (va : Word) : Nat := (ownKey s s.ctx.fcid view va).getD va.toNat

/-! ### Deferred floating updates (R333) -/

/-- The key of a pending update's word. -/
def Deferred.key (s : State) (d : Deferred) : Nat := if isFabric d.va then fabricKey s d.view d.va else d.phys

/-- The flag of an `fsig` in this package that is held (R294): the key of its word. -/
def flagKey (i : Item) : Option Nat :=
  match i.op with
  | .flag k _ => if i.failed.isNone then some k else none
  | _ => none

/-- Has a hart of context `ctx` that `skip` does not name, resident or out, an access to a granule that has not performed
and whose entry in the ordering log has a place that `p` names (R330): a pending update, or the flag of an `fsig`? -/
def owesLogged (s : State) (ctx : Nat) (skip : Nat → Bool) (granule : Nat) (p : Word → Bool) : Bool :=
  let owes (ds : List Deferred) := ds.any fun d => d.phys / 32 == granule && d.place.any p
  (s.harts.any fun h => !skip h.1 && (s.convoyOf h.2.convoy).ctx == ctx && owes h.2.deferred)
    || (s.convoys.any fun c => c.2.ctx == ctx && c.2.out.any fun o => owes o.2.deferred)
    || s.items.any fun i => !skip i.gid && (s.convoyOf i.convoy).ctx == ctx && i.place.any p
      && (flagKey i).any fun k => k / 32 == granule

/-- A logged update of the current hart performs after every one to its granule with an earlier place (R330, log 67). -/
def afterOthers (s : State) (skip : Nat → Bool) (d : Deferred) : Bool :=
  d.place.any fun a =>
    owesLogged s s.ctxId (fun g => g == s.cur || skip g) (d.phys / 32) fun b => decide (b.toNat < a.toNat)

/-- Is there an earlier item of the hart to the vault of a local pending update (R281)? -/
def followsItem (s : State) (d : Deferred) : Bool :=
  !isFabric d.va && (hartItems s).any fun i => i.failed.isNone && !s.onTrial i.id && leadsTo (d.phys / 2 ^ 30) s i

/-- Must a pending update of the current hart still wait: for earlier items to its vault, or for logged updates of others
with earlier places (R330)? -/
def mustFollow (s : State) (d : Deferred) : Bool := followsItem s d || afterOthers s (fun _ => false) d

/-- Apply one deferred update at its word's controller; a target that cannot be updated keeps its value, and the update
is dropped. A fabric word's controller is reached by an item. -/
def applyDeferred (d : Deferred) (s : State) : State × Option (BitVec 8) :=
  if isFabric d.va then
    (sendItem { hartItem s d.va d.t (.amo .fadd 0 d.value false) false false 0 with view := d.view } s, none)
  else match dataError s d.phys with
  | some c => (s, some c)
  | none => (pokeN d.phys (tBytes d.t) (addIn d.t (memReadN s.mem d.phys (tBytes d.t)) d.value.toNat) s, none)

/-- How the application of updates stops: at its end, at one that fails, or at one that must wait. -/
inductive FlushEnd where
  | done
  | fails (cause : BitVec 8) (va : Word)
  | waits
  deriving DecidableEq, Repr

/-- Apply the updates that `p` names, in order, up to the first that fails or must wait: the state, what is left pending,
and how it stopped. -/
def applyUpTo (p : Deferred → Bool) : List Deferred → State → State × List Deferred × FlushEnd
  | [], s => (s, [], .done)
  | d :: t, s =>
    if p d then
      if mustFollow s d then (s, d :: t, .waits)
      else match applyDeferred d s with
        | (s', none) => applyUpTo p t s'
        | (s', some c) => (s', t, .fails c d.va)
    else
      match applyUpTo p t s with
      | (s', r, b) => (s', d :: r, b)

/-- The element that a vertical link failure names outside the scalar accesses of R110 (R152, log 64). -/
def linkElem (cause : BitVec 8) (e : Nat) : Option Nat := if cause = 0x15 then some e else none

/-- Does a pending update through the fabric window stand before a local one to its vault? -/
def crossPath (s : State) : List Deferred → Bool
  | [] => false
  | d :: t => (isFabric d.va && t.any fun e => !isFabric e.va && e.phys / 2 ^ 30 == d.key s / 2 ^ 30) || crossPath s t

/-- A single-hart flush point for the updates that `p` names, and for all where the two paths to a vault mix (R281): a
poisoned target raises 0x14 before the instruction performs. -/
def flushWhere (p : Deferred → Bool) : M Unit := do
  let h ← getHart
  if h.deferred.any p then
    let s ← get
    let (s', rest, bad) := applyUpTo (fun d => p d || crossPath s h.deferred) h.deferred s
    set (s'.setHart { s'.hart with deferred := rest })
    match bad with
    | .fails c va => throw (.trap { cause := c, addr := some va, elem := linkElem c 0 })
    | .waits => settleUnit
    | .done => pure ()
  else pure ()

def flushDeferred : M Unit := flushWhere fun _ => true

/-- Flush before another access to a granule that holds a pending update. -/
def flushGranule (key : Nat) : M Unit := do
  let s ← get
  if s.hart.deferred.any fun d => d.key s / 32 == key / 32 then flushDeferred else pure ()

/-- The same for an access through the fabric window. -/
def flushFabric (va : Word) : M Unit := do
  let s ← get
  flushGranule (fabricKey s s.hart.mode va)

/-- Room for `n` more updates: a 257th flushes first. -/
def deferRoom (n : Nat) : M Unit := do
  let h ← getHart
  if h.deferred.length + n > 256 then flushDeferred

/-- Defer an update. -/
def deferUpdate (d : Deferred) : M Unit := modHart fun h => { h with deferred := h.deferred ++ [d] }

/-! ### Running the operation of a unit -/

/-- Were pending updates of `h` applied? -/
def flushed (h h' : Hart) : Bool := !(h.deferred.isPrefixOf h'.deferred)

/-- An operation of several accesses that meets pending updates: they are applied before any of it performs (R333). -/
def flushBefore {α : Type} (op : M α) : M α := fun s =>
  let r := op s
  let met : Bool := match r with
    | .ok _ s' => flushed s.hart s'.hart
    | .error _ s' => flushed s.hart s'.hart
  if met then
    match flushDeferred s with
    | .ok _ s1 => op s1
    | .error e s1 => .error e s1
  else r

/-- Apply the pending updates of the current hart before a unit that met them and cannot complete: it starts again. -/
def flushFirst (paired : Bool) (s : State) : State :=
  match flushDeferred s with
  | .error (.trap t) s' => s'.setHart (takeTrap t paired s.hart.pc s'.hart)
  | .error _ s' => keepHeld none s'
  | .ok _ s' => keepHeld none s'

/-- Run the operation of a unit that is one instruction of `n` slots. -/
def runUnitN (n : Nat) (op : M Ctl) (s : State) : Host.Outcome State Fault Refusal :=
  match op s with
  | .ok c s' => .next (finishUnit c n (if n = 2 then nextSlot s.hart.pc else s.hart.pc) s')
  | .error (.trap t) s' => .next (s'.setHart (takeTrap t false s.hart.pc s'.hart))
  | .error (.hold i) s' => .next (if flushed s.hart s'.hart then flushFirst false s else holdUnit i s s')
  | .error (.keep i) s' => .next (keepHeld i s')
  | .error .settle s' => .next (keepHeld none s')

def runUnit (op : M Ctl) (s : State) : Host.Outcome State Fault Refusal := runUnitN 1 op s

/-! ### Waiting for remote items and releasing (R290, R291, R371) -/

/-- Report the oldest failed item among those that `p` names: one per trap (R371). -/
def reportItem (p : Item → Bool) : M Unit := do
  let s ← get
  match (hartItems s).find? fun i => i.failed.isSome && p i with
  | some i => do
    set { s with items := s.items.filter fun j => j.id != i.id }
    throw (.trap { cause := i.failed.getD 0x16, addr := some i.va, elem := linkElem (i.failed.getD 0x16) i.elem })
  | none => pure ()

/-- Wait for the outstanding items of the hart, and report the failed ones (R371). -/
def awaitItems : M Unit := do
  awaitWhere (fun _ _ => true) settleUnit
  reportItem fun _ => true

/-- Is a vault word in the domain of a scope (R287)? -/
def inDomain (sc : Scope) (core key : Nat) : Bool :=
  match sc with
  | .hart | .convoy | .core => key / 2 ^ 30 == core
  | .cluster => key / 2 ^ 33 == core / 8
  | .tower => key / 2 ^ 35 == core / 32
  | .package | .system => true

/-- Is a deferred update's word in the domain of a scope? -/
def deferredIn (sc : Scope) (core : Nat) (d : Deferred) : Bool :=
  if isFabric d.va then sc == .system else inDomain sc core d.phys

/-- Every earlier store and atomic of the hart has performed: pending updates are applied, and the items that the base die
still holds are waited for (R165, R216, R238, R319). Failed items are reported elsewhere (R371). -/
def awaitPerformed : M Unit := do
  flushDeferred
  awaitWhere (fun _ _ => true) settleUnit

/-- Wait for the held flags of the hart whose words `p` names: they are stores to vaults of the package (R290). -/
def awaitFlags (p : Nat → Bool) : M Unit := awaitWhere (fun _ i => (flagKey i).any p) settleUnit

/-- The earlier stores and atomics within the package perform: its pending updates are applied (R333) and held flags are
waited for (R262, R265, R274). An engine or depot command, which begins only after them (R284), does so when it commits
(log 71). -/
def releasePackage : M Unit := do
  let s ← get
  flushWhere (deferredIn .package s.coreId)
  awaitFlags fun _ => true

/-- The flushing read of R285: a zero-length read to the address of the hart's last host write. Its completion, like the
data of a load from host memory, is there at once (log 9). -/
def State.hostFlushed (s : State) : State :=
  match s.hart.hostLast with
  | some a => { s.setHart { s.hart with hostLast := none } with hostFlushes := (a, s.hostWrites.length) :: s.hostFlushes }
  | none => s

def flushHost : M Unit := modify State.hostFlushed

/-- The depot commands of the current hart that are not over (R279, R290). -/
def hartCommands (s : State) : List DepotCmd :=
  (s.regions.flatMap fun p => p.2.cmds ++ p.2.busyDone).filter fun c => c.convoy == s.hart.convoy && c.hidx == s.hart.hidx

def depotPending (s : State) : Bool := !(hartCommands s).isEmpty

/-- Wait for the hart's earlier depot commands. -/
def awaitCommands : M Unit := do awaitIds ((hartCommands (← get)).map DepotCmd.id) settleUnit

/-- Does a scope's domain hold every vault and depot page (R287)? -/
def wideScope : Scope → Bool
  | .package | .system => true
  | _ => false

/-- A release at a scope (R291). The hart's accesses within the package have performed (log 4): the pending updates of
the domain are applied, flags held for its vaults are waited for, depot commands are where the domain has the depot, and
at system scope the outstanding items are waited for and the host writes flushed. -/
def releaseAt (sc : Scope) : M Unit := do
  let s ← get
  flushWhere (deferredIn sc s.coreId)
  awaitFlags (inDomain sc s.coreId)
  if wideScope sc then awaitCommands
  if sc = .system then
    awaitItems
    flushHost

/-- Does an access of the current hart under this leaf enter the ordering log (R329)? -/
def logsHere (s : State) (l : Loc) : Bool := l.log && s.hart.logged && s.ctx.order.en

/-- A logged access waits until every logged access to its granule with an earlier reservation has performed: what another
hart of the context has deferred has not (R330, log 67). -/
def awaitLogged (l : Loc) : M Unit := do
  let s ← get
  if logsHere s l && owesLogged s s.ctxId (fun g => g == s.cur) (l.key / 32) fun _ => true then waitUnit

/-- The place in the ordering log of the entry that the current instruction has just reserved (R330). -/
def entryPlace (s : State) (kind elem : Nat) (va : Word) : Option Word :=
  let e := orderEntry s.cur kind elem s.hart.csr.instret.toNat (va.toNat / 32)
  (s.ctx.order.pending.reverse.find? fun x => x.data == e).map LogEntry.at_

/-- The translation that the core holds for an address of the current hart (R304). -/
def heldEntry (s : State) (va : Word) : Option TlbEntry := tlbHit s.core.tlb s.ctx.asid va.toNat

/-- Defer an update of a local word whose access owes a log entry of this kind and element. -/
def deferLocal (l : Loc) (va : Word) (t : EType) (value kind elem : Nat) : M Unit := do
  let s ← get
  deferUpdate ⟨va, l.key, t, BitVec.ofNat 64 value, s.hart.mode
    , if logsHere s l then entryPlace s kind elem va else none, heldEntry s va⟩

/-! ### Accesses of a hart's instruction (R109 to R113, R155) -/

/-- The trap of an access at an address. A vertical link failure names an element (R152): that of the access, or the
bank's number for a plural access; a scalar access has none (R110, log 64). -/
def accessTrap (cause : BitVec 8) (va : Word) (elem bank : Option Nat) : Trap :=
  { cause, addr := some va, elem := if cause = 0x15 then elem <|> bank else elem, bank }

/-- The trap of a fetch of a line (R152). -/
def fetchTrap (cause : BitVec 8) (line : Word) : Trap := { cause, addr := some line, elem := linkElem cause 0 }

/-- Where an access goes. -/
inductive Place where
  | local_ (l : Loc)
  | remote
  deriving DecidableEq, Repr

/-- Steps 2 and 3 of R155: misaligned, then translation and protection, the reach of the family and the seal of a depot
region. -/
def locate (fam : Fam) (acc : Acc) (va : Word) (n : Nat) (elem bank : Option Nat) : M Place := do
  let s ← get
  let fail {α : Type} (c : BitVec 8) : M α := throw (.trap (accessTrap c va elem bank))
  if va.toNat % n ≠ 0 then fail 0x05
  match field va.toNat 62 2 with
  | 0 =>
    match translate (some s.coreId) s.ctx s.hart.mode fam acc va s with
    | .ok l s' => do
      set s'
      pure (.local_ l)
    | .error (c, _) s' => do
      set s'
      fail c
  | 2 => if reach fam acc .fabric && s.ctx.fcid != 0 then pure .remote else fail 0x09
  | _ => fail 0x09

/-- Class-0 traffic of a window (R325). -/
def meter (key n : Nat) : M Unit := do
  let s ← get
  if s.convoy.cls = 0 ∧ isVault key then
    set (s.setCoreOf (key / 2 ^ 30)
      { s.coreOf (key / 2 ^ 30) with budget := (s.coreOf (key / 2 ^ 30)).budget - n })
  else pure ()

/-- Step 5 of R155: a memory data error at the word. -/
def checkData (va : Word) (key : Nat) (elem bank : Option Nat) : M Unit := do
  let s ← get
  match dataError s key with
  | some c => throw (.trap (accessTrap c va elem bank))
  | none => pure ()

/-- An order-log entry of one access; ELEM is valid in a trap of a vector instruction (R330). -/
def logOne (l : Loc) (kind : Nat) (va : Word) (elem : Option Nat) : M Unit :=
  fun s => match logAccesses l.log [(kind, elem.getD 0, va)] s with
    | .error (.trap t) s' => .error (.trap { t with elem }) s'
    | r => r

/-- Before a load at a place: the pending updates of its granule, the staging cache, and a data error. -/
def prepLoad (p : Place) (va : Word) (elem bank : Option Nat) : M Unit := do
  match p with
  | .remote => flushFabric va
  | .local_ l =>
    if l.host then pure ()
    else do
      flushGranule l.key
      awaitOwn l
      awaitLogged l
      if isDepot l.key then
        let ok ← stagingServe l.key
        if !ok then throw (.trap { cause := 0x14, addr := some va, elem, bank })
      checkData va l.key elem bank

/-- The load itself. -/
def takeLoad (p : Place) (va : Word) (n : Nat) (t : EType) (elem bank : Option Nat) : M Nat := do
  match p with
  | .remote => do return (← remoteWait va t .load elem bank).toNat % 2 ^ (8 * n)
  | .local_ l =>
    if l.host then hostRead n
    else do
      meter l.key n
      return memReadN (← get).mem l.key n

/-- The ordering-log entry of an access at a place (R329): a fabric access enters no log here. -/
def logPlace (p : Place) (kind : Nat) (va : Word) (elem : Option Nat) : M Unit :=
  match p with
  | .local_ l => logOne l kind va elem
  | .remote => pure ()

/-- Load `n` bytes at a place already located. -/
def loadPlace (p : Place) (kind : Nat) (va : Word) (n : Nat) (t : EType) (elem bank : Option Nat) : M Nat := do
  prepLoad p va elem bank
  logPlace p kind va elem
  takeLoad p va n t elem bank

/-- Load `n` bytes, a power of two, at an aligned address. -/
def loadVa (fam : Fam) (kind : Nat) (va : Word) (n : Nat) (t : EType) (elem bank : Option Nat) : M Nat := do
  let p ← locate fam .load va n elem bank
  loadPlace p kind va n t elem bank

/-- Before a store at a place: the pending updates of its granule, and a vault that is cut off (R312). -/
def prepStore (p : Place) (va : Word) (elem bank : Option Nat) : M Unit := do
  match p with
  | .remote => flushFabric va
  | .local_ l =>
    if l.host then pure ()
    else do
      flushGranule l.key
      awaitOwn l
      awaitLogged l
      let s ← get
      if isVault l.key && (s.coreOf (l.key / 2 ^ 30)).fenced then throw (.trap (accessTrap 0x15 va elem bank))

/-- The store itself. -/
def putStore (p : Place) (va : Word) (n v : Nat) (t : EType) (unord : Bool) (elem : Option Nat) : M Unit := do
  match p with
  | .remote => remotePost va t (.store (BitVec.ofNat 64 v)) unord (elem.getD 0)
  | .local_ l =>
    if l.host then modify (hostStore l.key n v)
    else do
      meter l.key n
      modify (pokeN l.key n v)

/-- Store at a place already located. -/
def storePlace (p : Place) (kind : Nat) (va : Word) (n v : Nat) (t : EType) (unord : Bool) (elem bank : Option Nat) :
    M Unit := do
  prepStore p va elem bank
  logPlace p kind va elem
  putStore p va n v t unord elem

/-- Store `n` bytes, a power of two, at an aligned address. -/
def storeVa (fam : Fam) (kind : Nat) (va : Word) (n v : Nat) (t : EType) (unord : Bool) (elem bank : Option Nat) :
    M Unit := do
  let p ← locate fam .store va n elem bank
  storePlace p kind va n v t unord elem bank

/-! ### Fetch and branch targets (R61 to R63, R78) -/

/-- The keys of the two granules of a code line: on a BANKED page both lie in one bank (R59, R168). -/
structure Line where
  lo : Nat
  hi : Nat
  deriving DecidableEq, Repr

def Loc.line (l : Loc) : Line := ⟨l.key, l.key + if l.banked then 1024 else 32⟩

/-- The bytes of a line as the hart's fetch sees them: memory as it stood when the hart started or at its last fence of
core scope or wider (R78). -/
def lineBits (h : Hart) (l : Line) : Nat := memReadN h.code l.lo 32 + memReadN h.code l.hi 32 * 2 ^ 256

/-- Locate a code line: the keys of its granules, or the cause (R63, R171). -/
def fetchLine (line : Word) : EStateM (BitVec 8) State Line := do
  let s ← get
  if field line.toNat 62 2 ≠ 0 then throw 0x09
  match translate (some s.coreId) s.ctx s.hart.mode .fetch .fetch line s with
  | .error (c, _) s' => do
    set s'
    throw c
  | .ok l s' => do
    set s'
    if l.host then throw 0x09
    match dataError s' l.line.lo with
    | some c => throw c
    | none => match dataError s' l.line.hi with
      | some c => throw c
      | none => pure l.line

/-- The line word of a line (R60). -/
def lineWord (h : Hart) (l : Line) : Nat := field (lineBits h l) 480 32

/-- Check a taken transfer's target (R35, R63): nothing of the transfer takes effect on a failure. -/
def checkTarget (target : Word) (needBt : Bool) : M Unit := do
  if pcBreaks target then raiseAt 0x03 target
  let s ← get
  match fetchLine (lineOf target) s with
  | .error c s' => do
    set s'
    throw (.trap (fetchTrap c (lineOf target)))
  | .ok key s' => do
    set s'
    let w := lineWord s'.hart key
    if needBt then
      if !bit w (22 + slotOf target) then raiseAt 0x03 target
    else if slotOf target > 0 && bit w (18 + (slotOf target - 1)) then raiseAt 0x03 target

/-- The target of an F-B branch (R70). -/
def branchTarget (pc : Word) (t : Target) : Word :=
  (lineOf pc + (t.disp.signExtend 64) * 64) ||| t.slot.zeroExtend 64

/-! ### Calls (R104) -/

/-- The next frame id: modulo 2^32 and never 0 (R29). -/
def nextId (c : BitVec 32) : BitVec 32 := if c + 1 = 0 then 1 else c + 1

/-- Link, take a frame id and push it; a 65th entry discards the oldest (R29, R104, R235). -/
def pushFrame (h : Hart) : Hart :=
  let id := nextId h.frameCount
  let ring := h.ring ++ [id]
  let full := decide (ring.length > 64)
  { h.writeS 31 (nextSlot h.pc) with
    frameCount := id
    ring := if full then ring.drop 1 else ring
    overflow := h.overflow || full
    csr := { h.csr with frame := id } }

/-- `ret` pops the ring (R104). -/
def popFrame (h : Hart) : Hart :=
  let ring := h.ring.dropLast
  { h with ring := ring, csr := { h.csr with frame := ring.getLast?.getD 0 } }

end Sys2Proof.Machine
end

