-- ==== Sys2Proof/Machine/Access.lean ====
section
/-! DEFINITION. Accesses that the device makes on a program's behalf (R404), and the interrupts of the functions (R358). -/

namespace Sys2Proof.Machine

/-! ### Accesses on a program's behalf -/

/-- Why an engine's access did not happen: a fault, `soft` when it goes to the engine-fault queue (R308), at an address;
or a wait for a line of the staging cache. -/
inductive EngStop where
  | fault (cause : BitVec 8) (soft : Bool) (va : Word)
  | wait
  deriving DecidableEq, Repr

abbrev EngM := EStateM EngStop State

/-- The place of an address of the translated part, for context `n` with a view. -/
def engPlace (core : Option Nat) (n : Nat) (view : Mode) (fam : Fam) (acc : Acc) (va : Word) : EngM Loc := fun s =>
  if field va.toNat 62 2 ≠ 0 then .error (.fault 0x09 false va) s
  else match translate core (s.ctxOf n) view fam acc va s with
    | .ok l s' => .ok l s'
    | .error (c, soft) s' => .error (.fault c soft va) s'

/-- Read `n` bytes, which lie in one granule. -/
def engRead (core : Option Nat) (ctx : Nat) (view : Mode) (fam : Fam) (va : Word) (n : Nat) : EngM Nat := do
  let l ← engPlace core ctx view fam .load va
  if l.host then hostRead n
  else do
    let s ← get
    if isDepot l.key then
      match mget s.staging.lines (stagingLine l.key) with
      | none => do
        set (wantLine (stagingLine l.key) s)
        throw .wait
      | some 2 => do
        set { s with staging := { s.staging with lines := merase s.staging.lines (stagingLine l.key) } }
        throw (.fault 0x14 false va)
      | some _ => set (serveLine (stagingLine l.key) s)
    match dataError s l.key with
    | some c => throw (.fault c false va)
    | none => return memReadN s.mem l.key n

/-- Write `n` bytes, which lie in one granule. -/
def engWrite (core : Option Nat) (ctx : Nat) (view : Mode) (fam : Fam) (va : Word) (n v : Nat) : EngM Unit := do
  let l ← engPlace core ctx view fam .store va
  if l.host then modify (hostWrite l.key n v)
  else do
    let s ← get
    if isVault l.key && (s.coreOf (l.key / 2 ^ 30)).fenced then throw (.fault 0x15 false va)
    set (pokeN l.key n v s)

/-- The state after an access that can be made, else none. -/
def engDo (m : EngM Unit) (s : State) : Option State :=
  match m s with
  | .ok _ s' => some s'
  | .error _ _ => none

/-- A value that can be read, else none. -/
def engGet (m : EngM Nat) (s : State) : Option Nat :=
  match m s with
  | .ok v _ => some v
  | .error _ _ => none

/-! ### The context save area (R250, R404) -/

/-- Write a doubleword of the save area of a context. -/
def saveWrite (ctx : Nat) (va : Word) (v : Nat) : EngM Unit := engWrite none ctx .supervisor .device va 8 v

/-- Read a doubleword of the save area of a context. -/
def saveRead (ctx : Nat) (va : Word) : EngM Nat := engRead none ctx .supervisor .device va 8

/-- Change a doubleword of a saved image; nothing changes where it cannot be reached. -/
def imageUpdate (ctx : Nat) (va : Word) (f : Nat → Nat) (s : State) : State :=
  match engGet (saveRead ctx va) s with
  | none => s
  | some v => (engDo (saveWrite ctx va (f v % 2 ^ 64)) s).getD s

/-- The posts of a saved context in its save area (R250): handle; class, counter and record index of the poster (log 23);
status address. The index of a poster that has no record, since it is resident or over, is 0xFFFF (the spec gives none,
DESIGN CHOICE, log 77). -/
def writePosts (ctx : Nat) (s : State) : State :=
  let c := s.ctxOf ctx
  let at_ (off : Nat) : Word := c.ctxbase + BitVec.ofNat 64 off
  let one (i : Nat) (p : Post) : EngM Unit := do
    let u := (s.convoyOf p.poster.1).record
    let idx := match u with
      | none => 0xFFFF
      | some r => (r.toNat - (engGet (saveRead ctx (at_ 0)) s).getD 0) / 0x710000
    saveWrite ctx (at_ (0x9A00 + 32 * i)) p.handle.toNat
    saveWrite ctx (at_ (0x9A08 + 32 * i)) (p.cls + p.k.val * 256 + idx * 65536)
    saveWrite ctx (at_ (0x9A10 + 32 * i)) p.status.toNat
  let m : EngM Unit := do
    saveWrite ctx (at_ 0x9908) c.posts.length
    (List.zip (List.range c.posts.length) c.posts).forM fun p => one p.1 p.2
  (engDo m s).getD s

/-! ### Interrupts (R358) -/

/-- Raise a cause of a function: a cause that is pending raises no second message. -/
def raiseInt (f v : Nat) (s : State) : State :=
  let x := s.fnOf f
  if x.intcause.getLsbD v then s
  else { s.setFnOf f { x with intcause := x.intcause ||| (1#8 <<< v) } with replies := .interrupt f v :: s.replies }

/-- The function that a virtual device's interrupts go to: its VF, else the PF (log 22). -/
def fnOfVdev (s : State) (vd : Nat) : Nat :=
  match s.fns.find? fun p => p.1 != 0 && p.2.vdev == some vd with
  | some p => p.1
  | none => 0

end Sys2Proof.Machine
end

