-- ==== Sys2Proof/Machine/Flags.lean ====
section
/-! DEFINITION. The floating status of a hart: `fflags`, `frm` and `amax` (R27, R40, R43, R51). -/

namespace Sys2Proof.Machine

/-- `frm`.MODE (R40). -/
def Hart.mode_ (h : Hart) : Nat := h.csr.frm.toNat

/-- Add contributions to `fflags`; a flag once set stays (R27, R43). -/
def Hart.addFlags (fl : Flags) (h : Hart) : Hart :=
  { h with csr := { h.csr with fflags := h.csr.fflags ||| fl } }

def addFlags (fl : Flags) : M Unit := modHart (Hart.addFlags fl)

/-- Bits 30:0 of the FP32 encoding of |x|; exact for every floating format (R51). -/
def magBits (t : EType) (v : Nat) : Nat := (convert .f32 t 0 v).1 % 2 ^ 31

/-- One committed element of a `vcvt` with `amx` (R51). -/
def Hart.amax (t : EType) (v : Nat) (h : Hart) : Hart :=
  if (fDecode t v).isNaN then { h with csr := { h.csr with nanseen := true } }
  else if magBits t v > h.csr.mag.toNat then
    { h with csr := { h.csr with mag := BitVec.ofNat 31 (magBits t v) } }
  else h

/-- The modes that `frm` supports (R27). -/
def frmOk (v : Word) : Bool := decide (v.toNat % 8 ≤ 4)

end Sys2Proof.Machine
end

