-- ==== Sys2Proof/Machine/Operands.lean ====
section
/-! DEFINITION. Operand forms: operand B of scalar and vector instructions (R68), scalars of a floating format (R10),
elements of vector groups (R11, R117, R118), and the element loop of R119. -/

namespace Sys2Proof.Machine

/-! ### Scalar operands -/

/-- s[B], or IMM sign-extended (R68). -/
def readSrc : Src → M Word
  | .reg r => readS r
  | .imm i => pure (simm i)

/-- s[B], or IMM zero-extended (R116, R121, R215, R216). -/
def readSrcZ : Src → M Word
  | .reg r => readS r
  | .imm i => pure (i.zeroExtend 64)

/-- A scalar of a format: the bits above it are ignored (R10). -/
def readF (t : EType) (r : SReg) : M Nat := do return (← readS r).toNat % 2 ^ tBits t

/-- An FP32 immediate in the element format, converted once in `frm` with its flags (R68). An FP32 destination takes the
bits as they are. -/
def fpImm (t : EType) (mode : Nat) (i : BitVec 32) : Nat × Flags :=
  if t = .f32 then (i.toNat, 0)
  else
    let r := convert t .f32 mode i.toNat
    (r.1, r.2.1)

/-- Operand B of a scalar floating instruction: encoding, and flags of the immediate's conversion (R68, R98). -/
def readFSrc (t : EType) : Src → M (Nat × Flags)
  | .reg r => do return (← readF t r, 0)
  | .imm i => do return fpImm t (← getHart).mode_ i

/-! ### Elements of vector groups -/

/-- Register of a group by offset. -/
def groupReg (r : VName) (k : Nat) : VName := Fin.ofNat 32 (r.val + k)

/-- Element `i` of `bits` bits of the group at `r` (R11, R117). -/
def Hart.elem (h : Hart) (r : VName) (bits i : Nat) : Nat :=
  (h.v[groupReg r (bits * i / 16384)].extractLsb' (bits * i % 16384) bits).toNat

/-- Does a poisoned word hold a bit of the element (R160)? -/
def Hart.elemPoisoned (h : Hart) (r : VName) (bits i : Nat) : Bool :=
  h.poison.any fun x => match x with
    | .vector r' w => r' == groupReg r (bits * i / 16384) && decide (bits * i % 16384 / 32 ≤ w)
        && decide (w ≤ (bits * i % 16384 + bits - 1) / 32)
    | _ => false

/-- Replace `bits` bits of a register at `lo`. -/
def setBits (v : VReg) (lo bits x : Nat) : VReg :=
  (v &&& ~~~(BitVec.ofNat 16384 (2 ^ bits - 1) <<< lo)) ||| (BitVec.ofNat 16384 (x % 2 ^ bits) <<< lo)

/-- Write element `i`; every word that the element covers whole loses its poison (R160). -/
def Hart.setElem (r : VName) (bits i x : Nat) (h : Hart) : Hart :=
  let g := groupReg r (bits * i / 16384)
  let lo := bits * i % 16384
  clearPoison (fun p => match p with
    | .vector r' w => r' == g && decide (lo ≤ 32 * w) && decide (32 * w + 32 ≤ lo + bits)
    | _ => false)
    { h with v := h.v.set g (setBits h.v[g] lo bits x) }

/-- A vector register field must name an aligned group (R11). -/
def aligned (r : VName) (n : Nat) : Bool := r.val % n == 0

/-- W must name the width of `vtype`, and each field an aligned group (R117). -/
def checkVec (t : EType) (rs : List VName) : M Unit := do
  let c ← getConvoy
  require (tBytes t == c.ewBytes && rs.all fun r => aligned r c.grpRegs)

/-! ### Operand B of vector instructions -/

/-- Operand B resolved: a group, one value for every element, or a poisoned scalar, which the first element that reads it
meets (R119). -/
inductive VArg where
  | group (r : VName)
  | const (v : Nat)
  | bad
  deriving DecidableEq, Repr

def VArg.get (x : VArg) (h : Hart) (bits i : Nat) : Nat :=
  match x with
  | .group r => h.elem r bits i
  | .const v => v
  | .bad => 0

def VArg.poisoned (x : VArg) (h : Hart) (bits i : Nat) : Bool :=
  match x with
  | .group r => h.elemPoisoned r bits i
  | .const _ => false
  | .bad => true

/-- A scalar operand of an element loop: its poison is met by the elements that read it (R119, R150). -/
def resolveLate (t : EType) (r : SReg) : M VArg := do
  let h ← getHart
  if r ≠ 0 ∧ poisoned h (isScalarSite r) then pure .bad else return .const (← readF t r)

/-- The group that a vector operand B names. -/
def vsrcGroup : VSrc → List VName
  | .vec r => [r]
  | _ => []

/-- Integer operand B: the low bits of s[B] or of IMM (R68, R124). -/
def resolveB (t : EType) : VSrc → M VArg
  | .vec r => pure (.group r)
  | .scalar r => resolveLate t r
  | .imm i => pure (.const ((simm i).toNat % 2 ^ tBits t))

/-- Floating operand B, with the flags of the immediate's conversion (R68, R125). -/
def resolveFB (t : EType) : VSrc → M (VArg × Flags)
  | .vec r => pure (.group r, 0)
  | .scalar r => do return (← resolveLate t r, 0)
  | .imm i => do
    let p := fpImm t (← getHart).mode_ i
    return (.const p.1, p.2)

/-! ### The element loop (R119, R156) -/

/-- Perform elements in order, each on the hart as the earlier ones left it, up to the first whose operand is
poisoned. -/
def elemLoop (f : Nat → Hart → Option Hart) : List Nat → Hart → Hart × Option Nat
  | [], h => (h, none)
  | i :: t, h =>
    match f i h with
    | none => (h, some i)
    | some h' => elemLoop f t h'

/-- Elements from `vstart` to `vl` - 1. -/
def elemRange (h : Hart) : List Nat := List.range' h.csr.vstart.toNat (h.csr.vl - h.csr.vstart.toNat)

/-- Those of them that are active under a mask read at issue (R14, R120). -/
def activeRange (h : Hart) (ewb : Nat) (m : MName) : List Nat :=
  (elemRange h).filter fun i => (h.mask ewb m).active ewb i

def Hart.setVstart (n : Nat) (h : Hart) : Hart :=
  { h with csr := { h.csr with vstart := BitVec.ofNat 15 n } }

/-- Perform the elements `is`: `vstart` becomes 0 at the end, or the element whose operand is poisoned (R119). -/
def runElems (is : List Nat) (f : Nat → Hart → Option Hart) : M Unit := do
  match elemLoop f is (← getHart) with
  | (h', none) => setHart (h'.setVstart 0)
  | (h', some e) => do
    setHart (h'.setVstart e)
    raiseElem 0x14 e

/-- The mask bits that the elements from `vstart` to `vl` - 1 consult are read before any is performed (R160). -/
def checkPred (m : MName) : M Unit := do
  let h ← getHart
  checkMask m h.csr.vstart.toNat h.csr.vl fun _ => true

/-- R119 under a predicate. -/
def vecLoop (m : MName) (f : Nat → Hart → Option Hart) : M Unit := do
  checkPred m
  let c ← getConvoy
  runElems (activeRange (← getHart) c.ewBytes m) f

/-- An element result written to a group, with its flags, when no operand is poisoned. -/
def elemResult (d : VName) (bits i : Nat) (bad : Bool) (r : Nat × Flags) (h : Hart) : Option Hart :=
  if bad then none else some ((h.setElem d bits i r.1).addFlags r.2)

/-- Set or clear bit `i` of an explicit mask; poison stays (R160), even where the bits that an instruction sets one by one
add up to a whole word (log 33), and `m0` discards (R15). -/
def Hart.setMaskBit (m : MName) (i : Nat) (b : Bool) (h : Hart) : Hart :=
  if m = 0 then h
  else { h with m := h.m.set m { h.m[m] with bits := setBits h.m[m].bits i 1 (b2n b) } }

/-- A compact mask that will be expanded is read: the element named for its poisoned control word (R160). -/
def destPoison (h : Hart) (m : MName) : Option Nat :=
  if m ≠ 0 ∧ h.m[m].explicit = false ∧ h.poison.contains (.maskCtl m) then some h.csr.vstart.toNat else none

/-- Raise 0x14 at the lowest of the elements that operands name (R155). -/
def raiseLowest (es : List (Option Nat)) : M Unit :=
  match (es.filterMap id).min? with
  | some e => raiseElem 0x14 e
  | none => pure ()

/-- The same for a predicate and a mask destination together (R155, R160). -/
def checkPredDest (m d : MName) : M Unit := do
  let h ← getHart
  let c ← getConvoy
  raiseLowest [maskPoison h m (h.mask c.ewBytes m) h.csr.vstart.toNat h.csr.vl fun _ => true, destPoison h d]

/-- Before mask bits are written, a compact mask is expanded as `mexp` does (R120). -/
def Hart.expandMask (ewb : Nat) (m : MName) (h : Hart) : Hart :=
  if m = 0 ∨ h.m[m].explicit then h
  else clearPoison (isMaskSite m (fun _ => true) false)
    { h with m := h.m.set m { h.m[m] with explicit := true, bits := h.m[m].expand ewb } }

end Sys2Proof.Machine
end

