-- ==== Sys2Proof/Machine/ScalarInt.lean ====
section
/-! DEFINITION. Class 0x01, the scalar integer instructions (R92 to R95), the long immediates (R96), and `nop` (R76). An
operation of width w takes and gives numbers below 2^w; the vector instructions use the same functions (R124). -/

namespace Sys2Proof.Machine

/-! ### Operations at width w -/

/-- R94 `div`. -/
def divS (w a b : Nat) : Nat :=
  let x := toSigned w a
  let y := toSigned w b
  ofSigned w
    (if y = 0 then (if 0 ≤ x then 2 ^ (w - 1) - 1 else -2 ^ (w - 1))
     else if x = -2 ^ (w - 1) ∧ y = -1 then 2 ^ (w - 1) - 1
     else x.tdiv y)

/-- R94 `divu`. -/
def divU (w a b : Nat) : Nat := if b = 0 then 2 ^ w - 1 else a / b

/-- R94 `rem`. -/
def remS (w a b : Nat) : Nat :=
  let x := toSigned w a
  let y := toSigned w b
  ofSigned w (if y = 0 then 0 else if x = -2 ^ (w - 1) ∧ y = -1 then -1 else x - y * x.tdiv y)

/-- R94 `remu`. -/
def remU (b a : Nat) : Nat := if b = 0 then 0 else a % b

def mulhS (w a b : Nat) : Nat := ofSigned w (toSigned w a * toSigned w b / 2 ^ w)
def mulhU (w a b : Nat) : Nat := a * b / 2 ^ w
def subW (w a b : Nat) : Nat := (a + 2 ^ w - b) % 2 ^ w
def notW (w a : Nat) : Nat := 2 ^ w - 1 - a
def andnW (w a b : Nat) : Nat := a &&& notW w b
def shlW (w a b : Nat) : Nat := (a <<< (b % w)) % 2 ^ w
def shrW (w a b : Nat) : Nat := a >>> (b % w)
def sarW (w a b : Nat) : Nat := ofSigned w (toSigned w a / 2 ^ (b % w))
def rotW (w a b : Nat) : Nat := (a <<< (b % w) ||| a >>> (w - b % w)) % 2 ^ w
def minS (w a b : Nat) : Nat := if toSigned w a ≤ toSigned w b then a else b
def maxS (w a b : Nat) : Nat := if toSigned w a ≤ toSigned w b then b else a
def clzW (w a : Nat) : Nat := if a = 0 then w else w - 1 - a.log2
/-- Trailing zeros from bit `i` on, looking at `n` bits. -/
def ctzFrom (a : Nat) : Nat → Nat → Nat
  | 0, i => i
  | n + 1, i => if a.testBit i then i else ctzFrom a n (i + 1)
def ctzW (w a : Nat) : Nat := ctzFrom a w 0
def popW (w a : Nat) : Nat := ((List.range w).filter fun i => a.testBit i).length

/-- R91, for numbers of width w. -/
def condHolds (cc : Cond) (w x y : Nat) : Bool :=
  match cc with
  | .eq => x == y
  | .ne => x != y
  | .lt => decide (toSigned w x < toSigned w y)
  | .ge => decide (toSigned w y ≤ toSigned w x)
  | .ltu => decide (x < y)
  | .geu => decide (y ≤ x)

/-! ### The forms of class 0x01 -/

/-- Operation width (R92). -/
def widthBits : IntWidth → Nat
  | .w64 => 64
  | .i32 => 32
  | .n32 => 32

/-- The result in s[D] (R92). -/
def extendW (w : IntWidth) (v : Nat) : Word :=
  match w with
  | .w64 => BitVec.ofNat 64 v
  | .i32 => sext 32 v
  | .n32 => BitVec.ofNat 64 (v % 2 ^ 32)

/-- Two operands (R93). -/
def sBin (f : Nat → Nat → Nat → Nat) (x : SInt) : M Ctl := do
  let w := widthBits x.w
  let a ← readS x.a
  let b ← readSrc x.b
  writeS x.d (extendW x.w (f w (a.toNat % 2 ^ w) (b.toNat % 2 ^ w)))
  pure .next

/-- One operand (R93). -/
def sUn (f : Nat → Nat → Nat) (x : SIntUn) : M Ctl := do
  let w := widthBits x.w
  let a ← readS x.a
  writeS x.d (extendW x.w (f w (a.toNat % 2 ^ w)))
  pure .next

def opNop : M Ctl := pure .next
def opAdd (x : SInt) : M Ctl := sBin (fun w a b => (a + b) % 2 ^ w) x
def opSub (x : SInt) : M Ctl := sBin subW x
def opMul (x : SInt) : M Ctl := sBin (fun w a b => a * b % 2 ^ w) x
def opMulh (x : SInt) : M Ctl := sBin mulhS x
def opMulhu (x : SInt) : M Ctl := sBin mulhU x
def opDiv (x : SInt) : M Ctl := sBin divS x
def opDivu (x : SInt) : M Ctl := sBin divU x
def opRem (x : SInt) : M Ctl := sBin remS x
def opRemu (x : SInt) : M Ctl := sBin (fun _ a b => remU b a) x
def opAnd (x : SInt) : M Ctl := sBin (fun _ a b => a &&& b) x
def opOr (x : SInt) : M Ctl := sBin (fun _ a b => a ||| b) x
def opXor (x : SInt) : M Ctl := sBin (fun _ a b => a ^^^ b) x
def opAndn (x : SInt) : M Ctl := sBin andnW x
def opShl (x : SInt) : M Ctl := sBin shlW x
def opShr (x : SInt) : M Ctl := sBin shrW x
def opSar (x : SInt) : M Ctl := sBin sarW x
def opRot (x : SInt) : M Ctl := sBin rotW x
def opMin (x : SInt) : M Ctl := sBin minS x
def opMax (x : SInt) : M Ctl := sBin maxS x
def opMinu (x : SInt) : M Ctl := sBin (fun _ a b => min a b) x
def opMaxu (x : SInt) : M Ctl := sBin (fun _ a b => max a b) x

def opSet (x : SSet) : M Ctl := do
  let w := widthBits x.w
  let a ← readS x.a
  let b ← readSrc x.b
  writeS x.d (BitVec.ofNat 64 (b2n (condHolds x.cc w (a.toNat % 2 ^ w) (b.toNat % 2 ^ w))))
  pure .next

/-- All 64 bits of s[C] are tested. -/
def opSel (x : SSel) : M Ctl := do
  let w := widthBits x.w
  let a ← readS x.a
  let b ← readSrc x.b
  let c ← readS x.c
  writeS x.d (extendW x.w ((if c ≠ 0 then a else b).toNat % 2 ^ w))
  pure .next

def opClz (x : SIntUn) : M Ctl := sUn clzW x
def opCtz (x : SIntUn) : M Ctl := sUn ctzW x
def opPopc (x : SIntUn) : M Ctl := sUn popW x

/-- R95. -/
def opBfx (x : SBfx) : M Ctl := do
  let len := x.len1.toNat + 1
  let f := field (← readS x.a).toNat x.pos.toNat len
  writeS x.d (if x.sx then sext len f else BitVec.ofNat 64 f)
  pure .next

/-- R95. -/
def opBfi (x : SBfi) : M Ctl := do
  let len := x.len1.toNat + 1
  let a ← readS x.a
  let c ← readS x.c
  let mask := BitVec.ofNat 64 (2 ^ len - 1) <<< x.pos.toNat
  writeS x.d ((c &&& ~~~mask) ||| ((a <<< x.pos.toNat) &&& mask))
  pure .next

/-! ### Long immediates (R96) -/

def opLi (x : LImm) : M Ctl := do
  writeS x.d x.imm
  pure .next

def opLpc (x : LImm) : M Ctl := do
  writeS x.d (lineOf (← getHart).pc + x.imm)
  pure .next

/-! ### Meanings: one per instruction -/

/-- NOP. -/
def execNop (s : State) : Host.Outcome State Fault Refusal := runUnit opNop s

/-- ADD. -/
def execAdd (x : SInt) (s : State) : Host.Outcome State Fault Refusal := runUnit (opAdd x) s

/-- SUB. -/
def execSub (x : SInt) (s : State) : Host.Outcome State Fault Refusal := runUnit (opSub x) s

/-- MUL. -/
def execMul (x : SInt) (s : State) : Host.Outcome State Fault Refusal := runUnit (opMul x) s

/-- MULH. -/
def execMulh (x : SInt) (s : State) : Host.Outcome State Fault Refusal := runUnit (opMulh x) s

/-- MULHU. -/
def execMulhu (x : SInt) (s : State) : Host.Outcome State Fault Refusal := runUnit (opMulhu x) s

/-- DIV. -/
def execDiv (x : SInt) (s : State) : Host.Outcome State Fault Refusal := runUnit (opDiv x) s

/-- DIVU. -/
def execDivu (x : SInt) (s : State) : Host.Outcome State Fault Refusal := runUnit (opDivu x) s

/-- REM. -/
def execRem (x : SInt) (s : State) : Host.Outcome State Fault Refusal := runUnit (opRem x) s

/-- REMU. -/
def execRemu (x : SInt) (s : State) : Host.Outcome State Fault Refusal := runUnit (opRemu x) s

/-- AND. -/
def execAnd (x : SInt) (s : State) : Host.Outcome State Fault Refusal := runUnit (opAnd x) s

/-- OR. -/
def execOr (x : SInt) (s : State) : Host.Outcome State Fault Refusal := runUnit (opOr x) s

/-- XOR. -/
def execXor (x : SInt) (s : State) : Host.Outcome State Fault Refusal := runUnit (opXor x) s

/-- ANDN. -/
def execAndn (x : SInt) (s : State) : Host.Outcome State Fault Refusal := runUnit (opAndn x) s

/-- SHL. -/
def execShl (x : SInt) (s : State) : Host.Outcome State Fault Refusal := runUnit (opShl x) s

/-- SHR. -/
def execShr (x : SInt) (s : State) : Host.Outcome State Fault Refusal := runUnit (opShr x) s

/-- SAR. -/
def execSar (x : SInt) (s : State) : Host.Outcome State Fault Refusal := runUnit (opSar x) s

/-- ROT. -/
def execRot (x : SInt) (s : State) : Host.Outcome State Fault Refusal := runUnit (opRot x) s

/-- MIN. -/
def execMin (x : SInt) (s : State) : Host.Outcome State Fault Refusal := runUnit (opMin x) s

/-- MAX. -/
def execMax (x : SInt) (s : State) : Host.Outcome State Fault Refusal := runUnit (opMax x) s

/-- MINU. -/
def execMinu (x : SInt) (s : State) : Host.Outcome State Fault Refusal := runUnit (opMinu x) s

/-- MAXU. -/
def execMaxu (x : SInt) (s : State) : Host.Outcome State Fault Refusal := runUnit (opMaxu x) s

/-- SET. -/
def execSet (x : SSet) (s : State) : Host.Outcome State Fault Refusal := runUnit (opSet x) s

/-- SEL. -/
def execSel (x : SSel) (s : State) : Host.Outcome State Fault Refusal := runUnit (opSel x) s

/-- CLZ. -/
def execClz (x : SIntUn) (s : State) : Host.Outcome State Fault Refusal := runUnit (opClz x) s

/-- CTZ. -/
def execCtz (x : SIntUn) (s : State) : Host.Outcome State Fault Refusal := runUnit (opCtz x) s

/-- POPC. -/
def execPopc (x : SIntUn) (s : State) : Host.Outcome State Fault Refusal := runUnit (opPopc x) s

/-- BFX. -/
def execBfx (x : SBfx) (s : State) : Host.Outcome State Fault Refusal := runUnit (opBfx x) s

/-- BFI. -/
def execBfi (x : SBfi) (s : State) : Host.Outcome State Fault Refusal := runUnit (opBfi x) s

/-- LI. -/
def execLi (x : LImm) (s : State) : Host.Outcome State Fault Refusal := runUnit (opLi x) s

/-- LPC. -/
def execLpc (x : LImm) (s : State) : Host.Outcome State Fault Refusal := runUnit (opLpc x) s

end Sys2Proof.Machine
end

