-- ==== Sys2Proof/Machine/Branch.lean ====
section
/-! DEFINITION. Class 0x04, branches and calls (R103 to R107), and the long transfers of class 0x02 (R97). A taken
transfer whose target is refused faults before it has any effect (R63, R103). -/

namespace Sys2Proof.Machine

/-- A taken transfer that needs a BT bit: its effects, then the pc. -/
def takeJump (target : Word) (needBt : Bool) (effect : M Unit) : M Ctl := do
  checkTarget target needBt
  effect
  pure (.jump target)

/-- A branch by R70, taken when `p`. -/
def branchIf (p : Bool) (t : Target) (effect : M Unit) : M Ctl := do
  if p then takeJump (branchTarget (← getHart).pc t) true effect
  else do
    effect
    pure .next

def opB (x : BrReg) : M Ctl := do
  let a ← readS x.a
  let b ← readS x.b
  branchIf (condHolds x.cc 64 a.toNat b.toNat) x.t (pure ())

def opBi (x : BrImm) : M Ctl := do
  let a ← readS x.a
  branchIf (condHolds x.cc 64 a.toNat (x.imm.signExtend 64).toNat) x.t (pure ())

def opJmp (t : Target) : M Ctl := branchIf true t (pure ())

/-- R104. -/
def opCall (t : Target) : M Ctl := branchIf true t (modHart pushFrame)

def opJmpr (a : SReg) : M Ctl := do takeJump (← readS a) true (pure ())

def opCallr (a : SReg) : M Ctl := do takeJump (← readS a) true (modHart pushFrame)

/-- R104: no BT bit needed. -/
def opRet : M Ctl := do takeJump (← readS 31) false (modHart popFrame)

/-- Byte step per element of a step field (R105). -/
def stripStep (ewb v : Nat) : Nat := if v = 0 then ewb else 2 ^ (v - 1)

/-- Advance one pointer of `strip`; a field of 0 names none (R105). -/
def stripAdvance (n step : Nat) (r : SReg) : M Unit :=
  if r = 0 then pure ()
  else do writeS r ((← readS r) + BitVec.ofNat 64 (n * step))

/-- R105. -/
def opStrip (x : Strip) : M Ctl := do
  let h ← getHart
  let c ← getConvoy
  let n := h.csr.vl
  let sc := if n ≤ h.csr.sc.toNat then h.csr.sc - BitVec.ofNat 64 n else 0
  let st (i : Nat) := stripStep c.ewBytes (field x.steps.toNat (4 * i) 4)
  let effect : M Unit := do
    modCsr fun k => { k with sc := sc }
    stripAdvance n (st 0) x.a
    stripAdvance n (st 1) x.b
    stripAdvance n (st 2) x.c
    stripAdvance n (st 3) x.e
  -- poisoned pointers are met before anything is written
  let _ ← readS x.a
  let _ ← readS x.b
  let _ ← readS x.c
  let _ ← readS x.e
  branchIf (sc != 0) x.t effect

/-- The counts and mask bits that `vloopl` leaves (R106). -/
def vloopStep (a : VName) (bits : Nat) (m : MName) (i : Nat) (h : Hart) : Hart :=
  let n := h.elem a bits i
  let n' := n - 1
  let h' := if n = 0 then h else h.setElem a bits i n'
  if n' = 0 then h'.setMaskBit m i false else h'

/-- R106. -/
def opVloopl (x : VLoop) : M Ctl := do
  let c ← getConvoy
  require (x.c != 0 && aligned x.a c.grpRegs)
  stallBound x.c
  let h ← getHart
  checkMask x.c 0 h.csr.vl fun _ => true
  let ewb := c.ewBytes
  let act := (List.range h.csr.vl).filter fun i => (h.mask ewb x.c).active ewb i
  match act.find? fun i => h.elemPoisoned x.a (8 * ewb) i with
  | some e => raiseElem 0x14 e
  | none => pure ()
  let h' := act.foldl (fun g i => vloopStep x.a (8 * ewb) x.c i g) (h.expandMask ewb x.c)
  let more := (List.range h.csr.vl).any fun i => (h'.mask ewb x.c).active ewb i
  branchIf more x.t (setHart h')

/-- Is the test of a mask true (R107)? -/
def maskTest (t : MaskTest) (bs : List Bool) : Bool :=
  match t with
  | .any => bs.any id
  | .none => !bs.any id
  | .all => bs.all id
  | .nall => !bs.all id

/-- R107. -/
def opBm (x : BrMask) : M Ctl := do
  let c ← getConvoy
  let h ← getHart
  checkMask x.a 0 h.csr.vl fun _ => true
  let bs := (List.range h.csr.vl).map fun i => (h.mask c.ewBytes x.a).active c.ewBytes i
  branchIf (maskTest x.test bs) x.t (pure ())

/-! ### Long transfers (R97) -/

def longTarget (pc : Word) (x : LJump) : Word :=
  if x.abs then x.imm else (lineOf pc + lineOf x.imm) ||| (x.imm &&& 7)

def opJmpl (x : LJump) : M Ctl := do takeJump (longTarget (← getHart).pc x) true (pure ())

def opCalll (x : LJump) : M Ctl := do takeJump (longTarget (← getHart).pc x) true (modHart pushFrame)

/-! ### Meanings: one per instruction -/

/-- B. -/
def execB (x : BrReg) (s : State) : Host.Outcome State Fault Refusal := runUnit (opB x) s

/-- BI. -/
def execBi (x : BrImm) (s : State) : Host.Outcome State Fault Refusal := runUnit (opBi x) s

/-- JMP. -/
def execJmp (t : Target) (s : State) : Host.Outcome State Fault Refusal := runUnit (opJmp t) s

/-- CALL. -/
def execCall (t : Target) (s : State) : Host.Outcome State Fault Refusal := runUnit (opCall t) s

/-- JMPR. -/
def execJmpr (a : SReg) (s : State) : Host.Outcome State Fault Refusal := runUnit (opJmpr a) s

/-- CALLR. -/
def execCallr (a : SReg) (s : State) : Host.Outcome State Fault Refusal := runUnit (opCallr a) s

/-- RET. -/
def execRet (s : State) : Host.Outcome State Fault Refusal := runUnit opRet s

/-- STRIP. -/
def execStrip (x : Strip) (s : State) : Host.Outcome State Fault Refusal := runUnit (opStrip x) s

/-- VLOOPL. -/
def execVloopl (x : VLoop) (s : State) : Host.Outcome State Fault Refusal := runUnit (opVloopl x) s

/-- BM. -/
def execBm (x : BrMask) (s : State) : Host.Outcome State Fault Refusal := runUnit (opBm x) s

/-- JMPL. -/
def execJmpl (x : LJump) (s : State) : Host.Outcome State Fault Refusal := runUnit (opJmpl x) s

/-- CALLL. -/
def execCalll (x : LJump) (s : State) : Host.Outcome State Fault Refusal := runUnit (opCalll x) s

end Sys2Proof.Machine
end

