-- ==== Sys2Proof/Machine/ScalarMem.lean ====
section
/-! DEFINITION. Scalar loads, stores and atomics of class 0x05 (R108 to R114). The accesses of a hart are performed in
its program order, at its own step (log 4), so within the package an acquire adds nothing, and a release waits only for
what lies outside the hart. -/

namespace Sys2Proof.Machine

/-- R109. -/
def opLd (x : SLoad) : M Ctl := do
  let a ← readS x.a
  let b ← readSrc x.b
  let v ← loadVa .scalar 1 (a + b) (tBytes x.t) x.t none none
  writeS x.d (extendTo x.t v)
  pure .next

/-- A release, where the instruction names one. -/
def releaseOpt : Option Scope → M Unit
  | some sc => releaseAt sc
  | none => pure ()

/-- R109. -/
def opSt (x : SStore) : M Ctl := do
  let c ← readS x.c
  let a ← readS x.a
  let b ← readSrc x.b
  let p ← locate .scalar .store (a + b) (tBytes x.t) none none
  releaseOpt x.rel
  storePlace p 2 (a + b) (tBytes x.t) (c.toNat % 2 ^ tBits x.t) x.t x.unord none none
  pure .next

/-- The value that an atomic writes, or none where `cas` finds another value (R112). -/
def amoNew (t : EType) (op : AmoOp) (old cmp c : Nat) : Option Nat :=
  let w := tBits t
  match op with
  | .add => some ((old + c) % 2 ^ w)
  | .and => some (old &&& c)
  | .or => some (old ||| c)
  | .xor => some (old ^^^ c)
  | .min => some (minS w old c)
  | .max => some (maxS w old c)
  | .minu => some (min old c)
  | .maxu => some (max old c)
  | .swap => some c
  | .cas => if old = cmp then some c else none
  | .fadd => some (fAddRne t old c).1

/-- One indivisible access at the word's controller (R112): the old value. -/
def amoAt (l : Loc) (va : Word) (t : EType) (op : AmoOp) (cmp c : Nat) : M Nat := do
  flushGranule l.key
  awaitOwn l
  awaitLogged l
  checkData va l.key none none
  logOne l 3 va none
  meter l.key (tBytes t)
  let old := memReadN (← get).mem l.key (tBytes t)
  match amoNew t op old cmp c with
  | some v => modify (pokeN l.key (tBytes t) v)
  | none => pure ()
  pure old

/-- An acquiring atomic that returns nothing is sent, and the unit commits only once it has performed at its
destination, so that no later access comes before it (R291). -/
def awaitPosted : M Unit := do
  let s ← get
  match (hartItems s).getLast? with
  | some i => if i.failed.isNone then awaitIds [i.id] do
      setHart { s.hart with posted := s.hart.posted + 1 }
      settleUnit
  | none => pure ()

/-- R112, and in deterministic mode R114. -/
def opAmo (x : Amo) : M Ctl := do
  let h ← getHart
  let det := h.det && x.op == .fadd
  if det && x.d != 0 then raise 0x17
  let a ← readS x.a
  let c ← readS x.c
  let b ← readS x.b
  let w := tBits x.t
  let p ← locate .amo .store a (tBytes x.t) none none
  if x.rel then releaseAt x.scope
  if det then
    match p with
    | .local_ l => do
      deferRoom 1
      logOne l 3 a none
      deferLocal l a x.t (c.toNat % 2 ^ w) 3 0
      pure .next
    | .remote => do
      deferRoom 1
      deferUpdate ⟨a, a.toNat, x.t, BitVec.ofNat 64 (c.toNat % 2 ^ w), (← getHart).mode, none, none⟩
      pure .next
  else
    match p with
    | .local_ l => do
      let old ← amoAt l a x.t x.op (b.toNat % 2 ^ w) (c.toNat % 2 ^ w)
      writeS x.d (extendTo x.t old)
      pure .next
    | .remote => do
      flushFabric a
      let cmp := BitVec.ofNat 64 (b.toNat % 2 ^ w)
      let opd := BitVec.ofNat 64 (c.toNat % 2 ^ w)
      if x.d = 0 then do
        remotePost a x.t (.amo x.op cmp opd false) false 0
        if x.acq && x.scope != .hart then awaitPosted
        pure .next
      else do
        let old ← remoteWait a x.t (.amo x.op cmp opd true) none none
        writeS x.d (extendTo x.t (old.toNat % 2 ^ w))
        pure .next

/-! ### Meanings: one per instruction -/

/-- LD. -/
def execLd (x : SLoad) (s : State) : Host.Outcome State Fault Refusal := runUnit (opLd x) s

/-- ST. -/
def execSt (x : SStore) (s : State) : Host.Outcome State Fault Refusal := runUnit (opSt x) s

/-- AMO. -/
def execAmo (x : Amo) (s : State) : Host.Outcome State Fault Refusal := runUnit (opAmo x) s

end Sys2Proof.Machine
end

