-- ==== Sys2Proof/Machine/Closure.lean ====
section
/-! DEFINITION. Closures and the environment store: class 0x07 (R226 to R238). The window of a context on a core is the
one of the core's windows that names the context. -/

namespace Sys2Proof.Machine

/-! ### Handles and frames (R18, R228 to R230) -/

def hGen (h : Word) : Nat := field h.toNat 0 12
def hFrame (h : Word) : Nat := field h.toNat 12 20
def hSlot (h : Word) : Nat := field h.toNat 32 3
def hLine (h : Word) : Nat := field h.toNat 35 29

def Window.frame (w : Window) (f : Nat) : Frame := (mget w.frames f).getD Frame.reset
def Window.setFrame (w : Window) (f : Nat) (x : Frame) : Window := { w with frames := mset w.frames f x }

/-- A new window: every frame free, in ascending order (R229). -/
def Window.fresh (id ctx : Nat) : Window := ⟨id, ctx, [], List.range 256⟩

/-- The window of a context on a core, by number. -/
def Core.windowOf (c : Core) (ctx : Nat) : Option (Nat × Window) := c.windows.find? fun p => p.2.ctx == ctx

/-- The window number and window of the current hart. -/
def State.window (s : State) : Nat × Window := (s.core.windowOf s.ctxId).getD (0, Window.fresh 0 s.ctxId)

def setWindow (n : Nat) (w : Window) : M Unit := modCore fun c => { c with windows := mset c.windows n w }

/-- R230 on a window. -/
def Window.valid (w : Window) (h : Word) : Bool :=
  h != 0 && decide (hFrame h ≤ 255) && hGen h != 0
    && (w.frame (hFrame h)).live && (w.frame (hFrame h)).gen.toNat == hGen h

/-- Validate a handle (R230): its frame. -/
def validate (h : Word) : M Frame := do
  let w := (← get).window.2
  if w.valid h then pure (w.frame (hFrame h)) else raise 0x0D

/-- The generation after a free (R229): 4,095 is followed by 1. -/
def nextGen (g : BitVec 12) : BitVec 12 := if g = 4095 then 1 else g + 1

/-- Free a frame: it joins the tail of the order (R229). -/
def Window.free (w : Window) (f : Nat) : Window :=
  { w.setFrame f { Frame.reset with gen := nextGen (w.frame f).gen } with order := w.order ++ [f] }

/-- Drop one reference of a live frame (R233). -/
def Window.drop (w : Window) (f : Nat) : Window :=
  let x := w.frame f
  if x.refc ≤ 1 then w.free f else w.setFrame f { x with refc := x.refc - 1 }

/-- Take one reference (R233, R238). -/
def Window.take (w : Window) (f : Nat) : Window :=
  let x := w.frame f
  w.setFrame f { x with refc := x.refc + 1 }

/-! ### Making closures (R232) -/

/-- The registers of a bitmap, ascending. -/
def bitmapRegs (bm : BitVec 32) : List SReg := (List.finRange 32).filter fun r => bm.getLsbD r.val

/-- Write values into the leading doublewords of a frame. -/
def fillData (ws : List Word) (d : Vector Word 16) : Vector Word 16 :=
  Vector.ofFn fun i => if i.val < ws.length then ws.getD i.val 0 else d[i]

/-- `capture`, and with `ref` `capref`: the by-reference address. -/
def captureWith (d : CName) (a : SReg) (bm : BitVec 32) (ref : Option SReg) : M Ctl := do
  let entry ← readS a
  let vals ← (bitmapRegs bm).mapM readS
  let addr ← match ref with
    | some b => readS b
    | none => pure 0
  let s ← get
  let off := lineOf entry - s.ctx.codebase
  if pcBreaks entry || decide (2 ^ 35 ≤ off.toNat) then raiseAt 0x03 entry
  let (n, w) := s.window
  match w.order with
  | [] => raise 0x1D
  | f :: rest => do
    let x := w.frame f
    let data := fillData vals (Vector.replicate 16 0)
    let data := if ref.isSome then
        (data.set 14 addr).set 15 ((s.hart.instNo.zeroExtend 64 <<< 32) ||| s.hart.csr.frame.zeroExtend 64)
      else data
    setWindow n { w.setFrame f
      { x with refc := 1, cnt := BitVec.ofNat 4 vals.length, ref := ref.isSome, live := true, data := data, poison := [] }
      with order := rest }
    writeC d (BitVec.ofNat 64 (off.toNat / 64 * 2 ^ 35 + slotOf entry * 2 ^ 32 + f * 2 ^ 12 + x.gen.toNat))
    pure .next

def opCapture (x : Capture) : M Ctl := captureWith x.d x.a x.bm none
def opCapref (x : Capref) : M Ctl := captureWith x.d x.a x.bm (some x.b)

/-! ### References (R233) -/

def opCdup (d a : CName) : M Ctl := do
  let h ← readC a
  let x ← validate h
  if x.refc = 65535 then raise 0x10
  let (n, w) := (← get).window
  setWindow n (w.take (hFrame h))
  writeC d h
  pure .next

def opCdrop (a : CName) : M Ctl := do
  let h ← readC a
  let _ ← validate h
  let (n, w) := (← get).window
  setWindow n (w.drop (hFrame h))
  writeC a 0
  pure .next

/-! ### Calling (R234) -/

/-- The entry of a handle (R18, R234). -/
def entryOf (codebase h : Word) : Word := (codebase + BitVec.ofNat 64 (hLine h * 64)) ||| BitVec.ofNat 64 (hSlot h)

def opApply (a : CName) : M Ctl := do
  let h ← readC a
  let _ ← validate h
  let t := entryOf (← getCtx).codebase h
  takeJump t true do
    modHart pushFrame
    modCsr fun k => { k with env := h }

/-! ### Reading (R236) -/

/-- The test of R236. -/
def frameLive (s : State) (inst fid : BitVec 32) : Bool :=
  s.harts.any fun p =>
    p.1 / 8 == s.coreId && (s.convoyOf p.2.convoy).ctx == s.ctxId && p.2.instNo == inst
      && (match p.2.status with
        | .ending _ _ => false
        | _ => true)
      && (if fid = 0 then !p.2.overflow else p.2.ring.contains fid)

/-- A poisoned doubleword of a frame (R160, R313). -/
def frameBad (x : Frame) (k : Nat) : Bool := x.poison.contains k

def opCenv (d : SReg) (k : BitVec 4) : M Ctl := do
  let h := (← getHart).csr.env
  let x ← validate h
  if k.toNat ≤ 13 then do
    require (decide (k.toNat < x.cnt.toNat))
    if frameBad x k.toNat then raise 0x14
    writeS d x.data[k.toFin]
    pure .next
  else do
    require x.ref
    if frameBad x 15 then raise 0x14
    let r := x.data[15]
    if !frameLive (← get) (r.extractLsb' 32 32) (r.extractLsb' 0 32) then raise 0x0E
    if frameBad x 14 then raise 0x14
    writeS d x.data[14]
    pure .next

/-! ### Moving handles (R237) -/

def opCld (x : CLoad) : M Ctl := do
  let va := (← readS x.a) + simm x.off
  let v ← loadVa .scalar 1 va 8 .n64 none none
  writeC x.d (BitVec.ofNat 64 v)
  pure .next

def opCldR (d : CName) (a : SReg) : M Ctl := do
  writeC d (← readS a)
  pure .next

def opCst (x : CStore) : M Ctl := do
  let c ← readC x.c
  let va := (← readS x.a) + simm x.off
  storeVa .scalar 2 va 8 c.toNat .n64 false none none
  pure .next

def opCstR (d : SReg) (c : CName) : M Ctl := do
  writeS d (← readC c)
  pure .next

/-! ### Meanings: one per instruction -/

/-- CAPTURE. -/
def execCapture (x : Capture) (s : State) : Host.Outcome State Fault Refusal := runUnit (opCapture x) s

/-- CAPREF. -/
def execCapref (x : Capref) (s : State) : Host.Outcome State Fault Refusal := runUnit (opCapref x) s

/-- CDUP. -/
def execCdup (d : CName) (a : CName) (s : State) : Host.Outcome State Fault Refusal := runUnit (opCdup d a) s

/-- CDROP. -/
def execCdrop (a : CName) (s : State) : Host.Outcome State Fault Refusal := runUnit (opCdrop a) s

/-- APPLY. -/
def execApply (a : CName) (s : State) : Host.Outcome State Fault Refusal := runUnit (opApply a) s

/-- CENV. -/
def execCenv (d : SReg) (k : BitVec 4) (s : State) : Host.Outcome State Fault Refusal := runUnit (opCenv d k) s

/-- CLD. -/
def execCld (x : CLoad) (s : State) : Host.Outcome State Fault Refusal := runUnit (opCld x) s

/-- CLD_R. -/
def execCldR (d : CName) (a : SReg) (s : State) : Host.Outcome State Fault Refusal := runUnit (opCldR d a) s

/-- CST. -/
def execCst (x : CStore) (s : State) : Host.Outcome State Fault Refusal := runUnit (opCst x) s

/-- CST_R. -/
def execCstR (d : SReg) (c : CName) (s : State) : Host.Outcome State Fault Refusal := runUnit (opCstR d c) s

end Sys2Proof.Machine
end

