-- ==== Sys2Proof/Machine/VecInt.lean ====
section
/-! DEFINITION. Class 0x11, the vector integer instructions (R124), each the element loop of R119 over an operation of
width w. -/

namespace Sys2Proof.Machine

/-- Two operands; `f` takes the old element of v[D] last (R124). -/
def vInt3 (f : Nat → Nat → Nat → Nat → Nat) (readsD : Bool) (x : VOp) : M Ctl := do
  let w := tBits x.t
  checkVec x.t (x.d :: x.a :: vsrcGroup x.b)
  let b ← resolveB x.t x.b
  vecLoop x.m fun i h =>
    elemResult x.d w i (h.elemPoisoned x.a w i || b.poisoned h w i || (readsD && h.elemPoisoned x.d w i))
      (f w (h.elem x.a w i) (b.get h w i) (h.elem x.d w i), 0) h
  pure .next

def vInt (f : Nat → Nat → Nat → Nat) (x : VOp) : M Ctl := vInt3 (fun w a b _ => f w a b) false x

/-- One operand. -/
def vUnary (f : EType → Nat → Nat × Flags) (x : VUn) : M Ctl := do
  let w := tBits x.t
  checkVec x.t [x.d, x.a]
  vecLoop x.m fun i h => elemResult x.d w i (h.elemPoisoned x.a w i) (f x.t (h.elem x.a w i)) h
  pure .next

/-- Clamp an exact result to the range of a type (R124). -/
def clampTo (t : EType) (v : Int) : Nat :=
  ofSigned (tBits t) (if v < intMin t then intMin t else if v > intMax t then intMax t else v)

def absW (w a : Nat) : Nat := ofSigned w ((toSigned w a).natAbs : Int)

def opVadd (x : VOp) : M Ctl := vInt (fun w a b => (a + b) % 2 ^ w) x
def opVsub (x : VOp) : M Ctl := vInt subW x
def opVmul (x : VOp) : M Ctl := vInt (fun w a b => a * b % 2 ^ w) x
def opVmulh (x : VOp) : M Ctl := vInt mulhS x
def opVmulhu (x : VOp) : M Ctl := vInt mulhU x
def opVmacc (x : VOp) : M Ctl := vInt3 (fun w a b d => (d + a * b) % 2 ^ w) true x
def opVdiv (x : VOp) : M Ctl := vInt (fun w a b => if tSigned x.t then divS w a b else divU w a b) x
def opVrem (x : VOp) : M Ctl := vInt (fun w a b => if tSigned x.t then remS w a b else remU b a) x
def opVand (x : VOp) : M Ctl := vInt (fun _ a b => a &&& b) x
def opVor (x : VOp) : M Ctl := vInt (fun _ a b => a ||| b) x
def opVxor (x : VOp) : M Ctl := vInt (fun _ a b => a ^^^ b) x
def opVshl (x : VOp) : M Ctl := vInt shlW x
def opVshr (x : VOp) : M Ctl := vInt shrW x
def opVsar (x : VOp) : M Ctl := vInt sarW x
def opVmin (x : VOp) : M Ctl := vInt minS x
def opVmax (x : VOp) : M Ctl := vInt maxS x
def opVminu (x : VOp) : M Ctl := vInt (fun _ a b => min a b) x
def opVmaxu (x : VOp) : M Ctl := vInt (fun _ a b => max a b) x
def opVadds (x : VOp) : M Ctl := vInt (fun _ a b => clampTo x.t (intVal x.t a + intVal x.t b)) x
def opVsubs (x : VOp) : M Ctl := vInt (fun _ a b => clampTo x.t (intVal x.t a - intVal x.t b)) x
def opVabs (x : VUn) : M Ctl := vUnary (fun t a => (absW (tBits t) a, 0)) x

/-- A compare writes the mask bits of active elements (R119, R120); `f` gives the bit and its flags. -/
def vCompare (t : EType) (d : MName) (a : VName) (b : VArg) (m : MName) (f : Nat → Nat → Bool × Flags) : M Unit := do
  let w := tBits t
  let c ← getConvoy
  stallBound d
  checkPredDest m d
  let h ← getHart
  let is := activeRange h c.ewBytes m
  modHart (Hart.expandMask c.ewBytes d)
  runElems is fun i h =>
    if h.elemPoisoned a w i || b.poisoned h w i then none
    else
      let r := f (h.elem a w i) (b.get h w i)
      some ((h.setMaskBit d i r.1).addFlags r.2)

def opVcmp (x : VCmp) : M Ctl := do
  checkVec x.t (x.a :: vsrcGroup x.b)
  let b ← resolveB x.t x.b
  vCompare x.t x.d x.a b x.m fun p q => (condHolds x.cc (tBits x.t) p q, 0)
  pure .next

/-- `vsel` writes every element from `vstart`; its mask selects (R119). -/
def opVsel (x : VOp) : M Ctl := do
  let w := tBits x.t
  checkVec x.t (x.d :: x.a :: vsrcGroup x.b)
  let b ← resolveB x.t x.b
  checkPred x.m
  let c ← getConvoy
  let h0 ← getHart
  let act (i : Nat) := (h0.mask c.ewBytes x.m).active c.ewBytes i
  runElems (elemRange h0) fun i h =>
    elemResult x.d w i (if act i then h.elemPoisoned x.a w i else b.poisoned h w i)
      (if act i then h.elem x.a w i else b.get h w i, 0) h
  pure .next

def opVclz (x : VUn) : M Ctl := vUnary (fun t a => (clzW (tBits t) a, 0)) x
def opVpopc (x : VUn) : M Ctl := vUnary (fun t a => (popW (tBits t) a, 0)) x

/-! ### Meanings: one per instruction -/

/-- VADD. -/
def execVadd (x : VOp) (s : State) : Host.Outcome State Fault Refusal := runUnit (opVadd x) s

/-- VSUB. -/
def execVsub (x : VOp) (s : State) : Host.Outcome State Fault Refusal := runUnit (opVsub x) s

/-- VMUL. -/
def execVmul (x : VOp) (s : State) : Host.Outcome State Fault Refusal := runUnit (opVmul x) s

/-- VMULH. -/
def execVmulh (x : VOp) (s : State) : Host.Outcome State Fault Refusal := runUnit (opVmulh x) s

/-- VMULHU. -/
def execVmulhu (x : VOp) (s : State) : Host.Outcome State Fault Refusal := runUnit (opVmulhu x) s

/-- VMACC. -/
def execVmacc (x : VOp) (s : State) : Host.Outcome State Fault Refusal := runUnit (opVmacc x) s

/-- VDIV. -/
def execVdiv (x : VOp) (s : State) : Host.Outcome State Fault Refusal := runUnit (opVdiv x) s

/-- VREM. -/
def execVrem (x : VOp) (s : State) : Host.Outcome State Fault Refusal := runUnit (opVrem x) s

/-- VAND. -/
def execVand (x : VOp) (s : State) : Host.Outcome State Fault Refusal := runUnit (opVand x) s

/-- VOR. -/
def execVor (x : VOp) (s : State) : Host.Outcome State Fault Refusal := runUnit (opVor x) s

/-- VXOR. -/
def execVxor (x : VOp) (s : State) : Host.Outcome State Fault Refusal := runUnit (opVxor x) s

/-- VSHL. -/
def execVshl (x : VOp) (s : State) : Host.Outcome State Fault Refusal := runUnit (opVshl x) s

/-- VSHR. -/
def execVshr (x : VOp) (s : State) : Host.Outcome State Fault Refusal := runUnit (opVshr x) s

/-- VSAR. -/
def execVsar (x : VOp) (s : State) : Host.Outcome State Fault Refusal := runUnit (opVsar x) s

/-- VMIN. -/
def execVmin (x : VOp) (s : State) : Host.Outcome State Fault Refusal := runUnit (opVmin x) s

/-- VMAX. -/
def execVmax (x : VOp) (s : State) : Host.Outcome State Fault Refusal := runUnit (opVmax x) s

/-- VMINU. -/
def execVminu (x : VOp) (s : State) : Host.Outcome State Fault Refusal := runUnit (opVminu x) s

/-- VMAXU. -/
def execVmaxu (x : VOp) (s : State) : Host.Outcome State Fault Refusal := runUnit (opVmaxu x) s

/-- VADDS. -/
def execVadds (x : VOp) (s : State) : Host.Outcome State Fault Refusal := runUnit (opVadds x) s

/-- VSUBS. -/
def execVsubs (x : VOp) (s : State) : Host.Outcome State Fault Refusal := runUnit (opVsubs x) s

/-- VABS. -/
def execVabs (x : VUn) (s : State) : Host.Outcome State Fault Refusal := runUnit (opVabs x) s

/-- VCMP. -/
def execVcmp (x : VCmp) (s : State) : Host.Outcome State Fault Refusal := runUnit (opVcmp x) s

/-- VSEL. -/
def execVsel (x : VOp) (s : State) : Host.Outcome State Fault Refusal := runUnit (opVsel x) s

/-- VCLZ. -/
def execVclz (x : VUn) (s : State) : Host.Outcome State Fault Refusal := runUnit (opVclz x) s

/-- VPOPC. -/
def execVpopc (x : VUn) (s : State) : Host.Outcome State Fault Refusal := runUnit (opVpopc x) s

end Sys2Proof.Machine
end

