-- ==== Sys2Proof/Machine/VecConv.lean ====
section
/-! DEFINITION. Class 0x13, the conversions (R118, R127 to R132). Elements are performed one at a time, each reading its
source just before its destination is written, so overlapping groups of equal size behave as R118 says. -/

namespace Sys2Proof.Machine

/-- Registers of a side whose elements have `bits` bits (R118). -/
def sideRegs (c : Convoy) (bits : Nat) : Nat := max 1 (c.grpRegs * bits / (8 * c.ewBytes))

/-- The group limits of R118. -/
def sidesOk (c : Convoy) (d a : VName) (db ab : Nat) : Bool :=
  let gd := sideRegs c db
  let ga := sideRegs c ab
  decide (c.grpRegs * db ≤ 64 * c.ewBytes) && decide (c.grpRegs * ab ≤ 64 * c.ewBytes) && aligned d gd && aligned a ga
    && (gd == ga || decide (d.val + gd ≤ a.val) || decide (a.val + ga ≤ d.val))

/-- A destination group that contains `v30` or `v31` (R12). -/
def touchesScales (d : VName) (n : Nat) : Bool := decide (30 < d.val + n)

/-- The scale byte of element `i`'s block in `vsa` (R129). -/
def scaleByte (h : Hart) (i : Nat) : Nat := h.elem 30 8 (i / 32)

/-- Multiply by 2^k. -/
def FVal.scale (k : Int) : FVal → FVal
  | .fin n m e => .fin n m (e + k)
  | v => v

/-- The conversion loop. A `sat=` mask is written as R127 and R120 say even where the destination's type is not narrow:
its active bits are cleared, and a compact mask is expanded (log 66: R131 says only that no bit is set). `f` takes the
hart, the element number and the source encoding, and gives the result, its flags and whether it saturated; `scaled`
ones read `vsa`. -/
def vConvert (scaled : Bool) (f : Hart → Nat → Nat → Nat × Flags × Bool) (x : VConv) : M Ctl := do
  let c ← getConvoy
  let db := tBits x.w
  let ab := tBits x.src
  require (sidesOk c x.d x.a db ab && !(scaled && touchesScales x.d (sideRegs c db)))
  stallBound x.satm
  checkPredDest x.m x.satm
  let is := activeRange (← getHart) c.ewBytes x.m
  modHart (Hart.expandMask c.ewBytes x.satm)
  runElems is fun i h =>
    if h.elemPoisoned x.a ab i || (scaled && h.elemPoisoned 30 8 (i / 32)) then none
    else
      let a := h.elem x.a ab i
      let r := f h i a
      let h' := ((h.setElem x.d db i r.1).addFlags r.2.1).setMaskBit x.satm i r.2.2
      some (if x.amx then h'.amax x.src a else h')
  pure .next

/-- R128. -/
def opVcvt (x : VConv) : M Ctl := vConvert false (fun h _ a => convert x.w x.src h.mode_ a) x

/-- R130. -/
def opVpk4 (x : VConv) : M Ctl :=
  vConvert true (fun h i a =>
    let sb := scaleByte h i
    let e := field sb 0 6
    if e = 63 then (0, fNV, false)
    else toQ4 (field sb 6 2) ((fDecode x.src a).scale (32 - (e : Int)))) x

/-- R131. -/
def opVupk4 (x : VConv) : M Ctl :=
  vConvert true (fun h i a =>
    let sb := scaleByte h i
    let r := fEncode x.w h.mode_ (q4Val sb a)
    (r.1, if field sb 0 6 = 63 then fNV else r.2, false)) x

/-- R132. -/
def opVscl (x : VConv) : M Ctl :=
  vConvert true (fun h i a =>
    let sb := scaleByte h i
    let e := field sb 0 6
    if field sb 6 2 ≠ 0 ∨ e = 63 then (canonNaN x.w, fNV, false)
    else
      let v := (valOf x.src a).scale ((e : Int) - 32)
      match x.w with
      | .e4m3 | .e5m2 => toNarrowF x.w h.mode_ v
      | _ =>
        let r := fEncode x.w h.mode_ v
        (r.1, r.2, false)) x

/-! ### Meanings: one per instruction -/

/-- VCVT. -/
def execVcvt (x : VConv) (s : State) : Host.Outcome State Fault Refusal := runUnit (opVcvt x) s

/-- VPK4. -/
def execVpk4 (x : VConv) (s : State) : Host.Outcome State Fault Refusal := runUnit (opVpk4 x) s

/-- VUPK4. -/
def execVupk4 (x : VConv) (s : State) : Host.Outcome State Fault Refusal := runUnit (opVupk4 x) s

/-- VSCL. -/
def execVscl (x : VConv) (s : State) : Host.Outcome State Fault Refusal := runUnit (opVscl x) s

end Sys2Proof.Machine
end

