-- ==== Sys2Proof/Machine/VecMem.lean ====
section
/-! DEFINITION. Class 0x18, the vector memory instructions but for the tile forms (R178 to R183). -/

namespace Sys2Proof.Machine

/-- Perform the elements after the first ones in order with their accesses. A trap leaves `vstart` at its element, and so
does a wait: the elements before it are done, and the instruction goes on from there (R156, R180). -/
def memRest (f : Nat → M Unit) : List Nat → M Unit
  | [] => modHart (Hart.setVstart 0)
  | i :: t => fun s =>
    match f i s with
    | .ok _ s' => memRest f t s'
    | .error (.trap tr) s' => .error (.trap tr) (s'.setHart (s'.hart.setVstart i))
    | .error _ s' =>
      if flushed s.hart s'.hart then .error (.hold none) s'
      else
        let u := holdUnit none s s'
        .error (.keep none) (u.setHart (u.hart.setVstart i))

/-- Perform elements in order with their accesses: a wait of the first leaves the unit as it was. -/
def memLoop (f : Nat → M Unit) : List Nat → M Unit
  | [] => modHart (Hart.setVstart 0)
  | i :: t => fun s =>
    match f i s with
    | .ok _ s' => memRest f t s'
    | .error (.trap tr) s' => .error (.trap tr) (s'.setHart (s'.hart.setVstart i))
    | .error e s' => .error e s'

/-- The fields of one element, as `(register group, address)`, are located before any is accessed. -/
def locateAll (fam : Fam) (acc : Acc) (eb i : Nat) : List (VName × Word) → M (List (VName × Word × Place))
  | [] => pure []
  | (r, va) :: t => do
    let p ← locate fam acc va eb (some i) none
    return (r, va, p) :: (← locateAll fam acc eb i t)

/-- The log entries of an element's fields (R329, R330), one for each field, with the element's number: R329 does not say
how many a segment element of several fields adds (DESIGN CHOICE, log 86). None is written unless all fit. -/
def logFields (kind i : Nat) (ps : List (VName × Word × Place)) : M Unit :=
  fun s =>
    let es := ps.filterMap fun p => match p.2.2 with
      | .local_ l => if l.log then some (kind, i, p.2.1) else none
      | .remote => none
    match logAccesses true es s with
    | .error (.trap t) s' => .error (.trap { t with elem := some i }) s'
    | r => r

/-- Load element `i`: its fields are read, then written to their groups (R180). -/
def loadElem (fam : Fam) (t : EType) (i : Nat) (fs : List (VName × Word)) : M Unit := do
  let ps ← locateAll fam .load (tBytes t) i fs
  ps.forM fun p => prepLoad p.2.2 p.2.1 (some i) none
  logFields 1 i ps
  let vs ← ps.mapM fun p => do return (p.1, ← takeLoad p.2.2 p.2.1 (tBytes t) t (some i) none)
  modHart fun h => vs.foldl (fun g v => g.setElem v.1 (tBits t) i v.2) h

/-- Store element `i` (R181). -/
def storeElem (fam : Fam) (t : EType) (unord : Bool) (i : Nat) (fs : List (VName × Word)) : M Unit := do
  let h ← getHart
  if fs.any fun f => h.elemPoisoned f.1 (tBits t) i then raiseElem 0x14 i
  let ps ← locateAll fam .store (tBytes t) i fs
  ps.forM fun p => prepStore p.2.2 p.2.1 (some i) none
  logFields 2 i ps
  ps.forM fun p => putStore p.2.2 p.2.1 (tBytes t) (h.elem p.1 (tBits t) i) t unord (some i)

/-- Elements performed under the predicate (R119). -/
def memElems (m : MName) : M (List Nat) := do
  checkPred m
  let c ← getConvoy
  return activeRange (← getHart) c.ewBytes m

/-- Unit stride (R179). -/
def unitEa (base : Word) (eb i : Nat) : Word := base + BitVec.ofNat 64 (i * eb)

def opVld (x : VMem) : M Ctl := flushBefore do
  checkVec x.t [x.v]
  let base := (← readS x.a) + simm x.off
  memLoop (fun i => loadElem .unit x.t i [(x.v, unitEa base (tBytes x.t) i)]) (← memElems x.m)
  pure .next

def opVst (x : VMem) : M Ctl := flushBefore do
  checkVec x.t [x.v]
  let base := (← readS x.a) + simm x.off
  memLoop (fun i => storeElem .unit x.t x.unord i [(x.v, unitEa base (tBytes x.t) i)]) (← memElems x.m)
  pure .next

/-- Strided (R179). -/
def stridedEa (base stride : Word) (i : Nat) : Word := base + BitVec.ofNat 64 i * stride

def opVlds (x : VMemS) : M Ctl := flushBefore do
  checkVec x.t [x.v]
  let base := (← readS x.a) + simm x.off
  let b ← readS x.b
  memLoop (fun i => loadElem .unit x.t i [(x.v, stridedEa base b i)]) (← memElems x.m)
  pure .next

def opVsts (x : VMemS) : M Ctl := flushBefore do
  checkVec x.t [x.v]
  let base := (← readS x.a) + simm x.off
  let b ← readS x.b
  memLoop (fun i => storeElem .unit x.t x.unord i [(x.v, stridedEa base b i)]) (← memElems x.m)
  pure .next

/-- The NF fields of segment element `i`: group and address (R179). -/
def segFields (v : VName) (grp nf eb : Nat) (base : Word) (i : Nat) : List (VName × Word) :=
  (List.range nf).map fun f => (groupReg v (f * grp), base + BitVec.ofNat 64 ((i * nf + f) * eb))

/-- NF groups fit in the register file (R178). -/
def segFits (v : VName) (grp nf : Nat) : Bool := decide (v.val + nf * grp ≤ 32)

def opVldg (x : VMemG) : M Ctl := flushBefore do
  checkVec x.t [x.v]
  let c ← getConvoy
  let nf := x.nf1.toNat + 1
  require (segFits x.v c.grpRegs nf)
  let base := (← readS x.a) + simm x.off
  memLoop (fun i => loadElem .seg x.t i (segFields x.v c.grpRegs nf (tBytes x.t) base i)) (← memElems x.m)
  pure .next

def opVstg (x : VMemG) : M Ctl := flushBefore do
  checkVec x.t [x.v]
  let c ← getConvoy
  let nf := x.nf1.toNat + 1
  require (segFits x.v c.grpRegs nf)
  let base := (← readS x.a) + simm x.off
  memLoop (fun i => storeElem .seg x.t x.unord i (segFields x.v c.grpRegs nf (tBytes x.t) base i)) (← memElems x.m)
  pure .next

/-! ### Indexed forms (R178, R182, R183) -/

def ixBits : IxWidth → Nat
  | .b8 => 8
  | .b16 => 16
  | .b32 => 32
  | .b64 => 64

/-- The index group's size and alignment (R118), and for a load its distance from the destination (R178). -/
def checkIndex (x : VMemX) (load : Bool) : M Unit := do
  checkVec x.t [x.v]
  let c ← getConvoy
  let g := sideRegs c (ixBits x.ix)
  require (decide (c.grpRegs * ixBits x.ix ≤ 64 * c.ewBytes) && aligned x.b g)
  if load then require (decide (x.v.val + c.grpRegs ≤ x.b.val) || decide (x.b.val + g ≤ x.v.val))

/-- Address of element `i` of an indexed access (R179). -/
def indexEa (x : VMemX) (base : Word) (h : Hart) (i : Nat) : Word :=
  base + BitVec.ofNat 64 (h.elem x.b (ixBits x.ix) i * if x.scl then tBytes x.t else 1)

/-- A poisoned index stops its element (R160). -/
def checkIx (x : VMemX) (i : Nat) : M Unit := do
  if (← getHart).elemPoisoned x.b (ixBits x.ix) i then raiseElem 0x14 i

def opVldx (x : VMemX) : M Ctl := flushBefore do
  checkIndex x true
  let base := (← readS x.a) + simm x.off
  memLoop (fun i => do
    checkIx x i
    loadElem .seg x.t i [(x.v, indexEa x base (← getHart) i)]) (← memElems x.m)
  pure .next

def opVstx (x : VMemX) : M Ctl := flushBefore do
  checkIndex x false
  let base := (← readS x.a) + simm x.off
  memLoop (fun i => do
    checkIx x i
    storeElem .seg x.t x.unord i [(x.v, indexEa x base (← getHart) i)]) (← memElems x.m)
  pure .next

/-- The groups of R183 in order of their lowest members: address and members, ascending. -/
def scatterGroups (ea : Nat → Word) : List Nat → List (Word × List Nat)
  | [] => []
  | i :: t =>
    let rest := scatterGroups ea t
    match aget rest (ea i) with
    | some ms => (ea i, i :: ms) :: rest.filter fun g => g.1 != ea i
    | none => (ea i, [i]) :: rest

/-- The lowest element whose address fails, with its trap, and the places of those below it (R183). -/
def scatterScan (x : VMemX) (base : Word) : List Nat → M (List (Nat × Loc) × Option (Nat × Trap))
  | [] => pure ([], none)
  | i :: t => fun s =>
    let one : M Loc := do
      checkIx x i
      let va := indexEa x base (← getHart) i
      match ← locate .seg .store va (tBytes x.t) (some i) none with
      | .local_ l => pure l
      | .remote => throw (.trap { cause := 0x09, addr := some va, elem := some i })
    match one s with
    | .ok l s' =>
      (match scatterScan x base t s' with
      | .ok (ls, f) s'' => .ok ((i, l) :: ls, f) s''
      | .error e s'' => .error e s'')
    | .error (.trap tr) s' => .ok ([], some (i, tr)) s'
    | .error e s' => .error e s'

/-- One group: the merged value is added at its word as one update (R55, R183). -/
def scatterGroup (x : VMemX) (va : Word) (low : Nat) (ms : List Nat) (l : Loc) : M Unit := do
  let w := tBits x.t
  let h ← getHart
  if ms.any fun i => h.elemPoisoned x.v w i then raiseElem 0x14 low
  let merged := match ms.map fun i => h.elem x.v w i with
    | [] => 0
    | v :: vs => vs.foldl (addIn x.t) v
  if h.det && tFloat x.t then do
    deferRoom 1
    logOne l 3 va (some low)
    deferLocal l va x.t merged 3 low
  else do
    flushGranule l.key
    awaitOwn l
    awaitLogged l
    checkData va l.key (some low) none
    logOne l 3 va (some low)
    meter l.key (tBytes x.t)
    modify fun s => pokeN l.key (tBytes x.t) (addIn x.t (memReadN s.mem l.key (tBytes x.t)) merged) s

/-- The log entry of an active element whose group has been performed at a lower element (R329: every active element
counts as one access; log 67). -/
def scatterLog (x : VMemX) (va : Word) (i : Nat) : M Unit := fun s =>
  match locate .seg .store va (tBytes x.t) (some i) none s with
  | .ok (.local_ l) s' => logOne l 3 va (some i) s'
  | .ok .remote _ => .ok () s
  | .error _ _ => .ok () s

/-- R183. -/
def opVstxa (x : VMemX) : M Ctl := flushBefore do
  checkIndex x false
  let base := (← readS x.a) + simm x.off
  let act ← memElems x.m
  let c ← getConvoy
  let h ← getHart
  let ixw := ixBits x.ix
  let ea (i : Nat) := indexEa x base h i
  -- members of groups folded before a restart are skipped
  let before := (List.range h.csr.vstart.toNat).filter fun j =>
    (h.mask c.ewBytes x.m).active c.ewBytes j && !h.elemPoisoned x.b ixw j
  let todo := act.filter fun i => h.elemPoisoned x.b ixw i || !before.any fun j => ea j == ea i
  let (ls, bad) ← scatterScan x base todo
  let groups := scatterGroups ea (todo.filter fun i => !h.elemPoisoned x.b ixw i)
  let find (low : Nat) : Option (Word × List Nat) := groups.find? fun g => g.2.head? == some low
  memLoop (fun i =>
    match find i with
    | some (va, ms) => scatterGroup x va i ms ((mget ls i).getD ⟨0, false, false, false⟩)
    | none => scatterLog x (ea i) i) (act.filter fun i => match bad with
      | some (e, _) => decide (i < e)
      | none => true)
  match bad with
  | some (e, t) => do
    modHart (Hart.setVstart e)
    throw (.trap t)
  | none => pure .next

/-! ### Meanings: one per instruction -/

/-- VLD. -/
def execVld (x : VMem) (s : State) : Host.Outcome State Fault Refusal := runUnit (opVld x) s

/-- VST. -/
def execVst (x : VMem) (s : State) : Host.Outcome State Fault Refusal := runUnit (opVst x) s

/-- VLDS. -/
def execVlds (x : VMemS) (s : State) : Host.Outcome State Fault Refusal := runUnit (opVlds x) s

/-- VSTS. -/
def execVsts (x : VMemS) (s : State) : Host.Outcome State Fault Refusal := runUnit (opVsts x) s

/-- VLDG. -/
def execVldg (x : VMemG) (s : State) : Host.Outcome State Fault Refusal := runUnit (opVldg x) s

/-- VSTG. -/
def execVstg (x : VMemG) (s : State) : Host.Outcome State Fault Refusal := runUnit (opVstg x) s

/-- VLDX. -/
def execVldx (x : VMemX) (s : State) : Host.Outcome State Fault Refusal := runUnit (opVldx x) s

/-- VSTX. -/
def execVstx (x : VMemX) (s : State) : Host.Outcome State Fault Refusal := runUnit (opVstx x) s

/-- VSTXA. -/
def execVstxa (x : VMemX) (s : State) : Host.Outcome State Fault Refusal := runUnit (opVstxa x) s

end Sys2Proof.Machine
end

