-- ==== Sys2Proof/Machine/Tile.lean ====
section
/-! DEFINITION. The tile store: class 0x21 and `vldt`, `vstt` (R203 to R213), and how a transfer is accepted by the copy
engine (R16, R219). A tile access reads the slot's state when it issues. -/

namespace Sys2Proof.Machine

/-! ### Slots -/

def Core.tile (c : Core) (n : Nat) : Tile := (mget c.tiles n).getD Tile.reset
def Core.setTile (c : Core) (n : Nat) (t : Tile) : Core := { c with tiles := mset c.tiles n t }

/-- The slot of a tile address (R203). -/
def tileNum (va : Word) : Option Nat :=
  if va >>> 21 == (3#64 <<< 41) then some (field va.toNat 13 8) else none

/-- Key of a tile address of a core. -/
def tileKeyOf (core : Nat) (va : Word) : Nat := tileKey core (va.toNat % 2 ^ 21)

/-- A slot given by number: R205's check. `foreign` lets a slot of another convoy pass. -/
def slotCheck (v : Word) (foreign : Bool) : M Tile := do
  let s ← get
  if v.toNat > 255 then raise 0x0B
  let t := s.core.tile v.toNat
  if t.hidden || (!foreign && t.owner.isSome && t.owner != some s.hart.convoy) then raise 0x0B
  pure t

def Tile.busy (t : Tile) : Bool := t.state == .filling || t.state == .draining

/-- Empty a slot: 8 KiB of zeros, no tag, no owner (R205, R211). -/
def freeSlot (core n : Nat) (s : State) : State :=
  let c := s.coreOf core
  { s.setCoreOf core
      { c with
        tiles := merase c.tiles n
        tilePoison := c.tilePoison.filter fun w => w / 2048 != n } with
    mem := memClear s.mem (tileKey core (n * 8192)) 8192 }

def TileState.code : TileState → Nat
  | .empty => 0
  | .filling => 1
  | .ready => 2
  | .draining => 3

/-- The word of R204 as a convoy reads it. -/
def Tile.word (t : Tile) (convoy : Nat) : Word :=
  match t.owner with
  | none => 0
  | some o =>
    if o = convoy then
      BitVec.ofNat 64 (t.tag.toNat * 2 ^ 16 + b2n t.susp * 16 + 4 + t.state.code)
    else 8

/-! ### Tile instructions (R208, R211) -/

def tagOf (v : Word) : BitVec 48 := v.truncate 48

def opTlook (x : S2) : M Ctl := do
  let tag := tagOf (← readS x.a)
  let s ← get
  writeS x.d (match (List.range 256).find? fun n =>
      let t := s.core.tile n
      !t.hidden && t.owner == some s.hart.convoy && t.tag == tag with
    | some n => BitVec.ofNat 64 n
    | none => BitVec.allOnes 64)
  pure .next

/-- Claim a slot if unowned, and set its tag. -/
def tagSlot (n : Nat) (tag : BitVec 48) : M Unit := modify fun s =>
  s.setCore (s.core.setTile n { s.core.tile n with owner := some s.hart.convoy, tag := tag })

def opTtag (x : S3) : M Ctl := do
  let v ← readS x.a
  let tag := tagOf (← readS x.b)
  let s ← get
  if v = BitVec.allOnes 64 then
    match (List.range 256).find? fun n =>
      let t := s.core.tile n
      !t.hidden && t.owner.isNone && t.state == .empty with
    | none => do
      writeS x.d (BitVec.allOnes 64)
      pure .next
    | some n => do
      tagSlot n tag
      writeS x.d (BitVec.ofNat 64 n)
      pure .next
  else do
    let t ← slotCheck v false
    if t.busy then waitUnit
    tagSlot v.toNat tag
    writeS x.d v
    pure .next

def opTstat (x : S2) : M Ctl := do
  let t ← slotCheck (← readS x.a) true
  writeS x.d (t.word (← getHart).convoy)
  pure .next

def opTwait (x : S2) : M Ctl := do
  let t ← slotCheck (← readS x.a) true
  let h ← getHart
  if t.owner == some h.convoy && t.busy then waitUnit
  writeS x.d (t.word h.convoy)
  pure .next

def opTrel (a : SReg) : M Ctl := do
  let v ← readS a
  let t ← slotCheck v false
  if t.owner.isNone then raise 0x0B
  if t.busy then waitUnit
  modify fun s => freeSlot s.coreId v.toNat s
  pure .next

/-! ### Accepting a transfer -/

/-- Capacity of a core's engine queue (R219) and of its posting queue (R238). -/
def engineQueue : Nat := 32
def postQueue : Nat := 128

/-- A free place in the engine queue, and no earlier binding of the mask (R16, R219). -/
def engineRoom (m : MName) : M Unit := do
  stallBound m
  if (← getCore).transfers.length ≥ engineQueue then waitUnit

/-- What the current hart's command gives to a transfer; its number is unique in the package. -/
def hartTransfer (s : State) (kind : TransferKind) (k : KName) (m : MName) : Transfer :=
  { id := s.coreId * 2 ^ 32 + s.core.nextTransfer, kind, convoy := s.hart.convoy, hidx := s.hart.hidx, ctx := s.ctxId, view := s.hart.mode
    cls := s.convoy.cls, k, mask := if m = 0 then none else some m, dst := 0, src := 0, total := 0, row := 0
    dpitch := 0, spitch := 0, slot := 0, chunk := 512, done := [], written := 0, cl := none, susp := false
    fault := none, acks := [], failed := none
    gang := s.hart.join.gang.map fun g => (g.1, g.2.1) }

/-- The command leaves the hart: the mask is bound with all bits 0 (R16), and the engine holds the transfer. -/
def startTransfer (t : Transfer) : M Unit := do
  match t.mask with
  | some m => do
    writeMaskAll m 0
    modHart fun h => { h with m := h.m.set m { h.m[m] with bound := some t.id } }
  | none => pure ()
  modCore fun c => { c with transfers := c.transfers ++ [t], nextTransfer := c.nextTransfer + 1 }

/-- Checks of `tfill` and `tdrain` before the state of the slot: the slot (R205), the length and the address (R209). -/
def tileMoveCheck (slot len va : Word) : M Tile := do
  let t ← slotCheck slot false
  if len.toNat = 0 ∨ len.toNat > 8192 then illegal
  if (tileNum va).isSome then raiseAt 0x09 va
  pure t

def setTileState (n : Nat) (st : TileState) : M Unit :=
  modCore fun c => c.setTile n { c.tile n with state := st }

def opTfill (x : TFill) : M Ctl := do
  let slot ← readS x.a
  let src ← readS x.b
  let len ← readS x.c
  let t ← tileMoveCheck slot len src
  if t.owner.isNone then raise 0x0B
  if t.busy then waitUnit
  engineRoom x.m
  releasePackage
  let s ← get
  startTransfer { hartTransfer s .tfill x.k x.m with
    dst := (3#64 <<< 62) + slot * 8192, src := src, total := len.toNat, row := len.toNat, slot := slot.toNat }
  setTileState slot.toNat .filling
  pure .next

def opTdrain (x : TDrain) : M Ctl := do
  let slot ← readS x.a
  let dst ← readS x.b
  let len ← readS x.c
  let t ← tileMoveCheck slot len dst
  if t.owner.isNone || t.state == .empty then raise 0x0B
  if t.busy then waitUnit
  engineRoom 0
  releasePackage
  let s ← get
  startTransfer { hartTransfer s .tdrain x.k 0 with
    dst := dst, src := (3#64 <<< 62) + slot * 8192, total := len.toNat, row := len.toNat, slot := slot.toNat }
  setTileState slot.toNat .draining
  pure .next

/-! ### Accesses to tile addresses (R206, R210, R212) -/

/-- The slot of an access, of an element or as a whole: owned by the convoy and not empty (R205, R206); it waits while the
slot is filling or draining, unless it reads the fill by chunk (R217). -/
def slotReady (n : Nat) (byChunk : Bool) (elem : Option Nat) : M Unit := do
  let s ← get
  let t := s.core.tile n
  if t.hidden || t.owner != some s.hart.convoy || t.state == .empty then throw (.trap { cause := 0x0B, elem })
  if t.state == .ready || (t.state == .filling && byChunk) then pure () else waitUnit

/-- A poisoned word of the tile store (R160, R313). -/
def tileBad (c : Core) (off n : Nat) : Bool :=
  c.tilePoison.any fun w => decide (off / 4 ≤ w) && decide (w ≤ (off + n - 1) / 4)

def tileLoad (va : Word) (n e : Nat) : M Nat := do
  let s ← get
  if tileBad s.core (va.toNat % 2 ^ 21) n then throw (.trap { cause := 0x14, addr := some va, elem := some e })
  return memReadN s.mem (tileKeyOf s.coreId va) n

/-- Write bytes of a core's tile store; whole words lose their poison. -/
def tilePoke (core off : Nat) (bs : List Byte) (s : State) : State :=
  let c := s.coreOf core
  { s.setCoreOf core { c with tilePoison := c.tilePoison.filter fun w =>
      !(decide (off ≤ 4 * w) && decide (4 * w + 4 ≤ off + bs.length)) } with
    mem := memWriteBytes s.mem (tileKey core off) bs }

def tileStore (va : Word) (n v : Nat) : M Unit :=
  modify fun s => tilePoke s.coreId (va.toNat % 2 ^ 21) (toBytes n v) s

/-- Checks of one element of `vldt` or `vstt`: aligned, and in the slot of ea(0) (R212). -/
def tileElem (slot : Option Nat) (va : Word) (n e : Nat) : M Unit := do
  if va.toNat % n ≠ 0 then throw (.trap { cause := 0x05, addr := some va, elem := some e })
  if slot.isNone || tileNum va != slot then throw (.trap { cause := 0x09, addr := some va, elem := some e })

/-- Is the mask bound to a `tfill` of the slot (R217)? -/
def boundFill (s : State) (m : MName) (n : Nat) : Bool :=
  match s.hart.m[m].bound with
  | some id => m != 0 && s.core.transfers.any fun t => t.id == id && t.kind == .tfill && t.slot == n
  | none => false

/-- The elements of a chunk-predicated `vldt` (R217): the chunk bits of the mask choose among those from `vstart` to
`vl` - 1. -/
def chunkElems (m : MName) (ea : Nat → Word) : M (List Nat) := do
  let h ← getHart
  let chunk (i : Nat) := (ea i).toNat % 8192 / 512
  match (elemRange h).find? fun i => h.poison.any fun x => x == .maskBits m (chunk i / 32) with
  | some e => raiseElem 0x14 e
  | none => return (elemRange h).filter fun i => h.m[m].bits.getLsbD (chunk i)

/-- Checks of the slot of ea(0), also where no element is active (R212 does not say whether such an access names a slot:
log 68), and whether a mask is read by chunk. -/
def tileIssue (m : MName) (base : Word) : M Bool := do
  match tileNum base with
  | none => pure false
  | some n => do
    let byChunk := boundFill (← get) m n
    slotReady n byChunk none
    pure byChunk

def opVldt (x : VMem) : M Ctl := do
  checkVec x.t [x.v]
  let base := (← readS x.a) + simm x.off
  let eb := tBytes x.t
  let ea := unitEa base eb
  let byChunk ← tileIssue x.m base
  let is ← if byChunk then chunkElems x.m ea else memElems x.m
  memLoop (fun i => do
    tileElem (tileNum base) (ea i) eb i
    let v ← tileLoad (ea i) eb i
    modHart fun h => h.setElem x.v (tBits x.t) i v) is
  pure .next

def opVstt (x : VMem) : M Ctl := do
  checkVec x.t [x.v]
  let base := (← readS x.a) + simm x.off
  let eb := tBytes x.t
  let ea := unitEa base eb
  let _ ← tileIssue 0 base
  memLoop (fun i => do
    let h ← getHart
    if h.elemPoisoned x.v (tBits x.t) i then raiseElem 0x14 i
    tileElem (tileNum base) (ea i) eb i
    tileStore (ea i) eb (h.elem x.v (tBits x.t) i)) (← memElems x.m)
  pure .next

/-! ### Meanings: one per instruction -/

/-- TLOOK. -/
def execTlook (x : S2) (s : State) : Host.Outcome State Fault Refusal := runUnit (opTlook x) s

/-- TTAG. -/
def execTtag (x : S3) (s : State) : Host.Outcome State Fault Refusal := runUnit (opTtag x) s

/-- TSTAT. -/
def execTstat (x : S2) (s : State) : Host.Outcome State Fault Refusal := runUnit (opTstat x) s

/-- TWAIT. -/
def execTwait (x : S2) (s : State) : Host.Outcome State Fault Refusal := runUnit (opTwait x) s

/-- TREL. -/
def execTrel (a : SReg) (s : State) : Host.Outcome State Fault Refusal := runUnit (opTrel a) s

/-- TFILL. -/
def execTfill (x : TFill) (s : State) : Host.Outcome State Fault Refusal := runUnit (opTfill x) s

/-- TDRAIN. -/
def execTdrain (x : TDrain) (s : State) : Host.Outcome State Fault Refusal := runUnit (opTdrain x) s

/-- VLDT. -/
def execVldt (x : VMem) (s : State) : Host.Outcome State Fault Refusal := runUnit (opVldt x) s

/-- VSTT. -/
def execVstt (x : VMem) (s : State) : Host.Outcome State Fault Refusal := runUnit (opVstt x) s

end Sys2Proof.Machine
end

