-- ==== Sys2Proof/Machine/Copy.lean ====
section
/-! DEFINITION. Commands to the engines of the core: class 0x22 (R218 to R222), and the posting of closures by `applyq`
(R238). The engines' own steps stand in Engine.lean. -/

namespace Sys2Proof.Machine

/-! ### Posting (R238, R222) -/

/-- Entries of a core's posting queue that are taken or reserved (R238). -/
def postsTaken (s : State) (core : Nat) : Nat :=
  (s.coreOf core).posts.length + ((s.coreOf core).transfers.filter fun t => t.cl.isSome).length
    + (s.regions.map fun p => ((p.2.cmds ++ p.2.busyDone).filter fun c => c.core == core && c.cl.isSome).length).sum

/-- Stall while no entry is free. -/
def postRoom : M Unit := do
  let s ← get
  if postsTaken s s.coreId ≥ postQueue then waitUnit

/-- The core that holds the window of this number. -/
def windowCore (s : State) (win : Nat) : Option Nat :=
  (s.cores.find? fun c => c.2.windows.any fun w => w.2.id == win).map Prod.fst

/-- The queue that a post of a core enters (R227, R238, R240): that of the core which holds the window that its handle
indexes, or the saved queue while that window is out; the core's own where the window is no more. -/
def postCore (s : State) (core : Nat) (p : Post) : Option Nat :=
  match windowCore s p.win with
  | some c => some c
  | none =>
    let c := s.ctxOf p.ctx
    if c.saved && c.savedWin == p.win then none else some core

/-- Append a post to its queue; it takes the next sequence number of the virtual device (R317). -/
def appendPost (core : Nat) (p : Post) (s : State) : State :=
  let c := s.ctxOf p.ctx
  let v := s.vdevOf c.vdev
  let p' := { p with seq := v.seq + 1 }
  let s1 := s.setVdevOf c.vdev { v with seq := v.seq + 1 }
  match postCore s core p with
  | none => writePosts p.ctx (s1.setCtxOf p.ctx { c with posts := c.posts ++ [p'] })
  | some n => s1.setCoreOf n { s1.coreOf n with posts := (s1.coreOf n).posts ++ [p'] }

/-- What the current hart posts. -/
def hartPost (s : State) (h : Word) (k : KName) (status : Word) (engine : Bool) : Post :=
  let c := s.convoy
  { handle := h, win := s.window.2.id, cls := c.cls, k, poster := (s.hart.convoy, s.hart.hidx), status
    view := s.hart.mode, engine, ctx := s.ctxId
    tag := c.tag, det := c.det, logged := c.logged, seq := 0, gang := s.hart.join.gang.map fun g => (g.1, g.2.1) }

/-- Take a reference of a valid handle (R233, R238). -/
def takeRef (h : Word) : M Unit := do
  let (n, w) := (← get).window
  setWindow n (w.take (hFrame h))

/-- A handle that a command names: valid, with a reference to take (R222, R238). -/
def checkRef (h : Word) : M Unit := do
  let x ← validate h
  if x.refc = 65535 then raise 0x10

/-- The status address is 0 or a multiple of 8 (R238, R319). -/
def checkStatus (a : Word) : M Unit := if a.toNat % 8 ≠ 0 then raiseAt 0x05 a else pure ()

def opApplyq (x : ApplyQ) : M Ctl := do
  let h ← readC x.a
  let status ← readS x.c
  checkRef h
  checkStatus status
  postRoom
  awaitPerformed
  takeRef h
  modify fun s => appendPost s.coreId (hartPost s h x.k status false) s
  pure .next

/-! ### `cpy`, `cpy2` (R218, R219) -/

/-- The completion closure of a command: its handle, checked, with a posting entry free (R222). -/
def closureArg (cl : Option CName) : M (Option Word) :=
  match cl with
  | none => pure none
  | some c => do
    let h ← readC c
    checkRef h
    return some h

/-- The reference of a completion closure, taken at commit (R222). -/
def takeClosure (cl : Option Word) : M Unit :=
  match cl with
  | none => pure ()
  | some h => takeRef h

/-- Checks of R219, then the command. -/
def startCopy (kind : TransferKind) (x : Copy) (total row : Nat) (dpitch spitch : Word) : M Ctl := do
  let dst ← readS x.a
  let src ← readS x.b
  let chunk := 512 * 2 ^ x.chk.toNat
  require (decide (total ≤ 2 ^ 40))
  require (x.m == 0 || decide ((total + chunk - 1) / chunk ≤ 16384))
  if (tileNum src).isSome then raiseAt 0x09 src
  if (tileNum dst).isSome then raiseAt 0x09 dst
  let cl ← closureArg x.cl
  engineRoom x.m
  if cl.isSome then postRoom
  releasePackage
  takeClosure cl
  let s ← get
  startTransfer { hartTransfer s kind x.k x.m with
    dst := dst, src := src, total := total, row := row, dpitch := dpitch, spitch := spitch, chunk := chunk
    cl := cl.map fun h => hartPost s h x.k 0 true }
  pure .next

def opCpy (x : Copy) : M Ctl := do
  let n := (← readS x.c).toNat
  startCopy .cpy x n n 0 0

def opCpy2 (x : Copy) : M Ctl := do
  let v ← readS x.c
  let p ← readS (x.c + 1)
  let row := field v.toNat 0 32
  startCopy .cpy2 x (field v.toNat 32 32 * row) row (sext 32 p.toNat) (sext 32 (p.toNat / 2 ^ 32))

/-! ### Completion counters and their error records (R214, R221) -/

def Convoy.addK (k : KName) (n : Word) (c : Convoy) : Convoy := { c with k := c.k.set k (c.k[k] + n) }

/-- Enter a failed operation in a counter's error record (R221). -/
def KErr.add (kind : Nat) (cause : BitVec 8) (bytes : Nat) (addr : Word) (e : KErr) : KErr :=
  let fails := field e.word.toNat 48 16
  if fails = 0 then
    ⟨BitVec.ofNat 64 (2 ^ 48 + cause.toNat * 2 ^ 40 + kind * 2 ^ 32 + min bytes (2 ^ 32 - 1)), addr⟩
  else { e with word := BitVec.ofNat 64 (min (fails + 1) 0xFFFF * 2 ^ 48 + e.word.toNat % 2 ^ 48) }

def Convoy.addErr (k : KName) (kind : Nat) (cause : BitVec 8) (bytes : Nat) (addr : Word) (c : Convoy) : Convoy :=
  { c with kerr := c.kerr.set k (c.kerr[k].add kind cause bytes addr) }

def opCstat (x : CStat) : M Ctl := do
  let c ← getConvoy
  let e := c.kerr[x.k]
  writeS x.d e.word
  writeS x.c e.addr
  if x.clr then modConvoy fun c => { c with kerr := c.kerr.set x.k ⟨0, 0⟩ }
  pure .next

/-! ### Meanings: one per instruction -/

/-- APPLYQ. -/
def execApplyq (x : ApplyQ) (s : State) : Host.Outcome State Fault Refusal := runUnit (opApplyq x) s

/-- CPY. -/
def execCpy (x : Copy) (s : State) : Host.Outcome State Fault Refusal := runUnit (opCpy x) s

/-- CPY2. -/
def execCpy2 (x : Copy) (s : State) : Host.Outcome State Fault Refusal := runUnit (opCpy2 x) s

/-- CSTAT. -/
def execCstat (x : CStat) (s : State) : Host.Outcome State Fault Refusal := runUnit (opCstat x) s

end Sys2Proof.Machine
end

