-- ==== Sys2Proof/Machine/Depot.lean ====
section
/-! DEFINITION. Class 0x24, the depot commands and `dquery` (R334 to R346), as far as the hart acts: a command is accepted
at commit, and performed by steps of the depot interface (DepotEvents.lean). -/

namespace Sys2Proof.Machine

/-- Commands that a region's queue holds (R339). -/
def depotQueue : Nat := 8

def RegionState.code : RegionState → Nat
  | .sealed => 0
  | .open_ => 1
  | .erasing => 2
  | .retired => 3

/-- The word of R335. -/
def Region.word (r : Region) : Word :=
  BitVec.ofNat 64 (r.seq.toNat * 2 ^ 48 + r.done * 2 ^ 33 + r.wear * 2 ^ 20 + r.last.toNat * 32
    + b2n (!r.cmds.isEmpty) * 16 + b2n r.vfail * 8 + r.state.code)

/-- R334: the region is granted to the virtual device of the hart. -/
def checkGrant (r : Nat) : M Unit := do
  let s ← get
  if (s.regionOf r).grant ≠ some s.ctx.vdev then raise 0x09

/-- The region that `dopen`, `dseal` and `dquery` name (R338). -/
def regionArg (v : Word) : M Nat := do
  require (decide (v.toNat < 4096))
  checkGrant v.toNat
  pure v.toNat

/-- A command of the current hart. -/
def hartCommand (s : State) (kind : DepotKind) (k : KName) : DepotCmd :=
  { id := s.nextItem, kind, k, convoy := s.hart.convoy, hidx := s.hart.hidx, ctx := s.ctxId, view := s.hart.mode, cls := s.convoy.cls
    core := s.coreId, unit := 0, units := 0, src := 0, cl := none, begun := false, next := 0, code := none
    aborted := false, fault := none, asked := false, got := [], gang := s.hart.join.gang.map fun g => (g.1, g.2.1) }

/-- Drop the lines of a region from the staging cache. -/
def dropLines (r : Nat) (s : State) : State :=
  { s with staging := { s.staging with lines := s.staging.lines.filter fun l => l.1 / 2 ^ 18 != r } }

/-- Are units of a `stow` programmed already (R343)? -/
def unitsTaken (x : Region) (u n : Nat) : Bool := (List.range' u n).any fun i => x.units.getLsbD i

/-- The command at the head of a region's queue starts (R341 to R344): what it does at once, or the code with which it
ends without changing flash. -/
def beginHead (r : Nat) (s : State) : State :=
  let x := s.regionOf r
  match x.cmds with
  | [] => s
  | d :: rest =>
    let ends (c : BitVec 3) : State := s.setRegionOf r { x with cmds := { d with code := some c } :: rest }
    let starts (y : Region) : State := s.setRegionOf r { y with cmds := { d with begun := true } :: rest }
    if d.begun || d.code.isSome then s
    else
      match d.kind with
      | .dopen =>
        if x.state = .retired then ends 5
        else if x.wear = 5000 then ends 1
        else dropLines r (starts { x with state := .erasing, wear := x.wear + 1 })
      | .stow =>
        if x.state ≠ .open_ ∨ unitsTaken x d.unit d.units then ends 5
        else if d.units = 0 then s.setRegionOf r { x with cmds := { d with begun := true, code := some 0 } :: rest }
        else starts x
      | .dseal =>
        if x.state ≠ .open_ then ends 5
        else if x.vfail then ends 3
        else starts x

/-- Accept a command: it waits in its region's queue, or, beyond 8, completes at once with code 4 (R339). -/
def acceptCommand (r : Nat) (c : DepotCmd) (s : State) : State :=
  let x := s.regionOf r
  if x.cmds.length ≥ depotQueue then s.setRegionOf r { x with busyDone := x.busyDone ++ [{ c with code := some 4 }] }
  else beginHead r (s.setRegionOf r { x with cmds := x.cmds ++ [c] })

/-- The closure check of R338, then acceptance at commit, after the hart's earlier stores and atomics (R284). One that the
unit has given before it was held (`posted`) is not given again. -/
def giveCommand (r : Nat) (c : State → DepotCmd) (cl : Option CName) : M Ctl := do
  if 0 < (← getHart).posted then modHart fun h => { h with posted := h.posted - 1 }
  else do
    let h ← closureArg cl
    if h.isSome then postRoom
    releasePackage
    takeClosure h
    modify fun s => { acceptCommand r { c s with cl := h.map fun h => hartPost s h (c s).k 0 true } s with
      nextItem := s.nextItem + 1 }
  pure .next

def opDopen (x : DCmd) : M Ctl := do
  let r ← regionArg (← readS x.a)
  giveCommand r (fun s => hartCommand s .dopen x.k) x.cl

def opDseal (x : DCmd) : M Ctl := do
  let r ← regionArg (← readS x.a)
  giveCommand r (fun s => hartCommand s .dseal x.k) x.cl

def opStow (x : Stow) : M Ctl := do
  let v ← readS x.a
  let src ← readS x.b
  let len := (← readS x.c).toNat
  let u0 := field v.toNat 16 16
  require (decide (v.toNat < 2 ^ 32) && field v.toNat 12 4 == 0 && decide (u0 ≤ 16383))
  checkGrant (field v.toNat 0 12)
  require (len % 65536 == 0 && decide (u0 * 65536 + len ≤ 2 ^ 30))
  giveCommand (field v.toNat 0 12) (fun s => { hartCommand s .stow x.k with
    unit := u0, units := len / 65536, src := src }) x.cl

/-- R346. -/
def opDquery (x : S2) : M Ctl := do
  let r ← regionArg (← readS x.a)
  writeS x.d ((← get).regionOf r).word
  pure .next

/-! ### Meanings: one per instruction -/

/-- DOPEN. -/
def execDopen (x : DCmd) (s : State) : Host.Outcome State Fault Refusal := runUnit (opDopen x) s

/-- DSEAL. -/
def execDseal (x : DCmd) (s : State) : Host.Outcome State Fault Refusal := runUnit (opDseal x) s

/-- STOW. -/
def execStow (x : Stow) (s : State) : Host.Outcome State Fault Refusal := runUnit (opStow x) s

/-- DQUERY. -/
def execDquery (x : S2) (s : State) : Host.Outcome State Fault Refusal := runUnit (opDquery x) s

end Sys2Proof.Machine
end

