-- ==== Sys2Proof/WellFormed.lean ====
section
/-! DEFINITION. Well-formed instructions: the limits that an instruction's own description puts on its fields and that do
not depend on the state (R72 to R75, R88 and the field tables of the chapters). Limits that depend on `vtype` (R117,
R118) are judged when the instruction executes. A step of another agent is no word and is not well-formed as one. -/

namespace Sys2Proof

/-! ### Sets of types -/

/-- W codes 0x01 to 0x08. -/
def EType.isInt : EType → Bool
  | .i8 | .i16 | .i32 | .i64 | .n8 | .n16 | .n32 | .n64 => true
  | _ => false

/-- W codes 0x01 to 0x04. -/
def EType.isI : EType → Bool
  | .i8 | .i16 | .i32 | .i64 => true
  | _ => false

/-- W codes 0x05 to 0x08. -/
def EType.isN : EType → Bool
  | .n8 | .n16 | .n32 | .n64 => true
  | _ => false

/-- Formats of class 0x12: f16, bf16, f32. -/
def EType.isVFp : EType → Bool
  | .f16 | .bf16 | .f32 => true
  | _ => false

/-- Formats of class 0x03. -/
def EType.isSFp (t : EType) : Bool := t.isVFp || t == .f64

/-- "any" of R124: integers, f16, bf16, f32, e4m3, e5m2. -/
def EType.isAny (t : EType) : Bool := t.isInt || t.isVFp || t == .e4m3 || t == .e5m2

/-- Integer formats of `fcvt`, `fsig` and 64-bit indices: 32 or 64 bits. -/
def EType.isWideInt : EType → Bool
  | .i32 | .i64 | .n32 | .n64 => true
  | _ => false

/-! ### Instructions -/

def Strip.wf (x : Strip) : Bool :=
  let regs := [x.a, x.b, x.c, x.e]
  let steps := [x.steps.toNat % 16, x.steps.toNat / 16 % 16, x.steps.toNat / 256 % 16, x.steps.toNat / 4096]
  let named := regs.filter (· != 0)
  (List.zip regs steps).all (fun p => p.2 ≤ 4 && (p.1 != 0 || p.2 == 0)) && named.Nodup

/-- The types of an operator (R112): `add` is given those of 32 and 64 bits, the other integer operators every integer
type. -/
def AmoOp.takes (op : AmoOp) (t : EType) : Bool :=
  match op with
  | .fadd => t == .f32
  | .add => t.isWideInt
  | _ => t.isInt

def Amo.wf (x : Amo) : Bool :=
  x.op.takes x.t && (x.op == .cas || x.b == 0)
    && (x.acq || x.rel || x.scope == .hart)

/-- R288. -/
def Fence.wf (x : Fence) : Bool :=
  let k := x.kinds
  let atH := x.scope != .hart && x.scope != .convoy && x.scope != .core
  let atB := x.scope == .package || x.scope == .system
  (k.v || k.h || k.b || k.f || k.o || k.e || k.d) && (!k.h || atH) && (!k.b || atB)
    && (!(k.f || k.o) || x.scope == .system)

/-- R231: bit 0 clear, at most 14 bits. -/
def bitmapWf (bm : BitVec 32) : Bool :=
  !bm.getLsbD 0 && ((List.range 32).filter fun i => bm.getLsbD i).length ≤ 14

def StageOp.isFloat : StageOp → Bool
  | .fadd | .fsub | .frsub | .fmul | .fmin | .fmax | .fma | .fmacc => true
  | _ => false

def Stage.wf (t : EType) (x : Stage) : Bool :=
  x.op.isFloat == t.isVFp && (x.op == .fma || x.op == .fmacc || x.y == .vec 0)

def VChain.wf (x : VChain) : Bool :=
  (x.t.isInt || x.t.isVFp) && x.op.isFloat == x.t.isVFp && x.op != .fmacc && (x.op == .fma || x.c == 0)
    && x.stage1.wf x.t && x.more.length ≤ 3 && x.more.all fun y => y.wf x.t

/-- The smallest of 1, 2, 4, 8 registers whose element count exceeds `last`, with elements of `hb` half-bytes; 0 when
none does (R191). -/
def groupFor (hb last : Nat) : Nat :=
  if last * hb < 4096 then 1 else if last * hb < 8192 then 2 else if last * hb < 16384 then 4
  else if last * hb < 32768 then 8 else 0

/-- R184. -/
def PDot.wf (x : PDot) : Bool :=
  let hb := if x.t = .e4m3 then 2 else 4
  let g := groupFor hb (x.len.toNat - 1)
  (x.t == .f16 || x.t == .bf16 || x.t == .e4m3 || x.t == .q4) && x.stride != 0 && x.len != 0 && g != 0
    && (x.t != .q4 || (x.stride == 1 && x.len.toNat % 32 == 0)) && x.a.val % g == 0
    && !(decide (x.a.val ≤ x.d.val) && decide (x.d.val < x.a.val + g))

/-- Greatest index a shape record yields (R72). -/
def Shape.last (s : Shape) : Nat :=
  let st := if s.stride = 0 then 32 else s.stride.toNat
  let e := s.ext1.toNat
  let k := s.k1.toNat
  s.off.toNat + st * (if s.kmaj then e * (k + 1) + k else e + k * (e + 1))

def MmaFmt.halfBytes : MmaFmt → Nat
  | .f16 | .bf16 => 4
  | .e4m3 | .e5m2 | .i8 => 2
  | .q4 => 1

/-- R71, R72, R191. -/
def Mma.wf (x : Mma) : Bool :=
  let ga := groupFor x.fmt.halfBytes x.sa.last
  let gb := groupFor x.fmt.halfBytes x.sb.last
  x.sa.k1 == x.sb.k1 && (x.scaled || x.s == 0) && ga != 0 && gb != 0 && x.a.val % ga == 0 && x.b.val % gb == 0

/-- Memory types of `ald` and `ast` (R198). -/
def accMemType : EType → Bool
  | .f32 | .f16 | .bf16 | .e4m3 | .e5m2 | .i32 | .i8 => true
  | _ => false

/-- R88: K fields take 0 or 8 to 15. -/
def chunkMask (m : MName) : Bool := m == 0 || decide (8 ≤ m.val)

/-- R223. -/
def Merge.wf (x : Merge) : Bool := x.d != 0 && (x.t.isWideInt || x.t.isVFp)

def VConv.plain (x : VConv) : Bool := !x.amx

/-- Is the instruction a word that its descriptions allow? -/
def Instr.wf : Instr → Bool
  | .nop | .add _ | .sub _ | .mul _ | .mulh _ | .mulhu _ | .div _ | .divu _ | .rem _ | .remu _ | .and _ | .or _
  | .xor _ | .andn _ | .shl _ | .shr _ | .sar _ | .rot _ | .min _ | .max _ | .minu _ | .maxu _ | .set _ | .sel _
  | .clz _ | .ctz _ | .popc _ => true
  | .bfx x => x.pos.toNat + x.len1.toNat < 64
  | .bfi x => x.pos.toNat + x.len1.toNat < 64
  | .li _ | .lpc _ => true
  | .jmpl x => x.imm.toNat / 8 % 8 == 0
  | .calll x => x.imm.toNat / 8 % 8 == 0
  | .fadd x | .fsub x | .fmul x | .fdiv x | .fmin x | .fmax x => x.f.isSFp
  | .fma x => x.f.isSFp
  | .fsqrt x | .fclass x => x.f.isSFp
  | .fset x => x.f.isSFp
  | .fcvt x => (x.fd.isSFp || x.fd.isWideInt) && (x.fs.isSFp || x.fs.isWideInt) && x.fd != x.fs
      && (x.fd.isSFp || x.fs.isSFp)
  | .fsgn x => x.f.isSFp
  | .b _ | .bi _ | .jmp _ | .call _ | .jmpr _ | .callr _ | .ret => true
  | .strip x => x.wf
  | .vloopl x => x.c != 0
  | .bm _ => true
  | .ld x => x.t.isInt || x.t.isSFp
  | .st x => x.t.isInt || x.t.isSFp
  | .amo x => x.wf
  | .ldp x => x.op != .swap
  | .stp _ | .pam _ => true
  | .fence x => x.wf
  | .fsig x => x.t.isWideInt
  | .bar | .cbar _ | .wait _ | .kadd _ | .qput _ | .qget _ | .launch _ | .glaunch _ | .yield _ | .exit => true
  | .capture x => bitmapWf x.bm
  | .capref x => bitmapWf x.bm
  | .cdup _ _ | .cdrop _ | .apply _ | .applyq _ => true
  | .cenv _ k => k != 14
  | .cld _ | .cldR _ _ | .cst _ | .cstR _ _ | .trap _ | .eret => true
  | .csrr x => x.a == 0
  | .csrw _ | .csrs _ | .csrc _ | .tlbiAll | .tlbiAsid _ | .tlbiVa _ | .ctxsave _ | .ctxload _ | .logctlSync _
  | .logctlMark _ | .logctlSwap _ | .halt | .wfe _ | .vcfg _ | .setvl _ | .mcpt _ | .mexp _ => true
  | .vadd x | .vsub x | .vmul x | .vmacc x | .vdiv x | .vrem x | .vand x | .vor x | .vxor x | .vshl x | .vshr x
  | .vsar x | .vadds x | .vsubs x => x.t.isInt
  | .vmulh x | .vmin x | .vmax x => x.t.isI
  | .vmulhu x | .vminu x | .vmaxu x => x.t.isN
  | .vabs x => x.t.isI
  | .vcmp x => x.t.isInt
  | .vsel x => x.t.isAny
  | .vclz x | .vpopc x => x.t.isInt
  | .vfadd x | .vfsub x | .vfmul x | .vfdiv x | .vfmin x | .vfmax x => x.t.isVFp
  | .vfma x => x.t.isVFp
  | .vfsqrt x | .vfrcp x | .vfrsq x | .vfexp2 x | .vflog2 x | .vfclass x => x.t.isVFp
  | .vfcmp x => x.t.isVFp
  | .vfsgn x => x.t.isVFp
  | .vcvt x => x.w.isAny && x.src.isAny && x.w != x.src && (!x.amx || !x.src.isInt)
  | .vpk4 x => x.w == .q4 && x.src.isVFp && x.plain
  | .vupk4 x => x.src == .q4 && x.w.isVFp && x.plain
  | .vscl x => (x.src == .i8 || (x.src.isAny && !x.src.isInt)) && x.w.isAny && !x.w.isInt && x.plain
  | .vred x => x.t.isInt
  | .vfred x => x.t.isVFp
  | .vscan x => x.t.isInt
  | .vfscan x => x.t.isVFp
  | .vslup x | .vsldn x => x.t.isAny
  | .vgath x => x.t.isAny
  | .vcomp x => x.t.isAny
  | .vexpd x | .vrev x => x.t.isAny
  | .vbshl x | .vbshr x => x.t.isAny
  | .vfnl x => x.t.isAny
  | .vmvs x => x.t.isAny
  | .vmvx x => x.t.isAny
  | .vid x => x.t.isInt
  | .mand _ | .mor _ | .mxor _ | .mnot _ | .mandn _ | .mpop _ | .mfirst _ => true
  | .vspush x => x.t.isAny
  | .vspop x => x.t.isAny
  | .vchain x => x.wf
  | .vld x => x.t.isAny && !x.unord
  | .vlds x => x.t.isAny && !x.unord
  | .vldg x => x.t.isAny && !x.unord && x.nf1 != 0
  | .vldx x => x.t.isAny && !x.unord
  | .vst x => x.t.isAny
  | .vsts x => x.t.isAny
  | .vstg x => x.t.isAny && x.nf1 != 0
  | .vstx x => x.t.isAny
  | .vstxa x => x.t.isInt || x.t.isVFp
  | .vldt x | .vstt x => x.t.isAny && !x.unord
  | .pdot x => x.wf
  | .acfg _ | .arel _ | .azero _ => true
  | .mma x => x.wf
  | .ald x => accMemType x.mw
  | .ast x => accMemType x.mw && (x.scaled || x.s == 0)
  | .arow _ | .tlook _ | .ttag _ => true
  | .tfill x => chunkMask x.m
  | .tdrain _ | .twait _ | .trel _ | .tstat _ => true
  | .cpy x => chunkMask x.m && (x.chk == 0 || x.m != 0)
  | .cpy2 x => chunkMask x.m && (x.chk == 0 || x.m != 0) && x.c != 0 && x.c != 31
  | .cstat _ => true
  | .munion x | .minter x => x.wf
  | .mcount x => x.d != 0
  | .dopen _ | .stow _ | .dseal _ | .dquery _ => true
  | .reservedEncoding _ => true
  | .qgetWake _ | .qputWake _ | .waitWake _ | .wfeWake _ | .wfeTimeout _ | .vspushWake _ | .vspopWake _
  | .tileStallRelease _ | .convoyDeadlock _ | .mmaComplete _ | .pdotComplete _ | .nearBankAgeing _
  | .fillChunkComplete _ _ _ | .transferComplete _ _ | .transferFailure _ _ _ _ | .engineFaultAnswer _ _ _
  | .postedClosureStart _ | .hartEnd _ | .dispatchPlace | .preEmption _ | .restore _ | .orderLogEntryFill _ _
  | .hostLaunchWrite _ _ _ | .heldPacketEnqueue _ | .hostBar4Read _ _ _ | .hostBar4Write _ _ _
  | .createContext _ | .bindQueue _ | .grantRegion _ | .killContext _ | .invalidate _ | .readHart _
  | .resumeHart _ | .cacheFloor _ | .assignCluster _ | .powerLimit _ | .commandDone _ | .discardReset _ _
  | .registerWrite _ _ _ | .spdmGetVersion | .spdmGetCapabilities | .spdmNegotiateAlgorithms | .spdmGetDigests
  | .spdmGetCertificate _ | .spdmChallenge _ _ | .spdmGetMeasurements _ | .spdmUnsupported _ | .packageReset
  | .bootPhaseAdvance _ | .idleEntry | .idleWake | .powerRemoved | .thermalTrip | .clockStep _
  | .registerEccError _ _ | .dramEccError _ _ | .dramScrub _ _ | .verticalLinkFailure _ _ _ _
  | .translationReturn _ | .portDown _ | .fabricPacketArrival _ | .switchMarkerArrival _ _ _ _ | .fabricAck _ _
  | .remoteResponse _ _ | .fabricItemTimeout _ | .gangReserve _ _ _ _ _ _ _ | .gangAck _ _ | .gangBegin _ _
  | .gangTimeout _ | .gangAbort _ _ | .gangMemberFailure _ _ _ | .gangKill _ _ | .depotEraseDone _ _
  | .stowUnitDone _ _ | .depotSealDone _ _ | .depotCommandComplete _ | .stagingLineFill _ _ | .cacheRepartition
  | .ringVisit _ _ | .waybillMatch _ _ | .slotRequest _ _ _ | .slotGrant _ _ | .blockPush _ _
  | .switchFold _ _ _ _ | .blockPull _ _ _ | .parkedBlockResume _ _ _ | .waybillComplete _
  | .collectivePlaneLost _ | .collectivePeerFailed _ _ | .engineTranslationFault _ _ | .tlbParityError _ _
  | .class0MeteringWindow _ => false

end Sys2Proof
end

