-- ==== Sys2Proof/Decode.lean ====
section
/-! DEFINITION. Decoding of instruction words and, after it, the encoder. The formats are R67 to R72; class and operation
numbers are R84 to R86; the fields of each operand record are those of its chapter's table. A word is the instruction
its fields spell if encoding that instruction gives the word back and the instruction is well-formed: so every reserved,
unused or out-of-range field is rejected (R68 to R76). Every other word is `reservedEncoding`. -/

namespace Sys2Proof

/-! ### Codes -/

/-- The W code of a type (R37, R74). -/
def typeCode : EType → Nat
  | .i8 => 1 | .i16 => 2 | .i32 => 3 | .i64 => 4
  | .n8 => 5 | .n16 => 6 | .n32 => 7 | .n64 => 8
  | .f16 => 16 | .bf16 => 17 | .f32 => 18 | .f64 => 19
  | .e4m3 => 20 | .e5m2 => 21 | .q4 => 22

def typeOf : Nat → Option EType
  | 1 => some .i8 | 2 => some .i16 | 3 => some .i32 | 4 => some .i64
  | 5 => some .n8 | 6 => some .n16 | 7 => some .n32 | 8 => some .n64
  | 16 => some .f16 | 17 => some .bf16 | 18 => some .f32 | 19 => some .f64
  | 20 => some .e4m3 | 21 => some .e5m2 | 22 => some .q4
  | _ => none

/-- R92. -/
def widthCode : IntWidth → Nat
  | .w64 => 0 | .i32 => 3 | .n32 => 7

def widthOf : Nat → Option IntWidth
  | 0 => some .w64 | 3 => some .i32 | 7 => some .n32 | _ => none

/-- R91. -/
def condCode : Cond → Nat
  | .eq => 0 | .ne => 1 | .lt => 2 | .ge => 3 | .ltu => 4 | .geu => 5

def condOf : Nat → Option Cond
  | 0 => some .eq | 1 => some .ne | 2 => some .lt | 3 => some .ge | 4 => some .ltu | 5 => some .geu | _ => none

/-- R108. -/
def scopeCode : Scope → Nat
  | .hart => 0 | .convoy => 1 | .core => 2 | .cluster => 3 | .tower => 4 | .package => 5 | .system => 6

def scopeOf : Nat → Option Scope
  | 0 => some .hart | 1 => some .convoy | 2 => some .core | 3 => some .cluster | 4 => some .tower
  | 5 => some .package | 6 => some .system | _ => none

/-- R107. -/
def testCode : MaskTest → Nat
  | .any => 0 | .none => 1 | .all => 2 | .nall => 3

def testOf : Nat → Option MaskTest
  | 0 => some .any | 1 => some .none | 2 => some .all | 3 => some .nall | _ => none

/-- R102. -/
def fcmpCode : FCmp → Nat
  | .eq => 0 | .lt => 1 | .le => 2 | .un => 3

def fcmpOf : Nat → FCmp
  | 0 => .eq | 1 => .lt | 2 => .le | _ => .un

def fsgnCode : FSgn → Nat
  | .copy => 0 | .inv => 1 | .xor => 2

def fsgnOf : Nat → Option FSgn
  | 0 => some .copy | 1 => some .inv | 2 => some .xor | _ => none

/-- R112. -/
def amoCode : AmoOp → Nat
  | .add => 0 | .and => 1 | .or => 2 | .xor => 3 | .min => 4 | .max => 5 | .minu => 6 | .maxu => 7
  | .swap => 8 | .cas => 9 | .fadd => 10

def amoOf : Nat → Option AmoOp
  | 0 => some .add | 1 => some .and | 2 => some .or | 3 => some .xor | 4 => some .min | 5 => some .max
  | 6 => some .minu | 7 => some .maxu | 8 => some .swap | 9 => some .cas | 10 => some .fadd | _ => none

/-- R173. -/
def pluralCode : PluralOp → Nat
  | .add => 0 | .fadd => 1 | .min => 2 | .max => 3 | .minu => 4 | .maxu => 5 | .fmin => 6 | .fmax => 7
  | .and => 8 | .or => 9 | .xor => 10 | .swap => 11

def pluralOf : Nat → Option PluralOp
  | 0 => some .add | 1 => some .fadd | 2 => some .min | 3 => some .max | 4 => some .minu | 5 => some .maxu
  | 6 => some .fmin | 7 => some .fmax | 8 => some .and | 9 => some .or | 10 => some .xor | 11 => some .swap
  | _ => none

def n1 (b : Bool) : Nat := if b then 1 else 0

/-! ### Formats: words from fields (R67, R69, R70, R71) -/

/-- F-R: `mod` holds bits 47:32. -/
def fr (cls op d a b c m w mod imm : Nat) : Nat :=
  cls * 2 ^ 90 + op * 2 ^ 82 + d * 2 ^ 76 + a * 2 ^ 70 + b * 2 ^ 64 + c * 2 ^ 58 + m * 2 ^ 54 + w * 2 ^ 48
    + mod * 2 ^ 32 + imm

def fl (op d mod12 imm : Nat) : Nat := 2 * 2 ^ 90 + op * 2 ^ 82 + d * 2 ^ 76 + mod12 * 2 ^ 64 + imm

def fb (op a b c e cond imm16 : Nat) (t : Target) : Nat :=
  4 * 2 ^ 90 + op * 2 ^ 82 + a * 2 ^ 76 + b * 2 ^ 70 + c * 2 ^ 64 + e * 2 ^ 58 + cond * 2 ^ 52 + imm16 * 2 ^ 36
    + t.disp.toNat * 2 ^ 3 + t.slot.toNat

def noTarget : Target := ⟨0, 0⟩

/-- The B field, MOD.I and IMM of a scalar operand B (R68). -/
def srcB : Src → Nat
  | .reg r => r.val
  | .imm _ => 0
def srcI : Src → Nat
  | .reg _ => 0
  | .imm _ => 2 ^ 15
def srcImm : Src → Nat
  | .reg _ => 0
  | .imm i => i.toNat

/-- The same for a vector operand B: MOD.S too. -/
def vsrcB : VSrc → Nat
  | .vec r => r.val
  | .scalar r => r.val
  | .imm _ => 0
def vsrcMod : VSrc → Nat
  | .vec _ => 0
  | .scalar _ => 2 ^ 14
  | .imm _ => 2 ^ 15
def vsrcImm : VSrc → Nat
  | .imm i => i.toNat
  | _ => 0

/-! ### Records to words -/

def encSInt (op : Nat) (x : SInt) : Nat :=
  fr 1 op x.d.val x.a.val (srcB x.b) 0 0 (widthCode x.w) (srcI x.b) (srcImm x.b)
def encSet (x : SSet) : Nat :=
  fr 1 0x16 x.d.val x.a.val (srcB x.b) 0 0 (widthCode x.w) (srcI x.b + condCode x.cc) (srcImm x.b)
def encSel (x : SSel) : Nat :=
  fr 1 0x17 x.d.val x.a.val (srcB x.b) x.c.val 0 (widthCode x.w) (srcI x.b) (srcImm x.b)
def encSIntUn (op : Nat) (x : SIntUn) : Nat := fr 1 op x.d.val x.a.val 0 0 0 (widthCode x.w) 0 0
def encBfx (x : SBfx) : Nat :=
  fr 1 0x1B x.d.val x.a.val 0 0 0 0 (2 ^ 15 + n1 x.sx) (x.len1.toNat * 64 + x.pos.toNat)
def encBfi (x : SBfi) : Nat :=
  fr 1 0x1C x.d.val x.a.val 0 x.c.val 0 0 (2 ^ 15) (x.len1.toNat * 64 + x.pos.toNat)
def encLImm (op : Nat) (x : LImm) : Nat := fl op x.d.val 0 x.imm.toNat
def encLJump (op : Nat) (x : LJump) : Nat := fl op 0 (n1 x.abs) x.imm.toNat
def encSFp (op : Nat) (x : SFp) : Nat :=
  fr 3 op x.d.val x.a.val (srcB x.b) 0 0 (typeCode x.f) (srcI x.b) (srcImm x.b)
def encSFma (x : SFma) : Nat :=
  fr 3 4 x.d.val x.a.val (srcB x.b) x.c.val 0 (typeCode x.f) (srcI x.b) (srcImm x.b)
def encSFpUn (op : Nat) (x : SFpUn) : Nat := fr 3 op x.d.val x.a.val 0 0 0 (typeCode x.f) 0 0
def encSFset (x : SFset) : Nat :=
  fr 3 9 x.d.val x.a.val (srcB x.b) 0 0 (typeCode x.f) (srcI x.b + fcmpCode x.cmp) (srcImm x.b)
def encSFcvt (x : SFcvt) : Nat := fr 3 0xA x.d.val x.a.val 0 0 0 (typeCode x.fd) (typeCode x.fs) 0
def encSFsgn (x : SFsgn) : Nat := fr 3 0xC x.d.val x.a.val x.b.val 0 0 (typeCode x.f) (fsgnCode x.sel) 0
def encStrip (x : Strip) : Nat := fb 8 x.a.val x.b.val x.c.val x.e.val 0 x.steps.toNat x.t
def acqMod : Option Scope → Nat
  | some s => 2 ^ 13 + scopeCode s * 2 ^ 7
  | none => 0
def relMod : Option Scope → Nat
  | some s => 2 ^ 12 + scopeCode s * 2 ^ 7
  | none => 0
def encSLoad (x : SLoad) : Nat :=
  fr 5 1 x.d.val x.a.val (srcB x.b) 0 0 (typeCode x.t) (srcI x.b + acqMod x.acq) (srcImm x.b)
def encSStore (x : SStore) : Nat :=
  fr 5 2 0 x.a.val (srcB x.b) x.c.val 0 (typeCode x.t) (srcI x.b + relMod x.rel + n1 x.unord * 2 ^ 11) (srcImm x.b)
def encAmo (x : Amo) : Nat :=
  fr 5 6 x.d.val x.a.val x.b.val x.c.val 0 (typeCode x.t)
    (n1 x.acq * 2 ^ 13 + n1 x.rel * 2 ^ 12 + scopeCode x.scope * 2 ^ 7 + amoCode x.op * 2 ^ 3) 0
def encPLoad (x : PLoad) : Nat :=
  fr 5 3 x.d.val x.a.val x.b.val 0 0 0 (n1 x.banked * 2 ^ 13 + pluralCode x.op * 2 ^ 9) x.off.toNat
def encPStore (x : PStore) : Nat := fr 5 4 0 x.a.val x.b.val x.c.val 0 0 (n1 x.banked * 2 ^ 13) x.off.toNat
def encPAtomic (x : PAtomic) : Nat :=
  fr 5 5 0 x.a.val x.b.val x.c.val 0 0 (n1 x.banked * 2 ^ 13 + pluralCode x.op * 2 ^ 9) x.off.toNat
def kindBits (k : Kinds) : Nat :=
  n1 k.v + 2 * n1 k.h + 4 * n1 k.b + 8 * n1 k.f + 16 * n1 k.o + 32 * n1 k.e + 64 * n1 k.d
def encFence (x : Fence) : Nat := fr 6 1 0 0 0 0 0 0 (scopeCode x.scope * 2 ^ 7 + kindBits x.kinds) 0
def encFsig (x : Fsig) : Nat := fr 6 2 0 x.a.val (srcB x.b) 0 0 (typeCode x.t) (srcI x.b) (srcImm x.b)
def encWaitK (x : WaitK) : Nat := fr 6 5 x.d.val x.k.val (srcB x.b) 0 0 0 (srcI x.b) (srcImm x.b)
def encKAdd (x : KAdd) : Nat := fr 6 6 x.k.val (srcB x.a) 0 0 0 0 (srcI x.a) (srcImm x.a)
def nbC : Option SReg → Nat
  | some r => r.val
  | none => 0
def nbMod (o : Option SReg) : Nat := n1 o.isSome
def encQPut (x : QPut) : Nat :=
  fr 6 7 x.q.val (srcB x.a) 0 (nbC x.nb) 0 0 (srcI x.a + 2 * n1 x.par + nbMod x.nb) (srcImm x.a)
def encQGet (x : QGet) : Nat := fr 6 8 x.d.val x.q.val 0 (nbC x.nb) 0 0 (nbMod x.nb) 0
def encLaunch (op : Nat) (x : Launch) : Nat := fr 6 op x.k.val x.a.val x.b.val x.c.val 0 0 0 0
def encCapture (x : Capture) : Nat := fr 7 1 x.d.val x.a.val 0 0 0 0 0 x.bm.toNat
def encCapref (x : Capref) : Nat := fr 7 2 x.d.val x.a.val x.b.val 0 0 0 0 x.bm.toNat
def encApplyQ (x : ApplyQ) : Nat := fr 7 6 0 x.a.val x.k.val x.c.val 0 0 0 0
def encCLoad (x : CLoad) : Nat := fr 7 8 x.d.val x.a.val 0 0 0 0 (2 ^ 15) x.off.toNat
def encCStore (x : CStore) : Nat := fr 7 9 0 x.a.val 0 x.c.val 0 0 (2 ^ 15) x.off.toNat
def encCsr (op : Nat) (x : Csr) : Nat := fr 8 op x.d.val x.a.val 0 0 0 0 0 x.csr.toNat
def encLogSwap (x : LogSwap) : Nat := fr 8 0xA x.d.val x.a.val x.b.val 0 0 0 (4 * n1 x.order + 2) 0
def ixCode : IxWidth → Nat
  | .b8 => 0 | .b16 => 1 | .b32 => 2 | .b64 => 3
def ixOf : Nat → IxWidth
  | 0 => .b8 | 1 => .b16 | 2 => .b32 | _ => .b64
/-- Loads name the group in D, stores in C (R178). -/
def encVMem (op : Nat) (load : Bool) (x : VMem) : Nat :=
  fr 0x18 op (if load then x.v.val else 0) x.a.val 0 (if load then 0 else x.v.val) x.m.val (typeCode x.t)
    (n1 x.unord * 2 ^ 13) x.off.toNat
def encVMemS (op : Nat) (load : Bool) (x : VMemS) : Nat :=
  fr 0x18 op (if load then x.v.val else 0) x.a.val x.b.val (if load then 0 else x.v.val) x.m.val (typeCode x.t)
    (n1 x.unord * 2 ^ 13) x.off.toNat
def encVMemG (op : Nat) (load : Bool) (x : VMemG) : Nat :=
  fr 0x18 op (if load then x.v.val else 0) x.a.val 0 (if load then 0 else x.v.val) x.m.val (typeCode x.t)
    (n1 x.unord * 2 ^ 13 + x.nf1.toNat * 2 ^ 7) x.off.toNat
def encVMemX (op : Nat) (load : Bool) (x : VMemX) : Nat :=
  fr 0x18 op (if load then x.v.val else 0) x.a.val x.b.val (if load then 0 else x.v.val) x.m.val (typeCode x.t)
    (n1 x.unord * 2 ^ 13 + n1 x.scl * 2 ^ 12 + ixCode x.ix * 2 ^ 10) x.off.toNat
def encPDot (x : PDot) : Nat :=
  fr 0x19 1 x.d.val x.a.val x.b.val x.c.val 0 (typeCode x.t) x.stride.toNat (x.off.toNat * 2 ^ 16 + x.len.toNat)
def encTFill (x : TFill) : Nat := fr 0x21 3 x.k.val x.a.val x.b.val x.c.val x.m.val 0 0 0
def encTDrain (x : TDrain) : Nat := fr 0x21 4 x.k.val x.a.val x.b.val x.c.val 0 0 0 0
def clImm : Option CName → Nat
  | some c => 16 + c.val
  | none => 0
def encCopy (op : Nat) (x : Copy) : Nat :=
  fr 0x22 op x.k.val x.a.val x.b.val x.c.val x.m.val 0 (x.chk.toNat) (clImm x.cl)
def encCStat (x : CStat) : Nat := fr 0x22 3 x.d.val x.k.val 0 x.c.val 0 0 (n1 x.clr) 0
def encMerge (op : Nat) (x : Merge) : Nat :=
  fr 0x23 op x.d.val x.a.val 0 0 0 (typeCode x.t) (n1 x.kz + 2 * n1 x.ix64) 0
def encMCount (x : MCount) : Nat := fr 0x23 3 x.d.val x.a.val 0 0 0 0 (2 * n1 x.ix64 + 4 * n1 x.inter) 0
def clM : Option CName → Nat
  | some c => c.val
  | none => 0
def encDCmd (op : Nat) (x : DCmd) : Nat := fr 0x24 op x.k.val x.a.val 0 0 (clM x.cl) 0 (n1 x.cl.isSome) 0
def encStow (x : Stow) : Nat :=
  fr 0x24 2 x.k.val x.a.val x.b.val x.c.val (clM x.cl) 0 (n1 x.cl.isSome) 0
def encVCfg (x : VCfg) : Nat := fr 0x10 1 x.d.val 0 0 0 0 0 (2 ^ 15) (x.grp.toNat * 16 + x.ew.toNat)
/-- Operand A of `setvl` and `mcpt`: a register, or IMM with I = 1 (R116, R121). -/
def encSetVl (x : SetVl) : Nat := fr 0x10 2 x.d.val (srcB x.a) 0 0 0 0 (srcI x.a) (srcImm x.a)
def encMCpt (x : MCpt) : Nat := fr 0x10 3 x.d.val (srcB x.a) 0 0 0 0 (srcI x.a) (srcImm x.a)
def encVOp (cls op : Nat) (x : VOp) : Nat :=
  fr cls op x.d.val x.a.val (vsrcB x.b) 0 x.m.val (typeCode x.t) (vsrcMod x.b) (vsrcImm x.b)
def encVUn (cls op : Nat) (x : VUn) : Nat := fr cls op x.d.val x.a.val 0 0 x.m.val (typeCode x.t) 0 0
def encVCmp (x : VCmp) : Nat :=
  fr 0x11 0x16 x.d.val x.a.val (vsrcB x.b) 0 x.m.val (typeCode x.t) (vsrcMod x.b + condCode x.cc) (vsrcImm x.b)
def encVFma (x : VFma) : Nat :=
  fr 0x12 4 x.d.val x.a.val (vsrcB x.b) x.c.val x.m.val (typeCode x.t) (vsrcMod x.b) (vsrcImm x.b)
def encVFcmp (x : VFcmp) : Nat :=
  fr 0x12 9 x.d.val x.a.val (vsrcB x.b) 0 x.m.val (typeCode x.t) (vsrcMod x.b + fcmpCode x.cmp) (vsrcImm x.b)
def encVFsgn (x : VFsgn) : Nat :=
  fr 0x12 0xE x.d.val x.a.val (vsrcB x.b) 0 x.m.val (typeCode x.t) (vsrcMod x.b + fsgnCode x.sel) (vsrcImm x.b)
def encVConv (op : Nat) (x : VConv) : Nat :=
  fr 0x13 op x.d.val x.a.val 0 0 x.m.val (typeCode x.w) (x.satm.val * 2 ^ 9 + n1 x.amx * 2 ^ 8 + typeCode x.src) 0
/-- R133. -/
def redCode : RedOp → Nat
  | .add => 0 | .min => 1 | .max => 2 | .minu => 3 | .maxu => 4 | .and => 5 | .or => 6 | .xor => 7
def redOf : Nat → Option RedOp
  | 0 => some .add | 1 => some .min | 2 => some .max | 3 => some .minu | 4 => some .maxu | 5 => some .and
  | 6 => some .or | 7 => some .xor | _ => none
def fredCode : FRedOp → Nat
  | .fadd => 0 | .fmin => 1 | .fmax => 2
def fredOf : Nat → Option FRedOp
  | 0 => some .fadd | 1 => some .fmin | 2 => some .fmax | _ => none
def encVRed (x : VRed) : Nat :=
  fr 0x14 1 x.d.val x.a.val x.b.val 0 x.m.val (typeCode x.t) (redCode x.op) 0
def encVFRed (x : VFRed) : Nat :=
  fr 0x14 2 x.d.val x.a.val x.b.val 0 x.m.val (typeCode x.t) (fredCode x.op) 0
def encVScan (x : VScan) : Nat :=
  fr 0x14 3 x.d.val x.a.val x.b.val x.c.val x.m.val (typeCode x.t) (n1 x.excl * 16 + redCode x.op) 0
def encVFScan (x : VFScan) : Nat :=
  fr 0x14 4 x.d.val x.a.val x.b.val x.c.val x.m.val (typeCode x.t) (n1 x.excl * 16 + fredCode x.op) 0
/-- Operand B as a scalar or an immediate of an instruction whose B is otherwise a vector: S = 1 or I = 1 (R138). -/
def siMod : Src → Nat
  | .reg _ => 2 ^ 14
  | .imm _ => 2 ^ 15
def encVSlide (op : Nat) (x : VSlide) : Nat :=
  fr 0x15 op x.d.val x.a.val (srcB x.n) x.c.val x.m.val (typeCode x.t) (siMod x.n) (srcImm x.n)
def encVComp (x : VComp) : Nat := fr 0x15 4 x.d.val x.a.val 0 x.c.val x.m.val (typeCode x.t) 0 0
def encVBsh (op : Nat) (x : VBsh) : Nat :=
  fr 0x15 op x.d.val x.a.val (srcB x.n) 0 x.m.val (typeCode x.t) (siMod x.n) (srcImm x.n)
def encVFnl (x : VFnl) : Nat := fr 0x15 8 x.d.val x.a.val x.b.val x.c.val x.m.val (typeCode x.t) 0 0
def encVMvs (x : VMvs) : Nat :=
  fr 0x15 9 x.d.val x.a.val (srcB x.j) 0 0 (typeCode x.t) (siMod x.j) (srcImm x.j)
def encVMvx (x : VMvx) : Nat :=
  fr 0x15 0xA x.d.val x.a.val (srcB x.j) 0 0 (typeCode x.t) (siMod x.j) (srcImm x.j)
def encVId (x : VId) : Nat := fr 0x15 0xB x.d.val x.a.val 0 0 x.m.val (typeCode x.t) (2 ^ 15) x.step.toNat
def encM3 (op : Nat) (x : M3) : Nat := fr 0x16 op x.d.val x.a.val x.b.val 0 0 0 0 0
def encM2 (cls op : Nat) (x : M2) : Nat := fr cls op x.d.val x.a.val 0 0 0 0 0 0
def encMToS (op : Nat) (x : MToS) : Nat := fr 0x16 op x.d.val x.a.val 0 0 0 0 0 0
def encVSPush (x : VSPush) : Nat := fr 0x17 1 x.q.val x.a.val 0 x.c.val x.m.val (typeCode x.t) 0 0
def encVSPop (x : VSPop) : Nat := fr 0x17 2 x.d.val x.q.val 0 x.c.val x.m.val (typeCode x.t) (n1 x.nb) 0
/-- R149. -/
def stageCode : StageOp → Nat
  | .add => 0 | .sub => 1 | .rsub => 2 | .mul => 3 | .min => 4 | .max => 5 | .minu => 6 | .maxu => 7
  | .and => 8 | .or => 9 | .xor => 10 | .shl => 11 | .shr => 12 | .sar => 13
  | .fadd => 16 | .fsub => 17 | .frsub => 18 | .fmul => 19 | .fmin => 20 | .fmax => 21 | .fma => 22 | .fmacc => 23
def stageOf : Nat → Option StageOp
  | 0 => some .add | 1 => some .sub | 2 => some .rsub | 3 => some .mul | 4 => some .min | 5 => some .max
  | 6 => some .minu | 7 => some .maxu | 8 => some .and | 9 => some .or | 10 => some .xor | 11 => some .shl
  | 12 => some .shr | 13 => some .sar | 16 => some .fadd | 17 => some .fsub | 18 => some .frsub
  | 19 => some .fmul | 20 => some .fmin | 21 => some .fmax | 22 => some .fma | 23 => some .fmacc | _ => none
def encVChain (x : VChain) : Nat :=
  fr 0x17 3 x.d.val x.a.val (vsrcB x.b) x.c.val x.m.val (typeCode x.t) (vsrcMod x.b + stageCode x.op) (vsrcImm x.b)
def stageSrcBits : StageSrc → Nat
  | .vec r => r.val
  | .scalar r => 64 + r.val
/-- A stage descriptor of 22 bits (R148). -/
def encStage (x : Stage) : Nat :=
  stageCode x.op * 2 ^ 17 + stageSrcBits x.x * 2 ^ 10 + stageSrcBits x.y * 2 ^ 3
def stageAt (l : List Stage) (i : Nat) : Nat := (l[i]?.map encStage).getD 0
/-- The continuation word (R148). -/
def encodeCont (x : VChain) : Nat :=
  0x3F * 2 ^ 90 + x.more.length * 2 ^ 88 + encStage x.stage1 * 2 ^ 66 + stageAt x.more 0 * 2 ^ 44
    + stageAt x.more 1 * 2 ^ 22 + stageAt x.more 2
def encACfg (x : ACfg) : Nat :=
  fr 0x20 1 x.d.val 0 0 0 0 (if x.int then 3 else 0x12) (2 ^ 15) (x.n1.toNat * 256 + x.m1.toNat)
/-- R75. -/
def mmaCode : MmaFmt → Nat
  | .f16 => 0 | .bf16 => 1 | .e4m3 => 2 | .e5m2 => 3 | .q4 => 4 | .i8 => 5
def mmaOf : Nat → Option MmaFmt
  | 0 => some .f16 | 1 => some .bf16 | 2 => some .e4m3 | 3 => some .e5m2 | 4 => some .q4 | 5 => some .i8 | _ => none
/-- R72. -/
def encShape (s : Shape) : Nat :=
  s.ext1.toNat * 2 ^ 17 + s.k1.toNat * 2 ^ 11 + s.stride.toNat * 2 ^ 6 + s.off.toNat * 2 + n1 s.kmaj
def fm (op d a b s fmt flags high low : Nat) : Nat :=
  0x20 * 2 ^ 90 + op * 2 ^ 82 + d * 2 ^ 76 + a * 2 ^ 70 + b * 2 ^ 64 + s * 2 ^ 58 + fmt * 2 ^ 54 + flags * 2 ^ 51
    + high * 2 ^ 24 + low
def encMma (x : Mma) : Nat :=
  fm 4 x.d.val x.a.val x.b.val x.s.val (mmaCode x.fmt) (4 * n1 x.neg + 2 * n1 x.accz + n1 x.scaled)
    (encShape x.sa) (encShape x.sb)
def encALoad (x : ALoad) : Nat :=
  fm 5 x.d.val x.a.val x.b.val 0 0 0 (typeCode x.mw) (x.stride.toNat * 64 + x.off.toNat * 2 + n1 x.trans)
def encAStore (x : AStore) : Nat :=
  fm 6 x.d.val x.a.val x.b.val x.s.val 0 (n1 x.scaled) (typeCode x.mw)
    (x.stride.toNat * 64 + x.off.toNat * 2 + n1 x.trans)
def encARow (x : ARow) : Nat :=
  fr 0x20 7 x.d.val x.a.val (srcB x.idx) 0 0 (if x.int then 3 else 0x12) (siMod x.idx + n1 x.col) (srcImm x.idx)

/-- The word of an instruction, as a number of 96 bits: the head word of a `vchain`. A step of another agent has
none. -/
def encodeWord : Instr → Option Nat
  | .nop => some 0
  | .add x => some (encSInt 1 x)
  | .sub x => some (encSInt 2 x)
  | .mul x => some (encSInt 3 x)
  | .mulh x => some (encSInt 4 x)
  | .mulhu x => some (encSInt 5 x)
  | .div x => some (encSInt 6 x)
  | .divu x => some (encSInt 7 x)
  | .rem x => some (encSInt 8 x)
  | .remu x => some (encSInt 9 x)
  | .and x => some (encSInt 0xA x)
  | .or x => some (encSInt 0xB x)
  | .xor x => some (encSInt 0xC x)
  | .andn x => some (encSInt 0xD x)
  | .shl x => some (encSInt 0xE x)
  | .shr x => some (encSInt 0xF x)
  | .sar x => some (encSInt 0x10 x)
  | .rot x => some (encSInt 0x11 x)
  | .min x => some (encSInt 0x12 x)
  | .max x => some (encSInt 0x13 x)
  | .minu x => some (encSInt 0x14 x)
  | .maxu x => some (encSInt 0x15 x)
  | .set x => some (encSet x)
  | .sel x => some (encSel x)
  | .clz x => some (encSIntUn 0x18 x)
  | .ctz x => some (encSIntUn 0x19 x)
  | .popc x => some (encSIntUn 0x1A x)
  | .bfx x => some (encBfx x)
  | .bfi x => some (encBfi x)
  | .li x => some (encLImm 1 x)
  | .lpc x => some (encLImm 2 x)
  | .jmpl x => some (encLJump 3 x)
  | .calll x => some (encLJump 4 x)
  | .fadd x => some (encSFp 1 x)
  | .fsub x => some (encSFp 2 x)
  | .fmul x => some (encSFp 3 x)
  | .fma x => some (encSFma x)
  | .fdiv x => some (encSFp 5 x)
  | .fsqrt x => some (encSFpUn 6 x)
  | .fmin x => some (encSFp 7 x)
  | .fmax x => some (encSFp 8 x)
  | .fset x => some (encSFset x)
  | .fcvt x => some (encSFcvt x)
  | .fclass x => some (encSFpUn 0xB x)
  | .fsgn x => some (encSFsgn x)
  | .b x => some (fb 1 x.a.val x.b.val 0 0 (condCode x.cc) 0 x.t)
  | .bi x => some (fb 2 x.a.val 0 0 0 (condCode x.cc) x.imm.toNat x.t)
  | .jmp t => some (fb 3 0 0 0 0 0 0 t)
  | .call t => some (fb 4 0 0 0 0 0 0 t)
  | .jmpr a => some (fb 5 a.val 0 0 0 0 0 noTarget)
  | .callr a => some (fb 6 a.val 0 0 0 0 0 noTarget)
  | .ret => some (fb 7 0 0 0 0 0 0 noTarget)
  | .strip x => some (encStrip x)
  | .vloopl x => some (fb 9 x.a.val 0 x.c.val 0 0 0 x.t)
  | .bm x => some (fb 0xA x.a.val 0 0 0 (testCode x.test) 0 x.t)
  | .ld x => some (encSLoad x)
  | .st x => some (encSStore x)
  | .amo x => some (encAmo x)
  | .ldp x => some (encPLoad x)
  | .stp x => some (encPStore x)
  | .pam x => some (encPAtomic x)
  | .fence x => some (encFence x)
  | .fsig x => some (encFsig x)
  | .bar => some (fr 6 3 0 0 0 0 0 0 0 0)
  | .cbar x => some (fr 6 4 0 x.a.val x.b.val 0 0 0 0 0)
  | .wait x => some (encWaitK x)
  | .kadd x => some (encKAdd x)
  | .qput x => some (encQPut x)
  | .qget x => some (encQGet x)
  | .launch x => some (encLaunch 9 x)
  | .glaunch x => some (encLaunch 0xA x)
  | .yield d => some (fr 6 0xB d.val 0 0 0 0 0 0 0)
  | .exit => some (fr 6 0xC 0 0 0 0 0 0 0 0)
  | .capture x => some (encCapture x)
  | .capref x => some (encCapref x)
  | .cdup d a => some (fr 7 3 d.val a.val 0 0 0 0 0 0)
  | .cdrop a => some (fr 7 4 0 a.val 0 0 0 0 0 0)
  | .apply a => some (fr 7 5 0 a.val 0 0 0 0 0 0)
  | .applyq x => some (encApplyQ x)
  | .cenv d k => some (fr 7 7 d.val 0 0 0 0 0 (2 ^ 15) k.toNat)
  | .cld x => some (encCLoad x)
  | .cldR d a => some (fr 7 8 d.val a.val 0 0 0 0 1 0)
  | .cst x => some (encCStore x)
  | .cstR d c => some (fr 7 9 d.val 0 0 c.val 0 0 1 0)
  | .trap n => some (fr 8 1 0 0 0 0 0 0 (2 ^ 15) n.toNat)
  | .eret => some (fr 8 2 0 0 0 0 0 0 0 0)
  | .csrr x => some (encCsr 3 x)
  | .csrw x => some (encCsr 4 x)
  | .csrs x => some (encCsr 5 x)
  | .csrc x => some (encCsr 6 x)
  | .tlbiAll => some (fr 8 7 0 0 0 0 0 0 0 0)
  | .tlbiAsid b => some (fr 8 7 0 0 b.val 0 0 0 1 0)
  | .tlbiVa x => some (fr 8 7 0 x.a.val x.b.val 0 0 0 2 0)
  | .ctxsave x => some (fr 8 8 x.d.val x.a.val x.b.val 0 0 0 0 0)
  | .ctxload x => some (fr 8 9 x.d.val x.a.val x.b.val 0 0 0 0 0)
  | .logctlSync x => some (fr 8 0xA x.d.val 0 0 0 0 0 (4 * n1 x.order) 0)
  | .logctlMark x => some (fr 8 0xA x.d.val x.a.val 0 0 0 0 5 0)
  | .logctlSwap x => some (encLogSwap x)
  | .halt => some (fr 8 0xB 0 0 0 0 0 0 0 0)
  | .wfe x => some (fr 8 0xC x.d.val x.a.val x.b.val 0 0 0 0 0)
  | .vcfg x => some (encVCfg x)
  | .setvl x => some (encSetVl x)
  | .mcpt x => some (encMCpt x)
  | .mexp x => some (encM2 0x10 4 x)
  | .vadd x => some (encVOp 0x11 1 x)
  | .vsub x => some (encVOp 0x11 2 x)
  | .vmul x => some (encVOp 0x11 3 x)
  | .vmulh x => some (encVOp 0x11 4 x)
  | .vmulhu x => some (encVOp 0x11 5 x)
  | .vmacc x => some (encVOp 0x11 6 x)
  | .vdiv x => some (encVOp 0x11 7 x)
  | .vrem x => some (encVOp 0x11 8 x)
  | .vand x => some (encVOp 0x11 9 x)
  | .vor x => some (encVOp 0x11 0xA x)
  | .vxor x => some (encVOp 0x11 0xB x)
  | .vshl x => some (encVOp 0x11 0xC x)
  | .vshr x => some (encVOp 0x11 0xD x)
  | .vsar x => some (encVOp 0x11 0xE x)
  | .vmin x => some (encVOp 0x11 0xF x)
  | .vmax x => some (encVOp 0x11 0x10 x)
  | .vminu x => some (encVOp 0x11 0x11 x)
  | .vmaxu x => some (encVOp 0x11 0x12 x)
  | .vadds x => some (encVOp 0x11 0x13 x)
  | .vsubs x => some (encVOp 0x11 0x14 x)
  | .vabs x => some (encVUn 0x11 0x15 x)
  | .vcmp x => some (encVCmp x)
  | .vsel x => some (encVOp 0x11 0x17 x)
  | .vclz x => some (encVUn 0x11 0x18 x)
  | .vpopc x => some (encVUn 0x11 0x19 x)
  | .vfadd x => some (encVOp 0x12 1 x)
  | .vfsub x => some (encVOp 0x12 2 x)
  | .vfmul x => some (encVOp 0x12 3 x)
  | .vfma x => some (encVFma x)
  | .vfdiv x => some (encVOp 0x12 5 x)
  | .vfsqrt x => some (encVUn 0x12 6 x)
  | .vfmin x => some (encVOp 0x12 7 x)
  | .vfmax x => some (encVOp 0x12 8 x)
  | .vfcmp x => some (encVFcmp x)
  | .vfrcp x => some (encVUn 0x12 0xA x)
  | .vfrsq x => some (encVUn 0x12 0xB x)
  | .vfexp2 x => some (encVUn 0x12 0xC x)
  | .vflog2 x => some (encVUn 0x12 0xD x)
  | .vfsgn x => some (encVFsgn x)
  | .vfclass x => some (encVUn 0x12 0xF x)
  | .vcvt x => some (encVConv 1 x)
  | .vpk4 x => some (encVConv 2 x)
  | .vupk4 x => some (encVConv 3 x)
  | .vscl x => some (encVConv 4 x)
  | .vred x => some (encVRed x)
  | .vfred x => some (encVFRed x)
  | .vscan x => some (encVScan x)
  | .vfscan x => some (encVFScan x)
  | .vslup x => some (encVSlide 1 x)
  | .vsldn x => some (encVSlide 2 x)
  | .vgath x => some (encVOp 0x15 3 x)
  | .vcomp x => some (encVComp x)
  | .vexpd x => some (encVUn 0x15 5 x)
  | .vbshl x => some (encVBsh 6 x)
  | .vbshr x => some (encVBsh 7 x)
  | .vfnl x => some (encVFnl x)
  | .vmvs x => some (encVMvs x)
  | .vmvx x => some (encVMvx x)
  | .vid x => some (encVId x)
  | .vrev x => some (encVUn 0x15 0xC x)
  | .mand x => some (encM3 1 x)
  | .mor x => some (encM3 2 x)
  | .mxor x => some (encM3 3 x)
  | .mnot x => some (encM2 0x16 4 x)
  | .mandn x => some (encM3 5 x)
  | .mpop x => some (encMToS 6 x)
  | .mfirst x => some (encMToS 7 x)
  | .vspush x => some (encVSPush x)
  | .vspop x => some (encVSPop x)
  | .vchain x => some (encVChain x)
  | .vld x => some (encVMem 1 true x)
  | .vlds x => some (encVMemS 2 true x)
  | .vldg x => some (encVMemG 3 true x)
  | .vldx x => some (encVMemX 4 true x)
  | .vst x => some (encVMem 5 false x)
  | .vsts x => some (encVMemS 6 false x)
  | .vstg x => some (encVMemG 7 false x)
  | .vstx x => some (encVMemX 8 false x)
  | .vstxa x => some (encVMemX 9 false x)
  | .vldt x => some (encVMem 0xA true x)
  | .vstt x => some (encVMem 0xB false x)
  | .pdot x => some (encPDot x)
  | .acfg x => some (encACfg x)
  | .arel d => some (fr 0x20 2 d.val 0 0 0 0 0 0 0)
  | .azero d => some (fr 0x20 3 d.val 0 0 0 0 0 0 0)
  | .mma x => some (encMma x)
  | .ald x => some (encALoad x)
  | .ast x => some (encAStore x)
  | .arow x => some (encARow x)
  | .tlook x => some (fr 0x21 1 x.d.val x.a.val 0 0 0 0 0 0)
  | .ttag x => some (fr 0x21 2 x.d.val x.a.val x.b.val 0 0 0 0 0)
  | .tfill x => some (encTFill x)
  | .tdrain x => some (encTDrain x)
  | .twait x => some (fr 0x21 5 x.d.val x.a.val 0 0 0 0 0 0)
  | .trel a => some (fr 0x21 6 0 a.val 0 0 0 0 0 0)
  | .tstat x => some (fr 0x21 7 x.d.val x.a.val 0 0 0 0 0 0)
  | .cpy x => some (encCopy 1 x)
  | .cpy2 x => some (encCopy 2 x)
  | .cstat x => some (encCStat x)
  | .munion x => some (encMerge 1 x)
  | .minter x => some (encMerge 2 x)
  | .mcount x => some (encMCount x)
  | .dopen x => some (encDCmd 1 x)
  | .stow x => some (encStow x)
  | .dseal x => some (encDCmd 3 x)
  | .dquery x => some (fr 0x24 4 x.d.val x.a.val 0 0 0 0 0 0)
  | .reservedEncoding w => some w.toNat
  | .qgetWake _ | .qputWake _ | .waitWake _ | .wfeWake _ | .wfeTimeout _ | .vspushWake _ | .vspopWake _
  | .tileStallRelease _ | .convoyDeadlock _ | .mmaComplete _ | .pdotComplete _ | .nearBankAgeing _
  | .fillChunkComplete _ _ _ | .transferComplete _ _ | .transferFailure _ _ _ _ | .engineFaultAnswer _ _ _
  | .postedClosureStart _ | .hartEnd _ | .dispatchPlace | .preEmption _ | .restore _ | .orderLogEntryFill _ _
  | .hostLaunchWrite _ _ _ | .heldPacketEnqueue _ | .hostBar4Read _ _ _ | .hostBar4Write _ _ _
  | .createContext _ | .bindQueue _ | .grantRegion _ | .killContext _ | .invalidate _ | .readHart _
  | .resumeHart _ | .cacheFloor _ | .assignCluster _ | .powerLimit _ | .commandDone _ | .discardReset _ _
  | .registerWrite _ _ _ | .spdmGetVersion | .spdmGetCapabilities | .spdmNegotiateAlgorithms | .spdmGetDigests
  | .spdmGetCertificate _ | .spdmChallenge _ _ | .spdmGetMeasurements _ | .spdmUnsupported _ | .packageReset
  | .bootPhaseAdvance _ | .idleEntry | .idleWake | .powerRemoved | .thermalTrip | .clockStep _
  | .registerEccError _ _ | .dramEccError _ _ | .dramScrub _ _ | .verticalLinkFailure _ _ _ _
  | .translationReturn _ | .portDown _ | .fabricPacketArrival _ | .switchMarkerArrival _ _ _ _ | .fabricAck _ _
  | .remoteResponse _ _ | .fabricItemTimeout _ | .gangReserve _ _ _ _ _ _ _ | .gangAck _ _ | .gangBegin _ _
  | .gangTimeout _ | .gangAbort _ _ | .gangMemberFailure _ _ _ | .gangKill _ _ | .depotEraseDone _ _
  | .stowUnitDone _ _ | .depotSealDone _ _ | .depotCommandComplete _ | .stagingLineFill _ _ | .cacheRepartition
  | .ringVisit _ _ | .waybillMatch _ _ | .slotRequest _ _ _ | .slotGrant _ _ | .blockPush _ _
  | .switchFold _ _ _ _ | .blockPull _ _ _ | .parkedBlockResume _ _ _ | .waybillComplete _
  | .collectivePlaneLost _ | .collectivePeerFailed _ _ | .engineTranslationFault _ _ | .tlbParityError _ _
  | .class0MeteringWindow _ => none

/-! ### From words to instructions -/

/-- Bits `lo` to `lo + len - 1` of a word. -/
def fld (w lo len : Nat) : Nat := (w >>> lo) % 2 ^ len

def flag (w i : Nat) : Bool := fld w i 1 == 1

def fS (w lo : Nat) : SReg := Fin.ofNat 32 (fld w lo 5)
def fV (w lo : Nat) : VName := Fin.ofNat 32 (fld w lo 5)
def fM (w lo : Nat) : MName := Fin.ofNat 16 (fld w lo 4)
def fA (w lo : Nat) : AName := Fin.ofNat 8 (fld w lo 3)
def fC (w lo : Nat) : CName := Fin.ofNat 16 (fld w lo 4)
def fK (w lo : Nat) : KName := Fin.ofNat 8 (fld w lo 3)
def fQ (w lo : Nat) : QName := Fin.ofNat 8 (fld w lo 3)
def fSq (w lo : Nat) : SqName := Fin.ofNat 2 (fld w lo 1)
def fImm (w : Nat) : BitVec 32 := BitVec.ofNat 32 w
def fSrcAt (w lo : Nat) : Src := if flag w 47 then .imm (fImm w) else .reg (fS w lo)
def fVSrc (w : Nat) : VSrc :=
  if flag w 47 then .imm (fImm w) else if flag w 46 then .scalar (fS w 64) else .vec (fV w 64)
def fTarget (w : Nat) : Target := ⟨BitVec.ofNat 33 (w / 8), BitVec.ofNat 3 w⟩
def fType (w : Nat) : Option EType := typeOf (fld w 48 6)
def fAcq (w : Nat) : Option (Option Scope) :=
  if flag w 45 then (scopeOf (fld w 39 3)).map some else some none
def fRel (w : Nat) : Option (Option Scope) :=
  if flag w 44 then (scopeOf (fld w 39 3)).map some else some none
def fNb (w : Nat) : Option SReg := if flag w 32 then some (fS w 58) else none
def fShape (w lo : Nat) : Shape :=
  ⟨BitVec.ofNat 7 (w >>> (lo + 17)), BitVec.ofNat 6 (w >>> (lo + 11)), BitVec.ofNat 5 (w >>> (lo + 6)),
    BitVec.ofNat 5 (w >>> (lo + 1)), flag w lo⟩

def xSInt (w : Nat) : Option SInt := (widthOf (fld w 48 6)).map fun k => ⟨k, fS w 76, fS w 70, fSrcAt w 64⟩
def xSIntUn (w : Nat) : Option SIntUn := (widthOf (fld w 48 6)).map fun k => ⟨k, fS w 76, fS w 70⟩
def xSFp (w : Nat) : Option SFp := (fType w).map fun f => ⟨f, fS w 76, fS w 70, fSrcAt w 64⟩
def xSFpUn (w : Nat) : Option SFpUn := (fType w).map fun f => ⟨f, fS w 76, fS w 70⟩
def xLImm (w : Nat) : LImm := ⟨fS w 76, BitVec.ofNat 64 w⟩
def xLJump (w : Nat) : LJump := ⟨flag w 64, BitVec.ofNat 64 w⟩
def xVOp (w : Nat) : Option VOp := (fType w).map fun t => ⟨t, fV w 76, fV w 70, fVSrc w, fM w 54⟩
def xVUn (w : Nat) : Option VUn := (fType w).map fun t => ⟨t, fV w 76, fV w 70, fM w 54⟩
def xVConv (w : Nat) : Option VConv := do
  return ⟨← fType w, ← typeOf (fld w 32 6), fV w 76, fV w 70, fM w 54, fM w 41, flag w 40⟩
def xVMem (w lo : Nat) : Option VMem := (fType w).map fun t => ⟨t, fV w lo, fS w 70, fM w 54, flag w 45, fImm w⟩
def xVMemS (w lo : Nat) : Option VMemS :=
  (fType w).map fun t => ⟨t, fV w lo, fS w 70, fS w 64, fM w 54, flag w 45, fImm w⟩
def xVMemG (w lo : Nat) : Option VMemG :=
  (fType w).map fun t => ⟨t, fV w lo, fS w 70, fM w 54, flag w 45, BitVec.ofNat 3 (w >>> 39), fImm w⟩
def xVMemX (w lo : Nat) : Option VMemX :=
  (fType w).map fun t =>
    ⟨t, fV w lo, fS w 70, fV w 64, fM w 54, flag w 45, flag w 44, ixOf (fld w 42 2), fImm w⟩
def xVSlide (w : Nat) : Option VSlide := (fType w).map fun t => ⟨t, fV w 76, fV w 70, fSrcAt w 64, fS w 58, fM w 54⟩
def xVBsh (w : Nat) : Option VBsh := (fType w).map fun t => ⟨t, fV w 76, fV w 70, fSrcAt w 64, fM w 54⟩
def xLaunch (w : Nat) : Launch := ⟨fK w 76, fS w 70, fS w 64, fS w 58⟩
def xCsr (w : Nat) : Csr := ⟨fS w 76, BitVec.ofNat 12 w, fS w 70⟩
def xS3 (w : Nat) : S3 := ⟨fS w 76, fS w 70, fS w 64⟩
def xS2 (w : Nat) : S2 := ⟨fS w 76, fS w 70⟩
def xM3 (w : Nat) : M3 := ⟨fM w 76, fM w 70, fM w 64⟩
def xM2 (w : Nat) : M2 := ⟨fM w 76, fM w 70⟩
def xMToS (w : Nat) : MToS := ⟨fS w 76, fM w 70⟩
def xCopy (w : Nat) : Copy :=
  ⟨fK w 76, fS w 70, fS w 64, fS w 58, fM w 54, BitVec.ofNat 3 (w >>> 32), if flag w 4 then some (fC w 0) else none⟩
def xMerge (w : Nat) : Option Merge := (fType w).map fun t => ⟨t, fS w 76, fS w 70, flag w 32, flag w 33⟩
def xCl (w : Nat) : Option CName := if flag w 32 then some (fC w 54) else none
def xDCmd (w : Nat) : DCmd := ⟨fK w 76, fS w 70, xCl w⟩
def xStageSrc (w lo : Nat) : StageSrc := if flag w (lo + 6) then .scalar (fS w lo) else .vec (fV w lo)
def xStage (w lo : Nat) : Option Stage :=
  (stageOf (fld w (lo + 17) 5)).map fun o => ⟨o, xStageSrc w (lo + 10), xStageSrc w (lo + 3)⟩
/-- The first `n` of stages 2 to 4 of a continuation word. -/
def xMore (w : Nat) : Nat → Option (List Stage)
  | 0 => some []
  | 1 => do return [← xStage w 44]
  | 2 => do return [← xStage w 44, ← xStage w 22]
  | _ => do return [← xStage w 44, ← xStage w 22, ← xStage w 0]
def xVChain (w cont : Nat) : Option VChain := do
  return ⟨← fType w, ← stageOf (fld w 32 5), fV w 76, fV w 70, fVSrc w, fV w 58, fM w 54, ← xStage cont 66,
    ← xMore cont (fld cont 88 2)⟩

/-- Class 0x01 (R93). -/
def xScalar (w : Nat) : Nat → Option Instr
  | 0x01 => (xSInt w).map .add | 0x02 => (xSInt w).map .sub | 0x03 => (xSInt w).map .mul
  | 0x04 => (xSInt w).map .mulh | 0x05 => (xSInt w).map .mulhu | 0x06 => (xSInt w).map .div
  | 0x07 => (xSInt w).map .divu | 0x08 => (xSInt w).map .rem | 0x09 => (xSInt w).map .remu
  | 0x0A => (xSInt w).map .and | 0x0B => (xSInt w).map .or | 0x0C => (xSInt w).map .xor
  | 0x0D => (xSInt w).map .andn | 0x0E => (xSInt w).map .shl | 0x0F => (xSInt w).map .shr
  | 0x10 => (xSInt w).map .sar | 0x11 => (xSInt w).map .rot | 0x12 => (xSInt w).map .min
  | 0x13 => (xSInt w).map .max | 0x14 => (xSInt w).map .minu | 0x15 => (xSInt w).map .maxu
  | 0x16 => do return .set ⟨← widthOf (fld w 48 6), ← condOf (fld w 32 4), fS w 76, fS w 70, fSrcAt w 64⟩
  | 0x17 => do return .sel ⟨← widthOf (fld w 48 6), fS w 76, fS w 70, fSrcAt w 64, fS w 58⟩
  | 0x18 => (xSIntUn w).map .clz | 0x19 => (xSIntUn w).map .ctz | 0x1A => (xSIntUn w).map .popc
  | 0x1B => some (.bfx ⟨fS w 76, fS w 70, flag w 32, BitVec.ofNat 6 w, BitVec.ofNat 6 (w >>> 6)⟩)
  | 0x1C => some (.bfi ⟨fS w 76, fS w 70, fS w 58, BitVec.ofNat 6 w, BitVec.ofNat 6 (w >>> 6)⟩)
  | _ => none

/-- Class 0x03 (R99). -/
def xScalarFp (w : Nat) : Nat → Option Instr
  | 0x01 => (xSFp w).map .fadd | 0x02 => (xSFp w).map .fsub | 0x03 => (xSFp w).map .fmul
  | 0x04 => (fType w).map fun f => .fma ⟨f, fS w 76, fS w 70, fSrcAt w 64, fS w 58⟩
  | 0x05 => (xSFp w).map .fdiv | 0x06 => (xSFpUn w).map .fsqrt | 0x07 => (xSFp w).map .fmin
  | 0x08 => (xSFp w).map .fmax
  | 0x09 => (fType w).map fun f => .fset ⟨f, fcmpOf (fld w 32 2), fS w 76, fS w 70, fSrcAt w 64⟩
  | 0x0A => do return .fcvt ⟨← fType w, ← typeOf (fld w 32 6), fS w 76, fS w 70⟩
  | 0x0B => (xSFpUn w).map .fclass
  | 0x0C => do return .fsgn ⟨← fType w, ← fsgnOf (fld w 32 2), fS w 76, fS w 70, fS w 64⟩
  | _ => none

/-- Class 0x04 (R103). -/
def xBranch (w : Nat) : Nat → Option Instr
  | 1 => (condOf (fld w 52 6)).map fun c => .b ⟨c, fS w 76, fS w 70, fTarget w⟩
  | 2 => (condOf (fld w 52 6)).map fun c => .bi ⟨c, fS w 76, BitVec.ofNat 16 (w >>> 36), fTarget w⟩
  | 3 => some (.jmp (fTarget w)) | 4 => some (.call (fTarget w)) | 5 => some (.jmpr (fS w 76))
  | 6 => some (.callr (fS w 76)) | 7 => some .ret
  | 8 => some (.strip ⟨fS w 76, fS w 70, fS w 64, fS w 58, BitVec.ofNat 16 (w >>> 36), fTarget w⟩)
  | 9 => some (.vloopl ⟨fV w 76, fM w 64, fTarget w⟩)
  | 10 => (testOf (fld w 52 6)).map fun t => .bm ⟨t, fM w 76, fTarget w⟩
  | _ => none

/-- Class 0x05 (R108, R109, R112, R173). -/
def xScalarMem (w : Nat) : Nat → Option Instr
  | 1 => do return .ld ⟨← fType w, fS w 76, fS w 70, fSrcAt w 64, ← fAcq w⟩
  | 2 => do return .st ⟨← fType w, fS w 58, fS w 70, fSrcAt w 64, ← fRel w, flag w 43⟩
  | 3 => (pluralOf (fld w 41 4)).map fun o => .ldp ⟨o, fS w 76, fS w 70, fS w 64, flag w 45, fImm w⟩
  | 4 => some (.stp ⟨fS w 58, fS w 70, fS w 64, flag w 45, fImm w⟩)
  | 5 => (pluralOf (fld w 41 4)).map fun o => .pam ⟨o, fS w 58, fS w 70, fS w 64, flag w 45, fImm w⟩
  | 6 => do
    return .amo ⟨← fType w, ← amoOf (fld w 35 4), fS w 76, fS w 70, fS w 64, fS w 58, flag w 45, flag w 44,
      ← scopeOf (fld w 39 3)⟩
  | _ => none

/-- Class 0x06. -/
def xSync (w : Nat) : Nat → Option Instr
  | 1 => (scopeOf (fld w 39 3)).map fun s =>
      .fence ⟨s, ⟨flag w 32, flag w 33, flag w 34, flag w 35, flag w 36, flag w 37, flag w 38⟩⟩
  | 2 => (fType w).map fun t => .fsig ⟨t, fS w 70, fSrcAt w 64⟩
  | 3 => some .bar | 4 => some (.cbar ⟨fS w 70, fS w 64⟩) | 5 => some (.wait ⟨fS w 76, fK w 70, fSrcAt w 64⟩)
  | 6 => some (.kadd ⟨fK w 76, fSrcAt w 70⟩)
  | 7 => some (.qput ⟨fQ w 76, fSrcAt w 70, flag w 33, fNb w⟩)
  | 8 => some (.qget ⟨fS w 76, fQ w 70, fNb w⟩)
  | 9 => some (.launch (xLaunch w)) | 10 => some (.glaunch (xLaunch w)) | 11 => some (.yield (fS w 76))
  | 12 => some .exit
  | _ => none

/-- Class 0x07 (R231). -/
def xClosure (w : Nat) : Nat → Option Instr
  | 1 => some (.capture ⟨fC w 76, fS w 70, fImm w⟩) | 2 => some (.capref ⟨fC w 76, fS w 70, fS w 64, fImm w⟩)
  | 3 => some (.cdup (fC w 76) (fC w 70)) | 4 => some (.cdrop (fC w 70)) | 5 => some (.apply (fC w 70))
  | 6 => some (.applyq ⟨fC w 70, fK w 64, fS w 58⟩) | 7 => some (.cenv (fS w 76) (BitVec.ofNat 4 w))
  | 8 => some (if flag w 47 then .cld ⟨fC w 76, fS w 70, fImm w⟩ else .cldR (fC w 76) (fS w 70))
  | 9 => some (if flag w 47 then .cst ⟨fC w 58, fS w 70, fImm w⟩ else .cstR (fS w 76) (fC w 58))
  | _ => none

/-- Class 0x08 (R161, R252, R306, R331). -/
def xSystem (w : Nat) : Nat → Option Instr
  | 1 => some (.trap (BitVec.ofNat 16 w)) | 2 => some .eret | 3 => some (.csrr (xCsr w)) | 4 => some (.csrw (xCsr w))
  | 5 => some (.csrs (xCsr w)) | 6 => some (.csrc (xCsr w))
  | 7 => match fld w 32 2 with
    | 0 => some .tlbiAll
    | 1 => some (.tlbiAsid (fS w 64))
    | 2 => some (.tlbiVa ⟨fS w 70, fS w 64⟩)
    | _ => none
  | 8 => some (.ctxsave (xS3 w)) | 9 => some (.ctxload (xS3 w))
  | 10 => match fld w 32 2 with
    | 0 => some (.logctlSync ⟨flag w 34, fS w 76⟩)
    | 1 => some (.logctlMark (xS2 w))
    | 2 => some (.logctlSwap ⟨flag w 34, fS w 76, fS w 70, fS w 64⟩)
    | _ => none
  | 11 => some .halt | 12 => some (.wfe (xS3 w))
  | _ => none

/-- Class 0x10 (R115, R116, R121, R122). -/
def xVConfig (w : Nat) : Nat → Option Instr
  | 1 => some (.vcfg ⟨fS w 76, BitVec.ofNat 2 w, BitVec.ofNat 2 (w >>> 4)⟩)
  | 2 => some (.setvl ⟨fS w 76, fSrcAt w 70⟩) | 3 => some (.mcpt ⟨fM w 76, fSrcAt w 70⟩)
  | 4 => some (.mexp (xM2 w))
  | _ => none

/-- Class 0x11 (R124). -/
def xVInt (w : Nat) : Nat → Option Instr
  | 0x01 => (xVOp w).map .vadd | 0x02 => (xVOp w).map .vsub | 0x03 => (xVOp w).map .vmul
  | 0x04 => (xVOp w).map .vmulh | 0x05 => (xVOp w).map .vmulhu | 0x06 => (xVOp w).map .vmacc
  | 0x07 => (xVOp w).map .vdiv | 0x08 => (xVOp w).map .vrem | 0x09 => (xVOp w).map .vand
  | 0x0A => (xVOp w).map .vor | 0x0B => (xVOp w).map .vxor | 0x0C => (xVOp w).map .vshl
  | 0x0D => (xVOp w).map .vshr | 0x0E => (xVOp w).map .vsar | 0x0F => (xVOp w).map .vmin
  | 0x10 => (xVOp w).map .vmax | 0x11 => (xVOp w).map .vminu | 0x12 => (xVOp w).map .vmaxu
  | 0x13 => (xVOp w).map .vadds | 0x14 => (xVOp w).map .vsubs | 0x15 => (xVUn w).map .vabs
  | 0x16 => do return .vcmp ⟨← fType w, ← condOf (fld w 32 4), fM w 76, fV w 70, fVSrc w, fM w 54⟩
  | 0x17 => (xVOp w).map .vsel | 0x18 => (xVUn w).map .vclz | 0x19 => (xVUn w).map .vpopc
  | _ => none

/-- Class 0x12 (R125). -/
def xVFp (w : Nat) : Nat → Option Instr
  | 0x01 => (xVOp w).map .vfadd | 0x02 => (xVOp w).map .vfsub | 0x03 => (xVOp w).map .vfmul
  | 0x04 => (fType w).map fun t => .vfma ⟨t, fV w 76, fV w 70, fVSrc w, fV w 58, fM w 54⟩
  | 0x05 => (xVOp w).map .vfdiv | 0x06 => (xVUn w).map .vfsqrt | 0x07 => (xVOp w).map .vfmin
  | 0x08 => (xVOp w).map .vfmax
  | 0x09 => (fType w).map fun t => .vfcmp ⟨t, fcmpOf (fld w 32 2), fM w 76, fV w 70, fVSrc w, fM w 54⟩
  | 0x0A => (xVUn w).map .vfrcp | 0x0B => (xVUn w).map .vfrsq | 0x0C => (xVUn w).map .vfexp2
  | 0x0D => (xVUn w).map .vflog2
  | 0x0E => do return .vfsgn ⟨← fType w, ← fsgnOf (fld w 32 2), fV w 76, fV w 70, fVSrc w, fM w 54⟩
  | 0x0F => (xVUn w).map .vfclass
  | _ => none

/-- Class 0x13 (R127). -/
def xVConvs (w : Nat) : Nat → Option Instr
  | 1 => (xVConv w).map .vcvt | 2 => (xVConv w).map .vpk4 | 3 => (xVConv w).map .vupk4 | 4 => (xVConv w).map .vscl
  | _ => none

/-- Class 0x14 (R133). -/
def xReduce (w : Nat) : Nat → Option Instr
  | 1 => do return .vred ⟨← fType w, ← redOf (fld w 32 4), fS w 76, fV w 70, fS w 64, fM w 54⟩
  | 2 => do return .vfred ⟨← fType w, ← fredOf (fld w 32 4), fS w 76, fV w 70, fS w 64, fM w 54⟩
  | 3 => do return .vscan ⟨← fType w, ← redOf (fld w 32 4), flag w 36, fV w 76, fV w 70, fS w 64, fS w 58, fM w 54⟩
  | 4 => do return .vfscan ⟨← fType w, ← fredOf (fld w 32 4), flag w 36, fV w 76, fV w 70, fS w 64, fS w 58, fM w 54⟩
  | _ => none

/-- Class 0x15 (R138 to R142). -/
def xPermute (w : Nat) : Nat → Option Instr
  | 0x1 => (xVSlide w).map .vslup | 0x2 => (xVSlide w).map .vsldn | 0x3 => (xVOp w).map .vgath
  | 0x4 => (fType w).map fun t => .vcomp ⟨t, fV w 76, fV w 70, fS w 58, fM w 54⟩
  | 0x5 => (xVUn w).map .vexpd | 0x6 => (xVBsh w).map .vbshl | 0x7 => (xVBsh w).map .vbshr
  | 0x8 => (fType w).map fun t => .vfnl ⟨t, fV w 76, fV w 70, fV w 64, fS w 58, fM w 54⟩
  | 0x9 => (fType w).map fun t => .vmvs ⟨t, fS w 76, fV w 70, fSrcAt w 64⟩
  | 0xA => (fType w).map fun t => .vmvx ⟨t, fV w 76, fS w 70, fSrcAt w 64⟩
  | 0xB => (fType w).map fun t => .vid ⟨t, fV w 76, fS w 70, fImm w, fM w 54⟩
  | 0xC => (xVUn w).map .vrev
  | _ => none

/-- Class 0x16 (R123). -/
def xMaskOps (w : Nat) : Nat → Option Instr
  | 1 => some (.mand (xM3 w)) | 2 => some (.mor (xM3 w)) | 3 => some (.mxor (xM3 w)) | 4 => some (.mnot (xM2 w))
  | 5 => some (.mandn (xM3 w)) | 6 => some (.mpop (xMToS w)) | 7 => some (.mfirst (xMToS w))
  | _ => none

/-- Class 0x17 (R144, R145, R147). -/
def xStream (w cont : Nat) : Nat → Option Instr
  | 1 => (fType w).map fun t => .vspush ⟨t, fSq w 76, fS w 58, fV w 70, fM w 54⟩
  | 2 => (fType w).map fun t => .vspop ⟨t, fV w 76, fS w 58, fSq w 70, fM w 54, flag w 32⟩
  | 3 => (xVChain w cont).map .vchain
  | _ => none

/-- Class 0x18 (R178, R212). -/
def xVMemory (w : Nat) : Nat → Option Instr
  | 0x1 => (xVMem w 76).map .vld | 0x2 => (xVMemS w 76).map .vlds | 0x3 => (xVMemG w 76).map .vldg
  | 0x4 => (xVMemX w 76).map .vldx | 0x5 => (xVMem w 58).map .vst | 0x6 => (xVMemS w 58).map .vsts
  | 0x7 => (xVMemG w 58).map .vstg | 0x8 => (xVMemX w 58).map .vstx | 0x9 => (xVMemX w 58).map .vstxa
  | 0xA => (xVMem w 76).map .vldt | 0xB => (xVMem w 58).map .vstt
  | _ => none

/-- Class 0x20 (R71, R187, R198, R201). -/
def xMatrix (w : Nat) : Nat → Option Instr
  | 1 => some (.acfg ⟨fA w 76, fld w 48 6 == 3, BitVec.ofNat 7 w, BitVec.ofNat 7 (w >>> 8)⟩)
  | 2 => some (.arel (fA w 76)) | 3 => some (.azero (fA w 76))
  | 4 => (mmaOf (fld w 54 4)).map fun f =>
      .mma ⟨fA w 76, fV w 70, fV w 64, fS w 58, f, flag w 53, flag w 52, flag w 51, fShape w 24, fShape w 0⟩
  | 5 => (typeOf (fld w 24 6)).map fun t =>
      .ald ⟨fA w 76, fS w 70, fS w 64, t, BitVec.ofNat 5 (w >>> 6), BitVec.ofNat 5 (w >>> 1), flag w 0⟩
  | 6 => (typeOf (fld w 24 6)).map fun t =>
      .ast ⟨fA w 76, fS w 70, fS w 64, fS w 58, flag w 51, t, BitVec.ofNat 5 (w >>> 6), BitVec.ofNat 5 (w >>> 1),
        flag w 0⟩
  | 7 => some (.arow ⟨fV w 76, fA w 70, fld w 48 6 == 3, fSrcAt w 64, flag w 32⟩)
  | _ => none

/-- Class 0x21 (R207). -/
def xTiles (w : Nat) : Nat → Option Instr
  | 1 => some (.tlook (xS2 w)) | 2 => some (.ttag (xS3 w))
  | 3 => some (.tfill ⟨fK w 76, fS w 70, fS w 64, fS w 58, fM w 54⟩)
  | 4 => some (.tdrain ⟨fK w 76, fS w 70, fS w 64, fS w 58⟩) | 5 => some (.twait (xS2 w)) | 6 => some (.trel (fS w 70))
  | 7 => some (.tstat (xS2 w))
  | _ => none

/-- Class 0x22 (R218, R221). -/
def xCopies (w : Nat) : Nat → Option Instr
  | 1 => some (.cpy (xCopy w)) | 2 => some (.cpy2 (xCopy w))
  | 3 => some (.cstat ⟨fS w 76, fS w 58, fK w 70, flag w 32⟩)
  | _ => none

/-- Class 0x23 (R223). -/
def xMerges (w : Nat) : Nat → Option Instr
  | 1 => (xMerge w).map .munion | 2 => (xMerge w).map .minter
  | 3 => some (.mcount ⟨fS w 76, fS w 70, flag w 34, flag w 33⟩)
  | _ => none

/-- Class 0x24 (R337). -/
def xDepot (w : Nat) : Nat → Option Instr
  | 1 => some (.dopen (xDCmd w)) | 2 => some (.stow ⟨fK w 76, fS w 70, fS w 64, fS w 58, xCl w⟩)
  | 3 => some (.dseal (xDCmd w)) | 4 => some (.dquery (xS2 w))
  | _ => none

/-- The instruction whose fields a word spells, before any check. -/
def extract (w cont : Nat) : Option Instr :=
  let op := fld w 82 8
  match fld w 90 6 with
  | 0x00 => some .nop
  | 0x01 => xScalar w op
  | 0x02 => match op with
    | 1 => some (.li (xLImm w))
    | 2 => some (.lpc (xLImm w))
    | 3 => some (.jmpl (xLJump w))
    | 4 => some (.calll (xLJump w))
    | _ => none
  | 0x03 => xScalarFp w op
  | 0x04 => xBranch w op
  | 0x05 => xScalarMem w op
  | 0x06 => xSync w op
  | 0x07 => xClosure w op
  | 0x08 => xSystem w op
  | 0x10 => xVConfig w op
  | 0x11 => xVInt w op
  | 0x12 => xVFp w op
  | 0x13 => xVConvs w op
  | 0x14 => xReduce w op
  | 0x15 => xPermute w op
  | 0x16 => xMaskOps w op
  | 0x17 => xStream w cont op
  | 0x18 => xVMemory w op
  | 0x19 => if op = 1 then
      (fType w).map fun t => .pdot ⟨t, fV w 76, fV w 70, fS w 64, fS w 58, BitVec.ofNat 8 (w >>> 32),
        BitVec.ofNat 16 (w >>> 16), BitVec.ofNat 16 w⟩
    else none
  | 0x20 => xMatrix w op
  | 0x21 => xTiles w op
  | 0x22 => xCopies w op
  | 0x23 => xMerges w op
  | 0x24 => xDepot w op
  | _ => none

/-- Does a `vchain` spell its continuation word; every other instruction has none. -/
def contOk (i : Instr) (cont : Nat) : Bool :=
  match i with
  | .vchain x => encodeCont x == cont
  | _ => true

/-- The instruction of a word; `cont` is the word of the next slot, which only `vchain` reads (R77). A word that is no
instruction is `reservedEncoding` (R76, R85). -/
def decode (w cont : IWord) : Instr :=
  match extract w.toNat cont.toNat with
  | none => .reservedEncoding w
  | some i => if encodeWord i == some w.toNat && i.wf && contOk i cont.toNat then i else .reservedEncoding w

/-- The words of a well-formed instruction: one, or two for `vchain`. -/
def encode (i : Instr) : List IWord :=
  match i, encodeWord i with
  | .vchain x, some n => [BitVec.ofNat 96 n, BitVec.ofNat 96 (encodeCont x)]
  | _, some n => [BitVec.ofNat 96 n]
  | _, none => []

/-- The instruction read from `nbits` table bits: bits 95:0 are the first word and bits 191:96 the next slot's. -/
def decodeTableWord (nbits w : Nat) : Option Instr :=
  let v := w % 2 ^ nbits
  some (decode (BitVec.ofNat 96 v) (BitVec.ofNat 96 (v >>> 96)))

end Sys2Proof
end

