-- ==== Sys2Proof/Machine/Fetch.lean ====
section
/-! DEFINITION. Fetching a unit: the line word and its checks (R60 to R62, R77), the registers that a word's fields say it
writes (R64), and what stands at a pc. -/

namespace Sys2Proof.Machine

/-! ### What an instruction writes (R64) -/

/-- A register for the first rule of R64. -/
inductive Dest where
  | s (r : Nat)
  | v (r : Nat)
  | m (r : Nat)
  | acc (r : Nat)
  | c (r : Nat)
  | sc
  | vl
  deriving DecidableEq, Repr

def wordClass (w : IWord) : Nat := field w.toNat 90 6
def wordOp (w : IWord) : Nat := field w.toNat 82 8

/-- The scalar, mask, accumulator or closure register that the 6-bit field at `lo` names; a value outside the class's
range (R73) names none, and `s0` and `m0` discard what is written. -/
def namesS (w : IWord) (lo : Nat) : List Dest :=
  let r := field w.toNat lo 6
  if r = 0 || 32 ≤ r then [] else [.s r]
def namesM (w : IWord) (lo width : Nat) : List Dest :=
  let r := field w.toNat lo width
  if r = 0 || 16 ≤ r then [] else [.m r]
def namesAcc (w : IWord) (lo : Nat) : List Dest :=
  let r := field w.toNat lo 6
  if 8 ≤ r then [] else [.acc r]
def namesC (w : IWord) (lo : Nat) : List Dest :=
  let r := field w.toNat lo 6
  if 16 ≤ r then [] else [.c r]
/-- The vector field at `lo` as a group of `n` registers. -/
def namesV (n : Nat) (w : IWord) (lo : Nat) : List Dest :=
  let r := field w.toNat lo 6
  if 32 ≤ r then [] else (List.range n).map fun k => .v (r + k)

/-- The last operation of a class that a pair may hold (R84 to R86). -/
def lastOp (w : IWord) : Nat :=
  match wordClass w with
  | 0x01 => 0x1C | 0x02 => 4 | 0x03 => 0xC | 0x04 => 0xA | 0x05 => 6 | 0x07 => 9 | 0x10 => 4 | 0x11 => 0x19
  | 0x12 => 0xF | 0x13 => 4 | 0x14 => 4 | 0x15 => 0xC | 0x16 => 7 | 0x18 => 0xB | 0x19 => 1 | 0x20 => 7
  | 0x21 => 7 | 0x22 => 3 | 0x23 => 3 | 0x24 => 4 | _ => 0

/-- The registers that a word's CLASS, OP and register fields say it writes, its other fields unchecked (R64, R87 step 1;
log 31): the form bits I of `cst` and W and NF of a group's size are read as they stand. Under `k` with GRP = 0 it gives
those written under any `vtype`. A word that no pair may contain lists none. -/
def dests (k : Convoy) (w : IWord) : List Dest :=
  let g := k.grpRegs
  let op := wordOp w
  let d := namesS w 76
  let vd := namesV g w 76
  if op = 0 || lastOp w < op then [] else
  match wordClass w with
  | 0x01 => d
  | 0x02 => if op = 3 then [] else if op = 4 then [.s 31] else d
  | 0x03 => d
  | 0x04 => match op with
    | 4 | 6 => [.s 31]
    | 8 => .sc :: (namesS w 76 ++ namesS w 70 ++ namesS w 64 ++ namesS w 58)
    | 9 => namesV g w 76 ++ namesM w 64 6
    | _ => []
  | 0x05 => if op = 1 || op = 3 || op = 6 then d else []
  | 0x07 => match op with
    | 1 | 2 | 3 | 8 => namesC w 76
    | 4 => namesC w 70
    | 5 => [.s 31]
    | 7 => d
    | 9 => if bit w.toNat 47 then [] else d
    | _ => []
  | 0x10 => if op = 2 then .vl :: d else if op = 3 || op = 4 then namesM w 76 6 else []
  | 0x11 => if op = 0x16 then namesM w 76 6 else vd
  | 0x12 => if op = 9 then namesM w 76 6 else vd
  | 0x13 => namesV (match typeOf (field w.toNat 48 6) with
    | some t => sideRegs k (tBits t)
    | none => 1) w 76 ++ namesM w 41 4
  | 0x14 => if op ≤ 2 then d else vd ++ namesS w 58
  | 0x15 => if op = 4 then vd ++ namesS w 58 else if op = 9 then d else vd
  | 0x16 => if op = 6 || op = 7 then d else namesM w 76 6
  | 0x18 => match op with
    | 1 | 2 | 4 | 0xA => vd
    | 3 => namesV (g * (field w.toNat 39 3 + 1)) w 76
    | _ => []
  | 0x19 => namesV 1 w 76
  | 0x20 => if op ≤ 5 then namesAcc w 76 else if op = 7 then namesV 1 w 76 else []
  | 0x21 => match op with
    | 1 | 2 | 5 | 7 => d
    | 3 => namesM w 54 4
    | _ => []
  | 0x22 => if op = 3 then d ++ namesS w 58 else namesM w 54 4
  | 0x23 => d
  | 0x24 => if op = 4 then d else []
  | _ => []

/-! ### The line word (R60 to R62, R77) -/

/-- The control transfers of R86 that a pair may hold, by CLASS and OP. -/
def isTransfer (w : IWord) : Bool :=
  let op := wordOp w
  match wordClass w with
  | 0x02 => op == 3 || op == 4
  | 0x04 => decide (1 ≤ op) && decide (op ≤ 0xA)
  | 0x07 => op == 5
  | _ => false

/-- Population count of the low `n` bits, modulo 2 (R61). -/
def oddBits : Nat → Nat → Bool
  | 0, _ => false
  | n + 1, v => (v % 2 == 1) != oddBits n (v / 2)

/-- Words that no pair may contain (R65). -/
def noPair (w : IWord) : Bool :=
  let c := wordClass w
  c == 0x06 || c == 0x08 || c == 0x17 || c == 0x3F || (c == 0x10 && wordOp w == 1)

/-- Is the word a `vchain`? -/
def isChain (w : IWord) : Bool := wordClass w == 0x17 && wordOp w == 3

/-- Do two instructions write one register (R64)? -/
def conflict (k : Convoy) (a b : IWord) : Bool :=
  (dests k a).any fun d => (dests k b).contains d

/-- A pair that breaks R64 or R65 under every `vtype`, judged before the fields of its words are checked (R87, log 31:
DEDUCED). -/
def pairBad (k : Convoy) (a b : IWord) : Bool :=
  noPair a || noPair b || isTransfer a || conflict { k with grp := 0, ew := 3 } a b

/-- The rules of R62 for a whole line: `w` gives its words. -/
def lineBad (k : Convoy) (w : Nat → IWord) (lw : Nat) : Bool :=
  let pair (j : Nat) := decide (j < 4) && bit lw (18 + j)
  let bt (j : Nat) := bit lw (22 + j)
  field lw 27 5 != 0 || field lw 0 12 != 0
    || ((List.range 3).any fun j => pair j && pair (j + 1))
    || ((List.range 4).any fun j => pair j && (bt (j + 1) || pairBad k (w j) (w (j + 1))))
    || ((List.range 5).any fun j => isChain (w j)
      && (j == 4 || bt (j + 1) || pair j || pair (j + 1) || (decide (0 < j) && pair (j - 1))))

/-- What a line holds at a slot. -/
inductive LineUnit where
  | one (i : Instr)
  | pair (i j : Instr)
  /-- A fault of the line: its cause, whether it is one of a pair, and whether it has the line's address. -/
  | bad (cause : BitVec 8) (paired addr : Bool)
  deriving DecidableEq, Repr

/-- The unit at slot `k` of a line, after the checks of R61 and R62 in their order. -/
def lineUnit (c : Convoy) (w : Nat → IWord) (lw k : Nat) : LineUnit :=
  let sp (j : Nat) : Bool := oddBits 97 ((w j).toNat * 2 + b2n (bit lw (13 + j)))
  let paired := decide (k < 4) && bit lw (18 + k)
  if oddBits 20 (field lw 12 20) then .bad 0x14 false true
  else if lineBad c w lw then .bad 0x02 false false
  else if paired && conflict c (w k) (w (k + 1)) then .bad 0x02 true false
  else if sp k || ((paired || isChain (w k)) && sp (k + 1)) then .bad 0x14 paired true
  else if paired then .pair (decode (w k) 0) (decode (w (k + 1)) 0)
  else .one (decode (w k) (if k < 4 then w (k + 1) else 0))

/-- Word `j` of the line at a key, as the hart's fetch sees it (R59). -/
def slotWord (h : Hart) (key : Line) (j : Nat) : IWord := BitVec.ofNat 96 (lineBits h key / 2 ^ (96 * j))

/-- The unit at the hart's pc, or the fault of reaching it; a failed fetch gives its cause and the line's address. -/
def fetchUnit (s : State) : LineUnit × State :=
  let h := s.hart
  match fetchLine (lineOf h.pc) s with
  | .error c s' => (.bad c false true, s')
  | .ok key s' => (lineUnit s.convoy (slotWord h key) (lineWord h key) (slotOf h.pc), s')

end Sys2Proof.Machine
end

