-- ==== Sys2Proof/Machine/Plural.lean ====
section
/-! DEFINITION. Plural accesses: `ldp`, `stp` and `pam` (R173 to R177). -/

namespace Sys2Proof.Machine

/-- The banks of a set, ascending (R173). -/
def bankSet (set : Word) : List Nat := (List.range 32).filter fun b => set.getLsbD b

/-- Virtual address of bank `b`'s word (R174). -/
def bankVa (base : Word) (banked : Bool) (b : Nat) : Word :=
  base + BitVec.ofNat 64 (b * if banked then 2 ^ 25 else 32)

/-- R174, steps 1 and 2, for bank `b`. -/
def bankLoc (acc : Acc) (base : Word) (banked : Bool) (b : Nat) : M Loc := do
  let va := bankVa base banked b
  if va.toNat % 4 ≠ 0 ∨ (!banked && field base.toNat 5 5 != 0) then
    throw (.trap { cause := 0x05, addr := some va, bank := some b })
  match ← locate .plural acc va 4 none (some b) with
  | .local_ l => pure l
  | .remote => throw (.trap { cause := 0x09, addr := some va, bank := some b })

/-- R174, step 3: the page's kind, the bank, and the vault of the lowest bank's word. -/
def bankMatches (banked : Bool) (low : Loc) (b : Nat) (l : Loc) : Bool :=
  l.banked == banked && stripedBank (l.key % 2 ^ 30) == b && l.key / 2 ^ 30 == low.key / 2 ^ 30

def bankCheck (acc : Acc) (base : Word) (banked : Bool) (low : Loc) (b : Nat) : M Loc := do
  let l ← bankLoc acc base banked b
  if bankMatches banked low b l then pure l
  else throw (.trap { cause := 0x0A, addr := some (bankVa base banked b), bank := some b })

/-- Check banks in order up to the first that fails: what was checked, and the failure. -/
def bankScan (check : Nat → M Loc) : List Nat → M (List (Nat × Loc) × Option (Nat × Trap))
  | [] => pure ([], none)
  | b :: t => fun s =>
    match check b s with
    | .ok l s' =>
      (match bankScan check t s' with
      | .ok (ls, f) s'' => .ok ((b, l) :: ls, f) s''
      | .error e s'' => .error e s'')
    | .error (.trap tr) s' => .ok ([], some (b, tr)) s'
    | .error e s' => .error e s'

/-- Reserve the ordering-log entries of all the bank words at once (R330). -/
def logBanks (kind : Nat) (base : Word) (banked : Bool) (ls : List (Nat × Loc)) : M Unit :=
  logAccesses true ((ls.filter fun p => p.2.log).map fun p => (kind, p.1, bankVa base banked p.1))

/-- A data error of a bank word: its cause has no BANK field, and a link failure names the bank's number as its element
(R152, log 64). -/
def bankTrap (cause : BitVec 8) (base : Word) (banked : Bool) (b : Nat) : Trap :=
  { accessTrap cause (bankVa base banked b) none (some b) with bank := none }

/-- Raise a memory data error of a bank word (R155). -/
def bankData (base : Word) (banked : Bool) (b : Nat) (l : Loc) : M Unit := do
  match dataError (← get) l.key with
  | some c => throw (.trap (bankTrap c base banked b))
  | none => pure ()

/-- Raise the failure of a vault that is cut off (R312) at a bank word to be stored. -/
def bankFence (base : Word) (banked : Bool) (b : Nat) (l : Loc) : M Unit := do
  if ((← get).coreOf (l.key / 2 ^ 30)).fenced then throw (.trap (bankTrap 0x15 base banked b))

/-- Wait for what must perform at a bank word before (R281, R330). -/
def bankWait (l : Loc) : M Unit := do
  awaitOwn l
  awaitLogged l

/-! ### `ldp` -/

/-- One FP32 sum of the tree of R52: an empty side is skipped. -/
def treeAdd (t : EType) (x y : Option (Nat × Flags)) : Option (Nat × Flags) :=
  match x, y with
  | none, y => y
  | x, none => x
  | some a, some b =>
    let r := fAddRne t a.1 b.1
    some (r.1, a.2 ||| b.2 ||| r.2)

/-- The pairwise tree over 32 partial values (R52): `d` = 16, 8, 4, 2, 1. -/
def treeFold (t : EType) (ps : List (Option (Nat × Flags))) : Option (Nat × Flags) :=
  let half (d : Nat) (xs : List (Option (Nat × Flags))) : List (Option (Nat × Flags)) :=
    List.zipWith (treeAdd t) (xs.take d) (xs.drop d)
  ((half 1 (half 2 (half 4 (half 8 (half 16 ps))))).getD 0 none)

/-- A combine of two words (R173); `fadd` has its own order. -/
def pluralCombine (op : PluralOp) (a b : Nat) : Nat × Flags :=
  match op with
  | .add => ((a + b) % 2 ^ 32, 0)
  | .min => (minS 32 a b, 0)
  | .max => (maxS 32 a b, 0)
  | .minu => (min a b, 0)
  | .maxu => (max a b, 0)
  | .fmin => fMinMax .f32 false a b
  | .fmax => fMinMax .f32 true a b
  | .and => (a &&& b, 0)
  | .or => (a ||| b, 0)
  | .xor => (a ^^^ b, 0)
  | .swap => (b, 0)
  | .fadd => fAddRne .f32 a b

/-- NV for a signalling NaN among the words of a floating combine (R176). -/
def ldpSig (op : PluralOp) (ws : List (Nat × Nat)) : Flags :=
  match op with
  | .fadd | .fmin | .fmax => sigFlags (ws.map fun (p : Nat × Nat) => fDecode .f32 p.2)
  | _ => 0

/-- The words of a set combined, `(bank, word)` each (R54, R176): an empty set gives 0, and one word is moved. -/
def ldpCombine (op : PluralOp) (ws : List (Nat × Nat)) : Nat × Flags :=
  let r := match op with
    | .fadd => (treeFold .f32 ((List.range 32).map fun b => (mget ws b).map fun w => (w, (0 : Flags)))).getD (0, 0)
    | _ => match ws with
      | [] => (0, 0)
      | (_, w) :: t => t.foldl (fun (acc : Nat × Flags) (p : Nat × Nat) =>
          let r := pluralCombine op acc.1 p.2
          (r.1, acc.2 ||| r.2)) (w, 0)
  (r.1, r.2 ||| ldpSig op ws)

/-- R176. -/
def ldpExtend (op : PluralOp) (v : Nat) : Word :=
  match op with
  | .add | .min | .max => sext 32 v
  | _ => BitVec.ofNat 64 v

def opLdp (x : PLoad) : M Ctl := do
  let base := (← readS x.a) + simm x.off
  let banks := bankSet (← readS x.b)
  match banks with
  | [] => writeS x.d 0
  | b0 :: _ => do
    let low ← bankLoc .load base x.banked b0
    let (ls, bad) ← bankScan (bankCheck .load base x.banked low) banks
    match bad with
    | some (_, t) => throw (.trap t)
    | none => do
      ls.forM fun p => flushGranule p.2.key
      ls.forM fun p => bankWait p.2
      ls.forM fun p => bankData base x.banked p.1 p.2
      logBanks 4 base x.banked ls
      ls.forM fun p => meter p.2.key 4
      let s ← get
      let r := ldpCombine x.op (ls.map fun p => (p.1, memReadN s.mem p.2.key 4))
      writeS x.d (ldpExtend x.op r.1)
      addFlags r.2
  pure .next

/-! ### `stp` and `pam` -/

def Hart.setBstart (n : Nat) (h : Hart) : Hart :=
  { h with csr := { h.csr with bstart := BitVec.ofNat 5 n } }

/-- Stop at bank `b` (R175). -/
def bankStop {α : Type} (b : Nat) (t : Trap) : M α := do
  modHart (Hart.setBstart b)
  throw (.trap t)

/-- Perform the checked banks in order; a data error stops at its bank (R175). -/
def bankRun (perform : Nat → Loc → M Unit) : List (Nat × Loc) → M Unit
  | [] => pure ()
  | (b, l) :: t => fun s =>
    match perform b l s with
    | .ok _ s' => bankRun perform t s'
    | .error (.trap tr) s' => bankStop b tr s'
    | .error e s' => .error e s'

/-- The lowest bank's word, for the comparison of R174. Resumed at a higher bank `b1`, that bank's form and translation
are judged first; a failure of the lowest bank's own translation then leaves `bstart`. -/
def bankLowest (base : Word) (banked : Bool) (b0 b1 : Nat) : M Loc := fun s =>
  let stopAt (b : Nat) (r : EStateM.Result Stop State Loc) : EStateM.Result Stop State Loc := match r with
    | .error (.trap t) s' => bankStop b t s'
    | r => r
  if b0 = b1 then stopAt b0 (bankLoc .store base banked b0 s)
  else match stopAt b1 (bankLoc .store base banked b1 s) with
    | .ok _ s' => bankLoc .store base banked b0 s'
    | r => r

/-- The bank loop of R175 from `bstart`: the banks are checked in order, `ready` last, up to the first that fails; the
entries of those that will perform are reserved at once (R330), and they perform; only banks below `upTo`. -/
def bankLoop (kind : Nat) (base set : Word) (banked : Bool) (upTo : Nat) (ready perform : Nat → Loc → M Unit) :
    M Ctl := do
  let h ← getHart
  let start := h.csr.bstart.toNat
  let banks := bankSet set
  match banks.filter fun b => decide (start ≤ b) && decide (b < upTo) with
  | [] => modHart (Hart.setBstart 0)
  | b1 :: todo => do
    let low ← bankLowest base banked (banks.headD b1) b1
    let (ls, bad) ← bankScan (fun b => do
      let l ← bankCheck .store base banked low b
      ready b l
      pure l) (b1 :: todo)
    logBanks kind base banked ls
    bankRun perform ls
    match bad with
    | some (b, t) => bankStop b t
    | none => modHart (Hart.setBstart 0)
  pure .next

/-- `stp` for the banks below `n`. -/
def opStpTo (n : Nat) (x : PStore) : M Ctl := flushBefore do
  let base := (← readS x.a) + simm x.off
  let set ← readS x.b
  let c ← readS x.c
  let ready (b : Nat) (l : Loc) : M Unit := do
    flushGranule l.key
    bankWait l
    bankFence base x.banked b l
  bankLoop 5 base set x.banked n ready fun _ l => do
    meter l.key 4
    modify (pokeN l.key 4 (c.toNat % 2 ^ 32))

/-- R175. -/
def opStp (x : PStore) : M Ctl := opStpTo 32 x

/-- The new word of a `pam` (R173, R175): no flag. -/
def pamNew (op : PluralOp) (old c : Nat) : Nat := (pluralCombine op old c).1

/-- `pam` for the banks below `n`. -/
def opPamTo (n : Nat) (x : PAtomic) : M Ctl := flushBefore do
  let base := (← readS x.a) + simm x.off
  let set ← readS x.b
  let c := (← readS x.c).toNat % 2 ^ 32
  let det := (← getHart).det && x.op == .fadd
  let ready (b : Nat) (l : Loc) : M Unit := do
    if det then deferRoom (bankSet set).length
    else do
      flushGranule l.key
      bankWait l
      bankData base x.banked b l
  bankLoop 5 base set x.banked n ready fun b l => do
    if det then deferLocal l (bankVa base x.banked b) .f32 c 5 b
    else do
      meter l.key 4
      modify fun s => pokeN l.key 4 (pamNew x.op (memReadN s.mem l.key 4) c) s

/-- R175. -/
def opPam (x : PAtomic) : M Ctl := opPamTo 32 x

/-! ### Meanings: one per instruction -/

/-- LDP. -/
def execLdp (x : PLoad) (s : State) : Host.Outcome State Fault Refusal := runUnit (opLdp x) s

/-- STP. -/
def execStp (x : PStore) (s : State) : Host.Outcome State Fault Refusal := runUnit (opStp x) s

/-- PAM. -/
def execPam (x : PAtomic) (s : State) : Host.Outcome State Fault Refusal := runUnit (opPam x) s

end Sys2Proof.Machine
end

