-- ==== Sys2Proof/Machine/Reduce.lean ====
section
/-! DEFINITION. Class 0x14, reductions and scans (R133 to R136), each performed whole: a poisoned active element stops it
before anything is written. -/

namespace Sys2Proof.Machine

/-- The active elements, none of them poisoned (R136). -/
def wholeActive (a : VName) (w : Nat) (m : MName) : M (List Nat) := do
  checkPred m
  let c ← getConvoy
  let h ← getHart
  let is := activeRange h c.ewBytes m
  match is.find? fun i => h.elemPoisoned a w i with
  | some e => raiseElem 0x14 e
  | none => pure is

/-- An integer operator of R133. -/
def redOp (op : RedOp) (w a b : Nat) : Nat :=
  match op with
  | .add => (a + b) % 2 ^ w
  | .min => minS w a b
  | .max => maxS w a b
  | .minu => min a b
  | .maxu => max a b
  | .and => a &&& b
  | .or => a ||| b
  | .xor => a ^^^ b

/-- A floating operator of R133, in RNE. -/
def fredOp (op : FRedOp) (t : EType) (a b : Nat) : Nat × Flags :=
  match op with
  | .fadd => fAddRne t a b
  | .fmin => fMinMax t false a b
  | .fmax => fMinMax t true a b

/-- The per-lane folds of R52: element `i` of `eb` bytes folds into lane ⌊i·eb / 32⌋ mod 32. -/
def laneFold (t : EType) (xs : List (Nat × Nat)) : List (Option (Nat × Flags)) :=
  (List.range 32).map fun lane =>
    (xs.filter fun p => p.1 * tBytes t / 32 % 32 == lane).foldl
      (fun acc p => treeAdd t acc (some (p.2, 0))) none

/-- The sum of R52 over `(element, value)`, with the initial value; no element leaves it unchanged. -/
def redSum (t : EType) (init : Nat) (xs : List (Nat × Nat)) : Nat × Flags :=
  match treeFold t (laneFold t xs) with
  | none => (init, 0)
  | some p =>
    let r := fAddRne t init p.1
    (r.1, p.2 ||| r.2)

/-- Fold with flags. -/
def foldFlags (f : Nat → Nat → Nat × Flags) (init : Nat) (xs : List Nat) : Nat × Flags :=
  xs.foldl (fun acc x =>
    let r := f acc.1 x
    (r.1, acc.2 ||| r.2)) (init, 0)

/-- R134, R52. -/
def fredFold (op : FRedOp) (t : EType) (init : Nat) (xs : List (Nat × Nat)) : Nat × Flags :=
  match op with
  | .fadd => redSum t init xs
  | _ => foldFlags (fredOp op t) init (xs.map Prod.snd)

def opVred (x : VRed) : M Ctl := do
  let w := tBits x.t
  checkVec x.t [x.a]
  let init := (← readS x.b).toNat % 2 ^ w
  let is ← wholeActive x.a w x.m
  let h ← getHart
  let r := is.foldl (fun acc i => redOp x.op w acc (h.elem x.a w i)) init
  modHart (Hart.setVstart 0)
  writeS x.d (extendTo x.t r)
  pure .next

def opVfred (x : VFRed) : M Ctl := do
  let w := tBits x.t
  checkVec x.t [x.a]
  let init := (← readS x.b).toNat % 2 ^ w
  let is ← wholeActive x.a w x.m
  let h ← getHart
  let r := fredFold x.op x.t init (is.map fun i => (i, h.elem x.a w i))
  modHart (Hart.setVstart 0)
  writeS x.d (BitVec.ofNat 64 r.1)
  addFlags r.2
  pure .next

/-- The running values of R135: `(element, written value)`, the final value and the flags. -/
def scanGo (f : Nat → Nat → Nat × Flags) (excl : Bool) : List (Nat × Nat) → Nat → List (Nat × Nat) × Nat × Flags
  | [], run => ([], run, 0)
  | (i, x) :: t, run =>
    let r := f run x
    let rest := scanGo f excl t r.1
    ((i, if excl then run else r.1) :: rest.1, rest.2.1, r.2 ||| rest.2.2)

/-- Write elements `(i, value)` of a group. -/
def Hart.setElems (d : VName) (w : Nat) (ws : List (Nat × Nat)) (h : Hart) : Hart :=
  ws.foldl (fun g p => g.setElem d w p.1 p.2) h

def scanWith (f : Nat → Nat → Nat × Flags) (t : EType) (excl : Bool) (d a : VName) (b c : SReg) (m : MName) : M Ctl := do
  let w := tBits t
  checkVec t [d, a]
  let init := (← readS b).toNat % 2 ^ w
  let is ← wholeActive a w m
  let h ← getHart
  let r := scanGo f excl (is.map fun i => (i, h.elem a w i)) init
  modHart fun h => (h.setElems d w r.1).setVstart 0
  writeS c (extendTo t r.2.1)
  addFlags r.2.2
  pure .next

def opVscan (x : VScan) : M Ctl :=
  scanWith (fun p q => (redOp x.op (tBits x.t) p q, 0)) x.t x.excl x.d x.a x.b x.c x.m

def opVfscan (x : VFScan) : M Ctl := scanWith (fredOp x.op x.t) x.t x.excl x.d x.a x.b x.c x.m

/-! ### Meanings: one per instruction -/

/-- VRED. -/
def execVred (x : VRed) (s : State) : Host.Outcome State Fault Refusal := runUnit (opVred x) s

/-- VFRED. -/
def execVfred (x : VFRed) (s : State) : Host.Outcome State Fault Refusal := runUnit (opVfred x) s

/-- VSCAN. -/
def execVscan (x : VScan) (s : State) : Host.Outcome State Fault Refusal := runUnit (opVscan x) s

/-- VFSCAN. -/
def execVfscan (x : VFScan) (s : State) : Host.Outcome State Fault Refusal := runUnit (opVfscan x) s

end Sys2Proof.Machine
end

