-- ==== Sys2Proof/Machine/NearBank.lean ====
section
/-! DEFINITION. The near-bank unit: `pdot` (R184 to R186), and exact block sums (R57), which the matrix unit shares. -/

namespace Sys2Proof.Machine

/-! ### Exact block sums (R57) -/

/-- The sum so far of a block's products. -/
structure BlockSum where
  nan : Bool
  pinf : Bool
  ninf : Bool
  sum : Int
  /-- Weight of the unit of `sum`. -/
  exp : Int
  /-- Is every product so far -0? -/
  negZero : Bool
  any : Bool
  deriving DecidableEq, Repr

def BlockSum.empty : BlockSum := ⟨false, false, false, 0, 0, true, false⟩

/-- Add one product; none is 0 times infinity. -/
def BlockSum.add (b : BlockSum) (p : Option FVal) : BlockSum :=
  match p with
  | none => { b with nan := true, negZero := false, any := true }
  | some (.nan _) => { b with nan := true, negZero := false, any := true }
  | some (.inf n) =>
    { b with pinf := b.pinf || !n, ninf := b.ninf || n, negZero := false, any := true }
  | some (.fin n m e) =>
    let lo := min b.exp e
    { b with
      sum := alignTo (decide (b.sum < 0)) b.sum.natAbs b.exp lo + alignTo n m e lo
      exp := lo
      negZero := b.negZero && n && m == 0
      any := true }

/-- The exact sum P of the block and its NV (R57). -/
def BlockSum.value (b : BlockSum) : FVal × Flags :=
  if b.nan || (b.pinf && b.ninf) then (.nan false, fNV)
  else if b.pinf then (.inf false, 0)
  else if b.ninf then (.inf true, 0)
  else if b.sum = 0 then (.fin (b.any && b.negZero) 0 b.exp, 0)
  else (.fin (decide (b.sum < 0)) b.sum.natAbs b.exp, 0)

/-- The exact sum of products. -/
def blockSum (ps : List (Option FVal)) : FVal × Flags := (ps.foldl BlockSum.add BlockSum.empty).value

/-- Numbers `lo`, …, `hi - 1`. -/
def span (lo hi : Nat) : List Nat := List.range' lo (hi - lo)

/-! ### `pdot` -/

/-- Format of the broadcast group (R184). -/
def pdotA (t : EType) : EType :=
  match t with
  | .bf16 => .bf16
  | .e4m3 => .e4m3
  | _ => .f16

/-- Bytes of a row that `pdot` touches (R184). -/
def pdotRowBytes (x : PDot) : Nat :=
  if x.t = .q4 then x.len.toNat / 2 + x.len.toNat / 32
  else ((x.len.toNat - 1) * x.stride.toNat + 1) * tBytes x.t

/-- Address of the row of bank `b` (R184). -/
def pdotRow (base : Word) (x : PDot) (b : Nat) : Word :=
  base + (x.off.signExtend 64) * 64 + BitVec.ofNat 64 (b * 2 ^ 25)

/-- Byte offsets within a row at which a weight or a scale byte lies, in row order. -/
def pdotOffsets (x : PDot) : List Nat :=
  if x.t = .q4 then List.range (pdotRowBytes x)
  else (List.range x.len.toNat).map fun k => k * x.stride.toNat * tBytes x.t

/-- Addresses of the granules of a row (R185): each granule that holds a byte read. -/
def pdotGranules (row : Word) (x : PDot) : List Word :=
  ((pdotOffsets x).map fun o => (row + BitVec.ofNat 64 o) &&& ~~~0x1F#64).dedup

/-- Translate one granule of bank `b` as a load, and match its page (R185, R174 steps 2 and 3): its place. -/
def pdotGranule (b : Nat) (va : Word) : M (Word × Loc) := do
  match ← locate .pdot .load va 32 none (some b) with
  | .remote => throw (.trap { cause := 0x09, addr := some va, bank := some b })
  | .local_ l =>
    if !(l.banked && stripedBank (l.key % 2 ^ 30) == b) then
      throw (.trap { cause := 0x0A, addr := some va, bank := some b })
    pure (va, l)

/-- Check the row of bank `b`: its granules' translations and pages. -/
def pdotRowCheck (base : Word) (x : PDot) (b : Nat) : M (Nat × List (Word × Loc)) := do
  return (b, ← (pdotGranules (pdotRow base x b) x).mapM (pdotGranule b))

/-- Raise a data error of a row's granule (R155); as for a plural access it has no BANK field (R152, log 64). -/
def pdotData (b : Nat) (q : Word × Loc) : M Unit := do
  match dataError (← get) q.2.key with
  | some c => throw (.trap { accessTrap c q.1 none (some b) with bank := none })
  | none => pure ()

/-- Value of element `k` of the broadcast group. -/
def pdotElem (h : Hart) (x : PDot) (k : Nat) : FVal :=
  fDecode (pdotA x.t) (h.elem x.a (tBits (pdotA x.t)) k)

/-- Bytes of a row, by granule place: `n` bytes at an address. -/
def pdotRead (s : State) (places : List (Word × Loc)) (va : Word) (n : Nat) : Nat :=
  match aget places (va &&& ~~~0x1F#64) with
  | some l => memReadN s.mem (l.key + va.toNat % 32) n
  | none => 0

/-- Weight `k` of a row (R184); a q4 weight is its code value under the TYPE of its block, its factor left out. -/
def pdotWeight (s : State) (places : List (Word × Loc)) (row : Word) (x : PDot) (scale k : Nat) : FVal :=
  if x.t = .q4 then
    let byte := pdotRead s places (row + BitVec.ofNat 64 (k / 2)) 1
    q4Val (field scale 6 2 * 64 + 32) (field byte (4 * (k % 2)) 4)
  else fDecode x.t (pdotRead s places (row + BitVec.ofNat 64 (k * x.stride.toNat * tBytes x.t)) (tBytes x.t))

/-- One block of a row: its RNE sum and its flags (R185). -/
def pdotBlock (s : State) (places : List (Word × Loc)) (row : Word) (x : PDot) (t : Nat) : Nat × Flags :=
  let h := s.hart
  let scale := if x.t = .q4 then pdotRead s places (row + BitVec.ofNat 64 (x.len.toNat / 2 + t)) 1 else 32
  let e := field scale 0 6
  let p := blockSum ((span (32 * t) (min x.len.toNat (32 * t + 32))).map fun k =>
    exactMul (pdotElem h x k) (pdotWeight s places row x scale k))
  let v : FVal × Flags := if e = 63 then (.nan false, fNV) else (p.1.scale ((e : Int) - 32), p.2)
  let r := fEncode .f32 0 v.1
  (r.1, v.2 ||| r.2)

/-- The dot product of one bank (R185). -/
def pdotBank (s : State) (places : List (Word × Loc)) (row : Word) (x : PDot) : Nat × Flags :=
  ((List.range ((x.len.toNat + 31) / 32)).foldl (fun (acc : Option (Nat × Flags)) t =>
    treeAdd .f32 acc (some (pdotBlock s places row x t))) none).getD (0, 0)

/-- Check the banks of the set in ascending order, then, once every bank has passed, the data of each (R185): the places
of each. -/
def pdotCheck (base : Word) (x : PDot) (banks : List Nat) : M (List (Nat × List (Word × Loc))) := do
  let ps ← banks.mapM (pdotRowCheck base x)
  ps.forM fun p => p.2.forM (pdotData p.1)
  pure ps

/-- The lowest poisoned element of the broadcast group. -/
def pdotPoison (h : Hart) (x : PDot) : Option Nat :=
  (List.range x.len.toNat).find? fun k => h.elemPoisoned x.a (tBits (pdotA x.t)) k

/-- Banks of the set that serve another access, unless the command has aged (R186). -/
def pdotBusy (aged : Bool) (c : Core) (set : Word) : Bool := !aged && c.bankBusy &&& set.truncate 32 != 0

/-- R185, R186: performed and committed as one when its banks are idle. -/
def opPdot (x : PDot) : M Ctl := do
  let set ← readS x.b
  -- an empty set performs nothing and raises nothing
  if bankSet set = [] then return .next
  let base ← readS x.c
  let h ← getHart
  match pdotPoison h x with
  | some e => raiseElem 0x14 e
  | none => pure ()
  if base.toNat % 64 ≠ 0 then raiseAt 0x05 base
  let banks := bankSet set
  let places ← pdotCheck base x banks
  if pdotBusy h.aged (← getCore) set then waitAt (.pdot x)
  places.forM fun p => p.2.forM fun q => do
    flushGranule q.2.key
    awaitOwn q.2
  let s ← get
  let rs := places.map fun p => (p.1, pdotBank s p.2 (pdotRow base x p.1) x)
  modHart fun h => h.setElems x.d 32 (rs.map fun r => (r.1, r.2.1))
  addFlags (rs.foldl (fun f r => f ||| r.2.2) 0)
  pure .next

/-! ### Meanings: one per instruction -/

/-- PDOT. -/
def execPdot (x : PDot) (s : State) : Host.Outcome State Fault Refusal := runUnit (opPdot x) s

end Sys2Proof.Machine
end

