-- ==== Sys2Proof/Machine/Permute.lean ====
section
/-! DEFINITION. Class 0x15, the permutations (R137 to R142): bits move without arithmetic, and an instruction is
performed whole. -/

namespace Sys2Proof.Machine

/-- Two groups of `n` registers share a register. -/
def overlap (a b : VName) (n : Nat) : Bool := decide (a.val < b.val + n) && decide (b.val < a.val + n)

/-- The checks of R137: width, alignment, and a destination apart from its sources. -/
def checkPermute (t : EType) (d : VName) (srcs : List VName) : M Unit := do
  checkVec t (d :: srcs)
  let c ← getConvoy
  require (!srcs.any fun a => overlap d a c.grpRegs)

/-- A source element of a group. -/
structure Pick where
  r : VName
  j : Nat
  deriving DecidableEq, Repr

/-- Write the values of the destination elements: `picks i` are the source elements whose bits reach element `i`
(R137). `vstart` becomes 0. -/
def permuteTo (d : VName) (w : Nat) (is : List Nat) (picks : Nat → List Pick) (value : Hart → Nat → Nat) : M Unit := do
  let h ← getHart
  match is.find? fun i => (picks i).any fun p => h.elemPoisoned p.r w p.j with
  | some e => raiseElem 0x14 e
  | none => setHart ((h.setElems d w (is.map fun i => (i, value h i))).setVstart 0)

/-- The destination elements that are written (R137). -/
def permuteDest (m : MName) : M (List Nat) := do
  checkPred m
  let c ← getConvoy
  return activeRange (← getHart) c.ewBytes m

/-- The fill value of a slide: low bits of s[C] (R138). -/
def fillOf (w : Nat) (c : SReg) : M Nat := do return (← readS c).toNat % 2 ^ w

def opVslup (x : VSlide) : M Ctl := do
  let w := tBits x.t
  checkPermute x.t x.d [x.a]
  let n := (← readSrcZ x.n).toNat
  let f ← fillOf w x.c
  let is ← permuteDest x.m
  permuteTo x.d w is (fun i => if n ≤ i then [⟨x.a, i - n⟩] else [])
    (fun h i => if n ≤ i then h.elem x.a w (i - n) else f)
  pure .next

def opVsldn (x : VSlide) : M Ctl := do
  let w := tBits x.t
  checkPermute x.t x.d [x.a]
  let n := (← readSrcZ x.n).toNat
  let f ← fillOf w x.c
  let is ← permuteDest x.m
  let vl := (← getHart).csr.vl
  permuteTo x.d w is (fun i => if i + n < vl then [⟨x.a, i + n⟩] else [])
    (fun h i => if i + n < vl then h.elem x.a w (i + n) else f)
  pure .next

/-- The index of `vgath`, the same for every element in the scalar and immediate forms (R139). -/
def gathIndex : VSrc → M VArg
  | .vec r => pure (.group r)
  | .scalar r => do return .const (← readS r).toNat
  | .imm i => pure (.const i.toNat)

def opVgath (x : VOp) : M Ctl := do
  let w := tBits x.t
  checkPermute x.t x.d (x.a :: vsrcGroup x.b)
  let b ← gathIndex x.b
  let is ← permuteDest x.m
  let max := (← getConvoy).vlmax
  let h0 ← getHart
  let ix (i : Nat) := b.get h0 w i
  permuteTo x.d w is
    (fun i => (vsrcGroup x.b).map (⟨·, i⟩) ++ if ix i < max then [⟨x.a, ix i⟩] else [])
    (fun h i => if ix i < max then h.elem x.a w (ix i) else 0)
  pure .next

/-- Activity of every element below `vl`, from element 0 (R140). -/
def activeBelow (m : MName) : M (Nat → Bool) := do
  let c ← getConvoy
  let h ← getHart
  checkMask m 0 h.csr.vl fun _ => true
  return fun i => (h.mask c.ewBytes m).active c.ewBytes i

def opVcomp (x : VComp) : M Ctl := do
  let w := tBits x.t
  checkPermute x.t x.d [x.a]
  let act ← activeBelow x.m
  let h ← getHart
  let srcs := (List.range h.csr.vl).filter act
  let is := (List.range srcs.length).filter fun k => decide (h.csr.vstart.toNat ≤ k)
  permuteTo x.d w is (fun k => [⟨x.a, srcs.getD k 0⟩]) (fun h k => h.elem x.a w (srcs.getD k 0))
  writeS x.c (BitVec.ofNat 64 srcs.length)
  pure .next

def opVexpd (x : VUn) : M Ctl := do
  let w := tBits x.t
  checkPermute x.t x.d [x.a]
  let act ← activeBelow x.m
  let is := (elemRange (← getHart)).filter act
  let j (i : Nat) := ((List.range i).filter act).length
  permuteTo x.d w is (fun i => [⟨x.a, j i⟩]) (fun h i => h.elem x.a w (j i))
  pure .next

/-- The bit string of elements 0 to `n` - 1, element 0 least significant (R141). -/
def bitString (h : Hart) (a : VName) (w : Nat) : Nat → Nat
  | 0 => 0
  | n + 1 => bitString h a w n + h.elem a w n * 2 ^ (n * w)

/-- Elements of a string of elements of `w` bits that hold bits `lo` to `lo + w - 1`. -/
def spanned (w lo : Nat) : List Nat := if lo % w = 0 then [lo / w] else [lo / w, lo / w + 1]

def opVbshl (x : VBsh) : M Ctl := do
  let w := tBits x.t
  checkPermute x.t x.d [x.a]
  let n := (← readSrcZ x.n).toNat
  let is ← permuteDest x.m
  let h0 ← getHart
  let l := h0.csr.vl * w
  let y := if l ≤ n then 0 else bitString h0 x.a w h0.csr.vl * 2 ^ n
  -- source bits of element i are i*w - n to i*w + w - 1 - n, where they exist
  let picks (i : Nat) : List Pick :=
    if i * w + w ≤ n then []
    else if n ≤ i * w then (spanned w (i * w - n)).map (⟨x.a, ·⟩)
    else [⟨x.a, 0⟩]
  permuteTo x.d w is picks (fun _ i => field y (i * w) w)
  pure .next

def opVbshr (x : VBsh) : M Ctl := do
  let w := tBits x.t
  checkPermute x.t x.d [x.a]
  let n := (← readSrcZ x.n).toNat
  let is ← permuteDest x.m
  let h0 ← getHart
  let vl := h0.csr.vl
  let y := if vl * w ≤ n then 0 else bitString h0 x.a w vl / 2 ^ n
  let picks (i : Nat) : List Pick := ((spanned w (i * w + n)).filter fun j => decide (j < vl)).map (⟨x.a, ·⟩)
  permuteTo x.d w is picks (fun _ i => field y (i * w) w)
  pure .next

def opVfnl (x : VFnl) : M Ctl := do
  let w := tBits x.t
  checkPermute x.t x.d [x.a, x.b]
  let is ← permuteDest x.m
  let h0 ← getHart
  let vl := h0.csr.vl
  let n := min (← readS x.c).toNat (vl * w)
  let z := bitString h0 x.b w vl * 2 ^ (vl * w) + bitString h0 x.a w vl
  let picks (i : Nat) : List Pick :=
    ((spanned w (i * w + n)).filter fun j => decide (j < 2 * vl)).map
      fun j => if j < vl then ⟨x.a, j⟩ else ⟨x.b, j - vl⟩
  permuteTo x.d w is picks (fun _ i => field z (i * w + n) w)
  pure .next

/-- `vmvs` and `vmvx` read neither `vl`, `vstart` nor a mask (R142). -/
def opVmvs (x : VMvs) : M Ctl := do
  let w := tBits x.t
  checkVec x.t [x.a]
  let j := (← readSrcZ x.j).toNat
  let c ← getConvoy
  let h ← getHart
  if j < c.vlmax then
    if h.elemPoisoned x.a w j then raiseElem 0x14 j
    else writeS x.d (extendTo x.t (h.elem x.a w j))
  else writeS x.d 0
  pure .next

def opVmvx (x : VMvx) : M Ctl := do
  let w := tBits x.t
  checkVec x.t [x.d]
  let j := (← readSrcZ x.j).toNat
  let a ← readS x.a
  let c ← getConvoy
  if j < c.vlmax then modHart (Hart.setElem x.d w j (a.toNat % 2 ^ w))
  pure .next

def opVid (x : VId) : M Ctl := do
  let w := tBits x.t
  checkVec x.t [x.d]
  let a ← readS x.a
  let is ← permuteDest x.m
  permuteTo x.d w is (fun _ => []) (fun _ i => (a + BitVec.ofNat 64 i * simm x.step).toNat % 2 ^ w)
  pure .next

def opVrev (x : VUn) : M Ctl := do
  let w := tBits x.t
  checkPermute x.t x.d [x.a]
  let is ← permuteDest x.m
  let vl := (← getHart).csr.vl
  permuteTo x.d w is (fun i => [⟨x.a, vl - 1 - i⟩]) (fun h i => h.elem x.a w (vl - 1 - i))
  pure .next

/-! ### Meanings: one per instruction -/

/-- VSLUP. -/
def execVslup (x : VSlide) (s : State) : Host.Outcome State Fault Refusal := runUnit (opVslup x) s

/-- VSLDN. -/
def execVsldn (x : VSlide) (s : State) : Host.Outcome State Fault Refusal := runUnit (opVsldn x) s

/-- VGATH. -/
def execVgath (x : VOp) (s : State) : Host.Outcome State Fault Refusal := runUnit (opVgath x) s

/-- VCOMP. -/
def execVcomp (x : VComp) (s : State) : Host.Outcome State Fault Refusal := runUnit (opVcomp x) s

/-- VEXPD. -/
def execVexpd (x : VUn) (s : State) : Host.Outcome State Fault Refusal := runUnit (opVexpd x) s

/-- VBSHL. -/
def execVbshl (x : VBsh) (s : State) : Host.Outcome State Fault Refusal := runUnit (opVbshl x) s

/-- VBSHR. -/
def execVbshr (x : VBsh) (s : State) : Host.Outcome State Fault Refusal := runUnit (opVbshr x) s

/-- VFNL. -/
def execVfnl (x : VFnl) (s : State) : Host.Outcome State Fault Refusal := runUnit (opVfnl x) s

/-- VMVS. -/
def execVmvs (x : VMvs) (s : State) : Host.Outcome State Fault Refusal := runUnit (opVmvs x) s

/-- VMVX. -/
def execVmvx (x : VMvx) (s : State) : Host.Outcome State Fault Refusal := runUnit (opVmvx x) s

/-- VID. -/
def execVid (x : VId) (s : State) : Host.Outcome State Fault Refusal := runUnit (opVid x) s

/-- VREV. -/
def execVrev (x : VUn) (s : State) : Host.Outcome State Fault Refusal := runUnit (opVrev x) s

end Sys2Proof.Machine
end

