-- ==== Sys2Proof/Machine/ScalarFp.lean ====
section
/-! DEFINITION. Class 0x03, the scalar floating-point instructions (R98 to R102): each result is rounded once in `frm`,
and its flags are added at commit. -/

namespace Sys2Proof.Machine

/-- Two operands of the format. -/
def fBin (f : EType → Nat → Nat → Nat → Nat × Flags) (x : SFp) : M Ctl := do
  let a ← readF x.f x.a
  let (b, fb) ← readFSrc x.f x.b
  let r := f x.f (← getHart).mode_ a b
  writeS x.d (BitVec.ofNat 64 r.1)
  addFlags (fb ||| r.2)
  pure .next

/-- One operand of the format. -/
def fUn (f : EType → Nat → Nat → Nat × Flags) (x : SFpUn) : M Ctl := do
  let a ← readF x.f x.a
  let r := f x.f (← getHart).mode_ a
  writeS x.d (BitVec.ofNat 64 r.1)
  addFlags r.2
  pure .next

/-! The element operations that classes 0x03 and 0x12 share, on encodings (R99, R125). -/

def feAdd (t : EType) (mode a b : Nat) : Nat × Flags := fAddV t mode (fDecode t a) (fDecode t b)
def feSub (t : EType) (mode a b : Nat) : Nat × Flags := fAddV t mode (fDecode t a) (fDecode t b).neg
def feMul (t : EType) (mode a b : Nat) : Nat × Flags := fMulV t mode (fDecode t a) (fDecode t b)
def feDiv (t : EType) (mode a b : Nat) : Nat × Flags := fDivV t mode (fDecode t a) (fDecode t b)
def feFma (t : EType) (mode a b c : Nat) : Nat × Flags := fFmaV t mode (fDecode t a) (fDecode t b) (fDecode t c)
def feSqrt (t : EType) (mode a : Nat) : Nat × Flags := fSqrtV t mode (fDecode t a)
def feMin (t : EType) (_mode a b : Nat) : Nat × Flags := fMinMax t false a b
def feMax (t : EType) (_mode a b : Nat) : Nat × Flags := fMinMax t true a b

def opFadd (x : SFp) : M Ctl := fBin feAdd x
def opFsub (x : SFp) : M Ctl := fBin feSub x
def opFmul (x : SFp) : M Ctl := fBin feMul x

def opFma (x : SFma) : M Ctl := do
  let a ← readF x.f x.a
  let (b, fb) ← readFSrc x.f x.b
  let c ← readF x.f x.c
  let r := feFma x.f (← getHart).mode_ a b c
  writeS x.d (BitVec.ofNat 64 r.1)
  addFlags (fb ||| r.2)
  pure .next

def opFdiv (x : SFp) : M Ctl := fBin feDiv x
def opFsqrt (x : SFpUn) : M Ctl := fUn feSqrt x
def opFmin (x : SFp) : M Ctl := fBin feMin x
def opFmax (x : SFp) : M Ctl := fBin feMax x

/-- R102. -/
def opFset (x : SFset) : M Ctl := do
  let a ← readF x.f x.a
  let (b, fb) ← readFSrc x.f x.b
  let r := fCmpV x.cmp (fDecode x.f a) (fDecode x.f b)
  writeS x.d (BitVec.ofNat 64 (b2n r.1))
  addFlags (fb ||| r.2)
  pure .next

/-- R100: an integer result fills s[D] by R109's extension. -/
def opFcvt (x : SFcvt) : M Ctl := do
  let a ← readF x.fs x.a
  let r := convert x.fd x.fs (← getHart).mode_ a
  writeS x.d (extendTo x.fd r.1)
  addFlags r.2.1
  pure .next

/-- R101: no flag. -/
def opFclass (x : SFpUn) : M Ctl := fUn (fun t _ a => (fClassV t a, 0)) x

/-- R102: no flag. -/
def opFsgn (x : SFsgn) : M Ctl := do
  let a ← readF x.f x.a
  let b ← readF x.f x.b
  writeS x.d (BitVec.ofNat 64 (fSgnV x.f x.sel a b))
  pure .next

/-! ### Meanings: one per instruction -/

/-- FADD. -/
def execFadd (x : SFp) (s : State) : Host.Outcome State Fault Refusal := runUnit (opFadd x) s

/-- FSUB. -/
def execFsub (x : SFp) (s : State) : Host.Outcome State Fault Refusal := runUnit (opFsub x) s

/-- FMUL. -/
def execFmul (x : SFp) (s : State) : Host.Outcome State Fault Refusal := runUnit (opFmul x) s

/-- FMA. -/
def execFma (x : SFma) (s : State) : Host.Outcome State Fault Refusal := runUnit (opFma x) s

/-- FDIV. -/
def execFdiv (x : SFp) (s : State) : Host.Outcome State Fault Refusal := runUnit (opFdiv x) s

/-- FSQRT. -/
def execFsqrt (x : SFpUn) (s : State) : Host.Outcome State Fault Refusal := runUnit (opFsqrt x) s

/-- FMIN. -/
def execFmin (x : SFp) (s : State) : Host.Outcome State Fault Refusal := runUnit (opFmin x) s

/-- FMAX. -/
def execFmax (x : SFp) (s : State) : Host.Outcome State Fault Refusal := runUnit (opFmax x) s

/-- FSET. -/
def execFset (x : SFset) (s : State) : Host.Outcome State Fault Refusal := runUnit (opFset x) s

/-- FCVT. -/
def execFcvt (x : SFcvt) (s : State) : Host.Outcome State Fault Refusal := runUnit (opFcvt x) s

/-- FCLASS. -/
def execFclass (x : SFpUn) (s : State) : Host.Outcome State Fault Refusal := runUnit (opFclass x) s

/-- FSGN. -/
def execFsgn (x : SFsgn) (s : State) : Host.Outcome State Fault Refusal := runUnit (opFsgn x) s

end Sys2Proof.Machine
end

