-- ==== Sys2Proof/Machine/VecFp.lean ====
section
/-! DEFINITION. Class 0x12, the vector floating-point instructions (R125, R126): the element loop of R119 over the
operations of the scalar chapter and the four correctly rounded functions. -/

namespace Sys2Proof.Machine

/-- Two operands. The flags of an immediate's conversion are added when the instruction completes (R68). -/
def vFp (f : EType → Nat → Nat → Nat → Nat × Flags) (x : VOp) : M Ctl := do
  let w := tBits x.t
  checkVec x.t (x.d :: x.a :: vsrcGroup x.b)
  let (b, fb) ← resolveFB x.t x.b
  let mode := (← getHart).mode_
  vecLoop x.m fun i h =>
    elemResult x.d w i (h.elemPoisoned x.a w i || b.poisoned h w i) (f x.t mode (h.elem x.a w i) (b.get h w i)) h
  addFlags fb
  pure .next

/-- One operand. -/
def vFpUn (f : EType → Nat → Nat → Nat × Flags) (x : VUn) : M Ctl := do
  let mode := (← getHart).mode_
  vUnary (fun t a => f t mode a) x

def opVfadd (x : VOp) : M Ctl := vFp feAdd x
def opVfsub (x : VOp) : M Ctl := vFp feSub x
def opVfmul (x : VOp) : M Ctl := vFp feMul x

def opVfma (x : VFma) : M Ctl := do
  let w := tBits x.t
  checkVec x.t (x.d :: x.a :: x.c :: vsrcGroup x.b)
  let (b, fb) ← resolveFB x.t x.b
  let mode := (← getHart).mode_
  vecLoop x.m fun i h =>
    elemResult x.d w i (h.elemPoisoned x.a w i || b.poisoned h w i || h.elemPoisoned x.c w i)
      (feFma x.t mode (h.elem x.a w i) (b.get h w i) (h.elem x.c w i)) h
  addFlags fb
  pure .next

def opVfdiv (x : VOp) : M Ctl := vFp feDiv x
def opVfsqrt (x : VUn) : M Ctl := vFpUn feSqrt x
def opVfmin (x : VOp) : M Ctl := vFp feMin x
def opVfmax (x : VOp) : M Ctl := vFp feMax x

def opVfcmp (x : VFcmp) : M Ctl := do
  checkVec x.t (x.a :: vsrcGroup x.b)
  let (b, fb) ← resolveFB x.t x.b
  vCompare x.t x.d x.a b x.m fun p q => fCmpV x.cmp (fDecode x.t p) (fDecode x.t q)
  addFlags fb
  pure .next

def opVfrcp (x : VUn) : M Ctl := vFpUn (fun t mode a => fRcpV t mode (fDecode t a)) x
def opVfrsq (x : VUn) : M Ctl := vFpUn (fun t mode a => fRsqV t mode (fDecode t a)) x
def opVfexp2 (x : VUn) : M Ctl := vFpUn (fun t mode a => fExp2V t mode (fDecode t a)) x
def opVflog2 (x : VUn) : M Ctl := vFpUn (fun t mode a => fLog2V t mode (fDecode t a)) x

/-- `vfsgn` sets no flag (R125), those of an immediate's conversion included. -/
def opVfsgn (x : VFsgn) : M Ctl := do
  let w := tBits x.t
  checkVec x.t (x.d :: x.a :: vsrcGroup x.b)
  let (b, _) ← resolveFB x.t x.b
  vecLoop x.m fun i h =>
    elemResult x.d w i (h.elemPoisoned x.a w i || b.poisoned h w i)
      (fSgnV x.t x.sel (h.elem x.a w i) (b.get h w i), 0) h
  pure .next

def opVfclass (x : VUn) : M Ctl := vFpUn (fun t _ a => (fClassV t a, 0)) x

/-! ### Meanings: one per instruction -/

/-- VFADD. -/
def execVfadd (x : VOp) (s : State) : Host.Outcome State Fault Refusal := runUnit (opVfadd x) s

/-- VFSUB. -/
def execVfsub (x : VOp) (s : State) : Host.Outcome State Fault Refusal := runUnit (opVfsub x) s

/-- VFMUL. -/
def execVfmul (x : VOp) (s : State) : Host.Outcome State Fault Refusal := runUnit (opVfmul x) s

/-- VFMA. -/
def execVfma (x : VFma) (s : State) : Host.Outcome State Fault Refusal := runUnit (opVfma x) s

/-- VFDIV. -/
def execVfdiv (x : VOp) (s : State) : Host.Outcome State Fault Refusal := runUnit (opVfdiv x) s

/-- VFSQRT. -/
def execVfsqrt (x : VUn) (s : State) : Host.Outcome State Fault Refusal := runUnit (opVfsqrt x) s

/-- VFMIN. -/
def execVfmin (x : VOp) (s : State) : Host.Outcome State Fault Refusal := runUnit (opVfmin x) s

/-- VFMAX. -/
def execVfmax (x : VOp) (s : State) : Host.Outcome State Fault Refusal := runUnit (opVfmax x) s

/-- VFCMP. -/
def execVfcmp (x : VFcmp) (s : State) : Host.Outcome State Fault Refusal := runUnit (opVfcmp x) s

/-- VFRCP. -/
def execVfrcp (x : VUn) (s : State) : Host.Outcome State Fault Refusal := runUnit (opVfrcp x) s

/-- VFRSQ. -/
def execVfrsq (x : VUn) (s : State) : Host.Outcome State Fault Refusal := runUnit (opVfrsq x) s

/-- VFEXP2. -/
def execVfexp2 (x : VUn) (s : State) : Host.Outcome State Fault Refusal := runUnit (opVfexp2 x) s

/-- VFLOG2. -/
def execVflog2 (x : VUn) (s : State) : Host.Outcome State Fault Refusal := runUnit (opVflog2 x) s

/-- VFSGN. -/
def execVfsgn (x : VFsgn) (s : State) : Host.Outcome State Fault Refusal := runUnit (opVfsgn x) s

/-- VFCLASS. -/
def execVfclass (x : VUn) (s : State) : Host.Outcome State Fault Refusal := runUnit (opVfclass x) s

end Sys2Proof.Machine
end

