-- ==== Sys2Proof/Machine/Stream.lean ====
section
/-! DEFINITION. Class 0x17: the stream queues (R143 to R146) and `vchain` (R147 to R150). -/

namespace Sys2Proof.Machine

/-- Capacity of a stream queue in bytes (R143). -/
def streamBytes : Nat := 8192

def Convoy.setSq (q : SqName) (bs : List Byte) (c : Convoy) : Convoy := { c with sq := c.sq.set q bs }

/-- Remove `n` bytes from the head; the poisoned positions move with the bytes (R313). -/
def Convoy.popSq (q : SqName) (n : Nat) (c : Convoy) : Convoy :=
  { c.setSq q (c.sq[q].drop n) with
    sqPoison := c.sqPoison.set q ((c.sqPoison[q].filter fun p => decide (n ≤ p)).map fun p => p - n) }

/-- The first of `n` elements of `eb` bytes at the head that holds a poisoned byte. -/
def Convoy.sqBad (c : Convoy) (q : SqName) (eb n : Nat) : Option Nat :=
  (List.range n).find? fun j => c.sqPoison[q].any fun p => p / eb == j

/-- More than a stream queue holds: illegal at the first element whose bytes end past it (R144, R145). -/
def streamFits (is : List Nat) (eb : Nat) : M Unit :=
  if streamBytes < is.length * eb then raiseElem 0x01 (is.getD (streamBytes / eb) 0) else pure ()

/-- R144. -/
def opVspush (x : VSPush) : M Ctl := do
  let w := tBits x.t
  checkVec x.t [x.a]
  checkPred x.m
  let c ← getConvoy
  let h ← getHart
  let is := activeRange h c.ewBytes x.m
  streamFits is (tBytes x.t)
  if streamBytes < c.sq[x.q].length + is.length * tBytes x.t then waitAt (.vspush x)
  match is.find? fun i => h.elemPoisoned x.a w i with
  | some e => raiseElem 0x14 e
  | none => do
    modConvoy fun c => c.setSq x.q (c.sq[x.q] ++ is.flatMap fun i => toBytes (tBytes x.t) (h.elem x.a w i))
    modHart (Hart.setVstart 0)
    writeS x.c (BitVec.ofNat 64 is.length)
    pure .next

/-- The elements of a byte string, `(element, value)` for each target. -/
def unpack (eb : Nat) : List Nat → List Byte → List (Nat × Nat)
  | [], _ => []
  | i :: t, bs => (i, ofBytes (bs.take eb)) :: unpack eb t (bs.drop eb)

/-- R145. A target whose bytes are poisoned raises 0x14 before anything is removed (R313, as R144 does). -/
def opVspop (x : VSPop) : M Ctl := do
  let eb := tBytes x.t
  checkVec x.t [x.d]
  checkPred x.m
  let c ← getConvoy
  let h ← getHart
  let is := activeRange h c.ewBytes x.m
  if !x.nb then
    streamFits is eb
    if c.sq[x.q].length < is.length * eb then waitAt (.vspop x)
  let k := min is.length (c.sq[x.q].length / eb)
  match c.sqBad x.q eb k with
  | some j => raiseElem 0x14 (is.getD j 0)
  | none => pure ()
  modConvoy (Convoy.popSq x.q (k * eb))
  modHart fun h => (h.setElems x.d (8 * eb) (unpack eb (is.take k) c.sq[x.q])).setVstart 0
  writeS x.c (BitVec.ofNat 64 k)
  pure .next

/-! ### Chains -/

/-- A stage operation on the running value `t` (R149). -/
def stageInt (op : StageOp) (w t x : Nat) : Nat :=
  match op with
  | .sub => subW w t x
  | .rsub => subW w x t
  | .mul => t * x % 2 ^ w
  | .min => minS w t x
  | .max => maxS w t x
  | .minu => min t x
  | .maxu => max t x
  | .and => t &&& x
  | .or => t ||| x
  | .xor => t ^^^ x
  | .shl => shlW w t x
  | .shr => shrW w t x
  | .sar => sarW w t x
  | _ => (t + x) % 2 ^ w

def stageFp (op : StageOp) (ty : EType) (mode t x y : Nat) : Nat × Flags :=
  match op with
  | .fsub => feSub ty mode t x
  | .frsub => feSub ty mode x t
  | .fmul => feMul ty mode t x
  | .fmin => feMin ty mode t x
  | .fmax => feMax ty mode t x
  | .fma => feFma ty mode t x y
  | .fmacc => feFma ty mode x y t
  | _ => feAdd ty mode t x

def stageFn (op : StageOp) (ty : EType) (mode t x y : Nat) : Nat × Flags :=
  if op.isFloat then stageFp op ty mode t x y else (stageInt op (tBits ty) t x, 0)

/-- Does a stage use its second operand? -/
def usesY (op : StageOp) : Bool := op == .fma || op == .fmacc

/-- A stage resolved: the element operation of R150. -/
def stageElem (op : StageOp) (ty : EType) (mode : Nat) (d t : VName) (x y : VArg) (i : Nat) (h : Hart) : Option Hart :=
  let w := tBits ty
  elemResult d w i (h.elemPoisoned t w i || x.poisoned h w i || (usesY op && y.poisoned h w i))
    (stageFn op ty mode (h.elem t w i) (x.get h w i) (y.get h w i)) h

def resolveStage (ty : EType) : StageSrc → M VArg
  | .vec r => pure (.group r)
  | .scalar r => resolveLate ty r

/-- Operand B of the head. -/
def resolveHead (ty : EType) (b : VSrc) : M (VArg × Flags) :=
  if ty.isVFp then resolveFB ty b else do return (← resolveB ty b, 0)

def stageGroup : StageSrc → List VName
  | .vec r => [r]
  | .scalar _ => []

/-- Vector groups that the continuation stages name. -/
def chainGroups (xs : List Stage) : List VName :=
  xs.flatMap fun s => stageGroup s.x ++ if usesY s.op then stageGroup s.y else []

def Hart.setChstep (n : Nat) (h : Hart) : Hart := { h with csr := { h.csr with chstep := BitVec.ofNat 16 n } }

/-- One stage over its elements, then `chstep` counts it (R150). -/
def runStage (j : Nat) (act : Nat → Bool) (f : Nat → Hart → Option Hart) : M Unit := do
  runElems ((elemRange (← getHart)).filter act) f
  modHart (Hart.setChstep (j + 1))

/-- The continuation stages from number `j` on. -/
def runStages (x : VChain) (mode : Nat) (act : Nat → Bool) : Nat → List Stage → M Unit
  | _, [] => pure ()
  | j, s :: t => do
    let a ← resolveStage x.t s.x
    let b ← resolveStage x.t s.y
    runStage j act (stageElem s.op x.t mode x.d x.d a b)
    runStages x mode act (j + 1) t

/-- R150. The head reads A and B only while STEP is 0. The flags of its immediate's conversion (R68) are added once the head
is done for every element, and also when none is active (DESIGN CHOICE, log 87). -/
def opVchain (x : VChain) : M Ctl := do
  let stages := x.stage1 :: x.more
  checkVec x.t (x.d :: x.a :: (vsrcGroup x.b ++ (if x.op == .fma then [x.c] else []) ++ chainGroups stages))
  checkPred x.m
  let h ← getHart
  let c ← getConvoy
  let step := h.csr.chstep.toNat
  if step < stages.length then checkMask x.m 0 h.csr.vl fun _ => true
  let k := h.mask c.ewBytes x.m
  let act (i : Nat) := k.active c.ewBytes i
  let mode := h.mode_
  if step = 0 then do
    let (b, fb) ← resolveHead x.t x.b
    runStage 0 act (stageElem x.op x.t mode x.d x.a b (.group x.c))
    addFlags fb
    runStages x mode act 1 stages
  else runStages x mode act step (stages.drop (step - 1))
  modHart fun h => (h.setChstep 0).setVstart 0
  pure .next

/-! ### Meanings: one per instruction -/

/-- VSPUSH. -/
def execVspush (x : VSPush) (s : State) : Host.Outcome State Fault Refusal := runUnit (opVspush x) s

/-- VSPOP. -/
def execVspop (x : VSPop) (s : State) : Host.Outcome State Fault Refusal := runUnit (opVspop x) s

/-- VCHAIN. -/
def execVchain (x : VChain) (s : State) : Host.Outcome State Fault Refusal := runUnitN 2 (opVchain x) s

end Sys2Proof.Machine
end

