-- ==== Sys2Proof/Machine/Matrix.lean ====
section
/-! DEFINITION. The matrix unit: class 0x20 (R187 to R201). A committed `mma` stands in the hart's list until its
completion, a step of its own; an instruction that must see the accumulator waits for it (R196). -/

namespace Sys2Proof.Machine

/-! ### Accumulators -/

/-- Position of element (i, j) in a physical accumulator (R187). -/
def accPos (i j : Nat) : Nat := 128 * i + j

def accGet (d : AccData) (p : Nat) : Nat := (d.extractLsb' (32 * p) 32).toNat

def accSet (d : AccData) (p v : Nat) : AccData :=
  (d &&& ~~~(BitVec.ofNat 524288 (2 ^ 32 - 1) <<< (32 * p))) ||| (BitVec.ofNat 524288 (v % 2 ^ 32) <<< (32 * p))

def isAccSite (a : AName) (p : Nat → Bool) : RegSite → Bool
  | .acc a' e => a' == a && p e
  | _ => false

/-- Write elements `(position, value)` of a bound name; their poison goes (R160). -/
def Hart.setAcc (a : AName) (ws : List (Nat × Nat)) (h : Hart) : Hart :=
  match h.acc[a] with
  | none => h
  | some r => clearPoison (isAccSite a fun p => ws.any fun w => w.1 == p)
      { h with acc := h.acc.set a (some { r with data := ws.foldl (fun d w => accSet d w.1 w.2) r.data }) }

/-- Elements of the bound region, row-major: `(i, j)`. -/
def accRegion (rows cols : Nat) : List (Nat × Nat) :=
  (List.range rows).flatMap fun i => (List.range cols).map fun j => (i, j)

/-- The bound name, or 0x0C (R17). -/
def boundAcc (a : AName) : M AccReg := do
  match (← getHart).acc[a] with
  | some r => pure r
  | none => raise 0x0C

/-- Wait until the earlier `mma` on a name have completed (R196). -/
def settleAcc (a : AName) : M Unit := do
  if (← getHart).mma.any fun p => p.i.d == a then waitUnit

/-- The physical accumulators of a core that are bound (R187). -/
def usedAcc (s : State) (core : Nat) : List Nat :=
  (s.harts.filter fun p => p.1 / 8 == core).flatMap fun p => p.2.acc.toList.filterMap fun a => a.map AccReg.phys

/-- R188. -/
def opAcfg (x : ACfg) : M Ctl := do
  let s ← get
  let phys ← match s.hart.acc[x.d] with
    | some r => pure r.phys
    | none => match (List.range 16).find? fun n => !(usedAcc s s.coreId).contains n with
      | some n => pure n
      | none => raise 0x1C
  settleAcc x.d
  modHart fun h => clearPoison (isAccSite x.d fun _ => true)
    { h with acc := h.acc.set x.d (some ⟨phys, x.m1.toNat + 1, x.n1.toNat + 1, x.int, 0⟩) }
  pure .next

/-- Unbind a name (R189). -/
def Hart.unbind (a : AName) (h : Hart) : Hart :=
  clearPoison (isAccSite a fun _ => true) { h with acc := h.acc.set a none }

def opArel (d : AName) : M Ctl := do
  let _ ← boundAcc d
  settleAcc d
  modHart (Hart.unbind d)
  pure .next

/-- R190. -/
def opAzero (d : AName) : M Ctl := do
  let r ← boundAcc d
  settleAcc d
  modHart (Hart.setAcc d ((accRegion r.rows r.cols).map fun p => (accPos p.1 p.2, 0)))
  pure .next

/-! ### `mma` -/

/-- Index of element (e, k) of an operand (R72). -/
def shapeIdx (s : Shape) (e k : Nat) : Nat :=
  let st := if s.stride = 0 then 32 else s.stride.toNat
  s.off.toNat + st * (if s.kmaj then e * (s.k1.toNat + 1) + k else e + k * (s.ext1.toNat + 1))

/-- Bits of an operand element (R191). -/
def mmaBits (f : MmaFmt) : Nat := 4 * f.halfBytes

def mmaType : MmaFmt → EType
  | .f16 => .f16
  | .bf16 => .bf16
  | .e4m3 => .e4m3
  | .e5m2 => .e5m2
  | .q4 => .q4
  | .i8 => .i8

/-- Does the format accumulate in INT32 (R192)? -/
def mmaInt (x : Mma) : Bool := x.fmt == .i8 && !x.scaled

/-- Element `i` of a group given as its registers. -/
def regsElem (rs : List VReg) (bits i : Nat) : Nat :=
  ((rs.getD (bits * i / 16384) 0).extractLsb' (bits * i % 16384) bits).toNat

/-- The registers of an operand group (R191). -/
def mmaGroup (h : Hart) (f : MmaFmt) (r : VName) (s : Shape) : List VReg :=
  (List.range (groupFor f.halfBytes s.last)).map fun k => h.v[groupReg r k]

def blocks (k : Nat) : Nat := (k + 31) / 32

/-- Is a value that element (i, j) consumes poisoned (R195)? -/
def mmaPoisoned (h : Hart) (x : Mma) (i j : Nat) : Bool :=
  let k := x.sa.k1.toNat + 1
  let bits := mmaBits x.fmt
  (!x.accz && h.poison.any (isAccSite x.d fun p => p == accPos i j))
    || ((List.range k).any fun n => h.elemPoisoned x.a bits (shapeIdx x.sa i n)
          || h.elemPoisoned x.b bits (shapeIdx x.sb j n))
    || (x.scaled && (List.range (blocks k)).any fun t => h.elemPoisoned 30 8 (2 * i + t) || h.elemPoisoned 31 8 (2 * j + t))

/-- The updated elements, row-major (R194). -/
def mmaRegion (x : Mma) : List (Nat × Nat) := accRegion (x.sa.ext1.toNat + 1) (x.sb.ext1.toNat + 1)

/-- R192, R195: `mma` commits with the operands that it read. -/
def opMma (x : Mma) : M Ctl := do
  let r ← boundAcc x.d
  require (r.int == mmaInt x)
  require (decide (x.sa.ext1.toNat + 1 ≤ r.rows) && decide (x.sb.ext1.toNat + 1 ≤ r.cols))
  require (x.scaled || x.fmt != .q4)
  settleAcc x.d
  let s ← if x.scaled then readS x.s else pure 0
  let h ← getHart
  if h.poison ≠ [] then
    match (mmaRegion x).find? fun p => mmaPoisoned h x p.1 p.2 with
    | some p => raiseElem 0x14 (accPos p.1 p.2)
    | none => pure ()
  modHart fun h => { h with mma := h.mma ++ [⟨x, mmaGroup h x.fmt x.a x.sa, mmaGroup h x.fmt x.b x.sb, h.v[30], h.v[31], s⟩] }
  pure .next

/-- The scale byte of row or column `e`, block `t` (R193); without scales a factor of 1. -/
def mmaScale (p : PendingMma) (v : VReg) (e t : Nat) : Nat :=
  if p.i.scaled then (v.extractLsb' (8 * (2 * e + t)) 8).toNat else 32

/-- An operand value of a K-block (R193): for q4 the code value under the block's TYPE. -/
def mmaVal (f : MmaFmt) (scale raw : Nat) : FVal :=
  match f with
  | .q4 => q4Val (field scale 6 2 * 64 + 32) raw
  | _ => valOf (mmaType f) raw

/-- Does a scale byte poison its block (R46, R47)? -/
def scaleBad (f : MmaFmt) (sb : Nat) : Bool := field sb 0 6 == 63 || (f != .q4 && field sb 6 2 != 0)

/-- F of R56, with its flags. -/
def scaleFactor (s : Word) : Nat × Flags :=
  fMulV .f32 0 (fDecode .f32 (s.toNat % 2 ^ 32)) (fDecode .f32 (s.toNat / 2 ^ 32))

/-- x * F: infinity times 0 is NaN and sets NV (R57). -/
def timesF (x : FVal) (f : Nat) : FVal × Flags :=
  match exactMul x (fDecode .f32 f) with
  | none => (.nan false, fNV)
  | some v => (v, 0)

/-- P of block `t` for element (i, j), scaled and negated (R56). -/
def mmaBlock (p : PendingMma) (f : Nat) (i j t : Nat) : FVal × Flags :=
  let x := p.i
  let k := x.sa.k1.toNat + 1
  let bits := mmaBits x.fmt
  let ea := mmaScale p p.vsa i t
  let eb := mmaScale p p.vsb j t
  let raw := blockSum ((span (32 * t) (min k (32 * t + 32))).map fun n =>
    exactMul (mmaVal x.fmt ea (regsElem p.va bits (shapeIdx x.sa i n)))
      (mmaVal x.fmt eb (regsElem p.vb bits (shapeIdx x.sb j n))))
  let r : FVal × Flags :=
    if !x.scaled then raw
    else if scaleBad x.fmt ea || scaleBad x.fmt eb then (.nan false, fNV)
    else
      let y := timesF (raw.1.scale ((field ea 0 6 : Int) - 32 + ((field eb 0 6 : Int) - 32))) f
      (y.1, raw.2 ||| y.2)
  (if x.neg then r.1.neg else r.1, r.2)

/-- The new value of a floating element (R56). -/
def mmaFloat (p : PendingMma) (f : Nat) (old i j : Nat) : Nat × Flags :=
  (List.range (blocks (p.i.sa.k1.toNat + 1))).foldl (fun acc t =>
    let b := mmaBlock p f i j t
    let v := fEncode .f32 0 b.1
    if t = 0 ∧ p.i.accz then (v.1, acc.2 ||| b.2 ||| v.2)
    else
      let r := fAddRne .f32 acc.1 v.1
      (r.1, acc.2 ||| b.2 ||| v.2 ||| r.2)) (old, 0)

/-- The new value of an INT32 element (R58). -/
def mmaInt32 (p : PendingMma) (old i j : Nat) : Nat :=
  let x := p.i
  let sum : Int := ((List.range (x.sa.k1.toNat + 1)).map fun n =>
    toSigned 8 (regsElem p.va 8 (shapeIdx x.sa i n)) * toSigned 8 (regsElem p.vb 8 (shapeIdx x.sb j n))).sum
  let base : Int := if x.accz then 0 else old
  ofSigned 32 (if x.neg then base - sum else base + sum)

/-- An `mma` completes: its accumulator writes and its flags (R194 to R196). -/
def mmaFinish (p : PendingMma) (h : Hart) : Hart :=
  match h.acc[p.i.d] with
  | none => h
  | some r =>
    if mmaInt p.i then
      h.setAcc p.i.d ((mmaRegion p.i).map fun q =>
        (accPos q.1 q.2, mmaInt32 p (accGet r.data (accPos q.1 q.2)) q.1 q.2))
    else
      let f : Nat × Flags := if p.i.scaled then scaleFactor p.s else (0, 0)
      let rs := (mmaRegion p.i).map fun q =>
        (accPos q.1 q.2, mmaFloat p f.1 (accGet r.data (accPos q.1 q.2)) q.1 q.2)
      (h.setAcc p.i.d (rs.map fun w => (w.1, w.2.1))).addFlags (rs.foldl (fun fl w => fl ||| w.2.2) f.2)

/-! ### `ald`, `ast` and `arow` -/

/-- Address of element `e` of the region (R198). -/
def accEa (base pitch : Word) (t : EType) (stride off : BitVec 5) (trans : Bool) (cols e : Nat) : Word :=
  let i := e / cols
  let j := e % cols
  let st := if stride = 0 then 32 else stride.toNat
  base + BitVec.ofNat 64 (if trans then j else i) * pitch
    + BitVec.ofNat 64 ((off.toNat + st * (if trans then i else j)) * tBytes t)

/-- The pairings of R198. -/
def aldPair (int : Bool) (t : EType) : Bool :=
  if int then t == .i32 || t == .i8
  else t == .f32 || t == .f16 || t == .bf16 || t == .e4m3 || t == .e5m2
def astPair (int : Bool) (t : EType) : Bool :=
  if int then t == .i32 || t == .i8 || t == .f32 else aldPair false t

/-- One element read by `ald`: memory as `vld`, or a ready tile (R198, R212). -/
def accLoad (t : EType) (va : Word) (e : Nat) : M Nat := do
  match tileNum va with
  | some n => do
    if va.toNat % tBytes t ≠ 0 then throw (.trap { cause := 0x05, addr := some va, elem := some e })
    slotReady n false (some e)
    tileLoad va (tBytes t) e
  | none => loadVa .unit 1 va (tBytes t) t (some e) none

def accStore (t : EType) (va : Word) (v e : Nat) : M Unit := do
  match tileNum va with
  | some n => do
    if va.toNat % tBytes t ≠ 0 then throw (.trap { cause := 0x05, addr := some va, elem := some e })
    slotReady n false (some e)
    tileStore va (tBytes t) v
  | none => storeVa .unit 2 va (tBytes t) v t false (some e) none

/-- What `ald` writes for a memory element (R200). -/
def aldValue (t : EType) (v : Nat) : Nat × Flags :=
  match t with
  | .f32 | .i32 => (v, 0)
  | .i8 => (ofSigned 32 (toSigned 8 v), 0)
  | _ =>
    let r := convert .f32 t 0 v
    (r.1, r.2.1)

/-- `ald` for the elements below `n`, all of the region where `n` is beyond it. -/
def opAldTo (n : Nat) (x : ALoad) : M Ctl := flushBefore do
  let r ← boundAcc x.d
  require (aldPair r.int x.mw)
  settleAcc x.d
  let base ← readS x.a
  let pitch ← readS x.b
  let h ← getHart
  memLoop (fun e => do
    let v ← accLoad x.mw (accEa base pitch x.mw x.stride x.off x.trans r.cols e) e
    let y := aldValue x.mw v
    modHart fun h => (h.setAcc x.d [(accPos (e / r.cols) (e % r.cols), y.1)]).addFlags y.2)
    (span h.csr.vstart.toNat (min n (r.rows * r.cols)))
  pure .next

/-- R200: the region has at most 1,024 elements. -/
def opAld (x : ALoad) : M Ctl := opAldTo 1024 x

/-- What `ast` stores for an element (R199); `f` is F, with its flags, for a scaled one. The flags of F's own rounding
count with those of every element (R199 does not name them: log 69). -/
def astValue (int : Bool) (t : EType) (f : Option (Nat × Flags)) (v : Nat) : Nat × Flags :=
  if int then
    let r := convert t .i32 0 v
    (r.1, r.2.1)
  else
    let x : FVal × Flags := match f with
      | some f =>
        let y := timesF (fDecode .f32 v) f.1
        (y.1, y.2 ||| f.2 ||| sigFlags [fDecode .f32 v])
      | none => (fDecode .f32 v, 0)
    let y : Nat × Flags := match t with
      | .e4m3 | .e5m2 =>
        let r := toNarrowF t 0 x.1
        (r.1, r.2.1)
      | _ => fEncode t 0 x.1
    (y.1, x.2 ||| y.2)

/-- F of a scaled `ast` (R199). -/
def readScale (scaled : Bool) (s : SReg) : M (Option (Nat × Flags)) := do
  if scaled then return some (scaleFactor (← readS s)) else return none

/-- `ast` for the elements below `n`. -/
def opAstTo (n : Nat) (x : AStore) : M Ctl := flushBefore do
  let r ← boundAcc x.d
  require (astPair r.int x.mw && !(x.scaled && r.int))
  settleAcc x.d
  let base ← readS x.a
  let pitch ← readS x.b
  let f ← readScale x.scaled x.s
  let h ← getHart
  memLoop (fun e => do
    let p := accPos (e / r.cols) (e % r.cols)
    if h.poison.any (isAccSite x.d fun q => q == p) then raiseElem 0x14 e
    let y := astValue r.int x.mw f (accGet r.data p)
    accStore x.mw (accEa base pitch x.mw x.stride x.off x.trans r.cols e) y.1 e
    addFlags y.2)
    (span h.csr.vstart.toNat (min n (r.rows * r.cols)))
  pure .next

/-- R199. -/
def opAst (x : AStore) : M Ctl := opAstTo 1024 x

/-- R201. -/
def opArow (x : ARow) : M Ctl := do
  let r ← boundAcc x.a
  require (x.int == r.int)
  let n ← readSrcZ x.idx
  settleAcc x.a
  require (decide (n.toNat < if x.col then r.cols else r.rows))
  let pos (k : Nat) := if x.col then accPos k n.toNat else accPos n.toNat k
  let ks := List.range (if x.col then r.rows else r.cols)
  let h ← getHart
  match ks.find? fun k => h.poison.any (isAccSite x.a fun q => q == pos k) with
  | some k => raiseElem 0x14 k
  | none => do
    modHart fun h => h.setElems x.d 32 (ks.map fun k => (k, accGet r.data (pos k)))
    pure .next

/-! ### Meanings: one per instruction -/

/-- ACFG. -/
def execAcfg (x : ACfg) (s : State) : Host.Outcome State Fault Refusal := runUnit (opAcfg x) s

/-- AREL. -/
def execArel (d : AName) (s : State) : Host.Outcome State Fault Refusal := runUnit (opArel d) s

/-- AZERO. -/
def execAzero (d : AName) (s : State) : Host.Outcome State Fault Refusal := runUnit (opAzero d) s

/-- MMA. -/
def execMma (x : Mma) (s : State) : Host.Outcome State Fault Refusal := runUnit (opMma x) s

/-- ALD. -/
def execAld (x : ALoad) (s : State) : Host.Outcome State Fault Refusal := runUnit (opAld x) s

/-- AST. -/
def execAst (x : AStore) (s : State) : Host.Outcome State Fault Refusal := runUnit (opAst x) s

/-- AROW. -/
def execArow (x : ARow) (s : State) : Host.Outcome State Fault Refusal := runUnit (opArow x) s

end Sys2Proof.Machine
end

