-- ==== Sys2Proof/Machine/Merge.lean ====
section
/-! DEFINITION. The merge unit: class 0x23 (R223 to R225). A merge is one unit; a step of it is performed whole. -/

namespace Sys2Proof.Machine

/-! ### Accesses that are logged together -/

/-- A log entry that an access at a place owes: kind and address (R329). -/
def placeLog (p : Place) (kind : Nat) (va : Word) : List (Nat × Nat × Word) :=
  match p with
  | .local_ l => if l.log then [(kind, 0, va)] else []
  | .remote => []

/-- Load `n` bytes without entering the log: the value, and the entry that it owes. -/
def peekVa (va : Word) (n : Nat) (t : EType) : M (Nat × List (Nat × Nat × Word)) := do
  let p ← locate .scalar .load va n none none
  prepLoad p va none none
  return (← takeLoad p va n t none none, placeLog p 1 va)

/-- Read a 64-byte block of eight doublewords (R223, R319, R375), with the entries owed: one for each doubleword, where
R329 does not say how many accesses the read is (DESIGN CHOICE, log 86). -/
def peekBlock (base : Word) : M (List Nat × List (Nat × Nat × Word)) := do
  let ps ← (List.range 8).mapM fun i => peekVa (base + BitVec.ofNat 64 (8 * i)) 8 .n64
  return (ps.map Prod.fst, ps.flatMap Prod.snd)

/-- The same, logged at once. -/
def readBlock (base : Word) : M (List Nat) := do
  let p ← peekBlock base
  logAccesses true p.2
  pure p.1

/-! ### Merges -/

inductive MergeOp where
  | union | inter | count (inter : Bool)
  deriving DecidableEq, Repr

/-- The merge block (R223) and the instruction's form. -/
structure MergeArgs where
  op : MergeOp
  t : EType
  kz : Bool
  ix : Nat
  idxa : Word
  vala : Word
  cnta : Nat
  idxb : Word
  valb : Word
  cntb : Nat
  oidx : Word
  oval : Word
  deriving DecidableEq, Repr

def ixType (ix : Nat) : EType := if ix = 8 then .n64 else .n32

/-- Address of entry `k`. -/
def entryVa (base : Word) (n k : Nat) : Word := base + BitVec.ofNat 64 (k * n)

/-- Is a result zero, of either sign (R224)? -/
def resultZero (t : EType) (v : Nat) : Bool := v == 0 || (tFloat t && v == 2 ^ signBit t)

/-- x + y or x * y (R224). -/
def mergeArith (op : MergeOp) (t : EType) (x y : Nat) : Nat × Flags :=
  match op with
  | .union => if tFloat t then fAddRne t x y else ((x + y) % 2 ^ tBits t, 0)
  | _ => if tFloat t then fMulV t 0 (fDecode t x) (fDecode t y) else (x * y % 2 ^ tBits t, 0)

/-- The index at a position, or one above every index. -/
def indexAt (m : MergeArgs) (base : Word) (cnt k : Nat) : M (Nat × List (Nat × Nat × Word)) :=
  if k < cnt then peekVa (entryVa base m.ix k) m.ix (ixType m.ix) else pure (2 ^ 64, [])

def valueAt (m : MergeArgs) (base : Word) (k : Nat) : M (Nat × List (Nat × Nat × Word)) :=
  peekVa (entryVa base (tBytes m.t) k) (tBytes m.t) m.t

/-- What a step outputs: nothing, or an index with a value; with the entries owed and the flags. -/
abbrev MergeOut := Option (Nat × Nat) × List (Nat × Nat × Word) × Flags

/-- The value of a step: `one` names the list of an unmatched entry. -/
def mergeValue (m : MergeArgs) (pa pb i : Nat) (one : Option Bool) : M MergeOut :=
  match m.op, one with
  | .count _, _ => pure (none, [], 0)
  | .inter, some _ => pure (none, [], 0)
  | .union, some inA => do
    let v ← if inA then valueAt m m.vala pa else valueAt m m.valb pb
    return (some (i, v.1), v.2, 0)
  | op, none => do
    let x ← valueAt m m.vala pa
    let y ← valueAt m m.valb pb
    let r := mergeArith op m.t x.1 y.1
    return (if resultZero m.t r.1 && !m.kz then none else some (i, r.1), x.2 ++ y.2, r.2)

/-- Write one output entry pair: both places are checked before either is written, and earlier outputs that another way
carries have performed (R225). -/
def mergeWrite (m : MergeArgs) (n : Nat) (out : Option (Nat × Nat)) (owed : List (Nat × Nat × Word)) : M Unit :=
  match out with
  | none => logAccesses true owed
  | some (i, v) => do
    let iva := entryVa m.oidx m.ix n
    let vva := entryVa m.oval (tBytes m.t) n
    let ip ← locate .scalar .store iva m.ix none none
    let vp ← locate .scalar .store vva (tBytes m.t) none none
    prepStore ip iva none none
    prepStore vp vva none none
    let stays (i : Item) (p : Place) (va : Word) : Bool := p == .remote && i.dst == fabricPkg va
    awaitWhere (fun _ i => !(stays i ip iva && stays i vp vva)) waitUnit
    logAccesses true (owed ++ placeLog ip 2 iva ++ placeLog vp 2 vva)
    putStore ip iva m.ix i (ixType m.ix) false none
    putStore vp vva (tBytes m.t) v m.t false none

/-- One step (R224): the new positions and count. -/
def mergeStep (m : MergeArgs) (pa pb n : Nat) : M (Nat × Nat × Nat) := do
  let a ← indexAt m m.idxa m.cnta pa
  let b ← indexAt m m.idxb m.cntb pb
  let one : Option Bool := if a.1 < b.1 then some true else if b.1 < a.1 then some false else none
  let out ← mergeValue m pa pb (min a.1 b.1) one
  mergeWrite m n out.1 (a.2 ++ b.2 ++ out.2.1)
  addFlags out.2.2
  let counts := match m.op with
    | .count inter => !inter || one.isNone
    | _ => out.1.isSome
  return (if one == some false then pa else pa + 1, if one == some true then pb else pb + 1, n + b2n counts)

/-- Leave a merge between two steps: `mpos` and s[D] say where (R225). -/
def Hart.setMpos (d : SReg) (pa pb n : Nat) (h : Hart) : Hart :=
  Hart.writeS d (BitVec.ofNat 64 n)
    { h with csr := { h.csr with posa := BitVec.ofNat 32 pa, posb := BitVec.ofNat 32 pb } }

/-- Leave it by a fault. -/
def Hart.leaveMerge (r : MergeRun) (h : Hart) : Hart := h.setMpos r.d r.pa r.pb r.n

/-- Keep it while it waits: `mpos` and s[D] stand as at its start until its end or a fault. -/
def Hart.keepMerge (r : MergeRun) (h : Hart) : Hart := { h with merge := some r }

/-- The steps that remain. A fault, or a wait for a fabric response, an earlier output or a staging line, leaves its step
undone, and the steps before it done. -/
def mergeLoop (m : MergeArgs) : Nat → MergeRun → M Unit
  | 0, r => modHart (Hart.setMpos r.d 0 0 r.n)
  | fuel + 1, r =>
    if m.cnta ≤ r.pa ∧ m.cntb ≤ r.pb then modHart (Hart.setMpos r.d 0 0 r.n)
    else fun s =>
      match mergeStep m r.pa r.pb r.n s with
      | .ok (pa, pb, n) s' => mergeLoop m fuel { r with pa, pb, n } s'
      | .error (.trap t) s' => .error (.trap t) (s'.setHart (s'.hart.leaveMerge r))
      | .error _ s' =>
        if flushed s.hart s'.hart then
          match flushDeferred s with
          | .error (.trap t) s1 => .error (.trap t) (s1.setHart (s1.hart.leaveMerge r))
          | .error _ s1 => .error (.keep none) (s1.setHart (s1.hart.keepMerge r))
          | .ok _ s1 => .error (.keep none) (s1.setHart (s1.hart.keepMerge r))
        else
          let s1 := holdUnit none s s'
          .error (.keep none) (s1.setHart (s1.hart.keepMerge r))

/-- The count that a resumed merge goes on from (R224). -/
def mergeCount (d : SReg) (pa pb : Nat) : M Nat :=
  if pa = 0 ∧ pb = 0 then pure 0 else do return (← readS d).toNat

/-- Where the merge stands: its block is read and its registers are taken at each start, and kept while it waits
(R223). -/
def mergeStart (d a : SReg) : M MergeRun := do
  match (← getHart).merge with
  | some r => pure r
  | none => do
    let base ← readS a
    if base.toNat % 64 ≠ 0 then raiseAt 0x05 base
    let block ← readBlock base
    let x := (← getHart).csr
    return { d, block, pa := x.posa.toNat, pb := x.posb.toNat, n := ← mergeCount d x.posa.toNat x.posb.toNat }

def mergeRun (op : MergeOp) (t : EType) (kz ix64 : Bool) (d a : SReg) : M Ctl := do
  let r ← mergeStart d a
  let w (i : Nat) : Word := BitVec.ofNat 64 (r.block.getD i 0)
  let m : MergeArgs :=
    { op, t, kz, ix := if ix64 then 8 else 4
      idxa := w 0, vala := w 1, cnta := (w 2).toNat, idxb := w 3, valb := w 4, cntb := (w 5).toNat
      oidx := w 6, oval := w 7 }
  require (decide (m.cnta < 2 ^ 32) && decide (m.cntb < 2 ^ 32))
  mergeLoop m (m.cnta + m.cntb + 1) r
  pure .next

def opMunion (x : Merge) : M Ctl := mergeRun .union x.t x.kz x.ix64 x.d x.a
def opMinter (x : Merge) : M Ctl := mergeRun .inter x.t x.kz x.ix64 x.d x.a
def opMcount (x : MCount) : M Ctl := mergeRun (.count x.inter) .i32 false x.ix64 x.d x.a

/-! ### Meanings: one per instruction -/

/-- MUNION. -/
def execMunion (x : Merge) (s : State) : Host.Outcome State Fault Refusal := runUnit (opMunion x) s

/-- MINTER. -/
def execMinter (x : Merge) (s : State) : Host.Outcome State Fault Refusal := runUnit (opMinter x) s

/-- MCOUNT. -/
def execMcount (x : MCount) (s : State) : Host.Outcome State Fault Refusal := runUnit (opMcount x) s

end Sys2Proof.Machine
end

