-- ==== Sys2Proof/Machine/Queue.lean ====
section
/-! DEFINITION. Launch packets (R314, R315), the launch queues (R317) and the entries of the route log (R327, R328). -/

namespace Sys2Proof.Machine

/-! ### Packets -/

namespace Packet_

def entry (p : BitVec 512) : Word := p.extractLsb' 0 64
def count (p : BitVec 512) : Nat := field p.toNat 64 64
def convoys (p : BitVec 512) : Nat := field p.toNat 128 16
def harts (p : BitVec 512) : Nat := field p.toNat 144 8
def cls (p : BitVec 512) : Nat := field p.toNat 152 3
def det (p : BitVec 512) : Bool := bit p.toNat 155
def logged (p : BitVec 512) : Bool := bit p.toNat 156
def reserved (p : BitVec 512) : Nat := field p.toNat 157 3
def tag (p : BitVec 512) : BitVec 32 := p.extractLsb' 160 32
def arg (p : BitVec 512) (i : Nat) : Word := p.extractLsb' (192 + 64 * i) 64

/-- R314: may a queue of this class take the packet? -/
def ok (p : BitVec 512) (cl : Nat) : Bool :=
  decide (1 ≤ convoys p) && decide (convoys p ≤ 2048) && decide (1 ≤ harts p) && decide (harts p ≤ 8)
    && (harts p != 8 || cls p == 0) && reserved p == 0 && cls p == cl

/-- Elements of hart `g` of a launch (R315). -/
def share (p : BitVec 512) (g : Nat) : Nat :=
  let t := convoys p * harts p
  count p / t + b2n (decide (g < count p % t))

/-- First element of hart `g` (R315). -/
def start (p : BitVec 512) (g : Nat) : Nat :=
  let t := convoys p * harts p
  g * (count p / t) + min g (count p % t)

/-- Doublewords put together, the first lowest. -/
def ofWords (ws : List Nat) : BitVec 512 :=
  BitVec.ofNat 512 (ws.reverse.foldl (fun acc w => acc * 2 ^ 64 + w % 2 ^ 64) 0)

end Packet_

/-! ### The route log -/

/-- Can the route log of a context take `n` entries, or does it write none (R328)? -/
def routeRoom (c : Context) (n : Nat) : Bool := !c.route.en || c.route.room n

/-- An entry of the route log that finds no room: FULL is set (R327). -/
def routeFull (ctx : Nat) (s : State) : State :=
  let c := s.ctxOf ctx
  s.setCtxOf ctx { c with route := { c.route with full := true } }

/-- Reserve an entry of the route log; one for which there is no room is not written, and FULL is set (R327, R328). -/
def routeLog (ctx kind cidx core slots : Nat) (seq : BitVec 40) (s : State) : State :=
  let c := s.ctxOf ctx
  if !c.route.en then s
  else if !c.route.room 1 then routeFull ctx s
  else s.setCtxOf ctx { c with route := c.route.reserve (routeEntry seq.toNat kind cidx core slots s.cycle.toNat) }

/-- Reserve the entry of a gang's packet or convoy: one of those that the gang has reserved, whatever FULL says (R375). -/
def routeTake (ctx kind cidx core slots : Nat) (seq : BitVec 40) (s : State) : State :=
  let c := s.ctxOf ctx
  let l := { c.route with held := c.route.held - 1 }
  s.setCtxOf ctx { c with route := l.reserve (routeEntry seq.toNat kind cidx core slots s.cycle.toNat) }

/-- The entry of a packet or of one of its convoys, from those reserved or from the room of the log. -/
def routeOf (held : Bool) (ctx kind cidx core slots : Nat) (seq : BitVec 40) (s : State) : State :=
  if held then routeTake ctx kind cidx core slots seq s else routeLog ctx kind cidx core slots seq s

/-- Give back `n` entries that a gang had reserved (R375). -/
def releaseHeld (ctx n : Nat) (s : State) : State :=
  let c := s.ctxOf ctx
  s.setCtxOf ctx { c with route := { c.route with held := c.route.held - n } }

/-! ### Queues -/

/-- Depth of a launch queue (R317). -/
def queueDepth : Nat := 64

/-- Entries of a queue that are taken, or reserved for a gang (R375). -/
def queueFill (s : State) (q : Nat) : Nat :=
  (s.queueOf q).entries.length + (s.parts.filter fun p => p.queue == q).length

/-- The places in the count of R332 that a gang's packet had fixed are given back when it is never enqueued; what stands
behind it moves up, unless another reservation has fixed later places (log 29). -/
def giveBackDet (vd base n : Nat) (s : State) : State :=
  let ofVd (q : Nat) : Bool := (s.queueOf q).bind.any fun b => b.2.1 == vd
  let later := (s.parts.any fun p => ofVd p.queue && p.detBase.any fun b => decide (base < b))
    || s.queues.any fun q => ofVd q.1 && q.2.entries.any fun e => !e.reserved.isEmpty && decide (base < e.detBase)
  if later then s
  else
    let v := s.vdevOf vd
    let s1 := s.setVdevOf vd { v with detCount := v.detCount - n }
    { s1 with queues := s1.queues.map fun q => if !ofVd q.1 then q else
        (q.1, { q.2 with entries := q.2.entries.map fun e =>
          if e.det && decide (base + n ≤ e.detBase) then { e with detBase := e.detBase - n } else e }) }

/-- What stands in a queue for a packet. -/
structure LaunchInfo where
  status : Word
  counter : Option (Nat × KName)
  ctx : Nat
  view : Mode
  gang : Option (Nat × Nat × Nat)
  reserved : List (Nat × List Nat)
  detBase : Option Nat
  logHeld : Bool
  deriving DecidableEq, Repr

/-- A packet enters queue `q` (R317): it takes a sequence number, its convoys their places in the count of R332, and its
entry in the route log of the queue's context. -/
def enqueue (q : Nat) (p : BitVec 512) (i : LaunchInfo) (s : State) : State :=
  match (s.queueOf q).bind with
  | none => s
  | some (_, vd, ctx) =>
    let v := s.vdevOf vd
    let det := Packet_.det p || (s.ctxOf ctx).det
    let seq := v.seq + 1
    let base := i.detBase.getD v.detCount
    let e : Queued :=
      { packet := p, seq, next := 0, since := s.now, status := i.status, counter := i.counter, ctx := i.ctx
        view := i.view, det, detBase := base, gang := i.gang, reserved := i.reserved, logHeld := i.logHeld }
    let s1 := s.setVdevOf vd { v with
      seq := seq, detCount := if det && i.detBase.isNone then v.detCount + Packet_.convoys p else v.detCount }
    let s2 := s1.setQueueOf q { s1.queueOf q with entries := (s1.queueOf q).entries ++ [e] }
    routeOf i.logHeld ctx 1 0 0xFF 0 seq s2

/-- The live context of this virtual device to which a queue number is bound (R319). -/
def liveQueue (s : State) (v : Word) : Option (Nat × Nat) :=
  if v.toNat > 255 then none
  else match (s.queueOf v.toNat).bind with
    | some (cl, vd, ctx) =>
      if vd == s.ctx.vdev && (mget s.contexts ctx).isSome && !(s.ctxOf ctx).killed then some (cl, ctx) else none
    | none => none

/-- A packet held in the endpoint takes the room of its context's route log first (R318). -/
def heldFirst (s : State) (ctx : Nat) : Bool :=
  routeRoom (s.ctxOf ctx) 1 && s.queues.any fun p =>
    !p.2.held.isEmpty && decide (queueFill s p.1 < queueDepth) && (match p.2.bind with
      | some (_, _, c) => c == ctx
      | none => false)

/-- R319. -/
def opLaunch (x : Launch) : M Ctl := do
  let a ← readS x.a
  let q ← readS x.b
  let st ← readS x.c
  if a.toNat % 64 ≠ 0 then raiseAt 0x05 a
  checkStatus st
  match liveQueue (← get) q with
  | none => raise 0x09
  | some (cl, ctx) => do
    let b ← peekBlock a
    let p := Packet_.ofWords b.1
    if !Packet_.ok p cl then raiseAt 0x01 a
    let s ← get
    if heldFirst s ctx then waitUnit
    if !routeRoom (s.ctxOf ctx) 1 then do
      set (routeFull ctx s)
      raise 0x13
    if queueFill s q.toNat ≥ queueDepth then waitUnit
    awaitPerformed
    logAccesses true b.2
    modify fun s => enqueue q.toNat p
      { status := st, counter := some (s.hart.convoy, x.k), ctx := s.ctxId, view := s.hart.mode, gang := none
        reserved := [], detBase := none, logHeld := false } s
    pure .next

/-! ### Meanings: one per instruction -/

/-- LAUNCH. -/
def execLaunch (x : Launch) (s : State) : Host.Outcome State Fault Refusal := runUnit (opLaunch x) s

end Sys2Proof.Machine
end

