-- ==== Sys2Proof/Machine/VecConfig.lean ====
section
/-! DEFINITION. The vector length, compact masks and mask logic: `setvl`, `mcpt`, `mexp` and class 0x16 (R116, R121 to
R123). `vcfg`, a convoy barrier, stands with `bar`. -/

namespace Sys2Proof.Machine

/-- R116: with A = 0 the request is `sc`. -/
def vlRequest (h : Hart) : Src → M Word
  | .reg r => if r = 0 then pure h.csr.sc else readS r
  | .imm i => pure (i.zeroExtend 64)

def opSetvl (x : SetVl) : M Ctl := do
  let c ← getConvoy
  let n ← vlRequest (← getHart) x.a
  let vl := min n.toNat c.vlmax
  modCsr fun k => { k with vl := vl }
  writeS x.d (BitVec.ofNat 64 vl)
  pure .next

/-- R121. -/
def opMcpt (x : MCpt) : M Ctl := do
  let c ← getConvoy
  let n ← readSrcZ x.a
  stallBound x.d
  writeMaskCompact x.d (min n.toNat c.vlmax) c.ewBytes
  pure .next

/-- R122: every bit of m[A] is consulted. -/
def opMexp (x : M2) : M Ctl := do
  let c ← getConvoy
  stallBound x.d
  checkMask x.a 0 16384 fun _ => true
  let h ← getHart
  writeMaskAll x.d ((h.mask c.ewBytes x.a).expand c.ewBytes)
  pure .next

/-- Activity of elements below `vl` under an operand mask (R120). -/
def maskBits (m : MName) : M (Nat → Bool) := do
  let c ← getConvoy
  let h ← getHart
  checkMask m 0 h.csr.vl fun _ => true
  return fun i => (h.mask c.ewBytes m).active c.ewBytes i

/-- Write bits 0 to `vl` - 1 of a mask (R120, R123); words written whole lose their poison (R160). -/
def writeMaskLow (ewb : Nat) (m : MName) (f : Nat → Bool) (h : Hart) : Hart :=
  let n := h.csr.vl
  clearPoison (isMaskSite m (fun w => decide (32 * w + 32 ≤ n)) false)
    ((List.range n).foldl (fun g i => g.setMaskBit m i (f i)) (h.expandMask ewb m))

/-- R123; what it reads, its compact destination's control word included, is judged together (R155). -/
def maskLogic (f : Bool → Bool → Bool) (x : M3) : M Ctl := do
  let c ← getConvoy
  stallBound x.d
  let h ← getHart
  let lowest (m : MName) := maskPoison h m (h.mask c.ewBytes m) 0 h.csr.vl fun _ => true
  raiseLowest [lowest x.a, lowest x.b, destPoison h x.d]
  let bits (m : MName) (i : Nat) := (h.mask c.ewBytes m).active c.ewBytes i
  modHart (writeMaskLow c.ewBytes x.d fun i => f (bits x.a i) (bits x.b i))
  pure .next

def opMand (x : M3) : M Ctl := maskLogic (fun a b => a && b) x
def opMor (x : M3) : M Ctl := maskLogic (fun a b => a || b) x
def opMxor (x : M3) : M Ctl := maskLogic (fun a b => a != b) x
def opMandn (x : M3) : M Ctl := maskLogic (fun a b => a && !b) x

def opMnot (x : M2) : M Ctl := maskLogic (fun a _ => !a) ⟨x.d, x.a, x.a⟩

def opMpop (x : MToS) : M Ctl := do
  let a ← maskBits x.a
  let h ← getHart
  writeS x.d (BitVec.ofNat 64 ((List.range h.csr.vl).filter a).length)
  pure .next

def opMfirst (x : MToS) : M Ctl := do
  let a ← maskBits x.a
  let h ← getHart
  writeS x.d (match (List.range h.csr.vl).find? a with
    | some i => BitVec.ofNat 64 i
    | none => BitVec.allOnes 64)
  pure .next

/-! ### Meanings: one per instruction -/

/-- SETVL. -/
def execSetvl (x : SetVl) (s : State) : Host.Outcome State Fault Refusal := runUnit (opSetvl x) s

/-- MCPT. -/
def execMcpt (x : MCpt) (s : State) : Host.Outcome State Fault Refusal := runUnit (opMcpt x) s

/-- MEXP. -/
def execMexp (x : M2) (s : State) : Host.Outcome State Fault Refusal := runUnit (opMexp x) s

/-- MAND. -/
def execMand (x : M3) (s : State) : Host.Outcome State Fault Refusal := runUnit (opMand x) s

/-- MOR. -/
def execMor (x : M3) (s : State) : Host.Outcome State Fault Refusal := runUnit (opMor x) s

/-- MXOR. -/
def execMxor (x : M3) (s : State) : Host.Outcome State Fault Refusal := runUnit (opMxor x) s

/-- MANDN. -/
def execMandn (x : M3) (s : State) : Host.Outcome State Fault Refusal := runUnit (opMandn x) s

/-- MNOT. -/
def execMnot (x : M2) (s : State) : Host.Outcome State Fault Refusal := runUnit (opMnot x) s

/-- MPOP. -/
def execMpop (x : MToS) (s : State) : Host.Outcome State Fault Refusal := runUnit (opMpop x) s

/-- MFIRST. -/
def execMfirst (x : MToS) (s : State) : Host.Outcome State Fault Refusal := runUnit (opMfirst x) s

end Sys2Proof.Machine
end

