-- ==== Sys2Proof/Machine/Sync.lean ====
section
/-! DEFINITION. Class 0x06, synchronisation (R215, R216, R262 to R270, R274, R288 to R294), and `vcfg` (R115). Accesses
of a hart within the package are performed at its own step (log 4), so an ordering waits only for what lies outside the
hart: items of the fabric, held flags, transfers, depot commands and other harts. -/

namespace Sys2Proof.Machine

/-! ### `fence` and `fsig` -/

/-- An engine operation or a posted closure of the current hart that is not over, on whatever core it runs: a convoy that
was out may have left one on the core it came from (R248, R279, R290). -/
def enginePending (s : State) : Bool :=
  let h := s.hart
  let posted (p : Post) := !p.engine && p.poster == (h.convoy, h.hidx)
  (s.cores.any fun c => (c.2.transfers.any fun t => t.convoy == h.convoy && t.hidx == h.hidx) || c.2.posts.any posted)
    || s.ctx.posts.any posted
    || s.convoys.any fun p => p.2.poster == some (h.convoy, h.hidx)

/-- From here on the hart fetches lines as they now stand (R78). -/
def refetch : M Unit := modify fun s => s.setHart { s.hart with code := s.mem }

/-- Does a fence of these kinds cover a vault word (R279): V the own core's, H those of the tower's other cores, B those
of other towers? -/
def kindCovers (k : Kinds) (core key : Nat) : Bool :=
  let c := key / 2 ^ 30
  if c = core then k.v else if c / 32 = core / 32 then k.h else k.b

/-- R290. -/
def opFence (x : Fence) : M Ctl := do
  let s ← get
  flushWhere (deferredIn x.scope s.coreId)
  awaitFlags fun key => kindCovers x.kinds s.coreId key && inDomain x.scope s.coreId key
  let s ← get
  if (x.kinds.e && enginePending s) || (x.kinds.d && depotPending s) then keepUnit
  if x.kinds.f then awaitItems
  if x.kinds.o then flushHost
  if x.scope ≠ .hart ∧ x.scope ≠ .convoy then refetch
  pure .next

/-- Accesses of the hart that the base die holds, lead to a vault of this package and have not performed. -/
def ownTo (s : State) (vault : Nat) : List Item :=
  (hartItems s).filter fun i => i.failed.isNone && leadsTo vault s i

/-- R294. A flag in this package that covers accesses through the fabric window is held at the base die; the hart goes
on. -/
def opFsig (x : Fsig) : M Ctl := do
  let fa ← readS x.a
  let v ← readSrc x.b
  let p ← locate .fsig .store fa (tBytes x.t) none none
  match p with
  | .local_ l => do
    let s0 ← get
    reportItem fun i => i.dst == s0.package
    flushWhere (deferredIn .package s0.coreId)
    let s ← get
    let data := v.toNat % 2 ^ tBits x.t
    let covers := (ownTo s (l.key / 2 ^ 30)).map Item.id
    if covers.isEmpty then storePlace p 2 fa (tBytes x.t) data x.t false none none
    else do
      if (s.coreOf (l.key / 2 ^ 30)).fenced then throw (.trap (accessTrap 0x15 fa none none))
      awaitLogged l
      logOne l 2 fa none
      modify fun s => { s with
        items := s.items ++ [{ hartItem s fa x.t (.flag l.key (BitVec.ofNat 64 data)) false false 0 with
          id := s.nextItem, dst := s.package, covers := covers, unsent := true, entry := heldEntry s fa
          place := if logsHere s l then entryPlace s 2 0 fa else none }]
        nextItem := s.nextItem + 1 }
    pure .next
  | .remote => do
    reportItem fun i => i.dst == fabricPkg fa
    flushDeferred
    let s ← get
    let covers := ((hartItems s).filter fun i => i.dst == fabricPkg fa && i.failed.isNone).map Item.id
    set (sendItem { hartItem s fa x.t (.store (BitVec.ofNat 64 (v.toNat % 2 ^ tBits x.t))) false false 0 with
      covers := covers, unsent := !covers.isEmpty } s)
    pure .next

/-! ### Waiting harts -/

/-- The instruction at which a hart waits. -/
def Hart.waitsAt (h : Hart) : Option Instr :=
  match h.status with
  | .waiting i => some i
  | _ => none

/-- The hart waits at an instruction, from now on if it did not already. -/
def enterWait (i : Instr) : M Unit := modify fun s =>
  let h := s.hart
  s.setHart { h with status := .waiting i, stamp := if h.waitsAt.isSome then h.stamp else s.now }

/-- Hart `g` commits its waiting unit with changes of its own (R268: detection resumes). -/
def commitHart (f : Hart → Hart) (s : State) (g : Nat) : State :=
  let h := s.hartOf g
  let c := s.convoyOf h.convoy
  (s.setConvoyOf h.convoy { c with suspended := false }).setHartOf g (f (retire 1 (nextSlot h.pc) h))

/-- Hart `g` takes a trap at its waiting unit. -/
def trapHart (t : Trap) (s : State) (g : Nat) : State :=
  let h := s.hartOf g
  s.setHartOf g (takeTrap t false h.pc h)

/-- Apply every pending update of hart `g` in order; an update that cannot be made is dropped (R333): the state, and the
first failure. -/
def applyAll (g : Nat) (s : State) : State × Option (BitVec 8 × Word) :=
  let cur := s.cur
  let r := (s.hartOf g).deferred.foldl (fun (acc : State × Option (BitVec 8 × Word)) d =>
    match applyDeferred d acc.1 with
    | (s', none) => (s', acc.2)
    | (s', some c) => (s', acc.2 <|> some (c, d.va))) ({ s with cur := g }, none)
  let s' := { r.1 with cur := cur }
  (s'.setHartOf g { s'.hartOf g with deferred := [] }, r.2)

/-- Apply the pending updates of the participants of a barrier in ascending GID (R333): each hart's first failure. -/
def flushBarrier : List Nat → State → State × List (Nat × BitVec 8 × Word)
  | [], s => (s, [])
  | g :: t, s =>
    let r := applyAll g s
    let rest := flushBarrier t r.1
    (rest.1, (match r.2 with
      | some b => (g, b) :: rest.2
      | none => rest.2))

/-- The participants of a completed barrier go on; one that owned a failed update takes its trap at the next unit
(R333). -/
def releaseBarrier (gs : List Nat) (f : Nat → Hart → Hart) (s : State) : State :=
  let r := flushBarrier gs s
  gs.foldl (fun s g => commitHart (fun h =>
    let h' := f g h
    match mget r.2 g with
    | some (c, va) => takeTrap { cause := c, addr := some va, elem := linkElem c 0 } false h'.pc h'
    | none => h') s g) r.1

/-! ### `bar` and `vcfg` (R262, R115) -/

/-- Participants of a convoy: GIDs of its harts that have not ended, ascending (R261). -/
def participants (s : State) (u : Nat) : List Nat :=
  (s.harts.filter fun p => p.2.convoy == u && (match p.2.status with
    | .ending _ _ => false
    | _ => true)).map Prod.fst

def isBarrier : Instr → Bool
  | .bar => true
  | .vcfg _ => true
  | _ => false

/-- Where a participant has arrived. -/
def arrival (s : State) (g : Nat) : Option Instr :=
  match (s.hartOf g).waitsAt with
  | some i => if isBarrier i then some i else none
  | none => none

/-- `vtype` of a `vcfg` takes effect, and every `vl` and `vstart` of the convoy becomes 0 (R115). -/
def setVtype (u : Nat) (x : VCfg) (s : State) : State :=
  let s1 := s.setConvoyOf u { s.convoyOf u with ew := x.ew, grp := x.grp }
  { s1 with harts := s1.harts.map fun p =>
      if p.2.convoy = u then (p.1, { p.2 with csr := { p.2.csr with vl := 0, vstart := 0 } }) else p }

/-- The destination of a `vcfg`. -/
def vcfgDest : Instr → SReg
  | .vcfg x => x.d
  | _ => 0

def sameVtype (x : VCfg) : Instr → Bool
  | .vcfg y => y.ew == x.ew && y.grp == x.grp
  | _ => false

/-- Complete the convoy barrier if every participant has arrived (R262, R115). -/
def settleBarrier (u : Nat) (s : State) : State :=
  let gs := participants s u
  let as := gs.filterMap (arrival s)
  if gs = [] ∨ as.length ≠ gs.length then s
  else
    let s1 := s.setConvoyOf u { s.convoyOf u with arrived := 0 }
    if as.all fun i => i == .bar then releaseBarrier gs (fun _ h => h) s1
    else match as with
      | .vcfg x :: _ =>
        if as.all (sameVtype x) then
          let s2 := setVtype u x s1
          let n := BitVec.ofNat 64 (s2.convoyOf u).vlmax
          let dests := gs.zip (as.map vcfgDest)
          releaseBarrier gs (fun g h => h.writeS ((mget dests g).getD 0) n) s2
        else gs.foldl (trapHart { cause := 0x1A }) s1
      | _ => gs.foldl (trapHart { cause := 0x1A }) s1

/-- Do pending updates of hart `g` wait for logged ones with earlier places of harts that `skip` does not name (R330)? -/
def owedBefore (skip : Nat → Bool) (s : State) (g : Nat) : Bool :=
  (s.hartOf g).deferred.any (afterOthers { s with cur := g } skip)

/-- Before a hart arrives at a barrier (R262, R274): its flags are stored, and its pending updates can be applied when the
barrier completes. An update through the fabric window that stands before a local one to its vault is sent first
(log 65). -/
def beforeBarrier : M Unit := do
  awaitFlags fun _ => true
  let s ← get
  if crossPath s s.hart.deferred then flushDeferred
  let s ← get
  if s.hart.deferred.any (followsItem s) then settleUnit

/-- Arrive at the convoy barrier, and wait there if it does not complete. -/
def arriveAt (i : Instr) : M Ctl := do
  let s ← get
  if s.hart.waitsAt.isNone then
    beforeBarrier
    if owedBefore (fun g => (participants s s.hart.convoy).contains g) (← get) s.cur then settleUnit
  enterWait i
  modify fun s => s.setConvoy { s.convoy with arrived := s.convoy.arrived ||| (1#8 <<< s.hart.hidx) }
  modify fun s => settleBarrier s.hart.convoy s
  if (← getHart).waitsAt.isSome then keepAt i
  pure .stay

def opBar : M Ctl := arriveAt .bar
def opVcfg (x : VCfg) : M Ctl := arriveAt (.vcfg x)

/-! ### `cbar` (R274, R275) -/

def Cluster.cbar (c : Cluster) (n : Nat) : CBar := (mget c.cbars n).getD CBar.reset

def setCbar (cl n : Nat) (b : CBar) (s : State) : State :=
  s.setClusterOf cl { s.clusterOf cl with cbars := mset (s.clusterOf cl).cbars n b }

/-- Leave the cluster barriers of a cluster: the arrival is withdrawn, and a barrier with none left is idle (R275). -/
def withdrawCbar (cl g : Nat) (s : State) : State :=
  let c := s.clusterOf cl
  if c.cbars.any fun p => p.2.waiting.contains g then
    s.setClusterOf cl { c with cbars := c.cbars.map fun p =>
      let w := p.2.waiting.filter fun x => x != g
      (p.1, if w.length = p.2.waiting.length then p.2 else if w = [] then CBar.reset else { p.2 with waiting := w }) }
  else s

/-- A hart leaves its convoy barrier: its arrival bit is withdrawn (R263). -/
def withdrawBar (g : Nat) (s : State) : State :=
  let h := s.hartOf g
  match arrival s g with
  | some _ =>
    let c := s.convoyOf h.convoy
    s.setConvoyOf h.convoy { c with arrived := c.arrived &&& ~~~(1#8 <<< h.hidx) }
  | none => s

/-- A hart that stops waiting by a trap or an end withdraws from every barrier (R263, R275). -/
def withdraw (g : Nat) (s : State) : State := withdrawCbar (g / 64) g (withdrawBar g s)

def opCbar (x : SPair) : M Ctl := do
  let n ← readS x.a
  let cnt ← readS x.b
  require (decide (n.toNat ≤ 15) && cnt != 0 && decide (cnt.toNat ≤ 64))
  beforeBarrier
  let s ← get
  let cl := s.coreId / 8
  let b0 := (s.clusterOf cl).cbar n.toNat
  let b := if b0.count = 0 then ⟨cnt.toNat, s.ctx.asid, []⟩ else b0
  if b.asid ≠ s.ctx.asid then raise 0x1A
  if b.count ≠ cnt.toNat then do
    set (b.waiting.foldl (trapHart { cause := 0x1A }) (setCbar cl n.toNat CBar.reset s))
    raise 0x1A
  let all := sortBy (fun a b => decide (a ≤ b)) (b.waiting ++ [s.cur])
  if all.length = b.count then do
    if all.any (owedBefore all.contains s) then settleUnit
    set (releaseBarrier all (fun _ h => h) (setCbar cl n.toNat CBar.reset s))
    pure .stay
  else do
    set (setCbar cl n.toNat { b with waiting := b.waiting ++ [s.cur] } s)
    keepAt (.cbar x)

/-! ### Counters and queues -/

/-- R215. -/
def opWait (x : WaitK) : M Ctl := do
  let target ← readSrcZ x.b
  let k := (← getConvoy).k[x.k]
  if k.toNat < target.toNat then waitAt (.wait x)
  writeS x.d k
  pure .next

/-- R216. -/
def opKadd (x : KAdd) : M Ctl := do
  let n ← readSrcZ x.a
  require (decide (n.toNat < 2 ^ 63))
  awaitPerformed
  modConvoy (Convoy.addK x.k n)
  pure .next

/-- The convoy whose queue a `qput` names (R267). -/
def putTarget (par : Bool) : M Nat := do
  let s ← get
  if !par then pure s.hart.convoy
  else match s.convoy.poster with
    | none => raise 0x11
    | some (u, _) =>
      match mget s.convoys u with
      | some c => if c.core = some s.coreId ∧ !c.ended then pure u else raise 0x11
      | none => raise 0x11

/-- Entries of a queue register (R20). -/
def queueRegs : Nat := 16

def writeNb (nb : Option SReg) (v : Word) : M Unit :=
  match nb with
  | some c => writeS c v
  | none => pure ()

/-- R265. -/
def opQput (x : QPut) : M Ctl := do
  let v ← readSrc x.a
  let u ← putTarget x.par
  let c := (← get).convoyOf u
  if c.q[x.q].length ≥ queueRegs then
    if x.nb.isSome then do
      writeNb x.nb 0
      pure .next
    else waitAt (.qput x)
  else do
    releasePackage
    modify fun s => s.setConvoyOf u { s.convoyOf u with q := (s.convoyOf u).q.set x.q ((s.convoyOf u).q[x.q] ++ [v]) }
    writeNb x.nb 1
    pure .next

def isQget (q : QName) : Instr → Bool
  | .qget x => x.q == q
  | _ => false

/-- Does another hart of the convoy wait for an entry of the queue with an earlier arrival (R265)? -/
def qgetBehind (s : State) (q : QName) : Bool :=
  let h := s.hart
  let mine := if h.waitsAt.isSome then (h.stamp, h.hidx) else (s.now, 8)
  s.harts.any fun p => p.1 != s.cur && p.2.convoy == h.convoy && (match p.2.waitsAt with
      | some i => isQget q i
      | none => false)
    && (decide (p.2.stamp < mine.1) || (p.2.stamp == mine.1 && decide (p.2.hidx < mine.2)))

def opQget (x : QGet) : M Ctl := do
  let c ← getConvoy
  match c.q[x.q] with
  | [] =>
    if x.nb.isSome then do
      writeNb x.nb 0
      pure .next
    else waitAt (.qget x)
  | v :: rest => do
    if x.nb.isNone && qgetBehind (← get) x.q then waitAt (.qget x)
    modConvoy fun c => { c with q := c.q.set x.q rest }
    writeS x.d v
    writeNb x.nb 1
    pure .next

/-! ### `exit` (R270) -/

/-- The hart stops with a status; what its end does follows (R239): it withdraws from every barrier at once (R261). -/
def endHart (g : Nat) (status : BitVec 8) (s : State) : State :=
  let s1 := withdraw g s
  let h := s1.hartOf g
  s1.setHartOf g { h with status := .ending status 1 }

/-- Drop the failed items of the current hart (R371). -/
def dropItems (s : State) : State :=
  let gone := (hartItems s).map Item.id
  { s with items := s.items.filter fun i => !gone.contains i.id }

/-- Apply the pending updates of the current hart at its end, as far as they can be now: the address of the first that
fails is kept (R333). -/
def flushExit : Nat → State → State
  | 0, s => s
  | n + 1, s =>
    let (s', rest, bad) := applyUpTo (fun _ => true) s.hart.deferred s
    let left := s'.setHart { s'.hart with deferred := rest }
    match bad with
    | .fails _ va => flushExit n (left.setHart { left.hart with flushFault := left.hart.flushFault <|> some va })
    | _ => left

/-- R270, with the flush of R333 and the failed items of R371. The end of a gang's hart is a release at system scope
(R375). -/
def opExit : M Ctl := do
  let h ← getHart
  if !h.mma.isEmpty then waitUnit
  modify fun s => flushExit s.hart.deferred.length s
  let s ← get
  if !s.hart.deferred.isEmpty || (hartItems s).any fun i => i.failed.isNone then keepUnit
  if s.hart.join.gang.isSome then flushHost
  let failed := (hartItems s).any fun i => i.failed.isSome
  let h := (← get).hart
  let status : BitVec 8 :=
    if h.flushFault.isSome then 0x14
    else if failed then 0x16
    else if h.mode = .user then 0 else h.csr.xcause
  modify fun s => endHart s.cur status
    (resumeDetection ((dropItems s).setHart { h with csr := { h.csr with instret := h.csr.instret + 1 } }))
  pure .stay

/-! ### Meanings: one per instruction -/

/-- FENCE. -/
def execFence (x : Fence) (s : State) : Host.Outcome State Fault Refusal := runUnit (opFence x) s

/-- FSIG. -/
def execFsig (x : Fsig) (s : State) : Host.Outcome State Fault Refusal := runUnit (opFsig x) s

/-- BAR. -/
def execBar (s : State) : Host.Outcome State Fault Refusal := runUnit opBar s

/-- VCFG. -/
def execVcfg (x : VCfg) (s : State) : Host.Outcome State Fault Refusal := runUnit (opVcfg x) s

/-- CBAR. -/
def execCbar (x : SPair) (s : State) : Host.Outcome State Fault Refusal := runUnit (opCbar x) s

/-- WAIT. -/
def execWait (x : WaitK) (s : State) : Host.Outcome State Fault Refusal := runUnit (opWait x) s

/-- KADD. -/
def execKadd (x : KAdd) (s : State) : Host.Outcome State Fault Refusal := runUnit (opKadd x) s

/-- QPUT. -/
def execQput (x : QPut) (s : State) : Host.Outcome State Fault Refusal := runUnit (opQput x) s

/-- QGET. -/
def execQget (x : QGet) (s : State) : Host.Outcome State Fault Refusal := runUnit (opQget x) s

/-- EXIT. -/
def execExit (s : State) : Host.Outcome State Fault Refusal := runUnit opExit s

end Sys2Proof.Machine
end

