-- ==== Sys2Proof/Machine/Record.lean ====
section
/-! DEFINITION. The hart record of R251: what a hart's state is as doublewords, and a hart read back from them. -/

namespace Sys2Proof.Machine

/-! ### Special registers as words (R25 to R31) -/

def Csrs.amaxWord (x : Csrs) : Word := BitVec.ofNat 64 (b2n x.nanseen * 2 ^ 32 + x.mag.toNat)
def Csrs.mpos (x : Csrs) : Word := BitVec.ofNat 64 (x.posb.toNat * 2 ^ 32 + x.posa.toNat)
def Hart.frameWord (h : Hart) : Word := BitVec.ofNat 64 (h.ring.length * 2 ^ 32 + h.csr.frame.toNat)

def Csrs.setMpos (v : Word) (x : Csrs) : Csrs := { x with posa := v.extractLsb' 0 32, posb := v.extractLsb' 32 32 }
def Csrs.setAmax (v : Word) (x : Csrs) : Csrs := { x with nanseen := v.getLsbD 32, mag := v.extractLsb' 0 31 }

/-! ### The record as doublewords -/

/-- Doublewords of a number of `n` doublewords, from an offset. -/
def numWords (off n v : Nat) : List (Nat × Nat) := (List.range n).map fun i => (off + 8 * i, v / 2 ^ (64 * i) % 2 ^ 64)

/-- The control word of a mask: FORM, EW, COUNT. -/
def MaskReg.word (k : MaskReg) : Nat := if k.explicit then 2 ^ 63 else k.ew * 2 ^ 16 + k.count

/-- The descriptor of an accumulator name. -/
def accWord : Option AccReg → Nat
  | none => 0
  | some r => 2 ^ 63 + (r.rows - 1) * 2 ^ 16 + (r.cols - 1) * 2 ^ 8 + b2n r.int

/-- The twenty CSRs of the record, in its order (R251). -/
def Hart.csrWords (h : Hart) : List Word :=
  let x := h.csr
  [x.sc, x.vstart.zeroExtend 64, x.bstart.zeroExtend 64, x.mpos, x.chstep.zeroExtend 64, x.fflags.zeroExtend 64
  , x.frm.zeroExtend 64, x.amaxWord, BitVec.ofNat 64 x.vl, x.env, h.frameWord, x.instret, x.xcause.zeroExtend 64, x.xpc
  , x.xaddr, x.xelem.zeroExtend 64, x.xbank.zeroExtend 64, x.xstat.zeroExtend 64, x.tvec, x.xscratch]

/-- Consecutive doublewords from an offset. -/
def wordsAt (off : Nat) (ws : List Word) : List (Nat × Nat) :=
  (List.zip (List.range ws.length) ws).map fun p => (off + 8 * p.1, p.2.toNat)

/-- The bound region of name `a`, 64 KiB for each name: offset, bytes and value of its elements in pairs, and of the last
of a row by itself where they are odd in number. -/
def accWords (a : Nat) : Option AccReg → List (Nat × Nat × Nat)
  | none => []
  | some r => (List.range r.rows).flatMap fun i => (List.range ((r.cols + 1) / 2)).map fun k =>
      let off := 0x19000 + a * 0x10000 + 4 * accPos i (2 * k)
      let lo := accGet r.data (accPos i (2 * k))
      if 2 * k + 1 < r.cols then (off, 8, lo + accGet r.data (accPos i (2 * k + 1)) * 2 ^ 32) else (off, 4, lo)

def isHalted (h : Hart) : Bool :=
  match h.status with
  | .halted => true
  | _ => false

/-- The record of R251: offset, bytes and value of its fields. `cause` is its cause word; `m0` is saved as it reads. -/
def hartWords (h : Hart) (ewb : Nat) (cause : Nat) : List (Nat × Nat × Nat) :=
  let ms := List.finRange 16
  (wordsAt 0 h.s.toList ++ wordsAt 0x100 h.csrWords
    ++ [(0x1A0, h.pc.toNat), (0x1A8, cause * 256 + b2n (isHalted h) * 2 + b2n (h.mode == .supervisor))
      , (0x1B0, h.instNo.toNat * 2 ^ 32 + b2n h.overflow)]
    ++ wordsAt 0x200 h.c.toList
    ++ numWords 0x280 32 (h.ring.reverse.foldl (fun acc w => acc * 2 ^ 32 + w.toNat) 0)
    ++ (ms.map fun m => (0x380 + 8 * m.val, (h.mask ewb m).word))
    ++ ((List.finRange 8).map fun a => (0x400 + 8 * a.val, accWord h.acc[a]))
    ++ ((List.finRange 32).flatMap fun r => numWords (0x1000 + 2048 * r.val) 256 h.v[r].toNat)
    ++ (ms.flatMap fun m => numWords (0x11000 + 2048 * m.val) 256 (h.mask ewb m).bits.toNat)).map (fun p => (p.1, 8, p.2))
    ++ ((List.finRange 8).flatMap fun a => accWords a.val h.acc[a])

/-- Bytes of a hart record (R251). -/
def hartRecord : Nat := 0xA0000

/-! ### Reading a record -/

/-- The number made of `n` doublewords from an offset. -/
def readNum (rd : Nat → M Nat) (off n : Nat) : M Nat := do
  let ws ← (List.range n).mapM fun i => rd (off + 8 * i)
  pure (ws.reverse.foldl (fun acc w => acc * 2 ^ 64 + w % 2 ^ 64) 0)

/-- The mask that a control word and its bits give; none when the word is invalid: COUNT or EW that no compact form has, a
bit outside the fields, and EW or COUNT of an explicit form, which does not use them, not 0 (R13 and R252 leave open which
words are invalid, DESIGN CHOICE, log 74). -/
def maskOf (w bits : Nat) : Option MaskReg :=
  if bit w 63 then (if w = 2 ^ 63 then some ⟨true, 0, 0, BitVec.ofNat 16384 bits, none⟩ else none)
  else
    let ew := field w 16 4
    let n := field w 0 15
    if w < 2 ^ 20 ∧ bit w 15 = false ∧ (ew = 1 ∨ ew = 2 ∨ ew = 4 ∨ ew = 8) ∧ n ≤ 16384 then some ⟨false, ew, n, 0, none⟩
    else none

/-- The mask `i` of a record whose control word is `w`. -/
def readMask (rd : Nat → M Nat) (i w : Nat) : M (Option MaskReg) := do
  let bits ← if bit w 63 then readNum rd (0x11000 + 2048 * i) 256 else pure 0
  return maskOf w bits

/-- An accumulator descriptor: none when it is invalid; `some none` when the name is unbound. One with bit 63 clear and
any other bit set is invalid (R252 leaves it open, DESIGN CHOICE, log 74). -/
def accOf (w : Nat) : Option (Option (Nat × Nat × Bool)) :=
  if w = 0 then some none
  else if bit w 63 && field w 23 40 == 0 && !bit w 15 && field w 1 7 == 0 then
    some (some (field w 16 7 + 1, field w 8 7 + 1, bit w 0))
  else none

/-- Are the reserved bits of the CSR words 0 (R252)? `vstart` may be any value of its field and `vl` any value, and SIGN
of `amax` is ignored (R26, R27). MODE of `frm` over 4 and DEPTH over 64, which no such register holds, are not valid
(DESIGN CHOICE, log 74). -/
def csrWordsOk (w : Nat → Nat) : Bool :=
  decide (w 1 < 2 ^ 15) && decide (w 2 < 32) && decide (w 4 < 2 ^ 16) && decide (w 5 < 32) && decide (w 6 ≤ 4)
    && decide (w 7 < 2 ^ 33) && decide (w 10 < 2 ^ 39)
    && decide (w 10 / 2 ^ 32 ≤ 64) && decide (w 12 < 256) && decide (w 15 < 2 ^ 14) && decide (w 16 < 32)
    && decide (w 17 < 32) && decide (w 18 % 64 = 0)

def csrsOf (w : Nat → Nat) : Csrs :=
  { sc := BitVec.ofNat 64 (w 0), vstart := BitVec.ofNat 15 (w 1), bstart := BitVec.ofNat 5 (w 2)
    posa := BitVec.ofNat 32 (w 3), posb := BitVec.ofNat 32 (w 3 / 2 ^ 32), chstep := BitVec.ofNat 16 (w 4)
    fflags := BitVec.ofNat 5 (w 5), frm := BitVec.ofNat 3 (w 6), nanseen := bit (w 7) 32, mag := BitVec.ofNat 31 (w 7)
    vl := w 8, env := BitVec.ofNat 64 (w 9), frame := BitVec.ofNat 32 (w 10), instret := BitVec.ofNat 64 (w 11)
    xcause := BitVec.ofNat 8 (w 12), xpc := BitVec.ofNat 64 (w 13), xaddr := BitVec.ofNat 64 (w 14)
    xelem := BitVec.ofNat 14 (w 15), xbank := BitVec.ofNat 5 (w 16), xstat := BitVec.ofNat 5 (w 17)
    tvec := BitVec.ofNat 64 (w 18), xscratch := BitVec.ofNat 64 (w 19) }

/-- The elements of a bound region as read, row by row. -/
def readAcc (rd : Nat → M Nat) (a rows cols : Nat) : M AccData := do
  let ws ← (List.range rows).mapM fun i => (List.range ((cols + 1) / 2)).mapM fun k => do
    let w ← rd (0x19000 + a * 0x10000 + 4 * accPos i (2 * k))
    return (accPos i (2 * k), w % 2 ^ 32) :: (if 2 * k + 1 < cols then [(accPos i (2 * k + 1), w / 2 ^ 32)] else [])
  pure (ws.flatten.flatten.foldl (fun d w => accSet d w.1 w.2) 0)

/-- The accumulators of a record: each bound name with its region, its physical accumulator not yet known. -/
def readAccs (rd : Nat → M Nat) (ds : List (Option (Nat × Nat × Bool))) : M (List (Option AccReg)) :=
  (List.zip (List.range 8) ds).mapM fun p =>
    match p.2 with
    | none => pure none
    | some (r, c, i) => do return some ⟨0, r, c, i, ← readAcc rd p.1 r c⟩

/-- What a record says: the hart on top of `old`, which keeps its place, its instance number and what a record does not
hold; none when the record is not valid (R252). -/
def readHart (rd : Nat → M Nat) (old : Hart) : M (Option Hart) := do
  let ss ← (List.range 32).mapM fun i => rd (8 * i)
  let cs ← (List.range 20).mapM fun i => rd (0x100 + 8 * i)
  let pc := BitVec.ofNat 64 (← rd 0x1A0)
  let hs ← rd 0x1A8
  let hi ← rd 0x1B0
  let cc ← (List.range 16).mapM fun i => rd (0x200 + 8 * i)
  let ring ← readNum rd 0x280 32
  let mw ← (List.range 16).mapM fun i => rd (0x380 + 8 * i)
  let aw ← (List.range 8).mapM fun i => rd (0x400 + 8 * i)
  let w (i : Nat) := cs.getD i 0
  let ds := aw.map accOf
  let ms ← (List.range 16).mapM fun i => readMask rd i (mw.getD i 0)
  if !csrWordsOk w || pcBreaks pc || decide (2 ^ 16 ≤ hs) || field hs 2 6 != 0 || field hi 1 31 != 0
      || ms.any Option.isNone || ds.any Option.isNone then pure none
  else do
    let vs ← (List.range 32).mapM fun i => readNum rd (0x1000 + 2048 * i) 256
    let accs ← readAccs rd (ds.map fun d => d.getD none)
    let depth := w 10 / 2 ^ 32
    pure (some { old with
      mode := if bit hs 0 then .supervisor else .user
      status := if bit hs 1 then .halted else .running
      pc := pc
      s := Vector.ofFn fun i => if i.val = 0 then 0 else BitVec.ofNat 64 (ss.getD i.val 0)
      v := Vector.ofFn fun i => BitVec.ofNat 16384 (vs.getD i.val 0)
      m := Vector.ofFn fun i =>
        { ((ms.getD i.val none).getD MaskReg.reset) with bound := old.m[i].bound }
      acc := Vector.ofFn fun i => accs.getD i.val none
      c := Vector.ofFn fun i => BitVec.ofNat 64 (cc.getD i.val 0)
      csr := csrsOf w
      ring := (List.range depth).map fun i => BitVec.ofNat 32 (ring / 2 ^ (32 * i))
      overflow := bit hi 0
      poison := [] })

/-- Give each bound name a physical accumulator of those free, lowest first (R202, R252); none when they do not
suffice. -/
def claimAccs (free : List Nat) (h : Hart) : Option Hart :=
  let names := (List.finRange 8).filter fun a => h.acc[a].isSome
  if free.length < names.length then none
  else some { h with acc := Vector.ofFn fun a =>
    match h.acc[a] with
    | none => none
    | some r => some { r with phys := ((names.zip free).find? fun p => p.1 == a).elim 0 Prod.snd } }

/-- The free physical accumulators of a core, ascending (R187). -/
def freeAccs (used : List Nat) : List Nat := (List.range 16).filter fun n => !used.contains n

end Sys2Proof.Machine
end

