-- ==== Sys2Proof/Machine/System.lean ====
section
/-! DEFINITION. Class 0x08, the system instructions (R161 to R166, R252, R306, R307, R331), with the special registers of
R24. -/

namespace Sys2Proof.Machine

/-! ### Special registers (R23 to R33) -/

def hartIdWord (s : State) : Word := BitVec.ofNat 64 (s.hart.hidx * 2 ^ 16 + s.cur)
def convoyIdWord (c : Convoy) : Word := BitVec.ofNat 64 (c.tag.toNat * 2 ^ 32 + c.cidx)
def coreIdWord (s : State) : Word := BitVec.ofNat 64 (s.ctx.vdev * 2 ^ 16 + s.coreId)
def detWord (h : Hart) : Word := BitVec.ofNat 64 (b2n h.logged * 2 + b2n h.det)
def vtypeWord (c : Convoy) : Word := BitVec.ofNat 64 (c.grp.toNat * 16 + c.ew.toNat)
/-- Share of the staging cache of the hart's virtual device, summed over the towers (R349). -/
def shareWord (s : State) : Word :=
  BitVec.ofNat 64 ((s.staging.units.filter fun u => u.1.2 == s.ctx.vdev).map Prod.snd).sum
def Log.control (l : Log) : Word := BitVec.ofNat 64 (b2n l.full * 2 + b2n l.en)

/-- The log registers of a log, by offset from its base register (R33). -/
def Log.reg (l : Log) (k : Nat) : Word :=
  match k with
  | 0 => l.base
  | 1 => l.limit
  | 2 => l.head
  | _ => l.control

/-- The value of a CSR for the current hart; none for a number to which no CSR is assigned (R24). -/
def csrRead (s : State) (n : Nat) : Option Word :=
  let h := s.hart
  let x := h.csr
  match n with
  | 0x002 => some x.sc
  | 0x003 => some (x.vstart.zeroExtend 64)
  | 0x004 => some (x.bstart.zeroExtend 64)
  | 0x005 => some x.mpos
  | 0x006 => some (x.chstep.zeroExtend 64)
  | 0x007 => some (x.fflags.zeroExtend 64)
  | 0x008 => some (x.frm.zeroExtend 64)
  | 0x009 => some x.amaxWord
  | 0x400 => some (BitVec.ofNat 64 x.vl)
  | 0x401 => some (vtypeWord s.convoy)
  | 0x402 => some x.env
  | 0x403 => some h.frameWord
  | 0x410 => some s.cycle
  | 0x411 => some x.instret
  | 0x412 => some (hartIdWord s)
  | 0x413 => some (convoyIdWord s.convoy)
  | 0x414 => some (coreIdWord s)
  | 0x415 => some (detWord h)
  | 0x416 => some (shareWord s)
  | 0x800 => some (x.xcause.zeroExtend 64)
  | 0x801 => some x.xpc
  | 0x802 => some x.xaddr
  | 0x803 => some (x.xelem.zeroExtend 64)
  | 0x804 => some (x.xbank.zeroExtend 64)
  | 0x805 => some (x.xstat.zeroExtend 64)
  | 0x806 => some x.tvec
  | 0x807 => some x.xscratch
  | 0x808 => some s.ctx.ctxbase
  | 0x809 => some (s.ctx.asid.zeroExtend 64)
  | 0x80A => some s.ctx.ptbase
  | 0x80B => some s.ctx.codebase
  | 0x80C => some (BitVec.ofNat 64 s.window.1)
  | 0x810 => some (s.ctx.route.reg 0)
  | 0x811 => some (s.ctx.route.reg 1)
  | 0x812 => some (s.ctx.route.reg 2)
  | 0x813 => some (s.ctx.route.reg 3)
  | 0x814 => some (s.ctx.order.reg 0)
  | 0x815 => some (s.ctx.order.reg 1)
  | 0x816 => some (s.ctx.order.reg 2)
  | 0x817 => some (s.ctx.order.reg 3)
  | _ => none

/-- Clear the low `k` bits. -/
def clearLow (k : Nat) (v : Word) : Word := v &&& ~~~(BitVec.ofNat 64 (2 ^ k - 1))

/-- A log register takes a value; `w1c` are the bits written as 1 to FULL (R33). -/
def Log.setReg (l : Log) (k : Nat) (v w1c : Word) : Log :=
  match k with
  | 0 => { l with base := clearLow 4 v }
  | 1 => { l with limit := clearLow 4 v }
  | 2 => { l with head := clearLow 4 v }
  | _ => { l with en := v.getLsbD 0, full := l.full && !w1c.getLsbD 1 }

/-- A hart's own CSR takes a value (R26, R27, R31); fields marked RO keep theirs. -/
def csrSet (n : Nat) (v : Word) (x : Csrs) : Csrs :=
  match n with
  | 0x002 => { x with sc := v }
  | 0x003 => { x with vstart := v.truncate 15 }
  | 0x004 => { x with bstart := v.truncate 5 }
  | 0x005 => x.setMpos v
  | 0x006 => { x with chstep := v.truncate 16 }
  | 0x007 => { x with fflags := v.truncate 5 }
  | 0x008 => { x with frm := v.truncate 3 }
  | 0x009 => x.setAmax v
  | 0x800 => { x with xcause := v.truncate 8 }
  | 0x801 => { x with xpc := v }
  | 0x802 => { x with xaddr := v }
  | 0x803 => { x with xelem := v.truncate 14 }
  | 0x804 => { x with xbank := v.truncate 5 }
  | 0x805 => { x with xstat := v.truncate 5 }
  | 0x806 => { x with tvec := lineOf v }
  | 0x807 => { x with xscratch := v }
  | _ => x

/-- A context CSR takes a value (R32, R33). -/
def ctxSet (n : Nat) (v w1c : Word) (c : Context) : Context :=
  match n with
  | 0x808 => { c with ctxbase := clearLow 12 v }
  | 0x809 => { c with asid := v.truncate 16 }
  | 0x80A => { c with ptbase := clearLow 12 v }
  | 0x80B => { c with codebase := clearLow 6 v }
  | 0x810 => { c with route := c.route.setReg 0 v w1c }
  | 0x811 => { c with route := c.route.setReg 1 v w1c }
  | 0x812 => { c with route := c.route.setReg 2 v w1c }
  | 0x813 => { c with route := c.route.setReg 3 v w1c }
  | 0x814 => { c with order := c.order.setReg 0 v w1c }
  | 0x815 => { c with order := c.order.setReg 1 v w1c }
  | 0x816 => { c with order := c.order.setReg 2 v w1c }
  | 0x817 => { c with order := c.order.setReg 3 v w1c }
  | _ => c

/-- R23: the number's window and the privilege, then whether a CSR is assigned; a write in the status window. -/
def csrCheck (n : Nat) (write : Bool) : M Word := do
  let s ← get
  if decide (0x800 ≤ n) && s.hart.mode == .user then raise 0x04
  match csrRead s n with
  | none => illegal
  | some v =>
    if write && decide (0x400 ≤ n) && decide (n < 0x800) then illegal
    -- every earlier `mma` has added its flags (R195)
    if n == 0x007 && !s.hart.mma.isEmpty then waitUnit
    pure v

/-- A CSR instruction (R164): `f` gives the new value from the old one and s[A]; none for a read. -/
def csrOp (x : Csr) (f : Option (Word → Word → Word)) (w1c : Bool) : M Ctl := do
  let n := x.csr.toNat
  let old ← csrCheck n f.isSome
  match f with
  | none => pure ()
  | some f => do
    let a ← readS x.a
    let new := f old a
    if n == 0x008 && !frmOk new then illegal
    modCsr (csrSet n new)
    modify fun s => s.setCtxOf s.ctxId (ctxSet n new (if w1c then a else 0) s.ctx)
  writeS x.d old
  pure .next

def opCsrr (x : Csr) : M Ctl := csrOp x none false
def opCsrw (x : Csr) : M Ctl := csrOp x (some fun _ a => a) true
def opCsrs (x : Csr) : M Ctl := csrOp x (some fun old a => old ||| a) true
def opCsrc (x : Csr) : M Ctl := csrOp x (some fun old a => old &&& ~~~a) false

/-- A supervisor instruction (R87, step 3). -/
def supervisor : M Unit := do
  if (← getHart).mode = .user then raise 0x04

/-! ### `trap`, `eret`, `halt`, `wfe` -/

/-- R162. -/
def opTrap (n : BitVec 16) : M Ctl := pure (.soft { cause := 0x19, num := some (n.zeroExtend 64) })

/-- The target's line must be fetched in the mode that `eret` returns to (R63, R163). -/
def checkReturn (target : Word) : M Unit := fun s =>
  let back (s' : State) : State := s'.setHart { s'.hart with mode := s.hart.mode }
  match checkTarget target false (s.setHart (eretTo s.hart)) with
  | .ok _ s' => .ok () (back s')
  | .error e s' => .error e (back s')

/-- R163. -/
def opEret : M Ctl := do
  supervisor
  let t := (← getHart).csr.xpc
  checkReturn t
  modHart eretTo
  pure (.jump t)

/-- R165. -/
def opHalt : M Ctl := do
  supervisor
  if !(← getHart).mma.isEmpty then waitUnit
  awaitPerformed
  modify fun s =>
    let h := retire 1 (nextSlot s.hart.pc) s.hart
    raiseInt (fnOfVdev s s.ctx.vdev) 5 ((resumeDetection s).setHart { h with status := .halted })
  pure .stay

/-- The word that `wfe` watches (R166): its place. -/
def wfePlace (ea : Word) : M Loc := do
  match ← locate .wfe .load ea 4 none none with
  | .local_ l => pure l
  | .remote => raiseAt 0x09 ea

/-- R166: the check and the arming; the wake and the time-out are steps of their own. -/
def opWfe (x : S3) : M Ctl := do
  let ea ← readS x.a
  let v ← readS x.b
  let l ← wfePlace ea
  prepLoad (.local_ l) ea none none
  logOne l 1 ea none
  meter l.key 4
  let s ← get
  if memReadN s.mem l.key 4 ≠ v.toNat % 2 ^ 32 then do
    writeS x.d 0
    pure .next
  else do
    modHart fun h => { h with armed := some (l.key / 32, 0) }
    keepAt (.wfe x)

/-! ### `tlbi` (R306, R307) -/

/-- Cores of a virtual device: those of the clusters assigned to it (R356). -/
def vdevCores (s : State) (vd : Nat) : List Nat :=
  ((List.range 32).filter fun c => (s.clusterOf c).vdev == some vd).flatMap fun c => (List.range 8).map fun k => 8 * c + k

/-- Remove the entries that `p` names from every TLB of the virtual device and from the base translation caches (R307). -/
def dropTlb (vd : Nat) (p : TlbEntry → Bool) (s : State) : State :=
  { s with cores := s.cores.map fun c =>
      if (s.clusterOf (c.1 / 8)).vdev = some vd then (c.1, { c.2 with tlb := c.2.tlb.filter fun e => !p e }) else c
           baseTlb := s.baseTlb.map fun t => (t.1, t.2.filter fun e => !(e.1 == vd && p e.2)) }

/-- Entries of `tlbi.va` (R306). -/
def tlbCovers (asid : BitVec 16) (va : Nat) (e : TlbEntry) : Bool :=
  e.asid == asid && decide (e.base ≤ va) && decide (va < e.base + 2 ^ leafBits e.leaf.toNat)

/-- Does a deferred update at a vault word go through an entry that `p` names? -/
def usesEntry (p : TlbEntry → Bool) (d : Deferred) : Bool := !isFabric d.va && d.entry.all p

/-- Accesses of the virtual device that used an entry to be removed and have not performed: deferred updates (R333), and
held flags (R294). -/
def pendingThrough (vd : Nat) (p : TlbEntry → Bool) (s : State) : Bool :=
  let mine (ctx : Nat) : Bool := (s.ctxOf ctx).vdev == vd
  (s.harts.any fun h => mine (s.convoyOf h.2.convoy).ctx && h.2.deferred.any (usesEntry p))
    || (s.convoys.any fun c => mine c.2.ctx && c.2.out.any fun o => o.2.deferred.any (usesEntry p))
    || s.items.any fun i => mine (s.convoyOf i.convoy).ctx && (flagKey i).isSome && i.entry.all p

/-- R307: the hart's own earlier accesses perform, those of others through removed entries are waited for. -/
def invalidate (p : TlbEntry → Bool) : M Ctl := do
  awaitPerformed
  let s ← get
  if pendingThrough s.ctx.vdev p s then settleUnit
  modify fun s => dropTlb s.ctx.vdev p s
  pure .next

def opTlbiAll : M Ctl := do
  supervisor
  invalidate fun _ => true

def opTlbiAsid (b : SReg) : M Ctl := do
  supervisor
  let v ← readS b
  invalidate fun e => e.asid == v.truncate 16

def opTlbiVa (x : SPair) : M Ctl := do
  supervisor
  let a ← readS x.a
  let v ← readS x.b
  invalidate (tlbCovers (v.truncate 16) a.toNat)

/-! ### `ctxsave` and `ctxload` (R252) -/

/-- Check every page of the record at an address: the lowest that fails decides. -/
def checkRecord (acc : Acc) (base : Word) : M Unit := do
  if base.toNat % 4096 ≠ 0 then raiseAt 0x05 base
  (List.range (hartRecord / 4096)).forM fun i => do
    let _ ← locate .scalar acc (base + BitVec.ofNat 64 (4096 * i)) 8 none none

/-- The halted hart of this context in the slot that s[A] names. -/
def haltedTarget (s : State) (a : Word) : Option Nat :=
  let g := s.coreId * 8 + a.toNat % 8
  match mget s.harts g with
  | some h => if isHalted h && (s.convoyOf h.convoy).ctx == s.ctxId then some g else none
  | none => none

/-- Read a doubleword of a record at an address as the hart's load. -/
def recordWord (base : Word) (off : Nat) : M Nat := loadVa .scalar 1 (base + BitVec.ofNat 64 off) 8 .n64 none none

/-- `ctxsave`. The stream queues stay: they are convoy state, which R252 leaves unchanged, and are saved with the convoy
record alone, where R143 could be read to save them here (DEDUCED, log 75). -/
def opCtxsave (x : S3) : M Ctl := do
  supervisor
  let a ← readS x.a
  let base ← readS x.b
  checkRecord .store base
  let s ← get
  match haltedTarget s a with
  | none => do
    writeS x.d 1
    pure .next
  | some g => do
    let h := s.hartOf g
    if !h.mma.isEmpty then waitUnit
    if !h.poison.isEmpty then raise 0x14
    (hartWords h (s.convoyOf h.convoy).ewBytes 0).forM fun p =>
      storeVa .scalar 2 (base + BitVec.ofNat 64 p.1) p.2.1 p.2.2 (if p.2.1 = 4 then .n32 else .n64) false none none
    writeS x.d 0
    pure .next

/-- `ctxload`. The target's own physical accumulators count as free when the record's names are claimed: R252 does not say
(DESIGN CHOICE, log 88). -/
def opCtxload (x : S3) : M Ctl := do
  supervisor
  let a ← readS x.a
  let base ← readS x.b
  checkRecord .load base
  let s ← get
  match haltedTarget s a with
  | none => do
    writeS x.d 1
    pure .next
  | some g => do
    let old := s.hartOf g
    if !old.mma.isEmpty then waitUnit
    match ← readHart (recordWord base) old with
    | none => do
      writeS x.d 3
      pure .next
    | some h => do
      let s ← get
      let free := freeAccs (usedAcc { s with harts := merase s.harts g } s.coreId)
      match claimAccs free h with
      | none => do
        writeS x.d 2
        pure .next
      | some h => do
        set (s.setHartOf g { h with status := .halted })
        writeS x.d 0
        pure .next

/-! ### `logctl` (R331) -/

def theLog (c : Context) (order : Bool) : Log := if order then c.order else c.route

def setLog (order : Bool) (f : Log → Log) : M Unit := modify fun s =>
  s.setCtxOf s.ctxId (if order then { s.ctx with order := f s.ctx.order } else { s.ctx with route := f s.ctx.route })

/-- Wait until the reserved entries are written or discarded, those that a gang has reserved among them (R331, R375). An
entry of the ordering log is written once its access has performed (R330): the hart's own pending ones are applied. -/
def syncLog (order : Bool) : M Log := do
  if order && (← getHart).deferred.any (fun d => d.place.isSome) then flushDeferred
  let l := theLog (← getCtx) order
  if !l.pending.isEmpty || l.held != 0 then settleUnit
  pure l

def opLogctlSync (x : LogSync) : M Ctl := do
  supervisor
  let l ← syncLog x.order
  writeS x.d l.head
  pure .next

def opLogctlMark (x : S2) : M Ctl := do
  supervisor
  let v ← readS x.a
  let s ← get
  let l := s.ctx.order
  if !l.en then do
    writeS x.d (BitVec.allOnes 64)
    pure .next
  else if !l.room 1 then do
    setLog true fun l => { l with full := true }
    raise 0x13
  else do
    setLog true fun l => l.reserve (orderEntry s.cur 15 0 s.hart.csr.instret.toNat (v.toNat % 2 ^ 59))
    writeS x.d l.head
    pure .next

def opLogctlSwap (x : LogSwap) : M Ctl := do
  supervisor
  let a ← readS x.a
  let b ← readS x.b
  if a.toNat % 16 ≠ 0 ∨ b.toNat % 16 ≠ 0 ∨ b.toNat < a.toNat then raiseAt 0x05 a
  let l ← syncLog x.order
  setLog x.order fun l => { l with base := a, head := a, limit := b, full := false }
  writeS x.d l.head
  pure .next

/-! ### Meanings: one per instruction -/

/-- CSRR. -/
def execCsrr (x : Csr) (s : State) : Host.Outcome State Fault Refusal := runUnit (opCsrr x) s

/-- CSRW. -/
def execCsrw (x : Csr) (s : State) : Host.Outcome State Fault Refusal := runUnit (opCsrw x) s

/-- CSRS. -/
def execCsrs (x : Csr) (s : State) : Host.Outcome State Fault Refusal := runUnit (opCsrs x) s

/-- CSRC. -/
def execCsrc (x : Csr) (s : State) : Host.Outcome State Fault Refusal := runUnit (opCsrc x) s

/-- TRAP. -/
def execTrap (n : BitVec 16) (s : State) : Host.Outcome State Fault Refusal := runUnit (opTrap n) s

/-- ERET. -/
def execEret (s : State) : Host.Outcome State Fault Refusal := runUnit opEret s

/-- HALT. -/
def execHalt (s : State) : Host.Outcome State Fault Refusal := runUnit opHalt s

/-- WFE. -/
def execWfe (x : S3) (s : State) : Host.Outcome State Fault Refusal := runUnit (opWfe x) s

/-- TLBI_ALL. -/
def execTlbiAll (s : State) : Host.Outcome State Fault Refusal := runUnit opTlbiAll s

/-- TLBI_ASID. -/
def execTlbiAsid (b : SReg) (s : State) : Host.Outcome State Fault Refusal := runUnit (opTlbiAsid b) s

/-- TLBI_VA. -/
def execTlbiVa (x : SPair) (s : State) : Host.Outcome State Fault Refusal := runUnit (opTlbiVa x) s

/-- CTXSAVE. -/
def execCtxsave (x : S3) (s : State) : Host.Outcome State Fault Refusal := runUnit (opCtxsave x) s

/-- CTXLOAD. -/
def execCtxload (x : S3) (s : State) : Host.Outcome State Fault Refusal := runUnit (opCtxload x) s

/-- LOGCTL_SYNC. -/
def execLogctlSync (x : LogSync) (s : State) : Host.Outcome State Fault Refusal := runUnit (opLogctlSync x) s

/-- LOGCTL_MARK. -/
def execLogctlMark (x : S2) (s : State) : Host.Outcome State Fault Refusal := runUnit (opLogctlMark x) s

/-- LOGCTL_SWAP. -/
def execLogctlSwap (x : LogSwap) (s : State) : Host.Outcome State Fault Refusal := runUnit (opLogctlSwap x) s

end Sys2Proof.Machine
end

