-- ==== Sys2Proof/Machine/Pair.lean ====
section
/-! DEFINITION. Pairs (R64 to R66) and words that are no instruction (R76, R87). -/

namespace Sys2Proof.Machine

/-! ### Reserved encodings -/

/-- Instructions of class 0x08 that only the supervisor executes (R86). -/
def supervisorOp (op : Nat) : Bool := op == 2 || decide (7 ≤ op && op ≤ 11)

/-- R87: privilege and the CSR number are judged before the other fields; then illegal instruction. -/
def opReservedEncoding (w : IWord) : M Ctl := do
  let user := (← getHart).mode == .user
  let sys := wordClass w == 0x08
  let op := wordOp w
  if user && sys && (supervisorOp op || (decide (3 ≤ op && op ≤ 6) && decide (0x800 ≤ field w.toNat 0 12))) then raise 0x04
  illegal

/-- RESERVED_ENCODING. -/
def execReservedEncoding (w : IWord) (s : State) : Host.Outcome State Fault Refusal := runUnit (opReservedEncoding w) s

/-! ### The operations that a pair may hold -/

/-- The operation of an instruction that may stand in a pair; no other instruction reaches it (R65). -/
def opOf : Instr → M Ctl
  | .nop => opNop
  | .add x => opAdd x
  | .sub x => opSub x
  | .mul x => opMul x
  | .mulh x => opMulh x
  | .mulhu x => opMulhu x
  | .div x => opDiv x
  | .divu x => opDivu x
  | .rem x => opRem x
  | .remu x => opRemu x
  | .and x => opAnd x
  | .or x => opOr x
  | .xor x => opXor x
  | .andn x => opAndn x
  | .shl x => opShl x
  | .shr x => opShr x
  | .sar x => opSar x
  | .rot x => opRot x
  | .min x => opMin x
  | .max x => opMax x
  | .minu x => opMinu x
  | .maxu x => opMaxu x
  | .set x => opSet x
  | .sel x => opSel x
  | .clz x => opClz x
  | .ctz x => opCtz x
  | .popc x => opPopc x
  | .bfx x => opBfx x
  | .bfi x => opBfi x
  | .li x => opLi x
  | .lpc x => opLpc x
  | .jmpl x => opJmpl x
  | .calll x => opCalll x
  | .fadd x => opFadd x
  | .fsub x => opFsub x
  | .fmul x => opFmul x
  | .fma x => opFma x
  | .fdiv x => opFdiv x
  | .fsqrt x => opFsqrt x
  | .fmin x => opFmin x
  | .fmax x => opFmax x
  | .fset x => opFset x
  | .fcvt x => opFcvt x
  | .fclass x => opFclass x
  | .fsgn x => opFsgn x
  | .b x => opB x
  | .bi x => opBi x
  | .jmp t => opJmp t
  | .call t => opCall t
  | .jmpr a => opJmpr a
  | .callr a => opCallr a
  | .ret => opRet
  | .strip x => opStrip x
  | .vloopl x => opVloopl x
  | .bm x => opBm x
  | .ld x => opLd x
  | .st x => opSt x
  | .amo x => opAmo x
  | .ldp x => opLdp x
  | .stp x => opStp x
  | .pam x => opPam x
  | .capture x => opCapture x
  | .capref x => opCapref x
  | .cdup d a => opCdup d a
  | .cdrop a => opCdrop a
  | .apply a => opApply a
  | .applyq x => opApplyq x
  | .cenv d k => opCenv d k
  | .cld x => opCld x
  | .cldR d a => opCldR d a
  | .cst x => opCst x
  | .cstR d c => opCstR d c
  | .setvl x => opSetvl x
  | .mcpt x => opMcpt x
  | .mexp x => opMexp x
  | .vadd x => opVadd x
  | .vsub x => opVsub x
  | .vmul x => opVmul x
  | .vmulh x => opVmulh x
  | .vmulhu x => opVmulhu x
  | .vmacc x => opVmacc x
  | .vdiv x => opVdiv x
  | .vrem x => opVrem x
  | .vand x => opVand x
  | .vor x => opVor x
  | .vxor x => opVxor x
  | .vshl x => opVshl x
  | .vshr x => opVshr x
  | .vsar x => opVsar x
  | .vmin x => opVmin x
  | .vmax x => opVmax x
  | .vminu x => opVminu x
  | .vmaxu x => opVmaxu x
  | .vadds x => opVadds x
  | .vsubs x => opVsubs x
  | .vabs x => opVabs x
  | .vcmp x => opVcmp x
  | .vsel x => opVsel x
  | .vclz x => opVclz x
  | .vpopc x => opVpopc x
  | .vfadd x => opVfadd x
  | .vfsub x => opVfsub x
  | .vfmul x => opVfmul x
  | .vfma x => opVfma x
  | .vfdiv x => opVfdiv x
  | .vfsqrt x => opVfsqrt x
  | .vfmin x => opVfmin x
  | .vfmax x => opVfmax x
  | .vfcmp x => opVfcmp x
  | .vfrcp x => opVfrcp x
  | .vfrsq x => opVfrsq x
  | .vfexp2 x => opVfexp2 x
  | .vflog2 x => opVflog2 x
  | .vfsgn x => opVfsgn x
  | .vfclass x => opVfclass x
  | .vcvt x => opVcvt x
  | .vpk4 x => opVpk4 x
  | .vupk4 x => opVupk4 x
  | .vscl x => opVscl x
  | .vred x => opVred x
  | .vfred x => opVfred x
  | .vscan x => opVscan x
  | .vfscan x => opVfscan x
  | .vslup x => opVslup x
  | .vsldn x => opVsldn x
  | .vgath x => opVgath x
  | .vcomp x => opVcomp x
  | .vexpd x => opVexpd x
  | .vbshl x => opVbshl x
  | .vbshr x => opVbshr x
  | .vfnl x => opVfnl x
  | .vmvs x => opVmvs x
  | .vmvx x => opVmvx x
  | .vid x => opVid x
  | .vrev x => opVrev x
  | .mand x => opMand x
  | .mor x => opMor x
  | .mxor x => opMxor x
  | .mnot x => opMnot x
  | .mandn x => opMandn x
  | .mpop x => opMpop x
  | .mfirst x => opMfirst x
  | .vld x => opVld x
  | .vlds x => opVlds x
  | .vldg x => opVldg x
  | .vldx x => opVldx x
  | .vst x => opVst x
  | .vsts x => opVsts x
  | .vstg x => opVstg x
  | .vstx x => opVstx x
  | .vstxa x => opVstxa x
  | .vldt x => opVldt x
  | .vstt x => opVstt x
  | .pdot x => opPdot x
  | .acfg x => opAcfg x
  | .arel d => opArel d
  | .azero d => opAzero d
  | .mma x => opMma x
  | .ald x => opAld x
  | .ast x => opAst x
  | .arow x => opArow x
  | .tlook x => opTlook x
  | .ttag x => opTtag x
  | .tfill x => opTfill x
  | .tdrain x => opTdrain x
  | .twait x => opTwait x
  | .trel a => opTrel a
  | .tstat x => opTstat x
  | .cpy x => opCpy x
  | .cpy2 x => opCpy2 x
  | .cstat x => opCstat x
  | .munion x => opMunion x
  | .minter x => opMinter x
  | .mcount x => opMcount x
  | .dopen x => opDopen x
  | .stow x => opStow x
  | .dseal x => opDseal x
  | .dquery x => opDquery x
  | .reservedEncoding w => opReservedEncoding w
  | _ => illegal

/-! ### Two instructions as one unit -/

/-- What the second instruction wrote, else what the first left: `v` is what the second began from. -/
def pick [DecidableEq α] (v a b : α) : α := if b = v then a else b

def pickAll [DecidableEq α] (v a b : Vector α n) : Vector α n := Vector.ofFn fun i => pick v[i] a[i] b[i]

def pickCsrs (v a b : Csrs) : Csrs :=
  { sc := pick v.sc a.sc b.sc
    vstart := pick v.vstart a.vstart b.vstart
    bstart := pick v.bstart a.bstart b.bstart
    posa := pick v.posa a.posa b.posa
    posb := pick v.posb a.posb b.posb
    chstep := pick v.chstep a.chstep b.chstep
    frm := pick v.frm a.frm b.frm
    vl := pick v.vl a.vl b.vl
    env := pick v.env a.env b.env
    frame := pick v.frame a.frame b.frame
    instret := pick v.instret a.instret b.instret
    xcause := pick v.xcause a.xcause b.xcause
    xpc := pick v.xpc a.xpc b.xpc
    xaddr := pick v.xaddr a.xaddr b.xaddr
    xelem := pick v.xelem a.xelem b.xelem
    xbank := pick v.xbank a.xbank b.xbank
    xstat := pick v.xstat a.xstat b.xstat
    tvec := pick v.tvec a.tvec b.tvec
    xscratch := pick v.xscratch a.xscratch b.xscratch
    fflags := a.fflags ||| b.fflags
    nanseen := a.nanseen || b.nanseen
    mag := if a.mag ≤ b.mag then b.mag else a.mag }

/-- The hart after both instructions (R64): they write no common register, and their flags and maxima combine. -/
def joinHarts (v a b : Hart) : Hart :=
  { a with
    s := pickAll v.s a.s b.s
    v := pickAll v.v a.v b.v
    m := pickAll v.m a.m b.m
    acc := pickAll v.acc a.acc b.acc
    c := pickAll v.c a.c b.c
    csr := pickCsrs v.csr a.csr b.csr
    ring := pick v.ring a.ring b.ring
    frameCount := pick v.frameCount a.frameCount b.frameCount
    overflow := pick v.overflow a.overflow b.overflow
    mma := pick v.mma a.mma b.mma
    deferred := pick v.deferred a.deferred b.deferred
    resp := b.resp
    hostLast := b.hostLast
    posted := b.posted
    pair := b.pair
    poison := a.poison.filter fun p => b.poison.contains p }

/-- Does the instruction read the contents of an accumulator other than its destination? -/
def readsAcc : Instr → Bool
  | .arow _ => true
  | .ast _ => true
  | _ => false

/-- The hart as the second instruction finds it: registers and CSRs as before the pair, memory accesses after those of
the first; a claim on a physical accumulator by the first is seen. -/
def secondView (h a : Hart) (j : Instr) : Hart :=
  { h with
    pc := nextSlot h.pc
    resp := a.resp
    deferred := a.deferred
    hostLast := a.hostLast
    posted := a.posted
    pair := a.pair
    acc := if readsAcc j then h.acc else a.acc
    mma := if readsAcc j then h.mma else a.mma }

/-- Both operations, in slot order. -/
def bothOps (i j : Instr) : M Ctl := do
  modify fun s => s.setHart { s.hart with pair := some ⟨s.nextItem, false⟩ }
  let h ← getHart
  let _ ← opOf i
  let a ← getHart
  let v := secondView h a j
  setHart v
  let c ← opOf j
  let b ← getHart
  setHart { joinHarts v a b with pc := v.pc }
  pure c

/-- What a pair has sent from number `n` on and does not wait for: items and depot commands. -/
def sentFrom (n : Nat) (s : State) : Nat :=
  (s.items.filter fun i => decide (n ≤ i.id) && !i.waits).length
    + ((hartCommands s).filter fun c => decide (n ≤ c.id)).length

/-- A pair that waits is undone and held (R66): nothing that it posted is sent. Once it is firm, what it has sent stays
sent, and the pair does not send it again (log 72). -/
def holdPair (s s' : State) : State :=
  if s.hart.firm then
    let t := holdUnit none s s
    let kept := (hartCommands s').any fun c => decide (s.nextItem ≤ c.id)
    { t.setHart { t.hart with posted := s.hart.posted + sentFrom s.nextItem s' } with
      items := s'.items, outSeq := s'.outSeq, nextItem := s'.nextItem, freeCount := s'.freeCount
      staging := { s.staging with wanted := s'.staging.wanted }
      regions := if kept then s'.regions else s.regions
      cores := if kept then s'.cores else s.cores }
  else holdUnit none s s'

/-- A pair that faults is undone (R66); a report of an item stays made (R371), a full log stays full (R330), a
flash error has been reported (R348). -/
def failPair (t : Trap) (s s' : State) : State :=
  let s1 := { s with items := s.items.filter fun i => s'.items.any fun j => j.id == i.id, staging := s'.staging }
  let c := s1.ctx
  let s2 := if t.cause = 0x13 then s1.setCtxOf s1.ctxId { c with order := { c.order with full := true } } else s1
  s2.setHart (takeTrap t true s2.hart.pc s2.hart)

/-- A pair that does not complete. -/
def stopPair (e : Stop) (s s' : State) : State :=
  if flushed s.hart s'.hart then flushFirst true s
  else match e with
    | .trap t => failPair t s s'
    | _ => holdPair s s'

/-- Execute a pair that is firm. -/
def runFirm (i j : Instr) (s : State) : State :=
  match bothOps i j s with
  | .ok c s' => finishUnit c 2 s'.hart.pc s'
  | .error e s' => stopPair e s s'

/-- Execute a pair. It is tried first, with nothing sent but looks and loads. Where the trial meets no fault but has passed
over a wait of the pair for itself, the pair is firm: its accesses perform in slot order, each when it may (R64, R66, R111,
log 72). -/
def runPair (i j : Instr) (s : State) : State :=
  if s.hart.firm then runFirm i j s
  else match bothOps i j s with
    | .ok c s' =>
      if s'.hart.pair.any PairRun.early then runFirm i j (s.setHart { s.hart with firm := true, resp := [] })
      else finishUnit c 2 s'.hart.pc s'
    | .error e s' => stopPair e s s'

end Sys2Proof.Machine
end

