-- ==== Sys2Proof/Machine/Wake.lean ====
section
/-! DEFINITION. Ends of waits inside a core: a waiting instruction is performed again from its check, and what it waited
for is there (R166, R186, R196, R206, R215, R265, R268, R144 to R146). -/

namespace Sys2Proof.Machine

/-! ### Performing a waiting unit again -/

/-- The operation of an instruction at which a hart can wait; none for any other. -/
def waitOp : Instr → Option (M Ctl)
  | .qget x => some (opQget x)
  | .qput x => some (opQput x)
  | .wait x => some (opWait x)
  | .vspush x => some (opVspush x)
  | .vspop x => some (opVspop x)
  | .bar => some opBar
  | .vcfg x => some (opVcfg x)
  | .pdot x => some (opPdot x)
  | _ => none

/-- Hart `g` waits at an instruction that `p` names: it is performed again; if it still waits, nothing changes. A wait in
a convoy whose pre-emption has begun is abandoned (R248). -/
def wakeHart (p : Instr → Bool) (g : Nat) (s : State) : State :=
  match mget s.harts g with
  | none => s
  | some h =>
    match if (s.convoyOf h.convoy).leaving then none else h.waitsAt with
    | none => s
    | some i =>
      match p i, waitOp i with
      | true, some op =>
        match runUnit op { s with cur := g } with
        | .next t => if (t.hartOf g).waitsAt.isSome then s else t
        | _ => s
      | _, _ => s

/-- Would the waiting instruction wait again? -/
def stuck (s : State) (g : Nat) (i : Instr) : Bool :=
  match waitOp i with
  | none => false
  | some op =>
    match op { s with cur := g } with
    | .error (.hold _) _ => true
    | .error (.keep _) _ => true
    | .error .settle _ => true
    | _ => false

def isWaitK : Instr → Bool
  | .wait _ => true
  | _ => false

def isQput : Instr → Bool
  | .qput _ => true
  | _ => false

def isQgetAny : Instr → Bool
  | .qget _ => true
  | _ => false

def isVspush : Instr → Bool
  | .vspush _ => true
  | _ => false

def isVspop : Instr → Bool
  | .vspop _ => true
  | _ => false

def isPdot : Instr → Bool
  | .pdot _ => true
  | _ => false

/-- A waiting hart whose queue has an entry takes it, in the order of arrival (R265). -/
def execQgetWake (g : Nat) (s : State) : Host.Outcome State Fault Refusal := .next (wakeHart isQgetAny g s)

/-- A waiting hart whose queue has room appends (R265). -/
def execQputWake (g : Nat) (s : State) : Host.Outcome State Fault Refusal := .next (wakeHart isQput g s)

/-- A waiting hart whose counter has reached its target goes on (R215). -/
def execWaitWake (g : Nat) (s : State) : Host.Outcome State Fault Refusal := .next (wakeHart isWaitK g s)

/-- A waiting push has room (R144, R146). -/
def execVspushWake (g : Nat) (s : State) : Host.Outcome State Fault Refusal := .next (wakeHart isVspush g s)

/-- A waiting pop has its bytes (R145, R146). -/
def execVspopWake (g : Nat) (s : State) : Host.Outcome State Fault Refusal := .next (wakeHart isVspop g s)

/-! ### `wfe` (R166) -/

/-- 10 µs in picoseconds. -/
def wfeLimit : Nat := 10000000

/-- The wait of a hart at `wfe` ends with a result. -/
def endWfe (g : Nat) (v : Word) (p : Hart → Bool) (s : State) : State :=
  match mget s.harts g with
  | none => s
  | some h =>
    match h.waitsAt with
    | some (.wfe x) =>
      if p h && !(s.convoyOf h.convoy).leaving then
        commitHart (fun h => Hart.writeS x.d v { h with armed := none }) s g else s
    | _ => s

def wfeWritten (h : Hart) : Bool :=
  match h.armed with
  | some (_, n) => n != 0
  | none => false

/-- The granule has been written (R166). -/
def execWfeWake (g : Nat) (s : State) : Host.Outcome State Fault Refusal := .next (endWfe g 1 wfeWritten s)

/-- 10 µs have passed since the arming (R166). -/
def execWfeTimeout (g : Nat) (s : State) : Host.Outcome State Fault Refusal :=
  .next (endWfe g 2 (fun h => decide (h.stamp + wfeLimit ≤ s.now)) s)

/-! ### Tile accesses (R206) -/

/-- Instructions that stall on the state of a tile slot (R206, R208, R211). -/
def isTileAccess : Instr → Bool
  | .vldt _ | .vstt _ | .ald _ | .ast _ | .ttag _ | .twait _ | .trel _ | .tfill _ | .tdrain _ => true
  | _ => false

/-- A stalled tile access is tried again (R206). -/
def retryTile (g : Nat) (s : State) : State :=
  match mget s.harts g with
  | none => s
  | some h =>
    if h.status ≠ .stalled then s
    else
      match fetchUnit { s with cur := g } with
      | (.one i, s1) =>
        if isTileAccess i then
          match runUnit (opOf i) s1 with
          | .next t => if (t.hartOf g).status = .stalled then s else t
          | _ => s
        else s
      | (.pair i j, s1) =>
        if isTileAccess i || isTileAccess j then
          let t := runPair i j s1
          if (t.hartOf g).status = .stalled then s else t
        else s
      | _ => s

/-- The slot is ready, and the stalled access proceeds (R206). -/
def execTileStallRelease (g : Nat) (s : State) : Host.Outcome State Fault Refusal := .next (retryTile g s)

/-! ### Convoy deadlock (R268) -/

/-- Operations of a convoy that can still wake its harts (R246, R268). -/
def convoyOutstanding (s : State) (u : Nat) : Bool :=
  let mine (p : Option (Nat × KName)) : Bool := match p with
    | some (v, _) => v == u
    | none => false
  (s.cores.any fun c => (c.2.transfers.any fun t => t.convoy == u) || c.2.posts.any fun p => p.poster.1 == u)
    || (s.contexts.any fun c => c.2.posts.any fun p => p.poster.1 == u)
    || (s.regions.any fun r => (r.2.cmds ++ r.2.busyDone).any fun d => d.convoy == u)
    || (s.convoys.any fun p => match p.2.poster with
      | some (v, _) => v == u
      | none => false)
    || (s.queues.any fun q => q.2.entries.any fun e => mine e.counter)
    || (s.harts.any fun h => mine h.2.join.counter)
    || (s.convoys.any fun c => c.2.out.any fun o => mine o.2.join.counter)
    || (s.lates.any fun l => mine l.join.counter)
    || s.gangs.any fun g => g.convoy == u

/-- Is the convoy deadlocked? -/
def deadlocked (s : State) (u : Nat) : Bool :=
  let c := s.convoyOf u
  let gs := participants s u
  c.core.isSome && !c.suspended && !gs.isEmpty && !convoyOutstanding s u
    && gs.all fun g => match (s.hartOf g).waitsAt with
      | some i => !isPdot i && stuck s g i
      | none => false

/-- The participant with the lowest hart index. -/
def lowestParticipant (s : State) (u : Nat) : Option Nat :=
  (participants s u).foldl (fun acc g => match acc with
    | none => some g
    | some a => if (s.hartOf g).hidx < (s.hartOf a).hidx then some g else acc) none

/-- R268: the lowest participant takes 0x1B, and detection is suspended. -/
def execConvoyDeadlock (u : Nat) (s : State) : Host.Outcome State Fault Refusal :=
  .next (if deadlocked s u then
    match lowestParticipant s u with
    | some g =>
      let s1 := trapHart { cause := 0x1B } (withdraw g s) g
      s1.setConvoyOf u { s1.convoyOf u with suspended := true }
    | none => s
  else s)

/-! ### The matrix unit and near-bank commands (R186, R195, R196) -/

/-- The oldest `mma` of a hart has done its blocks: results and flags arrive (R195, R196). -/
def execMmaComplete (g : Nat) (s : State) : Host.Outcome State Fault Refusal :=
  .next (match mget s.harts g with
    | none => s
    | some h =>
      match h.mma with
      | [] => s
      | p :: rest => s.setHartOf g (mmaFinish p { h with mma := rest }))

/-- The banks of a waiting `pdot` are free, or it has aged: it finishes and commits (R186). -/
def execPdotComplete (g : Nat) (s : State) : Host.Outcome State Fault Refusal := .next (wakeHart isPdot g s)

/-- 2 µs in picoseconds. -/
def ageLimit : Nat := 2000000

/-- Has the hart a near-bank command at issue: it waits at one, or its unit, held, is a pair with one? -/
def pdotAtIssue (g : Nat) (s : State) (h : Hart) : Bool :=
  match h.status with
  | .waiting i => isPdot i
  | .stalled => match (fetchUnit { s with cur := g }).1 with
    | .pair i j => isPdot i || isPdot j
    | _ => false
  | _ => false

/-- A near-bank command that has waited 2 µs competes at normal priority (R186). -/
def execNearBankAgeing (g : Nat) (s : State) : Host.Outcome State Fault Refusal :=
  .next (match mget s.harts g with
    | none => s
    | some h =>
      if pdotAtIssue g s h && decide (h.stamp + ageLimit ≤ s.now) then s.setHartOf g { h with aged := true } else s)

end Sys2Proof.Machine
end

