-- ==== Sys2Proof/Machine/Agent.lean ====
section
/-! DEFINITION. What the agents outside the harts share: the images of convoys that are out (R21, R250), the
engine-fault queue (R308) and the machine-check log (R357). -/

namespace Sys2Proof.Machine

/-! ### Saved images (R250) -/

/-- Offset of hart record `h` in a convoy record (R250). -/
def hartOffset (h : Nat) : Nat := 0x210000 + h * hartRecord

/-! ### Counters of a convoy, resident or out (R21, R214, R221) -/

/-- A failed operation: its KIND, its cause, the bytes it wrote and where it failed. -/
structure OpFail where
  kind : Nat
  cause : BitVec 8
  bytes : Nat
  addr : Word
  deriving DecidableEq, Repr

/-- A convoy whose last hart has not ended (R261). -/
def liveConvoy (s : State) (u : Nat) : Option Convoy := (mget s.convoys u).filter fun c => !c.ended

/-- Enter a failure and add to a counter of convoy `u`; the counters of a convoy that has ended are gone. -/
def bumpCounter (u : Nat) (k : KName) (n : Word) (fail : Option OpFail) (s : State) : State :=
  match liveConvoy s u with
  | none => s
  | some c =>
    match c.record with
    | none =>
      let c1 := match fail with
        | some f => c.addErr k f.kind f.cause f.bytes f.addr
        | none => c
      s.setConvoyOf u (c1.addK k n)
    | some base =>
      let ke := base + BitVec.ofNat 64 (0x80 + 16 * k.val)
      let s1 := match fail with
        | none => s
        | some f =>
          let old : KErr := ⟨BitVec.ofNat 64 ((engGet (saveRead c.ctx ke) s).getD 0)
            , BitVec.ofNat 64 ((engGet (saveRead c.ctx (ke + 8)) s).getD 0)⟩
          let new := old.add f.kind f.cause f.bytes f.addr
          imageUpdate c.ctx (ke + 8) (fun _ => new.addr.toNat) (imageUpdate c.ctx ke (fun _ => new.word.toNat) s)
      imageUpdate c.ctx (base + BitVec.ofNat 64 (0x40 + 8 * k.val)) (fun v => v + n.toNat) s1

/-! ### Registers of a hart, resident or out -/

/-- The GID of a resident hart of a convoy. -/
def hartGid (s : State) (u h : Nat) : Option Nat :=
  (s.harts.find? fun p => p.2.convoy == u && p.2.hidx == h).map Prod.fst

/-- Set bits of the chunk mask of a transfer, in the register or in the saved record (R16, R248). -/
def setChunkBits (t : Transfer) (ks : List Nat) (s : State) : State :=
  match t.mask with
  | none => s
  | some m =>
    match hartGid s t.convoy t.hidx with
    | some g =>
      let h := s.hartOf g
      if h.m[m].bound = some t.id then
        s.setHartOf g { h with m := h.m.set m { h.m[m] with
          bits := ks.foldl (fun b k => b ||| (1#16384 <<< k)) h.m[m].bits } }
      else s
    | none =>
      match (mget s.convoys t.convoy).bind Convoy.record with
      | none => s
      | some base => ks.foldl (fun s k =>
          imageUpdate t.ctx (base + BitVec.ofNat 64 (hartOffset t.hidx + 0x11000 + 2048 * m.val + 8 * (k / 64)))
            (fun v => v ||| 2 ^ (k % 64)) s) s

/-- The binding of a transfer's mask ends (R16). -/
def unbindMask (t : Transfer) (s : State) : State :=
  match t.mask, hartGid s t.convoy t.hidx with
  | some m, some g =>
    let h := s.hartOf g
    if h.m[m].bound = some t.id then s.setHartOf g { h with m := h.m.set m { h.m[m] with bound := none } } else s
  | _, _ => s

/-! ### The engine-fault queue (R308) -/

/-- Entries of the queue. -/
def faultQueue : Nat := 64

/-- Add a record for a target; with a full queue it waits to enter. The answer names the tag. -/
def addFault (vd : Nat) (ctx : Nat) (engine core : BitVec 8) (cause : BitVec 8) (va : Word) (target : EngineTarget)
    (s : State) : State × BitVec 8 :=
  let v := s.vdevOf vd
  let r : EngineFault := ⟨va, (s.ctxOf ctx).asid, cause, engine, core, v.efTag, target⟩
  if v.efq.length < faultQueue then
    let s1 := s.setVdevOf vd { v with efq := v.efq ++ [r], efTag := v.efTag + 1 }
    (if v.efq = [] then raiseInt (fnOfVdev s1 vd) 1 s1 else s1, v.efTag)
  else (s.setVdevOf vd { v with efWait := v.efWait ++ [r], efTag := v.efTag + 1 }, v.efTag)

/-- The record as the host reads it (R308). -/
def EngineFault.word (vd : Nat) (r : EngineFault) : BitVec 128 :=
  r.va ++ r.asid ++ r.cause ++ r.engine ++ 0#11 ++ BitVec.ofNat 5 vd ++ r.core ++ r.tag

/-! ### The machine-check log (R357) -/

/-- An entry of the log. -/
def mcEntry (time : Word) (addr : Word) (kind : Nat) (cause : BitVec 8) (gid core bank : Nat) : BitVec 256 :=
  time ++ addr ++ BitVec.ofNat 8 kind ++ cause ++ BitVec.ofNat 11 gid ++ BitVec.ofNat 8 core ++ BitVec.ofNat 5 bank ++ 0#88

/-- Entries that the ring holds. -/
def mcSize : Nat := 4096

/-- Write an entry; the oldest of a full ring is overwritten, which MCOVF counts where it has not been read (R355; R357
names no reading: log 90). The PF is told. -/
def mcWrite (e : BitVec 256) (s : State) : State :=
  let lost := decide (s.mclog.length ≥ mcSize) && !s.mcread.contains s.mchead
  raiseInt 0 2
    { s with
      mclog := (e :: s.mclog).take mcSize
      mchead := (s.mchead + 1) % mcSize
      mcread := s.mcread.filter fun i => i != s.mchead
      mcovf := if lost && s.mcovf != BitVec.allOnes 32 then s.mcovf + 1 else s.mcovf }

end Sys2Proof.Machine
end

