-- ==== Sys2Proof/Machine/Engine.lean ====
section
/-! DEFINITION. The copy engine's own steps (R209, R214, R216 to R222), and faults that go to the engine-fault queue
(R308). A chunk is moved whole: its source bytes are read, then its destination bytes written (R219 fixes no order). -/

namespace Sys2Proof.Machine

/-! ### Bytes of a transfer (R219) -/

/-- Source address of byte `k`. -/
def Transfer.srcAt (t : Transfer) (k : Nat) : Word :=
  match t.kind with
  | .cpy2 => t.src + BitVec.ofNat 64 (k / t.row) * t.spitch + BitVec.ofNat 64 (k % t.row)
  | _ => t.src + BitVec.ofNat 64 k

/-- Destination address of byte `k`. -/
def Transfer.dstAt (t : Transfer) (k : Nat) : Word :=
  match t.kind with
  | .cpy2 => t.dst + BitVec.ofNat 64 (k / t.row) * t.dpitch + BitVec.ofNat 64 (k % t.row)
  | _ => t.dst + BitVec.ofNat 64 k

/-- Chunks of the transfer. -/
def Transfer.chunks (t : Transfer) : Nat := (t.total + t.chunk - 1) / t.chunk

/-- Bytes of chunk `c`. -/
def Transfer.chunkBytes (t : Transfer) (c : Nat) : List Nat :=
  List.range' (c * t.chunk) (min t.total ((c + 1) * t.chunk) - c * t.chunk)

/-- The item of one byte. -/
def engItem (s : State) (core : Nat) (t : Transfer) (k : Nat) (va : Word) (op : ItemOp) : Item :=
  { id := 0, dst := fabricPkg va, plane := 0, seq := 0, fcid := (s.ctxOf t.ctx).fcid, view := t.view, va, t := .n8, op, unord := true
    gid := 0, elem := 0, logged := false, convoy := t.convoy, hidx := t.hidx
    waits := (match op with
      | .load => true
      | _ => false), covers := [], unsent := false
    failed := none, resentFrom := [], transfer := some (core, t.id, k), since := s.now, got := none, entry := none
    place := none }

/-- Send the item of a byte; no plane up fails it (R371). -/
def engSend (core : Nat) (t : Transfer) (k : Nat) (va : Word) (op : ItemOp) : EngM Unit := do
  let s ← get
  if (s.ctxOf t.ctx).fcid = 0 then throw (.fault 0x09 false va)
  if (homePlane s (fabricPkg va)).isNone then throw (.fault 0x16 false va)
  set (sendItem (engItem s core t k va op) s)

/-- Read source byte `k`; a byte of another package is asked for, and comes later. -/
def engSource (core : Nat) (t : Transfer) (k : Nat) : EngM (Option Nat) := do
  let va := t.srcAt k
  if t.kind = .tdrain then
    let s ← get
    let off := t.slot * 8192 + k
    if tileBad (s.coreOf core) off 1 then throw (.fault 0x14 false va)
    return some (memReadN s.mem (tileKey core off) 1)
  else if isFabric va then do
    engSend core t k va .load
    return none
  else do
    let v ← engRead (some core) t.ctx t.view .unit va 1
    return some v

/-- Write destination byte `k`. -/
def engDest (core : Nat) (t : Transfer) (k v : Nat) : EngM Unit := do
  let va := t.dstAt k
  if t.kind = .tfill then modify (tilePoke core (t.slot * 8192 + k) (toBytes 1 v))
  else if isFabric va then engSend core t k va (.store (BitVec.ofNat 64 v))
  else engWrite (some core) t.ctx t.view .unit va 1 v

/-- Granules that an engine has written whole are clean (R313). -/
def heal (core : Option Nat) (ctx : Nat) (view : Mode) (vas : List Word) (s : State) : State :=
  if s.poison = [] then s
  else
    let keys := vas.filterMap fun va => match engPlace core ctx view .unit .store va s with
      | .ok l _ => if l.host then none else some l.key
      | .error _ _ => none
    { s with poison := s.poison.filter fun g => !((List.range 32).all fun i => keys.contains (32 * g + i)) }

/-- An engine's access waits for a line of the depot: the line is wanted, and nothing else has happened (R348). -/
def wanting (s1 s : State) : State := { s with staging := { s.staging with wanted := s1.staging.wanted } }

/-- Whole words of a tile, or whole granules of a vault, that a chunk has written lose their poison (R313). -/
def healChunk (core : Nat) (t : Transfer) (bs : List (Nat × Nat)) (s : State) : State :=
  if t.kind = .tfill then
    match bs with
    | [] => s
    | (k, _) :: _ => tilePoke core (t.slot * 8192 + k) (bs.map fun b => BitVec.ofNat 8 b.2) s
  else heal (some core) t.ctx t.view (bs.map fun b => t.dstAt b.1) s

/-- Move chunk `c`: every byte that lies in this package is written, the others are asked for or sent. It gives how many
bytes it has written. -/
def moveChunk (core : Nat) (t : Transfer) (c : Nat) : EngM Nat := do
  let bs ← (t.chunkBytes c).mapM fun k => do return (k, ← engSource core t k)
  let here := bs.filterMap fun b => b.2.map fun v => (b.1, v)
  here.forM fun b => engDest core t b.1 b.2
  modify (healChunk core t here)
  return (here.filter fun b => t.kind == .tfill || !isFabric (t.dstAt b.1)).length

/-! ### Chunks -/

def findTransfer (s : State) (core id : Nat) : Option Transfer := (s.coreOf core).transfers.find? fun t => t.id == id

def setTransfer (core : Nat) (t : Transfer) (s : State) : State :=
  let c := s.coreOf core
  s.setCoreOf core { c with transfers := c.transfers.map fun u => if u.id = t.id then t else u }

/-- Items of a chunk that are not answered yet. -/
def chunkItems (s : State) (core : Nat) (t : Transfer) (c : Nat) : List Item :=
  s.items.filter fun i => match i.transfer with
    | some (co, id, k) => co == core && id == t.id && k / t.chunk == c
    | none => false

/-- Banks that the chunk's bytes of the core's own vault use (R186). -/
def chunkBanks (s : State) (core : Nat) (t : Transfer) (c : Nat) : BitVec 32 :=
  (t.chunkBytes c).foldl (fun b k =>
    [(t.srcAt k, Acc.load), (t.dstAt k, Acc.store)].foldl (fun b p =>
      match engPlace (some core) t.ctx t.view .unit p.2 p.1 s with
      | .ok l _ => if kindOf (some core) l = .ownVault then b ||| (1#32 <<< stripedBank (l.key % 2 ^ 30)) else b
      | .error _ _ => b) b) 0

/-- Can the transfer go on? -/
def Transfer.runs (t : Transfer) : Bool := !t.susp && t.fault.isNone && t.failed.isNone

/-- Chunk `c` may be the next to be moved: a fill takes its chunks in order (R209). -/
def Transfer.mayMove (t : Transfer) (c : Nat) : Bool :=
  t.runs && decide (c < t.chunks) && !t.done.contains c
    && (t.kind != .tfill || (List.range c).all fun i => t.done.contains i)

/-- Chunk `c` is complete: its bit is set (R16). -/
def markChunk (core : Nat) (t : Transfer) (c : Nat) (s : State) : State :=
  let t' := { t with
    done := t.done ++ [c], acks := t.acks.filter fun x => x != c }
  setChunkBits t [c] (setTransfer core t' s)

/-- A byte of the transfer has been written at its destination (R221). -/
def countByte (core id : Nat) (s : State) : State :=
  match findTransfer s core id with
  | some t => setTransfer core { t with written := t.written + 1 } s
  | none => s

def setItem (it : Item) (s : State) : State :=
  { s with items := s.items.map fun i => if i.id = it.id then it else i }

def dropItem (id : Nat) (s : State) : State := { s with items := s.items.filter fun i => i.id != id }

/-- A byte that the engine has asked for is there: it is written. A fault of the destination that goes to the engine-fault
queue leaves the byte with its item until it can be written (R220, R308), any other stays with the item; a transfer that has
failed writes nothing more. -/
def engineByte (it : Item) (core id k : Nat) (w : Word) (s : State) : State :=
  match findTransfer s core id with
  | none => dropItem it.id s
  | some t =>
    if t.failed.isSome then dropItem it.id s
    else match engDest core t k (w.toNat % 256) s with
    | .ok _ s1 =>
      let s2 := dropItem it.id s1
      if t.kind ≠ .tfill ∧ isFabric (t.dstAt k) then s2 else countByte core id s2
    | .error (.fault c false va) _ => setItem { it with failed := some c, va := va } s
    | .error _ _ => setItem { it with got := some w } s

/-- The bytes of a chunk that have come and are not written yet are written. -/
def writeCame (core id : Nat) (its : List Item) (s : State) : State :=
  its.foldl (fun s i => match i.transfer, i.got with
    | some (_, _, k), some w => engineByte i core id k w s
    | _, _ => s) s

/-- A chunk completes: it is moved if it was not, and done once no byte waits for another package. -/
def chunkStep (core id c : Nat) (s : State) : State :=
  match findTransfer s core id with
  | none => s
  | some t =>
    if !t.mayMove c then s
    else if t.acks.contains c then
      let s1 := writeCame core id (chunkItems s core t c) s
      match findTransfer s1 core id with
      | some t1 => if (chunkItems s1 core t1 c).isEmpty then markChunk core t1 c s1 else s1
      | none => s1
    else
      match moveChunk core t c s with
      | .error .wait s1 => wanting s1 s
      | .error _ _ => s
      | .ok n s1 =>
        let t := { t with written := t.written + n }
        let busy := (s1.coreOf core).bankBusy ||| chunkBanks s core t c
        let s2 := s1.setCoreOf core { s1.coreOf core with bankBusy := busy }
        if (chunkItems s2 core t c).isEmpty then markChunk core t c s2
        else setTransfer core { t with acks := t.acks ++ [c] } s2

/-- R209, R219. -/
def execFillChunkComplete (core id chunk : Nat) (s : State) : Host.Outcome State Fault Refusal :=
  .next (chunkStep core id chunk s)

/-! ### Ends of a transfer (R214, R220, R222) -/

def TransferKind.code : TransferKind → Nat
  | .cpy => 1
  | .cpy2 => 2
  | .tfill => 3
  | .tdrain => 4

/-- A post by an engine, after its counter (R222). -/
def postDone (core : Nat) (p : Option Post) (s : State) : State :=
  match p with
  | some p => appendPost core p s
  | none => s

/-- The transfer leaves the engine: the slot is ready, or empty if its convoy has ended (R206), every chunk bit is set,
the counter is incremented, the binding ends and the closure is posted. -/
def finishTransfer (core : Nat) (t : Transfer) (fail : Option (BitVec 8 × Word)) (s : State) : State :=
  let c := s.coreOf core
  let tile := c.tile t.slot
  let c1 := { c with transfers := c.transfers.filter (fun u => u.id != t.id), bankBusy := 0 }
  let tiled := (t.kind = .tfill ∨ t.kind = .tdrain) ∧ tile.owner = some t.convoy
  let s0 := if ¬tiled then s.setCoreOf core c1
    else if (liveConvoy s t.convoy).isNone then freeSlot core t.slot (s.setCoreOf core c1)
    else s.setCoreOf core (c1.setTile t.slot { tile with state := .ready, susp := false })
  let s1 := setChunkBits t (List.range t.chunks) s0
  let s2 := unbindMask t (bumpCounter t.convoy t.k 1 (fail.map fun f => ⟨t.kind.code, f.1, t.written, f.2⟩) s1)
  let s3 := { s2 with items := s2.items.filter fun i => match i.transfer with
    | some (co, id, _) => !(co == core && id == t.id)
    | none => true }
  postDone core t.cl s3

/-- Every chunk is done. -/
def Transfer.isOver (t : Transfer) : Bool := (List.range t.chunks).all fun c => t.done.contains c

/-- R214. -/
def execTransferComplete (core id : Nat) (s : State) : Host.Outcome State Fault Refusal :=
  .next (match findTransfer s core id with
    | some t => if t.runs && t.isOver then finishTransfer core t none s else s
    | none => s)

/-- The chunk that the engine takes up next. -/
def Transfer.nextChunk (t : Transfer) : Option Nat :=
  (List.range t.chunks).find? fun c => t.mayMove c && !t.acks.contains c

/-- The items of a transfer. -/
def transferItems (s : State) (core id : Nat) : List Item :=
  s.items.filter fun i => match i.transfer with
    | some (co, n, _) => co == core && n == id
    | none => false

/-- The failure that the transfer meets (R220): one that another package reports, or a fault of its next chunk that does
not go to the engine-fault queue; with the state after it was met, which has reported a flash error (R348). -/
def transferFails (s : State) (core : Nat) (t : Transfer) : Option ((BitVec 8 × Word) × State) :=
  match (transferItems s core t.id).find? fun i => i.failed.isSome with
  | some i => some ((i.failed.getD 0x16, i.va), s)
  | none =>
    match t.nextChunk with
    | none => none
    | some c =>
      match moveChunk core t c s with
      | .error (.fault cause false va) s1 => some ((cause, va), { s with staging := s1.staging })
      | _ => none

/-- Are all items of a transfer answered? Its counter waits for them (R214). -/
def transferSettled (s : State) (core id : Nat) : Bool :=
  (transferItems s core id).all fun i => i.failed.isSome || i.got.isSome

/-- A transfer that fails stops; it leaves the engine once what it has sent is answered (R220, R214, R369). -/
def failTransfer (core : Nat) (t : Transfer) (f : BitVec 8 × Word) (s : State) : State :=
  if transferSettled s core t.id then finishTransfer core t (some f) s else setTransfer core { t with failed := some f } s

/-- R220. -/
def execTransferFailure (core id : Nat) (cause : BitVec 8) (addr : Word) (s : State) :
    Host.Outcome State Fault Refusal :=
  .next (match findTransfer s core id with
    | some t => match t.failed with
      | some f => if f == (cause, addr) then failTransfer core t f s else s
      | none =>
        match transferFails s core t with
        | some (f, s1) => if t.runs && f == (cause, addr) then failTransfer core t f s1 else s
        | none => s
    | none => s)

/-- The fault that goes to the engine-fault queue (R308): that of a byte that comes from another package, or of the next
chunk. -/
def transferSoft (s : State) (core : Nat) (t : Transfer) : Option (BitVec 8 × Word) :=
  let dest (va : Word) := match engPlace (some core) t.ctx t.view .unit .store va s with
    | .error (.fault cause true va) _ => some (cause, va)
    | _ => none
  let came := if !t.runs then none else (transferItems s core t.id).findSome? fun i => match i.transfer, i.got with
    | some (_, _, k), some _ => dest (t.dstAt k)
    | _, _ => none
  match came, t.nextChunk with
  | some x, _ => some x
  | none, none => none
  | none, some c =>
    match moveChunk core t c s with
    | .error (.fault cause true va) _ => some (cause, va)
    | _ => none

/-- R308: the operation stalls, a record enters the queue, and the host is told. -/
def execEngineTranslationFault (core id : Nat) (s : State) : Host.Outcome State Fault Refusal :=
  .next (match findTransfer s core id with
    | some t =>
      match transferSoft s core t with
      | some (cause, va) =>
        let r := addFault (s.ctxOf t.ctx).vdev t.ctx 1 (BitVec.ofNat 8 core) cause va (.transfer core id) s
        setTransfer core { t with fault := some r.2 } r.1
      | none => s
    | none => s)

end Sys2Proof.Machine
end

