-- ==== Sys2Proof/Machine/End.lean ====
section
/-! DEFINITION. The end of a hart and of a convoy (R239, R261, R270 to R272, R319), and the writing of log entries
(R327, R330). -/

namespace Sys2Proof.Machine

/-! ### The end of a convoy (R206, R261) -/

/-- The last hart of a convoy has ended: its tiles and stream-queue slots are released, those in the engine's hands once
it is done, its queues and stream queues are discarded, and its counters are gone. -/
def closeConvoy (u : Nat) (s : State) : State :=
  let c := s.convoyOf u
  let core := c.core.getD c.home
  let s1 := s.setConvoyOf u { c with
    ended := true, leaving := false, q := Vector.replicate 8 [], sq := Vector.replicate 2 []
    sqPoison := Vector.replicate 2 [] }
  let mine := (s1.coreOf core).tiles.filter fun p => p.2.owner == some u && !p.2.busy
  mine.foldl (fun s p => freeSlot core p.1 s) s1

/-- Nothing of a convoy that is closed is owed any more. -/
def endConvoy (u : Nat) (s : State) : State :=
  let s1 := closeConvoy u s
  { s1 with convoys := merase s1.convoys u }

/-! ### The end of a hart (R239) -/

def setEnding (g : Nat) (status : BitVec 8) (step : Nat) (s : State) : State :=
  s.setHartOf g { s.hartOf g with status := .ending status step }

/-- Does the hart still owe stores, atomics or `mma` results? Those of a killed hart's `mma` are discarded (R326). -/
def owesStores (s : State) (g : Nat) (status : BitVec 8) : Bool :=
  (status != 0xFF && !(s.hartOf g).mma.isEmpty) || !(s.hartOf g).deferred.isEmpty
    || (hartItems { s with cur := g }).any fun i => i.failed.isNone

/-- The pending updates of an ending hart are applied, as far as they can be now (R333). -/
def flushEnding (g : Nat) (s : State) : State :=
  { flushExit (s.hartOf g).deferred.length { s with cur := g } with cur := s.cur }

/-- The hart leaves its convoy at once (R261): it withdraws from its barriers, its pending updates are applied, the convoy
barrier is judged over those that remain, and with none left the convoy ends. -/
def endLeave (g : Nat) (status : BitVec 8) (s : State) : State :=
  let u := (s.hartOf g).convoy
  let s1 := setEnding g status 10 (flushEnding g (withdraw g s))
  let s2 := settleBarrier u s1
  if (participants s2 u).isEmpty then closeConvoy u s2 else s2

/-- Step 1 of R239 is done: failed items are dropped (R371), accumulator names released (R189), and the host writes of a
gang's hart flushed, whose end is a release at system scope (R375). -/
def endFirst (g : Nat) (status : BitVec 8) (s : State) : State :=
  let s1 := dropItems { s with cur := g }
  let s2 := { (if s1.hart.join.gang.isSome then s1.hostFlushed else s1) with cur := s.cur }
  s2.setHartOf g { s2.hartOf g with
    status := .ending status 2, mma := [], acc := Vector.replicate 8 none, armed := none, resp := [] }

/-- A status write that failed is entered in the error record of the counter (R239). -/
def statusFailed (j : Join) (cause : BitVec 8) (s : State) : State :=
  match j.counter with
  | some (u, k) => bumpCounter u k 0 (some ⟨5, cause, 0, j.status⟩) s
  | none => s

/-- What came of a status write. -/
inductive StatusWrite where
  | made (s : State)
  | queued (s : State) (tag : BitVec 8)
  | waits (s : State)
  deriving DecidableEq, Repr

/-- Step 2 of R239: the status doubleword. A fault that goes to the driver is queued with ENGINE 4 for its target (R308);
any other skips the write. -/
def writeStatus (walker : Option Nat) (core : BitVec 8) (j : Join) (status : BitVec 8) (target : EngineTarget) (s : State) :
    StatusWrite :=
  if j.status = 0 then .made s
  else
    match engWrite walker j.ctx j.view .device j.status 8 status.toNat s with
    | .ok _ s1 => .made s1
    | .error (.fault c true va) s1 =>
      let r := addFault (s1.ctxOf j.ctx).vdev j.ctx 4 core c va target s1
      .queued r.1 r.2
    | .error (.fault c false _) s1 => .made (statusFailed j c s1)
    | .error .wait s1 => .waits s1

/-- Step 2 of R239 for a hart in its slot. -/
def endStatus (g : Nat) (status : BitVec 8) (s : State) : State :=
  match writeStatus (some (g / 8)) (BitVec.ofNat 8 (g / 8)) (s.hartOf g).join status (.hartEnd g) s with
  | .made s1 => setEnding g status 3 s1
  | .queued s1 _ => setEnding g status 12 s1
  | .waits s1 => s1

/-- Drop a reference of a handle in the window of a context on a core, as `cdrop` drops it (R233). -/
def dropHandle (core ctx : Nat) (x : Word) (s : State) : State :=
  let c := s.coreOf core
  match c.windowOf ctx with
  | some (n, w) =>
    if w.valid x then s.setCoreOf core { c with windows := mset c.windows n (w.drop (hFrame x)) } else s
  | none => s

/-- Step 3 of R239: the reference of the start handle. -/
def dropStart (g : Nat) (s : State) : State :=
  let h := s.hartOf g
  match h.start with
  | some x => dropHandle (g / 8) (s.convoyOf h.convoy).ctx x s
  | none => s

/-- Hart `i` of a gang, which ran on a core of this package or (0xFF) of another, reports at the issuer: status, then
counter; each hart reports once (R375, R376). A status write that waits, as for an answer to its record (R308), stays
owed with the counter. -/
def gangReport (gang i : Nat) (core status : BitVec 8) (s : State) : State :=
  match s.gangs.find? fun x => x.id == gang with
  | none => s
  | some x =>
    if x.reported.contains i || decide (x.members.length * x.harts ≤ i) then s
    else
      let j : Join :=
        { status := if x.status = 0 then 0 else x.status + BitVec.ofNat 64 (8 * i), counter := some (x.convoy, x.k)
          ctx := x.ctx, view := x.view, gang := none }
      let owed (fault : Option (BitVec 8)) (t : State) : State :=
        { t with
          lates := t.lates ++ [⟨s.nextLate, x.ctx, x.convoy, 8, j, status, core, fault⟩], nextLate := s.nextLate + 1 }
      let s1 := match writeStatus none core j status (.late s.nextLate) s with
        | .made t => bumpCounter x.convoy x.k 1 none t
        | .queued t tag => owed (some tag) t
        | .waits t => owed none t
      let y := { x with reported := i :: x.reported }
      let done_ := decide (x.members.length * x.harts ≤ y.reported.length)
      { s1 with gangs := if done_ then s1.gangs.filter fun z => z.id != gang
                         else s1.gangs.map fun z => if z.id = gang then y else z }

/-- The number under which the report of a gang's hart goes, in the place of an engine's. -/
def reportCore : Nat := 131072

/-- A hart of a gang, on a core, tells the issuer its status (R375). -/
def tellIssuer (issuer gang i : Nat) (core status : BitVec 8) (s : State) : State :=
  if issuer = s.package then gangReport gang i core status s
  else sendItem
    { id := 0, dst := issuer, plane := 0, seq := 0, fcid := 0, view := .supervisor, va := 0, t := .n64, op := .report gang i status
      unord := false, gid := 0, elem := 0, logged := false, convoy := 0, hidx := 0, waits := false, covers := []
      unsent := false, failed := none, resentFrom := [], transfer := some (reportCore, gang, i), since := s.now
      got := none, entry := none, place := none } s

/-- Step 4 of R239: the counter, and for a hart of a gang the report to the issuer (R375). -/
def joinDone (j : Join) (core status : BitVec 8) (s : State) : State :=
  let s1 := match j.counter with
    | some (u, k) => bumpCounter u k 1 none s
    | none => s
  match j.gang with
  | some (issuer, gang, i) => tellIssuer issuer gang i core status s1
  | none => s1

/-- Step 4 of R239 and the hart is gone. -/
def endLast (g : Nat) (status : BitVec 8) (s : State) : State :=
  let h := s.hartOf g
  let s2 := joinDone h.join (BitVec.ofNat 8 (g / 8)) status s
  let c := s2.convoyOf h.convoy
  let left := c.members.filter fun m => m.1 != h.hidx
  let s3 := { s2 with harts := merase s2.harts g }
  if left = [] then endConvoy h.convoy s3 else s3.setConvoyOf h.convoy { c with members := left }

/-! ### Harts with no slot (R239, R308, R312, R326) -/

def dropLate (id : Nat) (s : State) : State := { s with lates := s.lates.filter fun l => l.id != id }

/-- The counter and the gang's report of a hart with no slot: nothing more is owed for it. -/
def lateDone (l : Late) (s : State) : State := joinDone l.join l.core l.status (dropLate l.id s)

/-- A report that is owed goes on: once the hart's stores and atomics have performed, its status is written, and then it
is counted. -/
def lateStep (l : Late) (s : State) : State :=
  let owed := s.items.filter fun i =>
    !i.waits && i.transfer.isNone && i.convoy == l.convoy && i.hidx == l.hidx
  if owed.any fun i => i.failed.isNone then s
  else
    let s1 := { s with items := s.items.filter fun i => !owed.any fun j => j.id == i.id }
    match writeStatus none l.core l.join l.status (.late l.id) s1 with
    | .made s2 => lateDone l s2
    | .queued s2 tag => { s2 with lates := s2.lates.map fun x => if x.id = l.id then { x with fault := some tag } else x }
    | .waits s2 => s2

/-- A hart of context `ctx` that holds no slot reports a status (R239, R319, R375); what it waits for stays owed. -/
def reportJoin (ctx : Nat) (core : BitVec 8) (convoy hidx : Nat) (j : Join) (status : BitVec 8) (s : State) : State :=
  let l : Late := ⟨s.nextLate, ctx, convoy, hidx, j, status, core, none⟩
  lateStep l { s with lates := s.lates ++ [l], nextLate := s.nextLate + 1 }

/-- The next step of an ending hart; numbers from 2048 on name the reports that are owed. -/
def execHartEnd (g : Nat) (s : State) : Host.Outcome State Fault Refusal :=
  .next (if 2048 ≤ g then
      match s.lates.find? fun l => l.id == g - 2048 && l.fault.isNone with
      | some l => lateStep l s
      | none => s
    else match mget s.harts g with
    | none => s
    | some h =>
      match h.status with
      | .ending status 1 => endLeave g status s
      | .ending status 10 =>
        let t := flushEnding g s
        if owesStores t g status then t else endFirst g status t
      | .ending status 2 => endStatus g status s
      | .ending status 3 => endLast g status (dropStart g s)
      | _ => s)

/-! ### Writing log entries (R327) -/

/-- Change one log of a context. -/
def onLog (ctx : Nat) (order : Bool) (f : Log → Log) (s : State) : State :=
  let c := s.ctxOf ctx
  s.setCtxOf ctx (if order then { c with order := f c.order } else { c with route := f c.route })

/-- The entry at `a` and every later one is not written: head goes back to it, and FULL is set. -/
def discardLog (a : Word) (l : Log) : Log :=
  { l with head := a, full := true, pending := [], fault := none }

/-- The accesses whose entries are not written have no place any more. -/
def dropPlaces (ctx : Nat) (a : Word) (s : State) : State :=
  let cut (p : Option Word) : Option Word := p.filter fun b => decide (b.toNat < a.toNat)
  let cutAll (ds : List Deferred) : List Deferred := ds.map fun d => { d with place := cut d.place }
  let mine (u : Nat) : Bool := (s.convoyOf u).ctx == ctx
  { s with
    harts := s.harts.map fun h => if mine h.2.convoy then (h.1, { h.2 with deferred := cutAll h.2.deferred }) else h
    convoys := s.convoys.map fun c => if c.2.ctx = ctx then
        (c.1, { c.2 with out := c.2.out.map fun o => (o.1, { o.2 with deferred := cutAll o.2.deferred }) }) else c
    items := s.items.map fun i => if mine i.convoy then { i with place := cut i.place } else i }

/-- The log of a context is discarded from an entry on (R327). -/
def discardFrom (ctx : Nat) (order : Bool) (a : Word) (s : State) : State :=
  let s1 := onLog ctx order (discardLog a) s
  if order then dropPlaces ctx a s1 else s1

/-- Has the access of the entry at `a` of the ordering log not performed yet: a pending update, or a held flag (R330)? -/
def entryOwed (s : State) (ctx : Nat) (a : Word) : Bool :=
  let owes (ds : List Deferred) : Bool := ds.any fun d => d.place == some a
  (s.harts.any fun h => (s.convoyOf h.2.convoy).ctx == ctx && owes h.2.deferred)
    || (s.convoys.any fun c => c.2.ctx == ctx && c.2.out.any fun o => owes o.2.deferred)
    || s.items.any fun i => (s.convoyOf i.convoy).ctx == ctx && i.place == some a && (flagKey i).isSome

/-- Write a reserved entry. -/
def logWrite (ctx : Nat) (e : LogEntry) : EngM Unit := do
  saveWrite ctx e.at_ (e.data.toNat % 2 ^ 64)
  saveWrite ctx (e.at_ + 8) (e.data.toNat / 2 ^ 64)

/-- Entries are written in the order of their places, each once its access has performed (R327, R330). -/
def execOrderLogEntryFill (ctx : Nat) (order : Bool) (s : State) : Host.Outcome State Fault Refusal :=
  let l := theLog (s.ctxOf ctx) order
  .next (match l.pending, l.fault with
    | e :: rest, none =>
      if order && entryOwed s ctx e.at_ then s
      else match logWrite ctx e s with
      | .ok _ s1 => onLog ctx order (fun l => { l with pending := rest }) s1
      | .error (.fault c true va) s1 =>
        let r := addFault (s1.ctxOf ctx).vdev ctx 5 0xFF c va (.log ctx order) s1
        onLog ctx order (fun l => { l with fault := some r.2 }) r.1
      | .error (.fault _ false _) s1 => discardFrom ctx order e.at_ s1
      | .error .wait s1 => s1
    | _, _ => s)

end Sys2Proof.Machine
end

