-- ==== Sys2Proof/Machine/Dispatcher.lean ====
section
/-! DEFINITION. The dispatcher (R320 to R323): where a convoy fits, windows that come and go (R226, R240), placement of
launched and posted convoys, and the start of a hart (R36, R63). Saving and restoring stand in Preempt.lean. -/

namespace Sys2Proof.Machine

/-- A launch, a fabric arrival, a host access or an operation that starts returns an idle package to active (R362). -/
def wakeUp (s : State) : State := if s.power = .idle then { s with power := .active, activeAt := s.now } else s

/-! ### Slots of a core (R241, R321) -/

/-- Hart slots of a core that a gang's reservation holds (R375). -/
def reservedSlots (s : State) (core : Nat) : List Nat :=
  (s.parts.flatMap fun p => (p.slots.filter fun x => x.1 == core).flatMap Prod.snd)
    ++ s.queues.flatMap fun q => q.2.entries.flatMap fun e => ((e.reserved.drop e.next).filter fun x => x.1 == core).flatMap Prod.snd

/-- Convoys that a gang's reservation will place on a core; each needs two tile slots (R375). -/
def reservedConvoys (s : State) (core : Nat) : Nat :=
  ((s.parts.flatMap fun p => p.slots.filter fun x => x.1 == core)
    ++ s.queues.flatMap fun q => q.2.entries.flatMap fun e => (e.reserved.drop e.next).filter fun x => x.1 == core).length

/-- Is a hart slot of a core free? -/
def slotFree (s : State) (core k : Nat) : Bool :=
  (mget s.harts (8 * core + k)).isNone && !(reservedSlots s core).contains k

def occupied (s : State) (core : Nat) : Nat := ((List.range 8).filter fun k => !slotFree s core k).length

/-- Suitable slots for a convoy of `n` harts and a class (R321). -/
def suitable (cls n : Nat) : List Nat :=
  if cls = 0 then (if n = 1 then [7] else List.range 8) else List.range 7

/-- Does the core hold a resident class-0 convoy? -/
def holdsClass0 (s : State) (core : Nat) : Bool := s.convoys.any fun c => c.2.core == some core && c.2.cls == 0

/-- The slots that a convoy takes: the lowest free suitable ones. -/
def takeSlots (s : State) (core : Nat) (ks : List Nat) (n : Nat) : Option (List Nat) :=
  let free := ks.filter (slotFree s core)
  if free.length < n then none else some (free.take n)

/-- The two highest-numbered free tile slots, for stream queues (R203). -/
def streamSlots (s : State) (core : Nat) : Option (List Nat) :=
  let c := s.coreOf core
  let free := (List.range 256).reverse.filter fun n => (c.tile n).owner.isNone
  if free.length < 2 then none else some (free.take 2)

/-! ### Reclaiming parked tiles (R213, R250) -/

/-- Tile slots that a convoy owns on a core. -/
def ownedTiles (s : State) (core u : Nat) : List Nat :=
  ((s.coreOf core).tiles.filter fun p => p.2.owner == some u && !p.2.hidden).map Prod.fst

/-- The entry of a slot in a convoy's record (R250): the word of R204, PARKED with the progress of a suspended fill, its
source and its length. -/
def tileWords (s : State) (core u n : Nat) (parked : Bool) : List Nat :=
  let t := (s.coreOf core).tile n
  let park := b2n parked * 2 ^ 24
  if t.owner != some u || t.hidden then [0, 0, 0, 0]
  else
    match (s.coreOf core).transfers.find? fun x => x.kind == .tfill && x.slot == n && x.convoy == u with
    | some x => [(t.word u).toNat, park + (x.mask.elim 0 fun m => m.val) * 2 ^ 20 + x.k.val * 2 ^ 16 + x.done.length
                , x.src.toNat, x.total]
    | none => [(t.word u).toNat, park, 0, 0]

/-- Drain a parked slot of a convoy that is out to its record: its entry and TDATA are written, PARKED is cleared, and the
slot is free. -/
def reclaimSlot (u : Nat) (s : State) (n : Nat) : Option State :=
  let c := s.convoyOf u
  let core := c.home
  match c.record with
  | none => none
  | some base =>
    let save : EngM Unit := do
      (List.range 1024).forM fun i =>
        saveWrite c.ctx (base + BitVec.ofNat 64 (0x8000 + 0x2000 * n + 8 * i)) (memReadN s.mem (tileKey core (n * 8192 + 8 * i)) 8)
      ((List.range 4).zip (tileWords s core u n false)).forM fun p =>
        saveWrite c.ctx (base + BitVec.ofNat 64 (0x1000 + 32 * n + 8 * p.1)) p.2
    match save s with
    | .error _ _ => none
    | .ok _ s1 =>
      let k := s1.coreOf core
      let mine (t : Transfer) : Bool := t.kind == .tfill && t.slot == n && t.convoy == u
      let r : Reclaimed :=
        ⟨n, k.transfers.find? mine, (k.tilePoison.filter fun w => w / 2048 == n).map fun w => w % 2048⟩
      let s2 := s1.setCoreOf core { k with transfers := k.transfers.filter fun t => !mine t }
      some ((freeSlot core n s2).setConvoyOf u { c with reclaimed := c.reclaimed ++ [r] })

/-- Drain every parked slot of a convoy that is out. -/
def reclaim (s : State) (u : Nat) : Option State :=
  (ownedTiles s (s.convoyOf u).home u).foldl (fun (acc : Option State) n => acc.bind fun s => reclaimSlot u s n) (some s)

/-- Convoys that are out and have tiles parked on a core. -/
def parkedOn (s : State) (core : Nat) : List Nat :=
  (s.convoys.filter fun c => c.2.record.isSome && c.2.home == core && !(ownedTiles s core c.1).isEmpty).map Prod.fst

/-- Two free tile slots on a core for each of `n` convoys and each one reserved for a gang, beside those that `keep`
names; where they lack, the dispatcher reclaims the tiles parked there (R213 leaves open when it does, DESIGN CHOICE,
log 78). -/
def tileRoom (core : Nat) (keep : List Nat) (n : Nat) (s : State) : Option State :=
  let ok (s : State) : Bool :=
    decide (2 * (n + reservedConvoys s core) ≤ ((List.range 256).filter fun n => ((s.coreOf core).tile n).owner.isNone && !keep.contains n).length)
  if ok s then some s
  else
    match (parkedOn s core).foldl (fun (acc : Option State) u => acc.bind fun s => reclaim s u) (some s) with
    | some t => if ok t then some t else none
    | none => none

/-! ### Environment windows (R226, R240) -/

/-- The tag word of a frame (R228). -/
def Frame.tagWord (f : Frame) : Nat :=
  f.refc.toNat * 2 ^ 48 + f.gen.toNat * 2 ^ 36 + f.cnt.toNat * 2 ^ 32 + b2n f.ref * 2 ^ 31 + b2n f.live * 2 ^ 30

/-- Write a window to the save area of its context. -/
def saveWindow (w : Window) : EngM Unit := do
  let base := ((← get).ctxOf w.ctx).ctxbase
  let at_ (off : Nat) : Word := base + BitVec.ofNat 64 off
  (List.range 256).forM fun f => do
    saveWrite w.ctx (at_ (0x1000 + 8 * f)) (w.frame f).tagWord
    (List.finRange 16).forM fun i => saveWrite w.ctx (at_ (0x1800 + 128 * f + 8 * i.val)) (w.frame f).data[i].toNat
  (List.range 32).forM fun i => saveWrite w.ctx (at_ (0x9800 + 8 * i))
    (ofBytes (((w.order.drop (8 * i)).take 8).map fun n => BitVec.ofNat 8 n))
  saveWrite w.ctx (at_ 0x9900) w.order.length

/-- Read a window back. -/
def loadWindow (ctx : Nat) : EngM Window := do
  let base := ((← get).ctxOf ctx).ctxbase
  let at_ (off : Nat) : Word := base + BitVec.ofNat 64 off
  let frames ← (List.range 256).mapM fun f => do
    let t ← saveRead ctx (at_ (0x1000 + 8 * f))
    let ds ← (List.range 16).mapM fun i => saveRead ctx (at_ (0x1800 + 128 * f + 8 * i))
    let x : Frame :=
      { refc := BitVec.ofNat 16 (t >>> 48), gen := BitVec.ofNat 12 (t >>> 36), cnt := BitVec.ofNat 4 (t >>> 32)
        ref := bit t 31, live := bit t 30, data := Vector.ofFn fun i => BitVec.ofNat 64 (ds.getD i.val 0), poison := [] }
    return (f, x)
  let ws ← (List.range 32).mapM fun i => saveRead ctx (at_ (0x9800 + 8 * i))
  let n ← saveRead ctx (at_ 0x9900)
  return ⟨((← get).ctxOf ctx).savedWin, ctx, frames, ((ws.flatMap fun w => toBytes 8 w).map BitVec.toNat).take n⟩

/-- May a window of a core be saved away: no convoy of its context is resident there, and the save area, which has room
for one window of the context (R250), holds none. -/
def evictable (s : State) (core : Nat) (w : Window) : Bool :=
  !(s.convoys.any fun c => c.2.core == some core && c.2.ctx == w.ctx) && !(s.ctxOf w.ctx).saved

/-- Save the window `n` of a core with its posts, and free it (R240). -/
def evict (core n : Nat) (w : Window) (s : State) : Option State :=
  match saveWindow w s with
  | .error _ _ => none
  | .ok _ s1 =>
    let c := s1.coreOf core
    let x := s1.ctxOf w.ctx
    let posts := c.posts.filter fun p => p.ctx == w.ctx
    let s2 := s1.setCoreOf core { c with windows := merase c.windows n, posts := c.posts.filter fun p => p.ctx != w.ctx }
    some (writePosts w.ctx (s2.setCtxOf w.ctx { x with
      saved := true, savedWin := w.id, posts := x.posts ++ posts
      windowPoison := (w.frames.filter fun f => !f.2.poison.isEmpty).map fun f => (f.1, f.2.poison) }))

/-- The queued posts as the save area now gives them (R250): handle, class, counter and status address of each; the rest
is what the device keeps of it. -/
def readPosts (ctx : Nat) : EngM (List Post) := do
  let x := (← get).ctxOf ctx
  let rd (off : Nat) := saveRead ctx (x.ctxbase + BitVec.ofNat 64 off)
  let n ← rd 0x9908
  ((List.range x.posts.length).zip (x.posts.take n)).mapM fun p => do
    let h ← rd (0x9A00 + 32 * p.1)
    let v ← rd (0x9A08 + 32 * p.1)
    let a ← rd (0x9A10 + 32 * p.1)
    return { p.2 with handle := BitVec.ofNat 64 h, cls := v % 8, k := Fin.ofNat 8 (v / 256), status := BitVec.ofNat 64 a }

/-- Windows of a core (R226). -/
def windowCount : Nat := 8

/-- Give a context a window on a core: the one it has, a free one, or one that another context leaves. A saved window of
the context is reloaded whole, with its posts, for a convoy that is newly placed as well: R240 speaks of a restore alone
(DESIGN CHOICE, log 76). Else the window is fresh, under a number of its own. -/
def ensureWindow (core ctx : Nat) (s : State) : Option State :=
  let c := s.coreOf core
  if (c.windowOf ctx).isSome then some s
  else
    let free := (List.range windowCount).find? fun n => (mget c.windows n).isNone
    let room : Option (Nat × State) := match free with
      | some n => some (n, s)
      | none => match c.windows.find? fun p => evictable s core p.2 with
        | some (n, w) => (evict core n w s).map fun t => (n, t)
        | none => none
    match room with
    | none => none
    | some (n, s1) =>
      let put (w : Window) (posts : List Post) (s : State) : State :=
        let c := s.coreOf core
        s.setCoreOf core { c with windows := mset c.windows n w, posts := c.posts ++ posts }
      let x := s1.ctxOf ctx
      if x.saved then
        let reload : EngM (Window × List Post) := do
          let w ← loadWindow ctx
          let ps ← readPosts ctx
          saveWrite ctx (x.ctxbase + 0x9908) 0
          return (w, ps)
        match reload s1 with
        | .ok (w, ps) s2 =>
          let w' := x.windowPoison.foldl (fun (w : Window) p => w.setFrame p.1 { w.frame p.1 with poison := p.2 }) w
          some (put w' ps (s2.setCtxOf ctx { x with saved := false, posts := [], windowPoison := [] }))
        | .error _ _ => none
      else some (put (Window.fresh (s1.nextWindow + 1) ctx) [] { s1 with nextWindow := s1.nextWindow + 1 })

/-- The window that a convoy returning to a core uses: the one that its handles index, which moves with it (R227, R240).
It cannot come while another convoy of the context is resident beside it, while the save area holds another window of the
context, or where the core already has one (log 76). One that is lost is replaced (R312). -/
def followWindow (core ctx win : Nat) (s : State) : Option State :=
  let here := ((s.coreOf core).windowOf ctx).isSome
  match windowCore s win with
  | some m =>
    if m = core then some s
    else match (s.coreOf m).windowOf ctx with
      | none => ensureWindow core ctx s
      | some (n, w) => if here || !evictable s m w then none else (evict m n w s).bind (ensureWindow core ctx)
  | none =>
    let x := s.ctxOf ctx
    if here && x.saved && x.savedWin == win then none else ensureWindow core ctx s

/-! ### Candidates (R321) -/

/-- What a convoy asks of a core. -/
structure Need where
  vd : Nat
  ctx : Nat
  cls : Nat
  size : Nat
  accs : Nat
  /-- The only core it may take. -/
  only : Option Nat
  /-- Does a gang's reservation hold its room already? -/
  held : Bool
  /-- For a convoy that is out: what it is, the core it left, and its tile slots. -/
  out : Option (Nat × Nat × List Nat)
  deriving DecidableEq, Repr

/-- Physical accumulators of a core that are free. -/
def accsFree (s : State) (core : Nat) : Nat := 16 - (usedAcc s core).length

/-- Get a core ready for a convoy: its window, and room in the tile store. One that is out has its own slots back, parked
where they are or free, after a reclaim if it left them on another core (R213, R240). -/
def makeReady (core : Nat) (n : Need) (s : State) : Option State :=
  match n.out with
  | none => (ensureWindow core n.ctx s).bind (tileRoom core [] (b2n !n.held))
  | some (u, home, tiles) =>
    let moved := if home = core then some s else reclaim s u
    (moved.bind (followWindow core n.ctx (s.convoyOf u).win)).bind fun s1 =>
      if tiles.all fun t => ((s1.coreOf core).tile t).owner.all fun o => o == u then tileRoom core tiles 1 s1 else none

/-- The hart slots that the convoy takes on a core, if the core is a candidate. -/
def fits (s : State) (core : Nat) (n : Need) : Option (List Nat) :=
  if (s.coreOf core).fenced || (n.cls == 0 && n.size == 1 && holdsClass0 s core)
      || decide (accsFree s core < n.accs) || (makeReady core n s).isNone
      || (match n.only with
        | some c => c != core
        | none => false)
  then none
  else takeSlots s core (suitable n.cls n.size) n.size

/-- The candidate chosen: the cluster with the fewest occupied slots, then the core, then the lowest number. -/
def chooseCore (s : State) (n : Need) : Option (Nat × List Nat) :=
  let key (core : Nat) : Nat :=
    let inCluster := ((List.range 8).map fun k => occupied s (core / 8 * 8 + k)).sum
    inCluster * 65536 + occupied s core * 256 + core
  (vdevCores s n.vd).foldl (fun acc core =>
    match fits s core n with
    | none => acc
    | some ks =>
      match acc with
      | none => some (core, ks)
      | some (b, bs) => if key core < key b then some (core, ks) else some (b, bs)) none

/-! ### Waiting convoys (R320) -/

/-- 10 ms in picoseconds. -/
def classStep : Nat := 10000000000

/-- The effective class after a wait since a moment. -/
def effective (cls since now : Nat) : Nat := if cls = 0 then 0 else max 1 (cls - (now - since) / classStep)

/-- A waiting convoy: the head packet's next convoy of a queue, or a convoy that is out. -/
inductive Waiting where
  | queue (q : Nat) (e : Queued)
  | out (u : Nat) (c : Convoy)
  deriving DecidableEq, Repr

/-- The core a deterministic convoy is intended for (R332). -/
def intended (s : State) (vd k : Nat) : Option Nat :=
  let cs := vdevCores s vd
  cs[k % cs.length]?

/-- Bound names of the saved harts of a convoy. -/
def savedAccs (s : State) (c : Convoy) : Nat :=
  match c.record with
  | none => 0
  | some base => (c.out.map fun o => ((List.range 8).filter fun a =>
      ((engGet (saveRead c.ctx (base + BitVec.ofNat 64 (hartOffset o.1 + 0x400 + 8 * a))) s).getD 0) ≥ 2 ^ 63).length).sum

/-- What a waiting convoy asks for. A convoy that is out goes back to its own core in deterministic mode (R332). -/
def Waiting.need (s : State) : Waiting → Need
  | .queue q e =>
    let (vd, ctx) := match (s.queueOf q).bind with
      | some (_, vd, ctx) => (vd, ctx)
      | none => (0, 0)
    { vd, ctx, cls := Packet_.cls e.packet, size := Packet_.harts e.packet, accs := 0
      only := if e.det then intended s vd (e.detBase + e.next) else none, held := e.gang.isSome, out := none }
  | .out u c =>
    { vd := (s.ctxOf c.ctx).vdev, ctx := c.ctx, cls := c.cls, size := c.members.length, accs := savedAccs s c
      only := if c.det then some c.home else none, held := false
      out := some (u, c.home, ownedTiles s c.home u ++ c.reclaimed.map Reclaimed.slot) }

def Waiting.cls (now : Nat) : Waiting → Nat
  | .queue _ e => effective (Packet_.cls e.packet) e.since now
  | .out _ c => effective c.cls c.waitSince now

/-- The rank of a waiting convoy: effective class; convoys that are out first, the earliest first; then queues, in
round-robin order after the one last served. -/
def Waiting.rank (s : State) (w : Waiting) : List Nat :=
  let k := w.cls s.now
  match w with
  | .out u c => [k, 0, c.waitSince, u]
  | .queue q _ =>
    let last := (mget s.rr k).getD 255
    [k, 1, (q + 256 - (last + 1) % 256) % 256, q]

def rankLe : List Nat → List Nat → Bool
  | a :: x, b :: y => decide (a < b) || (a == b && rankLe x y)
  | _, _ => true

/-- The waiting convoys in the order in which they are considered. -/
def waitingConvoys (s : State) : List Waiting :=
  let qs := s.queues.filterMap fun q => match q.2.bind, q.2.entries with
    | some _, e :: _ => some (Waiting.queue q.1 e)
    | _, _ => none
  let os := s.convoys.filterMap fun c => if c.2.record.isSome then some (Waiting.out c.1 c.2) else none
  sortBy (fun a b => rankLe (a.rank s) (b.rank s)) (qs ++ os)

/-- Where a waiting convoy can go now: a gang's convoy to the slots reserved for it (R375). -/
def Waiting.spot (s : State) (w : Waiting) : Option (Nat × List Nat) :=
  match w with
  | .queue _ e => match e.reserved[e.next]? with
    | some x => some x
    | none => chooseCore s (w.need s)
  | .out _ _ => chooseCore s (w.need s)

/-- May a decision about a context be entered in its route log now: there is room, and no packet held in the endpoint
takes it first (R318, R328)? -/
def mayRoute (s : State) (ctx : Nat) : Bool := routeRoom (s.ctxOf ctx) 1 && !heldFirst s ctx

/-- A decision that finds the route log full is not taken: FULL is set, and the host is told (R327, R328, R358). -/
def toldFull (ctx : Nat) (s : State) : State :=
  if routeRoom (s.ctxOf ctx) 1 then s else raiseInt (fnOfVdev s (s.ctxOf ctx).vdev) 4 (routeFull ctx s)

/-- Has the host been told already? -/
def knowsFull (s : State) (ctx : Nat) : Bool :=
  routeRoom (s.ctxOf ctx) 1
    || ((s.ctxOf ctx).route.full && (s.fnOf (fnOfVdev s (s.ctxOf ctx).vdev)).intcause.getLsbD 4)

/-- Has a gang reserved the entry of the decision (R375)? -/
def Waiting.logHeld : Waiting → Bool
  | .queue _ e => e.logHeld
  | .out _ _ => false

/-- Does the log let the decision be taken? -/
def Waiting.mayLog (s : State) (w : Waiting) : Bool := w.logHeld || mayRoute s (w.need s).ctx

/-- The convoy that is placed or restored next. -/
def nextPlaced (s : State) : Option (Waiting × Nat × List Nat) :=
  (waitingConvoys s).findSome? fun w =>
    if w.mayLog s then (w.spot s).map fun p => (w, p.1, p.2) else none

/-- Contexts of waiting convoys that would be placed or restored but for their full log. -/
def fullLogs (s : State) : List Nat :=
  ((waitingConvoys s).filter fun w => !w.logHeld && !routeRoom (s.ctxOf (w.need s).ctx) 1 && (w.spot s).isSome).map
    fun w => (w.need s).ctx

/-! ### Starting harts (R36, R63) -/

/-- The instance number of a hart that starts (R235). -/
def takeInstance (ctx : Nat) (s : State) : BitVec 32 × State :=
  let c := s.ctxOf ctx
  let n := nextId c.instances
  (n, s.setCtxOf ctx { c with instances := n })

/-- Put a hart in a slot and check its entry: a failure faults the started hart (R63). -/
def startHart (g : Nat) (h : Hart) (s : State) : State :=
  let (n, s1) := takeInstance (s.convoyOf h.convoy).ctx s
  let h1 := { h with instNo := n, code := s.mem }
  let s2 := { s1.setHartOf g h1 with cur := g }
  let s3 := match checkTarget h1.pc true s2 with
    | .ok _ t => t
    | .error (.trap x) t => t.setHartOf g (takeTrap x false h1.pc h1)
    | .error _ t => t
  { s3 with cur := s.cur }

/-- A new resident convoy with its stream-queue slots and the window of its context on the core. -/
def addConvoy (core : Nat) (c : Convoy) (s : State) : Nat × State :=
  let u := s.nextConvoy
  let ts := (streamSlots s core).getD []
  let k := ts.foldl (fun k n => Core.setTile k n { Tile.reset with owner := some u, hidden := true }) (s.coreOf core)
  (u, { (s.setCoreOf core k).setConvoyOf u { c with
    core := some core, home := core, placedAt := s.now, win := ((k.windowOf c.ctx).map fun w => w.2.id).getD 0 } with
    nextConvoy := u + 1 })

/-- A mask of slots. -/
def slotMask (ks : List Nat) : Nat := (ks.map fun k => 2 ^ k).sum

/-- The hart of a launched convoy (R36, R315). -/
def launchedHart (s : State) (e : Queued) (u ctx cidx h : Nat) : Hart :=
  let p := e.packet
  let g := cidx * Packet_.harts p + h
  let n := Packet_.share p g
  let start := Packet_.start p g
  let regs (r : Nat) : Word :=
    if r = 1 then BitVec.ofNat 64 start else if r = 2 then BitVec.ofNat 64 n
    else if 3 ≤ r ∧ r ≤ 7 then Packet_.arg p (r - 3) else 0
  { Hart.reset with
    convoy := u, hidx := h, pc := Packet_.entry p, s := Vector.ofFn fun r => regs r.val
    csr := { Csrs.reset with sc := BitVec.ofNat 64 n, tvec := (s.ctxOf ctx).tvec }
    det := e.det, logged := Packet_.logged p
    join :=
      { status := if e.status = 0 then 0 else e.status + BitVec.ofNat 64 (8 * g), counter := e.counter, ctx := e.ctx
        view := e.view, gang := e.gang.map fun x => (x.1, x.2.1, x.2.2 + g) } }

/-- Place the next convoy of a queue's head packet on a core. -/
def placeQueued (q : Nat) (e : Queued) (core : Nat) (ks : List Nat) (s : State) : State :=
  match (s.queueOf q).bind with
  | none => s
  | some (_, _, ctx) =>
    match makeReady core ((Waiting.queue q e).need s) s with
    | none => s
    | some s1 =>
      let p := e.packet
      let n := Packet_.harts p
      let r := addConvoy core
        { Convoy.reset with
          ctx := ctx, tag := Packet_.tag p, cidx := e.next, cls := Packet_.cls p, size := n
          members := (List.range n).zip (ks.map fun k => 8 * core + k), seq := e.seq, det := e.det
          logged := Packet_.logged p } s1
      let s2 := ((List.range n).zip ks).foldl (fun s x =>
        startHart (8 * core + x.2) (launchedHart s e r.1 ctx e.next x.1) s) r.2
      let e' := { e with next := e.next + 1 }
      let x := s2.queueOf q
      let rest := x.entries.drop 1
      let s3 := s2.setQueueOf q { x with entries := if e'.next ≥ Packet_.convoys p then rest else e' :: rest }
      let eff := effective (Packet_.cls p) e.since s.now
      routeOf e.logHeld ctx 2 e.next core (slotMask ks) e.seq (wakeUp { s3 with rr := mset s3.rr eff q })

/-- R320, R321: the waiting convoy that comes first and fits is placed; the host learns of decisions that a full log
holds up. -/
def execDispatchPlace (s : State) : Host.Outcome State Fault Refusal :=
  let s1 := (fullLogs s).foldl (fun s c => toldFull c s) s
  .next (match nextPlaced s1 with
    | some (.queue q e, core, ks) => placeQueued q e core ks s1
    | _ => s1)

/-! ### Posted closures (R239, R323) -/

/-- The slot that a posted hart takes. -/
def postSlot (s : State) (core cls : Nat) : Option Nat :=
  let ks := if cls = 0 ∧ ¬holdsClass0 s core then [7] else List.range 7
  ks.find? (slotFree s core)

/-- May the post start now but for the log? Its context's window is resident, and slot and stream queues have room. -/
def postFits (s : State) (core : Nat) (p : Post) : Bool :=
  ((s.coreOf core).windowOf p.ctx).isSome && (postSlot s core p.cls).isSome && (tileRoom core [] 1 s).isSome
    && !(s.coreOf core).fenced

/-- The oldest post of each class, ascending (R323). -/
def headPosts (s : State) (core : Nat) : List (Nat × Post) :=
  let ps := (s.coreOf core).posts
  let idx := (List.range ps.length).zip ps
  (List.range 8).filterMap fun k => idx.find? fun p => p.2.cls == k

/-- The post that starts next: of the lowest class, the oldest (R323). -/
def nextPost (s : State) (core : Nat) : Option (Nat × Post) :=
  (headPosts s core).find? fun p => postFits s core p.2 && mayRoute s p.2.ctx

/-- Contexts of posts that would start but for their full log. -/
def fullPosts (s : State) (core : Nat) : List Nat :=
  ((headPosts s core).filter fun p => postFits s core p.2 && !routeRoom (s.ctxOf p.2.ctx) 1).map fun p => p.2.ctx

/-- A saved context with posts whose window may be reloaded on a core of its virtual device. The spec does not say when,
or on which core, the window of a context comes back that has posts but no convoy to restore: it comes back by itself,
on any such core (DESIGN CHOICE, log 76). -/
def savedWithPosts (s : State) (core : Nat) : Option Nat :=
  (s.contexts.find? fun c => c.2.saved && !c.2.posts.isEmpty && (s.clusterOf (core / 8)).vdev == some c.2.vdev).map Prod.fst

/-- Start a posted closure as a convoy of one hart. -/
def startPost (core i : Nat) (p : Post) (k : Nat) (s0 : State) : State :=
  let s := (tileRoom core [] 1 s0).getD s0
  let c := s.coreOf core
  let s1 := s.setCoreOf core { c with posts := c.posts.eraseIdx i }
  let x := s1.ctxOf p.ctx
  let det := p.det || x.det
  let r := addConvoy core
    { Convoy.reset with
      ctx := p.ctx, tag := p.tag, cidx := 0, cls := p.cls, size := 1, members := [(0, 8 * core + k)]
      poster := some p.poster, seq := p.seq, det := det, logged := p.logged } s1
  let h : Hart :=
    { Hart.reset with
      convoy := r.1, hidx := 0, pc := entryOf x.codebase p.handle
      csr := { Csrs.reset with env := p.handle, tvec := x.tvec }
      det := det, logged := p.logged, start := some p.handle
      join := if p.engine then Join.none
        else { status := p.status, counter := some (p.poster.1, p.k), ctx := p.ctx, view := p.view, gang := none } }
  routeLog p.ctx 5 0 core (2 ^ k) p.seq (wakeUp (startHart (8 * core + k) h r.2))

/-- R239: the next post of the core starts; posts of a context whose window is out follow its reload (R240). -/
def execPostedClosureStart (core : Nat) (s : State) : Host.Outcome State Fault Refusal :=
  let s1 := (fullPosts s core).foldl (fun s c => toldFull c s) s
  .next (match nextPost s1 core with
    | some (i, p) =>
      match postSlot s1 core p.cls with
      | some k => startPost core i p k s1
      | none => s1
    | none =>
      match savedWithPosts s1 core with
      | some ctx => (ensureWindow core ctx s1).getD s1
      | none => s1)

end Sys2Proof.Machine
end

