-- ==== Sys2Proof/Machine/Preempt.lean ====
section
/-! DEFINITION. Pre-emption, saving and restoring of convoys (R202, R213, R248 to R251, R322), and `yield` (R269). -/

namespace Sys2Proof.Machine

/-! ### Records (R250) -/

/-- Bytes of a convoy record. -/
def convoyRecord : Nat := 0x710000

/-- The lowest record of a context that is not in use (R249, R250). -/
def freeRecord (s : State) (ctx : Nat) : Option Word :=
  let base := (s.ctxOf ctx).ctxbase
  match engGet (saveRead ctx base) s, engGet (saveRead ctx (base + 8)) s with
  | some rb, some n =>
    ((List.range (min n 65536)).map fun i => BitVec.ofNat 64 (rb + i * convoyRecord)).find? fun r =>
      match engGet (saveRead ctx (r + 0x10)) s with
      | some v => !bit v 63
      | none => false
  | _, _ => none

/-- The convoy record as offsets and doublewords. -/
def convoyWords (s : State) (u : Nat) : List (Nat × Nat) :=
  let c := s.convoyOf u
  let core := c.core.getD 0
  let q8 := List.finRange 8
  [(0, (vtypeWord c).toNat), (8, (convoyIdWord c).toNat)
  , (0x10, 2 ^ 63 + (c.size - 1) * 2 ^ 16 + c.cls * 2 ^ 8 + c.arrived.toNat)]
    ++ wordsAt 0x40 c.k.toList
    ++ (q8.flatMap fun i => wordsAt (0x80 + 16 * i.val) [c.kerr[i].word, c.kerr[i].addr])
    ++ (q8.flatMap fun i => wordsAt (0x100 + 128 * i.val) c.q[i])
    ++ [(0x500, ofBytes (q8.map fun i => BitVec.ofNat 8 c.q[i].length))]
    ++ wordsAt 0x508 [BitVec.ofNat 64 c.sq[0].length, BitVec.ofNat 64 c.sq[1].length]
    ++ ((List.range 256).flatMap fun n =>
      ((List.range 4).zip (tileWords s core u n true)).map fun p => (0x1000 + 32 * n + 8 * p.1, p.2))
    ++ numWords 0x3000 1024 (ofBytes c.sq[0]) ++ numWords 0x5000 1024 (ofBytes c.sq[1])

/-! ### May a convoy be saved now? -/

/-- The resident harts of a convoy: those that have not ended. -/
def residents (s : State) (u : Nat) : List (Nat × Hart) := s.harts.filter fun p => p.2.convoy == u

def isEnding (h : Hart) : Bool :=
  match h.status with
  | .ending _ _ => true
  | _ => false

/-- Responses that a hart waits for, or has and has not used. -/
def awaits (s : State) (h : Hart) : Bool :=
  !h.resp.isEmpty || s.items.any fun i => i.waits && i.transfer.isNone && i.convoy == h.convoy && i.hidx == h.hidx

/-- Must the unit at a hart's pc be finished before the hart can leave: a merge (R225), a pair that is firm, a unit that has
sent stores, or an `amo` that has been asked of the fabric and may have performed? -/
def mustFinish (s : State) (g : Nat) (h : Hart) : Bool :=
  h.merge.isSome || h.firm || h.posted != 0 || (awaits s h && (match (fetchUnit { s with cur := g }).1 with
    | .one (.amo _) => true
    | _ => false))

/-- Squash the uncommitted unit of a hart (R246, R248): the loads that it has asked of the fabric are nobody's. -/
def squash (s : State) (p : Nat × Hart) : State :=
  if mustFinish s p.1 p.2 || !awaits s p.2 then s
  else
    let mine (i : Item) : Bool := i.waits && i.transfer.isNone && i.convoy == p.2.convoy && i.hidx == p.2.hidx
    { s.setHartOf p.1 { s.hartOf p.1 with resp := [], pair := none } with
      items := s.items.map fun i => if mine i then { i with hidx := 8 } else i }

/-- Every unit that had to finish is done and nothing is awaited, `mma`, merges and drains are complete, and no fill stands
in the middle of a chunk (R213, R225, R248). -/
def quiet (s : State) (u core : Nat) : Bool :=
  (residents s u).all (fun p => p.2.mma.isEmpty && !isEnding p.2 && !mustFinish s p.1 p.2 && !awaits s p.2)
    && (s.coreOf core).transfers.all fun t => t.convoy != u
      || (t.kind != .tdrain && (t.kind != .tfill || t.acks.isEmpty))

/-- What is kept of a hart beside its record. -/
def outOf (h : Hart) : OutHart :=
  { join := h.join, start := h.start, frameCount := h.frameCount, deferred := h.deferred, code := h.code
    poison := h.poison, hostLast := h.hostLast }

/-- The fills of a convoy that leaves a core are suspended (R248). -/
def suspendFills (u core : Nat) (s : State) : State :=
  let k := s.coreOf core
  s.setCoreOf core { k with
    transfers := k.transfers.map (fun t => if t.convoy = u ∧ t.kind = .tfill then { t with susp := true } else t)
    tiles := k.tiles.map fun p =>
      if p.2.owner = some u ∧ p.2.state = .filling then (p.1, { p.2 with susp := true }) else p }

/-- The record of a convoy is written at `base`: its own part and a part for each resident hart (R251). -/
def saveImage (ctx : Nat) (base : Word) (ewb : Nat) (words : List (Nat × Nat)) (hs : List (Nat × Hart)) : EngM Unit := do
  words.forM fun p => saveWrite ctx (base + BitVec.ofNat 64 p.1) p.2
  hs.forM fun p => (hartWords p.2 ewb 0x20).forM fun w =>
    engWrite none ctx .supervisor .device (base + BitVec.ofNat 64 (hartOffset p.2.hidx + w.1)) w.2.1 w.2.2

/-- A convoy whose record is written leaves its core for the restore list (R248): its slots, harts and arrivals go. -/
def leaveCore (u core : Nat) (base : Word) (hs : List (Nat × Hart)) (c : Convoy) (s : State) : State :=
  let hidden := ((s.coreOf core).tiles.filter fun p => p.2.owner == some u && p.2.hidden).map Prod.fst
  let s3 := hidden.foldl (fun s n => freeSlot core n s) s
  let s4 := hs.foldl (fun s p => withdrawCbar (core / 8) p.1 s) s3
  let s5 := { s4 with harts := s4.harts.filter fun p => p.2.convoy != u }
  let s6 := s5.setConvoyOf u { c with
    core := none, home := core, record := some base, waitSince := s.now, leaving := false
    out := hs.map fun p => (p.2.hidx, outOf p.2) }
  let vd := (s.ctxOf c.ctx).vdev
  let v := s6.vdevOf vd
  routeLog c.ctx 3 c.cidx core (slotMask (hs.map fun p => p.1 % 8)) c.seq
    (s6.setVdevOf vd { v with restores := v.restores ++ [u] })

/-- The convoy saved as it stands: none when no record is free or can be written (R249). -/
def saveNow (u : Nat) (s : State) : Option State :=
  let c := s.convoyOf u
  match c.core with
  | none => none
  | some core =>
    match freeRecord s c.ctx with
    | none => none
    | some base =>
      let t := suspendFills u core s
      match saveImage c.ctx base c.ewBytes (convoyWords t u) (residents s u) t with
      | .error _ _ => none
      | .ok _ v => some (leaveCore u core base (residents s u) c v)

/-- The pre-emption of a convoy begins, or goes on (R248): its harts admit no unit but one that must finish, what is not
committed is squashed, and once the convoy is quiet records are written, fills suspend, slots, accumulators and
stream-queue slots return to the core, and the convoy joins the restore list. -/
def leave (u : Nat) (s : State) : State :=
  let s1 := (residents s u).foldl squash (s.setConvoyOf u { s.convoyOf u with leaving := true })
  if (s.convoyOf u).core.all fun core => quiet s1 u core then (saveNow u s1).getD s1 else s1

/-- It is given up: the convoy runs on. -/
def remain (u : Nat) (s : State) : State := s.setConvoyOf u { s.convoyOf u with leaving := false }

/-! ### Which convoy is pre-empted (R322) -/

/-- 1 ms in picoseconds. -/
def quantum : Nat := 1000000000

/-- The state as it will stand after a convoy has left its core. -/
def without (u : Nat) (s : State) : State :=
  match (s.convoyOf u).core with
  | none => s
  | some core =>
    let hidden := ((s.coreOf core).tiles.filter fun p => p.2.owner == some u && p.2.hidden).map Prod.fst
    let s1 := hidden.foldl (fun s n => freeSlot core n s) s
    { s1 with harts := s1.harts.filter (fun p => p.2.convoy != u), convoys := merase s1.convoys u }

/-- Does a waiting convoy of effective class ≤ that of `u` fit on its core once it leaves? `now` asks for one that
pre-empts at once: class 0 with more than one hart. -/
def wanted (s : State) (u core : Nat) (atOnce : Bool) : Bool :=
  let c := s.convoyOf u
  let s' := without u s
  (waitingConvoys s).any fun w =>
    decide (w.cls s.now ≤ c.cls) && (!atOnce || ((w.need s).cls == 0 && decide (1 < (w.need s).size)))
      && (vdevCores s (w.need s).vd).contains core && (fits s' core (w.need s)).isSome

/-- Does the convoy qualify but for its route log (R322, R249)? One that must first finish a merge, an `mma` or a drain
does, and is waited for. -/
def wouldLeave (s : State) (u : Nat) : Bool :=
  let c := s.convoyOf u
  match c.core with
  | none => false
  | some core =>
    c.cls != 0 && !c.ended && (wanted s u core true || (decide (c.placedAt + quantum ≤ s.now) && wanted s u core false))
      && (saveNow u s).isSome

/-- Does it qualify? With its context's log full the decision is not taken (R328). -/
def qualifies (s : State) (u : Nat) : Bool := mayRoute s (s.convoyOf u).ctx && wouldLeave s u

/-- Of those that qualify: the largest class, then the one that has run longest, then the lowest core. -/
def firstToLeave (s : State) : Option Nat :=
  let key (u : Nat) : List Nat :=
    let c := s.convoyOf u
    [7 - c.cls, c.placedAt, c.core.getD 0, u]
  ((s.convoys.map Prod.fst).filter (qualifies s)).foldl (fun acc u => match acc with
    | none => some u
    | some v => if rankLe (key v) (key u) then acc else some u) none

/-- The convoy whose pre-emption has begun, else the first to leave. -/
def nextToLeave (s : State) : Option Nat :=
  match s.convoys.find? fun c => c.2.leaving with
  | some c => some c.1
  | none => firstToLeave s

/-- R322, R248. A full route log holds the decision up, of which the host is told (R328); a record or a log that is no
longer there when the convoy is quiet gives it up. -/
def execPreEmption (u : Nat) (s : State) : Host.Outcome State Fault Refusal :=
  let ctx := (s.convoyOf u).ctx
  .next (if nextToLeave s = some u then
      if mayRoute s ctx && (saveNow u s).isSome then leave u s else toldFull ctx (remain u s)
    else if wouldLeave s u && !mayRoute s ctx then toldFull ctx s
    else s)

/-! ### Restoring (R320, R248) -/

/-- Read from an address, for `readHart`. -/
def recordRead (ctx : Nat) (base : Word) (off : Nat) : M Nat := fun s =>
  match saveRead ctx (base + BitVec.ofNat 64 off) s with
  | .ok v s' => .ok v s'
  | .error _ s' => .error (.hold none) s'

/-- Where a restored hart stands: one whose arrival bit is kept waits on at its barrier (R263). -/
def restoredStatus (s : State) (h : Hart) (arrived : Bool) (g : Nat) : Status :=
  if h.status = .halted then .halted
  else if !arrived then .running
  else
    match fetchUnit { (s.setHartOf g h) with cur := g } with
    | (.one .bar, _) => .waiting .bar
    | (.one (.vcfg x), _) => .waiting (.vcfg x)
    | _ => .running

/-- A hart read back into slot `g`; none when its record is not one. -/
def restoreHart (u : Nat) (c : Convoy) (base : Word) (o : Nat × OutHart) (g : Nat) (s : State) : Option State :=
  let old : Hart :=
    { Hart.reset with
      convoy := u, hidx := o.1, det := c.det, logged := c.logged, join := o.2.join, start := o.2.start
      frameCount := o.2.frameCount, deferred := o.2.deferred, code := o.2.code, hostLast := o.2.hostLast }
  let off := hartOffset o.1
  match readHart (recordRead c.ctx (base + BitVec.ofNat 64 off)) old s,
      engGet (saveRead c.ctx (base + BitVec.ofNat 64 (off + 0x1B0))) s with
  | .ok (some h) s1, some hi =>
    let core := g / 8
    match claimAccs (freeAccs (usedAcc s1 core)) h with
    | none => none
    | some h1 =>
      let ts := s1.cores.flatMap fun k => k.2.transfers
      let h2 : Hart :=
        { h1 with
          instNo := BitVec.ofNat 32 (hi / 2 ^ 32)
          poison := o.2.poison
          stamp := s1.now
          m := Vector.ofFn fun m => { h1.m[m] with
            bound := (ts.find? fun t => t.convoy == u && t.hidx == o.1 && t.mask == some m).map Transfer.id } }
      let s2 := (s1.setHartOf g h2).setConvoyOf u { s1.convoyOf u with core := some core }
      some (s2.setHartOf g { h2 with status := restoredStatus s2 h2 (c.arrived.getLsbD o.1) g })
  | _, _ => none

/-- The convoy's own state read back from its record. -/
def readConvoy (c : Convoy) (base : Word) : EngM Convoy := do
  let rd (off : Nat) := saveRead c.ctx (base + BitVec.ofNat 64 off)
  let vt ← rd 0
  let ks ← (List.range 8).mapM fun i => rd (0x40 + 8 * i)
  let es ← (List.range 16).mapM fun i => rd (0x80 + 8 * i)
  let cnt ← rd 0x500
  let qs ← (List.range 8).mapM fun i => (List.range 16).mapM fun j => rd (0x100 + 128 * i + 8 * j)
  let f0 ← rd 0x508
  let f1 ← rd 0x510
  let b0 ← (List.range 1024).mapM fun i => rd (0x3000 + 8 * i)
  let b1 ← (List.range 1024).mapM fun i => rd (0x5000 + 8 * i)
  let w (l : List Nat) (i : Nat) : Word := BitVec.ofNat 64 (l.getD i 0)
  return { c with
    ew := BitVec.ofNat 2 vt, grp := BitVec.ofNat 2 (vt / 16)
    k := Vector.ofFn fun i => w ks i.val
    kerr := Vector.ofFn fun i => ⟨w es (2 * i.val), w es (2 * i.val + 1)⟩
    q := Vector.ofFn fun i => ((qs.getD i.val []).take (field cnt (8 * i.val) 8)).map (BitVec.ofNat 64)
    sq := #v[(b0.flatMap (toBytes 8)).take f0, (b1.flatMap (toBytes 8)).take f1] }

def TileState.ofCode : Nat → TileState
  | 0 => .empty
  | 1 => .filling
  | 2 => .ready
  | _ => .draining

/-- Put a reclaimed tile back at its own slot number from TILES and TDATA; the fill that it is owed is the core's again
(R213). -/
def putBack (u core ctx : Nat) (base : Word) (r : Reclaimed) : EngM Unit := do
  let w ← saveRead ctx (base + BitVec.ofNat 64 (0x1000 + 32 * r.slot))
  let ds ← (List.range 1024).mapM fun i => saveRead ctx (base + BitVec.ofNat 64 (0x8000 + 0x2000 * r.slot + 8 * i))
  modify fun s =>
    let s1 := tilePoke core (r.slot * 8192) (ds.flatMap (toBytes 8)) s
    let k := s1.coreOf core
    let t : Tile := ⟨BitVec.ofNat 48 (w / 2 ^ 16), some u, TileState.ofCode (w % 4), bit w 4, false⟩
    s1.setCoreOf core { k.setTile r.slot t with
      tilePoison := k.tilePoison ++ r.poison.map fun x => r.slot * 2048 + x
      transfers := k.transfers ++ r.fill.toList }

/-- Restore a convoy to slots of a core (R248): reclaimed tiles come back, fills resume, and the record is free again.
Detection of deadlock stays as it was (R268). -/
def restoreConvoy (u core : Nat) (ks : List Nat) (s : State) : Option State :=
  let c := s.convoyOf u
  match c.record, makeReady core ((Waiting.out u c).need s) s with
  | some base, some s0 =>
    let c := s0.convoyOf u
    let image : EngM Convoy := do
      let c1 ← readConvoy c base
      c.reclaimed.forM (putBack u core c.ctx base)
      return { c1 with reclaimed := [] }
    match image s0 with
    | .error _ _ => none
    | .ok c1 s1 =>
      let os := sortBy (fun a b => decide (a.1 ≤ b.1)) c.out
      let gs := ks.map fun k => 8 * core + k
      let ts := (streamSlots s1 core).getD []
      let k := ts.foldl (fun k n => Core.setTile k n { Tile.reset with owner := some u, hidden := true }) (s1.coreOf core)
      let k1 := { k with
        transfers := k.transfers.map (fun t => if t.convoy = u then { t with susp := false } else t)
        tiles := k.tiles.map fun p => if p.2.owner = some u then (p.1, { p.2 with susp := false }) else p }
      let s2 := (s1.setCoreOf core k1).setConvoyOf u { c1 with
        core := some core, record := none, out := [], home := if c.det then c.home else core, placedAt := s.now
        win := ((k1.windowOf c.ctx).map fun w => w.2.id).getD c.win
        members := os.zip gs |>.map fun p => (p.1.1, p.2) }
      let s3 := (os.zip gs).foldl (fun (acc : Option State) p =>
        acc.bind fun s => restoreHart u c base p.1 p.2 s) (some s2)
      match s3 with
      | none => none
      | some s3 =>
        let vd := (s.ctxOf c.ctx).vdev
        let v := s3.vdevOf vd
        let s4 := s3.setVdevOf vd { v with restores := v.restores.filter fun x => x != u }
        let s5 := imageUpdate c.ctx (base + 0x10) (fun v => v % 2 ^ 63) s4
        some (settleBarrier u (routeLog c.ctx 4 c.cidx core (slotMask ks) c.seq (wakeUp s5)))
  | _, _ => none

/-- R320: the convoy that comes first of those that fit is one that is out, and it is restored. -/
def execRestore (u : Nat) (s : State) : Host.Outcome State Fault Refusal :=
  .next (match nextPlaced s with
    | some (.out v _, core, ks) => if v = u then (restoreConvoy u core ks s).getD s else s
    | _ => s)

/-! ### `yield` (R269) -/

/-- The pre-emption of the yielding hart's convoy begins at this unit if a waiting convoy wants its core (R322, the quantum
counted as over); then s[D] is 1. Otherwise s[D] is 0. -/
def opYield (d : SReg) : M Ctl := fun s =>
  let u := s.hart.convoy
  if s.convoy.cls != 0 && wanted s u s.coreId false then
    if mayRoute s s.ctxId && (saveNow u s).isSome then .ok .stay (leave u (commitHart (Hart.writeS d 1) s s.cur))
    else
      let t := toldFull s.ctxId s
      .ok .next (t.setHart (t.hart.writeS d 0))
  else .ok .next (s.setHart (s.hart.writeS d 0))

/-- YIELD. -/
def execYield (d : SReg) (s : State) : Host.Outcome State Fault Refusal := runUnit (opYield d) s

end Sys2Proof.Machine
end

