-- ==== Sys2Proof/Machine/Kill.lean ====
section
/-! DEFINITION. Killing (R326, R345, R376): harts that end with 0xFF, the operations and posts they leave, and what a
context holds. -/

namespace Sys2Proof.Machine

/-! ### Harts -/

/-- A resident hart ends at its unit boundary with a status; its `mma` in flight are discarded (R326, R312). -/
def stopHart (status : BitVec 8) (s : State) (g : Nat) : State :=
  match mget s.harts g with
  | none => s
  | some h =>
    if isEnding h then s
    else
      let s1 := withdraw g s
      s1.setHartOf g { s1.hartOf g with status := .ending status 1, mma := [], resp := [], armed := none }

/-- A deferred update of a hart that is out is applied (R326, R333): at the word's controller, or by an item of the
hart. -/
def applyOut (u : Nat) (o : Nat × OutHart) (s : State) (d : Deferred) : State :=
  if isFabric d.va then
    sendItem { hartItem s d.va d.t (.amo .fadd 0 d.value false) false false 0 with
      fcid := (s.ctxOf (s.convoyOf u).ctx).fcid, view := d.view, convoy := u, hidx := o.1, gid := 0
      logged := (s.convoyOf u).logged } s
  else (applyDeferred d s).1

/-- Harts of a convoy that is out end (R326): their committed atomics perform, and they report 0xFF. With none left the
convoy ends, and its parked tiles are released. -/
def stopOut (p : OutHart → Bool) (u : Nat) (s : State) : State :=
  let c := s.convoyOf u
  let gone := c.out.filter fun o => p o.2
  if c.record.isNone || gone.isEmpty then s
  else
    let s1 := gone.foldl (fun s o => o.2.deferred.foldl (applyOut u o) s) s
    let left := c.out.filter fun o => !p o.2
    let s2 := s1.setConvoyOf u { s1.convoyOf u with
      out := left, members := c.members.filter fun m => left.any fun o => o.1 == m.1 }
    let s3 := if left.isEmpty then closeConvoy u s2 else s2
    let s4 := gone.foldl (fun s o => reportJoin c.ctx (BitVec.ofNat 8 c.home) u o.1 o.2.join 0xFF s) s3
    if left.isEmpty then { s4 with convoys := merase s4.convoys u } else s4

/-! ### Operations -/

/-- Transfers that `p` names stop and fail (R326, R312); no closure is posted. -/
def stopTransfers (p : Nat → Transfer → Bool) (cause : BitVec 8) (s : State) : State :=
  s.cores.foldl (fun s c => (c.2.transfers.filter (p c.1)).foldl (fun s t =>
    failTransfer c.1 { t with cl := none, fault := none } (cause, t.dstAt t.written) s) s) s

/-- Depot commands that `p` names: waiting ones complete with code 7, one in progress at its next boundary (R345). -/
def stopDepot (p : DepotCmd → Bool) (s : State) : State :=
  { s with regions := s.regions.map fun r => (r.1, { r.2 with
      cmds := r.2.cmds.map fun d =>
        if !p d then d
        else if d.begun then { d with aborted := true, cl := none, fault := none }
        else { d with code := some 7, cl := none }
      busyDone := r.2.busyDone.map fun d => if p d then { d with cl := none } else d }) }

/-- Queued posts that `p` names are discarded. -/
def stopPosts (p : Post → Bool) (s : State) : State :=
  { s with
    cores := s.cores.map fun c => (c.1, { c.2 with posts := c.2.posts.filter fun x => !p x })
    contexts := s.contexts.map fun c => (c.1, { c.2 with posts := c.2.posts.filter fun x => !p x }) }

/-- The join of a posted closure that has not started. -/
def Post.join (p : Post) : Join :=
  if p.engine then Join.none
  else { status := p.status, counter := some (p.poster.1, p.k), ctx := p.ctx, view := p.view, gang := none }

/-- Posts that `p` names fail without starting (R312, R376): each ends with a status, and its reference is dropped. -/
def failPosts (p : Nat → Post → Bool) (status : BitVec 8) (s : State) : State :=
  let report (core : BitVec 8) (s : State) (x : Post) : State := reportJoin x.ctx core x.poster.1 8 x.join status s
  let here := s.cores.flatMap fun c => (c.2.posts.filter (p c.1)).map fun x => (c.1, x)
  let away := s.contexts.flatMap fun c => c.2.posts.filter (p 256)
  let s1 : State :=
    { s with
      cores := s.cores.map fun c => (c.1, { c.2 with posts := c.2.posts.filter fun x => !p c.1 x })
      contexts := s.contexts.map fun c => (c.1, { c.2 with posts := c.2.posts.filter fun x => !p 256 x }) }
  let s2 := here.foldl (fun s x => report (BitVec.ofNat 8 x.1) (dropHandle x.1 x.2.ctx x.2.handle s) x.2) s1
  away.foldl (report 0xFF) s2

/-! ### A context (R326) -/

/-- The join of hart `g` of a queued packet. -/
def Queued.join (e : Queued) (g : Nat) : Join :=
  { status := if e.status = 0 then 0 else e.status + BitVec.ofNat 64 (8 * g), counter := e.counter, ctx := e.ctx
    view := e.view, gang := e.gang.map fun x => (x.1, x.2.1, x.2.2 + g) }

/-- A queued packet is discarded: a launch by another context reports 0xFF for every hart not yet started. -/
def dropQueued (ctx : Nat) (e : Queued) (s : State) : State :=
  let n := Packet_.harts e.packet
  if e.ctx = ctx ∧ e.gang.isNone then s
  else (List.range' (e.next * n) ((Packet_.convoys e.packet - e.next) * n)).foldl (fun s g =>
    reportJoin ctx 0xFF 0 8 (e.join g) 0xFF s) s

/-- Add to the discard count of a queue (R318, R355). -/
def discardPacket (q n : Nat) (s : State) : State :=
  let x := s.queueOf q
  s.setQueueOf q { x with discard := BitVec.ofNat 32 (min (x.discard.toNat + n) (2 ^ 32 - 1)) }

/-- Is a queue bound to the context? -/
def boundTo (ctx : Nat) (q : LQueue) : Bool :=
  match q.bind with
  | some (_, _, c) => c == ctx
  | none => false

/-- Cluster barriers of a virtual device that hold an ASID return to idle (R275). -/
def idleBarriers (vd : Nat) (asid : BitVec 16) (s : State) : State :=
  { s with clusters := s.clusters.map fun c =>
      if c.2.vdev = some vd then
        (c.1, { c.2 with cbars := c.2.cbars.filter (fun b => b.2.count == 0 || b.2.asid != asid) })
      else c }

/-- The kill takes hold: harts stop, operations fail, what was queued is discarded, barriers are idle, and the context's
place in collectives is over. -/
def killStart (ctx : Nat) (s : State) : State :=
  let x := s.ctxOf ctx
  let s1 := s.setCtxOf ctx { x with killed := true }
  let gs := (s1.harts.filter fun p => (s1.convoyOf p.2.convoy).ctx == ctx).map Prod.fst
  let s2 := gs.foldl (stopHart 0xFF) s1
  let us := (s2.convoys.filter fun c => c.2.ctx == ctx).map Prod.fst
  let s3 := us.foldl (fun s u => stopOut (fun _ => true) u s) s2
  let s4 := stopDepot (fun d => d.ctx == ctx) (stopTransfers (fun _ t => t.ctx == ctx) 0xFF s3)
  let qs := s4.queues.filter fun q => boundTo ctx q.2
  let s5 := qs.foldl (fun s q => q.2.entries.foldl (fun s e => dropQueued ctx e s) s) s4
  let s6 := qs.foldl (fun s q =>
    let y := s.queueOf q.1
    let s' := discardPacket q.1 y.held.length (s.setQueueOf q.1 { y with entries := [], held := [] })
    if y.held.isEmpty then s' else raiseInt (fnOfVdev s' x.vdev) 3 s') s5
  let s7 := idleBarriers x.vdev x.asid (stopPosts (fun p => p.ctx == ctx) s6)
  let dropped := s7.parts.filter fun p => p.ctx == ctx
  let s8 := dropped.foldl (fun (s : State) p => match p.detBase with
    | some b => giveBackDet x.vdev b (Packet_.convoys p.packet) s
    | none => s) { s7 with parts := s7.parts.filter fun p => p.ctx != ctx }
  { s8 with
    colls := s8.colls.map fun c => if c.ctx = ctx then { c with aborted := true } else c }

/-- Is nothing of the context at work any more? -/
def killOver (s : State) (ctx : Nat) : Bool :=
  !(s.convoys.any fun c => c.2.ctx == ctx) && !(s.lates.any fun l => l.ctx == ctx)
    && !(s.cores.any fun c => c.2.transfers.any fun t => t.ctx == ctx)
    && !(s.regions.any fun r => (r.2.cmds ++ r.2.busyDone).any fun d => d.ctx == ctx)
    && !(s.colls.any fun c => c.ctx == ctx)

/-- Step 4: the context's windows and log registers are freed. -/
def killFinish (ctx : Nat) (s : State) : State :=
  let x := s.ctxOf ctx
  let drop (k : Core) : Core := { k with windows := k.windows.filter fun w => w.2.ctx != ctx }
  let s1 : State := { s with cores := s.cores.map fun c => (c.1, drop c.2) }
  s1.setCtxOf ctx { x with route := Log.reset, order := Log.reset, saved := false, posts := [] }

end Sys2Proof.Machine
end

