-- ==== Sys2Proof/Machine/HostCmds.lean ====
section
/-! DEFINITION. The host link (R318, R353 to R356, R358): launch windows, the window into device memory, the control block
and the commands of the package controller. Function 0 is the PF; functions 1 to 64 are the VFs. -/

namespace Sys2Proof.Machine

/-! ### Requests -/

/-- May a function use the BARs (R353, R354, R359)? -/
def fnServed (s : State) (f : Nat) : Bool :=
  s.power != .off && s.bootPhase == 5 && (f == 0 || (decide (f ≤ 64) && (s.fnOf f).vdev.isSome))

/-- Does a function reach a virtual device (R354)? -/
def fnReaches (s : State) (f : Nat) (vd : Option Nat) : Bool := f == 0 || (vd.isSome && (s.fnOf f).vdev == vd)

def reply (r : Reply) (s : State) : State := { s with replies := r :: s.replies }

/-- A request of the host: refused with Unsupported Request, or performed. -/
def hostRequest (f : Nat) (p : Bool) (act : State → State) (s : State) : State :=
  if fnServed s f && p then act (wakeUp s) else reply .unsupported s

/-! ### Launch windows (R318) -/

/-- Is the context that a queue is bound to alive? -/
def queueLive (s : State) (x : LQueue) : Option Nat :=
  match x.bind with
  | some (_, _, ctx) => if (mget s.contexts ctx).isSome && !(s.ctxOf ctx).killed then some ctx else none
  | none => none

/-- The virtual device of a queue. -/
def queueVdev (s : State) (q : Nat) : Option Nat := (s.queueOf q).bind.map fun b => b.2.1

/-- A packet is discarded: it is counted, and cause 3 is raised. -/
def discardOne (f q : Nat) (s : State) : State := raiseInt f 3 (discardPacket q 1 s)

/-- A packet whose turn at window `q` has come: it is discarded, enqueued, or, where its route-log entry would pass limit,
held in the endpoint with FULL set (R318, R327); writes behind one that is held only stall. -/
def placePacket (f q : Nat) (p : BitVec 512) (s : State) : State :=
  let x := s.queueOf q
  if !x.held.isEmpty then s.setQueueOf q { x with held := x.held ++ [p] }
  else
    match queueLive s x, x.bind with
    | some ctx, some (cl, _, _) =>
      if !Packet_.ok p cl || decide (queueFill s q ≥ queueDepth) then discardOne f q s
      else if !routeRoom (s.ctxOf ctx) 1 then
        raiseInt f 4 (raiseInt f 3 (routeFull ctx (s.setQueueOf q { x with held := [p] })))
      else enqueue q p
        { status := 0, counter := none, ctx := ctx, view := .user, gang := none, reserved := [], detBase := none
          logHeld := false } s
    | _, _ => discardOne f q s

/-- The function that a queue's interrupts go to. -/
def queueFn (s : State) (q : Nat) : Nat := ((queueVdev s q).map (fnOfVdev s)).getD 0

/-- May the packet held at a window go on? -/
def heldReady (s : State) (q : Nat) : Bool :=
  let x := s.queueOf q
  !x.held.isEmpty && match queueLive s x with
    | some ctx => routeRoom (s.ctxOf ctx) 1 && decide (queueFill s q < queueDepth)
    | none => true

/-- The packet held at a window goes on, and the writes stalled behind it follow. -/
def releaseWindow (q : Nat) (s : State) : State :=
  let x := s.queueOf q
  x.held.foldl (fun s p => placePacket (queueFn s q) q p s) (s.setQueueOf q { x with held := [] })

/-- Held packets that can go on do, at one window after the other. Which of several of one context takes the room first
is not said: it is the lowest window (DESIGN CHOICE, log 38). -/
def releaseWindows : Nat → State → State
  | 0, s => s
  | n + 1, s =>
    match s.queues.find? fun q => heldReady s q.1 with
    | some q => releaseWindows n (releaseWindow q.1 s)
    | none => s

/-- A packet arrives at window `q`, after those that have been held before it (R318). -/
def hostPacket (f q : Nat) (p : BitVec 512) (s : State) : State :=
  if (s.queueOf q).held.isEmpty then placePacket f q p (releaseWindows s.queues.length s) else placePacket f q p s

/-- R318. -/
def execHostLaunchWrite (fn q : Nat) (packet : BitVec 512) (s : State) : Host.Outcome State Fault Refusal :=
  .next (hostRequest fn (decide (q < 256) && fnReaches s fn (queueVdev s q)) (hostPacket fn q packet) s)

/-- R318: room appears, the held packet is enqueued, and the stalled writes follow. -/
def execHeldPacketEnqueue (q : Nat) (s : State) : Host.Outcome State Fault Refusal :=
  .next (if heldReady s q then releaseWindow q s else s)

/-! ### The window into device memory (R354, R169) -/

/-- The key of a vault physical address that a function may reach through BAR 4. -/
def barKey (s : State) (f a : Nat) : Option Nat :=
  let core := a / 2 ^ 30
  if a < 2 ^ 38 ∧ fnReaches s f (s.clusterOf (core / 8)).vdev ∧ (s.coreOf core).fenced = false
      ∧ inShare s.staging.pct (a % 2 ^ 30) = false then some a
  else none

/-- Bytes of BAR 4, within its size (R353). -/
def barRange (s : State) (f off n : Nat) : Bool :=
  decide (off + n ≤ 2 ^ (30 + (s.fnOf f).bar4)) && (List.range n).all fun i => (barKey s f ((s.fnOf f).wbase.toNat + off + i)).isSome

/-- R354: bytes of a vault, as they stand (log 25). -/
def execHostBar4Read (fn off len : Nat) (s : State) : Host.Outcome State Fault Refusal :=
  .next (hostRequest fn (barRange s fn off len) (fun s =>
    reply (.data (memReadBytes s.mem ((s.fnOf fn).wbase.toNat + off) len)) s) s)

/-- R354, R285: writes are performed in the order of their arrival. -/
def execHostBar4Write (fn off : Nat) (data : List Byte) (s : State) : Host.Outcome State Fault Refusal :=
  .next (hostRequest fn (barRange s fn off data.length) (fun s =>
    pokeBytes ((s.fnOf fn).wbase.toNat + off) data s) s)

/-! ### The control block (R355, R356) -/

/-- A write of CMD (R356): its reserved bits are ignored (R5), and one with GO while BUSY is discarded whole. -/
def writeCmd (f : Nat) (data : Word) (s : State) : State :=
  let x := s.fnOf f
  let x' := { x with cmd := data &&& 0x00FFFF0000000000#64 }
  if !data.getLsbD 63 then s.setFnOf f x'
  else if x.busy then s.setFnOf f { x with lost := true }
  else
    let op : BitVec 8 := data.extractLsb' 48 8
    let vd := if f = 0 then (data.extractLsb' 40 8).toNat else x.vdev.getD 0
    let bad := op = 0 || 10 < op.toNat || 31 < vd
    let pf := op = 3 || op = 8 || op = 9 || op = 10
    let code : Option (BitVec 8) := if bad then some 1 else if pf && f != 0 then some 2 else none
    { s.setFnOf f { x' with busy := true } with
      commands := s.commands ++ [{ fn := f, op, vdev := vd, args := x.args, code }] }

/-- R355: a write of any value sets the count to 0. -/
def execDiscardReset (fn q : Nat) (s : State) : Host.Outcome State Fault Refusal :=
  .next (hostRequest fn (decide (q < 256) && fnReaches s fn (queueVdev s q)) (fun s =>
    s.setQueueOf q { s.queueOf q with discard := 0 }) s)

/-! ### Commands (R356) -/

/-- The command that the controller is at, if it is this function's, of this OP, and not yet over. -/
def theCommand (s : State) (f : Nat) (op : BitVec 8) : Option Command :=
  match s.commands with
  | c :: _ => if c.fn = f ∧ c.op = op ∧ c.code.isNone ∧ s.power ≠ .off then some c else none
  | [] => none

/-- The command's effects have taken place: its CODE and its result. -/
def answer (code : BitVec 8) (args : Vector Word 6) (s : State) : State :=
  match s.commands with
  | c :: rest => { s with commands := { c with code := some code, args } :: rest }
  | [] => s

/-- Perform a command: `act` gives the state after it, with its CODE, or without one while it must go on. -/
def command (f : Nat) (op : BitVec 8) (act : Command → State → Option (BitVec 8) × State) (s : State) :
    Host.Outcome State Fault Refusal :=
  .next (match theCommand s f op with
    | none => s
    | some c =>
      match act c s with
      | (none, t) => t
      | (some code, t) => answer code c.args t)

/-- A live context of a virtual device, named by its id. -/
def contextArg (s : State) (vd : Nat) (v : Word) : Option Nat :=
  match mget s.contexts v.toNat with
  | some c => if c.vdev = vd ∧ !c.killed then some v.toNat else none
  | none => none

/-- A new context (R356, R368, R389): its ARG4 holds ASID, the deterministic flag, the FCID and the priority. Low bits of
ARG0 to ARG3 for which the registers have no place are dropped, and give no CODE 1 (DESIGN CHOICE, log 38). -/
def newContext (c : Command) : Context :=
  let v := c.args[4]
  { Context.reset with
    vdev := c.vdev, asid := v.truncate 16, ctxbase := clearLow 12 c.args[0], ptbase := clearLow 12 c.args[1]
    codebase := clearLow 6 c.args[2], tvec := lineOf c.args[3], det := v.getLsbD 16, fcid := v.extractLsb' 20 20
    prio := v.extractLsb' 40 3 }

def execCreateContext (fn : Nat) (s : State) : Host.Outcome State Fault Refusal :=
  .next (match theCommand s fn 1 with
    | none => s
    | some c =>
      let v := c.args[4]
      if v.extractLsb' 17 3 != 0#3 || v.extractLsb' 43 21 != 0#21 || decide (2 ^ 38 ≤ c.args[1].toNat) then
        answer 1 c.args s
      else
        let id := s.nextContext
        answer 0 (c.args.set 0 (BitVec.ofNat 64 id))
          { s with contexts := mset s.contexts id (newContext c), nextContext := id + 1 })

def execBindQueue (fn : Nat) (s : State) : Host.Outcome State Fault Refusal :=
  command fn 2 (fun c s =>
    let q := c.args[0].toNat
    let x := s.queueOf q
    match contextArg s c.vdev c.args[2] with
    | none => (some 1, s)
    | some ctx =>
      if 256 ≤ q ∨ 8 ≤ c.args[1].toNat then (some 1, s)
      else if fn ≠ 0 ∧ x.bind.isSome ∧ queueVdev s q ≠ some c.vdev then (some 2, s)
      else if !x.entries.isEmpty || !x.held.isEmpty then (some 3, s)
      else (some 0, s.setQueueOf q { x with bind := some (c.args[1].toNat, c.vdev, ctx) })) s

/-- Set the grant of a region (R349). -/
def grantTo (r : Nat) (vd : Option Nat) (s : State) : State := s.setRegionOf r { s.regionOf r with grant := vd }

/-- R356: invalidation as `tlbi` does it. -/
def execInvalidate (fn : Nat) (s : State) : Host.Outcome State Fault Refusal :=
  command fn 5 (fun c s =>
    let asid : BitVec 16 := c.args[2].truncate 16
    let drop (p : TlbEntry → Bool) : Option (BitVec 8) × State :=
      if pendingThrough c.vdev p s then (none, s) else (some 0, dropTlb c.vdev p s)
    match c.args[0].toNat with
    | 0 => drop fun _ => true
    | 1 => if 2 ^ 16 ≤ c.args[2].toNat then (some 1, s) else drop fun e => e.asid == asid
    | 2 => if 2 ^ 16 ≤ c.args[2].toNat then (some 1, s) else drop (tlbCovers asid c.args[1].toNat)
    | _ => (some 1, s)) s

/-- A halted hart of the command's virtual device. -/
def haltedHart (s : State) (vd : Nat) (g : Nat) : Option Hart :=
  match mget s.harts g with
  | some h => if isHalted h ∧ (s.ctxOf (s.convoyOf h.convoy).ctx).vdev = vd then some h else none
  | none => none

def execReadHart (fn : Nat) (s : State) : Host.Outcome State Fault Refusal :=
  command fn 6 (fun c s =>
    let g := c.args[0].toNat
    if 2048 ≤ g ∨ 2 ^ 62 ≤ c.args[1].toNat then (some 1, s)
    else match haltedHart s c.vdev g with
      | none => (some 3, s)
      | some h =>
        if h.mma.isEmpty then
          (some 0, (hartWords h (s.convoyOf h.convoy).ewBytes 0).foldl (fun s w =>
            hostWrite (c.args[1].toNat + w.1) w.2.1 w.2.2 s) s)
        else (none, s)) s

def execResumeHart (fn : Nat) (s : State) : Host.Outcome State Fault Refusal :=
  command fn 7 (fun c s =>
    let g := c.args[0].toNat
    if 2048 ≤ g then (some 1, s)
    else match haltedHart s c.vdev g with
      | none => (some 3, s)
      | some h => (some 0, s.setHartOf g { h with status := .running })) s

/-- R326 in full. -/
def execKillContext (fn : Nat) (s : State) : Host.Outcome State Fault Refusal :=
  command fn 4 (fun c s =>
    let n := c.args[0].toNat
    match mget s.contexts n with
    | none => (some 1, s)
    | some x =>
      if x.vdev ≠ c.vdev then (some 1, s)
      else
        let s1 := if x.killed then s else killStart n s
        if killOver s1 n then (some 0, killFinish n s1) else (none, s1)) s

/-- Contexts that stand on a cluster: those with a window or a convoy on one of its cores (log 26). -/
def clusterContexts (s : State) (cl : Nat) : List Nat :=
  (s.contexts.map Prod.fst).filter fun n =>
    (s.cores.any fun k => k.1 / 8 == cl && k.2.windows.any fun w => w.2.ctx == n)
      || s.convoys.any fun u => u.2.ctx == n && (u.2.core.getD u.2.home) / 8 == cl

/-- The vaults, tile stores and barriers of a cluster are cleared; a fenced core stays fenced. -/
def clearCluster (cl : Nat) (s : State) : State :=
  let cores := (List.range 8).map fun k => 8 * cl + k
  let s1 := cores.foldl (fun s k =>
    { s.setCoreOf k { Core.reset with fenced := (s.coreOf k).fenced } with
      mem := memClear (memClear s.mem (vaultKey k 0) (2 ^ 30)) (tileKey k 0) (2 ^ 21)
      poison := s.poison.filter fun g => g / 2 ^ 25 != k }) s
  s1.setClusterOf cl { s1.clusterOf cl with cbars := [] }

def execAssignCluster (fn : Nat) (s : State) : Host.Outcome State Fault Refusal :=
  command fn 9 (fun c s =>
    let cl := c.args[0].toNat
    let vd := c.args[1].toNat
    if 32 ≤ cl ∨ (32 ≤ vd ∧ vd ≠ 0xFF) then (some 1, s)
    else
      let live := (clusterContexts s cl).filter fun n => !(s.ctxOf n).killed
      let s1 := live.foldl (fun s n => killStart n s) s
      if (clusterContexts s1 cl).all fun n => killOver s1 n then
        let s2 := clearCluster cl ((clusterContexts s1 cl).foldl (fun s n => killFinish n s) s1)
        (some 0, s2.setClusterOf cl { s2.clusterOf cl with vdev := if vd = 0xFF then none else some vd })
      else (none, s1)) s

def execPowerLimit (fn : Nat) (s : State) : Host.Outcome State Fault Refusal :=
  command fn 10 (fun c s =>
    let w := c.args[0].toNat
    if w < 2400 ∨ 3600 < w then (some 1, s) else (some 0, { s with powerLimit := w })) s

/-- The argument registers once a command is over: those of `create context` hold its result in ARG0. -/
def Command.results (c : Command) (code : BitVec 8) (args : Vector Word 6) : Vector Word 6 :=
  if c.op = 1 ∧ code = 0 then args.set 0 c.args[0] else args

/-- R356: BUSY clears once the effects have taken place, and cause 0 is raised. -/
def execCommandDone (fn : Nat) (s : State) : Host.Outcome State Fault Refusal :=
  .next (match s.commands with
    | c :: rest =>
      match c.code with
      | some code =>
        if c.fn = fn then
          let x := s.fnOf fn
          raiseInt fn 0 { s.setFnOf fn { x with busy := false, code := code, args := c.results code x.args } with
            commands := rest }
        else s
      | none => s
    | [] => s)

end Sys2Proof.Machine
end

