-- ==== Sys2Proof/Machine/DepotEvents.lean ====
section
/-! DEFINITION. The depot interface's own steps (R339 to R345) and the staging cache (R347 to R349), with the host's
commands on them (R356). -/

namespace Sys2Proof.Machine

/-! ### Commands at the head of a region's queue -/

/-- The command that is being performed. -/
def performing (s : State) (r : Nat) : Option DepotCmd :=
  match (s.regionOf r).cmds with
  | d :: _ => if d.begun && d.code.isNone then some d else none
  | [] => none

/-- Change the head command. -/
def onHead (r : Nat) (f : DepotCmd → DepotCmd) (s : State) : State :=
  let x := s.regionOf r
  match x.cmds with
  | d :: rest => s.setRegionOf r { x with cmds := f d :: rest }
  | [] => s

/-- The head's work is over, with a code, or 7 where its context was killed (R345). -/
def headEnds (r : Nat) (code : BitVec 3) (s : State) : State :=
  onHead r (fun d => { d with code := some (if d.aborted then 7 else code) }) s

/-- The region is retired and reported (R341, R357). -/
def retire_ (r : Nat) (s : State) : State :=
  mcWrite (mcEntry s.cycle (BitVec.ofNat 64 r) 5 0 0 0 0) (s.setRegionOf r { s.regionOf r with state := .retired })

/-- R342: the erase is done, or the flash failed: the unit map, VFAIL and DONE are cleared in either case. -/
def execDepotEraseDone (region : Nat) (ok : Bool) (s : State) : Host.Outcome State Fault Refusal :=
  .next (match performing s region with
    | some d =>
      if d.kind ≠ .dopen then s
      else
        let x := s.regionOf region
        let s1 := { s.setRegionOf region { x with units := 0, vfail := false, done := 0 } with
          mem := memClear s.mem (depotKey (region * 2 ^ 30)) (2 ^ 30) }
        if ok then headEnds region 0 (s1.setRegionOf region { s1.regionOf region with state := .open_ })
        else headEnds region 2 (retire_ region s1)
    | none => s)

/-- R344: the seal record is written, or cannot be. -/
def execDepotSealDone (region : Nat) (ok : Bool) (s : State) : Host.Outcome State Fault Refusal :=
  .next (match performing s region with
    | some d =>
      if d.kind ≠ .dseal then s
      else if ok then
        headEnds region 0 (dropLines region (s.setRegionOf region { s.regionOf region with state := .sealed }))
      else headEnds region 2 (retire_ region s)
    | none => s)

/-! ### `stow` (R343) -/

/-- Bytes of a unit. -/
def unitBytes : Nat := 65536

/-- Source address of byte `k` of the unit that a `stow` is at. -/
def stowAt (d : DepotCmd) (k : Nat) : Word := d.src + BitVec.ofNat 64 (d.next * unitBytes + k)

/-- The core number under which the items of a region's `stow` go. -/
def stowCore (r : Nat) : Nat := 65536 + r

/-- The item that asks another package for a source byte. -/
def stowItem (s : State) (r : Nat) (d : DepotCmd) (k : Nat) : Item :=
  let va := stowAt d k
  { id := 0, dst := fabricPkg va, plane := 0, seq := 0, fcid := (s.ctxOf d.ctx).fcid, view := d.view, va, t := .n8, op := .load
    unord := false, gid := 0, elem := 0, logged := false, convoy := d.convoy, hidx := d.hidx, waits := true, covers := []
    unsent := false, failed := none, resentFrom := [], transfer := some (stowCore r, 0, k), since := s.now, got := none
    entry := none, place := none }

/-- Bytes of the unit that lie in other packages. -/
def stowRemote (d : DepotCmd) : List Nat := (List.range unitBytes).filter fun k => isFabric (stowAt d k)

/-- Read source byte `k`. -/
def stowByte (d : DepotCmd) (k : Nat) : EngM Nat := do
  let va := stowAt d k
  if isFabric va then
    if ((← get).ctxOf d.ctx).fcid = 0 then throw (.fault 0x09 false va)
    match mget d.got k with
    | some b => pure b.toNat
    | none => throw .wait
  else engRead none d.ctx d.view .unit va 1

/-- Read the whole unit. -/
def stowRead (d : DepotCmd) : EngM (List Nat) := (List.range unitBytes).mapM (stowByte d)

/-- Does the `stow` still have to ask for bytes of another package? -/
def stowMustAsk (s : State) (d : DepotCmd) : Bool :=
  !d.asked && (s.ctxOf d.ctx).fcid != 0 && !(stowRemote d).isEmpty

/-- Ask for the bytes of the unit that lie in other packages. -/
def stowAsk (r : Nat) (d : DepotCmd) (s : State) : State :=
  onHead r (fun d => { d with asked := true }) ((stowRemote d).foldl (fun s k => sendItem (stowItem s r d k) s) s)

/-- A byte of another package that failed. -/
def stowItemFails (s : State) (r : Nat) : Bool :=
  s.items.any fun i => i.failed.isSome && (match i.transfer with
    | some (c, _, _) => c == stowCore r
    | none => false)

/-- Has every item of a `stow` been answered? Its command completes only then (R369). -/
def stowSettled (s : State) (r : Nat) : Bool :=
  !s.items.any fun i => i.failed.isNone && (match i.transfer with
    | some (c, _, _) => c == stowCore r
    | none => false)

/-- The items of a `stow` are over. -/
def dropStowItems (r : Nat) (s : State) : State :=
  { s with items := s.items.filter fun i => match i.transfer with
    | some (c, _, _) => c != stowCore r
    | none => true }

/-- Program the unit that the `stow` is at with the bytes read. -/
def programUnit (r : Nat) (d : DepotCmd) (bs : List Nat) (s : State) : State :=
  let x := s.regionOf r
  let u := d.unit + d.next
  { s.setRegionOf r { x with units := x.units ||| (1#16384 <<< u) } with
    mem := memWriteBytes s.mem (depotKey (r * 2 ^ 30 + u * unitBytes)) (bs.map (BitVec.ofNat 8)) }

/-- One unit is programmed and verified, and counted with the command; after the last the code is 0, at a unit boundary of a
killed context 7. -/
def unitDone (r : Nat) (d : DepotCmd) (bs : List Nat) (s : State) : State :=
  let s1 := dropStowItems r (programUnit r d bs s)
  let s2 := onHead r (fun d => { d with next := d.next + 1, asked := false, got := [] }) s1
  if d.next + 1 = d.units ∨ d.aborted then headEnds r 0 s2 else s2

/-- The read-back differs: the unit stays marked (R343). -/
def unitDiffers (r : Nat) (d : DepotCmd) (bs : List Nat) (s : State) : State :=
  let s1 := programUnit r d bs s
  headEnds r 3 (s1.setRegionOf r { s1.regionOf r with vfail := true })

/-- The source fault that the unit meets: code 6, or a record in the engine-fault queue. -/
def unitFaults (r : Nat) (d : DepotCmd) (s : State) : State :=
  if stowItemFails s r then headEnds r 6 s
  else
    match stowRead d s with
    | .error (.fault c true va) _ =>
      let x := addFault (s.ctxOf d.ctx).vdev d.ctx 3 0xFF c va (.stow r) s
      onHead r (fun d => { d with fault := some x.2 }) x.1
    | .error (.fault _ false _) s1 => headEnds r 6 { s with staging := s1.staging }
    | _ => s

def execStowUnitDone (region : Nat) (r : StowResult) (s : State) : Host.Outcome State Fault Refusal :=
  .next (match performing s region with
    | some d =>
      if d.kind ≠ .stow ∨ d.fault.isSome then s
      else if stowMustAsk s d && !d.aborted then stowAsk region d s
      else
        match r, stowRead d s with
        | .done, .ok bs s1 => unitDone region d bs s1
        | .verifyFail, .ok bs s1 => unitDiffers region d bs s1
        | .flashFail, .ok _ s1 => headEnds region 2 (retire_ region s1)
        | .sourceFault, _ => if d.aborted then headEnds region 7 s else unitFaults region d s
        | _, .error .wait s1 =>
          if d.aborted then headEnds region 7 s
          else { s with staging := { s.staging with wanted := s1.staging.wanted } }
        | _, _ => if d.aborted then headEnds region 7 s else s
    | none => s)

/-! ### Completion (R339) -/

/-- LAST and SEQ, the counter, the closure, in this order. DONE is that of the most recent `stow` to complete (R335), so
that it changes with them, whatever the code with which one that had begun ends (R343, R346). -/
def completeCommand (r : Nat) (d : DepotCmd) (code : BitVec 3) (s : State) : State :=
  let x := s.regionOf r
  let y := { x with last := code, seq := x.seq + 1, done := if d.kind = .stow ∧ d.begun then d.next else x.done }
  postDone d.core d.cl (bumpCounter d.convoy d.k 1 none (s.setRegionOf r y))

def execDepotCommandComplete (region : Nat) (s : State) : Host.Outcome State Fault Refusal :=
  let x := s.regionOf region
  .next (match x.busyDone, x.cmds with
    | d :: rest, _ => completeCommand region d (d.code.getD 4) (s.setRegionOf region { x with busyDone := rest })
    | [], d :: rest =>
      match d.code with
      | some c =>
        if !stowSettled s region then s
        else
          let s1 := dropStowItems region s
          beginHead region (completeCommand region d c (s1.setRegionOf region { x with cmds := rest }))
      | none => s
    | [], [] => s)

/-! ### The staging cache (R348, R349) -/

/-- Cache units of a tower (R348). -/
def towerUnits (s : State) : Nat := stagingBytes s.staging.pct / 65536

/-- The virtual devices that hold granted regions of a tower. -/
def towerDevices (s : State) (tower : Nat) : List Nat :=
  (List.range 32).filter fun vd => s.regions.any fun r => r.1 / 512 == tower && r.2.grant == some vd

/-- Hits that one more unit would have added to a device that holds `n`. -/
def monitorGain (s : State) (tower vd n : Nat) : Nat := (((aget s.staging.hits (tower, vd)).getD []).filter fun b => b == n).length

/-- Hand out the remaining units one at a time: most gain, then fewest units, then the lower device. -/
def handOut (s : State) (tower : Nat) : Nat → List (Nat × Nat) → List (Nat × Nat)
  | 0, us => us
  | n + 1, us =>
    let better (a b : Nat × Nat) : Bool :=
      let ga := monitorGain s tower a.1 a.2
      let gb := monitorGain s tower b.1 b.2
      decide (gb < ga) || (ga == gb && (decide (a.2 < b.2) || (a.2 == b.2 && decide (a.1 < b.1))))
    let best := us.foldl (fun (acc : Option (Nat × Nat)) u => match acc with
      | none => some u
      | some v => if better u v then some u else some v) none
    match best with
    | none => us
    | some b => handOut s tower n (us.map fun u => if u.1 = b.1 then (u.1, u.2 + 1) else u)

/-- Each device's floor, as far as the units go. -/
def floors (s : State) : Nat → List Nat → List (Nat × Nat)
  | _, [] => []
  | left, vd :: rest =>
    let n := min left (s.vdevOf vd).floor
    (vd, n) :: floors s (left - n) rest

/-- Keep of each device's lines the most recently used that its units hold. A line that was filled for a load is held until
it has served one, whatever the units hold (R348, p = 0). -/
def trimLines (s : State) : State :=
  let keep (l : Nat) : Bool :=
    let o := stagingOwner s l
    let cap := max 1 (((aget s.staging.units o).getD 0) * 16384)
    let rank := ((aget s.staging.recent o).getD []).filter fun x => (mget s.staging.lines x).isSome
    match rank.idxOf? l with
    | some i => decide (i < cap) || mget s.staging.lines l == some 1
    | none => true
  { s with staging := { s.staging with lines := s.staging.lines.filter fun l => keep l.1 } }

/-- Divide the units of a tower (R349). -/
def divideTower (tower : Nat) (s : State) : State :=
  let fs := floors s (towerUnits s) (towerDevices s tower)
  let us := handOut s tower (towerUnits s - (fs.map Prod.snd).sum) fs
  let others := s.staging.units.filter fun u => u.1.1 != tower
  trimLines { s with staging := { s.staging with units := others ++ us.map fun u => ((tower, u.1), u.2) } }

/-- 1 ms in picoseconds. -/
def divideEvery : Nat := 1000000000

/-- R349: every 1 ms. -/
def execCacheRepartition (s : State) : Host.Outcome State Fault Refusal :=
  let t := (List.range 8).foldl (fun s k => divideTower k s) s
  .next { t with staging := { t.staging with hits := [] }, dividedAt := s.now }

/-- R348: the line is filled from flash, as the one last used; an error fills nothing and reaches the waiting load. -/
def execStagingLineFill (line : Nat) (flashError : Bool) (s : State) : Host.Outcome State Fault Refusal :=
  let r := line / 2 ^ 18
  .next (if decide (r < 4096) && (s.regionOf r).state == .sealed && (mget s.staging.lines line).isNone then
    let t := stagingTouch line s
    trimLines { t with staging := { t.staging with
      lines := mset t.staging.lines line (if flashError then 2 else 1), wanted := t.staging.wanted.erase line } }
  else s)

/-! ### Host commands on regions and floors (R356) -/

/-- A region's grant changes; the tower's units are divided at once if its set of devices changes (R349). -/
def regrant (r : Nat) (vd : Option Nat) (s : State) : State :=
  let t := grantTo r vd s
  if towerDevices t (r / 512) = towerDevices s (r / 512) then t else divideTower (r / 512) t

def execGrantRegion (fn : Nat) (s : State) : Host.Outcome State Fault Refusal :=
  command fn 3 (fun c s =>
    let r := c.args[0].toNat
    let x := s.regionOf r
    if 4096 ≤ r ∨ 2 ≤ c.args[1].toNat then (some 1, s)
    else if x.grant.isSome ∧ x.grant ≠ some c.vdev then (some 3, s)
    else if c.args[1] = 1 then (some 0, regrant r (some c.vdev) s)
    else if !x.cmds.isEmpty || !x.busyDone.isEmpty then (none, s)
    else (some 0, regrant r none s)) s

def execCacheFloor (fn : Nat) (s : State) : Host.Outcome State Fault Refusal :=
  command fn 8 (fun c s =>
    let n := c.args[0].toNat
    if 256 < n then (some 1, s) else (some 0, s.setVdevOf c.vdev { s.vdevOf c.vdev with floor := n })) s

end Sys2Proof.Machine
end

