-- ==== Sys2Proof/Machine/Answers.lean ====
section
/-! DEFINITION. The driver's answers to engine faults (R308, R355) and the SPDM responder (R360, R361). -/

namespace Sys2Proof.Machine

/-! ### Engine-fault answers -/

/-- The core that has a transfer now: a suspended fill may have moved with its convoy (R213). -/
def transferCore (s : State) (id : Nat) : Option Nat :=
  (s.cores.find? fun c => c.2.transfers.any fun t => t.id == id).map Prod.fst

/-- The convoy that is owed a suspended fill by a reclaimed slot (R213). -/
def reclaimedFill (s : State) (id : Nat) : Option (Nat × Reclaimed × Transfer) :=
  s.convoys.findSome? fun c => c.2.reclaimed.findSome? fun r =>
    match r.fill with
    | some t => if t.id = id then some (c.1, r, t) else none
    | none => none

/-- Replace the fill that a reclaimed slot owes. -/
def setReclaimed (u slot : Nat) (fill : Option Transfer) (s : State) : State :=
  let c := s.convoyOf u
  s.setConvoyOf u { c with reclaimed := c.reclaimed.map fun r => if r.slot = slot then { r with fill := fill } else r }

/-- A suspended fill of a reclaimed slot fails: its tile is ready in the record, which describes no fill any more, its chunk
bits are set, its counter is incremented with the failure, and its closure posted (R213, R220, R222). -/
def failReclaimed (u : Nat) (r : Reclaimed) (t : Transfer) (f : BitVec 8 × Word) (s : State) : State :=
  let base := ((s.convoyOf u).record.getD 0) + BitVec.ofNat 64 (0x1000 + 32 * r.slot)
  let zero (s : State) (k : Nat) : State := imageUpdate t.ctx (base + BitVec.ofNat 64 (8 * k)) (fun _ => 0) s
  let s1 := [1, 2, 3].foldl zero (imageUpdate t.ctx base (fun v => v / 32 * 32 + 6) (setReclaimed u r.slot none s))
  let s2 := setChunkBits t (List.range t.chunks) s1
  postDone (s.convoyOf u).home t.cl (bumpCounter u t.k 1 (some ⟨t.kind.code, f.1, t.written, f.2⟩) s2)

/-- The stalled transfer goes on, or fails (R220). -/
def answerTransfer (id : Nat) (r : EngineFault) (declined : Bool) (s : State) : State :=
  match transferCore s id, reclaimedFill s id with
  | some core, _ =>
    match findTransfer s core id with
    | none => s
    | some t =>
      if t.fault ≠ some r.tag then s
      else if declined then failTransfer core { t with fault := none } (r.cause, r.va) s
      else setTransfer core { t with fault := none } s
  | none, some (u, x, t) =>
    if t.fault ≠ some r.tag then s
    else if declined then failReclaimed u x t (r.cause, r.va) s
    else setReclaimed u x.slot (some { t with fault := none }) s
  | none, none => s

/-- The status write of an ending hart is made again, or given up (R239). -/
def answerEnd (g : Nat) (r : EngineFault) (declined : Bool) (s : State) : State :=
  match mget s.harts g with
  | none => s
  | some h =>
    match h.status with
    | .ending status 12 =>
      if declined then setEnding g status 3 (statusFailed h.join r.cause s) else setEnding g status 2 s
    | _ => s

/-- The same for a hart that holds no slot. -/
def answerLate (id : Nat) (r : EngineFault) (declined : Bool) (s : State) : State :=
  match s.lates.find? fun l => l.id == id with
  | none => s
  | some l =>
    if l.fault ≠ some r.tag then s
    else if declined then lateDone l (statusFailed l.join r.cause s)
    else { s with lates := s.lates.map fun x => if x.id = id then { x with fault := none } else x }

/-- The writes of a log go on, or its reserved entries are discarded (R327). -/
def answerLog (ctx : Nat) (order : Bool) (r : EngineFault) (declined : Bool) (s : State) : State :=
  let l := theLog (s.ctxOf ctx) order
  if l.fault ≠ some r.tag then s
  else if declined then discardFrom ctx order ((l.pending.head?.map LogEntry.at_).getD l.head) s
  else onLog ctx order (fun l => { l with fault := none }) s

/-- The `stow` reads its unit again, or ends with code 6 (R343). -/
def answerStow (region : Nat) (r : EngineFault) (declined : Bool) (s : State) : State :=
  match performing s region with
  | none => s
  | some d =>
    if d.fault ≠ some r.tag then s
    else
      let s1 := onHead region (fun d => { d with fault := none }) s
      if declined then headEnds region 6 s1 else s1

/-- The answer waits at the collective for its block to resume (R392). -/
def answerCollective (id part : Nat) (declined : Bool) (s : State) : State :=
  { s with colls := s.colls.map fun c =>
      if c.id = id ∧ (mget c.waits part).isSome then { c with answers := c.answers ++ [(part, declined)] } else c }

/-- An operation goes on, or fails. A visit of a ring that fails has done nothing, and the next visit is another operation
(DESIGN CHOICE, log 30). -/
def answerTarget (r : EngineFault) (declined : Bool) (s : State) : State :=
  match r.target with
  | .transfer _ id => answerTransfer id r declined s
  | .hartEnd g => answerEnd g r declined s
  | .late id => answerLate id r declined s
  | .log ctx order => answerLog ctx order r declined s
  | .stow region => answerStow region r declined s
  | .ring _ _ => s
  | .collective id part => answerCollective id part declined s

/-- A record that waits enters the queue once there is room; the host is told when the queue ceases to be empty. -/
def admitFault (vd : Nat) (s : State) : State :=
  let v := s.vdevOf vd
  match v.efWait with
  | r :: rest =>
    if v.efq.length < faultQueue then
      let s1 := s.setVdevOf vd { v with efq := v.efq ++ [r], efWait := rest }
      if v.efq = [] then raiseInt (fnOfVdev s1 vd) 1 s1 else s1
    else s
  | [] => s

/-- R308: the record leaves the queue, and its operation goes on or fails. -/
def answerFault (vdev : Nat) (tag : BitVec 8) (declined : Bool) (s : State) : State :=
  let v := s.vdevOf vdev
  match v.efq.find? fun r => r.tag == tag with
  | none => s
  | some r => admitFault vdev
      (answerTarget r declined (s.setVdevOf vdev { v with efq := v.efq.filter fun x => x.tag != tag }))

/-- R308, R355: the answer is written to EFANS of the function that has the device's queue. -/
def execEngineFaultAnswer (vdev : Nat) (tag : BitVec 8) (declined : Bool) (s : State) :
    Host.Outcome State Fault Refusal :=
  .next (hostRequest (fnOfVdev s vdev) true (answerFault vdev tag declined) s)

/-! ### Registers of the control block (R355) -/

/-- The virtual device whose queue EFREC and EFANS of a function are about: a VF's own; for the PF the lowest that has a
record and no VF (DESIGN CHOICE, log 79). -/
def faultVdev (s : State) (f : Nat) : Option Nat :=
  if f ≠ 0 then (s.fnOf f).vdev
  else (List.range 32).find? fun vd => !(s.vdevOf vd).efq.isEmpty && fnOfVdev s vd == 0

/-- Bytes of BAR 0 (R354). -/
def bar0Bytes (f : Nat) : Nat := if f = 0 then 2 ^ 26 else 2 ^ 22

/-- The launch queue whose DISCARD word is at an offset. -/
def discardAt (off : Nat) : Option Nat := if 0x400 ≤ off ∧ off < 0x800 then some ((off - 0x400) / 4) else none

/-- Does a function reach the register at an offset (R354, R355)? The machine-check log is the package's. -/
def regReach (s : State) (f off : Nat) : Bool :=
  decide (off < bar0Bytes f) && (f == 0 || !(decide (0x10000 ≤ off) && decide (off < 0x30010)))
    && (discardAt off).all fun q => fnReaches s f (queueVdev s q)

/-- Which argument register an offset names. -/
def argIndex (off : Nat) : Option (Fin 6) :=
  if h : 0x108 ≤ off ∧ off < 0x138 ∧ off % 8 = 0 then some ⟨(off - 0x108) / 8, by omega⟩ else none

/-- A write of a register (R355); a read-only register and an offset that names none keep what they hold. A write counts
at a register's own offset alone, as a doubleword, or at a word of DISCARD for that word (DESIGN CHOICE, log 89). -/
def writeRegister (f off : Nat) (data : Word) (s : State) : State :=
  let x := s.fnOf f
  match argIndex off, discardAt off with
  | some i, _ => s.setFnOf f { x with args := x.args.set i data }
  | none, some q => if off % 4 = 0 then s.setQueueOf q { s.queueOf q with discard := 0 } else s
  | none, none =>
    if off = 0x10 then s.setFnOf f { x with wbase := clearLow 30 data }
    else if off = 0x100 then writeCmd f data s
    else if off = 0x138 then s.setFnOf f { x with lost := x.lost && !data.getLsbD 62 }
    else if off = 0x210 then
      match faultVdev s f with
      | some vd => answerFault vd (data.truncate 8) (data.getLsbD 8) s
      | none => s
    else if off = 0x300 then s.setFnOf f { x with intcause := x.intcause &&& ~~~(data.truncate 8) }
    else if off = 0x30008 then { s with mcovf := s.mcovf &&& ~~~(data.truncate 32) }
    else s

/-- BOOTSTAT (R359). -/
def bootWord (s : State) : Nat := s.bootFail.toNat * 16 + s.bootPhase

/-- The doubleword of the machine-check log at an offset in it: the ring's entries by their place (R357). -/
def mcWord (s : State) (o : Nat) : Nat :=
  let age := (s.mchead + mcSize - 1 - o / 32) % mcSize
  (s.mclog[age]?.getD 0).toNat / 2 ^ (8 * (o % 32)) % 2 ^ 64

/-- The doubleword of BAR 0 at an offset, as a function reads it (R355): reserved and write-only fields, and offsets that
name no register, read 0 (R5). -/
def regWord (s : State) (f off : Nat) : Nat :=
  let x := s.fnOf f
  let ef : Nat := match (faultVdev s f).map fun vd => (vd, (s.vdevOf vd).efq) with
    | some (vd, r :: _) => (r.word vd).toNat
    | _ => 0
  let disc (q : Nat) : Nat := (s.queueOf q).discard.toNat
  match argIndex off with
  | some i => x.args[i].toNat
  | none =>
    if off = 0 then 0x53475738
    else if off = 8 then bootWord s
    else if off = 0x10 then x.wbase.toNat
    else if off = 0x100 then x.cmd.toNat
    else if off = 0x138 then b2n x.busy * 2 ^ 63 + b2n x.lost * 2 ^ 62 + x.code.toNat
    else if off = 0x200 then ef % 2 ^ 64
    else if off = 0x208 then ef / 2 ^ 64
    else if off = 0x300 then x.intcause.toNat
    else if 0x400 ≤ off ∧ off < 0x800 then disc ((off - 0x400) / 4) + disc ((off - 0x400) / 4 + 1) * 2 ^ 32
    else if 0x10000 ≤ off ∧ off < 0x30000 then mcWord s (off - 0x10000)
    else if off = 0x30000 then s.mchead
    else if off = 0x30008 then s.mcovf.toNat
    else 0

/-- Bytes of BAR 0 from an offset, little-endian. -/
def regBytes (s : State) (f off len : Nat) : List Byte :=
  (List.range len).map fun i => BitVec.ofNat 8 (regWord s f ((off + i) / 8 * 8) / 2 ^ (8 * ((off + i) % 8)))

/-- Places of the machine-check ring that bytes of BAR 0 belong to: a read of any byte of an entry has read it (log 90). -/
def mcPlaces (off len : Nat) : List Nat :=
  (((List.range len).filter fun i => decide (0x10000 ≤ off + i) && decide (off + i < 0x30000)).map
    fun i => (off + i - 0x10000) / 32).eraseDups

/-- The registers are read. -/
def regRead (f off len : Nat) (s : State) : State :=
  reply (.data (regBytes s f off len)) { s with mcread := (s.mcread ++ mcPlaces off len).eraseDups }

/-- A read of BAR 0: IDENT and BOOTSTAT answer in every phase of the boot and after it failed (R359). -/
def readRegister (f off len : Nat) (s : State) : State :=
  let early := s.power != .off && decide (off + len ≤ 0x10) && (f == 0 || (s.fnOf f).vdev.isSome)
  if early && !fnServed s f then reply (.data (regBytes s f off len)) s
  else hostRequest f ((List.range len).all fun i => regReach s f (off + i)) (regRead f off len) s

/-- A cluster barrier as the package controller reports it to the host (R273). -/
def CBar.word (b : CBar) : Word :=
  if b.count = 0 then 0
  else BitVec.ofNat 64 (b.asid.toNat * 2 ^ 48 + b.waiting.length * 2 ^ 8 + b.count * 2 + 1)

/-- May the PF bind a VF so (R353)? -/
def mayBind (s : State) (vf : Nat) (vdev : Option Nat) : Bool :=
  decide (1 ≤ vf) && decide (vf ≤ 64) && match vdev with
    | none => true
    | some d => decide (d < 32) && !(s.fns.any fun p => p.1 != 0 && p.1 != vf && p.2.vdev == some d)

/-- R355, and R353 for what configures a function: the PF alone binds VFs, a device to one VF at most; a binding or a size
that R353 excludes is refused, and a cluster barrier is reported in the reply (R273; log 80). -/
def execRegisterWrite (fn : Nat) (x : RegAccess) (data : Word) (s : State) : Host.Outcome State Fault Refusal :=
  let n := data.toNat
  .next (match x with
    | .write off => hostRequest fn (regReach s fn off) (writeRegister fn off data) s
    | .read off => readRegister fn off n s
    | .bind vf =>
      let vdev := if n = 0xFF then none else some n
      hostRequest fn (fn == 0 && mayBind s vf vdev) (fun s => s.setFnOf vf { s.fnOf vf with vdev := vdev }) s
    | .resize => hostRequest fn (decide (n ≤ 8)) (fun s => s.setFnOf fn { s.fnOf fn with bar4 := n }) s
    | .cbar cl => hostRequest fn (decide (cl < 32) && decide (n < 16) && fnReaches s fn (s.clusterOf cl).vdev) (fun s =>
        reply (.data (toBytes 8 (((s.clusterOf cl).cbar n).word).toNat)) s) s)

/-! ### SPDM (R361) -/

/-- Answer a request with a code and a body. -/
def spdmAnswer (code : BitVec 8) (body : State → List Byte) (s : State) : Host.Outcome State Fault Refusal :=
  .next (if s.power == .off || s.bootPhase != 5 then reply .unsupported s
    else reply (.spdm code (body s)) (wakeUp s))

/-- Bytes of an answer that the spec does not give: a fresh free value (log 18). -/
def spdmFree (k : List Byte → State → Host.Outcome State Fault Refusal) (s : State) : Host.Outcome State Fault Refusal :=
  k (Config.freeSpdmBytes s.freeCount) { s with freeCount := s.freeCount + 1 }

/-- The two signatures over a transcript: RSASSA-PSS in the answer, SLH-DSA in its OpaqueData (R361). -/
def signed (transcript : List Byte) : List Byte :=
  Config.freeRsaSignature transcript ++ Config.freeSlhSignature transcript

/-- A request about a certificate slot: slot 0 holds the chain, the others hold none and answer ERROR with code
InvalidRequest (PRESUMED, log 18). -/
def spdmSlot (slot : Nat) (code : BitVec 8) (body : State → List Byte) : State → Host.Outcome State Fault Refusal :=
  if slot = 0 then spdmAnswer code body else spdmAnswer 0x7F fun _ => [0x01, 0]

/-- VERSION: one entry, version 1.3 (R353), as SPDM writes it; its alpha and update numbers are not given (log 18). -/
def execSpdmGetVersion (s : State) : Host.Outcome State Fault Refusal :=
  spdmFree (fun b => spdmAnswer 0x04 fun _ => [0, 1, b.headD 0, 0x13]) s

/-- CAPABILITIES. -/
def execSpdmGetCapabilities (s : State) : Host.Outcome State Fault Refusal :=
  spdmFree (fun b => spdmAnswer 0x61 fun _ => b) s

/-- ALGORITHMS: TPM_ALG_RSAPSS_3072 and TPM_ALG_SHA_384 alone (R361), as the bits that SPDM gives them. -/
def execSpdmNegotiateAlgorithms (s : State) : Host.Outcome State Fault Refusal :=
  spdmAnswer 0x63 (fun _ => toBytes 4 0x8 ++ toBytes 4 0x2) s

/-- DIGESTS: the digest of the chain of slot 0. -/
def execSpdmGetDigests (s : State) : Host.Outcome State Fault Refusal :=
  spdmAnswer 0x01 (fun s => 1 :: Config.freeDigest s.chain) s

/-- CERTIFICATE: the chain of slot 0. -/
def execSpdmGetCertificate (slot : Nat) (s : State) : Host.Outcome State Fault Refusal :=
  spdmSlot slot 0x02 (fun s => BitVec.ofNat 8 slot :: s.chain) s

/-- CHALLENGE_AUTH: the digest of the chain, and both signatures over the transcript. -/
def execSpdmChallenge (slot : Nat) (nonce : BitVec 256) (s : State) : Host.Outcome State Fault Refusal :=
  spdmFree (fun b => spdmSlot slot 0x03 fun s =>
    BitVec.ofNat 8 slot :: (Config.freeDigest s.chain ++ toBytes 32 nonce.toNat ++ signed b)) s

/-- MEASUREMENTS of the four slots of R360, and both signatures over the transcript. -/
def execSpdmGetMeasurements (nonce : BitVec 256) (s : State) : Host.Outcome State Fault Refusal :=
  spdmFree (fun b => spdmAnswer 0x60 fun s => 4 :: (s.measured.flatten ++ toBytes 32 nonce.toNat ++ signed b)) s

/-- Any other request: ERROR with code UnsupportedRequest. -/
def execSpdmUnsupported (code : BitVec 8) (s : State) : Host.Outcome State Fault Refusal :=
  spdmAnswer 0x7F (fun _ => [0x07, code]) s

end Sys2Proof.Machine
end

