-- ==== Sys2Proof/Machine/Power.lean ====
section
/-! DEFINITION. Package reset and boot (R359), power states (R362), the clock (R363) and the thermal trip (R364). -/

namespace Sys2Proof.Machine

/-! ### What survives without power -/

/-- A region as it comes up (R336): one that was open or erasing is open with VFAIL set and no unit programmed, and an
erase that had begun counts; a sealed or retired one stays so. Its queued commands and its grant are lost. -/
def Region.powerUp (r : Region) : Region :=
  let bare := { r with cmds := [], busyDone := [], grant := none }
  match r.state with
  | .open_ | .erasing => { bare with state := .open_, vfail := true, units := 0 }
  | .sealed | .retired => bare

/-- Does a byte of the depot survive: a unit without its bit reads as zero bytes (R336). -/
def depotKeeps (rs : List (Nat × Region)) (k : Nat) : Bool :=
  isDepot k && match mget rs ((k - 2 ^ 42) / 2 ^ 30) with
    | some r => r.units.getLsbD ((k - 2 ^ 42) % 2 ^ 30 / unitBytes)
    | none => false

/-- Everything but the depot, the wall clock and what others have received is lost. -/
def State.cleared (s : State) : State :=
  let rs := s.regions.map fun r => (r.1, r.2.powerUp)
  { State.reset with
    agenda := s.agenda, now := s.now, freeCount := s.freeCount, regions := rs
    mem := s.mem.filter fun c => depotKeeps rs c.1
    hostWrites := s.hostWrites, replies := s.replies, activeAt := s.now }

/-- R359: PERST# is applied; the boot begins in phase 1. -/
def execPackageReset (s : State) : Host.Outcome State Fault Refusal := .next s.cleared

/-- R362: nothing on an unpowered package runs. -/
def execPowerRemoved (s : State) : Host.Outcome State Fault Refusal := .next { s.cleared with power := .off }

/-- R364: the package trips to off, and in-flight work is lost. -/
def execThermalTrip (s : State) : Host.Outcome State Fault Refusal := .next { s.cleared with power := .off }

/-! ### Boot (R359) -/

/-- Failures that a phase can meet: the image's signatures and version in phase 2, a self-test before phase 5. -/
def bootMayFail (phase : Nat) (f : BitVec 4) : Bool :=
  (phase == 2 && (f == 1 || f == 2 || f == 3)) || (decide (phase < 5) && f == 4)

/-- The four measurements (R360) and the identity chain, whose leaf carries the SLH-DSA signature over its to-be-signed
bytes (R361), as they are fixed when the package is ready. -/
def takeMeasurements (s : State) : State :=
  let n := s.freeCount
  let leaf := Config.freeSpdmBytes (n + 4)
  { s with
    measured := (List.range 4).map fun i => Config.freeDigest (Config.freeSpdmBytes (n + i))
    chain := leaf ++ Config.freeRsaSignature leaf ++ Config.freeSlhSignature leaf
    freeCount := n + 5 }

/-- R359: the next phase, or the failure recorded. Phase 4 zeroes every vault. Phase 3 takes the firmware configuration,
phase 5 fixes the measurements (R360). -/
def execBootPhaseAdvance (failure : BitVec 4) (s : State) : Host.Outcome State Fault Refusal :=
  .next (if s.power = .off ∨ 5 ≤ s.bootPhase ∨ s.bootFail ≠ 0 then s
    else if failure ≠ 0 then (if bootMayFail s.bootPhase failure then { s with bootFail := failure } else s)
    else if s.bootPhase = 2 then
      { s with
        bootPhase := 3
        staging := { s.staging with pct := min Config.firmwareStaging 50 }
        package := Config.firmwarePackage % 2 ^ 18 }
    else
      let t := { s with bootPhase := s.bootPhase + 1 }
      if s.bootPhase = 3 then { t with mem := memClear t.mem 0 (2 ^ 38), poison := [] }
      else if s.bootPhase = 4 then takeMeasurements t else t)

/-! ### Idle (R362) -/

/-- Is a hart resident, or an engine, depot or fabric operation outstanding? -/
def State.atWork (s : State) : Bool :=
  !s.harts.isEmpty || (s.cores.any fun c => !c.2.transfers.isEmpty)
    || (s.regions.any fun r => !r.2.cmds.isEmpty || !r.2.busyDone.isEmpty)
    || !s.items.isEmpty || !s.arrivals.isEmpty || !s.colls.isEmpty || !s.gangs.isEmpty || !s.parts.isEmpty
    || !s.lates.isEmpty

/-- 10 µs in picoseconds. -/
def idleDelay : Nat := 10000000

/-- R362: none of the above has held for 10 µs. -/
def execIdleEntry (s : State) : Host.Outcome State Fault Refusal :=
  .next (if s.power = .active ∧ s.bootPhase = 5 ∧ !s.atWork ∧ s.activeAt + idleDelay ≤ s.now then { s with power := .idle }
    else s)

/-- R362: a launch, a fabric arrival or a host access. -/
def execIdleWake (s : State) : Host.Outcome State Fault Refusal := .next (wakeUp s)

/-! ### The clock (R363) -/

/-- R363: one step of 125 MHz, between 1.25 GHz and 2.5 GHz. -/
def execClockStep (up : Bool) (s : State) : Host.Outcome State Fault Refusal :=
  .next (if s.power = .off then s
    else if up then (if s.clockMHz + 125 ≤ Config.nominalClock then { s with clockMHz := s.clockMHz + 125 } else s)
    else if 1250 + 125 ≤ s.clockMHz then { s with clockMHz := s.clockMHz - 125 } else s)

end Sys2Proof.Machine
end

