-- ==== Sys2Proof/Machine/Errors.lean ====
section
/-! DEFINITION. Soft errors (R160, R313), the failure of a vertical link (R312), and the metering window (R325). -/

namespace Sys2Proof.Machine

/-! ### SRAM (R160, R313) -/

/-- Mark a register word of a hart. -/
def poisonHart (g : Nat) (r : RegSite) (s : State) : State :=
  match mget s.harts g with
  | none => s
  | some h => if h.poison.contains r then s else s.setHartOf g { h with poison := r :: h.poison }

/-- Mark a word of a tile store, by its number. -/
def poisonTile (core w : Nat) (s : State) : State :=
  let c := s.coreOf core
  if c.tilePoison.contains w then s else s.setCoreOf core { c with tilePoison := w :: c.tilePoison }

/-- Mark a doubleword of a frame. -/
def poisonFrame (core win f dw : Nat) (s : State) : State :=
  let c := s.coreOf core
  match mget c.windows win with
  | none => s
  | some w =>
    let x := w.frame f
    if x.poison.contains dw then s
    else s.setCoreOf core { c with windows := mset c.windows win (w.setFrame f { x with poison := dw :: x.poison }) }

/-- The hart and the core that a site belongs to. -/
def siteAt : SramSite → Nat × Nat
  | .hart g _ => (g, g / 8)
  | .tile c _ => (0, c)
  | .env c _ _ _ => (0, c)

/-- Is there such a word? -/
def siteExists (s : State) : SramSite → Bool
  | .hart g _ => (mget s.harts g).isSome
  | .tile c w => decide (c < 256) && decide (w < 2 ^ 19)
  | .env c win f dw => decide (c < 256) && ((s.coreOf c).windows.any fun w => w.1 == win) && decide (f < 256) && decide (dw < 16)

/-- Mark a word of a hidden slot: the bytes of the stream queue that stand there. The queue whose slot has the higher
number is `sq0`, and a queue's bytes stand from the start of its slot, head first (DESIGN CHOICE, log 81). -/
def poisonStream (core w u : Nat) (s : State) : State :=
  let mine := sortBy (fun a b => decide (b ≤ a))
    (((s.coreOf core).tiles.filter fun p => p.2.owner == some u && p.2.hidden).map Prod.fst)
  let i : Fin 2 := if mine.head? = some (w / 2048) then 0 else 1
  let c := s.convoyOf u
  let bad := (List.range' (4 * (w % 2048)) 4).filter fun b => decide (b < c.sq[i].length) && !c.sqPoison[i].contains b
  s.setConvoyOf u { c with sqPoison := c.sqPoison.set i (c.sqPoison[i] ++ bad) }

def poisonSite (x : SramSite) (s : State) : State :=
  match x with
  | .hart g r => poisonHart g r s
  | .tile c w =>
    let t := (s.coreOf c).tile (w / 2048)
    match t.hidden, t.owner with
    | true, some u => poisonStream c w u s
    | _, _ => poisonTile c w s
  | .env c win f dw => poisonFrame c win f dw s

/-- R160, R313: a corrected error is invisible to programs; its entry has the kind of a corrected error (log 27). An
uncorrectable one poisons the word and is logged as latent. -/
def execRegisterEccError (site : SramSite) (uncorrectable : Bool) (s : State) : Host.Outcome State Fault Refusal :=
  .next (if !siteExists s site then s
    else
      let (g, c) := siteAt site
      let kind := if uncorrectable then 3 else 1
      mcWrite (mcEntry s.cycle 0 kind 0 g c 0) (if uncorrectable then poisonSite site s else s))

/-! ### DRAM (R313) -/

/-- The core and the bank of a vault granule. -/
def granuleBank (g : Nat) : Nat × Nat := (g * 32 / 2 ^ 30, stripedBank (g * 32 % 2 ^ 30))

def execDramEccError (granule : Nat) (uncorrectable : Bool) (s : State) : Host.Outcome State Fault Refusal :=
  .next (if !isVault (granule * 32) then s
    else
      let (c, b) := granuleBank granule
      let kind := if uncorrectable then 2 else 1
      let t := if uncorrectable ∧ !s.poison.contains granule then { s with poison := granule :: s.poison } else s
      mcWrite (mcEntry s.cycle (BitVec.ofNat 64 (granule * 32)) kind 0 0 c b) t)

/-- R313: a scrub writes corrected granules back; what a granule reads as does not change. -/
def execDramScrub (_core _bank : Nat) (s : State) : Host.Outcome State Fault Refusal := .next s

/-! ### TLBs (R313) -/

/-- The entry is dropped, and its page is walked again. Numbers from 256 on name the translation caches of the base
towers. -/
def execTlbParityError (core index : Nat) (s : State) : Host.Outcome State Fault Refusal :=
  .next (let c := s.coreOf core
    if 256 ≤ core then
      let es := (mget s.baseTlb (core - 256)).getD []
      if index < es.length then { s with baseTlb := mset s.baseTlb (core - 256) (es.eraseIdx index) } else s
    else if index < c.tlb.length then s.setCoreOf core { c with tlb := c.tlb.eraseIdx index } else s)

/-! ### Vertical links (R312) -/

/-- An access of elements (R178, R198) or of banks (R175) for those below `n` alone: what runs, whether `n` is a bank, and
where the elements end. -/
def accessBelow (i : Instr) (n : Nat) (h : Hart) : Option (M Ctl × Bool × Nat) :=
  let region (a : AName) : Nat := (h.acc[a].map fun r => r.rows * r.cols).getD 0
  match i with
  | .vld _ | .vlds _ | .vldg _ | .vldx _ | .vst _ | .vsts _ | .vstg _ | .vstx _ | .vstxa _ => some
    (do
      modCsr fun x => { x with vl := n }
      opOf i, false, h.csr.vl)
  | .ald x => some (opAldTo n x, false, region x.d)
  | .ast x => some (opAstTo n x, false, region x.d)
  | .stp x => some (opStpTo n x, true, 32)
  | .pam x => some (opPamTo n x, true, 32)
  | _ => none

/-- The elements, or banks, of the access at the hart's pc below `n` commit, and `vstart`, or `bstart`, is `n` (R156,
R175). None where no such access stands there, or one of them meets a fault or a wait. -/
def commitBelow (g n : Nat) (s : State) : Option State :=
  let h := s.hartOf g
  match fetchUnit { s with cur := g } with
  | (.one i, t) =>
    match accessBelow i n h with
    | none => none
    | some (op, bank, top) =>
      let first := if bank then h.csr.bstart.toNat else h.csr.vstart.toNat
      if n < first ∨ top ≤ n then none
      else match op t with
        | .error _ _ => none
        | .ok _ u =>
          let x := { u.hart.csr with vl := h.csr.vl }
          some { u.setHart { u.hart with csr :=
            if bank then { x with bstart := BitVec.ofNat 5 n } else { x with vstart := BitVec.ofNat 15 n } } with cur := s.cur }
  | _ => none

/-- The element whose data did not arrive takes 0x15 at its hart; the elements below it commit (R156), and a merge that
waits is left where it stands (R225). -/
def linkTrap (g elem : Nat) (addr : Word) (s : State) : State :=
  match mget s.harts g with
  | none => s
  | some h => if isEnding h then s
    else
      let s1 := match h.merge with
        | some r => s.setHartOf g (h.leaveMerge r)
        | none => (commitBelow g elem s).getD s
      s1.setHartOf g (trapEntry { cause := 0x15, addr := some addr, elem := some elem } false h.pc (s1.hartOf g))

/-- A resident hart of the fenced core ends with 0x15, its trap record logged: ADDR is the hart's `xaddr` as it stands, and
CAUSE 0x15 (DESIGN CHOICE, log 90). -/
def fenceHart (s : State) (g : Nat) : State :=
  match mget s.harts g with
  | none => s
  | some h =>
    if isEnding h then s
    else
      let x := h.csr
      mcWrite (mcEntry s.cycle x.xaddr 7 0x15 g (g / 8) 0) (stopHart 0x15 s g)

/-- What lies in the core beside its harts is lost, and each queued post ends with 0x15. -/
def loseCore (core : Nat) (s : State) : State :=
  let s1 := stopTransfers (fun n t => n == core && (t.kind == .tfill || t.kind == .tdrain)) 0x15 s
  let s2 := failPosts (fun n _ => n == core) 0x15 s1
  { s2.setCoreOf core { s2.coreOf core with tiles := [], tilePoison := [], windows := [] } with
    mem := memClear s2.mem (tileKey core 0) (2 ^ 21) }

/-- R312. -/
def execVerticalLinkFailure (core g elem : Nat) (addr : Word) (s : State) : Host.Outcome State Fault Refusal :=
  .next (if 256 ≤ core ∨ (s.coreOf core).fenced then s
    else
      let s1 := if g / 8 = core then linkTrap g elem addr s else s
      let s2 := s1.setCoreOf core { s1.coreOf core with fenced := true }
      let s3 := mcWrite (mcEntry s.cycle (BitVec.ofNat 64 (core * 2 ^ 30)) 4 0x15 0 core 0) s2
      let s4 := ((List.range 8).map fun k => 8 * core + k).foldl fenceHart s3
      loseCore core s4)

/-! ### Class-0 metering (R325) -/

/-- A new window of 1 µs admits 80,000 bytes. -/
def execClass0MeteringWindow (core : Nat) (s : State) : Host.Outcome State Fault Refusal :=
  .next (if core < 256 then s.setCoreOf core { s.coreOf core with budget := 80000 } else s)

end Sys2Proof.Machine
end

