-- ==== Sys2Proof/Machine/Fabric.lean ====
section
/-! DEFINITION. The fabric as a package meets it (R309, R329, R365 to R372): packets that arrive, answers, planes that go
down, and items that time out. What a package sends to itself takes the same way. -/

namespace Sys2Proof.Machine

/-! ### Items at the source -/

def findItem (s : State) (id : Nat) : Option Item := s.items.find? fun i => i.id == id

/-- Has the item been answered? It then stays for its failure, or for a byte that an engine cannot write yet. -/
def Item.answered (i : Item) : Bool := i.failed.isSome || i.got.isSome

/-- The packet of an item. -/
def packetOf (s : State) (it : Item) : Packet :=
  { src := s.package, plane := it.plane, seq := it.seq, fcid := it.fcid, view := it.view, dva := it.va.truncate 44
    t := it.t, op := it.op, unord := it.unord, gid := it.gid, elem := it.elem, logged := it.logged
    resent := it.resentFrom }

/-- A held item that can go now: its flag's items are acknowledged, and no earlier one of its stream holds it. -/
def sendable (s : State) : Option Item :=
  s.items.find? fun i => i.unsent && i.failed.isNone && i.covers.isEmpty
    && !s.items.any fun j => decide (j.id < i.id) && holdsBack j i

/-- An item is over: flags that cover it wait for one item less (R294). -/
def uncover (id : Nat) (s : State) : State :=
  let s1 := dropItem id s
  { s1 with items := s1.items.map fun i => { i with covers := i.covers.filter fun c => c != id } }

/-- A posted item fails: it stays, and flags that cover it are not made and fail with it (R294, R371). -/
def failItem (id : Nat) (cause : BitVec 8) (s : State) : State :=
  { s with items := s.items.map fun i =>
      if i.id = id then { i with failed := some cause, unsent := false }
      else if i.covers.contains id then { i with failed := some cause, unsent := false, covers := [] } else i }

/-- The flag of an `fsig` in this package is stored, or fails where its vault is cut off (R294, R312). -/
def storeFlag (i : Item) (key : Nat) (data : Word) (s : State) : State :=
  if (s.coreOf (key / 2 ^ 30)).fenced then failItem i.id 0x15 s
  else pokeN key (tBytes i.t) data.toNat (uncover i.id s)

/-- Let the items go that nothing holds any more (R294). -/
def releaseFlags : Nat → State → State
  | 0, s => s
  | n + 1, s =>
    match sendable s with
    | none => s
    | some i =>
      match i.op, homePlane s i.dst with
      | .flag key data, _ => releaseFlags n (storeFlag i key data s)
      | _, none => releaseFlags n (failItem i.id 0x16 s)
      | _, some p =>
        let r := numberItem i p s
        releaseFlags n (setItem r.1 r.2)

/-- An item is acknowledged or answered. -/
def itemDone (id : Nat) (s : State) : State :=
  let s1 := uncover id s
  releaseFlags s1.items.length s1

/-- A posted item fails, and what waited for it goes on. -/
def itemFails (id : Nat) (cause : BitVec 8) (s : State) : State :=
  let s1 := failItem id cause s
  releaseFlags s1.items.length s1

/-- The response to an item reaches whoever waits for it. -/
def deliver (it : Item) (r : Response) (s : State) : State :=
  match it.transfer, r with
  | none, _ =>
    let s1 := itemDone it.id s
    match hartGid s1 it.convoy it.hidx with
    | none => s1
    | some g =>
      let h := s1.hartOf g
      s1.setHartOf g { h with resp := h.resp ++ [(it.id, r)] }
  | some _, .fails c => setItem { it with failed := some c } s
  | some (core, id, k), .value w =>
    if core < 65536 then engineByte it core id k w s
    else onHead (core - 65536) (fun d => { d with got := mset d.got k (w.truncate 8) }) (dropItem it.id s)

/-- An item fails for want of the destination (R371); a report that cannot reach its gang's issuer is over. -/
def unreachable (it : Item) (s : State) : State :=
  match it.op with
  | .report _ _ _ => dropItem it.id s
  | _ => if it.waits then deliver it (.fails 0x16) s else itemFails it.id 0x16 s

/-- An answer that the package has sent to itself has arrived. -/
def dropOwn (it : Item) (s : State) : State :=
  if it.dst = s.package then
    { s with sent := s.sent.filter fun m => match m with
      | .answer d p q _ => !(d == s.package && p == it.plane && q == it.seq)
      | _ => true }
  else s

/-- R369, R371: the destination has performed a store or a non-returning atomic, or reports a cause. -/
def execFabricAck (id : Nat) (cause : Option (BitVec 8)) (s : State) : Host.Outcome State Fault Refusal :=
  .next (match findItem s id with
    | none => s
    | some it =>
      if it.waits || it.unsent || it.failed.isSome then s
      else match cause with
        | none =>
          let s1 := itemDone id (dropOwn it s)
          match it.transfer with
          | some (core, n, _) => if core < 65536 then countByte core n s1 else s1
          | none => s1
        | some c => itemFails id c (dropOwn it s))

/-- R111, R113: the response to a remote load or returning atomic. -/
def execRemoteResponse (id : Nat) (r : Response) (s : State) : Host.Outcome State Fault Refusal :=
  .next (match findItem s id with
    | none => s
    | some it =>
      if !it.waits || it.unsent || it.answered then s else deliver it r (dropOwn it s))

/-- 1 ms in picoseconds (R371). -/
def itemLimit : Nat := 1000000000

/-- R371: an item that is not acknowledged within 1 ms fails with 0x16. -/
def execFabricItemTimeout (id : Nat) (s : State) : Host.Outcome State Fault Refusal :=
  .next (match findItem s id with
    | none => s
    | some it => if it.unsent || it.answered || decide (s.now < it.since + itemLimit) then s else unreachable it s)

/-! ### Planes (R366, R370) -/

/-- Does an item wait for its acknowledgement on a plane? -/
def onPlane (p : Nat) (i : Item) : Bool := i.plane == p && !i.unsent && !i.answered

/-- Resend an item on a plane, marked with the planes and numbers of its earlier sendings. -/
def resend (p : Nat) (it : Item) (s : State) : State :=
  let r := numberItem it p s
  setItem { r.1 with
    since := it.since
    resentFrom := it.resentFrom ++ [(it.plane, it.seq)] } r.2

/-- The stream to `dst` leaves plane `p`: every unacknowledged packet is resent in the order of their numbers, then the
marker is sent. -/
def moveStream (p dst : Nat) (s : State) : State :=
  let next := (aget s.outSeq (dst, p)).getD 0
  let its := sortBy (fun a b => decide ((a.seq - next).toNat ≤ (b.seq - next).toNat))
    (s.items.filter fun i => i.dst == dst && onPlane p i)
  match homePlane s dst with
  | none => its.foldl (fun s i => unreachable i s) s
  | some q =>
    let s1 := its.foldl (fun s i => resend q i s) s
    if (aget s.outSeq (dst, p)).isNone then s1 else { s1 with sent := s1.sent ++ [.marker dst p q (next - 1)] }

/-- R366: a plane is down for this package: its streams move (R370). -/
def planeDown (port : Nat) (s : State) : State :=
  let s1 := mcWrite (mcEntry s.cycle 0 6 0 0 0 0) { s with planes := s.planes &&& ~~~(1#96 <<< port) }
  let dsts := ((s1.outSeq.filter fun x => x.1.2 == port).map fun x => x.1.1).eraseDups
  dsts.foldl (fun s d => moveStream port d s) s1

/-! ### The destination (R309, R329, R368 to R372) -/

def State.stream (s : State) (src p : Nat) : InStream := (aget s.inStreams (src, p)).getD InStream.reset
def State.setStream (s : State) (src p : Nat) (x : InStream) : State :=
  { s with inStreams := aset s.inStreams (src, p) x }

/-- The answer that was given to a number. -/
def InStream.answerTo (x : InStream) (q : BitVec 32) : Option Answer := aget x.performed q

/-- The next number that has not been performed. -/
def advance : Nat → InStream → InStream
  | 0, x => x
  | n + 1, x => if (x.answerTo x.next).isSome then advance n { x with next := x.next + 1 } else x

/-- Answers to numbers far behind the stream are forgotten: the 32-bit numbers come round again (R369). -/
def InStream.prune (x : InStream) : InStream :=
  { x with performed := x.performed.filter fun e =>
      decide ((e.1 - x.next).toNat < 2 ^ 31) || decide ((x.next - e.1).toNat ≤ 2 ^ 30) }

/-- Note that a number is performed. -/
def noteDone (src : Nat) (a : Answer) (s : State) (tag : Nat × BitVec 32) : State :=
  let x := s.stream src tag.1
  let y := { x with performed := aset x.performed tag.2 a, early := x.early.filter fun e => e.seq != tag.2 }
  s.setStream src tag.1 (advance y.performed.length y).prune

/-- The numbers of a packet: its own, and those of its earlier sendings. -/
def packetTags (p : Packet) : List (Nat × BitVec 32) := (p.plane, p.seq) :: p.resent

/-- The answer that a packet has been given already under any of its numbers (R370). -/
def answeredAs (s : State) (p : Packet) : Option Answer := (packetTags p).findSome? fun t => (s.stream p.src t.1).answerTo t.2

/-- The packet is performed with an answer: that is noted under all its numbers, and the answer is sent. -/
def settle (p : Packet) (a : Answer) (s : State) : State :=
  let s1 := (packetTags p).foldl (noteDone p.src a) s
  { s1 with sent := s1.sent ++ [.answer p.src p.plane p.seq a] }

/-- Does the packet ask for a response? -/
def packetAsks (p : Packet) : Bool :=
  match p.op with
  | .load => true
  | .amo _ _ _ r => r
  | _ => false

/-- The answer to a packet that fails. -/
def failAnswer (p : Packet) (c : BitVec 8) : Answer := if packetAsks p then .response (.fails c) else .ack (some c)

/-- The access kind of a packet. -/
def packetAcc (p : Packet) : Acc :=
  match p.op with
  | .load => .load
  | _ => .store

/-- KIND of the ordering-log entry (R329). -/
def packetKind (p : Packet) : Nat :=
  match p.op with
  | .load => 6
  | .amo _ _ _ _ => 8
  | _ => 7

/-- The ordering-log entry of a remote access in the destination context; a log without room becomes full (R329). -/
def logRemote (p : Packet) (ctx : Nat) (l : Loc) (s : State) : State :=
  let c := s.ctxOf ctx
  if !(p.logged && l.log && c.order.en) then s
  else if !c.order.room 1 then s.setCtxOf ctx { c with order := { c.order with full := true } }
  else
    let e := orderEntry p.gid (packetKind p) p.elem (p.src % 2 ^ 18) (p.dva.toNat / 32)
    s.setCtxOf ctx { c with order := c.order.reserve e }

/-- Perform a packet's access at its word's controller. -/
def performAt (p : Packet) (ctx : Nat) (l : Loc) (s : State) : Answer × State :=
  let n := tBytes p.t
  match p.op with
  | .load =>
    match dataError s l.key with
    | some c => (.response (.fails c), s)
    | none => (.response (.value (BitVec.ofNat 64 (memReadN s.mem l.key n))), logRemote p ctx l s)
  | .store d =>
    if (s.coreOf (l.key / 2 ^ 30)).fenced then (.ack (some 0x15), s)
    else (.ack none, pokeN l.key n d.toNat (logRemote p ctx l s))
  | .amo op cmp c ret =>
    match dataError s l.key with
    | some e => (failAnswer p e, s)
    | none =>
      let old := memReadN s.mem l.key n
      let s1 := logRemote p ctx l s
      let s2 := match amoNew p.t op old cmp.toNat c.toNat with
        | some v => pokeN l.key n v s1
        | none => s1
      (if ret then .response (.value (BitVec.ofNat 64 old)) else .ack none, s2)
  | .report gang i status => (.ack none, gangReport gang i 0xFF status s)
  | .flag _ _ => (.ack none, s)

/-- The context that a packet names (R368). -/
def fcidContext (s : State) (f : BitVec 20) : Option (Nat × Context) :=
  if f = 0 then none else s.contexts.find? fun c => c.2.fcid == f && !c.2.killed

/-- The tower whose base die a packet reaches: that of its port (R365, log 28). -/
def packetTower (p : Packet) : Nat := p.plane / 12

/-- The base translation cache of a tower. -/
def State.baseOf (s : State) (t : Nat) : List (Nat × TlbEntry) := (mget s.baseTlb t).getD []

/-- A translation held by the base die. -/
def baseHit (s : State) (t vd : Nat) (asid : BitVec 16) (va : Nat) : Option Nat :=
  ((s.baseOf t).find? fun e => e.1 == vd && e.2.asid == asid && decide (e.2.base ≤ va)
    && decide (va < e.2.base + 2 ^ leafBits e.2.leaf.toNat)).map fun e => e.2.leaf.toNat

/-- The walk of R309, which fills the cache of 4,096 entries. -/
def baseWalk (p : Packet) (c : Context) : EStateM (BitVec 8) State Nat := do
  let va := p.dva.toNat
  let leaf ← walkFrom (packetAcc p).fault va 4 (c.ptbase.toNat / 4096 * 4096)
  let e : TlbEntry := ⟨c.asid, va / 2 ^ leafBits leaf * 2 ^ leafBits leaf, BitVec.ofNat 64 leaf⟩
  modify fun s => { s with baseTlb := mset s.baseTlb (packetTower p) (((c.vdev, e) :: s.baseOf (packetTower p)).take 4096) }
  pure leaf

/-- A logged access waits until the logged accesses to its granule with earlier places have performed: updates that
harts of the context have deferred have not, nor have held flags (R330, log 67). Those that wait for the packet's own item
(R294) are passed over. -/
def waitsForLog (p : Packet) (ctx : Nat) (l : Loc) (s : State) : Bool :=
  let own (i : Item) : Bool := p.src == s.package && i.dst == p.src && i.plane == p.plane && i.seq == p.seq
  let mine := (s.items.find? own).map Item.id
  let others := { s with items := s.items.filter fun i => !(mine.any fun n => i.covers.contains n) }
  p.logged && l.log && (s.ctxOf ctx).order.en && owesLogged others ctx (fun _ => false) (l.key / 32) fun _ => true

/-- Perform a packet under its leaf: only a vault of this package serves it (R113). None where it waits for the log. -/
def performUnder (p : Packet) (ctx leaf : Nat) (s : State) : Option State :=
  match underLeaf none p.view .plural (packetAcc p) p.dva.toNat leaf s with
  | .error (c, _) => some (settle p (failAnswer p c) s)
  | .ok l =>
    if waitsForLog p ctx l s then none
    else
      let r := performAt p ctx l s
      some (settle p r.1 r.2)

/-- It is the packet's turn: it is performed, fails, or waits in the parking buffer for its translation. A resent packet
that has been performed already is answered as it was. -/
def offer (p : Packet) (s : State) : State :=
  match answeredAs s p, p.op with
  | some a, _ => settle p a s
  | none, .report gang i status => settle p (.ack none) (gangReport gang i 0xFF status s)
  | none, _ =>
    match fcidContext s p.fcid with
    | none => settle p (failAnswer p 0x09) s
    | some (ctx, c) =>
      match baseHit s (packetTower p) c.vdev c.asid p.dva.toNat with
      | some leaf => (performUnder p ctx leaf s).getD { s with arrivals := s.arrivals ++ [p] }
      | none => { s with arrivals := s.arrivals ++ [p] }

/-- May packets of the stream that were first sent on its plane be performed (R370)? -/
def switchOver (s : State) (src : Nat) (x : InStream) : Bool :=
  match x.until_ with
  | none => true
  | some (op, last) => decide (((s.stream src op).next - 1 - last).toNat < 2 ^ 31)

/-- Is it the packet's turn in its stream (R369, R370)? -/
def itsTurn (s : State) (p : Packet) : Bool :=
  let x := s.stream p.src p.plane
  p.unord || (p.seq == x.next && (!p.resent.isEmpty || switchOver s p.src x))

/-- Offer the packets of a source that have waited for earlier ones. -/
def drain (src : Nat) : Nat → State → State
  | 0, s => s
  | n + 1, s =>
    let early := (s.inStreams.filter fun x => x.1.1 == src).flatMap fun x => x.2.early
    match early.find? (itsTurn s) with
    | none => s
    | some p =>
      let x := s.stream src p.plane
      drain src n (offer p (s.setStream src p.plane { x with early := x.early.filter fun e => e.seq != p.seq }))

/-- Packets of a source that wait for earlier ones. -/
def earlyCount (s : State) (src : Nat) : Nat :=
  ((s.inStreams.filter fun x => x.1.1 == src).map fun x => x.2.early.length).sum

def drainAll (src : Nat) (s : State) : State := drain src (earlyCount s src) s

/-- Has the package this packet already? -/
def atHand (s : State) (p : Packet) : Bool :=
  ((s.stream p.src p.plane).early.any fun e => e.seq == p.seq)
    || s.arrivals.any fun e => e.src == p.src && e.plane == p.plane && e.seq == p.seq

/-- Does the package take fabric traffic? -/
def fabricUp (s : State) : Bool := s.power != .off && s.bootPhase == 5

/-- A packet arrives (R309, R369, R370). -/
def arrive (p : Packet) (s : State) : State :=
  if atHand s p then s
  else match (s.stream p.src p.plane).answerTo p.seq with
    | some a => { s with sent := s.sent ++ [.answer p.src p.plane p.seq a] }
    | none =>
      if itsTurn s p then drainAll p.src (offer p s)
      else
        let x := s.stream p.src p.plane
        s.setStream p.src p.plane { x with early := x.early ++ [p] }

/-- R309, R369. -/
def execFabricPacketArrival (p : Packet) (s : State) : Host.Outcome State Fault Refusal :=
  .next (if fabricUp s then arrive p (wakeUp s) else s)

/-- R309: the translation of parked arrival `n` returns, and the arrival enters the mesh. -/
def execTranslationReturn (n : Nat) (s : State) : Host.Outcome State Fault Refusal :=
  .next (match s.arrivals[n]? with
    | none => s
    | some p =>
      let s0 := { s with arrivals := s.arrivals.eraseIdx n }
      let s1 := match answeredAs s0 p, fcidContext s0 p.fcid with
        | some a, _ => settle p a s0
        | none, none => settle p (failAnswer p 0x09) s0
        | none, some (ctx, c) =>
          match baseHit s0 (packetTower p) c.vdev c.asid p.dva.toNat with
          | some leaf => (performUnder p ctx leaf s0).getD s
          | none =>
            match baseWalk p c s0 with
            | .error e t => settle p (failAnswer p e) t
            | .ok leaf t => (performUnder p ctx leaf t).getD { t with arrivals := s.arrivals }
      drainAll p.src s1)

/-- R370: no packet first sent on the new plane is performed before those of the old plane up to the marker. -/
def execSwitchMarkerArrival (src oldPlane newPlane : Nat) (last : BitVec 32) (s : State) :
    Host.Outcome State Fault Refusal :=
  .next (if !fabricUp s then s
    else
      let s0 := wakeUp s
      let s1 := if src = s.package then
          { s0 with sent := s0.sent.filter fun m => m != .marker src oldPlane newPlane last } else s0
      let x := s1.stream src newPlane
      drainAll src (s1.setStream src newPlane { x with until_ := some (oldPlane, last) }))

end Sys2Proof.Machine
end

