-- ==== Sys2Proof/Machine/Gang.lean ====
section
/-! DEFINITION. Gang launches (R373 to R376): `glaunch`, and what issuer and members do. A message that a package sends to
itself stands in `sent` until it arrives. -/

namespace Sys2Proof.Machine

/-! ### `glaunch` (R373 to R375) -/

/-- A gang block as read (R374): the packet, the word that follows it, and the members' words. -/
structure GangBlock where
  packet : BitVec 512
  head : Nat
  members : List Nat
  deriving DecidableEq, Repr

def GangBlock.size (b : GangBlock) : Nat := b.head % 2 ^ 18 + 1
def GangBlock.idx (b : GangBlock) : Bool := bit b.head 32

/-- Read a gang block, with the log entries owed. -/
def peekGang (a : Word) : M (GangBlock × List (Nat × Nat × Word)) := do
  let p ← peekBlock a
  let w ← peekVa (a + 64) 8 .n64
  let g := w.1 % 2 ^ 18 + 1
  let ms ← (List.range g).mapM fun m => peekVa (a + BitVec.ofNat 64 (72 + 4 * m)) 4 .n32
  return (⟨Packet_.ofWords p.1, w.1, ms.map Prod.fst⟩, p.2 ++ w.2 ++ ms.flatMap Prod.snd)

/-- Is the gang block one that R374 allows? -/
def GangBlock.ok (b : GangBlock) : Bool :=
  Packet_.ok b.packet (Packet_.cls b.packet) && field b.head 33 31 == 0 && field b.head 18 14 == 0
    && (b.members.all fun m => decide (m < 2 ^ 18)) && decide b.members.Nodup

/-- Phase 1 of R375: the gang is known to the issuer, and RESERVE leaves for every member. -/
def sendReserve (x : Launch) (q : Nat) (status : Word) (b : GangBlock) (s : State) : State :=
  let g : Gang :=
    { id := s.nextGang, convoy := s.hart.convoy, k := x.k, status, ctx := s.ctxId, view := s.hart.mode
      members := b.members, harts := Packet_.convoys b.packet * Packet_.harts b.packet, queue := q, packet := b.packet
      idx := b.idx, acks := [], begun := false, isOver := false, reported := [], killed := false, since := s.now }
  { s with
    gangs := s.gangs ++ [g], nextGang := s.nextGang + 1
    sent := s.sent ++ ((List.range b.members.length).zip b.members).map fun m => .reserve m.2 g.id m.1 }

/-- R375. -/
def opGlaunch (x : Launch) : M Ctl := do
  let a ← readS x.a
  let q ← readS x.b
  let st ← readS x.c
  if a.toNat % 64 ≠ 0 then raiseAt 0x05 a
  checkStatus st
  if q.toNat > 255 || (← getCtx).fcid == 0 then raise 0x09
  let b ← peekGang a
  if !b.1.ok then raiseAt 0x01 a
  releaseAt .system
  logAccesses true b.2
  modify (sendReserve x q.toNat st b.1)
  pure .next

/-- GLAUNCH. -/
def execGlaunch (x : Launch) (s : State) : Host.Outcome State Fault Refusal := runUnit (opGlaunch x) s

/-! ### The issuer -/

def findGang (s : State) (gang : Nat) : Option Gang := s.gangs.find? fun g => g.id == gang
def setGang (g : Gang) (s : State) : State := { s with gangs := s.gangs.map fun x => if x.id = g.id then g else x }

/-- 50 µs in picoseconds (R375). -/
def gangLimit : Nat := 50000000

/-- A message that the package had sent to itself has arrived. -/
def takeOwn (m : Sent) (s : State) : State := { s with sent := s.sent.erase m }

/-- A member has acknowledged; with every acknowledgement in time, BEGIN leaves for every member (R375). -/
def execGangAck (gang member : Nat) (s : State) : Host.Outcome State Fault Refusal :=
  .next (match findGang s gang with
    | none => s
    | some g =>
      let s1 := takeOwn (.gangAck s.package gang member) s
      let s1 := wakeUp s1
      if g.begun || decide (g.members.length ≤ member) || g.acks.contains member then s1
      else
        let g1 := { g with acks := member :: g.acks }
        if g1.acks.length = g.members.length ∧ s.now ≤ g.since + gangLimit then
          let s2 := setGang { g1 with begun := true } s1
          { s2 with sent := s2.sent ++ g.members.map fun m => .begin_ m gang }
        else setGang g1 s1)

/-- Harts of a gang. -/
def Gang.total (g : Gang) : Nat := g.members.length * g.harts

/-- Not every member has acknowledged within 50 µs: ABORT, and every hart is reported as 0xFE (R375). -/
def execGangTimeout (gang : Nat) (s : State) : Host.Outcome State Fault Refusal :=
  .next (match findGang s gang with
    | none => s
    | some g =>
      if g.begun ∨ s.now < g.since + gangLimit then s
      else
        let s1 := { s with sent := s.sent ++ g.members.map fun m => .abort m gang }
        (List.range g.total).foldl (fun s i => gangReport gang i 0xFF 0xFE s) s1)

/-- A member fails after BEGIN: KILL leaves for the others, and its harts that have not reported are reported (R376). -/
def execGangMemberFailure (gang member : Nat) (killed : Bool) (s : State) : Host.Outcome State Fault Refusal :=
  .next (match findGang s gang with
    | none => s
    | some g =>
      if !g.begun ∨ g.members.length ≤ member then s
      else
        let others := (g.members.zip (List.range g.members.length)).filter fun m => m.2 != member
        let s1 := if g.killed then s
          else setGang { g with killed := true } { s with sent := s.sent ++ others.map fun m => .kill m.1 gang }
        (List.range' (member * g.harts) g.harts).foldl (fun s i =>
          gangReport gang i 0xFF (if killed then 0xFF else 0x16) s) s1)

/-- Members of a gang of this package that have failed as far as the package sees (R376): its own, where the context that
runs it has been killed, and one that no live plane reaches. -/
def failedMembers (s : State) (g : Gang) : List (Nat × Bool) :=
  if !g.begun then []
  else (g.members.zip (List.range g.members.length)).filterMap fun m =>
    if m.1 = s.package then
      if (s.queueOf g.queue).bind.any fun b => (s.ctxOf b.2.2).killed then some (m.2, true) else none
    else if (homePlane s m.1).isNone then some (m.2, false) else none

/-! ### A member -/

/-- Slots for `n` more convoys, each placed beside those that the part holds already. -/
def reserveSlots (s : State) (need : Nat → Need) (part : GangPart) : Nat → List (Nat × List Nat) →
    Option (List (Nat × List Nat))
  | 0, acc => some acc
  | n + 1, acc =>
    match chooseCore { s with parts := { part with slots := acc } :: s.parts } (need acc.length) with
    | none => none
    | some x => reserveSlots s need part n (acc ++ [x])

/-- The packet as member `m` runs it: with IDX, ARG4 is the member's number (R374). -/
def memberPacket (p : BitVec 512) (idx : Bool) (m : Nat) : BitVec 512 :=
  if idx then BitVec.ofNat 512 (p.toNat % 2 ^ 448 + m % 2 ^ 64 * 2 ^ 448) else p

/-- The reservation that a member can make (R375), or none. -/
def makePart (issuer gang : Nat) (fcid : BitVec 20) (q member : Nat) (p : BitVec 512) (s : State) :
    Option (GangPart × Nat × Nat) :=
  match queueLive s (s.queueOf q), (s.queueOf q).bind with
  | some ctx, some (cl, vd, _) =>
    let x := s.ctxOf ctx
    let c := Packet_.convoys p
    let det := Packet_.det p || x.det
    if fcid = 0 || x.fcid != fcid || !Packet_.ok p cl || decide (queueDepth ≤ queueFill s q) || !routeRoom x (1 + c)
        || heldFirst s ctx then none
    else
      let base := (s.vdevOf vd).detCount
      let part : GangPart :=
        { issuer, gang, member, ctx, queue := q, packet := p, slots := [], detBase := if det then some base else none
          logged := if x.route.en then 1 + c else 0 }
      let need (i : Nat) : Need :=
        { vd, ctx, cls := cl, size := Packet_.harts p, accs := 0
          only := if det then intended s vd (base + i) else none, held := false, out := none }
      (reserveSlots s need part c []).map fun sl => ({ part with slots := sl }, vd, if det then c else 0)
  | _, _ => none

/-- RESERVE arrives: the member reserves everything and acknowledges, or sends nothing (R375). -/
def execGangReserve (issuer gang : Nat) (fcid : BitVec 20) (queue member : Nat) (packet : BitVec 512) (idx : Bool)
    (s : State) : Host.Outcome State Fault Refusal :=
  .next (if !fabricUp s then s
    else
      let s0 := if issuer = s.package then takeOwn (.reserve s.package gang member) s else s
      let s1 := wakeUp s0
      match makePart issuer gang fcid queue member (memberPacket packet idx member) s1 with
      | none => s1
      | some (part, vd, n) =>
        let x := s1.ctxOf part.ctx
        let s2 := s1.setCtxOf part.ctx { x with route := { x.route with held := x.route.held + part.logged } }
        let v := s2.vdevOf vd
        let s3 := s2.setVdevOf vd { v with detCount := v.detCount + n }
        { s3 with parts := s3.parts ++ [part], sent := s3.sent ++ [.gangAck issuer gang member] })

/-- The reservation of a gang. -/
def findPart (s : State) (issuer gang : Nat) : Option GangPart :=
  s.parts.find? fun p => p.issuer == issuer && p.gang == gang

def dropPart (issuer gang : Nat) (s : State) : State :=
  { s with parts := s.parts.filter fun p => !(p.issuer == issuer && p.gang == gang) }

/-- BEGIN arrives: the packet is enqueued with its reserved slots and log entries (R375). -/
def execGangBegin (issuer gang : Nat) (s : State) : Host.Outcome State Fault Refusal :=
  .next (match findPart s issuer gang with
    | none => s
    | some p =>
      let s0 := wakeUp (if issuer = s.package then takeOwn (.begin_ s.package gang) s else s)
      let s1 := dropPart issuer gang s0
      let base := p.member * (Packet_.convoys p.packet * Packet_.harts p.packet)
      enqueue p.queue p.packet
        { status := 0, counter := none, ctx := p.ctx, view := .user, gang := some (issuer, gang, base)
          reserved := p.slots, detBase := p.detBase, logHeld := p.logged != 0 } s1)

/-- ABORT arrives: the reservation is freed (R375), and its places in the count of R332. -/
def execGangAbort (issuer gang : Nat) (s : State) : Host.Outcome State Fault Refusal :=
  let s0 := wakeUp (if issuer = s.package then takeOwn (.abort s.package gang) s else s)
  .next (match findPart s0 issuer gang with
    | none => s0
    | some p =>
      let s1 := releaseHeld p.ctx p.logged (dropPart issuer gang s0)
      match p.detBase with
      | some b => giveBackDet (s1.ctxOf p.ctx).vdev b (Packet_.convoys p.packet) s1
      | none => s1)

/-- Does a join belong to a gang? -/
def Join.inGang (j : Join) (issuer gang : Nat) : Bool :=
  match j.gang with
  | some (i, g, _) => i == issuer && g == gang
  | _ => false

/-- The packets of a gang that still wait in queues are discarded, each hart not yet started reporting 0xFF. -/
def dropGangQueued (issuer gang : Nat) (s : State) : State :=
  let mine (e : Queued) : Bool := match e.gang with
    | some (i, g, _) => i == issuer && g == gang
    | none => false
  s.queues.foldl (fun s q =>
    let es := q.2.entries.filter mine
    let s1 := es.foldl (fun s e =>
      let ctx := ((s.queueOf q.1).bind.map fun b => b.2.2).getD 0
      releaseHeld ctx (if e.logHeld then Packet_.convoys e.packet - e.next else 0) (dropQueued ctx e s)) s
    let x := s1.queueOf q.1
    if es.isEmpty then s1 else s1.setQueueOf q.1 { x with entries := x.entries.filter fun e => !mine e }) s

/-- KILL arrives: the gang's harts here end with 0xFF, and their operations and posts stop; the context goes on (R376). -/
def execGangKill (issuer gang : Nat) (s : State) : Host.Outcome State Fault Refusal :=
  let s0 := wakeUp (if issuer = s.package then takeOwn (.kill s.package gang) s else s)
  let mine (g : Option (Nat × Nat)) : Bool := g == some (issuer, gang)
  let here := s0.harts.filter fun h => h.2.join.inGang issuer gang
  let s1 := (here.map Prod.fst).foldl (stopHart 0xFF) s0
  let s2 := (s1.convoys.map Prod.fst).foldl (fun s u => stopOut (fun o => o.join.inGang issuer gang) u s) s1
  let s3 := stopDepot (fun d => mine d.gang) (stopTransfers (fun _ t => mine t.gang) 0xFF s2)
  let s4 := failPosts (fun _ p => mine p.gang) 0xFF s3
  .next (dropGangQueued issuer gang s4)

end Sys2Proof.Machine
end

