-- ==== Sys2Proof/Machine/Waybill.lean ====
section
/-! DEFINITION. Waybills (R380 to R385): their fields, the layouts, the checks of R383, and what each destination element
is made of. -/

namespace Sys2Proof.Machine

/-! ### Fields (R380) -/

namespace Waybill

def tag (w : Nat) : Nat := field w 32 32
def group (w : Nat) : Nat := field w 16 16
def nax (w : Nat) : Nat := field w 14 2 + 1
def ndim (w : Nat) : Nat := field w 12 2 + 1
def fmt (w : Nat) : Nat := field w 6 6
def oper (w : Nat) : Nat := field w 2 4
def fixed (w : Nat) : Bool := bit w 1
def qslot (w : Nat) : Bool := bit w 0
def axis (w a : Nat) : Nat := field w (64 + 16 * a) 16 + 1
def dim (w d : Nat) : Nat := field w (128 + 32 * d) 32
def slay (w : Nat) : Nat := field w 256 64
def dlay (w : Nat) : Nat := field w 320 64
def word (w i : Nat) : Word := BitVec.ofNat 64 (field w (64 * i) 64)
def src (w : Nat) : Word := word w 6
def dst (w : Nat) : Word := word w 7
def gaddr (w : Nat) : Word := word w 8
def cnt (w : Nat) : Word := word w 9
def incr (w : Nat) : Word := word w 10

/-- The element type of FMT. -/
def etype (w : Nat) : Option EType :=
  match fmt w with
  | 0x03 => some .i32
  | 0x04 => some .i64
  | 0x07 => some .n32
  | 0x08 => some .n64
  | 0x10 => some .f16
  | 0x11 => some .bf16
  | 0x12 => some .f32
  | _ => none

/-- Bytes of an element. -/
def esize (w : Nat) : Nat := ((etype w).map tBytes).getD 4

/-- Members of the group. -/
def size (w : Nat) : Nat := ((List.range (nax w)).map (axis w)).foldl (· * ·) 1

end Waybill

/-! ### Layouts (R381) -/

namespace Layout

def part (l a : Nat) : Bool := bit l (60 + a)
def dim (l d : Nat) : Nat := field l (12 * d) 12
def nsh (l d : Nat) : Nat := field (dim l d) 9 3
def slot (l d s : Nat) : Nat := field (dim l d) (2 * s) 2

/-- Axes that shard dimension `d`, the most significant first. -/
def axes (l d : Nat) : List Nat := (List.range (nsh l d)).map (slot l d)

/-- Axes that shard any dimension. -/
def listed (l ndim : Nat) : List Nat := (List.range ndim).flatMap (axes l)

/-- The form of a layout for `nax` axes and `ndim` dimensions (R381, R383). -/
def ok (nax ndim l : Nat) : Bool :=
  field l 48 12 == 0
    && (List.range 4).all (fun d =>
      (decide (d < ndim) || dim l d == 0) && decide (nsh l d ≤ 4) && !bit (dim l d) 8
        && (List.range 4).all fun s => decide (s < nsh l d) || slot l d s == 0)
    && (List.range 4).all (fun a => decide (a < nax) || !part l a)
    && (listed l ndim).all (fun a => decide (a < nax) && !part l a)
    && decide (listed l ndim).Nodup

/-- P_d: how many blocks dimension `d` splits into. -/
def blocks (w l d : Nat) : Nat := ((axes l d).map (Waybill.axis w)).foldl (· * ·) 1

end Layout

/-- Role of an axis in a layout (R385). -/
inductive Role where
  | sharded (d s : Nat)
  | partial_
  | replicated
  deriving DecidableEq, Repr

def role (l ndim a : Nat) : Role :=
  match (List.range ndim).findSome? fun d => ((Layout.axes l d).idxOf? a).map fun s => (d, s) with
  | some (d, s) => .sharded d s
  | none => if Layout.part l a then .partial_ else .replicated

/-- What the change of a role asks for (R385). -/
inductive Exchange where
  | none | gather | reduce | scatter | allToAll | slice | error
  deriving DecidableEq, Repr

def exchange : Role → Role → Exchange
  | .replicated, .replicated => .none
  | .partial_, .partial_ => .none
  | .sharded d s, .sharded d' s' => if d = d' ∧ s = s' then .none else .allToAll
  | .sharded _ _, .replicated => .gather
  | .partial_, .replicated => .reduce
  | .partial_, .sharded _ _ => .scatter
  | .replicated, .sharded _ _ => .slice
  | .replicated, .partial_ => .error
  | .sharded _ _, .partial_ => .error

namespace Waybill

def exchanges (w : Nat) : List Exchange :=
  (List.range (nax w)).map fun a => exchange (role (slay w) (ndim w) a) (role (dlay w) (ndim w) a)

/-- Does the waybill need a reduction? -/
def reduces (w : Nat) : Bool := (exchanges w).any fun e => e == .reduce || e == .scatter

/-- The exchange on axis `a`. -/
def exchangeAt (w a : Nat) : Exchange := (exchanges w).getD a .none

/-- Does the exchange on axis `a` fold blocks (R385)? -/
def reducesAt (w a : Nat) : Bool := exchangeAt w a == .reduce || exchangeAt w a == .scatter

/-- The axes whose exchange moves blocks between members, in ascending order: the steps of the collective (R385). -/
def steps (w : Nat) : List Nat := (List.range (nax w)).filter fun a => decide (1 < axis w a)
  && (reducesAt w a || exchangeAt w a == .gather || exchangeAt w a == .allToAll)

/-- Does a step fold blocks? -/
def folds (w : Nat) : Bool := (steps w).any (reducesAt w)

/-! ### The checks of R383 that need no member table -/

def ok (w : Nat) : Bool :=
  let n := nax w
  let m := ndim w
  (match etype w with
    | some t => decide (oper w ≤ 6) && (decide (oper w < 4) || !tFloat t)
    | none => false)
    && field w 768 256 == 0
    && (List.range 4).all (fun a => decide (a < n) || axis w a == 1)
    && (List.range 4).all (fun d => if d < m then dim w d != 0 else dim w d == 0)
    && decide (size w ≤ 262144)
    && Layout.ok n m (slay w) && Layout.ok n m (dlay w)
    && (List.range m).all (fun d => dim w d % Layout.blocks w (slay w) d == 0 && dim w d % Layout.blocks w (dlay w) d == 0)
    && (exchanges w).all (fun e => e != .error)
    && (!reduces w || oper w != 0)
    && (src w).toNat % esize w == 0 && (dst w).toNat % esize w == 0
    && (gaddr w).toNat % 4 == 0 && (cnt w).toNat % 8 == 0

/-! ### Blocks of a member -/

/-- Coordinate of member `m` on axis `a` (R382). -/
def coord (w m a : Nat) : Nat :=
  m / (((List.range' (a + 1) (nax w - (a + 1))).map (axis w)).foldl (· * ·) 1) % axis w a

/-- Extent of a member's block along a dimension. -/
def extent (w l d : Nat) : Nat := dim w d / Layout.blocks w l d

/-- Elements of a member's block. -/
def elements (w l : Nat) : Nat := ((List.range (ndim w)).map (extent w l)).foldl (· * ·) 1

/-- Bytes of a member's block. -/
def bytes (w l : Nat) : Nat := elements w l * esize w

/-- Blocks of up to 256 bytes (R388). -/
def pieces (w l : Nat) : Nat := (bytes w l + 255) / 256

/-- Bytes of piece `b`. -/
def pieceLen (w l b : Nat) : Nat := min 256 (bytes w l - 256 * b)

/-! ### Steps (R385) -/

/-- Elements of the tensor. -/
def volume (w : Nat) : Nat := ((List.range (ndim w)).map (dim w)).foldl (· * ·) 1

/-- Coordinate of global position `p`, row-major with the last dimension fastest, along dimension `d`. -/
def along (w p d : Nat) : Nat :=
  p / (((List.range' (d + 1) (ndim w - (d + 1))).map (dim w)).foldl (· * ·) 1) % dim w d

/-- Coordinate on axis `a` of the members that hold global position `p` in a layout, where the axis shards it (R381). -/
def digit (w l p a : Nat) : Option Nat :=
  match role l (ndim w) a with
  | .sharded d s => some (along w p d / extent w l d
      / (((Layout.axes l d).drop (s + 1)).map (axis w)).foldl (· * ·) 1 % axis w a)
  | _ => none

/-- Does member `m` hold global position `p` when the axes below `k` have their destination roles, and the others their
source roles? -/
def holds (w k m p : Nat) : Bool := (List.range (nax w)).all fun a =>
  (digit w (if a < k then dlay w else slay w) p a).all fun x => x == coord w m a

/-- The global positions of the elements that member `m` then holds, in the order of its block: at 0 those of its source
block, at NAX those of its destination block. -/
def heldBy (w k m : Nat) : List Nat := (List.range (volume w)).filter (holds w k m)

/-- The stage that step `j` starts from, and the one that it reaches. -/
def before (w j : Nat) : Nat := if j = 0 then 0 else (steps w)[j]?.getD (nax w)
def after (w j : Nat) : Nat := (steps w)[j + 1]?.getD (nax w)

/-- The step that reaches the destination block. -/
def lastStep (w : Nat) : Nat := (steps w).length - 1

/-- Does step `j` fold blocks? -/
def stepFolds (w j : Nat) : Bool := ((steps w)[j]?).any (reducesAt w)

/-- Bytes that member `m` holds at a stage. -/
def stageBytes (w k m : Nat) : Nat :=
  if k = 0 then bytes w (slay w) else if nax w ≤ k then bytes w (dlay w) else (heldBy w k m).length * esize w

/-- Blocks of up to 256 bytes at a stage, and the bytes of one (R388). -/
def piecesAt (w k m : Nat) : Nat := (stageBytes w k m + 255) / 256
def pieceAt (w k m b : Nat) : Nat := min 256 (stageBytes w k m - 256 * b)

/-- Positions in block `b` at a stage. -/
def pieceHeld (w k m b : Nat) : List Nat := ((heldBy w k m).drop (256 * b / esize w)).take (pieceAt w k m b / esize w)

/-! ### Reductions (R385, R388) -/

/-- The lowest member of those that differ from `m` in their coordinate on axis `a` alone. -/
def lowest (w m a : Nat) : Nat :=
  m - coord w m a * (((List.range' (a + 1) (nax w - (a + 1))).map (axis w)).foldl (· * ·) 1)

/-- Do members `m` and `n` belong to one exchange on axis `a`? -/
def together (w a m n : Nat) : Bool := lowest w m a == lowest w n a

/-- Whose results does the step of axis `a` have under the name of member `m`: in a reduce-scatter its own, in an all-reduce
those of all, if it is the lowest? -/
def names (w a m : Nat) : Bool := exchangeAt w a == .scatter || lowest w m a == m

/-- Is there a reduced block with this tag? -/
def tagOk (w : Nat) (t : BlockTag) : Bool :=
  match (steps w).idxOf? t.step with
  | some j => reducesAt w t.step && decide (t.owner < size w) && names w t.step t.owner
      && decide (t.block < piecesAt w (after w j) t.owner)
  | none => false

/-- Bytes of the block with a tag. -/
def tagLen (w : Nat) (t : BlockTag) : Nat :=
  match (steps w).idxOf? t.step with
  | some j => pieceAt w (after w j) t.owner t.block
  | none => 0

/-- Does member `m` receive the block with a tag: every member of an all-reduce, the owner in a reduce-scatter? -/
def receives (w : Nat) (t : BlockTag) (m : Nat) : Bool :=
  if exchangeAt w t.step = .scatter then m == t.owner else together w t.step m t.owner

/-- The reduction tree of a block: the axis of its step, and the lowest member of the reduction. -/
def treeOf (w : Nat) (t : BlockTag) : Nat × Nat := (t.step, lowest w t.owner t.step)

/-- Is there a reduction tree with this name? -/
def treeOk (w : Nat) (t : Nat × Nat) : Bool :=
  (steps w).contains t.1 && reducesAt w t.1 && decide (t.2 < size w) && lowest w t.2 t.1 == t.2

/-- Reduced blocks of the collective, over all its steps and members. -/
def results (w : Nat) : Nat :=
  (((List.range (steps w).length).zip (steps w)).map fun p => if !reducesAt w p.2 then 0
    else (((List.range (size w)).filter (names w p.2)).map (piecesAt w (after w p.1))).sum).sum

end Waybill

/-! ### Folds (R390) -/

/-- One step of a reduction on an element. -/
def foldElem (t : EType) (oper a b : Nat) : Nat :=
  match oper with
  | 1 => if tFloat t then (fAddRne t a b).1 else (a + b) % 2 ^ tBits t
  | 2 => if tFloat t then (fMinMax t false a b).1 else if tSigned t then minS (tBits t) a b else min a b
  | 3 => if tFloat t then (fMinMax t true a b).1 else if tSigned t then maxS (tBits t) a b else max a b
  | 4 => a &&& b
  | 5 => a ||| b
  | 6 => a ^^^ b
  | _ => b

/-- Bytes as elements of `n` bytes. -/
def elemsOf (n : Nat) : Nat → List Byte → List Nat
  | 0, _ => []
  | fuel + 1, bs => if bs.length < n ∨ n = 0 then [] else ofBytes (bs.take n) :: elemsOf n fuel (bs.drop n)

/-- One step of a reduction on a block. -/
def foldBlock (t : EType) (oper : Nat) (x y : List Byte) : List Byte :=
  let n := tBytes t
  ((elemsOf n x.length x).zip (elemsOf n y.length y)).flatMap fun p => toBytes n (foldElem t oper p.1 p.2)

/-- The left fold of blocks. -/
def foldAll (t : EType) (oper : Nat) : List (List Byte) → List Byte
  | [] => []
  | x :: t' => t'.foldl (foldBlock t oper) x

end Sys2Proof.Machine
end

