-- ==== Sys2Proof/Machine/Collective.lean ====
section
/-! DEFINITION. Collectives as a member's exchange engine runs them (R377 to R379, R386 to R394). What the other members
and the switches do comes with the arguments of the steps. -/

namespace Sys2Proof.Machine

def findColl (s : State) (id : Nat) : Option Coll := s.colls.find? fun c => c.id == id
def setColl (c : Coll) (s : State) : State := { s with colls := s.colls.map fun x => if x.id = c.id then c else x }

/-- The bits of its waybill. -/
def Coll.wb (c : Coll) : Nat := c.waybill.toNat

/-- Member index of this package (R382). -/
def Coll.self (s : State) (c : Coll) : Nat := (c.table.idxOf? s.package).getD 0

/-- The effective FIXED (R391). -/
def Coll.fixed (s : State) (c : Coll) : Bool := Waybill.fixed c.wb || (s.ctxOf c.ctx).det

/-- STATUS (R384). -/
def collStatus (code : Nat) (cause : BitVec 8) (peer : Nat) : BitVec 64 :=
  BitVec.ofNat 64 (peer * 2 ^ 32 + cause.toNat * 256 + code)

/-! ### Parts of a collective that can wait for an answer (R308, R392) -/

def sourcePart (b : Nat) : Nat := b
def destPart (b : Nat) : Nat := 2 ^ 40 + b
def tablePart : Nat := 2 ^ 41
def endPart : Nat := 2 ^ 42

/-- Slots and requests of the collective are freed (R389). -/
def freeSlots (id : Nat) (s : State) : State :=
  { s with switchSlots := s.switchSlots.filter (fun x => x.owner != id)
           slotWaits := s.slotWaits.filter fun x => x.owner != id }

/-- The collective is over. -/
def dropColl (id : Nat) (s : State) : State :=
  let s1 := freeSlots id s
  { s1 with colls := s1.colls.filter fun c => c.id != id }

/-- The collective ends with a STATUS, and its slots are freed; one that is complete here is over. -/
def endColl (id : Nat) (status : BitVec 64) (s : State) : State :=
  match findColl s id with
  | none => s
  | some c =>
    if c.done then dropColl id s
    else setColl { c with outcome := some status, parked := [], waits := [], answers := [] } (freeSlots id s)

/-- A part meets a fault: one for the engine-fault queue waits for its answer, any other ends the waybill with code 5;
the failing peer is the member itself (R384). -/
def collFault (id part : Nat) (cause : BitVec 8) (soft : Bool) (va : Word) (s : State) : State :=
  match findColl s id with
  | none => s
  | some c =>
    if soft then
      let r := addFault (s.ctxOf c.ctx).vdev c.ctx 2 0xFF cause va (.collective id part) s
      setColl { c with waits := c.waits ++ [(part, cause)] } r.1
    else endColl id (collStatus 5 cause (c.self s)) s

/-- Read `n` bytes for a collective, in the user view (R404). -/
def collRead (ctx : Nat) (va : Word) (n : Nat) : EngM (List Byte) :=
  (List.range n).mapM fun i => do
    return BitVec.ofNat 8 (← engRead none ctx .user .unit (va + BitVec.ofNat 64 i) 1)

/-- Write bytes for a collective; granules written whole are clean (R313). -/
def collWrite (ctx : Nat) (va : Word) (bs : List Byte) : EngM Unit := do
  ((List.range bs.length).zip bs).forM fun p =>
    engWrite none ctx .user .unit (va + BitVec.ofNat 64 p.1) 1 p.2.toNat
  modify (heal none ctx .user ((List.range bs.length).map fun i => va + BitVec.ofNat 64 i))

/-! ### Rings (R377 to R379) -/

/-- Read the descriptor of a ring (R377). -/
def ringEntry (s : State) (ctx r : Nat) : EStateM.Result EngStop State Nat :=
  saveRead ctx ((s.ctxOf ctx).ctxbase + BitVec.ofNat 64 (0xB000 + 16 * r)) s

/-- The descriptor of a ring; one that cannot be read is not enabled (log 30). -/
def ringDesc (s : State) (ctx r : Nat) : Nat := (engGet (fun _ => ringEntry s ctx r) s).getD 0

/-- Is the ring polled? -/
def ringEnabled (d : Nat) : Bool := bit d 5 && !bit d 6 && decide (field d 0 4 ≤ 12)

/-- Address of the ring header. -/
def ringHeader (d : Nat) : Word := BitVec.ofNat 64 (d / 64 * 64)

/-- Does an address lie in a vault of this package? One whose page meets a translation fault may; its access stalls
(R308). -/
def inVault (s : State) (ctx : Nat) (acc : Acc) (va : Word) : Bool :=
  match engPlace none ctx .user .unit acc va s with
  | .ok l _ => !l.host && isVault l.key
  | .error (.fault _ soft _) _ => soft
  | .error .wait _ => false

/-- Does a fault of the ring wait for its answer? -/
def ringWaits (s : State) (ctx r : Nat) : Bool :=
  let v := s.vdevOf (s.ctxOf ctx).vdev
  (v.efq ++ v.efWait).any fun x => x.target == .ring ctx r

/-- HEAD, TAIL and, if one is posted, the waybill numbered TAIL. -/
def ringPeek (ctx d : Nat) : EngM (Nat × Nat × BitVec 1024) := do
  let h := ringHeader d
  let head ← engRead none ctx .user .unit h 8
  let tail ← engRead none ctx .user .unit (h + 8) 8
  if head ≤ tail then return (head, tail, 0)
  let at_ := h + BitVec.ofNat 64 (128 + 128 * (tail % 2 ^ field d 0 4))
  let bs ← collRead ctx at_ 128
  return (head, tail, BitVec.ofNat 1024 (ofBytes bs))

/-- The member table's words. -/
def readTable (ctx : Nat) (va : Word) (n : Nat) : EngM (List Nat) :=
  (List.range n).mapM fun m => engRead none ctx .user .unit (va + BitVec.ofNat 64 (4 * m)) 4

/-- Is another waybill of the context with the same group and tag in flight, taken before and with its TAIL not advanced yet
(R379, R383)? -/
def sameInFlight (s : State) (c : Coll) : Bool :=
  s.colls.any fun x => decide (x.id < c.id) && x.ctx == c.ctx && !x.done
    && Waybill.tag x.wb == Waybill.tag c.wb && Waybill.group x.wb == Waybill.group c.wb

/-- The member table is read and checked (R382, R383). -/
def checkTable (id : Nat) (s : State) : State :=
  match findColl s id with
  | none => s
  | some c =>
    match readTable c.ctx (Waybill.gaddr c.wb) (Waybill.size c.wb) s with
    | .error (.fault e soft va) _ => collFault id tablePart e soft va s
    | .error .wait s1 => wanting s1 s
    | .ok ms s1 =>
      if (ms.all fun m => decide (m < 2 ^ 18)) && decide ms.Nodup && ms.contains s.package then
        setColl { c with table := ms } s1
      else endColl id (collStatus 1 0 0) s1

/-- The check of a waybill that is taken (R383). A counter whose page meets a fault for the engine-fault queue is judged
once the driver has answered (R308). -/
def checkWaybill (id : Nat) (s : State) : State :=
  match findColl s id with
  | none => s
  | some c =>
    if !Waybill.ok c.wb || sameInFlight s c then endColl id (collStatus 1 0 0) s
    else match engPlace none c.ctx .user .unit .store (Waybill.cnt c.wb) s with
      | .error (.fault e true va) _ => collFault id tablePart e true va s
      | .error _ _ => endColl id (collStatus 1 0 0) s
      | .ok l _ => if !l.host && isVault l.key then checkTable id s else endColl id (collStatus 1 0 0) s

/-- Take the waybill numbered TAIL; a collective starts (R362). -/
def takeWaybill (ctx r d tail : Nat) (w : BitVec 1024) (s : State) : State :=
  let h := ringHeader d
  let c : Coll :=
    { id := s.nextColl, ctx, ring := r, tail := BitVec.ofNat 64 tail, header := h
      addr := h + BitVec.ofNat 64 (128 + 128 * (tail % 2 ^ field d 0 4)), waybill := w, table := [], matched := false
      plane := 0, queued := [], granted := [], slotted := false, emptied := 0, read := [], mid := [], pushed := []
      pulled := [], parked := [], waits := [], answers := [], outcome := none, done := false, aborted := false }
  checkWaybill c.id (wakeUp { s with colls := s.colls ++ [c], nextColl := s.nextColl + 1 })

/-- Is the member table of a waybill still to be read? -/
def Coll.unchecked (c : Coll) : Bool := c.table.isEmpty && c.outcome.isNone && !c.aborted && c.waits.isEmpty

/-- A fault of a ring that waits for its answer is queued (R308). -/
def ringFault (ctx r : Nat) (cause : BitVec 8) (va : Word) (s : State) : State :=
  (addFault (s.ctxOf ctx).vdev ctx 2 0xFF cause va (.ring ctx r) s).1

/-- Visit a ring: with a posted waybill and none in flight, the waybill numbered TAIL is taken. -/
def visitRing (ctx r : Nat) (s : State) : State :=
  if ringWaits s ctx r then s
  else match s.colls.find? fun c => c.ctx == ctx && c.ring == r && !c.done with
  | some c => if c.unchecked then checkWaybill c.id s else s
  | none =>
    match ringEntry s ctx r with
    | .error (.fault e true va) _ => ringFault ctx r e va s
    | .error .wait s1 => wanting s1 s
    | .error (.fault _ false _) _ => s
    | .ok d s0 =>
      if !ringEnabled d || !inVault s0 ctx .load (ringHeader d) then s
      else match ringPeek ctx d s0 with
        | .error (.fault e true va) _ => ringFault ctx r e va s0
        | .error _ _ => s
        | .ok (head, tail, w) s1 => if head ≤ tail then s1 else takeWaybill ctx r d tail w s1

/-- R379. -/
def execRingVisit (ctx ring : Nat) (s : State) : Host.Outcome State Fault Refusal :=
  .next (match mget s.contexts ctx with
    | some c => if c.killed || !fabricUp s || decide (64 ≤ ring) then s else visitRing ctx ring s
    | none => s)

/-! ### Matching and planes (R386, R387) -/

/-- A collective that goes on. -/
def Coll.live (c : Coll) : Bool := c.outcome.isNone && !c.aborted && !c.table.isEmpty

/-- One that a failure ends: it goes on, or other members still pull. -/
def Coll.open_ (c : Coll) : Bool := (c.live || c.done) && c.matched

/-- What this member shows the others. -/
def Coll.view (s : State) (c : Coll) : PeerView :=
  { fcid := (s.ctxOf c.ctx).fcid, waybill := c.waybill, fixed := c.fixed s, table := c.table, planes := s.planes }

/-- Members match by equal FCID, GROUP and TAG. -/
def viewsMeet (x y : PeerView) : Bool :=
  x.fcid == y.fcid && Waybill.group x.waybill.toNat == Waybill.group y.waybill.toNat
    && Waybill.tag x.waybill.toNat == Waybill.tag y.waybill.toNat

/-- They agree in DW0 to DW5, in the effective FIXED and in the digest of the member table (log 82). -/
def viewsAgree (x y : PeerView) : Bool :=
  x.waybill.extractLsb' 0 384 == y.waybill.extractLsb' 0 384 && x.fixed == y.fixed && x.table == y.table

/-- The first plane at or after TAG mod 96 that is up at every member. -/
def collPlane (c : Coll) (views : List PeerView) : Option Nat :=
  ((List.range 96).map fun i => (Waybill.tag c.wb % 96 + i) % 96).find? fun p => views.all fun v => v.planes.getLsbD p

/-- The waybill meets those of other members: one that differs ends it with code 3; when all are there and agree, the
plane is chosen. -/
def execWaybillMatch (id : Nat) (peers : List PeerView) (s : State) : Host.Outcome State Fault Refusal :=
  .next (match findColl s id with
    | none => s
    | some c =>
      let own := c.view s
      if !c.live || c.matched || !peers.all (viewsMeet own) then s
      else if !peers.all (viewsAgree own) then endColl id (collStatus 3 0 0) s
      else if peers.length + 1 < c.table.length then s
      else match collPlane c (own :: peers) with
        | none => endColl id (collStatus 6 0 0) s
        | some p => setColl { c with matched := true, plane := p } s)

/-- R387: the plane went down at a member. -/
def execCollectivePlaneLost (id : Nat) (s : State) : Host.Outcome State Fault Refusal :=
  .next (match findColl s id with
    | none => s
    | some c => if c.open_ then endColl id (collStatus 6 0 0) s else s)

/-- R366, R370, R387: a port goes down, and with it the plane for this package: streams move, and collectives on the plane
end with code 6. -/
def execPortDown (port : Nat) (s : State) : Host.Outcome State Fault Refusal :=
  .next (if 96 ≤ port ∨ !s.planes.getLsbD port ∨ s.power = .off ∨ s.bootPhase < 3 then s
    else
      let lost := (s.colls.filter fun c => c.open_ && c.plane == port).map Coll.id
      lost.foldl (fun s id => endColl id (collStatus 6 0 0) s) (planeDown port s))

/-- R394, R392: a peer fails. -/
def execCollectivePeerFailed (id peer : Nat) (s : State) : Host.Outcome State Fault Refusal :=
  .next (match findColl s id with
    | none => s
    | some c =>
      if (c.live || c.done) && decide (peer < c.table.length) && peer != c.self s then endColl id (collStatus 4 0 peer) s
      else s)

/-! ### Reduction slots (R389) -/

/-- A switch, by its tier and its number. -/
def switchName (x : TreeSwitch) : Nat × Nat := (x.tier, x.switch)

/-- The same with the tree: a switch of two trees is asked for each. -/
def treePlace (x : TreeSwitch) : TreePlace := ⟨x.tier, x.switch, x.tree⟩

/-- Switches are taken in ascending order of tier and number (R389), and at one switch by tree. -/
def placeBefore (a b : TreePlace) : Bool :=
  let key (p : TreePlace) : List Nat := [p.tier, p.switch, p.tree.1, p.tree.2]
  a != b && rankLe (key a) (key b)

/-- Slots that a switch has free. -/
def freeAt (s : State) (n : Nat × Nat) : List Nat :=
  (List.range 4096).filter fun k => !s.switchSlots.any fun x => switchName x.at_ == n && x.slot == k

/-- Which of two requests at a switch comes first: the lower priority value, the earlier arrival, the lower port. -/
def SlotWait.before (a b : SlotWait) : Bool :=
  if a.prio != b.prio then decide (a.prio < b.prio)
  else if a.since != b.since then decide (a.since < b.since)
  else decide (a.at_.port < b.at_.port)

/-- The request of a collective at a switch, now. -/
def slotWait (s : State) (c : Coll) (x : TreeSwitch) : SlotWait := ⟨x, c.id, (s.ctxOf c.ctx).prio, s.cycle⟩

/-- Requests that wait at a switch, in their order. -/
def waitsAt (s : State) (n : Nat × Nat) : List SlotWait := s.slotWaits.filter fun y => switchName y.at_ == n

/-- Put a request into the FIFO of its switch: by arrival, whatever its priority, and at one clock by the order of R389. -/
def insertWait (w : SlotWait) : List SlotWait → List SlotWait
  | [] => [w]
  | y :: ys =>
    if w.since < y.since ∨ (w.since = y.since ∧ w.before y) then w :: y :: ys else y :: insertWait w ys

/-- Eight slots of a switch are granted together. -/
def grantSlots (c : Coll) (x : TreeSwitch) (s : State) : State :=
  let new := (freeAt s (switchName x)).take 8
  setColl { c with granted := c.granted ++ [treePlace x], queued := c.queued.filter (· != treePlace x), slotted := x.last }
    { s with
      switchSlots := s.switchSlots ++ new.map fun n => ⟨x, n, c.id, none, [], []⟩
      slotWaits := s.slotWaits.filter fun y => !(treePlace y.at_ == treePlace x && y.owner == c.id) }

/-- Is it the turn of a switch to be asked for a tree of the collective? -/
def Coll.asks (c : Coll) (x : TreeSwitch) : Bool :=
  c.live && c.matched && !c.slotted && Waybill.treeOk c.wb x.tree && c.queued.isEmpty
    && c.granted.all fun n => placeBefore n (treePlace x)

/-- Member 0 asks a switch of a reduction tree, in ascending order, one at a time; another member hears how that went
(log 83). A request that loses waits or, without QSLOT, ends the waybill with code 2 at every member. -/
def execSlotRequest (id : Nat) (x : TreeSwitch) (r : SlotAnswer) (s : State) : Host.Outcome State Fault Refusal :=
  .next (match findColl s id with
    | none => s
    | some c =>
      if !c.asks x then s
      else match r with
        | .granted =>
          let first := (waitsAt s (switchName x)).all fun y => (slotWait s c x).before y
          if 8 ≤ (freeAt s (switchName x)).length ∧ first then grantSlots c x s else s
        | .queued =>
          if Waybill.qslot c.wb && c.self s == 0 then
            setColl { c with queued := [treePlace x] } { s with slotWaits := insertWait (slotWait s c x) s.slotWaits }
          else s
        | .refused => if Waybill.qslot c.wb then s else endColl id (collStatus 2 0 0) s)

/-- The waiting request that comes first is served. -/
def execSlotGrant (id : Nat) (x : TreeSwitch) (s : State) : Host.Outcome State Fault Refusal :=
  .next (match findColl s id with
    | none => s
    | some c =>
      if c.live && decide (8 ≤ (freeAt s (switchName x)).length)
          && ((waitsAt s (switchName x)).head?.map fun y => (y.owner, y.at_)) == some (id, x) then grantSlots c x s
      else s)

/-! ### Folds at the switches (R388, R390) -/

/-- Has every input of the switch arrived at the slot? -/
def SwitchSlot.isFull (x : SwitchSlot) : Bool := x.at_.ports.all fun p => x.arrived.any fun a => a.1 == p

/-- What a slot holds: the fold in ascending port number where FIXED is in force, else in the order of arrival. -/
def slotResult (s : State) (c : Coll) (x : SwitchSlot) : List Byte :=
  let bs := if c.fixed s then sortBy (fun a b => decide (a.1 ≤ b.1)) x.arrived else x.arrived
  foldAll ((Waybill.etype c.wb).getD .i32) (Waybill.oper c.wb) (bs.map Prod.snd)

/-- The slot is free for another block. -/
def SwitchSlot.emptied (x : SwitchSlot) : SwitchSlot := { x with tag := none, arrived := [], pulled := [] }

/-- A block comes to a slot on a port. -/
def SwitchSlot.take_ (x : SwitchSlot) (port : Nat) (tag : BlockTag) (data : List Byte) : SwitchSlot :=
  { x with tag := some tag, arrived := x.arrived ++ [(port, data)] }

/-- Replace a slot. -/
def setSlot (x : SwitchSlot) (s : State) : State :=
  { s with switchSlots := s.switchSlots.map fun y => if switchName y.at_ == switchName x.at_ && y.slot == x.slot then x else y }

/-- May a block with a tag come to the slot on a port: the slot is of the block's tree, and folds that block, or is free and
no slot beside it does? -/
def mayTake (s : State) (c : Coll) (x : SwitchSlot) (port : Nat) (tag : BlockTag) : Bool :=
  let beside := s.switchSlots.any fun y => y.owner == x.owner && switchName y.at_ == switchName x.at_ && y.tag == some tag
  Waybill.treeOf c.wb tag == x.at_.tree && x.at_.ports.contains port && !(x.arrived.any fun a => a.1 == port)
    && (x.tag == some tag || (x.tag.isNone && !beside))

/-- A result that can go up now: the slot that holds it, and the slot of the next switch with the port there. -/
def goesUp (s : State) (c : Coll) : Option (SwitchSlot × SwitchSlot × Nat) :=
  (s.switchSlots.filter fun x => x.owner == c.id && x.isFull).findSome? fun x =>
    match x.at_.up, x.tag with
    | some (t, n, p), some tag =>
      (s.switchSlots.find? fun y => y.owner == c.id && switchName y.at_ == (t, n) && mayTake s c y p tag).map fun y => (x, y, p)
    | _, _ => none

/-- Results go up the tree as far as they can. -/
def passUp (c : Coll) : Nat → State → State
  | 0, s => s
  | n + 1, s =>
    match goesUp s c with
    | none => s
    | some (x, y, p) =>
      passUp c n (setSlot (y.take_ p (x.tag.getD ⟨0, 0, 0⟩) (slotResult s c x)) (setSlot x.emptied s))

/-- Every result of the collective's slots that can go up does; a result passes a switch of each tier at most. -/
def settleSlots (c : Coll) (s : State) : State := passUp c (4 * s.switchSlots.length) s

/-- Does the top of the tree hold a result for the member? -/
def SwitchSlot.holdsFor (x : SwitchSlot) (c : Coll) (m : Nat) : Bool :=
  x.at_.up.isNone && x.isFull && !x.pulled.contains m
    && (x.tag.map fun t => Waybill.receives c.wb t m && decide (m < Waybill.size c.wb)) == some true

/-- The blocks of the steps after the first that this member pushes: those that it holds before them. -/
def Coll.laterPushes (s : State) (c : Coll) : List StepBlock :=
  (List.range' 1 (Waybill.lastStep c.wb)).flatMap fun j =>
    (List.range (Waybill.piecesAt c.wb (Waybill.before c.wb j) (c.self s))).map fun b => ⟨j, b⟩

/-- Nothing is left of a collective that is complete here: it holds no slots, and has pushed all that others need of it. -/
def settleDone (c : Coll) (s : State) : State :=
  if c.done && !(s.switchSlots.any fun x => x.owner == c.id) && (c.laterPushes s).all c.pushed.contains then dropColl c.id s
  else s

/-- A receiver has pulled the result of a slot at the top. Once all have, the slot is free; once every block of the
collective has been pulled, all slots are freed (R389). -/
def pulledBy (c : Coll) (x : SwitchSlot) (m : Nat) (s : State) : State :=
  let y := { x with pulled := x.pulled ++ [m] }
  if (List.range (Waybill.size c.wb)).any fun k => y.holdsFor c k then setSlot y s
  else
    let n := c.emptied + 1
    let s1 := setColl { c with emptied := n } (setSlot x.emptied s)
    if n < Waybill.results c.wb then settleSlots c s1
    else settleDone c (freeSlots c.id s1)

/-- R390: a block arrives at a slot on a port, or another member has pulled a result. -/
def execSwitchFold (tier switch slot : Nat) (e : SlotEvent) (s : State) : Host.Outcome State Fault Refusal :=
  .next (match s.switchSlots.find? fun x => switchName x.at_ == (tier, switch) && x.slot == slot with
    | none => s
    | some x =>
      match findColl s x.owner with
      | none => s
      | some c =>
        match e with
        | .arrive port tag data =>
          if mayTake s c x port tag && Waybill.tagOk c.wb tag && data.length == Waybill.tagLen c.wb tag then
            settleSlots c (setSlot (x.take_ port tag data) s)
          else s
        | .pulled m => if x.holdsFor c m && m != c.self s then pulledBy c x m s else s)

/-! ### Blocks (R388, R392, R393) -/

/-- May blocks move: the members have matched, and every switch of the reduction trees has given its slots (R389)? One
that is complete here still serves the others. -/
def Coll.moves (c : Coll) : Bool := (c.live || c.done) && c.matched && (!Waybill.folds c.wb || c.slotted)

/-- Is the source block still to be read? -/
def Coll.unread (c : Coll) (b : Nat) : Bool :=
  decide (b < Waybill.pieces c.wb (Waybill.slay c.wb)) && (mget c.read b).isNone
    && (mget c.waits (sourcePart b)).isNone

/-- A push of a block leaves, under the axis of its step. -/
def pushBlock (c : Coll) (x : StepBlock) (bs : List Byte) (s : State) : State :=
  match (Waybill.steps c.wb)[x.step]? with
  | some a => { s with sent := s.sent ++ [.push c.id a x.block bs] }
  | none => s

/-- Read a source block, once, and push it to those that need it; in a later step push one that the step before has left. -/
def execBlockPush (id : Nat) (x : StepBlock) (s : State) : Host.Outcome State Fault Refusal :=
  .next (match findColl s id with
    | none => s
    | some c =>
      if !c.moves then s
      else if x.step = 0 then
        if !c.unread x.block then s
        else
          let n := Waybill.pieceLen c.wb (Waybill.slay c.wb) x.block
          match collRead c.ctx (Waybill.src c.wb + BitVec.ofNat 64 (256 * x.block)) n s with
          | .error (.fault e soft va) s1 => collFault id (sourcePart x.block) e soft va { s with staging := s1.staging }
          | .error .wait s1 => wanting s1 s
          | .ok bs s1 => pushBlock c x bs (setColl { c with read := mset c.read x.block bs } s1)
      else match (c.laterPushes s).contains x && !c.pushed.contains x, aget c.mid ⟨x.step - 1, x.block⟩ with
        | true, some bs =>
          let c1 := { c with pushed := c.pushed ++ [x] }
          settleDone c1 (pushBlock c x bs (setColl c1 s))
        | _, _ => s)

/-- The element at a global position as the member holds it before a step: none where it does not hold it, and then none
while it has not come. -/
def heldElem (s : State) (c : Coll) (j p : Nat) : Option (Option (List Byte)) :=
  let n := Waybill.esize c.wb
  ((Waybill.heldBy c.wb (Waybill.before c.wb j) (c.self s)).idxOf? p).map fun e =>
    let block := if j = 0 then mget c.read (e * n / 256) else aget c.mid ⟨j - 1, e * n / 256⟩
    block.map fun bs => (bs.drop (e * n % 256)).take n

/-- The positions of a block that a step leaves at this member. -/
def stepHeld (s : State) (c : Coll) (x : StepBlock) : List Nat :=
  Waybill.pieceHeld c.wb (Waybill.after c.wb x.step) (c.self s) x.block

/-- The bytes of that block. -/
def stepLen (s : State) (c : Coll) (x : StepBlock) : Nat :=
  Waybill.pieceAt c.wb (Waybill.after c.wb x.step) (c.self s) x.block

/-- What a block that a step leaves holds, given the data that came for it: elements that the member holds itself are its
own. None while its own have not come. -/
def stepData (s : State) (c : Coll) (x : StepBlock) (data : List Byte) : Option (List Byte) :=
  let n := Waybill.esize c.wb
  let ps := stepHeld s c x
  (((List.range ps.length).zip ps).mapM fun (q : Nat × Nat) =>
    match heldElem s c x.step q.2 with
    | none => some ((data.drop (q.1 * n)).take n)
    | some v => v).map List.flatten

/-- Is every element of the block the member's own? -/
def ownBlock (s : State) (c : Coll) (x : StepBlock) : Bool :=
  !Waybill.stepFolds c.wb x.step && (stepHeld s c x).all fun p => (heldElem s c x.step p).isSome

/-- The slot at the top of its tree that holds a reduced block of a step for this member. -/
def topSlot (s : State) (c : Coll) (x : StepBlock) : Option SwitchSlot :=
  s.switchSlots.find? fun y => y.owner == c.id && y.holdsFor c (c.self s)
    && y.tag.any fun t => t.block == x.block && (Waybill.steps c.wb)[x.step]? == some t.step

/-- Is a block of the destination, or of a step between, still owed? -/
def Coll.owed (s : State) (c : Coll) (x : StepBlock) : Bool :=
  if x.step = Waybill.lastStep c.wb then
    decide (x.block < Waybill.pieces c.wb (Waybill.dlay c.wb)) && !c.pulled.contains x.block
      && (mget c.parked x.block).isNone && (mget c.waits (destPart x.block)).isNone
  else decide (x.step < Waybill.lastStep c.wb)
    && decide (x.block < Waybill.piecesAt c.wb (Waybill.after c.wb x.step) (c.self s)) && (aget c.mid x).isNone

/-- Write a destination block; on a fault that waits for its answer the block is parked. -/
def writeBlock (id b : Nat) (bs : List Byte) (s : State) : State :=
  match findColl s id with
  | none => s
  | some c =>
    match collWrite c.ctx (Waybill.dst c.wb + BitVec.ofNat 64 (256 * b)) bs s with
    | .ok _ s1 => setColl { c with pulled := c.pulled ++ [b], parked := merase c.parked b } s1
    | .error (.fault e true va) _ =>
      collFault id (destPart b) e true va (setColl { c with parked := mset c.parked b bs } s)
    | .error (.fault e false va) _ => collFault id (destPart b) e false va s
    | .error .wait _ => s

/-- A reduced block is pulled from the top of its tree when its page is resident: on a fault that waits for its answer it
stays there. -/
def pullBlock (c : Coll) (x : SwitchSlot) (b : Nat) (bs : List Byte) (s : State) : State :=
  match collWrite c.ctx (Waybill.dst c.wb + BitVec.ofNat 64 (256 * b)) bs s with
  | .ok _ s1 =>
    let c1 := { c with pulled := c.pulled ++ [b] }
    pulledBy c1 x (c.self s) (setColl c1 s1)
  | .error (.fault e soft va) _ => collFault c.id (destPart b) e soft va s
  | .error .wait _ => s

/-- A block that a step between leaves is kept for the next. -/
def Coll.keep (c : Coll) (x : StepBlock) (bs : List Byte) : Coll := { c with mid := aset c.mid x bs }

/-- A block comes: a reduced one from the top of its tree, any other as the other members push it (R388). That of the last
step is written. -/
def execBlockPull (id : Nat) (x : StepBlock) (data : List Byte) (s : State) : Host.Outcome State Fault Refusal :=
  .next (match findColl s id with
    | none => s
    | some c =>
      let last : Bool := x.step == Waybill.lastStep c.wb
      if !c.moves || !c.owed s x || data.length != stepLen s c x then s
      else if Waybill.stepFolds c.wb x.step then
        match topSlot s c x with
        | some y =>
          if slotResult s c y != data then s
          else if last then pullBlock c y x.block data s
          else pulledBy (c.keep x data) y (c.self s) (setColl (c.keep x data) s)
        | none => s
      else match stepData s c x data with
        | none => s
        | some bs => if last then writeBlock id x.block bs s else setColl (c.keep x bs) s)

/-! ### Completion (R379, R393, R394) -/

/-- May the waybill complete: it has ended, or every source byte is read and every destination byte written? -/
def Coll.ready (c : Coll) : Bool :=
  (c.outcome.isSome && c.waits.isEmpty && !c.done)
    || (c.live && c.matched
      && (List.range (Waybill.pieces c.wb (Waybill.slay c.wb))).all (fun b => (mget c.read b).isSome)
      && (List.range (Waybill.pieces c.wb (Waybill.dlay c.wb))).all fun b => c.pulled.contains b)

/-- STATUS, then the counter as one access, then TAIL. -/
def completeWrites (c : Coll) : List (EngM Unit) :=
  let w (va : Word) (v : Nat) : EngM Unit := engWrite none c.ctx .user .unit va 8 v
  let cnt := Waybill.cnt c.wb
  [w (c.addr + 88) (c.outcome.getD 0).toNat
  , do
      let v ← engRead none c.ctx .user .unit cnt 8
      w cnt ((v + (Waybill.incr c.wb).toNat) % 2 ^ 64)
  , w (c.header + 8) (c.tail + 1).toNat]

/-- The collective is complete here; slots that other members still pull from are held (R389), and blocks that they need of
this member are still pushed (R388). One that has failed is over. -/
def leaveColl (c : Coll) (s : State) : State :=
  if c.outcome = some (collStatus 0 0 0) then settleDone { c with done := true } (setColl { c with done := true } s)
  else dropColl c.id s

/-- Make each write that can be made. -/
def forceComplete (c : Coll) (s : State) : State :=
  leaveColl c ((completeWrites c).foldl (fun s m => (engDo m s).getD s) s)

/-- The writes of the completion; a code-1 waybill whose counter breaks its limits is completed as far as it can be. -/
def completeColl (id : Nat) (s : State) : State :=
  match findColl s id with
  | none => s
  | some c =>
    match (completeWrites c).forM id_ s with
    | .ok _ s1 => leaveColl c s1
    | .error (.fault e true va) _ =>
      let r := addFault (s.ctxOf c.ctx).vdev c.ctx 2 0xFF e va (.collective id endPart) s
      setColl { c with waits := [(endPart, e)] } r.1
    | .error _ _ => forceComplete c s
where
  /-- Run a write. -/
  id_ (m : EngM Unit) : EngM Unit := m

def execWaybillComplete (id : Nat) (s : State) : Host.Outcome State Fault Refusal :=
  .next (match findColl s id with
    | none => s
    | some c =>
      if c.aborted then dropColl id s
      else if c.ready then
        completeColl id (setColl { c with outcome := some (c.outcome.getD (collStatus 0 0 0)) } s)
      else s)

/-- The answer for a part takes hold (R392): the checks go on, a parked block is written, a reduced one pulled. -/
def resumePart (c : Coll) (part : Nat) (s : State) : State :=
  let b := part - 2 ^ 40
  if part = tablePart then checkWaybill c.id s
  else if 2 ^ 40 ≤ part ∧ part < 2 ^ 41 then
    match mget c.parked b, topSlot s c ⟨Waybill.lastStep c.wb, b⟩ with
    | some bs, _ => writeBlock c.id b bs s
    | none, some y => pullBlock c y b (slotResult s c y) s
    | none, none => s
  else s

/-- R392: the driver has answered for a part: it is tried again, or the waybill ends with code 5 and its cause. -/
def execParkedBlockResume (id block : Nat) (declined : Bool) (s : State) : Host.Outcome State Fault Refusal :=
  .next (match findColl s id with
    | none => s
    | some c =>
      if c.aborted || !c.answers.contains (block, declined) then s
      else
        let cause := (mget c.waits block).getD 0
        let c1 := { c with answers := c.answers.erase (block, declined), waits := merase c.waits block }
        let s1 := setColl c1 s
        if !declined then resumePart c1 block s1
        else if block = endPart then forceComplete c1 s1
        else endColl id (collStatus 5 cause (c.self s)) s1)

end Sys2Proof.Machine
end

