-- ==== Sys2Proof/Machine/Dispatch.lean ====
section
/-! DEFINITION. One arm per constructor of Instr: each is one call of its meaning. -/

namespace Sys2Proof.Machine

def exec (i : Instr) (s : State) : Host.Outcome State Fault Refusal :=
  match i with
  | .nop => Sys2Proof.Machine.execNop s
  | .add x => Sys2Proof.Machine.execAdd x s
  | .sub x => Sys2Proof.Machine.execSub x s
  | .mul x => Sys2Proof.Machine.execMul x s
  | .mulh x => Sys2Proof.Machine.execMulh x s
  | .mulhu x => Sys2Proof.Machine.execMulhu x s
  | .div x => Sys2Proof.Machine.execDiv x s
  | .divu x => Sys2Proof.Machine.execDivu x s
  | .rem x => Sys2Proof.Machine.execRem x s
  | .remu x => Sys2Proof.Machine.execRemu x s
  | .and x => Sys2Proof.Machine.execAnd x s
  | .or x => Sys2Proof.Machine.execOr x s
  | .xor x => Sys2Proof.Machine.execXor x s
  | .andn x => Sys2Proof.Machine.execAndn x s
  | .shl x => Sys2Proof.Machine.execShl x s
  | .shr x => Sys2Proof.Machine.execShr x s
  | .sar x => Sys2Proof.Machine.execSar x s
  | .rot x => Sys2Proof.Machine.execRot x s
  | .min x => Sys2Proof.Machine.execMin x s
  | .max x => Sys2Proof.Machine.execMax x s
  | .minu x => Sys2Proof.Machine.execMinu x s
  | .maxu x => Sys2Proof.Machine.execMaxu x s
  | .set x => Sys2Proof.Machine.execSet x s
  | .sel x => Sys2Proof.Machine.execSel x s
  | .clz x => Sys2Proof.Machine.execClz x s
  | .ctz x => Sys2Proof.Machine.execCtz x s
  | .popc x => Sys2Proof.Machine.execPopc x s
  | .bfx x => Sys2Proof.Machine.execBfx x s
  | .bfi x => Sys2Proof.Machine.execBfi x s
  | .li x => Sys2Proof.Machine.execLi x s
  | .lpc x => Sys2Proof.Machine.execLpc x s
  | .jmpl x => Sys2Proof.Machine.execJmpl x s
  | .calll x => Sys2Proof.Machine.execCalll x s
  | .fadd x => Sys2Proof.Machine.execFadd x s
  | .fsub x => Sys2Proof.Machine.execFsub x s
  | .fmul x => Sys2Proof.Machine.execFmul x s
  | .fma x => Sys2Proof.Machine.execFma x s
  | .fdiv x => Sys2Proof.Machine.execFdiv x s
  | .fsqrt x => Sys2Proof.Machine.execFsqrt x s
  | .fmin x => Sys2Proof.Machine.execFmin x s
  | .fmax x => Sys2Proof.Machine.execFmax x s
  | .fset x => Sys2Proof.Machine.execFset x s
  | .fcvt x => Sys2Proof.Machine.execFcvt x s
  | .fclass x => Sys2Proof.Machine.execFclass x s
  | .fsgn x => Sys2Proof.Machine.execFsgn x s
  | .b x => Sys2Proof.Machine.execB x s
  | .bi x => Sys2Proof.Machine.execBi x s
  | .jmp t => Sys2Proof.Machine.execJmp t s
  | .call t => Sys2Proof.Machine.execCall t s
  | .jmpr a => Sys2Proof.Machine.execJmpr a s
  | .callr a => Sys2Proof.Machine.execCallr a s
  | .ret => Sys2Proof.Machine.execRet s
  | .strip x => Sys2Proof.Machine.execStrip x s
  | .vloopl x => Sys2Proof.Machine.execVloopl x s
  | .bm x => Sys2Proof.Machine.execBm x s
  | .ld x => Sys2Proof.Machine.execLd x s
  | .st x => Sys2Proof.Machine.execSt x s
  | .amo x => Sys2Proof.Machine.execAmo x s
  | .ldp x => Sys2Proof.Machine.execLdp x s
  | .stp x => Sys2Proof.Machine.execStp x s
  | .pam x => Sys2Proof.Machine.execPam x s
  | .fence x => Sys2Proof.Machine.execFence x s
  | .fsig x => Sys2Proof.Machine.execFsig x s
  | .bar => Sys2Proof.Machine.execBar s
  | .cbar x => Sys2Proof.Machine.execCbar x s
  | .wait x => Sys2Proof.Machine.execWait x s
  | .kadd x => Sys2Proof.Machine.execKadd x s
  | .qput x => Sys2Proof.Machine.execQput x s
  | .qget x => Sys2Proof.Machine.execQget x s
  | .launch x => Sys2Proof.Machine.execLaunch x s
  | .glaunch x => Sys2Proof.Machine.execGlaunch x s
  | .yield d => Sys2Proof.Machine.execYield d s
  | .exit => Sys2Proof.Machine.execExit s
  | .capture x => Sys2Proof.Machine.execCapture x s
  | .capref x => Sys2Proof.Machine.execCapref x s
  | .cdup d a => Sys2Proof.Machine.execCdup d a s
  | .cdrop a => Sys2Proof.Machine.execCdrop a s
  | .apply a => Sys2Proof.Machine.execApply a s
  | .applyq x => Sys2Proof.Machine.execApplyq x s
  | .cenv d k => Sys2Proof.Machine.execCenv d k s
  | .cld x => Sys2Proof.Machine.execCld x s
  | .cldR d a => Sys2Proof.Machine.execCldR d a s
  | .cst x => Sys2Proof.Machine.execCst x s
  | .cstR d c => Sys2Proof.Machine.execCstR d c s
  | .trap n => Sys2Proof.Machine.execTrap n s
  | .eret => Sys2Proof.Machine.execEret s
  | .csrr x => Sys2Proof.Machine.execCsrr x s
  | .csrw x => Sys2Proof.Machine.execCsrw x s
  | .csrs x => Sys2Proof.Machine.execCsrs x s
  | .csrc x => Sys2Proof.Machine.execCsrc x s
  | .tlbiAll => Sys2Proof.Machine.execTlbiAll s
  | .tlbiAsid b => Sys2Proof.Machine.execTlbiAsid b s
  | .tlbiVa x => Sys2Proof.Machine.execTlbiVa x s
  | .ctxsave x => Sys2Proof.Machine.execCtxsave x s
  | .ctxload x => Sys2Proof.Machine.execCtxload x s
  | .logctlSync x => Sys2Proof.Machine.execLogctlSync x s
  | .logctlMark x => Sys2Proof.Machine.execLogctlMark x s
  | .logctlSwap x => Sys2Proof.Machine.execLogctlSwap x s
  | .halt => Sys2Proof.Machine.execHalt s
  | .wfe x => Sys2Proof.Machine.execWfe x s
  | .vcfg x => Sys2Proof.Machine.execVcfg x s
  | .setvl x => Sys2Proof.Machine.execSetvl x s
  | .mcpt x => Sys2Proof.Machine.execMcpt x s
  | .mexp x => Sys2Proof.Machine.execMexp x s
  | .vadd x => Sys2Proof.Machine.execVadd x s
  | .vsub x => Sys2Proof.Machine.execVsub x s
  | .vmul x => Sys2Proof.Machine.execVmul x s
  | .vmulh x => Sys2Proof.Machine.execVmulh x s
  | .vmulhu x => Sys2Proof.Machine.execVmulhu x s
  | .vmacc x => Sys2Proof.Machine.execVmacc x s
  | .vdiv x => Sys2Proof.Machine.execVdiv x s
  | .vrem x => Sys2Proof.Machine.execVrem x s
  | .vand x => Sys2Proof.Machine.execVand x s
  | .vor x => Sys2Proof.Machine.execVor x s
  | .vxor x => Sys2Proof.Machine.execVxor x s
  | .vshl x => Sys2Proof.Machine.execVshl x s
  | .vshr x => Sys2Proof.Machine.execVshr x s
  | .vsar x => Sys2Proof.Machine.execVsar x s
  | .vmin x => Sys2Proof.Machine.execVmin x s
  | .vmax x => Sys2Proof.Machine.execVmax x s
  | .vminu x => Sys2Proof.Machine.execVminu x s
  | .vmaxu x => Sys2Proof.Machine.execVmaxu x s
  | .vadds x => Sys2Proof.Machine.execVadds x s
  | .vsubs x => Sys2Proof.Machine.execVsubs x s
  | .vabs x => Sys2Proof.Machine.execVabs x s
  | .vcmp x => Sys2Proof.Machine.execVcmp x s
  | .vsel x => Sys2Proof.Machine.execVsel x s
  | .vclz x => Sys2Proof.Machine.execVclz x s
  | .vpopc x => Sys2Proof.Machine.execVpopc x s
  | .vfadd x => Sys2Proof.Machine.execVfadd x s
  | .vfsub x => Sys2Proof.Machine.execVfsub x s
  | .vfmul x => Sys2Proof.Machine.execVfmul x s
  | .vfma x => Sys2Proof.Machine.execVfma x s
  | .vfdiv x => Sys2Proof.Machine.execVfdiv x s
  | .vfsqrt x => Sys2Proof.Machine.execVfsqrt x s
  | .vfmin x => Sys2Proof.Machine.execVfmin x s
  | .vfmax x => Sys2Proof.Machine.execVfmax x s
  | .vfcmp x => Sys2Proof.Machine.execVfcmp x s
  | .vfrcp x => Sys2Proof.Machine.execVfrcp x s
  | .vfrsq x => Sys2Proof.Machine.execVfrsq x s
  | .vfexp2 x => Sys2Proof.Machine.execVfexp2 x s
  | .vflog2 x => Sys2Proof.Machine.execVflog2 x s
  | .vfsgn x => Sys2Proof.Machine.execVfsgn x s
  | .vfclass x => Sys2Proof.Machine.execVfclass x s
  | .vcvt x => Sys2Proof.Machine.execVcvt x s
  | .vpk4 x => Sys2Proof.Machine.execVpk4 x s
  | .vupk4 x => Sys2Proof.Machine.execVupk4 x s
  | .vscl x => Sys2Proof.Machine.execVscl x s
  | .vred x => Sys2Proof.Machine.execVred x s
  | .vfred x => Sys2Proof.Machine.execVfred x s
  | .vscan x => Sys2Proof.Machine.execVscan x s
  | .vfscan x => Sys2Proof.Machine.execVfscan x s
  | .vslup x => Sys2Proof.Machine.execVslup x s
  | .vsldn x => Sys2Proof.Machine.execVsldn x s
  | .vgath x => Sys2Proof.Machine.execVgath x s
  | .vcomp x => Sys2Proof.Machine.execVcomp x s
  | .vexpd x => Sys2Proof.Machine.execVexpd x s
  | .vbshl x => Sys2Proof.Machine.execVbshl x s
  | .vbshr x => Sys2Proof.Machine.execVbshr x s
  | .vfnl x => Sys2Proof.Machine.execVfnl x s
  | .vmvs x => Sys2Proof.Machine.execVmvs x s
  | .vmvx x => Sys2Proof.Machine.execVmvx x s
  | .vid x => Sys2Proof.Machine.execVid x s
  | .vrev x => Sys2Proof.Machine.execVrev x s
  | .mand x => Sys2Proof.Machine.execMand x s
  | .mor x => Sys2Proof.Machine.execMor x s
  | .mxor x => Sys2Proof.Machine.execMxor x s
  | .mnot x => Sys2Proof.Machine.execMnot x s
  | .mandn x => Sys2Proof.Machine.execMandn x s
  | .mpop x => Sys2Proof.Machine.execMpop x s
  | .mfirst x => Sys2Proof.Machine.execMfirst x s
  | .vspush x => Sys2Proof.Machine.execVspush x s
  | .vspop x => Sys2Proof.Machine.execVspop x s
  | .vchain x => Sys2Proof.Machine.execVchain x s
  | .vld x => Sys2Proof.Machine.execVld x s
  | .vlds x => Sys2Proof.Machine.execVlds x s
  | .vldg x => Sys2Proof.Machine.execVldg x s
  | .vldx x => Sys2Proof.Machine.execVldx x s
  | .vst x => Sys2Proof.Machine.execVst x s
  | .vsts x => Sys2Proof.Machine.execVsts x s
  | .vstg x => Sys2Proof.Machine.execVstg x s
  | .vstx x => Sys2Proof.Machine.execVstx x s
  | .vstxa x => Sys2Proof.Machine.execVstxa x s
  | .vldt x => Sys2Proof.Machine.execVldt x s
  | .vstt x => Sys2Proof.Machine.execVstt x s
  | .pdot x => Sys2Proof.Machine.execPdot x s
  | .acfg x => Sys2Proof.Machine.execAcfg x s
  | .arel d => Sys2Proof.Machine.execArel d s
  | .azero d => Sys2Proof.Machine.execAzero d s
  | .mma x => Sys2Proof.Machine.execMma x s
  | .ald x => Sys2Proof.Machine.execAld x s
  | .ast x => Sys2Proof.Machine.execAst x s
  | .arow x => Sys2Proof.Machine.execArow x s
  | .tlook x => Sys2Proof.Machine.execTlook x s
  | .ttag x => Sys2Proof.Machine.execTtag x s
  | .tfill x => Sys2Proof.Machine.execTfill x s
  | .tdrain x => Sys2Proof.Machine.execTdrain x s
  | .twait x => Sys2Proof.Machine.execTwait x s
  | .trel a => Sys2Proof.Machine.execTrel a s
  | .tstat x => Sys2Proof.Machine.execTstat x s
  | .cpy x => Sys2Proof.Machine.execCpy x s
  | .cpy2 x => Sys2Proof.Machine.execCpy2 x s
  | .cstat x => Sys2Proof.Machine.execCstat x s
  | .munion x => Sys2Proof.Machine.execMunion x s
  | .minter x => Sys2Proof.Machine.execMinter x s
  | .mcount x => Sys2Proof.Machine.execMcount x s
  | .dopen x => Sys2Proof.Machine.execDopen x s
  | .stow x => Sys2Proof.Machine.execStow x s
  | .dseal x => Sys2Proof.Machine.execDseal x s
  | .dquery x => Sys2Proof.Machine.execDquery x s
  | .reservedEncoding w => Sys2Proof.Machine.execReservedEncoding w s
  | .qgetWake g => Sys2Proof.Machine.execQgetWake g s
  | .qputWake g => Sys2Proof.Machine.execQputWake g s
  | .waitWake g => Sys2Proof.Machine.execWaitWake g s
  | .wfeWake g => Sys2Proof.Machine.execWfeWake g s
  | .wfeTimeout g => Sys2Proof.Machine.execWfeTimeout g s
  | .vspushWake g => Sys2Proof.Machine.execVspushWake g s
  | .vspopWake g => Sys2Proof.Machine.execVspopWake g s
  | .tileStallRelease g => Sys2Proof.Machine.execTileStallRelease g s
  | .convoyDeadlock cv => Sys2Proof.Machine.execConvoyDeadlock cv s
  | .mmaComplete g => Sys2Proof.Machine.execMmaComplete g s
  | .pdotComplete g => Sys2Proof.Machine.execPdotComplete g s
  | .nearBankAgeing g => Sys2Proof.Machine.execNearBankAgeing g s
  | .fillChunkComplete core id chunk => Sys2Proof.Machine.execFillChunkComplete core id chunk s
  | .transferComplete core id => Sys2Proof.Machine.execTransferComplete core id s
  | .transferFailure core id cause addr => Sys2Proof.Machine.execTransferFailure core id cause addr s
  | .engineFaultAnswer vdev tag declined => Sys2Proof.Machine.execEngineFaultAnswer vdev tag declined s
  | .postedClosureStart core => Sys2Proof.Machine.execPostedClosureStart core s
  | .hartEnd g => Sys2Proof.Machine.execHartEnd g s
  | .dispatchPlace => Sys2Proof.Machine.execDispatchPlace s
  | .preEmption cv => Sys2Proof.Machine.execPreEmption cv s
  | .restore cv => Sys2Proof.Machine.execRestore cv s
  | .orderLogEntryFill ctx order => Sys2Proof.Machine.execOrderLogEntryFill ctx order s
  | .hostLaunchWrite fn q packet => Sys2Proof.Machine.execHostLaunchWrite fn q packet s
  | .heldPacketEnqueue q => Sys2Proof.Machine.execHeldPacketEnqueue q s
  | .hostBar4Read fn off len => Sys2Proof.Machine.execHostBar4Read fn off len s
  | .hostBar4Write fn off data => Sys2Proof.Machine.execHostBar4Write fn off data s
  | .createContext fn => Sys2Proof.Machine.execCreateContext fn s
  | .bindQueue fn => Sys2Proof.Machine.execBindQueue fn s
  | .grantRegion fn => Sys2Proof.Machine.execGrantRegion fn s
  | .killContext fn => Sys2Proof.Machine.execKillContext fn s
  | .invalidate fn => Sys2Proof.Machine.execInvalidate fn s
  | .readHart fn => Sys2Proof.Machine.execReadHart fn s
  | .resumeHart fn => Sys2Proof.Machine.execResumeHart fn s
  | .cacheFloor fn => Sys2Proof.Machine.execCacheFloor fn s
  | .assignCluster fn => Sys2Proof.Machine.execAssignCluster fn s
  | .powerLimit fn => Sys2Proof.Machine.execPowerLimit fn s
  | .commandDone fn => Sys2Proof.Machine.execCommandDone fn s
  | .discardReset fn q => Sys2Proof.Machine.execDiscardReset fn q s
  | .registerWrite fn x data => Sys2Proof.Machine.execRegisterWrite fn x data s
  | .spdmGetVersion => Sys2Proof.Machine.execSpdmGetVersion s
  | .spdmGetCapabilities => Sys2Proof.Machine.execSpdmGetCapabilities s
  | .spdmNegotiateAlgorithms => Sys2Proof.Machine.execSpdmNegotiateAlgorithms s
  | .spdmGetDigests => Sys2Proof.Machine.execSpdmGetDigests s
  | .spdmGetCertificate slot => Sys2Proof.Machine.execSpdmGetCertificate slot s
  | .spdmChallenge slot nonce => Sys2Proof.Machine.execSpdmChallenge slot nonce s
  | .spdmGetMeasurements nonce => Sys2Proof.Machine.execSpdmGetMeasurements nonce s
  | .spdmUnsupported code => Sys2Proof.Machine.execSpdmUnsupported code s
  | .packageReset => Sys2Proof.Machine.execPackageReset s
  | .bootPhaseAdvance failure => Sys2Proof.Machine.execBootPhaseAdvance failure s
  | .idleEntry => Sys2Proof.Machine.execIdleEntry s
  | .idleWake => Sys2Proof.Machine.execIdleWake s
  | .powerRemoved => Sys2Proof.Machine.execPowerRemoved s
  | .thermalTrip => Sys2Proof.Machine.execThermalTrip s
  | .clockStep up => Sys2Proof.Machine.execClockStep up s
  | .registerEccError site uncorrectable => Sys2Proof.Machine.execRegisterEccError site uncorrectable s
  | .dramEccError granule uncorrectable => Sys2Proof.Machine.execDramEccError granule uncorrectable s
  | .dramScrub core bank => Sys2Proof.Machine.execDramScrub core bank s
  | .verticalLinkFailure core g elem addr => Sys2Proof.Machine.execVerticalLinkFailure core g elem addr s
  | .translationReturn n => Sys2Proof.Machine.execTranslationReturn n s
  | .portDown port => Sys2Proof.Machine.execPortDown port s
  | .fabricPacketArrival p => Sys2Proof.Machine.execFabricPacketArrival p s
  | .switchMarkerArrival src oldPlane newPlane last => Sys2Proof.Machine.execSwitchMarkerArrival src oldPlane newPlane last s
  | .fabricAck id cause => Sys2Proof.Machine.execFabricAck id cause s
  | .remoteResponse id r => Sys2Proof.Machine.execRemoteResponse id r s
  | .fabricItemTimeout id => Sys2Proof.Machine.execFabricItemTimeout id s
  | .gangReserve issuer gang fcid queue member packet idx => Sys2Proof.Machine.execGangReserve issuer gang fcid queue member packet idx s
  | .gangAck gang member => Sys2Proof.Machine.execGangAck gang member s
  | .gangBegin issuer gang => Sys2Proof.Machine.execGangBegin issuer gang s
  | .gangTimeout gang => Sys2Proof.Machine.execGangTimeout gang s
  | .gangAbort issuer gang => Sys2Proof.Machine.execGangAbort issuer gang s
  | .gangMemberFailure gang member killed => Sys2Proof.Machine.execGangMemberFailure gang member killed s
  | .gangKill issuer gang => Sys2Proof.Machine.execGangKill issuer gang s
  | .depotEraseDone region ok => Sys2Proof.Machine.execDepotEraseDone region ok s
  | .stowUnitDone region r => Sys2Proof.Machine.execStowUnitDone region r s
  | .depotSealDone region ok => Sys2Proof.Machine.execDepotSealDone region ok s
  | .depotCommandComplete region => Sys2Proof.Machine.execDepotCommandComplete region s
  | .stagingLineFill line flashError => Sys2Proof.Machine.execStagingLineFill line flashError s
  | .cacheRepartition => Sys2Proof.Machine.execCacheRepartition s
  | .ringVisit ctx ring => Sys2Proof.Machine.execRingVisit ctx ring s
  | .waybillMatch id peers => Sys2Proof.Machine.execWaybillMatch id peers s
  | .slotRequest id x r => Sys2Proof.Machine.execSlotRequest id x r s
  | .slotGrant id x => Sys2Proof.Machine.execSlotGrant id x s
  | .blockPush id block => Sys2Proof.Machine.execBlockPush id block s
  | .switchFold tier switch slot e => Sys2Proof.Machine.execSwitchFold tier switch slot e s
  | .blockPull id block data => Sys2Proof.Machine.execBlockPull id block data s
  | .parkedBlockResume id block declined => Sys2Proof.Machine.execParkedBlockResume id block declined s
  | .waybillComplete id => Sys2Proof.Machine.execWaybillComplete id s
  | .collectivePlaneLost id => Sys2Proof.Machine.execCollectivePlaneLost id s
  | .collectivePeerFailed id peer => Sys2Proof.Machine.execCollectivePeerFailed id peer s
  | .engineTranslationFault core id => Sys2Proof.Machine.execEngineTranslationFault core id s
  | .tlbParityError core index => Sys2Proof.Machine.execTlbParityError core index s
  | .class0MeteringWindow core => Sys2Proof.Machine.execClass0MeteringWindow core s

end Sys2Proof.Machine
end

