-- ==== Sys2Proof/Machine/Agenda.lean ====
section
/-! DEFINITION. What the other agents do next (log 1), which hart executes next (R243, log 12), and the passing of
time. -/

namespace Sys2Proof.Machine

/-! ### Steps of the other agents -/

/-- Is this row of the table a step of another agent, and not a hart's instruction? -/
def isEvent : Instr → Bool
  | .qgetWake _ | .qputWake _ | .waitWake _ | .wfeWake _ | .wfeTimeout _ | .vspushWake _ | .vspopWake _
  | .tileStallRelease _ | .convoyDeadlock _ | .mmaComplete _ | .pdotComplete _ | .nearBankAgeing _
  | .fillChunkComplete _ _ _ | .transferComplete _ _ | .transferFailure _ _ _ _ | .engineFaultAnswer _ _ _
  | .postedClosureStart _ | .hartEnd _ | .dispatchPlace | .preEmption _ | .restore _ | .orderLogEntryFill _ _
  | .hostLaunchWrite _ _ _ | .heldPacketEnqueue _ | .hostBar4Read _ _ _ | .hostBar4Write _ _ _ | .createContext _
  | .bindQueue _ | .grantRegion _ | .killContext _ | .invalidate _ | .readHart _ | .resumeHart _ | .cacheFloor _
  | .assignCluster _ | .powerLimit _ | .commandDone _ | .discardReset _ _ | .registerWrite _ _ _ | .spdmGetVersion
  | .spdmGetCapabilities | .spdmNegotiateAlgorithms | .spdmGetDigests | .spdmGetCertificate _ | .spdmChallenge _ _
  | .spdmGetMeasurements _ | .spdmUnsupported _ | .packageReset | .bootPhaseAdvance _ | .idleEntry | .idleWake
  | .powerRemoved | .thermalTrip | .clockStep _ | .registerEccError _ _ | .dramEccError _ _ | .dramScrub _ _
  | .verticalLinkFailure _ _ _ _ | .translationReturn _ | .portDown _ | .fabricPacketArrival _
  | .switchMarkerArrival _ _ _ _ | .fabricAck _ _ | .remoteResponse _ _ | .fabricItemTimeout _
  | .gangReserve _ _ _ _ _ _ _ | .gangAck _ _ | .gangBegin _ _ | .gangTimeout _ | .gangAbort _ _
  | .gangMemberFailure _ _ _ | .gangKill _ _ | .depotEraseDone _ _ | .stowUnitDone _ _ | .depotSealDone _ _
  | .depotCommandComplete _ | .stagingLineFill _ _ | .cacheRepartition | .ringVisit _ _ | .waybillMatch _ _
  | .slotRequest _ _ _ | .slotGrant _ _ | .blockPush _ _ | .switchFold _ _ _ _ | .blockPull _ _ _
  | .parkedBlockResume _ _ _ | .waybillComplete _ | .collectivePlaneLost _ | .collectivePeerFailed _ _
  | .engineTranslationFault _ _ | .tlbParityError _ _ | .class0MeteringWindow _ => true
  | _ => false

/-- Does the step apply power and PERST#? -/
def isReset : Instr → Bool
  | .packageReset => true
  | _ => false

/-! ### Steps that the package can take by itself -/

/-- A step: the meaning of a row of the table with its arguments. -/
abbrev Act := State → Host.Outcome State Fault Refusal

/-- Wakes and completions at a resident hart. -/
def hartSteps (s : State) (g : Nat) (h : Hart) : List Act :=
  let waits := match h.status with
    | .waiting i => match i with
      | .qget _ => [execQgetWake g]
      | .qput _ => [execQputWake g]
      | .wait _ => [execWaitWake g]
      | .wfe _ => [execWfeWake g, execWfeTimeout g]
      | .vspush _ => [execVspushWake g]
      | .vspop _ => [execVspopWake g]
      | .pdot _ => [execPdotComplete g]
      | _ => []
    | .ending _ _ => [execHartEnd g]
    | _ => []
  let lost := if h.status = .running then [] else
    match lowestParticipant s h.convoy with
    | some l => if l = g ∧ h.waitsAt.isSome then [execConvoyDeadlock h.convoy] else []
    | none => []
  let ages := if h.stamp + ageLimit ≤ s.now ∧ !h.aged then [execNearBankAgeing g] else []
  (if h.mma.isEmpty then [] else [execMmaComplete g]) ++ waits ++ lost ++ ages

/-- Steps of the copy engine for a transfer. -/
def transferSteps (s : State) (core : Nat) (t : Transfer) : List Act :=
  let fails := match transferFails s core t with
    | some (f, _) => [execTransferFailure core t.id f.1 f.2]
    | none => []
  let ends := match t.failed with
    | some f => [execTransferFailure core t.id f.1 f.2]
    | none => []
  let soft := if t.fault.isNone ∧ (transferSoft s core t).isSome then [execEngineTranslationFault core t.id] else []
  let chunks := (t.nextChunk.toList ++ t.acks).map fun c => execFillChunkComplete core t.id c
  fails ++ ends ++ soft ++ chunks ++ [execTransferComplete core t.id]

def coreSteps (s : State) (n : Nat) (c : Core) : List Act :=
  c.transfers.flatMap (transferSteps s n) ++ (if c.posts.isEmpty then [] else [execPostedClosureStart n])

def contextSteps (s : State) (n : Nat) (c : Context) : List Act :=
  (if c.route.pending.isEmpty then [] else [execOrderLogEntryFill n false])
    ++ (if c.order.pending.isEmpty then [] else [execOrderLogEntryFill n true])
    ++ (if c.saved && !c.posts.isEmpty then
      ((List.range 256).filter fun k => (s.clusterOf (k / 8)).vdev == some c.vdev).map execPostedClosureStart else [])

/-- Steps of the depot interface: every erase, unit and seal succeeds unless the agenda says otherwise. -/
def regionSteps (r : Nat) (x : Region) : List Act :=
  let head := match x.cmds with
    | d :: _ => if d.begun ∧ d.code.isNone then
        match d.kind with
        | .dopen => [execDepotEraseDone r true]
        | .stow => [execStowUnitDone r .done, execStowUnitDone r .sourceFault]
        | .dseal => [execDepotSealDone r true]
      else if d.code.isSome then [execDepotCommandComplete r] else []
    | [] => []
  head ++ if x.busyDone.isEmpty then [] else [execDepotCommandComplete r]

/-- The command at the package controller. -/
def commandSteps : List Command → List Act
  | [] => []
  | c :: _ =>
    match c.code with
    | some _ => [execCommandDone c.fn]
    | none =>
      match c.op.toNat with
      | 1 => [execCreateContext c.fn]
      | 2 => [execBindQueue c.fn]
      | 3 => [execGrantRegion c.fn]
      | 4 => [execKillContext c.fn]
      | 5 => [execInvalidate c.fn]
      | 6 => [execReadHart c.fn]
      | 7 => [execResumeHart c.fn]
      | 8 => [execCacheFloor c.fn]
      | 9 => [execAssignCluster c.fn]
      | 10 => [execPowerLimit c.fn]
      | _ => []

/-- Steps of the dispatcher: placing and restoring, and pre-empting when a convoy waits. -/
def dispatchSteps (s : State) : List Act :=
  let held := (s.queues.filter fun q => !q.2.held.isEmpty).map fun q => execHeldPacketEnqueue q.1
  if (s.queues.all fun q => q.2.entries.isEmpty) && s.convoys.all fun c => c.2.record.isNone then held
  else
    let place := match nextPlaced s with
      | some (.queue _ _, _, _) => [execDispatchPlace]
      | some (.out u _, _, _) => [execRestore u]
      | none => if (fullLogs s).isEmpty then [] else [execDispatchPlace]
    let leave := (nextToLeave s).toList.map execPreEmption
    let full := ((s.convoys.map Prod.fst).filter fun u =>
      !knowsFull s (s.convoyOf u).ctx && wouldLeave s u).map execPreEmption
    held ++ place ++ leave ++ full

/-- Arrivals, answers and time limits of the fabric; what the package sends to itself arrives. -/
def fabricSteps (s : State) : List Act :=
  let own := (s.items.filter fun i => i.dst == s.package && !i.unsent && !i.answered).filter fun i =>
    let p := packetOf s i
    !atHand s p && (answeredAs s p).isNone
  let back := s.sent.filterMap fun m => match m with
    | .answer d p q a =>
      if d = s.package then (s.items.find? fun i => i.dst == d && i.plane == p && i.seq == q && !i.unsent).map fun i =>
        match a with
        | .ack c => execFabricAck i.id c
        | .response r => execRemoteResponse i.id r
      else none
    | .marker d o n l => if d = s.package then some (execSwitchMarkerArrival d o n l) else none
    | _ => none
  (own.map fun i => execFabricPacketArrival (packetOf s i)) ++ back
    ++ (List.range s.arrivals.length).map execTranslationReturn ++ s.items.map fun i => execFabricItemTimeout i.id

/-- Messages of gangs to the package itself, and the issuer's time limit. -/
def gangSteps (s : State) : List Act :=
  let own := s.sent.filterMap fun m => match m with
    | .reserve d g k => if d = s.package then (findGang s g).map fun x =>
        execGangReserve d g (s.ctxOf x.ctx).fcid x.queue k x.packet x.idx else none
    | .gangAck d g k => if d = s.package then some (execGangAck g k) else none
    | .begin_ d g => if d = s.package then some (execGangBegin d g) else none
    | .abort d g => if d = s.package then some (execGangAbort d g) else none
    | .kill d g => if d = s.package then some (execGangKill d g) else none
    | _ => none
  let lost := s.gangs.flatMap fun g => (failedMembers s g).map fun m => execGangMemberFailure g.id m.1 m.2
  own ++ lost ++ (s.gangs.filter fun g => !g.begun).map fun g => execGangTimeout g.id

/-- The blocks that the steps of a collective leave at this member. -/
def stepBlocks (s : State) (c : Coll) : List StepBlock :=
  (List.range (Waybill.lastStep c.wb + 1)).flatMap fun j =>
    (List.range (Waybill.piecesAt c.wb (Waybill.after c.wb j) (c.self s))).map fun b => ⟨j, b⟩

/-- Steps of a collective that need no other member. -/
def collSteps (s : State) (c : Coll) : List Act :=
  let waits := s.slotWaits.filter fun w => w.owner == c.id
  (c.answers.map fun a => execParkedBlockResume c.id a.1 a.2) ++ (waits.map fun w => execSlotGrant c.id w.at_) ++
  if c.aborted || (c.outcome.isSome && !c.done) then [execWaybillComplete c.id]
  else
    (if c.matched && !s.planes.getLsbD c.plane then [execCollectivePlaneLost c.id] else [])
      ++ (if !c.matched && c.table == [s.package] then [execWaybillMatch c.id []] else [])
      ++ (if !c.matched then [] else
        (((List.range (Waybill.pieces c.wb (Waybill.slay c.wb))).find? c.unread).toList.map fun b =>
            execBlockPush c.id ⟨0, b⟩)
          ++ ((c.laterPushes s).map fun x => execBlockPush c.id x)
          ++ (((stepBlocks s c).find? fun x => c.owed s x && ownBlock s c x).toList.map
            fun x => execBlockPull c.id x (List.replicate (stepLen s c x) 0))
          ++ ((stepBlocks s c).filterMap fun x => (topSlot s c x).map fun y => execBlockPull c.id x (slotResult s c y))
          ++ [execWaybillComplete c.id])

/-- The ring that the exchange engines visit now: one at every other step (log 12). -/
def ringSteps (s : State) : List Act :=
  if s.visit % 2 = 1 then []
  else match s.contexts[s.visit / 128 % max 1 s.contexts.length]? with
  | some (ctx, _) => [execRingVisit ctx (s.visit / 2 % 64)]
  | none => []

/-- Every step that the package may take by itself next, in order of preference. -/
def ownSteps (s : State) : List Act :=
  if s.bootPhase < 5 then (if s.bootFail = 0 then [execBootPhaseAdvance 0] else [])
  else
    commandSteps s.commands ++ s.harts.flatMap (fun h => hartSteps s h.1 h.2)
      ++ s.cores.flatMap (fun c => coreSteps s c.1 c.2) ++ s.contexts.flatMap (fun c => contextSteps s c.1 c.2)
      ++ s.regions.flatMap (fun r => regionSteps r.1 r.2) ++ s.staging.wanted.map (fun l => execStagingLineFill l false)
      ++ fabricSteps s ++ gangSteps s ++ s.colls.flatMap (collSteps s) ++ ringSteps s ++ dispatchSteps s
      ++ (s.lates.map fun l => execHartEnd (2048 + l.id))
      ++ (if s.dividedAt + divideEvery ≤ s.now then [execCacheRepartition] else [])
      ++ (if s.harts.isEmpty then [execIdleEntry] else [])

/-- Does the step change anything? -/
def changes (s : State) (a : Act) : Bool :=
  match a s with
  | .next t => t != s
  | _ => false

/-- The step that the package takes by itself next. -/
def nextOwn (s : State) : Option Act := (ownSteps s).find? (changes s)

/-! ### Harts -/

/-- May the hart's unit be executed: it runs, or it is held and is tried again. -/
def Hart.runnable (h : Hart) : Bool := h.status = .running ∨ h.status = .stalled

/-- Does the hart admit units: one whose convoy is leaving its core only the unit that must finish (R248)? -/
def admits (s : State) (g : Nat) (h : Hart) : Bool := !(s.convoyOf h.convoy).leaving || mustFinish s g h

/-- The next hart, in round-robin order from `turn` on. -/
def nextHart (s : State) : Option Nat :=
  let gs := (s.harts.filter fun p => p.2.runnable && admits s p.1 p.2).map Prod.fst
  match gs.find? fun g => decide (s.turn ≤ g) with
  | some g => some g
  | none => gs.head?

/-- Execute what stands at a hart's pc: an instruction, a pair, or a fault of the line (R60 to R66). -/
def runUnitAt (s : State) : Host.Outcome State Fault Refusal :=
  match fetchUnit s with
  | (.one i, t) => exec i t
  | (.pair i j, t) => .next (runPair i j t)
  | (.bad c paired addr, t) =>
    let trap := if addr then fetchTrap c (lineOf t.hart.pc) else { cause := c }
    .next (t.setHart (takeTrap trap paired t.hart.pc t.hart))

/-! ### Time -/

/-- Time passes: at least one clock of the active package (R25, R362, log 5); 1 ns where none is counted. -/
def tick (s : State) : State :=
  let n := 1 + Config.freeClocks s.freeCount
  let active := s.power == .active
  let now := s.now + if active then n * 1000000 / s.clockMHz else 1000
  { s with
    freeCount := s.freeCount + 1
    cycle := if active then s.cycle + BitVec.ofNat 64 n else s.cycle
    now := now
    visit := s.visit + 1
    activeAt := if s.atWork then now else s.activeAt }

/-- A step is followed by the passing of time. -/
def ticked : Host.Outcome State Fault Refusal → Host.Outcome State Fault Refusal
  | .next s => .next (tick s)
  | o => o

/-! ### Placing an instruction (log 2) -/

/-- Where `withFetchWord` puts its line: a page of core 0's vault, at the same virtual address. -/
def codePage : Nat := 0x10000

/-- A line of five words: slot 0 may be entered, and the parities are right (R60, R61). -/
def lineOfWords (ws : List Nat) : Nat :=
  let w (j : Nat) := ws.getD j 0 % 2 ^ 96
  let sp := ((List.range 5).map fun j => b2n (oddBits 96 (w j)) * 2 ^ (13 + j)).sum
  let lw := sp + 2 ^ 22
  let lw := lw + b2n (oddBits 32 lw) * 2 ^ 12
  ((List.range 5).map fun j => w j * 2 ^ (96 * j)).sum + lw * 2 ^ 480

/-- The leaf of a 4 KiB page of a vault, open to every access of the user view (R301). -/
def openLeaf (a : Nat) : Word := BitVec.ofNat 64 (a + 0x3F)

/-- A package in phase 5 with one context, one convoy of one hart on core 0, whose pc is at an instruction: what a load
of the program and the placement of its convoy have done. -/
def placed (s : State) (line : Nat) : State :=
  let mem := memWriteBytes s.mem codePage (toBytes 64 line)
  { s with
    agenda := [], cur := 0, turn := 0, power := .active, bootPhase := 5, bootFail := 0
    contexts := [(0, { Context.reset with ptbase := BitVec.ofNat 64 (2 ^ 38) })]
    cores := [(0, { Core.reset with tlb := [⟨0, codePage, openLeaf codePage⟩] })]
    convoys := [(0, { Convoy.reset with members := [(0, 0)], core := some 0 })]
    harts := [(0, { Hart.reset with pc := BitVec.ofNat 64 codePage, code := mem })]
    mem := mem
    poison := s.poison.filter fun g => !(g == codePage / 32 || g == codePage / 32 + 1)
    staging := { s.staging with wanted := [] }
    commands := [], queues := [], regions := [], items := [], arrivals := [], sent := [], gangs := [], parts := []
    colls := [], lates := [], visit := 1, dividedAt := s.now }

end Sys2Proof.Machine
end

