-- ==== Sys2Proof/Machine/Step.lean ====
section
/-! DEFINITION. One step of the package: the next step of the agenda, or one that the package takes by itself, or one unit
of a hart, or the passing of time. -/

namespace Sys2Proof.Machine

/-- One unit of the next hart; with none, time passes. -/
def stepHart (s : State) : Host.Outcome State Fault Refusal :=
  match nextHart s with
  | none => .next (tick s)
  | some g => ticked (runUnitAt { s with cur := g, turn := g + 1 })

/-- A step (log 1). An unpowered package only waits for its reset. -/
def step (s : State) : Host.Outcome State Fault Refusal :=
  match s.agenda with
  | e :: rest =>
    if s.power = .off ∧ !isReset e then .fault .powerOff
    else if isEvent e then ticked (exec e { s with agenda := rest })
    else stepHart { s with agenda := rest }
  | [] =>
    if s.power = .off then .fault .powerOff
    else match nextOwn s with
      | some act => ticked (act s)
      | none => stepHart s

/-- `s` with an instruction where `step` fetches its next one. -/
def State.withFetchWord (s : State) (nbits w : Nat) : State :=
  let v := w % 2 ^ nbits
  placed s (lineOfWords [v % 2 ^ 96, v / 2 ^ 96])

end Sys2Proof.Machine
end

