-- ==== Sys2Proof/Safety.lean ====
section
/-! DEFINITION. What a safe run keeps, and the words in which claims are stated. -/

namespace Sys2Proof.Machine

/-! ### Runs -/

/-- Memory stands in its canonical form: keys strictly rising, and no byte that reads as an unlisted one does. -/
def State.memOk (s : State) : Prop := memWf s.mem = true

/-- s0 holds zero in every hart (R10). -/
def State.zeroOk (s : State) : Prop := ∀ p ∈ s.harts, p.2.s[0] = 0

/-- A step goes on: it neither stops with a fault nor refuses. -/
def State.goesOn (s : State) : Prop := ∃ t, step s = .next t

/-- The states that a state leads to. -/
inductive State.Leads : State → State → Prop where
  | here (s : State) : State.Leads s s
  | next (s t u : State) : State.Leads s t → step t = .next u → State.Leads s u

/-- The current hart is there. -/
abbrev State.live (s : State) : Prop := (mget s.harts s.cur).isSome = true

/-! ### Operands of the current hart -/

/-- A scalar register can be read: it is s0 or not poisoned (R10, R160). -/
def State.canRead (s : State) (r : SReg) : Bool := r == 0 || !poisoned s.hart (isScalarSite r)

/-- What a scalar register reads as (R10). -/
def State.reg (s : State) (r : SReg) : Word := if r = 0 then 0 else s.hart.s[r]

/-- Operand B of a scalar instruction can be read. -/
def State.canReadSrc (s : State) : Src → Bool
  | .reg r => s.canRead r
  | .imm _ => true

/-- Operand B of a scalar instruction: s[B], or IMM sign-extended (R68). -/
def State.src (s : State) : Src → Word
  | .reg r => s.reg r
  | .imm i => simm i

/-- Operand B where IMM is zero-extended (R116, R121, R215, R216). -/
def State.srcZ (s : State) : Src → Word
  | .reg r => s.reg r
  | .imm i => i.zeroExtend 64

/-- A register as a scalar of a floating format: the bits above it are ignored (R10). -/
def State.freg (s : State) (t : EType) (r : SReg) : Nat := (s.reg r).toNat % 2 ^ tBits t

/-- Operand B of a scalar floating instruction, with the flags of an immediate's conversion (R68). -/
def State.fsrc (s : State) (t : EType) : Src → Nat × Flags
  | .reg r => (s.freg t r, 0)
  | .imm i => fpImm t s.hart.mode_ i

/-- A closure register can be read (R160). -/
def State.canReadC (s : State) (r : CName) : Bool := !poisoned s.hart (isClosureSite r)

/-- No register word of the current hart is poisoned (R160). -/
abbrev State.clean (s : State) : Prop := s.hart.poison = []

/-- A transfer to `target` finds its line and, where one is needed, its BT bit (R63); `t` is the state once its page has
been translated. -/
def State.reaches (s : State) (target : Word) (bt : Bool) (t : State) : Prop := checkTarget target bt s = .ok () t

/-- A transfer to `target` meets illegal branch target (R35, R63): its bits 5:3 are set or its slot is above 4, or its
line is found and the BT bit that it needs is clear, or without that need it names the second slot of a pair; `t` is
the state once its page has been translated. -/
def State.refuses (s : State) (target : Word) (bt : Bool) (t : State) : Prop :=
  let misformed := (target >>> 3) &&& 7 ≠ 0 ∨ 4 < (target &&& 7).toNat
  let slot := (target &&& 7).toNat
  (misformed ∧ t = s) ∨ (¬misformed ∧ ∃ l, fetchLine (lineOf target) s = .ok l t
    ∧ if bt then bit (lineWord t.hart l) (22 + slot) = false else 0 < slot ∧ bit (lineWord t.hart l) (17 + slot) = true)

/-- The counts of a loop register less 1 at the active elements, and the mask without those that reach 0 (R106). -/
def State.looped (s : State) (x : VLoop) : Hart :=
  let ewb := s.convoy.ewBytes
  let count (h : Hart) (i : Nat) : Hart :=
    let n := h.elem x.a (8 * ewb) i
    let h' := if n = 0 then h else h.setElem x.a (8 * ewb) i (n - 1)
    if n ≤ 1 then h'.setMaskBit x.c i false else h'
  ((List.range s.hart.csr.vl).filter (fun i => (s.hart.mask ewb x.c).active ewb i)).foldl count (s.hart.expandMask ewb x.c)

/-- Is a mask bit of the loop left (R106)? -/
def State.loopsOn (s : State) (x : VLoop) : Bool :=
  (List.range s.hart.csr.vl).any fun i => ((s.looped x).mask s.convoy.ewBytes x.c).active s.convoy.ewBytes i

/-- The state after an operation that always ends well. -/
def State.after {α : Type} (s : State) (op : M α) : State :=
  match op s with
  | .ok _ t => t
  | .error _ t => t

/-- No update of the hart is deferred, and none of its fabric accesses is on its way to this package (R281, R333). -/
abbrev State.calm (s : State) : Prop := s.hart.deferred = [] ∧ ∀ i ∈ hartItems s, i.dst ≠ s.package

/-- A release at scope `sc` has nothing to apply, to wait for or to flush (R285, R291). -/
abbrev State.idleAt (s : State) (sc : Scope) : Prop :=
  s.hart.deferred = [] ∧ (∀ i ∈ hartItems s, (flagKey i).any (inDomain sc s.coreId) = false)
    ∧ (wideScope sc = true → depotPending s = false)
    ∧ (sc = .system → hartItems s = [] ∧ s.hart.hostLast = none)

/-- The access of a scalar instruction at `va` goes to an ordinary word of a vault at `l`: the page is not logged, and no
earlier access of the hart is pending; `t` is the state once the page has been translated (R109, R110). -/
def State.finds (s : State) (fam : Fam) (acc : Acc) (va : Word) (n : Nat) (l : Loc) (t : State) : Prop :=
  locate fam acc va n none none s = .ok (.local_ l) t ∧ isVault l.key = true ∧ l.host = false ∧ l.log = false
    ∧ s.calm

/-- Is element `i` of the current hart active under a mask (R14)? -/
def State.activeAt_ (s : State) (m : MName) (i : Nat) : Bool := (s.hart.mask s.convoy.ewBytes m).active s.convoy.ewBytes i

/-! ### Vector operands -/

/-- No poison, the width of `vtype`, and aligned groups: a vector instruction goes on (R11, R117, R160). -/
abbrev State.fits (s : State) (t : EType) (rs : List VName) : Prop :=
  s.clean ∧ tBytes t = s.convoy.ewBytes ∧ ∀ r ∈ rs, aligned r s.convoy.grpRegs = true

/-- A mask register can be written: it is not bound to a transfer (R16). -/
abbrev State.unbound (s : State) (m : MName) : Prop := m = 0 ∨ s.hart.m[m].bound = none

/-- The active elements from `vstart` to `vl` - 1 (R14, R119). -/
def State.active (s : State) (m : MName) : List Nat := activeRange s.hart s.convoy.ewBytes m

/-- Each active element in order is replaced by its value, computed from the hart as the elements before left it, and its
flags are added; then `vstart` is 0 (R119). -/
def State.each (s : State) (m : MName) (d : VName) (w : Nat) (v : Hart → Nat → Nat × Flags) : Hart :=
  ((s.active m).foldl (fun g i => (g.setElem d w i (v g i).1).addFlags (v g i).2) s.hart).setVstart 0

/-- The elements `is` are replaced by values of the hart as it was; then `vstart` is 0 (R137). -/
def State.whole (s : State) (is : List Nat) (d : VName) (w : Nat) (v : Nat → Nat) : Hart :=
  (is.foldl (fun g i => g.setElem d w i (v i)) s.hart).setVstart 0

/-- Integer operand B of a vector instruction (R68). -/
def State.varg (s : State) (t : EType) : VSrc → VArg
  | .vec r => .group r
  | .scalar r => .const ((s.reg r).toNat % 2 ^ tBits t)
  | .imm i => .const ((simm i).toNat % 2 ^ tBits t)

/-- Floating operand B of a vector instruction, with the flags of an immediate's conversion (R68). -/
def State.vfarg (s : State) (t : EType) : VSrc → VArg × Flags
  | .vec r => (.group r, 0)
  | .scalar r => (.const (s.freg t r), 0)
  | .imm i => (.const (fpImm t s.hart.mode_ i).1, (fpImm t s.hart.mode_ i).2)

/-! ### Accesses of several elements -/

/-- States linked by a relation for each element in order. -/
inductive State.Each {α : Type} (p : α → State → State → Prop) : List α → State → State → Prop where
  | nil (s : State) : State.Each p [] s s
  | cons (i : α) (is : List α) (s t u : State) : p i s t → State.Each p is t u → State.Each p (i :: is) s u

/-- Labelled addresses go to ordinary words of a vault, found one after another. -/
inductive State.Found {α : Type} (fam : Fam) (acc : Acc) (n : Nat) :
    List (α × Word) → State → List (α × Nat) → State → Prop where
  | nil (s : State) : State.Found fam acc n [] s [] s
  | cons (a : α) (va : Word) (fs : List (α × Word)) (s t u : State) (l : Loc) (ks : List (α × Nat)) :
      s.finds fam acc va n l t → State.Found fam acc n fs t ks u →
      State.Found fam acc n ((a, va) :: fs) s ((a, l.key) :: ks) u

/-- Element `i` of a vector load: its fields are found without a data error, read, and written to their groups (R180). -/
def State.loadsElem (fam : Fam) (ty : EType) (fields : Hart → Nat → List (VName × Word)) (i : Nat) (s t : State) : Prop :=
  ∃ (ks : List (VName × Nat)) (u : State), State.Found fam .load (tBytes ty) (fields s.hart i) s ks u
    ∧ (∀ k ∈ ks, dataError u k.2 = none)
    ∧ t = (ks.foldl (fun v k => v.after (meter k.2 (tBytes ty))) u).setHart
        (ks.foldl (fun g k => g.setElem k.1 (tBits ty) i (memReadN s.mem k.2 (tBytes ty))) s.hart)

/-- Element `i` of a vector store: its fields are found in vaults that are not cut off, and written (R181). -/
def State.storesElem (fam : Fam) (ty : EType) (fields : Hart → Nat → List (VName × Word)) (i : Nat) (s t : State) : Prop :=
  ∃ (ks : List (VName × Nat)) (u : State), State.Found fam .store (tBytes ty) (fields s.hart i) s ks u
    ∧ (∀ k ∈ ks, (u.coreOf (k.2 / 2 ^ 30)).fenced = false)
    ∧ t = ks.foldl (fun v k =>
        pokeN k.2 (tBytes ty) (s.hart.elem k.1 (tBits ty) i) (v.after (meter k.2 (tBytes ty)))) u

/-- A scalar load of an ordinary word: the value there (R109). -/
def State.reads (va : Word) (n v : Nat) (s t : State) : Prop :=
  ∃ (u : State) (l : Loc), s.finds .scalar .load va n l u ∧ dataError u l.key = none ∧ v = memReadN s.mem l.key n
    ∧ t = u.after (meter l.key n)

/-- A tile slot is the convoy's own and ready (R205, R206). -/
abbrev State.tileReady (s : State) (n : Nat) : Prop :=
  (s.core.tile n).hidden = false ∧ (s.core.tile n).owner = some s.hart.convoy ∧ (s.core.tile n).state = .ready

/-- `vldt` or `vstt` of an ordinary predicate on slot `n`, the convoy's own and ready: every active element is aligned and
lies in it (R205, R212). -/
def State.inTile (s : State) (x : VMem) (n : Nat) : Prop :=
  let ea (i : Nat) := s.reg x.a + simm x.off + BitVec.ofNat 64 (i * tBytes x.t)
  s.fits x.t [x.v] ∧ tileNum (s.reg x.a + simm x.off) = some n ∧ s.tileReady n
    ∧ ∀ i ∈ s.active x.m, (ea i).toNat % tBytes x.t = 0 ∧ tileNum (ea i) = some n

/-- Element `e` of a matrix load: an ordinary word, or a word of a ready tile without poison (R198, R212). -/
def State.readsAcc (ty : EType) (va : Word) (v : Nat) (s t : State) : Prop :=
  match tileNum va with
  | some n => va.toNat % tBytes ty = 0 ∧ s.tileReady n ∧ tileBad s.core (va.toNat % 2 ^ 21) (tBytes ty) = false
      ∧ v = memReadN s.mem (tileKeyOf s.coreId va) (tBytes ty) ∧ t = s
  | none => ∃ (u : State) (l : Loc), s.finds .unit .load va (tBytes ty) l u ∧ dataError u l.key = none
      ∧ v = memReadN s.mem l.key (tBytes ty) ∧ t = u.after (meter l.key (tBytes ty))

/-- Element `e` of a matrix store (R198, R212). -/
def State.writesAcc (ty : EType) (va : Word) (v : Nat) (s t : State) : Prop :=
  match tileNum va with
  | some n => va.toNat % tBytes ty = 0 ∧ s.tileReady n
      ∧ t = tilePoke s.coreId (va.toNat % 2 ^ 21) (toBytes (tBytes ty) v) s
  | none => ∃ (u : State) (l : Loc), s.finds .unit .store va (tBytes ty) l u
      ∧ (u.coreOf (l.key / 2 ^ 30)).fenced = false ∧ t = pokeN l.key (tBytes ty) v (u.after (meter l.key (tBytes ty)))

/-- The output of a merge step: both words are found before either is written, and no earlier output is on its way to another
package (R225). -/
def State.writesPair (m : MergeArgs) (n i v : Nat) (s t : State) : Prop :=
  ∃ (u w : State) (k l : Loc), s.finds .scalar .store (entryVa m.oidx m.ix n) m.ix k u
    ∧ u.finds .scalar .store (entryVa m.oval (tBytes m.t) n) (tBytes m.t) l w
    ∧ (w.coreOf (k.key / 2 ^ 30)).fenced = false ∧ (w.coreOf (l.key / 2 ^ 30)).fenced = false
    ∧ (∀ i ∈ hartItems w, i.failed.isSome = true)
    ∧ t = pokeN l.key (tBytes m.t) v ((pokeN k.key m.ix i (w.after (meter k.key m.ix))).after (meter l.key (tBytes m.t)))

/-- One step of a merge on ordinary words (R224): the lists' next indices are compared, the lower one (or both, when they
are equal) is consumed, and its output entry is written. -/
def State.mergesOne (m : MergeArgs) (pa pb n : Nat) (s : State) (pa' pb' n' : Nat) (t : State) : Prop :=
  ∃ (a b : Nat) (s1 s2 : State),
    (if pa < m.cnta then State.reads (entryVa m.idxa m.ix pa) m.ix a s s1 else a = 2 ^ 64 ∧ s1 = s)
    ∧ (if pb < m.cntb then State.reads (entryVa m.idxb m.ix pb) m.ix b s1 s2 else b = 2 ^ 64 ∧ s2 = s1)
    ∧ pa' = (if b < a then pa else pa + 1) ∧ pb' = (if a < b then pb else pb + 1)
    ∧ match m.op with
      | .count inter => t = s2 ∧ n' = if inter = true ∧ a ≠ b then n else n + 1
      | op =>
        if a ≠ b then
          if op = .inter then t = s2 ∧ n' = n
          else ∃ (v : Nat) (s3 : State),
            State.reads (if a < b then entryVa m.vala (tBytes m.t) pa else entryVa m.valb (tBytes m.t) pb) (tBytes m.t) v s2 s3
              ∧ s3.writesPair m n (min a b) v t ∧ n' = n + 1
        else ∃ (x y : Nat) (s3 s4 s5 : State), State.reads (entryVa m.vala (tBytes m.t) pa) (tBytes m.t) x s2 s3
          ∧ State.reads (entryVa m.valb (tBytes m.t) pb) (tBytes m.t) y s3 s4
          ∧ let r := mergeArith op m.t x y
            (if (resultZero m.t r.1 && !m.kz) = true then s5 = s4 ∧ n' = n else s4.writesPair m n a r.1 s5 ∧ n' = n + 1)
              ∧ t = s5.setHart (s5.hart.addFlags r.2)

/-- The steps of a merge up to the ends of both lists. -/
inductive State.Merges (m : MergeArgs) : Nat → Nat → Nat → State → Nat → State → Prop where
  | done (pa pb n : Nat) (s : State) : m.cnta ≤ pa → m.cntb ≤ pb → State.Merges m pa pb n s n s
  | step (pa pb n pa' pb' n' n'' : Nat) (s t u : State) : ¬(m.cnta ≤ pa ∧ m.cntb ≤ pb) →
      State.mergesOne m pa pb n s pa' pb' n' t → State.Merges m pa' pb' n' t n'' u → State.Merges m pa pb n s n'' u

/-- A block of eight doublewords is read (R223, R319). -/
def State.readsBlock (base : Word) (ws : List Nat) (s t : State) : Prop :=
  ∃ ks : List (Nat × Nat), State.Each (fun (i : Nat) p q => State.reads (base + BitVec.ofNat 64 (8 * i)) 8
      ((mget ks i).getD 0) p q) (List.range 8) s t ∧ ws = (List.range 8).map fun i => (mget ks i).getD 0

/-- The hart's `vstart` is 0 and everything else of the state stays. -/
def State.restart (s : State) : State := s.setHart (s.hart.setVstart 0)

/-- The words of a bank set are found and lie as R174 asks, after the lowest bank's word that `lowest` finds; none is
logged, and no earlier access of the hart is pending. -/
def State.findsBanks (acc : Acc) (base : Word) (banked : Bool) (lowest : M Loc) (banks : List Nat) (s : State)
    (ls : List (Nat × Loc)) (t : State) : Prop :=
  (∃ (l : Loc) (u : State), lowest s = .ok l u ∧ bankScan (bankCheck acc base banked l) banks u = .ok (ls, none) t)
    ∧ (∀ p ∈ ls, p.2.log = false) ∧ s.calm

/-! ### Closures and commands -/

/-- A handle is valid in the current window (R230). -/
abbrev State.holds (s : State) (h : Word) : Prop := s.window.2.valid h = true

/-- A reference of the current window's frame can be taken (R233, R238). -/
abbrev State.holdsRef (s : State) (h : Word) : Prop := s.holds h ∧ (s.window.2.frame (hFrame h)).refc ≠ 65535

/-- The state with another window for the current context. -/
def State.withWindow (s : State) (w : Window) : State :=
  s.setCore { s.core with windows := mset s.core.windows s.window.1 w }

/-- A command's closure, if it names one, can be taken, and a posting entry is free (R222). -/
abbrev State.closureOk (s : State) (cl : Option CName) : Prop :=
  match cl with
  | none => True
  | some c => s.canReadC c = true ∧ s.holdsRef s.hart.c[c] ∧ postsTaken s s.coreId < postQueue

/-- The state after a command takes its closure (R222). -/
def State.tookClosure (s : State) (cl : Option CName) : State :=
  match cl with
  | none => s
  | some c => s.withWindow (s.window.2.take (hFrame s.hart.c[c]))

/-- What a command posts at its completion (R222). -/
def State.closurePost (s : State) (cl : Option CName) (k : KName) : Option Post :=
  cl.map fun c => hartPost s s.hart.c[c] k 0 true

/-- The earlier stores and atomics of the hart within the package have performed: no update is deferred, and no flag of its
is held (R284, R294, R333). -/
abbrev State.performed (s : State) : Prop := s.hart.deferred = [] ∧ ∀ i ∈ hartItems s, flagKey i = none

/-- Nothing of the hart that a release waits for or applies is outstanding (R214, R216, R238). -/
abbrev State.settled (s : State) : Prop := s.hart.deferred = [] ∧ ∀ i ∈ hartItems s, i.failed.isSome = true

/-- The engine holds one more transfer, and the mask it names is bound to it with all bits 0 (R16, R219). -/
def State.started (s : State) (t : Transfer) : State :=
  let h := s.hart
  let bound : MaskReg := ⟨true, 0, 0, 0, some t.id⟩
  let u := match t.mask with
    | some m => if m = 0 then s else s.setHart (clearPoison (isMaskSite m (fun _ => true) true) { h with m := h.m.set m bound })
    | none => s
  u.setCore { s.core with transfers := s.core.transfers ++ [t], nextTransfer := s.core.nextTransfer + 1 }

/-! ### The staging cache -/

/-- How units of a tower are handed out, one at a time, to devices that hold some (R349): each to the device that it would
have given the most hits, among equals to the one with the fewest units, then to the lower device. -/
inductive State.HandsOut (s : State) (tower : Nat) : Nat → List (Nat × Nat) → List (Nat × Nat) → Prop
  | done (us : List (Nat × Nat)) : State.HandsOut s tower 0 us us
  | give (n vd k : Nat) (us ws : List (Nat × Nat)) : (vd, k) ∈ us →
      (∀ w ∈ us, monitorGain s tower w.1 w.2 < monitorGain s tower vd k
        ∨ (monitorGain s tower w.1 w.2 = monitorGain s tower vd k ∧ (k < w.2 ∨ (k = w.2 ∧ vd ≤ w.1)))) →
      State.HandsOut s tower n (us.map fun u => if u.1 = vd then (vd, k + 1) else u) ws →
      State.HandsOut s tower (n + 1) us ws

/-! ### Ends of a unit -/

/-- What a unit of one instruction leaves when it commits with the state `t`: the pc at the next slot, and one more
instruction counted (R25). -/
def State.commits (s t : State) : State := finishUnit .next 1 s.hart.pc t

/-- The same where only the current hart changes. -/
def State.commitsHart (s : State) (h : Hart) : State := s.commits (s.setHart h)

/-- What a taken transfer leaves (R103). -/
def State.jumps (s t : State) (target : Word) : State := finishUnit (.jump target) 1 s.hart.pc t

/-- The current hart takes an exception at its unit, a single instruction (R153). -/
def State.traps (s t : State) (x : Trap) : State := t.setHart (takeTrap x false s.hart.pc t.hart)

/-! ### Frames -/

/-- The destination of an instruction that only computes from scalar registers: classes 0x01 and 0x03, `li` and `lpc`. -/
def scalarDest : Instr → Option SReg
  | .add x | .sub x | .mul x | .mulh x | .mulhu x | .div x | .divu x | .rem x | .remu x | .and x | .or x | .xor x
  | .andn x | .shl x | .shr x | .sar x | .rot x | .min x | .max x | .minu x | .maxu x => some x.d
  | .set x => some x.d
  | .sel x => some x.d
  | .clz x | .ctz x | .popc x => some x.d
  | .bfx x => some x.d
  | .bfi x => some x.d
  | .li x | .lpc x => some x.d
  | .fadd x | .fsub x | .fmul x | .fdiv x | .fmin x | .fmax x => some x.d
  | .fma x => some x.d
  | .fsqrt x | .fclass x => some x.d
  | .fset x => some x.d
  | .fcvt x => some x.d
  | .fsgn x => some x.d
  | _ => none

/-- The mask, accumulator and closure registers, what the matrix unit has to do and the frame ring are as they were. -/
def Hart.sameRegs (h k : Hart) : Prop :=
  k.m = h.m ∧ k.acc = h.acc ∧ k.c = h.c ∧ k.mma = h.mma ∧ k.ring = h.ring ∧ k.frameCount = h.frameCount

/-- Everything of the state but the current hart, and the convoy's note that deadlock detection is suspended (R268), is as
it was. -/
def State.sameBut (s t : State) : Prop :=
  t = { s with harts := mset s.harts s.cur t.hart, convoys := t.convoys }
    ∧ t.convoys = (if t.convoy.suspended = s.convoy.suspended then s.convoys
        else mset s.convoys s.hart.convoy { s.convoy with suspended := t.convoy.suspended })

/-- The CSRs that a unit's end may change: `instret`, `fflags` and those of an exception (R25, R41, R153). -/
def Csrs.ended (x y : Csrs) : Prop :=
  y = { x with
    instret := y.instret, fflags := y.fflags, xcause := y.xcause, xpc := y.xpc, xaddr := y.xaddr, xelem := y.xelem
    xbank := y.xbank, xstat := y.xstat }

end Sys2Proof.Machine
end

