-- ==== Sys2Proof/Certificates/Slice0/Obligations.lean ====
section
/-! DEFINITION. The statements for the provers. -/

open Sys2Proof Sys2Proof.Machine

/-- R93, but for its division rows: the two-operand arithmetic, logic, shift and comparison instructions of class 0x01
complete with the result of the table, extended by R92. R93, R95, R96: the other instructions of class 0x01, the long
immediates and `nop` complete with their results. -/
def Obligations.ScalarIntegerResults : Prop :=
  (∀ (s : State) (x : SInt), s.canRead x.a = true → s.canReadSrc x.b = true →
    let w := widthBits x.w
    let a := (s.reg x.a).toNat % 2 ^ w
    let b := (s.src x.b).toNat % 2 ^ w
    let sh := b % w
    let gives (v : Nat) : Host.Outcome State Fault Refusal := .next (s.commitsHart (s.hart.writeS x.d (extendW x.w v)))
    exec (.add x) s = gives ((a + b) % 2 ^ w)
      ∧ exec (.sub x) s = gives ((a + 2 ^ w - b) % 2 ^ w)
      ∧ exec (.mul x) s = gives (a * b % 2 ^ w)
      ∧ exec (.mulh x) s = gives (ofSigned w (toSigned w a * toSigned w b / 2 ^ w))
      ∧ exec (.mulhu x) s = gives (a * b / 2 ^ w)
      ∧ exec (.and x) s = gives (a &&& b)
      ∧ exec (.or x) s = gives (a ||| b)
      ∧ exec (.xor x) s = gives (a ^^^ b)
      ∧ exec (.andn x) s = gives (a &&& (2 ^ w - 1 - b))
      ∧ exec (.shl x) s = gives (a * 2 ^ sh % 2 ^ w)
      ∧ exec (.shr x) s = gives (a / 2 ^ sh)
      ∧ exec (.sar x) s = gives (ofSigned w (toSigned w a / 2 ^ sh))
      ∧ exec (.rot x) s = gives ((a * 2 ^ sh ||| a / 2 ^ (w - sh)) % 2 ^ w)
      ∧ exec (.min x) s = gives (if toSigned w a ≤ toSigned w b then a else b)
      ∧ exec (.max x) s = gives (if toSigned w a ≤ toSigned w b then b else a)
      ∧ exec (.minu x) s = gives (min a b)
      ∧ exec (.maxu x) s = gives (max a b))
  ∧ ((∀ s : State, exec .nop s = .next (s.commits s))
    ∧ (∀ (s : State) (x : Sys2Proof.SSet), s.canRead x.a = true → s.canReadSrc x.b = true →
        let w := widthBits x.w
        exec (.set x) s = .next (s.commitsHart (s.hart.writeS x.d
          (if condHolds x.cc w ((s.reg x.a).toNat % 2 ^ w) ((s.src x.b).toNat % 2 ^ w) then 1 else 0))))
    ∧ (∀ (s : State) (x : SSel), s.canRead x.a = true → s.canReadSrc x.b = true → s.canRead x.c = true →
        exec (.sel x) s = .next (s.commitsHart (s.hart.writeS x.d
          (extendW x.w ((if s.reg x.c = 0 then s.src x.b else s.reg x.a).toNat % 2 ^ widthBits x.w)))))
    ∧ (∀ (s : State) (x : SIntUn), s.canRead x.a = true →
        let w := widthBits x.w
        let a := (s.reg x.a).toNat % 2 ^ w
        let gives (v : Nat) : Host.Outcome State Fault Refusal := .next (s.commitsHart (s.hart.writeS x.d (extendW x.w v)))
        exec (.clz x) s = gives (clzW w a) ∧ exec (.ctz x) s = gives (ctzW w a) ∧ exec (.popc x) s = gives (popW w a))
    ∧ (∀ (s : State) (x : SBfx), s.canRead x.a = true →
        let n := x.len1.toNat + 1
        let f := (s.reg x.a).toNat / 2 ^ x.pos.toNat % 2 ^ n
        exec (.bfx x) s = .next (s.commitsHart (s.hart.writeS x.d (if x.sx then sext n f else BitVec.ofNat 64 f))))
    ∧ (∀ (s : State) (x : SBfi), s.canRead x.a = true → s.canRead x.c = true →
        let m : Word := BitVec.ofNat 64 (2 ^ (x.len1.toNat + 1) - 1) <<< x.pos.toNat
        exec (.bfi x) s = .next (s.commitsHart (s.hart.writeS x.d
          ((s.reg x.c &&& ~~~m) ||| ((s.reg x.a <<< x.pos.toNat) &&& m)))))
    ∧ (∀ (s : State) (x : LImm),
        exec (.li x) s = .next (s.commitsHart (s.hart.writeS x.d x.imm))
          ∧ exec (.lpc x) s = .next (s.commitsHart (s.hart.writeS x.d (lineOf s.hart.pc + x.imm)))))

/-- R98, R99, R102: the two-operand and three-operand floating instructions complete: the result is rounded once in
`frm`, written to s[D] with zeros above the format, and its flags are added. R99, R100, R101, R102: the one-operand
floating instructions, the conversions and sign injection complete; `fclass` and `fsgn` set no flag. -/
def Obligations.ScalarFloatResults : Prop :=
  (∀ (s : State) (x : SFp), s.canRead x.a = true → s.canReadSrc x.b = true →
    let a := s.freg x.f x.a
    let b := s.fsrc x.f x.b
    let mode := s.hart.csr.frm.toNat
    let gives (r : Nat × Flags) : Host.Outcome State Fault Refusal :=
      .next (s.commitsHart ((s.hart.writeS x.d (BitVec.ofNat 64 r.1)).addFlags (b.2 ||| r.2)))
    exec (.fadd x) s = gives (fAddV x.f mode (fDecode x.f a) (fDecode x.f b.1))
      ∧ exec (.fsub x) s = gives (fAddV x.f mode (fDecode x.f a) (fDecode x.f b.1).neg)
      ∧ exec (.fmul x) s = gives (fMulV x.f mode (fDecode x.f a) (fDecode x.f b.1))
      ∧ exec (.fdiv x) s = gives (fDivV x.f mode (fDecode x.f a) (fDecode x.f b.1))
      ∧ exec (.fmin x) s = gives (fMinMax x.f false a b.1)
      ∧ exec (.fmax x) s = gives (fMinMax x.f true a b.1)
      ∧ (∀ c : SReg, s.canRead c = true → exec (.fma ⟨x.f, x.d, x.a, x.b, c⟩) s =
          gives (fFmaV x.f mode (fDecode x.f a) (fDecode x.f b.1) (fDecode x.f (s.freg x.f c))))
      ∧ ∀ cmp : FCmp, exec (.fset ⟨x.f, cmp, x.d, x.a, x.b⟩) s =
          (let r := fCmpV cmp (fDecode x.f a) (fDecode x.f b.1)
           gives (if r.1 then 1 else 0, r.2)))
  ∧ ((∀ (s : State) (x : SFpUn), s.canRead x.a = true →
    let a := s.freg x.f x.a
    (let r := fSqrtV x.f s.hart.csr.frm.toNat (fDecode x.f a)
     exec (.fsqrt x) s = .next (s.commitsHart ((s.hart.writeS x.d (BitVec.ofNat 64 r.1)).addFlags r.2)))
      ∧ exec (.fclass x) s = .next (s.commitsHart (s.hart.writeS x.d (BitVec.ofNat 64 (fClassV x.f a)))))
    ∧ (∀ (s : State) (x : SFcvt), s.canRead x.a = true →
        let r := convert x.fd x.fs s.hart.csr.frm.toNat (s.freg x.fs x.a)
        exec (.fcvt x) s = .next (s.commitsHart ((s.hart.writeS x.d (extendTo x.fd r.1)).addFlags r.2.1)))
    ∧ ∀ (s : State) (x : SFsgn), s.canRead x.a = true → s.canRead x.b = true →
        exec (.fsgn x) s = .next (s.commitsHart (s.hart.writeS x.d
          (BitVec.ofNat 64 (fSgnV x.f x.sel (s.freg x.f x.a) (s.freg x.f x.b))))))

/-- R25, R88, R92, R99: whatever a scalar arithmetic instruction does, memory, the other harts and every register but
its destination are as before; its hart goes to the next slot, or to its handler. -/
def Obligations.ScalarFrame : Prop :=
  ∀ (i : Instr) (d : SReg) (s t : State), scalarDest i = some d → exec i s = .next t →
    s.sameBut t ∧ t.mem = s.mem ∧ (∀ g, g ≠ s.cur → mget t.harts g = mget s.harts g)
      ∧ (∀ r : SReg, r ≠ d ∨ r = 0 → t.hart.s[r] = s.hart.s[r]) ∧ t.hart.v = s.hart.v ∧ t.hart.m = s.hart.m
      ∧ t.hart.acc = s.hart.acc ∧ t.hart.c = s.hart.c ∧ t.hart.mma = s.hart.mma ∧ t.hart.deferred = s.hart.deferred
      ∧ s.hart.csr.ended t.hart.csr
      ∧ ((t.hart.pc = nextSlot s.hart.pc ∧ t.hart.mode = s.hart.mode ∧ t.hart.csr.instret = s.hart.csr.instret + 1)
        ∨ (t.hart.pc = lineOf s.hart.csr.tvec ∧ t.hart.mode = .supervisor ∧ t.hart.csr.instret = s.hart.csr.instret
          ∧ t.hart.s = s.hart.s))

/-- R91, R103: a conditional branch whose condition fails goes on to the next slot and never examines its target; one
whose condition holds, and a jump, puts the pc at the target. R104, R29: the calls write the pc of the next slot to
s31, take a frame id and push it, a 65th entry discarding the oldest; `ret` goes to s31 and pops the ring. R105:
`strip` counts `sc` down by `vl` without wrapping, advances each named register by `vl` steps, and branches while `sc`
is not 0. R106, R107: `bm` branches on its test of the elements below `vl`, and `vloopl` counts down the trip counts
of the active elements, clears the mask bits of those at 0, and branches while any bit is left. -/
def Obligations.BranchResults : Prop :=
  (∀ (s t : State),
    (∀ x : BrReg, s.canRead x.a = true → s.canRead x.b = true →
      let target := (lineOf s.hart.pc + x.t.disp.signExtend 64 * 64) ||| x.t.slot.zeroExtend 64
      let holds := condHolds x.cc 64 (s.reg x.a).toNat (s.reg x.b).toNat
      (holds = false → exec (.b x) s = .next (s.commits s))
        ∧ (holds = true → s.reaches target true t → exec (.b x) s = .next (s.jumps t target)))
    ∧ (∀ x : BrImm, s.canRead x.a = true →
      let target := (lineOf s.hart.pc + x.t.disp.signExtend 64 * 64) ||| x.t.slot.zeroExtend 64
      let holds := condHolds x.cc 64 (s.reg x.a).toNat (x.imm.signExtend 64).toNat
      (holds = false → exec (.bi x) s = .next (s.commits s))
        ∧ (holds = true → s.reaches target true t → exec (.bi x) s = .next (s.jumps t target)))
    ∧ (∀ x : Target,
      let target := (lineOf s.hart.pc + x.disp.signExtend 64 * 64) ||| x.slot.zeroExtend 64
      s.reaches target true t → exec (.jmp x) s = .next (s.jumps t target))
    ∧ (∀ a : SReg, s.canRead a = true → s.reaches (s.reg a) true t → exec (.jmpr a) s = .next (s.jumps t (s.reg a)))
    ∧ ∀ x : LJump,
      let target := if x.abs then x.imm else (lineOf s.hart.pc + lineOf x.imm) ||| (x.imm &&& 7)
      s.reaches target true t → exec (.jmpl x) s = .next (s.jumps t target))
  ∧ (∀ (s t : State),
    let id := if t.hart.frameCount + 1 = 0 then 1 else t.hart.frameCount + 1
    let ring := t.hart.ring ++ [id]
    let called : Hart :=
      { t.hart.writeS 31 (nextSlot t.hart.pc) with
        frameCount := id
        ring := if 64 < ring.length then ring.drop 1 else ring
        overflow := t.hart.overflow || decide (64 < ring.length)
        csr := { t.hart.csr with frame := id } }
    (∀ x : Target,
      let target := (lineOf s.hart.pc + x.disp.signExtend 64 * 64) ||| x.slot.zeroExtend 64
      s.reaches target true t → exec (.call x) s = .next (s.jumps (t.setHart called) target))
    ∧ (∀ a : SReg, s.canRead a = true → s.reaches (s.reg a) true t →
      exec (.callr a) s = .next (s.jumps (t.setHart called) (s.reg a)))
    ∧ (∀ x : LJump,
      let target := if x.abs then x.imm else (lineOf s.hart.pc + lineOf x.imm) ||| (x.imm &&& 7)
      s.reaches target true t → exec (.calll x) s = .next (s.jumps (t.setHart called) target))
    ∧ (s.canRead 31 = true → s.reaches (s.reg 31) false t →
      exec .ret s = .next (s.jumps
        (t.setHart { t.hart with
          ring := t.hart.ring.dropLast, csr := { t.hart.csr with frame := t.hart.ring.dropLast.getLast?.getD 0 } })
        (s.reg 31))))
  ∧ (∀ (s t : State) (x : Strip), s.canRead x.a = true → s.canRead x.b = true → s.canRead x.c = true → s.canRead x.e = true →
    let n := s.hart.csr.vl
    let sc : Word := if n ≤ s.hart.csr.sc.toNat then s.hart.csr.sc - BitVec.ofNat 64 n else 0
    let step (i : Nat) : Nat :=
      let v := x.steps.toNat / 2 ^ (4 * i) % 16
      if v = 0 then s.convoy.ewBytes else 2 ^ (v - 1)
    let advance (r : SReg) (k : Nat) (h : Hart) : Hart := if r = 0 then h else h.writeS r (h.s[r] + BitVec.ofNat 64 (n * k))
    let stripped (h : Hart) : Hart :=
      advance x.e (step 3) (advance x.c (step 2) (advance x.b (step 1) (advance x.a (step 0)
        { h with csr := { h.csr with sc := sc } })))
    let target := (lineOf s.hart.pc + x.t.disp.signExtend 64 * 64) ||| x.t.slot.zeroExtend 64
    (sc = 0 → exec (.strip x) s = .next (s.commitsHart (stripped s.hart)))
      ∧ (sc ≠ 0 → s.reaches target true t → exec (.strip x) s = .next (s.jumps (t.setHart (stripped t.hart)) target)))
  ∧ (∀ (s t : State), s.clean →
    (∀ x : BrMask,
      let act (i : Nat) := s.activeAt_ x.a i
      let below := List.range s.hart.csr.vl
      let taken := match x.test with
        | .any => below.any act
        | .none => !below.any act
        | .all => below.all act
        | .nall => !below.all act
      let target := (lineOf s.hart.pc + x.t.disp.signExtend 64 * 64) ||| x.t.slot.zeroExtend 64
      (taken = false → exec (.bm x) s = .next (s.commits s))
        ∧ (taken = true → s.reaches target true t → exec (.bm x) s = .next (s.jumps t target)))
    ∧ ∀ x : VLoop, x.c ≠ 0 → x.a.val % s.convoy.grpRegs = 0 → s.hart.m[x.c].bound = none →
      let target := (lineOf s.hart.pc + x.t.disp.signExtend 64 * 64) ||| x.t.slot.zeroExtend 64
      (s.loopsOn x = false → exec (.vloopl x) s = .next (s.commitsHart (s.looped x)))
        ∧ (s.loopsOn x = true → s.reaches target true t →
          exec (.vloopl x) s = .next (s.jumps (t.setHart (s.looped x)) target)))

/-- R35, R63, R103: every taken transfer to a pc with bits 5:3 set or a slot above 4, and every one but `ret` to a slot
whose BT bit is clear, raises illegal branch target, and nothing of the transfer takes effect: the link register, the
frame ring, `sc`, the advanced registers and the masks stay. So does `ret` to the second slot of a pair. -/
def Obligations.BadTargetFaults : Prop :=
  ∀ (s t : State),
    let faults (i : Instr) (target : Word) (bt : Bool) : Prop :=
      s.refuses target bt t → exec i s = .next (s.traps t { cause := 0x03, addr := some target })
    let label (x : Target) : Word := (lineOf s.hart.pc + x.disp.signExtend 64 * 64) ||| x.slot.zeroExtend 64
    let long (x : LJump) : Word := if x.abs then x.imm else (lineOf s.hart.pc + lineOf x.imm) ||| (x.imm &&& 7)
    (∀ x : BrReg, s.canRead x.a = true → s.canRead x.b = true →
      condHolds x.cc 64 (s.reg x.a).toNat (s.reg x.b).toNat = true → faults (.b x) (label x.t) true)
    ∧ (∀ x : BrImm, s.canRead x.a = true → condHolds x.cc 64 (s.reg x.a).toNat (x.imm.signExtend 64).toNat = true →
      faults (.bi x) (label x.t) true)
    ∧ (∀ x : Target, faults (.jmp x) (label x) true ∧ faults (.call x) (label x) true)
    ∧ (∀ a : SReg, s.canRead a = true → faults (.jmpr a) (s.reg a) true ∧ faults (.callr a) (s.reg a) true)
    ∧ (∀ x : LJump, faults (.jmpl x) (long x) true ∧ faults (.calll x) (long x) true)
    ∧ (s.canRead 31 = true → faults .ret (s.reg 31) false)
    ∧ (∀ x : Strip, s.canRead x.a = true → s.canRead x.b = true → s.canRead x.c = true → s.canRead x.e = true →
      s.hart.csr.vl < s.hart.csr.sc.toNat → faults (.strip x) (label x.t) true)
    ∧ (s.clean → ∀ x : BrMask, maskTest x.test ((List.range s.hart.csr.vl).map (s.activeAt_ x.a)) = true →
      faults (.bm x) (label x.t) true)
    ∧ (s.clean → ∀ x : VLoop, x.c ≠ 0 → x.a.val % s.convoy.grpRegs = 0 → s.hart.m[x.c].bound = none →
      s.loopsOn x = true → faults (.vloopl x) (label x.t) true)
    ∧ ∀ a : CName, s.canReadC a = true → s.holds s.hart.c[a] →
      faults (.apply a) (entryOf s.ctx.codebase s.hart.c[a]) true

/-- R109, R237: a load of an ordinary word gives the bytes at ea, extended, and leaves memory as it was. R109, R291,
R237: a store to an ordinary word puts the low bytes of its register at ea where a release has nothing to wait for: no
deferred update, from package scope no depot command, at system scope no fabric item and no write to the host. R109,
R110: an address that is not a multiple of the access size raises misaligned with `xaddr` = ea, before anything is read
or written. -/
def Obligations.ScalarAccessResults : Prop :=
  (∀ (s t : State) (l : Loc),
    (∀ x : SLoad, s.canRead x.a = true → s.canReadSrc x.b = true →
      s.finds .scalar .load (s.reg x.a + s.src x.b) (tBytes x.t) l t → dataError t l.key = none →
      exec (.ld x) s = .next (s.commits ((t.after (meter l.key (tBytes x.t))).setHart
        (t.hart.writeS x.d (extendTo x.t (memReadN s.mem l.key (tBytes x.t)))))))
    ∧ ∀ x : CLoad, s.canRead x.a = true →
      s.finds .scalar .load (s.reg x.a + simm x.off) 8 l t → dataError t l.key = none →
      exec (.cld x) s = .next (s.commits ((t.after (meter l.key 8)).setHart
        (clearPoison (isClosureSite x.d)
          { t.hart with c := t.hart.c.set x.d (BitVec.ofNat 64 (memReadN s.mem l.key 8)) }))))
  ∧ (∀ (s t : State) (l : Loc), (t.coreOf (l.key / 2 ^ 30)).fenced = false →
    (∀ x : SStore, s.canRead x.a = true → s.canReadSrc x.b = true → s.canRead x.c = true →
      s.finds .scalar .store (s.reg x.a + s.src x.b) (tBytes x.t) l t →
      (∀ sc, x.rel = some sc → s.idleAt sc) →
      exec (.st x) s = .next (s.commits (pokeN l.key (tBytes x.t) ((s.reg x.c).toNat % 2 ^ tBits x.t)
        (t.after (meter l.key (tBytes x.t))))))
    ∧ ∀ x : CStore, s.canRead x.a = true → s.canReadC x.c = true →
      s.finds .scalar .store (s.reg x.a + simm x.off) 8 l t →
      exec (.cst x) s = .next (s.commits (pokeN l.key 8 (s.hart.c[x.c]).toNat (t.after (meter l.key 8)))))
  ∧ (∀ s : State,
    (∀ x : SLoad, s.canRead x.a = true → s.canReadSrc x.b = true → (s.reg x.a + s.src x.b).toNat % tBytes x.t ≠ 0 →
      exec (.ld x) s = .next (s.traps s { cause := 0x05, addr := some (s.reg x.a + s.src x.b) }))
    ∧ (∀ x : SStore, s.canRead x.a = true → s.canReadSrc x.b = true → s.canRead x.c = true →
      (s.reg x.a + s.src x.b).toNat % tBytes x.t ≠ 0 →
      exec (.st x) s = .next (s.traps s { cause := 0x05, addr := some (s.reg x.a + s.src x.b) }))
    ∧ ∀ x : Amo, s.canRead x.a = true → s.canRead x.b = true → s.canRead x.c = true →
      (s.hart.det = false ∨ x.op ≠ .fadd ∨ x.d = 0) → (s.reg x.a).toNat % tBytes x.t ≠ 0 →
      exec (.amo x) s = .next (s.traps s { cause := 0x05, addr := some (s.reg x.a) }))

/-- R112: an atomic on an ordinary word reads the old value, writes the new one of its operator as one access, and
puts the old value in s[D]; `cas` that finds another value writes nothing. R114, R333: in deterministic mode a
returning `amo.fadd` raises 0x17 before any access, and a non-returning one is deferred: memory stays as it is. -/
def Obligations.AmoResults : Prop :=
  (∀ (s t : State) (l : Loc) (x : Amo), s.canRead x.a = true → s.canRead x.b = true → s.canRead x.c = true →
    (s.hart.det = false ∨ x.op ≠ .fadd) → s.finds .amo .store (s.reg x.a) (tBytes x.t) l t →
    dataError t l.key = none → (x.rel = true → s.idleAt x.scope) →
    let w := tBits x.t
    let old := memReadN s.mem l.key (tBytes x.t)
    let c := (s.reg x.c).toNat % 2 ^ w
    let new : Option Nat := match x.op with
      | .add => some ((old + c) % 2 ^ w)
      | .and => some (old &&& c)
      | .or => some (old ||| c)
      | .xor => some (old ^^^ c)
      | .min => some (if toSigned w old ≤ toSigned w c then old else c)
      | .max => some (if toSigned w old ≤ toSigned w c then c else old)
      | .minu => some (min old c)
      | .maxu => some (max old c)
      | .swap => some c
      | .cas => if old = (s.reg x.b).toNat % 2 ^ w then some c else none
      | .fadd => some (fAddRne x.t old c).1
    let u := t.after (meter l.key (tBytes x.t))
    let u' := match new with
      | some v => pokeN l.key (tBytes x.t) v u
      | none => u
    exec (.amo x) s = .next (s.commits (u'.setHart (u'.hart.writeS x.d (extendTo x.t old)))))
  ∧ (∀ (s : State) (x : Amo), s.hart.det = true → x.op = .fadd →
    (x.d ≠ 0 → exec (.amo x) s = .next (s.traps s { cause := 0x17 }))
      ∧ (∀ (t : State) (l : Loc), x.d = 0 → x.rel = false → s.canRead x.a = true → s.canRead x.b = true →
        s.canRead x.c = true →
          s.finds .amo .store (s.reg x.a) (tBytes x.t) l t →
          exec (.amo x) s = .next (s.commits (t.setHart { t.hart with
            deferred := [⟨s.reg x.a, l.key, x.t, BitVec.ofNat 64 ((s.reg x.c).toNat % 2 ^ tBits x.t), s.hart.mode,
              none, heldEntry t (s.reg x.a)⟩] }))))

/-- R109, R4: after a store to an ordinary word the bytes at ea are those of the data, lowest first, every other byte of
memory reads as before, and so does every register of the hart but those that the end of a unit writes. R109, R111,
R178 to R182: whatever a load does, memory, the other harts and every register but its destination (for a vector load
the group or groups of its fields) are as before. -/
def Obligations.AccessFrames : Prop :=
  (∀ (s t u : State) (l : Loc) (x : SStore), s.canRead x.a = true → s.canReadSrc x.b = true → s.canRead x.c = true →
    s.finds .scalar .store (s.reg x.a + s.src x.b) (tBytes x.t) l t → exec (.st x) s = .next u →
    (∀ sc, x.rel = some sc → s.idleAt sc) → (t.coreOf (l.key / 2 ^ 30)).fenced = false →
    (∀ i < tBytes x.t, memRead u.mem (l.key + i) = BitVec.ofNat 8 ((s.reg x.c).toNat / 256 ^ i))
      ∧ (∀ a, (a < l.key ∨ l.key + tBytes x.t ≤ a) → memRead u.mem a = memRead s.mem a)
      ∧ s.hart.sameRegs u.hart ∧ u.hart.s = s.hart.s ∧ u.hart.v = s.hart.v ∧ s.hart.csr.ended u.hart.csr)
  ∧ (∀ s t : State, s.hart.deferred = [] →
    (∀ x : SLoad, exec (.ld x) s = .next t → t.mem = s.mem ∧ (∀ g, g ≠ s.cur → mget t.harts g = mget s.harts g)
      ∧ s.hart.sameRegs t.hart ∧ (∀ r : SReg, r ≠ x.d ∨ r = 0 → t.hart.s[r] = s.hart.s[r]) ∧ t.hart.v = s.hart.v
      ∧ s.hart.csr.ended t.hart.csr)
    ∧ (s.hart.csr.vl ≤ s.convoy.vlmax →
      let keeps (i : Instr) (v : VName) (groups : Nat) : Prop := exec i s = .next t →
        t.mem = s.mem ∧ (∀ g, g ≠ s.cur → mget t.harts g = mget s.harts g) ∧ s.hart.sameRegs t.hart ∧ t.hart.s = s.hart.s
          ∧ (∀ r : VName, (r.val < v.val ∨ v.val + groups * s.convoy.grpRegs ≤ r.val) → t.hart.v[r] = s.hart.v[r])
          ∧ { s.hart.csr with vstart := t.hart.csr.vstart }.ended t.hart.csr
      (∀ x : VMem, keeps (.vld x) x.v 1) ∧ (∀ x : VMemS, keeps (.vlds x) x.v 1)
        ∧ (∀ x : VMemG, keeps (.vldg x) x.v (x.nf1.toNat + 1)) ∧ ∀ x : VMemX, keeps (.vldx x) x.v 1))

/-- R4: the bytes of a value in memory stand lowest first, and writing them leaves every other byte. -/
def Obligations.LittleEndianMemory : Prop :=
  ∀ (m : List Host.Cell) (k n v : Nat), let m' := memWriteBytes m k (toBytes n v)
    memReadN m' k n = v % 256 ^ n ∧ (∀ i, i < n → memRead m' (k + i) = BitVec.ofNat 8 (v / 256 ^ i))
      ∧ ∀ a, (a < k ∨ k + n ≤ a) → memRead m' a = memRead m a

/-- R124, R119: the two-operand integer vector instructions complete: each active element becomes the operation of the
table on the elements of v[A] and operand B, and `vmacc` adds to the old element. -/
def Obligations.VectorIntegerResults : Prop :=
  ∀ (s : State) (x : VOp), s.fits x.t (x.d :: x.a :: vsrcGroup x.b) →
    let w := tBits x.t
    let f (o : Nat → Nat → Nat → Nat) (h : Hart) (i : Nat) : Nat × Flags :=
      (o (h.elem x.a w i) ((s.varg x.t x.b).get h w i) (h.elem x.d w i), 0)
    let gives (o : Nat → Nat → Nat) : Host.Outcome State Fault Refusal :=
      .next (s.commitsHart (s.each x.m x.d w (f fun a b _ => o a b)))
    let sh (b : Nat) := b % w
    exec (.vadd x) s = gives (fun a b => (a + b) % 2 ^ w)
      ∧ exec (.vsub x) s = gives (fun a b => (a + 2 ^ w - b) % 2 ^ w)
      ∧ exec (.vmul x) s = gives (fun a b => a * b % 2 ^ w)
      ∧ exec (.vmulh x) s = gives (fun a b => ofSigned w (toSigned w a * toSigned w b / 2 ^ w))
      ∧ exec (.vmulhu x) s = gives (fun a b => a * b / 2 ^ w)
      ∧ exec (.vmacc x) s = .next (s.commitsHart (s.each x.m x.d w (f fun a b d => (d + a * b) % 2 ^ w)))
      ∧ exec (.vdiv x) s = gives (fun a b => if tSigned x.t then divS w a b else divU w a b)
      ∧ exec (.vrem x) s = gives (fun a b => if tSigned x.t then remS w a b else remU b a)
      ∧ exec (.vand x) s = gives (fun a b => a &&& b)
      ∧ exec (.vor x) s = gives (fun a b => a ||| b)
      ∧ exec (.vxor x) s = gives (fun a b => a ^^^ b)
      ∧ exec (.vshl x) s = gives (fun a b => a * 2 ^ sh b % 2 ^ w)
      ∧ exec (.vshr x) s = gives (fun a b => a / 2 ^ sh b)
      ∧ exec (.vsar x) s = gives (fun a b => ofSigned w (toSigned w a / 2 ^ sh b))
      ∧ exec (.vmin x) s = gives (fun a b => if toSigned w a ≤ toSigned w b then a else b)
      ∧ exec (.vmax x) s = gives (fun a b => if toSigned w a ≤ toSigned w b then b else a)
      ∧ exec (.vminu x) s = gives (fun a b => min a b)
      ∧ exec (.vmaxu x) s = gives (fun a b => max a b)
      ∧ exec (.vadds x) s = gives (fun a b => clampTo x.t (intVal x.t a + intVal x.t b))
      ∧ exec (.vsubs x) s = gives (fun a b => clampTo x.t (intVal x.t a - intVal x.t b))

/-- R124, R119, R120: the one-operand integer vector instructions, the selection and the comparison complete. `vsel`
writes every element from `vstart`, and `vcmp` writes mask bits of the active elements. -/
def Obligations.VectorSelectCompare : Prop :=
  (∀ (s : State) (x : VUn), s.fits x.t [x.d, x.a] →
    let w := tBits x.t
    let gives (o : Nat → Nat) : Host.Outcome State Fault Refusal :=
      .next (s.commitsHart (s.each x.m x.d w fun h i => (o (h.elem x.a w i), 0)))
    exec (.vabs x) s = gives (fun a => (toSigned w a).natAbs % 2 ^ w)
      ∧ exec (.vclz x) s = gives (clzW w)
      ∧ exec (.vpopc x) s = gives (popW w))
    ∧ (∀ (s : State) (x : VOp), s.fits x.t (x.d :: x.a :: vsrcGroup x.b) →
      let w := tBits x.t
      exec (.vsel x) s = .next (s.commitsHart (((elemRange s.hart).foldl
        (fun g i => g.setElem x.d w i (if s.activeAt_ x.m i then g.elem x.a w i else (s.varg x.t x.b).get g w i))
        s.hart).setVstart 0)))
    ∧ ∀ (s : State) (x : VCmp), s.fits x.t (x.a :: vsrcGroup x.b) → s.unbound x.d →
      let w := tBits x.t
      exec (.vcmp x) s = .next (s.commitsHart (((s.active x.m).foldl
        (fun g i => g.setMaskBit x.d i (condHolds x.cc w (g.elem x.a w i) ((s.varg x.t x.b).get g w i)))
        (s.hart.expandMask s.convoy.ewBytes x.d)).setVstart 0))

/-- R125, R126, R68, R119: the floating vector instructions complete: each active element becomes the correctly
rounded result in `frm`, its flags are added, and so are those of an immediate's conversion; `vfsgn` and `vfclass` set no
flag. -/
def Obligations.VectorFloatResults : Prop :=
  (∀ (s : State) (x : VOp), s.fits x.t (x.d :: x.a :: vsrcGroup x.b) →
    let w := tBits x.t
    let b := s.vfarg x.t x.b
    let gives (o : EType → Nat → Nat → Nat → Nat × Flags) : Host.Outcome State Fault Refusal :=
      .next (s.commitsHart ((s.each x.m x.d w fun h i => o x.t s.hart.mode_ (h.elem x.a w i) (b.1.get h w i)).addFlags b.2))
    exec (.vfadd x) s = gives feAdd ∧ exec (.vfsub x) s = gives feSub ∧ exec (.vfmul x) s = gives feMul
      ∧ exec (.vfdiv x) s = gives feDiv ∧ exec (.vfmin x) s = gives feMin ∧ exec (.vfmax x) s = gives feMax)
    ∧ (∀ (s : State) (x : VFma), s.fits x.t (x.d :: x.a :: x.c :: vsrcGroup x.b) →
      let w := tBits x.t
      let b := s.vfarg x.t x.b
      exec (.vfma x) s = .next (s.commitsHart ((s.each x.m x.d w fun h i =>
        feFma x.t s.hart.mode_ (h.elem x.a w i) (b.1.get h w i) (h.elem x.c w i)).addFlags b.2)))
    ∧ (∀ (s : State) (x : VFsgn), s.fits x.t (x.d :: x.a :: vsrcGroup x.b) →
      let w := tBits x.t
      let b := s.vfarg x.t x.b
      exec (.vfsgn x) s = .next (s.commitsHart (s.each x.m x.d w fun h i =>
        (fSgnV x.t x.sel (h.elem x.a w i) (b.1.get h w i), 0))))
    ∧ (∀ (s : State) (x : VUn), s.fits x.t [x.d, x.a] →
      let w := tBits x.t
      let gives (o : Nat → Nat × Flags) : Host.Outcome State Fault Refusal :=
        .next (s.commitsHart (s.each x.m x.d w fun h i => o (h.elem x.a w i)))
      let m := s.hart.mode_
      exec (.vfsqrt x) s = gives (feSqrt x.t m)
        ∧ exec (.vfrcp x) s = gives (fun a => fRcpV x.t m (fDecode x.t a))
        ∧ exec (.vfrsq x) s = gives (fun a => fRsqV x.t m (fDecode x.t a))
        ∧ exec (.vfexp2 x) s = gives (fun a => fExp2V x.t m (fDecode x.t a))
        ∧ exec (.vflog2 x) s = gives (fun a => fLog2V x.t m (fDecode x.t a))
        ∧ exec (.vfclass x) s = gives (fun a => (fClassV x.t a, 0)))
    ∧ ∀ (s : State) (x : VFcmp), s.fits x.t (x.a :: vsrcGroup x.b) → s.unbound x.d →
      let w := tBits x.t
      let b := s.vfarg x.t x.b
      exec (.vfcmp x) s = .next (s.commitsHart ((((s.active x.m).foldl
        (fun g i => (g.setMaskBit x.d i (fCmpV x.cmp (fDecode x.t (g.elem x.a w i)) (fDecode x.t
          (b.1.get g w i))).1).addFlags
          (fCmpV x.cmp (fDecode x.t (g.elem x.a w i)) (fDecode x.t (b.1.get g w i))).2)
        (s.hart.expandMask s.convoy.ewBytes x.d)).setVstart 0).addFlags b.2))

/-- R118, R128, R130, R131, R132: the conversions complete where the sides' groups are as R118 says: each active
element is converted in order, its flags are added, `amax` is updated where AMX asks, and the saturation mask gets its
bit. Two clauses are the model's choice: that a `sat=` mask is expanded and its active bits cleared where the
destination is not narrow, of which R131 says only that no bit is set (log 66), and that `vpk4` saturates, with its
flags and its bit, from above 7 on, where the magnitude test of R48 would begin at 8 (log 17). -/
def Obligations.VectorConversionResults : Prop :=
  ∀ (s : State) (x : VConv), s.clean → s.unbound x.satm →
    sidesOk s.convoy x.d x.a (tBits x.w) (tBits x.src) = true →
    let gives (f : Hart → Nat → Nat → Nat × Flags × Bool) : Host.Outcome State Fault Refusal :=
      .next (s.commitsHart (((s.active x.m).foldl (fun g i =>
        let a := g.elem x.a (tBits x.src) i
        let r := f g i a
        let h := ((g.setElem x.d (tBits x.w) i r.1).addFlags r.2.1).setMaskBit x.satm i r.2.2
        if x.amx then h.amax x.src a else h) (s.hart.expandMask s.convoy.ewBytes x.satm)).setVstart 0))
    exec (.vcvt x) s = gives (fun g _ a => convert x.w x.src g.mode_ a)
      ∧ (touchesScales x.d (sideRegs s.convoy (tBits x.w)) = false →
        exec (.vpk4 x) s = gives (fun g i a =>
            let sb := g.elem 30 8 (i / 32)
            if field sb 0 6 = 63 then (0, fNV, false)
            else toQ4 (field sb 6 2) ((fDecode x.src a).scale (32 - (field sb 0 6 : Int))))
          ∧ exec (.vupk4 x) s = gives (fun g i a =>
            let sb := g.elem 30 8 (i / 32)
            let r := fEncode x.w g.mode_ (q4Val sb a)
            (r.1, if field sb 0 6 = 63 then fNV else r.2, false))
          ∧ exec (.vscl x) s = gives (fun g i a =>
            let sb := g.elem 30 8 (i / 32)
            if field sb 6 2 ≠ 0 ∨ field sb 0 6 = 63 then (canonNaN x.w, fNV, false)
            else
              let v := (valOf x.src a).scale ((field sb 0 6 : Int) - 32)
              if x.w = .e4m3 ∨ x.w = .e5m2 then toNarrowF x.w g.mode_ v
              else ((fEncode x.w g.mode_ v).1, (fEncode x.w g.mode_ v).2, false)))

/-- R133, R134, R52: the reductions complete: the fold of the active elements in ascending order from s[B], or the
tree of R52 for `fadd`, goes to s[D], and `vstart` is 0. R135: the scans complete: each active element gets the
running value, before or after its own value is folded in, and s[C] gets the last one. -/
def Obligations.ReductionScanResults : Prop :=
  ((∀ (s : State) (x : VRed), s.fits x.t [x.a] →
    let w := tBits x.t
    exec (.vred x) s = .next (s.commitsHart ((s.hart.setVstart 0).writeS x.d (extendTo x.t
      (((s.active x.m).map fun i => s.hart.elem x.a w i).foldl (redOp x.op w) ((s.reg x.b).toNat % 2 ^ w))))))
    ∧ ∀ (s : State) (x : VFRed), s.fits x.t [x.a] →
      let r := fredFold x.op x.t (s.freg x.t x.b) ((s.active x.m).map fun i => (i, s.hart.elem x.a (tBits x.t) i))
      exec (.vfred x) s = .next (s.commitsHart
        (((s.hart.setVstart 0).writeS x.d (BitVec.ofNat 64 r.1)).addFlags r.2)))
  ∧ ((∀ (s : State) (x : VScan), s.fits x.t [x.d, x.a] →
    let w := tBits x.t
    let r := scanGo (fun p q => (redOp x.op w p q, 0)) x.excl ((s.active x.m).map fun i => (i, s.hart.elem x.a w i))
      ((s.reg x.b).toNat % 2 ^ w)
    exec (.vscan x) s = .next (s.commitsHart
      ((((s.hart.setElems x.d w r.1).setVstart 0).writeS x.c (extendTo x.t r.2.1)).addFlags r.2.2)))
    ∧ ∀ (s : State) (x : VFScan), s.fits x.t [x.d, x.a] →
      let w := tBits x.t
      let r := scanGo (fredOp x.op x.t) x.excl ((s.active x.m).map fun i => (i, s.hart.elem x.a w i)) (s.freg x.t x.b)
      exec (.vfscan x) s = .next (s.commitsHart
        ((((s.hart.setElems x.d w r.1).setVstart 0).writeS x.c (extendTo x.t r.2.1)).addFlags r.2.2)))

/-- R137 to R142: the permutations complete on groups apart from the destination: bits of the source elements, as they
were, reach the destination elements, and `vstart` is 0. R142: the moves between a scalar and an element, and the
sequence, complete; the moves read neither `vl`, `vstart` nor a mask. -/
def Obligations.PermuteResults : Prop :=
  ((∀ (s : State) (x : VSlide), s.fits x.t [x.d, x.a] → overlap x.d x.a s.convoy.grpRegs = false →
    let w := tBits x.t
    let n := (s.srcZ x.n).toNat
    let fill := (s.reg x.c).toNat % 2 ^ w
    exec (.vslup x) s = .next (s.commitsHart (s.whole (s.active x.m) x.d w fun i =>
        if n ≤ i then s.hart.elem x.a w (i - n) else fill))
      ∧ exec (.vsldn x) s = .next (s.commitsHart (s.whole (s.active x.m) x.d w fun i =>
        if i + n < s.hart.csr.vl then s.hart.elem x.a w (i + n) else fill)))
    ∧ (∀ (s : State) (x : VOp), s.fits x.t (x.d :: x.a :: vsrcGroup x.b) →
      (∀ r ∈ x.a :: vsrcGroup x.b, overlap x.d r s.convoy.grpRegs = false) →
      let w := tBits x.t
      let index (i : Nat) : Nat := match x.b with
        | .vec r => s.hart.elem r w i
        | .scalar r => (s.reg r).toNat
        | .imm k => k.toNat
      exec (.vgath x) s = .next (s.commitsHart (s.whole (s.active x.m) x.d w fun i =>
        if index i < s.convoy.vlmax then s.hart.elem x.a w (index i) else 0)))
    ∧ (∀ (s : State) (x : VUn), s.fits x.t [x.d, x.a] → overlap x.d x.a s.convoy.grpRegs = false →
      let w := tBits x.t
      exec (.vexpd x) s = .next (s.commitsHart (s.whole (s.active x.m) x.d w fun i =>
          s.hart.elem x.a w ((List.range i).filter (s.activeAt_ x.m)).length))
        ∧ exec (.vrev x) s = .next (s.commitsHart (s.whole (s.active x.m) x.d w fun i =>
          s.hart.elem x.a w (s.hart.csr.vl - 1 - i))))
    ∧ (∀ (s : State) (x : VComp), s.fits x.t [x.d, x.a] → overlap x.d x.a s.convoy.grpRegs = false →
      let w := tBits x.t
      let srcs := (List.range s.hart.csr.vl).filter (s.activeAt_ x.m)
      exec (.vcomp x) s = .next (s.commitsHart ((s.whole
        ((List.range srcs.length).filter fun k => decide (s.hart.csr.vstart.toNat ≤ k)) x.d w fun k =>
          s.hart.elem x.a w (srcs.getD k 0)).writeS x.c (BitVec.ofNat 64 srcs.length)))))
  ∧ ((∀ (s : State) (x : VMvs), s.fits x.t [x.a] →
    exec (.vmvs x) s = .next (s.commitsHart (s.hart.writeS x.d
      (if (s.srcZ x.j).toNat < s.convoy.vlmax then extendTo x.t (s.hart.elem x.a (tBits x.t) (s.srcZ x.j).toNat) else 0))))
    ∧ (∀ (s : State) (x : VMvx), s.fits x.t [x.d] →
      exec (.vmvx x) s = .next (s.commits (if (s.srcZ x.j).toNat < s.convoy.vlmax then
        s.setHart (s.hart.setElem x.d (tBits x.t) (s.srcZ x.j).toNat ((s.reg x.a).toNat % 2 ^ tBits x.t)) else s)))
    ∧ ∀ (s : State) (x : VId), s.fits x.t [x.d] →
      exec (.vid x) s = .next (s.commitsHart (s.whole (s.active x.m) x.d (tBits x.t) fun i =>
        (s.reg x.a + BitVec.ofNat 64 i * simm x.step).toNat % 2 ^ tBits x.t)))

/-- R141: the bit-string shifts complete: elements 0 to `vl` - 1 form a string of `vl`·w bits, element 0 lowest, that
is shifted with zeros coming in; `vfnl` takes its bits from v[B]:v[A]. R116, R121, R122: `setvl`, `mcpt` and `mexp`
complete. R123, R120: the mask operations complete: bits 0 to `vl` - 1 are written, or counted, or searched. -/
def Obligations.MaskLengthResults : Prop :=
  ((∀ (s : State) (x : VBsh), s.fits x.t [x.d, x.a] → overlap x.d x.a s.convoy.grpRegs = false →
    let w := tBits x.t
    let n := (s.srcZ x.n).toNat
    let vl := s.hart.csr.vl
    let y := bitString s.hart x.a w vl
    exec (.vbshl x) s = .next (s.commitsHart (s.whole (s.active x.m) x.d w fun i =>
        field (if vl * w ≤ n then 0 else y * 2 ^ n) (i * w) w))
      ∧ exec (.vbshr x) s = .next (s.commitsHart (s.whole (s.active x.m) x.d w fun i =>
        field (if vl * w ≤ n then 0 else y / 2 ^ n) (i * w) w)))
    ∧ ∀ (s : State) (x : VFnl), s.fits x.t [x.d, x.a, x.b] →
      (∀ r ∈ [x.a, x.b], overlap x.d r s.convoy.grpRegs = false) →
      let w := tBits x.t
      let vl := s.hart.csr.vl
      let z := bitString s.hart x.b w vl * 2 ^ (vl * w) + bitString s.hart x.a w vl
      exec (.vfnl x) s = .next (s.commitsHart (s.whole (s.active x.m) x.d w fun i =>
        field z (i * w + min (s.reg x.c).toNat (vl * w)) w)))
  ∧ ((∀ (s : State) (x : SetVl), s.canReadSrc x.a = true →
    let request := match x.a with
      | .reg r => if r = 0 then s.hart.csr.sc else s.reg r
      | .imm i => i.zeroExtend 64
    let vl := min request.toNat s.convoy.vlmax
    exec (.setvl x) s = .next (s.commitsHart
      (Hart.writeS x.d (BitVec.ofNat 64 vl) { s.hart with csr := { s.hart.csr with vl := vl } })))
    ∧ (∀ (s : State) (x : MCpt), s.canReadSrc x.a = true → s.unbound x.d →
      exec (.mcpt x) s = .next (s.commits (if x.d = 0 then s else
        s.setHart (clearPoison (isMaskSite x.d (fun _ => false) true)
          { s.hart with m := s.hart.m.set x.d ⟨false, s.convoy.ewBytes, min (s.srcZ x.a).toNat s.convoy.vlmax, 0, none⟩ }))))
    ∧ ∀ (s : State) (x : M2), s.clean → s.unbound x.d →
      exec (.mexp x) s = .next (s.commits (if x.d = 0 then s else
        let bits := (s.hart.mask s.convoy.ewBytes x.a).expand s.convoy.ewBytes
        s.setHart { s.hart with m := s.hart.m.set x.d ⟨true, 0, 0, bits, none⟩ })))
  ∧ ((∀ (s : State) (x : M3), s.clean → s.unbound x.d →
    let a := s.activeAt_ x.a
    let b := s.activeAt_ x.b
    let gives (f : Nat → Bool) : Host.Outcome State Fault Refusal := .next (s.commitsHart
      ((List.range s.hart.csr.vl).foldl (fun g i => g.setMaskBit x.d i (f i)) (s.hart.expandMask s.convoy.ewBytes x.d)))
    exec (.mand x) s = gives (fun i => a i && b i) ∧ exec (.mor x) s = gives (fun i => a i || b i)
      ∧ exec (.mxor x) s = gives (fun i => a i != b i) ∧ exec (.mandn x) s = gives (fun i => a i && !b i)
      ∧ exec (.mnot ⟨x.d, x.a⟩) s = gives (fun i => !a i))
    ∧ ∀ (s : State) (x : MToS), s.clean →
      exec (.mpop x) s = .next (s.commitsHart (s.hart.writeS x.d
          (BitVec.ofNat 64 ((List.range s.hart.csr.vl).countP (s.activeAt_ x.a)))))
        ∧ exec (.mfirst x) s = .next (s.commitsHart (s.hart.writeS x.d
          (match (List.range s.hart.csr.vl).find? (s.activeAt_ x.a) with
            | some i => BitVec.ofNat 64 i
            | none => BitVec.allOnes 64))))

/-- R144, R145: the stream instructions complete where a push fits and a pop finds its bytes (or is `.nb`): the active
elements' bytes join the tail of the queue, or leave its head for the active elements in order. R150: `vchain`
completes from the start: its head stage, then each continuation stage, over the active elements, the predicate read
once; `chstep` and `vstart` are 0 at the end. -/
def Obligations.StreamChainResults : Prop :=
  ((∀ (s : State) (x : VSPush), s.fits x.t [x.a] →
    let is := s.active x.m
    s.convoy.sq[x.q].length + is.length * tBytes x.t ≤ 8192 →
    exec (.vspush x) s = .next (s.commits ((s.setConvoy (s.convoy.setSq x.q
      (s.convoy.sq[x.q] ++ is.flatMap fun i => toBytes (tBytes x.t) (s.hart.elem x.a (tBits x.t) i)))).setHart
        ((s.hart.setVstart 0).writeS x.c (BitVec.ofNat 64 is.length)))))
    ∧ ∀ (s : State) (x : VSPop), s.fits x.t [x.d] →
      let is := s.active x.m
      let q := s.convoy.sq[x.q]
      let k := min is.length (q.length / tBytes x.t)
      (x.nb = false → is.length * tBytes x.t ≤ q.length ∧ is.length * tBytes x.t ≤ 8192) →
      (∀ p ∈ s.convoy.sqPoison[x.q], k * tBytes x.t ≤ p) →
      exec (.vspop x) s = .next (s.commits ((s.setConvoy { s.convoy with
        sq := s.convoy.sq.set x.q (q.drop (k * tBytes x.t))
        sqPoison := s.convoy.sqPoison.set x.q (s.convoy.sqPoison[x.q].map fun p => p - k * tBytes x.t) }).setHart
        (((s.hart.setElems x.d (8 * tBytes x.t) (unpack (tBytes x.t) (is.take k) q)).setVstart 0).writeS x.c
          (BitVec.ofNat 64 k)))))
  ∧ (∀ (s : State) (x : VChain), s.fits x.t (x.d :: x.a :: (vsrcGroup x.b ++ (if x.op == .fma then [x.c] else [])
      ++ chainGroups (x.stage1 :: x.more))) → s.hart.csr.chstep = 0 →
    let w := tBits x.t
    let b : VArg × Flags := if x.t.isVFp then s.vfarg x.t x.b else (s.varg x.t x.b, 0)
    let arg (y : StageSrc) : VArg := match y with
      | .vec r => .group r
      | .scalar r => .const (s.freg x.t r)
    let stage (op : StageOp) (t : VName) (p q : VArg) (h : Hart) : Hart :=
      ((((elemRange h).filter (s.activeAt_ x.m)).foldl (fun g i =>
        let r := stageFn op x.t s.hart.mode_ (g.elem t w i) (p.get g w i) (q.get g w i)
        (g.setElem x.d w i r.1).addFlags r.2) h).setVstart 0).setChstep 0
    let head := (stage x.op x.a b.1 (.group x.c) s.hart).addFlags b.2
    exec (.vchain x) s = .next (finishUnit .next 2 (nextSlot s.hart.pc) (s.setHart
      ((x.stage1 :: x.more).foldl (fun h st => stage st.op x.d (arg st.x) (arg st.y) h) head))))

/-- R178 to R180, R182: the vector loads complete when the word of every active element is found, element by element
in order, and `vstart` is 0 at the end. R178, R179, R181: the vector stores complete when the word of every active
element is found, element by element in order, and `vstart` is 0 at the end. -/
def Obligations.VectorAccessResults : Prop :=
  (∀ (s t : State),
    (∀ x : VMem, s.fits x.t [x.v] →
      State.Each (State.loadsElem .unit x.t fun _ i => [(x.v, s.reg x.a + simm x.off + BitVec.ofNat 64 (i * tBytes x.t))])
        (s.active x.m) s t → s.hart.deferred = [] → exec (.vld x) s = .next (s.commits t.restart))
    ∧ (∀ x : VMemS, s.fits x.t [x.v] →
      State.Each (State.loadsElem .unit x.t fun _ i =>
        [(x.v, s.reg x.a + simm x.off + BitVec.ofNat 64 i * s.reg x.b)]) (s.active x.m) s t →
      s.hart.deferred = [] → exec (.vlds x) s = .next (s.commits t.restart))
    ∧ (∀ x : VMemG, s.fits x.t [x.v] → segFits x.v s.convoy.grpRegs (x.nf1.toNat + 1) = true →
      State.Each (State.loadsElem .seg x.t fun _ i =>
        segFields x.v s.convoy.grpRegs (x.nf1.toNat + 1) (tBytes x.t) (s.reg x.a + simm x.off) i) (s.active x.m) s t →
      s.hart.deferred = [] → exec (.vldg x) s = .next (s.commits t.restart))
    ∧ ∀ x : VMemX, s.fits x.t [x.v] →
      let g := sideRegs s.convoy (ixBits x.ix)
      s.convoy.grpRegs * ixBits x.ix ≤ 64 * s.convoy.ewBytes → aligned x.b g = true →
      (x.v.val + s.convoy.grpRegs ≤ x.b.val ∨ x.b.val + g ≤ x.v.val) →
      State.Each (State.loadsElem .seg x.t fun h i => [(x.v, indexEa x (s.reg x.a + simm x.off) h i)]) (s.active x.m) s t →
      s.hart.deferred = [] → exec (.vldx x) s = .next (s.commits t.restart))
  ∧ (∀ (s t : State),
    (∀ x : VMem, s.fits x.t [x.v] →
      State.Each (State.storesElem .unit x.t fun _ i => [(x.v, s.reg x.a + simm x.off + BitVec.ofNat 64 (i * tBytes x.t))])
        (s.active x.m) s t → s.hart.deferred = [] → exec (.vst x) s = .next (s.commits t.restart))
    ∧ (∀ x : VMemS, s.fits x.t [x.v] →
      State.Each (State.storesElem .unit x.t fun _ i =>
        [(x.v, s.reg x.a + simm x.off + BitVec.ofNat 64 i * s.reg x.b)]) (s.active x.m) s t →
      s.hart.deferred = [] → exec (.vsts x) s = .next (s.commits t.restart))
    ∧ (∀ x : VMemG, s.fits x.t [x.v] → segFits x.v s.convoy.grpRegs (x.nf1.toNat + 1) = true →
      State.Each (State.storesElem .seg x.t fun _ i =>
        segFields x.v s.convoy.grpRegs (x.nf1.toNat + 1) (tBytes x.t) (s.reg x.a + simm x.off) i) (s.active x.m) s t →
      s.hart.deferred = [] → exec (.vstg x) s = .next (s.commits t.restart))
    ∧ ∀ x : VMemX, s.fits x.t [x.v] →
      s.convoy.grpRegs * ixBits x.ix ≤ 64 * s.convoy.ewBytes → aligned x.b (sideRegs s.convoy (ixBits x.ix)) = true →
      State.Each (State.storesElem .seg x.t fun h i => [(x.v, indexEa x (s.reg x.a + simm x.off) h i)]) (s.active x.m) s t →
      s.hart.deferred = [] → exec (.vstx x) s = .next (s.commits t.restart))

/-- R183, R55, R333: `vstxa` completes when the word of every active element is found: equal addresses form a group,
whose elements are folded in ascending order and added at the word in one update, groups in the order of their lowest
elements; in deterministic mode a floating update is deferred. -/
def Obligations.ScatterAddResults : Prop :=
  ∀ (s t u : State) (x : VMemX) (ks : List (Nat × Nat)), s.fits x.t [x.v] →
    s.convoy.grpRegs * ixBits x.ix ≤ 64 * s.convoy.ewBytes → aligned x.b (sideRegs s.convoy (ixBits x.ix)) = true →
    let w := tBits x.t
    let ea (i : Nat) := indexEa x (s.reg x.a + simm x.off) s.hart i
    let todo := (s.active x.m).filter fun i =>
      !((List.range s.hart.csr.vstart.toNat).filter (s.activeAt_ x.m)).any fun j => ea j == ea i
    let merged (ms : List Nat) : Nat := match ms with
      | [] => 0
      | i :: is => is.foldl (fun acc j => addIn x.t acc (s.hart.elem x.v w j)) (s.hart.elem x.v w i)
    let update (i : Nat) (p q : State) : Prop :=
      match (scatterGroups ea todo).find? fun g => g.2.head? == some i with
      | none => ∃ l : Loc, locate .seg .store (ea i) (tBytes x.t) (some i) none p = .ok (.local_ l) q ∧ l.log = false
      | some (va, ms) =>
        let key := (mget ks i).getD 0
        if s.hart.det && tFloat x.t then p.hart.deferred.length < 256 ∧ q = p.setHart { p.hart with
            deferred := p.hart.deferred ++ [⟨va, key, x.t, BitVec.ofNat 64 (merged ms), p.hart.mode, none, heldEntry p va⟩] }
        else dataError p key = none ∧ q = pokeN key (tBytes x.t) (addIn x.t (memReadN p.mem key (tBytes x.t)) (merged ms))
          (p.after (meter key (tBytes x.t)))
    State.Found .seg .store (tBytes x.t) (todo.map fun i => (i, ea i)) s ks t → State.Each update (s.active x.m) t u →
    s.hart.deferred = [] → exec (.vstxa x) s = .next (s.commits u.restart)

/-- R212, R217, R16: `vldt` and `vstt` complete on a slot of the convoy's own that is ready, when every element lies
in it: bytes move between it and the group. A `vldt` whose mask is bound to the slot's fill goes on while the slot is
filling, and the bit of an element's chunk predicates the element. -/
def Obligations.TileAccessResults : Prop :=
  ∀ (s : State) (x : VMem) (n : Nat), s.fits x.t [x.v] →
    let ea (i : Nat) := s.reg x.a + simm x.off + BitVec.ofNat 64 (i * tBytes x.t)
    let within (i : Nat) := (ea i).toNat % tBytes x.t = 0 ∧ tileNum (ea i) = some n
    let slot := s.core.tile n
    tileNum (s.reg x.a + simm x.off) = some n → slot.hidden = false → slot.owner = some s.hart.convoy →
    (let byChunk := boundFill s x.m n
     let is := if byChunk then (elemRange s.hart).filter fun i => s.hart.m[x.m].bits.getLsbD ((ea i).toNat % 8192 / 512)
       else s.active x.m
     (slot.state = .ready ∨ slot.state = .filling ∧ byChunk = true) → (∀ i ∈ is, within i) → s.core.tilePoison = [] →
     exec (.vldt x) s = .next (s.commitsHart (s.whole is x.v (tBits x.t) fun i =>
       memReadN s.mem (tileKeyOf s.coreId (ea i)) (tBytes x.t))))
      ∧ (slot.state = .ready → (∀ i ∈ s.active x.m, within i) →
        exec (.vstt x) s = .next (s.commits ((s.active x.m).foldl (fun t i =>
          tilePoke s.coreId ((ea i).toNat % 2 ^ 21) (toBytes (tBytes x.t) (s.hart.elem x.v (tBits x.t) i)) t) s).restart))

/-- R173 to R177: the plural instructions complete when the words of their banks are found: `ldp` combines them, `stp`
stores to each and `pam` updates each in ascending order from `bstart`, which is 0 at the end; an empty set does
nothing but write 0 for `ldp`. -/
def Obligations.PluralResults : Prop :=
  ∀ (s t : State) (ls : List (Nat × Loc)),
    (∀ x : PLoad, s.canRead x.a = true → s.canRead x.b = true →
      let banks := bankSet (s.reg x.b)
      let r := ldpCombine x.op (ls.map fun p => (p.1, memReadN s.mem p.2.key 4))
      (banks = [] → exec (.ldp x) s = .next (s.commitsHart (s.hart.writeS x.d 0)))
        ∧ (∀ b0, banks.head? = some b0 → s.findsBanks .load (s.reg x.a + simm x.off) x.banked
            (bankLoc .load (s.reg x.a + simm x.off) x.banked b0) banks ls t →
          (∀ p ∈ ls, dataError t p.2.key = none) →
          let u := ls.foldl (fun v p => v.after (meter p.2.key 4)) t
          exec (.ldp x) s = .next (s.commits (u.setHart ((u.hart.writeS x.d (ldpExtend x.op r.1)).addFlags r.2)))))
    ∧ (∀ x : PStore, s.canRead x.a = true → s.canRead x.b = true → s.canRead x.c = true →
      let base := s.reg x.a + simm x.off
      let todo := (bankSet (s.reg x.b)).filter fun b => decide (s.hart.csr.bstart.toNat ≤ b)
      (todo = [] → s.hart.deferred = [] → exec (.stp x) s = .next (s.commitsHart (s.hart.setBstart 0)))
        ∧ (∀ b0 b1, (bankSet (s.reg x.b)).head? = some b0 → todo.head? = some b1 →
          s.findsBanks .store base x.banked (bankLowest base x.banked b0 b1) todo ls t →
            (∀ p ∈ ls, (t.coreOf (p.2.key / 2 ^ 30)).fenced = false) →
          let u := ls.foldl (fun v p => pokeN p.2.key 4 ((s.reg x.c).toNat % 2 ^ 32) (v.after (meter p.2.key 4))) t
          exec (.stp x) s = .next (s.commits (u.setHart (u.hart.setBstart 0)))))
    ∧ ∀ x : PAtomic, s.canRead x.a = true → s.canRead x.b = true → s.canRead x.c = true →
      let base := s.reg x.a + simm x.off
      let todo := (bankSet (s.reg x.b)).filter fun b => decide (s.hart.csr.bstart.toNat ≤ b)
      (todo = [] → s.hart.deferred = [] → exec (.pam x) s = .next (s.commitsHart (s.hart.setBstart 0)))
        ∧ (∀ b0 b1, (bankSet (s.reg x.b)).head? = some b0 → todo.head? = some b1 →
          s.findsBanks .store base x.banked (bankLowest base x.banked b0 b1) todo ls t →
            (∀ p ∈ ls, dataError t p.2.key = none) →
          (s.hart.det = false ∨ x.op ≠ .fadd) →
          let u := ls.foldl (fun v p => pokeN p.2.key 4 (pamNew x.op (memReadN v.mem p.2.key 4) ((s.reg x.c).toNat % 2 ^ 32))
            (v.after (meter p.2.key 4))) t
          exec (.pam x) s = .next (s.commits (u.setHart (u.hart.setBstart 0))))
        ∧ (∀ b0 b1, (bankSet (s.reg x.b)).head? = some b0 → todo.head? = some b1 →
          s.findsBanks .store base x.banked (bankLowest base x.banked b0 b1) todo ls t → s.hart.det = true → x.op = .fadd →
          exec (.pam x) s = .next (s.commits (t.setHart (Hart.setBstart 0 { t.hart with deferred := ls.map fun p =>
            let va := bankVa base x.banked p.1
            ⟨va, p.2.key, .f32, BitVec.ofNat 64 ((s.reg x.c).toNat % 2 ^ 32), s.hart.mode, none, heldEntry t va⟩ }))))

/-- R184 to R186: `pdot` completes when the rows of its banks pass the checks and its banks are idle: element b of
v[D] becomes the dot product of bank b, and the flags of all banks are added; an empty set does nothing. -/
def Obligations.PdotResults : Prop :=
  ∀ (s : State) (x : PDot), s.clean →
    (bankSet (s.reg x.b) = [] → exec (.pdot x) s = .next (s.commits s))
      ∧ ∀ (t : State) (places : List (Nat × List (Word × Loc))), bankSet (s.reg x.b) ≠ [] →
        (s.reg x.c).toNat % 64 = 0 → pdotCheck (s.reg x.c) x (bankSet (s.reg x.b)) s = .ok places t →
        pdotBusy s.hart.aged s.core (s.reg x.b) = false → s.calm →
        let rs := places.map fun p => (p.1, pdotBank s p.2 (pdotRow (s.reg x.c) x p.1) x)
        exec (.pdot x) s = .next (s.commits (t.setHart ((t.hart.setElems x.d 32 (rs.map fun r => (r.1, r.2.1))).addFlags
          (rs.foldl (fun f r => f ||| r.2.2) 0))))

/-- R187 to R190: `acfg` binds its name to a physical accumulator, the one it had or else the lowest free one, with
zeros; `azero` zeroes the bound region, and `arel` unbinds. R198 to R201: `ald` and `ast` move the elements of the
bound region from `vstart` on, in row-major order, converting each, when its word is found; `arow` copies a row or a
column. The model's choice, inside `astValue`: the rounding of the scale product F adds its flags to each element that
uses it (log 69). -/
def Obligations.AccumulatorResults : Prop :=
  (∀ s : State, s.clean →
    (∀ (x : ACfg) (p : Nat), (s.hart.mma.any fun q => q.i.d == x.d) = false →
      (s.hart.acc[x.d].map AccReg.phys = some p ∨ s.hart.acc[x.d] = none
        ∧ (List.range 16).find? (fun n => !(usedAcc s s.coreId).contains n) = some p) →
      exec (.acfg x) s = .next (s.commitsHart { s.hart with
        acc := s.hart.acc.set x.d (some ⟨p, x.m1.toNat + 1, x.n1.toNat + 1, x.int, 0⟩) }))
    ∧ ∀ (d : AName) (r : AccReg), s.hart.acc[d] = some r → (s.hart.mma.any fun q => q.i.d == d) = false →
      exec (.arel d) s = .next (s.commitsHart { s.hart with acc := s.hart.acc.set d none })
        ∧ exec (.azero d) s = .next (s.commitsHart { s.hart with acc := s.hart.acc.set d (some { r with
          data := (accRegion r.rows r.cols).foldl (fun a p => accSet a (accPos p.1 p.2) 0) r.data }) }))
  ∧ (∀ (s t : State), s.clean →
    (∀ (x : ALoad) (r : AccReg), s.hart.acc[x.d] = some r → aldPair r.int x.mw = true →
      (s.hart.mma.any fun q => q.i.d == x.d) = false → s.hart.deferred = [] →
      State.Each (fun e p q => ∃ (v : Nat) (u : State),
          p.readsAcc x.mw (accEa (s.reg x.a) (s.reg x.b) x.mw x.stride x.off x.trans r.cols e) v u
            ∧ q = u.setHart ((u.hart.setAcc x.d [(accPos (e / r.cols) (e % r.cols), (aldValue x.mw v).1)]).addFlags
              (aldValue x.mw v).2)) (span s.hart.csr.vstart.toNat (r.rows * r.cols)) s t →
      exec (.ald x) s = .next (s.commits t.restart))
    ∧ (∀ (x : AStore) (r : AccReg), s.hart.acc[x.d] = some r → astPair r.int x.mw = true →
      (x.scaled = true → r.int = false) → (s.hart.mma.any fun q => q.i.d == x.d) = false → s.hart.deferred = [] →
      let f := if x.scaled then some (scaleFactor (s.reg x.s)) else none
      State.Each (fun e p q => ∃ u : State,
          let y := astValue r.int x.mw f (accGet r.data (accPos (e / r.cols) (e % r.cols)))
          p.writesAcc x.mw (accEa (s.reg x.a) (s.reg x.b) x.mw x.stride x.off x.trans r.cols e) y.1 u
            ∧ q = u.setHart (u.hart.addFlags y.2)) (span s.hart.csr.vstart.toNat (r.rows * r.cols)) s t →
      exec (.ast x) s = .next (s.commits t.restart))
    ∧ ∀ (x : ARow) (r : AccReg), s.hart.acc[x.a] = some r → x.int = r.int →
      (s.hart.mma.any fun q => q.i.d == x.a) = false →
      (s.srcZ x.idx).toNat < (if x.col then r.cols else r.rows) →
      let n := (s.srcZ x.idx).toNat
      exec (.arow x) s = .next (s.commitsHart ((List.range (if x.col then r.rows else r.cols)).foldl (fun h k =>
        h.setElem x.d 32 k (accGet r.data (if x.col then accPos k n else accPos n k))) s.hart)))

/-- R192, R195, R196: `mma` on a bound name of its kind and size commits with the operands it read, and what it writes
to the accumulator waits for its completion. R56 to R58, R194: what a completing `mma` writes: each element of the
updated region, and no other. The model's choice, inside `mmaFloat`: the sign of a zero product of integers is the
exclusive or of its operands' signs (log 70). -/
def Obligations.MmaResults : Prop :=
  (∀ (s : State) (x : Mma) (r : AccReg), s.clean → s.hart.acc[x.d] = some r → r.int = mmaInt x →
    x.sa.ext1.toNat < r.rows → x.sb.ext1.toNat < r.cols → (x.scaled = true ∨ x.fmt ≠ .q4) →
    (s.hart.mma.any fun q => q.i.d == x.d) = false →
    exec (.mma x) s = .next (s.commitsHart { s.hart with mma := s.hart.mma ++ [⟨x, mmaGroup s.hart x.fmt x.a x.sa,
      mmaGroup s.hart x.fmt x.b x.sb, s.hart.v[30], s.hart.v[31], if x.scaled then s.reg x.s else 0⟩] }))
  ∧ (∀ (p : PendingMma) (h : Hart) (r : AccReg), h.poison = [] → h.acc[p.i.d] = some r →
    let k := mmaFinish p h
    let f := if p.i.scaled then (scaleFactor p.s).1 else 0
    k.s = h.s ∧ k.v = h.v ∧ k.m = h.m ∧ k.c = h.c ∧ k.pc = h.pc ∧ (∀ a : AName, a ≠ p.i.d → k.acc[a] = h.acc[a])
      ∧ ∀ r', k.acc[p.i.d] = some r' → ∀ i j : Nat, i < 128 → j < 128 →
        accGet r'.data (accPos i j) = if i ≤ p.i.sa.ext1.toNat ∧ j ≤ p.i.sb.ext1.toNat then
            (if mmaInt p.i then mmaInt32 p (accGet r.data (accPos i j)) i j
              else (mmaFloat p f (accGet r.data (accPos i j)) i j).1 % 2 ^ 32)
          else accGet r.data (accPos i j))

/-- R204, R205, R208, R211: the tile-slot instructions complete on slots they may name: a look-up by tag, a claim with
a tag, the status word, the wait on a slot that is not busy, and the release, which zeroes the slot. R209, R219, R16:
`tfill` and `tdrain` hand a transfer of the slot to the engine when it has room, bind the mask, and make the slot
filling or draining. -/
def Obligations.TileResults : Prop :=
  ((∀ (s : State) (x : S2), s.canRead x.a = true →
    exec (.tlook x) s = .next (s.commitsHart (s.hart.writeS x.d
        (match (List.range 256).find? fun n => !(s.core.tile n).hidden && (s.core.tile n).owner == some s.hart.convoy
            && (s.core.tile n).tag == (s.reg x.a).truncate 48 with
          | some n => BitVec.ofNat 64 n
          | none => BitVec.allOnes 64)))
      ∧ ((s.reg x.a).toNat ≤ 255 → (s.core.tile (s.reg x.a).toNat).hidden = false →
        let t := s.core.tile (s.reg x.a).toNat
        exec (.tstat x) s = .next (s.commitsHart (s.hart.writeS x.d (t.word s.hart.convoy)))
          ∧ ((t.owner = some s.hart.convoy → t.busy = false) →
            exec (.twait x) s = .next (s.commitsHart (s.hart.writeS x.d (t.word s.hart.convoy))))))
    ∧ (∀ (s : State) (x : S3), s.canRead x.a = true → s.canRead x.b = true →
      let tagged (n : Nat) (v : Word) : Host.Outcome State Fault Refusal :=
        let u := s.setCore (s.core.setTile n
          { s.core.tile n with owner := some s.hart.convoy, tag := (s.reg x.b).truncate 48 })
        .next (s.commits (u.setHart (s.hart.writeS x.d v)))
      if s.reg x.a = BitVec.allOnes 64 then
        exec (.ttag x) s = (match (List.range 256).find? fun n =>
            !(s.core.tile n).hidden && (s.core.tile n).owner.isNone && (s.core.tile n).state == .empty with
          | some n => tagged n (BitVec.ofNat 64 n)
          | none => .next (s.commitsHart (s.hart.writeS x.d (BitVec.allOnes 64))))
      else
        let t := s.core.tile (s.reg x.a).toNat
        (s.reg x.a).toNat ≤ 255 → t.hidden = false → (t.owner = none ∨ t.owner = some s.hart.convoy) → t.busy = false →
          exec (.ttag x) s = tagged (s.reg x.a).toNat (s.reg x.a))
    ∧ ∀ (s : State) (a : SReg), s.canRead a = true → (s.reg a).toNat ≤ 255 →
      let t := s.core.tile (s.reg a).toNat
      t.hidden = false → t.owner = some s.hart.convoy → t.busy = false →
      exec (.trel a) s = .next (s.commits (freeSlot s.coreId (s.reg a).toNat s)))
  ∧ (∀ (s : State) (k : KName) (a b c : SReg), s.canRead a = true → s.canRead b = true → s.canRead c = true →
    let slot := s.reg a
    let n := (s.reg c).toNat
    let t := s.core.tile slot.toNat
    slot.toNat ≤ 255 → t.hidden = false → t.owner = some s.hart.convoy → t.busy = false → 0 < n → n ≤ 8192 →
    (tileNum (s.reg b)).isSome = false → s.core.transfers.length < 32 → s.performed →
    let moved (st : TileState) (m : MName) (x : Transfer) : Host.Outcome State Fault Refusal :=
      let u := s.started { x with total := n, row := n, slot := slot.toNat, mask := if m = 0 then none else some m }
      .next (s.commits (u.setCore (u.core.setTile slot.toNat { u.core.tile slot.toNat with state := st })))
    (∀ m : MName, s.unbound m → exec (.tfill ⟨k, a, b, c, m⟩) s = moved .filling m
        { hartTransfer s .tfill k m with dst := (3#64 <<< 62) + slot * 8192, src := s.reg b })
      ∧ (t.state ≠ .empty → exec (.tdrain ⟨k, a, b, c⟩) s = moved .draining 0
        { hartTransfer s .tdrain k 0 with dst := s.reg b, src := (3#64 <<< 62) + slot * 8192 }))

/-- R218, R219, R221, R222: `cpy` and `cpy2` hand a transfer to the engine when it has room and the hart's earlier
stores have performed, taking their closure's reference; `cstat` reads, and clears with `.clr`, the record of a counter.
That C stands where `cstat` names one register as D and C is the model's choice (log 19). -/
def Obligations.CopyResults : Prop :=
  (∀ (s : State) (x : Copy), s.canRead x.a = true → s.canRead x.b = true → s.canRead x.c = true →
    (tileNum (s.reg x.a)).isSome = false → (tileNum (s.reg x.b)).isSome = false → s.performed →
      s.closureOk x.cl → s.unbound x.m →
    s.core.transfers.length < 32 →
    let chunk := 512 * 2 ^ x.chk.toNat
    let sized (total : Nat) : Prop := total ≤ 2 ^ 40 ∧ (x.m = 0 ∨ (total + chunk - 1) / chunk ≤ 16384)
    let started (t : Transfer) : Host.Outcome State Fault Refusal :=
      let u := s.tookClosure x.cl
      .next (s.commits (u.started { t with
        dst := s.reg x.a, src := s.reg x.b, chunk := chunk, cl := s.closurePost x.cl x.k }))
    let n := (s.reg x.c).toNat
    let row := n % 2 ^ 32
    let rows := n / 2 ^ 32
    let p := (s.reg (x.c + 1)).toNat
    (sized n → exec (.cpy x) s = started { hartTransfer s .cpy x.k x.m with total := n, row := n })
      ∧ (s.canRead (x.c + 1) = true → sized (rows * row) → exec (.cpy2 x) s = started
        { hartTransfer s .cpy2 x.k x.m with
            total := rows * row, row := row, dpitch := sext 32 p, spitch := sext 32 (p / 2 ^ 32) }))
    ∧ ∀ (s : State) (x : CStat),
      let e := s.convoy.kerr[x.k]
      let u := if x.clr then s.setConvoy { s.convoy with kerr := s.convoy.kerr.set x.k ⟨0, 0⟩ } else s
      exec (.cstat x) s = .next (s.commits (u.setHart ((s.hart.writeS x.d e.word).writeS x.c e.addr)))

/-- R223 to R225: a merge on ordinary words, its block read once, runs its steps to the ends of both lists, from the
position and the count that `mpos` and s[D] hold; then `mpos` is 0 and s[D] the count. -/
def Obligations.MergeResults : Prop :=
  ∀ (s t u : State) (d a : SReg) (ws : List Nat) (n : Nat) (ty : EType) (kz ix64 : Bool), s.live → s.clean →
    s.hart.merge = none →
    (s.reg a).toNat % 64 = 0 → s.readsBlock (s.reg a) ws t →
    let w (i : Nat) : Word := BitVec.ofNat 64 (ws.getD i 0)
    let m (op : MergeOp) (ty : EType) (kz : Bool) : MergeArgs :=
      { op, t := ty, kz, ix := if ix64 then 8 else 4, idxa := w 0, vala := w 1, cnta := (w 2).toNat, idxb := w 3, valb := w 4
        cntb := (w 5).toNat, oidx := w 6, oval := w 7 }
    let pa := s.hart.csr.posa.toNat
    let pb := s.hart.csr.posb.toNat
    let n0 := if pa = 0 ∧ pb = 0 then 0 else (s.reg d).toNat
    (w 2).toNat < 2 ^ 32 → (w 5).toNat < 2 ^ 32 →
    let ends : State := u.setHart (Hart.writeS d (BitVec.ofNat 64 n)
      { u.hart with csr := { u.hart.csr with posa := 0, posb := 0 } })
    (State.Merges (m .union ty kz) pa pb n0 t n u → exec (.munion ⟨ty, d, a, kz, ix64⟩) s = .next (s.commits ends))
      ∧ (State.Merges (m .inter ty kz) pa pb n0 t n u → exec (.minter ⟨ty, d, a, kz, ix64⟩) s = .next (s.commits ends))
      ∧ ∀ inter : Bool, State.Merges (m (.count inter) .i32 false) pa pb n0 t n u →
        exec (.mcount ⟨d, a, inter, ix64⟩) s = .next (s.commits ends)

/-- R335, R338, R339, R346: a depot command on a region granted to the hart's virtual device is accepted at commit,
taking its closure's reference; `dquery` reads the region's record. -/
def Obligations.DepotResults : Prop :=
  (∀ (s : State) (x : DCmd), s.canRead x.a = true → (s.reg x.a).toNat < 4096 → s.closureOk x.cl →
    s.performed → s.hart.posted = 0 → (s.regionOf (s.reg x.a).toNat).grant = some s.ctx.vdev →
    let given (kind : DepotKind) : Host.Outcome State Fault Refusal :=
      let u := s.tookClosure x.cl
      .next (s.commits { acceptCommand (s.reg x.a).toNat { hartCommand s kind x.k with cl := s.closurePost x.cl x.k } u with
        nextItem := s.nextItem + 1 })
    exec (.dopen x) s = given .dopen ∧ exec (.dseal x) s = given .dseal)
    ∧ (∀ (s : State) (x : Stow), s.canRead x.a = true → s.canRead x.b = true → s.canRead x.c = true → s.closureOk x.cl →
      let v := (s.reg x.a).toNat
      let region := v % 2 ^ 12
      let unit := v / 2 ^ 16
      let len := (s.reg x.c).toNat
      s.performed → s.hart.posted = 0 → v < 2 ^ 32 → v / 2 ^ 12 % 16 = 0 → unit ≤ 16383 →
      (s.regionOf region).grant = some s.ctx.vdev → len % 65536 = 0 → unit * 65536 + len ≤ 2 ^ 30 →
      exec (.stow x) s = .next (s.commits { acceptCommand region { hartCommand s .stow x.k with
        unit := unit, units := len / 65536, src := s.reg x.b, cl := s.closurePost x.cl x.k } (s.tookClosure x.cl) with
          nextItem := s.nextItem + 1 }))
    ∧ ∀ (s : State) (x : S2), s.canRead x.a = true → (s.reg x.a).toNat < 4096 →
      (s.regionOf (s.reg x.a).toNat).grant = some s.ctx.vdev →
      exec (.dquery x) s = .next (s.commitsHart (s.hart.writeS x.d (s.regionOf (s.reg x.a).toNat).word))

/-- R228 to R233, R236, R237: the closure instructions complete on valid handles: a capture fills the oldest free
frame, `cdup` and `cdrop` count references, `cenv` reads the frame of `env`, and the moves copy handles unchecked.
R234, R104, R238: `apply` calls the entry of a valid handle, pushing a frame and setting `env`; `applyq` takes a
reference and appends its post to the core's queue. -/
def Obligations.ClosureResults : Prop :=
  (∀ s : State,
    (∀ (d : CName) (a : SReg) (bm : BitVec 32) (f : Nat) (rest : List Nat), s.canRead a = true →
      (∀ r ∈ bitmapRegs bm, s.canRead r = true) → s.window.2.order = f :: rest →
      let entry := s.reg a
      let off := lineOf entry - s.ctx.codebase
      let w := s.window.2
      let vals := (bitmapRegs bm).map s.reg
      pcBreaks entry = false → off.toNat < 2 ^ 35 →
      let made (ref : Bool) (data : Vector Word 16) : Host.Outcome State Fault Refusal :=
        let u := s.withWindow { w.setFrame f { w.frame f with
          refc := 1, cnt := BitVec.ofNat 4 vals.length, ref := ref, live := true, data := data,
            poison := [] } with order := rest }
        .next (s.commits (u.setHart (clearPoison (isClosureSite d) { s.hart with c := s.hart.c.set d (BitVec.ofNat 64
          (off.toNat / 64 * 2 ^ 35 + slotOf entry * 2 ^ 32 + f * 2 ^ 12 + (w.frame f).gen.toNat)) })))
      let data := fillData vals (Vector.replicate 16 0)
      exec (.capture ⟨d, a, bm⟩) s = made false data
        ∧ ∀ b : SReg, s.canRead b = true → exec (.capref ⟨d, a, b, bm⟩) s = made true ((data.set 14 (s.reg b)).set 15
          ((s.hart.instNo.zeroExtend 64 <<< 32) ||| s.hart.csr.frame.zeroExtend 64)))
    ∧ (∀ d a : CName, s.canReadC a = true → s.holds s.hart.c[a] →
      let h := s.hart.c[a]
      let u := s.withWindow (s.window.2.drop (hFrame h))
      exec (.cdrop a) s = .next (s.commits (u.setHart (clearPoison (isClosureSite a) { s.hart with c := s.hart.c.set a 0 })))
        ∧ (s.holdsRef h →
          let u := s.withWindow (s.window.2.take (hFrame h))
          exec (.cdup d a) s = .next (s.commits (u.setHart
            (clearPoison (isClosureSite d) { s.hart with c := s.hart.c.set d h })))))
    ∧ (∀ (d : SReg) (k : BitVec 4), s.holds s.hart.csr.env →
      let x := s.window.2.frame (hFrame s.hart.csr.env)
      (k.toNat ≤ 13 → k.toNat < x.cnt.toNat → frameBad x k.toNat = false →
        exec (.cenv d k) s = .next (s.commitsHart (s.hart.writeS d x.data[k.toNat])))
        ∧ (13 < k.toNat → x.ref = true → x.poison = [] →
          frameLive s (x.data[15].extractLsb' 32 32) (x.data[15].extractLsb' 0 32) = true →
          exec (.cenv d k) s = .next (s.commitsHart (s.hart.writeS d x.data[14]))))
    ∧ ∀ (d : SReg) (c : CName),
      (s.canRead d = true → exec (.cldR c d) s = .next (s.commitsHart
        (clearPoison (isClosureSite c) { s.hart with c := s.hart.c.set c (s.reg d) })))
        ∧ (s.canReadC c = true → exec (.cstR d c) s = .next (s.commitsHart (s.hart.writeS d s.hart.c[c]))))
  ∧ ((∀ (s t : State) (a : CName), s.canReadC a = true → s.holds s.hart.c[a] →
    let h := s.hart.c[a]
    s.reaches (entryOf s.ctx.codebase h) true t →
    exec (.apply a) s = .next (s.jumps (t.setHart { pushFrame s.hart with
      csr := { (pushFrame s.hart).csr with env := h } }) (entryOf s.ctx.codebase h)))
    ∧ ∀ (s : State) (x : ApplyQ), s.canReadC x.a = true → s.canRead x.c = true → s.holdsRef s.hart.c[x.a] →
      (s.reg x.c).toNat % 8 = 0 → postsTaken s s.coreId < 128 → s.settled →
      exec (.applyq x) s = .next (s.commits (appendPost s.coreId (hartPost s s.hart.c[x.a] x.k (s.reg x.c) false)
        (s.withWindow (s.window.2.take (hFrame s.hart.c[x.a]))))))

/-- R290, R78, R285: a `fence` whose named accesses have performed completes; with kind O it reads zero bytes at the
address of the hart's last host write, and from core scope on the hart fetches lines as they now stand. That it completes
in the step of this read, whose answer R285 and R290 make it wait for, is the model's choice (logs 9 and 53). R294: a flag
at an ordinary word is stored once the hart's earlier stores have performed. R113, R294, R369: at an address of the
fabric window a store and a flag complete when their item is sent, a flag covering the hart's outstanding items to its
package, and a load completes with the response it waited for. -/
def Obligations.FenceFabricResults : Prop :=
  ((∀ (s : State) (x : Fence), s.hart.deferred = [] → (x.kinds.e = true → enginePending s = false) →
    (x.kinds.d = true → depotPending s = false) → (x.kinds.f = true → hartItems s = []) →
    (∀ i ∈ hartItems s, (flagKey i).any (fun k => kindCovers x.kinds s.coreId k && inDomain x.scope s.coreId k) = false) →
    let u : State := match x.kinds.o, s.hart.hostLast with
      | true, some a =>
        { s.setHart { s.hart with hostLast := none } with hostFlushes := (a, s.hostWrites.length) :: s.hostFlushes }
      | _, _ => s
    exec (.fence x) s = .next (s.commits (if x.scope = .hart ∨ x.scope = .convoy then u
      else u.setHart { u.hart with code := s.mem })))
    ∧ ∀ (s t : State) (l : Loc) (x : Fsig), s.canRead x.a = true → s.canReadSrc x.b = true →
      s.finds .fsig .store (s.reg x.a) (tBytes x.t) l t → (t.coreOf (l.key / 2 ^ 30)).fenced = false →
      exec (.fsig x) s = .next (s.commits
        (pokeN l.key (tBytes x.t) ((s.src x.b).toNat % 2 ^ tBits x.t) (t.after (meter l.key (tBytes x.t))))))
  ∧ (∀ s : State, s.hart.deferred = [] →
    (∀ x : SStore, s.canRead x.a = true → s.canReadSrc x.b = true → s.canRead x.c = true → s.hart.posted = 0 → x.rel = none →
      let va := s.reg x.a + s.src x.b
      locate .scalar .store va (tBytes x.t) none none s = .ok .remote s →
      exec (.st x) s = .next (s.commits (sendItem (hartItem s va x.t
        (.store (BitVec.ofNat 64 ((s.reg x.c).toNat % 2 ^ tBits x.t))) x.unord false 0) s)))
    ∧ (∀ x : Fsig, s.canRead x.a = true → s.canReadSrc x.b = true →
      let va := s.reg x.a
      let mine := (hartItems s).filter fun i => i.dst == fabricPkg va
      locate .fsig .store va (tBytes x.t) none none s = .ok .remote s → (∀ i ∈ mine, i.failed = none) →
      exec (.fsig x) s = .next (s.commits (sendItem { hartItem s va x.t
        (.store (BitVec.ofNat 64 ((s.src x.b).toNat % 2 ^ tBits x.t))) false false 0 with
        covers := mine.map Item.id, unsent := !(mine.map Item.id).isEmpty } s)))
    ∧ ∀ (x : SLoad) (v : Word), s.canRead x.a = true → s.canReadSrc x.b = true → s.hart.pair = none →
      s.hart.resp.head?.map Prod.snd = some (.value v) →
      locate .scalar .load (s.reg x.a + s.src x.b) (tBytes x.t) none none s = .ok .remote s →
      exec (.ld x) s = .next (s.commitsHart (Hart.writeS x.d (extendTo x.t (v.toNat % 2 ^ (8 * tBytes x.t)))
        { s.hart with resp := s.hart.resp.tail })))

/-- R261, R262, R115: the last participant that arrives completes the convoy barrier: every participant commits its
instruction and the arrivals are cleared; with `vcfg`, `vtype` is set, every `vl` and `vstart` is 0, and each
destination gets VLMAX. R274: the last of the participants that arrives completes a cluster barrier: all of them
commit and the barrier is idle again, with no count, owner or arrival. -/
def Obligations.BarrierResults : Prop :=
  (∀ s : State, let u := s.hart.convoy
    let gs := participants s u
    let passed (t : State) (g : Nat) : Prop := (t.hartOf g).pc = nextSlot (s.hartOf g).pc
      ∧ (t.hartOf g).status = .running ∧ (t.hartOf g).csr.instret = (s.hartOf g).csr.instret + 1
    s.cur ∈ gs → gs.Nodup → s.hart.waitsAt = none → s.performed →
    (∀ g ∈ gs, (s.hartOf g).convoy = u ∧ (s.hartOf g).deferred = []) →
    ((∀ g ∈ gs, g ≠ s.cur → arrival s g = some .bar) →
      ∃ t, exec .bar s = .next t ∧ (∀ g ∈ gs, passed t g) ∧ (t.convoyOf u).arrived = 0 ∧ t.mem = s.mem)
      ∧ ∀ x : VCfg, (∀ g ∈ gs, g ≠ s.cur → ∃ y, arrival s g = some (.vcfg y) ∧ y.ew = x.ew ∧ y.grp = x.grp) →
        ∃ t, exec (.vcfg x) s = .next t ∧ (∀ g ∈ gs, passed t g ∧ (t.hartOf g).csr.vl = 0 ∧ (t.hartOf g).csr.vstart = 0)
          ∧ (t.convoyOf u).ew = x.ew ∧ (t.convoyOf u).grp = x.grp ∧ (t.convoyOf u).arrived = 0 ∧ t.mem = s.mem
          ∧ ∀ (g : Nat) (y : VCfg), g ∈ gs → (if g = s.cur then y = x else arrival s g = some (.vcfg y)) → y.d ≠ 0 →
            (t.hartOf g).s[y.d] = BitVec.ofNat 64 (2 ^ x.grp.toNat * 2048 / 2 ^ x.ew.toNat))
  ∧ (∀ (s : State) (x : SPair), s.canRead x.a = true → s.canRead x.b = true →
    let n := (s.reg x.a).toNat
    let cnt := (s.reg x.b).toNat
    let cl := s.coreId / 8
    let b := (s.clusterOf cl).cbar n
    let all := b.waiting ++ [s.cur]
    n ≤ 15 → 1 ≤ cnt → cnt ≤ 64 → (b.count = 0 ∧ b.waiting = [] ∧ cnt = 1 ∨ b.count = cnt ∧ b.asid = s.ctx.asid) →
    all.length = cnt → all.Nodup → s.performed → (∀ g ∈ all, (s.hartOf g).deferred = []) →
    ∃ t, exec (.cbar x) s = .next t ∧ (∀ g ∈ all, (t.hartOf g).pc = nextSlot (s.hartOf g).pc
        ∧ (t.hartOf g).waitsAt = none ∧ (t.hartOf g).csr.instret = (s.hartOf g).csr.instret + 1)
      ∧ (t.clusterOf cl).cbar n = { count := 0, asid := 0, waiting := [] } ∧ t.mem = s.mem)

/-- R215, R216, R265, R266: a wait whose counter is at its target, an addition to a counter, and the queue
instructions that find room or an entry (or are `.nb`) complete. -/
def Obligations.CounterQueueResults : Prop :=
  ∀ s : State,
    (∀ x : WaitK, s.canReadSrc x.b = true → (s.srcZ x.b).toNat ≤ (s.convoy.k[x.k]).toNat →
      exec (.wait x) s = .next (s.commitsHart (s.hart.writeS x.d s.convoy.k[x.k])))
    ∧ (∀ x : KAdd, s.canReadSrc x.a = true → (s.srcZ x.a).toNat < 2 ^ 63 → s.settled →
      exec (.kadd x) s = .next (s.commits (s.setConvoy
        { s.convoy with k := s.convoy.k.set x.k (s.convoy.k[x.k] + s.srcZ x.a) })))
    ∧ (∀ (x : QPut) (u : Nat), s.canReadSrc x.a = true →
      (if x.par then (∃ k, s.convoy.poster = some (u, k)) ∧ (mget s.convoys u).isSome = true ∧ (s.convoyOf u).ended = false
          ∧ (s.convoyOf u).core = some s.coreId
        else u = s.hart.convoy) →
      let q := (s.convoyOf u).q[x.q]
      let flagged (t : State) (v : Word) : State := match x.nb with
        | some c => t.setHart (t.hart.writeS c v)
        | none => t
      (q.length < 16 → s.performed → exec (.qput x) s = .next (s.commits (flagged
        (s.setConvoyOf u { s.convoyOf u with q := (s.convoyOf u).q.set x.q (q ++ [s.src x.a]) }) 1)))
        ∧ (16 ≤ q.length → x.nb.isSome = true → exec (.qput x) s = .next (s.commits (flagged s 0))))
    ∧ ∀ x : QGet,
      let q := s.convoy.q[x.q]
      let flagged (h : Hart) (v : Word) : Hart := match x.nb with
        | some c => h.writeS c v
        | none => h
      (∀ v rest, q = v :: rest → (x.nb = none → qgetBehind s x.q = false) → exec (.qget x) s = .next (s.commits
        ((s.setConvoy { s.convoy with q := s.convoy.q.set x.q rest }).setHart (flagged (s.hart.writeS x.d v) 1))))
        ∧ (q = [] → x.nb.isSome = true → exec (.qget x) s = .next (s.commits
          (match x.nb with
            | some c => s.setHart (s.hart.writeS c 0)
            | none => s)))

/-- R319, R317: `launch` enqueues the packet it reads on a live queue of its virtual device that has room. R375:
`glaunch` sends RESERVE to every member of its gang. R269, R270: `yield` writes 0 when no waiting convoy wants the
core, and when one does and the route log has room its convoy is to leave: it is saved at once if it can be and else
admits no unit until it can, to find 1 in s[D] on restore (R269 says that the dispatcher may do so; that it does is the
model's choice: log 43); `exit` ends the hart, with status 0 in the user view and `xcause` in the supervisor view. -/
def Obligations.LaunchResults : Prop :=
  (∀ (s t : State) (x : Launch) (ws : List Nat), s.canRead x.a = true → s.canRead x.b = true → s.canRead x.c = true →
    (s.reg x.a).toNat % 64 = 0 → (s.reg x.c).toNat % 8 = 0 → s.readsBlock (s.reg x.a) ws t →
    let p := Packet_.ofWords ws
    (∀ cl ctx, liveQueue s (s.reg x.b) = some (cl, ctx) → Packet_.ok p cl = true → heldFirst t ctx = false →
      routeRoom (t.ctxOf ctx) 1 = true → queueFill t (s.reg x.b).toNat < 64 → s.settled →
      exec (.launch x) s = .next (s.commits (enqueue (s.reg x.b).toNat p
        { status := s.reg x.c, counter := some (s.hart.convoy, x.k), ctx := s.ctxId, view := s.hart.mode, gang := none
          reserved := [], detBase := none, logHeld := false } t)))
      ∧ ∀ (u v : State) (w : Nat) (ks : List (Nat × Nat)), (s.reg x.b).toNat ≤ 255 → s.ctx.fcid ≠ 0 →
        State.reads (s.reg x.a + 64) 8 w t u →
        State.Each (fun (i : Nat) a b => State.reads (s.reg x.a + BitVec.ofNat 64 (72 + 4 * i)) 4 ((mget ks i).getD 0) a b)
          (List.range (w % 2 ^ 18 + 1)) u v →
        let block : GangBlock := ⟨p, w, (List.range (w % 2 ^ 18 + 1)).map fun i => (mget ks i).getD 0⟩
        block.ok = true → s.idleAt .system →
        exec (.glaunch x) s = .next (s.commits (sendReserve x (s.reg x.b).toNat (s.reg x.c) block v)))
  ∧ ((∀ (s : State) (d : SReg), (s.convoy.cls = 0 ∨ wanted s s.hart.convoy s.coreId false = false) →
    exec (.yield d) s = .next (s.commitsHart (s.hart.writeS d 0)))
    ∧ (∀ (s : State) (d : SReg), s.convoy.cls ≠ 0 → wanted s s.hart.convoy s.coreId false = true →
      let may := mayRoute s s.ctxId && (saveNow s.hart.convoy s).isSome
      (may = true → exec (.yield d) s = .next (leave s.hart.convoy (commitHart (Hart.writeS d 1) s s.cur)))
        ∧ (may = false → let u := toldFull s.ctxId s
          exec (.yield d) s = .next (s.commits (u.setHart (u.hart.writeS d 0)))))
    ∧ ∀ s : State, s.hart.mma = [] → s.hart.deferred = [] → hartItems s = [] → s.hart.flushFault = none →
      ∃ t, exec .exit s = .next t
        ∧ t.hart.status = .ending (if s.hart.mode = .user then 0 else s.hart.csr.xcause) 1
        ∧ t.hart.csr.instret = s.hart.csr.instret + 1 ∧ t.hart.s = s.hart.s ∧ t.mem = s.mem)

/-- R162, R153: `trap` commits and the hart enters its handler with cause 0x19 and the number in `xaddr`, `xpc` naming
the next unit; R271: without a handler it ends. R163: `eret` returns to `xpc` in the mode of `xstat`.PP when the target
can be fetched there. -/
def Obligations.TrapReturn : Prop :=
  (∀ (s : State) (n : BitVec 16), let h := s.hart
    ∃ t, exec (.trap n) s = .next t ∧ t.hart.mode = .supervisor ∧ t.hart.pc = lineOf h.csr.tvec
      ∧ t.hart.status = (if lineOf h.csr.tvec = 0 then .ending 0x19 1 else .running)
      ∧ t.hart.csr = { h.csr with
          instret := h.csr.instret + 1, xcause := 0x19, xpc := nextSlot h.pc, xaddr := n.zeroExtend 64
          xstat := if h.mode = .supervisor then 1 else 0 }
      ∧ t.hart.s = h.s ∧ t.hart.v = h.v ∧ t.hart.m = h.m ∧ t.hart.acc = h.acc ∧ t.hart.c = h.c ∧ t.mem = s.mem
      ∧ ∀ u v : State, u.hart = { t.hart with status := .running } → checkReturn (nextSlot h.pc) u = .ok () v →
        ∃ w, exec .eret u = .next w ∧ w.hart.pc = nextSlot h.pc)
    ∧ ∀ (s t : State), s.hart.mode = .supervisor →
      let mode : Mode := if s.hart.csr.xstat.getLsbD 0 then .supervisor else .user
      checkReturn s.hart.csr.xpc s = .ok () t →
      exec .eret s = .next (s.jumps (t.setHart { t.hart with mode := mode }) s.hart.csr.xpc)

/-- R153: taking an exception at a unit saves the pc, the cause and what the cause makes valid, sets `xstat`, and goes
to the handler in the supervisor view; nothing else of the hart changes but its status and what the unit had under way
(`resp`, `posted`, `firm`, `pair`, `merge` and `aged`, which are the model's). R271: with `tvec`.LINE = 0 an
exception ends the hart with its cause as its status. -/
def Obligations.ExceptionEntry : Prop :=
  (∀ (x : Trap) (paired : Bool) (pc : Word) (h : Hart), lineOf h.csr.tvec ≠ 0 →
    takeTrap x paired pc h = { h with
      mode := .supervisor, pc := lineOf h.csr.tvec, status := .running, resp := [], posted := 0, firm := false
      pair := none, merge := none, aged := false
      csr := { h.csr with
        xcause := x.cause, xpc := pc
        xaddr := match x.addr, x.num with
          | some a, _ => a
          | none, some n => n
          | none, none => h.csr.xaddr
        xelem := match x.elem with
          | some e => BitVec.ofNat 14 e
          | none => h.csr.xelem
        xbank := match x.bank with
          | some b => BitVec.ofNat 5 b
          | none => h.csr.xbank
        xstat := BitVec.ofNat 5 ((if x.addr.isSome then 16 else 0) + (if x.bank.isSome then 8 else 0)
          + (if x.elem.isSome then 4 else 0) + (if paired then 2 else 0) + (if h.mode = .supervisor then 1 else 0)) } })
  ∧ (∀ (x : Trap) (paired : Bool) (pc : Word) (h : Hart), lineOf h.csr.tvec = 0 →
    (takeTrap x paired pc h).status = .ending x.cause 1 ∧ (takeTrap x paired pc h).csr.xcause = x.cause
      ∧ (takeTrap x paired pc h).s = h.s)

/-- R87: a supervisor instruction in the user view raises 0x04 and has none of its effect. R85, R87: a reserved encoding
takes its exception when it would execute, and its entry is its effect. In the user view it is privilege (0x04) where its
class and op are a supervisor instruction's of class 0x08, or those of a CSR access whose number is 0x800 or above;
everywhere else, and always in the supervisor view, it is illegal instruction (0x01). -/
def Obligations.PrivilegedAndReserved : Prop :=
  (∀ s : State, s.hart.mode = .user →
    (∀ i ∈ [Instr.eret, .tlbiAll, .halt], exec i s = .next (s.traps s { cause := 0x04 }))
      ∧ (∀ b, exec (.tlbiAsid b) s = .next (s.traps s { cause := 0x04 }))
      ∧ (∀ x, exec (.tlbiVa x) s = .next (s.traps s { cause := 0x04 }))
      ∧ (∀ x, exec (.ctxsave x) s = .next (s.traps s { cause := 0x04 })
        ∧ exec (.ctxload x) s = .next (s.traps s { cause := 0x04 }))
      ∧ (∀ x, exec (.logctlSync x) s = .next (s.traps s { cause := 0x04 }))
      ∧ (∀ x, exec (.logctlMark x) s = .next (s.traps s { cause := 0x04 }))
      ∧ (∀ x, exec (.logctlSwap x) s = .next (s.traps s { cause := 0x04 }))
      ∧ ∀ x : Csr, 0x800 ≤ x.csr.toNat →
        exec (.csrr x) s = .next (s.traps s { cause := 0x04 }) ∧ exec (.csrw x) s = .next (s.traps s { cause := 0x04 })
          ∧ exec (.csrs x) s = .next (s.traps s { cause := 0x04 }) ∧ exec (.csrc x) s = .next (s.traps s { cause := 0x04 }))
  ∧ ∀ (s : State) (w : IWord),
    let cls := w.toNat / 2 ^ 90 % 2 ^ 6
    let op := w.toNat / 2 ^ 82 % 2 ^ 8
    let privileged := cls = 0x08 ∧ (op ∈ [0x02, 0x07, 0x08, 0x09, 0x0A, 0x0B]
      ∨ op ∈ [0x03, 0x04, 0x05, 0x06] ∧ 0x800 ≤ w.toNat % 2 ^ 12)
    exec (.reservedEncoding w) s = .next (s.traps s
      { cause := if s.hart.mode = .user ∧ privileged then 0x04 else 0x01 })

/-- R23, R24, R164: a CSR read gives the register's value; a write, a set and a clear of a hart's own register put the
new value there and the old one in s[D]. -/
def Obligations.CsrResults : Prop :=
  ∀ (s : State) (x : Csr) (old : Word), (x.csr.toNat < 0x800 ∨ s.hart.mode = .supervisor) →
    csrRead s x.csr.toNat = some old → (x.csr = 7 → s.hart.mma = []) →
    exec (.csrr x) s = .next (s.commitsHart (s.hart.writeS x.d old))
      ∧ (s.canRead x.a = true → (x.csr.toNat < 0x400 ∨ 0x800 ≤ x.csr.toNat) →
        let n := x.csr.toNat
        let written (new w1c : Word) : Host.Outcome State Fault Refusal :=
          let u := s.setHart { s.hart with csr := csrSet n new s.hart.csr }
          let v := u.setCtxOf s.ctxId (ctxSet n new w1c s.ctx)
          .next (s.commits (v.setHart (v.hart.writeS x.d old)))
        let ok (new : Word) : Prop := n = 8 → new.toNat % 8 ≤ 4
        (ok (s.reg x.a) → exec (.csrw x) s = written (s.reg x.a) (s.reg x.a))
          ∧ (ok (old ||| s.reg x.a) → exec (.csrs x) s = written (old ||| s.reg x.a) (s.reg x.a))
          ∧ (ok (old &&& ~~~s.reg x.a) → exec (.csrc x) s = written (old &&& ~~~s.reg x.a) 0))

/-- R307: `tlbi` removes entries from every TLB of the virtual device once no held update or flag of its harts is left:
all, those of an ASID, or those of an ASID that cover an address. R331: `logctl.sync` answers the head of a log whose
entries are written, `logctl.swap` also installs a new buffer, and `logctl.mark` enters a marker, or answers all ones when
the log is off. R165, R358: `halt` stops the hart after its unit, and cause 5 is raised at the virtual function of its
virtual device, or, where none is bound, at the physical one, which is the model's choice inside `fnOfVdev` (log 22).
R166: a `wfe` whose word differs writes 0 at once. -/
def Obligations.SystemResults : Prop :=
  (∀ s : State, s.hart.mode = .supervisor → s.settled → (∀ p ∈ s.harts, p.2.deferred = []) →
    (∀ c ∈ s.convoys, ∀ o ∈ c.2.out, o.2.deferred = []) → (∀ i ∈ s.items, flagKey i = none) →
    exec .tlbiAll s = .next (s.commits (dropTlb s.ctx.vdev (fun _ => true) s))
      ∧ (∀ b : SReg, s.canRead b = true → exec (.tlbiAsid b) s =
        .next (s.commits (dropTlb s.ctx.vdev (fun e => e.asid == (s.reg b).truncate 16) s)))
      ∧ ∀ x : SPair, s.canRead x.a = true → s.canRead x.b = true → exec (.tlbiVa x) s =
        .next (s.commits (dropTlb s.ctx.vdev (fun e => e.asid == (s.reg x.b).truncate 16
          && decide (e.base ≤ (s.reg x.a).toNat)
          && decide ((s.reg x.a).toNat < e.base + 2 ^ leafBits e.leaf.toNat)) s)))
  ∧ (∀ s : State, s.hart.mode = .supervisor →
    let logOf (order : Bool) : Log := if order then s.ctx.order else s.ctx.route
    let withLog (order : Bool) (l : Log) : State :=
      s.setCtxOf s.ctxId (if order then { s.ctx with order := l } else { s.ctx with route := l })
    let written (order : Bool) : Prop := (logOf order).pending = [] ∧ (logOf order).held = 0
      ∧ (order = true → ∀ d ∈ s.hart.deferred, d.place = none)
    (∀ x : LogSync, written x.order →
      exec (.logctlSync x) s = .next (s.commitsHart (s.hart.writeS x.d (logOf x.order).head)))
      ∧ (∀ x : LogSwap, s.canRead x.a = true → s.canRead x.b = true → written x.order →
        (s.reg x.a).toNat % 16 = 0 → (s.reg x.b).toNat % 16 = 0 → (s.reg x.a).toNat ≤ (s.reg x.b).toNat →
        exec (.logctlSwap x) s = .next (s.commits ((withLog x.order { logOf x.order with
          base := s.reg x.a, head := s.reg x.a, limit := s.reg x.b, full := false }).setHart
            (s.hart.writeS x.d (logOf x.order).head))))
      ∧ ∀ x : S2, s.canRead x.a = true →
        let l := s.ctx.order
        (l.en = false → exec (.logctlMark x) s = .next (s.commitsHart (s.hart.writeS x.d (BitVec.allOnes 64))))
          ∧ (l.en = true → l.room 1 = true → exec (.logctlMark x) s = .next (s.commits ((withLog true
            (l.reserve (orderEntry s.cur 15 0 s.hart.csr.instret.toNat ((s.reg x.a).toNat % 2 ^ 59)))).setHart
              (s.hart.writeS x.d l.head)))))
  ∧ ((∀ s : State, s.hart.mode = .supervisor → s.hart.mma = [] → s.settled →
    let f := fnOfVdev s s.ctx.vdev
    ∃ t, exec .halt s = .next t ∧ t.hart = { retire 1 (nextSlot s.hart.pc) s.hart with status := .halted } ∧ t.mem = s.mem
      ∧ (t.fnOf f).intcause.getLsbD 5 = true
      ∧ t.replies = if (s.fnOf f).intcause.getLsbD 5 then s.replies else .interrupt f 5 :: s.replies)
    ∧ ∀ (s t : State) (l : Loc) (x : S3), s.canRead x.a = true → s.canRead x.b = true →
      s.finds .wfe .load (s.reg x.a) 4 l t → dataError t l.key = none →
      memReadN s.mem l.key 4 ≠ (s.reg x.b).toNat % 2 ^ 32 →
      exec (.wfe x) s = .next (s.commits ((t.after (meter l.key 4)).setHart (s.hart.writeS x.d 0))))

/-- R251, R252: on a record whose pages can be accessed, `ctxsave` and `ctxload` answer 1 when no halted hart of the
context stands in the slot; otherwise `ctxsave` writes the hart's record and answers 0, and `ctxload` replaces the
hart's state by a valid record's and answers 0, or 3 for a record that is not valid and 2 where too few accumulators are
free. -/
def Obligations.ContextRecordResults : Prop :=
  ∀ (s t : State) (x : S3), s.hart.mode = .supervisor → s.canRead x.a = true → s.canRead x.b = true →
    let base := s.reg x.b
    (checkRecord .store base s = .ok () t →
      (haltedTarget t (s.reg x.a) = none → exec (.ctxsave x) s = .next (s.commits (t.setHart (t.hart.writeS x.d 1))))
        ∧ ∀ (g : Nat) (u : State), haltedTarget t (s.reg x.a) = some g → (t.hartOf g).mma = [] → (t.hartOf g).poison = [] →
          State.Each (fun (p : Nat × Nat × Nat) a b => ∃ (v : State) (l : Loc),
              a.finds .scalar .store (base + BitVec.ofNat 64 p.1) p.2.1 l v ∧ (v.coreOf (l.key / 2 ^ 30)).fenced = false
                ∧ b = pokeN l.key p.2.1 p.2.2 (v.after (meter l.key p.2.1)))
            (hartWords (t.hartOf g) (t.convoyOf (t.hartOf g).convoy).ewBytes 0) t u →
          exec (.ctxsave x) s = .next (s.commits (u.setHart (u.hart.writeS x.d 0))))
      ∧ (checkRecord .load base s = .ok () t →
        (haltedTarget t (s.reg x.a) = none → exec (.ctxload x) s = .next (s.commits (t.setHart (t.hart.writeS x.d 1))))
          ∧ ∀ (g : Nat) (u : State), haltedTarget t (s.reg x.a) = some g → (t.hartOf g).mma = [] →
            (readHart (recordWord base) (t.hartOf g) t = .ok none u →
              exec (.ctxload x) s = .next (s.commits (u.setHart (u.hart.writeS x.d 3))))
            ∧ ∀ h : Hart, readHart (recordWord base) (t.hartOf g) t = .ok (some h) u →
              let claimed := claimAccs (freeAccs (usedAcc { u with harts := merase u.harts g } u.coreId)) h
              (claimed = none → exec (.ctxload x) s = .next (s.commits (u.setHart (u.hart.writeS x.d 2))))
              ∧ ∀ k : Hart, claimed = some k →
                exec (.ctxload x) s = .next (s.commits (let v := u.setHartOf g { k with status := .halted }
                  v.setHart (v.hart.writeS x.d 0))))

/-- R94: the four division instructions complete for every operand; a zero divisor and the quotient of the most negative
number by -1 give what the rule says. -/
def Obligations.DivisionResults : Prop :=
  ∀ (s : State) (x : SInt), s.canRead x.a = true → s.canReadSrc x.b = true →
    let w := widthBits x.w
    let a := (s.reg x.a).toNat % 2 ^ w
    let b := (s.src x.b).toNat % 2 ^ w
    let sa := toSigned w a
    let sb := toSigned w b
    let least : Int := -2 ^ (w - 1)
    let gives (v : Int) : Host.Outcome State Fault Refusal :=
      .next (s.commitsHart (s.hart.writeS x.d (extendW x.w (ofSigned w v))))
    exec (.div x) s = gives (if sb = 0 then (if 0 ≤ sa then 2 ^ (w - 1) - 1 else least)
        else if sa = least ∧ sb = -1 then 2 ^ (w - 1) - 1 else sa.tdiv sb)
      ∧ exec (.divu x) s = gives (if b = 0 then 2 ^ w - 1 else (a / b : Nat))
      ∧ exec (.rem x) s = gives (if sb = 0 then 0 else if sa = least ∧ sb = -1 then -1 else sa - sb * sa.tdiv sb)
      ∧ exec (.remu x) s = gives (if b = 0 then 0 else (a % b : Nat))

/-- R215, R265, R144, R145: a waiting `wait`, `qget`, `qput`, `vspush` or `vspop` that finds what it waits for is
performed and commits as its hart's unit. R166: an armed `wfe` whose granule has been written ends with 1, and one
that has waited 10 µs ends with 2. R206, R186: a stalled tile access and a waiting `pdot` that can go on are
performed. R186: a `pdot` that has waited 2 µs,
alone or in a pair, is aged. R195, R196: the oldest `mma` of a hart completes: its
accumulator elements and flags arrive. R268: the participant with the lowest index of a deadlocked convoy takes 0x1B,
and detection is suspended. -/
def Obligations.WakeResults : Prop :=
  (∀ (s : State) (g : Nat) (h : Hart), mget s.harts g = some h → (s.convoyOf h.convoy).leaving = false →
    let u : State := { s with cur := g }
    (∀ x : WaitK, h.status = .waiting (.wait x) → u.canReadSrc x.b = true →
      (u.srcZ x.b).toNat ≤ (u.convoy.k[x.k]).toNat →
      exec (.waitWake g) s = .next (u.commitsHart (h.writeS x.d u.convoy.k[x.k])))
    ∧ (∀ (x : QGet) (v : Word) (rest : List Word), h.status = .waiting (.qget x) → x.nb = none →
      u.convoy.q[x.q] = v :: rest → qgetBehind u x.q = false →
      exec (.qgetWake g) s = .next (u.commits
        ((u.setConvoy { u.convoy with q := u.convoy.q.set x.q rest }).setHart (h.writeS x.d v))))
    ∧ (∀ x : QPut, h.status = .waiting (.qput x) → x.nb = none → x.par = false → u.canReadSrc x.a = true →
      u.convoy.q[x.q].length < 16 → u.performed →
      exec (.qputWake g) s = .next (u.commits
        (u.setConvoy { u.convoy with q := u.convoy.q.set x.q (u.convoy.q[x.q] ++ [u.src x.a]) })))
    ∧ (∀ x : VSPush, h.status = .waiting (.vspush x) → u.fits x.t [x.a] →
      let is := u.active x.m
      u.convoy.sq[x.q].length + is.length * tBytes x.t ≤ 8192 →
      exec (.vspushWake g) s = .next (u.commits ((u.setConvoy (u.convoy.setSq x.q
        (u.convoy.sq[x.q] ++ is.flatMap fun i => toBytes (tBytes x.t) (h.elem x.a (tBits x.t) i)))).setHart
          ((h.setVstart 0).writeS x.c (BitVec.ofNat 64 is.length)))))
    ∧ ∀ x : VSPop, h.status = .waiting (.vspop x) → u.fits x.t [x.d] → x.nb = false →
      let is := u.active x.m
      let q := u.convoy.sq[x.q]
      is.length * tBytes x.t ≤ q.length → is.length * tBytes x.t ≤ 8192 →
      (∀ p ∈ u.convoy.sqPoison[x.q], is.length * tBytes x.t ≤ p) →
      exec (.vspopWake g) s = .next (u.commits ((u.setConvoy { u.convoy with
        sq := u.convoy.sq.set x.q (q.drop (is.length * tBytes x.t))
        sqPoison := u.convoy.sqPoison.set x.q (u.convoy.sqPoison[x.q].map fun p => p - is.length * tBytes x.t) }).setHart
        (((h.setElems x.d (8 * tBytes x.t) (unpack (tBytes x.t) is q)).setVstart 0).writeS x.c
          (BitVec.ofNat 64 is.length)))))
  ∧ (∀ (s : State) (g : Nat) (h : Hart), mget s.harts g = some h → (s.convoyOf h.convoy).leaving = false →
    (∀ x : S3, h.status = .waiting (.wfe x) →
      let ends (v : Word) : Host.Outcome State Fault Refusal :=
        .next (commitHart (fun k => Hart.writeS x.d v { k with armed := none }) s g)
      (wfeWritten h = true → exec (.wfeWake g) s = ends 1)
        ∧ (h.stamp + 10000000 ≤ s.now → exec (.wfeTimeout g) s = ends 2))
    ∧ (h.status = .stalled → ∀ v : State,
      (∀ (x : VMem) (n : Nat), v.inTile x n → boundFill v x.m n = false → v.core.tilePoison = [] →
        fetchUnit { s with cur := g } = (.one (.vldt x), v) →
        exec (.tileStallRelease g) s = .next (v.commitsHart (v.whole (v.active x.m) x.v (tBits x.t) fun i =>
          memReadN v.mem (tileKeyOf v.coreId (v.reg x.a + simm x.off + BitVec.ofNat 64 (i * tBytes x.t))) (tBytes x.t))))
      ∧ (∀ (x : VMem) (n : Nat), v.inTile x n → fetchUnit { s with cur := g } = (.one (.vstt x), v) →
        exec (.tileStallRelease g) s = .next (v.commits ((v.active x.m).foldl (fun t i =>
          tilePoke v.coreId ((v.reg x.a + simm x.off + BitVec.ofNat 64 (i * tBytes x.t)).toNat % 2 ^ 21)
            (toBytes (tBytes x.t) (v.hart.elem x.v (tBits x.t) i)) t) v).restart))
      ∧ (∀ x : S2, v.canRead x.a = true → (v.reg x.a).toNat ≤ 255 →
        let t := v.core.tile (v.reg x.a).toNat
        t.hidden = false → t.busy = false → fetchUnit { s with cur := g } = (.one (.twait x), v) →
        exec (.tileStallRelease g) s = .next (v.commitsHart (v.hart.writeS x.d (t.word v.hart.convoy))))
      ∧ ∀ i : Instr, isTileAccess i = true → fetchUnit { s with cur := g } = (.one i, v) →
        ∀ t : State, exec i v = .next t → (t.hartOf g).status ≠ .stalled → exec (.tileStallRelease g) s = .next t)
    ∧ (∀ (x : PDot) (t : State) (places : List (Nat × List (Word × Loc))), h.status = .waiting (.pdot x) →
      let u : State := { s with cur := g }
      u.clean → bankSet (u.reg x.b) ≠ [] → (u.reg x.c).toNat % 64 = 0 →
      pdotCheck (u.reg x.c) x (bankSet (u.reg x.b)) u = .ok places t → pdotBusy h.aged u.core (u.reg x.b) = false → u.calm →
      let rs := places.map fun p => (p.1, pdotBank u p.2 (pdotRow (u.reg x.c) x p.1) x)
      exec (.pdotComplete g) s = .next (u.commits (t.setHart ((t.hart.setElems x.d 32
        (rs.map fun r => (r.1, r.2.1))).addFlags (rs.foldl (fun f r => f ||| r.2.2) 0)))))
    ∧ ((∃ x, h.status = .waiting (.pdot x)) ∨ (h.status = .stalled ∧ ∃ (i j : Instr) (v : State),
        fetchUnit { s with cur := g } = (.pair i j, v) ∧ (isPdot i || isPdot j) = true) →
      h.stamp + 2000000 ≤ s.now → exec (.nearBankAgeing g) s = .next (s.setHartOf g { h with aged := true })))
  ∧ ((∀ (s : State) (g : Nat) (h : Hart) (p : PendingMma) (rest : List PendingMma), mget s.harts g = some h →
    h.mma = p :: rest → exec (.mmaComplete g) s = .next (s.setHartOf g (mmaFinish p { h with mma := rest })))
    ∧ ∀ (s : State) (u g : Nat), deadlocked s u = true → lowestParticipant s u = some g →
      exec (.convoyDeadlock u) s = .next (let t := trapHart { cause := 0x1B } (withdraw g s) g
        t.setConvoyOf u { t.convoyOf u with suspended := true }))

/-- R16, R209, R214, R219 to R222: a chunk is moved, its bytes in the package counted as written, and is done once no byte
of it waits for another package; a transfer whose chunks are done leaves the engine without a failure, and one that meets
a hard fault with it, once what it has sent to other packages is answered. That a chunk moves in one step, in items of one
byte to other packages, and that the banks it used are then busy (`bankBusy`) is the model's choice (logs 41 and 46).
R308: a fault for the driver enters the engine-fault queue. R214, R221: the counter of a resident convoy: 1 more, and with
a failure its error record. R327, R330: the oldest reserved entry of a log is written at its place, an access's once the
access has performed. -/
def Obligations.EngineResults : Prop :=
  (∀ (s : State) (core id : Nat) (t : Transfer), findTransfer s core id = some t →
    (∀ (c n : Nat) (u : State), t.mayMove c = true → t.acks.contains c = false → moveChunk core t c s = .ok n u →
      let t' := { t with written := t.written + n }
      let v := u.setCoreOf core { u.coreOf core with bankBusy := (u.coreOf core).bankBusy ||| chunkBanks s core t' c }
      exec (.fillChunkComplete core id c) s = .next (if (chunkItems v core t' c).isEmpty then markChunk core t' c v
        else setTransfer core { t' with acks := t.acks ++ [c] } v))
    ∧ (∀ c : Nat, t.mayMove c = true → t.acks.contains c = true → chunkItems s core t c = [] →
      exec (.fillChunkComplete core id c) s = .next (markChunk core t c s))
    ∧ (t.runs = true → t.isOver = true → exec (.transferComplete core id) s = .next (finishTransfer core t none s))
    ∧ (∀ (cause : BitVec 8) (addr : Word) (u : State),
      (t.failed = some (cause, addr) ∧ u = s
        ∨ t.failed = none ∧ t.runs = true ∧ transferFails s core t = some ((cause, addr), u)) →
      exec (.transferFailure core id cause addr) s = .next (if transferSettled u core t.id
        then finishTransfer core t (some (cause, addr)) u else setTransfer core { t with failed := some (cause, addr) } u))
    ∧ ∀ (cause : BitVec 8) (va : Word), transferSoft s core t = some (cause, va) →
      exec (.engineTranslationFault core id) s =
        .next (let r := addFault (s.ctxOf t.ctx).vdev t.ctx 1 (BitVec.ofNat 8 core) cause va (.transfer core id) s
          setTransfer core { t with fault := some r.2 } r.1))
  ∧ (∀ (s : State) (u : Nat) (k : KName) (n : Word) (c : Convoy), mget s.convoys u = some c → c.ended = false →
    c.record = none →
    (bumpCounter u k n none s).convoyOf u = { c with k := c.k.set k (c.k[k] + n) }
      ∧ ∀ f : OpFail, (bumpCounter u k n (some f) s).convoyOf u = { c with
          k := c.k.set k (c.k[k] + n), kerr := c.kerr.set k (c.kerr[k].add f.kind f.cause f.bytes f.addr) })
  ∧ (∀ (s t : State) (ctx : Nat) (order : Bool) (e : LogEntry) (rest : List LogEntry),
    let l := if order then (s.ctxOf ctx).order else (s.ctxOf ctx).route
    l.pending = e :: rest → l.fault = none → (order = true → entryOwed s ctx e.at_ = false) → logWrite ctx e s = .ok () t →
    exec (.orderLogEntryFill ctx order) s = .next (t.setCtxOf ctx (let c := t.ctxOf ctx
      if order then { c with order := { c.order with pending := rest } }
      else { c with route := { c.route with pending := rest } })))

/-- R239, R261, R333: an ending hart leaves its convoy at once, its deferred updates applied. R239, R270, R319: once its
stores and atomics have performed it writes its status doubleword, if it has one, at an ordinary word; a fault for the
driver enters the engine-fault queue with ENGINE 4 (R308), and any other is entered in the counter's error record. Then
it drops the reference of its start handle, adds 1 to its counter and is gone. A hart that holds no slot reports in the
same way. The numbers of these steps, the names of the reports without a slot, and the core that their records name, are
the model's choice (log 84). -/
def Obligations.HartEndResults : Prop :=
  (∀ (s : State) (g : Nat) (h : Hart) (status : BitVec 8), g < 2048 → mget s.harts g = some h →
    (h.status = .ending status 1 → exec (.hartEnd g) s = .next (endLeave g status s)
      ∧ ((s.harts.map Prod.fst).Nodup →
        ((endLeave g status s).hartOf g).status = .ending status 10
          ∧ ((∀ d ∈ h.deferred, isFabric d.va = false ∧ d.place = none) → hartItems { s with cur := g } = [] →
            ((endLeave g status s).hartOf g).deferred = [])
          ∧ g ∉ participants (endLeave g status s) h.convoy))
    ∧ (h.status = .ending status 10 → owesStores s g status = false → exec (.hartEnd g) s = .next (endFirst g status s))
    ∧ (h.status = .ending status 2 → h.join.status = 0 → exec (.hartEnd g) s = .next (setEnding g status 3 s))
    ∧ (h.status = .ending status 2 → h.join.status ≠ 0 →
      let write := engWrite (some (g / 8)) h.join.ctx h.join.view .device h.join.status 8 status.toNat s
      (∀ t : State, write = .ok () t → exec (.hartEnd g) s = .next (setEnding g status 3 t))
      ∧ (∀ (c : BitVec 8) (va : Word) (t : State), write = .error (.fault c true va) t → exec (.hartEnd g) s =
        .next (setEnding g status 12 (addFault (t.ctxOf h.join.ctx).vdev h.join.ctx 4 (BitVec.ofNat 8 (g / 8)) c va
          (.hartEnd g) t).1))
      ∧ ∀ (c : BitVec 8) (va : Word) (t : State) (u : Nat) (k : KName), write = .error (.fault c false va) t →
        h.join.counter = some (u, k) → exec (.hartEnd g) s =
          .next (setEnding g status 3 (bumpCounter u k 0 (some ⟨5, c, 0, h.join.status⟩) t)))
    ∧ (h.status = .ending status 3 → ∃ t, exec (.hartEnd g) s = .next t ∧ mget t.harts g = none
      ∧ (∀ (u : Nat) (k : KName) (c : Convoy), h.join.counter = some (u, k) → h.join.gang = none → u ≠ h.convoy →
        mget s.convoys u = some c → c.record = none → c.ended = false → (t.convoyOf u).k[k] = c.k[k] + 1)
      ∧ ∀ (x : Word) (n : Nat) (w : Window), h.start = some x → h.join.gang = none →
        (s.coreOf (g / 8)).windowOf (s.convoyOf h.convoy).ctx = some (n, w) → w.valid x = true →
        mget (t.coreOf (g / 8)).windows n = some (w.drop (hFrame x))))
  ∧ ∀ (s : State) (n : Nat) (l : Late), s.lates.find? (fun l => l.id == n && l.fault.isNone) = some l →
    l.join.status = 0 → (∀ i ∈ s.items, ¬(i.convoy = l.convoy ∧ i.hidx = l.hidx)) →
    exec (.hartEnd (2048 + n)) s =
      .next (joinDone l.join l.core l.status { s with lates := s.lates.filter fun x => x.id != n })

/-- R36, R315, R320, R321, R323, R239: the dispatcher places the convoy that comes first and fits; a post that may
start starts as a convoy of one hart. R322, R248: the convoy that is to leave begins its pre-emption and admits no unit
from then on, and it is saved when its core is quiet; one that comes first is restored. R36, R315: a launched hart starts
at its packet's entry with the start and number of its share in s1 and s2, the packet's arguments in s3 to s7, zeros
elsewhere, `sc` at the number, `tvec` of its context, in the user view. -/
def Obligations.DispatchResults : Prop :=
  (∀ (s t : State) (q u core : Nat) (e : Queued) (c : Convoy) (ks : List Nat),
    (nextPlaced s = some (.queue q e, core, ks) → fullLogs s = [] →
      exec .dispatchPlace s = .next (placeQueued q e core ks s))
    ∧ (nextPlaced s = some (.out u c, core, ks) → restoreConvoy u core ks s = some t → exec (.restore u) s = .next t)
    ∧ (nextToLeave s = some u → mayRoute s (s.convoyOf u).ctx = true → (saveNow u s).isSome = true →
      let begun := (residents s u).foldl squash (s.setConvoyOf u { s.convoyOf u with leaving := true })
      let still := (s.convoyOf u).core.all fun k => quiet begun u k
      (still = false → exec (.preEmption u) s = .next begun)
        ∧ ∀ v, still = true → saveNow u begun = some v → exec (.preEmption u) s = .next v
          ∧ (∀ p ∈ v.harts, p.2.convoy ≠ u) ∧ (v.convoyOf u).core = none ∧ (v.convoyOf u).record.isSome = true
          ∧ (v.convoyOf u).leaving = false ∧ u ∈ (v.vdevOf (s.ctxOf (s.convoyOf u).ctx).vdev).restores)
    ∧ ∀ (i k : Nat) (p : Post), fullPosts s core = [] → nextPost s core = some (i, p) →
      postSlot s core p.cls = some k →
      exec (.postedClosureStart core) s = .next (startPost core i p k s))
  ∧ (∀ (s : State) (e : Queued) (u ctx cidx h : Nat), let p := e.packet
    let g := cidx * Packet_.harts p + h
    let total := Packet_.convoys p * Packet_.harts p
    let each := Packet_.count p / total
    let more := Packet_.count p % total
    let n := each + (if g < more then 1 else 0)
    let k := launchedHart s e u ctx cidx h
    k.pc = p.extractLsb' 0 64 ∧ k.mode = .user ∧ k.status = .running ∧ k.csr.sc = BitVec.ofNat 64 n
      ∧ k.csr.tvec = (s.ctxOf ctx).tvec ∧ k.csr.vl = 0 ∧ k.csr.vstart = 0 ∧ k.csr.fflags = 0 ∧ k.csr.frm = 0
      ∧ (∀ r : SReg, k.s[r] = match r.val with
        | 1 => BitVec.ofNat 64 (g * each + min g more)
        | 2 => BitVec.ofNat 64 n
        | 3 => p.extractLsb' 192 64
        | 4 => p.extractLsb' 256 64
        | 5 => p.extractLsb' 320 64
        | 6 => p.extractLsb' 384 64
        | 7 => p.extractLsb' 448 64
        | _ => 0)
      ∧ (∀ r : VName, k.v[r] = 0) ∧ (∀ r : CName, k.c[r] = 0) ∧ ∀ a : AName, k.acc[a] = none)

/-- R318, R327, R353, R354, R355: a function that is served writes a packet to a window of its virtual device, which is
enqueued where it is valid and there is room, discarded with cause 3 where it is not, and held with causes 3 and 4 where
the route log has no room (R358; that both are raised is the model's choice: log 38); it reads and writes the vaults of
its clusters through BAR 4 and its registers through BAR 0, and a GO while BUSY is discarded whole. R356: GO takes the
arguments as they stand; that its code is judged then is the model's choice (log 38). A request of a function that is not
served gets Unsupported Request, but IDENT and BOOTSTAT answer in every phase (R359). R5: a write of CMD ignores its
reserved bits. R353: the PF binds a device to one VF at most, and the BARs have the sizes it names, of which each served
function sets its own; R273: a cluster barrier as it is reported. R361: each SPDM request gets its response. The codes of
the SPDM messages, the bits of the algorithms, the answer for another slot than 0 and the phase in which the responder
answers are the model's (log 18), as are the kinds of access beside a register write (log 80). -/
def Obligations.HostAccessResults : Prop :=
  ∀ (s : State) (f : Nat), let u := wakeUp s
    (fnServed s f = true →
      (∀ (q cl vd ctx : Nat) (p : BitVec 512), q < 256 → fnReaches s f (queueVdev s q) = true →
        (∀ r ∈ u.queues, heldReady u r.1 = false) → (u.queueOf q).held = [] →
        (u.queueOf q).bind = some (cl, vd, ctx) → queueLive u (u.queueOf q) = some ctx →
        (Packet_.ok p cl = true → queueFill u q < queueDepth → routeRoom (u.ctxOf ctx) 1 = true →
          exec (.hostLaunchWrite f q p) s = .next (enqueue q p
            { status := 0, counter := none, ctx := ctx, view := .user, gang := none, reserved := [], detBase := none
              logHeld := false } u))
        ∧ ((Packet_.ok p cl = false ∨ queueDepth ≤ queueFill u q) →
          exec (.hostLaunchWrite f q p) s = .next (raiseInt f 3 (discardPacket q 1 u)))
        ∧ (Packet_.ok p cl = true → queueFill u q < queueDepth → routeRoom (u.ctxOf ctx) 1 = false →
          exec (.hostLaunchWrite f q p) s =
            .next (raiseInt f 4 (raiseInt f 3 (routeFull ctx (u.setQueueOf q { u.queueOf q with held := [p] }))))))
      ∧ (∀ q : Nat, q < 256 → fnReaches s f (queueVdev s q) = true →
        exec (.discardReset f q) s = .next (u.setQueueOf q { u.queueOf q with discard := 0 }))
      ∧ (∀ off len : Nat, barRange s f off len = true → exec (.hostBar4Read f off len) s =
        .next { u with replies := .data (memReadBytes u.mem ((u.fnOf f).wbase.toNat + off) len) :: u.replies })
      ∧ (∀ (off : Nat) (data : List Byte), barRange s f off data.length = true → exec (.hostBar4Write f off data) s =
        .next (pokeBytes ((u.fnOf f).wbase.toNat + off) data u))
      ∧ (∀ (i : Fin 6) (data : Word), exec (.registerWrite f (.write (0x108 + 8 * i.val)) data) s =
        .next (u.setFnOf f { u.fnOf f with args := (u.fnOf f).args.set i data }))
      ∧ (∀ data : Word, exec (.registerWrite f (.write 0x300) data) s =
        .next (u.setFnOf f { u.fnOf f with intcause := (u.fnOf f).intcause &&& ~~~(data.truncate 8) }))
      ∧ (∀ data : Word, data.getLsbD 63 = true → (u.fnOf f).busy = true →
        exec (.registerWrite f (.write 0x100) data) s = .next (u.setFnOf f { u.fnOf f with lost := true }))
      ∧ (∀ data : Word, data.getLsbD 63 = true → (u.fnOf f).busy = false → ∃ t c,
        exec (.registerWrite f (.write 0x100) data) s = .next t ∧ t.commands = u.commands ++ [c] ∧ c.fn = f
          ∧ c.op = data.extractLsb' 48 8 ∧ c.args = (u.fnOf f).args ∧ (t.fnOf f).busy = true
          ∧ (f = 0 → c.vdev = (data.extractLsb' 40 8).toNat) ∧ (f ≠ 0 → some c.vdev = (u.fnOf f).vdev)
          ∧ c.code = if c.op = 0 ∨ 10 < c.op.toNat ∨ 31 < c.vdev then some 1
              else if f ≠ 0 ∧ c.op ∈ [(3 : BitVec 8), 8, 9, 10] then some 2 else none)
      ∧ (∀ (off : Nat) (len : Word), (∀ i < len.toNat, regReach s f (off + i) = true) →
        exec (.registerWrite f (.read off) len) s =
          .next { u with
            mcread := (u.mcread ++ mcPlaces off len.toNat).eraseDups
            replies := .data (regBytes u f off len.toNat) :: u.replies })
      ∧ (∀ vf d : Nat, f = 0 → 1 ≤ vf → vf ≤ 64 → d < 32 →
        exec (.registerWrite f (.bind vf) (BitVec.ofNat 64 d)) s =
          .next (if s.fns.any fun p => p.1 != 0 && p.1 != vf && p.2.vdev == some d
          then { s with replies := .unsupported :: s.replies } else u.setFnOf vf { u.fnOf vf with vdev := some d }))
      ∧ (∀ n : Nat, n ≤ 8 → exec (.registerWrite f .resize (BitVec.ofNat 64 n)) s =
        .next (u.setFnOf f { u.fnOf f with bar4 := n }))
      ∧ ∀ cl n : Nat, cl < 32 → n < 16 → fnReaches s f (s.clusterOf cl).vdev = true →
        let b := (u.clusterOf cl).cbar n
        let word : Word := if b.count = 0 then 0
          else BitVec.ofNat 64 (b.asid.toNat * 2 ^ 48 + b.waiting.length * 2 ^ 8 + b.count * 2 + 1)
        exec (.registerWrite f (.cbar cl) (BitVec.ofNat 64 n)) s =
          .next { u with replies := .data (toBytes 8 word.toNat) :: u.replies })
    ∧ (fnServed s f = false → ∀ i ∈ [Instr.hostLaunchWrite f 0 0, .hostBar4Read f 0 1, .hostBar4Write f 0 [0],
        .registerWrite f (.write 0x100) 0, .registerWrite f (.read 0x100) 8, .discardReset f 0],
      exec i s = .next { s with replies := .unsupported :: s.replies })
    ∧ (f ≠ 0 → ∀ (off : Nat) (data : Word), 0x10000 ≤ off → off < 0x30010 →
      exec (.registerWrite f (.write off) data) s = .next { s with replies := .unsupported :: s.replies })
    ∧ (s.power ≠ .off → (f = 0 ∨ f ≤ 64 ∧ (s.fnOf f).vdev.isSome = true) → ∃ t v,
      exec (.registerWrite f (.read 0) 8) s = .next t ∧ t.replies = .data (toBytes 8 0x53475738) :: s.replies
        ∧ exec (.registerWrite f (.read 8) 8) s = .next v
        ∧ v.replies = .data (toBytes 8 (s.bootFail.toNat * 16 + s.bootPhase)) :: s.replies)
    ∧ (s.power ≠ .off → s.bootPhase = 5 → ∀ (nonce : BitVec 256) (code : BitVec 8),
      let answers (i : Instr) (c : BitVec 8) (body : List Byte) : Prop :=
        exec i s = .next { u with replies := .spdm c body :: u.replies }
      let fresh (i : Instr) (c : BitVec 8) (body : List Byte) : Prop :=
        ∃ bs, exec i s = .next { u with replies := .spdm c (body ++ bs) :: u.replies, freeCount := u.freeCount + 1 }
      (∃ b, exec .spdmGetVersion s = .next { u with
          replies := .spdm 0x04 [0, 1, b, 0x13] :: u.replies, freeCount := u.freeCount + 1 }) ∧ fresh .spdmGetCapabilities 0x61 []
        ∧ answers .spdmGetDigests 0x01 (1 :: Config.freeDigest s.chain)
        ∧ answers (.spdmGetCertificate 0) 0x02 (0 :: s.chain)
        ∧ (∀ slot : Nat, slot ≠ 0 → answers (.spdmGetCertificate slot) 0x7F [0x01, 0])
        ∧ fresh (.spdmChallenge 0 nonce) 0x03 (0 :: (Config.freeDigest s.chain ++ toBytes 32 nonce.toNat))
        ∧ fresh (.spdmGetMeasurements nonce) 0x60 (4 :: (s.measured.flatten ++ toBytes 32 nonce.toNat))
        ∧ answers .spdmNegotiateAlgorithms 0x63 (toBytes 4 0x8 ++ toBytes 4 0x2)
        ∧ answers (.spdmUnsupported code) 0x7F [0x07, code])

/-- R318: once the route log has room, the packet that a queue holds is enqueued. R363: CODE 1 for a power limit
outside 2,400 to 3,600. R356: each host command has its effect and ends with CODE 0, or with the code of the condition
it meets; BUSY clears after that, and a result alone is written to the arguments. R326: a killed context is gone once its
teardown is over. That argument bits for which a register of the new context has no place are dropped is the model's
choice (log 38). -/
def Obligations.HostCommandResults : Prop :=
  (∀ (s : State) (q cl vd ctx : Nat) (p : BitVec 512), (s.queueOf q).held = [p] →
    (s.queueOf q).bind = some (cl, vd, ctx) → queueLive s (s.queueOf q) = some ctx → Packet_.ok p cl = true →
    queueFill s q < queueDepth → routeRoom (s.ctxOf ctx) 1 = true →
    exec (.heldPacketEnqueue q) s = .next (enqueue q p
      { status := 0, counter := none, ctx := ctx, view := .user, gang := none, reserved := [], detBase := none
        logHeld := false }
      (s.setQueueOf q { s.queueOf q with held := [] })))
  ∧ ∀ (s : State) (f : Nat) (c : Command) (rest : List Command), s.commands = c :: rest → c.fn = f → s.power ≠ .off →
    let ends (code : BitVec 8) (t : State) : Host.Outcome State Fault Refusal :=
      .next { t with commands := { c with code := some code } :: rest }
    (∀ code : BitVec 8, c.code = some code → exec (.commandDone f) s = .next (raiseInt f 0
      { s.setFnOf f { s.fnOf f with
          busy := false, code := code
          args := if c.op = 1 ∧ code = 0 then (s.fnOf f).args.set 0 c.args[0] else (s.fnOf f).args } with
        commands := rest }))
    ∧ (c.code = none →
      (c.op = 1 → c.args[4].extractLsb' 17 3 = 0#3 → c.args[4].extractLsb' 43 21 = 0#21 → c.args[1].toNat < 2 ^ 38 →
        ∃ t, exec (.createContext f) s = .next t ∧ t.ctxOf s.nextContext = { Context.reset with
            vdev := c.vdev, asid := c.args[4].truncate 16, ctxbase := c.args[0] &&& 0xFFFFFFFFFFFFF000
            ptbase := c.args[1] &&& 0xFFFFFFFFFFFFF000, codebase := c.args[2] &&& 0xFFFFFFFFFFFFFFC0
            tvec := lineOf c.args[3], det := c.args[4].getLsbD 16, fcid := c.args[4].extractLsb' 20 20
            prio := c.args[4].extractLsb' 40 3 }
          ∧ t.commands = { c with code := some 0, args := c.args.set 0 (BitVec.ofNat 64 s.nextContext) } :: rest)
      ∧ (c.op = 2 → ∀ ctx : Nat, contextArg s c.vdev c.args[2] = some ctx → c.args[0].toNat < 256 → c.args[1].toNat < 8 →
        (f = 0 ∨ queueVdev s c.args[0].toNat = none ∨ queueVdev s c.args[0].toNat = some c.vdev) →
        let x := s.queueOf c.args[0].toNat
        x.held = [] →
        exec (.bindQueue f) s = if x.entries = [] then
            ends 0 (s.setQueueOf c.args[0].toNat { x with bind := some (c.args[1].toNat, c.vdev, ctx) })
          else ends 3 s)
      ∧ (c.op = 3 → c.args[0].toNat < 4096 →
        let r := c.args[0].toNat
        let x := s.regionOf r
        (c.args[1] = 1 → (x.grant = none ∨ x.grant = some c.vdev) → exec (.grantRegion f) s =
          ends 0 (regrant r (some c.vdev) s))
        ∧ (c.args[1] = 1 → (∃ v, x.grant = some v ∧ v ≠ c.vdev) → exec (.grantRegion f) s = ends 3 s)
        ∧ (c.args[1] = 0 → (x.grant = none ∨ x.grant = some c.vdev) → x.cmds = [] → x.busyDone = [] →
          exec (.grantRegion f) s = ends 0 (regrant r none s)))
      ∧ (c.op = 4 → ∀ x : Context, mget s.contexts c.args[0].toNat = some x → x.vdev = c.vdev → x.killed = true →
        killOver s c.args[0].toNat = true → exec (.killContext f) s = ends 0 (killFinish c.args[0].toNat s))
      ∧ (c.op = 5 → let asid : BitVec 16 := c.args[2].truncate 16
        let drops (p : TlbEntry → Bool) : Prop := pendingThrough c.vdev p s = false →
          exec (.invalidate f) s = ends 0 (dropTlb c.vdev p s)
        (c.args[0] = 0 → drops fun _ => true)
        ∧ (c.args[2].toNat < 2 ^ 16 → (c.args[0] = 1 → drops fun e => e.asid == asid)
          ∧ (c.args[0] = 2 → drops (tlbCovers asid c.args[1].toNat)))
        ∧ ((2 < c.args[0].toNat ∨ c.args[0] ≠ 0 ∧ 2 ^ 16 ≤ c.args[2].toNat) → exec (.invalidate f) s = ends 1 s))
      ∧ (c.op = 6 → c.args[0].toNat < 2048 → c.args[1].toNat < 2 ^ 62 →
        (haltedHart s c.vdev c.args[0].toNat = none → exec (.readHart f) s = ends 3 s)
        ∧ ∀ h : Hart, haltedHart s c.vdev c.args[0].toNat = some h → h.mma = [] → exec (.readHart f) s =
          ends 0 ((hartWords h (s.convoyOf h.convoy).ewBytes 0).foldl
            (fun s w => hostWrite (c.args[1].toNat + w.1) w.2.1 w.2.2 s) s))
      ∧ (c.op = 7 → c.args[0].toNat < 2048 →
        (haltedHart s c.vdev c.args[0].toNat = none → exec (.resumeHart f) s = ends 3 s)
        ∧ ∀ h : Hart, haltedHart s c.vdev c.args[0].toNat = some h → exec (.resumeHart f) s =
          ends 0 (s.setHartOf c.args[0].toNat { h with status := .running }))
      ∧ (c.op = 8 → c.args[0].toNat ≤ 256 → exec (.cacheFloor f) s =
        ends 0 (s.setVdevOf c.vdev { s.vdevOf c.vdev with floor := c.args[0].toNat }))
      ∧ (c.op = 9 → c.args[0].toNat < 32 → (c.args[1].toNat < 32 ∨ c.args[1] = 0xFF) →
        clusterContexts s c.args[0].toNat = [] → exec (.assignCluster f) s =
          ends 0 (let t := clearCluster c.args[0].toNat s
            t.setClusterOf c.args[0].toNat { t.clusterOf c.args[0].toNat with
              vdev := if c.args[1] = 0xFF then none else some c.args[1].toNat }))
      ∧ (c.op = 10 → exec (.powerLimit f) s = if 2400 ≤ c.args[0].toNat ∧ c.args[0].toNat ≤ 3600
        then ends 0 { s with powerLimit := c.args[0].toNat } else ends 1 s))

/-- R359, R362, R364: package reset begins the boot in phase 1 with nothing resident and zeroed vaults; without power
or after a thermal trip the package is off as well: what reset leaves is the model's (logs 3 and 44). R359: a boot goes
through its phases to 5, or stops with its failure recorded; phase 3 takes the staging percentage, phase 4 zeroes every
vault, and phase 5 has the measurements of R360. R362, R363: idle after 10 µs without work, active again on a wake, and
clock steps of 125 MHz within the limits. R313, R160: an uncorrectable DRAM granule or register word is poisoned and
logged, a corrected one changes nothing that a program reads, its entry's kind the model's (log 27); a scrub changes
nothing; a parity error drops an entry of a TLB or of a base tower's translation cache. R325: a window of 1 µs admits
80,000 bytes. R312: a failed vertical link fences its core; the element whose data did not arrive takes 0x15, and the
core's harts end with that status; its tile store, windows and posts are lost. -/
def Obligations.PackageErrorEvents : Prop :=
  (∀ s : State,
    (∃ t, exec .packageReset s = .next t ∧ t.bootPhase = 1 ∧ t.bootFail = 0 ∧ t.power = .active ∧ t.harts = []
      ∧ t.contexts = [] ∧ t.mclog = [] ∧ (∀ k : Nat, isVault k = true → memRead t.mem k = 0))
    ∧ (∀ i ∈ [Instr.powerRemoved, .thermalTrip], ∃ t, exec i s = .next t ∧ t.power = .off ∧ t.harts = [] ∧ t.contexts = [])
    ∧ (s.power ≠ .off → s.bootFail = 0 →
      (s.bootPhase < 5 → ∃ t, exec (.bootPhaseAdvance 0) s = .next t ∧ t.bootPhase = s.bootPhase + 1 ∧ t.bootFail = 0
        ∧ t.regions = s.regions ∧ (s.bootPhase ≠ 3 → t.mem = s.mem)
        ∧ (s.bootPhase = 2 → t.staging.pct ≤ 50)
        ∧ (s.bootPhase = 3 → t.poison = []
          ∧ ∀ k : Nat, memRead t.mem k = if k < 2 ^ 38 then 0 else memRead s.mem k)
        ∧ (s.bootPhase = 4 → t.measured.length = 4))
      ∧ (s.bootPhase = 2 → ∀ f ∈ [(1 : BitVec 4), 2, 3], exec (.bootPhaseAdvance f) s = .next { s with bootFail := f })
      ∧ (s.bootPhase < 5 → exec (.bootPhaseAdvance 4) s = .next { s with bootFail := 4 }))
    ∧ (s.power ≠ .off → s.bootFail ≠ 0 → ∀ f, exec (.bootPhaseAdvance f) s = .next s)
    ∧ (s.power = .active → s.bootPhase = 5 → s.atWork = false →
      exec .idleEntry s = .next (if s.activeAt + 10000000 ≤ s.now then { s with power := .idle } else s))
    ∧ (s.power = .idle → exec .idleWake s = .next { s with power := .active, activeAt := s.now })
    ∧ (s.power ≠ .off → ∀ up : Bool, ∃ t, exec (.clockStep up) s = .next t ∧ t = { s with clockMHz := t.clockMHz }
      ∧ (up = true → s.clockMHz + 125 ≤ 2500 → t.clockMHz = s.clockMHz + 125)
      ∧ (up = false → 1375 ≤ s.clockMHz → t.clockMHz = s.clockMHz - 125)
      ∧ (1250 ≤ s.clockMHz → 1250 ≤ t.clockMHz) ∧ (s.clockMHz ≤ 2500 → t.clockMHz ≤ 2500)))
  ∧ (∀ (s : State) (core : Nat),
    (∀ g : Nat, isVault (g * 32) = true → ∃ t, exec (.dramEccError g true) s = .next t ∧ g ∈ t.poison ∧ t.mem = s.mem
      ∧ t.harts = s.harts
      ∧ t.mclog.head? = some (mcEntry s.cycle (BitVec.ofNat 64 (g * 32)) 2 0 0 (granuleBank g).1 (granuleBank g).2)
        ∧ ∃ u, exec (.dramEccError g false) s = .next u ∧ u.poison = s.poison ∧ u.mem = s.mem
        ∧ u.harts = s.harts)
    ∧ (∀ bank : Nat, exec (.dramScrub core bank) s = .next s)
    ∧ (∀ (g : Nat) (h : Hart) (r : RegSite), mget s.harts g = some h →
      (∃ t, exec (.registerEccError (.hart g r) true) s = .next t ∧ r ∈ (t.hartOf g).poison ∧ t.mem = s.mem
        ∧ t.mclog.head? = some (mcEntry s.cycle 0 3 0 g (g / 8) 0)
        ∧ (∀ g', g' ≠ g → mget t.harts g' = mget s.harts g'))
      ∧ ∃ t, exec (.registerEccError (.hart g r) false) s = .next t ∧ t.harts = s.harts ∧ t.mem = s.mem)
    ∧ (∀ n : Nat, core < 256 → n < (s.coreOf core).tlb.length → exec (.tlbParityError core n) s =
      .next (s.setCoreOf core { s.coreOf core with tlb := (s.coreOf core).tlb.eraseIdx n }))
    ∧ (∀ (b n : Nat) (es : List (Nat × TlbEntry)), mget s.baseTlb b = some es → n < es.length →
      exec (.tlbParityError (256 + b) n) s = .next { s with baseTlb := mset s.baseTlb b (es.eraseIdx n) })
    ∧ (core < 256 → exec (.class0MeteringWindow core) s = .next (s.setCoreOf core { s.coreOf core with budget := 80000 }))
    ∧ ∀ (g elem : Nat) (addr : Word), core < 256 → (s.coreOf core).fenced = false →
      ∃ t, exec (.verticalLinkFailure core g elem addr) s = .next t ∧ (t.coreOf core).fenced = true
        ∧ (t.coreOf core).tiles = [] ∧ (t.coreOf core).windows = [] ∧ (t.coreOf core).posts = []
        ∧ ∀ k, k < 8 → ∀ h, mget s.harts (8 * core + k) = some h → isEnding h = false →
          (t.hartOf (8 * core + k)).status = .ending 0x15 1
            ∧ (g = 8 * core + k → (t.hartOf g).csr.xcause = 0x15 ∧ (t.hartOf g).csr.xaddr = addr
              ∧ (t.hartOf g).csr.xelem = BitVec.ofNat 14 elem))

/-- R336: after a loss of power a region that was open or erasing comes up open with VFAIL set and every unit bit clear,
its WEAR as it was counted at the erase, a sealed one comes up sealed, and a unit without its bit reads as zero bytes.
That a package reset counts as such a loss, and that a retired region stays retired, is the model's (logs 44 and 37). -/
def Obligations.PowerLossRegions : Prop :=
  ∀ s : State, ∀ i ∈ [Instr.packageReset, .powerRemoved, .thermalTrip], ∃ t, exec i s = .next t
    ∧ ∀ (r : Nat) (x : Region), r < 4096 → mget s.regions r = some x → ∃ y, mget t.regions r = some y ∧ y.wear = x.wear
      ∧ ((x.state = .open_ ∨ x.state = .erasing) → y.state = .open_ ∧ y.vfail = true ∧ y.units = 0)
      ∧ ((x.state = .sealed ∨ x.state = .retired) → y.state = x.state ∧ y.units = x.units)
      ∧ ∀ u k : Nat, u < 16384 → k < 65536 → y.units.getLsbD u = false →
        memRead t.mem (2 ^ 42 + r * 2 ^ 30 + u * 65536 + k) = 0

/-- R309, R369, R370: a fabric packet in its turn, whose translation the base die holds, is performed at its word and
answered; without the translation it waits and is performed when its walk returns; one performed already, under this
number or that of an earlier sending, is answered as it was. R329: a logged access to a logged page writes its entry in
the context's ordering log, where there is room. A marker names the packets of the old plane that come before the new
plane's. That the base translation cache is that of the port's tower is log 28; that the packet carries its hart's view,
and reaches what a plural access reaches, is log 48; that a logged packet waits for deferred updates is log 67. -/
def Obligations.FabricArrivals : Prop :=
  (∀ (s : State) (p : Packet), fabricUp s = true →
    let u := wakeUp s
    let performs (i : Instr) (v : State) (ctx leaf : Nat) : Prop :=
      (∀ x ∈ v.inStreams, x.1.1 = p.src → x.2.early = []) →
      ∀ l : Loc, underLeaf none p.view .plural (packetAcc p) p.dva.toNat leaf v = .ok l → waitsForLog p ctx l v = false →
        let w := logRemote p ctx l v
        (∀ d : Word, p.op = .store d → (v.coreOf (l.key / 2 ^ 30)).fenced = false →
          exec i s = .next (settle p (.ack none) (pokeN l.key (tBytes p.t) d.toNat w)))
        ∧ (p.op = .load → dataError v l.key = none →
          exec i s = .next (settle p (.response (.value (BitVec.ofNat 64 (memReadN v.mem l.key (tBytes p.t))))) w))
        ∧ ∀ (op : AmoOp) (cmp d : Word) (ret : Bool), p.op = .amo op cmp d ret → dataError v l.key = none →
          let old := memReadN v.mem l.key (tBytes p.t)
          ∀ new : Nat, amoNew p.t op old cmp.toNat d.toNat = some new →
            exec i s = .next (settle p (if ret then .response (.value (BitVec.ofNat 64 old)) else .ack none)
              (pokeN l.key (tBytes p.t) new w))
    (atHand u p = false → (u.stream p.src p.plane).answerTo p.seq = none → itsTurn u p = true → answeredAs u p = none →
      ∀ (ctx : Nat) (c : Context), fcidContext u p.fcid = some (ctx, c) → (∀ g i v, p.op ≠ .report g i v) →
        (∀ leaf : Nat, baseHit u (p.plane / 12) c.vdev c.asid p.dva.toNat = some leaf →
          performs (.fabricPacketArrival p) u ctx leaf)
        ∧ (baseHit u (p.plane / 12) c.vdev c.asid p.dva.toNat = none →
          (∀ x ∈ u.inStreams, x.1.1 = p.src → x.2.early = []) →
          exec (.fabricPacketArrival p) s = .next { u with arrivals := u.arrivals ++ [p] }))
    ∧ (∀ (n ctx : Nat) (c : Context), s.arrivals[n]? = some p →
      let w : State := { s with arrivals := s.arrivals.eraseIdx n }
      answeredAs w p = none → fcidContext w p.fcid = some (ctx, c) → (∀ g i v, p.op ≠ .report g i v) →
        (∀ leaf : Nat, baseHit w (p.plane / 12) c.vdev c.asid p.dva.toNat = some leaf →
          performs (.translationReturn n) w ctx leaf)
        ∧ ∀ (leaf : Nat) (v : State), baseHit w (p.plane / 12) c.vdev c.asid p.dva.toNat = none →
          baseWalk p c w = .ok leaf v → performs (.translationReturn n) v ctx leaf)
    ∧ (∀ a : Answer, atHand u p = false → (u.stream p.src p.plane).answerTo p.seq = some a →
      exec (.fabricPacketArrival p) s = .next { u with sent := u.sent ++ [.answer p.src p.plane p.seq a] })
    ∧ (∀ a : Answer, atHand u p = false → (u.stream p.src p.plane).answerTo p.seq = none → itsTurn u p = true →
      answeredAs u p = some a → (∀ x ∈ u.inStreams, x.1.1 = p.src → x.2.early = []) →
      exec (.fabricPacketArrival p) s = .next (settle p a u))
    ∧ ∀ (src op np : Nat) (last : BitVec 32), src ≠ s.package → (∀ x ∈ s.inStreams, x.1.1 = src → x.2.early = []) →
      exec (.switchMarkerArrival src op np last) s =
        .next (u.setStream src np { u.stream src np with until_ := some (op, last) }))
  ∧ ∀ (s : State) (p : Packet) (ctx : Nat) (l : Loc), p.logged = true → l.log = true → (s.ctxOf ctx).order.en = true →
    (s.ctxOf ctx).order.room 1 = true →
    logRemote p ctx l s = (let e := orderEntry p.gid (packetKind p) p.elem (p.src % 2 ^ 18) (p.dva.toNat / 32)
      s.setCtxOf ctx { s.ctxOf ctx with order := (s.ctxOf ctx).order.reserve e })

/-- R366, R369, R371, R111: an acknowledgement frees an item, or fails it with its cause; the response to a load or a
returning atomic reaches its hart; an item without either after 1 ms fails with 0x16. R294: the flag of an `fsig` that
waited for the last of these is stored in its vault. R366, R387: a port that goes down takes its plane down, and the
collectives on it end with code 6. -/
def Obligations.FabricItemResults : Prop :=
  ∀ s : State,
    (∀ (it : Item) (id : Nat), findItem s id = some it → it.unsent = false → it.failed = none →
      (it.waits = false →
        ((∀ i ∈ s.items, i.unsent = false) →
          (∃ t, exec (.fabricAck id none) s = .next t ∧ findItem t id = none ∧ t.mem = s.mem ∧ t.harts = s.harts)
          ∧ ∀ c : BitVec 8, ∃ t j, exec (.fabricAck id (some c)) s = .next t ∧ findItem t id = some j ∧ j.failed = some c
            ∧ t.mem = s.mem ∧ t.harts = s.harts)
        ∧ ∀ (flag : Item) (key : Nat) (data : Word), s.items = [it, flag] → flag.id ≠ id → flag.unsent = true →
          flag.failed = none → flag.covers = [id] → flag.op = .flag key data → (s.coreOf (key / 2 ^ 30)).fenced = false →
          ∃ t, exec (.fabricAck id none) s = .next t ∧ t.items = []
            ∧ t.mem = (pokeN key (tBytes flag.t) data.toNat s).mem)
      ∧ (it.waits = true → it.transfer = none → it.got = none → (∀ i ∈ s.items, i.unsent = false) →
        ∀ (g : Nat) (r : Response), hartGid s it.convoy it.hidx = some g →
        ∃ t, exec (.remoteResponse id r) s = .next t ∧ findItem t id = none ∧ t.mem = s.mem
          ∧ t.hartOf g = { s.hartOf g with resp := (s.hartOf g).resp ++ [(id, r)] })
      ∧ (it.since + 1000000000 ≤ s.now → it.got = none → (∀ a b c, it.op ≠ .report a b c) → (∀ i ∈ s.items, i.unsent = false) →
        (it.waits = false → ∃ t j, exec (.fabricItemTimeout id) s = .next t ∧ findItem t id = some j
          ∧ j.failed = some 0x16 ∧ t.mem = s.mem)
        ∧ (it.waits = true → it.transfer = none → ∀ g : Nat, hartGid s it.convoy it.hidx = some g →
          ∃ t, exec (.fabricItemTimeout id) s = .next t ∧ findItem t id = none
            ∧ t.hartOf g = { s.hartOf g with resp := (s.hartOf g).resp ++ [(id, .fails 0x16)] })))
    ∧ ∀ port : Nat, port < 96 → s.planes.getLsbD port = true → s.power ≠ .off → 3 ≤ s.bootPhase →
      ∃ t, exec (.portDown port) s = .next t ∧ t.planes = s.planes &&& ~~~(1#96 <<< port)
        ∧ ((∀ i ∈ s.items, i.unsent = false) → t.mem = s.mem)
        ∧ ((s.colls.map Coll.id).Nodup → ∀ c ∈ s.colls, c.open_ = true → c.done = false → c.plane = port →
          findColl t c.id = some { c with outcome := some 6, parked := [], waits := [], answers := [] })

/-- R374 to R376: a member that can reserve everything acknowledges, and reserves nothing and sends nothing otherwise;
the last acknowledgement in time sends BEGIN to every member, whose packet is then enqueued with its reserved places;
without it, ABORT is sent, each hart of the gang is counted, and reservations are freed: an aborted gang takes no value
of k (R332), as far as no later place has been fixed (log 29). A member that fails after BEGIN has KILL sent to the
others and its harts counted; KILL ends the gang's harts with 0xFF. -/
def Obligations.GangEventResults : Prop :=
  (∀ (s : State) (issuer gang : Nat),
    let took (m : Sent) : State := wakeUp (if issuer = s.package then { s with sent := s.sent.erase m } else s)
    (∀ (fcid : BitVec 20) (q m : Nat) (p : BitVec 512) (idx : Bool), fabricUp s = true →
      let u := took (.reserve s.package gang m)
      let packet := if idx then BitVec.ofNat 512 (p.toNat % 2 ^ 448 + m % 2 ^ 64 * 2 ^ 448) else p
      (makePart issuer gang fcid q m packet u = none → exec (.gangReserve issuer gang fcid q m p idx) s = .next u)
      ∧ ∀ (part : GangPart) (vd n : Nat), makePart issuer gang fcid q m packet u = some (part, vd, n) →
        ∃ t, exec (.gangReserve issuer gang fcid q m p idx) s = .next t ∧ t.parts = s.parts ++ [part]
          ∧ t.sent = u.sent ++ [.gangAck issuer gang m] ∧ t.harts = s.harts ∧ t.queues = s.queues
          ∧ (t.ctxOf part.ctx).route.held = (s.ctxOf part.ctx).route.held
            + (if (s.ctxOf part.ctx).route.en then 1 + Packet_.convoys packet else 0)
          ∧ (t.vdevOf vd).detCount = (s.vdevOf vd).detCount + n)
    ∧ (∀ p : GangPart, findPart s issuer gang = some p →
      exec (.gangBegin issuer gang) s = .next (enqueue p.queue p.packet
        { status := 0, counter := none, ctx := p.ctx, view := .user
          gang := some (issuer, gang, p.member * (Packet_.convoys p.packet * Packet_.harts p.packet))
          reserved := p.slots, detBase := p.detBase, logHeld := p.logged != 0 }
        (dropPart issuer gang (took (.begin_ s.package gang))))
      ∧ let v := releaseHeld p.ctx p.logged (dropPart issuer gang (took (.abort s.package gang)))
        (p.detBase = none → exec (.gangAbort issuer gang) s = .next v)
        ∧ ∀ b : Nat, p.detBase = some b →
          exec (.gangAbort issuer gang) s = .next (giveBackDet (v.ctxOf p.ctx).vdev b (Packet_.convoys p.packet) v))
    ∧ ∃ t, exec (.gangKill issuer gang) s = .next t ∧ ∀ (g : Nat) (h : Hart), mget s.harts g = some h →
      h.join.inGang issuer gang = true → isEnding h = false → (t.hartOf g).status = .ending 0xFF 1)
  ∧ (∀ (s : State) (vd b n : Nat), (∀ p ∈ s.parts, ∀ x, p.detBase = some x → x ≤ b) →
    (∀ q ∈ s.queues, ∀ e ∈ q.2.entries, e.reserved = [] ∨ e.detBase ≤ b) →
    ((giveBackDet vd b n s).vdevOf vd).detCount = (s.vdevOf vd).detCount - n)
  ∧ ∀ (s : State) (gang m : Nat) (g : Gang), findGang s gang = some g →
    (g.begun = false → m < g.members.length → g.acks.contains m = false →
      ∃ t, exec (.gangAck gang m) s = .next t ∧ ∃ g', findGang t gang = some g' ∧ g'.acks = m :: g.acks
        ∧ (g'.begun = true ↔ g.acks.length + 1 = g.members.length ∧ s.now ≤ g.since + 50000000)
        ∧ (∀ d ∈ g.members, g'.begun = true → Sent.begin_ d gang ∈ t.sent))
    ∧ ∀ c : Convoy, g.status = 0 → g.reported = [] → mget s.convoys g.convoy = some c → c.record = none → c.ended = false →
      (g.begun = false → g.since + 50000000 ≤ s.now →
        ∃ t, exec (.gangTimeout gang) s = .next t ∧ t.sent = s.sent ++ g.members.map (fun d => .abort d gang)
          ∧ (t.convoyOf g.convoy).k[g.k] = c.k[g.k] + BitVec.ofNat 64 (g.members.length * g.harts) ∧ t.harts = s.harts)
      ∧ (g.begun = true → g.killed = false → m < g.members.length → ∀ killed : Bool,
        ∃ t, exec (.gangMemberFailure gang m killed) s = .next t
          ∧ (∀ i, i < g.members.length → i ≠ m → ∀ d, g.members[i]? = some d → Sent.kill d gang ∈ t.sent)
          ∧ (t.convoyOf g.convoy).k[g.k] = c.k[g.k] + BitVec.ofNat 64 g.harts ∧ t.harts = s.harts)

/-- R341 to R344, R339: the end of an erase opens the region with every unit clear, or retires it; a unit whose source
is read is programmed; a seal is recorded and drops the region's lines; a command that is over gives LAST and SEQ, a stow
DONE (R335), counts at its counter and posts its closure. R340, R345: a command of an aborted context ends with code 7.
That an erase which fails also clears the units, VFAIL, DONE and its bytes, and that one aborted does so, is the model's
choice (log 37). R348: a missed line is filled, and then held. R349: every 1 ms the units of each tower are divided: its
devices' floors, and then one unit at a time. R308: the answer to an engine fault lets its transfer go on, or fails it,
once what it has sent is answered. That floors beyond the units of a tower are met as far as these go is the model's
choice (log 38). -/
def Obligations.DepotEventResults : Prop :=
  ∀ s : State,
    (∀ (r : Nat) (d : DepotCmd), r < 4096 → performing s r = some d →
      let x := s.regionOf r
      let coded (c : BitVec 3) : BitVec 3 := if d.aborted then 7 else c
      (d.kind = .dopen →
        (∃ t, exec (.depotEraseDone r true) s = .next t ∧ t.regionOf r = { x with
            units := 0, vfail := false, done := 0, state := .open_,
              cmds := { d with code := some (coded 0) } :: x.cmds.tail }
          ∧ (∀ k, k < 2 ^ 30 → memRead t.mem (2 ^ 42 + r * 2 ^ 30 + k) = 0)
          ∧ ∀ k, isDepot k = false → memRead t.mem k = memRead s.mem k)
        ∧ ∃ t, exec (.depotEraseDone r false) s = .next t ∧ t.regionOf r = { x with
            units := 0, vfail := false, done := 0, state := .retired,
              cmds := { d with code := some (coded 2) } :: x.cmds.tail }
          ∧ (∀ k, k < 2 ^ 30 → memRead t.mem (2 ^ 42 + r * 2 ^ 30 + k) = 0)
          ∧ ∀ k, isDepot k = false → memRead t.mem k = memRead s.mem k)
      ∧ (d.kind = .dseal →
        (∃ t, exec (.depotSealDone r true) s = .next t ∧ t.regionOf r = { x with
            state := .sealed, cmds := { d with code := some (coded 0) } :: x.cmds.tail } ∧ t.mem = s.mem
          ∧ ∀ l, l / 2 ^ 18 = r → mget t.staging.lines l = none)
        ∧ ∃ t, exec (.depotSealDone r false) s = .next t ∧ t.regionOf r = { x with
            state := .retired, cmds := { d with code := some (coded 2) } :: x.cmds.tail } ∧ t.mem = s.mem)
      ∧ (d.kind = .stow → d.fault = none → stowMustAsk s d = false → ∀ (bs : List Nat) (u : State), stowRead d s = .ok bs u →
        exec (.stowUnitDone r .done) s = .next (unitDone r d bs u)
        ∧ exec (.stowUnitDone r .verifyFail) s = .next (unitDiffers r d bs u)))
    ∧ (∀ (r : Nat) (d : DepotCmd) (rest : List DepotCmd) (c : BitVec 3), d.code = some c →
      let over_ (x : Region) (u : State) : State := postDone d.core d.cl (bumpCounter d.convoy d.k 1 none
        (u.setRegionOf r { x with
          last := c, seq := x.seq + 1, done := if d.kind = .stow ∧ d.begun = true then d.next else x.done }))
      ((s.regionOf r).busyDone = [] → (s.regionOf r).cmds = d :: rest → stowSettled s r = true →
        exec (.depotCommandComplete r) s =
          .next (beginHead r (over_ { s.regionOf r with cmds := rest } (dropStowItems r s))))
      ∧ ((s.regionOf r).busyDone = d :: rest →
        exec (.depotCommandComplete r) s = .next (over_ { s.regionOf r with busyDone := rest } s)))
    ∧ (∀ l : Nat, l / 2 ^ 18 < 4096 → (s.regionOf (l / 2 ^ 18)).state = .sealed → mget s.staging.lines l = none →
      ∃ t, exec (.stagingLineFill l false) s = .next t ∧ t = { s with staging := t.staging }
        ∧ mget t.staging.lines l = some 1 ∧ t.staging.wanted = s.staging.wanted.erase l)
    ∧ (∃ t, exec .cacheRepartition s = .next t ∧ t.staging.hits = []
      ∧ t = { s with staging := t.staging, dividedAt := s.now }
      ∧ ∀ tower : Nat, tower < 8 →
        let ds := towerDevices s tower
        let floors := ds.map fun vd => (vd, (s.vdevOf vd).floor)
        let sum := (floors.map Prod.snd).sum
        (ds = [] → ∀ u ∈ t.staging.units, u.1.1 ≠ tower)
        ∧ (ds ≠ [] → sum ≤ towerUnits s → ∃ us, s.HandsOut tower (towerUnits s - sum) floors us
          ∧ ∀ vd k : Nat, ((tower, vd), k) ∈ t.staging.units ↔ (vd, k) ∈ us))
    ∧ ∀ (vd core id : Nat) (tag : BitVec 8) (q : EngineFault) (x : Transfer), fnServed s (fnOfVdev s vd) = true →
      s.power = .active →
      (s.vdevOf vd).efq.find? (fun q => q.tag == tag) = some q → (s.vdevOf vd).efWait = [] → q.target = .transfer core id →
      findTransfer s core id = some x → transferCore s id = some core → x.fault = some tag →
      let u := s.setVdevOf vd { s.vdevOf vd with efq := (s.vdevOf vd).efq.filter fun y => y.tag != tag }
      exec (.engineFaultAnswer vd tag false) s = .next (setTransfer core { x with fault := none } u)
        ∧ exec (.engineFaultAnswer vd tag true) s = .next (if transferSettled u core x.id
          then finishTransfer core { x with fault := none } (some (q.cause, q.va)) u
          else setTransfer core { x with fault := none, failed := some (q.cause, q.va) } u)

/-- R379, R383, R386, R387, R394: a visited ring with a posted waybill has the one numbered TAIL taken, and an invalid
one ends with code 1; the waybills that meet by FCID, GROUP and TAG and agree take the first plane at or after TAG mod
96 that is up at every member; a difference is code 3, a lost plane code 6, and a failed peer code 4 with its number.
That members without a plane in common end with code 6, and that a ring is polled as far as its descriptor is one that
R377 allows, is the model's (logs 39 and 30); what the others' waybills hold comes with the step (log 82). -/
def Obligations.CollectiveStartResults : Prop :=
  ∀ s : State,
    (∀ (ctx r d tail : Nat) (x : Context) (w : BitVec 1024) (v : State), mget s.contexts ctx = some x → x.killed = false →
      fabricUp s = true → r < 64 → ringWaits s ctx r = false → (∀ c ∈ s.colls, c.ctx = ctx → c.ring = r → c.done = true) →
      ringEntry s ctx r = .ok d v → ringEnabled d = true → inVault v ctx .load (ringHeader d) = true →
      ∀ (head : Nat) (u : State), ringPeek ctx d v = .ok (head, tail, w) u →
        (head ≤ tail → exec (.ringVisit ctx r) s = .next u)
        ∧ (tail < head → (∀ c ∈ u.colls, c.id ≠ u.nextColl) → ∃ t c, exec (.ringVisit ctx r) s = .next t
          ∧ findColl t u.nextColl = some c ∧ c.waybill = w ∧ c.tail = BitVec.ofNat 64 tail ∧ c.ctx = ctx ∧ c.ring = r
          ∧ (Waybill.ok w.toNat = false → c.outcome = some 1 ∧ c.table = [])))
    ∧ (∀ (id : Nat) (c : Coll), findColl s id = some c → c.done = false →
      let ended (i : Instr) (status : Nat) : Prop := ∃ t, exec i s = .next t
        ∧ findColl t id = some { c with outcome := some (BitVec.ofNat 64 status), parked := [], waits := [], answers := [] }
        ∧ (∀ x ∈ t.switchSlots, x.owner ≠ id) ∧ (∀ x ∈ t.slotWaits, x.owner ≠ id) ∧ t.mem = s.mem
      c.live = true →
      (c.matched = false → ∀ peers : List PeerView,
        (∀ y ∈ peers, y.fcid = (s.ctxOf c.ctx).fcid ∧ Waybill.group y.waybill.toNat = Waybill.group c.waybill.toNat
          ∧ Waybill.tag y.waybill.toNat = Waybill.tag c.waybill.toNat) →
        let agrees (y : PeerView) : Prop := y.waybill.extractLsb' 0 384 = c.waybill.extractLsb' 0 384
          ∧ y.fixed = c.fixed s ∧ y.table = c.table
        let plane (k : Nat) : Nat := (Waybill.tag c.waybill.toNat + k) % 96
        let isUp (k : Nat) : Prop := s.planes.getLsbD (plane k) = true ∧ ∀ y ∈ peers, y.planes.getLsbD (plane k) = true
        ((∃ y ∈ peers, ¬agrees y) → ended (.waybillMatch id peers) 3)
        ∧ ((∀ y ∈ peers, agrees y) → c.table.length ≤ peers.length + 1 →
          (∀ k : Nat, k < 96 → isUp k → (∀ j, j < k → ¬isUp j) →
            exec (.waybillMatch id peers) s = .next (setColl { c with matched := true, plane := plane k } s))
          ∧ ((∀ k, k < 96 → ¬isUp k) → ended (.waybillMatch id peers) 6)))
      ∧ (c.matched = true → ended (.collectivePlaneLost id) 6)
      ∧ ∀ peer : Nat, peer < c.table.length → peer ≠ c.self s → peer < 2 ^ 18 →
        ended (.collectivePeerFailed id peer) (4 + peer * 2 ^ 32))
    ∧ ∀ (id : Nat) (c : Coll), findColl s id = some c → c.done = true →
      (c.matched = true → exec (.collectivePlaneLost id) s = .next (dropColl id s))
      ∧ ∀ peer : Nat, peer < c.table.length → peer ≠ c.self s →
        exec (.collectivePeerFailed id peer) s = .next (dropColl id s)

/-- R389: eight slots of a switch are granted together to each tree, in the order of arrival and port; a request that loses
waits with QSLOT, and without it the waybill ends with code 2 at every member. R388, R390, R391: a slot takes one block
of each port; a full one below the top of its tree passes its result up, and with FIXED in force the result does not
depend on the order in which the blocks arrived; a receiver pulls the fold of all inputs and nothing else. R388, R392,
R393: a source block is read once and pushed, or pushed on as it came, a block that comes is written at its place in the
destination, and one that waited for its page is written when the driver has resolved the fault, or ends the waybill with
code 5, the cause, and the member itself as the failing peer (R384). A waybill whose bytes are all read and written gets
its STATUS, its counter and its TAIL, in this order. What the switches and the other members do comes with the steps, and
the order in which requests come to a switch, and in which one waybill's trees get theirs, is the model's (logs 39, 40
and 83). -/
def Obligations.CollectiveBlockResults : Prop :=
  ((∀ (s : State) (id : Nat) (x : TreeSwitch) (c : Coll), findColl s id = some c → c.live = true →
    let n := (x.tier, x.switch)
    let place : TreePlace := ⟨x.tier, x.switch, x.tree⟩
    let got : State := setColl { c with
        granted := c.granted ++ [place], queued := c.queued.filter (fun y => y != place), slotted := x.last } { s with
      switchSlots := s.switchSlots ++ ((freeAt s n).take 8).map fun k => ⟨x, k, c.id, none, [], []⟩
      slotWaits := s.slotWaits.filter fun y =>
        ¬((⟨y.at_.tier, y.at_.switch, y.at_.tree⟩ : TreePlace) = place ∧ y.owner = c.id) }
    (c.matched = true → c.slotted = false → Waybill.treeOk c.wb x.tree = true → c.queued = [] →
      (∀ y ∈ c.granted, placeBefore y place = true) →
      let mine : SlotWait := ⟨x, id, (s.ctxOf c.ctx).prio, s.cycle⟩
      (8 ≤ (freeAt s n).length → (∀ y ∈ s.slotWaits, (y.at_.tier, y.at_.switch) = n → mine.before y = true) →
        exec (.slotRequest id x .granted) s = .next got)
      ∧ (Waybill.qslot c.wb = true → c.self s = 0 → exec (.slotRequest id x .queued) s =
        .next (setColl { c with queued := [place] } { s with slotWaits := insertWait mine s.slotWaits }))
      ∧ (Waybill.qslot c.wb = false → c.done = false → ∃ t, exec (.slotRequest id x .refused) s = .next t
        ∧ findColl t id = some { c with outcome := some 2, parked := [], waits := [], answers := [] }
        ∧ ∀ y ∈ t.switchSlots, y.owner ≠ id))
    ∧ (8 ≤ (freeAt s n).length → (∃ y ys, waitsAt s n = y :: ys ∧ y.owner = id ∧ y.at_ = x) →
      exec (.slotGrant id x) s = .next got))
  ∧ (∀ a b : SlotWait, a.before b = true ↔
    a.prio < b.prio ∨ (a.prio = b.prio ∧ (a.since < b.since ∨ (a.since = b.since ∧ a.at_.port < b.at_.port))))
  ∧ (∀ (w : SlotWait) (ys : List SlotWait),
    let first (a b : SlotWait) : Prop := a.since < b.since ∨ (a.since = b.since ∧ a.before b = true)
    (insertWait w ys).Perm (w :: ys)
      ∧ (ys.Pairwise (fun a b => ¬first b a) → (insertWait w ys).Pairwise fun a b => ¬first b a))
  ∧ (∀ (s : State) (tier sw n : Nat) (x : SwitchSlot) (c : Coll),
    s.switchSlots.find? (fun y => switchName y.at_ == (tier, sw) && y.slot == n) = some x → findColl s x.owner = some c →
    (∀ (port : Nat) (tag : BlockTag) (data : List Byte), mayTake s c x port tag = true → Waybill.tagOk c.wb tag = true →
      data.length = Waybill.tagLen c.wb tag →
      let t := setSlot { x with tag := some tag, arrived := x.arrived ++ [(port, data)] } s
      (goesUp t c = none → exec (.switchFold tier sw n (.arrive port tag data)) s = .next t)
      ∧ ∀ (a b : SwitchSlot) (p : Nat), goesUp t c = some (a, b, p) →
        let u := setSlot (b.take_ p (a.tag.getD ⟨0, 0, 0⟩) (slotResult t c a))
          (setSlot { a with tag := none, arrived := [], pulled := [] } t)
        goesUp u c = none → exec (.switchFold tier sw n (.arrive port tag data)) s = .next u)
    ∧ ∀ m : Nat, m ≠ c.self s → x.holdsFor c m = true → exec (.switchFold tier sw n (.pulled m)) s = .next (pulledBy c x m s)
      ∧ ((∃ k, k < Waybill.size c.wb ∧ k ≠ m ∧ x.holdsFor c k = true) →
        pulledBy c x m s = setSlot { x with pulled := x.pulled ++ [m] } s))
  ∧ ∀ (s : State) (c : Coll) (x y : SwitchSlot), (Waybill.fixed c.wb = true ∨ (s.ctxOf c.ctx).det = true) →
    x.arrived.Perm y.arrived → (x.arrived.map Prod.fst).Nodup → slotResult s c x = slotResult s c y)
  ∧ (∀ (s : State) (id b : Nat) (c : Coll), findColl s id = some c →
    (c.moves = true → c.unread b = true → ∀ (bs : List Byte) (u : State),
      collRead c.ctx (Waybill.src c.wb + BitVec.ofNat 64 (256 * b)) (Waybill.pieceLen c.wb (Waybill.slay c.wb) b) s =
        .ok bs u →
      let v := setColl { c with read := mset c.read b bs } u
      exec (.blockPush id ⟨0, b⟩) s = .next (match (Waybill.steps c.wb)[0]? with
        | some a => { v with sent := v.sent ++ [.push id a b bs] }
        | none => v))
    ∧ (c.moves = true → c.done = false → ∀ (x : StepBlock) (a : Nat) (bs : List Byte), 0 < x.step →
      (c.laterPushes s).contains x = true → c.pushed.contains x = false → aget c.mid ⟨x.step - 1, x.block⟩ = some bs →
      (Waybill.steps c.wb)[x.step]? = some a →
      exec (.blockPush id x) s = .next { setColl { c with pushed := c.pushed ++ [x] } s with
        sent := s.sent ++ [.push id a x.block bs] })
    ∧ (∀ (x : StepBlock) (data : List Byte), c.moves = true → c.owed s x = true → data.length = stepLen s c x →
      let last := x.step = Waybill.lastStep c.wb
      let place := Waybill.dst c.wb + BitVec.ofNat 64 (256 * x.block)
      let kept (bs : List Byte) : Coll := { c with mid := aset c.mid x bs }
      let taken : Coll := { c with pulled := c.pulled ++ [x.block] }
      (Waybill.stepFolds c.wb x.step = false → ∀ bs : List Byte, stepData s c x data = some bs →
        (¬last → exec (.blockPull id x data) s = .next (setColl (kept bs) s))
        ∧ (last → ∀ u : State, collWrite c.ctx place bs s = .ok () u →
          exec (.blockPull id x data) s = .next (setColl { taken with parked := merase c.parked x.block } u)))
      ∧ (Waybill.stepFolds c.wb x.step = true → (topSlot s c x = none → exec (.blockPull id x data) s = .next s)
        ∧ ∀ y : SwitchSlot, topSlot s c x = some y → slotResult s c y = data →
          (¬last → exec (.blockPull id x data) s = .next (pulledBy (kept data) y (c.self s) (setColl (kept data) s)))
          ∧ (last → (∀ u : State, collWrite c.ctx place data s = .ok () u →
              exec (.blockPull id x data) s = .next (pulledBy taken y (c.self s) (setColl taken u)))
            ∧ ∀ (e : BitVec 8) (va : Word) (u : State), collWrite c.ctx place data s = .error (.fault e true va) u →
              ∃ t, exec (.blockPull id x data) s = .next t ∧ t.switchSlots = s.switchSlots ∧ t.mem = s.mem)))
    ∧ (c.aborted = false → b < 2 ^ 40 →
      let c' := { c with answers := c.answers.erase (2 ^ 40 + b, false), waits := merase c.waits (2 ^ 40 + b) }
      let v := setColl c' s
      let place := Waybill.dst c.wb + BitVec.ofNat 64 (256 * b)
      (c.answers.contains (2 ^ 40 + b, false) = true →
        (mget c.parked b = none → topSlot v c' ⟨Waybill.lastStep c.wb, b⟩ = none →
          exec (.parkedBlockResume id (2 ^ 40 + b) false) s = .next v)
        ∧ (∀ (y : SwitchSlot) (u : State), mget c.parked b = none → topSlot v c' ⟨Waybill.lastStep c.wb, b⟩ = some y →
          collWrite c.ctx place (slotResult v c' y) v = .ok () u →
          let taken : Coll := { c' with pulled := c.pulled ++ [b] }
          exec (.parkedBlockResume id (2 ^ 40 + b) false) s = .next (pulledBy taken y (c.self s) (setColl taken u)))
        ∧ ∀ (bs : List Byte) (u : State), mget c.parked b = some bs → collWrite c.ctx place bs v = .ok () u →
          exec (.parkedBlockResume id (2 ^ 40 + b) false) s =
            .next (setColl { c' with pulled := c.pulled ++ [b], parked := merase c.parked b } u))
      ∧ ∀ cause : BitVec 8, c.answers.contains (2 ^ 40 + b, true) = true → mget c.waits (2 ^ 40 + b) = some cause →
        c.done = false → ∃ t, exec (.parkedBlockResume id (2 ^ 40 + b) true) s = .next t ∧ ∃ c', findColl t id = some c'
          ∧ c'.outcome = some (BitVec.ofNat 64 (c.self s * 2 ^ 32 + cause.toNat * 256 + 5)) ∧ t.mem = s.mem)
    ∧ (c.aborted = true → exec (.waybillComplete id) s = .next (dropColl id s))
    ∧ (c.aborted = false → c.ready = true →
      let code := c.outcome.getD 0
      let c' := { c with outcome := some code }
      ∀ v w x : State, engWrite none c.ctx .user .unit (c.addr + 88) 8 code.toNat (setColl c' s) = .ok () v →
        (do let n ← engRead none c.ctx .user .unit (Waybill.cnt c.wb) 8
            engWrite none c.ctx .user .unit (Waybill.cnt c.wb) 8 ((n + (Waybill.incr c.wb).toNat) % 2 ^ 64)) v = .ok () w →
        engWrite none c.ctx .user .unit (c.header + 8) 8 (c.tail + 1).toNat w = .ok () x →
        let needed := (x.switchSlots.any fun y => y.owner == id) || !(c.laterPushes x).all c.pushed.contains
        exec (.waybillComplete id) s = .next (if code = 0 ∧ needed = true
          then setColl { c' with done := true } x else dropColl id x)))

/-- R59 to R62, R77, R243: with nothing else to do, a step executes the unit at the pc of the next hart: the
instruction that the word of its slot decodes to, or the two of a pair; then time passes. A step of the agenda is
executed first (log 1). -/
def Obligations.StepRunsDecoded : Prop :=
  (∀ (s : State) (g : Nat), s.agenda = [] → s.power ≠ .off → nextOwn s = none → nextHart s = some g →
    let u : State := { s with cur := g, turn := g + 1 }
    ∀ (key : Line) (t : State), fetchLine (lineOf u.hart.pc) u = .ok key t →
      let k := slotOf u.hart.pc
      let w := slotWord u.hart key
      let lw := lineWord u.hart key
      let good (j : Nat) : Prop := oddBits 97 ((w j).toNat * 2 + b2n (bit lw (13 + j))) = false
      oddBits 20 (field lw 12 20) = false → lineBad u.convoy w lw = false → good k →
      ((4 ≤ k ∨ bit lw (18 + k) = false) → (isChain (w k) = true → good (k + 1)) →
        step s = ticked (exec (decode (w k) (if k < 4 then w (k + 1) else 0)) t))
      ∧ (k < 4 → bit lw (18 + k) = true → conflict u.convoy (w k) (w (k + 1)) = false → good (k + 1) →
        step s = .next (tick (runPair (decode (w k) 0) (decode (w (k + 1)) 0) t))))
    ∧ ∀ (s : State) (i : Instr) (rest : List Instr), s.agenda = i :: rest → isEvent i = true →
      (s.power = .off → isReset i = true) → step s = ticked (exec i { s with agenda := rest })

/-- R67 to R77, R90, R103, R109, R148: words that the chapters write out decode to their instructions. -/
def Obligations.DecodeWords : Prop :=
  decode 0x440441460083000000000000 0 = .vadd ⟨.i32, 4, 5, .vec 6, 2⟩
    ∧ decode 0x4404414000038000FFFFFFFD 0 = .vadd ⟨.i32, 4, 5, .imm 0xFFFFFFFD, 0⟩
    ∧ decode 0x08045000123456789ABCDEF0 0 = .li ⟨5, 0x123456789ABCDEF0⟩
    ∧ decode 0x140451800003A30000000010 0 = .ld ⟨.i32, 5, 6, .imm 16, some .system⟩
    ∧ decode 0x201002400000000000000003 0 = .csrw ⟨0, 3, 9⟩
    ∧ (∃ x, decode 0x5C0C80420012001300000000 0xFD803002B000000000000000 = .vchain x)
    ∧ decode 0 0 = .nop ∧ decode 0x080000000000000000000000 0 = .reservedEncoding 0x080000000000000000000000

/-- R67 to R77: encoding a well-formed instruction gives words that decode to it, with every operand; so no bit of an
operand is dropped. -/
def Obligations.EncodeDecode : Prop :=
  ∀ i : Instr, i.wf = true → (∀ w, i ≠ .reservedEncoding w) →
    ∃ (w : IWord) (ws : List IWord), encode i = w :: ws ∧ ((∀ x, i ≠ .vchain x) → ws = [])
      ∧ decode w (ws.headD 0) = i

/-- R85, R87: a word that decodes to anything but a reserved encoding is the word that its instruction encodes to. -/
def Obligations.DecodeEncode : Prop :=
  ∀ w cont : IWord, decode w cont = .reservedEncoding w
    ∨ ((decode w cont).wf = true ∧ ∃ ws, encode (decode w cont) = w :: ws ∧ ∀ v ∈ ws, v = cont)

/-- Every step keeps memory in its canonical form (log 3). -/
def Obligations.StepKeepsMemory : Prop := ∀ s t : State, s.memOk → step s = .next t → t.memOk

/-- R359, R4: after reset no hart is resident, memory stands in its canonical form, and the boot is in phase 1. That
memory reads zero everywhere before boot phase 4 zeroes the vaults (log 3), and that no cluster is assigned in phase 1
(log 10), is the model's choice. -/
def Obligations.ResetState : Prop :=
  State.reset.memOk ∧ (∀ a, memRead State.reset.mem a = 0) ∧ State.reset.harts = [] ∧ State.reset.clusters = []
    ∧ State.reset.bootPhase = 1 ∧ State.reset.zeroOk
end

