-- ==== Sys2Proof/Laws/Memory.lean ====
section
/-! SUPPORT. Laws of maps and of memory: a read after a write, and that every memory operation keeps the canonical
form. -/

namespace Sys2Proof.Machine

/-! ### Maps -/

@[simp] theorem mget_nil {α : Type} (k : Nat) : mget ([] : List (Nat × α)) k = none := rfl

theorem mget_cons {α : Type} (p : Nat × α) (m : List (Nat × α)) (k : Nat) :
    mget (p :: m) k = if p.1 = k then some p.2 else mget m k := by
  by_cases h : p.1 = k <;> simp [mget, h]

theorem mget_minsert {α : Type} (m : List (Nat × α)) (k j : Nat) (v : α) (h : mget m k = none) :
    mget (minsert m k v) j = if k = j then some v else mget m j := by
  induction m with
  | nil => simp [minsert, mget_cons]
  | cons p t ih =>
    rw [mget_cons] at h
    have hp : p.1 ≠ k := by
      intro e
      simp [e] at h
    rw [if_neg hp] at h
    simp only [minsert]
    split
    · rw [mget_cons]
    · rw [mget_cons, ih h, mget_cons]
      by_cases hj : k = j
      · subst hj
        simp [hp]
      · simp [hj]

theorem mget_merase {α : Type} (m : List (Nat × α)) (k j : Nat) :
    mget (merase m k) j = if k = j then none else mget m j := by
  induction m with
  | nil => simp [merase]
  | cons p t ih =>
    simp only [merase] at ih
    by_cases hp : p.1 = k
    · have : merase (p :: t) k = merase t k := by simp [merase, hp]
      rw [this, mget_cons]
      simp only [merase]
      rw [ih]
      by_cases hj : k = j
      · simp [hj]
      · simp [hp, hj]
    · have : merase (p :: t) k = p :: merase t k := by simp [merase, hp]
      rw [this, mget_cons]
      simp only [merase]
      rw [ih, mget_cons]
      by_cases hj : k = j
      · subst hj
        simp [hp]
      · simp [hj]

/-- Reading a map after one key was set. -/
theorem mget_mset {α : Type} (m : List (Nat × α)) (k j : Nat) (v : α) :
    mget (mset m k v) j = if k = j then some v else mget m j := by
  rw [mset, mget_minsert _ _ _ _ (by simp [mget_merase])]
  by_cases h : k = j
  · simp [h]
  · simp [h, mget_merase]

@[simp] theorem mget_mset_self {α : Type} (m : List (Nat × α)) (k : Nat) (v : α) : mget (mset m k v) k = some v := by
  simp [mget_mset]

theorem minsert_erase {α : Type} (m : List (Nat × α)) (k : Nat) (v : α) (h : ∀ p ∈ m, p.1 ≠ k) :
    merase (minsert m k v) k = m := by
  have hm : merase m k = m := List.filter_eq_self.2 fun p hp => by simpa using h p hp
  induction m with
  | nil => simp [minsert, merase]
  | cons p t ih =>
    have hp : p.1 ≠ k := h p List.mem_cons_self
    have ht : merase t k = t := List.filter_eq_self.2 fun q hq => by simpa using h q (List.mem_cons_of_mem _ hq)
    simp only [minsert]
    split
    · simp only [merase] at hm ⊢
      simpa using hm
    · have := ih (fun q hq => h q (List.mem_cons_of_mem _ hq)) ht
      simp only [merase] at this ⊢
      simp [hp, this]

/-- Setting a key twice keeps the last value. -/
theorem mset_mset {α : Type} (m : List (Nat × α)) (k : Nat) (v w : α) : mset (mset m k v) k w = mset m k w := by
  unfold mset
  rw [minsert_erase]
  intro p hp
  have := (List.mem_filter.1 hp).2
  simpa using this

/-! ### One byte -/

/-- Reading a byte after a byte was written. -/
theorem memRead_memWrite (m : List Host.Cell) (k a : Nat) (b : Byte) :
    memRead (memWrite m k b) a = if k = a then b else memRead m a := by
  unfold memRead memWrite
  by_cases hb : b = 0
  · simp only [hb, if_true, mget_merase]
    by_cases h : k = a <;> simp [h]
  · simp only [hb, if_false, mget_mset]
    by_cases h : k = a <;> simp [h]

/-- A write of bytes leaves every byte outside them. -/
theorem memRead_memWriteBytes_out (bs : List Byte) (m : List Host.Cell) (k a : Nat) (h : a < k ∨ k + bs.length ≤ a) :
    memRead (memWriteBytes m k bs) a = memRead m a := by
  induction bs generalizing m k with
  | nil => rfl
  | cons b t ih =>
    simp only [List.length_cons] at h
    rw [memWriteBytes, ih _ _ (by omega), memRead_memWrite, if_neg (by omega)]

/-- Inside them it puts the bytes in order. -/
theorem memRead_memWriteBytes_in (bs : List Byte) (m : List Host.Cell) (k i : Nat) (h : i < bs.length) :
    memRead (memWriteBytes m k bs) (k + i) = bs[i] := by
  induction bs generalizing m k i with
  | nil => simp at h
  | cons b t ih =>
    cases i with
    | zero => rw [memWriteBytes, memRead_memWriteBytes_out _ _ _ _ (by omega), memRead_memWrite]; simp
    | succ n =>
      have : k + (n + 1) = k + 1 + n := by omega
      rw [memWriteBytes, this, ih _ _ _ (by simpa using h)]
      simp

theorem mget_filter {α : Type} (f : Nat × α → Bool) (m : List (Nat × α)) (a : Nat) (h : ∀ p, p.1 = a → f p = true) :
    mget (m.filter f) a = mget m a := by
  induction m with
  | nil => rfl
  | cons p t ih =>
    by_cases hf : f p = true
    · rw [List.filter_cons_of_pos hf, mget_cons, mget_cons, ih]
    · rw [List.filter_cons_of_neg hf, ih, mget_cons, if_neg fun e => hf (h p e)]

/-- Clearing bytes leaves every byte outside them. -/
theorem memRead_memClear_out (m : List Host.Cell) (k n a : Nat) (h : a < k ∨ k + n ≤ a) :
    memRead (memClear m k n) a = memRead m a := by
  unfold memRead memClear
  rw [mget_filter]
  intro p hp
  simp only [Bool.or_eq_true, decide_eq_true_eq]
  omega

@[simp] theorem length_toBytes (n v : Nat) : (toBytes n v).length = n := by
  induction n generalizing v with
  | zero => rfl
  | succ n ih => simp [toBytes, ih]

/-! ### The canonical form -/

/-- The canonical form, by its head. -/
theorem memWf_cons (p : Host.Cell) (t : List Host.Cell) :
    memWf (p :: t) = true ↔ p.2 ≠ 0 ∧ (∀ q ∈ t.head?, p.1 < q.1) ∧ memWf t = true := by
  cases t <;> simp [memWf, and_assoc]

/-- The canonical form: rising keys and no byte 0. -/
theorem memWf_iff (m : List Host.Cell) :
    memWf m = true ↔ m.Pairwise (fun p q => p.1 < q.1) ∧ ∀ p ∈ m, p.2 ≠ 0 := by
  induction m with
  | nil => simp [memWf]
  | cons p t ih =>
    rw [memWf_cons, ih, List.pairwise_cons, List.forall_mem_cons]
    constructor
    · rintro ⟨h1, h2, h3, h4⟩
      refine ⟨⟨?_, h3⟩, h1, h4⟩
      cases t with
      | nil => simp
      | cons q u =>
        have hq : p.1 < q.1 := h2 q (by simp)
        intro r hr
        rcases List.mem_cons.1 hr with rfl | hr
        · exact hq
        · exact Nat.lt_trans hq (List.rel_of_pairwise_cons h3 hr)
    · rintro ⟨⟨h1, h2⟩, h3, h4⟩
      exact ⟨h3, fun q hq => h1 q (List.mem_of_mem_head? hq), h2, h4⟩

theorem memWf_filter (f : Host.Cell → Bool) (m : List Host.Cell) (h : memWf m = true) : memWf (m.filter f) = true := by
  rw [memWf_iff] at *
  exact ⟨h.1.filter f, fun p hp => h.2 p (List.mem_of_mem_filter hp)⟩

theorem memWf_memClear (m : List Host.Cell) (k n : Nat) (h : memWf m = true) : memWf (memClear m k n) = true :=
  memWf_filter _ m h

theorem mem_minsert {α : Type} (m : List (Nat × α)) (k : Nat) (v : α) (p : Nat × α) :
    p ∈ minsert m k v ↔ p = (k, v) ∨ p ∈ m := by
  induction m with
  | nil => simp [minsert]
  | cons q t ih =>
    simp only [minsert]
    split
    · simp
    · simp only [List.mem_cons, ih]
      tauto

theorem minsert_sorted {α : Type} (m : List (Nat × α)) (k : Nat) (v : α) (h : m.Pairwise fun p q => p.1 < q.1)
    (hk : ∀ p ∈ m, p.1 ≠ k) : (minsert m k v).Pairwise fun p q => p.1 < q.1 := by
  induction m with
  | nil => simp [minsert]
  | cons q t ih =>
    rw [List.pairwise_cons] at h
    simp only [minsert]
    split
    · rename_i hq
      refine List.pairwise_cons.2 ⟨?_, List.pairwise_cons.2 h⟩
      intro r hr
      rcases List.mem_cons.1 hr with rfl | hr
      · exact hq
      · exact Nat.lt_trans hq (h.1 r hr)
    · rename_i hq
      refine List.pairwise_cons.2 ⟨?_, ih h.2 fun p hp => hk p (List.mem_cons_of_mem _ hp)⟩
      intro r hr
      rcases (mem_minsert _ _ _ _).1 hr with rfl | hr
      · exact Nat.lt_of_le_of_ne (Nat.le_of_not_lt hq) (hk q List.mem_cons_self)
      · exact h.1 r hr

/-- A write of one byte keeps the canonical form. -/
theorem memWf_memWrite (m : List Host.Cell) (k : Nat) (b : Byte) (h : memWf m = true) :
    memWf (memWrite m k b) = true := by
  unfold memWrite
  split
  · exact memWf_filter _ m h
  · rename_i hb
    have he := memWf_filter (fun p => p.1 != k) m h
    rw [memWf_iff] at he ⊢
    refine ⟨minsert_sorted _ _ _ he.1 ?_, ?_⟩
    · intro p hp
      have := (List.mem_filter.1 hp).2
      simpa using this
    · intro p hp
      rcases (mem_minsert _ _ _ _).1 hp with rfl | hp
      · exact hb
      · exact he.2 p hp

/-- A write of bytes keeps the canonical form. -/
theorem memWf_memWriteBytes (bs : List Byte) (m : List Host.Cell) (k : Nat) (h : memWf m = true) :
    memWf (memWriteBytes m k bs) = true := by
  induction bs generalizing m k with
  | nil => exact h
  | cons b t ih => exact ih _ _ (memWf_memWrite _ _ _ h)

end Sys2Proof.Machine
end

