-- ==== Sys2Proof/Laws/State.lean ====
section
/-! SUPPORT. What each update of the state and of a hart leaves: one lemma per field, so that no proof unfolds a record
update; and what a component reads as after it was set. -/

namespace Sys2Proof.Machine

/-! ### Components of the package -/

section setHartOf
variable (s : State) (g : Nat) (x : Hart)
@[simp] theorem State.setHartOf_agenda : (s.setHartOf g x).agenda = s.agenda := rfl
@[simp] theorem State.setHartOf_cur : (s.setHartOf g x).cur = s.cur := rfl
@[simp] theorem State.setHartOf_turn : (s.setHartOf g x).turn = s.turn := rfl
@[simp] theorem State.setHartOf_cycle : (s.setHartOf g x).cycle = s.cycle := rfl
@[simp] theorem State.setHartOf_now : (s.setHartOf g x).now = s.now := rfl
@[simp] theorem State.setHartOf_freeCount : (s.setHartOf g x).freeCount = s.freeCount := rfl
@[simp] theorem State.setHartOf_convoys : (s.setHartOf g x).convoys = s.convoys := rfl
@[simp] theorem State.setHartOf_contexts : (s.setHartOf g x).contexts = s.contexts := rfl
@[simp] theorem State.setHartOf_cores : (s.setHartOf g x).cores = s.cores := rfl
@[simp] theorem State.setHartOf_clusters : (s.setHartOf g x).clusters = s.clusters := rfl
@[simp] theorem State.setHartOf_vdevs : (s.setHartOf g x).vdevs = s.vdevs := rfl
@[simp] theorem State.setHartOf_queues : (s.setHartOf g x).queues = s.queues := rfl
@[simp] theorem State.setHartOf_regions : (s.setHartOf g x).regions = s.regions := rfl
@[simp] theorem State.setHartOf_mem : (s.setHartOf g x).mem = s.mem := rfl
@[simp] theorem State.setHartOf_poison : (s.setHartOf g x).poison = s.poison := rfl
@[simp] theorem State.setHartOf_hostWrites : (s.setHartOf g x).hostWrites = s.hostWrites := rfl
@[simp] theorem State.setHartOf_rr : (s.setHartOf g x).rr = s.rr := rfl
@[simp] theorem State.setHartOf_staging : (s.setHartOf g x).staging = s.staging := rfl
@[simp] theorem State.setHartOf_power : (s.setHartOf g x).power = s.power := rfl
@[simp] theorem State.setHartOf_bootPhase : (s.setHartOf g x).bootPhase = s.bootPhase := rfl
@[simp] theorem State.setHartOf_bootFail : (s.setHartOf g x).bootFail = s.bootFail := rfl
@[simp] theorem State.setHartOf_clockMHz : (s.setHartOf g x).clockMHz = s.clockMHz := rfl
@[simp] theorem State.setHartOf_powerLimit : (s.setHartOf g x).powerLimit = s.powerLimit := rfl
@[simp] theorem State.setHartOf_fns : (s.setHartOf g x).fns = s.fns := rfl
@[simp] theorem State.setHartOf_commands : (s.setHartOf g x).commands = s.commands := rfl
@[simp] theorem State.setHartOf_mclog : (s.setHartOf g x).mclog = s.mclog := rfl
@[simp] theorem State.setHartOf_mchead : (s.setHartOf g x).mchead = s.mchead := rfl
@[simp] theorem State.setHartOf_mcovf : (s.setHartOf g x).mcovf = s.mcovf := rfl
@[simp] theorem State.setHartOf_mcread : (s.setHartOf g x).mcread = s.mcread := rfl
@[simp] theorem State.setHartOf_replies : (s.setHartOf g x).replies = s.replies := rfl
@[simp] theorem State.setHartOf_package : (s.setHartOf g x).package = s.package := rfl
@[simp] theorem State.setHartOf_planes : (s.setHartOf g x).planes = s.planes := rfl
@[simp] theorem State.setHartOf_items : (s.setHartOf g x).items = s.items := rfl
@[simp] theorem State.setHartOf_nextItem : (s.setHartOf g x).nextItem = s.nextItem := rfl
@[simp] theorem State.setHartOf_outSeq : (s.setHartOf g x).outSeq = s.outSeq := rfl
@[simp] theorem State.setHartOf_inStreams : (s.setHartOf g x).inStreams = s.inStreams := rfl
@[simp] theorem State.setHartOf_baseTlb : (s.setHartOf g x).baseTlb = s.baseTlb := rfl
@[simp] theorem State.setHartOf_arrivals : (s.setHartOf g x).arrivals = s.arrivals := rfl
@[simp] theorem State.setHartOf_sent : (s.setHartOf g x).sent = s.sent := rfl
@[simp] theorem State.setHartOf_gangs : (s.setHartOf g x).gangs = s.gangs := rfl
@[simp] theorem State.setHartOf_nextGang : (s.setHartOf g x).nextGang = s.nextGang := rfl
@[simp] theorem State.setHartOf_parts : (s.setHartOf g x).parts = s.parts := rfl
@[simp] theorem State.setHartOf_colls : (s.setHartOf g x).colls = s.colls := rfl
@[simp] theorem State.setHartOf_nextColl : (s.setHartOf g x).nextColl = s.nextColl := rfl
@[simp] theorem State.setHartOf_switchSlots : (s.setHartOf g x).switchSlots = s.switchSlots := rfl
@[simp] theorem State.setHartOf_slotWaits : (s.setHartOf g x).slotWaits = s.slotWaits := rfl
@[simp] theorem State.setHartOf_nextConvoy : (s.setHartOf g x).nextConvoy = s.nextConvoy := rfl
@[simp] theorem State.setHartOf_nextWindow : (s.setHartOf g x).nextWindow = s.nextWindow := rfl
@[simp] theorem State.setHartOf_nextContext : (s.setHartOf g x).nextContext = s.nextContext := rfl
@[simp] theorem State.setHartOf_visit : (s.setHartOf g x).visit = s.visit := rfl
@[simp] theorem State.setHartOf_activeAt : (s.setHartOf g x).activeAt = s.activeAt := rfl
@[simp] theorem State.setHartOf_hostFlushes : (s.setHartOf g x).hostFlushes = s.hostFlushes := rfl
@[simp] theorem State.setHartOf_measured : (s.setHartOf g x).measured = s.measured := rfl
@[simp] theorem State.setHartOf_chain : (s.setHartOf g x).chain = s.chain := rfl
@[simp] theorem State.setHartOf_dividedAt : (s.setHartOf g x).dividedAt = s.dividedAt := rfl
@[simp] theorem State.setHartOf_lates : (s.setHartOf g x).lates = s.lates := rfl
@[simp] theorem State.setHartOf_nextLate : (s.setHartOf g x).nextLate = s.nextLate := rfl
@[simp] theorem State.setHartOf_same : (s.setHartOf g x).hartOf g = x := by simp [State.hartOf, State.setHartOf]
theorem State.setHartOf_other (j : Nat) (h : g ≠ j) : (s.setHartOf g x).hartOf j = s.hartOf j := by
  simp [State.hartOf, State.setHartOf, mget_mset, h]
@[simp] theorem State.setHartOf_convoyOf (j : Nat) : (s.setHartOf g x).convoyOf j = s.convoyOf j := rfl
@[simp] theorem State.setHartOf_ctxOf (j : Nat) : (s.setHartOf g x).ctxOf j = s.ctxOf j := rfl
@[simp] theorem State.setHartOf_coreOf (j : Nat) : (s.setHartOf g x).coreOf j = s.coreOf j := rfl
@[simp] theorem State.setHartOf_clusterOf (j : Nat) : (s.setHartOf g x).clusterOf j = s.clusterOf j := rfl
@[simp] theorem State.setHartOf_vdevOf (j : Nat) : (s.setHartOf g x).vdevOf j = s.vdevOf j := rfl
@[simp] theorem State.setHartOf_queueOf (j : Nat) : (s.setHartOf g x).queueOf j = s.queueOf j := rfl
@[simp] theorem State.setHartOf_regionOf (j : Nat) : (s.setHartOf g x).regionOf j = s.regionOf j := rfl
@[simp] theorem State.setHartOf_fnOf (j : Nat) : (s.setHartOf g x).fnOf j = s.fnOf j := rfl
end setHartOf

section setConvoyOf
variable (s : State) (g : Nat) (x : Convoy)
@[simp] theorem State.setConvoyOf_agenda : (s.setConvoyOf g x).agenda = s.agenda := rfl
@[simp] theorem State.setConvoyOf_cur : (s.setConvoyOf g x).cur = s.cur := rfl
@[simp] theorem State.setConvoyOf_turn : (s.setConvoyOf g x).turn = s.turn := rfl
@[simp] theorem State.setConvoyOf_cycle : (s.setConvoyOf g x).cycle = s.cycle := rfl
@[simp] theorem State.setConvoyOf_now : (s.setConvoyOf g x).now = s.now := rfl
@[simp] theorem State.setConvoyOf_freeCount : (s.setConvoyOf g x).freeCount = s.freeCount := rfl
@[simp] theorem State.setConvoyOf_harts : (s.setConvoyOf g x).harts = s.harts := rfl
@[simp] theorem State.setConvoyOf_contexts : (s.setConvoyOf g x).contexts = s.contexts := rfl
@[simp] theorem State.setConvoyOf_cores : (s.setConvoyOf g x).cores = s.cores := rfl
@[simp] theorem State.setConvoyOf_clusters : (s.setConvoyOf g x).clusters = s.clusters := rfl
@[simp] theorem State.setConvoyOf_vdevs : (s.setConvoyOf g x).vdevs = s.vdevs := rfl
@[simp] theorem State.setConvoyOf_queues : (s.setConvoyOf g x).queues = s.queues := rfl
@[simp] theorem State.setConvoyOf_regions : (s.setConvoyOf g x).regions = s.regions := rfl
@[simp] theorem State.setConvoyOf_mem : (s.setConvoyOf g x).mem = s.mem := rfl
@[simp] theorem State.setConvoyOf_poison : (s.setConvoyOf g x).poison = s.poison := rfl
@[simp] theorem State.setConvoyOf_hostWrites : (s.setConvoyOf g x).hostWrites = s.hostWrites := rfl
@[simp] theorem State.setConvoyOf_rr : (s.setConvoyOf g x).rr = s.rr := rfl
@[simp] theorem State.setConvoyOf_staging : (s.setConvoyOf g x).staging = s.staging := rfl
@[simp] theorem State.setConvoyOf_power : (s.setConvoyOf g x).power = s.power := rfl
@[simp] theorem State.setConvoyOf_bootPhase : (s.setConvoyOf g x).bootPhase = s.bootPhase := rfl
@[simp] theorem State.setConvoyOf_bootFail : (s.setConvoyOf g x).bootFail = s.bootFail := rfl
@[simp] theorem State.setConvoyOf_clockMHz : (s.setConvoyOf g x).clockMHz = s.clockMHz := rfl
@[simp] theorem State.setConvoyOf_powerLimit : (s.setConvoyOf g x).powerLimit = s.powerLimit := rfl
@[simp] theorem State.setConvoyOf_fns : (s.setConvoyOf g x).fns = s.fns := rfl
@[simp] theorem State.setConvoyOf_commands : (s.setConvoyOf g x).commands = s.commands := rfl
@[simp] theorem State.setConvoyOf_mclog : (s.setConvoyOf g x).mclog = s.mclog := rfl
@[simp] theorem State.setConvoyOf_mchead : (s.setConvoyOf g x).mchead = s.mchead := rfl
@[simp] theorem State.setConvoyOf_mcovf : (s.setConvoyOf g x).mcovf = s.mcovf := rfl
@[simp] theorem State.setConvoyOf_mcread : (s.setConvoyOf g x).mcread = s.mcread := rfl
@[simp] theorem State.setConvoyOf_replies : (s.setConvoyOf g x).replies = s.replies := rfl
@[simp] theorem State.setConvoyOf_package : (s.setConvoyOf g x).package = s.package := rfl
@[simp] theorem State.setConvoyOf_planes : (s.setConvoyOf g x).planes = s.planes := rfl
@[simp] theorem State.setConvoyOf_items : (s.setConvoyOf g x).items = s.items := rfl
@[simp] theorem State.setConvoyOf_nextItem : (s.setConvoyOf g x).nextItem = s.nextItem := rfl
@[simp] theorem State.setConvoyOf_outSeq : (s.setConvoyOf g x).outSeq = s.outSeq := rfl
@[simp] theorem State.setConvoyOf_inStreams : (s.setConvoyOf g x).inStreams = s.inStreams := rfl
@[simp] theorem State.setConvoyOf_baseTlb : (s.setConvoyOf g x).baseTlb = s.baseTlb := rfl
@[simp] theorem State.setConvoyOf_arrivals : (s.setConvoyOf g x).arrivals = s.arrivals := rfl
@[simp] theorem State.setConvoyOf_sent : (s.setConvoyOf g x).sent = s.sent := rfl
@[simp] theorem State.setConvoyOf_gangs : (s.setConvoyOf g x).gangs = s.gangs := rfl
@[simp] theorem State.setConvoyOf_nextGang : (s.setConvoyOf g x).nextGang = s.nextGang := rfl
@[simp] theorem State.setConvoyOf_parts : (s.setConvoyOf g x).parts = s.parts := rfl
@[simp] theorem State.setConvoyOf_colls : (s.setConvoyOf g x).colls = s.colls := rfl
@[simp] theorem State.setConvoyOf_nextColl : (s.setConvoyOf g x).nextColl = s.nextColl := rfl
@[simp] theorem State.setConvoyOf_switchSlots : (s.setConvoyOf g x).switchSlots = s.switchSlots := rfl
@[simp] theorem State.setConvoyOf_slotWaits : (s.setConvoyOf g x).slotWaits = s.slotWaits := rfl
@[simp] theorem State.setConvoyOf_nextConvoy : (s.setConvoyOf g x).nextConvoy = s.nextConvoy := rfl
@[simp] theorem State.setConvoyOf_nextWindow : (s.setConvoyOf g x).nextWindow = s.nextWindow := rfl
@[simp] theorem State.setConvoyOf_nextContext : (s.setConvoyOf g x).nextContext = s.nextContext := rfl
@[simp] theorem State.setConvoyOf_visit : (s.setConvoyOf g x).visit = s.visit := rfl
@[simp] theorem State.setConvoyOf_activeAt : (s.setConvoyOf g x).activeAt = s.activeAt := rfl
@[simp] theorem State.setConvoyOf_hostFlushes : (s.setConvoyOf g x).hostFlushes = s.hostFlushes := rfl
@[simp] theorem State.setConvoyOf_measured : (s.setConvoyOf g x).measured = s.measured := rfl
@[simp] theorem State.setConvoyOf_chain : (s.setConvoyOf g x).chain = s.chain := rfl
@[simp] theorem State.setConvoyOf_dividedAt : (s.setConvoyOf g x).dividedAt = s.dividedAt := rfl
@[simp] theorem State.setConvoyOf_lates : (s.setConvoyOf g x).lates = s.lates := rfl
@[simp] theorem State.setConvoyOf_nextLate : (s.setConvoyOf g x).nextLate = s.nextLate := rfl
@[simp] theorem State.setConvoyOf_same : (s.setConvoyOf g x).convoyOf g = x := by simp [State.convoyOf, State.setConvoyOf]
theorem State.setConvoyOf_other (j : Nat) (h : g ≠ j) : (s.setConvoyOf g x).convoyOf j = s.convoyOf j := by
  simp [State.convoyOf, State.setConvoyOf, mget_mset, h]
@[simp] theorem State.setConvoyOf_hartOf (j : Nat) : (s.setConvoyOf g x).hartOf j = s.hartOf j := rfl
@[simp] theorem State.setConvoyOf_ctxOf (j : Nat) : (s.setConvoyOf g x).ctxOf j = s.ctxOf j := rfl
@[simp] theorem State.setConvoyOf_coreOf (j : Nat) : (s.setConvoyOf g x).coreOf j = s.coreOf j := rfl
@[simp] theorem State.setConvoyOf_clusterOf (j : Nat) : (s.setConvoyOf g x).clusterOf j = s.clusterOf j := rfl
@[simp] theorem State.setConvoyOf_vdevOf (j : Nat) : (s.setConvoyOf g x).vdevOf j = s.vdevOf j := rfl
@[simp] theorem State.setConvoyOf_queueOf (j : Nat) : (s.setConvoyOf g x).queueOf j = s.queueOf j := rfl
@[simp] theorem State.setConvoyOf_regionOf (j : Nat) : (s.setConvoyOf g x).regionOf j = s.regionOf j := rfl
@[simp] theorem State.setConvoyOf_fnOf (j : Nat) : (s.setConvoyOf g x).fnOf j = s.fnOf j := rfl
end setConvoyOf

section setCtxOf
variable (s : State) (g : Nat) (x : Context)
@[simp] theorem State.setCtxOf_agenda : (s.setCtxOf g x).agenda = s.agenda := rfl
@[simp] theorem State.setCtxOf_cur : (s.setCtxOf g x).cur = s.cur := rfl
@[simp] theorem State.setCtxOf_turn : (s.setCtxOf g x).turn = s.turn := rfl
@[simp] theorem State.setCtxOf_cycle : (s.setCtxOf g x).cycle = s.cycle := rfl
@[simp] theorem State.setCtxOf_now : (s.setCtxOf g x).now = s.now := rfl
@[simp] theorem State.setCtxOf_freeCount : (s.setCtxOf g x).freeCount = s.freeCount := rfl
@[simp] theorem State.setCtxOf_harts : (s.setCtxOf g x).harts = s.harts := rfl
@[simp] theorem State.setCtxOf_convoys : (s.setCtxOf g x).convoys = s.convoys := rfl
@[simp] theorem State.setCtxOf_cores : (s.setCtxOf g x).cores = s.cores := rfl
@[simp] theorem State.setCtxOf_clusters : (s.setCtxOf g x).clusters = s.clusters := rfl
@[simp] theorem State.setCtxOf_vdevs : (s.setCtxOf g x).vdevs = s.vdevs := rfl
@[simp] theorem State.setCtxOf_queues : (s.setCtxOf g x).queues = s.queues := rfl
@[simp] theorem State.setCtxOf_regions : (s.setCtxOf g x).regions = s.regions := rfl
@[simp] theorem State.setCtxOf_mem : (s.setCtxOf g x).mem = s.mem := rfl
@[simp] theorem State.setCtxOf_poison : (s.setCtxOf g x).poison = s.poison := rfl
@[simp] theorem State.setCtxOf_hostWrites : (s.setCtxOf g x).hostWrites = s.hostWrites := rfl
@[simp] theorem State.setCtxOf_rr : (s.setCtxOf g x).rr = s.rr := rfl
@[simp] theorem State.setCtxOf_staging : (s.setCtxOf g x).staging = s.staging := rfl
@[simp] theorem State.setCtxOf_power : (s.setCtxOf g x).power = s.power := rfl
@[simp] theorem State.setCtxOf_bootPhase : (s.setCtxOf g x).bootPhase = s.bootPhase := rfl
@[simp] theorem State.setCtxOf_bootFail : (s.setCtxOf g x).bootFail = s.bootFail := rfl
@[simp] theorem State.setCtxOf_clockMHz : (s.setCtxOf g x).clockMHz = s.clockMHz := rfl
@[simp] theorem State.setCtxOf_powerLimit : (s.setCtxOf g x).powerLimit = s.powerLimit := rfl
@[simp] theorem State.setCtxOf_fns : (s.setCtxOf g x).fns = s.fns := rfl
@[simp] theorem State.setCtxOf_commands : (s.setCtxOf g x).commands = s.commands := rfl
@[simp] theorem State.setCtxOf_mclog : (s.setCtxOf g x).mclog = s.mclog := rfl
@[simp] theorem State.setCtxOf_mchead : (s.setCtxOf g x).mchead = s.mchead := rfl
@[simp] theorem State.setCtxOf_mcovf : (s.setCtxOf g x).mcovf = s.mcovf := rfl
@[simp] theorem State.setCtxOf_mcread : (s.setCtxOf g x).mcread = s.mcread := rfl
@[simp] theorem State.setCtxOf_replies : (s.setCtxOf g x).replies = s.replies := rfl
@[simp] theorem State.setCtxOf_package : (s.setCtxOf g x).package = s.package := rfl
@[simp] theorem State.setCtxOf_planes : (s.setCtxOf g x).planes = s.planes := rfl
@[simp] theorem State.setCtxOf_items : (s.setCtxOf g x).items = s.items := rfl
@[simp] theorem State.setCtxOf_nextItem : (s.setCtxOf g x).nextItem = s.nextItem := rfl
@[simp] theorem State.setCtxOf_outSeq : (s.setCtxOf g x).outSeq = s.outSeq := rfl
@[simp] theorem State.setCtxOf_inStreams : (s.setCtxOf g x).inStreams = s.inStreams := rfl
@[simp] theorem State.setCtxOf_baseTlb : (s.setCtxOf g x).baseTlb = s.baseTlb := rfl
@[simp] theorem State.setCtxOf_arrivals : (s.setCtxOf g x).arrivals = s.arrivals := rfl
@[simp] theorem State.setCtxOf_sent : (s.setCtxOf g x).sent = s.sent := rfl
@[simp] theorem State.setCtxOf_gangs : (s.setCtxOf g x).gangs = s.gangs := rfl
@[simp] theorem State.setCtxOf_nextGang : (s.setCtxOf g x).nextGang = s.nextGang := rfl
@[simp] theorem State.setCtxOf_parts : (s.setCtxOf g x).parts = s.parts := rfl
@[simp] theorem State.setCtxOf_colls : (s.setCtxOf g x).colls = s.colls := rfl
@[simp] theorem State.setCtxOf_nextColl : (s.setCtxOf g x).nextColl = s.nextColl := rfl
@[simp] theorem State.setCtxOf_switchSlots : (s.setCtxOf g x).switchSlots = s.switchSlots := rfl
@[simp] theorem State.setCtxOf_slotWaits : (s.setCtxOf g x).slotWaits = s.slotWaits := rfl
@[simp] theorem State.setCtxOf_nextConvoy : (s.setCtxOf g x).nextConvoy = s.nextConvoy := rfl
@[simp] theorem State.setCtxOf_nextWindow : (s.setCtxOf g x).nextWindow = s.nextWindow := rfl
@[simp] theorem State.setCtxOf_nextContext : (s.setCtxOf g x).nextContext = s.nextContext := rfl
@[simp] theorem State.setCtxOf_visit : (s.setCtxOf g x).visit = s.visit := rfl
@[simp] theorem State.setCtxOf_activeAt : (s.setCtxOf g x).activeAt = s.activeAt := rfl
@[simp] theorem State.setCtxOf_hostFlushes : (s.setCtxOf g x).hostFlushes = s.hostFlushes := rfl
@[simp] theorem State.setCtxOf_measured : (s.setCtxOf g x).measured = s.measured := rfl
@[simp] theorem State.setCtxOf_chain : (s.setCtxOf g x).chain = s.chain := rfl
@[simp] theorem State.setCtxOf_dividedAt : (s.setCtxOf g x).dividedAt = s.dividedAt := rfl
@[simp] theorem State.setCtxOf_lates : (s.setCtxOf g x).lates = s.lates := rfl
@[simp] theorem State.setCtxOf_nextLate : (s.setCtxOf g x).nextLate = s.nextLate := rfl
@[simp] theorem State.setCtxOf_same : (s.setCtxOf g x).ctxOf g = x := by simp [State.ctxOf, State.setCtxOf]
theorem State.setCtxOf_other (j : Nat) (h : g ≠ j) : (s.setCtxOf g x).ctxOf j = s.ctxOf j := by
  simp [State.ctxOf, State.setCtxOf, mget_mset, h]
@[simp] theorem State.setCtxOf_hartOf (j : Nat) : (s.setCtxOf g x).hartOf j = s.hartOf j := rfl
@[simp] theorem State.setCtxOf_convoyOf (j : Nat) : (s.setCtxOf g x).convoyOf j = s.convoyOf j := rfl
@[simp] theorem State.setCtxOf_coreOf (j : Nat) : (s.setCtxOf g x).coreOf j = s.coreOf j := rfl
@[simp] theorem State.setCtxOf_clusterOf (j : Nat) : (s.setCtxOf g x).clusterOf j = s.clusterOf j := rfl
@[simp] theorem State.setCtxOf_vdevOf (j : Nat) : (s.setCtxOf g x).vdevOf j = s.vdevOf j := rfl
@[simp] theorem State.setCtxOf_queueOf (j : Nat) : (s.setCtxOf g x).queueOf j = s.queueOf j := rfl
@[simp] theorem State.setCtxOf_regionOf (j : Nat) : (s.setCtxOf g x).regionOf j = s.regionOf j := rfl
@[simp] theorem State.setCtxOf_fnOf (j : Nat) : (s.setCtxOf g x).fnOf j = s.fnOf j := rfl
end setCtxOf

section setCoreOf
variable (s : State) (g : Nat) (x : Core)
@[simp] theorem State.setCoreOf_agenda : (s.setCoreOf g x).agenda = s.agenda := rfl
@[simp] theorem State.setCoreOf_cur : (s.setCoreOf g x).cur = s.cur := rfl
@[simp] theorem State.setCoreOf_turn : (s.setCoreOf g x).turn = s.turn := rfl
@[simp] theorem State.setCoreOf_cycle : (s.setCoreOf g x).cycle = s.cycle := rfl
@[simp] theorem State.setCoreOf_now : (s.setCoreOf g x).now = s.now := rfl
@[simp] theorem State.setCoreOf_freeCount : (s.setCoreOf g x).freeCount = s.freeCount := rfl
@[simp] theorem State.setCoreOf_harts : (s.setCoreOf g x).harts = s.harts := rfl
@[simp] theorem State.setCoreOf_convoys : (s.setCoreOf g x).convoys = s.convoys := rfl
@[simp] theorem State.setCoreOf_contexts : (s.setCoreOf g x).contexts = s.contexts := rfl
@[simp] theorem State.setCoreOf_clusters : (s.setCoreOf g x).clusters = s.clusters := rfl
@[simp] theorem State.setCoreOf_vdevs : (s.setCoreOf g x).vdevs = s.vdevs := rfl
@[simp] theorem State.setCoreOf_queues : (s.setCoreOf g x).queues = s.queues := rfl
@[simp] theorem State.setCoreOf_regions : (s.setCoreOf g x).regions = s.regions := rfl
@[simp] theorem State.setCoreOf_mem : (s.setCoreOf g x).mem = s.mem := rfl
@[simp] theorem State.setCoreOf_poison : (s.setCoreOf g x).poison = s.poison := rfl
@[simp] theorem State.setCoreOf_hostWrites : (s.setCoreOf g x).hostWrites = s.hostWrites := rfl
@[simp] theorem State.setCoreOf_rr : (s.setCoreOf g x).rr = s.rr := rfl
@[simp] theorem State.setCoreOf_staging : (s.setCoreOf g x).staging = s.staging := rfl
@[simp] theorem State.setCoreOf_power : (s.setCoreOf g x).power = s.power := rfl
@[simp] theorem State.setCoreOf_bootPhase : (s.setCoreOf g x).bootPhase = s.bootPhase := rfl
@[simp] theorem State.setCoreOf_bootFail : (s.setCoreOf g x).bootFail = s.bootFail := rfl
@[simp] theorem State.setCoreOf_clockMHz : (s.setCoreOf g x).clockMHz = s.clockMHz := rfl
@[simp] theorem State.setCoreOf_powerLimit : (s.setCoreOf g x).powerLimit = s.powerLimit := rfl
@[simp] theorem State.setCoreOf_fns : (s.setCoreOf g x).fns = s.fns := rfl
@[simp] theorem State.setCoreOf_commands : (s.setCoreOf g x).commands = s.commands := rfl
@[simp] theorem State.setCoreOf_mclog : (s.setCoreOf g x).mclog = s.mclog := rfl
@[simp] theorem State.setCoreOf_mchead : (s.setCoreOf g x).mchead = s.mchead := rfl
@[simp] theorem State.setCoreOf_mcovf : (s.setCoreOf g x).mcovf = s.mcovf := rfl
@[simp] theorem State.setCoreOf_mcread : (s.setCoreOf g x).mcread = s.mcread := rfl
@[simp] theorem State.setCoreOf_replies : (s.setCoreOf g x).replies = s.replies := rfl
@[simp] theorem State.setCoreOf_package : (s.setCoreOf g x).package = s.package := rfl
@[simp] theorem State.setCoreOf_planes : (s.setCoreOf g x).planes = s.planes := rfl
@[simp] theorem State.setCoreOf_items : (s.setCoreOf g x).items = s.items := rfl
@[simp] theorem State.setCoreOf_nextItem : (s.setCoreOf g x).nextItem = s.nextItem := rfl
@[simp] theorem State.setCoreOf_outSeq : (s.setCoreOf g x).outSeq = s.outSeq := rfl
@[simp] theorem State.setCoreOf_inStreams : (s.setCoreOf g x).inStreams = s.inStreams := rfl
@[simp] theorem State.setCoreOf_baseTlb : (s.setCoreOf g x).baseTlb = s.baseTlb := rfl
@[simp] theorem State.setCoreOf_arrivals : (s.setCoreOf g x).arrivals = s.arrivals := rfl
@[simp] theorem State.setCoreOf_sent : (s.setCoreOf g x).sent = s.sent := rfl
@[simp] theorem State.setCoreOf_gangs : (s.setCoreOf g x).gangs = s.gangs := rfl
@[simp] theorem State.setCoreOf_nextGang : (s.setCoreOf g x).nextGang = s.nextGang := rfl
@[simp] theorem State.setCoreOf_parts : (s.setCoreOf g x).parts = s.parts := rfl
@[simp] theorem State.setCoreOf_colls : (s.setCoreOf g x).colls = s.colls := rfl
@[simp] theorem State.setCoreOf_nextColl : (s.setCoreOf g x).nextColl = s.nextColl := rfl
@[simp] theorem State.setCoreOf_switchSlots : (s.setCoreOf g x).switchSlots = s.switchSlots := rfl
@[simp] theorem State.setCoreOf_slotWaits : (s.setCoreOf g x).slotWaits = s.slotWaits := rfl
@[simp] theorem State.setCoreOf_nextConvoy : (s.setCoreOf g x).nextConvoy = s.nextConvoy := rfl
@[simp] theorem State.setCoreOf_nextWindow : (s.setCoreOf g x).nextWindow = s.nextWindow := rfl
@[simp] theorem State.setCoreOf_nextContext : (s.setCoreOf g x).nextContext = s.nextContext := rfl
@[simp] theorem State.setCoreOf_visit : (s.setCoreOf g x).visit = s.visit := rfl
@[simp] theorem State.setCoreOf_activeAt : (s.setCoreOf g x).activeAt = s.activeAt := rfl
@[simp] theorem State.setCoreOf_hostFlushes : (s.setCoreOf g x).hostFlushes = s.hostFlushes := rfl
@[simp] theorem State.setCoreOf_measured : (s.setCoreOf g x).measured = s.measured := rfl
@[simp] theorem State.setCoreOf_chain : (s.setCoreOf g x).chain = s.chain := rfl
@[simp] theorem State.setCoreOf_dividedAt : (s.setCoreOf g x).dividedAt = s.dividedAt := rfl
@[simp] theorem State.setCoreOf_lates : (s.setCoreOf g x).lates = s.lates := rfl
@[simp] theorem State.setCoreOf_nextLate : (s.setCoreOf g x).nextLate = s.nextLate := rfl
@[simp] theorem State.setCoreOf_same : (s.setCoreOf g x).coreOf g = x := by simp [State.coreOf, State.setCoreOf]
theorem State.setCoreOf_other (j : Nat) (h : g ≠ j) : (s.setCoreOf g x).coreOf j = s.coreOf j := by
  simp [State.coreOf, State.setCoreOf, mget_mset, h]
@[simp] theorem State.setCoreOf_hartOf (j : Nat) : (s.setCoreOf g x).hartOf j = s.hartOf j := rfl
@[simp] theorem State.setCoreOf_convoyOf (j : Nat) : (s.setCoreOf g x).convoyOf j = s.convoyOf j := rfl
@[simp] theorem State.setCoreOf_ctxOf (j : Nat) : (s.setCoreOf g x).ctxOf j = s.ctxOf j := rfl
@[simp] theorem State.setCoreOf_clusterOf (j : Nat) : (s.setCoreOf g x).clusterOf j = s.clusterOf j := rfl
@[simp] theorem State.setCoreOf_vdevOf (j : Nat) : (s.setCoreOf g x).vdevOf j = s.vdevOf j := rfl
@[simp] theorem State.setCoreOf_queueOf (j : Nat) : (s.setCoreOf g x).queueOf j = s.queueOf j := rfl
@[simp] theorem State.setCoreOf_regionOf (j : Nat) : (s.setCoreOf g x).regionOf j = s.regionOf j := rfl
@[simp] theorem State.setCoreOf_fnOf (j : Nat) : (s.setCoreOf g x).fnOf j = s.fnOf j := rfl
end setCoreOf

section setClusterOf
variable (s : State) (g : Nat) (x : Cluster)
@[simp] theorem State.setClusterOf_agenda : (s.setClusterOf g x).agenda = s.agenda := rfl
@[simp] theorem State.setClusterOf_cur : (s.setClusterOf g x).cur = s.cur := rfl
@[simp] theorem State.setClusterOf_turn : (s.setClusterOf g x).turn = s.turn := rfl
@[simp] theorem State.setClusterOf_cycle : (s.setClusterOf g x).cycle = s.cycle := rfl
@[simp] theorem State.setClusterOf_now : (s.setClusterOf g x).now = s.now := rfl
@[simp] theorem State.setClusterOf_freeCount : (s.setClusterOf g x).freeCount = s.freeCount := rfl
@[simp] theorem State.setClusterOf_harts : (s.setClusterOf g x).harts = s.harts := rfl
@[simp] theorem State.setClusterOf_convoys : (s.setClusterOf g x).convoys = s.convoys := rfl
@[simp] theorem State.setClusterOf_contexts : (s.setClusterOf g x).contexts = s.contexts := rfl
@[simp] theorem State.setClusterOf_cores : (s.setClusterOf g x).cores = s.cores := rfl
@[simp] theorem State.setClusterOf_vdevs : (s.setClusterOf g x).vdevs = s.vdevs := rfl
@[simp] theorem State.setClusterOf_queues : (s.setClusterOf g x).queues = s.queues := rfl
@[simp] theorem State.setClusterOf_regions : (s.setClusterOf g x).regions = s.regions := rfl
@[simp] theorem State.setClusterOf_mem : (s.setClusterOf g x).mem = s.mem := rfl
@[simp] theorem State.setClusterOf_poison : (s.setClusterOf g x).poison = s.poison := rfl
@[simp] theorem State.setClusterOf_hostWrites : (s.setClusterOf g x).hostWrites = s.hostWrites := rfl
@[simp] theorem State.setClusterOf_rr : (s.setClusterOf g x).rr = s.rr := rfl
@[simp] theorem State.setClusterOf_staging : (s.setClusterOf g x).staging = s.staging := rfl
@[simp] theorem State.setClusterOf_power : (s.setClusterOf g x).power = s.power := rfl
@[simp] theorem State.setClusterOf_bootPhase : (s.setClusterOf g x).bootPhase = s.bootPhase := rfl
@[simp] theorem State.setClusterOf_bootFail : (s.setClusterOf g x).bootFail = s.bootFail := rfl
@[simp] theorem State.setClusterOf_clockMHz : (s.setClusterOf g x).clockMHz = s.clockMHz := rfl
@[simp] theorem State.setClusterOf_powerLimit : (s.setClusterOf g x).powerLimit = s.powerLimit := rfl
@[simp] theorem State.setClusterOf_fns : (s.setClusterOf g x).fns = s.fns := rfl
@[simp] theorem State.setClusterOf_commands : (s.setClusterOf g x).commands = s.commands := rfl
@[simp] theorem State.setClusterOf_mclog : (s.setClusterOf g x).mclog = s.mclog := rfl
@[simp] theorem State.setClusterOf_mchead : (s.setClusterOf g x).mchead = s.mchead := rfl
@[simp] theorem State.setClusterOf_mcovf : (s.setClusterOf g x).mcovf = s.mcovf := rfl
@[simp] theorem State.setClusterOf_mcread : (s.setClusterOf g x).mcread = s.mcread := rfl
@[simp] theorem State.setClusterOf_replies : (s.setClusterOf g x).replies = s.replies := rfl
@[simp] theorem State.setClusterOf_package : (s.setClusterOf g x).package = s.package := rfl
@[simp] theorem State.setClusterOf_planes : (s.setClusterOf g x).planes = s.planes := rfl
@[simp] theorem State.setClusterOf_items : (s.setClusterOf g x).items = s.items := rfl
@[simp] theorem State.setClusterOf_nextItem : (s.setClusterOf g x).nextItem = s.nextItem := rfl
@[simp] theorem State.setClusterOf_outSeq : (s.setClusterOf g x).outSeq = s.outSeq := rfl
@[simp] theorem State.setClusterOf_inStreams : (s.setClusterOf g x).inStreams = s.inStreams := rfl
@[simp] theorem State.setClusterOf_baseTlb : (s.setClusterOf g x).baseTlb = s.baseTlb := rfl
@[simp] theorem State.setClusterOf_arrivals : (s.setClusterOf g x).arrivals = s.arrivals := rfl
@[simp] theorem State.setClusterOf_sent : (s.setClusterOf g x).sent = s.sent := rfl
@[simp] theorem State.setClusterOf_gangs : (s.setClusterOf g x).gangs = s.gangs := rfl
@[simp] theorem State.setClusterOf_nextGang : (s.setClusterOf g x).nextGang = s.nextGang := rfl
@[simp] theorem State.setClusterOf_parts : (s.setClusterOf g x).parts = s.parts := rfl
@[simp] theorem State.setClusterOf_colls : (s.setClusterOf g x).colls = s.colls := rfl
@[simp] theorem State.setClusterOf_nextColl : (s.setClusterOf g x).nextColl = s.nextColl := rfl
@[simp] theorem State.setClusterOf_switchSlots : (s.setClusterOf g x).switchSlots = s.switchSlots := rfl
@[simp] theorem State.setClusterOf_slotWaits : (s.setClusterOf g x).slotWaits = s.slotWaits := rfl
@[simp] theorem State.setClusterOf_nextConvoy : (s.setClusterOf g x).nextConvoy = s.nextConvoy := rfl
@[simp] theorem State.setClusterOf_nextWindow : (s.setClusterOf g x).nextWindow = s.nextWindow := rfl
@[simp] theorem State.setClusterOf_nextContext : (s.setClusterOf g x).nextContext = s.nextContext := rfl
@[simp] theorem State.setClusterOf_visit : (s.setClusterOf g x).visit = s.visit := rfl
@[simp] theorem State.setClusterOf_activeAt : (s.setClusterOf g x).activeAt = s.activeAt := rfl
@[simp] theorem State.setClusterOf_hostFlushes : (s.setClusterOf g x).hostFlushes = s.hostFlushes := rfl
@[simp] theorem State.setClusterOf_measured : (s.setClusterOf g x).measured = s.measured := rfl
@[simp] theorem State.setClusterOf_chain : (s.setClusterOf g x).chain = s.chain := rfl
@[simp] theorem State.setClusterOf_dividedAt : (s.setClusterOf g x).dividedAt = s.dividedAt := rfl
@[simp] theorem State.setClusterOf_lates : (s.setClusterOf g x).lates = s.lates := rfl
@[simp] theorem State.setClusterOf_nextLate : (s.setClusterOf g x).nextLate = s.nextLate := rfl
@[simp] theorem State.setClusterOf_same : (s.setClusterOf g x).clusterOf g = x := by simp [State.clusterOf, State.setClusterOf]
theorem State.setClusterOf_other (j : Nat) (h : g ≠ j) : (s.setClusterOf g x).clusterOf j = s.clusterOf j := by
  simp [State.clusterOf, State.setClusterOf, mget_mset, h]
@[simp] theorem State.setClusterOf_hartOf (j : Nat) : (s.setClusterOf g x).hartOf j = s.hartOf j := rfl
@[simp] theorem State.setClusterOf_convoyOf (j : Nat) : (s.setClusterOf g x).convoyOf j = s.convoyOf j := rfl
@[simp] theorem State.setClusterOf_ctxOf (j : Nat) : (s.setClusterOf g x).ctxOf j = s.ctxOf j := rfl
@[simp] theorem State.setClusterOf_coreOf (j : Nat) : (s.setClusterOf g x).coreOf j = s.coreOf j := rfl
@[simp] theorem State.setClusterOf_vdevOf (j : Nat) : (s.setClusterOf g x).vdevOf j = s.vdevOf j := rfl
@[simp] theorem State.setClusterOf_queueOf (j : Nat) : (s.setClusterOf g x).queueOf j = s.queueOf j := rfl
@[simp] theorem State.setClusterOf_regionOf (j : Nat) : (s.setClusterOf g x).regionOf j = s.regionOf j := rfl
@[simp] theorem State.setClusterOf_fnOf (j : Nat) : (s.setClusterOf g x).fnOf j = s.fnOf j := rfl
end setClusterOf

section setVdevOf
variable (s : State) (g : Nat) (x : VDev)
@[simp] theorem State.setVdevOf_agenda : (s.setVdevOf g x).agenda = s.agenda := rfl
@[simp] theorem State.setVdevOf_cur : (s.setVdevOf g x).cur = s.cur := rfl
@[simp] theorem State.setVdevOf_turn : (s.setVdevOf g x).turn = s.turn := rfl
@[simp] theorem State.setVdevOf_cycle : (s.setVdevOf g x).cycle = s.cycle := rfl
@[simp] theorem State.setVdevOf_now : (s.setVdevOf g x).now = s.now := rfl
@[simp] theorem State.setVdevOf_freeCount : (s.setVdevOf g x).freeCount = s.freeCount := rfl
@[simp] theorem State.setVdevOf_harts : (s.setVdevOf g x).harts = s.harts := rfl
@[simp] theorem State.setVdevOf_convoys : (s.setVdevOf g x).convoys = s.convoys := rfl
@[simp] theorem State.setVdevOf_contexts : (s.setVdevOf g x).contexts = s.contexts := rfl
@[simp] theorem State.setVdevOf_cores : (s.setVdevOf g x).cores = s.cores := rfl
@[simp] theorem State.setVdevOf_clusters : (s.setVdevOf g x).clusters = s.clusters := rfl
@[simp] theorem State.setVdevOf_queues : (s.setVdevOf g x).queues = s.queues := rfl
@[simp] theorem State.setVdevOf_regions : (s.setVdevOf g x).regions = s.regions := rfl
@[simp] theorem State.setVdevOf_mem : (s.setVdevOf g x).mem = s.mem := rfl
@[simp] theorem State.setVdevOf_poison : (s.setVdevOf g x).poison = s.poison := rfl
@[simp] theorem State.setVdevOf_hostWrites : (s.setVdevOf g x).hostWrites = s.hostWrites := rfl
@[simp] theorem State.setVdevOf_rr : (s.setVdevOf g x).rr = s.rr := rfl
@[simp] theorem State.setVdevOf_staging : (s.setVdevOf g x).staging = s.staging := rfl
@[simp] theorem State.setVdevOf_power : (s.setVdevOf g x).power = s.power := rfl
@[simp] theorem State.setVdevOf_bootPhase : (s.setVdevOf g x).bootPhase = s.bootPhase := rfl
@[simp] theorem State.setVdevOf_bootFail : (s.setVdevOf g x).bootFail = s.bootFail := rfl
@[simp] theorem State.setVdevOf_clockMHz : (s.setVdevOf g x).clockMHz = s.clockMHz := rfl
@[simp] theorem State.setVdevOf_powerLimit : (s.setVdevOf g x).powerLimit = s.powerLimit := rfl
@[simp] theorem State.setVdevOf_fns : (s.setVdevOf g x).fns = s.fns := rfl
@[simp] theorem State.setVdevOf_commands : (s.setVdevOf g x).commands = s.commands := rfl
@[simp] theorem State.setVdevOf_mclog : (s.setVdevOf g x).mclog = s.mclog := rfl
@[simp] theorem State.setVdevOf_mchead : (s.setVdevOf g x).mchead = s.mchead := rfl
@[simp] theorem State.setVdevOf_mcovf : (s.setVdevOf g x).mcovf = s.mcovf := rfl
@[simp] theorem State.setVdevOf_mcread : (s.setVdevOf g x).mcread = s.mcread := rfl
@[simp] theorem State.setVdevOf_replies : (s.setVdevOf g x).replies = s.replies := rfl
@[simp] theorem State.setVdevOf_package : (s.setVdevOf g x).package = s.package := rfl
@[simp] theorem State.setVdevOf_planes : (s.setVdevOf g x).planes = s.planes := rfl
@[simp] theorem State.setVdevOf_items : (s.setVdevOf g x).items = s.items := rfl
@[simp] theorem State.setVdevOf_nextItem : (s.setVdevOf g x).nextItem = s.nextItem := rfl
@[simp] theorem State.setVdevOf_outSeq : (s.setVdevOf g x).outSeq = s.outSeq := rfl
@[simp] theorem State.setVdevOf_inStreams : (s.setVdevOf g x).inStreams = s.inStreams := rfl
@[simp] theorem State.setVdevOf_baseTlb : (s.setVdevOf g x).baseTlb = s.baseTlb := rfl
@[simp] theorem State.setVdevOf_arrivals : (s.setVdevOf g x).arrivals = s.arrivals := rfl
@[simp] theorem State.setVdevOf_sent : (s.setVdevOf g x).sent = s.sent := rfl
@[simp] theorem State.setVdevOf_gangs : (s.setVdevOf g x).gangs = s.gangs := rfl
@[simp] theorem State.setVdevOf_nextGang : (s.setVdevOf g x).nextGang = s.nextGang := rfl
@[simp] theorem State.setVdevOf_parts : (s.setVdevOf g x).parts = s.parts := rfl
@[simp] theorem State.setVdevOf_colls : (s.setVdevOf g x).colls = s.colls := rfl
@[simp] theorem State.setVdevOf_nextColl : (s.setVdevOf g x).nextColl = s.nextColl := rfl
@[simp] theorem State.setVdevOf_switchSlots : (s.setVdevOf g x).switchSlots = s.switchSlots := rfl
@[simp] theorem State.setVdevOf_slotWaits : (s.setVdevOf g x).slotWaits = s.slotWaits := rfl
@[simp] theorem State.setVdevOf_nextConvoy : (s.setVdevOf g x).nextConvoy = s.nextConvoy := rfl
@[simp] theorem State.setVdevOf_nextWindow : (s.setVdevOf g x).nextWindow = s.nextWindow := rfl
@[simp] theorem State.setVdevOf_nextContext : (s.setVdevOf g x).nextContext = s.nextContext := rfl
@[simp] theorem State.setVdevOf_visit : (s.setVdevOf g x).visit = s.visit := rfl
@[simp] theorem State.setVdevOf_activeAt : (s.setVdevOf g x).activeAt = s.activeAt := rfl
@[simp] theorem State.setVdevOf_hostFlushes : (s.setVdevOf g x).hostFlushes = s.hostFlushes := rfl
@[simp] theorem State.setVdevOf_measured : (s.setVdevOf g x).measured = s.measured := rfl
@[simp] theorem State.setVdevOf_chain : (s.setVdevOf g x).chain = s.chain := rfl
@[simp] theorem State.setVdevOf_dividedAt : (s.setVdevOf g x).dividedAt = s.dividedAt := rfl
@[simp] theorem State.setVdevOf_lates : (s.setVdevOf g x).lates = s.lates := rfl
@[simp] theorem State.setVdevOf_nextLate : (s.setVdevOf g x).nextLate = s.nextLate := rfl
@[simp] theorem State.setVdevOf_same : (s.setVdevOf g x).vdevOf g = x := by simp [State.vdevOf, State.setVdevOf]
theorem State.setVdevOf_other (j : Nat) (h : g ≠ j) : (s.setVdevOf g x).vdevOf j = s.vdevOf j := by
  simp [State.vdevOf, State.setVdevOf, mget_mset, h]
@[simp] theorem State.setVdevOf_hartOf (j : Nat) : (s.setVdevOf g x).hartOf j = s.hartOf j := rfl
@[simp] theorem State.setVdevOf_convoyOf (j : Nat) : (s.setVdevOf g x).convoyOf j = s.convoyOf j := rfl
@[simp] theorem State.setVdevOf_ctxOf (j : Nat) : (s.setVdevOf g x).ctxOf j = s.ctxOf j := rfl
@[simp] theorem State.setVdevOf_coreOf (j : Nat) : (s.setVdevOf g x).coreOf j = s.coreOf j := rfl
@[simp] theorem State.setVdevOf_clusterOf (j : Nat) : (s.setVdevOf g x).clusterOf j = s.clusterOf j := rfl
@[simp] theorem State.setVdevOf_queueOf (j : Nat) : (s.setVdevOf g x).queueOf j = s.queueOf j := rfl
@[simp] theorem State.setVdevOf_regionOf (j : Nat) : (s.setVdevOf g x).regionOf j = s.regionOf j := rfl
@[simp] theorem State.setVdevOf_fnOf (j : Nat) : (s.setVdevOf g x).fnOf j = s.fnOf j := rfl
end setVdevOf

section setQueueOf
variable (s : State) (g : Nat) (x : LQueue)
@[simp] theorem State.setQueueOf_agenda : (s.setQueueOf g x).agenda = s.agenda := rfl
@[simp] theorem State.setQueueOf_cur : (s.setQueueOf g x).cur = s.cur := rfl
@[simp] theorem State.setQueueOf_turn : (s.setQueueOf g x).turn = s.turn := rfl
@[simp] theorem State.setQueueOf_cycle : (s.setQueueOf g x).cycle = s.cycle := rfl
@[simp] theorem State.setQueueOf_now : (s.setQueueOf g x).now = s.now := rfl
@[simp] theorem State.setQueueOf_freeCount : (s.setQueueOf g x).freeCount = s.freeCount := rfl
@[simp] theorem State.setQueueOf_harts : (s.setQueueOf g x).harts = s.harts := rfl
@[simp] theorem State.setQueueOf_convoys : (s.setQueueOf g x).convoys = s.convoys := rfl
@[simp] theorem State.setQueueOf_contexts : (s.setQueueOf g x).contexts = s.contexts := rfl
@[simp] theorem State.setQueueOf_cores : (s.setQueueOf g x).cores = s.cores := rfl
@[simp] theorem State.setQueueOf_clusters : (s.setQueueOf g x).clusters = s.clusters := rfl
@[simp] theorem State.setQueueOf_vdevs : (s.setQueueOf g x).vdevs = s.vdevs := rfl
@[simp] theorem State.setQueueOf_regions : (s.setQueueOf g x).regions = s.regions := rfl
@[simp] theorem State.setQueueOf_mem : (s.setQueueOf g x).mem = s.mem := rfl
@[simp] theorem State.setQueueOf_poison : (s.setQueueOf g x).poison = s.poison := rfl
@[simp] theorem State.setQueueOf_hostWrites : (s.setQueueOf g x).hostWrites = s.hostWrites := rfl
@[simp] theorem State.setQueueOf_rr : (s.setQueueOf g x).rr = s.rr := rfl
@[simp] theorem State.setQueueOf_staging : (s.setQueueOf g x).staging = s.staging := rfl
@[simp] theorem State.setQueueOf_power : (s.setQueueOf g x).power = s.power := rfl
@[simp] theorem State.setQueueOf_bootPhase : (s.setQueueOf g x).bootPhase = s.bootPhase := rfl
@[simp] theorem State.setQueueOf_bootFail : (s.setQueueOf g x).bootFail = s.bootFail := rfl
@[simp] theorem State.setQueueOf_clockMHz : (s.setQueueOf g x).clockMHz = s.clockMHz := rfl
@[simp] theorem State.setQueueOf_powerLimit : (s.setQueueOf g x).powerLimit = s.powerLimit := rfl
@[simp] theorem State.setQueueOf_fns : (s.setQueueOf g x).fns = s.fns := rfl
@[simp] theorem State.setQueueOf_commands : (s.setQueueOf g x).commands = s.commands := rfl
@[simp] theorem State.setQueueOf_mclog : (s.setQueueOf g x).mclog = s.mclog := rfl
@[simp] theorem State.setQueueOf_mchead : (s.setQueueOf g x).mchead = s.mchead := rfl
@[simp] theorem State.setQueueOf_mcovf : (s.setQueueOf g x).mcovf = s.mcovf := rfl
@[simp] theorem State.setQueueOf_mcread : (s.setQueueOf g x).mcread = s.mcread := rfl
@[simp] theorem State.setQueueOf_replies : (s.setQueueOf g x).replies = s.replies := rfl
@[simp] theorem State.setQueueOf_package : (s.setQueueOf g x).package = s.package := rfl
@[simp] theorem State.setQueueOf_planes : (s.setQueueOf g x).planes = s.planes := rfl
@[simp] theorem State.setQueueOf_items : (s.setQueueOf g x).items = s.items := rfl
@[simp] theorem State.setQueueOf_nextItem : (s.setQueueOf g x).nextItem = s.nextItem := rfl
@[simp] theorem State.setQueueOf_outSeq : (s.setQueueOf g x).outSeq = s.outSeq := rfl
@[simp] theorem State.setQueueOf_inStreams : (s.setQueueOf g x).inStreams = s.inStreams := rfl
@[simp] theorem State.setQueueOf_baseTlb : (s.setQueueOf g x).baseTlb = s.baseTlb := rfl
@[simp] theorem State.setQueueOf_arrivals : (s.setQueueOf g x).arrivals = s.arrivals := rfl
@[simp] theorem State.setQueueOf_sent : (s.setQueueOf g x).sent = s.sent := rfl
@[simp] theorem State.setQueueOf_gangs : (s.setQueueOf g x).gangs = s.gangs := rfl
@[simp] theorem State.setQueueOf_nextGang : (s.setQueueOf g x).nextGang = s.nextGang := rfl
@[simp] theorem State.setQueueOf_parts : (s.setQueueOf g x).parts = s.parts := rfl
@[simp] theorem State.setQueueOf_colls : (s.setQueueOf g x).colls = s.colls := rfl
@[simp] theorem State.setQueueOf_nextColl : (s.setQueueOf g x).nextColl = s.nextColl := rfl
@[simp] theorem State.setQueueOf_switchSlots : (s.setQueueOf g x).switchSlots = s.switchSlots := rfl
@[simp] theorem State.setQueueOf_slotWaits : (s.setQueueOf g x).slotWaits = s.slotWaits := rfl
@[simp] theorem State.setQueueOf_nextConvoy : (s.setQueueOf g x).nextConvoy = s.nextConvoy := rfl
@[simp] theorem State.setQueueOf_nextWindow : (s.setQueueOf g x).nextWindow = s.nextWindow := rfl
@[simp] theorem State.setQueueOf_nextContext : (s.setQueueOf g x).nextContext = s.nextContext := rfl
@[simp] theorem State.setQueueOf_visit : (s.setQueueOf g x).visit = s.visit := rfl
@[simp] theorem State.setQueueOf_activeAt : (s.setQueueOf g x).activeAt = s.activeAt := rfl
@[simp] theorem State.setQueueOf_hostFlushes : (s.setQueueOf g x).hostFlushes = s.hostFlushes := rfl
@[simp] theorem State.setQueueOf_measured : (s.setQueueOf g x).measured = s.measured := rfl
@[simp] theorem State.setQueueOf_chain : (s.setQueueOf g x).chain = s.chain := rfl
@[simp] theorem State.setQueueOf_dividedAt : (s.setQueueOf g x).dividedAt = s.dividedAt := rfl
@[simp] theorem State.setQueueOf_lates : (s.setQueueOf g x).lates = s.lates := rfl
@[simp] theorem State.setQueueOf_nextLate : (s.setQueueOf g x).nextLate = s.nextLate := rfl
@[simp] theorem State.setQueueOf_same : (s.setQueueOf g x).queueOf g = x := by simp [State.queueOf, State.setQueueOf]
theorem State.setQueueOf_other (j : Nat) (h : g ≠ j) : (s.setQueueOf g x).queueOf j = s.queueOf j := by
  simp [State.queueOf, State.setQueueOf, mget_mset, h]
@[simp] theorem State.setQueueOf_hartOf (j : Nat) : (s.setQueueOf g x).hartOf j = s.hartOf j := rfl
@[simp] theorem State.setQueueOf_convoyOf (j : Nat) : (s.setQueueOf g x).convoyOf j = s.convoyOf j := rfl
@[simp] theorem State.setQueueOf_ctxOf (j : Nat) : (s.setQueueOf g x).ctxOf j = s.ctxOf j := rfl
@[simp] theorem State.setQueueOf_coreOf (j : Nat) : (s.setQueueOf g x).coreOf j = s.coreOf j := rfl
@[simp] theorem State.setQueueOf_clusterOf (j : Nat) : (s.setQueueOf g x).clusterOf j = s.clusterOf j := rfl
@[simp] theorem State.setQueueOf_vdevOf (j : Nat) : (s.setQueueOf g x).vdevOf j = s.vdevOf j := rfl
@[simp] theorem State.setQueueOf_regionOf (j : Nat) : (s.setQueueOf g x).regionOf j = s.regionOf j := rfl
@[simp] theorem State.setQueueOf_fnOf (j : Nat) : (s.setQueueOf g x).fnOf j = s.fnOf j := rfl
end setQueueOf

section setRegionOf
variable (s : State) (g : Nat) (x : Region)
@[simp] theorem State.setRegionOf_agenda : (s.setRegionOf g x).agenda = s.agenda := rfl
@[simp] theorem State.setRegionOf_cur : (s.setRegionOf g x).cur = s.cur := rfl
@[simp] theorem State.setRegionOf_turn : (s.setRegionOf g x).turn = s.turn := rfl
@[simp] theorem State.setRegionOf_cycle : (s.setRegionOf g x).cycle = s.cycle := rfl
@[simp] theorem State.setRegionOf_now : (s.setRegionOf g x).now = s.now := rfl
@[simp] theorem State.setRegionOf_freeCount : (s.setRegionOf g x).freeCount = s.freeCount := rfl
@[simp] theorem State.setRegionOf_harts : (s.setRegionOf g x).harts = s.harts := rfl
@[simp] theorem State.setRegionOf_convoys : (s.setRegionOf g x).convoys = s.convoys := rfl
@[simp] theorem State.setRegionOf_contexts : (s.setRegionOf g x).contexts = s.contexts := rfl
@[simp] theorem State.setRegionOf_cores : (s.setRegionOf g x).cores = s.cores := rfl
@[simp] theorem State.setRegionOf_clusters : (s.setRegionOf g x).clusters = s.clusters := rfl
@[simp] theorem State.setRegionOf_vdevs : (s.setRegionOf g x).vdevs = s.vdevs := rfl
@[simp] theorem State.setRegionOf_queues : (s.setRegionOf g x).queues = s.queues := rfl
@[simp] theorem State.setRegionOf_mem : (s.setRegionOf g x).mem = s.mem := rfl
@[simp] theorem State.setRegionOf_poison : (s.setRegionOf g x).poison = s.poison := rfl
@[simp] theorem State.setRegionOf_hostWrites : (s.setRegionOf g x).hostWrites = s.hostWrites := rfl
@[simp] theorem State.setRegionOf_rr : (s.setRegionOf g x).rr = s.rr := rfl
@[simp] theorem State.setRegionOf_staging : (s.setRegionOf g x).staging = s.staging := rfl
@[simp] theorem State.setRegionOf_power : (s.setRegionOf g x).power = s.power := rfl
@[simp] theorem State.setRegionOf_bootPhase : (s.setRegionOf g x).bootPhase = s.bootPhase := rfl
@[simp] theorem State.setRegionOf_bootFail : (s.setRegionOf g x).bootFail = s.bootFail := rfl
@[simp] theorem State.setRegionOf_clockMHz : (s.setRegionOf g x).clockMHz = s.clockMHz := rfl
@[simp] theorem State.setRegionOf_powerLimit : (s.setRegionOf g x).powerLimit = s.powerLimit := rfl
@[simp] theorem State.setRegionOf_fns : (s.setRegionOf g x).fns = s.fns := rfl
@[simp] theorem State.setRegionOf_commands : (s.setRegionOf g x).commands = s.commands := rfl
@[simp] theorem State.setRegionOf_mclog : (s.setRegionOf g x).mclog = s.mclog := rfl
@[simp] theorem State.setRegionOf_mchead : (s.setRegionOf g x).mchead = s.mchead := rfl
@[simp] theorem State.setRegionOf_mcovf : (s.setRegionOf g x).mcovf = s.mcovf := rfl
@[simp] theorem State.setRegionOf_mcread : (s.setRegionOf g x).mcread = s.mcread := rfl
@[simp] theorem State.setRegionOf_replies : (s.setRegionOf g x).replies = s.replies := rfl
@[simp] theorem State.setRegionOf_package : (s.setRegionOf g x).package = s.package := rfl
@[simp] theorem State.setRegionOf_planes : (s.setRegionOf g x).planes = s.planes := rfl
@[simp] theorem State.setRegionOf_items : (s.setRegionOf g x).items = s.items := rfl
@[simp] theorem State.setRegionOf_nextItem : (s.setRegionOf g x).nextItem = s.nextItem := rfl
@[simp] theorem State.setRegionOf_outSeq : (s.setRegionOf g x).outSeq = s.outSeq := rfl
@[simp] theorem State.setRegionOf_inStreams : (s.setRegionOf g x).inStreams = s.inStreams := rfl
@[simp] theorem State.setRegionOf_baseTlb : (s.setRegionOf g x).baseTlb = s.baseTlb := rfl
@[simp] theorem State.setRegionOf_arrivals : (s.setRegionOf g x).arrivals = s.arrivals := rfl
@[simp] theorem State.setRegionOf_sent : (s.setRegionOf g x).sent = s.sent := rfl
@[simp] theorem State.setRegionOf_gangs : (s.setRegionOf g x).gangs = s.gangs := rfl
@[simp] theorem State.setRegionOf_nextGang : (s.setRegionOf g x).nextGang = s.nextGang := rfl
@[simp] theorem State.setRegionOf_parts : (s.setRegionOf g x).parts = s.parts := rfl
@[simp] theorem State.setRegionOf_colls : (s.setRegionOf g x).colls = s.colls := rfl
@[simp] theorem State.setRegionOf_nextColl : (s.setRegionOf g x).nextColl = s.nextColl := rfl
@[simp] theorem State.setRegionOf_switchSlots : (s.setRegionOf g x).switchSlots = s.switchSlots := rfl
@[simp] theorem State.setRegionOf_slotWaits : (s.setRegionOf g x).slotWaits = s.slotWaits := rfl
@[simp] theorem State.setRegionOf_nextConvoy : (s.setRegionOf g x).nextConvoy = s.nextConvoy := rfl
@[simp] theorem State.setRegionOf_nextWindow : (s.setRegionOf g x).nextWindow = s.nextWindow := rfl
@[simp] theorem State.setRegionOf_nextContext : (s.setRegionOf g x).nextContext = s.nextContext := rfl
@[simp] theorem State.setRegionOf_visit : (s.setRegionOf g x).visit = s.visit := rfl
@[simp] theorem State.setRegionOf_activeAt : (s.setRegionOf g x).activeAt = s.activeAt := rfl
@[simp] theorem State.setRegionOf_hostFlushes : (s.setRegionOf g x).hostFlushes = s.hostFlushes := rfl
@[simp] theorem State.setRegionOf_measured : (s.setRegionOf g x).measured = s.measured := rfl
@[simp] theorem State.setRegionOf_chain : (s.setRegionOf g x).chain = s.chain := rfl
@[simp] theorem State.setRegionOf_dividedAt : (s.setRegionOf g x).dividedAt = s.dividedAt := rfl
@[simp] theorem State.setRegionOf_lates : (s.setRegionOf g x).lates = s.lates := rfl
@[simp] theorem State.setRegionOf_nextLate : (s.setRegionOf g x).nextLate = s.nextLate := rfl
@[simp] theorem State.setRegionOf_same : (s.setRegionOf g x).regionOf g = x := by simp [State.regionOf, State.setRegionOf]
theorem State.setRegionOf_other (j : Nat) (h : g ≠ j) : (s.setRegionOf g x).regionOf j = s.regionOf j := by
  simp [State.regionOf, State.setRegionOf, mget_mset, h]
@[simp] theorem State.setRegionOf_hartOf (j : Nat) : (s.setRegionOf g x).hartOf j = s.hartOf j := rfl
@[simp] theorem State.setRegionOf_convoyOf (j : Nat) : (s.setRegionOf g x).convoyOf j = s.convoyOf j := rfl
@[simp] theorem State.setRegionOf_ctxOf (j : Nat) : (s.setRegionOf g x).ctxOf j = s.ctxOf j := rfl
@[simp] theorem State.setRegionOf_coreOf (j : Nat) : (s.setRegionOf g x).coreOf j = s.coreOf j := rfl
@[simp] theorem State.setRegionOf_clusterOf (j : Nat) : (s.setRegionOf g x).clusterOf j = s.clusterOf j := rfl
@[simp] theorem State.setRegionOf_vdevOf (j : Nat) : (s.setRegionOf g x).vdevOf j = s.vdevOf j := rfl
@[simp] theorem State.setRegionOf_queueOf (j : Nat) : (s.setRegionOf g x).queueOf j = s.queueOf j := rfl
@[simp] theorem State.setRegionOf_fnOf (j : Nat) : (s.setRegionOf g x).fnOf j = s.fnOf j := rfl
end setRegionOf

section setFnOf
variable (s : State) (g : Nat) (x : Fn)
@[simp] theorem State.setFnOf_agenda : (s.setFnOf g x).agenda = s.agenda := rfl
@[simp] theorem State.setFnOf_cur : (s.setFnOf g x).cur = s.cur := rfl
@[simp] theorem State.setFnOf_turn : (s.setFnOf g x).turn = s.turn := rfl
@[simp] theorem State.setFnOf_cycle : (s.setFnOf g x).cycle = s.cycle := rfl
@[simp] theorem State.setFnOf_now : (s.setFnOf g x).now = s.now := rfl
@[simp] theorem State.setFnOf_freeCount : (s.setFnOf g x).freeCount = s.freeCount := rfl
@[simp] theorem State.setFnOf_harts : (s.setFnOf g x).harts = s.harts := rfl
@[simp] theorem State.setFnOf_convoys : (s.setFnOf g x).convoys = s.convoys := rfl
@[simp] theorem State.setFnOf_contexts : (s.setFnOf g x).contexts = s.contexts := rfl
@[simp] theorem State.setFnOf_cores : (s.setFnOf g x).cores = s.cores := rfl
@[simp] theorem State.setFnOf_clusters : (s.setFnOf g x).clusters = s.clusters := rfl
@[simp] theorem State.setFnOf_vdevs : (s.setFnOf g x).vdevs = s.vdevs := rfl
@[simp] theorem State.setFnOf_queues : (s.setFnOf g x).queues = s.queues := rfl
@[simp] theorem State.setFnOf_regions : (s.setFnOf g x).regions = s.regions := rfl
@[simp] theorem State.setFnOf_mem : (s.setFnOf g x).mem = s.mem := rfl
@[simp] theorem State.setFnOf_poison : (s.setFnOf g x).poison = s.poison := rfl
@[simp] theorem State.setFnOf_hostWrites : (s.setFnOf g x).hostWrites = s.hostWrites := rfl
@[simp] theorem State.setFnOf_rr : (s.setFnOf g x).rr = s.rr := rfl
@[simp] theorem State.setFnOf_staging : (s.setFnOf g x).staging = s.staging := rfl
@[simp] theorem State.setFnOf_power : (s.setFnOf g x).power = s.power := rfl
@[simp] theorem State.setFnOf_bootPhase : (s.setFnOf g x).bootPhase = s.bootPhase := rfl
@[simp] theorem State.setFnOf_bootFail : (s.setFnOf g x).bootFail = s.bootFail := rfl
@[simp] theorem State.setFnOf_clockMHz : (s.setFnOf g x).clockMHz = s.clockMHz := rfl
@[simp] theorem State.setFnOf_powerLimit : (s.setFnOf g x).powerLimit = s.powerLimit := rfl
@[simp] theorem State.setFnOf_commands : (s.setFnOf g x).commands = s.commands := rfl
@[simp] theorem State.setFnOf_mclog : (s.setFnOf g x).mclog = s.mclog := rfl
@[simp] theorem State.setFnOf_mchead : (s.setFnOf g x).mchead = s.mchead := rfl
@[simp] theorem State.setFnOf_mcovf : (s.setFnOf g x).mcovf = s.mcovf := rfl
@[simp] theorem State.setFnOf_mcread : (s.setFnOf g x).mcread = s.mcread := rfl
@[simp] theorem State.setFnOf_replies : (s.setFnOf g x).replies = s.replies := rfl
@[simp] theorem State.setFnOf_package : (s.setFnOf g x).package = s.package := rfl
@[simp] theorem State.setFnOf_planes : (s.setFnOf g x).planes = s.planes := rfl
@[simp] theorem State.setFnOf_items : (s.setFnOf g x).items = s.items := rfl
@[simp] theorem State.setFnOf_nextItem : (s.setFnOf g x).nextItem = s.nextItem := rfl
@[simp] theorem State.setFnOf_outSeq : (s.setFnOf g x).outSeq = s.outSeq := rfl
@[simp] theorem State.setFnOf_inStreams : (s.setFnOf g x).inStreams = s.inStreams := rfl
@[simp] theorem State.setFnOf_baseTlb : (s.setFnOf g x).baseTlb = s.baseTlb := rfl
@[simp] theorem State.setFnOf_arrivals : (s.setFnOf g x).arrivals = s.arrivals := rfl
@[simp] theorem State.setFnOf_sent : (s.setFnOf g x).sent = s.sent := rfl
@[simp] theorem State.setFnOf_gangs : (s.setFnOf g x).gangs = s.gangs := rfl
@[simp] theorem State.setFnOf_nextGang : (s.setFnOf g x).nextGang = s.nextGang := rfl
@[simp] theorem State.setFnOf_parts : (s.setFnOf g x).parts = s.parts := rfl
@[simp] theorem State.setFnOf_colls : (s.setFnOf g x).colls = s.colls := rfl
@[simp] theorem State.setFnOf_nextColl : (s.setFnOf g x).nextColl = s.nextColl := rfl
@[simp] theorem State.setFnOf_switchSlots : (s.setFnOf g x).switchSlots = s.switchSlots := rfl
@[simp] theorem State.setFnOf_slotWaits : (s.setFnOf g x).slotWaits = s.slotWaits := rfl
@[simp] theorem State.setFnOf_nextConvoy : (s.setFnOf g x).nextConvoy = s.nextConvoy := rfl
@[simp] theorem State.setFnOf_nextWindow : (s.setFnOf g x).nextWindow = s.nextWindow := rfl
@[simp] theorem State.setFnOf_nextContext : (s.setFnOf g x).nextContext = s.nextContext := rfl
@[simp] theorem State.setFnOf_visit : (s.setFnOf g x).visit = s.visit := rfl
@[simp] theorem State.setFnOf_activeAt : (s.setFnOf g x).activeAt = s.activeAt := rfl
@[simp] theorem State.setFnOf_hostFlushes : (s.setFnOf g x).hostFlushes = s.hostFlushes := rfl
@[simp] theorem State.setFnOf_measured : (s.setFnOf g x).measured = s.measured := rfl
@[simp] theorem State.setFnOf_chain : (s.setFnOf g x).chain = s.chain := rfl
@[simp] theorem State.setFnOf_dividedAt : (s.setFnOf g x).dividedAt = s.dividedAt := rfl
@[simp] theorem State.setFnOf_lates : (s.setFnOf g x).lates = s.lates := rfl
@[simp] theorem State.setFnOf_nextLate : (s.setFnOf g x).nextLate = s.nextLate := rfl
@[simp] theorem State.setFnOf_same : (s.setFnOf g x).fnOf g = x := by simp [State.fnOf, State.setFnOf]
theorem State.setFnOf_other (j : Nat) (h : g ≠ j) : (s.setFnOf g x).fnOf j = s.fnOf j := by
  simp [State.fnOf, State.setFnOf, mget_mset, h]
@[simp] theorem State.setFnOf_hartOf (j : Nat) : (s.setFnOf g x).hartOf j = s.hartOf j := rfl
@[simp] theorem State.setFnOf_convoyOf (j : Nat) : (s.setFnOf g x).convoyOf j = s.convoyOf j := rfl
@[simp] theorem State.setFnOf_ctxOf (j : Nat) : (s.setFnOf g x).ctxOf j = s.ctxOf j := rfl
@[simp] theorem State.setFnOf_coreOf (j : Nat) : (s.setFnOf g x).coreOf j = s.coreOf j := rfl
@[simp] theorem State.setFnOf_clusterOf (j : Nat) : (s.setFnOf g x).clusterOf j = s.clusterOf j := rfl
@[simp] theorem State.setFnOf_vdevOf (j : Nat) : (s.setFnOf g x).vdevOf j = s.vdevOf j := rfl
@[simp] theorem State.setFnOf_queueOf (j : Nat) : (s.setFnOf g x).queueOf j = s.queueOf j := rfl
@[simp] theorem State.setFnOf_regionOf (j : Nat) : (s.setFnOf g x).regionOf j = s.regionOf j := rfl
end setFnOf

/-! ### The current hart -/

section setHart
variable (s : State) (h : Hart)
@[simp] theorem State.setHart_agenda : (s.setHart h).agenda = s.agenda := rfl
@[simp] theorem State.setHart_cur : (s.setHart h).cur = s.cur := rfl
@[simp] theorem State.setHart_turn : (s.setHart h).turn = s.turn := rfl
@[simp] theorem State.setHart_cycle : (s.setHart h).cycle = s.cycle := rfl
@[simp] theorem State.setHart_now : (s.setHart h).now = s.now := rfl
@[simp] theorem State.setHart_freeCount : (s.setHart h).freeCount = s.freeCount := rfl
@[simp] theorem State.setHart_convoys : (s.setHart h).convoys = s.convoys := rfl
@[simp] theorem State.setHart_contexts : (s.setHart h).contexts = s.contexts := rfl
@[simp] theorem State.setHart_cores : (s.setHart h).cores = s.cores := rfl
@[simp] theorem State.setHart_clusters : (s.setHart h).clusters = s.clusters := rfl
@[simp] theorem State.setHart_vdevs : (s.setHart h).vdevs = s.vdevs := rfl
@[simp] theorem State.setHart_queues : (s.setHart h).queues = s.queues := rfl
@[simp] theorem State.setHart_regions : (s.setHart h).regions = s.regions := rfl
@[simp] theorem State.setHart_mem : (s.setHart h).mem = s.mem := rfl
@[simp] theorem State.setHart_poison : (s.setHart h).poison = s.poison := rfl
@[simp] theorem State.setHart_hostWrites : (s.setHart h).hostWrites = s.hostWrites := rfl
@[simp] theorem State.setHart_rr : (s.setHart h).rr = s.rr := rfl
@[simp] theorem State.setHart_staging : (s.setHart h).staging = s.staging := rfl
@[simp] theorem State.setHart_power : (s.setHart h).power = s.power := rfl
@[simp] theorem State.setHart_bootPhase : (s.setHart h).bootPhase = s.bootPhase := rfl
@[simp] theorem State.setHart_bootFail : (s.setHart h).bootFail = s.bootFail := rfl
@[simp] theorem State.setHart_clockMHz : (s.setHart h).clockMHz = s.clockMHz := rfl
@[simp] theorem State.setHart_powerLimit : (s.setHart h).powerLimit = s.powerLimit := rfl
@[simp] theorem State.setHart_fns : (s.setHart h).fns = s.fns := rfl
@[simp] theorem State.setHart_commands : (s.setHart h).commands = s.commands := rfl
@[simp] theorem State.setHart_mclog : (s.setHart h).mclog = s.mclog := rfl
@[simp] theorem State.setHart_mchead : (s.setHart h).mchead = s.mchead := rfl
@[simp] theorem State.setHart_mcovf : (s.setHart h).mcovf = s.mcovf := rfl
@[simp] theorem State.setHart_mcread : (s.setHart h).mcread = s.mcread := rfl
@[simp] theorem State.setHart_replies : (s.setHart h).replies = s.replies := rfl
@[simp] theorem State.setHart_package : (s.setHart h).package = s.package := rfl
@[simp] theorem State.setHart_planes : (s.setHart h).planes = s.planes := rfl
@[simp] theorem State.setHart_items : (s.setHart h).items = s.items := rfl
@[simp] theorem State.setHart_nextItem : (s.setHart h).nextItem = s.nextItem := rfl
@[simp] theorem State.setHart_outSeq : (s.setHart h).outSeq = s.outSeq := rfl
@[simp] theorem State.setHart_inStreams : (s.setHart h).inStreams = s.inStreams := rfl
@[simp] theorem State.setHart_baseTlb : (s.setHart h).baseTlb = s.baseTlb := rfl
@[simp] theorem State.setHart_arrivals : (s.setHart h).arrivals = s.arrivals := rfl
@[simp] theorem State.setHart_sent : (s.setHart h).sent = s.sent := rfl
@[simp] theorem State.setHart_gangs : (s.setHart h).gangs = s.gangs := rfl
@[simp] theorem State.setHart_nextGang : (s.setHart h).nextGang = s.nextGang := rfl
@[simp] theorem State.setHart_parts : (s.setHart h).parts = s.parts := rfl
@[simp] theorem State.setHart_colls : (s.setHart h).colls = s.colls := rfl
@[simp] theorem State.setHart_nextColl : (s.setHart h).nextColl = s.nextColl := rfl
@[simp] theorem State.setHart_switchSlots : (s.setHart h).switchSlots = s.switchSlots := rfl
@[simp] theorem State.setHart_slotWaits : (s.setHart h).slotWaits = s.slotWaits := rfl
@[simp] theorem State.setHart_nextConvoy : (s.setHart h).nextConvoy = s.nextConvoy := rfl
@[simp] theorem State.setHart_nextWindow : (s.setHart h).nextWindow = s.nextWindow := rfl
@[simp] theorem State.setHart_nextContext : (s.setHart h).nextContext = s.nextContext := rfl
@[simp] theorem State.setHart_visit : (s.setHart h).visit = s.visit := rfl
@[simp] theorem State.setHart_activeAt : (s.setHart h).activeAt = s.activeAt := rfl
@[simp] theorem State.setHart_hostFlushes : (s.setHart h).hostFlushes = s.hostFlushes := rfl
@[simp] theorem State.setHart_measured : (s.setHart h).measured = s.measured := rfl
@[simp] theorem State.setHart_chain : (s.setHart h).chain = s.chain := rfl
@[simp] theorem State.setHart_dividedAt : (s.setHart h).dividedAt = s.dividedAt := rfl
@[simp] theorem State.setHart_lates : (s.setHart h).lates = s.lates := rfl
@[simp] theorem State.setHart_nextLate : (s.setHart h).nextLate = s.nextLate := rfl
@[simp] theorem State.setHart_convoyOf (j : Nat) : (s.setHart h).convoyOf j = s.convoyOf j := rfl
@[simp] theorem State.setHart_ctxOf (j : Nat) : (s.setHart h).ctxOf j = s.ctxOf j := rfl
@[simp] theorem State.setHart_coreOf (j : Nat) : (s.setHart h).coreOf j = s.coreOf j := rfl
@[simp] theorem State.setHart_clusterOf (j : Nat) : (s.setHart h).clusterOf j = s.clusterOf j := rfl
@[simp] theorem State.setHart_vdevOf (j : Nat) : (s.setHart h).vdevOf j = s.vdevOf j := rfl
@[simp] theorem State.setHart_queueOf (j : Nat) : (s.setHart h).queueOf j = s.queueOf j := rfl
@[simp] theorem State.setHart_regionOf (j : Nat) : (s.setHart h).regionOf j = s.regionOf j := rfl
@[simp] theorem State.setHart_fnOf (j : Nat) : (s.setHart h).fnOf j = s.fnOf j := rfl
@[simp] theorem State.setHart_hart : (s.setHart h).hart = h := by simp [State.hart, State.setHart]
theorem State.setHart_other (j : Nat) (hj : s.cur ≠ j) : (s.setHart h).hartOf j = s.hartOf j :=
  State.setHartOf_other _ _ _ _ hj
@[simp] theorem State.setHart_coreId : (s.setHart h).coreId = s.coreId := rfl
@[simp] theorem State.setHart_core : (s.setHart h).core = s.core := rfl
@[simp] theorem State.setHart_convoy (hc : h.convoy = s.hart.convoy) : (s.setHart h).convoy = s.convoy := by
  simp [State.convoy, hc]
end setHart

/-! ### Updates of a hart -/

section setVstart
variable (n : Nat) (h : Hart)
@[simp] theorem Hart.setVstart_convoy : (Hart.setVstart n h).convoy = h.convoy := rfl
@[simp] theorem Hart.setVstart_hidx : (Hart.setVstart n h).hidx = h.hidx := rfl
@[simp] theorem Hart.setVstart_status : (Hart.setVstart n h).status = h.status := rfl
@[simp] theorem Hart.setVstart_mode : (Hart.setVstart n h).mode = h.mode := rfl
@[simp] theorem Hart.setVstart_pc : (Hart.setVstart n h).pc = h.pc := rfl
@[simp] theorem Hart.setVstart_s : (Hart.setVstart n h).s = h.s := rfl
@[simp] theorem Hart.setVstart_v : (Hart.setVstart n h).v = h.v := rfl
@[simp] theorem Hart.setVstart_m : (Hart.setVstart n h).m = h.m := rfl
@[simp] theorem Hart.setVstart_acc : (Hart.setVstart n h).acc = h.acc := rfl
@[simp] theorem Hart.setVstart_c : (Hart.setVstart n h).c = h.c := rfl
@[simp] theorem Hart.setVstart_ring : (Hart.setVstart n h).ring = h.ring := rfl
@[simp] theorem Hart.setVstart_frameCount : (Hart.setVstart n h).frameCount = h.frameCount := rfl
@[simp] theorem Hart.setVstart_instNo : (Hart.setVstart n h).instNo = h.instNo := rfl
@[simp] theorem Hart.setVstart_overflow : (Hart.setVstart n h).overflow = h.overflow := rfl
@[simp] theorem Hart.setVstart_det : (Hart.setVstart n h).det = h.det := rfl
@[simp] theorem Hart.setVstart_logged : (Hart.setVstart n h).logged = h.logged := rfl
@[simp] theorem Hart.setVstart_mma : (Hart.setVstart n h).mma = h.mma := rfl
@[simp] theorem Hart.setVstart_deferred : (Hart.setVstart n h).deferred = h.deferred := rfl
@[simp] theorem Hart.setVstart_poison : (Hart.setVstart n h).poison = h.poison := rfl
@[simp] theorem Hart.setVstart_resp : (Hart.setVstart n h).resp = h.resp := rfl
@[simp] theorem Hart.setVstart_code : (Hart.setVstart n h).code = h.code := rfl
@[simp] theorem Hart.setVstart_join : (Hart.setVstart n h).join = h.join := rfl
@[simp] theorem Hart.setVstart_start : (Hart.setVstart n h).start = h.start := rfl
@[simp] theorem Hart.setVstart_stamp : (Hart.setVstart n h).stamp = h.stamp := rfl
@[simp] theorem Hart.setVstart_armed : (Hart.setVstart n h).armed = h.armed := rfl
@[simp] theorem Hart.setVstart_flushFault : (Hart.setVstart n h).flushFault = h.flushFault := rfl
@[simp] theorem Hart.setVstart_posted : (Hart.setVstart n h).posted = h.posted := rfl
@[simp] theorem Hart.setVstart_firm : (Hart.setVstart n h).firm = h.firm := rfl
@[simp] theorem Hart.setVstart_pair : (Hart.setVstart n h).pair = h.pair := rfl
@[simp] theorem Hart.setVstart_hostLast : (Hart.setVstart n h).hostLast = h.hostLast := rfl
@[simp] theorem Hart.setVstart_merge : (Hart.setVstart n h).merge = h.merge := rfl
@[simp] theorem Hart.setVstart_aged : (Hart.setVstart n h).aged = h.aged := rfl
@[simp] theorem Hart.setVstart_csr_sc : (Hart.setVstart n h).csr.sc = h.csr.sc := rfl
@[simp] theorem Hart.setVstart_csr_bstart : (Hart.setVstart n h).csr.bstart = h.csr.bstart := rfl
@[simp] theorem Hart.setVstart_csr_posa : (Hart.setVstart n h).csr.posa = h.csr.posa := rfl
@[simp] theorem Hart.setVstart_csr_posb : (Hart.setVstart n h).csr.posb = h.csr.posb := rfl
@[simp] theorem Hart.setVstart_csr_chstep : (Hart.setVstart n h).csr.chstep = h.csr.chstep := rfl
@[simp] theorem Hart.setVstart_csr_fflags : (Hart.setVstart n h).csr.fflags = h.csr.fflags := rfl
@[simp] theorem Hart.setVstart_csr_frm : (Hart.setVstart n h).csr.frm = h.csr.frm := rfl
@[simp] theorem Hart.setVstart_csr_nanseen : (Hart.setVstart n h).csr.nanseen = h.csr.nanseen := rfl
@[simp] theorem Hart.setVstart_csr_mag : (Hart.setVstart n h).csr.mag = h.csr.mag := rfl
@[simp] theorem Hart.setVstart_csr_vl : (Hart.setVstart n h).csr.vl = h.csr.vl := rfl
@[simp] theorem Hart.setVstart_csr_env : (Hart.setVstart n h).csr.env = h.csr.env := rfl
@[simp] theorem Hart.setVstart_csr_frame : (Hart.setVstart n h).csr.frame = h.csr.frame := rfl
@[simp] theorem Hart.setVstart_csr_instret : (Hart.setVstart n h).csr.instret = h.csr.instret := rfl
@[simp] theorem Hart.setVstart_csr_xcause : (Hart.setVstart n h).csr.xcause = h.csr.xcause := rfl
@[simp] theorem Hart.setVstart_csr_xpc : (Hart.setVstart n h).csr.xpc = h.csr.xpc := rfl
@[simp] theorem Hart.setVstart_csr_xaddr : (Hart.setVstart n h).csr.xaddr = h.csr.xaddr := rfl
@[simp] theorem Hart.setVstart_csr_xelem : (Hart.setVstart n h).csr.xelem = h.csr.xelem := rfl
@[simp] theorem Hart.setVstart_csr_xbank : (Hart.setVstart n h).csr.xbank = h.csr.xbank := rfl
@[simp] theorem Hart.setVstart_csr_xstat : (Hart.setVstart n h).csr.xstat = h.csr.xstat := rfl
@[simp] theorem Hart.setVstart_csr_tvec : (Hart.setVstart n h).csr.tvec = h.csr.tvec := rfl
@[simp] theorem Hart.setVstart_csr_xscratch : (Hart.setVstart n h).csr.xscratch = h.csr.xscratch := rfl
end setVstart

section addFlags
variable (fl : Flags) (h : Hart)
@[simp] theorem Hart.addFlags_convoy : (Hart.addFlags fl h).convoy = h.convoy := rfl
@[simp] theorem Hart.addFlags_hidx : (Hart.addFlags fl h).hidx = h.hidx := rfl
@[simp] theorem Hart.addFlags_status : (Hart.addFlags fl h).status = h.status := rfl
@[simp] theorem Hart.addFlags_mode : (Hart.addFlags fl h).mode = h.mode := rfl
@[simp] theorem Hart.addFlags_pc : (Hart.addFlags fl h).pc = h.pc := rfl
@[simp] theorem Hart.addFlags_s : (Hart.addFlags fl h).s = h.s := rfl
@[simp] theorem Hart.addFlags_v : (Hart.addFlags fl h).v = h.v := rfl
@[simp] theorem Hart.addFlags_m : (Hart.addFlags fl h).m = h.m := rfl
@[simp] theorem Hart.addFlags_acc : (Hart.addFlags fl h).acc = h.acc := rfl
@[simp] theorem Hart.addFlags_c : (Hart.addFlags fl h).c = h.c := rfl
@[simp] theorem Hart.addFlags_ring : (Hart.addFlags fl h).ring = h.ring := rfl
@[simp] theorem Hart.addFlags_frameCount : (Hart.addFlags fl h).frameCount = h.frameCount := rfl
@[simp] theorem Hart.addFlags_instNo : (Hart.addFlags fl h).instNo = h.instNo := rfl
@[simp] theorem Hart.addFlags_overflow : (Hart.addFlags fl h).overflow = h.overflow := rfl
@[simp] theorem Hart.addFlags_det : (Hart.addFlags fl h).det = h.det := rfl
@[simp] theorem Hart.addFlags_logged : (Hart.addFlags fl h).logged = h.logged := rfl
@[simp] theorem Hart.addFlags_mma : (Hart.addFlags fl h).mma = h.mma := rfl
@[simp] theorem Hart.addFlags_deferred : (Hart.addFlags fl h).deferred = h.deferred := rfl
@[simp] theorem Hart.addFlags_poison : (Hart.addFlags fl h).poison = h.poison := rfl
@[simp] theorem Hart.addFlags_resp : (Hart.addFlags fl h).resp = h.resp := rfl
@[simp] theorem Hart.addFlags_code : (Hart.addFlags fl h).code = h.code := rfl
@[simp] theorem Hart.addFlags_join : (Hart.addFlags fl h).join = h.join := rfl
@[simp] theorem Hart.addFlags_start : (Hart.addFlags fl h).start = h.start := rfl
@[simp] theorem Hart.addFlags_stamp : (Hart.addFlags fl h).stamp = h.stamp := rfl
@[simp] theorem Hart.addFlags_armed : (Hart.addFlags fl h).armed = h.armed := rfl
@[simp] theorem Hart.addFlags_flushFault : (Hart.addFlags fl h).flushFault = h.flushFault := rfl
@[simp] theorem Hart.addFlags_posted : (Hart.addFlags fl h).posted = h.posted := rfl
@[simp] theorem Hart.addFlags_firm : (Hart.addFlags fl h).firm = h.firm := rfl
@[simp] theorem Hart.addFlags_pair : (Hart.addFlags fl h).pair = h.pair := rfl
@[simp] theorem Hart.addFlags_hostLast : (Hart.addFlags fl h).hostLast = h.hostLast := rfl
@[simp] theorem Hart.addFlags_merge : (Hart.addFlags fl h).merge = h.merge := rfl
@[simp] theorem Hart.addFlags_aged : (Hart.addFlags fl h).aged = h.aged := rfl
@[simp] theorem Hart.addFlags_csr_sc : (Hart.addFlags fl h).csr.sc = h.csr.sc := rfl
@[simp] theorem Hart.addFlags_csr_vstart : (Hart.addFlags fl h).csr.vstart = h.csr.vstart := rfl
@[simp] theorem Hart.addFlags_csr_bstart : (Hart.addFlags fl h).csr.bstart = h.csr.bstart := rfl
@[simp] theorem Hart.addFlags_csr_posa : (Hart.addFlags fl h).csr.posa = h.csr.posa := rfl
@[simp] theorem Hart.addFlags_csr_posb : (Hart.addFlags fl h).csr.posb = h.csr.posb := rfl
@[simp] theorem Hart.addFlags_csr_chstep : (Hart.addFlags fl h).csr.chstep = h.csr.chstep := rfl
@[simp] theorem Hart.addFlags_csr_frm : (Hart.addFlags fl h).csr.frm = h.csr.frm := rfl
@[simp] theorem Hart.addFlags_csr_nanseen : (Hart.addFlags fl h).csr.nanseen = h.csr.nanseen := rfl
@[simp] theorem Hart.addFlags_csr_mag : (Hart.addFlags fl h).csr.mag = h.csr.mag := rfl
@[simp] theorem Hart.addFlags_csr_vl : (Hart.addFlags fl h).csr.vl = h.csr.vl := rfl
@[simp] theorem Hart.addFlags_csr_env : (Hart.addFlags fl h).csr.env = h.csr.env := rfl
@[simp] theorem Hart.addFlags_csr_frame : (Hart.addFlags fl h).csr.frame = h.csr.frame := rfl
@[simp] theorem Hart.addFlags_csr_instret : (Hart.addFlags fl h).csr.instret = h.csr.instret := rfl
@[simp] theorem Hart.addFlags_csr_xcause : (Hart.addFlags fl h).csr.xcause = h.csr.xcause := rfl
@[simp] theorem Hart.addFlags_csr_xpc : (Hart.addFlags fl h).csr.xpc = h.csr.xpc := rfl
@[simp] theorem Hart.addFlags_csr_xaddr : (Hart.addFlags fl h).csr.xaddr = h.csr.xaddr := rfl
@[simp] theorem Hart.addFlags_csr_xelem : (Hart.addFlags fl h).csr.xelem = h.csr.xelem := rfl
@[simp] theorem Hart.addFlags_csr_xbank : (Hart.addFlags fl h).csr.xbank = h.csr.xbank := rfl
@[simp] theorem Hart.addFlags_csr_xstat : (Hart.addFlags fl h).csr.xstat = h.csr.xstat := rfl
@[simp] theorem Hart.addFlags_csr_tvec : (Hart.addFlags fl h).csr.tvec = h.csr.tvec := rfl
@[simp] theorem Hart.addFlags_csr_xscratch : (Hart.addFlags fl h).csr.xscratch = h.csr.xscratch := rfl
end addFlags

section clearPoison
variable (p : RegSite → Bool) (h : Hart)
@[simp] theorem clearPoison_convoy : (clearPoison p h).convoy = h.convoy := by unfold clearPoison; split <;> rfl
@[simp] theorem clearPoison_hidx : (clearPoison p h).hidx = h.hidx := by unfold clearPoison; split <;> rfl
@[simp] theorem clearPoison_status : (clearPoison p h).status = h.status := by unfold clearPoison; split <;> rfl
@[simp] theorem clearPoison_mode : (clearPoison p h).mode = h.mode := by unfold clearPoison; split <;> rfl
@[simp] theorem clearPoison_pc : (clearPoison p h).pc = h.pc := by unfold clearPoison; split <;> rfl
@[simp] theorem clearPoison_s : (clearPoison p h).s = h.s := by unfold clearPoison; split <;> rfl
@[simp] theorem clearPoison_v : (clearPoison p h).v = h.v := by unfold clearPoison; split <;> rfl
@[simp] theorem clearPoison_m : (clearPoison p h).m = h.m := by unfold clearPoison; split <;> rfl
@[simp] theorem clearPoison_acc : (clearPoison p h).acc = h.acc := by unfold clearPoison; split <;> rfl
@[simp] theorem clearPoison_c : (clearPoison p h).c = h.c := by unfold clearPoison; split <;> rfl
@[simp] theorem clearPoison_csr : (clearPoison p h).csr = h.csr := by unfold clearPoison; split <;> rfl
@[simp] theorem clearPoison_ring : (clearPoison p h).ring = h.ring := by unfold clearPoison; split <;> rfl
@[simp] theorem clearPoison_frameCount : (clearPoison p h).frameCount = h.frameCount := by unfold clearPoison; split <;> rfl
@[simp] theorem clearPoison_instNo : (clearPoison p h).instNo = h.instNo := by unfold clearPoison; split <;> rfl
@[simp] theorem clearPoison_overflow : (clearPoison p h).overflow = h.overflow := by unfold clearPoison; split <;> rfl
@[simp] theorem clearPoison_det : (clearPoison p h).det = h.det := by unfold clearPoison; split <;> rfl
@[simp] theorem clearPoison_logged : (clearPoison p h).logged = h.logged := by unfold clearPoison; split <;> rfl
@[simp] theorem clearPoison_mma : (clearPoison p h).mma = h.mma := by unfold clearPoison; split <;> rfl
@[simp] theorem clearPoison_deferred : (clearPoison p h).deferred = h.deferred := by unfold clearPoison; split <;> rfl
@[simp] theorem clearPoison_resp : (clearPoison p h).resp = h.resp := by unfold clearPoison; split <;> rfl
@[simp] theorem clearPoison_code : (clearPoison p h).code = h.code := by unfold clearPoison; split <;> rfl
@[simp] theorem clearPoison_join : (clearPoison p h).join = h.join := by unfold clearPoison; split <;> rfl
@[simp] theorem clearPoison_start : (clearPoison p h).start = h.start := by unfold clearPoison; split <;> rfl
@[simp] theorem clearPoison_stamp : (clearPoison p h).stamp = h.stamp := by unfold clearPoison; split <;> rfl
@[simp] theorem clearPoison_armed : (clearPoison p h).armed = h.armed := by unfold clearPoison; split <;> rfl
@[simp] theorem clearPoison_flushFault : (clearPoison p h).flushFault = h.flushFault := by unfold clearPoison; split <;> rfl
@[simp] theorem clearPoison_posted : (clearPoison p h).posted = h.posted := by unfold clearPoison; split <;> rfl
@[simp] theorem clearPoison_firm : (clearPoison p h).firm = h.firm := by unfold clearPoison; split <;> rfl
@[simp] theorem clearPoison_pair : (clearPoison p h).pair = h.pair := by unfold clearPoison; split <;> rfl
@[simp] theorem clearPoison_hostLast : (clearPoison p h).hostLast = h.hostLast := by unfold clearPoison; split <;> rfl
@[simp] theorem clearPoison_merge : (clearPoison p h).merge = h.merge := by unfold clearPoison; split <;> rfl
@[simp] theorem clearPoison_aged : (clearPoison p h).aged = h.aged := by unfold clearPoison; split <;> rfl
end clearPoison

section writeS
variable (r : SReg) (v : Word) (h : Hart)
@[simp] theorem Hart.writeS_convoy : (Hart.writeS r v h).convoy = h.convoy := by unfold Hart.writeS; split <;> simp
@[simp] theorem Hart.writeS_hidx : (Hart.writeS r v h).hidx = h.hidx := by unfold Hart.writeS; split <;> simp
@[simp] theorem Hart.writeS_status : (Hart.writeS r v h).status = h.status := by unfold Hart.writeS; split <;> simp
@[simp] theorem Hart.writeS_mode : (Hart.writeS r v h).mode = h.mode := by unfold Hart.writeS; split <;> simp
@[simp] theorem Hart.writeS_pc : (Hart.writeS r v h).pc = h.pc := by unfold Hart.writeS; split <;> simp
@[simp] theorem Hart.writeS_v : (Hart.writeS r v h).v = h.v := by unfold Hart.writeS; split <;> simp
@[simp] theorem Hart.writeS_m : (Hart.writeS r v h).m = h.m := by unfold Hart.writeS; split <;> simp
@[simp] theorem Hart.writeS_acc : (Hart.writeS r v h).acc = h.acc := by unfold Hart.writeS; split <;> simp
@[simp] theorem Hart.writeS_c : (Hart.writeS r v h).c = h.c := by unfold Hart.writeS; split <;> simp
@[simp] theorem Hart.writeS_csr : (Hart.writeS r v h).csr = h.csr := by unfold Hart.writeS; split <;> simp
@[simp] theorem Hart.writeS_ring : (Hart.writeS r v h).ring = h.ring := by unfold Hart.writeS; split <;> simp
@[simp] theorem Hart.writeS_frameCount : (Hart.writeS r v h).frameCount = h.frameCount := by unfold Hart.writeS; split <;> simp
@[simp] theorem Hart.writeS_instNo : (Hart.writeS r v h).instNo = h.instNo := by unfold Hart.writeS; split <;> simp
@[simp] theorem Hart.writeS_overflow : (Hart.writeS r v h).overflow = h.overflow := by unfold Hart.writeS; split <;> simp
@[simp] theorem Hart.writeS_det : (Hart.writeS r v h).det = h.det := by unfold Hart.writeS; split <;> simp
@[simp] theorem Hart.writeS_logged : (Hart.writeS r v h).logged = h.logged := by unfold Hart.writeS; split <;> simp
@[simp] theorem Hart.writeS_mma : (Hart.writeS r v h).mma = h.mma := by unfold Hart.writeS; split <;> simp
@[simp] theorem Hart.writeS_deferred : (Hart.writeS r v h).deferred = h.deferred := by unfold Hart.writeS; split <;> simp
@[simp] theorem Hart.writeS_resp : (Hart.writeS r v h).resp = h.resp := by unfold Hart.writeS; split <;> simp
@[simp] theorem Hart.writeS_code : (Hart.writeS r v h).code = h.code := by unfold Hart.writeS; split <;> simp
@[simp] theorem Hart.writeS_join : (Hart.writeS r v h).join = h.join := by unfold Hart.writeS; split <;> simp
@[simp] theorem Hart.writeS_start : (Hart.writeS r v h).start = h.start := by unfold Hart.writeS; split <;> simp
@[simp] theorem Hart.writeS_stamp : (Hart.writeS r v h).stamp = h.stamp := by unfold Hart.writeS; split <;> simp
@[simp] theorem Hart.writeS_armed : (Hart.writeS r v h).armed = h.armed := by unfold Hart.writeS; split <;> simp
@[simp] theorem Hart.writeS_flushFault : (Hart.writeS r v h).flushFault = h.flushFault := by unfold Hart.writeS; split <;> simp
@[simp] theorem Hart.writeS_posted : (Hart.writeS r v h).posted = h.posted := by unfold Hart.writeS; split <;> simp
@[simp] theorem Hart.writeS_firm : (Hart.writeS r v h).firm = h.firm := by unfold Hart.writeS; split <;> simp
@[simp] theorem Hart.writeS_pair : (Hart.writeS r v h).pair = h.pair := by unfold Hart.writeS; split <;> simp
@[simp] theorem Hart.writeS_hostLast : (Hart.writeS r v h).hostLast = h.hostLast := by unfold Hart.writeS; split <;> simp
@[simp] theorem Hart.writeS_merge : (Hart.writeS r v h).merge = h.merge := by unfold Hart.writeS; split <;> simp
@[simp] theorem Hart.writeS_aged : (Hart.writeS r v h).aged = h.aged := by unfold Hart.writeS; split <;> simp
end writeS

section setElem
variable (r : VName) (bits i x : Nat) (h : Hart)
@[simp] theorem Hart.setElem_convoy : (Hart.setElem r bits i x h).convoy = h.convoy := by simp [Hart.setElem]
@[simp] theorem Hart.setElem_hidx : (Hart.setElem r bits i x h).hidx = h.hidx := by simp [Hart.setElem]
@[simp] theorem Hart.setElem_status : (Hart.setElem r bits i x h).status = h.status := by simp [Hart.setElem]
@[simp] theorem Hart.setElem_mode : (Hart.setElem r bits i x h).mode = h.mode := by simp [Hart.setElem]
@[simp] theorem Hart.setElem_pc : (Hart.setElem r bits i x h).pc = h.pc := by simp [Hart.setElem]
@[simp] theorem Hart.setElem_s : (Hart.setElem r bits i x h).s = h.s := by simp [Hart.setElem]
@[simp] theorem Hart.setElem_m : (Hart.setElem r bits i x h).m = h.m := by simp [Hart.setElem]
@[simp] theorem Hart.setElem_acc : (Hart.setElem r bits i x h).acc = h.acc := by simp [Hart.setElem]
@[simp] theorem Hart.setElem_c : (Hart.setElem r bits i x h).c = h.c := by simp [Hart.setElem]
@[simp] theorem Hart.setElem_csr : (Hart.setElem r bits i x h).csr = h.csr := by simp [Hart.setElem]
@[simp] theorem Hart.setElem_ring : (Hart.setElem r bits i x h).ring = h.ring := by simp [Hart.setElem]
@[simp] theorem Hart.setElem_frameCount : (Hart.setElem r bits i x h).frameCount = h.frameCount := by simp [Hart.setElem]
@[simp] theorem Hart.setElem_instNo : (Hart.setElem r bits i x h).instNo = h.instNo := by simp [Hart.setElem]
@[simp] theorem Hart.setElem_overflow : (Hart.setElem r bits i x h).overflow = h.overflow := by simp [Hart.setElem]
@[simp] theorem Hart.setElem_det : (Hart.setElem r bits i x h).det = h.det := by simp [Hart.setElem]
@[simp] theorem Hart.setElem_logged : (Hart.setElem r bits i x h).logged = h.logged := by simp [Hart.setElem]
@[simp] theorem Hart.setElem_mma : (Hart.setElem r bits i x h).mma = h.mma := by simp [Hart.setElem]
@[simp] theorem Hart.setElem_deferred : (Hart.setElem r bits i x h).deferred = h.deferred := by simp [Hart.setElem]
@[simp] theorem Hart.setElem_resp : (Hart.setElem r bits i x h).resp = h.resp := by simp [Hart.setElem]
@[simp] theorem Hart.setElem_code : (Hart.setElem r bits i x h).code = h.code := by simp [Hart.setElem]
@[simp] theorem Hart.setElem_join : (Hart.setElem r bits i x h).join = h.join := by simp [Hart.setElem]
@[simp] theorem Hart.setElem_start : (Hart.setElem r bits i x h).start = h.start := by simp [Hart.setElem]
@[simp] theorem Hart.setElem_stamp : (Hart.setElem r bits i x h).stamp = h.stamp := by simp [Hart.setElem]
@[simp] theorem Hart.setElem_armed : (Hart.setElem r bits i x h).armed = h.armed := by simp [Hart.setElem]
@[simp] theorem Hart.setElem_flushFault : (Hart.setElem r bits i x h).flushFault = h.flushFault := by simp [Hart.setElem]
@[simp] theorem Hart.setElem_posted : (Hart.setElem r bits i x h).posted = h.posted := by simp [Hart.setElem]
@[simp] theorem Hart.setElem_firm : (Hart.setElem r bits i x h).firm = h.firm := by simp [Hart.setElem]
@[simp] theorem Hart.setElem_pair : (Hart.setElem r bits i x h).pair = h.pair := by simp [Hart.setElem]
@[simp] theorem Hart.setElem_hostLast : (Hart.setElem r bits i x h).hostLast = h.hostLast := by simp [Hart.setElem]
@[simp] theorem Hart.setElem_merge : (Hart.setElem r bits i x h).merge = h.merge := by simp [Hart.setElem]
@[simp] theorem Hart.setElem_aged : (Hart.setElem r bits i x h).aged = h.aged := by simp [Hart.setElem]
end setElem

section setMaskBit
variable (m : MName) (i : Nat) (b : Bool) (h : Hart)
@[simp] theorem Hart.setMaskBit_convoy : (Hart.setMaskBit m i b h).convoy = h.convoy := by unfold Hart.setMaskBit; split <;> rfl
@[simp] theorem Hart.setMaskBit_hidx : (Hart.setMaskBit m i b h).hidx = h.hidx := by unfold Hart.setMaskBit; split <;> rfl
@[simp] theorem Hart.setMaskBit_status : (Hart.setMaskBit m i b h).status = h.status := by unfold Hart.setMaskBit; split <;> rfl
@[simp] theorem Hart.setMaskBit_mode : (Hart.setMaskBit m i b h).mode = h.mode := by unfold Hart.setMaskBit; split <;> rfl
@[simp] theorem Hart.setMaskBit_pc : (Hart.setMaskBit m i b h).pc = h.pc := by unfold Hart.setMaskBit; split <;> rfl
@[simp] theorem Hart.setMaskBit_s : (Hart.setMaskBit m i b h).s = h.s := by unfold Hart.setMaskBit; split <;> rfl
@[simp] theorem Hart.setMaskBit_v : (Hart.setMaskBit m i b h).v = h.v := by unfold Hart.setMaskBit; split <;> rfl
@[simp] theorem Hart.setMaskBit_acc : (Hart.setMaskBit m i b h).acc = h.acc := by unfold Hart.setMaskBit; split <;> rfl
@[simp] theorem Hart.setMaskBit_c : (Hart.setMaskBit m i b h).c = h.c := by unfold Hart.setMaskBit; split <;> rfl
@[simp] theorem Hart.setMaskBit_csr : (Hart.setMaskBit m i b h).csr = h.csr := by unfold Hart.setMaskBit; split <;> rfl
@[simp] theorem Hart.setMaskBit_ring : (Hart.setMaskBit m i b h).ring = h.ring := by unfold Hart.setMaskBit; split <;> rfl
@[simp] theorem Hart.setMaskBit_frameCount : (Hart.setMaskBit m i b h).frameCount = h.frameCount := by unfold Hart.setMaskBit; split <;> rfl
@[simp] theorem Hart.setMaskBit_instNo : (Hart.setMaskBit m i b h).instNo = h.instNo := by unfold Hart.setMaskBit; split <;> rfl
@[simp] theorem Hart.setMaskBit_overflow : (Hart.setMaskBit m i b h).overflow = h.overflow := by unfold Hart.setMaskBit; split <;> rfl
@[simp] theorem Hart.setMaskBit_det : (Hart.setMaskBit m i b h).det = h.det := by unfold Hart.setMaskBit; split <;> rfl
@[simp] theorem Hart.setMaskBit_logged : (Hart.setMaskBit m i b h).logged = h.logged := by unfold Hart.setMaskBit; split <;> rfl
@[simp] theorem Hart.setMaskBit_mma : (Hart.setMaskBit m i b h).mma = h.mma := by unfold Hart.setMaskBit; split <;> rfl
@[simp] theorem Hart.setMaskBit_deferred : (Hart.setMaskBit m i b h).deferred = h.deferred := by unfold Hart.setMaskBit; split <;> rfl
@[simp] theorem Hart.setMaskBit_poison : (Hart.setMaskBit m i b h).poison = h.poison := by unfold Hart.setMaskBit; split <;> rfl
@[simp] theorem Hart.setMaskBit_resp : (Hart.setMaskBit m i b h).resp = h.resp := by unfold Hart.setMaskBit; split <;> rfl
@[simp] theorem Hart.setMaskBit_code : (Hart.setMaskBit m i b h).code = h.code := by unfold Hart.setMaskBit; split <;> rfl
@[simp] theorem Hart.setMaskBit_join : (Hart.setMaskBit m i b h).join = h.join := by unfold Hart.setMaskBit; split <;> rfl
@[simp] theorem Hart.setMaskBit_start : (Hart.setMaskBit m i b h).start = h.start := by unfold Hart.setMaskBit; split <;> rfl
@[simp] theorem Hart.setMaskBit_stamp : (Hart.setMaskBit m i b h).stamp = h.stamp := by unfold Hart.setMaskBit; split <;> rfl
@[simp] theorem Hart.setMaskBit_armed : (Hart.setMaskBit m i b h).armed = h.armed := by unfold Hart.setMaskBit; split <;> rfl
@[simp] theorem Hart.setMaskBit_flushFault : (Hart.setMaskBit m i b h).flushFault = h.flushFault := by unfold Hart.setMaskBit; split <;> rfl
@[simp] theorem Hart.setMaskBit_posted : (Hart.setMaskBit m i b h).posted = h.posted := by unfold Hart.setMaskBit; split <;> rfl
@[simp] theorem Hart.setMaskBit_firm : (Hart.setMaskBit m i b h).firm = h.firm := by unfold Hart.setMaskBit; split <;> rfl
@[simp] theorem Hart.setMaskBit_pair : (Hart.setMaskBit m i b h).pair = h.pair := by unfold Hart.setMaskBit; split <;> rfl
@[simp] theorem Hart.setMaskBit_hostLast : (Hart.setMaskBit m i b h).hostLast = h.hostLast := by unfold Hart.setMaskBit; split <;> rfl
@[simp] theorem Hart.setMaskBit_merge : (Hart.setMaskBit m i b h).merge = h.merge := by unfold Hart.setMaskBit; split <;> rfl
@[simp] theorem Hart.setMaskBit_aged : (Hart.setMaskBit m i b h).aged = h.aged := by unfold Hart.setMaskBit; split <;> rfl
end setMaskBit

section expandMask
variable (ewb : Nat) (m : MName) (h : Hart)
@[simp] theorem Hart.expandMask_convoy : (Hart.expandMask ewb m h).convoy = h.convoy := by unfold Hart.expandMask; split <;> simp
@[simp] theorem Hart.expandMask_hidx : (Hart.expandMask ewb m h).hidx = h.hidx := by unfold Hart.expandMask; split <;> simp
@[simp] theorem Hart.expandMask_status : (Hart.expandMask ewb m h).status = h.status := by unfold Hart.expandMask; split <;> simp
@[simp] theorem Hart.expandMask_mode : (Hart.expandMask ewb m h).mode = h.mode := by unfold Hart.expandMask; split <;> simp
@[simp] theorem Hart.expandMask_pc : (Hart.expandMask ewb m h).pc = h.pc := by unfold Hart.expandMask; split <;> simp
@[simp] theorem Hart.expandMask_s : (Hart.expandMask ewb m h).s = h.s := by unfold Hart.expandMask; split <;> simp
@[simp] theorem Hart.expandMask_v : (Hart.expandMask ewb m h).v = h.v := by unfold Hart.expandMask; split <;> simp
@[simp] theorem Hart.expandMask_acc : (Hart.expandMask ewb m h).acc = h.acc := by unfold Hart.expandMask; split <;> simp
@[simp] theorem Hart.expandMask_c : (Hart.expandMask ewb m h).c = h.c := by unfold Hart.expandMask; split <;> simp
@[simp] theorem Hart.expandMask_csr : (Hart.expandMask ewb m h).csr = h.csr := by unfold Hart.expandMask; split <;> simp
@[simp] theorem Hart.expandMask_ring : (Hart.expandMask ewb m h).ring = h.ring := by unfold Hart.expandMask; split <;> simp
@[simp] theorem Hart.expandMask_frameCount : (Hart.expandMask ewb m h).frameCount = h.frameCount := by unfold Hart.expandMask; split <;> simp
@[simp] theorem Hart.expandMask_instNo : (Hart.expandMask ewb m h).instNo = h.instNo := by unfold Hart.expandMask; split <;> simp
@[simp] theorem Hart.expandMask_overflow : (Hart.expandMask ewb m h).overflow = h.overflow := by unfold Hart.expandMask; split <;> simp
@[simp] theorem Hart.expandMask_det : (Hart.expandMask ewb m h).det = h.det := by unfold Hart.expandMask; split <;> simp
@[simp] theorem Hart.expandMask_logged : (Hart.expandMask ewb m h).logged = h.logged := by unfold Hart.expandMask; split <;> simp
@[simp] theorem Hart.expandMask_mma : (Hart.expandMask ewb m h).mma = h.mma := by unfold Hart.expandMask; split <;> simp
@[simp] theorem Hart.expandMask_deferred : (Hart.expandMask ewb m h).deferred = h.deferred := by unfold Hart.expandMask; split <;> simp
@[simp] theorem Hart.expandMask_resp : (Hart.expandMask ewb m h).resp = h.resp := by unfold Hart.expandMask; split <;> simp
@[simp] theorem Hart.expandMask_code : (Hart.expandMask ewb m h).code = h.code := by unfold Hart.expandMask; split <;> simp
@[simp] theorem Hart.expandMask_join : (Hart.expandMask ewb m h).join = h.join := by unfold Hart.expandMask; split <;> simp
@[simp] theorem Hart.expandMask_start : (Hart.expandMask ewb m h).start = h.start := by unfold Hart.expandMask; split <;> simp
@[simp] theorem Hart.expandMask_stamp : (Hart.expandMask ewb m h).stamp = h.stamp := by unfold Hart.expandMask; split <;> simp
@[simp] theorem Hart.expandMask_armed : (Hart.expandMask ewb m h).armed = h.armed := by unfold Hart.expandMask; split <;> simp
@[simp] theorem Hart.expandMask_flushFault : (Hart.expandMask ewb m h).flushFault = h.flushFault := by unfold Hart.expandMask; split <;> simp
@[simp] theorem Hart.expandMask_posted : (Hart.expandMask ewb m h).posted = h.posted := by unfold Hart.expandMask; split <;> simp
@[simp] theorem Hart.expandMask_firm : (Hart.expandMask ewb m h).firm = h.firm := by unfold Hart.expandMask; split <;> simp
@[simp] theorem Hart.expandMask_pair : (Hart.expandMask ewb m h).pair = h.pair := by unfold Hart.expandMask; split <;> simp
@[simp] theorem Hart.expandMask_hostLast : (Hart.expandMask ewb m h).hostLast = h.hostLast := by unfold Hart.expandMask; split <;> simp
@[simp] theorem Hart.expandMask_merge : (Hart.expandMask ewb m h).merge = h.merge := by unfold Hart.expandMask; split <;> simp
@[simp] theorem Hart.expandMask_aged : (Hart.expandMask ewb m h).aged = h.aged := by unfold Hart.expandMask; split <;> simp
end expandMask

section retire
variable (n : Nat) (pc : Word) (h : Hart)
@[simp] theorem retire_convoy : (retire n pc h).convoy = h.convoy := rfl
@[simp] theorem retire_hidx : (retire n pc h).hidx = h.hidx := rfl
@[simp] theorem retire_mode : (retire n pc h).mode = h.mode := rfl
@[simp] theorem retire_s : (retire n pc h).s = h.s := rfl
@[simp] theorem retire_v : (retire n pc h).v = h.v := rfl
@[simp] theorem retire_m : (retire n pc h).m = h.m := rfl
@[simp] theorem retire_acc : (retire n pc h).acc = h.acc := rfl
@[simp] theorem retire_c : (retire n pc h).c = h.c := rfl
@[simp] theorem retire_ring : (retire n pc h).ring = h.ring := rfl
@[simp] theorem retire_frameCount : (retire n pc h).frameCount = h.frameCount := rfl
@[simp] theorem retire_instNo : (retire n pc h).instNo = h.instNo := rfl
@[simp] theorem retire_overflow : (retire n pc h).overflow = h.overflow := rfl
@[simp] theorem retire_det : (retire n pc h).det = h.det := rfl
@[simp] theorem retire_logged : (retire n pc h).logged = h.logged := rfl
@[simp] theorem retire_mma : (retire n pc h).mma = h.mma := rfl
@[simp] theorem retire_deferred : (retire n pc h).deferred = h.deferred := rfl
@[simp] theorem retire_poison : (retire n pc h).poison = h.poison := rfl
@[simp] theorem retire_code : (retire n pc h).code = h.code := rfl
@[simp] theorem retire_join : (retire n pc h).join = h.join := rfl
@[simp] theorem retire_start : (retire n pc h).start = h.start := rfl
@[simp] theorem retire_stamp : (retire n pc h).stamp = h.stamp := rfl
@[simp] theorem retire_armed : (retire n pc h).armed = h.armed := rfl
@[simp] theorem retire_flushFault : (retire n pc h).flushFault = h.flushFault := rfl
@[simp] theorem retire_hostLast : (retire n pc h).hostLast = h.hostLast := rfl
@[simp] theorem retire_pc : (retire n pc h).pc = pc := rfl
@[simp] theorem retire_resp : (retire n pc h).resp = [] := rfl
@[simp] theorem retire_posted : (retire n pc h).posted = 0 := rfl
@[simp] theorem retire_firm : (retire n pc h).firm = false := rfl
@[simp] theorem retire_pair : (retire n pc h).pair = none := rfl
@[simp] theorem retire_merge : (retire n pc h).merge = none := rfl
@[simp] theorem retire_aged : (retire n pc h).aged = false := rfl
@[simp] theorem retire_csr_sc : (retire n pc h).csr.sc = h.csr.sc := rfl
@[simp] theorem retire_csr_vstart : (retire n pc h).csr.vstart = h.csr.vstart := rfl
@[simp] theorem retire_csr_bstart : (retire n pc h).csr.bstart = h.csr.bstart := rfl
@[simp] theorem retire_csr_posa : (retire n pc h).csr.posa = h.csr.posa := rfl
@[simp] theorem retire_csr_posb : (retire n pc h).csr.posb = h.csr.posb := rfl
@[simp] theorem retire_csr_chstep : (retire n pc h).csr.chstep = h.csr.chstep := rfl
@[simp] theorem retire_csr_fflags : (retire n pc h).csr.fflags = h.csr.fflags := rfl
@[simp] theorem retire_csr_frm : (retire n pc h).csr.frm = h.csr.frm := rfl
@[simp] theorem retire_csr_nanseen : (retire n pc h).csr.nanseen = h.csr.nanseen := rfl
@[simp] theorem retire_csr_mag : (retire n pc h).csr.mag = h.csr.mag := rfl
@[simp] theorem retire_csr_vl : (retire n pc h).csr.vl = h.csr.vl := rfl
@[simp] theorem retire_csr_env : (retire n pc h).csr.env = h.csr.env := rfl
@[simp] theorem retire_csr_frame : (retire n pc h).csr.frame = h.csr.frame := rfl
@[simp] theorem retire_csr_xcause : (retire n pc h).csr.xcause = h.csr.xcause := rfl
@[simp] theorem retire_csr_xpc : (retire n pc h).csr.xpc = h.csr.xpc := rfl
@[simp] theorem retire_csr_xaddr : (retire n pc h).csr.xaddr = h.csr.xaddr := rfl
@[simp] theorem retire_csr_xelem : (retire n pc h).csr.xelem = h.csr.xelem := rfl
@[simp] theorem retire_csr_xbank : (retire n pc h).csr.xbank = h.csr.xbank := rfl
@[simp] theorem retire_csr_xstat : (retire n pc h).csr.xstat = h.csr.xstat := rfl
@[simp] theorem retire_csr_tvec : (retire n pc h).csr.tvec = h.csr.tvec := rfl
@[simp] theorem retire_csr_xscratch : (retire n pc h).csr.xscratch = h.csr.xscratch := rfl
@[simp] theorem retire_instret : (retire n pc h).csr.instret = h.csr.instret + BitVec.ofNat 64 n := rfl
end retire

section takeTrap
variable (t : Trap) (paired : Bool) (pc : Word) (h : Hart)
@[simp] theorem takeTrap_convoy : (takeTrap t paired pc h).convoy = h.convoy := by unfold takeTrap; split <;> rfl
@[simp] theorem takeTrap_hidx : (takeTrap t paired pc h).hidx = h.hidx := by unfold takeTrap; split <;> rfl
@[simp] theorem takeTrap_s : (takeTrap t paired pc h).s = h.s := by unfold takeTrap; split <;> rfl
@[simp] theorem takeTrap_v : (takeTrap t paired pc h).v = h.v := by unfold takeTrap; split <;> rfl
@[simp] theorem takeTrap_m : (takeTrap t paired pc h).m = h.m := by unfold takeTrap; split <;> rfl
@[simp] theorem takeTrap_acc : (takeTrap t paired pc h).acc = h.acc := by unfold takeTrap; split <;> rfl
@[simp] theorem takeTrap_c : (takeTrap t paired pc h).c = h.c := by unfold takeTrap; split <;> rfl
@[simp] theorem takeTrap_ring : (takeTrap t paired pc h).ring = h.ring := by unfold takeTrap; split <;> rfl
@[simp] theorem takeTrap_frameCount : (takeTrap t paired pc h).frameCount = h.frameCount := by unfold takeTrap; split <;> rfl
@[simp] theorem takeTrap_instNo : (takeTrap t paired pc h).instNo = h.instNo := by unfold takeTrap; split <;> rfl
@[simp] theorem takeTrap_overflow : (takeTrap t paired pc h).overflow = h.overflow := by unfold takeTrap; split <;> rfl
@[simp] theorem takeTrap_det : (takeTrap t paired pc h).det = h.det := by unfold takeTrap; split <;> rfl
@[simp] theorem takeTrap_logged : (takeTrap t paired pc h).logged = h.logged := by unfold takeTrap; split <;> rfl
@[simp] theorem takeTrap_mma : (takeTrap t paired pc h).mma = h.mma := by unfold takeTrap; split <;> rfl
@[simp] theorem takeTrap_deferred : (takeTrap t paired pc h).deferred = h.deferred := by unfold takeTrap; split <;> rfl
@[simp] theorem takeTrap_poison : (takeTrap t paired pc h).poison = h.poison := by unfold takeTrap; split <;> rfl
@[simp] theorem takeTrap_code : (takeTrap t paired pc h).code = h.code := by unfold takeTrap; split <;> rfl
@[simp] theorem takeTrap_join : (takeTrap t paired pc h).join = h.join := by unfold takeTrap; split <;> rfl
@[simp] theorem takeTrap_start : (takeTrap t paired pc h).start = h.start := by unfold takeTrap; split <;> rfl
@[simp] theorem takeTrap_stamp : (takeTrap t paired pc h).stamp = h.stamp := by unfold takeTrap; split <;> rfl
@[simp] theorem takeTrap_armed : (takeTrap t paired pc h).armed = h.armed := by unfold takeTrap; split <;> rfl
@[simp] theorem takeTrap_flushFault : (takeTrap t paired pc h).flushFault = h.flushFault := by unfold takeTrap; split <;> rfl
@[simp] theorem takeTrap_hostLast : (takeTrap t paired pc h).hostLast = h.hostLast := by unfold takeTrap; split <;> rfl
@[simp] theorem takeTrap_resp : (takeTrap t paired pc h).resp = [] := by unfold takeTrap; split <;> rfl
@[simp] theorem takeTrap_posted : (takeTrap t paired pc h).posted = 0 := by unfold takeTrap; split <;> rfl
@[simp] theorem takeTrap_firm : (takeTrap t paired pc h).firm = false := by unfold takeTrap; split <;> rfl
@[simp] theorem takeTrap_pair : (takeTrap t paired pc h).pair = none := by unfold takeTrap; split <;> rfl
@[simp] theorem takeTrap_merge : (takeTrap t paired pc h).merge = none := by unfold takeTrap; split <;> rfl
@[simp] theorem takeTrap_aged : (takeTrap t paired pc h).aged = false := by unfold takeTrap; split <;> rfl
end takeTrap

/-! ### s0 and the scalar registers -/

@[simp] theorem Hart.writeS_zero (v : Word) (h : Hart) : Hart.writeS 0 v h = h := by simp [Hart.writeS]

/-- A register after a write of one. -/
theorem Hart.writeS_get (r j : SReg) (v : Word) (h : Hart) :
    (Hart.writeS r v h).s[j] = if r = j ∧ r ≠ 0 then v else h.s[j] := by
  unfold Hart.writeS
  by_cases hr : r = 0
  · simp [hr]
  · by_cases hj : r = j
    · subst hj
      simp [hr]
    · have : r.val ≠ j.val := fun e => hj (Fin.ext e)
      simp [hr, hj, this]

end Sys2Proof.Machine
end

