-- ==== Sys2Proof/Laws/Ops.lean ====
section
/-! SUPPORT. One law per shared operation: what it answers, and in which state. -/

namespace Sys2Proof.Machine

/-! ### Composition -/

theorem bind_ok {α β : Type} {op : M α} {f : α → M β} {s t : State} {a : α} (h : op s = .ok a t) :
    (op >>= f) s = f a t := by
  simp [bind, EStateM.bind, h]

theorem bind_error {α β : Type} {op : M α} {f : α → M β} {s t : State} {e : Stop} (h : op s = .error e t) :
    (op >>= f) s = .error e t := by
  simp [bind, EStateM.bind, h]

@[simp] theorem pure_run {α : Type} (a : α) (s : State) : (pure a : M α) s = .ok a s := rfl
@[simp] theorem get_run (s : State) : (get : M State) s = .ok s s := rfl
@[simp] theorem set_run (s t : State) : (set t : M PUnit) s = .ok ⟨⟩ t := rfl
@[simp] theorem modify_run (f : State → State) (s : State) : (modify f : M PUnit) s = .ok ⟨⟩ (f s) := rfl
@[simp] theorem throw_run {α : Type} (e : Stop) (s : State) : (throw e : M α) s = .error e s := rfl
@[simp] theorem getHart_run (s : State) : getHart s = .ok s.hart s := rfl
@[simp] theorem getConvoy_run (s : State) : getConvoy s = .ok s.convoy s := rfl
@[simp] theorem getCore_run (s : State) : getCore s = .ok s.core s := rfl
@[simp] theorem getCtx_run (s : State) : getCtx s = .ok s.ctx s := rfl
@[simp] theorem setHart_run (h : Hart) (s : State) : setHart h s = .ok () (s.setHart h) := rfl
@[simp] theorem modHart_run (f : Hart → Hart) (s : State) : modHart f s = .ok () (s.setHart (f s.hart)) := rfl
@[simp] theorem modCsr_run (f : Csrs → Csrs) (s : State) :
    modCsr f s = .ok () (s.setHart { s.hart with csr := f s.hart.csr }) := rfl
@[simp] theorem modConvoy_run (f : Convoy → Convoy) (s : State) : modConvoy f s = .ok () (s.setConvoy (f s.convoy)) := rfl
@[simp] theorem modCore_run (f : Core → Core) (s : State) : modCore f s = .ok () (s.setCore (f s.core)) := rfl
@[simp] theorem addFlags_run (fl : Flags) (s : State) : addFlags fl s = .ok () (s.setHart (s.hart.addFlags fl)) := rfl
@[simp] theorem require_run (p : Bool) (s : State) :
    require p s = if p then .ok () s else .error (.trap { cause := 0x01 }) s := by
  cases p <;> rfl

/-! ### Ends of a unit -/

theorem runUnit_ok {op : M Ctl} {s t : State} {c : Ctl} (h : op s = .ok c t) :
    runUnit op s = .next (finishUnit c 1 s.hart.pc t) := by
  simp [runUnit, runUnitN, h]

theorem runUnit_next {op : M Ctl} {s t : State} (h : op s = .ok .next t) : runUnit op s = .next (s.commits t) :=
  runUnit_ok h

theorem runUnit_hart {op : M Ctl} {s : State} {h : Hart} (e : op s = .ok .next (s.setHart h)) :
    runUnit op s = .next (s.commitsHart h) :=
  runUnit_ok e

theorem runUnit_trap {op : M Ctl} {s t : State} {x : Trap} (h : op s = .error (.trap x) t) :
    runUnit op s = .next (s.traps t x) := by
  simp [runUnit, runUnitN, h, State.traps]

/-! ### Reads of scalar registers -/

theorem readS_ok {s : State} {r : SReg} (h : s.canRead r = true) : readS r s = .ok (s.reg r) s := by
  unfold readS State.reg
  rw [bind_ok (getHart_run s)]
  by_cases hr : r = 0
  · simp [hr]
  · have : poisoned s.hart (isScalarSite r) = false := by simpa [State.canRead, hr] using h
    simp [hr, this]

/-- A poisoned register raises 0x14 (R160). -/
theorem readS_poisoned {s : State} {r : SReg} (h : s.canRead r = false) :
    readS r s = .error (.trap { cause := 0x14 }) s := by
  unfold readS
  rw [bind_ok (getHart_run s)]
  have : r ≠ 0 ∧ poisoned s.hart (isScalarSite r) = true := by simpa [State.canRead] using h
  simp [this.1, this.2, raise]

theorem readSrc_ok {s : State} {b : Src} (h : s.canReadSrc b = true) : readSrc b s = .ok (s.src b) s := by
  cases b with
  | reg r => exact readS_ok h
  | imm i => rfl

theorem readSrcZ_ok {s : State} {b : Src} (h : s.canReadSrc b = true) : readSrcZ b s = .ok (s.srcZ b) s := by
  cases b with
  | reg r => exact readS_ok h
  | imm i => rfl

theorem readC_ok {s : State} {r : CName} (h : s.canReadC r = true) : readC r s = .ok s.hart.c[r] s := by
  unfold readC
  rw [bind_ok (getHart_run s)]
  have : poisoned s.hart (isClosureSite r) = false := by simpa [State.canReadC] using h
  simp [this]

/-! ### A hart without poison (R160) -/

theorem State.clean.canRead {s : State} (h : s.clean) (r : SReg) : s.canRead r = true := by
  unfold State.clean at h
  simp [State.canRead, poisoned, h]

theorem State.clean.canReadSrc {s : State} (h : s.clean) (b : Src) : s.canReadSrc b = true := by
  cases b
  · exact h.canRead _
  · rfl

theorem State.clean.canReadC {s : State} (h : s.clean) (r : CName) : s.canReadC r = true := by
  unfold State.clean at h
  simp [State.canReadC, poisoned, h]

theorem elemPoisoned_clean {h : Hart} (hp : h.poison = []) (r : VName) (bits i : Nat) :
    h.elemPoisoned r bits i = false := by
  simp [Hart.elemPoisoned, hp]

theorem VArg.poisoned_clean {h : Hart} (hp : h.poison = []) (x : VArg) (hx : x ≠ .bad) (bits i : Nat) :
    x.poisoned h bits i = false := by
  cases x
  · exact elemPoisoned_clean hp _ _ _
  · rfl
  · exact absurd rfl hx

theorem checkMask_clean {s : State} (h : s.clean) (m : MName) (lo hi : Nat) (p : Nat → Bool) :
    checkMask m lo hi p s = .ok () s := by
  unfold State.clean at h
  unfold checkMask
  rw [bind_ok (getHart_run s), bind_ok (getConvoy_run s)]
  simp [maskPoison, h]

theorem checkPred_clean {s : State} (h : s.clean) (m : MName) : checkPred m s = .ok () s := by
  unfold checkPred
  rw [bind_ok (getHart_run s)]
  exact checkMask_clean h _ _ _ _

theorem clearPoison_clean {h : Hart} (hp : h.poison = []) (p : RegSite → Bool) : clearPoison p h = h := by
  simp [clearPoison, hp]

/-- An instruction that writes a mask not bound to a transfer does not stall (R16). -/
theorem stallBound_free {s : State} {m : MName} (h : m = 0 ∨ s.hart.m[m].bound = none) : stallBound m s = .ok () s := by
  unfold stallBound
  rw [bind_ok (getHart_run s)]
  rw [if_neg, pure_run]
  rintro ⟨h1, h2⟩
  rcases h with h | h
  · exact h1 h
  · rw [h] at h2
    cases h2

@[simp] theorem writeS_run (r : SReg) (v : Word) (s : State) : writeS r v s = .ok () (s.setHart (s.hart.writeS r v)) := rfl

@[simp] theorem State.setHart_setHart (s : State) (h k : Hart) : (s.setHart h).setHart k = s.setHart k := by
  simp [State.setHart, State.setHartOf, mset_mset]

end Sys2Proof.Machine
end

