-- ==== Sys2Proof/Laws/Keeps.lean ====
section
/-! SUPPORT. What an operation keeps, however it ends: a property of the state that every part of an operation keeps, the
whole keeps. -/

namespace Sys2Proof.Machine

/-- The state in which an operation ends. -/
def endState {ε α : Type} : EStateM.Result ε State α → State
  | .ok _ s => s
  | .error _ s => s

/-- The operation, from `s`, ends in a state with `P`. -/
def EndsIn {ε α : Type} (P : State → Prop) (op : EStateM ε State α) (s : State) : Prop := P (endState (op s))

/-- From every state with `P` the operation ends in one. -/
def Keeps {ε α : Type} (P : State → Prop) (op : EStateM ε State α) : Prop := ∀ s, P s → EndsIn P op s

section
variable {ε α β : Type} {P : State → Prop} {s t : State}

theorem ends_pure (h : P s) (a : α) : EndsIn P (pure a : EStateM ε State α) s := h
theorem ends_throw (h : P s) (e : ε) : EndsIn P (throw e : EStateM ε State α) s := h
theorem ends_get (h : P s) : EndsIn P (get : EStateM ε State State) s := h
theorem ends_set (h : P t) : EndsIn P (set t : EStateM ε State PUnit) s := h
theorem ends_modify {f : State → State} (h : P (f s)) : EndsIn P (modify f : EStateM ε State PUnit) s := h

theorem ends_bind {x : EStateM ε State α} {f : α → EStateM ε State β} (hx : EndsIn P x s)
    (hf : ∀ a t, P t → EndsIn P (f a) t) : EndsIn P (x >>= f) s := by
  unfold EndsIn at *
  simp only [bind, EStateM.bind]
  generalize x s = r at *
  cases r with
  | ok a t => exact hf a t hx
  | error e t => exact hx

theorem ends_get_bind {f : State → EStateM ε State β} (h : EndsIn P (f s) s) :
    EndsIn P ((get : EStateM ε State State) >>= f) s := h

theorem ends_ite {c : Prop} [Decidable c] {x y : EStateM ε State α} (hx : c → EndsIn P x s) (hy : ¬c → EndsIn P y s) :
    EndsIn P (if c then x else y) s := by
  split
  · exact hx ‹_›
  · exact hy ‹_›

end

end Sys2Proof.Machine
end

