-- ==== Sys2Proof/Laws/Translate.lean ====
section
/-! SUPPORT. What translation does to the state, whatever it answers: it fills a TLB and takes free values, and nothing
else. -/

namespace Sys2Proof.Machine

/-- `t` is `s` but for the TLBs and the count of free values. -/
def State.walkedTo (s t : State) : Prop := ∃ c n, t = { s with cores := c, freeCount := n }

theorem State.walkedTo_self (s : State) : s.walkedTo s := ⟨s.cores, s.freeCount, rfl⟩

section
variable {s₀ s : State}

theorem State.walkedTo.cores {c : List (Nat × Core)} (h : s₀.walkedTo s) : s₀.walkedTo { s with cores := c } := by
  obtain ⟨d, m, rfl⟩ := h
  exact ⟨c, m, rfl⟩

theorem State.walkedTo.free {n : Nat} (h : s₀.walkedTo s) : s₀.walkedTo { s with freeCount := n } := by
  obtain ⟨d, m, rfl⟩ := h
  exact ⟨d, n, rfl⟩

theorem pickEntry_walked (table idx level : Nat) (h : s₀.walkedTo s) : EndsIn s₀.walkedTo (pickEntry table idx level) s := by
  unfold pickEntry
  refine ends_get_bind ?_
  dsimp only
  refine ends_ite (fun _ => h) fun _ => ?_
  exact ends_bind (show s₀.walkedTo _ from h.free) fun a t ht => ht

theorem walkFrom_walked (cause : BitVec 8) (va level table : Nat) (h : s₀.walkedTo s) :
    EndsIn s₀.walkedTo (walkFrom cause va level table) s := by
  induction level generalizing table s with
  | zero => exact h
  | succ n ih =>
    unfold walkFrom
    refine ends_get_bind ?_
    dsimp only
    repeat' first
      | exact ih _ ‹_›
      | exact pickEntry_walked _ _ _ ‹_›
      | exact ends_throw ‹_› _
      | exact ends_pure ‹_› _
      | refine ends_ite (fun _ => ?_) (fun _ => ?_)
      | refine ends_bind ?_ (fun _ _ _ => ?_)

theorem leafFor_walked (core : Option Nat) (ctx : Context) (acc : Acc) (va : Nat) (h : s₀.walkedTo s) :
    EndsIn s₀.walkedTo (leafFor core ctx acc va) s := by
  unfold leafFor
  refine ends_get_bind ?_
  dsimp only
  split
  · exact walkFrom_walked _ _ _ _ h
  · split
    · exact h
    · refine ends_bind (walkFrom_walked _ _ _ _ h) fun leaf t ht => ?_
      exact ends_bind (show s₀.walkedTo _ from ht.cores) fun _ _ hu => hu

theorem translate_walked (core : Option Nat) (ctx : Context) (view : Mode) (fam : Fam) (acc : Acc) (va : Word)
    (h : s₀.walkedTo s) : EndsIn s₀.walkedTo (translate core ctx view fam acc va) s := by
  unfold translate
  dsimp only
  refine ends_ite (fun _ => ends_bind (ends_throw h _) fun _ t ht => ?_) fun _ => ?_
  all_goals
    refine ends_get_bind ?_
    have hl := leafFor_walked core ctx acc va.toNat (s := ‹State›) ‹_›
    unfold EndsIn at hl
    split <;> rename_i hr <;> rw [hr] at hl
    · exact ends_bind (ends_set hl) fun _ _ hu => ends_throw hu _
    · refine ends_bind (ends_set hl) fun _ _ hu => ?_
      split
      · exact ends_throw hu _
      · exact ends_pure hu _

/-- Locating a place for an access of a hart. -/
theorem locate_walked (fam : Fam) (acc : Acc) (va : Word) (n : Nat) (elem bank : Option Nat) (h : s₀.walkedTo s) :
    EndsIn s₀.walkedTo (locate fam acc va n elem bank) s := by
  unfold locate
  refine ends_get_bind ?_
  dsimp only
  refine ends_ite (fun _ => ends_bind (ends_throw h _) fun _ t ht => ?_) fun _ => ?_
  all_goals
    split
    · have hl := translate_walked (some (s.coreId)) s.ctx s.hart.mode fam acc va h
      unfold EndsIn at hl
      split <;> rename_i hr <;> rw [hr] at hl
      · exact ends_bind (ends_set hl) fun _ _ hu => ends_pure hu _
      · exact ends_bind (ends_set hl) fun _ _ hu => ends_throw hu _
    · exact ends_ite (fun _ => ends_pure ‹_› _) fun _ => ends_throw ‹_› _
    · exact ends_throw ‹_› _

/-- Locating a line. -/
theorem fetchLine_walked (line : Word) (h : s₀.walkedTo s) : EndsIn s₀.walkedTo (fetchLine line) s := by
  unfold fetchLine
  refine ends_get_bind ?_
  dsimp only
  refine ends_ite (fun _ => ends_bind (ends_throw h _) fun _ t ht => ?_) fun _ => ?_
  all_goals
    have hl := translate_walked (some (s.coreId)) s.ctx s.hart.mode .fetch .fetch line h
    unfold EndsIn at hl
    split <;> rename_i hr <;> rw [hr] at hl
    · exact ends_bind (ends_set hl) fun _ _ hu => ends_throw hu _
    · refine ends_bind (ends_set hl) fun _ u hu => ?_
      repeat' first
        | exact ends_throw ‹_› _
        | exact ends_pure ‹_› _
        | refine ends_ite (fun _ => ?_) (fun _ => ?_)
        | refine ends_bind ?_ (fun _ _ _ => ?_)
        | split

/-- Checking a taken transfer's target. -/
theorem checkTarget_walked (target : Word) (bt : Bool) (h : s₀.walkedTo s) :
    EndsIn s₀.walkedTo (checkTarget target bt) s := by
  unfold checkTarget
  dsimp only
  refine ends_ite (fun _ => ends_bind (ends_throw h _) fun _ t ht => ?_) fun _ => ?_
  all_goals
    refine ends_get_bind ?_
    have hl := fetchLine_walked (lineOf target) (s := ‹State›) ‹_›
    unfold EndsIn at hl
    split <;> rename_i hr <;> rw [hr] at hl
    · exact ends_bind (ends_set hl) fun _ _ hu => ends_throw hu _
    · refine ends_bind (ends_set hl) fun _ u hu => ?_
      repeat' first
        | exact ends_throw ‹_› _
        | exact ends_pure ‹_› _
        | refine ends_ite (fun _ => ?_) (fun _ => ?_)

theorem reaches_walked {t : State} {target : Word} {bt : Bool} (h : s.reaches target bt t) : s.walkedTo t := by
  have := checkTarget_walked target bt s.walkedTo_self
  unfold State.reaches at h
  unfold EndsIn at this
  rwa [h] at this

/-- The place found, the harts are as they were. -/
theorem State.walkedTo.hart {t : State} (h : s.walkedTo t) : t.hart = s.hart := by
  obtain ⟨c, n, rfl⟩ := h
  rfl

theorem State.walkedTo.mem {t : State} (h : s.walkedTo t) : t.mem = s.mem := by
  obtain ⟨c, n, rfl⟩ := h
  rfl

theorem locate_ok_walked {t : State} {fam : Fam} {acc : Acc} {va : Word} {n : Nat} {elem bank : Option Nat} {p : Place}
    (h : locate fam acc va n elem bank s = .ok p t) : s.walkedTo t := by
  have := locate_walked fam acc va n elem bank s.walkedTo_self
  unfold EndsIn at this
  rwa [h] at this

end

end Sys2Proof.Machine
end

