-- ==== Sys2Proof/Laws/Forms.lean ====
section
/-! SUPPORT. The operand forms of the scalar instructions and the branches: what each answers when its operands can be
read. -/

namespace Sys2Proof.Machine

/-- A readable scalar of a format. -/
theorem readF_ok {s : State} {t : EType} {r : SReg} (h : s.canRead r = true) : readF t r s = .ok (s.freg t r) s := by
  simp only [readF, bind_ok (readS_ok h)]; rfl

/-- A readable operand B of a floating instruction. -/
theorem readFSrc_ok {s : State} {t : EType} {b : Src} (h : s.canReadSrc b = true) : readFSrc t b s = .ok (s.fsrc t b) s := by
  cases b with
  | reg r => simp only [readFSrc]; rw [bind_ok (readF_ok h)]; rfl
  | imm i => rfl

/-- A two-operand integer instruction whose operands can be read. -/
theorem sBin_run (f : Nat → Nat → Nat → Nat) {s : State} {x : SInt} (ha : s.canRead x.a = true) (hb : s.canReadSrc x.b = true) :
    sBin f x s = .ok .next (s.setHart (s.hart.writeS x.d (extendW x.w (f (widthBits x.w)
      ((s.reg x.a).toNat % 2 ^ widthBits x.w) ((s.src x.b).toNat % 2 ^ widthBits x.w))))) := by
  unfold sBin
  simp only [bind_ok (readS_ok ha), bind_ok (readSrc_ok hb), bind_ok (writeS_run _ _ _), pure_run]

/-- A two-operand floating instruction whose operands can be read. -/
theorem fBin_run (f : EType → Nat → Nat → Nat → Nat × Flags) {s : State} {x : SFp} (ha : s.canRead x.a = true) (hb : s.canReadSrc x.b = true) :
    fBin f x s = .ok .next (s.setHart ((s.hart.writeS x.d (BitVec.ofNat 64 (f x.f s.hart.csr.frm.toNat (s.freg x.f x.a) (s.fsrc x.f x.b).1).1)).addFlags ((s.fsrc x.f x.b).2 ||| (f x.f s.hart.csr.frm.toNat (s.freg x.f x.a) (s.fsrc x.f x.b).1).2))) := by
  unfold fBin
  simp only [bind_ok (readF_ok ha), bind_ok (readFSrc_ok hb), bind_ok (getHart_run _), bind_ok (writeS_run _ _ _), bind_ok (addFlags_run _ _), pure_run, State.setHart_hart, State.setHart_setHart, Hart.mode_]

/-- A one-operand floating instruction whose operand can be read. -/
theorem fUn_run (f : EType → Nat → Nat → Nat × Flags) {s : State} {x : SFpUn} (ha : s.canRead x.a = true) :
    fUn f x s = .ok .next (s.setHart ((s.hart.writeS x.d (BitVec.ofNat 64 (f x.f s.hart.csr.frm.toNat (s.freg x.f x.a)).1)).addFlags (f x.f s.hart.csr.frm.toNat (s.freg x.f x.a)).2)) := by
  unfold fUn
  simp only [bind_ok (readF_ok ha), bind_ok (getHart_run _), bind_ok (writeS_run _ _ _), bind_ok (addFlags_run _ _), pure_run, State.setHart_hart, State.setHart_setHart, Hart.mode_]

/-- No flag adds nothing. -/
theorem addFlags_zero (h : Hart) : h.addFlags 0 = h := by
  cases h with | mk => simp [Hart.addFlags]

/-- A taken transfer: its effect, then its target. -/
theorem takeJump_run {s t : State} {tg : Word} {bt : Bool} (e : M Unit) {u : State} (h : s.reaches tg bt t) (he : e t = .ok () u) : takeJump tg bt e s = .ok (.jump tg) u := by
  unfold takeJump
  rw [bind_ok h, bind_ok he]; rfl

/-- A branch not taken. -/
theorem branchIf_not {s u : State} {p : Bool} {t : Target} (e : M Unit) (hp : p = false) (he : e s = .ok () u) : branchIf p t e s = .ok .next u := by
  subst hp; unfold branchIf; simp only [Bool.false_eq_true, if_false]; rw [bind_ok he]; rfl

/-- A branch taken. -/
theorem branchIf_taken {s t u : State} {p : Bool} {x : Target} (e : M Unit) (hp : p = true) (h : s.reaches (branchTarget s.hart.pc x) true t) (he : e t = .ok () u) : branchIf p x e s = .ok (.jump (branchTarget s.hart.pc x)) u := by
  subst hp; unfold branchIf; simp only [if_true]; rw [bind_ok (getHart_run s)]; exact takeJump_run e h he

/-- Losing poison keeps registers readable. -/
theorem canRead_mono {s : State} {h : Hart} (r : SReg) (hp : ∀ p ∈ h.poison, p ∈ s.hart.poison) (hc : s.canRead r = true) : (s.setHart h).canRead r = true := by
  simp only [State.canRead, State.setHart_hart, Bool.or_eq_true, Bool.not_eq_true', poisoned] at *
  rcases hc with hc | hc
  · exact .inl hc
  · refine .inr ?_
    rw [List.any_eq_false] at *
    exact fun x hx => hc x (hp x hx)

/-- A write of a register poisons nothing. -/
theorem poison_writeS (r : SReg) (v : Word) (h : Hart) : ∀ p ∈ (h.writeS r v).poison, p ∈ h.poison := by
  unfold Hart.writeS clearPoison
  split
  · simp
  · split
    · intro p hp; simp at hp; exact hp.1
    · simp

/-- One pointer of `strip`, advanced. -/
def adv (n : Nat) (r : SReg) (k : Nat) (h : Hart) : Hart := if r = 0 then h else h.writeS r (h.s[r] + BitVec.ofNat 64 (n * k))

/-- Advancing poisons nothing. -/
theorem poison_adv (n : Nat) (r : SReg) (k : Nat) (h : Hart) : ∀ p ∈ (adv n r k h).poison, p ∈ h.poison := by
  unfold adv; split
  · simp
  · exact poison_writeS _ _ _

/-- `strip` advances a pointer that can be read. -/
theorem adv_run {s : State} {h : Hart} (n k : Nat) (r : SReg) (hc : (s.setHart h).canRead r = true) : stripAdvance n k r (s.setHart h) = .ok () (s.setHart (adv n r k h)) := by
  unfold stripAdvance adv
  split
  · rfl
  · rename_i hr
    rw [bind_ok (readS_ok hc)]; simp [State.reg, hr]

end Sys2Proof.Machine
end

