-- ==== Sys2Proof/Laws/Access.lean ====
section
/-! SUPPORT. Accesses to ordinary words of a vault: what the shared operations of loads and stores answer. -/

namespace Sys2Proof.Machine

/-- Finding a word only walks. -/
theorem finds_walked {s t : State} {fam acc va n l} (h : s.finds fam acc va n l t) : s.walkedTo t := locate_ok_walked h.1

/-- Walking leaves the items. -/
theorem walked_items {s t : State} (h : s.walkedTo t) : hartItems t = hartItems s := by
  obtain ⟨c, n, rfl⟩ := h; rfl

/-- Walking leaves nothing pending. -/
theorem State.walkedTo.calm {s t : State} (h : s.walkedTo t) (hc : s.calm) : t.calm := by
  obtain ⟨c, n, rfl⟩ := h; exact hc

/-- Nothing is pending: no flush. -/
theorem flushGranule_none {s : State} (h : s.hart.deferred = []) (k : Nat) : flushGranule k s = .ok () s := by
  unfold flushGranule; rw [bind_ok (get_run s)]; simp [h]

/-- Nothing is pending: no flush. -/
theorem flushWhere_none {s : State} (h : s.hart.deferred = []) (p) : flushWhere p s = .ok () s := by
  unfold flushWhere; rw [bind_ok (getHart_run s)]; simp [h]

/-- There is nothing to wait for. -/
theorem awaitIds_nil (w : M Unit) (s : State) : awaitIds [] w s = .ok () s := by
  unfold awaitIds; rw [bind_ok (get_run s)]; simp

/-- None of the hart's items is one to wait for. -/
theorem awaitWhere_none {s : State} {p : State → Item → Bool} (h : ∀ i ∈ hartItems s, p s i = false) (w) :
    awaitWhere p w s = .ok () s := by
  unfold awaitWhere
  rw [bind_ok (get_run s), List.filter_eq_nil_iff.mpr fun i hi => by simp [h i hi]]
  exact awaitIds_nil w s

/-- No earlier access of the hart to this package is on its way: none is waited for. -/
theorem awaitOwn_calm {s : State} (h : s.calm) (l) : awaitOwn l s = .ok () s :=
  awaitWhere_none (fun i hi => by simp [leadsTo, itemKey, h.2 i hi]) _

/-- None of the hart's flags is held for a word that is named. -/
theorem awaitFlags_none {s : State} {p : Nat → Bool} (h : ∀ i ∈ hartItems s, (flagKey i).any p = false) :
    awaitFlags p s = .ok () s := awaitWhere_none h _

/-- No command of the hart is waited for. -/
theorem awaitCommands_none {s : State} (h : depotPending s = false) : awaitCommands s = .ok () s := by
  have e : hartCommands s = [] := by simpa [depotPending] using h
  unfold awaitCommands
  rw [bind_ok (get_run s), e]
  exact awaitIds_nil _ s

/-- An access that enters no log waits for none. -/
theorem awaitLogged_off {s : State} {l : Loc} (h : l.log = false) : awaitLogged l s = .ok () s := by
  unfold awaitLogged; rw [bind_ok (get_run s)]; simp [logsHere, h]

/-- A page that is not logged enters no log. -/
theorem logOne_off {s : State} {l : Loc} (h : l.log = false) (k va e) : logOne l k va e s = .ok () s := by
  simp [logOne, logAccesses, h, bind, EStateM.bind, get, getThe, MonadStateOf.get, EStateM.get, pure, EStateM.pure]

/-- Metering changes a budget at most. -/
theorem meter_spec (s : State) (k n : Nat) : ∃ c, meter k n s = .ok () { s with cores := c } := by
  unfold meter; rw [bind_ok (get_run s)]
  split
  · exact ⟨_, rfl⟩
  · exact ⟨s.cores, rfl⟩

/-- Metering always ends well. -/
theorem meter_run (s : State) (k n : Nat) : meter k n s = .ok () (s.after (meter k n)) := by
  obtain ⟨c, h⟩ := meter_spec s k n
  simp [State.after, h]

/-- A word without a data error. -/
theorem checkData_none {s : State} {k} (h : dataError s k = none) (va e b) : checkData va k e b s = .ok () s := by
  unfold checkData; rw [bind_ok (get_run s)]; simp [h]

/-- A vault key is no depot key. -/
theorem vault_not_depot {k : Nat} (h : isVault k = true) : isDepot k = false := by
  simp [isVault, isDepot] at *; intro; omega

/-- Metering leaves memory. -/
theorem after_meter_mem (s : State) (k n : Nat) : (s.after (meter k n)).mem = s.mem := by
  obtain ⟨c, h⟩ := meter_spec s k n
  simp [State.after, h]

/-- Metering leaves the hart. -/
theorem after_meter_hart (s : State) (k n : Nat) : (s.after (meter k n)).hart = s.hart := by
  obtain ⟨c, h⟩ := meter_spec s k n
  simp only [State.after, h]; rfl

/-- A load of an ordinary word. -/
theorem loadVa_finds {s t : State} {l : Loc} {fam va n} (kind : Nat) (ty : EType) (h : s.finds fam .load va n l t) (hd : dataError t l.key = none) :
    loadVa fam kind va n ty none none s = .ok (memReadN s.mem l.key n) (t.after (meter l.key n)) := by
  have hw := finds_walked h
  obtain ⟨h1, h2, h3, h4, h5⟩ := h
  unfold loadVa
  rw [bind_ok h1]
  have hc : t.calm := hw.calm h5
  unfold loadPlace
  have e1 : prepLoad (.local_ l) va none none t = .ok () t := by
    simp only [prepLoad, h3, vault_not_depot h2, Bool.false_eq_true, if_false]
    rw [bind_ok (flushGranule_none hc.1 _), bind_ok (awaitOwn_calm hc _), bind_ok (awaitLogged_off h4)]
    exact checkData_none hd _ _ _
  have e2 : logPlace (.local_ l) kind va none t = .ok () t := logOne_off h4 _ _ _
  rw [bind_ok e1, bind_ok e2]
  simp only [takeLoad, h3, Bool.false_eq_true, if_false]
  rw [bind_ok (meter_run _ _ _), bind_ok (get_run _)]
  simp [after_meter_mem, hw.mem]

/-- A store to an ordinary word. -/
theorem storePlace_run {t : State} {l : Loc} (hc : t.calm) (_h2 : isVault l.key = true) (h3 : l.host = false) (h4 : l.log = false) (hf : (t.coreOf (l.key / 2 ^ 30)).fenced = false) (k va n v ty un) : storePlace (.local_ l) k va n v ty un none none t = .ok () (pokeN l.key n v (t.after (meter l.key n))) := by
  unfold storePlace
  have e1 : prepStore (.local_ l) va none none t = .ok () t := by
    simp only [prepStore, h3, Bool.false_eq_true, if_false]
    rw [bind_ok (flushGranule_none hc.1 _), bind_ok (awaitOwn_calm hc _), bind_ok (awaitLogged_off h4), bind_ok (get_run t)]
    simp only [hf, Bool.and_false, Bool.false_eq_true, if_false, pure_run]
  have e2 : logPlace (.local_ l) k va none t = .ok () t := logOne_off h4 _ _ _
  rw [bind_ok e1, bind_ok e2]
  simp only [putStore, h3, Bool.false_eq_true, if_false]
  rw [bind_ok (meter_run _ _ _)]
  rfl

/-- No host write of the hart is unflushed. -/
theorem flushHost_none {s : State} (h : s.hart.hostLast = none) : flushHost s = .ok () s := by
  simp [flushHost, State.hostFlushed, h]

/-- A conditional operation and what follows it. -/
theorem ifUnit_bind {α : Type} {c : Prop} [Decidable c] (a : M Unit) (k : M α) :
    (if c then a >>= fun _ => k else k) = ((if c then a else pure ()) >>= fun _ => k) := by
  split <;> rfl

/-- A release with nothing to wait for. -/
theorem releaseAt_idle {s : State} {sc : Scope} (h : s.idleAt sc) : releaseAt sc s = .ok () s := by
  obtain ⟨hd, hf, hw, hs⟩ := h
  have ec : (if wideScope sc = true then awaitCommands else pure ()) s = .ok () s := by
    split
    · exact awaitCommands_none (hw ‹_›)
    · rfl
  unfold releaseAt
  rw [bind_ok (get_run s), bind_ok (flushWhere_none hd _), bind_ok (awaitFlags_none hf), ifUnit_bind, bind_ok ec]
  by_cases hsc : sc = .system
  · have hi := (hs hsc).1
    have e1 : awaitItems s = .ok () s := by
      unfold awaitItems
      rw [bind_ok (awaitWhere_none (fun i h => by simp [hi] at h) _)]
      unfold reportItem; rw [bind_ok (get_run s)]; simp [hi]
    simp only [hsc, if_true]
    rw [bind_ok e1, flushHost_none (hs hsc).2]
  · simp only [hsc, if_false]; rfl

theorem releaseOpt_none {s : State} (r : Option Scope) (h : ∀ sc, r = some sc → s.idleAt sc) :
    releaseOpt r s = .ok () s := by
  cases r with
  | none => rfl
  | some sc => exact releaseAt_idle (h sc rfl)

/-- Walking leaves a release idle. -/
theorem State.walkedTo.idleAt {s t : State} (h : s.walkedTo t) {sc : Scope} (hi : s.idleAt sc) : t.idleAt sc := by
  obtain ⟨c, n, rfl⟩ := h; exact hi

/-- A misaligned access. -/
theorem locate_mis {s : State} {fam acc va n e b} (h : va.toNat % n ≠ 0) : locate fam acc va n e b s = .error (.trap { cause := 0x05, addr := some va, elem := e, bank := b }) s := by
  unfold locate
  rw [bind_ok (get_run s)]
  simp only [h, ne_eq, not_false_eq_true, if_true]
  rfl

/-- Waking monitors leaves memory. -/
theorem wakeMonitors_mem (k n : Nat) (s : State) : (wakeMonitors k n s).mem = s.mem := by
  unfold wakeMonitors; split <;> rfl

/-- What a write does to memory. -/
theorem pokeBytes_mem (k : Nat) (bs : List Byte) (s : State) : (pokeBytes k bs s).mem = memWriteBytes s.mem k bs := by
  simp only [pokeBytes, wakeMonitors_mem]; split <;> rfl

/-- Resuming detection leaves memory. -/
theorem resumeDetection_mem (s : State) : (resumeDetection s).mem = s.mem := by
  unfold resumeDetection; split <;> rfl

/-- The end of a unit leaves memory. -/
theorem finishUnit_mem (c : Ctl) (n : Nat) (pc : Word) (s : State) : (finishUnit c n pc s).mem = s.mem := by
  cases c <;> simp [finishUnit, resumeDetection_mem]

/-- Byte `i` of a value. -/
theorem toBytes_get (n v i : Nat) (h : i < n) : (toBytes n v)[i]'(by simpa using h) = BitVec.ofNat 8 (v / 256 ^ i) := by
  induction n generalizing v i with
  | zero => omega
  | succ n ih =>
    cases i with
    | zero => simp [toBytes]
    | succ i => simp only [toBytes, List.getElem_cons_succ]; rw [ih _ _ (by omega), Nat.div_div_eq_div_mul, pow_succ, mul_comm]

end Sys2Proof.Machine
end

