-- ==== Sys2Proof/Laws/Codec.lean ====
section
/-! SUPPORT. Encoding and decoding of words: what each field of an encoded word reads as. -/

namespace Sys2Proof

/-! ### Fields of the formats -/

/-- What the fields of an F-R word read as. -/
structure FrFields (n cls op d a b c m w mod imm : Nat) : Prop where
  lt : n < 2 ^ 96
  cls : fld n 90 6 = cls
  op : fld n 82 8 = op
  d : ∀ l, l ≤ 6 → fld n 76 l = d % 2 ^ l
  a : ∀ l, l ≤ 6 → fld n 70 l = a % 2 ^ l
  b : ∀ l, l ≤ 6 → fld n 64 l = b % 2 ^ l
  c : ∀ l, l ≤ 6 → fld n 58 l = c % 2 ^ l
  m : ∀ l, l ≤ 4 → fld n 54 l = m % 2 ^ l
  w : ∀ l, l ≤ 6 → fld n 48 l = w % 2 ^ l
  mod : ∀ k l, 32 ≤ k → k + l ≤ 48 → fld n k l = mod / 2 ^ (k - 32) % 2 ^ l
  imm : ∀ k l, k + l ≤ 32 → fld n k l = imm / 2 ^ k % 2 ^ l

/-- A field inside the part `x` of a word. -/
theorem fld_part {hi x low p s k l : Nat} (hl : low < 2 ^ p) (h1 : p ≤ k) (h2 : k + l ≤ p + s) :
    fld (hi * 2 ^ (p + s) + x * 2 ^ p + low) k l = x / 2 ^ (k - p) % 2 ^ l := by
  obtain ⟨j, rfl⟩ := Nat.exists_eq_add_of_le h1
  have e1 : (hi * 2 ^ (p + s) + x * 2 ^ p + low) / 2 ^ p = hi * 2 ^ s + x := by
    rw [show hi * 2 ^ (p + s) + x * 2 ^ p + low = low + (hi * 2 ^ s + x) * 2 ^ p by rw [pow_add]; ring,
      Nat.add_mul_div_right _ _ (by positivity), Nat.div_eq_of_lt hl, Nat.zero_add]
  have hs : s = j + l + (s - j - l) := by omega
  unfold fld
  rw [Nat.shiftRight_eq_div_pow, show 2 ^ (p + j) = 2 ^ p * 2 ^ j from pow_add _ _ _, ← Nat.div_div_eq_div_mul, e1,
    Nat.add_sub_cancel_left]
  have : hi * 2 ^ s = hi * 2 ^ (s - j - l) * 2 ^ l * 2 ^ j := by
    rw [mul_assoc, mul_assoc, ← pow_add, ← pow_add]; congr 2; omega
  rw [this, show ∀ a b c : Nat, a * c + b = b + a * c by intro a b c; ring, Nat.add_mul_div_right _ _ (by positivity),
    Nat.add_mul_mod_self_right]

theorem fr_fields {cls op d a b c m w mod imm : Nat} (h1 : cls < 64) (h2 : op < 256) (h3 : d < 64) (h4 : a < 64)
    (h5 : b < 64) (h6 : c < 64) (h7 : m < 16) (h8 : w < 64) (h9 : mod < 2 ^ 16) (h10 : imm < 2 ^ 32) :
    FrFields (fr cls op d a b c m w mod imm) cls op d a b c m w mod imm where
  lt := by unfold fr; omega
  cls := by unfold fr fld; rw [Nat.shiftRight_eq_div_pow]; omega
  op := by unfold fr fld; rw [Nat.shiftRight_eq_div_pow]; omega
  d l hl := by
    have := fld_part (hi := cls * 256 + op) (x := d) (low := a * 2 ^ 70 + b * 2 ^ 64 + c * 2 ^ 58 + m * 2 ^ 54 + w * 2 ^ 48
      + mod * 2 ^ 32 + imm) (p := 76) (s := 6) (k := 76) (l := l) (by omega) (by omega) (by omega)
    rw [show fr cls op d a b c m w mod imm = (cls * 256 + op) * 2 ^ (76 + 6) + d * 2 ^ 76 + (a * 2 ^ 70 + b * 2 ^ 64
      + c * 2 ^ 58 + m * 2 ^ 54 + w * 2 ^ 48 + mod * 2 ^ 32 + imm) by unfold fr; ring, this]; simp
  a l hl := by
    have := fld_part (hi := cls * 2 ^ 14 + op * 2 ^ 6 + d) (x := a) (low := b * 2 ^ 64 + c * 2 ^ 58 + m * 2 ^ 54 + w * 2 ^ 48
      + mod * 2 ^ 32 + imm) (p := 70) (s := 6) (k := 70) (l := l) (by omega) (by omega) (by omega)
    rw [show fr cls op d a b c m w mod imm = (cls * 2 ^ 14 + op * 2 ^ 6 + d) * 2 ^ (70 + 6) + a * 2 ^ 70 + (b * 2 ^ 64
      + c * 2 ^ 58 + m * 2 ^ 54 + w * 2 ^ 48 + mod * 2 ^ 32 + imm) by unfold fr; ring, this]; simp
  b l hl := by
    have := fld_part (hi := cls * 2 ^ 20 + op * 2 ^ 12 + d * 2 ^ 6 + a) (x := b) (low := c * 2 ^ 58 + m * 2 ^ 54 + w * 2 ^ 48
      + mod * 2 ^ 32 + imm) (p := 64) (s := 6) (k := 64) (l := l) (by omega) (by omega) (by omega)
    rw [show fr cls op d a b c m w mod imm = (cls * 2 ^ 20 + op * 2 ^ 12 + d * 2 ^ 6 + a) * 2 ^ (64 + 6) + b * 2 ^ 64
      + (c * 2 ^ 58 + m * 2 ^ 54 + w * 2 ^ 48 + mod * 2 ^ 32 + imm) by unfold fr; ring, this]; simp
  c l hl := by
    have := fld_part (hi := cls * 2 ^ 26 + op * 2 ^ 18 + d * 2 ^ 12 + a * 2 ^ 6 + b) (x := c) (low := m * 2 ^ 54 + w * 2 ^ 48
      + mod * 2 ^ 32 + imm) (p := 58) (s := 6) (k := 58) (l := l) (by omega) (by omega) (by omega)
    rw [show fr cls op d a b c m w mod imm = (cls * 2 ^ 26 + op * 2 ^ 18 + d * 2 ^ 12 + a * 2 ^ 6 + b) * 2 ^ (58 + 6)
      + c * 2 ^ 58 + (m * 2 ^ 54 + w * 2 ^ 48 + mod * 2 ^ 32 + imm) by unfold fr; ring, this]; simp
  m l hl := by
    have := fld_part (hi := cls * 2 ^ 32 + op * 2 ^ 24 + d * 2 ^ 18 + a * 2 ^ 12 + b * 2 ^ 6 + c) (x := m)
      (low := w * 2 ^ 48 + mod * 2 ^ 32 + imm) (p := 54) (s := 4) (k := 54) (l := l) (by omega) (by omega) (by omega)
    rw [show fr cls op d a b c m w mod imm = (cls * 2 ^ 32 + op * 2 ^ 24 + d * 2 ^ 18 + a * 2 ^ 12 + b * 2 ^ 6 + c)
      * 2 ^ (54 + 4) + m * 2 ^ 54 + (w * 2 ^ 48 + mod * 2 ^ 32 + imm) by unfold fr; ring, this]; simp
  w l hl := by
    have := fld_part (hi := cls * 2 ^ 36 + op * 2 ^ 28 + d * 2 ^ 22 + a * 2 ^ 16 + b * 2 ^ 10 + c * 2 ^ 4 + m) (x := w)
      (low := mod * 2 ^ 32 + imm) (p := 48) (s := 6) (k := 48) (l := l) (by omega) (by omega) (by omega)
    rw [show fr cls op d a b c m w mod imm = (cls * 2 ^ 36 + op * 2 ^ 28 + d * 2 ^ 22 + a * 2 ^ 16 + b * 2 ^ 10 + c * 2 ^ 4
      + m) * 2 ^ (48 + 6) + w * 2 ^ 48 + (mod * 2 ^ 32 + imm) by unfold fr; ring, this]; simp
  mod k l h h' := by
    rw [← fld_part (hi := cls * 2 ^ 42 + op * 2 ^ 34 + d * 2 ^ 28 + a * 2 ^ 22 + b * 2 ^ 16 + c * 2 ^ 10 + m * 2 ^ 6 + w)
      (low := imm) (p := 32) (s := 16) (k := k) (l := l) h10 h (by omega)]
    unfold fr; ring_nf
  imm k l h := by
    have := fld_part (hi := cls * 2 ^ 58 + op * 2 ^ 50 + d * 2 ^ 44 + a * 2 ^ 38 + b * 2 ^ 32 + c * 2 ^ 26 + m * 2 ^ 22
      + w * 2 ^ 16 + mod) (x := imm) (low := 0) (p := 0) (s := 32) (k := k) (l := l) (by simp) (by simp) (by omega)
    rw [show fr cls op d a b c m w mod imm = (cls * 2 ^ 58 + op * 2 ^ 50 + d * 2 ^ 44 + a * 2 ^ 38 + b * 2 ^ 32 + c * 2 ^ 26
      + m * 2 ^ 22 + w * 2 ^ 16 + mod) * 2 ^ (0 + 32) + imm * 2 ^ 0 + 0 by unfold fr; ring, this]; simp

/-! ### The other formats -/

/-- A field inside the part `x` of a word that is written as such. -/
theorem fld_at {n hi x low p s k l : Nat} (e : n = hi * 2 ^ (p + s) + x * 2 ^ p + low) (hl : low < 2 ^ p) (h1 : p ≤ k)
    (h2 : k + l ≤ p + s) : fld n k l = x / 2 ^ (k - p) % 2 ^ l := by
  rw [e]; exact fld_part hl h1 h2

/-- What the fields of an F-L word read as. -/
structure FlFields (n op d mod12 imm : Nat) : Prop where
  lt : n < 2 ^ 96
  cls : fld n 90 6 = 2
  op : fld n 82 8 = op
  d : ∀ l, l ≤ 6 → fld n 76 l = d % 2 ^ l
  mod : ∀ k l, 64 ≤ k → k + l ≤ 76 → fld n k l = mod12 / 2 ^ (k - 64) % 2 ^ l
  imm : ∀ k l, k + l ≤ 64 → fld n k l = imm / 2 ^ k % 2 ^ l

theorem fl_fields {op d mod12 imm : Nat} (h1 : op < 256) (h2 : d < 64) (h3 : mod12 < 2 ^ 12) (h4 : imm < 2 ^ 64) :
    FlFields (fl op d mod12 imm) op d mod12 imm where
  lt := by unfold fl; omega
  cls := by unfold fl fld; rw [Nat.shiftRight_eq_div_pow]; omega
  op := by unfold fl fld; rw [Nat.shiftRight_eq_div_pow]; omega
  d l hl := by
    rw [fld_at (n := fl op d mod12 imm) (hi := 2 * 256 + op) (x := d) (low := mod12 * 2 ^ 64 + imm) (p := 76) (s := 6)
      (by unfold fl; ring) (by omega) (by omega) (by omega)]; simp
  mod k l h h' := fld_at (hi := 2 * 2 ^ 14 + op * 2 ^ 6 + d) (low := imm) (s := 12) (by unfold fl; ring) (by omega) h (by omega)
  imm k l h := by
    rw [fld_at (n := fl op d mod12 imm) (hi := 2 * 2 ^ 26 + op * 2 ^ 18 + d * 2 ^ 12 + mod12) (x := imm) (low := 0) (p := 0)
      (s := 64) (by unfold fl; ring) (by omega) (by omega) (by omega)]; simp

/-- What the fields of an F-B word read as. -/
structure FbFields (n op a b c e cond imm16 : Nat) (t : Target) : Prop where
  lt : n < 2 ^ 96
  cls : fld n 90 6 = 4
  op : fld n 82 8 = op
  a : ∀ l, l ≤ 6 → fld n 76 l = a % 2 ^ l
  b : ∀ l, l ≤ 6 → fld n 70 l = b % 2 ^ l
  c : ∀ l, l ≤ 6 → fld n 64 l = c % 2 ^ l
  e : ∀ l, l ≤ 6 → fld n 58 l = e % 2 ^ l
  cond : fld n 52 6 = cond
  imm : fld n 36 16 = imm16
  t : fTarget n = t

theorem fb_fields {op a b c e cond imm16 : Nat} (t : Target) (h1 : op < 256) (h2 : a < 64) (h3 : b < 64) (h4 : c < 64)
    (h5 : e < 64) (h6 : cond < 64) (h7 : imm16 < 2 ^ 16) :
    FbFields (fb op a b c e cond imm16 t) op a b c e cond imm16 t := by
  have hd := t.disp.isLt
  have hs := t.slot.isLt
  exact {
    lt := by unfold fb; omega
    cls := by unfold fb fld; rw [Nat.shiftRight_eq_div_pow]; omega
    op := by unfold fb fld; rw [Nat.shiftRight_eq_div_pow]; omega
    a := fun l hl => by
      rw [fld_at (n := fb op a b c e cond imm16 t) (hi := 4 * 256 + op) (x := a) (low := b * 2 ^ 70 + c * 2 ^ 64 + e * 2 ^ 58
        + cond * 2 ^ 52 + imm16 * 2 ^ 36 + t.disp.toNat * 2 ^ 3 + t.slot.toNat) (p := 76) (s := 6)
        (by unfold fb; ring) (by omega) (by omega) (by omega)]; simp
    b := fun l hl => by
      rw [fld_at (n := fb op a b c e cond imm16 t) (hi := 4 * 2 ^ 14 + op * 2 ^ 6 + a) (x := b) (low := c * 2 ^ 64 + e * 2 ^ 58
        + cond * 2 ^ 52 + imm16 * 2 ^ 36 + t.disp.toNat * 2 ^ 3 + t.slot.toNat) (p := 70) (s := 6)
        (by unfold fb; ring) (by omega) (by omega) (by omega)]; simp
    c := fun l hl => by
      rw [fld_at (n := fb op a b c e cond imm16 t) (hi := 4 * 2 ^ 20 + op * 2 ^ 12 + a * 2 ^ 6 + b) (x := c) (low := e * 2 ^ 58
        + cond * 2 ^ 52 + imm16 * 2 ^ 36 + t.disp.toNat * 2 ^ 3 + t.slot.toNat) (p := 64) (s := 6)
        (by unfold fb; ring) (by omega) (by omega) (by omega)]; simp
    e := fun l hl => by
      rw [fld_at (n := fb op a b c e cond imm16 t) (hi := 4 * 2 ^ 26 + op * 2 ^ 18 + a * 2 ^ 12 + b * 2 ^ 6 + c) (x := e)
        (low := cond * 2 ^ 52 + imm16 * 2 ^ 36 + t.disp.toNat * 2 ^ 3 + t.slot.toNat) (p := 58) (s := 6)
        (by unfold fb; ring) (by omega) (by omega) (by omega)]; simp
    cond := by unfold fb fld; rw [Nat.shiftRight_eq_div_pow]; omega
    imm := by unfold fb fld; rw [Nat.shiftRight_eq_div_pow]; omega
    t := by
      have h : ∀ u : Target, u.disp = t.disp → u.slot = t.slot → u = t := by rintro ⟨_, _⟩ rfl rfl; rfl
      refine h _ (BitVec.eq_of_toNat_eq ?_) (BitVec.eq_of_toNat_eq ?_)
      · simp only [fTarget, BitVec.toNat_ofNat]; unfold fb; omega
      · simp only [fTarget, BitVec.toNat_ofNat]; unfold fb; omega }

/-- What the fields of an F-M word read as. -/
structure FmFields (n op d a b s fmt flags high low : Nat) : Prop where
  lt : n < 2 ^ 96
  cls : fld n 90 6 = 0x20
  op : fld n 82 8 = op
  d : ∀ l, l ≤ 6 → fld n 76 l = d % 2 ^ l
  a : ∀ l, l ≤ 6 → fld n 70 l = a % 2 ^ l
  b : ∀ l, l ≤ 6 → fld n 64 l = b % 2 ^ l
  s : ∀ l, l ≤ 6 → fld n 58 l = s % 2 ^ l
  fmt : fld n 54 4 = fmt
  flags : ∀ k l, 51 ≤ k → k + l ≤ 54 → fld n k l = flags / 2 ^ (k - 51) % 2 ^ l
  high : ∀ k l, 24 ≤ k → k + l ≤ 51 → fld n k l = high / 2 ^ (k - 24) % 2 ^ l
  low : ∀ k l, k + l ≤ 24 → fld n k l = low / 2 ^ k % 2 ^ l

theorem fm_fields {op d a b s fmt flags high low : Nat} (h1 : op < 256) (h2 : d < 64) (h3 : a < 64) (h4 : b < 64) (h5 : s < 64)
    (h6 : fmt < 16) (h7 : flags < 8) (h8 : high < 2 ^ 27) (h9 : low < 2 ^ 24) :
    FmFields (fm op d a b s fmt flags high low) op d a b s fmt flags high low where
  lt := by unfold fm; omega
  cls := by unfold fm fld; rw [Nat.shiftRight_eq_div_pow]; omega
  op := by unfold fm fld; rw [Nat.shiftRight_eq_div_pow]; omega
  d l hl := by
    rw [fld_at (n := fm op d a b s fmt flags high low) (hi := 0x20 * 256 + op) (x := d) (low := a * 2 ^ 70 + b * 2 ^ 64 + s * 2 ^ 58
      + fmt * 2 ^ 54 + flags * 2 ^ 51 + high * 2 ^ 24 + low) (p := 76) (s := 6)
      (by unfold fm; ring) (by omega) (by omega) (by omega)]; simp
  a l hl := by
    rw [fld_at (n := fm op d a b s fmt flags high low) (hi := 0x20 * 2 ^ 14 + op * 2 ^ 6 + d) (x := a) (low := b * 2 ^ 64
      + s * 2 ^ 58 + fmt * 2 ^ 54 + flags * 2 ^ 51 + high * 2 ^ 24 + low) (p := 70) (s := 6)
      (by unfold fm; ring) (by omega) (by omega) (by omega)]; simp
  b l hl := by
    rw [fld_at (n := fm op d a b s fmt flags high low) (hi := 0x20 * 2 ^ 20 + op * 2 ^ 12 + d * 2 ^ 6 + a) (x := b)
      (low := s * 2 ^ 58 + fmt * 2 ^ 54 + flags * 2 ^ 51 + high * 2 ^ 24 + low) (p := 64) (s := 6)
      (by unfold fm; ring) (by omega) (by omega) (by omega)]; simp
  s l hl := by
    rw [fld_at (n := fm op d a b s fmt flags high low) (hi := 0x20 * 2 ^ 26 + op * 2 ^ 18 + d * 2 ^ 12 + a * 2 ^ 6 + b) (x := s)
      (low := fmt * 2 ^ 54 + flags * 2 ^ 51 + high * 2 ^ 24 + low) (p := 58) (s := 6)
      (by unfold fm; ring) (by omega) (by omega) (by omega)]; simp
  fmt := by unfold fm fld; rw [Nat.shiftRight_eq_div_pow]; omega
  flags k l h h' := fld_at (hi := 0x20 * 2 ^ 36 + op * 2 ^ 28 + d * 2 ^ 22 + a * 2 ^ 16 + b * 2 ^ 10 + s * 2 ^ 4 + fmt)
    (low := high * 2 ^ 24 + low) (s := 3) (by unfold fm; ring) (by omega) h (by omega)
  high k l h h' := fld_at (hi := 0x20 * 2 ^ 39 + op * 2 ^ 31 + d * 2 ^ 25 + a * 2 ^ 19 + b * 2 ^ 13 + s * 2 ^ 7 + fmt * 2 ^ 3
    + flags) (low := low) (s := 27) (by unfold fm; ring) (by omega) h (by omega)
  low k l h := by
    rw [fld_at (n := fm op d a b s fmt flags high low) (hi := 0x20 * 2 ^ 66 + op * 2 ^ 58 + d * 2 ^ 52 + a * 2 ^ 46 + b * 2 ^ 40
      + s * 2 ^ 34 + fmt * 2 ^ 30 + flags * 2 ^ 27 + high) (x := low) (low := 0) (p := 0) (s := 24)
      (by unfold fm; ring) (by omega) (by omega) (by omega)]; simp

/-! ### Reading a field back -/

theorem fin_lt {n k : Nat} (r : Fin n) (h : n ≤ k) : r.val < k := Nat.lt_of_lt_of_le r.isLt h

theorem fin_back {n l : Nat} [NeZero n] (hn : n = 2 ^ l) (r : Fin n) {v : Nat} (h : v = r.val % 2 ^ l) : Fin.ofNat n v = r := by
  subst hn h
  apply Fin.ext
  simp only [Fin.ofNat, Nat.mod_mod]
  exact Nat.mod_eq_of_lt r.isLt

theorem S_of {n lo : Nat} {r : SReg} (h : fld n lo 5 = r.val % 2 ^ 5) : fS n lo = r := fin_back (by decide) r h
theorem V_of {n lo : Nat} {r : VName} (h : fld n lo 5 = r.val % 2 ^ 5) : fV n lo = r := fin_back (by decide) r h
theorem M_of {n lo : Nat} {r : MName} (h : fld n lo 4 = r.val % 2 ^ 4) : fM n lo = r := fin_back (by decide) r h
theorem C_of {n lo : Nat} {r : CName} (h : fld n lo 4 = r.val % 2 ^ 4) : fC n lo = r := fin_back (by decide) r h
theorem A_of {n lo : Nat} {r : AName} (h : fld n lo 3 = r.val % 2 ^ 3) : fA n lo = r := fin_back (by decide) r h
theorem K_of {n lo : Nat} {r : KName} (h : fld n lo 3 = r.val % 2 ^ 3) : fK n lo = r := fin_back (by decide) r h
theorem Q_of {n lo : Nat} {r : QName} (h : fld n lo 3 = r.val % 2 ^ 3) : fQ n lo = r := fin_back (by decide) r h
theorem Sq_of {n lo : Nat} {r : SqName} (h : fld n lo 1 = r.val % 2 ^ 1) : fSq n lo = r := fin_back (by decide) r h

theorem flag_of {n i : Nat} {b : Bool} (h : fld n i 1 = n1 b) : flag n i = b := by
  unfold flag; rw [h]; cases b <;> rfl

theorem bv_of {n lo k : Nat} (i : BitVec k) (h : fld n lo k = i.toNat) : BitVec.ofNat k (n >>> lo) = i := by
  apply BitVec.eq_of_toNat_eq; rw [BitVec.toNat_ofNat]; exact h

theorem imm_of {n : Nat} (i : BitVec 32) (h : fld n 0 32 = i.toNat) : fImm n = i := by
  apply BitVec.eq_of_toNat_eq; rw [fImm, BitVec.toNat_ofNat]; exact h

theorem bv_of0 {n k : Nat} (i : BitVec k) (h : fld n 0 k = i.toNat) : BitVec.ofNat k n = i := by
  apply BitVec.eq_of_toNat_eq; rw [BitVec.toNat_ofNat]; exact h

/-! ### Codes -/

theorem typeOf_code (t : EType) : typeOf (typeCode t) = some t := by cases t <;> rfl
theorem widthOf_code (k : IntWidth) : widthOf (widthCode k) = some k := by cases k <;> rfl
theorem condOf_code (c : Cond) : condOf (condCode c) = some c := by cases c <;> rfl
theorem scopeOf_code (c : Scope) : scopeOf (scopeCode c) = some c := by cases c <;> rfl
theorem testOf_code (c : MaskTest) : testOf (testCode c) = some c := by cases c <;> rfl
theorem fcmpOf_code (c : FCmp) : fcmpOf (fcmpCode c) = c := by cases c <;> rfl
theorem fsgnOf_code (c : FSgn) : fsgnOf (fsgnCode c) = some c := by cases c <;> rfl
theorem amoOf_code (c : AmoOp) : amoOf (amoCode c) = some c := by cases c <;> rfl
theorem pluralOf_code (c : PluralOp) : pluralOf (pluralCode c) = some c := by cases c <;> rfl
theorem redOf_code (c : RedOp) : redOf (redCode c) = some c := by cases c <;> rfl
theorem fredOf_code (c : FRedOp) : fredOf (fredCode c) = some c := by cases c <;> rfl
theorem stageOf_code (c : StageOp) : stageOf (stageCode c) = some c := by cases c <;> rfl
theorem mmaOf_code (c : MmaFmt) : mmaOf (mmaCode c) = some c := by cases c <;> rfl
theorem ixOf_code (c : IxWidth) : ixOf (ixCode c) = c := by cases c <;> rfl

theorem typeCode_lt (t : EType) : typeCode t < 32 := by cases t <;> decide
theorem widthCode_lt (t : IntWidth) : widthCode t < 8 := by cases t <;> decide
theorem condCode_lt (t : Cond) : condCode t < 8 := by cases t <;> decide
theorem scopeCode_lt (t : Scope) : scopeCode t < 8 := by cases t <;> decide
theorem testCode_lt (t : MaskTest) : testCode t < 4 := by cases t <;> decide
theorem fcmpCode_lt (t : FCmp) : fcmpCode t < 4 := by cases t <;> decide
theorem fsgnCode_lt (t : FSgn) : fsgnCode t < 4 := by cases t <;> decide
theorem amoCode_lt (t : AmoOp) : amoCode t < 16 := by cases t <;> decide
theorem pluralCode_lt (t : PluralOp) : pluralCode t < 16 := by cases t <;> decide
theorem redCode_lt (t : RedOp) : redCode t < 8 := by cases t <;> decide
theorem fredCode_lt (t : FRedOp) : fredCode t < 4 := by cases t <;> decide
theorem stageCode_lt (t : StageOp) : stageCode t < 32 := by cases t <;> decide
theorem mmaCode_lt (t : MmaFmt) : mmaCode t < 8 := by cases t <;> decide
theorem ixCode_lt (t : IxWidth) : ixCode t < 4 := by cases t <;> decide
theorem n1_lt (b : Bool) : n1 b < 2 := by cases b <;> decide

theorem Type_of {n : Nat} {t : EType} (h : fld n 48 6 = typeCode t % 2 ^ 6) : fType n = some t := by
  unfold fType; rw [h, Nat.mod_eq_of_lt (by have := typeCode_lt t; omega), typeOf_code]

theorem W_of {n : Nat} {k : IntWidth} (h : fld n 48 6 = widthCode k % 2 ^ 6) : widthOf (fld n 48 6) = some k := by
  rw [h, Nat.mod_eq_of_lt (by have := widthCode_lt k; omega), widthOf_code]

/-! ### Operand B -/

theorem srcB_lt (b : Src) : srcB b < 64 := by
  cases b with
  | reg r => exact fin_lt r (by decide)
  | imm i => simp [srcB]
theorem srcI_or (b : Src) : srcI b = 0 ∨ srcI b = 32768 := by cases b <;> simp [srcI]
theorem siMod_or (b : Src) : siMod b = 16384 ∨ siMod b = 32768 := by cases b <;> simp [siMod]
theorem srcImm_lt (b : Src) : srcImm b < 2 ^ 32 := by
  cases b with
  | reg r => simp [srcImm]
  | imm i => exact i.isLt
theorem vsrcB_lt (b : VSrc) : vsrcB b < 64 := by
  cases b with
  | vec r => exact fin_lt r (by decide)
  | scalar r => exact fin_lt r (by decide)
  | imm i => simp [vsrcB]
theorem vsrcMod_or (b : VSrc) : vsrcMod b = 0 ∨ vsrcMod b = 16384 ∨ vsrcMod b = 32768 := by cases b <;> simp [vsrcMod]
theorem vsrcImm_lt (b : VSrc) : vsrcImm b < 2 ^ 32 := by
  cases b with
  | imm i => exact i.isLt
  | _ => simp [vsrcImm]

/-- The bit I of a scalar operand B. -/
def srcImmBit : Src → Nat
  | .reg _ => 0
  | .imm _ => 1

theorem src_of {n lo : Nat} {b : Src} (hr : fld n lo 5 = srcB b % 2 ^ 5) (hf : fld n 47 1 = srcImmBit b)
    (hi : fld n 0 32 = srcImm b) : fSrcAt n lo = b := by
  cases b with
  | reg r => simp only [fSrcAt, flag, hf, srcImmBit]; exact congrArg Src.reg (S_of hr)
  | imm i => simp only [fSrcAt, flag, hf, srcImmBit]; exact congrArg Src.imm (bv_of0 i hi)

theorem srcI_bit (b : Src) : srcI b = 32768 * srcImmBit b := by cases b <;> rfl
theorem siMod_bit (b : Src) : siMod b = 16384 + 16384 * srcImmBit b := by cases b <;> rfl
theorem srcImmBit_lt (b : Src) : srcImmBit b < 2 := by cases b <;> simp [srcImmBit]

theorem vsrc_of {n : Nat} {b : VSrc} (hr : fld n 64 5 = vsrcB b % 2 ^ 5) (hf : fld n 47 1 = vsrcMod b / 32768)
    (hs : fld n 46 1 = vsrcMod b / 16384 % 2) (hi : fld n 0 32 = vsrcImm b) : fVSrc n = b := by
  cases b with
  | vec r => simp only [fVSrc, flag, hf, hs, vsrcMod]; exact congrArg VSrc.vec (V_of hr)
  | scalar r => simp only [fVSrc, flag, hf, hs, vsrcMod]; exact congrArg VSrc.scalar (S_of hr)
  | imm i => simp only [fVSrc, flag, hf, vsrcMod]; exact congrArg VSrc.imm (bv_of0 i hi)

/-! ### The round trip of a word -/

/-- What the round trip of an instruction says. -/
def Laws.RoundTrip.Holds (i : Instr) : Prop :=
  ∃ (w : IWord) (ws : List IWord), encode i = w :: ws ∧ ((∀ x, i ≠ .vchain x) → ws = []) ∧ decode w (ws.headD 0) = i

/-- Is it the instruction of two slots? -/
def Laws.RoundTrip.two : Instr → Bool
  | .vchain _ => true
  | _ => false

/-- A word of one slot decodes to its instruction when its fields spell it. -/
theorem roundTrip {i : Instr} {n : Nat} (he : encodeWord i = some n) (hn : n < 2 ^ 96) (hx : extract n 0 = some i)
    (hc : Laws.RoundTrip.two i = false) (hw : i.wf = true) : Laws.RoundTrip.Holds i := by
  have e : encode i = [BitVec.ofNat 96 n] := by
    unfold encode; rw [he]; split
    · simp [Laws.RoundTrip.two] at hc
    · simp_all
    · simp_all
  have hcont : contOk i 0 = true := by
    unfold contOk; split
    · simp [Laws.RoundTrip.two] at hc
    · rfl
  refine ⟨_, _, e, fun _ => rfl, ?_⟩
  have hn' : (BitVec.ofNat 96 n).toNat = n := by rw [BitVec.toNat_ofNat]; exact Nat.mod_eq_of_lt hn
  have h0 : (0 : IWord).toNat = 0 := rfl
  simp only [decode, List.headD_nil, hn', h0, hx, he, hw, hcont, beq_self_eq_true, Bool.and_self, if_true]

end Sys2Proof
end

