-- ==== Sys2Proof/Laws/Mapped.lean ====
section
/-! SUPPORT. Accesses to pages whose translation is at hand: through a TLB entry, or through page tables that memory holds. -/

namespace Sys2Proof.Machine

theorem ebind_ok {ε α β : Type} {op : EStateM ε State α} {f : α → EStateM ε State β} {s t : State} {a : α}
    (h : op s = .ok a t) : (op >>= f) s = f a t := by
  simp [bind, EStateM.bind, h]

theorem eget_run {ε : Type} (s : State) : (get : EStateM ε State State) s = .ok s s := rfl

/-- A translation whose leaf is found. -/
theorem translate_leaf {s t : State} {core : Option Nat} {ctx : Context} {view : Mode} {fam : Fam} {acc : Acc} {va : Word}
    {leaf : Nat} {l : Loc} (hv : va.toNat < 2 ^ 48) (hl : leafFor core ctx acc va.toNat s = .ok leaf t)
    (hu : underLeaf core view fam acc va.toNat leaf t = .ok l) : translate core ctx view fam acc va s = .ok l t := by
  have b : field va.toNat 48 14 = 0 := by simp [field]; omega
  unfold translate
  rw [if_neg (by simp [b])]
  show (match leafFor core ctx acc va.toNat s with
    | .error c s' => (do set s'; throw (c, c == acc.fault) : EStateM (BitVec 8 × Bool) State Loc)
    | .ok leaf s' => do
      set s'
      match underLeaf core view fam acc va.toNat leaf s' with
      | .error e => throw e
      | .ok l => pure l) s = .ok l t
  rw [hl]
  show (match underLeaf core view fam acc va.toNat leaf t with
      | .error e => (throw e : EStateM (BitVec 8 × Bool) State Loc)
      | .ok l => pure l) t = .ok l t
  rw [hu]
  rfl

/-- A translation that a core's TLB holds (R304). -/
theorem leafFor_hit {s : State} {c : Nat} {ctx : Context} {acc : Acc} {va : Nat} {e : TlbEntry}
    (h : tlbHit (s.coreOf c).tlb ctx.asid va = some e) : leafFor (some c) ctx acc va s = .ok e.leaf.toNat s := by
  show (match tlbHit (s.coreOf c).tlb ctx.asid va with
    | some e => pure e.leaf.toNat
    | none => do
      let leaf ← walkFrom acc.fault va 4 (ctx.ptbase.toNat / 4096 * 4096)
      let e : TlbEntry := ⟨ctx.asid, va / 2 ^ leafBits leaf * 2 ^ leafBits leaf, BitVec.ofNat 64 leaf⟩
      modify fun s => s.setCoreOf c { s.coreOf c with tlb := (e :: (s.coreOf c).tlb).take 1024 }
      pure leaf : EStateM (BitVec 8) State Nat) s = _
  rw [h]
  rfl

/-- A translation without a TLB is a walk. -/
theorem leafFor_walk (s : State) (ctx : Context) (acc : Acc) (va : Nat) :
    leafFor none ctx acc va s = walkFrom acc.fault va 4 (ctx.ptbase.toNat / 4096 * 4096) s := by
  unfold leafFor
  rw [ebind_ok (eget_run s)]

/-- A hart's access to an address that a TLB entry covers leaves the state as it is (R304). -/
theorem locate_hit {s : State} {fam : Fam} {acc : Acc} {va : Word} {n : Nat} {e : TlbEntry} {l : Loc} (h1 : va.toNat % n = 0)
    (h2 : va.toNat < 2 ^ 48) (h3 : tlbHit (s.coreOf s.coreId).tlb s.ctx.asid va.toNat = some e)
    (h4 : underLeaf (some s.coreId) s.hart.mode fam acc va.toNat e.leaf.toNat s = .ok l) :
    locate fam acc va n none none s = .ok (.local_ l) s := by
  have a : field va.toNat 62 2 = 0 := by simp [field]; omega
  have ht := translate_leaf (view := s.hart.mode) h2 (leafFor_hit h3) h4
  unfold locate
  rw [bind_ok (get_run s)]
  simp only [h1, ne_eq, not_true_eq_false, if_false, a, ht]
  rfl

/-- An engine's access whose walk ends at a leaf (R301, R404). -/
theorem engPlace_walk {s t : State} {n : Nat} {view : Mode} {fam : Fam} {acc : Acc} {va : Word} {leaf : Nat} {l : Loc}
    (h2 : va.toNat < 2 ^ 48)
    (h3 : walkFrom acc.fault va.toNat 4 ((s.ctxOf n).ptbase.toNat / 4096 * 4096) s = .ok leaf t)
    (h4 : underLeaf none view fam acc va.toNat leaf t = .ok l) :
    engPlace none n view fam acc va s = .ok l t := by
  have a : field va.toNat 62 2 = 0 := by simp [field]; omega
  have hl : leafFor none (s.ctxOf n) acc va.toNat s = .ok leaf t := (leafFor_walk _ _ _ _).trans h3
  have ht := translate_leaf (view := view) h2 hl h4
  unfold engPlace
  rw [if_neg (by simp [a]), ht]

/-- A read of an engine at an ordinary word. -/
theorem engRead_vault {s : State} {core : Option Nat} {n : Nat} {view : Mode} {fam : Fam} {va : Word} {k : Nat} {l : Loc}
    (h : engPlace core n view fam .load va s = .ok l s) (hh : l.host = false) (hv : isVault l.key = true)
    (hd : dataError s l.key = none) : engRead core n view fam va k s = .ok (memReadN s.mem l.key k) s := by
  simp [engRead, h, hh, vault_not_depot hv, hd, bind, EStateM.bind, get, getThe, MonadStateOf.get, EStateM.get, pure, EStateM.pure]

/-- A write of an engine at an ordinary word. -/
theorem engWrite_vault {s : State} {core : Option Nat} {n : Nat} {view : Mode} {fam : Fam} {va : Word} {k v : Nat} {l : Loc}
    (h : engPlace core n view fam .store va s = .ok l s) (hh : l.host = false)
    (hf : (s.coreOf (l.key / 2 ^ 30)).fenced = false) : engWrite core n view fam va k v s = .ok () (pokeN l.key k v s) := by
  have hf' : (s.coreOf (l.key / 1073741824)).fenced = false := hf
  simp [engWrite, h, hh, hf', bind, EStateM.bind, get, getThe, MonadStateOf.get, EStateM.get, set, EStateM.set]

/-- Without a staging share, no vault offset lies in it. -/
theorem inShare_zero {off : Nat} (h : off < 2 ^ 30) : inShare 0 off = false := by
  have e : off >>> 10 = off / 1024 := Nat.shiftRight_eq_div_pow _ _
  simp only [inShare, stagingBytes, stripedOff, e, decide_eq_false_iff_not]
  omega

/-- Page tables at 0x80000 that map the first 1 GiB to itself with every permission, in a vault without errors. -/
structure Flat (s : State) : Prop where
  clean : s.poison = []
  up : (s.coreOf 0).fenced = false
  share : s.staging.pct = 0
  root : pteWord s 0x80000 = 0x81001
  leaf : pteWord s 0x81000 = 0x63F
  others : ∀ j, 1 ≤ j → j < 16 → pteWord s (0x81000 + 8 * j) = 0

theorem Flat.walk {s : State} (h : Flat s) (cause : BitVec 8) {va : Nat} (hv : va < 2 ^ 30) :
    walkFrom cause va 4 0x80000 s = .ok 0x63F s := by
  have i3 : field va 39 9 = 0 := by simp [field]; omega
  have i2 : field va 30 9 = 0 := by simp [field]; omega
  have o := h.others
  have p3 : pickEntry 0x80000 0 3 s = .ok 0 s := by
    unfold pickEntry; rw [ebind_ok (eget_run s)]; rfl
  have hz : (List.range (fills 7)).map (fun j => 0 / fills 7 * fills 7 + j) = List.range 16 := by decide
  have hn : ((List.range 16).any fun i => bit (pteWord s (0x81000 + 8 * i)) 0 && bit (pteWord s (0x81000 + 8 * i)) 1
      && field (pteWord s (0x81000 + 8 * i)) 8 3 == 7) = false := by
    rw [List.any_eq_false]
    intro i hi
    rcases i with _ | i
    · rw [Nat.mul_zero, Nat.add_zero, h.leaf]; decide
    · rw [o (i + 1) (by omega) (by simpa using hi)]; decide
  have p2 : pickEntry 0x81000 0 2 s = .ok 0 s := by
    unfold pickEntry
    rw [ebind_ok (eget_run s)]
    simp only [List.foldl_cons, List.foldl_nil, hz, hn, Bool.and_false, Bool.false_eq_true, if_false, sizeAt, Bool.false_and,
      show ((1 : Nat) == 6 || (1 : Nat) == 7) = false from rfl, show ((2 : Nat) == 6 || (2 : Nat) == 7) = false from rfl,
      show ((3 : Nat) == 6 || (3 : Nat) == 7) = false from rfl, show ((5 : Nat) == 6 || (5 : Nat) == 7) = false from rfl]
    rfl
  have e3 : entryOk 3 0x81001 = true := by decide
  have e2 : entryOk 2 0x63F = true := by decide
  have b3 : bit 0x81001 1 = false := by decide
  have b2 : bit 0x63F 1 = true := by decide
  have f3 : field 0x81001 12 50 * 4096 = 0x81000 := by decide
  simp [walkFrom, i3, i2, p3, p2, h.root, h.leaf, e3, e2, b3, b2, f3, h.clean, h.up, bind, EStateM.bind, get, getThe,
    MonadStateOf.get, EStateM.get, pure, EStateM.pure]

/-- Under such tables an engine's access to an ordinary word finds it at its own address. -/
theorem Flat.place {s : State} (h : Flat s) {n : Nat} (hp : (s.ctxOf n).ptbase = 0x80000) (view : Mode) {fam : Fam} {acc : Acc}
    (hr : reach fam acc .otherVault = true) {va : Word} (hv : va.toNat < 2 ^ 30) :
    engPlace none n view fam acc va s = .ok ⟨va.toNat, false, false, false⟩ s := by
  have hd : isDepot va.toNat = false := by simp [isDepot]; omega
  have hl : leafLoc 0x63F va.toNat = ⟨va.toNat, false, false, false⟩ := by
    have b : leafBits 0x63F = 30 := by decide
    have e : va.toNat % 2 ^ 30 = va.toNat := Nat.mod_eq_of_lt hv
    have e' : va.toNat % 1073741824 = va.toNat := e
    have q : va.toNat / 1073741824 = 0 := by omega
    simp [leafLoc, b, e', q, field, bit, vaultKey]
  have ha : leafAllows 0x63F acc view = true := by cases acc <;> cases view <;> decide
  have b : leafAllows 0x63F acc view = true := ha
  refine engPlace_walk (leaf := 0x63F) (by omega) ?_ ?_
  · rw [hp]; exact h.walk _ hv
  · have hs : inShare s.staging.pct (va.toNat % 1073741824) = false := by
      rw [h.share]; exact inShare_zero (Nat.mod_lt _ (by decide))
    simp [underLeaf, hl, ha, kindOf, hd, hr, hs]

theorem Flat.readAt {s : State} (h : Flat s) {n : Nat} (hp : (s.ctxOf n).ptbase = 0x80000) (view : Mode) {fam : Fam}
    (hr : reach fam .load .otherVault = true) {va : Word} (hv : va.toNat < 2 ^ 30) (k : Nat) :
    engRead none n view fam va k s = .ok (memReadN s.mem va.toNat k) s := by
  have hk : isVault va.toNat = true := by simp [isVault]; omega
  refine engRead_vault (l := ⟨va.toNat, false, false, false⟩) (h.place hp view hr hv) rfl hk ?_
  have q : va.toNat / 1073741824 = 0 := by omega
  simp [dataError, q, h.up, h.clean]

theorem Flat.writeAt {s : State} (h : Flat s) {n : Nat} (hp : (s.ctxOf n).ptbase = 0x80000) (view : Mode) {fam : Fam}
    (hr : reach fam .store .otherVault = true) {va : Word} (hv : va.toNat < 2 ^ 30) (k v : Nat) :
    engWrite none n view fam va k v s = .ok () (pokeN va.toNat k v s) := by
  refine engWrite_vault (l := ⟨va.toNat, false, false, false⟩) (h.place hp view hr hv) rfl ?_
  have q : va.toNat / 2 ^ 30 = 0 := by omega
  show (s.coreOf (va.toNat / 2 ^ 30)).fenced = false
  rw [q]; exact h.up

theorem filter_minsert {α : Type} (f : Nat × α → Bool) (m : List (Nat × α)) (k : Nat) (v : α) (h : f (k, v) = false) :
    (minsert m k v).filter f = m.filter f := by
  induction m with
  | nil => simp [minsert, h]
  | cons p t ih =>
    simp only [minsert]
    split <;> simp_all [List.filter_cons]

theorem filter_merase {α : Type} (f : Nat × α → Bool) (m : List (Nat × α)) (k : Nat) (h : ∀ p : Nat × α, p.1 = k → f p = false) :
    (merase m k).filter f = m.filter f := by
  induction m with
  | nil => rfl
  | cons p t ih =>
    by_cases e : p.1 = k
    · simp [merase, e, h p e] at ih ⊢; exact ih
    · simp [merase, List.filter_cons, e] at ih ⊢; rw [ih]

/-- The bytes that a value is made of. -/
def inSpan (k n : Nat) (p : Host.Cell) : Bool := decide (k ≤ p.1) && decide (p.1 < k + n)

theorem memReadN_eq (m : List Host.Cell) (k n : Nat) :
    memReadN m k n = (m.filter (inSpan k n)).foldl (fun acc p => acc + p.2.toNat <<< (8 * (p.1 - k))) 0 := by
  simp [memReadN, List.foldl_filter, inSpan]

/-- A value read from memory is as it was when bytes outside it are written. -/
theorem memReadN_memWriteBytes_out (bs : List Byte) (k n a : Nat) :
    ∀ (m : List Host.Cell), (a + bs.length ≤ k ∨ k + n ≤ a) → memReadN (memWriteBytes m a bs) k n = memReadN m k n := by
  induction bs generalizing a with
  | nil => intro m _; rfl
  | cons b t ih =>
    intro m h
    have hb : ∀ p : Host.Cell, p.1 = a → inSpan k n p = false := by
      intro p hp; simp [inSpan, hp] at h ⊢; omega
    have e : memReadN (memWrite m a b) k n = memReadN m k n := by
      rw [memReadN_eq, memReadN_eq]
      simp only [memWrite]
      split
      · rw [filter_merase _ _ _ hb]
      · simp only [mset]
        rw [filter_minsert _ _ _ _ (hb _ rfl), filter_merase _ _ _ hb]
    rw [memWriteBytes, ih (a + 1) _ (by simp at h ⊢; omega), e]

/-- Writes above the tables leave them as they are. -/
theorem Flat.poke {s : State} (h : Flat s) {k n : Nat} (v : Nat) (hk : 0x81080 ≤ k) : Flat (pokeN k n v s) := by
  have hm : (pokeN k n v s).mem = memWriteBytes s.mem k (toBytes n v) := by simp [pokeN, pokeBytes_mem]
  have hp : (pokeN k n v s).poison = [] := by
    simp only [pokeN, pokeBytes, h.clean, wakeMonitors, if_true]; split <;> rfl
  have hc : (pokeN k n v s).cores = s.cores := by
    simp only [pokeN, pokeBytes, wakeMonitors]; split <;> split <;> rfl
  have hg : (pokeN k n v s).staging = s.staging := by
    simp only [pokeN, pokeBytes, wakeMonitors]; split <;> split <;> rfl
  have r : ∀ a, a + 8 ≤ 0x81080 → pteWord (pokeN k n v s) a = pteWord s a := by
    intro a ha
    simp only [pteWord, hm]
    exact memReadN_memWriteBytes_out _ _ _ _ _ (by omega)
  refine ⟨hp, ?_, by rw [hg, h.share], ?_, ?_, ?_⟩
  · simpa [State.coreOf, hc] using h.up
  · rw [r _ (by decide), h.root]
  · rw [r _ (by decide), h.leaf]
  · intro j h1 h2; rw [r _ (by omega), h.others j h1 h2]

theorem pokeN_ctxOf (k n v : Nat) (s : State) (c : Nat) : (pokeN k n v s).ctxOf c = s.ctxOf c := by
  simp only [pokeN, pokeBytes, wakeMonitors, State.ctxOf]; split <;> split <;> rfl

/-- The first of a list of operations runs, then the others. -/
theorem forM_cons_run {α ε : Type} {f : α → EStateM ε State PUnit} {a : α} {s t : State} (l : List α) (h : f a s = .ok () t) :
    ((a :: l).forM f) s = (l.forM f) t := by
  show EStateM.bind (f a) (fun _ => l.forM f) s = _
  simp only [EStateM.bind, h]

/-- Writes of an engine to addresses above the tables all complete. -/
theorem Flat.writes {α : Type} {n : Nat} {view : Mode} {fam : Fam} (hr : reach fam .store .otherVault = true) (va : α → Word)
    (v : α → Nat) (k : α → Nat) (l : List α) (hl : ∀ a ∈ l, 0x81080 ≤ (va a).toNat ∧ (va a).toNat < 2 ^ 30) :
    ∀ s : State, Flat s → (s.ctxOf n).ptbase = 0x80000 →
      ∃ t, (l.forM fun a => engWrite none n view fam (va a) (k a) (v a) : EngM PUnit) s = .ok () t ∧ Flat t
        ∧ (t.ctxOf n).ptbase = 0x80000 := by
  induction l with
  | nil => intro s h hp; exact ⟨s, rfl, h, hp⟩
  | cons a l ih =>
    intro s h hp
    obtain ⟨h1, h2⟩ := hl a (by simp)
    obtain ⟨t, ht, hf, hc⟩ := ih (fun b hb => hl b (by simp [hb])) (pokeN (va a).toNat (k a) (v a) s) (h.poke (v a) h1)
      (by rw [pokeN_ctxOf]; exact hp)
    refine ⟨t, ?_, hf, hc⟩
    rw [forM_cons_run l (h.writeAt hp view hr h2 (k a) (v a))]
    exact ht

/-- The same of a save area. -/
theorem Flat.saves {α : Type} {n : Nat} (va : α → Word) (v : α → Nat) (l : List α)
    (hl : ∀ a ∈ l, 0x81080 ≤ (va a).toNat ∧ (va a).toNat < 2 ^ 30) (s : State) (h : Flat s) (hp : (s.ctxOf n).ptbase = 0x80000) :
    ∃ t, (l.forM fun a => saveWrite n (va a) (v a) : EngM PUnit) s = .ok () t ∧ Flat t ∧ (t.ctxOf n).ptbase = 0x80000 := by
  simp only [saveWrite]
  exact Flat.writes (view := .supervisor) (fam := .device) rfl va v (fun _ => 8) l hl s h hp

/-- Reads of an engine all complete, and leave the state as it is. -/
theorem Flat.reads {n : Nat} {view : Mode} {fam : Fam} (hr : reach fam .load .otherVault = true) {s : State} (h : Flat s)
    (hp : (s.ctxOf n).ptbase = 0x80000) (va : Nat → Word) (k : Nat) (l : List Nat) (hl : ∀ a ∈ l, (va a).toNat < 2 ^ 30) :
    (l.mapM fun a => engRead none n view fam (va a) k : EngM (List Nat)) s =
      .ok (l.map fun a => memReadN s.mem (va a).toNat k) s := by
  induction l with
  | nil => rfl
  | cons a l ih =>
    have r := h.readAt hp view hr (hl a (by simp)) k
    have i := ih fun b hb => hl b (by simp [hb])
    simp only [List.mapM_cons, bind, EStateM.bind, r, i, List.map_cons, pure, EStateM.pure]


/-! ### Records of harts and convoys (R248, R251) -/

theorem wordsAt_lt {off : Nat} {ws : List Word} {p : Nat × Nat} (h : p ∈ wordsAt off ws) : p.1 < off + 8 * ws.length := by
  simp only [wordsAt, List.mem_map] at h
  obtain ⟨q, hq, rfl⟩ := h
  have := List.of_mem_zip hq
  have := List.mem_range.mp this.1
  show off + 8 * q.1 < _
  omega

theorem numWords_lt {off n v : Nat} {p : Nat × Nat} (h : p ∈ numWords off n v) : p.1 < off + 8 * n := by
  simp only [numWords, List.mem_map] at h
  obtain ⟨q, hq, rfl⟩ := h
  have := List.mem_range.mp hq
  show off + 8 * q < _
  omega

/-- The convoy part of a record stays within its first 64 KiB when no queue holds more than its 16 entries. -/
theorem convoyWords_lt {s : State} {u : Nat} (hq : ∀ i : Fin 8, (s.convoyOf u).q[i].length ≤ 16) {p : Nat × Nat}
    (h : p ∈ convoyWords s u) : p.1 < 0x10000 := by
  simp only [convoyWords, List.mem_append, List.mem_cons, List.mem_flatMap, List.not_mem_nil, or_false] at h
  rcases h with ((((((((h | h) | ⟨i, -, h⟩) | ⟨i, -, h⟩) | h) | h) | ⟨n, hn, h⟩) | h) | h)
  · rcases h with h | h | h <;> rw [h] <;> simp
  · have := wordsAt_lt h; simp at this; omega
  · have := i.isLt; have := wordsAt_lt h; simp only [List.length_cons, List.length_nil] at this; omega
  · have := wordsAt_lt h; have := hq i; have := i.isLt; omega
  · rw [h]; exact (by decide : (0x500 : Nat) < 0x10000)
  · have := wordsAt_lt h; simp at this; omega
  · obtain ⟨q, hq', rfl⟩ := List.mem_map.mp h
    have h2 := List.mem_range.mp (List.of_mem_zip hq').1
    have h3 := List.mem_range.mp hn
    show 0x1000 + 32 * n + 8 * q.1 < _
    omega
  · have := numWords_lt h; omega
  · have := numWords_lt h; omega

theorem suspendFills_convoyOf (u core v : Nat) (s : State) : (suspendFills u core s).convoyOf v = s.convoyOf v := rfl
theorem suspendFills_ctxOf (u core v : Nat) (s : State) : (suspendFills u core s).ctxOf v = s.ctxOf v := rfl

theorem Flat.suspendFills {s : State} (h : Flat s) (u core : Nat) : Flat (suspendFills u core s) := by
  refine ⟨h.clean, ?_, h.share, h.root, h.leaf, h.others⟩
  have := h.up
  by_cases e : core = 0
  · subst e; simpa [Machine.suspendFills] using this
  · simpa [Machine.suspendFills, State.coreOf, State.setCoreOf, mget_mset, e, Ne.symm e] using this

/-- Lists of fields are written one after another. -/
theorem Flat.savesAll {β : Type} {n : Nat} (words : β → List (Nat × Nat × Nat)) (va : β → Nat × Nat × Nat → Word) (hs : List β)
    (hw : ∀ g ∈ hs, ∀ p ∈ words g, 0x81080 ≤ (va g p).toNat ∧ (va g p).toNat < 2 ^ 30) :
    ∀ s : State, Flat s → (s.ctxOf n).ptbase = 0x80000 →
      ∃ t, (hs.forM fun g => (words g).forM fun p => engWrite none n .supervisor .device (va g p) p.2.1 p.2.2 : EngM PUnit) s
        = .ok () t := by
  induction hs with
  | nil => intro s _ _; exact ⟨s, rfl⟩
  | cons g l ih =>
    intro s hf hp
    obtain ⟨v, hv, hfv, hpv⟩ := Flat.writes (n := n) (view := .supervisor) (fam := .device) rfl (va g) (fun p => p.2.2)
      (fun p => p.2.1) (words g) (hw g (by simp)) s hf hp
    obtain ⟨t, ht⟩ := ih (fun x hx => hw x (by simp [hx])) v hfv hpv
    exact ⟨t, by rw [forM_cons_run l hv]; exact ht⟩

theorem saveImage_run {ctx ewb : Nat} {base : Word} {words : List (Nat × Nat)} {hs : List (Nat × Hart)} {s t v : State}
    (h1 : (words.forM fun p => saveWrite ctx (base + BitVec.ofNat 64 p.1) p.2 : EngM PUnit) s = .ok () t)
    (h2 : (hs.forM fun g => (hartWords g.2 ewb 0x20).forM fun p => engWrite none ctx .supervisor .device
      (base + BitVec.ofNat 64 (hartOffset g.2.hidx + p.1)) p.2.1 p.2.2 : EngM PUnit) t = .ok () v) :
    saveImage ctx base ewb words hs s = .ok () v := by
  unfold saveImage
  rw [ebind_ok h1]
  exact h2

theorem hartAddr {base : Word} {off : Nat} {ws : List (Nat × Nat × Nat)} (h0 : 0x81080 ≤ base.toNat) (h1 : base.toNat < 0x10000000)
    (h2 : off < 0x10000000) (h3 : (ws.all fun p => decide (p.1 < 0xA0000)) = true) :
    ∀ p ∈ ws, 0x81080 ≤ (base + BitVec.ofNat 64 (off + p.1)).toNat ∧ (base + BitVec.ofNat 64 (off + p.1)).toNat < 2 ^ 30 := by
  intro p hm
  have := of_decide_eq_true (List.all_eq_true.mp h3 p hm)
  simp only [BitVec.toNat_add, BitVec.toNat_ofNat]
  omega

/-- The image of a convoy is written in mapped memory. -/
theorem saveImage_ok {ctx ewb : Nat} {base : Word} {words : List (Nat × Nat)} {hs : List (Nat × Hart)} {s : State} (hf : Flat s)
    (hp : (s.ctxOf ctx).ptbase = 0x80000) (h0 : 0x81080 ≤ base.toNat) (h1 : base.toNat < 0x10000000)
    (hc : ∀ p ∈ words, p.1 < 0x10000)
    (hw : ∀ g ∈ hs, hartOffset g.2.hidx < 0x10000000 ∧ ((hartWords g.2 ewb 0x20).all fun p => decide (p.1 < 0xA0000)) = true) :
    ∃ t, saveImage ctx base ewb words hs s = .ok () t := by
  obtain ⟨t, ht, hft, hpt⟩ := Flat.saves (n := ctx) (fun p : Nat × Nat => base + BitVec.ofNat 64 p.1) (fun p => p.2) words
    (fun p hm => by have := hc p hm; simp only [BitVec.toNat_add, BitVec.toNat_ofNat]; omega) s hf hp
  obtain ⟨v, hv⟩ := Flat.savesAll (n := ctx) (fun g : Nat × Hart => hartWords g.2 ewb 0x20)
    (fun g w => base + BitVec.ofNat 64 (hartOffset g.2.hidx + w.1)) hs (fun g hg => hartAddr h0 h1 (hw g hg).1 (hw g hg).2) t hft hpt
  exact ⟨v, saveImage_run ht hv⟩

/-- A convoy with a free record in mapped memory is saved (R248). -/
theorem saveNow_some {s : State} {u core : Nat} {base : Word} (hc : (s.convoyOf u).core = some core)
    (hb : freeRecord s (s.convoyOf u).ctx = some base) (hf : Flat s) (hp : (s.ctxOf (s.convoyOf u).ctx).ptbase = 0x80000)
    (hl : ∀ i : Fin 8, (s.convoyOf u).q[i].length ≤ 16) (h0 : 0x81080 ≤ base.toNat) (h1 : base.toNat < 0x10000000)
    (hw : ∀ g ∈ residents s u, hartOffset g.2.hidx < 0x10000000
      ∧ ((hartWords g.2 (s.convoyOf u).ewBytes 0x20).all fun p => decide (p.1 < 0xA0000)) = true) :
    ∃ t, saveNow u s = some t := by
  obtain ⟨t, ht⟩ := saveImage_ok (ctx := (s.convoyOf u).ctx) (words := convoyWords (suspendFills u core s) u)
    (hf.suspendFills u core) (by rw [suspendFills_ctxOf]; exact hp) h0 h1
    (fun p hm => convoyWords_lt (by rw [suspendFills_convoyOf]; exact hl) hm) hw
  exact ⟨leaveCore u core base (residents s u) (s.convoyOf u) t, by simp only [saveNow, hc, hb, ht]⟩

theorem mapM_ok {α β : Type} {ε : Type} {s : State} {g : α → EStateM ε State β} {k : α → β} (l : List α)
    (h : ∀ a ∈ l, g a s = .ok (k a) s) : (l.mapM g : EStateM ε State (List β)) s = .ok (l.map k) s := by
  induction l with
  | nil => rfl
  | cons a l ih =>
    have i := ih fun b hb => h b (by simp [hb])
    simp only [List.mapM_cons, bind, EStateM.bind, h a (by simp), i, List.map_cons, pure, EStateM.pure]

theorem accPos_even_lt {i k : Nat} (hi : i < 128) (hk : 2 * k < 128) : accPos i (2 * k) % 2 = 0 ∧ accPos i (2 * k) < 16384 := by
  simp only [accPos]; omega

/-- A bound region is read where the doublewords of its record are. -/
theorem readAcc_ok {rd : Nat → M Nat} {f : Nat → Nat} {s : State} {a r c : Nat} (h : ∀ o, o < 0xA0000 → o % 8 = 0 → rd o s = .ok (f o) s)
    (ha : a < 8) (hr : r ≤ 128) (hc : c ≤ 128) : ∃ d, readAcc rd a r c s = .ok d s := by
  have one : ∀ i k, i < r → k < (c + 1) / 2 → rd (0x19000 + a * 0x10000 + 4 * accPos i (2 * k)) s =
      .ok (f (0x19000 + a * 0x10000 + 4 * accPos i (2 * k))) s := fun i k hi hk => by
    obtain ⟨e1, e2⟩ := accPos_even_lt (i := i) (k := k) (by omega) (by omega)
    exact h _ (by omega) (by omega)
  have rows := mapM_ok (s := s) (List.range r) fun i hi => mapM_ok (List.range ((c + 1) / 2)) (g := fun k => do
      let w ← rd (0x19000 + a * 0x10000 + 4 * accPos i (2 * k))
      return (accPos i (2 * k), w % 2 ^ 32) :: (if 2 * k + 1 < c then [(accPos i (2 * k + 1), w / 2 ^ 32)] else [])) fun k hk => by
    rw [ebind_ok (one i k (List.mem_range.mp hi) (List.mem_range.mp hk))]; rfl
  unfold readAcc
  rw [ebind_ok rows]
  exact ⟨_, rfl⟩

/-- So are the accumulators of a record, each bound or not as its descriptor says. -/
theorem readAccs_ok {rd : Nat → M Nat} {f : Nat → Nat} {s : State} (h : ∀ o, o < 0xA0000 → o % 8 = 0 → rd o s = .ok (f o) s)
    (ds : List (Option (Nat × Nat × Bool))) (hd : ∀ x, some x ∈ ds → x.1 ≤ 128 ∧ x.2.1 ≤ 128) :
    ∃ l, readAccs rd ds s = .ok l s ∧ l.map Option.isSome = (List.zip (List.range 8) ds).map fun p => p.2.isSome := by
  have one : ∀ p : Nat × Option (Nat × Nat × Bool), ∃ r : Option AccReg, p ∈ List.zip (List.range 8) ds →
      (match p.2 with
      | none => pure none
      | some (r, c, i) => do return some ⟨0, r, c, i, ← readAcc rd p.1 r c⟩ : M (Option AccReg)) s = .ok r s ∧ r.isSome = p.2.isSome := by
    rintro ⟨a, o⟩
    by_cases hp : (a, o) ∈ List.zip (List.range 8) ds
    · obtain ⟨ha, ho⟩ := List.of_mem_zip hp
      match o, ho with
      | none, _ => exact ⟨none, fun _ => ⟨rfl, rfl⟩⟩
      | some (r, c, b), ho =>
        have hr : ∃ d, readAcc rd a r c s = .ok d s := readAcc_ok h (List.mem_range.mp ha) (hd _ ho).1 (hd _ ho).2
        obtain ⟨d, hr⟩ := hr
        refine ⟨some ⟨0, r, c, b, d⟩, fun _ => ⟨?_, rfl⟩⟩
        show (readAcc rd a r c >>= fun d => pure (some ⟨0, r, c, b, d⟩) : M (Option AccReg)) s = _
        rw [ebind_ok hr]
        rfl
    · exact ⟨none, fun h => absurd h hp⟩
  choose k hk using one
  refine ⟨(List.zip (List.range 8) ds).map k, mapM_ok (k := k) _ fun p hp => (hk p hp).1, ?_⟩
  rw [List.map_map]
  exact List.map_congr_left fun p hp => (hk p hp).2

theorem accOf_dims {w : Nat} {x : Nat × Nat × Bool} (h : accOf w = some (some x)) : x.1 ≤ 128 ∧ x.2.1 ≤ 128 := by
  unfold accOf at h
  split at h
  · cases h
  · split at h
    · cases h
      simp only [field]
      omega
    · cases h

theorem ofFn_eight {α : Type} {d : α} : ∀ {l : List α}, l.length = 8 → (Vector.ofFn fun i : Fin 8 => l.getD i.val d).toList = l
  | [_, _, _, _, _, _, _, _], _ => rfl

/-- The end of a record, read where the rest of it is valid. -/
theorem readRest {s : State} {c d : Bool} {x : M (List Nat)} {y : M (List (Option AccReg))} {vs : List Nat} {l : List (Option AccReg)}
    {mk : List Nat → List (Option AccReg) → Hart} (hx : x s = .ok vs s) (hy : y s = .ok l s) (hd : d = !c) :
    ((if c = true then pure none else do
      let vs ← x
      let accs ← y
      pure (some (mk vs accs)) : M (Option Hart)) s) = .ok (if d = true then some (mk vs l) else none) s := by
  subst hd
  cases c
  · show (do
      let vs ← x
      let accs ← y
      pure (some (mk vs accs)) : M (Option Hart)) s = _
    rw [ebind_ok hx, ebind_ok hy]
    rfl
  · rfl

/-- What a record whose masks are all implicit, and whose accumulator descriptors are valid, is read as. -/
theorem readHart_ok {rd : Nat → M Nat} {f : Nat → Nat} {s : State} (old : Hart)
    (h : ∀ o, o < 0xA0000 → o % 8 = 0 → rd o s = .ok (f o) s)
    (hm : ((List.range 16).map fun i => f (0x380 + 8 * i)) = List.replicate 16 0x40000)
    (ha : (((List.range 8).map fun i => f (0x400 + 8 * i)).map accOf).any Option.isNone = false) :
    ∃ k, readHart rd old s = .ok (if csrWordsOk (fun i => ((List.range 20).map fun i => f (0x100 + 8 * i)).getD i 0)
        && !pcBreaks (BitVec.ofNat 64 (f 0x1A0)) && !decide (2 ^ 16 ≤ f 0x1A8) && field (f 0x1A8) 2 6 == 0
        && field (f 0x1B0) 1 31 == 0 then some k else none) s
      ∧ k.acc.toList.map Option.isSome = ((List.range 8).map fun i => f (0x400 + 8 * i)).map fun w => ((accOf w).getD none).isSome := by
  have num : ∀ off n, off + 8 * n ≤ 0xA0000 → off % 8 = 0 → ∃ v, readNum rd off n s = .ok v s := by
    intro off n hn h8
    have := mapM_ok (s := s) (g := fun i => rd (off + 8 * i)) (k := fun i => f (off + 8 * i)) (List.range n)
      (fun i hi => h _ (by have := List.mem_range.mp hi; omega) (by omega))
    refine ⟨((List.range n).map fun i => f (off + 8 * i)).reverse.foldl (fun acc w => acc * 2 ^ 64 + w % 2 ^ 64) 0, ?_⟩
    simp only [readNum, bind, EStateM.bind, this, pure, EStateM.pure]
  have words : ∀ off n, off + 8 * n ≤ 0xA0000 → off % 8 = 0 → ((List.range n).mapM fun i => rd (off + 8 * i) : M (List Nat)) s =
      .ok ((List.range n).map fun i => f (off + 8 * i)) s := fun off n hn h8 =>
    mapM_ok _ fun i hi => h _ (by have := List.mem_range.mp hi; omega) (by omega)
  obtain ⟨ring, hring⟩ := num 0x280 32 (by decide) (by decide)
  have hmask : ((List.range 16).mapM fun i => readMask rd i ((List.replicate 16 0x40000).getD i 0)
      : M (List (Option MaskReg))) s = .ok ((List.range 16).map fun _ => some ⟨false, 4, 0, 0, none⟩) s := by
    refine mapM_ok _ fun i hi => ?_
    rw [(by decide : ∀ i, i < 16 → (List.replicate 16 0x40000).getD i 0 = 0x40000) i (List.mem_range.mp hi)]
    rfl
  have hvec : ∃ vs, ((List.range 32).mapM fun i => readNum rd (0x1000 + 2048 * i) 256 : M (List Nat)) s = .ok vs s := by
    have : ∀ i, ∃ v, i < 32 → readNum rd (0x1000 + 2048 * i) 256 s = .ok v s := fun i => by
      by_cases hi : i < 32
      · obtain ⟨v, hv⟩ := num (0x1000 + 2048 * i) 256 (by omega) (by omega)
        exact ⟨v, fun _ => hv⟩
      · exact ⟨0, fun h => absurd h hi⟩
    choose k hk using this
    exact ⟨_, mapM_ok (k := k) _ fun i hi => hk i (List.mem_range.mp hi)⟩
  obtain ⟨vs, hvs⟩ := hvec
  generalize hw : (List.range 8).map (fun i => f (0x400 + 8 * i)) = ws at ha ⊢
  have hlen : ws.length = 8 := by rw [← hw]; simp
  obtain ⟨l, hl, hs⟩ := readAccs_ok h ((ws.map accOf).map fun d => d.getD none) (by
    intro x hx
    obtain ⟨w, -, e⟩ := List.mem_map.mp (List.map_map ▸ hx)
    refine accOf_dims (w := w) ?_
    simp only [Function.comp] at e
    match q : accOf w, e with
    | none, e => cases e
    | some _, e => simp only [Option.getD] at e; rw [e])
  have w0 : ((List.range 32).mapM fun i => rd (8 * i) : M (List Nat)) s = .ok ((List.range 32).map fun i => f (8 * i)) s :=
    mapM_ok _ fun i hi => h _ (by have := List.mem_range.mp hi; omega) (by omega)
  have any1 : ((List.range 16).map fun _ => some (⟨false, 4, 0, 0, none⟩ : MaskReg)).any Option.isNone = false := by decide
  have hlen' : l.length = 8 := by simpa [hlen] using congrArg List.length hs
  unfold readHart
  rw [ebind_ok w0, ebind_ok (words 0x100 20 (by decide) (by decide)), ebind_ok (h 0x1A0 (by decide) (by decide)),
    ebind_ok (h 0x1A8 (by decide) (by decide)), ebind_ok (h 0x1B0 (by decide) (by decide)), ebind_ok (words 0x200 16 (by decide) (by decide)),
    ebind_ok hring, ebind_ok (words 0x380 16 (by decide) (by decide)), ebind_ok (words 0x400 8 (by decide) (by decide))]
  dsimp only
  rw [hm, hw, ebind_ok hmask, any1, ha]
  generalize (csrWordsOk fun i => ((List.range 20).map fun i => f (0x100 + 8 * i)).getD i 0) = b1
  generalize pcBreaks (BitVec.ofNat 64 (f 0x1A0)) = b2
  generalize decide (2 ^ 16 ≤ f 0x1A8) = b3
  generalize field (f 0x1A8) 2 6 = n4
  generalize field (f 0x1B0) 1 31 = n5
  refine ⟨_, readRest hvs hl ?_, ?_⟩
  · simp only [bne]
    cases b1 <;> cases b2 <;> cases b3 <;> cases n4 == 0 <;> cases n5 == 0 <;> rfl
  · show (Vector.ofFn fun i : Fin 8 => l.getD i.val none).toList.map Option.isSome = _
    rw [ofFn_eight hlen', hs, show (fun p : Nat × Option (Nat × Nat × Bool) => p.2.isSome) = Option.isSome ∘ Prod.snd from rfl, ← List.map_map,
      List.map_snd_zip (by simp [hlen]), List.map_map, List.map_map]
    rfl

/-- The convoy's own part of a record is read in mapped memory. -/
theorem readConvoy_ok {s : State} {c : Convoy} {base : Word} (hf : Flat s) (hp : (s.ctxOf c.ctx).ptbase = 0x80000)
    (hb : base.toNat < 0x10000000) : ∃ c1, readConvoy c base s = .ok c1 s := by
  have rd : ∀ o, o < 0x8000 → saveRead c.ctx (base + BitVec.ofNat 64 o) s = .ok (memReadN s.mem (base + BitVec.ofNat 64 o).toNat 8) s :=
    fun o ho => hf.readAt hp .supervisor rfl (by simp only [BitVec.toNat_add, BitVec.toNat_ofNat]; omega) 8
  have words : ∀ off n, off + 8 * n ≤ 0x8000 →
      ((List.range n).mapM fun i => saveRead c.ctx (base + BitVec.ofNat 64 (off + 8 * i)) : EngM (List Nat)) s =
        .ok ((List.range n).map fun i => memReadN s.mem (base + BitVec.ofNat 64 (off + 8 * i)).toNat 8) s := fun off n hn =>
    mapM_ok _ fun i hi => rd _ (by have := List.mem_range.mp hi; omega)
  have qs : ((List.range 8).mapM fun i => (List.range 16).mapM fun j =>
      saveRead c.ctx (base + BitVec.ofNat 64 (0x100 + 128 * i + 8 * j)) : EngM (List (List Nat))) s = .ok ((List.range 8).map fun i =>
        (List.range 16).map fun j => memReadN s.mem (base + BitVec.ofNat 64 (0x100 + 128 * i + 8 * j)).toNat 8) s :=
    mapM_ok _ fun i hi => words _ _ (by have := List.mem_range.mp hi; omega)
  simp only [readConvoy, bind, EStateM.bind, rd 0 (by decide), words 0x40 8 (by decide), words 0x80 16 (by decide), rd 0x500 (by decide),
    qs, rd 0x508 (by decide), rd 0x510 (by decide), words 0x3000 1024 (by decide), words 0x5000 1024 (by decide)]
  exact ⟨_, rfl⟩

/-- A convoy whose record is in mapped memory is restored when no hart of it goes on and no tile was reclaimed. -/
theorem restoreConvoy_some {s s0 : State} {u core : Nat} {base : Word} {ks : List Nat} (hr : (s.convoyOf u).record = some base)
    (hw : makeReady core ((Waiting.out u (s.convoyOf u)).need s) s = some s0) (ho : (s0.convoyOf u).out = [])
    (hn : (s0.convoyOf u).reclaimed = []) (hf : Flat s0)
    (hp : (s0.ctxOf (s0.convoyOf u).ctx).ptbase = 0x80000) (hb : base.toNat < 0x10000000) :
    ∃ t, restoreConvoy u core ks s = some t := by
  obtain ⟨c1, h1⟩ := readConvoy_ok (c := s0.convoyOf u) hf hp hb
  simp only [restoreConvoy, hr, hw, ebind_ok h1, hn, ho, sortBy, List.zip_nil_left, List.foldl_nil]
  exact ⟨_, rfl⟩

/-! ### Bytes of collectives and of `stow` -/

theorem collRead_ok {s : State} {ctx : Nat} {va : Word} {n : Nat} (hf : Flat s) (hp : (s.ctxOf ctx).ptbase = 0x80000)
    (hv : va.toNat + n < 2 ^ 30) : ∃ bs, collRead ctx va n s = .ok bs s := by
  refine ⟨_, mapM_ok (k := fun i => BitVec.ofNat 8 (memReadN s.mem (va + BitVec.ofNat 64 i).toNat 1)) _ fun i hi => ?_⟩
  have h := hf.readAt hp .user (fam := .unit) (va := va + BitVec.ofNat 64 i) rfl
    (by have := List.mem_range.mp hi; simp only [BitVec.toNat_add, BitVec.toNat_ofNat]; omega) 1
  simp only [bind, EStateM.bind, h, pure, EStateM.pure]

theorem collWrite_ok {s : State} {ctx : Nat} {va : Word} {bs : List Byte} (hf : Flat s) (hp : (s.ctxOf ctx).ptbase = 0x80000)
    (h0 : 0x81080 ≤ va.toNat) (hv : va.toNat + bs.length < 2 ^ 30) : ∃ t, collWrite ctx va bs s = .ok () t := by
  obtain ⟨t, ht, -⟩ := Flat.writes (n := ctx) (view := .user) (fam := .unit) rfl
    (fun p : Nat × Byte => va + BitVec.ofNat 64 p.1) (fun p => p.2.toNat) (fun _ => 1) ((List.range bs.length).zip bs)
    (fun p hm => by
      have := List.mem_range.mp (List.of_mem_zip hm).1
      simp only [BitVec.toNat_add, BitVec.toNat_ofNat]; omega) s hf hp
  unfold collWrite
  rw [ebind_ok ht]
  exact ⟨_, rfl⟩

/-- A unit whose source lies in mapped memory is read. -/
theorem stowRead_ok {s : State} {d : DepotCmd} (hf : Flat s) (hp : (s.ctxOf d.ctx).ptbase = 0x80000)
    (hv : ∀ k, k < 65536 → (stowAt d k).toNat < 2 ^ 30) : ∃ bs, stowRead d s = .ok bs s := by
  refine ⟨_, mapM_ok (k := fun k => memReadN s.mem (stowAt d k).toNat 1) _ fun k hk => ?_⟩
  have hk := hv k (List.mem_range.mp hk)
  have h := hf.readAt hp d.view (fam := .unit) (va := stowAt d k) rfl hk 1
  have hn : isFabric (stowAt d k) = false := by
    simp only [isFabric, beq_eq_false_iff_ne]
    intro h
    have := congrArg BitVec.toNat h
    simp only [BitVec.toNat_ushiftRight, Nat.shiftRight_eq_div_pow, show (2 : Word).toNat = 2 from rfl] at this
    omega
  simp only [stowByte, hn, Bool.false_eq_true, if_false, h]

/-! ### A hart's accesses through one TLB entry -/

/-- Addresses from `base` to `top`, below 1 GiB, that a TLB entry of the current hart maps to themselves with every
permission, in a vault without errors; no update, no monitor and no metering is pending. -/
structure Hits (s : State) (base top : Nat) (e : TlbEntry) : Prop where
  hit : ∀ va, base ≤ va → va < top → tlbHit (s.coreOf s.coreId).tlb s.ctx.asid va = some e
  leaf : ∀ va, base ≤ va → va < top → leafLoc e.leaf.toNat va = ⟨va, false, false, false⟩
  allows : ∀ acc, leafAllows e.leaf.toNat acc s.hart.mode = true
  low : top ≤ 2 ^ 30
  clean : s.poison = []
  up : (s.coreOf 0).fenced = false
  share : s.staging.pct = 0
  still : s.calm
  calm : (s.harts.any fun p => p.2.armed.isSome) = false
  unmetered : s.convoy.cls ≠ 0

theorem Hits.finds {s : State} {base top : Nat} {e : TlbEntry} (h : Hits s base top e) {acc : Acc}
    {va : Word} {n : Nat} (h1 : base ≤ va.toNat) (h2 : va.toNat < top)
    (hn : va.toNat % n = 0) : s.finds .scalar acc va n ⟨va.toNat, false, false, false⟩ s := by
  have hlow := h.low
  have hk : isVault va.toNat = true := by simp [isVault]; omega
  refine ⟨locate_hit hn (by omega) (h.hit _ h1 h2) ?_, hk, rfl, rfl, h.still⟩
  have hr : reach .scalar acc (kindOf (some s.coreId) ⟨va.toNat, false, false, false⟩) = true := by
    simp only [kindOf, vault_not_depot hk]
    split
    · contradiction
    · split <;> rfl
  have hs : inShare s.staging.pct (va.toNat % 1073741824) = false := by
    rw [h.share]; exact inShare_zero (Nat.mod_lt _ (by decide))
  simp [underLeaf, h.leaf _ h1 h2, h.allows, hr, vault_not_depot hk, hs]

theorem Hits.data {s : State} {base top : Nat} {e : TlbEntry} (h : Hits s base top e) {k : Nat} (h2 : k < top) : dataError s k = none := by
  have hlow := h.low
  have q : k / 1073741824 = 0 := by omega
  simp [dataError, q, h.up, h.clean]

theorem Hits.meter {s : State} {base top : Nat} {e : TlbEntry} (h : Hits s base top e) (k n : Nat) : s.after (Machine.meter k n) = s := by
  simp [State.after, Machine.meter, h.unmetered, bind, EStateM.bind, get, getThe, MonadStateOf.get, EStateM.get, pure, EStateM.pure]

theorem Hits.poke {s : State} {base top : Nat} {e : TlbEntry} (h : Hits s base top e) (k n v : Nat) :
    Hits (pokeN k n v s) base top e := by
  have hp : pokeN k n v s = { s with mem := memWriteBytes s.mem k (toBytes n v) } := by
    simp [pokeN, pokeBytes, h.clean, wakeMonitors, h.calm]
  rw [hp]
  exact ⟨h.hit, h.leaf, h.allows, h.low, h.clean, h.up, h.share, h.still, h.calm, h.unmetered⟩

/-- A record is written through it, word by word. -/
theorem Hits.saves {base top : Nat} {e : TlbEntry} {at_ : Word} (hb : base ≤ at_.toNat) (l : List (Nat × Nat × Nat))
    (hl : ∀ p ∈ l, at_.toNat + p.1 < top ∧ (at_.toNat + p.1) % p.2.1 = 0) :
    ∀ s : State, Hits s base top e → ∃ t, State.Each (fun (p : Nat × Nat × Nat) a b => ∃ (v : State) (l : Loc),
      a.finds .scalar .store (at_ + BitVec.ofNat 64 p.1) p.2.1 l v ∧ (v.coreOf (l.key / 2 ^ 30)).fenced = false
        ∧ b = pokeN l.key p.2.1 p.2.2 (v.after (Machine.meter l.key p.2.1))) l s t := by
  induction l with
  | nil => intro s _; exact ⟨s, .nil s⟩
  | cons p l ih =>
    intro s h
    obtain ⟨h1, h2⟩ := hl p (by simp)
    have hlow := h.low
    have hva : (at_ + BitVec.ofNat 64 p.1).toNat = at_.toNat + p.1 := by
      simp only [BitVec.toNat_add, BitVec.toNat_ofNat]; omega
    obtain ⟨t, ht⟩ := ih (fun x hx => hl x (by simp [hx])) (pokeN (at_.toNat + p.1) p.2.1 p.2.2 s) (h.poke _ _ _)
    have hf := h.finds (acc := .store) (va := at_ + BitVec.ofNat 64 p.1) (n := p.2.1) (by omega) (by omega)
      (by rw [hva]; exact h2)
    refine ⟨t, .cons p l s _ t ⟨s, _, hf, ?_, rfl⟩ ?_⟩
    · have q : (at_ + BitVec.ofNat 64 p.1).toNat / 2 ^ 30 = 0 := by omega
      show (s.coreOf ((at_ + BitVec.ofNat 64 p.1).toNat / 2 ^ 30)).fenced = false
      rw [q]; exact h.up
    · rw [h.meter, hva]; exact ht

theorem Hits.word {s : State} {base top : Nat} {e : TlbEntry} (h : Hits s base top e) {at_ : Word} (hb : base ≤ at_.toNat)
    {o : Nat} (h1 : at_.toNat + o < top) (h2 : (at_.toNat + o) % 8 = 0) :
    recordWord at_ o s = .ok (memReadN s.mem (at_.toNat + o) 8) s := by
  have hlow := h.low
  have hva : (at_ + BitVec.ofNat 64 o).toNat = at_.toNat + o := by
    simp only [BitVec.toNat_add, BitVec.toNat_ofNat]; omega
  have hf := h.finds (acc := .load) (va := at_ + BitVec.ofNat 64 o) (n := 8) (by omega) (by omega) (by omega)
  rw [recordWord, loadVa_finds 1 .n64 hf (h.data (by simp only [hva]; omega)), h.meter, hva]

/-- Every page of a record is found. -/
theorem Hits.checks {s : State} {base top : Nat} {e : TlbEntry} (h : Hits s base top e) {acc : Acc} {at_ : Word} (hb : base ≤ at_.toNat)
    (ha : at_.toNat % 4096 = 0) (ht : at_.toNat + hartRecord ≤ top) : checkRecord acc at_ s = .ok () s := by
  have hlow := h.low
  let page (i : Nat) : M PUnit := do
    let _ ← locate .scalar acc (at_ + BitVec.ofNat 64 (4096 * i)) 8 none none
  have one : ∀ i, i < 160 → page i s = .ok () s := by
    intro i hi
    have hva : (at_ + BitVec.ofNat 64 (4096 * i)).toNat = at_.toNat + 4096 * i := by
      simp only [hartRecord] at ht
      simp only [BitVec.toNat_add, BitVec.toNat_ofNat]; omega
    have hf := (h.finds (acc := acc) (va := at_ + BitVec.ofNat 64 (4096 * i)) (n := 8) (by omega)
      (by simp only [hartRecord] at ht; omega) (by omega)).1
    simp only [page, bind, EStateM.bind, hf, pure, EStateM.pure]
  have all : ∀ l : List Nat, (∀ i ∈ l, i < 160) → (l.forM page : M PUnit) s = .ok () s := by
    intro l
    induction l with
    | nil => intro _; rfl
    | cons i l ih =>
      intro hl
      rw [forM_cons_run l (one i (hl i (by simp)))]
      exact ih fun x hx => hl x (by simp [hx])
  have hr := all (List.range (hartRecord / 4096)) fun i hi => (by
    have := List.mem_range.mp hi; simp only [hartRecord] at this; omega)
  have hn : ¬at_.toNat % 4096 ≠ 0 := by omega
  unfold checkRecord
  rw [if_neg hn]
  exact hr

/-- Accumulators are claimed where enough are free for the names that are bound. -/
theorem claimAccs_isSome {free : List Nat} {h : Hart} {l : List Bool} (ha : h.acc.toList.map Option.isSome = l) :
    (claimAccs free h).isSome = decide (l.count true ≤ free.length) := by
  have e : ((List.finRange 8).filter fun a : Fin 8 => h.acc[a].isSome).length = l.count true := by
    have m : (List.finRange 8).map (fun a : Fin 8 => h.acc[a].isSome) = l := by
      rw [← ha]
      exact List.ext_getElem (by simp) fun i h1 h2 => by simp
    rw [← m, List.count_eq_countP, List.countP_map, List.countP_eq_length_filter]
    congr 1
    exact List.filter_congr fun a _ => by simp
  unfold claimAccs
  simp only [e]
  by_cases c : free.length < l.count true
  · rw [if_pos c, decide_eq_false (by omega)]; rfl
  · rw [if_neg c, decide_eq_true (by omega)]; rfl

end Sys2Proof.Machine
end

