-- ==== Sys2Proof/Laws/MemOk.lean ====
section
/-! SUPPORT. The shared operations of the harts and of the engines keep memory in its canonical form, however they end. -/

namespace Sys2Proof.Machine

section
variable {s t : State}

/-- `memOk` is about memory alone. -/
theorem memOk_of_mem (h : s.memOk) (e : t.mem = s.mem) : t.memOk := by unfold State.memOk at *; rw [e]; exact h

theorem ends_mono {ε α : Type} {P Q : State → Prop} {x : EStateM ε State α} (h : EndsIn P x s) (i : ∀ u, P u → Q u) :
    EndsIn Q x s := i _ h

theorem walked_memOk (h : s.memOk) : ∀ u, s.walkedTo u → u.memOk := fun _ hu => memOk_of_mem h hu.mem

/-! ### Functions of the state -/

theorem setHart_memOk (h : s.memOk) (x : Hart) : (s.setHart x).memOk := h
theorem pokeBytes_memOk (h : s.memOk) (k : Nat) (bs : List Byte) : (pokeBytes k bs s).memOk := by
  unfold State.memOk at *
  rw [pokeBytes_mem]
  exact memWf_memWriteBytes _ _ _ h

theorem pokeN_memOk (h : s.memOk) (k n v : Nat) : (pokeN k n v s).memOk := pokeBytes_memOk h _ _

theorem sendItem_mem (it : Item) (s : State) : (sendItem it s).mem = s.mem := by
  unfold sendItem
  dsimp only
  split
  · rfl
  · split <;> rfl

theorem applyDeferred_memOk (d : Deferred) (h : s.memOk) : (applyDeferred d s).1.memOk := by
  unfold applyDeferred
  split
  · exact memOk_of_mem h (sendItem_mem _ _)
  · split
    · exact h
    · exact pokeN_memOk h _ _ _

theorem applyUpTo_memOk (p : Deferred → Bool) (ds : List Deferred) (h : s.memOk) : (applyUpTo p ds s).1.memOk := by
  induction ds generalizing s with
  | nil => exact h
  | cons d t ih =>
    unfold applyUpTo
    split
    · split
      · exact h
      · have := applyDeferred_memOk d h
        split
        · rename_i e
          rw [e] at this
          exact ih this
        · rename_i e
          rw [e] at this
          exact this
    · exact ih h

theorem resumeDetection_memOk (h : s.memOk) : (resumeDetection s).memOk := memOk_of_mem h (resumeDetection_mem s)
theorem finishUnit_memOk (c : Ctl) (n : Nat) (pc : Word) (h : s.memOk) : (finishUnit c n pc s).memOk :=
  memOk_of_mem h (finishUnit_mem c n pc s)

/-- Steps that leave memory leave it together. -/
theorem foldl_mem {α : Type} {f : State → α → State} (hf : ∀ t a, (f t a).mem = t.mem) (l : List α) (s : State) :
    (l.foldl f s).mem = s.mem := by
  induction l generalizing s with
  | nil => rfl
  | cons a l ih => rw [List.foldl_cons, ih, hf]

theorem holdUnit_memOk (i : Option Instr) (u : State) (h : s.memOk) : (holdUnit i s u).memOk :=
  memOk_of_mem h (foldl_mem (fun _ _ => sendItem_mem _ _) _ _)

theorem keepHeld_memOk (i : Option Instr) (h : s.memOk) : (keepHeld i s).memOk := holdUnit_memOk i s h

theorem serveLine_memOk (l : Nat) (h : s.memOk) : (serveLine l s).memOk := by
  unfold serveLine stagingTouch
  split <;> exact h

/-! ### Operations -/

theorem locate_memOk (fam : Fam) (acc : Acc) (va : Word) (n : Nat) (e b : Option Nat) (h : s.memOk) :
    EndsIn State.memOk (locate fam acc va n e b) s := ends_mono (locate_walked fam acc va n e b s.walkedTo_self) (walked_memOk h)

theorem flushWhere_memOk (p : Deferred → Bool) (h : s.memOk) : EndsIn State.memOk (flushWhere p) s := by
  unfold flushWhere
  refine ends_bind (ends_get_bind (ends_pure h _)) fun hh t ht => ?_
  refine ends_ite (fun _ => ?_) fun _ => ends_pure ht _
  refine ends_get_bind ?_
  have := applyUpTo_memOk (fun d => p d || crossPath t hh.deferred) hh.deferred ht
  generalize applyUpTo (fun d => p d || crossPath t hh.deferred) hh.deferred t = r at *
  obtain ⟨u, rest, bad⟩ := r
  refine ends_bind (ends_set (setHart_memOk this _)) fun _ v hv => ?_
  cases bad with
  | done => exact ends_pure hv _
  | fails c a => exact ends_throw hv _
  | waits => exact ends_throw hv _

theorem flushGranule_memOk (k : Nat) (h : s.memOk) : EndsIn State.memOk (flushGranule k) s := by
  unfold flushGranule flushDeferred
  exact ends_get_bind (ends_ite (fun _ => flushWhere_memOk _ h) fun _ => ends_pure h _)

/-- A wait for accesses by number keeps memory, if the wait itself does. -/
theorem awaitIds_memOk (ids : List Nat) {w : M Unit} (hw : ∀ t : State, t.memOk → EndsIn State.memOk w t) (h : s.memOk) :
    EndsIn State.memOk (awaitIds ids w) s := by
  unfold awaitIds
  exact ends_get_bind (ends_ite (fun _ => hw _ h) fun _ => ends_ite (fun _ => ends_pure h _) fun _ => h)

theorem awaitWhere_memOk (p : State → Item → Bool) {w : M Unit} (hw : ∀ t : State, t.memOk → EndsIn State.memOk w t)
    (h : s.memOk) : EndsIn State.memOk (awaitWhere p w) s := ends_get_bind (awaitIds_memOk _ hw h)

theorem stagingServe_memOk (k : Nat) (h : s.memOk) : EndsIn State.memOk (stagingServe k) s := by
  unfold stagingServe
  refine ends_get_bind ?_
  dsimp only
  split
  · refine ends_bind (ends_set ?_) fun _ _ hu => ends_throw hu _
    unfold wantLine
    split <;> exact h
  · exact ends_bind (ends_set (show State.memOk _ from h)) fun _ _ hu => ends_pure hu _
  · exact ends_bind (ends_set (serveLine_memOk _ h)) fun _ _ hu => ends_pure hu _

theorem awaitOwn_memOk (l : Loc) (h : s.memOk) : EndsIn State.memOk (awaitOwn l) s :=
  awaitWhere_memOk _ (fun _ ht => ends_throw ht _) h

theorem awaitLogged_memOk (l : Loc) (h : s.memOk) : EndsIn State.memOk (awaitLogged l) s :=
  ends_get_bind (ends_ite (fun _ => ends_throw h _) fun _ => ends_pure h _)

theorem logAccesses_memOk (log : Bool) (es : List (Nat × Nat × Word)) (h : s.memOk) :
    EndsIn State.memOk (logAccesses log es) s := by
  unfold logAccesses
  refine ends_get_bind ?_
  dsimp only
  refine ends_ite (fun _ => ends_pure h _) fun _ => ends_ite (fun _ => ?_) fun _ => ends_set h
  exact ends_bind (ends_set (show State.memOk _ from h)) fun _ _ hu => ends_throw hu _

theorem logOne_memOk (l : Loc) (k : Nat) (va : Word) (e : Option Nat) (h : s.memOk) :
    EndsIn State.memOk (logOne l k va e) s := by
  have := logAccesses_memOk l.log [(k, e.getD 0, va)] h
  unfold EndsIn logOne at *
  generalize logAccesses l.log [(k, e.getD 0, va)] s = r at *
  split <;> exact this

theorem checkData_memOk (va : Word) (k : Nat) (e b : Option Nat) (h : s.memOk) : EndsIn State.memOk (checkData va k e b) s := by
  unfold checkData
  refine ends_get_bind ?_
  split
  · exact ends_throw h _
  · exact ends_pure h _

theorem meter_memOk (k n : Nat) (h : s.memOk) : EndsIn State.memOk (meter k n) s := by
  unfold meter
  exact ends_get_bind (ends_ite (fun _ => ends_set h) fun _ => ends_pure h _)

theorem remoteWait_memOk (va : Word) (t : EType) (op : ItemOp) (e b : Option Nat) (h : s.memOk) :
    EndsIn State.memOk (remoteWait va t op e b) s := by
  unfold remoteWait
  refine ends_get_bind ?_
  dsimp only
  have rest : ∀ v : State, v.memOk → EndsIn State.memOk (do
      let hh ← getHart
      match hh.resp with
      | (_, r) :: rest => do
        setHart { hh with resp := rest }
        match r with
          | .value w => pure w
          | .fails c => throw (.trap { cause := c, addr := some va, elem := e, bank := b })
      | [] =>
        if s.items.any fun i => i.waits && i.hidx == hh.hidx && i.convoy == hh.convoy && i.failed.isNone then waitUnit
        else if (homePlane s (fabricPkg va)).isNone then
          throw (.trap { cause := 0x16, addr := some va, elem := e, bank := b })
        else do
          let it := hartItem s va t (if trialLook s va op then .load else op) false true (e.getD 0)
          modify (sendItem { it with logged := it.logged && !trialLook s va op })
          waitUnit : M Word) v := fun v hv => by
    refine ends_bind (ends_get_bind (ends_pure hv _)) fun hh u hu => ?_
    split
    · refine ends_bind (ends_modify (show State.memOk _ from hu)) fun _ _ hw => ?_
      split
      · exact ends_pure hw _
      · exact ends_throw hw _
    · refine ends_ite (fun _ => ends_throw hu _) fun _ => ends_ite (fun _ => ends_throw hu _) fun _ => ?_
      exact ends_bind (ends_modify (memOk_of_mem hu (sendItem_mem _ _))) fun _ _ hw => ends_throw hw _
  exact ends_ite (fun _ => ends_bind (ends_modify (show State.memOk _ from h)) fun _ v hv => rest v hv) fun _ => rest s h

theorem remotePost_memOk (va : Word) (t : EType) (op : ItemOp) (u : Bool) (e : Nat) (h : s.memOk) :
    EndsIn State.memOk (remotePost va t op u e) s := by
  unfold remotePost
  refine ends_modify ?_
  split
  · exact h
  · exact memOk_of_mem h (sendItem_mem _ _)

theorem prepLoad_memOk (p : Place) (va : Word) (e b : Option Nat) (h : s.memOk) : EndsIn State.memOk (prepLoad p va e b) s := by
  unfold prepLoad
  cases p with
  | remote => exact ends_get_bind (flushGranule_memOk _ h)
  | local_ l =>
    refine ends_ite (fun _ => ends_pure h _) fun _ => ends_bind (flushGranule_memOk _ h) fun _ _ ha =>
      ends_bind (awaitOwn_memOk _ ha) fun _ _ hb => ends_bind (awaitLogged_memOk _ hb) fun _ t ht => ?_
    refine ends_ite (fun _ => ?_) fun _ => checkData_memOk _ _ _ _ ht
    refine ends_bind (stagingServe_memOk _ ht) fun ok u hu => ?_
    dsimp only
    exact ends_ite (fun _ => ends_bind (ends_throw hu _) fun _ _ hv => checkData_memOk _ _ _ _ hv)
      fun _ => checkData_memOk _ _ _ _ hu

theorem takeLoad_memOk (p : Place) (va : Word) (n : Nat) (t : EType) (e b : Option Nat) (h : s.memOk) :
    EndsIn State.memOk (takeLoad p va n t e b) s := by
  unfold takeLoad
  cases p with
  | remote => exact ends_bind (remoteWait_memOk _ _ _ _ _ h) fun _ _ hu => ends_pure hu _
  | local_ l =>
    refine ends_ite (fun _ => ?_) fun _ => ?_
    · exact ends_bind (show State.memOk _ from h) fun _ _ hu => ends_pure hu _
    · exact ends_bind (meter_memOk _ _ h) fun _ _ hu => ends_get_bind (ends_pure hu _)

theorem logPlace_memOk (p : Place) (k : Nat) (va : Word) (e : Option Nat) (h : s.memOk) :
    EndsIn State.memOk (logPlace p k va e) s := by
  cases p with
  | remote => exact ends_pure h _
  | local_ l => exact logOne_memOk l k va e h

theorem loadPlace_memOk (p : Place) (k : Nat) (va : Word) (n : Nat) (t : EType) (e b : Option Nat) (h : s.memOk) :
    EndsIn State.memOk (loadPlace p k va n t e b) s :=
  ends_bind (prepLoad_memOk p va e b h) fun _ _ h1 => ends_bind (logPlace_memOk p k va e h1) fun _ _ h2 =>
    takeLoad_memOk p va n t e b h2

/-- A load keeps memory in its form. -/
theorem loadVa_memOk (fam : Fam) (k : Nat) (va : Word) (n : Nat) (t : EType) (e b : Option Nat) (h : s.memOk) :
    EndsIn State.memOk (loadVa fam k va n t e b) s :=
  ends_bind (locate_memOk fam .load va n e b h) fun _ _ h1 => loadPlace_memOk _ k va n t e b h1

theorem prepStore_memOk (p : Place) (va : Word) (e b : Option Nat) (h : s.memOk) : EndsIn State.memOk (prepStore p va e b) s := by
  unfold prepStore
  cases p with
  | remote => exact ends_get_bind (flushGranule_memOk _ h)
  | local_ l =>
    refine ends_ite (fun _ => ends_pure h _) fun _ => ends_bind (flushGranule_memOk _ h) fun _ _ ha =>
      ends_bind (awaitOwn_memOk _ ha) fun _ _ hb => ends_bind (awaitLogged_memOk _ hb) fun _ t ht => ?_
    exact ends_get_bind (ends_ite (fun _ => ends_throw ht _) fun _ => ends_pure ht _)

theorem putStore_memOk (p : Place) (va : Word) (n v : Nat) (t : EType) (u : Bool) (e : Option Nat) (h : s.memOk) :
    EndsIn State.memOk (putStore p va n v t u e) s := by
  unfold putStore
  cases p with
  | remote => exact remotePost_memOk _ _ _ _ _ h
  | local_ l =>
    refine ends_ite (fun _ => ends_modify (show State.memOk _ from h)) fun _ => ?_
    exact ends_bind (meter_memOk _ _ h) fun _ _ hu => ends_modify (pokeN_memOk hu _ _ _)

theorem storePlace_memOk (p : Place) (k : Nat) (va : Word) (n v : Nat) (t : EType) (u : Bool) (e b : Option Nat)
    (h : s.memOk) : EndsIn State.memOk (storePlace p k va n v t u e b) s :=
  ends_bind (prepStore_memOk p va e b h) fun _ _ h1 => ends_bind (logPlace_memOk p k va e h1) fun _ _ h2 =>
    putStore_memOk p va n v t u e h2

/-- A store keeps memory in its form. -/
theorem storeVa_memOk (fam : Fam) (k : Nat) (va : Word) (n v : Nat) (t : EType) (u : Bool) (e b : Option Nat)
    (h : s.memOk) : EndsIn State.memOk (storeVa fam k va n v t u e b) s :=
  ends_bind (locate_memOk fam .store va n e b h) fun _ _ h1 => storePlace_memOk _ k va n v t u e b h1

/-! ### Registers, operands and element loops -/

theorem modify_setHart_memOk (f : Hart → Hart) (h : s.memOk) : EndsIn State.memOk (modHart f) s := h

theorem readS_memOk (r : SReg) (h : s.memOk) : EndsIn State.memOk (readS r) s := by
  unfold readS
  refine ends_bind (ends_get_bind (ends_pure h _)) fun _ _ ht => ?_
  repeat' first
    | exact ends_throw ‹_› _
    | exact ends_pure ‹_› _
    | refine ends_ite (fun _ => ?_) (fun _ => ?_)

theorem readC_memOk (r : CName) (h : s.memOk) : EndsIn State.memOk (readC r) s := by
  unfold readC
  refine ends_bind (ends_get_bind (ends_pure h _)) fun _ _ ht => ?_
  repeat' first
    | exact ends_throw ‹_› _
    | exact ends_pure ‹_› _
    | refine ends_ite (fun _ => ?_) (fun _ => ?_)

theorem readSrc_memOk (b : Src) (h : s.memOk) : EndsIn State.memOk (readSrc b) s := by
  cases b
  · exact readS_memOk _ h
  · exact ends_pure h _

theorem readSrcZ_memOk (b : Src) (h : s.memOk) : EndsIn State.memOk (readSrcZ b) s := by
  cases b
  · exact readS_memOk _ h
  · exact ends_pure h _

theorem checkMask_memOk (m : MName) (lo hi : Nat) (p : Nat → Bool) (h : s.memOk) :
    EndsIn State.memOk (checkMask m lo hi p) s := by
  unfold checkMask
  refine ends_bind (ends_get_bind (ends_pure h _)) fun _ _ ht => ends_bind (ends_get_bind (ends_pure ht _)) fun _ _ hu => ?_
  split
  · exact ends_throw hu _
  · exact ends_pure hu _

theorem checkPred_memOk (m : MName) (h : s.memOk) : EndsIn State.memOk (checkPred m) s :=
  ends_bind (ends_get_bind (ends_pure h _)) fun _ _ ht => checkMask_memOk _ _ _ _ ht

theorem runElems_memOk (is : List Nat) (f : Nat → Hart → Option Hart) (h : s.memOk) : EndsIn State.memOk (runElems is f) s := by
  unfold runElems
  refine ends_bind (ends_get_bind (ends_pure h _)) fun _ _ ht => ?_
  split
  · exact ends_modify (show State.memOk _ from ht)
  · exact ends_bind (ends_modify (show State.memOk _ from ht)) fun _ _ hu => ends_throw hu _

/-- A vector loop over registers keeps memory in its form. -/
theorem vecLoop_memOk (m : MName) (f : Nat → Hart → Option Hart) (h : s.memOk) : EndsIn State.memOk (vecLoop m f) s :=
  ends_bind (checkPred_memOk m h) fun _ _ h1 => ends_bind (ends_get_bind (ends_pure h1 _)) fun _ _ h2 =>
    ends_bind (ends_get_bind (ends_pure h2 _)) fun _ _ h3 => runElems_memOk _ f h3

theorem checkTarget_memOk (a : Word) (bt : Bool) (h : s.memOk) : EndsIn State.memOk (checkTarget a bt) s :=
  ends_mono (checkTarget_walked a bt s.walkedTo_self) (walked_memOk h)

theorem awaitItems_memOk (h : s.memOk) : EndsIn State.memOk awaitItems s := by
  unfold awaitItems reportItem
  refine ends_bind (awaitWhere_memOk _ (fun _ ht => ends_throw ht _) h) fun _ t h => ends_get_bind ?_
  split
  · exact ends_bind (ends_set (show State.memOk _ from h)) fun _ _ hu => ends_throw hu _
  · exact ends_pure h _

theorem flushHost_memOk (h : s.memOk) : EndsIn State.memOk flushHost s := by
  unfold flushHost
  refine ends_modify ?_
  unfold State.hostFlushed
  split <;> exact h

theorem releaseAt_memOk (sc : Scope) (h : s.memOk) : EndsIn State.memOk (releaseAt sc) s := by
  unfold releaseAt
  refine ends_get_bind (ends_bind (flushWhere_memOk _ h) fun _ _ ha =>
    ends_bind (awaitWhere_memOk _ (fun _ ht => ends_throw ht _) ha) fun _ u hu => ?_)
  have last : ∀ v : State, v.memOk → EndsIn State.memOk (if sc = .system then (do awaitItems; flushHost) else pure ()) v :=
    fun _ hv => ends_ite (fun _ => ends_bind (awaitItems_memOk hv) fun _ _ hw => flushHost_memOk hw) fun _ => ends_pure hv _
  exact ends_ite (fun _ => ends_bind (ends_get_bind (awaitIds_memOk _ (fun _ ht => ends_throw ht _) hu)) fun _ v hv => last v hv)
    fun _ => last u hu

/-! ### Running a unit -/

/-- A unit whose operation keeps memory in its form keeps it, whether it completes, traps or waits. -/
theorem runUnitN_memOk (n : Nat) {op : M Ctl} (h : s.memOk) (ho : EndsIn State.memOk op s) {t : State}
    (e : runUnitN n op s = .next t) : t.memOk := by
  unfold runUnitN at e
  unfold EndsIn at ho
  split at e <;> rename_i hr <;> rw [hr] at ho <;> simp only [Host.Outcome.next.injEq] at e <;> subst e
  · exact finishUnit_memOk _ _ _ ho
  · exact setHart_memOk ho _
  · split
    · have := flushWhere_memOk (fun _ => true) h
      unfold EndsIn flushFirst flushDeferred at *
      split <;> rename_i hf <;> rw [hf] at this
      · exact this
      · exact keepHeld_memOk _ this
      · exact keepHeld_memOk _ this
    · exact holdUnit_memOk _ _ h
  · exact keepHeld_memOk _ ho
  · exact keepHeld_memOk _ ho

theorem runUnit_memOk {op : M Ctl} (h : s.memOk) (ho : EndsIn State.memOk op s) {t : State} (e : runUnit op s = .next t) :
    t.memOk := runUnitN_memOk 1 h ho e

/-! ### Accesses on a program's behalf, and what the agents share -/

theorem engPlace_memOk (core : Option Nat) (n : Nat) (view : Mode) (fam : Fam) (acc : Acc) (va : Word) (h : s.memOk) :
    EndsIn State.memOk (engPlace core n view fam acc va) s := by
  have := ends_mono (translate_walked core (s.ctxOf n) view fam acc va s.walkedTo_self) (walked_memOk h)
  unfold EndsIn engPlace at *
  split
  · exact h
  · generalize translate core (s.ctxOf n) view fam acc va s = r at *
    split <;> exact this

theorem wantLine_memOk (l : Nat) (h : s.memOk) : (wantLine l s).memOk := by
  unfold wantLine
  split <;> exact h

theorem engRead_memOk (core : Option Nat) (ctx : Nat) (view : Mode) (fam : Fam) (va : Word) (n : Nat) (h : s.memOk) :
    EndsIn State.memOk (engRead core ctx view fam va n) s := by
  unfold engRead
  refine ends_bind (engPlace_memOk _ _ _ _ _ _ h) fun l t ht => ends_ite (fun _ => ht) fun _ => ends_get_bind ?_
  dsimp only
  repeat' first
    | exact ends_throw ‹_› _
    | exact ends_pure ‹_› _
    | exact ends_get_bind (ends_pure ‹_› _)
    | refine ends_ite (fun _ => ?_) (fun _ => ?_)
    | refine ends_bind (ends_set (wantLine_memOk _ ‹_›)) (fun _ _ _ => ?_)
    | refine ends_bind (ends_set (serveLine_memOk _ ‹_›)) (fun _ _ _ => ?_)
    | refine ends_bind (ends_set (show State.memOk _ from ‹State.memOk _›)) (fun _ _ _ => ?_)
    | refine ends_bind (ends_throw ‹_› _) (fun _ _ _ => ?_)
    | split

theorem engWrite_memOk (core : Option Nat) (ctx : Nat) (view : Mode) (fam : Fam) (va : Word) (n v : Nat) (h : s.memOk) :
    EndsIn State.memOk (engWrite core ctx view fam va n v) s := by
  unfold engWrite
  refine ends_bind (engPlace_memOk _ _ _ _ _ _ h) fun l t ht => ends_ite (fun _ => ?_) fun _ => ends_get_bind ?_
  · exact ends_modify (show State.memOk _ from ht)
  · exact ends_ite (fun _ => ends_bind (ends_throw ht _) fun _ _ hu => ends_set (pokeN_memOk ht _ _ _))
      fun _ => ends_set (pokeN_memOk ht _ _ _)

theorem engDo_memOk {m : EngM Unit} (hm : EndsIn State.memOk m s) {t : State} (e : engDo m s = some t) : t.memOk := by
  unfold engDo at e
  unfold EndsIn at hm
  split at e <;> rename_i hr <;> simp_all [endState]

theorem imageUpdate_memOk (ctx : Nat) (va : Word) (f : Nat → Nat) (h : s.memOk) : (imageUpdate ctx va f s).memOk := by
  unfold imageUpdate
  split
  · exact h
  · rename_i v _
    cases e : engDo (saveWrite ctx va (f v % 2 ^ 64)) s with
    | none => exact h
    | some t => exact engDo_memOk (engWrite_memOk _ _ _ _ _ _ _ h) e

theorem raiseInt_mem (f v : Nat) (s : State) : (raiseInt f v s).mem = s.mem := by
  unfold raiseInt
  dsimp only
  split <;> rfl

theorem mcWrite_mem (e : BitVec 256) (s : State) : (mcWrite e s).mem = s.mem := by
  unfold mcWrite
  exact raiseInt_mem _ _ _

theorem addFault_mem (vd ctx : Nat) (g c k : BitVec 8) (va : Word) (x : EngineTarget) (s : State) :
    (addFault vd ctx g c k va x s).1.mem = s.mem := by
  unfold addFault
  dsimp only
  split
  · split
    · exact raiseInt_mem _ _ _
    · rfl
  · rfl

/-- A counter moves in the register or in the saved image; memory keeps its form. -/
theorem bumpCounter_memOk (u : Nat) (k : KName) (n : Word) (f : Option OpFail) (h : s.memOk) :
    (bumpCounter u k n f s).memOk := by
  unfold bumpCounter
  split
  · exact h
  · split
    · exact h
    · refine imageUpdate_memOk _ _ _ ?_
      cases f with
      | none => exact h
      | some x => exact imageUpdate_memOk _ _ _ (imageUpdate_memOk _ _ _ h)

theorem foldl_memOk {α : Type} {f : State → α → State} (hf : ∀ t a, t.memOk → (f t a).memOk) (l : List α) (h : s.memOk) :
    (l.foldl f s).memOk := by
  induction l generalizing s with
  | nil => exact h
  | cons a l ih => exact ih (hf _ _ h)

theorem setChunkBits_memOk (t : Transfer) (ks : List Nat) (h : s.memOk) : (setChunkBits t ks s).memOk := by
  unfold setChunkBits
  split
  · exact h
  · split
    · dsimp only
      split <;> exact h
    · split
      · exact h
      · exact foldl_memOk (fun _ _ hu => imageUpdate_memOk _ _ _ hu) _ h

/-! ### Tiles -/

theorem freeSlot_memOk (core n : Nat) (h : s.memOk) : (freeSlot core n s).memOk := memWf_memClear _ _ _ h

theorem tilePoke_memOk (core off : Nat) (bs : List Byte) (h : s.memOk) : (tilePoke core off bs s).memOk :=
  memWf_memWriteBytes _ _ _ h

end

end Sys2Proof.Machine
end

