-- ==== Sys2Proof/Laws/Records.lean ====
section
/-! SUPPORT. The fields of each record's word, and each record read back from them. -/

namespace Sys2Proof

set_option linter.unusedSimpArgs false

theorem frSInt {op : Nat} (ho : op < 256) (x : SInt) :
    FrFields (encSInt op x) 1 op x.d.val x.a.val (srcB x.b) 0 0 (widthCode x.w) (srcI x.b) (srcImm x.b) :=
  fr_fields (by decide) ho (fin_lt _ (by decide)) (fin_lt _ (by decide)) (srcB_lt _) (by decide) (by decide) (by have := widthCode_lt x.w; omega) (by have := srcI_or x.b; omega) (srcImm_lt _)

theorem xSInt_of {n op : Nat} {x : SInt} (h : FrFields n 1 op x.d.val x.a.val (srcB x.b) 0 0 (widthCode x.w) (srcI x.b) (srcImm x.b)) : xSInt n = some x := by
  simp only [xSInt, Option.bind_eq_bind, Option.bind_some, Option.pure_def, Option.map_some, W_of (h.w 6 (by decide)), S_of (h.d 5 (by decide)), S_of (h.a 5 (by decide)), src_of (h.b 5 (by decide)) (show fld _ 47 1 = srcImmBit x.b by rw [h.mod 47 1 (by decide) (by decide)]; have := srcI_bit x.b; have := srcImmBit_lt x.b; omega) (show fld _ 0 32 = srcImm x.b by rw [h.imm 0 32 (by decide)]; have := srcImm_lt x.b; omega)]

theorem frSet (x : Sys2Proof.SSet) :
    FrFields (encSet x) 1 22 x.d.val x.a.val (srcB x.b) 0 0 (widthCode x.w) (srcI x.b + condCode x.cc) (srcImm x.b) :=
  fr_fields (by decide) (by decide) (fin_lt _ (by decide)) (fin_lt _ (by decide)) (srcB_lt _) (by decide) (by decide) (by have := widthCode_lt x.w; omega) (by have := srcI_or x.b; have := condCode_lt x.cc; omega) (srcImm_lt _)

theorem frSel (x : SSel) :
    FrFields (encSel x) 1 23 x.d.val x.a.val (srcB x.b) x.c.val 0 (widthCode x.w) (srcI x.b) (srcImm x.b) :=
  fr_fields (by decide) (by decide) (fin_lt _ (by decide)) (fin_lt _ (by decide)) (srcB_lt _) (fin_lt _ (by decide)) (by decide) (by have := widthCode_lt x.w; omega) (by have := srcI_or x.b; omega) (srcImm_lt _)

theorem frSIntUn {op : Nat} (ho : op < 256) (x : SIntUn) :
    FrFields (encSIntUn op x) 1 op x.d.val x.a.val 0 0 0 (widthCode x.w) 0 0 :=
  fr_fields (by decide) ho (fin_lt _ (by decide)) (fin_lt _ (by decide)) (by decide) (by decide) (by decide) (by have := widthCode_lt x.w; omega) (by decide) (by decide)

theorem xSIntUn_of {n op : Nat} {x : SIntUn} (h : FrFields n 1 op x.d.val x.a.val 0 0 0 (widthCode x.w) 0 0) : xSIntUn n = some x := by
  simp only [xSIntUn, Option.bind_eq_bind, Option.bind_some, Option.pure_def, Option.map_some, W_of (h.w 6 (by decide)), S_of (h.d 5 (by decide)), S_of (h.a 5 (by decide))]

theorem frBfx (x : SBfx) :
    FrFields (encBfx x) 1 27 x.d.val x.a.val 0 0 0 0 (2 ^ 15 + n1 x.sx) (x.len1.toNat * 64 + x.pos.toNat) :=
  fr_fields (by decide) (by decide) (fin_lt _ (by decide)) (fin_lt _ (by decide)) (by decide) (by decide) (by decide) (by decide) (by have := n1_lt x.sx; omega) (by have := x.pos.isLt; have := x.len1.isLt; omega)

theorem frBfi (x : SBfi) :
    FrFields (encBfi x) 1 28 x.d.val x.a.val 0 x.c.val 0 0 (2 ^ 15) (x.len1.toNat * 64 + x.pos.toNat) :=
  fr_fields (by decide) (by decide) (fin_lt _ (by decide)) (fin_lt _ (by decide)) (by decide) (fin_lt _ (by decide)) (by decide) (by decide) (by decide) (by have := x.pos.isLt; have := x.len1.isLt; omega)

theorem frSFp {op : Nat} (ho : op < 256) (x : SFp) :
    FrFields (encSFp op x) 3 op x.d.val x.a.val (srcB x.b) 0 0 (typeCode x.f) (srcI x.b) (srcImm x.b) :=
  fr_fields (by decide) ho (fin_lt _ (by decide)) (fin_lt _ (by decide)) (srcB_lt _) (by decide) (by decide) (by have := typeCode_lt x.f; omega) (by have := srcI_or x.b; omega) (srcImm_lt _)

theorem xSFp_of {n op : Nat} {x : SFp} (h : FrFields n 3 op x.d.val x.a.val (srcB x.b) 0 0 (typeCode x.f) (srcI x.b) (srcImm x.b)) : xSFp n = some x := by
  simp only [xSFp, Option.bind_eq_bind, Option.bind_some, Option.pure_def, Option.map_some, Type_of (h.w 6 (by decide)), S_of (h.d 5 (by decide)), S_of (h.a 5 (by decide)), src_of (h.b 5 (by decide)) (show fld _ 47 1 = srcImmBit x.b by rw [h.mod 47 1 (by decide) (by decide)]; have := srcI_bit x.b; have := srcImmBit_lt x.b; omega) (show fld _ 0 32 = srcImm x.b by rw [h.imm 0 32 (by decide)]; have := srcImm_lt x.b; omega)]

theorem frSFma (x : SFma) :
    FrFields (encSFma x) 3 4 x.d.val x.a.val (srcB x.b) x.c.val 0 (typeCode x.f) (srcI x.b) (srcImm x.b) :=
  fr_fields (by decide) (by decide) (fin_lt _ (by decide)) (fin_lt _ (by decide)) (srcB_lt _) (fin_lt _ (by decide)) (by decide) (by have := typeCode_lt x.f; omega) (by have := srcI_or x.b; omega) (srcImm_lt _)

theorem frSFpUn {op : Nat} (ho : op < 256) (x : SFpUn) :
    FrFields (encSFpUn op x) 3 op x.d.val x.a.val 0 0 0 (typeCode x.f) 0 0 :=
  fr_fields (by decide) ho (fin_lt _ (by decide)) (fin_lt _ (by decide)) (by decide) (by decide) (by decide) (by have := typeCode_lt x.f; omega) (by decide) (by decide)

theorem xSFpUn_of {n op : Nat} {x : SFpUn} (h : FrFields n 3 op x.d.val x.a.val 0 0 0 (typeCode x.f) 0 0) : xSFpUn n = some x := by
  simp only [xSFpUn, Option.bind_eq_bind, Option.bind_some, Option.pure_def, Option.map_some, Type_of (h.w 6 (by decide)), S_of (h.d 5 (by decide)), S_of (h.a 5 (by decide))]

theorem frSFset (x : SFset) :
    FrFields (encSFset x) 3 9 x.d.val x.a.val (srcB x.b) 0 0 (typeCode x.f) (srcI x.b + fcmpCode x.cmp) (srcImm x.b) :=
  fr_fields (by decide) (by decide) (fin_lt _ (by decide)) (fin_lt _ (by decide)) (srcB_lt _) (by decide) (by decide) (by have := typeCode_lt x.f; omega) (by have := srcI_or x.b; have := fcmpCode_lt x.cmp; omega) (srcImm_lt _)

theorem frSFcvt (x : SFcvt) :
    FrFields (encSFcvt x) 3 10 x.d.val x.a.val 0 0 0 (typeCode x.fd) (typeCode x.fs) 0 :=
  fr_fields (by decide) (by decide) (fin_lt _ (by decide)) (fin_lt _ (by decide)) (by decide) (by decide) (by decide) (by have := typeCode_lt x.fd; omega) (by have := typeCode_lt x.fs; omega) (by decide)

theorem frSFsgn (x : SFsgn) :
    FrFields (encSFsgn x) 3 12 x.d.val x.a.val x.b.val 0 0 (typeCode x.f) (fsgnCode x.sel) 0 :=
  fr_fields (by decide) (by decide) (fin_lt _ (by decide)) (fin_lt _ (by decide)) (fin_lt _ (by decide)) (by decide) (by decide) (by have := typeCode_lt x.f; omega) (by have := fsgnCode_lt x.sel; omega) (by decide)

theorem fl_li (x : LImm) : FlFields (encLImm 1 x) 1 x.d.val 0 x.imm.toNat :=
  fl_fields (by decide) (fin_lt _ (by decide)) (by decide) x.imm.isLt

theorem fl_lpc (x : LImm) : FlFields (encLImm 2 x) 2 x.d.val 0 x.imm.toNat :=
  fl_fields (by decide) (fin_lt _ (by decide)) (by decide) x.imm.isLt

theorem fl_jmpl (x : LJump) : FlFields (encLJump 3 x) 3 0 (n1 x.abs) x.imm.toNat :=
  fl_fields (by decide) (by decide) (by have := n1_lt x.abs; omega) x.imm.isLt

theorem fl_calll (x : LJump) : FlFields (encLJump 4 x) 4 0 (n1 x.abs) x.imm.toNat :=
  fl_fields (by decide) (by decide) (by have := n1_lt x.abs; omega) x.imm.isLt

theorem fb_b (x : BrReg) : FbFields (fb 1 x.a.val x.b.val 0 0 (condCode x.cc) 0 x.t) 1 x.a.val x.b.val 0 0 (condCode x.cc) 0 x.t :=
  fb_fields x.t (by decide) (fin_lt _ (by decide)) (fin_lt _ (by decide)) (by decide) (by decide) (by have := condCode_lt x.cc; omega) (by decide)

theorem fb_bi (x : BrImm) : FbFields (fb 2 x.a.val 0 0 0 (condCode x.cc) (x.imm.toNat) x.t) 2 x.a.val 0 0 0 (condCode x.cc) (x.imm.toNat) x.t :=
  fb_fields x.t (by decide) (fin_lt _ (by decide)) (by decide) (by decide) (by decide) (by have := condCode_lt x.cc; omega) (by have := x.imm.isLt; omega)

theorem fb_jmp (t : Target) : FbFields (fb 3 0 0 0 0 0 0 t) 3 0 0 0 0 0 0 t :=
  fb_fields t (by decide) (by decide) (by decide) (by decide) (by decide) (by decide) (by decide)

theorem fb_call (t : Target) : FbFields (fb 4 0 0 0 0 0 0 t) 4 0 0 0 0 0 0 t :=
  fb_fields t (by decide) (by decide) (by decide) (by decide) (by decide) (by decide) (by decide)

theorem fb_jmpr (a : SReg) : FbFields (fb 5 a.val 0 0 0 0 0 noTarget) 5 a.val 0 0 0 0 0 noTarget :=
  fb_fields noTarget (by decide) (fin_lt _ (by decide)) (by decide) (by decide) (by decide) (by decide) (by decide)

theorem fb_callr (a : SReg) : FbFields (fb 6 a.val 0 0 0 0 0 noTarget) 6 a.val 0 0 0 0 0 noTarget :=
  fb_fields noTarget (by decide) (fin_lt _ (by decide)) (by decide) (by decide) (by decide) (by decide) (by decide)

theorem fb_ret : FbFields (fb 7 0 0 0 0 0 0 noTarget) 7 0 0 0 0 0 0 noTarget :=
  fb_fields noTarget (by decide) (by decide) (by decide) (by decide) (by decide) (by decide) (by decide)

theorem fb_strip (x : Strip) : FbFields (encStrip x) 8 x.a.val x.b.val x.c.val x.e.val 0 (x.steps.toNat) x.t :=
  fb_fields x.t (by decide) (fin_lt _ (by decide)) (fin_lt _ (by decide)) (fin_lt _ (by decide)) (fin_lt _ (by decide)) (by decide) (by have := x.steps.isLt; omega)

theorem fb_vloopl (x : VLoop) : FbFields (fb 9 x.a.val 0 x.c.val 0 0 0 x.t) 9 x.a.val 0 x.c.val 0 0 0 x.t :=
  fb_fields x.t (by decide) (fin_lt _ (by decide)) (by decide) (fin_lt _ (by decide)) (by decide) (by decide) (by decide)

theorem fb_bm (x : BrMask) : FbFields (fb 10 x.a.val 0 0 0 (testCode x.test) 0 x.t) 10 x.a.val 0 0 0 (testCode x.test) 0 x.t :=
  fb_fields x.t (by decide) (fin_lt _ (by decide)) (by decide) (by decide) (by decide) (by have := testCode_lt x.test; omega) (by decide)

theorem acqMod_lt (o : Option Scope) : acqMod o < 16384 := by cases o with
  | none => decide
  | some s => have := scopeCode_lt s; simp only [acqMod]; omega
theorem relMod_lt (o : Option Scope) : relMod o < 8192 := by cases o with
  | none => decide
  | some s => have := scopeCode_lt s; simp only [relMod]; omega

theorem acq_of {n : Nat} {o : Option Scope} (h1 : fld n 45 1 = acqMod o / 8192) (h2 : fld n 39 3 = acqMod o / 128 % 8) :
    fAcq n = some o := by
  cases o with
  | none => simp only [fAcq, flag, h1, acqMod]; rfl
  | some s =>
    have := scopeCode_lt s
    have e1 : (2 ^ 13 + scopeCode s * 2 ^ 7) / 8192 = 1 := by omega
    have e2 : (2 ^ 13 + scopeCode s * 2 ^ 7) / 128 % 8 = scopeCode s := by omega
    simp only [fAcq, flag, h1, h2, acqMod, e1, e2, scopeOf_code]; rfl

theorem rel_of {n : Nat} {o : Option Scope} (h1 : fld n 44 1 = relMod o / 4096) (h2 : fld n 39 3 = relMod o / 128 % 8) :
    fRel n = some o := by
  cases o with
  | none => simp only [fRel, flag, h1, relMod]; rfl
  | some s =>
    have := scopeCode_lt s
    have e1 : (2 ^ 12 + scopeCode s * 2 ^ 7) / 4096 = 1 := by omega
    have e2 : (2 ^ 12 + scopeCode s * 2 ^ 7) / 128 % 8 = scopeCode s := by omega
    simp only [fRel, flag, h1, h2, relMod, e1, e2, scopeOf_code]; rfl

theorem relMod_low (o : Option Scope) : relMod o = 4096 * (relMod o / 4096) + 128 * (relMod o / 128 % 8) ∧ relMod o / 4096 < 2 := by
  cases o with
  | none => decide
  | some s => have := scopeCode_lt s; simp only [relMod]; omega

theorem frSLoad (x : SLoad) :
    FrFields (encSLoad x) 5 1 x.d.val x.a.val (srcB x.b) 0 0 (typeCode x.t) (srcI x.b + acqMod x.acq) (srcImm x.b) :=
  fr_fields (by decide) (by decide) (fin_lt _ (by decide)) (fin_lt _ (by decide)) (srcB_lt _) (by decide) (by decide) (by have := typeCode_lt x.t; omega) (by have := srcI_or x.b; have := acqMod_lt x.acq; omega) (srcImm_lt _)

theorem frSStore (x : SStore) :
    FrFields (encSStore x) 5 2 0 x.a.val (srcB x.b) x.c.val 0 (typeCode x.t) (srcI x.b + relMod x.rel + n1 x.unord * 2 ^ 11) (srcImm x.b) :=
  fr_fields (by decide) (by decide) (by decide) (fin_lt _ (by decide)) (srcB_lt _) (fin_lt _ (by decide)) (by decide) (by have := typeCode_lt x.t; omega) (by have := srcI_or x.b; have := relMod_lt x.rel; have := n1_lt x.unord; omega) (srcImm_lt _)

theorem frAmo (x : Amo) :
    FrFields (encAmo x) 5 6 x.d.val x.a.val x.b.val x.c.val 0 (typeCode x.t) (n1 x.acq * 2 ^ 13 + n1 x.rel * 2 ^ 12 + scopeCode x.scope * 2 ^ 7 + amoCode x.op * 2 ^ 3) 0 :=
  fr_fields (by decide) (by decide) (fin_lt _ (by decide)) (fin_lt _ (by decide)) (fin_lt _ (by decide)) (fin_lt _ (by decide)) (by decide) (by have := typeCode_lt x.t; omega) (by have := n1_lt x.acq; have := n1_lt x.rel; have := scopeCode_lt x.scope; have := amoCode_lt x.op; omega) (by decide)

theorem frPLoad (x : PLoad) :
    FrFields (encPLoad x) 5 3 x.d.val x.a.val x.b.val 0 0 0 (n1 x.banked * 2 ^ 13 + pluralCode x.op * 2 ^ 9) x.off.toNat :=
  fr_fields (by decide) (by decide) (fin_lt _ (by decide)) (fin_lt _ (by decide)) (fin_lt _ (by decide)) (by decide) (by decide) (by decide) (by have := n1_lt x.banked; have := pluralCode_lt x.op; omega) (by have := x.off.isLt; omega)

theorem frPStore (x : PStore) :
    FrFields (encPStore x) 5 4 0 x.a.val x.b.val x.c.val 0 0 (n1 x.banked * 2 ^ 13) x.off.toNat :=
  fr_fields (by decide) (by decide) (by decide) (fin_lt _ (by decide)) (fin_lt _ (by decide)) (fin_lt _ (by decide)) (by decide) (by decide) (by have := n1_lt x.banked; omega) (by have := x.off.isLt; omega)

theorem frPAtomic (x : PAtomic) :
    FrFields (encPAtomic x) 5 5 0 x.a.val x.b.val x.c.val 0 0 (n1 x.banked * 2 ^ 13 + pluralCode x.op * 2 ^ 9) x.off.toNat :=
  fr_fields (by decide) (by decide) (by decide) (fin_lt _ (by decide)) (fin_lt _ (by decide)) (fin_lt _ (by decide)) (by decide) (by decide) (by have := n1_lt x.banked; have := pluralCode_lt x.op; omega) (by have := x.off.isLt; omega)

theorem kindBits_lt (k : Kinds) : kindBits k < 128 := by
  have := n1_lt k.v; have := n1_lt k.h; have := n1_lt k.b; have := n1_lt k.f; have := n1_lt k.o; have := n1_lt k.e
  have := n1_lt k.d; unfold kindBits; omega

theorem frFence (x : Fence) :
    FrFields (encFence x) 6 1 0 0 0 0 0 0 (scopeCode x.scope * 2 ^ 7 + (n1 x.kinds.v + 2 * n1 x.kinds.h + 4 * n1 x.kinds.b + 8 * n1 x.kinds.f + 16 * n1 x.kinds.o + 32 * n1 x.kinds.e + 64 * n1 x.kinds.d)) 0 :=
  fr_fields (by decide) (by decide) (by decide) (by decide) (by decide) (by decide) (by decide) (by decide) (by have := scopeCode_lt x.scope; have := kindBits_lt x.kinds; omega) (by decide)

theorem frFsig (x : Fsig) :
    FrFields (encFsig x) 6 2 0 x.a.val (srcB x.b) 0 0 (typeCode x.t) (srcI x.b) (srcImm x.b) :=
  fr_fields (by decide) (by decide) (by decide) (fin_lt _ (by decide)) (srcB_lt _) (by decide) (by decide) (by have := typeCode_lt x.t; omega) (by have := srcI_or x.b; omega) (srcImm_lt _)

theorem fr_bar : FrFields (fr 6 3 0 0 0 0 0 0 0 0) 6 3 0 0 0 0 0 0 0 0 :=
  fr_fields (by decide) (by decide) (by decide) (by decide) (by decide) (by decide) (by decide) (by decide) (by decide) (by decide)

theorem fr_cbar (x : SPair) : FrFields (fr 6 4 0 x.a.val x.b.val 0 0 0 0 0) 6 4 0 x.a.val x.b.val 0 0 0 0 0 :=
  fr_fields (by decide) (by decide) (by decide) (fin_lt _ (by decide)) (fin_lt _ (by decide)) (by decide) (by decide) (by decide) (by decide) (by decide)

theorem frWaitK (x : WaitK) :
    FrFields (encWaitK x) 6 5 x.d.val x.k.val (srcB x.b) 0 0 0 (srcI x.b) (srcImm x.b) :=
  fr_fields (by decide) (by decide) (fin_lt _ (by decide)) (fin_lt _ (by decide)) (srcB_lt _) (by decide) (by decide) (by decide) (by have := srcI_or x.b; omega) (srcImm_lt _)

theorem frKAdd (x : KAdd) :
    FrFields (encKAdd x) 6 6 x.k.val (srcB x.a) 0 0 0 0 (srcI x.a) (srcImm x.a) :=
  fr_fields (by decide) (by decide) (fin_lt _ (by decide)) (srcB_lt _) (by decide) (by decide) (by decide) (by decide) (by have := srcI_or x.a; omega) (srcImm_lt _)

theorem nbC_lt (o : Option SReg) : nbC o < 64 := by cases o with
  | none => decide
  | some r => exact fin_lt r (by decide)
theorem nbMod_lt (o : Option SReg) : nbMod o < 2 := by unfold nbMod; exact n1_lt _
theorem nb_of {n : Nat} {o : Option SReg} (h1 : fld n 32 1 = nbMod o) (h2 : fld n 58 5 = nbC o % 2 ^ 5) : fNb n = o := by
  cases o with
  | none => simp only [fNb, flag, h1, nbMod]; rfl
  | some r => simp only [fNb, flag, h1, nbMod]; exact congrArg some (S_of h2)

theorem frQPut (x : QPut) :
    FrFields (encQPut x) 6 7 x.q.val (srcB x.a) 0 (nbC x.nb) 0 0 (srcI x.a + 2 * n1 x.par + nbMod x.nb) (srcImm x.a) :=
  fr_fields (by decide) (by decide) (fin_lt _ (by decide)) (srcB_lt _) (by decide) (nbC_lt _) (by decide) (by decide) (by have := srcI_or x.a; have := n1_lt x.par; have := nbMod_lt x.nb; omega) (srcImm_lt _)

theorem frQGet (x : QGet) :
    FrFields (encQGet x) 6 8 x.d.val x.q.val 0 (nbC x.nb) 0 0 (nbMod x.nb) 0 :=
  fr_fields (by decide) (by decide) (fin_lt _ (by decide)) (fin_lt _ (by decide)) (by decide) (nbC_lt _) (by decide) (by decide) (by have := nbMod_lt x.nb; omega) (by decide)

theorem frLaunch {op : Nat} (ho : op < 256) (x : Launch) :
    FrFields (encLaunch op x) 6 op x.k.val x.a.val x.b.val x.c.val 0 0 0 0 :=
  fr_fields (by decide) ho (fin_lt _ (by decide)) (fin_lt _ (by decide)) (fin_lt _ (by decide)) (fin_lt _ (by decide)) (by decide) (by decide) (by decide) (by decide)

theorem fr_yield (d : SReg) : FrFields (fr 6 11 d.val 0 0 0 0 0 0 0) 6 11 d.val 0 0 0 0 0 0 0 :=
  fr_fields (by decide) (by decide) (fin_lt _ (by decide)) (by decide) (by decide) (by decide) (by decide) (by decide) (by decide) (by decide)

theorem fr_exit : FrFields (fr 6 12 0 0 0 0 0 0 0 0) 6 12 0 0 0 0 0 0 0 0 :=
  fr_fields (by decide) (by decide) (by decide) (by decide) (by decide) (by decide) (by decide) (by decide) (by decide) (by decide)

theorem frCapture (x : Capture) :
    FrFields (encCapture x) 7 1 x.d.val x.a.val 0 0 0 0 0 x.bm.toNat :=
  fr_fields (by decide) (by decide) (fin_lt _ (by decide)) (fin_lt _ (by decide)) (by decide) (by decide) (by decide) (by decide) (by decide) (by have := x.bm.isLt; omega)

theorem frCapref (x : Capref) :
    FrFields (encCapref x) 7 2 x.d.val x.a.val x.b.val 0 0 0 0 x.bm.toNat :=
  fr_fields (by decide) (by decide) (fin_lt _ (by decide)) (fin_lt _ (by decide)) (fin_lt _ (by decide)) (by decide) (by decide) (by decide) (by decide) (by have := x.bm.isLt; omega)

theorem fr_cdup (d : CName) (a : CName) : FrFields (fr 7 3 d.val a.val 0 0 0 0 0 0) 7 3 d.val a.val 0 0 0 0 0 0 :=
  fr_fields (by decide) (by decide) (fin_lt _ (by decide)) (fin_lt _ (by decide)) (by decide) (by decide) (by decide) (by decide) (by decide) (by decide)

theorem fr_cdrop (a : CName) : FrFields (fr 7 4 0 a.val 0 0 0 0 0 0) 7 4 0 a.val 0 0 0 0 0 0 :=
  fr_fields (by decide) (by decide) (by decide) (fin_lt _ (by decide)) (by decide) (by decide) (by decide) (by decide) (by decide) (by decide)

theorem fr_apply (a : CName) : FrFields (fr 7 5 0 a.val 0 0 0 0 0 0) 7 5 0 a.val 0 0 0 0 0 0 :=
  fr_fields (by decide) (by decide) (by decide) (fin_lt _ (by decide)) (by decide) (by decide) (by decide) (by decide) (by decide) (by decide)

theorem frApplyQ (x : ApplyQ) :
    FrFields (encApplyQ x) 7 6 0 x.a.val x.k.val x.c.val 0 0 0 0 :=
  fr_fields (by decide) (by decide) (by decide) (fin_lt _ (by decide)) (fin_lt _ (by decide)) (fin_lt _ (by decide)) (by decide) (by decide) (by decide) (by decide)

theorem fr_cenv (d : SReg) (k : BitVec 4) : FrFields (fr 7 7 d.val 0 0 0 0 0 (2 ^ 15) k.toNat) 7 7 d.val 0 0 0 0 0 (2 ^ 15) k.toNat :=
  fr_fields (by decide) (by decide) (fin_lt _ (by decide)) (by decide) (by decide) (by decide) (by decide) (by decide) (by decide) (by have := k.isLt; omega)

theorem frCLoad (x : CLoad) :
    FrFields (encCLoad x) 7 8 x.d.val x.a.val 0 0 0 0 (2 ^ 15) x.off.toNat :=
  fr_fields (by decide) (by decide) (fin_lt _ (by decide)) (fin_lt _ (by decide)) (by decide) (by decide) (by decide) (by decide) (by decide) (by have := x.off.isLt; omega)

theorem fr_cldR (d : CName) (a : SReg) : FrFields (fr 7 8 d.val a.val 0 0 0 0 (1) 0) 7 8 d.val a.val 0 0 0 0 (1) 0 :=
  fr_fields (by decide) (by decide) (fin_lt _ (by decide)) (fin_lt _ (by decide)) (by decide) (by decide) (by decide) (by decide) (by decide) (by decide)

theorem frCStore (x : CStore) :
    FrFields (encCStore x) 7 9 0 x.a.val 0 x.c.val 0 0 (2 ^ 15) x.off.toNat :=
  fr_fields (by decide) (by decide) (by decide) (fin_lt _ (by decide)) (by decide) (fin_lt _ (by decide)) (by decide) (by decide) (by decide) (by have := x.off.isLt; omega)

theorem fr_cstR (d : SReg) (c : CName) : FrFields (fr 7 9 d.val 0 0 c.val 0 0 (1) 0) 7 9 d.val 0 0 c.val 0 0 (1) 0 :=
  fr_fields (by decide) (by decide) (fin_lt _ (by decide)) (by decide) (by decide) (fin_lt _ (by decide)) (by decide) (by decide) (by decide) (by decide)

theorem fr_trap (n : BitVec 16) : FrFields (fr 8 1 0 0 0 0 0 0 (2 ^ 15) n.toNat) 8 1 0 0 0 0 0 0 (2 ^ 15) n.toNat :=
  fr_fields (by decide) (by decide) (by decide) (by decide) (by decide) (by decide) (by decide) (by decide) (by decide) (by have := n.isLt; omega)

theorem fr_eret : FrFields (fr 8 2 0 0 0 0 0 0 0 0) 8 2 0 0 0 0 0 0 0 0 :=
  fr_fields (by decide) (by decide) (by decide) (by decide) (by decide) (by decide) (by decide) (by decide) (by decide) (by decide)

theorem frCsr {op : Nat} (ho : op < 256) (x : Csr) :
    FrFields (encCsr op x) 8 op x.d.val x.a.val 0 0 0 0 0 x.csr.toNat :=
  fr_fields (by decide) ho (fin_lt _ (by decide)) (fin_lt _ (by decide)) (by decide) (by decide) (by decide) (by decide) (by decide) (by have := x.csr.isLt; omega)

theorem fr_tlbiAll : FrFields (fr 8 7 0 0 0 0 0 0 0 0) 8 7 0 0 0 0 0 0 0 0 :=
  fr_fields (by decide) (by decide) (by decide) (by decide) (by decide) (by decide) (by decide) (by decide) (by decide) (by decide)

theorem fr_tlbiAsid (b : SReg) : FrFields (fr 8 7 0 0 b.val 0 0 0 (1) 0) 8 7 0 0 b.val 0 0 0 (1) 0 :=
  fr_fields (by decide) (by decide) (by decide) (by decide) (fin_lt _ (by decide)) (by decide) (by decide) (by decide) (by decide) (by decide)

theorem fr_tlbiVa (x : SPair) : FrFields (fr 8 7 0 x.a.val x.b.val 0 0 0 (2) 0) 8 7 0 x.a.val x.b.val 0 0 0 (2) 0 :=
  fr_fields (by decide) (by decide) (by decide) (fin_lt _ (by decide)) (fin_lt _ (by decide)) (by decide) (by decide) (by decide) (by decide) (by decide)

theorem fr_ctxsave (x : S3) : FrFields (fr 8 8 x.d.val x.a.val x.b.val 0 0 0 0 0) 8 8 x.d.val x.a.val x.b.val 0 0 0 0 0 :=
  fr_fields (by decide) (by decide) (fin_lt _ (by decide)) (fin_lt _ (by decide)) (fin_lt _ (by decide)) (by decide) (by decide) (by decide) (by decide) (by decide)

theorem fr_ctxload (x : S3) : FrFields (fr 8 9 x.d.val x.a.val x.b.val 0 0 0 0 0) 8 9 x.d.val x.a.val x.b.val 0 0 0 0 0 :=
  fr_fields (by decide) (by decide) (fin_lt _ (by decide)) (fin_lt _ (by decide)) (fin_lt _ (by decide)) (by decide) (by decide) (by decide) (by decide) (by decide)

theorem fr_wfe (x : S3) : FrFields (fr 8 12 x.d.val x.a.val x.b.val 0 0 0 0 0) 8 12 x.d.val x.a.val x.b.val 0 0 0 0 0 :=
  fr_fields (by decide) (by decide) (fin_lt _ (by decide)) (fin_lt _ (by decide)) (fin_lt _ (by decide)) (by decide) (by decide) (by decide) (by decide) (by decide)

theorem fr_logctlSync (x : LogSync) : FrFields (fr 8 10 x.d.val 0 0 0 0 0 (4 * n1 x.order) 0) 8 10 x.d.val 0 0 0 0 0 (4 * n1 x.order) 0 :=
  fr_fields (by decide) (by decide) (fin_lt _ (by decide)) (by decide) (by decide) (by decide) (by decide) (by decide) (by have := n1_lt x.order; omega) (by decide)

theorem fr_logctlMark (x : S2) : FrFields (fr 8 10 x.d.val x.a.val 0 0 0 0 (5) 0) 8 10 x.d.val x.a.val 0 0 0 0 (5) 0 :=
  fr_fields (by decide) (by decide) (fin_lt _ (by decide)) (fin_lt _ (by decide)) (by decide) (by decide) (by decide) (by decide) (by decide) (by decide)

theorem frLogSwap (x : LogSwap) :
    FrFields (encLogSwap x) 8 10 x.d.val x.a.val x.b.val 0 0 0 (4 * n1 x.order + 2) 0 :=
  fr_fields (by decide) (by decide) (fin_lt _ (by decide)) (fin_lt _ (by decide)) (fin_lt _ (by decide)) (by decide) (by decide) (by decide) (by have := n1_lt x.order; omega) (by decide)

theorem fr_halt : FrFields (fr 8 11 0 0 0 0 0 0 0 0) 8 11 0 0 0 0 0 0 0 0 :=
  fr_fields (by decide) (by decide) (by decide) (by decide) (by decide) (by decide) (by decide) (by decide) (by decide) (by decide)

theorem frVCfg (x : VCfg) :
    FrFields (encVCfg x) 16 1 x.d.val 0 0 0 0 0 (2 ^ 15) (x.grp.toNat * 16 + x.ew.toNat) :=
  fr_fields (by decide) (by decide) (fin_lt _ (by decide)) (by decide) (by decide) (by decide) (by decide) (by decide) (by decide) (by have := x.grp.isLt; have := x.ew.isLt; omega)

theorem frSetVl (x : SetVl) :
    FrFields (encSetVl x) 16 2 x.d.val (srcB x.a) 0 0 0 0 (srcI x.a) (srcImm x.a) :=
  fr_fields (by decide) (by decide) (fin_lt _ (by decide)) (srcB_lt _) (by decide) (by decide) (by decide) (by decide) (by have := srcI_or x.a; omega) (srcImm_lt _)

theorem frMCpt (x : MCpt) :
    FrFields (encMCpt x) 16 3 x.d.val (srcB x.a) 0 0 0 0 (srcI x.a) (srcImm x.a) :=
  fr_fields (by decide) (by decide) (fin_lt _ (by decide)) (srcB_lt _) (by decide) (by decide) (by decide) (by decide) (by have := srcI_or x.a; omega) (srcImm_lt _)

theorem frM2 {cls op : Nat} (hk : cls < 64) (ho : op < 256) (x : M2) :
    FrFields (encM2 cls op x) cls op x.d.val x.a.val 0 0 0 0 0 0 :=
  fr_fields hk ho (fin_lt _ (by decide)) (fin_lt _ (by decide)) (by decide) (by decide) (by decide) (by decide) (by decide) (by decide)

theorem frVOp {cls op : Nat} (hk : cls < 64) (ho : op < 256) (x : VOp) :
    FrFields (encVOp cls op x) cls op x.d.val x.a.val (vsrcB x.b) 0 x.m.val (typeCode x.t) (vsrcMod x.b) (vsrcImm x.b) :=
  fr_fields hk ho (fin_lt _ (by decide)) (fin_lt _ (by decide)) (vsrcB_lt _) (by decide) (fin_lt _ (by decide)) (by have := typeCode_lt x.t; omega) (by have := vsrcMod_or x.b; omega) (vsrcImm_lt _)

theorem xVOp_of {n cls op : Nat} {x : VOp} (h : FrFields n cls op x.d.val x.a.val (vsrcB x.b) 0 x.m.val (typeCode x.t) (vsrcMod x.b) (vsrcImm x.b)) : xVOp n = some x := by
  simp only [xVOp, Option.bind_eq_bind, Option.bind_some, Option.pure_def, Option.map_some, Type_of (h.w 6 (by decide)), V_of (h.d 5 (by decide)), V_of (h.a 5 (by decide)), M_of (h.m 4 (by decide)), vsrc_of (h.b 5 (by decide)) (show fld _ 47 1 = vsrcMod x.b / 32768 by rw [h.mod 47 1 (by decide) (by decide)]; have := vsrcMod_or x.b; omega) (show fld _ 46 1 = vsrcMod x.b / 16384 % 2 by rw [h.mod 46 1 (by decide) (by decide)]; have := vsrcMod_or x.b; omega) (show fld _ 0 32 = vsrcImm x.b by rw [h.imm 0 32 (by decide)]; have := vsrcImm_lt x.b; omega)]

theorem frVUn {cls op : Nat} (hk : cls < 64) (ho : op < 256) (x : VUn) :
    FrFields (encVUn cls op x) cls op x.d.val x.a.val 0 0 x.m.val (typeCode x.t) 0 0 :=
  fr_fields hk ho (fin_lt _ (by decide)) (fin_lt _ (by decide)) (by decide) (by decide) (fin_lt _ (by decide)) (by have := typeCode_lt x.t; omega) (by decide) (by decide)

theorem xVUn_of {n cls op : Nat} {x : VUn} (h : FrFields n cls op x.d.val x.a.val 0 0 x.m.val (typeCode x.t) 0 0) : xVUn n = some x := by
  simp only [xVUn, Option.bind_eq_bind, Option.bind_some, Option.pure_def, Option.map_some, Type_of (h.w 6 (by decide)), V_of (h.d 5 (by decide)), V_of (h.a 5 (by decide)), M_of (h.m 4 (by decide))]

theorem frVCmp (x : VCmp) :
    FrFields (encVCmp x) 17 22 x.d.val x.a.val (vsrcB x.b) 0 x.m.val (typeCode x.t) (vsrcMod x.b + condCode x.cc) (vsrcImm x.b) :=
  fr_fields (by decide) (by decide) (fin_lt _ (by decide)) (fin_lt _ (by decide)) (vsrcB_lt _) (by decide) (fin_lt _ (by decide)) (by have := typeCode_lt x.t; omega) (by have := vsrcMod_or x.b; have := condCode_lt x.cc; omega) (vsrcImm_lt _)

theorem frVFma (x : VFma) :
    FrFields (encVFma x) 18 4 x.d.val x.a.val (vsrcB x.b) x.c.val x.m.val (typeCode x.t) (vsrcMod x.b) (vsrcImm x.b) :=
  fr_fields (by decide) (by decide) (fin_lt _ (by decide)) (fin_lt _ (by decide)) (vsrcB_lt _) (fin_lt _ (by decide)) (fin_lt _ (by decide)) (by have := typeCode_lt x.t; omega) (by have := vsrcMod_or x.b; omega) (vsrcImm_lt _)

theorem frVFcmp (x : VFcmp) :
    FrFields (encVFcmp x) 18 9 x.d.val x.a.val (vsrcB x.b) 0 x.m.val (typeCode x.t) (vsrcMod x.b + fcmpCode x.cmp) (vsrcImm x.b) :=
  fr_fields (by decide) (by decide) (fin_lt _ (by decide)) (fin_lt _ (by decide)) (vsrcB_lt _) (by decide) (fin_lt _ (by decide)) (by have := typeCode_lt x.t; omega) (by have := vsrcMod_or x.b; have := fcmpCode_lt x.cmp; omega) (vsrcImm_lt _)

theorem frVFsgn (x : VFsgn) :
    FrFields (encVFsgn x) 18 14 x.d.val x.a.val (vsrcB x.b) 0 x.m.val (typeCode x.t) (vsrcMod x.b + fsgnCode x.sel) (vsrcImm x.b) :=
  fr_fields (by decide) (by decide) (fin_lt _ (by decide)) (fin_lt _ (by decide)) (vsrcB_lt _) (by decide) (fin_lt _ (by decide)) (by have := typeCode_lt x.t; omega) (by have := vsrcMod_or x.b; have := fsgnCode_lt x.sel; omega) (vsrcImm_lt _)

theorem frVConv {op : Nat} (ho : op < 256) (x : VConv) :
    FrFields (encVConv op x) 19 op x.d.val x.a.val 0 0 x.m.val (typeCode x.w) (x.satm.val * 2 ^ 9 + n1 x.amx * 2 ^ 8 + typeCode x.src) 0 :=
  fr_fields (by decide) ho (fin_lt _ (by decide)) (fin_lt _ (by decide)) (by decide) (by decide) (fin_lt _ (by decide)) (by have := typeCode_lt x.w; omega) (by have := typeCode_lt x.src; have := n1_lt x.amx; have := x.satm.isLt; omega) (by decide)

theorem xVConv_of {n op : Nat} {x : VConv} (h : FrFields n 19 op x.d.val x.a.val 0 0 x.m.val (typeCode x.w) (x.satm.val * 2 ^ 9 + n1 x.amx * 2 ^ 8 + typeCode x.src) 0) : xVConv n = some x := by
  simp only [xVConv, Option.bind_eq_bind, Option.bind_some, Option.pure_def, Option.map_some, Type_of (h.w 6 (by decide)), (show typeOf (fld _ 32 6) = some x.src by rw [h.mod 32 6 (by decide) (by decide), show (x.satm.val * 2 ^ 9 + n1 x.amx * 2 ^ 8 + typeCode x.src) / 2 ^ (32 - 32) % 2 ^ 6 = typeCode x.src by have := typeCode_lt x.src; have := n1_lt x.amx; have := x.satm.isLt; have := typeCode_lt x.src; omega, typeOf_code]), V_of (h.d 5 (by decide)), V_of (h.a 5 (by decide)), M_of (h.m 4 (by decide)), M_of (show fld _ 41 4 = x.satm.val % 2 ^ 4 by rw [h.mod 41 4 (by decide) (by decide)]; have := typeCode_lt x.src; have := n1_lt x.amx; have := x.satm.isLt; omega), flag_of (show fld _ 40 1 = n1 x.amx by rw [h.mod 40 1 (by decide) (by decide)]; have := typeCode_lt x.src; have := n1_lt x.amx; have := x.satm.isLt; omega)]

theorem frVRed (x : VRed) :
    FrFields (encVRed x) 20 1 x.d.val x.a.val x.b.val 0 x.m.val (typeCode x.t) (redCode x.op) 0 :=
  fr_fields (by decide) (by decide) (fin_lt _ (by decide)) (fin_lt _ (by decide)) (fin_lt _ (by decide)) (by decide) (fin_lt _ (by decide)) (by have := typeCode_lt x.t; omega) (by have := redCode_lt x.op; omega) (by decide)

theorem frVFRed (x : VFRed) :
    FrFields (encVFRed x) 20 2 x.d.val x.a.val x.b.val 0 x.m.val (typeCode x.t) (fredCode x.op) 0 :=
  fr_fields (by decide) (by decide) (fin_lt _ (by decide)) (fin_lt _ (by decide)) (fin_lt _ (by decide)) (by decide) (fin_lt _ (by decide)) (by have := typeCode_lt x.t; omega) (by have := fredCode_lt x.op; omega) (by decide)

theorem frVScan (x : VScan) :
    FrFields (encVScan x) 20 3 x.d.val x.a.val x.b.val x.c.val x.m.val (typeCode x.t) (n1 x.excl * 16 + redCode x.op) 0 :=
  fr_fields (by decide) (by decide) (fin_lt _ (by decide)) (fin_lt _ (by decide)) (fin_lt _ (by decide)) (fin_lt _ (by decide)) (fin_lt _ (by decide)) (by have := typeCode_lt x.t; omega) (by have := redCode_lt x.op; have := n1_lt x.excl; omega) (by decide)

theorem frVFScan (x : VFScan) :
    FrFields (encVFScan x) 20 4 x.d.val x.a.val x.b.val x.c.val x.m.val (typeCode x.t) (n1 x.excl * 16 + fredCode x.op) 0 :=
  fr_fields (by decide) (by decide) (fin_lt _ (by decide)) (fin_lt _ (by decide)) (fin_lt _ (by decide)) (fin_lt _ (by decide)) (fin_lt _ (by decide)) (by have := typeCode_lt x.t; omega) (by have := fredCode_lt x.op; have := n1_lt x.excl; omega) (by decide)

theorem frVSlide {op : Nat} (ho : op < 256) (x : VSlide) :
    FrFields (encVSlide op x) 21 op x.d.val x.a.val (srcB x.n) x.c.val x.m.val (typeCode x.t) (siMod x.n) (srcImm x.n) :=
  fr_fields (by decide) ho (fin_lt _ (by decide)) (fin_lt _ (by decide)) (srcB_lt _) (fin_lt _ (by decide)) (fin_lt _ (by decide)) (by have := typeCode_lt x.t; omega) (by have := siMod_or x.n; omega) (srcImm_lt _)

theorem xVSlide_of {n op : Nat} {x : VSlide} (h : FrFields n 21 op x.d.val x.a.val (srcB x.n) x.c.val x.m.val (typeCode x.t) (siMod x.n) (srcImm x.n)) : xVSlide n = some x := by
  simp only [xVSlide, Option.bind_eq_bind, Option.bind_some, Option.pure_def, Option.map_some, Type_of (h.w 6 (by decide)), V_of (h.d 5 (by decide)), V_of (h.a 5 (by decide)), S_of (h.c 5 (by decide)), M_of (h.m 4 (by decide)), src_of (h.b 5 (by decide)) (show fld _ 47 1 = srcImmBit x.n by rw [h.mod 47 1 (by decide) (by decide)]; have := siMod_bit x.n; have := srcImmBit_lt x.n; omega) (show fld _ 0 32 = srcImm x.n by rw [h.imm 0 32 (by decide)]; have := srcImm_lt x.n; omega)]

theorem frVComp (x : VComp) :
    FrFields (encVComp x) 21 4 x.d.val x.a.val 0 x.c.val x.m.val (typeCode x.t) 0 0 :=
  fr_fields (by decide) (by decide) (fin_lt _ (by decide)) (fin_lt _ (by decide)) (by decide) (fin_lt _ (by decide)) (fin_lt _ (by decide)) (by have := typeCode_lt x.t; omega) (by decide) (by decide)

theorem frVBsh {op : Nat} (ho : op < 256) (x : VBsh) :
    FrFields (encVBsh op x) 21 op x.d.val x.a.val (srcB x.n) 0 x.m.val (typeCode x.t) (siMod x.n) (srcImm x.n) :=
  fr_fields (by decide) ho (fin_lt _ (by decide)) (fin_lt _ (by decide)) (srcB_lt _) (by decide) (fin_lt _ (by decide)) (by have := typeCode_lt x.t; omega) (by have := siMod_or x.n; omega) (srcImm_lt _)

theorem xVBsh_of {n op : Nat} {x : VBsh} (h : FrFields n 21 op x.d.val x.a.val (srcB x.n) 0 x.m.val (typeCode x.t) (siMod x.n) (srcImm x.n)) : xVBsh n = some x := by
  simp only [xVBsh, Option.bind_eq_bind, Option.bind_some, Option.pure_def, Option.map_some, Type_of (h.w 6 (by decide)), V_of (h.d 5 (by decide)), V_of (h.a 5 (by decide)), M_of (h.m 4 (by decide)), src_of (h.b 5 (by decide)) (show fld _ 47 1 = srcImmBit x.n by rw [h.mod 47 1 (by decide) (by decide)]; have := siMod_bit x.n; have := srcImmBit_lt x.n; omega) (show fld _ 0 32 = srcImm x.n by rw [h.imm 0 32 (by decide)]; have := srcImm_lt x.n; omega)]

theorem frVFnl (x : VFnl) :
    FrFields (encVFnl x) 21 8 x.d.val x.a.val x.b.val x.c.val x.m.val (typeCode x.t) 0 0 :=
  fr_fields (by decide) (by decide) (fin_lt _ (by decide)) (fin_lt _ (by decide)) (fin_lt _ (by decide)) (fin_lt _ (by decide)) (fin_lt _ (by decide)) (by have := typeCode_lt x.t; omega) (by decide) (by decide)

theorem frVMvs (x : VMvs) :
    FrFields (encVMvs x) 21 9 x.d.val x.a.val (srcB x.j) 0 0 (typeCode x.t) (siMod x.j) (srcImm x.j) :=
  fr_fields (by decide) (by decide) (fin_lt _ (by decide)) (fin_lt _ (by decide)) (srcB_lt _) (by decide) (by decide) (by have := typeCode_lt x.t; omega) (by have := siMod_or x.j; omega) (srcImm_lt _)

theorem frVMvx (x : VMvx) :
    FrFields (encVMvx x) 21 10 x.d.val x.a.val (srcB x.j) 0 0 (typeCode x.t) (siMod x.j) (srcImm x.j) :=
  fr_fields (by decide) (by decide) (fin_lt _ (by decide)) (fin_lt _ (by decide)) (srcB_lt _) (by decide) (by decide) (by have := typeCode_lt x.t; omega) (by have := siMod_or x.j; omega) (srcImm_lt _)

theorem frVId (x : VId) :
    FrFields (encVId x) 21 11 x.d.val x.a.val 0 0 x.m.val (typeCode x.t) (2 ^ 15) x.step.toNat :=
  fr_fields (by decide) (by decide) (fin_lt _ (by decide)) (fin_lt _ (by decide)) (by decide) (by decide) (fin_lt _ (by decide)) (by have := typeCode_lt x.t; omega) (by decide) (by have := x.step.isLt; omega)

theorem frM3 {op : Nat} (ho : op < 256) (x : M3) :
    FrFields (encM3 op x) 22 op x.d.val x.a.val x.b.val 0 0 0 0 0 :=
  fr_fields (by decide) ho (fin_lt _ (by decide)) (fin_lt _ (by decide)) (fin_lt _ (by decide)) (by decide) (by decide) (by decide) (by decide) (by decide)

theorem frMToS {op : Nat} (ho : op < 256) (x : MToS) :
    FrFields (encMToS op x) 22 op x.d.val x.a.val 0 0 0 0 0 0 :=
  fr_fields (by decide) ho (fin_lt _ (by decide)) (fin_lt _ (by decide)) (by decide) (by decide) (by decide) (by decide) (by decide) (by decide)

theorem frVSPush (x : VSPush) :
    FrFields (encVSPush x) 23 1 x.q.val x.a.val 0 x.c.val x.m.val (typeCode x.t) 0 0 :=
  fr_fields (by decide) (by decide) (fin_lt _ (by decide)) (fin_lt _ (by decide)) (by decide) (fin_lt _ (by decide)) (fin_lt _ (by decide)) (by have := typeCode_lt x.t; omega) (by decide) (by decide)

theorem frVSPop (x : VSPop) :
    FrFields (encVSPop x) 23 2 x.d.val x.q.val 0 x.c.val x.m.val (typeCode x.t) (n1 x.nb) 0 :=
  fr_fields (by decide) (by decide) (fin_lt _ (by decide)) (fin_lt _ (by decide)) (by decide) (fin_lt _ (by decide)) (fin_lt _ (by decide)) (by have := typeCode_lt x.t; omega) (by have := n1_lt x.nb; omega) (by decide)

theorem frVMemL {op : Nat} (ho : op < 256) (x : VMem) :
    FrFields (encVMem op true x) 24 op x.v.val x.a.val 0 0 x.m.val (typeCode x.t) (n1 x.unord * 2 ^ 13) x.off.toNat :=
  fr_fields (by decide) ho (by have := x.v.isLt; simp; omega) (fin_lt _ (by decide)) (by decide) (by simp) (fin_lt _ (by decide)) (by have := typeCode_lt x.t; omega) (by have := n1_lt x.unord; omega) (by have := x.off.isLt; omega)

theorem xVMemL_of {n op : Nat} {x : VMem} (h : FrFields n 24 op x.v.val x.a.val 0 0 x.m.val (typeCode x.t) (n1 x.unord * 2 ^ 13) x.off.toNat) : xVMem n 76 = some x := by
  simp only [xVMem, Option.map_some, Type_of (h.w 6 (by decide)), V_of (h.d 5 (by decide)), S_of (h.a 5 (by decide)), M_of (h.m 4 (by decide)), imm_of x.off (show fld _ 0 32 = x.off.toNat by rw [h.imm 0 32 (by decide)]; have := x.off.isLt; omega), flag_of (show fld _ 45 1 = n1 x.unord by rw [h.mod 45 1 (by decide) (by decide)]; have := n1_lt x.unord; omega)]

theorem frVMemSt {op : Nat} (ho : op < 256) (x : VMem) :
    FrFields (encVMem op false x) 24 op 0 x.a.val 0 x.v.val x.m.val (typeCode x.t) (n1 x.unord * 2 ^ 13) x.off.toNat :=
  fr_fields (by decide) ho (by simp) (fin_lt _ (by decide)) (by decide) (by have := x.v.isLt; simp; omega) (fin_lt _ (by decide)) (by have := typeCode_lt x.t; omega) (by have := n1_lt x.unord; omega) (by have := x.off.isLt; omega)

theorem xVMemSt_of {n op : Nat} {x : VMem} (h : FrFields n 24 op 0 x.a.val 0 x.v.val x.m.val (typeCode x.t) (n1 x.unord * 2 ^ 13) x.off.toNat) : xVMem n 58 = some x := by
  simp only [xVMem, Option.map_some, Type_of (h.w 6 (by decide)), V_of (h.c 5 (by decide)), S_of (h.a 5 (by decide)), M_of (h.m 4 (by decide)), imm_of x.off (show fld _ 0 32 = x.off.toNat by rw [h.imm 0 32 (by decide)]; have := x.off.isLt; omega), flag_of (show fld _ 45 1 = n1 x.unord by rw [h.mod 45 1 (by decide) (by decide)]; have := n1_lt x.unord; omega)]

theorem frVMemSL {op : Nat} (ho : op < 256) (x : VMemS) :
    FrFields (encVMemS op true x) 24 op x.v.val x.a.val x.b.val 0 x.m.val (typeCode x.t) (n1 x.unord * 2 ^ 13) x.off.toNat :=
  fr_fields (by decide) ho (by have := x.v.isLt; simp; omega) (fin_lt _ (by decide)) (fin_lt _ (by decide)) (by simp) (fin_lt _ (by decide)) (by have := typeCode_lt x.t; omega) (by have := n1_lt x.unord; omega) (by have := x.off.isLt; omega)

theorem xVMemSL_of {n op : Nat} {x : VMemS} (h : FrFields n 24 op x.v.val x.a.val x.b.val 0 x.m.val (typeCode x.t) (n1 x.unord * 2 ^ 13) x.off.toNat) : xVMemS n 76 = some x := by
  simp only [xVMemS, Option.map_some, Type_of (h.w 6 (by decide)), V_of (h.d 5 (by decide)), S_of (h.a 5 (by decide)), M_of (h.m 4 (by decide)), imm_of x.off (show fld _ 0 32 = x.off.toNat by rw [h.imm 0 32 (by decide)]; have := x.off.isLt; omega), S_of (h.b 5 (by decide)), flag_of (show fld _ 45 1 = n1 x.unord by rw [h.mod 45 1 (by decide) (by decide)]; have := n1_lt x.unord; omega)]

theorem frVMemSSt {op : Nat} (ho : op < 256) (x : VMemS) :
    FrFields (encVMemS op false x) 24 op 0 x.a.val x.b.val x.v.val x.m.val (typeCode x.t) (n1 x.unord * 2 ^ 13) x.off.toNat :=
  fr_fields (by decide) ho (by simp) (fin_lt _ (by decide)) (fin_lt _ (by decide)) (by have := x.v.isLt; simp; omega) (fin_lt _ (by decide)) (by have := typeCode_lt x.t; omega) (by have := n1_lt x.unord; omega) (by have := x.off.isLt; omega)

theorem xVMemSSt_of {n op : Nat} {x : VMemS} (h : FrFields n 24 op 0 x.a.val x.b.val x.v.val x.m.val (typeCode x.t) (n1 x.unord * 2 ^ 13) x.off.toNat) : xVMemS n 58 = some x := by
  simp only [xVMemS, Option.map_some, Type_of (h.w 6 (by decide)), V_of (h.c 5 (by decide)), S_of (h.a 5 (by decide)), M_of (h.m 4 (by decide)), imm_of x.off (show fld _ 0 32 = x.off.toNat by rw [h.imm 0 32 (by decide)]; have := x.off.isLt; omega), S_of (h.b 5 (by decide)), flag_of (show fld _ 45 1 = n1 x.unord by rw [h.mod 45 1 (by decide) (by decide)]; have := n1_lt x.unord; omega)]

theorem frVMemGL {op : Nat} (ho : op < 256) (x : VMemG) :
    FrFields (encVMemG op true x) 24 op x.v.val x.a.val 0 0 x.m.val (typeCode x.t) (n1 x.unord * 2 ^ 13 + x.nf1.toNat * 2 ^ 7) x.off.toNat :=
  fr_fields (by decide) ho (by have := x.v.isLt; simp; omega) (fin_lt _ (by decide)) (by decide) (by simp) (fin_lt _ (by decide)) (by have := typeCode_lt x.t; omega) (by have := n1_lt x.unord; have := x.nf1.isLt; omega) (by have := x.off.isLt; omega)

theorem xVMemGL_of {n op : Nat} {x : VMemG} (h : FrFields n 24 op x.v.val x.a.val 0 0 x.m.val (typeCode x.t) (n1 x.unord * 2 ^ 13 + x.nf1.toNat * 2 ^ 7) x.off.toNat) : xVMemG n 76 = some x := by
  simp only [xVMemG, Option.map_some, Type_of (h.w 6 (by decide)), V_of (h.d 5 (by decide)), S_of (h.a 5 (by decide)), M_of (h.m 4 (by decide)), imm_of x.off (show fld _ 0 32 = x.off.toNat by rw [h.imm 0 32 (by decide)]; have := x.off.isLt; omega), flag_of (show fld _ 45 1 = n1 x.unord by rw [h.mod 45 1 (by decide) (by decide)]; have := n1_lt x.unord; have := x.nf1.isLt; omega), bv_of x.nf1 (show fld _ 39 3 = x.nf1.toNat by rw [h.mod 39 3 (by decide) (by decide)]; have := n1_lt x.unord; have := x.nf1.isLt; omega)]

theorem frVMemGSt {op : Nat} (ho : op < 256) (x : VMemG) :
    FrFields (encVMemG op false x) 24 op 0 x.a.val 0 x.v.val x.m.val (typeCode x.t) (n1 x.unord * 2 ^ 13 + x.nf1.toNat * 2 ^ 7) x.off.toNat :=
  fr_fields (by decide) ho (by simp) (fin_lt _ (by decide)) (by decide) (by have := x.v.isLt; simp; omega) (fin_lt _ (by decide)) (by have := typeCode_lt x.t; omega) (by have := n1_lt x.unord; have := x.nf1.isLt; omega) (by have := x.off.isLt; omega)

theorem xVMemGSt_of {n op : Nat} {x : VMemG} (h : FrFields n 24 op 0 x.a.val 0 x.v.val x.m.val (typeCode x.t) (n1 x.unord * 2 ^ 13 + x.nf1.toNat * 2 ^ 7) x.off.toNat) : xVMemG n 58 = some x := by
  simp only [xVMemG, Option.map_some, Type_of (h.w 6 (by decide)), V_of (h.c 5 (by decide)), S_of (h.a 5 (by decide)), M_of (h.m 4 (by decide)), imm_of x.off (show fld _ 0 32 = x.off.toNat by rw [h.imm 0 32 (by decide)]; have := x.off.isLt; omega), flag_of (show fld _ 45 1 = n1 x.unord by rw [h.mod 45 1 (by decide) (by decide)]; have := n1_lt x.unord; have := x.nf1.isLt; omega), bv_of x.nf1 (show fld _ 39 3 = x.nf1.toNat by rw [h.mod 39 3 (by decide) (by decide)]; have := n1_lt x.unord; have := x.nf1.isLt; omega)]

theorem frVMemXL {op : Nat} (ho : op < 256) (x : VMemX) :
    FrFields (encVMemX op true x) 24 op x.v.val x.a.val x.b.val 0 x.m.val (typeCode x.t) (n1 x.unord * 2 ^ 13 + n1 x.scl * 2 ^ 12 + ixCode x.ix * 2 ^ 10) x.off.toNat :=
  fr_fields (by decide) ho (by have := x.v.isLt; simp; omega) (fin_lt _ (by decide)) (fin_lt _ (by decide)) (by simp) (fin_lt _ (by decide)) (by have := typeCode_lt x.t; omega) (by have := n1_lt x.unord; have := n1_lt x.scl; have := ixCode_lt x.ix; omega) (by have := x.off.isLt; omega)

theorem xVMemXL_of {n op : Nat} {x : VMemX} (h : FrFields n 24 op x.v.val x.a.val x.b.val 0 x.m.val (typeCode x.t) (n1 x.unord * 2 ^ 13 + n1 x.scl * 2 ^ 12 + ixCode x.ix * 2 ^ 10) x.off.toNat) : xVMemX n 76 = some x := by
  simp only [xVMemX, Option.map_some, Type_of (h.w 6 (by decide)), V_of (h.d 5 (by decide)), S_of (h.a 5 (by decide)), M_of (h.m 4 (by decide)), imm_of x.off (show fld _ 0 32 = x.off.toNat by rw [h.imm 0 32 (by decide)]; have := x.off.isLt; omega), V_of (h.b 5 (by decide)), flag_of (show fld _ 45 1 = n1 x.unord by rw [h.mod 45 1 (by decide) (by decide)]; have := n1_lt x.unord; have := n1_lt x.scl; have := ixCode_lt x.ix; omega), flag_of (show fld _ 44 1 = n1 x.scl by rw [h.mod 44 1 (by decide) (by decide)]; have := n1_lt x.unord; have := n1_lt x.scl; have := ixCode_lt x.ix; omega), (show ixOf (fld _ 42 2) = x.ix by rw [h.mod 42 2 (by decide) (by decide), show (n1 x.unord * 2 ^ 13 + n1 x.scl * 2 ^ 12 + ixCode x.ix * 2 ^ 10) / 2 ^ (42 - 32) % 2 ^ 2 = ixCode x.ix by have := n1_lt x.unord; have := n1_lt x.scl; have := ixCode_lt x.ix; have := ixCode_lt x.ix; omega, ixOf_code])]

theorem frVMemXSt {op : Nat} (ho : op < 256) (x : VMemX) :
    FrFields (encVMemX op false x) 24 op 0 x.a.val x.b.val x.v.val x.m.val (typeCode x.t) (n1 x.unord * 2 ^ 13 + n1 x.scl * 2 ^ 12 + ixCode x.ix * 2 ^ 10) x.off.toNat :=
  fr_fields (by decide) ho (by simp) (fin_lt _ (by decide)) (fin_lt _ (by decide)) (by have := x.v.isLt; simp; omega) (fin_lt _ (by decide)) (by have := typeCode_lt x.t; omega) (by have := n1_lt x.unord; have := n1_lt x.scl; have := ixCode_lt x.ix; omega) (by have := x.off.isLt; omega)

theorem xVMemXSt_of {n op : Nat} {x : VMemX} (h : FrFields n 24 op 0 x.a.val x.b.val x.v.val x.m.val (typeCode x.t) (n1 x.unord * 2 ^ 13 + n1 x.scl * 2 ^ 12 + ixCode x.ix * 2 ^ 10) x.off.toNat) : xVMemX n 58 = some x := by
  simp only [xVMemX, Option.map_some, Type_of (h.w 6 (by decide)), V_of (h.c 5 (by decide)), S_of (h.a 5 (by decide)), M_of (h.m 4 (by decide)), imm_of x.off (show fld _ 0 32 = x.off.toNat by rw [h.imm 0 32 (by decide)]; have := x.off.isLt; omega), V_of (h.b 5 (by decide)), flag_of (show fld _ 45 1 = n1 x.unord by rw [h.mod 45 1 (by decide) (by decide)]; have := n1_lt x.unord; have := n1_lt x.scl; have := ixCode_lt x.ix; omega), flag_of (show fld _ 44 1 = n1 x.scl by rw [h.mod 44 1 (by decide) (by decide)]; have := n1_lt x.unord; have := n1_lt x.scl; have := ixCode_lt x.ix; omega), (show ixOf (fld _ 42 2) = x.ix by rw [h.mod 42 2 (by decide) (by decide), show (n1 x.unord * 2 ^ 13 + n1 x.scl * 2 ^ 12 + ixCode x.ix * 2 ^ 10) / 2 ^ (42 - 32) % 2 ^ 2 = ixCode x.ix by have := n1_lt x.unord; have := n1_lt x.scl; have := ixCode_lt x.ix; have := ixCode_lt x.ix; omega, ixOf_code])]

theorem frPDot (x : PDot) :
    FrFields (encPDot x) 25 1 x.d.val x.a.val x.b.val x.c.val 0 (typeCode x.t) x.stride.toNat (x.off.toNat * 2 ^ 16 + x.len.toNat) :=
  fr_fields (by decide) (by decide) (fin_lt _ (by decide)) (fin_lt _ (by decide)) (fin_lt _ (by decide)) (fin_lt _ (by decide)) (by decide) (by have := typeCode_lt x.t; omega) (by have := x.stride.isLt; omega) (by have := x.off.isLt; have := x.len.isLt; omega)

theorem intW_lt (b : Bool) : (if b then 3 else 0x12) < 64 := by cases b <;> decide
theorem intW_of (b : Bool) : ((if b then 3 else 0x12) % 2 ^ 6 == 3) = b := by cases b <;> rfl

theorem frACfg (x : ACfg) :
    FrFields (encACfg x) 32 1 x.d.val 0 0 0 0 (if x.int then 3 else 0x12) (2 ^ 15) (x.n1.toNat * 256 + x.m1.toNat) :=
  fr_fields (by decide) (by decide) (fin_lt _ (by decide)) (by decide) (by decide) (by decide) (by decide) (intW_lt _) (by decide) (by have := x.n1.isLt; have := x.m1.isLt; omega)

theorem fr_arel (d : AName) : FrFields (fr 32 2 d.val 0 0 0 0 0 0 0) 32 2 d.val 0 0 0 0 0 0 0 :=
  fr_fields (by decide) (by decide) (fin_lt _ (by decide)) (by decide) (by decide) (by decide) (by decide) (by decide) (by decide) (by decide)

theorem fr_azero (d : AName) : FrFields (fr 32 3 d.val 0 0 0 0 0 0 0) 32 3 d.val 0 0 0 0 0 0 0 :=
  fr_fields (by decide) (by decide) (fin_lt _ (by decide)) (by decide) (by decide) (by decide) (by decide) (by decide) (by decide) (by decide)

theorem encShape_lt (s : Shape) : encShape s < 2 ^ 24 := by
  have := s.ext1.isLt; have := s.k1.isLt; have := s.stride.isLt; have := s.off.isLt; have := n1_lt s.kmaj
  unfold encShape; omega

theorem shape_of {n lo : Nat} (s : Shape) (h : ∀ k l, k + l ≤ 24 → fld n (lo + k) l = encShape s / 2 ^ k % 2 ^ l) :
    fShape n lo = s := by
  have := s.ext1.isLt; have := s.k1.isLt; have := s.stride.isLt; have := s.off.isLt; have := n1_lt s.kmaj
  unfold encShape at h
  unfold fShape
  rw [bv_of s.ext1 (by rw [h 17 7 (by decide)]; omega), bv_of s.k1 (by rw [h 11 6 (by decide)]; omega),
    bv_of s.stride (by rw [h 6 5 (by decide)]; omega), bv_of s.off (by rw [h 1 5 (by decide)]; omega),
    flag_of (b := s.kmaj) (by have := h 0 1 (by decide); rw [Nat.add_zero] at this; rw [this]; omega)]

theorem fmMma (x : Mma) : FmFields (encMma x) 4 x.d.val x.a.val x.b.val x.s.val (mmaCode x.fmt)
    (4 * n1 x.neg + 2 * n1 x.accz + n1 x.scaled) (encShape x.sa) (encShape x.sb) :=
  fm_fields (by decide) (fin_lt _ (by decide)) (fin_lt _ (by decide)) (fin_lt _ (by decide)) (fin_lt _ (by decide))
    (by have := mmaCode_lt x.fmt; omega) (by have := n1_lt x.neg; have := n1_lt x.accz; have := n1_lt x.scaled; omega)
    (by have := encShape_lt x.sa; omega) (encShape_lt x.sb)

theorem fmALoad (x : ALoad) : FmFields (encALoad x) 5 x.d.val x.a.val x.b.val 0 0 0 (typeCode x.mw) (x.stride.toNat * 64 + x.off.toNat * 2 + n1 x.trans) :=
  fm_fields (by decide) (fin_lt _ (by decide)) (fin_lt _ (by decide)) (fin_lt _ (by decide)) (by decide)
    (by decide) (by decide) (by have := typeCode_lt x.mw; omega) (by have := x.stride.isLt; have := x.off.isLt; have := n1_lt x.trans; omega)

theorem fmAStore (x : AStore) : FmFields (encAStore x) 6 x.d.val x.a.val x.b.val x.s.val 0 (n1 x.scaled) (typeCode x.mw) (x.stride.toNat * 64 + x.off.toNat * 2 + n1 x.trans) :=
  fm_fields (by decide) (fin_lt _ (by decide)) (fin_lt _ (by decide)) (fin_lt _ (by decide)) (fin_lt _ (by decide))
    (by decide) (by have := n1_lt x.scaled; omega) (by have := typeCode_lt x.mw; omega) (by have := x.stride.isLt; have := x.off.isLt; have := n1_lt x.trans; omega)

theorem frARow (x : ARow) :
    FrFields (encARow x) 32 7 x.d.val x.a.val (srcB x.idx) 0 0 (if x.int then 3 else 0x12) (siMod x.idx + n1 x.col) (srcImm x.idx) :=
  fr_fields (by decide) (by decide) (fin_lt _ (by decide)) (fin_lt _ (by decide)) (srcB_lt _) (by decide) (by decide) (intW_lt _) (by have := siMod_or x.idx; have := n1_lt x.col; omega) (srcImm_lt _)

theorem fr_tlook (x : S2) : FrFields (fr 33 1 x.d.val x.a.val 0 0 0 0 0 0) 33 1 x.d.val x.a.val 0 0 0 0 0 0 :=
  fr_fields (by decide) (by decide) (fin_lt _ (by decide)) (fin_lt _ (by decide)) (by decide) (by decide) (by decide) (by decide) (by decide) (by decide)

theorem fr_twait (x : S2) : FrFields (fr 33 5 x.d.val x.a.val 0 0 0 0 0 0) 33 5 x.d.val x.a.val 0 0 0 0 0 0 :=
  fr_fields (by decide) (by decide) (fin_lt _ (by decide)) (fin_lt _ (by decide)) (by decide) (by decide) (by decide) (by decide) (by decide) (by decide)

theorem fr_tstat (x : S2) : FrFields (fr 33 7 x.d.val x.a.val 0 0 0 0 0 0) 33 7 x.d.val x.a.val 0 0 0 0 0 0 :=
  fr_fields (by decide) (by decide) (fin_lt _ (by decide)) (fin_lt _ (by decide)) (by decide) (by decide) (by decide) (by decide) (by decide) (by decide)

theorem fr_ttag (x : S3) : FrFields (fr 33 2 x.d.val x.a.val x.b.val 0 0 0 0 0) 33 2 x.d.val x.a.val x.b.val 0 0 0 0 0 :=
  fr_fields (by decide) (by decide) (fin_lt _ (by decide)) (fin_lt _ (by decide)) (fin_lt _ (by decide)) (by decide) (by decide) (by decide) (by decide) (by decide)

theorem frTFill (x : TFill) :
    FrFields (encTFill x) 33 3 x.k.val x.a.val x.b.val x.c.val x.m.val 0 0 0 :=
  fr_fields (by decide) (by decide) (fin_lt _ (by decide)) (fin_lt _ (by decide)) (fin_lt _ (by decide)) (fin_lt _ (by decide)) (fin_lt _ (by decide)) (by decide) (by decide) (by decide)

theorem frTDrain (x : TDrain) :
    FrFields (encTDrain x) 33 4 x.k.val x.a.val x.b.val x.c.val 0 0 0 0 :=
  fr_fields (by decide) (by decide) (fin_lt _ (by decide)) (fin_lt _ (by decide)) (fin_lt _ (by decide)) (fin_lt _ (by decide)) (by decide) (by decide) (by decide) (by decide)

theorem fr_trel (a : SReg) : FrFields (fr 33 6 0 a.val 0 0 0 0 0 0) 33 6 0 a.val 0 0 0 0 0 0 :=
  fr_fields (by decide) (by decide) (by decide) (fin_lt _ (by decide)) (by decide) (by decide) (by decide) (by decide) (by decide) (by decide)

theorem clImm_lt (o : Option CName) : clImm o < 32 := by cases o with
  | none => decide
  | some c => have := c.isLt; simp only [clImm]; omega
theorem clI_of {n : Nat} {o : Option CName} (h : ∀ k l, k + l ≤ 32 → fld n k l = clImm o / 2 ^ k % 2 ^ l) :
    (if flag n 4 = true then some (fC n 0) else none) = o := by
  cases o with
  | none =>
    have : flag n 4 = false := by unfold flag; rw [h 4 1 (by decide)]; rfl
    rw [this]; rfl
  | some c =>
    have hc := c.isLt
    have : flag n 4 = true := by
      unfold flag; rw [h 4 1 (by decide), show clImm (some c) / 2 ^ 4 % 2 ^ 1 = 1 by simp only [clImm]; omega]; rfl
    rw [this, C_of (r := c) (by rw [h 0 4 (by decide)]; simp only [clImm]; omega)]; rfl
theorem clM_lt (o : Option CName) : clM o < 16 := by cases o with
  | none => decide
  | some c => exact c.isLt
theorem clM_of {n : Nat} {o : Option CName} (h1 : fld n 32 1 = n1 o.isSome) (h2 : fld n 54 4 = clM o % 2 ^ 4) : xCl n = o := by
  cases o with
  | none => simp only [xCl, flag, h1]; rfl
  | some c => simp only [xCl, flag, h1]; exact congrArg some (C_of h2)

theorem frCopy {op : Nat} (ho : op < 256) (x : Copy) :
    FrFields (encCopy op x) 34 op x.k.val x.a.val x.b.val x.c.val x.m.val 0 x.chk.toNat (clImm x.cl) :=
  fr_fields (by decide) ho (fin_lt _ (by decide)) (fin_lt _ (by decide)) (fin_lt _ (by decide)) (fin_lt _ (by decide)) (fin_lt _ (by decide)) (by decide) (by have := x.chk.isLt; omega) (by have := clImm_lt x.cl; omega)

theorem frCStat (x : CStat) :
    FrFields (encCStat x) 34 3 x.d.val x.k.val 0 x.c.val 0 0 (n1 x.clr) 0 :=
  fr_fields (by decide) (by decide) (fin_lt _ (by decide)) (fin_lt _ (by decide)) (by decide) (fin_lt _ (by decide)) (by decide) (by decide) (by have := n1_lt x.clr; omega) (by decide)

theorem frMerge {op : Nat} (ho : op < 256) (x : Merge) :
    FrFields (encMerge op x) 35 op x.d.val x.a.val 0 0 0 (typeCode x.t) (n1 x.kz + 2 * n1 x.ix64) 0 :=
  fr_fields (by decide) ho (fin_lt _ (by decide)) (fin_lt _ (by decide)) (by decide) (by decide) (by decide) (by have := typeCode_lt x.t; omega) (by have := n1_lt x.kz; have := n1_lt x.ix64; omega) (by decide)

theorem xMerge_of {n op : Nat} {x : Merge} (h : FrFields n 35 op x.d.val x.a.val 0 0 0 (typeCode x.t) (n1 x.kz + 2 * n1 x.ix64) 0) : xMerge n = some x := by
  simp only [xMerge, Option.bind_eq_bind, Option.bind_some, Option.pure_def, Option.map_some, Type_of (h.w 6 (by decide)), S_of (h.d 5 (by decide)), S_of (h.a 5 (by decide)), flag_of (show fld _ 32 1 = n1 x.kz by rw [h.mod 32 1 (by decide) (by decide)]; have := n1_lt x.kz; have := n1_lt x.ix64; omega), flag_of (show fld _ 33 1 = n1 x.ix64 by rw [h.mod 33 1 (by decide) (by decide)]; have := n1_lt x.kz; have := n1_lt x.ix64; omega)]

theorem frMCount (x : MCount) :
    FrFields (encMCount x) 35 3 x.d.val x.a.val 0 0 0 0 (2 * n1 x.ix64 + 4 * n1 x.inter) 0 :=
  fr_fields (by decide) (by decide) (fin_lt _ (by decide)) (fin_lt _ (by decide)) (by decide) (by decide) (by decide) (by decide) (by have := n1_lt x.ix64; have := n1_lt x.inter; omega) (by decide)

theorem frDCmd {op : Nat} (ho : op < 256) (x : DCmd) :
    FrFields (encDCmd op x) 36 op x.k.val x.a.val 0 0 (clM x.cl) 0 (n1 x.cl.isSome) 0 :=
  fr_fields (by decide) ho (fin_lt _ (by decide)) (fin_lt _ (by decide)) (by decide) (by decide) (clM_lt _) (by decide) (by have := n1_lt x.cl.isSome; omega) (by decide)

theorem frStow (x : Stow) :
    FrFields (encStow x) 36 2 x.k.val x.a.val x.b.val x.c.val (clM x.cl) 0 (n1 x.cl.isSome) 0 :=
  fr_fields (by decide) (by decide) (fin_lt _ (by decide)) (fin_lt _ (by decide)) (fin_lt _ (by decide)) (fin_lt _ (by decide)) (clM_lt _) (by decide) (by have := n1_lt x.cl.isSome; omega) (by decide)

theorem fr_dquery (x : S2) : FrFields (fr 36 4 x.d.val x.a.val 0 0 0 0 0 0) 36 4 x.d.val x.a.val 0 0 0 0 0 0 :=
  fr_fields (by decide) (by decide) (fin_lt _ (by decide)) (fin_lt _ (by decide)) (by decide) (by decide) (by decide) (by decide) (by decide) (by decide)

theorem stageSrcBits_lt (s : StageSrc) : stageSrcBits s < 128 := by
  cases s with | vec r => have := r.isLt; simp only [stageSrcBits]; omega | scalar r => have := r.isLt; simp only [stageSrcBits]; omega
theorem encStage_lt (s : Stage) : encStage s < 2 ^ 22 := by
  have := stageCode_lt s.op; have := stageSrcBits_lt s.x; have := stageSrcBits_lt s.y; unfold encStage; omega
theorem stageSrc_of {n lo : Nat} {s : StageSrc} (h5 : fld n lo 5 = stageSrcBits s % 2 ^ 5)
    (h6 : fld n (lo + 6) 1 = stageSrcBits s / 2 ^ 6 % 2) : xStageSrc n lo = s := by
  cases s with
  | vec r =>
    have hr := r.isLt
    have : flag n (lo + 6) = false := by unfold flag; rw [h6, show stageSrcBits (.vec r) / 2 ^ 6 % 2 = 0 by simp only [stageSrcBits]; omega]; rfl
    unfold xStageSrc
    rw [this, V_of (r := r) h5]; rfl
  | scalar r =>
    have hr := r.isLt
    have : flag n (lo + 6) = true := by unfold flag; rw [h6, show stageSrcBits (.scalar r) / 2 ^ 6 % 2 = 1 by simp only [stageSrcBits]; omega]; rfl
    unfold xStageSrc
    rw [this, S_of (r := r) (by rw [h5]; simp only [stageSrcBits]; omega)]; rfl
/-- A stage descriptor reads back from a continuation word that holds it. -/
theorem stage_of {n hi low p : Nat} {s : Stage} (e : n = hi * 2 ^ (p + 22) + encStage s * 2 ^ p + low) (hl : low < 2 ^ p) :
    xStage n p = some s := by
  have f {k l : Nat} (h : k + l ≤ 22) : fld n (p + k) l = encStage s / 2 ^ k % 2 ^ l := by
    rw [fld_at e hl (by omega) (by omega), Nat.add_sub_cancel_left]
  have h1 := stageCode_lt s.op; have h2 := stageSrcBits_lt s.x; have h3 := stageSrcBits_lt s.y
  have ho : fld n (p + 17) 5 = stageCode s.op := by rw [f (by decide)]; unfold encStage; omega
  have hx : xStageSrc n (p + 10) = s.x :=
    stageSrc_of (by rw [f (by decide)]; unfold encStage; omega)
      (by rw [Nat.add_assoc, f (by decide)]; unfold encStage; omega)
  have hy : xStageSrc n (p + 3) = s.y :=
    stageSrc_of (by rw [f (by decide)]; unfold encStage; omega)
      (by rw [Nat.add_assoc, f (by decide)]; unfold encStage; omega)
  simp only [xStage, ho, stageOf_code, Option.map_some, hx, hy]
theorem stageAt_lt (l : List Stage) (k : Nat) : stageAt l k < 2 ^ 22 := by
  unfold stageAt
  cases l[k]? with | none => decide | some s => exact encStage_lt s
theorem more_count (x : VChain) (h : x.more.length ≤ 3) : fld (encodeCont x) 88 2 = x.more.length := by
  have h1 := encStage_lt x.stage1; have a0 := stageAt_lt x.more 0; have a1 := stageAt_lt x.more 1; have a2 := stageAt_lt x.more 2
  rw [fld_at (n := encodeCont x) (hi := 0x3F) (x := x.more.length) (p := 88) (s := 2)
    (low := encStage x.stage1 * 2 ^ 66 + stageAt x.more 0 * 2 ^ 44 + stageAt x.more 1 * 2 ^ 22 + stageAt x.more 2)
    (by simp only [encodeCont]; omega) (by omega) (by decide) (by decide)]; omega
theorem more0 (x : VChain) {s : Stage} (h : stageAt x.more 0 = encStage s) : xStage (encodeCont x) 44 = some s := by
  have a1 := stageAt_lt x.more 1; have a2 := stageAt_lt x.more 2
  exact stage_of (hi := 0x3F * 2 ^ 24 + x.more.length * 2 ^ 22 + encStage x.stage1) (low := stageAt x.more 1 * 2 ^ 22 + stageAt x.more 2)
      (by simp only [encodeCont, h]; omega) (by omega)
theorem more1 (x : VChain) {s : Stage} (h : stageAt x.more 1 = encStage s) : xStage (encodeCont x) 22 = some s := by
  have a2 := stageAt_lt x.more 2
  exact stage_of (hi := 0x3F * 2 ^ 46 + x.more.length * 2 ^ 44 + encStage x.stage1 * 2 ^ 22 + stageAt x.more 0) (low := stageAt x.more 2)
      (by simp only [encodeCont, h]; omega) a2
theorem more2 (x : VChain) {s : Stage} (h : stageAt x.more 2 = encStage s) : xStage (encodeCont x) 0 = some s := by
  exact stage_of (hi := 0x3F * 2 ^ 68 + x.more.length * 2 ^ 66 + encStage x.stage1 * 2 ^ 44 + stageAt x.more 0 * 2 ^ 22 + stageAt x.more 1) (low := 0)
      (by simp only [encodeCont, h]; omega) (by decide)
theorem more_of (x : VChain) (h : x.more.length ≤ 3) : xMore (encodeCont x) (fld (encodeCont x) 88 2) = some x.more := by
  have h0 := @more0 x; have h1 := @more1 x; have h2 := @more2 x
  rw [more_count x h]
  generalize encodeCont x = n at *
  generalize x.more = l at *
  match l, h with
  | [], _ => rfl
  | [a], _ =>
    show (xStage n 44 >>= fun y => pure [y]) = _
    rw [h0 (s := a) rfl]; rfl
  | [a, b], _ =>
    show (xStage n 44 >>= fun y => xStage n 22 >>= fun z => pure [y, z]) = _
    rw [h0 (s := a) rfl, h1 (s := b) rfl]; rfl
  | [a, b, c], _ =>
    show (xStage n 44 >>= fun y => xStage n 22 >>= fun z => xStage n 0 >>= fun u => pure [y, z, u]) = _
    rw [h0 (s := a) rfl, h1 (s := b) rfl, h2 (s := c) rfl]; rfl
theorem stage1_of (x : VChain) : xStage (encodeCont x) 66 = some x.stage1 := by
  have a0 := stageAt_lt x.more 0; have a1 := stageAt_lt x.more 1; have a2 := stageAt_lt x.more 2
  exact stage_of (hi := 0x3F * 4 + x.more.length) (low := stageAt x.more 0 * 2 ^ 44 + stageAt x.more 1 * 2 ^ 22 + stageAt x.more 2)
    (by simp only [encodeCont]; omega) (by omega)
theorem encodeCont_lt (x : VChain) (h : x.more.length ≤ 3) : encodeCont x < 2 ^ 96 := by
  have h1 := encStage_lt x.stage1; have a0 := stageAt_lt x.more 0; have a1 := stageAt_lt x.more 1; have a2 := stageAt_lt x.more 2
  simp only [encodeCont]; omega
theorem frVChain (x : VChain) : FrFields (encVChain x) 0x17 3 x.d.val x.a.val (vsrcB x.b) x.c.val x.m.val (typeCode x.t)
    (vsrcMod x.b + stageCode x.op) (vsrcImm x.b) :=
  fr_fields (by decide) (by decide) (fin_lt _ (by decide)) (fin_lt _ (by decide)) (vsrcB_lt _) (fin_lt _ (by decide))
    (fin_lt _ (by decide)) (by have := typeCode_lt x.t; omega) (by have := vsrcMod_or x.b; have := stageCode_lt x.op; omega) (vsrcImm_lt _)
theorem roundTrip2 {x : VChain} {n : Nat} (he : encodeWord (.vchain x) = some n) (hn : n < 2 ^ 96)
    (hc : encodeCont x < 2 ^ 96) (hx : extract n (encodeCont x) = some (.vchain x)) (hw : (Instr.vchain x).wf = true) :
    Laws.RoundTrip.Holds (.vchain x) := by
  have e : encode (.vchain x) = [BitVec.ofNat 96 n, BitVec.ofNat 96 (encodeCont x)] := by unfold encode; rw [he]
  refine ⟨_, _, e, fun hv => absurd rfl (hv x), ?_⟩
  have e1 : (BitVec.ofNat 96 n).toNat = n := by rw [BitVec.toNat_ofNat]; exact Nat.mod_eq_of_lt hn
  have e2 : (BitVec.ofNat 96 (encodeCont x)).toNat = encodeCont x := by rw [BitVec.toNat_ofNat]; exact Nat.mod_eq_of_lt hc
  simp only [decode, List.headD_cons, e1, e2, hx, he, hw, contOk, beq_self_eq_true, Bool.and_self, if_true]

end Sys2Proof
end

