-- ==== Sys2Proof/Laws/PerInstr.lean ====
section
/-! SUPPORT. The round trip of every constructor of Instr. -/

namespace Sys2Proof

set_option linter.unusedSimpArgs false

/-- The family: a well-formed instruction's words decode back to it. A word that is no instruction is set apart, for it
spells itself; a step of another agent is not well-formed and has no word. -/
def Laws.RoundTrip.Statement (i : Instr) : Prop :=
  i.wf = true → (∀ w, i ≠ .reservedEncoding w) → Laws.RoundTrip.Holds i

theorem Laws.RoundTrip.add (x : SInt) : Laws.RoundTrip.Statement (.add x) := by
  intro hw _
  have h := frSInt (op := 1) (by decide) x
  exact roundTrip rfl h.lt (by simp only [extract, h.cls, h.op, xScalar, xSInt_of h, Option.bind_eq_bind, Option.bind_some, Option.pure_def, Option.map_some]) rfl hw

theorem Laws.RoundTrip.sub (x : SInt) : Laws.RoundTrip.Statement (.sub x) := by
  intro hw _
  have h := frSInt (op := 2) (by decide) x
  exact roundTrip rfl h.lt (by simp only [extract, h.cls, h.op, xScalar, xSInt_of h, Option.bind_eq_bind, Option.bind_some, Option.pure_def, Option.map_some]) rfl hw

theorem Laws.RoundTrip.mul (x : SInt) : Laws.RoundTrip.Statement (.mul x) := by
  intro hw _
  have h := frSInt (op := 3) (by decide) x
  exact roundTrip rfl h.lt (by simp only [extract, h.cls, h.op, xScalar, xSInt_of h, Option.bind_eq_bind, Option.bind_some, Option.pure_def, Option.map_some]) rfl hw

theorem Laws.RoundTrip.mulh (x : SInt) : Laws.RoundTrip.Statement (.mulh x) := by
  intro hw _
  have h := frSInt (op := 4) (by decide) x
  exact roundTrip rfl h.lt (by simp only [extract, h.cls, h.op, xScalar, xSInt_of h, Option.bind_eq_bind, Option.bind_some, Option.pure_def, Option.map_some]) rfl hw

theorem Laws.RoundTrip.mulhu (x : SInt) : Laws.RoundTrip.Statement (.mulhu x) := by
  intro hw _
  have h := frSInt (op := 5) (by decide) x
  exact roundTrip rfl h.lt (by simp only [extract, h.cls, h.op, xScalar, xSInt_of h, Option.bind_eq_bind, Option.bind_some, Option.pure_def, Option.map_some]) rfl hw

theorem Laws.RoundTrip.div (x : SInt) : Laws.RoundTrip.Statement (.div x) := by
  intro hw _
  have h := frSInt (op := 6) (by decide) x
  exact roundTrip rfl h.lt (by simp only [extract, h.cls, h.op, xScalar, xSInt_of h, Option.bind_eq_bind, Option.bind_some, Option.pure_def, Option.map_some]) rfl hw

theorem Laws.RoundTrip.divu (x : SInt) : Laws.RoundTrip.Statement (.divu x) := by
  intro hw _
  have h := frSInt (op := 7) (by decide) x
  exact roundTrip rfl h.lt (by simp only [extract, h.cls, h.op, xScalar, xSInt_of h, Option.bind_eq_bind, Option.bind_some, Option.pure_def, Option.map_some]) rfl hw

theorem Laws.RoundTrip.rem (x : SInt) : Laws.RoundTrip.Statement (.rem x) := by
  intro hw _
  have h := frSInt (op := 8) (by decide) x
  exact roundTrip rfl h.lt (by simp only [extract, h.cls, h.op, xScalar, xSInt_of h, Option.bind_eq_bind, Option.bind_some, Option.pure_def, Option.map_some]) rfl hw

theorem Laws.RoundTrip.remu (x : SInt) : Laws.RoundTrip.Statement (.remu x) := by
  intro hw _
  have h := frSInt (op := 9) (by decide) x
  exact roundTrip rfl h.lt (by simp only [extract, h.cls, h.op, xScalar, xSInt_of h, Option.bind_eq_bind, Option.bind_some, Option.pure_def, Option.map_some]) rfl hw

theorem Laws.RoundTrip.and (x : SInt) : Laws.RoundTrip.Statement (.and x) := by
  intro hw _
  have h := frSInt (op := 10) (by decide) x
  exact roundTrip rfl h.lt (by simp only [extract, h.cls, h.op, xScalar, xSInt_of h, Option.bind_eq_bind, Option.bind_some, Option.pure_def, Option.map_some]) rfl hw

theorem Laws.RoundTrip.or (x : SInt) : Laws.RoundTrip.Statement (.or x) := by
  intro hw _
  have h := frSInt (op := 11) (by decide) x
  exact roundTrip rfl h.lt (by simp only [extract, h.cls, h.op, xScalar, xSInt_of h, Option.bind_eq_bind, Option.bind_some, Option.pure_def, Option.map_some]) rfl hw

theorem Laws.RoundTrip.xor (x : SInt) : Laws.RoundTrip.Statement (.xor x) := by
  intro hw _
  have h := frSInt (op := 12) (by decide) x
  exact roundTrip rfl h.lt (by simp only [extract, h.cls, h.op, xScalar, xSInt_of h, Option.bind_eq_bind, Option.bind_some, Option.pure_def, Option.map_some]) rfl hw

theorem Laws.RoundTrip.andn (x : SInt) : Laws.RoundTrip.Statement (.andn x) := by
  intro hw _
  have h := frSInt (op := 13) (by decide) x
  exact roundTrip rfl h.lt (by simp only [extract, h.cls, h.op, xScalar, xSInt_of h, Option.bind_eq_bind, Option.bind_some, Option.pure_def, Option.map_some]) rfl hw

theorem Laws.RoundTrip.shl (x : SInt) : Laws.RoundTrip.Statement (.shl x) := by
  intro hw _
  have h := frSInt (op := 14) (by decide) x
  exact roundTrip rfl h.lt (by simp only [extract, h.cls, h.op, xScalar, xSInt_of h, Option.bind_eq_bind, Option.bind_some, Option.pure_def, Option.map_some]) rfl hw

theorem Laws.RoundTrip.shr (x : SInt) : Laws.RoundTrip.Statement (.shr x) := by
  intro hw _
  have h := frSInt (op := 15) (by decide) x
  exact roundTrip rfl h.lt (by simp only [extract, h.cls, h.op, xScalar, xSInt_of h, Option.bind_eq_bind, Option.bind_some, Option.pure_def, Option.map_some]) rfl hw

theorem Laws.RoundTrip.sar (x : SInt) : Laws.RoundTrip.Statement (.sar x) := by
  intro hw _
  have h := frSInt (op := 16) (by decide) x
  exact roundTrip rfl h.lt (by simp only [extract, h.cls, h.op, xScalar, xSInt_of h, Option.bind_eq_bind, Option.bind_some, Option.pure_def, Option.map_some]) rfl hw

theorem Laws.RoundTrip.rot (x : SInt) : Laws.RoundTrip.Statement (.rot x) := by
  intro hw _
  have h := frSInt (op := 17) (by decide) x
  exact roundTrip rfl h.lt (by simp only [extract, h.cls, h.op, xScalar, xSInt_of h, Option.bind_eq_bind, Option.bind_some, Option.pure_def, Option.map_some]) rfl hw

theorem Laws.RoundTrip.min (x : SInt) : Laws.RoundTrip.Statement (.min x) := by
  intro hw _
  have h := frSInt (op := 18) (by decide) x
  exact roundTrip rfl h.lt (by simp only [extract, h.cls, h.op, xScalar, xSInt_of h, Option.bind_eq_bind, Option.bind_some, Option.pure_def, Option.map_some]) rfl hw

theorem Laws.RoundTrip.max (x : SInt) : Laws.RoundTrip.Statement (.max x) := by
  intro hw _
  have h := frSInt (op := 19) (by decide) x
  exact roundTrip rfl h.lt (by simp only [extract, h.cls, h.op, xScalar, xSInt_of h, Option.bind_eq_bind, Option.bind_some, Option.pure_def, Option.map_some]) rfl hw

theorem Laws.RoundTrip.minu (x : SInt) : Laws.RoundTrip.Statement (.minu x) := by
  intro hw _
  have h := frSInt (op := 20) (by decide) x
  exact roundTrip rfl h.lt (by simp only [extract, h.cls, h.op, xScalar, xSInt_of h, Option.bind_eq_bind, Option.bind_some, Option.pure_def, Option.map_some]) rfl hw

theorem Laws.RoundTrip.maxu (x : SInt) : Laws.RoundTrip.Statement (.maxu x) := by
  intro hw _
  have h := frSInt (op := 21) (by decide) x
  exact roundTrip rfl h.lt (by simp only [extract, h.cls, h.op, xScalar, xSInt_of h, Option.bind_eq_bind, Option.bind_some, Option.pure_def, Option.map_some]) rfl hw

theorem Laws.RoundTrip.set (x : Sys2Proof.SSet) : Laws.RoundTrip.Statement (.set x) := by
  intro hw _
  have h := frSet x
  exact roundTrip rfl h.lt (by simp only [extract, h.cls, h.op, xScalar, Option.bind_eq_bind, Option.bind_some, Option.pure_def, Option.map_some, W_of (h.w 6 (by decide)), (show condOf (fld _ 32 4) = some x.cc by rw [h.mod 32 4 (by decide) (by decide), show (srcI x.b + condCode x.cc) / 2 ^ (32 - 32) % 2 ^ 4 = condCode x.cc by have := srcI_or x.b; have := condCode_lt x.cc; omega, condOf_code]), S_of (h.d 5 (by decide)), S_of (h.a 5 (by decide)), src_of (h.b 5 (by decide)) (show fld _ 47 1 = srcImmBit x.b by rw [h.mod 47 1 (by decide) (by decide)]; have := srcI_bit x.b; have := srcImmBit_lt x.b; have := condCode_lt x.cc; omega) (show fld _ 0 32 = srcImm x.b by rw [h.imm 0 32 (by decide)]; have := srcImm_lt x.b; omega)]) rfl hw

theorem Laws.RoundTrip.sel (x : SSel) : Laws.RoundTrip.Statement (.sel x) := by
  intro hw _
  have h := frSel x
  exact roundTrip rfl h.lt (by simp only [extract, h.cls, h.op, xScalar, Option.bind_eq_bind, Option.bind_some, Option.pure_def, Option.map_some, W_of (h.w 6 (by decide)), S_of (h.d 5 (by decide)), S_of (h.a 5 (by decide)), S_of (h.c 5 (by decide)), src_of (h.b 5 (by decide)) (show fld _ 47 1 = srcImmBit x.b by rw [h.mod 47 1 (by decide) (by decide)]; have := srcI_bit x.b; have := srcImmBit_lt x.b; omega) (show fld _ 0 32 = srcImm x.b by rw [h.imm 0 32 (by decide)]; have := srcImm_lt x.b; omega)]) rfl hw

theorem Laws.RoundTrip.clz (x : SIntUn) : Laws.RoundTrip.Statement (.clz x) := by
  intro hw _
  have h := frSIntUn (op := 24) (by decide) x
  exact roundTrip rfl h.lt (by simp only [extract, h.cls, h.op, xScalar, xSIntUn_of h, Option.bind_eq_bind, Option.bind_some, Option.pure_def, Option.map_some]) rfl hw

theorem Laws.RoundTrip.ctz (x : SIntUn) : Laws.RoundTrip.Statement (.ctz x) := by
  intro hw _
  have h := frSIntUn (op := 25) (by decide) x
  exact roundTrip rfl h.lt (by simp only [extract, h.cls, h.op, xScalar, xSIntUn_of h, Option.bind_eq_bind, Option.bind_some, Option.pure_def, Option.map_some]) rfl hw

theorem Laws.RoundTrip.popc (x : SIntUn) : Laws.RoundTrip.Statement (.popc x) := by
  intro hw _
  have h := frSIntUn (op := 26) (by decide) x
  exact roundTrip rfl h.lt (by simp only [extract, h.cls, h.op, xScalar, xSIntUn_of h, Option.bind_eq_bind, Option.bind_some, Option.pure_def, Option.map_some]) rfl hw

theorem Laws.RoundTrip.bfx (x : SBfx) : Laws.RoundTrip.Statement (.bfx x) := by
  intro hw _
  have h := frBfx x
  exact roundTrip rfl h.lt (by simp only [extract, h.cls, h.op, xScalar, Option.bind_eq_bind, Option.bind_some, Option.pure_def, Option.map_some, S_of (h.d 5 (by decide)), S_of (h.a 5 (by decide)), flag_of (show fld _ 32 1 = n1 x.sx by rw [h.mod 32 1 (by decide) (by decide)]; have := n1_lt x.sx; omega), bv_of0 x.pos (show fld _ 0 6 = x.pos.toNat by rw [h.imm 0 6 (by decide)]; have := x.pos.isLt; have := x.len1.isLt; omega), bv_of x.len1 (show fld _ 6 6 = x.len1.toNat by rw [h.imm 6 6 (by decide)]; have := x.pos.isLt; have := x.len1.isLt; omega)]) rfl hw

theorem Laws.RoundTrip.bfi (x : SBfi) : Laws.RoundTrip.Statement (.bfi x) := by
  intro hw _
  have h := frBfi x
  exact roundTrip rfl h.lt (by simp only [extract, h.cls, h.op, xScalar, Option.bind_eq_bind, Option.bind_some, Option.pure_def, Option.map_some, S_of (h.d 5 (by decide)), S_of (h.a 5 (by decide)), S_of (h.c 5 (by decide)), bv_of0 x.pos (show fld _ 0 6 = x.pos.toNat by rw [h.imm 0 6 (by decide)]; have := x.pos.isLt; have := x.len1.isLt; omega), bv_of x.len1 (show fld _ 6 6 = x.len1.toNat by rw [h.imm 6 6 (by decide)]; have := x.pos.isLt; have := x.len1.isLt; omega)]) rfl hw

theorem Laws.RoundTrip.fadd (x : SFp) : Laws.RoundTrip.Statement (.fadd x) := by
  intro hw _
  have h := frSFp (op := 1) (by decide) x
  exact roundTrip rfl h.lt (by simp only [extract, h.cls, h.op, xScalarFp, xSFp_of h, Option.bind_eq_bind, Option.bind_some, Option.pure_def, Option.map_some]) rfl hw

theorem Laws.RoundTrip.fsub (x : SFp) : Laws.RoundTrip.Statement (.fsub x) := by
  intro hw _
  have h := frSFp (op := 2) (by decide) x
  exact roundTrip rfl h.lt (by simp only [extract, h.cls, h.op, xScalarFp, xSFp_of h, Option.bind_eq_bind, Option.bind_some, Option.pure_def, Option.map_some]) rfl hw

theorem Laws.RoundTrip.fmul (x : SFp) : Laws.RoundTrip.Statement (.fmul x) := by
  intro hw _
  have h := frSFp (op := 3) (by decide) x
  exact roundTrip rfl h.lt (by simp only [extract, h.cls, h.op, xScalarFp, xSFp_of h, Option.bind_eq_bind, Option.bind_some, Option.pure_def, Option.map_some]) rfl hw

theorem Laws.RoundTrip.fdiv (x : SFp) : Laws.RoundTrip.Statement (.fdiv x) := by
  intro hw _
  have h := frSFp (op := 5) (by decide) x
  exact roundTrip rfl h.lt (by simp only [extract, h.cls, h.op, xScalarFp, xSFp_of h, Option.bind_eq_bind, Option.bind_some, Option.pure_def, Option.map_some]) rfl hw

theorem Laws.RoundTrip.fmin (x : SFp) : Laws.RoundTrip.Statement (.fmin x) := by
  intro hw _
  have h := frSFp (op := 7) (by decide) x
  exact roundTrip rfl h.lt (by simp only [extract, h.cls, h.op, xScalarFp, xSFp_of h, Option.bind_eq_bind, Option.bind_some, Option.pure_def, Option.map_some]) rfl hw

theorem Laws.RoundTrip.fmax (x : SFp) : Laws.RoundTrip.Statement (.fmax x) := by
  intro hw _
  have h := frSFp (op := 8) (by decide) x
  exact roundTrip rfl h.lt (by simp only [extract, h.cls, h.op, xScalarFp, xSFp_of h, Option.bind_eq_bind, Option.bind_some, Option.pure_def, Option.map_some]) rfl hw

theorem Laws.RoundTrip.fma (x : SFma) : Laws.RoundTrip.Statement (.fma x) := by
  intro hw _
  have h := frSFma x
  exact roundTrip rfl h.lt (by simp only [extract, h.cls, h.op, xScalarFp, Option.bind_eq_bind, Option.bind_some, Option.pure_def, Option.map_some, Type_of (h.w 6 (by decide)), S_of (h.d 5 (by decide)), S_of (h.a 5 (by decide)), S_of (h.c 5 (by decide)), src_of (h.b 5 (by decide)) (show fld _ 47 1 = srcImmBit x.b by rw [h.mod 47 1 (by decide) (by decide)]; have := srcI_bit x.b; have := srcImmBit_lt x.b; omega) (show fld _ 0 32 = srcImm x.b by rw [h.imm 0 32 (by decide)]; have := srcImm_lt x.b; omega)]) rfl hw

theorem Laws.RoundTrip.fsqrt (x : SFpUn) : Laws.RoundTrip.Statement (.fsqrt x) := by
  intro hw _
  have h := frSFpUn (op := 6) (by decide) x
  exact roundTrip rfl h.lt (by simp only [extract, h.cls, h.op, xScalarFp, xSFpUn_of h, Option.bind_eq_bind, Option.bind_some, Option.pure_def, Option.map_some]) rfl hw

theorem Laws.RoundTrip.fclass (x : SFpUn) : Laws.RoundTrip.Statement (.fclass x) := by
  intro hw _
  have h := frSFpUn (op := 11) (by decide) x
  exact roundTrip rfl h.lt (by simp only [extract, h.cls, h.op, xScalarFp, xSFpUn_of h, Option.bind_eq_bind, Option.bind_some, Option.pure_def, Option.map_some]) rfl hw

theorem Laws.RoundTrip.fset (x : SFset) : Laws.RoundTrip.Statement (.fset x) := by
  intro hw _
  have h := frSFset x
  exact roundTrip rfl h.lt (by simp only [extract, h.cls, h.op, xScalarFp, Option.bind_eq_bind, Option.bind_some, Option.pure_def, Option.map_some, Type_of (h.w 6 (by decide)), (show fcmpOf (fld _ 32 2) = x.cmp by rw [h.mod 32 2 (by decide) (by decide), show (srcI x.b + fcmpCode x.cmp) / 2 ^ (32 - 32) % 2 ^ 2 = fcmpCode x.cmp by have := srcI_or x.b; have := fcmpCode_lt x.cmp; omega, fcmpOf_code]), S_of (h.d 5 (by decide)), S_of (h.a 5 (by decide)), src_of (h.b 5 (by decide)) (show fld _ 47 1 = srcImmBit x.b by rw [h.mod 47 1 (by decide) (by decide)]; have := srcI_bit x.b; have := srcImmBit_lt x.b; have := fcmpCode_lt x.cmp; omega) (show fld _ 0 32 = srcImm x.b by rw [h.imm 0 32 (by decide)]; have := srcImm_lt x.b; omega)]) rfl hw

theorem Laws.RoundTrip.fcvt (x : SFcvt) : Laws.RoundTrip.Statement (.fcvt x) := by
  intro hw _
  have h := frSFcvt x
  exact roundTrip rfl h.lt (by simp only [extract, h.cls, h.op, xScalarFp, Option.bind_eq_bind, Option.bind_some, Option.pure_def, Option.map_some, Type_of (h.w 6 (by decide)), (show typeOf (fld _ 32 6) = some x.fs by rw [h.mod 32 6 (by decide) (by decide), show (typeCode x.fs) / 2 ^ (32 - 32) % 2 ^ 6 = typeCode x.fs by have := typeCode_lt x.fs; omega, typeOf_code]), S_of (h.d 5 (by decide)), S_of (h.a 5 (by decide))]) rfl hw

theorem Laws.RoundTrip.fsgn (x : SFsgn) : Laws.RoundTrip.Statement (.fsgn x) := by
  intro hw _
  have h := frSFsgn x
  exact roundTrip rfl h.lt (by simp only [extract, h.cls, h.op, xScalarFp, Option.bind_eq_bind, Option.bind_some, Option.pure_def, Option.map_some, Type_of (h.w 6 (by decide)), (show fsgnOf (fld _ 32 2) = some x.sel by rw [h.mod 32 2 (by decide) (by decide), show (fsgnCode x.sel) / 2 ^ (32 - 32) % 2 ^ 2 = fsgnCode x.sel by have := fsgnCode_lt x.sel; omega, fsgnOf_code]), S_of (h.d 5 (by decide)), S_of (h.a 5 (by decide)), S_of (h.b 5 (by decide))]) rfl hw

theorem Laws.RoundTrip.li (x : LImm) : Laws.RoundTrip.Statement (.li x) := by
  intro hw _
  have h := fl_li x
  exact roundTrip rfl h.lt (by simp only [extract, h.cls, h.op, xLImm, xLJump, Option.bind_eq_bind, Option.bind_some, Option.pure_def, Option.map_some, S_of (h.d 5 (by decide)), bv_of0 x.imm (show fld _ 0 64 = x.imm.toNat by rw [h.imm 0 64 (by decide)]; have := x.imm.isLt; omega)]) rfl hw

theorem Laws.RoundTrip.lpc (x : LImm) : Laws.RoundTrip.Statement (.lpc x) := by
  intro hw _
  have h := fl_lpc x
  exact roundTrip rfl h.lt (by simp only [extract, h.cls, h.op, xLImm, xLJump, Option.bind_eq_bind, Option.bind_some, Option.pure_def, Option.map_some, S_of (h.d 5 (by decide)), bv_of0 x.imm (show fld _ 0 64 = x.imm.toNat by rw [h.imm 0 64 (by decide)]; have := x.imm.isLt; omega)]) rfl hw

theorem Laws.RoundTrip.jmpl (x : LJump) : Laws.RoundTrip.Statement (.jmpl x) := by
  intro hw _
  have h := fl_jmpl x
  exact roundTrip rfl h.lt (by simp only [extract, h.cls, h.op, xLImm, xLJump, Option.bind_eq_bind, Option.bind_some, Option.pure_def, Option.map_some, flag_of (show fld _ 64 1 = n1 x.abs by rw [h.mod 64 1 (by decide) (by decide)]; have := n1_lt x.abs; omega), bv_of0 x.imm (show fld _ 0 64 = x.imm.toNat by rw [h.imm 0 64 (by decide)]; have := x.imm.isLt; omega)]) rfl hw

theorem Laws.RoundTrip.calll (x : LJump) : Laws.RoundTrip.Statement (.calll x) := by
  intro hw _
  have h := fl_calll x
  exact roundTrip rfl h.lt (by simp only [extract, h.cls, h.op, xLImm, xLJump, Option.bind_eq_bind, Option.bind_some, Option.pure_def, Option.map_some, flag_of (show fld _ 64 1 = n1 x.abs by rw [h.mod 64 1 (by decide) (by decide)]; have := n1_lt x.abs; omega), bv_of0 x.imm (show fld _ 0 64 = x.imm.toNat by rw [h.imm 0 64 (by decide)]; have := x.imm.isLt; omega)]) rfl hw

theorem Laws.RoundTrip.b (x : BrReg) : Laws.RoundTrip.Statement (.b x) := by
  intro hw _
  have h := fb_b x
  exact roundTrip rfl h.lt (by simp only [extract, h.cls, h.op, xBranch, h.t, Option.bind_eq_bind, Option.bind_some, Option.pure_def, Option.map_some, h.cond, condOf_code, S_of (h.a 5 (by decide)), S_of (h.b 5 (by decide))]) rfl hw

theorem Laws.RoundTrip.bi (x : BrImm) : Laws.RoundTrip.Statement (.bi x) := by
  intro hw _
  have h := fb_bi x
  exact roundTrip rfl h.lt (by simp only [extract, h.cls, h.op, xBranch, h.t, Option.bind_eq_bind, Option.bind_some, Option.pure_def, Option.map_some, h.cond, condOf_code, S_of (h.a 5 (by decide)), bv_of x.imm h.imm]) rfl hw

theorem Laws.RoundTrip.jmp (t : Target) : Laws.RoundTrip.Statement (.jmp t) := by
  intro hw _
  have h := fb_jmp t
  exact roundTrip rfl h.lt (by simp only [extract, h.cls, h.op, xBranch, h.t, Option.bind_eq_bind, Option.bind_some, Option.pure_def, Option.map_some]) rfl hw

theorem Laws.RoundTrip.call (t : Target) : Laws.RoundTrip.Statement (.call t) := by
  intro hw _
  have h := fb_call t
  exact roundTrip rfl h.lt (by simp only [extract, h.cls, h.op, xBranch, h.t, Option.bind_eq_bind, Option.bind_some, Option.pure_def, Option.map_some]) rfl hw

theorem Laws.RoundTrip.jmpr (a : SReg) : Laws.RoundTrip.Statement (.jmpr a) := by
  intro hw _
  have h := fb_jmpr a
  exact roundTrip rfl h.lt (by simp only [extract, h.cls, h.op, xBranch, h.t, Option.bind_eq_bind, Option.bind_some, Option.pure_def, Option.map_some, S_of (h.a 5 (by decide))]) rfl hw

theorem Laws.RoundTrip.callr (a : SReg) : Laws.RoundTrip.Statement (.callr a) := by
  intro hw _
  have h := fb_callr a
  exact roundTrip rfl h.lt (by simp only [extract, h.cls, h.op, xBranch, h.t, Option.bind_eq_bind, Option.bind_some, Option.pure_def, Option.map_some, S_of (h.a 5 (by decide))]) rfl hw

theorem Laws.RoundTrip.ret : Laws.RoundTrip.Statement (.ret) := by
  intro hw _
  have h := fb_ret
  exact roundTrip rfl h.lt (by simp only [extract, h.cls, h.op, xBranch, h.t, Option.bind_eq_bind, Option.bind_some, Option.pure_def, Option.map_some]) rfl hw

theorem Laws.RoundTrip.strip (x : Strip) : Laws.RoundTrip.Statement (.strip x) := by
  intro hw _
  have h := fb_strip x
  exact roundTrip rfl h.lt (by simp only [extract, h.cls, h.op, xBranch, h.t, Option.bind_eq_bind, Option.bind_some, Option.pure_def, Option.map_some, S_of (h.a 5 (by decide)), S_of (h.b 5 (by decide)), S_of (h.c 5 (by decide)), S_of (h.e 5 (by decide)), bv_of x.steps h.imm]) rfl hw

theorem Laws.RoundTrip.vloopl (x : VLoop) : Laws.RoundTrip.Statement (.vloopl x) := by
  intro hw _
  have h := fb_vloopl x
  exact roundTrip rfl h.lt (by simp only [extract, h.cls, h.op, xBranch, h.t, Option.bind_eq_bind, Option.bind_some, Option.pure_def, Option.map_some, V_of (h.a 5 (by decide)), M_of (h.c 4 (by decide))]) rfl hw

theorem Laws.RoundTrip.bm (x : BrMask) : Laws.RoundTrip.Statement (.bm x) := by
  intro hw _
  have h := fb_bm x
  exact roundTrip rfl h.lt (by simp only [extract, h.cls, h.op, xBranch, h.t, Option.bind_eq_bind, Option.bind_some, Option.pure_def, Option.map_some, h.cond, testOf_code, M_of (h.a 4 (by decide))]) rfl hw

theorem Laws.RoundTrip.ld (x : SLoad) : Laws.RoundTrip.Statement (.ld x) := by
  intro hw _
  have h := frSLoad x
  exact roundTrip rfl h.lt (by simp only [extract, h.cls, h.op, xScalarMem, Option.bind_eq_bind, Option.bind_some, Option.pure_def, Option.map_some, Type_of (h.w 6 (by decide)), S_of (h.d 5 (by decide)), S_of (h.a 5 (by decide)), src_of (h.b 5 (by decide)) (show fld _ 47 1 = srcImmBit x.b by rw [h.mod 47 1 (by decide) (by decide)]; have := srcI_bit x.b; have := srcImmBit_lt x.b; have := acqMod_lt x.acq; omega) (show fld _ 0 32 = srcImm x.b by rw [h.imm 0 32 (by decide)]; have := srcImm_lt x.b; omega), acq_of (show fld _ 45 1 = acqMod x.acq / 8192 by rw [h.mod 45 1 (by decide) (by decide)]; have := srcI_or x.b; have := acqMod_lt x.acq; omega) (show fld _ 39 3 = acqMod x.acq / 128 % 8 by rw [h.mod 39 3 (by decide) (by decide)]; have := srcI_or x.b; have := acqMod_lt x.acq; omega)]) rfl hw

theorem Laws.RoundTrip.st (x : SStore) : Laws.RoundTrip.Statement (.st x) := by
  intro hw _
  have h := frSStore x
  exact roundTrip rfl h.lt (by simp only [extract, h.cls, h.op, xScalarMem, Option.bind_eq_bind, Option.bind_some, Option.pure_def, Option.map_some, Type_of (h.w 6 (by decide)), S_of (h.c 5 (by decide)), S_of (h.a 5 (by decide)), src_of (h.b 5 (by decide)) (show fld _ 47 1 = srcImmBit x.b by rw [h.mod 47 1 (by decide) (by decide)]; have := srcI_bit x.b; have := srcImmBit_lt x.b; have := relMod_lt x.rel; have := n1_lt x.unord; have := relMod_low x.rel; omega) (show fld _ 0 32 = srcImm x.b by rw [h.imm 0 32 (by decide)]; have := srcImm_lt x.b; omega), rel_of (show fld _ 44 1 = relMod x.rel / 4096 by rw [h.mod 44 1 (by decide) (by decide)]; have := srcI_or x.b; have := relMod_lt x.rel; have := n1_lt x.unord; have := relMod_low x.rel; omega) (show fld _ 39 3 = relMod x.rel / 128 % 8 by rw [h.mod 39 3 (by decide) (by decide)]; have := srcI_or x.b; have := relMod_lt x.rel; have := n1_lt x.unord; have := relMod_low x.rel; omega), flag_of (show fld _ 43 1 = n1 x.unord by rw [h.mod 43 1 (by decide) (by decide)]; have := srcI_or x.b; have := relMod_lt x.rel; have := n1_lt x.unord; have := relMod_low x.rel; omega)]) rfl hw

theorem Laws.RoundTrip.amo (x : Amo) : Laws.RoundTrip.Statement (.amo x) := by
  intro hw _
  have h := frAmo x
  exact roundTrip rfl h.lt (by simp only [extract, h.cls, h.op, xScalarMem, Option.bind_eq_bind, Option.bind_some, Option.pure_def, Option.map_some, Type_of (h.w 6 (by decide)), (show amoOf (fld _ 35 4) = some x.op by rw [h.mod 35 4 (by decide) (by decide), show (n1 x.acq * 2 ^ 13 + n1 x.rel * 2 ^ 12 + scopeCode x.scope * 2 ^ 7 + amoCode x.op * 2 ^ 3) / 2 ^ (35 - 32) % 2 ^ 4 = amoCode x.op by have := n1_lt x.acq; have := n1_lt x.rel; have := scopeCode_lt x.scope; have := amoCode_lt x.op; have := amoCode_lt x.op; omega, amoOf_code]), (show scopeOf (fld _ 39 3) = some x.scope by rw [h.mod 39 3 (by decide) (by decide), show (n1 x.acq * 2 ^ 13 + n1 x.rel * 2 ^ 12 + scopeCode x.scope * 2 ^ 7 + amoCode x.op * 2 ^ 3) / 2 ^ (39 - 32) % 2 ^ 3 = scopeCode x.scope by have := n1_lt x.acq; have := n1_lt x.rel; have := scopeCode_lt x.scope; have := amoCode_lt x.op; have := scopeCode_lt x.scope; omega, scopeOf_code]), S_of (h.d 5 (by decide)), S_of (h.a 5 (by decide)), S_of (h.b 5 (by decide)), S_of (h.c 5 (by decide)), flag_of (show fld _ 45 1 = n1 x.acq by rw [h.mod 45 1 (by decide) (by decide)]; have := n1_lt x.acq; have := n1_lt x.rel; have := scopeCode_lt x.scope; have := amoCode_lt x.op; omega), flag_of (show fld _ 44 1 = n1 x.rel by rw [h.mod 44 1 (by decide) (by decide)]; have := n1_lt x.acq; have := n1_lt x.rel; have := scopeCode_lt x.scope; have := amoCode_lt x.op; omega)]) rfl hw

theorem Laws.RoundTrip.ldp (x : PLoad) : Laws.RoundTrip.Statement (.ldp x) := by
  intro hw _
  have h := frPLoad x
  exact roundTrip rfl h.lt (by simp only [extract, h.cls, h.op, xScalarMem, Option.bind_eq_bind, Option.bind_some, Option.pure_def, Option.map_some, (show pluralOf (fld _ 41 4) = some x.op by rw [h.mod 41 4 (by decide) (by decide), show (n1 x.banked * 2 ^ 13 + pluralCode x.op * 2 ^ 9) / 2 ^ (41 - 32) % 2 ^ 4 = pluralCode x.op by have := n1_lt x.banked; have := pluralCode_lt x.op; have := pluralCode_lt x.op; omega, pluralOf_code]), S_of (h.d 5 (by decide)), S_of (h.a 5 (by decide)), S_of (h.b 5 (by decide)), flag_of (show fld _ 45 1 = n1 x.banked by rw [h.mod 45 1 (by decide) (by decide)]; have := n1_lt x.banked; have := pluralCode_lt x.op; omega), imm_of x.off (show fld _ 0 32 = x.off.toNat by rw [h.imm 0 32 (by decide)]; have := x.off.isLt; omega)]) rfl hw

theorem Laws.RoundTrip.stp (x : PStore) : Laws.RoundTrip.Statement (.stp x) := by
  intro hw _
  have h := frPStore x
  exact roundTrip rfl h.lt (by simp only [extract, h.cls, h.op, xScalarMem, Option.bind_eq_bind, Option.bind_some, Option.pure_def, Option.map_some, S_of (h.a 5 (by decide)), S_of (h.b 5 (by decide)), S_of (h.c 5 (by decide)), flag_of (show fld _ 45 1 = n1 x.banked by rw [h.mod 45 1 (by decide) (by decide)]; have := n1_lt x.banked; omega), imm_of x.off (show fld _ 0 32 = x.off.toNat by rw [h.imm 0 32 (by decide)]; have := x.off.isLt; omega)]) rfl hw

theorem Laws.RoundTrip.pam (x : PAtomic) : Laws.RoundTrip.Statement (.pam x) := by
  intro hw _
  have h := frPAtomic x
  exact roundTrip rfl h.lt (by simp only [extract, h.cls, h.op, xScalarMem, Option.bind_eq_bind, Option.bind_some, Option.pure_def, Option.map_some, (show pluralOf (fld _ 41 4) = some x.op by rw [h.mod 41 4 (by decide) (by decide), show (n1 x.banked * 2 ^ 13 + pluralCode x.op * 2 ^ 9) / 2 ^ (41 - 32) % 2 ^ 4 = pluralCode x.op by have := n1_lt x.banked; have := pluralCode_lt x.op; have := pluralCode_lt x.op; omega, pluralOf_code]), S_of (h.a 5 (by decide)), S_of (h.b 5 (by decide)), S_of (h.c 5 (by decide)), flag_of (show fld _ 45 1 = n1 x.banked by rw [h.mod 45 1 (by decide) (by decide)]; have := n1_lt x.banked; have := pluralCode_lt x.op; omega), imm_of x.off (show fld _ 0 32 = x.off.toNat by rw [h.imm 0 32 (by decide)]; have := x.off.isLt; omega)]) rfl hw

theorem Laws.RoundTrip.fence (x : Fence) : Laws.RoundTrip.Statement (.fence x) := by
  intro hw _
  have h := frFence x
  exact roundTrip rfl h.lt (by simp only [extract, h.cls, h.op, xSync, Option.bind_eq_bind, Option.bind_some, Option.pure_def, Option.map_some, (show scopeOf (fld _ 39 3) = some x.scope by rw [h.mod 39 3 (by decide) (by decide), show (scopeCode x.scope * 2 ^ 7 + (n1 x.kinds.v + 2 * n1 x.kinds.h + 4 * n1 x.kinds.b + 8 * n1 x.kinds.f + 16 * n1 x.kinds.o + 32 * n1 x.kinds.e + 64 * n1 x.kinds.d)) / 2 ^ (39 - 32) % 2 ^ 3 = scopeCode x.scope by have := scopeCode_lt x.scope; have := n1_lt x.kinds.v; have := n1_lt x.kinds.h; have := n1_lt x.kinds.b; have := n1_lt x.kinds.f; have := n1_lt x.kinds.o; have := n1_lt x.kinds.e; have := n1_lt x.kinds.d; have := scopeCode_lt x.scope; omega, scopeOf_code]), flag_of (show fld _ 32 1 = n1 x.kinds.v by rw [h.mod 32 1 (by decide) (by decide)]; have := scopeCode_lt x.scope; have := n1_lt x.kinds.v; have := n1_lt x.kinds.h; have := n1_lt x.kinds.b; have := n1_lt x.kinds.f; have := n1_lt x.kinds.o; have := n1_lt x.kinds.e; have := n1_lt x.kinds.d; omega), flag_of (show fld _ 33 1 = n1 x.kinds.h by rw [h.mod 33 1 (by decide) (by decide)]; have := scopeCode_lt x.scope; have := n1_lt x.kinds.v; have := n1_lt x.kinds.h; have := n1_lt x.kinds.b; have := n1_lt x.kinds.f; have := n1_lt x.kinds.o; have := n1_lt x.kinds.e; have := n1_lt x.kinds.d; omega), flag_of (show fld _ 34 1 = n1 x.kinds.b by rw [h.mod 34 1 (by decide) (by decide)]; have := scopeCode_lt x.scope; have := n1_lt x.kinds.v; have := n1_lt x.kinds.h; have := n1_lt x.kinds.b; have := n1_lt x.kinds.f; have := n1_lt x.kinds.o; have := n1_lt x.kinds.e; have := n1_lt x.kinds.d; omega), flag_of (show fld _ 35 1 = n1 x.kinds.f by rw [h.mod 35 1 (by decide) (by decide)]; have := scopeCode_lt x.scope; have := n1_lt x.kinds.v; have := n1_lt x.kinds.h; have := n1_lt x.kinds.b; have := n1_lt x.kinds.f; have := n1_lt x.kinds.o; have := n1_lt x.kinds.e; have := n1_lt x.kinds.d; omega), flag_of (show fld _ 36 1 = n1 x.kinds.o by rw [h.mod 36 1 (by decide) (by decide)]; have := scopeCode_lt x.scope; have := n1_lt x.kinds.v; have := n1_lt x.kinds.h; have := n1_lt x.kinds.b; have := n1_lt x.kinds.f; have := n1_lt x.kinds.o; have := n1_lt x.kinds.e; have := n1_lt x.kinds.d; omega), flag_of (show fld _ 37 1 = n1 x.kinds.e by rw [h.mod 37 1 (by decide) (by decide)]; have := scopeCode_lt x.scope; have := n1_lt x.kinds.v; have := n1_lt x.kinds.h; have := n1_lt x.kinds.b; have := n1_lt x.kinds.f; have := n1_lt x.kinds.o; have := n1_lt x.kinds.e; have := n1_lt x.kinds.d; omega), flag_of (show fld _ 38 1 = n1 x.kinds.d by rw [h.mod 38 1 (by decide) (by decide)]; have := scopeCode_lt x.scope; have := n1_lt x.kinds.v; have := n1_lt x.kinds.h; have := n1_lt x.kinds.b; have := n1_lt x.kinds.f; have := n1_lt x.kinds.o; have := n1_lt x.kinds.e; have := n1_lt x.kinds.d; omega)]) rfl hw

theorem Laws.RoundTrip.fsig (x : Fsig) : Laws.RoundTrip.Statement (.fsig x) := by
  intro hw _
  have h := frFsig x
  exact roundTrip rfl h.lt (by simp only [extract, h.cls, h.op, xSync, Option.bind_eq_bind, Option.bind_some, Option.pure_def, Option.map_some, Type_of (h.w 6 (by decide)), S_of (h.a 5 (by decide)), src_of (h.b 5 (by decide)) (show fld _ 47 1 = srcImmBit x.b by rw [h.mod 47 1 (by decide) (by decide)]; have := srcI_bit x.b; have := srcImmBit_lt x.b; omega) (show fld _ 0 32 = srcImm x.b by rw [h.imm 0 32 (by decide)]; have := srcImm_lt x.b; omega)]) rfl hw

theorem Laws.RoundTrip.bar : Laws.RoundTrip.Statement (.bar) := by
  intro hw _
  have h := fr_bar
  exact roundTrip rfl h.lt (by simp only [extract, h.cls, h.op, xSync, Option.bind_eq_bind, Option.bind_some, Option.pure_def, Option.map_some]) rfl hw

theorem Laws.RoundTrip.cbar (x : SPair) : Laws.RoundTrip.Statement (.cbar x) := by
  intro hw _
  have h := fr_cbar x
  exact roundTrip rfl h.lt (by simp only [extract, h.cls, h.op, xSync, Option.bind_eq_bind, Option.bind_some, Option.pure_def, Option.map_some, S_of (h.a 5 (by decide)), S_of (h.b 5 (by decide))]) rfl hw

theorem Laws.RoundTrip.wait (x : WaitK) : Laws.RoundTrip.Statement (.wait x) := by
  intro hw _
  have h := frWaitK x
  exact roundTrip rfl h.lt (by simp only [extract, h.cls, h.op, xSync, Option.bind_eq_bind, Option.bind_some, Option.pure_def, Option.map_some, S_of (h.d 5 (by decide)), K_of (h.a 3 (by decide)), src_of (h.b 5 (by decide)) (show fld _ 47 1 = srcImmBit x.b by rw [h.mod 47 1 (by decide) (by decide)]; have := srcI_bit x.b; have := srcImmBit_lt x.b; omega) (show fld _ 0 32 = srcImm x.b by rw [h.imm 0 32 (by decide)]; have := srcImm_lt x.b; omega)]) rfl hw

theorem Laws.RoundTrip.kadd (x : KAdd) : Laws.RoundTrip.Statement (.kadd x) := by
  intro hw _
  have h := frKAdd x
  exact roundTrip rfl h.lt (by simp only [extract, h.cls, h.op, xSync, Option.bind_eq_bind, Option.bind_some, Option.pure_def, Option.map_some, K_of (h.d 3 (by decide)), src_of (h.a 5 (by decide)) (show fld _ 47 1 = srcImmBit x.a by rw [h.mod 47 1 (by decide) (by decide)]; have := srcI_bit x.a; have := srcImmBit_lt x.a; omega) (show fld _ 0 32 = srcImm x.a by rw [h.imm 0 32 (by decide)]; have := srcImm_lt x.a; omega)]) rfl hw

theorem Laws.RoundTrip.qput (x : QPut) : Laws.RoundTrip.Statement (.qput x) := by
  intro hw _
  have h := frQPut x
  exact roundTrip rfl h.lt (by simp only [extract, h.cls, h.op, xSync, Option.bind_eq_bind, Option.bind_some, Option.pure_def, Option.map_some, Q_of (h.d 3 (by decide)), src_of (h.a 5 (by decide)) (show fld _ 47 1 = srcImmBit x.a by rw [h.mod 47 1 (by decide) (by decide)]; have := srcI_bit x.a; have := srcImmBit_lt x.a; have := n1_lt x.par; have := nbMod_lt x.nb; omega) (show fld _ 0 32 = srcImm x.a by rw [h.imm 0 32 (by decide)]; have := srcImm_lt x.a; omega), flag_of (show fld _ 33 1 = n1 x.par by rw [h.mod 33 1 (by decide) (by decide)]; have := srcI_or x.a; have := n1_lt x.par; have := nbMod_lt x.nb; omega), nb_of (show fld _ 32 1 = nbMod x.nb by rw [h.mod 32 1 (by decide) (by decide)]; have := srcI_or x.a; have := n1_lt x.par; have := nbMod_lt x.nb; omega) (h.c 5 (by decide))]) rfl hw

theorem Laws.RoundTrip.qget (x : QGet) : Laws.RoundTrip.Statement (.qget x) := by
  intro hw _
  have h := frQGet x
  exact roundTrip rfl h.lt (by simp only [extract, h.cls, h.op, xSync, Option.bind_eq_bind, Option.bind_some, Option.pure_def, Option.map_some, S_of (h.d 5 (by decide)), Q_of (h.a 3 (by decide)), nb_of (show fld _ 32 1 = nbMod x.nb by rw [h.mod 32 1 (by decide) (by decide)]; have := nbMod_lt x.nb; omega) (h.c 5 (by decide))]) rfl hw

theorem Laws.RoundTrip.launch (x : Launch) : Laws.RoundTrip.Statement (.launch x) := by
  intro hw _
  have h := frLaunch (op := 9) (by decide) x
  exact roundTrip rfl h.lt (by simp only [extract, h.cls, h.op, xSync, xLaunch, Option.bind_eq_bind, Option.bind_some, Option.pure_def, Option.map_some, K_of (h.d 3 (by decide)), S_of (h.a 5 (by decide)), S_of (h.b 5 (by decide)), S_of (h.c 5 (by decide))]) rfl hw

theorem Laws.RoundTrip.glaunch (x : Launch) : Laws.RoundTrip.Statement (.glaunch x) := by
  intro hw _
  have h := frLaunch (op := 10) (by decide) x
  exact roundTrip rfl h.lt (by simp only [extract, h.cls, h.op, xSync, xLaunch, Option.bind_eq_bind, Option.bind_some, Option.pure_def, Option.map_some, K_of (h.d 3 (by decide)), S_of (h.a 5 (by decide)), S_of (h.b 5 (by decide)), S_of (h.c 5 (by decide))]) rfl hw

theorem Laws.RoundTrip.yield (d : SReg) : Laws.RoundTrip.Statement (.yield d) := by
  intro hw _
  have h := fr_yield d
  exact roundTrip rfl h.lt (by simp only [extract, h.cls, h.op, xSync, Option.bind_eq_bind, Option.bind_some, Option.pure_def, Option.map_some, S_of (h.d 5 (by decide))]) rfl hw

theorem Laws.RoundTrip.exit : Laws.RoundTrip.Statement (.exit) := by
  intro hw _
  have h := fr_exit
  exact roundTrip rfl h.lt (by simp only [extract, h.cls, h.op, xSync, Option.bind_eq_bind, Option.bind_some, Option.pure_def, Option.map_some]) rfl hw

theorem Laws.RoundTrip.capture (x : Capture) : Laws.RoundTrip.Statement (.capture x) := by
  intro hw _
  have h := frCapture x
  exact roundTrip rfl h.lt (by simp only [extract, h.cls, h.op, xClosure, Option.bind_eq_bind, Option.bind_some, Option.pure_def, Option.map_some, C_of (h.d 4 (by decide)), S_of (h.a 5 (by decide)), imm_of x.bm (show fld _ 0 32 = x.bm.toNat by rw [h.imm 0 32 (by decide)]; have := x.bm.isLt; omega)]) rfl hw

theorem Laws.RoundTrip.capref (x : Capref) : Laws.RoundTrip.Statement (.capref x) := by
  intro hw _
  have h := frCapref x
  exact roundTrip rfl h.lt (by simp only [extract, h.cls, h.op, xClosure, Option.bind_eq_bind, Option.bind_some, Option.pure_def, Option.map_some, C_of (h.d 4 (by decide)), S_of (h.a 5 (by decide)), S_of (h.b 5 (by decide)), imm_of x.bm (show fld _ 0 32 = x.bm.toNat by rw [h.imm 0 32 (by decide)]; have := x.bm.isLt; omega)]) rfl hw

theorem Laws.RoundTrip.cdup (d : CName) (a : CName) : Laws.RoundTrip.Statement (.cdup d a) := by
  intro hw _
  have h := fr_cdup d a
  exact roundTrip rfl h.lt (by simp only [extract, h.cls, h.op, xClosure, Option.bind_eq_bind, Option.bind_some, Option.pure_def, Option.map_some, C_of (h.d 4 (by decide)), C_of (h.a 4 (by decide))]) rfl hw

theorem Laws.RoundTrip.cdrop (a : CName) : Laws.RoundTrip.Statement (.cdrop a) := by
  intro hw _
  have h := fr_cdrop a
  exact roundTrip rfl h.lt (by simp only [extract, h.cls, h.op, xClosure, Option.bind_eq_bind, Option.bind_some, Option.pure_def, Option.map_some, C_of (h.a 4 (by decide))]) rfl hw

theorem Laws.RoundTrip.apply (a : CName) : Laws.RoundTrip.Statement (.apply a) := by
  intro hw _
  have h := fr_apply a
  exact roundTrip rfl h.lt (by simp only [extract, h.cls, h.op, xClosure, Option.bind_eq_bind, Option.bind_some, Option.pure_def, Option.map_some, C_of (h.a 4 (by decide))]) rfl hw

theorem Laws.RoundTrip.applyq (x : ApplyQ) : Laws.RoundTrip.Statement (.applyq x) := by
  intro hw _
  have h := frApplyQ x
  exact roundTrip rfl h.lt (by simp only [extract, h.cls, h.op, xClosure, Option.bind_eq_bind, Option.bind_some, Option.pure_def, Option.map_some, C_of (h.a 4 (by decide)), K_of (h.b 3 (by decide)), S_of (h.c 5 (by decide))]) rfl hw

theorem Laws.RoundTrip.cenv (d : SReg) (k : BitVec 4) : Laws.RoundTrip.Statement (.cenv d k) := by
  intro hw _
  have h := fr_cenv d k
  exact roundTrip rfl h.lt (by simp only [extract, h.cls, h.op, xClosure, Option.bind_eq_bind, Option.bind_some, Option.pure_def, Option.map_some, S_of (h.d 5 (by decide)), bv_of0 k (show fld _ 0 4 = k.toNat by rw [h.imm 0 4 (by decide)]; have := k.isLt; omega)]) rfl hw

theorem Laws.RoundTrip.cld (x : CLoad) : Laws.RoundTrip.Statement (.cld x) := by
  intro hw _
  have h := frCLoad x
  exact roundTrip rfl h.lt (by simp only [extract, h.cls, h.op, xClosure, Option.bind_eq_bind, Option.bind_some, Option.pure_def, Option.map_some, (show flag _ 47 = true by unfold flag; rw [h.mod 47 1 (by decide) (by decide)]; rfl), if_true, C_of (h.d 4 (by decide)), S_of (h.a 5 (by decide)), imm_of x.off (show fld _ 0 32 = x.off.toNat by rw [h.imm 0 32 (by decide)]; have := x.off.isLt; omega)]) rfl hw

theorem Laws.RoundTrip.cldR (d : CName) (a : SReg) : Laws.RoundTrip.Statement (.cldR d a) := by
  intro hw _
  have h := fr_cldR d a
  exact roundTrip rfl h.lt (by simp only [extract, h.cls, h.op, xClosure, Option.bind_eq_bind, Option.bind_some, Option.pure_def, Option.map_some, (show flag _ 47 = false by unfold flag; rw [h.mod 47 1 (by decide) (by decide)]; rfl), Bool.false_eq_true, if_false, C_of (h.d 4 (by decide)), S_of (h.a 5 (by decide))]) rfl hw

theorem Laws.RoundTrip.cst (x : CStore) : Laws.RoundTrip.Statement (.cst x) := by
  intro hw _
  have h := frCStore x
  exact roundTrip rfl h.lt (by simp only [extract, h.cls, h.op, xClosure, Option.bind_eq_bind, Option.bind_some, Option.pure_def, Option.map_some, (show flag _ 47 = true by unfold flag; rw [h.mod 47 1 (by decide) (by decide)]; rfl), if_true, C_of (h.c 4 (by decide)), S_of (h.a 5 (by decide)), imm_of x.off (show fld _ 0 32 = x.off.toNat by rw [h.imm 0 32 (by decide)]; have := x.off.isLt; omega)]) rfl hw

theorem Laws.RoundTrip.cstR (d : SReg) (c : CName) : Laws.RoundTrip.Statement (.cstR d c) := by
  intro hw _
  have h := fr_cstR d c
  exact roundTrip rfl h.lt (by simp only [extract, h.cls, h.op, xClosure, Option.bind_eq_bind, Option.bind_some, Option.pure_def, Option.map_some, (show flag _ 47 = false by unfold flag; rw [h.mod 47 1 (by decide) (by decide)]; rfl), Bool.false_eq_true, if_false, S_of (h.d 5 (by decide)), C_of (h.c 4 (by decide))]) rfl hw

theorem Laws.RoundTrip.trap (n : BitVec 16) : Laws.RoundTrip.Statement (.trap n) := by
  intro hw _
  have h := fr_trap n
  exact roundTrip rfl h.lt (by simp only [extract, h.cls, h.op, xSystem, Option.bind_eq_bind, Option.bind_some, Option.pure_def, Option.map_some, bv_of0 n (show fld _ 0 16 = n.toNat by rw [h.imm 0 16 (by decide)]; have := n.isLt; omega)]) rfl hw

theorem Laws.RoundTrip.eret : Laws.RoundTrip.Statement (.eret) := by
  intro hw _
  have h := fr_eret
  exact roundTrip rfl h.lt (by simp only [extract, h.cls, h.op, xSystem, Option.bind_eq_bind, Option.bind_some, Option.pure_def, Option.map_some]) rfl hw

theorem Laws.RoundTrip.csrr (x : Csr) : Laws.RoundTrip.Statement (.csrr x) := by
  intro hw _
  have h := frCsr (op := 3) (by decide) x
  exact roundTrip rfl h.lt (by simp only [extract, h.cls, h.op, xSystem, xCsr, Option.bind_eq_bind, Option.bind_some, Option.pure_def, Option.map_some, S_of (h.d 5 (by decide)), S_of (h.a 5 (by decide)), bv_of0 x.csr (show fld _ 0 12 = x.csr.toNat by rw [h.imm 0 12 (by decide)]; have := x.csr.isLt; omega)]) rfl hw

theorem Laws.RoundTrip.csrw (x : Csr) : Laws.RoundTrip.Statement (.csrw x) := by
  intro hw _
  have h := frCsr (op := 4) (by decide) x
  exact roundTrip rfl h.lt (by simp only [extract, h.cls, h.op, xSystem, xCsr, Option.bind_eq_bind, Option.bind_some, Option.pure_def, Option.map_some, S_of (h.d 5 (by decide)), S_of (h.a 5 (by decide)), bv_of0 x.csr (show fld _ 0 12 = x.csr.toNat by rw [h.imm 0 12 (by decide)]; have := x.csr.isLt; omega)]) rfl hw

theorem Laws.RoundTrip.csrs (x : Csr) : Laws.RoundTrip.Statement (.csrs x) := by
  intro hw _
  have h := frCsr (op := 5) (by decide) x
  exact roundTrip rfl h.lt (by simp only [extract, h.cls, h.op, xSystem, xCsr, Option.bind_eq_bind, Option.bind_some, Option.pure_def, Option.map_some, S_of (h.d 5 (by decide)), S_of (h.a 5 (by decide)), bv_of0 x.csr (show fld _ 0 12 = x.csr.toNat by rw [h.imm 0 12 (by decide)]; have := x.csr.isLt; omega)]) rfl hw

theorem Laws.RoundTrip.csrc (x : Csr) : Laws.RoundTrip.Statement (.csrc x) := by
  intro hw _
  have h := frCsr (op := 6) (by decide) x
  exact roundTrip rfl h.lt (by simp only [extract, h.cls, h.op, xSystem, xCsr, Option.bind_eq_bind, Option.bind_some, Option.pure_def, Option.map_some, S_of (h.d 5 (by decide)), S_of (h.a 5 (by decide)), bv_of0 x.csr (show fld _ 0 12 = x.csr.toNat by rw [h.imm 0 12 (by decide)]; have := x.csr.isLt; omega)]) rfl hw

theorem Laws.RoundTrip.tlbiAll : Laws.RoundTrip.Statement (.tlbiAll) := by
  intro hw _
  have h := fr_tlbiAll
  exact roundTrip rfl h.lt (by simp only [extract, h.cls, h.op, xSystem, Option.bind_eq_bind, Option.bind_some, Option.pure_def, Option.map_some, (show fld _ 32 2 = 0 from (h.mod 32 2 (by decide) (by decide)).trans (by decide))]) rfl hw

theorem Laws.RoundTrip.tlbiAsid (b : SReg) : Laws.RoundTrip.Statement (.tlbiAsid b) := by
  intro hw _
  have h := fr_tlbiAsid b
  exact roundTrip rfl h.lt (by simp only [extract, h.cls, h.op, xSystem, Option.bind_eq_bind, Option.bind_some, Option.pure_def, Option.map_some, (show fld _ 32 2 = 1 from (h.mod 32 2 (by decide) (by decide)).trans (by decide)), S_of (h.b 5 (by decide))]) rfl hw

theorem Laws.RoundTrip.tlbiVa (x : SPair) : Laws.RoundTrip.Statement (.tlbiVa x) := by
  intro hw _
  have h := fr_tlbiVa x
  exact roundTrip rfl h.lt (by simp only [extract, h.cls, h.op, xSystem, Option.bind_eq_bind, Option.bind_some, Option.pure_def, Option.map_some, (show fld _ 32 2 = 2 from (h.mod 32 2 (by decide) (by decide)).trans (by decide)), S_of (h.a 5 (by decide)), S_of (h.b 5 (by decide))]) rfl hw

theorem Laws.RoundTrip.ctxsave (x : S3) : Laws.RoundTrip.Statement (.ctxsave x) := by
  intro hw _
  have h := fr_ctxsave x
  exact roundTrip rfl h.lt (by simp only [extract, h.cls, h.op, xSystem, xS3, Option.bind_eq_bind, Option.bind_some, Option.pure_def, Option.map_some, S_of (h.d 5 (by decide)), S_of (h.a 5 (by decide)), S_of (h.b 5 (by decide))]) rfl hw

theorem Laws.RoundTrip.ctxload (x : S3) : Laws.RoundTrip.Statement (.ctxload x) := by
  intro hw _
  have h := fr_ctxload x
  exact roundTrip rfl h.lt (by simp only [extract, h.cls, h.op, xSystem, xS3, Option.bind_eq_bind, Option.bind_some, Option.pure_def, Option.map_some, S_of (h.d 5 (by decide)), S_of (h.a 5 (by decide)), S_of (h.b 5 (by decide))]) rfl hw

theorem Laws.RoundTrip.wfe (x : S3) : Laws.RoundTrip.Statement (.wfe x) := by
  intro hw _
  have h := fr_wfe x
  exact roundTrip rfl h.lt (by simp only [extract, h.cls, h.op, xSystem, xS3, Option.bind_eq_bind, Option.bind_some, Option.pure_def, Option.map_some, S_of (h.d 5 (by decide)), S_of (h.a 5 (by decide)), S_of (h.b 5 (by decide))]) rfl hw

theorem Laws.RoundTrip.logctlSync (x : LogSync) : Laws.RoundTrip.Statement (.logctlSync x) := by
  intro hw _
  have h := fr_logctlSync x
  exact roundTrip rfl h.lt (by simp only [extract, h.cls, h.op, xSystem, Option.bind_eq_bind, Option.bind_some, Option.pure_def, Option.map_some, (show fld _ 32 2 = 0 by rw [h.mod 32 2 (by decide) (by decide)]; have := n1_lt x.order; omega), flag_of (show fld _ 34 1 = n1 x.order by rw [h.mod 34 1 (by decide) (by decide)]; have := n1_lt x.order; omega), S_of (h.d 5 (by decide))]) rfl hw

theorem Laws.RoundTrip.logctlMark (x : S2) : Laws.RoundTrip.Statement (.logctlMark x) := by
  intro hw _
  have h := fr_logctlMark x
  exact roundTrip rfl h.lt (by simp only [extract, h.cls, h.op, xSystem, xS2, Option.bind_eq_bind, Option.bind_some, Option.pure_def, Option.map_some, (show fld _ 32 2 = 1 from (h.mod 32 2 (by decide) (by decide)).trans (by decide)), S_of (h.d 5 (by decide)), S_of (h.a 5 (by decide))]) rfl hw

theorem Laws.RoundTrip.logctlSwap (x : LogSwap) : Laws.RoundTrip.Statement (.logctlSwap x) := by
  intro hw _
  have h := frLogSwap x
  exact roundTrip rfl h.lt (by simp only [extract, h.cls, h.op, xSystem, Option.bind_eq_bind, Option.bind_some, Option.pure_def, Option.map_some, (show fld _ 32 2 = 2 by rw [h.mod 32 2 (by decide) (by decide)]; have := n1_lt x.order; omega), flag_of (show fld _ 34 1 = n1 x.order by rw [h.mod 34 1 (by decide) (by decide)]; have := n1_lt x.order; omega), S_of (h.d 5 (by decide)), S_of (h.a 5 (by decide)), S_of (h.b 5 (by decide))]) rfl hw

theorem Laws.RoundTrip.halt : Laws.RoundTrip.Statement (.halt) := by
  intro hw _
  have h := fr_halt
  exact roundTrip rfl h.lt (by simp only [extract, h.cls, h.op, xSystem, Option.bind_eq_bind, Option.bind_some, Option.pure_def, Option.map_some]) rfl hw

theorem Laws.RoundTrip.vcfg (x : VCfg) : Laws.RoundTrip.Statement (.vcfg x) := by
  intro hw _
  have h := frVCfg x
  exact roundTrip rfl h.lt (by simp only [extract, h.cls, h.op, xVConfig, Option.bind_eq_bind, Option.bind_some, Option.pure_def, Option.map_some, S_of (h.d 5 (by decide)), bv_of0 x.ew (show fld _ 0 2 = x.ew.toNat by rw [h.imm 0 2 (by decide)]; have := x.grp.isLt; have := x.ew.isLt; omega), bv_of x.grp (show fld _ 4 2 = x.grp.toNat by rw [h.imm 4 2 (by decide)]; have := x.grp.isLt; have := x.ew.isLt; omega)]) rfl hw

theorem Laws.RoundTrip.setvl (x : SetVl) : Laws.RoundTrip.Statement (.setvl x) := by
  intro hw _
  have h := frSetVl x
  exact roundTrip rfl h.lt (by simp only [extract, h.cls, h.op, xVConfig, Option.bind_eq_bind, Option.bind_some, Option.pure_def, Option.map_some, S_of (h.d 5 (by decide)), src_of (h.a 5 (by decide)) (show fld _ 47 1 = srcImmBit x.a by rw [h.mod 47 1 (by decide) (by decide)]; have := srcI_bit x.a; have := srcImmBit_lt x.a; omega) (show fld _ 0 32 = srcImm x.a by rw [h.imm 0 32 (by decide)]; have := srcImm_lt x.a; omega)]) rfl hw

theorem Laws.RoundTrip.mcpt (x : MCpt) : Laws.RoundTrip.Statement (.mcpt x) := by
  intro hw _
  have h := frMCpt x
  exact roundTrip rfl h.lt (by simp only [extract, h.cls, h.op, xVConfig, Option.bind_eq_bind, Option.bind_some, Option.pure_def, Option.map_some, M_of (h.d 4 (by decide)), src_of (h.a 5 (by decide)) (show fld _ 47 1 = srcImmBit x.a by rw [h.mod 47 1 (by decide) (by decide)]; have := srcI_bit x.a; have := srcImmBit_lt x.a; omega) (show fld _ 0 32 = srcImm x.a by rw [h.imm 0 32 (by decide)]; have := srcImm_lt x.a; omega)]) rfl hw

theorem Laws.RoundTrip.mexp (x : M2) : Laws.RoundTrip.Statement (.mexp x) := by
  intro hw _
  have h := frM2 (cls := 16) (op := 4) (by decide) (by decide) x
  exact roundTrip rfl h.lt (by simp only [extract, h.cls, h.op, xVConfig, xM2, Option.bind_eq_bind, Option.bind_some, Option.pure_def, Option.map_some, M_of (h.d 4 (by decide)), M_of (h.a 4 (by decide))]) rfl hw

theorem Laws.RoundTrip.vadd (x : VOp) : Laws.RoundTrip.Statement (.vadd x) := by
  intro hw _
  have h := frVOp (cls := 17) (op := 1) (by decide) (by decide) x
  exact roundTrip rfl h.lt (by simp only [extract, h.cls, h.op, xVInt, xVOp_of h, Option.bind_eq_bind, Option.bind_some, Option.pure_def, Option.map_some]) rfl hw

theorem Laws.RoundTrip.vsub (x : VOp) : Laws.RoundTrip.Statement (.vsub x) := by
  intro hw _
  have h := frVOp (cls := 17) (op := 2) (by decide) (by decide) x
  exact roundTrip rfl h.lt (by simp only [extract, h.cls, h.op, xVInt, xVOp_of h, Option.bind_eq_bind, Option.bind_some, Option.pure_def, Option.map_some]) rfl hw

theorem Laws.RoundTrip.vmul (x : VOp) : Laws.RoundTrip.Statement (.vmul x) := by
  intro hw _
  have h := frVOp (cls := 17) (op := 3) (by decide) (by decide) x
  exact roundTrip rfl h.lt (by simp only [extract, h.cls, h.op, xVInt, xVOp_of h, Option.bind_eq_bind, Option.bind_some, Option.pure_def, Option.map_some]) rfl hw

theorem Laws.RoundTrip.vmulh (x : VOp) : Laws.RoundTrip.Statement (.vmulh x) := by
  intro hw _
  have h := frVOp (cls := 17) (op := 4) (by decide) (by decide) x
  exact roundTrip rfl h.lt (by simp only [extract, h.cls, h.op, xVInt, xVOp_of h, Option.bind_eq_bind, Option.bind_some, Option.pure_def, Option.map_some]) rfl hw

theorem Laws.RoundTrip.vmulhu (x : VOp) : Laws.RoundTrip.Statement (.vmulhu x) := by
  intro hw _
  have h := frVOp (cls := 17) (op := 5) (by decide) (by decide) x
  exact roundTrip rfl h.lt (by simp only [extract, h.cls, h.op, xVInt, xVOp_of h, Option.bind_eq_bind, Option.bind_some, Option.pure_def, Option.map_some]) rfl hw

theorem Laws.RoundTrip.vmacc (x : VOp) : Laws.RoundTrip.Statement (.vmacc x) := by
  intro hw _
  have h := frVOp (cls := 17) (op := 6) (by decide) (by decide) x
  exact roundTrip rfl h.lt (by simp only [extract, h.cls, h.op, xVInt, xVOp_of h, Option.bind_eq_bind, Option.bind_some, Option.pure_def, Option.map_some]) rfl hw

theorem Laws.RoundTrip.vdiv (x : VOp) : Laws.RoundTrip.Statement (.vdiv x) := by
  intro hw _
  have h := frVOp (cls := 17) (op := 7) (by decide) (by decide) x
  exact roundTrip rfl h.lt (by simp only [extract, h.cls, h.op, xVInt, xVOp_of h, Option.bind_eq_bind, Option.bind_some, Option.pure_def, Option.map_some]) rfl hw

theorem Laws.RoundTrip.vrem (x : VOp) : Laws.RoundTrip.Statement (.vrem x) := by
  intro hw _
  have h := frVOp (cls := 17) (op := 8) (by decide) (by decide) x
  exact roundTrip rfl h.lt (by simp only [extract, h.cls, h.op, xVInt, xVOp_of h, Option.bind_eq_bind, Option.bind_some, Option.pure_def, Option.map_some]) rfl hw

theorem Laws.RoundTrip.vand (x : VOp) : Laws.RoundTrip.Statement (.vand x) := by
  intro hw _
  have h := frVOp (cls := 17) (op := 9) (by decide) (by decide) x
  exact roundTrip rfl h.lt (by simp only [extract, h.cls, h.op, xVInt, xVOp_of h, Option.bind_eq_bind, Option.bind_some, Option.pure_def, Option.map_some]) rfl hw

theorem Laws.RoundTrip.vor (x : VOp) : Laws.RoundTrip.Statement (.vor x) := by
  intro hw _
  have h := frVOp (cls := 17) (op := 10) (by decide) (by decide) x
  exact roundTrip rfl h.lt (by simp only [extract, h.cls, h.op, xVInt, xVOp_of h, Option.bind_eq_bind, Option.bind_some, Option.pure_def, Option.map_some]) rfl hw

theorem Laws.RoundTrip.vxor (x : VOp) : Laws.RoundTrip.Statement (.vxor x) := by
  intro hw _
  have h := frVOp (cls := 17) (op := 11) (by decide) (by decide) x
  exact roundTrip rfl h.lt (by simp only [extract, h.cls, h.op, xVInt, xVOp_of h, Option.bind_eq_bind, Option.bind_some, Option.pure_def, Option.map_some]) rfl hw

theorem Laws.RoundTrip.vshl (x : VOp) : Laws.RoundTrip.Statement (.vshl x) := by
  intro hw _
  have h := frVOp (cls := 17) (op := 12) (by decide) (by decide) x
  exact roundTrip rfl h.lt (by simp only [extract, h.cls, h.op, xVInt, xVOp_of h, Option.bind_eq_bind, Option.bind_some, Option.pure_def, Option.map_some]) rfl hw

theorem Laws.RoundTrip.vshr (x : VOp) : Laws.RoundTrip.Statement (.vshr x) := by
  intro hw _
  have h := frVOp (cls := 17) (op := 13) (by decide) (by decide) x
  exact roundTrip rfl h.lt (by simp only [extract, h.cls, h.op, xVInt, xVOp_of h, Option.bind_eq_bind, Option.bind_some, Option.pure_def, Option.map_some]) rfl hw

theorem Laws.RoundTrip.vsar (x : VOp) : Laws.RoundTrip.Statement (.vsar x) := by
  intro hw _
  have h := frVOp (cls := 17) (op := 14) (by decide) (by decide) x
  exact roundTrip rfl h.lt (by simp only [extract, h.cls, h.op, xVInt, xVOp_of h, Option.bind_eq_bind, Option.bind_some, Option.pure_def, Option.map_some]) rfl hw

theorem Laws.RoundTrip.vmin (x : VOp) : Laws.RoundTrip.Statement (.vmin x) := by
  intro hw _
  have h := frVOp (cls := 17) (op := 15) (by decide) (by decide) x
  exact roundTrip rfl h.lt (by simp only [extract, h.cls, h.op, xVInt, xVOp_of h, Option.bind_eq_bind, Option.bind_some, Option.pure_def, Option.map_some]) rfl hw

theorem Laws.RoundTrip.vmax (x : VOp) : Laws.RoundTrip.Statement (.vmax x) := by
  intro hw _
  have h := frVOp (cls := 17) (op := 16) (by decide) (by decide) x
  exact roundTrip rfl h.lt (by simp only [extract, h.cls, h.op, xVInt, xVOp_of h, Option.bind_eq_bind, Option.bind_some, Option.pure_def, Option.map_some]) rfl hw

theorem Laws.RoundTrip.vminu (x : VOp) : Laws.RoundTrip.Statement (.vminu x) := by
  intro hw _
  have h := frVOp (cls := 17) (op := 17) (by decide) (by decide) x
  exact roundTrip rfl h.lt (by simp only [extract, h.cls, h.op, xVInt, xVOp_of h, Option.bind_eq_bind, Option.bind_some, Option.pure_def, Option.map_some]) rfl hw

theorem Laws.RoundTrip.vmaxu (x : VOp) : Laws.RoundTrip.Statement (.vmaxu x) := by
  intro hw _
  have h := frVOp (cls := 17) (op := 18) (by decide) (by decide) x
  exact roundTrip rfl h.lt (by simp only [extract, h.cls, h.op, xVInt, xVOp_of h, Option.bind_eq_bind, Option.bind_some, Option.pure_def, Option.map_some]) rfl hw

theorem Laws.RoundTrip.vadds (x : VOp) : Laws.RoundTrip.Statement (.vadds x) := by
  intro hw _
  have h := frVOp (cls := 17) (op := 19) (by decide) (by decide) x
  exact roundTrip rfl h.lt (by simp only [extract, h.cls, h.op, xVInt, xVOp_of h, Option.bind_eq_bind, Option.bind_some, Option.pure_def, Option.map_some]) rfl hw

theorem Laws.RoundTrip.vsubs (x : VOp) : Laws.RoundTrip.Statement (.vsubs x) := by
  intro hw _
  have h := frVOp (cls := 17) (op := 20) (by decide) (by decide) x
  exact roundTrip rfl h.lt (by simp only [extract, h.cls, h.op, xVInt, xVOp_of h, Option.bind_eq_bind, Option.bind_some, Option.pure_def, Option.map_some]) rfl hw

theorem Laws.RoundTrip.vsel (x : VOp) : Laws.RoundTrip.Statement (.vsel x) := by
  intro hw _
  have h := frVOp (cls := 17) (op := 23) (by decide) (by decide) x
  exact roundTrip rfl h.lt (by simp only [extract, h.cls, h.op, xVInt, xVOp_of h, Option.bind_eq_bind, Option.bind_some, Option.pure_def, Option.map_some]) rfl hw

theorem Laws.RoundTrip.vabs (x : VUn) : Laws.RoundTrip.Statement (.vabs x) := by
  intro hw _
  have h := frVUn (cls := 17) (op := 21) (by decide) (by decide) x
  exact roundTrip rfl h.lt (by simp only [extract, h.cls, h.op, xVInt, xVUn_of h, Option.bind_eq_bind, Option.bind_some, Option.pure_def, Option.map_some]) rfl hw

theorem Laws.RoundTrip.vclz (x : VUn) : Laws.RoundTrip.Statement (.vclz x) := by
  intro hw _
  have h := frVUn (cls := 17) (op := 24) (by decide) (by decide) x
  exact roundTrip rfl h.lt (by simp only [extract, h.cls, h.op, xVInt, xVUn_of h, Option.bind_eq_bind, Option.bind_some, Option.pure_def, Option.map_some]) rfl hw

theorem Laws.RoundTrip.vpopc (x : VUn) : Laws.RoundTrip.Statement (.vpopc x) := by
  intro hw _
  have h := frVUn (cls := 17) (op := 25) (by decide) (by decide) x
  exact roundTrip rfl h.lt (by simp only [extract, h.cls, h.op, xVInt, xVUn_of h, Option.bind_eq_bind, Option.bind_some, Option.pure_def, Option.map_some]) rfl hw

theorem Laws.RoundTrip.vcmp (x : VCmp) : Laws.RoundTrip.Statement (.vcmp x) := by
  intro hw _
  have h := frVCmp x
  exact roundTrip rfl h.lt (by simp only [extract, h.cls, h.op, xVInt, Option.bind_eq_bind, Option.bind_some, Option.pure_def, Option.map_some, Type_of (h.w 6 (by decide)), (show condOf (fld _ 32 4) = some x.cc by rw [h.mod 32 4 (by decide) (by decide), show (vsrcMod x.b + condCode x.cc) / 2 ^ (32 - 32) % 2 ^ 4 = condCode x.cc by have := vsrcMod_or x.b; have := condCode_lt x.cc; omega, condOf_code]), M_of (h.d 4 (by decide)), V_of (h.a 5 (by decide)), M_of (h.m 4 (by decide)), vsrc_of (h.b 5 (by decide)) (show fld _ 47 1 = vsrcMod x.b / 32768 by rw [h.mod 47 1 (by decide) (by decide)]; have := vsrcMod_or x.b; have := condCode_lt x.cc; omega) (show fld _ 46 1 = vsrcMod x.b / 16384 % 2 by rw [h.mod 46 1 (by decide) (by decide)]; have := vsrcMod_or x.b; have := condCode_lt x.cc; omega) (show fld _ 0 32 = vsrcImm x.b by rw [h.imm 0 32 (by decide)]; have := vsrcImm_lt x.b; omega)]) rfl hw

theorem Laws.RoundTrip.vfadd (x : VOp) : Laws.RoundTrip.Statement (.vfadd x) := by
  intro hw _
  have h := frVOp (cls := 18) (op := 1) (by decide) (by decide) x
  exact roundTrip rfl h.lt (by simp only [extract, h.cls, h.op, xVFp, xVOp_of h, Option.bind_eq_bind, Option.bind_some, Option.pure_def, Option.map_some]) rfl hw

theorem Laws.RoundTrip.vfsub (x : VOp) : Laws.RoundTrip.Statement (.vfsub x) := by
  intro hw _
  have h := frVOp (cls := 18) (op := 2) (by decide) (by decide) x
  exact roundTrip rfl h.lt (by simp only [extract, h.cls, h.op, xVFp, xVOp_of h, Option.bind_eq_bind, Option.bind_some, Option.pure_def, Option.map_some]) rfl hw

theorem Laws.RoundTrip.vfmul (x : VOp) : Laws.RoundTrip.Statement (.vfmul x) := by
  intro hw _
  have h := frVOp (cls := 18) (op := 3) (by decide) (by decide) x
  exact roundTrip rfl h.lt (by simp only [extract, h.cls, h.op, xVFp, xVOp_of h, Option.bind_eq_bind, Option.bind_some, Option.pure_def, Option.map_some]) rfl hw

theorem Laws.RoundTrip.vfdiv (x : VOp) : Laws.RoundTrip.Statement (.vfdiv x) := by
  intro hw _
  have h := frVOp (cls := 18) (op := 5) (by decide) (by decide) x
  exact roundTrip rfl h.lt (by simp only [extract, h.cls, h.op, xVFp, xVOp_of h, Option.bind_eq_bind, Option.bind_some, Option.pure_def, Option.map_some]) rfl hw

theorem Laws.RoundTrip.vfmin (x : VOp) : Laws.RoundTrip.Statement (.vfmin x) := by
  intro hw _
  have h := frVOp (cls := 18) (op := 7) (by decide) (by decide) x
  exact roundTrip rfl h.lt (by simp only [extract, h.cls, h.op, xVFp, xVOp_of h, Option.bind_eq_bind, Option.bind_some, Option.pure_def, Option.map_some]) rfl hw

theorem Laws.RoundTrip.vfmax (x : VOp) : Laws.RoundTrip.Statement (.vfmax x) := by
  intro hw _
  have h := frVOp (cls := 18) (op := 8) (by decide) (by decide) x
  exact roundTrip rfl h.lt (by simp only [extract, h.cls, h.op, xVFp, xVOp_of h, Option.bind_eq_bind, Option.bind_some, Option.pure_def, Option.map_some]) rfl hw

theorem Laws.RoundTrip.vfsqrt (x : VUn) : Laws.RoundTrip.Statement (.vfsqrt x) := by
  intro hw _
  have h := frVUn (cls := 18) (op := 6) (by decide) (by decide) x
  exact roundTrip rfl h.lt (by simp only [extract, h.cls, h.op, xVFp, xVUn_of h, Option.bind_eq_bind, Option.bind_some, Option.pure_def, Option.map_some]) rfl hw

theorem Laws.RoundTrip.vfrcp (x : VUn) : Laws.RoundTrip.Statement (.vfrcp x) := by
  intro hw _
  have h := frVUn (cls := 18) (op := 10) (by decide) (by decide) x
  exact roundTrip rfl h.lt (by simp only [extract, h.cls, h.op, xVFp, xVUn_of h, Option.bind_eq_bind, Option.bind_some, Option.pure_def, Option.map_some]) rfl hw

theorem Laws.RoundTrip.vfrsq (x : VUn) : Laws.RoundTrip.Statement (.vfrsq x) := by
  intro hw _
  have h := frVUn (cls := 18) (op := 11) (by decide) (by decide) x
  exact roundTrip rfl h.lt (by simp only [extract, h.cls, h.op, xVFp, xVUn_of h, Option.bind_eq_bind, Option.bind_some, Option.pure_def, Option.map_some]) rfl hw

theorem Laws.RoundTrip.vfexp2 (x : VUn) : Laws.RoundTrip.Statement (.vfexp2 x) := by
  intro hw _
  have h := frVUn (cls := 18) (op := 12) (by decide) (by decide) x
  exact roundTrip rfl h.lt (by simp only [extract, h.cls, h.op, xVFp, xVUn_of h, Option.bind_eq_bind, Option.bind_some, Option.pure_def, Option.map_some]) rfl hw

theorem Laws.RoundTrip.vflog2 (x : VUn) : Laws.RoundTrip.Statement (.vflog2 x) := by
  intro hw _
  have h := frVUn (cls := 18) (op := 13) (by decide) (by decide) x
  exact roundTrip rfl h.lt (by simp only [extract, h.cls, h.op, xVFp, xVUn_of h, Option.bind_eq_bind, Option.bind_some, Option.pure_def, Option.map_some]) rfl hw

theorem Laws.RoundTrip.vfclass (x : VUn) : Laws.RoundTrip.Statement (.vfclass x) := by
  intro hw _
  have h := frVUn (cls := 18) (op := 15) (by decide) (by decide) x
  exact roundTrip rfl h.lt (by simp only [extract, h.cls, h.op, xVFp, xVUn_of h, Option.bind_eq_bind, Option.bind_some, Option.pure_def, Option.map_some]) rfl hw

theorem Laws.RoundTrip.vfma (x : VFma) : Laws.RoundTrip.Statement (.vfma x) := by
  intro hw _
  have h := frVFma x
  exact roundTrip rfl h.lt (by simp only [extract, h.cls, h.op, xVFp, Option.bind_eq_bind, Option.bind_some, Option.pure_def, Option.map_some, Type_of (h.w 6 (by decide)), V_of (h.d 5 (by decide)), V_of (h.a 5 (by decide)), V_of (h.c 5 (by decide)), M_of (h.m 4 (by decide)), vsrc_of (h.b 5 (by decide)) (show fld _ 47 1 = vsrcMod x.b / 32768 by rw [h.mod 47 1 (by decide) (by decide)]; have := vsrcMod_or x.b; omega) (show fld _ 46 1 = vsrcMod x.b / 16384 % 2 by rw [h.mod 46 1 (by decide) (by decide)]; have := vsrcMod_or x.b; omega) (show fld _ 0 32 = vsrcImm x.b by rw [h.imm 0 32 (by decide)]; have := vsrcImm_lt x.b; omega)]) rfl hw

theorem Laws.RoundTrip.vfcmp (x : VFcmp) : Laws.RoundTrip.Statement (.vfcmp x) := by
  intro hw _
  have h := frVFcmp x
  exact roundTrip rfl h.lt (by simp only [extract, h.cls, h.op, xVFp, Option.bind_eq_bind, Option.bind_some, Option.pure_def, Option.map_some, Type_of (h.w 6 (by decide)), (show fcmpOf (fld _ 32 2) = x.cmp by rw [h.mod 32 2 (by decide) (by decide), show (vsrcMod x.b + fcmpCode x.cmp) / 2 ^ (32 - 32) % 2 ^ 2 = fcmpCode x.cmp by have := vsrcMod_or x.b; have := fcmpCode_lt x.cmp; omega, fcmpOf_code]), M_of (h.d 4 (by decide)), V_of (h.a 5 (by decide)), M_of (h.m 4 (by decide)), vsrc_of (h.b 5 (by decide)) (show fld _ 47 1 = vsrcMod x.b / 32768 by rw [h.mod 47 1 (by decide) (by decide)]; have := vsrcMod_or x.b; have := fcmpCode_lt x.cmp; omega) (show fld _ 46 1 = vsrcMod x.b / 16384 % 2 by rw [h.mod 46 1 (by decide) (by decide)]; have := vsrcMod_or x.b; have := fcmpCode_lt x.cmp; omega) (show fld _ 0 32 = vsrcImm x.b by rw [h.imm 0 32 (by decide)]; have := vsrcImm_lt x.b; omega)]) rfl hw

theorem Laws.RoundTrip.vfsgn (x : VFsgn) : Laws.RoundTrip.Statement (.vfsgn x) := by
  intro hw _
  have h := frVFsgn x
  exact roundTrip rfl h.lt (by simp only [extract, h.cls, h.op, xVFp, Option.bind_eq_bind, Option.bind_some, Option.pure_def, Option.map_some, Type_of (h.w 6 (by decide)), (show fsgnOf (fld _ 32 2) = some x.sel by rw [h.mod 32 2 (by decide) (by decide), show (vsrcMod x.b + fsgnCode x.sel) / 2 ^ (32 - 32) % 2 ^ 2 = fsgnCode x.sel by have := vsrcMod_or x.b; have := fsgnCode_lt x.sel; omega, fsgnOf_code]), V_of (h.d 5 (by decide)), V_of (h.a 5 (by decide)), M_of (h.m 4 (by decide)), vsrc_of (h.b 5 (by decide)) (show fld _ 47 1 = vsrcMod x.b / 32768 by rw [h.mod 47 1 (by decide) (by decide)]; have := vsrcMod_or x.b; have := fsgnCode_lt x.sel; omega) (show fld _ 46 1 = vsrcMod x.b / 16384 % 2 by rw [h.mod 46 1 (by decide) (by decide)]; have := vsrcMod_or x.b; have := fsgnCode_lt x.sel; omega) (show fld _ 0 32 = vsrcImm x.b by rw [h.imm 0 32 (by decide)]; have := vsrcImm_lt x.b; omega)]) rfl hw

theorem Laws.RoundTrip.vcvt (x : VConv) : Laws.RoundTrip.Statement (.vcvt x) := by
  intro hw _
  have h := frVConv (op := 1) (by decide) x
  exact roundTrip rfl h.lt (by simp only [extract, h.cls, h.op, xVConvs, xVConv_of h, Option.bind_eq_bind, Option.bind_some, Option.pure_def, Option.map_some]) rfl hw

theorem Laws.RoundTrip.vpk4 (x : VConv) : Laws.RoundTrip.Statement (.vpk4 x) := by
  intro hw _
  have h := frVConv (op := 2) (by decide) x
  exact roundTrip rfl h.lt (by simp only [extract, h.cls, h.op, xVConvs, xVConv_of h, Option.bind_eq_bind, Option.bind_some, Option.pure_def, Option.map_some]) rfl hw

theorem Laws.RoundTrip.vupk4 (x : VConv) : Laws.RoundTrip.Statement (.vupk4 x) := by
  intro hw _
  have h := frVConv (op := 3) (by decide) x
  exact roundTrip rfl h.lt (by simp only [extract, h.cls, h.op, xVConvs, xVConv_of h, Option.bind_eq_bind, Option.bind_some, Option.pure_def, Option.map_some]) rfl hw

theorem Laws.RoundTrip.vscl (x : VConv) : Laws.RoundTrip.Statement (.vscl x) := by
  intro hw _
  have h := frVConv (op := 4) (by decide) x
  exact roundTrip rfl h.lt (by simp only [extract, h.cls, h.op, xVConvs, xVConv_of h, Option.bind_eq_bind, Option.bind_some, Option.pure_def, Option.map_some]) rfl hw

theorem Laws.RoundTrip.vred (x : VRed) : Laws.RoundTrip.Statement (.vred x) := by
  intro hw _
  have h := frVRed x
  exact roundTrip rfl h.lt (by simp only [extract, h.cls, h.op, xReduce, Option.bind_eq_bind, Option.bind_some, Option.pure_def, Option.map_some, Type_of (h.w 6 (by decide)), (show redOf (fld _ 32 4) = some x.op by rw [h.mod 32 4 (by decide) (by decide), show (redCode x.op) / 2 ^ (32 - 32) % 2 ^ 4 = redCode x.op by have := redCode_lt x.op; omega, redOf_code]), S_of (h.d 5 (by decide)), V_of (h.a 5 (by decide)), S_of (h.b 5 (by decide)), M_of (h.m 4 (by decide))]) rfl hw

theorem Laws.RoundTrip.vfred (x : VFRed) : Laws.RoundTrip.Statement (.vfred x) := by
  intro hw _
  have h := frVFRed x
  exact roundTrip rfl h.lt (by simp only [extract, h.cls, h.op, xReduce, Option.bind_eq_bind, Option.bind_some, Option.pure_def, Option.map_some, Type_of (h.w 6 (by decide)), (show fredOf (fld _ 32 4) = some x.op by rw [h.mod 32 4 (by decide) (by decide), show (fredCode x.op) / 2 ^ (32 - 32) % 2 ^ 4 = fredCode x.op by have := fredCode_lt x.op; omega, fredOf_code]), S_of (h.d 5 (by decide)), V_of (h.a 5 (by decide)), S_of (h.b 5 (by decide)), M_of (h.m 4 (by decide))]) rfl hw

theorem Laws.RoundTrip.vscan (x : VScan) : Laws.RoundTrip.Statement (.vscan x) := by
  intro hw _
  have h := frVScan x
  exact roundTrip rfl h.lt (by simp only [extract, h.cls, h.op, xReduce, Option.bind_eq_bind, Option.bind_some, Option.pure_def, Option.map_some, Type_of (h.w 6 (by decide)), (show redOf (fld _ 32 4) = some x.op by rw [h.mod 32 4 (by decide) (by decide), show (n1 x.excl * 16 + redCode x.op) / 2 ^ (32 - 32) % 2 ^ 4 = redCode x.op by have := redCode_lt x.op; have := n1_lt x.excl; have := redCode_lt x.op; omega, redOf_code]), flag_of (show fld _ 36 1 = n1 x.excl by rw [h.mod 36 1 (by decide) (by decide)]; have := redCode_lt x.op; have := n1_lt x.excl; omega), V_of (h.d 5 (by decide)), V_of (h.a 5 (by decide)), S_of (h.b 5 (by decide)), S_of (h.c 5 (by decide)), M_of (h.m 4 (by decide))]) rfl hw

theorem Laws.RoundTrip.vfscan (x : VFScan) : Laws.RoundTrip.Statement (.vfscan x) := by
  intro hw _
  have h := frVFScan x
  exact roundTrip rfl h.lt (by simp only [extract, h.cls, h.op, xReduce, Option.bind_eq_bind, Option.bind_some, Option.pure_def, Option.map_some, Type_of (h.w 6 (by decide)), (show fredOf (fld _ 32 4) = some x.op by rw [h.mod 32 4 (by decide) (by decide), show (n1 x.excl * 16 + fredCode x.op) / 2 ^ (32 - 32) % 2 ^ 4 = fredCode x.op by have := fredCode_lt x.op; have := n1_lt x.excl; have := fredCode_lt x.op; omega, fredOf_code]), flag_of (show fld _ 36 1 = n1 x.excl by rw [h.mod 36 1 (by decide) (by decide)]; have := fredCode_lt x.op; have := n1_lt x.excl; omega), V_of (h.d 5 (by decide)), V_of (h.a 5 (by decide)), S_of (h.b 5 (by decide)), S_of (h.c 5 (by decide)), M_of (h.m 4 (by decide))]) rfl hw

theorem Laws.RoundTrip.vslup (x : VSlide) : Laws.RoundTrip.Statement (.vslup x) := by
  intro hw _
  have h := frVSlide (op := 1) (by decide) x
  exact roundTrip rfl h.lt (by simp only [extract, h.cls, h.op, xPermute, xVSlide_of h, Option.bind_eq_bind, Option.bind_some, Option.pure_def, Option.map_some]) rfl hw

theorem Laws.RoundTrip.vsldn (x : VSlide) : Laws.RoundTrip.Statement (.vsldn x) := by
  intro hw _
  have h := frVSlide (op := 2) (by decide) x
  exact roundTrip rfl h.lt (by simp only [extract, h.cls, h.op, xPermute, xVSlide_of h, Option.bind_eq_bind, Option.bind_some, Option.pure_def, Option.map_some]) rfl hw

theorem Laws.RoundTrip.vgath (x : VOp) : Laws.RoundTrip.Statement (.vgath x) := by
  intro hw _
  have h := frVOp (cls := 21) (op := 3) (by decide) (by decide) x
  exact roundTrip rfl h.lt (by simp only [extract, h.cls, h.op, xPermute, xVOp_of h, Option.bind_eq_bind, Option.bind_some, Option.pure_def, Option.map_some]) rfl hw

theorem Laws.RoundTrip.vexpd (x : VUn) : Laws.RoundTrip.Statement (.vexpd x) := by
  intro hw _
  have h := frVUn (cls := 21) (op := 5) (by decide) (by decide) x
  exact roundTrip rfl h.lt (by simp only [extract, h.cls, h.op, xPermute, xVUn_of h, Option.bind_eq_bind, Option.bind_some, Option.pure_def, Option.map_some]) rfl hw

theorem Laws.RoundTrip.vrev (x : VUn) : Laws.RoundTrip.Statement (.vrev x) := by
  intro hw _
  have h := frVUn (cls := 21) (op := 12) (by decide) (by decide) x
  exact roundTrip rfl h.lt (by simp only [extract, h.cls, h.op, xPermute, xVUn_of h, Option.bind_eq_bind, Option.bind_some, Option.pure_def, Option.map_some]) rfl hw

theorem Laws.RoundTrip.vcomp (x : VComp) : Laws.RoundTrip.Statement (.vcomp x) := by
  intro hw _
  have h := frVComp x
  exact roundTrip rfl h.lt (by simp only [extract, h.cls, h.op, xPermute, Option.bind_eq_bind, Option.bind_some, Option.pure_def, Option.map_some, Type_of (h.w 6 (by decide)), V_of (h.d 5 (by decide)), V_of (h.a 5 (by decide)), S_of (h.c 5 (by decide)), M_of (h.m 4 (by decide))]) rfl hw

theorem Laws.RoundTrip.vbshl (x : VBsh) : Laws.RoundTrip.Statement (.vbshl x) := by
  intro hw _
  have h := frVBsh (op := 6) (by decide) x
  exact roundTrip rfl h.lt (by simp only [extract, h.cls, h.op, xPermute, xVBsh_of h, Option.bind_eq_bind, Option.bind_some, Option.pure_def, Option.map_some]) rfl hw

theorem Laws.RoundTrip.vbshr (x : VBsh) : Laws.RoundTrip.Statement (.vbshr x) := by
  intro hw _
  have h := frVBsh (op := 7) (by decide) x
  exact roundTrip rfl h.lt (by simp only [extract, h.cls, h.op, xPermute, xVBsh_of h, Option.bind_eq_bind, Option.bind_some, Option.pure_def, Option.map_some]) rfl hw

theorem Laws.RoundTrip.vfnl (x : VFnl) : Laws.RoundTrip.Statement (.vfnl x) := by
  intro hw _
  have h := frVFnl x
  exact roundTrip rfl h.lt (by simp only [extract, h.cls, h.op, xPermute, Option.bind_eq_bind, Option.bind_some, Option.pure_def, Option.map_some, Type_of (h.w 6 (by decide)), V_of (h.d 5 (by decide)), V_of (h.a 5 (by decide)), V_of (h.b 5 (by decide)), S_of (h.c 5 (by decide)), M_of (h.m 4 (by decide))]) rfl hw

theorem Laws.RoundTrip.vmvs (x : VMvs) : Laws.RoundTrip.Statement (.vmvs x) := by
  intro hw _
  have h := frVMvs x
  exact roundTrip rfl h.lt (by simp only [extract, h.cls, h.op, xPermute, Option.bind_eq_bind, Option.bind_some, Option.pure_def, Option.map_some, Type_of (h.w 6 (by decide)), S_of (h.d 5 (by decide)), V_of (h.a 5 (by decide)), src_of (h.b 5 (by decide)) (show fld _ 47 1 = srcImmBit x.j by rw [h.mod 47 1 (by decide) (by decide)]; have := siMod_bit x.j; have := srcImmBit_lt x.j; omega) (show fld _ 0 32 = srcImm x.j by rw [h.imm 0 32 (by decide)]; have := srcImm_lt x.j; omega)]) rfl hw

theorem Laws.RoundTrip.vmvx (x : VMvx) : Laws.RoundTrip.Statement (.vmvx x) := by
  intro hw _
  have h := frVMvx x
  exact roundTrip rfl h.lt (by simp only [extract, h.cls, h.op, xPermute, Option.bind_eq_bind, Option.bind_some, Option.pure_def, Option.map_some, Type_of (h.w 6 (by decide)), V_of (h.d 5 (by decide)), S_of (h.a 5 (by decide)), src_of (h.b 5 (by decide)) (show fld _ 47 1 = srcImmBit x.j by rw [h.mod 47 1 (by decide) (by decide)]; have := siMod_bit x.j; have := srcImmBit_lt x.j; omega) (show fld _ 0 32 = srcImm x.j by rw [h.imm 0 32 (by decide)]; have := srcImm_lt x.j; omega)]) rfl hw

theorem Laws.RoundTrip.vid (x : VId) : Laws.RoundTrip.Statement (.vid x) := by
  intro hw _
  have h := frVId x
  exact roundTrip rfl h.lt (by simp only [extract, h.cls, h.op, xPermute, Option.bind_eq_bind, Option.bind_some, Option.pure_def, Option.map_some, Type_of (h.w 6 (by decide)), V_of (h.d 5 (by decide)), S_of (h.a 5 (by decide)), M_of (h.m 4 (by decide)), imm_of x.step (show fld _ 0 32 = x.step.toNat by rw [h.imm 0 32 (by decide)]; have := x.step.isLt; omega)]) rfl hw

theorem Laws.RoundTrip.mand (x : M3) : Laws.RoundTrip.Statement (.mand x) := by
  intro hw _
  have h := frM3 (op := 1) (by decide) x
  exact roundTrip rfl h.lt (by simp only [extract, h.cls, h.op, xMaskOps, xM3, Option.bind_eq_bind, Option.bind_some, Option.pure_def, Option.map_some, M_of (h.d 4 (by decide)), M_of (h.a 4 (by decide)), M_of (h.b 4 (by decide))]) rfl hw

theorem Laws.RoundTrip.mor (x : M3) : Laws.RoundTrip.Statement (.mor x) := by
  intro hw _
  have h := frM3 (op := 2) (by decide) x
  exact roundTrip rfl h.lt (by simp only [extract, h.cls, h.op, xMaskOps, xM3, Option.bind_eq_bind, Option.bind_some, Option.pure_def, Option.map_some, M_of (h.d 4 (by decide)), M_of (h.a 4 (by decide)), M_of (h.b 4 (by decide))]) rfl hw

theorem Laws.RoundTrip.mxor (x : M3) : Laws.RoundTrip.Statement (.mxor x) := by
  intro hw _
  have h := frM3 (op := 3) (by decide) x
  exact roundTrip rfl h.lt (by simp only [extract, h.cls, h.op, xMaskOps, xM3, Option.bind_eq_bind, Option.bind_some, Option.pure_def, Option.map_some, M_of (h.d 4 (by decide)), M_of (h.a 4 (by decide)), M_of (h.b 4 (by decide))]) rfl hw

theorem Laws.RoundTrip.mandn (x : M3) : Laws.RoundTrip.Statement (.mandn x) := by
  intro hw _
  have h := frM3 (op := 5) (by decide) x
  exact roundTrip rfl h.lt (by simp only [extract, h.cls, h.op, xMaskOps, xM3, Option.bind_eq_bind, Option.bind_some, Option.pure_def, Option.map_some, M_of (h.d 4 (by decide)), M_of (h.a 4 (by decide)), M_of (h.b 4 (by decide))]) rfl hw

theorem Laws.RoundTrip.mnot (x : M2) : Laws.RoundTrip.Statement (.mnot x) := by
  intro hw _
  have h := frM2 (cls := 22) (op := 4) (by decide) (by decide) x
  exact roundTrip rfl h.lt (by simp only [extract, h.cls, h.op, xMaskOps, xM2, Option.bind_eq_bind, Option.bind_some, Option.pure_def, Option.map_some, M_of (h.d 4 (by decide)), M_of (h.a 4 (by decide))]) rfl hw

theorem Laws.RoundTrip.mpop (x : MToS) : Laws.RoundTrip.Statement (.mpop x) := by
  intro hw _
  have h := frMToS (op := 6) (by decide) x
  exact roundTrip rfl h.lt (by simp only [extract, h.cls, h.op, xMaskOps, xMToS, Option.bind_eq_bind, Option.bind_some, Option.pure_def, Option.map_some, S_of (h.d 5 (by decide)), M_of (h.a 4 (by decide))]) rfl hw

theorem Laws.RoundTrip.mfirst (x : MToS) : Laws.RoundTrip.Statement (.mfirst x) := by
  intro hw _
  have h := frMToS (op := 7) (by decide) x
  exact roundTrip rfl h.lt (by simp only [extract, h.cls, h.op, xMaskOps, xMToS, Option.bind_eq_bind, Option.bind_some, Option.pure_def, Option.map_some, S_of (h.d 5 (by decide)), M_of (h.a 4 (by decide))]) rfl hw

theorem Laws.RoundTrip.vspush (x : VSPush) : Laws.RoundTrip.Statement (.vspush x) := by
  intro hw _
  have h := frVSPush x
  exact roundTrip rfl h.lt (by simp only [extract, h.cls, h.op, xStream, Option.bind_eq_bind, Option.bind_some, Option.pure_def, Option.map_some, Type_of (h.w 6 (by decide)), Sq_of (h.d 1 (by decide)), V_of (h.a 5 (by decide)), S_of (h.c 5 (by decide)), M_of (h.m 4 (by decide))]) rfl hw

theorem Laws.RoundTrip.vspop (x : VSPop) : Laws.RoundTrip.Statement (.vspop x) := by
  intro hw _
  have h := frVSPop x
  exact roundTrip rfl h.lt (by simp only [extract, h.cls, h.op, xStream, Option.bind_eq_bind, Option.bind_some, Option.pure_def, Option.map_some, Type_of (h.w 6 (by decide)), V_of (h.d 5 (by decide)), Sq_of (h.a 1 (by decide)), S_of (h.c 5 (by decide)), M_of (h.m 4 (by decide)), flag_of (show fld _ 32 1 = n1 x.nb by rw [h.mod 32 1 (by decide) (by decide)]; have := n1_lt x.nb; omega)]) rfl hw

theorem Laws.RoundTrip.vld (x : VMem) : Laws.RoundTrip.Statement (.vld x) := by
  intro hw _
  have h := frVMemL (op := 1) (by decide) x
  exact roundTrip rfl h.lt (by simp only [extract, h.cls, h.op, xVMemory, xVMemL_of h, Option.bind_eq_bind, Option.bind_some, Option.pure_def, Option.map_some]) rfl hw

theorem Laws.RoundTrip.vlds (x : VMemS) : Laws.RoundTrip.Statement (.vlds x) := by
  intro hw _
  have h := frVMemSL (op := 2) (by decide) x
  exact roundTrip rfl h.lt (by simp only [extract, h.cls, h.op, xVMemory, xVMemSL_of h, Option.bind_eq_bind, Option.bind_some, Option.pure_def, Option.map_some]) rfl hw

theorem Laws.RoundTrip.vldg (x : VMemG) : Laws.RoundTrip.Statement (.vldg x) := by
  intro hw _
  have h := frVMemGL (op := 3) (by decide) x
  exact roundTrip rfl h.lt (by simp only [extract, h.cls, h.op, xVMemory, xVMemGL_of h, Option.bind_eq_bind, Option.bind_some, Option.pure_def, Option.map_some]) rfl hw

theorem Laws.RoundTrip.vldx (x : VMemX) : Laws.RoundTrip.Statement (.vldx x) := by
  intro hw _
  have h := frVMemXL (op := 4) (by decide) x
  exact roundTrip rfl h.lt (by simp only [extract, h.cls, h.op, xVMemory, xVMemXL_of h, Option.bind_eq_bind, Option.bind_some, Option.pure_def, Option.map_some]) rfl hw

theorem Laws.RoundTrip.vldt (x : VMem) : Laws.RoundTrip.Statement (.vldt x) := by
  intro hw _
  have h := frVMemL (op := 10) (by decide) x
  exact roundTrip rfl h.lt (by simp only [extract, h.cls, h.op, xVMemory, xVMemL_of h, Option.bind_eq_bind, Option.bind_some, Option.pure_def, Option.map_some]) rfl hw

theorem Laws.RoundTrip.vst (x : VMem) : Laws.RoundTrip.Statement (.vst x) := by
  intro hw _
  have h := frVMemSt (op := 5) (by decide) x
  exact roundTrip rfl h.lt (by simp only [extract, h.cls, h.op, xVMemory, xVMemSt_of h, Option.bind_eq_bind, Option.bind_some, Option.pure_def, Option.map_some]) rfl hw

theorem Laws.RoundTrip.vsts (x : VMemS) : Laws.RoundTrip.Statement (.vsts x) := by
  intro hw _
  have h := frVMemSSt (op := 6) (by decide) x
  exact roundTrip rfl h.lt (by simp only [extract, h.cls, h.op, xVMemory, xVMemSSt_of h, Option.bind_eq_bind, Option.bind_some, Option.pure_def, Option.map_some]) rfl hw

theorem Laws.RoundTrip.vstg (x : VMemG) : Laws.RoundTrip.Statement (.vstg x) := by
  intro hw _
  have h := frVMemGSt (op := 7) (by decide) x
  exact roundTrip rfl h.lt (by simp only [extract, h.cls, h.op, xVMemory, xVMemGSt_of h, Option.bind_eq_bind, Option.bind_some, Option.pure_def, Option.map_some]) rfl hw

theorem Laws.RoundTrip.vstx (x : VMemX) : Laws.RoundTrip.Statement (.vstx x) := by
  intro hw _
  have h := frVMemXSt (op := 8) (by decide) x
  exact roundTrip rfl h.lt (by simp only [extract, h.cls, h.op, xVMemory, xVMemXSt_of h, Option.bind_eq_bind, Option.bind_some, Option.pure_def, Option.map_some]) rfl hw

theorem Laws.RoundTrip.vstxa (x : VMemX) : Laws.RoundTrip.Statement (.vstxa x) := by
  intro hw _
  have h := frVMemXSt (op := 9) (by decide) x
  exact roundTrip rfl h.lt (by simp only [extract, h.cls, h.op, xVMemory, xVMemXSt_of h, Option.bind_eq_bind, Option.bind_some, Option.pure_def, Option.map_some]) rfl hw

theorem Laws.RoundTrip.vstt (x : VMem) : Laws.RoundTrip.Statement (.vstt x) := by
  intro hw _
  have h := frVMemSt (op := 11) (by decide) x
  exact roundTrip rfl h.lt (by simp only [extract, h.cls, h.op, xVMemory, xVMemSt_of h, Option.bind_eq_bind, Option.bind_some, Option.pure_def, Option.map_some]) rfl hw

theorem Laws.RoundTrip.pdot (x : PDot) : Laws.RoundTrip.Statement (.pdot x) := by
  intro hw _
  have h := frPDot x
  exact roundTrip rfl h.lt (by simp only [extract, h.cls, h.op, if_true, Option.bind_eq_bind, Option.bind_some, Option.pure_def, Option.map_some, Type_of (h.w 6 (by decide)), V_of (h.d 5 (by decide)), V_of (h.a 5 (by decide)), S_of (h.b 5 (by decide)), S_of (h.c 5 (by decide)), bv_of x.stride (show fld _ 32 8 = x.stride.toNat by rw [h.mod 32 8 (by decide) (by decide)]; have := x.stride.isLt; omega), bv_of x.off (show fld _ 16 16 = x.off.toNat by rw [h.imm 16 16 (by decide)]; have := x.off.isLt; have := x.len.isLt; omega), bv_of0 x.len (show fld _ 0 16 = x.len.toNat by rw [h.imm 0 16 (by decide)]; have := x.off.isLt; have := x.len.isLt; omega)]) rfl hw

theorem Laws.RoundTrip.acfg (x : ACfg) : Laws.RoundTrip.Statement (.acfg x) := by
  intro hw _
  have h := frACfg x
  exact roundTrip rfl h.lt (by simp only [extract, h.cls, h.op, xMatrix, Option.bind_eq_bind, Option.bind_some, Option.pure_def, Option.map_some, A_of (h.d 3 (by decide)), h.w 6 (by decide), intW_of, bv_of0 x.m1 (show fld _ 0 7 = x.m1.toNat by rw [h.imm 0 7 (by decide)]; have := x.n1.isLt; have := x.m1.isLt; omega), bv_of x.n1 (show fld _ 8 7 = x.n1.toNat by rw [h.imm 8 7 (by decide)]; have := x.n1.isLt; have := x.m1.isLt; omega)]) rfl hw

theorem Laws.RoundTrip.arel (d : AName) : Laws.RoundTrip.Statement (.arel d) := by
  intro hw _
  have h := fr_arel d
  exact roundTrip rfl h.lt (by simp only [extract, h.cls, h.op, xMatrix, Option.bind_eq_bind, Option.bind_some, Option.pure_def, Option.map_some, A_of (h.d 3 (by decide))]) rfl hw

theorem Laws.RoundTrip.azero (d : AName) : Laws.RoundTrip.Statement (.azero d) := by
  intro hw _
  have h := fr_azero d
  exact roundTrip rfl h.lt (by simp only [extract, h.cls, h.op, xMatrix, Option.bind_eq_bind, Option.bind_some, Option.pure_def, Option.map_some, A_of (h.d 3 (by decide))]) rfl hw

theorem Laws.RoundTrip.mma (x : Mma) : Laws.RoundTrip.Statement (.mma x) := by
  intro hw _
  have h := fmMma x
  exact roundTrip rfl h.lt (by simp only [extract, h.cls, h.op, xMatrix, h.fmt, mmaOf_code, Option.bind_eq_bind, Option.bind_some, Option.pure_def, Option.map_some, A_of (h.d 3 (by decide)), V_of (h.a 5 (by decide)), V_of (h.b 5 (by decide)), S_of (h.s 5 (by decide)), flag_of (show fld _ 53 1 = n1 x.neg by rw [h.flags 53 1 (by decide) (by decide)]; have := n1_lt x.neg; have := n1_lt x.accz; have := n1_lt x.scaled; omega), flag_of (show fld _ 52 1 = n1 x.accz by rw [h.flags 52 1 (by decide) (by decide)]; have := n1_lt x.neg; have := n1_lt x.accz; have := n1_lt x.scaled; omega), flag_of (show fld _ 51 1 = n1 x.scaled by rw [h.flags 51 1 (by decide) (by decide)]; have := n1_lt x.neg; have := n1_lt x.accz; have := n1_lt x.scaled; omega), shape_of x.sa (fun k l hk => by rw [h.high (24 + k) l (by omega) (by omega), Nat.add_sub_cancel_left]), shape_of x.sb (fun k l hk => by rw [h.low (0 + k) l (by omega), Nat.zero_add])]) rfl hw

theorem Laws.RoundTrip.ald (x : ALoad) : Laws.RoundTrip.Statement (.ald x) := by
  intro hw _
  have h := fmALoad x
  exact roundTrip rfl h.lt (by simp only [extract, h.cls, h.op, xMatrix, Option.bind_eq_bind, Option.bind_some, Option.pure_def, Option.map_some, (show typeOf (fld _ 24 6) = some x.mw by rw [h.high 24 6 (by decide) (by decide), show typeCode x.mw / 2 ^ (24 - 24) % 2 ^ 6 = typeCode x.mw by have := typeCode_lt x.mw; omega, typeOf_code]), A_of (h.d 3 (by decide)), S_of (h.a 5 (by decide)), S_of (h.b 5 (by decide)), bv_of x.stride (show fld _ 6 5 = x.stride.toNat by rw [h.low 6 5 (by decide)]; have := x.stride.isLt; have := x.off.isLt; have := n1_lt x.trans; omega), bv_of x.off (show fld _ 1 5 = x.off.toNat by rw [h.low 1 5 (by decide)]; have := x.stride.isLt; have := x.off.isLt; have := n1_lt x.trans; omega), flag_of (show fld _ 0 1 = n1 x.trans by rw [h.low 0 1 (by decide)]; have := x.stride.isLt; have := x.off.isLt; have := n1_lt x.trans; omega)]) rfl hw

theorem Laws.RoundTrip.ast (x : AStore) : Laws.RoundTrip.Statement (.ast x) := by
  intro hw _
  have h := fmAStore x
  exact roundTrip rfl h.lt (by simp only [extract, h.cls, h.op, xMatrix, Option.bind_eq_bind, Option.bind_some, Option.pure_def, Option.map_some, (show typeOf (fld _ 24 6) = some x.mw by rw [h.high 24 6 (by decide) (by decide), show typeCode x.mw / 2 ^ (24 - 24) % 2 ^ 6 = typeCode x.mw by have := typeCode_lt x.mw; omega, typeOf_code]), A_of (h.d 3 (by decide)), S_of (h.a 5 (by decide)), S_of (h.b 5 (by decide)), bv_of x.stride (show fld _ 6 5 = x.stride.toNat by rw [h.low 6 5 (by decide)]; have := x.stride.isLt; have := x.off.isLt; have := n1_lt x.trans; omega), bv_of x.off (show fld _ 1 5 = x.off.toNat by rw [h.low 1 5 (by decide)]; have := x.stride.isLt; have := x.off.isLt; have := n1_lt x.trans; omega), flag_of (show fld _ 0 1 = n1 x.trans by rw [h.low 0 1 (by decide)]; have := x.stride.isLt; have := x.off.isLt; have := n1_lt x.trans; omega), S_of (h.s 5 (by decide)), flag_of (show fld _ 51 1 = n1 x.scaled by rw [h.flags 51 1 (by decide) (by decide)]; have := n1_lt x.scaled; omega)]) rfl hw

theorem Laws.RoundTrip.arow (x : ARow) : Laws.RoundTrip.Statement (.arow x) := by
  intro hw _
  have h := frARow x
  exact roundTrip rfl h.lt (by simp only [extract, h.cls, h.op, xMatrix, Option.bind_eq_bind, Option.bind_some, Option.pure_def, Option.map_some, V_of (h.d 5 (by decide)), A_of (h.a 3 (by decide)), h.w 6 (by decide), intW_of, src_of (h.b 5 (by decide)) (show fld _ 47 1 = srcImmBit x.idx by rw [h.mod 47 1 (by decide) (by decide)]; have := siMod_bit x.idx; have := srcImmBit_lt x.idx; have := n1_lt x.col; omega) (show fld _ 0 32 = srcImm x.idx by rw [h.imm 0 32 (by decide)]; have := srcImm_lt x.idx; omega), flag_of (show fld _ 32 1 = n1 x.col by rw [h.mod 32 1 (by decide) (by decide)]; have := siMod_or x.idx; have := n1_lt x.col; omega)]) rfl hw

theorem Laws.RoundTrip.tlook (x : S2) : Laws.RoundTrip.Statement (.tlook x) := by
  intro hw _
  have h := fr_tlook x
  exact roundTrip rfl h.lt (by simp only [extract, h.cls, h.op, xTiles, xS2, Option.bind_eq_bind, Option.bind_some, Option.pure_def, Option.map_some, S_of (h.d 5 (by decide)), S_of (h.a 5 (by decide))]) rfl hw

theorem Laws.RoundTrip.twait (x : S2) : Laws.RoundTrip.Statement (.twait x) := by
  intro hw _
  have h := fr_twait x
  exact roundTrip rfl h.lt (by simp only [extract, h.cls, h.op, xTiles, xS2, Option.bind_eq_bind, Option.bind_some, Option.pure_def, Option.map_some, S_of (h.d 5 (by decide)), S_of (h.a 5 (by decide))]) rfl hw

theorem Laws.RoundTrip.tstat (x : S2) : Laws.RoundTrip.Statement (.tstat x) := by
  intro hw _
  have h := fr_tstat x
  exact roundTrip rfl h.lt (by simp only [extract, h.cls, h.op, xTiles, xS2, Option.bind_eq_bind, Option.bind_some, Option.pure_def, Option.map_some, S_of (h.d 5 (by decide)), S_of (h.a 5 (by decide))]) rfl hw

theorem Laws.RoundTrip.ttag (x : S3) : Laws.RoundTrip.Statement (.ttag x) := by
  intro hw _
  have h := fr_ttag x
  exact roundTrip rfl h.lt (by simp only [extract, h.cls, h.op, xTiles, xS3, Option.bind_eq_bind, Option.bind_some, Option.pure_def, Option.map_some, S_of (h.d 5 (by decide)), S_of (h.a 5 (by decide)), S_of (h.b 5 (by decide))]) rfl hw

theorem Laws.RoundTrip.tfill (x : TFill) : Laws.RoundTrip.Statement (.tfill x) := by
  intro hw _
  have h := frTFill x
  exact roundTrip rfl h.lt (by simp only [extract, h.cls, h.op, xTiles, Option.bind_eq_bind, Option.bind_some, Option.pure_def, Option.map_some, K_of (h.d 3 (by decide)), S_of (h.a 5 (by decide)), S_of (h.b 5 (by decide)), S_of (h.c 5 (by decide)), M_of (h.m 4 (by decide))]) rfl hw

theorem Laws.RoundTrip.tdrain (x : TDrain) : Laws.RoundTrip.Statement (.tdrain x) := by
  intro hw _
  have h := frTDrain x
  exact roundTrip rfl h.lt (by simp only [extract, h.cls, h.op, xTiles, Option.bind_eq_bind, Option.bind_some, Option.pure_def, Option.map_some, K_of (h.d 3 (by decide)), S_of (h.a 5 (by decide)), S_of (h.b 5 (by decide)), S_of (h.c 5 (by decide))]) rfl hw

theorem Laws.RoundTrip.trel (a : SReg) : Laws.RoundTrip.Statement (.trel a) := by
  intro hw _
  have h := fr_trel a
  exact roundTrip rfl h.lt (by simp only [extract, h.cls, h.op, xTiles, Option.bind_eq_bind, Option.bind_some, Option.pure_def, Option.map_some, S_of (h.a 5 (by decide))]) rfl hw

theorem Laws.RoundTrip.cpy (x : Copy) : Laws.RoundTrip.Statement (.cpy x) := by
  intro hw _
  have h := frCopy (op := 1) (by decide) x
  exact roundTrip rfl h.lt (by simp only [extract, h.cls, h.op, xCopies, xCopy, Option.bind_eq_bind, Option.bind_some, Option.pure_def, Option.map_some, K_of (h.d 3 (by decide)), S_of (h.a 5 (by decide)), S_of (h.b 5 (by decide)), S_of (h.c 5 (by decide)), M_of (h.m 4 (by decide)), bv_of x.chk (show fld _ 32 3 = x.chk.toNat by rw [h.mod 32 3 (by decide) (by decide)]; have := x.chk.isLt; omega), clI_of h.imm]) rfl hw

theorem Laws.RoundTrip.cpy2 (x : Copy) : Laws.RoundTrip.Statement (.cpy2 x) := by
  intro hw _
  have h := frCopy (op := 2) (by decide) x
  exact roundTrip rfl h.lt (by simp only [extract, h.cls, h.op, xCopies, xCopy, Option.bind_eq_bind, Option.bind_some, Option.pure_def, Option.map_some, K_of (h.d 3 (by decide)), S_of (h.a 5 (by decide)), S_of (h.b 5 (by decide)), S_of (h.c 5 (by decide)), M_of (h.m 4 (by decide)), bv_of x.chk (show fld _ 32 3 = x.chk.toNat by rw [h.mod 32 3 (by decide) (by decide)]; have := x.chk.isLt; omega), clI_of h.imm]) rfl hw

theorem Laws.RoundTrip.cstat (x : CStat) : Laws.RoundTrip.Statement (.cstat x) := by
  intro hw _
  have h := frCStat x
  exact roundTrip rfl h.lt (by simp only [extract, h.cls, h.op, xCopies, Option.bind_eq_bind, Option.bind_some, Option.pure_def, Option.map_some, S_of (h.d 5 (by decide)), K_of (h.a 3 (by decide)), S_of (h.c 5 (by decide)), flag_of (show fld _ 32 1 = n1 x.clr by rw [h.mod 32 1 (by decide) (by decide)]; have := n1_lt x.clr; omega)]) rfl hw

theorem Laws.RoundTrip.munion (x : Merge) : Laws.RoundTrip.Statement (.munion x) := by
  intro hw _
  have h := frMerge (op := 1) (by decide) x
  exact roundTrip rfl h.lt (by simp only [extract, h.cls, h.op, xMerges, xMerge_of h, Option.bind_eq_bind, Option.bind_some, Option.pure_def, Option.map_some]) rfl hw

theorem Laws.RoundTrip.minter (x : Merge) : Laws.RoundTrip.Statement (.minter x) := by
  intro hw _
  have h := frMerge (op := 2) (by decide) x
  exact roundTrip rfl h.lt (by simp only [extract, h.cls, h.op, xMerges, xMerge_of h, Option.bind_eq_bind, Option.bind_some, Option.pure_def, Option.map_some]) rfl hw

theorem Laws.RoundTrip.mcount (x : MCount) : Laws.RoundTrip.Statement (.mcount x) := by
  intro hw _
  have h := frMCount x
  exact roundTrip rfl h.lt (by simp only [extract, h.cls, h.op, xMerges, Option.bind_eq_bind, Option.bind_some, Option.pure_def, Option.map_some, S_of (h.d 5 (by decide)), S_of (h.a 5 (by decide)), flag_of (show fld _ 34 1 = n1 x.inter by rw [h.mod 34 1 (by decide) (by decide)]; have := n1_lt x.ix64; have := n1_lt x.inter; omega), flag_of (show fld _ 33 1 = n1 x.ix64 by rw [h.mod 33 1 (by decide) (by decide)]; have := n1_lt x.ix64; have := n1_lt x.inter; omega)]) rfl hw

theorem Laws.RoundTrip.dopen (x : DCmd) : Laws.RoundTrip.Statement (.dopen x) := by
  intro hw _
  have h := frDCmd (op := 1) (by decide) x
  exact roundTrip rfl h.lt (by simp only [extract, h.cls, h.op, xDepot, xDCmd, Option.bind_eq_bind, Option.bind_some, Option.pure_def, Option.map_some, K_of (h.d 3 (by decide)), S_of (h.a 5 (by decide)), clM_of (show fld _ 32 1 = n1 x.cl.isSome by rw [h.mod 32 1 (by decide) (by decide)]; have := n1_lt x.cl.isSome; omega) (h.m 4 (by decide))]) rfl hw

theorem Laws.RoundTrip.dseal (x : DCmd) : Laws.RoundTrip.Statement (.dseal x) := by
  intro hw _
  have h := frDCmd (op := 3) (by decide) x
  exact roundTrip rfl h.lt (by simp only [extract, h.cls, h.op, xDepot, xDCmd, Option.bind_eq_bind, Option.bind_some, Option.pure_def, Option.map_some, K_of (h.d 3 (by decide)), S_of (h.a 5 (by decide)), clM_of (show fld _ 32 1 = n1 x.cl.isSome by rw [h.mod 32 1 (by decide) (by decide)]; have := n1_lt x.cl.isSome; omega) (h.m 4 (by decide))]) rfl hw

theorem Laws.RoundTrip.stow (x : Stow) : Laws.RoundTrip.Statement (.stow x) := by
  intro hw _
  have h := frStow x
  exact roundTrip rfl h.lt (by simp only [extract, h.cls, h.op, xDepot, Option.bind_eq_bind, Option.bind_some, Option.pure_def, Option.map_some, K_of (h.d 3 (by decide)), S_of (h.a 5 (by decide)), S_of (h.b 5 (by decide)), S_of (h.c 5 (by decide)), clM_of (show fld _ 32 1 = n1 x.cl.isSome by rw [h.mod 32 1 (by decide) (by decide)]; have := n1_lt x.cl.isSome; omega) (h.m 4 (by decide))]) rfl hw

theorem Laws.RoundTrip.dquery (x : S2) : Laws.RoundTrip.Statement (.dquery x) := by
  intro hw _
  have h := fr_dquery x
  exact roundTrip rfl h.lt (by simp only [extract, h.cls, h.op, xDepot, xS2, Option.bind_eq_bind, Option.bind_some, Option.pure_def, Option.map_some, S_of (h.d 5 (by decide)), S_of (h.a 5 (by decide))]) rfl hw

theorem Laws.RoundTrip.nop : Laws.RoundTrip.Statement .nop := fun hw _ => roundTrip (n := 0) rfl (by decide) rfl rfl hw

theorem Laws.RoundTrip.vchain (x : VChain) : Laws.RoundTrip.Statement (.vchain x) := by
  intro hw _
  have hw' : x.wf = true := hw
  have hl : x.more.length ≤ 3 := by simp only [VChain.wf, Bool.and_eq_true, decide_eq_true_eq] at hw'; exact hw'.1.2
  have h := frVChain x
  have hs := stageCode_lt x.op; have hv := vsrcMod_or x.b
  have hx : extract (encVChain x) (encodeCont x) = some (.vchain x) := by
    simp only [extract, h.cls, h.op, xStream, xVChain, more_of x hl, stage1_of, Option.bind_eq_bind, Option.bind_some, Option.pure_def,
      Option.map_some, Type_of (h.w 6 (by decide)), V_of (h.d 5 (by decide)), V_of (h.a 5 (by decide)), V_of (h.c 5 (by decide)),
      M_of (h.m 4 (by decide)), vsrc_of (h.b 5 (by decide))
        (show fld _ 47 1 = vsrcMod x.b / 32768 by rw [h.mod 47 1 (by decide) (by decide)]; omega)
        (show fld _ 46 1 = vsrcMod x.b / 16384 % 2 by rw [h.mod 46 1 (by decide) (by decide)]; omega)
        (show fld _ 0 32 = vsrcImm x.b by rw [h.imm 0 32 (by decide)]; have := vsrcImm_lt x.b; omega),
      show stageOf (fld (encVChain x) 32 5) = some x.op by
        rw [h.mod 32 5 (by decide) (by decide), show (vsrcMod x.b + stageCode x.op) / 2 ^ (32 - 32) % 2 ^ 5 = stageCode x.op by omega, stageOf_code]]
  have he : encodeWord (.vchain x) = some (encVChain x) := rfl
  exact roundTrip2 he h.lt (encodeCont_lt x hl) hx hw
theorem Laws.RoundTrip.reservedEncoding (w : IWord) : Laws.RoundTrip.Statement (.reservedEncoding w) := fun _ h => absurd rfl (h w)

theorem Laws.RoundTrip.qgetWake (g : Nat) : Laws.RoundTrip.Statement (.qgetWake g) := fun hw _ => absurd hw Bool.false_ne_true

theorem Laws.RoundTrip.qputWake (g : Nat) : Laws.RoundTrip.Statement (.qputWake g) := fun hw _ => absurd hw Bool.false_ne_true

theorem Laws.RoundTrip.waitWake (g : Nat) : Laws.RoundTrip.Statement (.waitWake g) := fun hw _ => absurd hw Bool.false_ne_true

theorem Laws.RoundTrip.wfeWake (g : Nat) : Laws.RoundTrip.Statement (.wfeWake g) := fun hw _ => absurd hw Bool.false_ne_true

theorem Laws.RoundTrip.wfeTimeout (g : Nat) : Laws.RoundTrip.Statement (.wfeTimeout g) := fun hw _ => absurd hw Bool.false_ne_true

theorem Laws.RoundTrip.vspushWake (g : Nat) : Laws.RoundTrip.Statement (.vspushWake g) := fun hw _ => absurd hw Bool.false_ne_true

theorem Laws.RoundTrip.vspopWake (g : Nat) : Laws.RoundTrip.Statement (.vspopWake g) := fun hw _ => absurd hw Bool.false_ne_true

theorem Laws.RoundTrip.tileStallRelease (g : Nat) : Laws.RoundTrip.Statement (.tileStallRelease g) := fun hw _ => absurd hw Bool.false_ne_true

theorem Laws.RoundTrip.convoyDeadlock (cv : Nat) : Laws.RoundTrip.Statement (.convoyDeadlock cv) := fun hw _ => absurd hw Bool.false_ne_true

theorem Laws.RoundTrip.mmaComplete (g : Nat) : Laws.RoundTrip.Statement (.mmaComplete g) := fun hw _ => absurd hw Bool.false_ne_true

theorem Laws.RoundTrip.pdotComplete (g : Nat) : Laws.RoundTrip.Statement (.pdotComplete g) := fun hw _ => absurd hw Bool.false_ne_true

theorem Laws.RoundTrip.nearBankAgeing (g : Nat) : Laws.RoundTrip.Statement (.nearBankAgeing g) := fun hw _ => absurd hw Bool.false_ne_true

theorem Laws.RoundTrip.fillChunkComplete (core : Nat) (id : Nat) (chunk : Nat) : Laws.RoundTrip.Statement (.fillChunkComplete core id chunk) := fun hw _ => absurd hw Bool.false_ne_true

theorem Laws.RoundTrip.transferComplete (core : Nat) (id : Nat) : Laws.RoundTrip.Statement (.transferComplete core id) := fun hw _ => absurd hw Bool.false_ne_true

theorem Laws.RoundTrip.transferFailure (core : Nat) (id : Nat) (cause : BitVec 8) (addr : Word) : Laws.RoundTrip.Statement (.transferFailure core id cause addr) := fun hw _ => absurd hw Bool.false_ne_true

theorem Laws.RoundTrip.engineFaultAnswer (vdev : Nat) (tag : BitVec 8) (declined : Bool) : Laws.RoundTrip.Statement (.engineFaultAnswer vdev tag declined) := fun hw _ => absurd hw Bool.false_ne_true

theorem Laws.RoundTrip.postedClosureStart (core : Nat) : Laws.RoundTrip.Statement (.postedClosureStart core) := fun hw _ => absurd hw Bool.false_ne_true

theorem Laws.RoundTrip.hartEnd (g : Nat) : Laws.RoundTrip.Statement (.hartEnd g) := fun hw _ => absurd hw Bool.false_ne_true

theorem Laws.RoundTrip.dispatchPlace : Laws.RoundTrip.Statement (.dispatchPlace) := fun hw _ => absurd hw Bool.false_ne_true

theorem Laws.RoundTrip.preEmption (cv : Nat) : Laws.RoundTrip.Statement (.preEmption cv) := fun hw _ => absurd hw Bool.false_ne_true

theorem Laws.RoundTrip.restore (cv : Nat) : Laws.RoundTrip.Statement (.restore cv) := fun hw _ => absurd hw Bool.false_ne_true

theorem Laws.RoundTrip.orderLogEntryFill (ctx : Nat) (order : Bool) : Laws.RoundTrip.Statement (.orderLogEntryFill ctx order) := fun hw _ => absurd hw Bool.false_ne_true

theorem Laws.RoundTrip.hostLaunchWrite (fn : Nat) (q : Nat) (packet : BitVec 512) : Laws.RoundTrip.Statement (.hostLaunchWrite fn q packet) := fun hw _ => absurd hw Bool.false_ne_true

theorem Laws.RoundTrip.heldPacketEnqueue (q : Nat) : Laws.RoundTrip.Statement (.heldPacketEnqueue q) := fun hw _ => absurd hw Bool.false_ne_true

theorem Laws.RoundTrip.hostBar4Read (fn : Nat) (off : Nat) (len : Nat) : Laws.RoundTrip.Statement (.hostBar4Read fn off len) := fun hw _ => absurd hw Bool.false_ne_true

theorem Laws.RoundTrip.hostBar4Write (fn : Nat) (off : Nat) (data : List Byte) : Laws.RoundTrip.Statement (.hostBar4Write fn off data) := fun hw _ => absurd hw Bool.false_ne_true

theorem Laws.RoundTrip.createContext (fn : Nat) : Laws.RoundTrip.Statement (.createContext fn) := fun hw _ => absurd hw Bool.false_ne_true

theorem Laws.RoundTrip.bindQueue (fn : Nat) : Laws.RoundTrip.Statement (.bindQueue fn) := fun hw _ => absurd hw Bool.false_ne_true

theorem Laws.RoundTrip.grantRegion (fn : Nat) : Laws.RoundTrip.Statement (.grantRegion fn) := fun hw _ => absurd hw Bool.false_ne_true

theorem Laws.RoundTrip.killContext (fn : Nat) : Laws.RoundTrip.Statement (.killContext fn) := fun hw _ => absurd hw Bool.false_ne_true

theorem Laws.RoundTrip.invalidate (fn : Nat) : Laws.RoundTrip.Statement (.invalidate fn) := fun hw _ => absurd hw Bool.false_ne_true

theorem Laws.RoundTrip.readHart (fn : Nat) : Laws.RoundTrip.Statement (.readHart fn) := fun hw _ => absurd hw Bool.false_ne_true

theorem Laws.RoundTrip.resumeHart (fn : Nat) : Laws.RoundTrip.Statement (.resumeHart fn) := fun hw _ => absurd hw Bool.false_ne_true

theorem Laws.RoundTrip.cacheFloor (fn : Nat) : Laws.RoundTrip.Statement (.cacheFloor fn) := fun hw _ => absurd hw Bool.false_ne_true

theorem Laws.RoundTrip.assignCluster (fn : Nat) : Laws.RoundTrip.Statement (.assignCluster fn) := fun hw _ => absurd hw Bool.false_ne_true

theorem Laws.RoundTrip.powerLimit (fn : Nat) : Laws.RoundTrip.Statement (.powerLimit fn) := fun hw _ => absurd hw Bool.false_ne_true

theorem Laws.RoundTrip.commandDone (fn : Nat) : Laws.RoundTrip.Statement (.commandDone fn) := fun hw _ => absurd hw Bool.false_ne_true

theorem Laws.RoundTrip.discardReset (fn : Nat) (q : Nat) : Laws.RoundTrip.Statement (.discardReset fn q) := fun hw _ => absurd hw Bool.false_ne_true

theorem Laws.RoundTrip.registerWrite (fn : Nat) (x : RegAccess) (data : Word) : Laws.RoundTrip.Statement (.registerWrite fn x data) := fun hw _ => absurd hw Bool.false_ne_true

theorem Laws.RoundTrip.spdmGetVersion : Laws.RoundTrip.Statement (.spdmGetVersion) := fun hw _ => absurd hw Bool.false_ne_true

theorem Laws.RoundTrip.spdmGetCapabilities : Laws.RoundTrip.Statement (.spdmGetCapabilities) := fun hw _ => absurd hw Bool.false_ne_true

theorem Laws.RoundTrip.spdmNegotiateAlgorithms : Laws.RoundTrip.Statement (.spdmNegotiateAlgorithms) := fun hw _ => absurd hw Bool.false_ne_true

theorem Laws.RoundTrip.spdmGetDigests : Laws.RoundTrip.Statement (.spdmGetDigests) := fun hw _ => absurd hw Bool.false_ne_true

theorem Laws.RoundTrip.spdmGetCertificate (slot : Nat) : Laws.RoundTrip.Statement (.spdmGetCertificate slot) := fun hw _ => absurd hw Bool.false_ne_true

theorem Laws.RoundTrip.spdmChallenge (slot : Nat) (nonce : BitVec 256) : Laws.RoundTrip.Statement (.spdmChallenge slot nonce) := fun hw _ => absurd hw Bool.false_ne_true

theorem Laws.RoundTrip.spdmGetMeasurements (nonce : BitVec 256) : Laws.RoundTrip.Statement (.spdmGetMeasurements nonce) := fun hw _ => absurd hw Bool.false_ne_true

theorem Laws.RoundTrip.spdmUnsupported (code : BitVec 8) : Laws.RoundTrip.Statement (.spdmUnsupported code) := fun hw _ => absurd hw Bool.false_ne_true

theorem Laws.RoundTrip.packageReset : Laws.RoundTrip.Statement (.packageReset) := fun hw _ => absurd hw Bool.false_ne_true

theorem Laws.RoundTrip.bootPhaseAdvance (failure : BitVec 4) : Laws.RoundTrip.Statement (.bootPhaseAdvance failure) := fun hw _ => absurd hw Bool.false_ne_true

theorem Laws.RoundTrip.idleEntry : Laws.RoundTrip.Statement (.idleEntry) := fun hw _ => absurd hw Bool.false_ne_true

theorem Laws.RoundTrip.idleWake : Laws.RoundTrip.Statement (.idleWake) := fun hw _ => absurd hw Bool.false_ne_true

theorem Laws.RoundTrip.powerRemoved : Laws.RoundTrip.Statement (.powerRemoved) := fun hw _ => absurd hw Bool.false_ne_true

theorem Laws.RoundTrip.thermalTrip : Laws.RoundTrip.Statement (.thermalTrip) := fun hw _ => absurd hw Bool.false_ne_true

theorem Laws.RoundTrip.clockStep (up : Bool) : Laws.RoundTrip.Statement (.clockStep up) := fun hw _ => absurd hw Bool.false_ne_true

theorem Laws.RoundTrip.registerEccError (site : SramSite) (uncorrectable : Bool) : Laws.RoundTrip.Statement (.registerEccError site uncorrectable) := fun hw _ => absurd hw Bool.false_ne_true

theorem Laws.RoundTrip.dramEccError (granule : Nat) (uncorrectable : Bool) : Laws.RoundTrip.Statement (.dramEccError granule uncorrectable) := fun hw _ => absurd hw Bool.false_ne_true

theorem Laws.RoundTrip.dramScrub (core : Nat) (bank : Nat) : Laws.RoundTrip.Statement (.dramScrub core bank) := fun hw _ => absurd hw Bool.false_ne_true

theorem Laws.RoundTrip.verticalLinkFailure (core : Nat) (g : Nat) (elem : Nat) (addr : Word) : Laws.RoundTrip.Statement (.verticalLinkFailure core g elem addr) := fun hw _ => absurd hw Bool.false_ne_true

theorem Laws.RoundTrip.translationReturn (n : Nat) : Laws.RoundTrip.Statement (.translationReturn n) := fun hw _ => absurd hw Bool.false_ne_true

theorem Laws.RoundTrip.portDown (port : Nat) : Laws.RoundTrip.Statement (.portDown port) := fun hw _ => absurd hw Bool.false_ne_true

theorem Laws.RoundTrip.fabricPacketArrival (p : Packet) : Laws.RoundTrip.Statement (.fabricPacketArrival p) := fun hw _ => absurd hw Bool.false_ne_true

theorem Laws.RoundTrip.switchMarkerArrival (src : Nat) (oldPlane : Nat) (newPlane : Nat) (last : BitVec 32) : Laws.RoundTrip.Statement (.switchMarkerArrival src oldPlane newPlane last) := fun hw _ => absurd hw Bool.false_ne_true

theorem Laws.RoundTrip.remoteResponse (id : Nat) (r : Response) : Laws.RoundTrip.Statement (.remoteResponse id r) := fun hw _ => absurd hw Bool.false_ne_true

theorem Laws.RoundTrip.fabricItemTimeout (id : Nat) : Laws.RoundTrip.Statement (.fabricItemTimeout id) := fun hw _ => absurd hw Bool.false_ne_true

theorem Laws.RoundTrip.gangReserve (issuer : Nat) (gang : Nat) (fcid : BitVec 20) (queue : Nat) (member : Nat) (packet : BitVec 512) (idx : Bool) : Laws.RoundTrip.Statement (.gangReserve issuer gang fcid queue member packet idx) := fun hw _ => absurd hw Bool.false_ne_true

theorem Laws.RoundTrip.gangAck (gang : Nat) (member : Nat) : Laws.RoundTrip.Statement (.gangAck gang member) := fun hw _ => absurd hw Bool.false_ne_true

theorem Laws.RoundTrip.gangBegin (issuer : Nat) (gang : Nat) : Laws.RoundTrip.Statement (.gangBegin issuer gang) := fun hw _ => absurd hw Bool.false_ne_true

theorem Laws.RoundTrip.gangTimeout (gang : Nat) : Laws.RoundTrip.Statement (.gangTimeout gang) := fun hw _ => absurd hw Bool.false_ne_true

theorem Laws.RoundTrip.gangAbort (issuer : Nat) (gang : Nat) : Laws.RoundTrip.Statement (.gangAbort issuer gang) := fun hw _ => absurd hw Bool.false_ne_true

theorem Laws.RoundTrip.gangMemberFailure (gang : Nat) (member : Nat) (killed : Bool) : Laws.RoundTrip.Statement (.gangMemberFailure gang member killed) := fun hw _ => absurd hw Bool.false_ne_true

theorem Laws.RoundTrip.gangKill (issuer : Nat) (gang : Nat) : Laws.RoundTrip.Statement (.gangKill issuer gang) := fun hw _ => absurd hw Bool.false_ne_true

theorem Laws.RoundTrip.depotEraseDone (region : Nat) (ok : Bool) : Laws.RoundTrip.Statement (.depotEraseDone region ok) := fun hw _ => absurd hw Bool.false_ne_true

theorem Laws.RoundTrip.stowUnitDone (region : Nat) (r : StowResult) : Laws.RoundTrip.Statement (.stowUnitDone region r) := fun hw _ => absurd hw Bool.false_ne_true

theorem Laws.RoundTrip.depotSealDone (region : Nat) (ok : Bool) : Laws.RoundTrip.Statement (.depotSealDone region ok) := fun hw _ => absurd hw Bool.false_ne_true

theorem Laws.RoundTrip.depotCommandComplete (region : Nat) : Laws.RoundTrip.Statement (.depotCommandComplete region) := fun hw _ => absurd hw Bool.false_ne_true

theorem Laws.RoundTrip.stagingLineFill (line : Nat) (flashError : Bool) : Laws.RoundTrip.Statement (.stagingLineFill line flashError) := fun hw _ => absurd hw Bool.false_ne_true

theorem Laws.RoundTrip.cacheRepartition : Laws.RoundTrip.Statement (.cacheRepartition) := fun hw _ => absurd hw Bool.false_ne_true

theorem Laws.RoundTrip.ringVisit (ctx : Nat) (ring : Nat) : Laws.RoundTrip.Statement (.ringVisit ctx ring) := fun hw _ => absurd hw Bool.false_ne_true

theorem Laws.RoundTrip.waybillMatch (id : Nat) (r : List PeerView) : Laws.RoundTrip.Statement (.waybillMatch id r) := fun hw _ => absurd hw Bool.false_ne_true

theorem Laws.RoundTrip.slotRequest (id : Nat) (switch : TreeSwitch) (r : SlotAnswer) : Laws.RoundTrip.Statement (.slotRequest id switch r) := fun hw _ => absurd hw Bool.false_ne_true

theorem Laws.RoundTrip.slotGrant (id : Nat) (switch : TreeSwitch) : Laws.RoundTrip.Statement (.slotGrant id switch) := fun hw _ => absurd hw Bool.false_ne_true

theorem Laws.RoundTrip.blockPush (id : Nat) (block : StepBlock) : Laws.RoundTrip.Statement (.blockPush id block) := fun hw _ => absurd hw Bool.false_ne_true

theorem Laws.RoundTrip.switchFold (tier : Nat) (switch : Nat) (slot : Nat) (e : SlotEvent) : Laws.RoundTrip.Statement (.switchFold tier switch slot e) := fun hw _ => absurd hw Bool.false_ne_true

theorem Laws.RoundTrip.blockPull (id : Nat) (block : StepBlock) (data : List Byte) : Laws.RoundTrip.Statement (.blockPull id block data) := fun hw _ => absurd hw Bool.false_ne_true

theorem Laws.RoundTrip.parkedBlockResume (id : Nat) (block : Nat) (declined : Bool) : Laws.RoundTrip.Statement (.parkedBlockResume id block declined) := fun hw _ => absurd hw Bool.false_ne_true

theorem Laws.RoundTrip.waybillComplete (id : Nat) : Laws.RoundTrip.Statement (.waybillComplete id) := fun hw _ => absurd hw Bool.false_ne_true

theorem Laws.RoundTrip.collectivePlaneLost (id : Nat) : Laws.RoundTrip.Statement (.collectivePlaneLost id) := fun hw _ => absurd hw Bool.false_ne_true

theorem Laws.RoundTrip.collectivePeerFailed (id : Nat) (peer : Nat) : Laws.RoundTrip.Statement (.collectivePeerFailed id peer) := fun hw _ => absurd hw Bool.false_ne_true

theorem Laws.RoundTrip.engineTranslationFault (core : Nat) (id : Nat) : Laws.RoundTrip.Statement (.engineTranslationFault core id) := fun hw _ => absurd hw Bool.false_ne_true

theorem Laws.RoundTrip.tlbParityError (core : Nat) (index : Nat) : Laws.RoundTrip.Statement (.tlbParityError core index) := fun hw _ => absurd hw Bool.false_ne_true

theorem Laws.RoundTrip.class0MeteringWindow (core : Nat) : Laws.RoundTrip.Statement (.class0MeteringWindow core) := fun hw _ => absurd hw Bool.false_ne_true
theorem Laws.RoundTrip.fabricAck (id : Nat) (cause : Option (BitVec 8)) : Laws.RoundTrip.Statement (.fabricAck id cause) :=
  fun hw _ => absurd hw Bool.false_ne_true

end Sys2Proof
end

