-- ==== Sys2Proof/Laws/Vector.lean ====
section
/-! SUPPORT. The element loop and the checks of vector instructions, on a hart without poison. -/

namespace Sys2Proof.Machine

theorem State.fits.clean {s : State} {t : EType} {rs : List VName} (h : s.fits t rs) : s.clean := h.1

/-- The width and the groups are as `vtype` asks. -/
theorem checkVec_ok {s : State} {t : EType} {rs : List VName} (h : s.fits t rs) : checkVec t rs s = .ok () s := by
  unfold checkVec
  rw [bind_ok (getConvoy_run s), require_run, if_pos]
  simp only [Bool.and_eq_true, beq_iff_eq, List.all_eq_true]
  exact ⟨h.2.1, h.2.2⟩

/-- A scalar operand of an element loop, read without poison. -/
theorem resolveLate_ok {s : State} (h : s.clean) (t : EType) (r : SReg) : resolveLate t r s = .ok (.const (s.freg t r)) s := by
  unfold resolveLate
  rw [bind_ok (getHart_run s), if_neg, bind_ok (readF_ok (h.canRead r)), pure_run]
  unfold State.clean at h
  simp [poisoned, h]

theorem resolveB_ok {s : State} (h : s.clean) (t : EType) (b : VSrc) : resolveB t b s = .ok (s.varg t b) s := by
  cases b with
  | vec r => rfl
  | scalar r => exact resolveLate_ok h t r
  | imm i => rfl

theorem resolveFB_ok {s : State} (h : s.clean) (t : EType) (b : VSrc) : resolveFB t b s = .ok (s.vfarg t b) s := by
  cases b with
  | vec r => rfl
  | scalar r => simp only [resolveFB]; rw [bind_ok (resolveLate_ok h t r)]; rfl
  | imm i => rfl

theorem addFlags_poison (fl : Flags) (h : Hart) : (h.addFlags fl).poison = h.poison := rfl

theorem clearPoison_nil {h : Hart} {p : RegSite → Bool} (hp : h.poison = []) : (clearPoison p h).poison = [] := by
  rw [clearPoison_clean hp]
  exact hp

theorem setElem_clean {h : Hart} (hp : h.poison = []) (d : VName) (w i x : Nat) : (h.setElem d w i x).poison = [] := by
  unfold Hart.setElem
  exact clearPoison_nil hp

theorem setMaskBit_poison (m : MName) (i : Nat) (b : Bool) (h : Hart) : (h.setMaskBit m i b).poison = h.poison := by
  unfold Hart.setMaskBit
  split <;> rfl

theorem expandMask_clean {h : Hart} (hp : h.poison = []) (e : Nat) (m : MName) : (h.expandMask e m).poison = [] := by
  unfold Hart.expandMask
  split
  · exact hp
  · exact clearPoison_nil hp

/-- A loop whose elements all complete is a fold. -/
theorem elemLoop_all {f : Nat → Hart → Option Hart} {g : Hart → Nat → Hart}
    (hf : ∀ i (h : Hart), h.poison = [] → f i h = some (g h i) ∧ (g h i).poison = []) :
    ∀ (is : List Nat) (h : Hart), h.poison = [] → elemLoop f is h = (is.foldl g h, none) := by
  intro is
  induction is with
  | nil => intro h _; rfl
  | cons i t ih =>
    intro h hp
    obtain ⟨h1, h2⟩ := hf i h hp
    simp only [elemLoop, h1, List.foldl_cons]
    exact ih _ h2

theorem runElems_all {f : Nat → Hart → Option Hart} {g : Hart → Nat → Hart} {s : State} (hs : s.clean)
    (hf : ∀ i (h : Hart), h.poison = [] → f i h = some (g h i) ∧ (g h i).poison = []) (is : List Nat) :
    runElems is f s = .ok () (s.setHart ((is.foldl g s.hart).setVstart 0)) := by
  unfold runElems
  rw [bind_ok (getHart_run s), elemLoop_all hf is s.hart hs]
  rfl

/-- The loop of R119 on a hart without poison. -/
theorem vecLoop_all {f : Nat → Hart → Option Hart} {g : Hart → Nat → Hart} {s : State} (hs : s.clean) (m : MName)
    (hf : ∀ i (h : Hart), h.poison = [] → f i h = some (g h i) ∧ (g h i).poison = []) :
    vecLoop m f s = .ok () (s.setHart (((s.active m).foldl g s.hart).setVstart 0)) := by
  unfold vecLoop
  rw [bind_ok (checkPred_clean hs m), bind_ok (getConvoy_run s), bind_ok (getHart_run s)]
  exact runElems_all hs hf _

/-- The loop for one result per element. -/
theorem vecLoop_each {s : State} (hs : s.clean) (m : MName) (d : VName) (w : Nat) (bad : Nat → Hart → Bool)
    (v : Hart → Nat → Nat × Flags) (hb : ∀ i (h : Hart), h.poison = [] → bad i h = false) :
    vecLoop m (fun i h => elemResult d w i (bad i h) (v h i) h) s = .ok () (s.setHart (s.each m d w v)) := by
  refine vecLoop_all hs m fun i h hp => ⟨?_, ?_⟩
  · simp only [elemResult, hb i h hp]; rfl
  · exact setElem_clean hp _ _ _ _

/-- `none` of the elements is poisoned. -/
theorem find_clean {h : Hart} (hp : h.poison = []) (a : VName) (w : Nat) (is : List Nat) :
    is.find? (fun i => h.elemPoisoned a w i) = none := by
  simp [elemPoisoned_clean hp]

theorem wholeActive_clean {s : State} (hs : s.clean) (a : VName) (w : Nat) (m : MName) :
    wholeActive a w m s = .ok (s.active m) s := by
  unfold wholeActive
  rw [bind_ok (checkPred_clean hs m), bind_ok (getConvoy_run s), bind_ok (getHart_run s)]
  simp only [find_clean hs]
  rfl

theorem permuteDest_clean {s : State} (hs : s.clean) (m : MName) : permuteDest m s = .ok (s.active m) s := by
  unfold permuteDest
  rw [bind_ok (checkPred_clean hs m), bind_ok (getConvoy_run s), bind_ok (getHart_run s)]
  rfl

theorem setElems_map (d : VName) (w : Nat) (is : List Nat) (v : Nat → Nat) (h : Hart) :
    h.setElems d w (is.map fun i => (i, v i)) = is.foldl (fun g i => g.setElem d w i (v i)) h := by
  simp [Hart.setElems, List.foldl_map]

theorem permuteTo_clean {s : State} (hs : s.clean) (d : VName) (w : Nat) (is : List Nat) (picks : Nat → List Pick)
    (v : Hart → Nat → Nat) : permuteTo d w is picks v s = .ok () (s.setHart (s.whole is d w (v s.hart))) := by
  unfold permuteTo
  rw [bind_ok (getHart_run s)]
  have : (is.find? fun i => (picks i).any fun p => s.hart.elemPoisoned p.r w p.j) = none := by
    simp [elemPoisoned_clean hs]
  simp only [this, setElems_map, setHart_run]
  rfl

end Sys2Proof.Machine
end

