-- ==== Sys2Proof/Laws/VecMem.lean ====
section
/-! SUPPORT. Vector accesses to ordinary words: what the element operations answer when their words are found. -/

namespace Sys2Proof.Machine

/-- The element and bank of an access only label its failure. -/
theorem locate_label {fam : Fam} {acc : Acc} {va : Word} {n : Nat} {s t : State} {p : Place} (e b : Option Nat)
    (h : locate fam acc va n none none s = .ok p t) : locate fam acc va n e b s = .ok p t := by
  unfold locate at h ⊢
  rw [bind_ok (get_run s)] at h ⊢
  by_cases h0 : va.toNat % n = 0
  · simp only [h0, ne_eq, not_true_eq_false, if_false] at h ⊢
    generalize field va.toNat 62 2 = q at h ⊢
    rcases q with _ | _ | _ | q
    · simp only at h ⊢
      cases ht : translate (some s.coreId) s.ctx s.hart.mode fam acc va s with
      | ok l u =>
        rw [ht] at h
        exact h
      | error c u =>
        rw [ht] at h
        cases h
    · cases h
    · simp only at h ⊢
      split at h
      · rename_i h1
        rw [if_pos h1]
        exact h
      · cases h
    · cases h
  · simp only [h0, ne_eq, not_false_eq_true, if_true] at h
    cases h

/-- The first element and the later ones are performed alike while none waits. -/
theorem memLoop_ok {f : Nat → M Unit} {is : List Nat} {s t : State} (h : memRest f is s = .ok () t) :
    memLoop f is s = .ok () t := by
  cases is with
  | nil => exact h
  | cons i is =>
    simp only [memRest, memLoop] at h ⊢
    split at h <;> rename_i e
    · exact h
    · cases h
    · split at h <;> cases h

theorem memRest_each {f : Nat → M Unit} {p : Nat → State → State → Prop} {inv : State → Prop}
    (hf : ∀ i s t, p i s t → inv s → f i s = .ok () t ∧ inv t) :
    ∀ {is : List Nat} {s t : State}, State.Each p is s t → inv s → memRest f is s = .ok () t.restart ∧ inv t := by
  intro is s t h
  induction h with
  | nil s => intro hi; exact ⟨rfl, hi⟩
  | cons i is s t u h1 _ ih =>
    intro hi
    obtain ⟨e, hi'⟩ := hf i s t h1 hi
    obtain ⟨e', hu⟩ := ih hi'
    refine ⟨?_, hu⟩
    simp only [memRest, e]
    exact e'

theorem memLoop_each {f : Nat → M Unit} {p : Nat → State → State → Prop} {inv : State → Prop}
    (hf : ∀ i s t, p i s t → inv s → f i s = .ok () t ∧ inv t) {is : List Nat} {s t : State} (h : State.Each p is s t)
    (hi : inv s) : memLoop f is s = .ok () t.restart ∧ inv t :=
  ⟨memLoop_ok (memRest_each hf h hi).1, (memRest_each hf h hi).2⟩

/-- Words found for labels: what is located. -/
theorem found_walked {α : Type} {fam acc n} {fs : List (α × Word)} {s t : State} {ks : List (α × Nat)}
    (h : State.Found fam acc n fs s ks t) : s.walkedTo t := by
  induction h with
  | nil s => exact s.walkedTo_self
  | cons a va fs s t u l ks h1 _ ih =>
    obtain ⟨c, m, rfl⟩ := finds_walked h1
    obtain ⟨c', m', rfl⟩ := ih
    exact ⟨c', m', rfl⟩

/-- The places of found words. -/
theorem locateAll_found {fam acc n i} : ∀ {fs : List (VName × Word)} {s t : State} {ks : List (VName × Nat)},
    State.Found fam acc n fs s ks t → ∃ ps : List (VName × Word × Place), locateAll fam acc n i fs s = .ok ps t
      ∧ ps.map (fun p => p.1) = ks.map Prod.fst
      ∧ List.Forall₂ (fun (p : VName × Word × Place) (k : VName × Nat) =>
          p.1 = k.1 ∧ ∃ l, p.2.2 = .local_ l ∧ l.key = k.2 ∧ isVault l.key = true ∧ l.host = false ∧ l.log = false) ps ks := by
  intro fs s t ks h
  induction h with
  | nil s => exact ⟨[], rfl, rfl, .nil⟩
  | cons a va fs s t u l ks h1 _ ih =>
    obtain ⟨ps, e, hm, hp⟩ := ih
    refine ⟨(a, va, .local_ l) :: ps, ?_, by simp [hm], .cons ⟨rfl, l, rfl, rfl, h1.2.1, h1.2.2.1, h1.2.2.2.1⟩ hp⟩
    simp only [locateAll]
    rw [bind_ok (locate_label (some i) none h1.1), bind_ok e]
    rfl

/-- The relation of a located place and its key. -/
def AtPlace (p : VName × Word × Place) (k : VName × Nat) : Prop :=
  p.1 = k.1 ∧ ∃ l, p.2.2 = .local_ l ∧ l.key = k.2 ∧ isVault l.key = true ∧ l.host = false ∧ l.log = false

/-- Nothing of the fields enters a log. -/
theorem logFields_off {kind i : Nat} {ps : List (VName × Word × Place)} {ks : List (VName × Nat)}
    (h : List.Forall₂ AtPlace ps ks) (s : State) : logFields kind i ps s = .ok () s := by
  have : (ps.filterMap fun p => match p.2.2 with
      | .local_ l => if l.log then some (kind, i, p.2.1) else none
      | .remote => none) = [] := by
    induction h with
    | nil => rfl
    | cons hp _ ih =>
      obtain ⟨_, l, e1, _, _, _, e2⟩ := hp
      simp only [List.filterMap_cons, e1, e2, Bool.false_eq_true, if_false]
      exact ih
  have key : ∀ es : List (Nat × Nat × Word), es = [] → (match logAccesses true es s with
      | .error (.trap t) s' => (.error (.trap { t with elem := some i }) s' : EStateM.Result Stop State Unit)
      | r => r) = .ok () s := by
    rintro _ rfl
    unfold logAccesses
    rw [bind_ok (get_run s)]
    simp
  exact key _ this

theorem forM_ok {α : Type} {f : α → M Unit} {s : State} (xs : List α) (h : ∀ x ∈ xs, f x s = .ok () s) :
    xs.forM f s = .ok () s := by
  induction xs with
  | nil => rfl
  | cons a t ih =>
    simp only [List.forM_eq_forM, List.forM_cons] at ih ⊢
    rw [bind_ok (h a (by simp))]
    exact ih fun x hx => h x (by simp [hx])

theorem prep_loads {i : Nat} {s : State} (hd : s.calm) {ps : List (VName × Word × Place)}
    {ks : List (VName × Nat)} (h : List.Forall₂ AtPlace ps ks) (hk : ∀ k ∈ ks, dataError s k.2 = none) :
    (ps.forM fun p => prepLoad p.2.2 p.2.1 (some i) none) s = .ok () s := by
  induction h with
  | nil => rfl
  | cons hp _ ih =>
    rename_i p k ps ks _
    obtain ⟨_, l, e1, e2, e3, e4, e5⟩ := hp
    simp only [List.forM_eq_forM, List.forM_cons] at ih ⊢
    have : prepLoad p.2.2 p.2.1 (some i) none s = .ok () s := by
      rw [e1]
      simp only [prepLoad, e4, vault_not_depot e3, Bool.false_eq_true, if_false]
      rw [bind_ok (flushGranule_none hd.1 _), bind_ok (awaitOwn_calm hd _), bind_ok (awaitLogged_off e5)]
      exact checkData_none (by rw [e2]; exact hk k (by simp)) _ _ _
    rw [bind_ok this]
    exact ih fun k hk' => hk k (by simp [hk'])

theorem prep_stores {i : Nat} {s : State} (hd : s.calm) {ps : List (VName × Word × Place)}
    {ks : List (VName × Nat)} (h : List.Forall₂ AtPlace ps ks)
    (hk : ∀ k ∈ ks, (s.coreOf (k.2 / 2 ^ 30)).fenced = false) :
    (ps.forM fun p => prepStore p.2.2 p.2.1 (some i) none) s = .ok () s := by
  induction h with
  | nil => rfl
  | cons hp _ ih =>
    rename_i p k ps ks _
    obtain ⟨_, l, e1, e2, e3, e4, e5⟩ := hp
    simp only [List.forM_eq_forM, List.forM_cons] at ih ⊢
    have : prepStore p.2.2 p.2.1 (some i) none s = .ok () s := by
      rw [e1]
      simp only [prepStore, e4, Bool.false_eq_true, if_false]
      rw [bind_ok (flushGranule_none hd.1 _), bind_ok (awaitOwn_calm hd _), bind_ok (awaitLogged_off e5), bind_ok (get_run s), e2]
      simp only [hk k (by simp), Bool.and_false, Bool.false_eq_true, if_false, pure_run]
    rw [bind_ok this]
    exact ih fun k hk' => hk k (by simp [hk'])

/-- Metering many words. -/
theorem metered_mem_hart {α : Type} (n : Nat) (ks : List (α × Nat)) (s : State) :
    (ks.foldl (fun v k => v.after (meter k.2 n)) s).mem = s.mem ∧ (ks.foldl (fun v k => v.after (meter k.2 n)) s).hart = s.hart := by
  induction ks generalizing s with
  | nil => exact ⟨rfl, rfl⟩
  | cons k t ih =>
    simp only [List.foldl_cons]
    rw [(ih _).1, (ih _).2, after_meter_mem, after_meter_hart]
    exact ⟨rfl, rfl⟩

theorem take_loads {i : Nat} {t : EType} {ps : List (VName × Word × Place)} {ks : List (VName × Nat)}
    (h : List.Forall₂ AtPlace ps ks) (s : State) :
    (ps.mapM fun (p : VName × Word × Place) => do return (p.1, ← takeLoad p.2.2 p.2.1 (tBytes t) t (some i) none)) s
      = .ok (ks.map fun (k : VName × Nat) => (k.1, memReadN s.mem k.2 (tBytes t))) (ks.foldl (fun v (k : VName × Nat) => v.after (meter k.2 (tBytes t))) s) := by
  induction h generalizing s with
  | nil => rfl
  | cons hp _ ih =>
    rename_i p k ps ks _
    obtain ⟨e0, l, e1, e2, e3, e4, e5⟩ := hp
    rw [List.mapM_cons]
    have : takeLoad p.2.2 p.2.1 (tBytes t) t (some i) none s
        = .ok (memReadN s.mem k.2 (tBytes t)) (s.after (meter k.2 (tBytes t))) := by
      rw [e1]
      simp only [takeLoad, e4, Bool.false_eq_true, if_false]
      rw [e2, bind_ok (meter_run _ _ _), bind_ok (get_run _), after_meter_mem]
      rfl
    have h2 : ((do return (p.1, ← takeLoad p.2.2 p.2.1 (tBytes t) t (some i) none)) : M (VName × Nat)) s
        = .ok (k.1, memReadN s.mem k.2 (tBytes t)) (s.after (meter k.2 (tBytes t))) := by
      rw [bind_ok this, e0]
      rfl
    rw [bind_ok h2, bind_ok (ih _)]
    simp only [after_meter_mem]
    rfl

/-- Element `i` of a load whose words are found. -/
theorem loadElem_run {fam : Fam} {ty : EType} {fields : Hart → Nat → List (VName × Word)} {i : Nat} {s t : State}
    (h : s.loadsElem fam ty fields i t) (hd : s.calm) :
    loadElem fam ty i (fields s.hart i) s = .ok () t := by
  obtain ⟨ks, u, hf, hk, rfl⟩ := h
  obtain ⟨ps, e, _, hp⟩ := locateAll_found hf
  have hw := found_walked hf
  have w1 := hw.hart
  have w2 := hw.mem
  have hp' : List.Forall₂ AtPlace ps ks := hp
  unfold loadElem
  rw [bind_ok e]
  rw [bind_ok (prep_loads (hw.calm hd) hp' hk), bind_ok (logFields_off hp' u), bind_ok (take_loads hp' u)]
  rw [modHart_run, (metered_mem_hart _ _ _).2, w1, w2, List.foldl_map]

theorem put_stores {h : Hart} {i : Nat} {t : EType} {un : Bool} {ps : List (VName × Word × Place)}
    {ks : List (VName × Nat)} (hp : List.Forall₂ AtPlace ps ks) (s : State) :
    (ps.forM fun p => putStore p.2.2 p.2.1 (tBytes t) (h.elem p.1 (tBits t) i) t un (some i)) s
      = .ok () (ks.foldl (fun v k => pokeN k.2 (tBytes t) (h.elem k.1 (tBits t) i) (v.after (meter k.2 (tBytes t)))) s) := by
  induction hp generalizing s with
  | nil => rfl
  | cons hp _ ih =>
    rename_i p k ps ks _
    obtain ⟨e0, l, e1, e2, e3, e4, e5⟩ := hp
    simp only [List.forM_eq_forM, List.forM_cons] at ih ⊢
    have : putStore p.2.2 p.2.1 (tBytes t) (h.elem p.1 (tBits t) i) t un (some i) s
        = .ok () (pokeN k.2 (tBytes t) (h.elem k.1 (tBits t) i) (s.after (meter k.2 (tBytes t)))) := by
      rw [e1]
      simp only [putStore, e4, Bool.false_eq_true, if_false]
      rw [e2, bind_ok (meter_run _ _ _), e0]
      rfl
    rw [bind_ok this]
    exact ih _

/-- Element `i` of a store whose words are found. -/
theorem storeElem_run {fam : Fam} {ty : EType} {un : Bool} {fields : Hart → Nat → List (VName × Word)} {i : Nat}
    {s t : State} (h : s.storesElem fam ty fields i t) (hd : s.calm) (hc : s.hart.poison = []) :
    storeElem fam ty un i (fields s.hart i) s = .ok () t := by
  obtain ⟨ks, u, hf, hk, rfl⟩ := h
  obtain ⟨ps, e, _, hp⟩ := locateAll_found hf
  have hw := found_walked hf
  have w1 := hw.hart
  have w2 := hw.mem
  have hp' : List.Forall₂ AtPlace ps ks := hp
  unfold storeElem
  rw [bind_ok (getHart_run s)]
  have h0 : ((fields s.hart i).any fun f => s.hart.elemPoisoned f.1 (tBits ty) i) = false := by
    simp [elemPoisoned_clean hc]
  simp only [h0, Bool.false_eq_true, if_false]
  rw [bind_ok e]
  rw [bind_ok (prep_stores (hw.calm hd) hp' hk), bind_ok (logFields_off hp' u)]
  exact put_stores hp' u

theorem mget_map {α : Type} (f : Nat × α → Nat × α) (hf : ∀ p, (f p).1 = p.1) (m : List (Nat × α)) (k : Nat) :
    mget (m.map f) k = (mget m k).map fun v => (f (k, v)).2 := by
  induction m with
  | nil => rfl
  | cons p t ih =>
    rw [List.map_cons, mget_cons, mget_cons, hf, ih]
    split
    · rename_i h
      subst h
      rfl
    · rfl

/-- A write changes of a hart only the monitor that it wakes. -/
theorem pokeBytes_hartOf (k : Nat) (bs : List Byte) (s : State) (g : Nat) :
    ∃ a, (pokeBytes k bs s).hartOf g = { s.hartOf g with armed := a } := by
  have key : ∀ (n : Nat) (t : State), ∃ a, (wakeMonitors k n t).hartOf g = { t.hartOf g with armed := a } := by
    intro n t
    unfold wakeMonitors
    split
    · simp only [State.hartOf]
      rw [mget_map _ (by intro p; split <;> (try split) <;> rfl)]
      cases mget t.harts g with
      | none => exact ⟨_, rfl⟩
      | some h =>
        simp only [Option.map_some, Option.getD_some]
        split
        · split
          · exact ⟨_, rfl⟩
          · exact ⟨_, rfl⟩
        · exact ⟨_, rfl⟩
    · exact ⟨_, rfl⟩
  unfold pokeBytes
  dsimp only
  split
  · exact key _ _
  · exact key _ _

theorem pokeBytes_cur (k : Nat) (bs : List Byte) (s : State) : (pokeBytes k bs s).cur = s.cur := by
  unfold pokeBytes wakeMonitors
  dsimp only
  split <;> split <;> rfl

theorem pokeN_hart (k n v : Nat) (s : State) : ∃ a, (pokeN k n v s).hart = { s.hart with armed := a } := by
  unfold State.hart
  rw [show (pokeN k n v s).cur = s.cur from pokeBytes_cur _ _ _]
  exact pokeBytes_hartOf _ _ _ _

theorem pokeN_cores (k n v : Nat) (s : State) : (pokeN k n v s).cores = s.cores := by
  unfold pokeN pokeBytes wakeMonitors
  dsimp only
  split <;> split <;> rfl

/-- What stores leave of a hart that loops need. -/
theorem stored_hart {α : Type} (n : Nat) (v : α × Nat → Nat) (ks : List (α × Nat)) (s : State) :
    ∃ a, (ks.foldl (fun u k => pokeN k.2 n (v k) (u.after (meter k.2 n))) s).hart = { s.hart with armed := a } := by
  induction ks generalizing s with
  | nil => exact ⟨_, rfl⟩
  | cons k t ih =>
    obtain ⟨a, h⟩ := ih (pokeN k.2 n (v k) (s.after (meter k.2 n)))
    obtain ⟨b, h'⟩ := pokeN_hart k.2 n (v k) (s.after (meter k.2 n))
    refine ⟨a, ?_⟩
    rw [List.foldl_cons, h, h', after_meter_hart]

end Sys2Proof.Machine
end

