-- ==== Sys2Proof/Tests/Slice0.lean ====
section
/-! SUPPORT. Tests of the model: words that the chapters of spec/ write out, ill-formed terms, single steps with results
of the chapters' tables, and states that meet the hypotheses of the statements. -/

namespace Sys2Proof.Tests

set_option Elab.async false

open Sys2Proof.Machine

/-! ### How an operation ends -/

/-- The state in which an operation ends. -/
def endOf {ε α : Type} : EStateM.Result ε State α → State
  | .ok _ t => t
  | .error _ t => t
def okWith {ε α : Type} [DecidableEq α] (r : EStateM.Result ε State α) (a : α) : Bool :=
  match r with
  | .ok b _ => decide (b = a)
  | .error _ _ => false
theorem ok_end {ε α : Type} [DecidableEq α] {r : EStateM.Result ε State α} {a : α} (h : okWith r a = true) :
    r = .ok a (endOf r) := by
  cases r with
  | ok b t => simp only [okWith, decide_eq_true_eq] at h; rw [h]; rfl
  | error e t => simp [okWith] at h
/-- An operation that ends well and leaves the state. -/
def okHere {ε α : Type} [DecidableEq α] (r : EStateM.Result ε State α) (a : α) (s : State) : Bool :=
  match r with
  | .ok b t => decide (b = a) && decide (t = s)
  | .error _ _ => false
theorem ok_here {ε α : Type} [DecidableEq α] {r : EStateM.Result ε State α} {a : α} {s : State} (h : okHere r a s = true) :
    r = .ok a s := by
  cases r with
  | ok b t => simp only [okHere, Bool.and_eq_true, decide_eq_true_eq] at h; rw [h.1, h.2]
  | error e t => simp [okHere] at h
/-- The next state of an outcome. -/
def nextOf : Host.Outcome State Fault Refusal → State
  | .next t => t
  | _ => State.reset
def isNext : Host.Outcome State Fault Refusal → Bool
  | .next _ => true
  | _ => false
theorem next_of {o : Host.Outcome State Fault Refusal} (h : isNext o = true) : o = .next (nextOf o) := by
  cases o <;> simp_all [isNext, nextOf]

/-- A word that an access finds, with the rest of `State.finds`. -/
def findsB (s : State) (fam : Fam) (acc : Acc) (va : Word) (n : Nat) (l : Loc) : Bool :=
  okWith (locate fam acc va n none none s) (.local_ l) && isVault l.key && !l.host && !l.log && decide s.calm
abbrev found (s : State) (fam : Fam) (acc : Acc) (va : Word) (n : Nat) : State := endOf (locate fam acc va n none none s)
theorem finds_of {s : State} {fam : Fam} {acc : Acc} {va : Word} {n : Nat} {l : Loc} (h : findsB s fam acc va n l = true) :
    s.finds fam acc va n l (found s fam acc va n) := by
  simp only [findsB, Bool.and_eq_true, Bool.not_eq_true', decide_eq_true_eq] at h
  exact ⟨ok_end h.1.1.1.1, h.1.1.1.2, h.1.1.2, h.1.2, h.2⟩

/-- Steps of a relation that a function computes, one after another. -/
def chain {α : Type} (f : α → State → Option State) : List α → State → Option State
  | [], s => some s
  | i :: is, s => (f i s).bind (chain f is)
theorem each_of {α : Type} {p : α → State → State → Prop} {f : α → State → Option State}
    (hf : ∀ i s t, f i s = some t → p i s t) : ∀ (is : List α) (s t : State), chain f is s = some t → State.Each p is s t := by
  intro is
  induction is with
  | nil => intro s t h; cases h; exact .nil s
  | cons i is ih =>
    intro s t h
    simp only [chain] at h
    cases e : f i s with
    | none => simp [e] at h
    | some u => rw [e] at h; exact .cons i is s u t (hf i s u e) (ih u t h)
theorem each_some {α : Type} {p : α → State → State → Prop} {f : α → State → Option State} {is : List α} {s : State}
    (hf : ∀ i s t, f i s = some t → p i s t) (h : (chain f is s).isSome = true) : ∃ t, State.Each p is s t := by
  obtain ⟨t, e⟩ := Option.isSome_iff_exists.mp h
  exact ⟨t, each_of hf is s t e⟩
/-- The place of an access that finds an ordinary word. -/
def locOf (r : EStateM.Result Stop State Place) : Loc :=
  match r with
  | .ok (.local_ l) _ => l
  | _ => ⟨0, false, false, false⟩
/-- Labelled addresses, found one after another. -/
def foundAll {α : Type} (fam : Fam) (acc : Acc) (n : Nat) : List (α × Word) → State → Option (List (α × Nat) × State)
  | [], s => some ([], s)
  | (a, va) :: fs, s =>
    let l := locOf (locate fam acc va n none none s)
    if findsB s fam acc va n l then
      (foundAll fam acc n fs (found s fam acc va n)).map fun r => ((a, l.key) :: r.1, r.2)
    else none
theorem foundAll_of {α : Type} {fam : Fam} {acc : Acc} {n : Nat} : ∀ (fs : List (α × Word)) (s : State) (ks : List (α × Nat))
    (t : State), foundAll fam acc n fs s = some (ks, t) → State.Found fam acc n fs s ks t := by
  intro fs
  induction fs with
  | nil => intro s ks t h; cases h; exact .nil s
  | cons f fs ih =>
    intro s ks t h
    obtain ⟨a, va⟩ := f
    simp only [foundAll] at h
    split at h
    case isTrue hf =>
      cases e : foundAll fam acc n fs (found s fam acc va n) with
      | none => simp [e] at h
      | some r =>
        simp only [e, Option.map_some, Option.some.injEq, Prod.mk.injEq] at h
        obtain ⟨h1, h2⟩ := h
        subst h1; subst h2
        exact .cons a va fs s _ _ _ _ (finds_of hf) (ih _ _ _ (by rw [e]))
    case isFalse => simp at h
/-- What one element of a vector load, or of a vector store, leaves. -/
def loadElem (fam : Fam) (ty : EType) (fields : Hart → Nat → List (VName × Word)) (i : Nat) (s : State) : Option State :=
  match foundAll fam .load (tBytes ty) (fields s.hart i) s with
  | none => none
  | some (ks, u) => if ∀ k ∈ ks, dataError u k.2 = none then
      some ((ks.foldl (fun v k => v.after (meter k.2 (tBytes ty))) u).setHart
        (ks.foldl (fun g k => g.setElem k.1 (tBits ty) i (memReadN s.mem k.2 (tBytes ty))) s.hart))
    else none
theorem loadElem_of (fam : Fam) (ty : EType) (fields : Hart → Nat → List (VName × Word)) (i : Nat) (s t : State)
    (h : loadElem fam ty fields i s = some t) : State.loadsElem fam ty fields i s t := by
  simp only [loadElem] at h
  split at h
  · simp at h
  · rename_i ks u e
    split at h
    case isTrue hd => exact ⟨ks, u, foundAll_of _ _ _ _ e, hd, by simpa using h.symm⟩
    case isFalse => simp at h
def storeElem (fam : Fam) (ty : EType) (fields : Hart → Nat → List (VName × Word)) (i : Nat) (s : State) : Option State :=
  match foundAll fam .store (tBytes ty) (fields s.hart i) s with
  | none => none
  | some (ks, u) => if ∀ k ∈ ks, (u.coreOf (k.2 / 2 ^ 30)).fenced = false then
      some (ks.foldl (fun v k => pokeN k.2 (tBytes ty) (s.hart.elem k.1 (tBits ty) i) (v.after (meter k.2 (tBytes ty)))) u)
    else none
theorem storeElem_of (fam : Fam) (ty : EType) (fields : Hart → Nat → List (VName × Word)) (i : Nat) (s t : State)
    (h : storeElem fam ty fields i s = some t) : State.storesElem fam ty fields i s t := by
  simp only [storeElem] at h
  split at h
  · simp at h
  · rename_i ks u e
    split at h
    case isTrue hd => exact ⟨ks, u, foundAll_of _ _ _ _ e, hd, by simpa using h.symm⟩
    case isFalse => simp at h
/-- A scalar load of an ordinary word, its value and what it leaves. -/
def readAt (va : Word) (n : Nat) (s : State) : Option (Nat × State) :=
  let l := locOf (locate .scalar .load va n none none s)
  if findsB s .scalar .load va n l ∧ dataError (found s .scalar .load va n) l.key = none then
    some (memReadN s.mem l.key n, (found s .scalar .load va n).after (meter l.key n))
  else none
theorem readAt_of {va : Word} {n v : Nat} {s t : State} (h : readAt va n s = some (v, t)) : State.reads va n v s t := by
  simp only [readAt] at h
  split at h
  · rename_i hc
    simp only [Option.some.injEq, Prod.mk.injEq] at h
    exact ⟨_, _, finds_of hc.1, hc.2, h.1.symm, h.2.symm⟩
  · simp at h

/-! ### States -/

/-- One hart of core 0, at the code page, in the user view. -/
def base : State := State.reset.withFetchWord 96 0
def withRegs (l : List (SReg × Word)) (s : State) : State := l.foldl (fun s p => s.setHart (s.hart.writeS p.1 p.2)) s
/-- s1 is the code page, s2 an address of the same page, s3 to s6 small numbers. -/
def w0 : State := withRegs [(1, 0x10000), (2, 0x10100), (3, 3), (4, 5), (5, 0xFFFFFFFFFFFFFFFF), (6, 64)] base
def sup (s : State) : State := s.setHart { s.hart with mode := .supervisor }
/-- The word of the data address. -/
def word : Loc := ⟨0x10100, false, false, false⟩
def vec (ws : List Nat) : VReg := BitVec.ofNat _ ((ws.zipIdx.map fun p => p.1 * 2 ^ (32 * p.2)).sum)
/-- Six elements from element 1 on, integers in v4 to v6, and two masks. -/
def wv : State := w0.setHart { w0.hart with
  csr := { w0.hart.csr with vl := 6, vstart := 1 }
  v := ((w0.hart.v.set 4 (vec [1, 2, 0x80000000, 0xFFFFFFFF, 5, 6])).set 5 (vec [3, 0, 0xFFFFFFFF, 31, 33, 0x80000000])).set 6
    (vec [7, 8, 9, 10, 11, 12])
  m := (w0.hart.m.set 2 ⟨true, 0, 0, 0x0FFF0F, none⟩).set 3 ⟨false, 4, 3, 0, none⟩ }
/-- Floating elements in v4 and v5. -/
def wvf : State := wv.setHart { wv.hart with
  v := (wv.hart.v.set 4 (vec [1, 0x3F800000, 0x40490FDB, 0xFF7FFFFF, 0x00000001, 0x7F800000])).set 5
    (vec [3, 0x7FC00000, 0x3F800001, 0x40000000, 0xC0000000, 0x80000000]) }
/-- What a vector load of one element leaves, its fields being at their own addresses in memory. -/
def loaded (ty : EType) (fs : List (VName × Word)) (i : Nat) (s : State) : State :=
  (fs.foldl (fun v f => v.after (meter f.2.toNat (tBytes ty))) s).setHart
    (fs.foldl (fun g f => g.setElem f.1 (tBits ty) i (memReadN s.mem f.2.toNat (tBytes ty))) s.hart)
def stored (ty : EType) (fs : List (VName × Word)) (i : Nat) (s : State) : State :=
  fs.foldl (fun v f => pokeN f.2.toNat (tBytes ty) (s.hart.elem f.1 (tBits ty) i) (v.after (meter f.2.toNat (tBytes ty)))) s
/-- Three elements from element 1 on, with data in memory. -/
def wl : State := { wv with mem := memWriteBytes wv.mem 0x10100 ((List.range 64).map fun i => BitVec.ofNat 8 (i * 37 + 1)) }
  |>.setHart { wv.hart with csr := { wv.hart.csr with vl := 3 }, v := wv.hart.v.set 8 (vec [0, 4, 8, 12]) }
/-- A live frame with three captured values and a reference. -/
def frame0 : Frame := ⟨2, 1, 3, true, true,
  ((((Vector.replicate 16 0).set 0 11).set 1 22).set 2 33 |>.set 14 0x55).set 15 0x100000007, []⟩
/-- A handle of frame 0 of the window, generation 1, whose entry is the line of `codebase`. -/
def handle : Word := 1
/-- c3 and `env` hold the handle. -/
def wc : State := let s := withRegs [(8, 0x10200), (9, 4096), (10, 0x0000000500000040), (11, 0x0000010000000080)] wl
  let s := s.withWindow (s.window.2.setFrame 0 frame0)
  s.setHart { s.hart with c := s.hart.c.set 3 handle, csr := { s.hart.csr with env := handle, frame := 7 }, ring := [7], instNo := 1 }
/-- Page tables that map the first 1 GiB to itself. -/
def mapped (s : State) : State :=
  let s := s.setCtxOf 0 { s.ctxOf 0 with ptbase := 0x80000 }
  { s with mem := memWriteBytes (memWriteBytes s.mem 0x80000 (toBytes 8 0x81001)) 0x81000 (toBytes 8 0x63F) }

/-! ### Words that the chapters write out decode to their instructions -/

/-- R67, the examples of spec/03. -/
theorem test_words_lines :
    decode 0x440441460083000000000000 0 = .vadd ⟨.i32, 4, 5, .vec 6, 2⟩
      ∧ decode 0x4404414000038000FFFFFFFD 0 = .vadd ⟨.i32, 4, 5, .imm 0xFFFFFFFD, 0⟩
      ∧ decode 0x440471490003400000000000 0 = .vadd ⟨.i32, 7, 5, .scalar 9, 0⟩
      ∧ decode 0x100C00000000000FFFFFFFF1 0 = .jmp ⟨0x1FFFFFFFE, 1⟩
      ∧ decode 0x8010020C00100E38800E3882 0 =
        .mma ⟨0, 8, 12, 0, .f16, false, true, false, ⟨7, 7, 2, 0, false⟩, ⟨7, 7, 2, 1, false⟩⟩ := by
  decide +kernel
/-- The table of spec/04: long immediates, reserved classes and ops, a field that must be 0. -/
theorem test_words_map :
    decode 0x08045000123456789ABCDEF0 0 = .li ⟨5, 0x123456789ABCDEF0⟩
      ∧ decode 0x202C00000000000000000000 0 = .halt
      ∧ decode 0x202C00000003000000000000 0 = .reservedEncoding 0x202C00000003000000000000
      ∧ decode 0x240400000000000000000000 0 = .reservedEncoding 0x240400000000000000000000
      ∧ decode 0x640800000000000000000000 0 = .reservedEncoding 0x640800000000000000000000
      ∧ decode 0xFC0000000000000000000000 0 = .reservedEncoding 0xFC0000000000000000000000
      ∧ decode 0 0 = .nop := by
  decide +kernel
/-- spec/05: scalar control and memory. -/
theorem test_words_scalar :
    decode 0x102041400000020000000000 0 = .strip ⟨4, 5, 0, 0, 0x20, ⟨0, 0⟩⟩
      ∧ decode 0x100441400020000FFFFFFFF8 0 = .b ⟨.lt, 4, 5, ⟨0x1FFFFFFFF, 0⟩⟩
      ∧ decode 0x141892802C04000000000000 0 = .amo ⟨.i64, .add, 9, 10, 0, 11, false, false, .hart⟩
      ∧ decode 0x140451800003A30000000010 0 = .ld ⟨.i32, 5, 6, .imm 16, some .system⟩
      ∧ decode 0x0C28E3800012000400000000 0 = .fcvt ⟨.f32, .i64, 14, 14⟩
      ∧ decode 0x040460C0000080000E000040 0 = .add ⟨.w64, 6, 3, .imm 0x0E000040⟩
      ∧ decode 0x100820000010000FFFFFFFD1 0 = .bi ⟨.ne, 2, 0, ⟨0x1FFFFFFFA, 1⟩⟩ := by
  decide +kernel
/-- spec/06: configuration, arithmetic, conversion. -/
theorem test_words_vector :
    decode 0x4004A0000000800000000011 0 = .vcfg ⟨10, 1, 1⟩
      ∧ decode 0x4C04200000D4131200000000 0 = .vcvt ⟨.e4m3, .f32, 2, 0, 3, 9, true⟩
      ∧ decode 0x4804100E0012400000000000 0 = .vfadd ⟨.f32, 1, 0, .scalar 14, 0⟩
      ∧ decode 0x480C4100001280003E800000 0 = .vfmul ⟨.f32, 4, 4, .imm 0x3E800000, 0⟩ := by
  decide +kernel
/-- spec/07: scan, compression, a chain of two words. -/
theorem test_words_movement :
    decode 0x500C40002403001000000000 0 = .vscan ⟨.i32, .add, true, 4, 0, 0, 9, 0⟩
      ∧ decode 0x541020401D43000000000000 0 = .vcomp ⟨.i32, 2, 1, 7, 5⟩
      ∧ decode 0x5C0C80420012001300000000 0xFD803002B000000000000000 =
        .vchain ⟨.f32, .fmul, 8, 1, .vec 2, 0, 0, ⟨.fadd, .vec 3, .vec 0⟩, [⟨.fmax, .scalar 0, .vec 0⟩]⟩
      ∧ decode 0x500C40092407001000000000 0 = .vscan ⟨.n32, .add, true, 4, 0, 9, 9, 0⟩ := by
  decide +kernel
/-- spec/08: traps, CSRs, waits for events. -/
theorem test_words_system :
    decode 0x200400000000800000000007 0 = .trap 7 ∧ decode 0x200800000000000000000000 0 = .eret
      ∧ decode 0x200D40000000000000000800 0 = .csrr ⟨20, 0x800, 0⟩
      ∧ decode 0x201002400000000000000003 0 = .csrw ⟨0, 3, 9⟩
      ∧ decode 0x2030C28B0000000000000000 0 = .wfe ⟨12, 10, 11⟩
      ∧ decode 0x202031050000000000000000 0 = .ctxsave ⟨3, 4, 5⟩
      ∧ decode 0x202431050000000000000000 0 = .ctxload ⟨3, 4, 5⟩
      ∧ decode 0x201C00000000000000000000 0 = .tlbiAll ∧ decode 0x201C01050000000200000000 0 = .tlbiVa ⟨4, 5⟩
      ∧ decode 0x202851870000000600000000 0 = .logctlSwap ⟨true, 5, 6, 7⟩ := by
  decide +kernel
/-- spec/09: plural accesses, scattering, near-bank dot products; spec/14 and spec/19: vector accesses. -/
theorem test_words_plural :
    decode 0x141001052400200000000000 0 = .stp ⟨9, 4, 5, true, 0⟩
      ∧ decode 0x140CC1050000200000000000 0 = .ldp ⟨.add, 12, 4, 5, true, 0⟩
      ∧ decode 0x602402810812180000000000 0 = .vstxa ⟨.f32, 2, 10, 1, 0, false, true, .b32, 0⟩
      ∧ decode 0x640480051816000100000100 0 = .pdot ⟨.q4, 8, 0, 5, 6, 1, 0, 256⟩
      ∧ decode 0x600480C00007000000000000 0 = .vld ⟨.n32, 8, 3, 0, false, 0⟩
      ∧ decode 0x601405C01012000000001F00 0 = .vst ⟨.f32, 4, 23, 0, false, 0x1F00⟩ := by
  decide +kernel
/-- spec/10 and spec/14: the matrix unit. -/
theorem test_words_matrix :
    decode 0x800410000012800000000101 0 = .acfg ⟨1, false, 1, 1⟩
      ∧ decode 0x801010021C9802F84102F841 0 =
        .mma ⟨1, 0, 2, 7, .e4m3, false, true, true, ⟨1, 31, 1, 0, true⟩, ⟨1, 31, 1, 0, true⟩⟩
      ∧ decode 0x8018128B0000000010000082 0 = .ast ⟨1, 10, 11, 0, false, .f16, 2, 1, false⟩
      ∧ decode 0x8018114B0000000012000082 0 = .ast ⟨1, 5, 11, 0, false, .f32, 2, 1, false⟩ := by
  decide +kernel
/-- spec/11: copies, tiles, merges. -/
theorem test_words_copies :
    decode 0x880411051A40000100000013 0 = .cpy ⟨1, 4, 5, 6, 9, 1, some 3⟩
      ∧ decode 0x840C01051A00000000000000 0 = .tfill ⟨0, 4, 5, 6, 8⟩
      ∧ decode 0x602821C00212000000000000 0 = .vldt ⟨.f32, 2, 7, 8, false, 0⟩
      ∧ decode 0x8C0571800012000000000000 0 = .munion ⟨.f32, 23, 6, false, false⟩
      ∧ decode 0x8C0571800012000100000000 0 = .munion ⟨.f32, 23, 6, true, false⟩ := by
  decide +kernel
/-- spec/12: closures. -/
theorem test_words_closures :
    decode 0x1C0421800000000000000300 0 = .capture ⟨2, 6, 0x300⟩
      ∧ decode 0x1C1800802800000000000000 0 = .applyq ⟨2, 0, 10⟩
      ∧ decode 0x1C1000800000000000000000 0 = .cdrop 2
      ∧ decode 0x1C1C50000000800000000001 0 = .cenv 5 1
      ∧ decode 0x1C2580000C00000100000000 0 = .cstR 24 3 := by
  decide +kernel
/-- spec/17, spec/18 and spec/21: barriers, queues, fences, flags, launches. -/
theorem test_words_convoy :
    decode 0x180C00000000000000000000 0 = .bar ∧ decode 0x183000000000000000000000 0 = .exit
      ∧ decode 0x181C22400000000000000000 0 = .qput ⟨2, .reg 9, false, none⟩
      ∧ decode 0x181C20000000800000000007 0 = .qput ⟨2, .imm 7, false, none⟩
      ∧ decode 0x1820A0802C00000100000000 0 = .qget ⟨10, 2, some 11⟩
      ∧ decode 0x182C00000000000000000000 0 = .yield 0 ∧ decode 0x181001050000000000000000 0 = .cbar ⟨4, 5⟩
      ∧ decode 0x181400000000800000000001 0 = .wait ⟨0, 0, .imm 1⟩
      ∧ decode 0x180400000000018300000000 0 = .fence ⟨.cluster, ⟨true, true, false, false, false, false, false⟩⟩
      ∧ decode 0x180400000000030800000000 0 = .fence ⟨.system, ⟨false, false, false, true, false, false, false⟩⟩
      ∧ decode 0x1808030D0008000000000000 0 = .fsig ⟨.n64, 12, .reg 13⟩
      ∧ decode 0x140802002403918000000000 0 = .st ⟨.i32, 9, 8, .imm 0, some .cluster, false⟩
      ∧ decode 0x182411051800000000000000 0 = .launch ⟨1, 4, 5, 6⟩
      ∧ decode 0x182811051800000000000000 0 = .glaunch ⟨1, 4, 5, 6⟩ := by
  decide +kernel
/-- spec/22: the depot. -/
theorem test_words_depot :
    decode 0x900401000000000000000000 0 = .dopen ⟨0, 4, none⟩
      ∧ decode 0x900821461CC0000100000000 0 = .stow ⟨2, 5, 6, 7, some 3⟩
      ∧ decode 0x900C21400000000000000000 0 = .dseal ⟨2, 5, none⟩
      ∧ decode 0x901091400000000000000000 0 = .dquery ⟨9, 5⟩ := by
  decide +kernel
/-- R83: the line word of the example line of spec/03. -/
theorem test_line_word :
    lineOfWords [0, 0, 0, 0, 0] = 0x401000 * 2 ^ 480
      ∧ oddBits 96 0x440441460083000000000000 = true ∧ oddBits 96 0x4404414000038000FFFFFFFD = false := by
  decide +kernel
/-- `decodeTableWord` reads the words as the decoder does. -/
theorem test_table_word :
    decodeTableWord 96 0x440441460083000000000000 = some (.vadd ⟨.i32, 4, 5, .vec 6, 2⟩)
      ∧ decodeTableWord 192 (0x5C0C80420012001300000000 + 0xFD803002B000000000000000 * 2 ^ 96) =
        some (.vchain ⟨.f32, .fmul, 8, 1, .vec 2, 0, 0, ⟨.fadd, .vec 3, .vec 0⟩, [⟨.fmax, .scalar 0, .vec 0⟩]⟩) := by
  decide +kernel
/-- The words of the statement about decoding. -/
theorem test_decode_words : decode 0x201002400000000000000003 0 = .csrw ⟨0, 3, 9⟩
    ∧ decode 0x080000000000000000000000 0 = .reservedEncoding 0x080000000000000000000000 := by
  decide +kernel

/-! ### Terms that are no instructions -/

theorem test_wf_refuses_scalar :
    (Instr.bfx ⟨1, 2, false, 40, 24⟩).wf = false ∧ (Instr.bfi ⟨1, 2, 3, 63, 1⟩).wf = false
      ∧ (Instr.jmpl ⟨true, 0x10008⟩).wf = false ∧ (Instr.calll ⟨false, 0x38⟩).wf = false
      ∧ (Instr.fadd ⟨.i32, 1, 2, .reg 3⟩).wf = false ∧ (Instr.fsub ⟨.e4m3, 1, 2, .reg 3⟩).wf = false
      ∧ (Instr.fmul ⟨.q4, 1, 2, .reg 3⟩).wf = false ∧ (Instr.fdiv ⟨.n8, 1, 2, .reg 3⟩).wf = false
      ∧ (Instr.fmin ⟨.i8, 1, 2, .reg 3⟩).wf = false ∧ (Instr.fmax ⟨.i64, 1, 2, .reg 3⟩).wf = false
      ∧ (Instr.fma ⟨.i32, 1, 2, .reg 3, 4⟩).wf = false ∧ (Instr.fsqrt ⟨.e5m2, 1, 2⟩).wf = false
        ∧ (Instr.fclass ⟨.i16, 1, 2⟩).wf = false
      ∧ (Instr.fset ⟨.n32, .eq, 1, 2, .reg 3⟩).wf = false ∧ (Instr.fcvt ⟨.i8, .f32, 1, 2⟩).wf = false
      ∧ (Instr.fcvt ⟨.f32, .f32, 1, 2⟩).wf = false ∧ (Instr.fcvt ⟨.i32, .i64, 1, 2⟩).wf = false
      ∧ (Instr.fsgn ⟨.i32, .copy, 1, 2, 3⟩).wf = false := by decide
theorem test_wf_refuses_loops :
    (Instr.strip ⟨4, 4, 0, 0, 0, ⟨0, 0⟩⟩).wf = false ∧ (Instr.strip ⟨4, 0, 0, 0, 5, ⟨0, 0⟩⟩).wf = false
      ∧ (Instr.strip ⟨4, 0, 0, 0, 0x10, ⟨0, 0⟩⟩).wf = false ∧ (Instr.vloopl ⟨1, 0, ⟨0, 0⟩⟩).wf = false := by decide
theorem test_wf_refuses_memory :
    (Instr.ld ⟨.e4m3, 1, 2, .imm 0, none⟩).wf = false ∧ (Instr.st ⟨.q4, 1, 2, .imm 0, none, false⟩).wf = false
      ∧ (Instr.amo ⟨.i32, .fadd, 1, 2, 0, 4, true, false, .core⟩).wf = false
        ∧ (Instr.amo ⟨.i8, .add, 1, 2, 0, 4, true, false, .core⟩).wf = false
      ∧ (Instr.amo ⟨.f32, .swap, 1, 2, 0, 4, true, false, .core⟩).wf = false
        ∧ (Instr.amo ⟨.i32, .add, 1, 2, 3, 4, true, false, .core⟩).wf = false
      ∧ (Instr.amo ⟨.i32, .add, 1, 2, 0, 4, false, false, .core⟩).wf = false
      ∧ (Instr.ldp ⟨.swap, 1, 2, 3, false, 0⟩).wf = false ∧ (Instr.fsig ⟨.i8, 1, .reg 2⟩).wf = false
      ∧ (Instr.fence ⟨.core, ⟨false, false, false, false, false, false, false⟩⟩).wf = false
      ∧ (Instr.fence ⟨.core, ⟨false, true, false, false, false, false, false⟩⟩).wf = false
      ∧ (Instr.fence ⟨.cluster, ⟨false, false, true, false, false, false, false⟩⟩).wf = false
      ∧ (Instr.fence ⟨.package, ⟨false, false, false, true, false, false, false⟩⟩).wf = false
      ∧ (Instr.fence ⟨.package, ⟨false, false, false, false, true, false, false⟩⟩).wf = false := by decide
theorem test_wf_refuses_closures :
    (Instr.capture ⟨1, 2, 1⟩).wf = false ∧ (Instr.capref ⟨1, 2, 3, 0xFFFE⟩).wf = false ∧ (Instr.cenv 1 14).wf = false
      ∧ (Instr.csrr ⟨1, 0x800, 2⟩).wf = false := by decide
theorem test_wf_refuses_vector :
    (Instr.vadd ⟨.f32, 1, 2, .vec 3, 0⟩).wf = false ∧ (Instr.vmulh ⟨.n32, 1, 2, .vec 3, 0⟩).wf = false
      ∧ (Instr.vmulhu ⟨.i32, 1, 2, .vec 3, 0⟩).wf = false ∧ (Instr.vabs ⟨.n8, 1, 2, 0⟩).wf = false
      ∧ (Instr.vcmp ⟨.f32, .eq, 1, 2, .vec 3, 0⟩).wf = false ∧ (Instr.vsel ⟨.q4, 1, 2, .vec 3, 0⟩).wf = false
      ∧ (Instr.vclz ⟨.f16, 1, 2, 0⟩).wf = false ∧ (Instr.vfadd ⟨.i32, 1, 2, .vec 3, 0⟩).wf = false
      ∧ (Instr.vfma ⟨.e4m3, 1, 2, .vec 3, 4, 0⟩).wf = false ∧ (Instr.vfsqrt ⟨.i8, 1, 2, 0⟩).wf = false
      ∧ (Instr.vfcmp ⟨.i32, .eq, 1, 2, .vec 3, 0⟩).wf = false ∧ (Instr.vfsgn ⟨.i32, .inv, 1, 2, .vec 3, 0⟩).wf = false
      ∧ (Instr.vcvt ⟨.f32, .f32, 1, 2, 0, 0, false⟩).wf = false ∧ (Instr.vcvt ⟨.f32, .q4, 1, 2, 0, 0, false⟩).wf = false
      ∧ (Instr.vcvt ⟨.f32, .i32, 1, 2, 0, 0, true⟩).wf = false ∧ (Instr.vpk4 ⟨.f32, .f16, 1, 2, 0, 0, false⟩).wf = false
      ∧ (Instr.vpk4 ⟨.q4, .f16, 1, 2, 0, 0, true⟩).wf = false ∧ (Instr.vupk4 ⟨.i32, .q4, 1, 2, 0, 0, false⟩).wf = false
      ∧ (Instr.vscl ⟨.i32, .f32, 1, 2, 0, 0, false⟩).wf = false
        ∧ (Instr.vscl ⟨.f32, .i16, 1, 2, 0, 0, false⟩).wf = false := by decide
theorem test_wf_refuses_movement :
    (Instr.vred ⟨.f32, .add, 1, 2, 3, 0⟩).wf = false ∧ (Instr.vfred ⟨.i32, .fadd, 1, 2, 3, 0⟩).wf = false
      ∧ (Instr.vscan ⟨.f16, .add, false, 1, 2, 3, 4, 0⟩).wf = false ∧ (Instr.vfscan ⟨.n8, .fadd, false, 1, 2, 3, 4, 0⟩).wf = false
      ∧ (Instr.vslup ⟨.q4, 1, 2, .imm 1, 3, 0⟩).wf = false ∧ (Instr.vgath ⟨.q4, 1, 2, .vec 3, 0⟩).wf = false
      ∧ (Instr.vcomp ⟨.q4, 1, 2, 3, 0⟩).wf = false ∧ (Instr.vexpd ⟨.f64, 1, 2, 0⟩).wf = false
        ∧ (Instr.vbshl ⟨.f64, 1, 2, .imm 1, 0⟩).wf = false
      ∧ (Instr.vfnl ⟨.q4, 1, 2, 3, 4, 0⟩).wf = false ∧ (Instr.vmvs ⟨.q4, 1, 2, .imm 0⟩).wf = false
        ∧ (Instr.vmvx ⟨.f64, 1, 2, .imm 0⟩).wf = false
      ∧ (Instr.vid ⟨.f32, 1, 2, 1, 0⟩).wf = false ∧ (Instr.vspush ⟨.q4, 0, 1, 2, 0⟩).wf = false
      ∧ (Instr.vspop ⟨.q4, 1, 2, 0, 0, false⟩).wf = false
      ∧ (Instr.vchain ⟨.f32, .add, 8, 1, .vec 2, 0, 0, ⟨.fadd, .vec 3, .vec 0⟩, []⟩).wf = false
      ∧ (Instr.vchain ⟨.f32, .fmacc, 8, 1, .vec 2, 0, 0, ⟨.fadd, .vec 3, .vec 0⟩, []⟩).wf = false
      ∧ (Instr.vchain ⟨.f32, .fmul, 8, 1, .vec 2, 3, 0, ⟨.fadd, .vec 3, .vec 0⟩, []⟩).wf = false
      ∧ (Instr.vchain ⟨.f32, .fmul, 8, 1, .vec 2, 0, 0, ⟨.fadd, .vec 3, .vec 1⟩, []⟩).wf = false
      ∧ (Instr.vchain ⟨.f32, .fmul, 8, 1, .vec 2, 0, 0, ⟨.add, .vec 3, .vec 0⟩, []⟩).wf = false
      ∧ (Instr.vchain ⟨.f32, .fmul, 8, 1, .vec 2, 0, 0, ⟨.fadd, .vec 3, .vec 0⟩,
          List.replicate 4 ⟨.fadd, .vec 3, .vec 0⟩⟩).wf = false := by decide
theorem test_wf_refuses_accesses :
    (Instr.vld ⟨.i32, 1, 2, 0, true, 0⟩).wf = false ∧ (Instr.vlds ⟨.q4, 1, 2, 3, 0, false, 0⟩).wf = false
      ∧ (Instr.vldg ⟨.i32, 1, 2, 0, false, 0, 0⟩).wf = false ∧ (Instr.vldx ⟨.i32, 1, 2, 3, 0, true, false, .b32, 0⟩).wf = false
      ∧ (Instr.vst ⟨.f64, 1, 2, 0, false, 0⟩).wf = false ∧ (Instr.vsts ⟨.q4, 1, 2, 3, 0, false, 0⟩).wf = false
      ∧ (Instr.vstg ⟨.i32, 1, 2, 0, false, 0, 0⟩).wf = false ∧ (Instr.vstx ⟨.q4, 1, 2, 3, 0, false, false, .b32, 0⟩).wf = false
      ∧ (Instr.vstxa ⟨.e4m3, 1, 2, 3, 0, false, false, .b32, 0⟩).wf = false ∧ (Instr.vldt ⟨.i32, 1, 2, 0, true, 0⟩).wf = false
      ∧ (Instr.vstt ⟨.q4, 1, 2, 0, false, 0⟩).wf = false := by decide
theorem test_wf_refuses_units :
    (Instr.pdot ⟨.f32, 8, 4, 10, 2, 1, 0, 4⟩).wf = false ∧ (Instr.pdot ⟨.f16, 8, 4, 10, 2, 0, 0, 4⟩).wf = false
      ∧ (Instr.pdot ⟨.f16, 8, 4, 10, 2, 1, 0, 0⟩).wf = false ∧ (Instr.pdot ⟨.f16, 8, 4, 10, 2, 1, 0, 8193⟩).wf = false
      ∧ (Instr.pdot ⟨.q4, 8, 4, 10, 2, 1, 0, 31⟩).wf = false ∧ (Instr.pdot ⟨.q4, 8, 4, 10, 2, 2, 0, 32⟩).wf = false
      ∧ (Instr.pdot ⟨.f16, 8, 5, 10, 2, 1, 0, 2000⟩).wf = false ∧ (Instr.pdot ⟨.f16, 4, 4, 10, 2, 1, 0, 4⟩).wf = false
      ∧ (Instr.mma ⟨0, 8, 12, 0, .f16, false, true, false, ⟨7, 7, 2, 0, false⟩, ⟨7, 6, 2, 0, false⟩⟩).wf = false
      ∧ (Instr.mma ⟨0, 8, 12, 3, .f16, false, true, false, ⟨7, 7, 2, 0, false⟩, ⟨7, 7, 2, 0, false⟩⟩).wf = false
      ∧ (Instr.mma ⟨0, 8, 12, 0, .f16, false, true, false, ⟨127, 63, 31, 31, true⟩, ⟨7, 63, 2, 0, false⟩⟩).wf = false
      ∧ (Instr.mma ⟨0, 9, 12, 0, .f16, false, true, false, ⟨31, 31, 31, 0, true⟩, ⟨7, 31, 2, 0, false⟩⟩).wf = false
      ∧ (Instr.ald ⟨0, 1, 2, .f64, 0, 0, false⟩).wf = false ∧ (Instr.ast ⟨0, 1, 2, 0, false, .i16, 0, 0, false⟩).wf = false
      ∧ (Instr.ast ⟨0, 1, 2, 3, false, .f16, 0, 0, false⟩).wf = false
      ∧ (Instr.tfill ⟨0, 1, 2, 3, 4⟩).wf = false ∧ (Instr.cpy ⟨0, 1, 2, 3, 7, 0, none⟩).wf = false
      ∧ (Instr.cpy ⟨0, 1, 2, 3, 0, 1, none⟩).wf = false ∧ (Instr.cpy2 ⟨0, 1, 2, 31, 9, 1, none⟩).wf = false
      ∧ (Instr.cpy2 ⟨0, 1, 2, 0, 9, 1, none⟩).wf = false
      ∧ (Instr.munion ⟨.i32, 0, 1, false, false⟩).wf = false ∧ (Instr.minter ⟨.i8, 3, 1, false, false⟩).wf = false
      ∧ (Instr.mcount ⟨0, 1, false, false⟩).wf = false ∧ Instr.dispatchPlace.wf = false
        ∧ (Instr.waitWake 3).wf = false := by decide

/-! ### Single steps -/

def after (i : Instr) (s : State) : Hart := (nextOf (exec i s)).hart
/-- R92: results wrap; R94: a quotient by zero saturates and the remainder is 0; R10: s0 stays 0. -/
theorem test_integer :
    (after (.add ⟨.w64, 7, 5, .imm 1⟩) w0).s[7] = 0 ∧ (after (.add ⟨.i32, 7, 5, .reg 4⟩) w0).s[7] = 4
      ∧ (after (.div ⟨.w64, 7, 4, .imm 0⟩) w0).s[7] = 0x7FFFFFFFFFFFFFFF ∧ (after (.rem ⟨.w64, 7, 4, .imm 0⟩) w0).s[7] = 0
      ∧ (after (.sub ⟨.w64, 0, 4, .imm 1⟩) w0).s[0] = 0 := by decide +kernel
/-- R40, R43: 1 + 2^-24 rounds to 1 and sets NX; 0 times infinity is the canonical NaN and sets NV. -/
theorem test_float :
    (let s := withRegs [(8, 0x3F800000), (9, 0x33800000), (10, 0x7F800000)] w0;
      (after (.fadd ⟨.f32, 7, 8, .reg 9⟩) s).s[7] = 0x3F800000 ∧ (after (.fadd ⟨.f32, 7, 8, .reg 9⟩) s).csr.fflags = 16
        ∧ (after (.fmul ⟨.f32, 7, 10, .reg 0⟩) s).s[7] = 0x7FC00000
          ∧ (after (.fmul ⟨.f32, 7, 10, .reg 0⟩) s).csr.fflags = 1) := by
  decide +kernel
/-- R109: a byte is sign-extended, a halfword is read lowest byte first;: a misaligned word takes 0x05 with its address. -/
theorem test_loads :
    (let s := { w0 with mem := memWriteBytes w0.mem 0x10100 [0x80, 0x01] };
      (after (.ld ⟨.i8, 7, 2, .imm 0, none⟩) s).s[7] = 0xFFFFFFFFFFFFFF80
        ∧ (after (.ld ⟨.n16, 7, 2, .imm 0, none⟩) s).s[7] = 0x0180
        ∧ (after (.ld ⟨.n16, 7, 2, .imm 1, none⟩) s).csr.xcause = 0x05
          ∧ (after (.ld ⟨.n16, 7, 2, .imm 1, none⟩) s).csr.xaddr = 0x10101) := by
  decide +kernel
/-- R70, R103: a taken branch goes to its line and slot, one not taken to the next slot. -/
theorem test_branches :
    (after (.b ⟨.lt, 3, 4, ⟨0, 0⟩⟩) w0).pc = 0x10000 ∧ (after (.b ⟨.lt, 4, 3, ⟨0, 0⟩⟩) w0).pc = 0x10001 := by decide +kernel

/-! ### States that meet the hypotheses of the statements

Each theorem is the conjunction of a statement's hypotheses, clause by clause, at the states and operands above. -/

/-- Operands in registers and immediates, among them s0, a zero divisor, and the most negative number divided by -1. -/
def wDiv : State := withRegs [(7, 0x8000000000000000)] w0
theorem witness_ScalarIntegerResults :
    w0.canRead 5 = true ∧ w0.canReadSrc (.reg 4) = true ∧ w0.canReadSrc (.imm 0) = true ∧ w0.canRead 0 = true
      ∧ wDiv.canRead 7 = true ∧ wDiv.canReadSrc (.reg 5) = true := by decide +kernel
theorem witness_DivisionResults :
    wDiv.canRead 7 = true ∧ wDiv.canReadSrc (.reg 5) = true ∧ w0.canReadSrc (.imm 0) = true
      ∧ toSigned 64 (wDiv.reg 7).toNat = -2 ^ 63 ∧ toSigned 64 (wDiv.src (.reg 5)).toNat = -1 := by decide +kernel
/-- A NaN, a number and an immediate that is not exact in f16. -/
def wFp : State := withRegs [(1, 0x3F800000), (2, 0x40490FDB), (3, 0xFF7FFFFF), (4, 0x7FC00001)] base
theorem witness_ScalarFloatResults :
    wFp.canRead 4 = true ∧ wFp.canReadSrc (.reg 2) = true ∧ wFp.canReadSrc (.imm 0x3F800001) = true ∧ wFp.canRead 3 = true := by
  decide +kernel
/-- A unit that ends, and one that meets a poisoned operand and enters the handler. -/
def wPoison : State := w0.setHart { w0.hart with poison := [.scalar 3 false], csr := { w0.hart.csr with tvec := 0x10000 } }
/-- R119: a poisoned scalar operand faults at the first active element, and not where there is none. -/
theorem test_poisoned_operand :
    (let i := Instr.vadd ⟨.i32, 6, 4, .scalar 3, 0⟩;
      (nextOf (exec i wPoison)).hart.csr.xcause = 0 ∧ (nextOf (exec i wPoison)).hart.pc = 0x10001
        ∧ (let s := wPoison.setHart { wPoison.hart with csr := { wPoison.hart.csr with vl := 4, vstart := 1 } };
          (nextOf (exec i s)).hart.csr.xcause = 0x14 ∧ (nextOf (exec i s)).hart.csr.vstart = 1)) := by decide +kernel
theorem witness_ScalarFrame :
    (scalarDest (.add ⟨.w64, 7, 3, .reg 4⟩) = some 7 ∧ exec (.add ⟨.w64, 7, 3, .reg 4⟩) w0 =
        .next (nextOf (exec (.add ⟨.w64, 7, 3, .reg 4⟩) w0)))
      ∧ exec (.add ⟨.w64, 7, 3, .reg 4⟩) wPoison = .next (nextOf (exec (.add ⟨.w64, 7, 3, .reg 4⟩) wPoison))
      ∧ (nextOf (exec (.add ⟨.w64, 7, 3, .reg 4⟩) wPoison)).hart.csr.xcause = 0x14 :=
  ⟨⟨by decide +kernel, next_of (by decide +kernel)⟩, next_of (by decide +kernel), by decide +kernel⟩
/-- 16 elements below `vl`, an explicit mask m3 and trip counts in v4. -/
def wLoop (sc : Word) : State := w0.setHart { w0.hart with
  csr := { w0.hart.csr with sc := sc, vl := 16 }, v := w0.hart.v.set 4 0x0000000300000001
  m := w0.hart.m.set 3 ⟨true, 0, 0, 0xFF, none⟩, s := w0.hart.s.set 31 0x10000 }
/-- The same with one trip left at the only active element. -/
def wLast : State := let s := wLoop 5
  s.setHart { s.hart with v := s.hart.v.set 4 1 }
def tripLoop : VLoop := ⟨4, 3, ⟨0, 0⟩⟩
/-- Targets that are reached, conditions on both sides, and the counts that end a loop or go on. -/
theorem witness_BranchResults :
    (condHolds .lt 64 (w0.reg 3).toNat (w0.reg 4).toNat = true ∧ condHolds .lt 64 (w0.reg 4).toNat (w0.reg 3).toNat = false
      ∧ condHolds .eq 64 (w0.reg 3).toNat ((3 : BitVec 5).signExtend 64).toNat = true
      ∧ condHolds .ne 64 (w0.reg 3).toNat ((3 : BitVec 5).signExtend 64).toNat = false
      ∧ w0.canRead 1 = true ∧ w0.canRead 3 = true ∧ w0.canRead 4 = true
      ∧ ((lineOf w0.hart.pc + (0 : BitVec 33).signExtend 64 * 64) ||| (0 : BitVec 3).zeroExtend 64) = 0x10000
      ∧ w0.reg 1 = 0x10000 ∧ (wLoop 5).reg 31 = 0x10000 ∧ (wLoop 5).canRead 31 = true)
    ∧ ((wLoop 5).hart.csr.vl = 16 ∧ (wLoop 16).hart.csr.sc = 16 ∧ (wLoop 17).hart.csr.sc = 17
      ∧ (wLoop 5).clean ∧ ((List.range 16).any ((wLoop 5).activeAt_ 3)) = true
      ∧ ((List.range 16).all ((wLoop 5).activeAt_ 3)) = false
      ∧ tripLoop.a.val % (wLoop 5).convoy.grpRegs = 0 ∧ (wLoop 5).hart.m[tripLoop.c].bound = none
      ∧ (wLoop 5).loopsOn tripLoop = true ∧ wLast.clean ∧ wLast.hart.m[tripLoop.c].bound = none
      ∧ wLast.loopsOn tripLoop = false)
    ∧ w0.reaches 0x10000 true (endOf (checkTarget 0x10000 true w0))
    ∧ (wLoop 5).reaches 0x10000 false (endOf (checkTarget 0x10000 false (wLoop 5)))
    ∧ (wLoop 5).reaches 0x10000 true (endOf (checkTarget 0x10000 true (wLoop 5)))
    ∧ (wLoop 17).reaches 0x10000 true (endOf (checkTarget 0x10000 true (wLoop 17))) := by
  refine ⟨by decide +kernel, by decide +kernel, ?_⟩
  and_intros <;> exact ok_end (by decide +kernel)
/-- Bits 5:3 set in s7, a BT bit clear at s8, a slot above 4 in s31; a count above `vl` and trips left. -/
def wBad : State := withRegs [(7, 0x10008), (8, 0x10001), (31, 0x10005)] (wLoop 17)
/-- Slots 0 and 1 of the line are a pair, and s31 names the second. -/
def wBadPair : State := let s := withRegs [(31, 0x10001)] wBad
  let paired := memReadN s.hart.code 0x1003C 4 ||| 0x40000
  s.setHart { s.hart with code := memWriteBytes s.hart.code 0x1003C (toBytes 4 paired) }
def badLabel : Target := ⟨0, 5⟩
def badLabelBt : Target := ⟨0, 1⟩
theorem misformed_at {s : State} {target : Word} {bt : Bool}
    (h : (target >>> 3) &&& 7 ≠ 0 ∨ 4 < (target &&& 7).toNat) : s.refuses target bt s := .inl ⟨h, rfl⟩
/-- The line of a target whose BT bit is clear, or the second slot of a pair. -/
theorem refused_at {s : State} {target : Word} {bt : Bool} {l : Line}
    (h : okWith (fetchLine (lineOf target) s) l = true)
    (hm : ¬((target >>> 3) &&& 7 ≠ 0 ∨ 4 < (target &&& 7).toNat))
    (hb : let slot := (target &&& 7).toNat
      let h := (endOf (fetchLine (lineOf target) s)).hart
      if bt then bit (lineWord h l) (22 + slot) = false else 0 < slot ∧ bit (lineWord h l) (17 + slot) = true) :
    s.refuses target bt (endOf (fetchLine (lineOf target) s)) := .inr ⟨hm, l, ok_end h, hb⟩
def codeLine : Line := ⟨0x10000, 0x10020⟩
theorem witness_BadTargetFaults :
    (wBad.canRead 3 = true ∧ wBad.canRead 4 = true ∧ wBad.canRead 0 = true ∧ wBad.canRead 7 = true ∧ wBad.canRead 31 = true
      ∧ condHolds .lt 64 (wBad.reg 3).toNat (wBad.reg 4).toNat = true
      ∧ condHolds .eq 64 (wBad.reg 3).toNat ((3 : BitVec 5).signExtend 64).toNat = true
      ∧ wBad.hart.csr.vl < wBad.hart.csr.sc.toNat ∧ wBad.clean
      ∧ maskTest .any ((List.range wBad.hart.csr.vl).map (wBad.activeAt_ 3)) = true
      ∧ tripLoop.a.val % wBad.convoy.grpRegs = 0 ∧ wBad.hart.m[tripLoop.c].bound = none ∧ wBad.loopsOn tripLoop = true
      ∧ ((lineOf wBad.hart.pc + badLabel.disp.signExtend 64 * 64) ||| badLabel.slot.zeroExtend 64) = 0x10005
      ∧ ((lineOf wBad.hart.pc + badLabelBt.disp.signExtend 64 * 64) ||| badLabelBt.slot.zeroExtend 64) = 0x10001
      ∧ wBad.reg 7 = 0x10008 ∧ wBad.reg 8 = 0x10001 ∧ wBad.reg 31 = 0x10005 ∧ wBadPair.reg 31 = 0x10001)
    ∧ (∀ bt : Bool, wBad.refuses 0x10005 bt wBad ∧ wBad.refuses 0x10008 bt wBad)
    ∧ wBad.refuses 0x10001 true (endOf (fetchLine (lineOf 0x10001) wBad))
    ∧ wBadPair.refuses 0x10001 false (endOf (fetchLine (lineOf 0x10001) wBadPair)) :=
  ⟨by decide +kernel, fun _ => ⟨misformed_at (by decide), misformed_at (by decide)⟩,
    refused_at (l := codeLine) (by decide +kernel) (by decide +kernel) (by decide +kernel),
    refused_at (l := codeLine) (by decide +kernel) (by decide +kernel) (by decide +kernel)⟩
/-- A word of the code page: whole, its last byte, and a misaligned address. -/
def wMem : State := { w0 with mem := memWriteBytes w0.mem 0x10100 [1, 2, 3, 4, 5, 6, 7, 0x88] }
theorem witness_ScalarAccessResults :
    (wMem.canRead 2 = true ∧ wMem.canReadSrc (.imm 7) = true ∧ wMem.canRead 5 = true ∧ wMem.canReadC 0 = true
      ∧ wMem.idleAt .system)
    ∧ (wMem.finds .scalar .load 0x10100 8 word (found wMem .scalar .load 0x10100 8)
      ∧ dataError (found wMem .scalar .load 0x10100 8) 0x10100 = none)
    ∧ wMem.finds .scalar .load 0x10107 1 ⟨0x10107, false, false, false⟩ (found wMem .scalar .load 0x10107 1)
    ∧ (wMem.finds .scalar .store 0x10100 8 word (found wMem .scalar .store 0x10100 8)
      ∧ ((found wMem .scalar .store 0x10100 8).coreOf (0x10100 / 2 ^ 30)).fenced = false)
    ∧ (wMem.reg 2 + wMem.src (.imm 1)).toNat % tBytes .i64 ≠ 0
    ∧ (wMem.hart.det = false ∧ (wMem.reg 3).toNat % tBytes .i64 ≠ 0) :=
  ⟨by decide +kernel, ⟨finds_of (by decide +kernel), by decide +kernel⟩, finds_of (by decide +kernel),
    ⟨finds_of (by decide +kernel), by decide +kernel⟩, by decide +kernel, by decide +kernel⟩
def wDet : State := wMem.setHart { wMem.hart with det := true }
theorem witness_AmoResults :
    (wMem.canRead 2 = true ∧ wMem.canRead 4 = true ∧ wMem.canRead 0 = true ∧ wMem.hart.det = false ∧ wMem.idleAt .package
      ∧ dataError (found wMem .amo .store (wMem.reg 2) 8) word.key = none
      ∧ wDet.hart.det = true ∧ wDet.canRead 2 = true ∧ wDet.canRead 0 = true)
    ∧ wMem.finds .amo .store (wMem.reg 2) 8 word (found wMem .amo .store (wMem.reg 2) 8)
    ∧ wDet.finds .amo .store (wDet.reg 2) 4 word (found wDet .amo .store (wDet.reg 2) 4) :=
  ⟨by decide +kernel, finds_of (by decide +kernel), finds_of (by decide +kernel)⟩
def storeForm : SStore := ⟨.i64, 5, 2, .imm 0, some .system, false⟩
theorem witness_AccessFrames :
    let va := wMem.reg 2 + wMem.src (.imm 0)
    let t := found wMem .scalar .store va 8
    (wMem.canRead 2 = true ∧ wMem.canReadSrc (.imm 0) = true ∧ wMem.canRead 5 = true ∧ wMem.idleAt .system
      ∧ (t.coreOf (word.key / 2 ^ 30)).fenced = false ∧ wMem.hart.deferred = [] ∧ wl.hart.deferred = []
      ∧ wl.hart.csr.vl ≤ wl.convoy.vlmax)
    ∧ wMem.finds .scalar .store va 8 word t
    ∧ exec (.st storeForm) wMem = .next (nextOf (exec (.st storeForm) wMem))
    ∧ exec (.ld ⟨.i64, 7, 2, .imm 0, none⟩) wMem = .next (nextOf (exec (.ld ⟨.i64, 7, 2, .imm 0, none⟩) wMem))
    ∧ exec (.vldx ⟨.i32, 6, 2, 8, 0, false, false, .b32, 0⟩) wl =
      .next (nextOf (exec (.vldx ⟨.i32, 6, 2, 8, 0, false, false, .b32, 0⟩) wl)) := by
  refine ⟨by decide +kernel, finds_of (by decide +kernel), ?_⟩
  and_intros <;> exact next_of (by decide +kernel)

/-- Vectors of integers: a group of its own and one that is the source, elements from `vstart` on under a mask. -/
theorem witness_VectorIntegerResults :
    wv.fits .i32 (6 :: 4 :: vsrcGroup (.vec 5)) ∧ wv.fits .n32 (4 :: 4 :: vsrcGroup (.imm 0xFFFFFFFD)) ∧ wv.active 2 ≠ []
      ∧ wv.hart.elem 5 32 1 = 0 := by decide +kernel
theorem witness_VectorSelectCompare :
    wv.fits .i32 [6, 4] ∧ wv.fits .i32 (4 :: 4 :: vsrcGroup (.scalar 5)) ∧ wv.fits .i32 (4 :: vsrcGroup (.vec 5)) ∧ wv.unbound 7
      ∧ wv.unbound 0 := by decide +kernel
theorem witness_VectorFloatResults :
    wvf.fits .f32 (6 :: 4 :: vsrcGroup (.imm 0x3F800001)) ∧ wvf.fits .f32 (6 :: 4 :: 6 :: vsrcGroup (.vec 5))
      ∧ wvf.fits .f32 [6, 5] ∧ wvf.fits .f32 (5 :: vsrcGroup (.vec 4)) ∧ wvf.unbound 2 := by decide +kernel
/-- Sides of one width, of a narrower and of a wider destination, apart from v30. -/
theorem witness_VectorConversionResults :
    wvf.clean ∧ wvf.unbound 3 ∧ sidesOk wvf.convoy 6 4 (tBits .i32) (tBits .f32) = true
      ∧ sidesOk wvf.convoy 6 4 (tBits .f16) (tBits .f32) = true ∧ sidesOk wvf.convoy 6 4 (tBits .f32) (tBits .e4m3) = true
      ∧ sidesOk wvf.convoy 6 4 (tBits .q4) (tBits .f32) = true ∧ touchesScales 6 (sideRegs wvf.convoy (tBits .f32)) = false := by
  decide +kernel
theorem witness_ReductionScanResults :
    wv.fits .i32 [4] ∧ wv.fits .i32 [6, 4] ∧ wvf.fits .f32 [5] ∧ wvf.fits .f32 [6, 5]
      ∧ (wvf.active 2).length = 3 := by decide +kernel
theorem witness_PermuteResults :
    wv.fits .i32 [6, 4] ∧ overlap 6 4 wv.convoy.grpRegs = false ∧ wv.fits .i32 (6 :: 4 :: vsrcGroup (.vec 5))
      ∧ (∀ r ∈ (4 : VName) :: vsrcGroup (.vec 5), overlap 6 r wv.convoy.grpRegs = false) ∧ wv.fits .i32 [4]
      ∧ (wv.srcZ (.imm 511)).toNat < wv.convoy.vlmax ∧ ¬(wv.srcZ (.imm 512)).toNat < wv.convoy.vlmax := by decide +kernel
theorem witness_MaskLengthResults :
    (wv.fits .i32 [6, 4] ∧ overlap 6 4 wv.convoy.grpRegs = false ∧ wv.fits .i32 [6, 4, 5]
      ∧ ∀ r ∈ [(4 : VName), 5], overlap 6 r wv.convoy.grpRegs = false)
    ∧ (wv.canReadSrc (.reg 0) = true ∧ wv.canReadSrc (.imm 512) = true ∧ wv.unbound 7 ∧ wv.unbound 0 ∧ wv.clean) := by
  decide +kernel
/-- A stream queue with room for one more push and with the bytes of a pop, and one that is full. -/
def wStream (n : Nat) : State :=
  wv.setConvoy { wv.convoy.setSq 1 (List.replicate n 7) with sqPoison := wv.convoy.sqPoison.set 1 [12] }
theorem witness_StreamChainResults :
    ((wStream 8180).fits .i32 [4] ∧ (wStream 12).convoy.sqPoison[(1 : Fin 2)] = [12]
      ∧ (wStream 8180).convoy.sq[(1 : Fin 2)].length + ((wStream 8180).active 2).length * tBytes .i32 = 8192)
    ∧ ((wStream 12).fits .i32 [6] ∧ ((wStream 12).active 2).length * tBytes .i32 = (wStream 12).convoy.sq[(1 : Fin 2)].length
      ∧ ((wStream 12).active 2).length * tBytes .i32 ≤ 8192)
    ∧ (wvf.fits .f32 (6 :: 4 :: (vsrcGroup (.vec 5) ++ [4] ++ chainGroups [⟨.fmacc, .vec 5, .vec 6⟩, ⟨.fmax, .scalar 0, .vec 0⟩]))
      ∧ wvf.hart.csr.chstep = 0) := by decide +kernel

/-- Elements 1 and 2 of each form of a vector load, and of a store. -/
def wStride : State := wl.setHart (wl.hart.writeS 9 12)
theorem witness_VectorAccessResults_loads :
    (wl.fits .i32 [6] ∧ wl.hart.deferred = [] ∧ ∃ t, State.Each (State.loadsElem .unit .i32 fun _ i =>
      [(6, wl.reg 2 + simm 0 + BitVec.ofNat 64 (i * tBytes .i32))]) (wl.active 0) wl t)
    ∧ (wStride.fits .i32 [6] ∧ wStride.hart.deferred = [] ∧ ∃ t, State.Each (State.loadsElem .unit .i32 fun _ i =>
      [(6, wStride.reg 2 + simm 0 + BitVec.ofNat 64 i * wStride.reg 9)]) (wStride.active 0) wStride t)
    ∧ (segFits 6 wl.convoy.grpRegs 2 = true ∧ ∃ t, State.Each (State.loadsElem .seg .i32 fun _ i =>
      segFields 6 wl.convoy.grpRegs 2 (tBytes .i32) (wl.reg 2 + simm 0) i) (wl.active 0) wl t)
    ∧ (wl.convoy.grpRegs * ixBits .b32 ≤ 64 * wl.convoy.ewBytes ∧ aligned 8 (sideRegs wl.convoy (ixBits .b32)) = true
      ∧ (6 : VName).val + wl.convoy.grpRegs ≤ (8 : VName).val
      ∧ ∃ t, State.Each (State.loadsElem .seg .i32 fun h i =>
        [(6, indexEa ⟨.i32, 6, 2, 8, 0, false, false, .b32, 0⟩ (wl.reg 2 + simm 0) h i)]) (wl.active 0) wl t) :=
  by
    refine ⟨⟨?_, ?_, each_some (loadElem_of _ _ _) ?_⟩, ⟨?_, ?_, each_some (loadElem_of _ _ _) ?_⟩, ⟨?_,
      each_some (loadElem_of _ _ _) ?_⟩,
      ?_, ?_, ?_, each_some (loadElem_of _ _ _) ?_⟩ <;> decide +kernel
theorem witness_VectorAccessResults_stores :
    (wl.fits .i32 [6] ∧ wl.hart.deferred = [] ∧ ∃ t, State.Each (State.storesElem .unit .i32 fun _ i =>
      [(6, wl.reg 2 + simm 0 + BitVec.ofNat 64 (i * tBytes .i32))]) (wl.active 0) wl t)
    ∧ (∃ t, State.Each (State.storesElem .unit .i32 fun _ i =>
      [(6, wStride.reg 2 + simm 0 + BitVec.ofNat 64 i * wStride.reg 9)]) (wStride.active 0) wStride t)
    ∧ (segFits 6 wl.convoy.grpRegs 2 = true ∧ ∃ t, State.Each (State.storesElem .seg .i32 fun _ i =>
      segFields 6 wl.convoy.grpRegs 2 (tBytes .i32) (wl.reg 2 + simm 0) i) (wl.active 0) wl t)
    ∧ ∃ t, State.Each (State.storesElem .seg .i32 fun h i =>
        [(6, indexEa ⟨.i32, 6, 2, 8, 0, false, false, .b32, 0⟩ (wl.reg 2 + simm 0) h i)]) (wl.active 0) wl t :=
  by refine ⟨⟨?_, ?_, each_some (storeElem_of _ _ _) ?_⟩, each_some (storeElem_of _ _ _) ?_,
      ⟨?_, each_some (storeElem_of _ _ _) ?_⟩, each_some (storeElem_of _ _ _) ?_⟩ <;> decide +kernel

/-- Three elements, the first and the last at one address; and the same in deterministic mode with floats. -/
def wScatter : State := wl.setHart { wl.hart with
  csr := { wl.hart.csr with vstart := 0 }, v := wl.hart.v.set 8 (vec [4, 8, 4, 12]) }
def wScatterDet : State := wScatter.setHart { wScatter.hart with det := true, v := wScatter.hart.v.set 6 (vec [0x3F800000, 0x40000000, 0x40400000]) }
def scatterKeys : List (Nat × Nat) := [(0, 0x10104), (1, 0x10108), (2, 0x10104)]
def scatterEa (s : State) (i : Nat) : Word := indexEa ⟨.i32, 6, 2, 8, 0, false, false, .b32, 0⟩ (s.reg 2 + simm 0) s.hart i
/-- The update at element `i` that the statement describes, and the state that it leaves. -/
def scatterMerged (s : State) (ms : List Nat) : Nat :=
  match ms with
  | [] => 0
  | i :: is => is.foldl (fun acc j => addIn .i32 acc (s.hart.elem 6 32 j)) (s.hart.elem 6 32 i)
def scatterUpdate (s : State) (gs : List (Word × List Nat)) (ks : List (Nat × Nat)) (i : Nat) (p q : State) : Prop :=
  match gs.find? fun g => g.2.head? == some i with
  | none => ∃ l : Loc, locate .seg .store (scatterEa s i) 4 (some i) none p = .ok (.local_ l) q ∧ l.log = false
  | some (_, ms) => dataError p ((mget ks i).getD 0) = none ∧ q = pokeN ((mget ks i).getD 0) 4
      (addIn .i32 (memReadN p.mem ((mget ks i).getD 0) 4) (scatterMerged s ms)) (p.after (meter ((mget ks i).getD 0) 4))
def scatterStep (s : State) (gs : List (Word × List Nat)) (ks : List (Nat × Nat)) (i : Nat) (p : State) : Option State :=
  match gs.find? fun g => g.2.head? == some i with
  | none =>
    let r := locate .seg .store (scatterEa s i) 4 (some i) none p
    if okWith r (.local_ (locOf r)) = true ∧ (locOf r).log = false then some (endOf r) else none
  | some (_, ms) => if dataError p ((mget ks i).getD 0) = none then some (pokeN ((mget ks i).getD 0) 4
      (addIn .i32 (memReadN p.mem ((mget ks i).getD 0) 4) (scatterMerged s ms)) (p.after (meter ((mget ks i).getD 0) 4)))
    else none
theorem scatterStep_of (s : State) (gs : List (Word × List Nat)) (ks : List (Nat × Nat)) (i : Nat) (p q : State)
    (h : scatterStep s gs ks i p = some q) : scatterUpdate s gs ks i p q := by
  simp only [scatterStep, scatterUpdate] at h ⊢
  split at h
  · split at h
    case isTrue hl => rw [← Option.some.inj h]; exact ⟨_, ok_end hl.1, hl.2⟩
    case isFalse => simp at h
  · split at h
    case isTrue hd => exact ⟨hd, by simpa using h.symm⟩
    case isFalse => simp at h
theorem witness_ScatterAddResults :
    (wScatter.fits .i32 [6] ∧ wScatter.convoy.grpRegs * ixBits .b32 ≤ 64 * wScatter.convoy.ewBytes
      ∧ aligned 8 (sideRegs wScatter.convoy (ixBits .b32)) = true ∧ wScatter.active 0 = [0, 1, 2]
      ∧ (scatterGroups (scatterEa wScatter) [0, 1, 2]).map Prod.snd = [[0, 2], [1]] ∧ wScatter.hart.deferred = [])
    ∧ State.Found .seg .store (tBytes .i32) ([0, 1, 2].map fun i => (i, scatterEa wScatter i)) wScatter scatterKeys wScatter
    ∧ ∃ t, State.Each (scatterUpdate wScatter (scatterGroups (scatterEa wScatter) [0, 1,
      2]) scatterKeys) (scatterKeys.map Prod.fst)
      wScatter t :=
  ⟨by decide +kernel, foundAll_of _ _ _ _ (by decide +kernel), each_some (scatterStep_of _ _ _) (by decide +kernel)⟩
/-- In deterministic mode each group appends its update. -/
theorem witness_ScatterAddResults_deferred :
    (wScatterDet.fits .f32 [6] ∧ wScatterDet.hart.deferred = [] ∧ wScatterDet.hart.det = true ∧ tFloat .f32 = true)
    ∧ State.Found .seg .store (tBytes .f32) ([0, 1, 2].map fun i => (i,
      scatterEa wScatterDet i)) wScatterDet scatterKeys wScatterDet
    ∧ wScatterDet.hart.deferred.length < 256 :=
  ⟨by decide +kernel, foundAll_of _ _ _ _ (by decide +kernel), by decide +kernel⟩

/-- Slot 0 of the tile store, the convoy's own; and one that fills, with the mask m4 bound to its fill. -/
def wTile (st : TileState) (own : Option Nat) : State :=
  let a := withRegs [(2, 0xC000000000000000), (9, 77), (10, 0), (11, 4096), (12, 0x10100), (13, 0xFFFFFFFFFFFFFFFF)] wl
  a.setCore (a.core.setTile 0 { tag := 77, owner := own, state := st, susp := false, hidden := false })
def wFill : State :=
  let a := wTile .filling (some 0)
  let b := a.setHart { a.hart with m := a.hart.m.set 4 ⟨true, 0, 0, 1, some 7⟩ }
  b.setCore { b.core with transfers := [⟨7, .tfill, 0, 0, 0, .user, 0, 0, some 4, 0xC000000000000000, 0x10100, 8192, 8192, 0, 0, 0
    , 512, [0], 0, none, false, none, [], none, none⟩] }
theorem witness_TileAccessResults :
    ((wTile .ready (some 0)).fits .i32 [6] ∧ tileNum ((wTile .ready (some 0)).reg 2 + simm 0) = some 0
      ∧ ((wTile .ready (some 0)).core.tile 0).hidden = false ∧ ((wTile .ready (some 0)).core.tile 0).state = .ready
      ∧ ((wTile .ready (some 0)).core.tile 0).owner = some (wTile .ready (some 0)).hart.convoy
      ∧ (∀ i ∈ (wTile .ready (some 0)).active 0, ((wTile .ready (some 0)).reg 2 + simm 0 + BitVec.ofNat 64 (i * 4)).toNat % 4 = 0
        ∧ tileNum ((wTile .ready (some 0)).reg 2 + simm 0 + BitVec.ofNat 64 (i * 4)) = some 0)
      ∧ (wTile .ready (some 0)).core.tilePoison = [])
    ∧ (wFill.fits .i32 [6] ∧ (wFill.core.tile 0).state = .filling ∧ boundFill wFill 4 0 = true
      ∧ ∀ i ∈ (elemRange wFill.hart).filter fun i => wFill.hart.m[(4 : MName)].bits.getLsbD
          ((wFill.reg 2 + simm 0 + BitVec.ofNat 64 (i * 4)).toNat % 8192 / 512),
        tileNum (wFill.reg 2 + simm 0 + BitVec.ofNat 64 (i * 4)) = some 0) := by decide +kernel

/-- A banked page of core 0, and the sets of banks in s9 and s10: none, and banks 0 and 2. -/
def wBank : State :=
  let a := withRegs [(2, 0x40000000), (9, 0), (10, 0x5)] w0
  let b := a.setCore { a.core with tlb := [⟨0, 0x40000000, 0x6BF⟩] }
  { b.setHart { b.hart with v := b.hart.v.set 4 (vec [0x40003C00, 0x3C003C00]) } with
    mem := memWriteBytes (memWriteBytes b.mem 0 [0, 0x3C, 0, 0x40, 0, 0x3C, 0, 0x3C]) 64 [0, 0x44, 0, 0x40, 0, 0x3C, 0, 0xBC] }
def bankPlace (acc : Acc) (s : State) : Loc := match bankLoc acc 0x40000000 true 0 s with
  | .ok l _ => l
  | .error _ _ => ⟨0, false, false, false⟩
def bankWords (acc : Acc) (banks : List Nat) (s : State) : List (Nat × Loc) :=
  match bankScan (bankCheck acc 0x40000000 true (bankPlace acc s)) banks s with
  | .ok r _ => r.1
  | .error _ _ => []
def banksFound (acc : Acc) (lowest : M Loc) (banks : List Nat) (s : State) : Bool :=
  let ls := bankWords acc banks s
  okHere (lowest s) (bankPlace acc s) s
    && okHere (bankScan (bankCheck acc 0x40000000 true (bankPlace acc s)) banks s) (ls, none) s
    && ls.all (fun p => !p.2.log) && decide s.calm
theorem banks_found {acc : Acc} {lowest : M Loc} {banks : List Nat} {s : State} (h : banksFound acc lowest banks s = true) :
    s.findsBanks acc 0x40000000 true lowest banks (bankWords acc banks s) s := by
  simp only [banksFound, Bool.and_eq_true, decide_eq_true_eq] at h
  exact ⟨⟨_, _, ok_here h.1.1.1, ok_here h.1.1.2⟩, by simpa using h.1.2, h.2⟩
/-- The same, resumed at bank 2; and in deterministic mode. -/
def wBankAt (n : BitVec 5) : State := wBank.setHart { wBank.hart with csr := { wBank.hart.csr with bstart := n } }
def wBankDet : State := wBank.setHart { wBank.hart with det := true }
theorem witness_PluralResults :
    (wBank.canRead 2 = true ∧ wBank.canRead 3 = true ∧ wBank.canRead 9 = true ∧ bankSet (wBank.reg 9) = []
      ∧ bankSet (wBank.reg 10) = [0, 2] ∧ wBank.reg 2 + simm 0 = 0x40000000 ∧ wBank.hart.csr.bstart = 0
      ∧ wBank.hart.deferred = [] ∧ (bankWords .load [0, 2] wBank).length = 2
      ∧ (∀ p ∈ bankWords .load [0, 2] wBank, dataError wBank p.2.key = none)
      ∧ (∀ p ∈ bankWords .store [0, 2] wBank, (wBank.coreOf (p.2.key / 2 ^ 30)).fenced = false ∧ dataError wBank p.2.key = none)
      ∧ (bankSet ((wBankAt 2).reg 10)).filter (fun b => decide ((wBankAt 2).hart.csr.bstart.toNat ≤ b)) = [2]
      ∧ (bankSet ((wBankAt 3).reg 10)).filter (fun b => decide ((wBankAt 3).hart.csr.bstart.toNat ≤ b)) = []
      ∧ wBank.hart.det = false ∧ wBankDet.hart.det = true)
    ∧ wBank.findsBanks .load 0x40000000 true (bankLoc .load 0x40000000 true 0) [0, 2] (bankWords .load [0, 2] wBank) wBank
    ∧ wBank.findsBanks .store 0x40000000 true (bankLowest 0x40000000 true 0 0) [0, 2] (bankWords .store [0, 2] wBank) wBank
    ∧ (wBankAt 2).findsBanks .store 0x40000000 true (bankLowest 0x40000000 true 0 2) [2] (bankWords .store [2] (wBankAt 2))
      (wBankAt 2)
    ∧ wBankDet.findsBanks .store 0x40000000 true (bankLowest 0x40000000 true 0 0) [0, 2] (bankWords .store [0, 2] wBankDet)
      wBankDet :=
  by refine ⟨?_, banks_found ?_, banks_found ?_, banks_found ?_, banks_found ?_⟩ <;> decide +kernel
def pdotForm : PDot := ⟨.f16, 8, 4, 10, 2, 1, 0, 4⟩
def pdotPlaces (s : State) : List (Nat × List (Word × Loc)) := match pdotCheck (s.reg 2) pdotForm [0, 2] s with
  | .ok l _ => l
  | .error _ _ => []
theorem witness_PdotResults :
    (wBank.clean ∧ bankSet (wBank.reg 9) = [] ∧ bankSet (wBank.reg 10) = [0, 2] ∧ (wBank.reg 2).toNat % 64 = 0
      ∧ pdotBusy wBank.hart.aged wBank.core (wBank.reg 10) = false ∧ wBank.calm)
    ∧ pdotCheck (wBank.reg 2) pdotForm [0, 2] wBank =
      .ok (pdotPlaces wBank) (endOf (pdotCheck (wBank.reg 2) pdotForm [0, 2] wBank)) :=
  ⟨by decide +kernel, ok_end (by decide +kernel)⟩

/-- a1 bound to physical accumulator 0, of 2 rows and 3 columns, with two elements; a stride of 16 in s4. -/
def accRegion1 : AccReg := ⟨0, 2, 3, false, accSet (accSet 0 (accPos 0 0) 0x3F800000) (accPos 1 2) 0x40000000⟩
def wAcc : State := withRegs [(4, 16)] (wl.setHart { wl.hart with
  csr := { wl.hart.csr with vstart := 0 }, acc := wl.hart.acc.set 1 (some accRegion1)
  v := wl.hart.v.set 4 (vec [0x40003C00, 0x3C003C00, 0x44003C00]) })
/-- What element `e` of `ald`, and of `ast`, leaves at an ordinary word. -/
def accLoads (x : ALoad) (r : AccReg) (s : State) (e : Nat) (p q : State) : Prop := ∃ (v : Nat) (u : State),
  p.readsAcc x.mw (accEa (s.reg x.a) (s.reg x.b) x.mw x.stride x.off x.trans r.cols e) v u
    ∧ q = u.setHart ((u.hart.setAcc x.d [(accPos (e / r.cols) (e % r.cols), (aldValue x.mw v).1)]).addFlags (aldValue x.mw v).2)
def accLoadStep (x : ALoad) (r : AccReg) (s : State) (e : Nat) (p : State) : Option State :=
  let va := accEa (s.reg x.a) (s.reg x.b) x.mw x.stride x.off x.trans r.cols e
  let l := locOf (locate .unit .load va (tBytes x.mw) none none p)
  if tileNum va = none ∧ findsB p .unit .load va (tBytes x.mw) l
    ∧ dataError (found p .unit .load va (tBytes x.mw)) l.key = none then
    let v := memReadN p.mem l.key (tBytes x.mw)
    let u := (found p .unit .load va (tBytes x.mw)).after (meter l.key (tBytes x.mw))
    some (u.setHart ((u.hart.setAcc x.d [(accPos (e / r.cols) (e % r.cols), (aldValue x.mw v).1)]).addFlags (aldValue x.mw v).2))
  else none
theorem accLoadStep_of (x : ALoad) (r : AccReg) (s : State) (e : Nat) (p q : State) (h : accLoadStep x r s e p = some q) :
    accLoads x r s e p q := by
  simp only [accLoadStep] at h
  split at h
  case isTrue hc =>
    refine ⟨_, _, ?_, (Option.some.inj h).symm⟩
    simp only [State.readsAcc, hc.1]
    exact ⟨_, _, finds_of hc.2.1, hc.2.2, rfl, rfl⟩
  case isFalse => simp at h
def accStores (x : AStore) (r : AccReg) (s : State) (e : Nat) (p q : State) : Prop := ∃ u : State,
  let y := astValue r.int x.mw (if x.scaled then some (scaleFactor (s.reg x.s)) else none) (accGet r.data (accPos
    (e / r.cols) (e % r.cols)))
  p.writesAcc x.mw (accEa (s.reg x.a) (s.reg x.b) x.mw x.stride x.off x.trans r.cols e) y.1 u
    ∧ q = u.setHart (u.hart.addFlags y.2)
def accStoreStep (x : AStore) (r : AccReg) (s : State) (e : Nat) (p : State) : Option State :=
  let y := astValue r.int x.mw (if x.scaled then some (scaleFactor (s.reg x.s)) else none) (accGet r.data (accPos
    (e / r.cols) (e % r.cols)))
  let va := accEa (s.reg x.a) (s.reg x.b) x.mw x.stride x.off x.trans r.cols e
  let l := locOf (locate .unit .store va (tBytes x.mw) none none p)
  if tileNum va = none ∧ findsB p .unit .store va (tBytes x.mw) l
      ∧ ((found p .unit .store va (tBytes x.mw)).coreOf (l.key / 2 ^ 30)).fenced = false then
    let u := pokeN l.key (tBytes x.mw) y.1 ((found p .unit .store va (tBytes x.mw)).after (meter l.key (tBytes x.mw)))
    some (u.setHart (u.hart.addFlags y.2))
  else none
theorem accStoreStep_of (x : AStore) (r : AccReg) (s : State) (e : Nat) (p q : State) (h : accStoreStep x r s e p = some q) :
    accStores x r s e p q := by
  simp only [accStoreStep] at h
  split at h
  case isTrue hc =>
    refine ⟨_, ?_, (Option.some.inj h).symm⟩
    simp only [State.writesAcc, hc.1]
    exact ⟨_, _, finds_of hc.2.1, hc.2.2, rfl⟩
  case isFalse => simp at h
theorem witness_AccumulatorResults :
    (wAcc.clean ∧ (wAcc.hart.mma.any fun q => q.i.d == (1 : AName)) = false ∧ wAcc.hart.acc[(1 : AName)].map AccReg.phys = some 0
      ∧ wAcc.hart.acc[(2 : AName)] = none ∧ (List.range 16).find? (fun n => !(usedAcc wAcc wAcc.coreId).contains n) = some 1
      ∧ wAcc.hart.acc[(1 : AName)] = some accRegion1)
    ∧ (aldPair accRegion1.int .f32 = true ∧ astPair accRegion1.int .f16 = true ∧ wAcc.hart.deferred = []
      ∧ (wAcc.srcZ (.imm 1)).toNat < accRegion1.rows ∧ (wAcc.srcZ (.imm 2)).toNat < accRegion1.cols)
    ∧ (∃ t, State.Each (accLoads ⟨1, 2, 4, .f32, 1, 0, false⟩ accRegion1 wAcc)
      (span wAcc.hart.csr.vstart.toNat (accRegion1.rows * accRegion1.cols)) wAcc t)
    ∧ ∃ t, State.Each (accStores ⟨1, 2, 4, 0, false, .f16, 2, 1, true⟩ accRegion1 wAcc)
      (span wAcc.hart.csr.vstart.toNat (accRegion1.rows * accRegion1.cols)) wAcc t :=
  ⟨by decide +kernel, by decide +kernel, each_some (accLoadStep_of _ _ _) (by decide +kernel),
    each_some (accStoreStep_of _ _ _) (by decide +kernel)⟩
def mmaForm : Mma := ⟨1, 4, 4, 0, .f16, false, false, false, ⟨1, 1, 1, 0, false⟩, ⟨2, 1, 1, 0, false⟩⟩
def mmaPending : PendingMma :=
  ⟨mmaForm, mmaGroup wAcc.hart .f16 4 mmaForm.sa, mmaGroup wAcc.hart .f16 4 mmaForm.sb, wAcc.hart.v[30], wAcc.hart.v[31], 0⟩
theorem witness_MmaResults :
    (wAcc.clean ∧ wAcc.hart.acc[(1 : AName)] = some accRegion1 ∧ accRegion1.int = mmaInt mmaForm
      ∧ mmaForm.sa.ext1.toNat < accRegion1.rows ∧ mmaForm.sb.ext1.toNat < accRegion1.cols ∧ mmaForm.fmt ≠ .q4
      ∧ (wAcc.hart.mma.any fun q => q.i.d == mmaForm.d) = false)
    ∧ (wAcc.hart.poison = [] ∧ wAcc.hart.acc[mmaPending.i.d] = some accRegion1
      ∧ ((mmaFinish mmaPending wAcc.hart).acc[mmaPending.i.d]).isSome = true) := by decide +kernel
/-- Numbers and tags that each tile instruction takes: found and not found, a claim of any slot and of a given one. -/
theorem witness_TileResults :
    ((wTile .ready (some 0)).canRead 9 = true ∧ ((wTile .ready (some 0)).reg 10).toNat ≤ 255
      ∧ ((wTile .ready (some 0)).core.tile 0).hidden = false ∧ ((wTile .ready (some 0)).core.tile 0).busy = false
      ∧ ((wTile .ready (some 0)).core.tile 0).owner = some (wTile .ready (some 0)).hart.convoy
      ∧ (wTile .ready (some 0)).reg 13 = BitVec.allOnes 64 ∧ ((wTile .empty none).core.tile 0).owner = none
      ∧ ((wTile .empty none).core.tile 0).busy = false)
    ∧ ((wTile .ready (some 0)).canRead 12 = true ∧ (wTile .ready (some 0)).canRead 11 = true
      ∧ 0 < ((wTile .ready (some 0)).reg 11).toNat ∧ ((wTile .ready (some 0)).reg 11).toNat ≤ 8192
      ∧ (tileNum ((wTile .ready (some 0)).reg 12)).isSome = false ∧ (wTile .ready (some 0)).performed
      ∧ (wTile .ready (some 0)).core.transfers.length < 32
      ∧ (wTile .ready (some 0)).unbound 5 ∧ ((wTile .ready (some 0)).core.tile 0).state ≠ .empty) := by decide +kernel

/-- A copy in s1, s2 of s9 bytes, of rows in s10 and s11, with and without a mask and a closure. -/
theorem witness_CopyResults :
    (wc.canRead 1 = true ∧ wc.canRead 2 = true ∧ wc.canRead 9 = true ∧ (tileNum (wc.reg 1)).isSome = false
      ∧ (tileNum (wc.reg 2)).isSome = false ∧ wc.performed ∧ wc.closureOk none ∧ wc.closureOk (some 3) ∧ wc.unbound 0
        ∧ wc.unbound 5
      ∧ wc.core.transfers.length < 32 ∧ (wc.reg 9).toNat ≤ 2 ^ 40 ∧ ((wc.reg 9).toNat + 1024 - 1) / 1024 ≤ 16384)
    ∧ (wc.canRead 10 = true ∧ wc.canRead 11 = true
      ∧ (wc.reg 10).toNat / 2 ^ 32 * ((wc.reg 10).toNat % 2 ^ 32) ≤ 2 ^ 40) := by decide +kernel

/-- A merge block at 0x10200: two entries and one entry, the last indices equal. -/
def mergeBlock : List Nat := [0x10400, 0x10420, 2, 0x10440, 0x10460, 1, 0x10480, 0x104C0]
def wMerge : State := let s := withRegs [(8, 0x10200)] wl
  { s with mem := memWriteBytes (memWriteBytes (memWriteBytes (memWriteBytes (memWriteBytes s.mem 0x10200 (mergeBlock.flatMap (toBytes 8)))
    0x10400 ([1, 3].flatMap (toBytes 4))) 0x10420 ([10, 30].flatMap (toBytes 4))) 0x10440 (toBytes 4 3)) 0x10460 (toBytes 4 5) }
def mergeArgs (op : MergeOp) : MergeArgs := ⟨op, .i32, false, 4, 0x10400, 0x10420, 2, 0x10440, 0x10460, 1, 0x10480, 0x104C0⟩
def readStep (va : Nat → Word) (n : Nat) (ks : List (Nat × Nat)) (i : Nat) (s : State) : Option State :=
  match readAt (va i) n s with
  | some (v, t) => if v = (mget ks i).getD 0 then some t else none
  | none => none
theorem readStep_of (va : Nat → Word) (n : Nat) (ks : List (Nat × Nat)) (i : Nat) (s t : State)
  (h : readStep va n ks i s = some t) :
    State.reads (va i) n ((mget ks i).getD 0) s t := by
  simp only [readStep] at h
  split at h
  · rename_i v u e
    split at h
    case isTrue hv => rw [← hv, ← Option.some.inj h]; exact readAt_of e
    case isFalse => simp at h
  · simp at h
def blockKeys (ws : List Nat) : List (Nat × Nat) := (List.range 8).zip ws
def blockStep (base : Word) (ws : List Nat) : Nat → State → Option State :=
  readStep (fun i => base + BitVec.ofNat 64 (8 * i)) 8 (blockKeys ws)
def blockEnd (base : Word) (ws : List Nat) (s : State) : State := (chain (blockStep base ws) (List.range 8) s).getD s
theorem readsBlock_of {s : State} {base : Word} {ws : List Nat} (h : (chain (blockStep base ws) (List.range 8) s).isSome = true)
    (hw : ws = (List.range 8).map fun i => (mget (blockKeys ws) i).getD 0) : s.readsBlock base ws (blockEnd base ws s) := by
  obtain ⟨t, e⟩ := Option.isSome_iff_exists.mp h
  refine ⟨blockKeys ws, ?_, hw⟩
  have : blockEnd base ws s = t := by rw [blockEnd, e]; rfl
  rw [this]
  exact each_of (readStep_of _ _ _) _ _ _ e
/-- The next indices of both lists. -/
def heads (m : MergeArgs) (p : Nat × Nat × Nat) (s : State) : Option (Nat × Nat × State) :=
  (if p.1 < m.cnta then readAt (entryVa m.idxa m.ix p.1) m.ix s else some (2 ^ 64, s)).bind fun x =>
    (if p.2.1 < m.cntb then readAt (entryVa m.idxb m.ix p.2.1) m.ix x.2 else some (2 ^ 64, x.2)).map fun y => (x.1, y.1, y.2)
theorem heads_of {m : MergeArgs} {p : Nat × Nat × Nat} {s t : State} {a b : Nat} (h : heads m p s = some (a, b, t)) :
    ∃ s1, (if p.1 < m.cnta then State.reads (entryVa m.idxa m.ix p.1) m.ix a s s1 else a = 2 ^ 64 ∧ s1 = s)
      ∧ (if p.2.1 < m.cntb then State.reads (entryVa m.idxb m.ix p.2.1) m.ix b s1 t else b = 2 ^ 64 ∧ t = s1) := by
  obtain ⟨⟨a', s1⟩, ea, h⟩ := Option.bind_eq_some_iff.mp h
  obtain ⟨⟨b', t'⟩, eb, h⟩ := Option.map_eq_some_iff.mp h
  simp only [Prod.mk.injEq] at h
  obtain ⟨rfl, rfl, rfl⟩ := h
  refine ⟨s1, ?_, ?_⟩
  · split at ea
    case isTrue hp => rw [if_pos hp]; exact readAt_of ea
    case isFalse hp => rw [if_neg hp]; simp at ea; exact ⟨ea.1.symm, ea.2.symm⟩
  · split at eb
    case isTrue hp => rw [if_pos hp]; exact readAt_of eb
    case isFalse hp => rw [if_neg hp]; simp at eb; exact ⟨eb.1.symm, eb.2.symm⟩
/-- What an output leaves. -/
def outAt (m : MergeArgs) (n i v : Nat) (s : State) : Option State :=
  let ki := entryVa m.oidx m.ix n
  let kv := entryVa m.oval (tBytes m.t) n
  let u := found s .scalar .store ki m.ix
  let k := locOf (locate .scalar .store ki m.ix none none s)
  let l := locOf (locate .scalar .store kv (tBytes m.t) none none u)
  let w := found u .scalar .store kv (tBytes m.t)
  if findsB s .scalar .store ki m.ix k ∧ findsB u .scalar .store kv (tBytes m.t) l
      ∧ (w.coreOf (k.key / 2 ^ 30)).fenced = false ∧ (w.coreOf (l.key / 2 ^ 30)).fenced = false
      ∧ (hartItems w).all (fun i => i.failed.isSome) = true then
    some (pokeN l.key (tBytes m.t) v ((pokeN k.key m.ix i (w.after (meter k.key m.ix))).after (meter l.key (tBytes m.t))))
  else none
theorem outAt_of {m : MergeArgs} {n i v : Nat} {s t : State} (h : outAt m n i v s = some t) : s.writesPair m n i v t := by
  simp only [outAt] at h
  split at h
  case isTrue hc => 
    exact ⟨_, _, _, _, finds_of hc.1, finds_of hc.2.1, hc.2.2.1, hc.2.2.2.1, List.all_eq_true.mp hc.2.2.2.2,
      (Option.some.inj h).symm⟩
  case isFalse => simp at h
/-- One step of a merge that only counts. -/
def countStep (m : MergeArgs) (inter : Bool) (p : Nat × Nat × Nat) (s : State) : Option ((Nat × Nat × Nat) × State) :=
  (heads m p s).map fun x => ((if x.2.1 < x.1 then p.1 else p.1 + 1, if x.1 < x.2.1 then p.2.1 else p.2.1 + 1,
    if inter = true ∧ x.1 ≠ x.2.1 then p.2.2 else p.2.2 + 1), x.2.2)
theorem countStep_of {m : MergeArgs} {inter : Bool} (hm : m.op = .count inter) {p q : Nat × Nat × Nat} {s t : State}
    (h : countStep m inter p s = some (q, t)) : State.mergesOne m p.1 p.2.1 p.2.2 s q.1 q.2.1 q.2.2 t := by
  obtain ⟨⟨a, b, s2⟩, e, h⟩ := Option.map_eq_some_iff.mp h
  obtain ⟨s1, h1, h2⟩ := heads_of e
  simp only [Prod.mk.injEq] at h
  obtain ⟨rfl, rfl⟩ := h
  exact ⟨a, b, s1, s2, h1, h2, rfl, rfl, by rw [hm]; exact ⟨rfl, rfl⟩⟩
/-- One step of a merge that outputs every index, equal ones combined. -/
def unionStep (m : MergeArgs) (p : Nat × Nat × Nat) (s : State) : Option ((Nat × Nat × Nat) × State) :=
  (heads m p s).bind fun x =>
    (if x.1 ≠ x.2.1 then
      (readAt (if x.1 < x.2.1 then entryVa m.vala (tBytes m.t) p.1 else entryVa m.valb (tBytes m.t) p.2.1)
        (tBytes m.t) x.2.2).bind
        fun y => outAt m p.2.2 (min x.1 x.2.1) y.1 y.2
    else (readAt (entryVa m.vala (tBytes m.t) p.1) (tBytes m.t) x.2.2).bind fun y =>
      (readAt (entryVa m.valb (tBytes m.t) p.2.1) (tBytes m.t) y.2).bind fun z =>
        let r := mergeArith m.op m.t y.1 z.1
        if resultZero m.t r.1 && !m.kz then none
        else (outAt m p.2.2 x.1 r.1 z.2).map fun u => u.setHart (u.hart.addFlags r.2)).map
      fun t => ((if x.2.1 < x.1 then p.1 else p.1 + 1, if x.1 < x.2.1 then p.2.1 else p.2.1 + 1, p.2.2 + 1), t)
theorem unionStep_of {m : MergeArgs} (hm : m.op = .union) {p q : Nat × Nat × Nat} {s t : State}
    (h : unionStep m p s = some (q, t)) : State.mergesOne m p.1 p.2.1 p.2.2 s q.1 q.2.1 q.2.2 t := by
  obtain ⟨⟨a, b, s2⟩, e, hs⟩ := Option.bind_eq_some_iff.mp h
  obtain ⟨s1, h1, h2⟩ := heads_of e
  obtain ⟨t', h', hq⟩ := Option.map_eq_some_iff.mp hs
  clear h hs
  simp only [Prod.mk.injEq] at hq
  obtain ⟨rfl, rfl⟩ := hq
  refine ⟨a, b, s1, s2, h1, h2, rfl, rfl, ?_⟩
  simp only [hm]
  by_cases hab : a = b
  · simp only [hab, ne_eq, not_true_eq_false, if_false] at h' ⊢
    obtain ⟨⟨x, s3⟩, ex, h⟩ := Option.bind_eq_some_iff.mp h'
    obtain ⟨⟨y, s4⟩, ey, h⟩ := Option.bind_eq_some_iff.mp h
    simp only [hm] at h
    split at h
    case isTrue => simp at h
    case isFalse hz =>
      obtain ⟨u, eu, rfl⟩ := Option.map_eq_some_iff.mp h
      exact ⟨x, y, s3, s4, u, readAt_of ex, readAt_of ey, by rw [if_neg hz]; exact ⟨outAt_of eu, trivial⟩, rfl⟩
  · simp only [hab, ne_eq, not_false_eq_true, if_true] at h' ⊢
    obtain ⟨⟨v, s3⟩, ev, h⟩ := Option.bind_eq_some_iff.mp h'
    rw [if_neg (by decide)]
    exact ⟨v, s3, readAt_of ev, outAt_of h, trivial⟩
/-- The block is read. -/
def wMerged : State := blockEnd 0x10200 mergeBlock wMerge
/-- Two steps: index 1 of the first list alone, and index 3 of both. -/
theorem merges_two {m : MergeArgs} {f : Nat × Nat × Nat → State → Option ((Nat × Nat × Nat) × State)} {n1 n2 : Nat} {s : State}
    (hf : ∀ p q s t, f p s = some (q, t) →
      State.mergesOne m p.1 p.2.1 p.2.2 s q.1 q.2.1 q.2.2 t) (ha : m.cnta = 2) (hb : m.cntb = 1)
    (h : ((f (0, 0, 0) s).bind fun r => if r.1 = (1, 0, n1) then (f r.1 r.2).map Prod.fst else none) = some (2, 1, n2)) :
    ∃ u, State.Merges m 0 0 0 s n2 u := by
  obtain ⟨⟨q, t⟩, e1, h⟩ := Option.bind_eq_some_iff.mp h
  split at h
  case isTrue hq =>
    obtain ⟨⟨q', u⟩, e2, e3⟩ := Option.map_eq_some_iff.mp h
    simp only at hq e2 e3
    subst hq; subst e3
    exact ⟨u, .step _ _ _ _ _ _ _ _ _ _ (by simp [ha]) (hf _ _ _ _ e1)
      (.step _ _ _ _ _ _ _ _ _ _ (by simp [ha]) (hf _ _ _ _ e2) (.done _ _ _ _ (by simp [ha]) (by simp [hb])))⟩
  case isFalse => simp at h
theorem witness_MergeResults :
    (wMerge.live ∧ wMerge.clean ∧ wMerge.hart.merge = none ∧ (wMerge.reg 8).toNat % 64 = 0
      ∧ (2 : Word).toNat < 2 ^ 32)
    ∧ wMerge.readsBlock (wMerge.reg 8) mergeBlock wMerged
    ∧ (∃ u, State.Merges (mergeArgs (.count true)) 0 0 0 wMerged 1 u) ∧ ∃ u, State.Merges (mergeArgs .union) 0 0 0 wMerged 2 u :=
  ⟨by decide +kernel, readsBlock_of (by decide +kernel) (by decide +kernel),
    merges_two (n1 := 0) (fun _ _ _ _ => countStep_of rfl) rfl rfl (by decide +kernel),
    merges_two (n1 := 1) (fun _ _ _ _ => unionStep_of rfl) rfl rfl (by decide +kernel)⟩

/-! ### Depot, closures, fabric, barriers -/

/-- Region 5, open and granted to the virtual device; s9 is a scope of region 5 and unit 3. -/
def wd : State := withRegs [(8, 5), (9, 0x30005), (10, 0x20000)]
  (wc.setRegionOf 5 { Region.reset with grant := some 0, state := .open_ })
theorem witness_DepotResults :
    (wd.canRead 8 = true ∧ (wd.reg 8).toNat < 4096 ∧ wd.closureOk none ∧ wd.closureOk (some 3)
      ∧ wd.performed ∧ wd.hart.posted = 0 ∧ (wd.regionOf (wd.reg 8).toNat).grant = some wd.ctx.vdev)
    ∧ (wd.canRead 9 = true ∧ wd.canRead 2 = true ∧ wd.canRead 10 = true ∧ (wd.reg 9).toNat < 2 ^ 32
      ∧ (wd.reg 9).toNat / 2 ^ 12 % 16 = 0 ∧ (wd.reg 9).toNat / 2 ^ 16 ≤ 16383
      ∧ (wd.regionOf ((wd.reg 9).toNat % 2 ^ 12)).grant = some wd.ctx.vdev
      ∧ (wd.reg 10).toNat % 65536 = 0 ∧ (wd.reg 9).toNat / 2 ^ 16 * 65536 + (wd.reg 10).toNat ≤ 2 ^ 30) := by
  decide +kernel

/-- An exception entry exists; c3 and `env` hold the handle of frame 0, whose entry is the line at `codebase`. -/
def wcOrder : List Nat := wc.window.2.order
/-- The line at the code page is the line of `codebase`, and its first slot has its BT bit. -/
def wcEntry : State := let s := wc.setCtxOf 0 { wc.ctx with codebase := 0x10000 }
  s.setHart { s.hart with code := memWriteBytes s.hart.code 0x1003C (toBytes 4 0x00400000) }
theorem witness_ClosureResults :
    (wc.canRead 1 = true ∧ wc.canRead 2 = true ∧ (∀ r ∈ bitmapRegs 0x38, wc.canRead r = true)
      ∧ (wcOrder ≠ [] ∧ wcOrder = wcOrder.headD 0 :: wcOrder.tail) ∧ pcBreaks (wc.reg 1) = false
      ∧ (lineOf (wc.reg 1) - wc.ctx.codebase).toNat < 2 ^ 35
      ∧ wc.canReadC 3 = true ∧ wc.holds wc.hart.c[(3 : CName)] ∧ wc.holdsRef wc.hart.c[(3 : CName)]
      ∧ wc.holds wc.hart.csr.env
      ∧ wc.canRead 9 = true ∧ (wc.reg 9).toNat % 8 = 0 ∧ postsTaken wc wc.coreId < 128 ∧ wc.settled)
    ∧ (let x := wc.window.2.frame (hFrame wc.hart.csr.env)
      (2 < x.cnt.toNat ∧ frameBad x 2 = false)
        ∧ x.ref = true ∧ x.poison = [] ∧ frameLive wc (x.data[15].extractLsb' 32 32) (x.data[15].extractLsb' 0 32) = true)
    ∧ (wcEntry.canReadC 3 = true ∧ wcEntry.holds wcEntry.hart.c[(3 : CName)]
      ∧ entryOf wcEntry.ctx.codebase wcEntry.hart.c[(3 : CName)] = 0x10000)
    ∧ wcEntry.reaches 0x10000 true (endOf (checkTarget 0x10000 true wcEntry)) :=
  ⟨by decide +kernel, by decide +kernel, by decide +kernel, ok_end (by decide +kernel)⟩
/-- The line of the entry without its BT bit. -/
def wcNoBt : State := wcEntry.setHart { wcEntry.hart with code := memWriteBytes wcEntry.hart.code 0x1003C [0, 0, 0, 0] }
theorem witness_BadTargetFaults_apply :
    (wcNoBt.canReadC 3 = true ∧ wcNoBt.holds wcNoBt.hart.c[(3 : CName)]
      ∧ entryOf wcNoBt.ctx.codebase wcNoBt.hart.c[(3 : CName)] = 0x10000)
    ∧ wcNoBt.refuses 0x10000 true (endOf (fetchLine (lineOf 0x10000) wcNoBt)) :=
  ⟨by decide +kernel, refused_at (l := codeLine) (by decide +kernel) (by decide +kernel) (by decide +kernel)⟩

/-- s2 is an address of the fabric window. -/
def wfb : State := let s := withRegs [(2, 0x8000000000000100 + 5 * 2 ^ 44)] wc
  s.setCtxOf 0 { s.ctx with fcid := 9 }
/-- An item sent, and a response to take. -/
def wit : State := { wfb with items := [hartItem wfb (wfb.reg 2) .i64 (.store 5) false false 0] }
def wrs : State := wfb.setHart { wfb.hart with resp := [(3, .value 0x99)] }
/-- The hart has written to the host; a flag of its, at the core's vault, is held. -/
def wcHost : State := wc.setHart { wc.hart with hostLast := some 0x700 }
def wcFlag : State := { wc with items := [hartItem wc (wc.reg 2) .i32 (.flag word.key 5) false false 0] }
abbrev noFlag (s : State) (x : Fence) : Prop :=
  ∀ i ∈ hartItems s, (flagKey i).any (fun k => kindCovers x.kinds s.coreId k && inDomain x.scope s.coreId k) = false
theorem witness_FenceFabricResults :
    let t := found wc .fsig .store (wc.reg 2) 4
    (wc.hart.deferred = [] ∧ enginePending wc = false ∧ depotPending wc = false ∧ hartItems wc = [] ∧ wc.hart.hostLast = none
      ∧ noFlag wcFlag ⟨.package, ⟨false, true, true, false, true, true, true⟩⟩ ∧ hartItems wcFlag ≠ []
      ∧ wcHost.hart.deferred = [] ∧ enginePending wcHost = false ∧ depotPending wcHost = false ∧ hartItems wcHost = []
      ∧ wc.canRead 2 = true ∧ wc.canReadSrc (.reg 3) = true ∧ (t.coreOf (word.key / 2 ^ 30)).fenced = false)
    ∧ wc.finds .fsig .store (wc.reg 2) 4 word t
    ∧ (wfb.hart.deferred = [] ∧ wfb.canRead 2 = true ∧ wfb.canReadSrc (.imm 0) = true ∧ wfb.canRead 3 = true
      ∧ wfb.hart.posted = 0)
    ∧ (wit.hart.deferred = [] ∧ ((hartItems wit).filter fun i => i.dst == fabricPkg (wit.reg 2)) ≠ []
      ∧ ∀ i ∈ (hartItems wit).filter (fun i => i.dst == fabricPkg (wit.reg 2)), i.failed = none)
    ∧ (wrs.hart.deferred = [] ∧ wrs.hart.pair = none ∧ wrs.canRead 2 = true
      ∧ wrs.hart.resp.head?.map Prod.snd = some (.value 0x99))
    ∧ locate .scalar .store (wfb.reg 2 + wfb.src (.imm 0)) 8 none none wfb = .ok .remote wfb
    ∧ locate .fsig .store (wit.reg 2) 8 none none wit = .ok .remote wit
    ∧ locate .scalar .load (wrs.reg 2 + wrs.src (.imm 3)) 1 none none wrs = .ok .remote wrs :=
  ⟨by decide +kernel, finds_of (by decide +kernel), by decide +kernel, by decide +kernel, by decide +kernel,
    ok_here (by decide +kernel), ok_here (by decide +kernel), ok_here (by decide +kernel)⟩

/-- Two harts of one convoy, of which the other waits at the instruction. -/
def two (i : Instr) : State :=
  let s := wc.setConvoy { wc.convoy with size := 2, members := [(0, 0), (1, 1)], arrived := 2 }
  s.setHartOf 1 { Hart.reset with
    convoy := 0, hidx := 1, status := .waiting i, pc := 0x10002, csr := { Csrs.reset with vl := 4, vstart := 2 } }
/-- One hart alone at a cluster barrier, and one that completes it. -/
def wcb : State := withRegs [(12, 1)] wc
def wcb2 : State := let s := withRegs [(12, 2)] (two (.cbar ⟨3, 12⟩))
  s.setClusterOf 0 { s.clusterOf 0 with cbars := [(3, ⟨2, 0, [1]⟩)] }
abbrev barrierReady (s : State) : Prop :=
  s.cur ∈ participants s s.hart.convoy ∧ (participants s s.hart.convoy).Nodup ∧ s.hart.waitsAt = none ∧ s.performed
    ∧ ∀ g ∈ participants s s.hart.convoy, (s.hartOf g).convoy = s.hart.convoy ∧ (s.hartOf g).deferred = []
abbrev clusterReady (s : State) (x : SPair) : Prop :=
  let n := (s.reg x.a).toNat
  let cnt := (s.reg x.b).toNat
  let b := (s.clusterOf (s.coreId / 8)).cbar n
  let all := b.waiting ++ [s.cur]
  s.canRead x.a = true ∧ s.canRead x.b = true ∧ n ≤ 15 ∧ 1 ≤ cnt ∧ cnt ≤ 64
    ∧ (b.count = 0 ∧ b.waiting = [] ∧ cnt = 1 ∨ b.count = cnt ∧ b.asid = s.ctx.asid)
    ∧ all.length = cnt ∧ all.Nodup ∧ s.performed ∧ ∀ g ∈ all, (s.hartOf g).deferred = []
theorem witness_BarrierResults :
    (barrierReady wc ∧ participants wc wc.hart.convoy = [0])
    ∧ (barrierReady (two .bar) ∧ participants (two .bar) 0 = [0, 1] ∧ arrival (two .bar) 1 = some .bar)
    ∧ (barrierReady (two (.vcfg ⟨3, 1, 2⟩)) ∧ arrival (two (.vcfg ⟨3, 1, 2⟩)) 1 = some (.vcfg ⟨3, 1, 2⟩))
    ∧ clusterReady wcb ⟨3, 12⟩ ∧ clusterReady wcb2 ⟨3, 12⟩ :=
  ⟨by decide +kernel, by decide +kernel, by decide +kernel, by decide +kernel, by decide +kernel⟩

/-! ### Counters, queues, launches -/

/-- Queue 2 full; a convoy posted by convoy 1. -/
def wFullQueue : State := wc.setConvoy { wc.convoy with q := wc.convoy.q.set 2 (List.replicate 16 5) }
def wPosted : State := (wc.setConvoy { wc.convoy with poster := some (1, 0) }).setConvoyOf 1 { Convoy.reset with core := some 0 }
theorem witness_CounterQueueResults :
    (wc.canReadSrc (.imm 0) = true ∧ (wc.srcZ (.imm 0)).toNat ≤ (wc.convoy.k[(2 : KName)]).toNat
      ∧ (wc.srcZ (.imm 9)).toNat < 2 ^ 63 ∧ wc.settled
      ∧ wc.canReadSrc (.reg 3) = true ∧ (wc.convoyOf wc.hart.convoy).q[(2 : QName)].length < 16 ∧ wc.performed)
    ∧ (∃ k, wPosted.convoy.poster = some (1, k))
    ∧ ((mget wPosted.convoys 1).isSome = true ∧ (wPosted.convoyOf 1).ended = false
      ∧ (wPosted.convoyOf 1).core = some wPosted.coreId
      ∧ (wPosted.convoyOf 1).q[(2 : QName)].length < 16 ∧ wPosted.performed)
    ∧ 16 ≤ (wFullQueue.convoyOf wFullQueue.hart.convoy).q[(2 : QName)].length
    ∧ wFullQueue.convoy.q[(2 : QName)] = 5 :: List.replicate 15 5 ∧ qgetBehind wFullQueue 2 = false
    ∧ wFullQueue.convoy.q[(3 : QName)] = [] := by
  refine ⟨by decide +kernel, ⟨0, by decide +kernel⟩, by decide +kernel⟩

/-- A launch packet at s2, and the rest of a gang's block after it; queue 3 is bound to the virtual device. -/
def packetWords : List Nat := [0x10000, 10, 2 + 2 ^ 16 + 2 ^ 24 + 0x77 * 2 ^ 32, 1, 2, 3, 4, 5]
def wlq : State :=
  let s := withRegs [(2, 0x10140), (13, 3), (14, 0x10300)] wc
  let s := s.setQueueOf 3 { LQueue.reset with bind := some (1, 0, 0) }
  let s := s.setCtxOf 0 { s.ctx with fcid := 9 }
  { s with mem := memWriteBytes (memWriteBytes (memWriteBytes s.mem 0x10140 (packetWords.flatMap (toBytes 8)))
    0x10180 (toBytes 8 (1 + 2 ^ 32))) 0x10188 (toBytes 4 0 ++ toBytes 4 5) }
def wlt : State := blockEnd 0x10140 packetWords wlq
def wlu : State := ((readAt (0x10140 + 64) 8 wlt).map Prod.snd).getD wlt
def wPlanes : List (Nat × Nat) := [(0, 0), (1, 5)]
def wlv : State := (chain (readStep (fun i => 0x10140 + BitVec.ofNat 64 (72 + 4 * i)) 4 wPlanes) (List.range 2) wlu).getD wlu
def wBlock : GangBlock := ⟨Packet_.ofWords packetWords, 1 + 2 ^ 32, [0, 5]⟩
theorem wlu_reads : State.reads (0x10140 + 64) 8 (1 + 2 ^ 32) wlt wlu := by
  have h : (readAt (0x10140 + 64) 8 wlt).map Prod.fst = some (1 + 2 ^ 32) := by decide +kernel
  obtain ⟨⟨v, t⟩, e, hv⟩ := Option.map_eq_some_iff.mp h
  have : wlu = t := by rw [wlu, e]; rfl
  rw [this, ← hv]
  exact readAt_of e
theorem wlv_reads : State.Each (fun (i : Nat) a b => State.reads (0x10140 + BitVec.ofNat 64 (72 + 4 * i)) 4
  ((mget wPlanes i).getD 0) a b)
    (List.range 2) wlu wlv := by
  have h : (chain (readStep (fun i => 0x10140 + BitVec.ofNat 64 (72 + 4 * i)) 4 wPlanes) (List.range 2) wlu).isSome = true := by
    decide +kernel
  obtain ⟨t, e⟩ := Option.isSome_iff_exists.mp h
  have : wlv = t := by rw [wlv, e]; rfl
  rw [this]
  exact each_of (readStep_of _ _ _) _ _ _ e
theorem witness_LaunchResults :
    (wlq.canRead 2 = true ∧ wlq.canRead 13 = true ∧ wlq.canRead 14 = true ∧ wlq.reg 2 = 0x10140 ∧ (wlq.reg 2).toNat % 64 = 0
      ∧ (wlq.reg 14).toNat % 8 = 0)
    ∧ wlq.readsBlock 0x10140 packetWords wlt
    ∧ (liveQueue wlq (wlq.reg 13) = some (1, 0) ∧ Packet_.ok (Packet_.ofWords packetWords) 1 = true ∧ heldFirst wlt 0 = false
      ∧ routeRoom (wlt.ctxOf 0) 1 = true ∧ queueFill wlt (wlq.reg 13).toNat < 64 ∧ wlq.settled)
    ∧ ((wlq.reg 13).toNat ≤ 255 ∧ wlq.ctx.fcid ≠ 0 ∧ wBlock.ok = true ∧ wlq.idleAt .system)
    ∧ State.reads (0x10140 + 64) 8 (1 + 2 ^ 32) wlt wlu
    ∧ State.Each (fun (i : Nat) a b => State.reads (0x10140 + BitVec.ofNat 64 (72 + 4 * i)) 4 ((mget wPlanes i).getD 0) a b)
        (List.range 2) wlu wlv
    ∧ (wlq.convoy.cls = 0 ∨ wanted wlq wlq.hart.convoy wlq.coreId false = false)
    ∧ (wlq.hart.mma = [] ∧ wlq.hart.deferred = [] ∧ hartItems wlq = [] ∧ wlq.hart.flushFault = none) :=
  ⟨by decide +kernel, readsBlock_of (by decide +kernel) (by decide +kernel), by decide +kernel, by decide +kernel, wlu_reads,
    wlv_reads, by decide +kernel, by decide +kernel⟩

/-! ### Exceptions, special registers, system instructions -/

def wHandler (s : State) : State := s.setHart { s.hart with csr := { s.hart.csr with tvec := 0x10000, xpc := 0x10000, xstat := 0 } }
theorem witness_TrapReturn :
    (let s := wHandler (sup w0);
      s.hart.mode = .supervisor ∧ checkReturn s.hart.csr.xpc s = .ok () (endOf (checkReturn s.hart.csr.xpc s)))
    ∧ ∃ t v : State, exec (.trap 7) (wHandler w0) = .next t ∧ checkReturn (nextSlot (wHandler w0).hart.pc)
      (t.setHart { t.hart with status := .running }) = .ok () v := by
  refine ⟨⟨by decide +kernel, ok_end (by decide +kernel)⟩, nextOf (exec (.trap 7) (wHandler w0)), _, next_of (by decide +kernel),
    ok_end (by decide +kernel)⟩
theorem witness_ExceptionEntry : lineOf (wHandler w0).hart.csr.tvec ≠ 0 ∧ lineOf w0.hart.csr.tvec = 0 := by decide +kernel
theorem witness_PrivilegedAndReserved : w0.hart.mode = .user ∧ 0x800 ≤ (0x800 : BitVec 12).toNat := by decide +kernel
theorem witness_CsrResults :
    (csrRead w0 6 = some 0 ∧ w0.canRead 3 = true ∧ (6 : Nat) < 0x400)
    ∧ (csrRead w0 8 = some 0 ∧ (w0.reg 3).toNat % 8 ≤ 4)
    ∧ (w0.hart.mma = [] ∧ csrRead w0 7 = some 0)
    ∧ ((sup w0).hart.mode = .supervisor ∧ csrRead (sup w0) 0x810 ≠ none ∧ ¬(0x810 : Nat) < 0x800) := by decide +kernel

/-- The supervisor view, the order log on, a TLB entry of another ASID. -/
def wsys : State :=
  let s := sup wc
  let s := s.setCtxOf 0 { s.ctx with order := { Log.reset with base := 0x100, head := 0x140, limit := 0x200, en := true } }
  let s := s.setCore { s.core with tlb := s.core.tlb ++ [⟨3, 0x20000, 0x2003F⟩] }
  withRegs [(12, 0x400), (13, 0x500)] s
theorem witness_SystemResults :
    (wsys.hart.mode = .supervisor ∧ wsys.settled ∧ (∀ p ∈ wsys.harts, p.2.deferred = [])
      ∧ (∀ c ∈ wsys.convoys, ∀ o ∈ c.2.out, o.2.deferred = []) ∧ (∀ i ∈ wsys.items, flagKey i = none)
        ∧ wsys.canRead 3 = true ∧ wsys.canRead 12 = true)
    ∧ (wsys.ctx.order.pending = [] ∧ wsys.ctx.route.pending = [] ∧ wsys.ctx.order.held = 0 ∧ wsys.ctx.route.held = 0
      ∧ (∀ d ∈ wsys.hart.deferred, d.place = none) ∧ (wsys.reg 12).toNat % 16 = 0 ∧ (wsys.reg 13).toNat % 16 = 0
      ∧ (wsys.reg 12).toNat ≤ (wsys.reg 13).toNat ∧ wsys.canRead 13 = true
      ∧ wsys.ctx.order.en = true ∧ wsys.ctx.order.room 1 = true ∧ (sup wc).ctx.order.en = false ∧ wsys.hart.mma = [])
    ∧ (let t := found wc .wfe .load (wc.reg 2) 4
      wc.finds .wfe .load (wc.reg 2) 4 word t
        ∧ (dataError t word.key = none ∧ memReadN wc.mem word.key 4 ≠ (wc.reg 5).toNat % 2 ^ 32
          ∧ wc.canRead 2 = true ∧ wc.canRead 5 = true)) :=
  ⟨by decide +kernel, by decide +kernel, finds_of (by decide +kernel), by decide +kernel⟩

/-! ### Waits that end -/

def waiting (i : Instr) (s : State) : State := s.setHart { s.hart with status := .waiting i }
def wBytes : State := wc.setConvoy (wc.convoy.setSq 1 (List.replicate 30 7))
/-- A monitor whose granule has been written, and one that has waited. -/
def wMonitor : State :=
  let s := waiting (.wfe ⟨7, 2, 5⟩) wc
  { s.setHart { s.hart with armed := some (0x808, 1) } with now := 10000000 }
/-- A booted package whose one hart is at the word. -/
def wRun (w : IWord) : State :=
  withRegs [(1, 0x10000), (2, 0x10100)] { w0.withFetchWord 96 w.toNat with power := .active, bootPhase := 5 }
/-- A line of five words, `pairs` its pair bits, its parities even. -/
def lineOf5 (ws : List IWord) (pairs : Nat) : List Byte :=
  let parity (n x : Nat) : Nat := ((List.range n).map fun i => x / 2 ^ i % 2).sum % 2
  let p := (ws.zipIdx.map fun w => parity 96 w.1.toNat * 2 ^ (13 + w.2)).sum + pairs * 2 ^ 18
  ws.flatMap (fun w => toBytes 12 w.toNat) ++ toBytes 4 (p + parity 20 (p / 2 ^ 12) * 2 ^ 12)
/-- The same at a line. -/
def wLine (ws : List IWord) (pairs : Nat) : State :=
  let s := wRun 0
  let bs := lineOf5 ws pairs
  { s with mem := memWriteBytes s.mem 0x10000 bs }.setHart { s.hart with code := memWriteBytes s.hart.code 0x10000 bs }
/-- A tile access that stalled, whose slot is ready now. -/
def tileForm : VMem := ⟨.i32, 6, 2, 0, false, 0⟩
def wStalled (i : Instr) : State :=
  let s := withRegs [(2, 0xC000000000000000)] (State.reset.withFetchWord 96 ((encode i).headD 0).toNat)
  let s := s.setCore (s.core.setTile 0 { tag := 77, owner := some 0, state := .ready, susp := false, hidden := false })
  s.setHart { s.hart with status := .stalled, csr := { s.hart.csr with vl := 3, vstart := 1 } }
def wFetched (i : Instr) : State := (fetchUnit { wStalled i with cur := 0 }).2
abbrev fetches (i : Instr) : Prop := (wStalled i).hart.status = .stalled ∧ mget (wStalled i).harts 0 = some (wStalled i).hart
  ∧ fetchUnit { wStalled i with cur := 0 } = (.one i, wFetched i)
/-- Two `mma` of one hart outstanding. -/
def pending0 : PendingMma :=
  let x : Mma := ⟨1, 4, 4, 0, .f16, false, false, false, ⟨1, 1, 1, 0, false⟩, ⟨2, 1, 1, 0, false⟩⟩
  ⟨x, mmaGroup wv.hart .f16 4 x.sa, mmaGroup wv.hart .f16 4 x.sb, 0, 0, 0⟩
def wPending : State := wv.setHart { wv.hart with acc := wv.hart.acc.set 1 (some ⟨0, 2, 3, false, 0⟩), mma := [pending0, pending0] }
/-- A convoy of one hart that waits at a counter nothing will change. -/
def wStuck : State := waiting (.wait ⟨7, 2, .imm 5⟩) (wc.setConvoy { wc.convoy with members := [(0, 0)], size := 1 })
def wWaitingPdot : State := let s := waiting (.pdot pdotForm) wBank
  { s with now := 2000000, cur := 0 }
/-- A pair of an addition and a `pdot`, held for 2 µs. -/
def pairedAdd : Instr := .add ⟨.w64, 6, 3, .imm 0x40⟩
def wHeldPdot : State :=
  let s := wLine [(encode pairedAdd).headD 0, (encode (.pdot pdotForm)).headD 0, 0, 0, 0] 1
  { s.setHart { s.hart with status := .stalled } with now := 2000000 }
theorem witness_WakeResults :
    (let s := waiting (.wait ⟨7, 2, .imm 0⟩) wc;
      mget s.harts 0 = some s.hart ∧ (s.convoyOf s.hart.convoy).leaving = false ∧ s.hart.status = .waiting (.wait ⟨7, 2, .imm 0⟩)
        ∧ (s.srcZ (.imm 0)).toNat ≤ (s.convoy.k[(2 : KName)]).toNat)
    ∧ (let s := waiting (.qget ⟨7, 2, none⟩) wFullQueue;
      s.hart.status = .waiting (.qget ⟨7, 2, none⟩) ∧ s.convoy.q[(2 : QName)] = 5 :: List.replicate 15 5 ∧ qgetBehind s 2 = false)
    ∧ (let s := waiting (.qput ⟨2, .reg 3, false, none⟩) wc;
      s.hart.status = .waiting (.qput ⟨2, .reg 3, false, none⟩) ∧ s.canReadSrc (.reg 3) = true
        ∧ s.convoy.q[(2 : QName)].length < 16 ∧ s.performed)
    ∧ (let s := waiting (.vspush ⟨.i32, 1, 7, 4, 2⟩) wc;
      s.hart.status = .waiting (.vspush ⟨.i32, 1, 7, 4, 2⟩) ∧ s.fits .i32 [4]
        ∧ s.convoy.sq[1].length + (s.active 2).length * 4 ≤ 8192)
    ∧ (let s := waiting (.vspop ⟨.i32, 6, 8, 1, 2, false⟩) wBytes;
      s.hart.status = .waiting (.vspop ⟨.i32, 6, 8, 1, 2, false⟩) ∧ s.fits .i32 [6]
        ∧ (s.active 2).length * 4 ≤ s.convoy.sq[1].length ∧ (s.active 2).length * 4 ≤ 8192
        ∧ s.convoy.sqPoison[1] = [])
    ∧ (wMonitor.hart.status = .waiting (.wfe ⟨7, 2, 5⟩) ∧ wfeWritten wMonitor.hart = true
      ∧ wMonitor.hart.stamp + 10000000 ≤ wMonitor.now ∧ (wMonitor.convoyOf wMonitor.hart.convoy).leaving = false)
    ∧ (mget wPending.harts 0 = some wPending.hart ∧ wPending.hart.mma = pending0 :: [pending0])
    ∧ (deadlocked wStuck 0 = true ∧ lowestParticipant wStuck 0 = some 0) := by
  and_intros <;> decide +kernel
/-- Each form of a stalled tile access, and a `pdot` whose banks are idle or that has waited 2 µs, alone and in a pair. -/
theorem witness_WakeResults_performed :
    (fetches (.vldt tileForm) ∧ boundFill (wFetched (.vldt tileForm)) 0 0 = false
      ∧ (wFetched (.vldt tileForm)).core.tilePoison = []
      ∧ fetches (.vstt tileForm)
      ∧ fetches (.twait ⟨7, 3⟩) ∧ (wFetched (.twait ⟨7, 3⟩)).canRead 3 = true
      ∧ ((wFetched (.twait ⟨7, 3⟩)).reg 3).toNat ≤ 255
      ∧ (let t := (wFetched (.twait ⟨7, 3⟩)).core.tile ((wFetched (.twait ⟨7, 3⟩)).reg 3).toNat
        t.hidden = false ∧ t.busy = false)
      ∧ isTileAccess (.vldt tileForm) = true
      ∧ ((nextOf (exec (.vldt tileForm) (wFetched (.vldt tileForm)))).hartOf 0).status ≠ .stalled)
    ∧ (wFetched (.vldt tileForm)).inTile tileForm 0 ∧ (wFetched (.vstt tileForm)).inTile tileForm 0
    ∧ exec (.vldt tileForm) (wFetched (.vldt tileForm)) = .next (nextOf (exec (.vldt tileForm) (wFetched (.vldt tileForm))))
    ∧ (let u := wWaitingPdot
      (u.hart.status = .waiting (.pdot pdotForm) ∧ mget u.harts 0 = some u.hart ∧ u.hart.stamp + 2000000 ≤ u.now ∧ u.clean
        ∧ bankSet (u.reg 10) = [0, 2] ∧ (u.reg 2).toNat % 64 = 0 ∧ pdotBusy u.hart.aged u.core (u.reg 10) = false ∧ u.calm)
      ∧ pdotCheck (u.reg 2) pdotForm [0, 2] u = .ok (pdotPlaces u) (endOf (pdotCheck (u.reg 2) pdotForm [0, 2] u)))
    ∧ (wHeldPdot.hart.status = .stalled ∧ wHeldPdot.hart.stamp + 2000000 ≤ wHeldPdot.now
      ∧ fetchUnit { wHeldPdot with cur := 0 } =
        (.pair pairedAdd (.pdot pdotForm), (fetchUnit { wHeldPdot with cur := 0 }).2)) :=
  ⟨by decide +kernel, by unfold State.inTile; decide +kernel, by unfold State.inTile; decide +kernel, next_of (by decide +kernel),
    ⟨by decide +kernel, ok_end (by decide +kernel)⟩, by decide +kernel⟩

/-! ### Engines, logs, ends of harts -/

def wLog : State := let s := mapped wc
  s.setCtxOf 0 { s.ctxOf 0 with order := { Log.reset with
    base := 0x10100, head := 0x10110, limit := 0x10200, en := true, pending := [⟨0x10100, 0x1234⟩] } }
/-- A copy of four bytes from `src` to 0x10110, of one chunk that is done or not. -/
def copyOf (src : Word) (done : List Nat) : Transfer :=
  { id := 5, kind := .cpy, convoy := 0, hidx := 0, ctx := 0, view := .user, cls := 1, k := 2, mask := none, dst := 0x10110, src := src
    total := 4, row := 4, dpitch := 0, spitch := 0, slot := 0, chunk := 1024, done := done, written := 0, cl := none,
      susp := false
    fault := none, acks := [], gang := none, failed := none }
def wCopy (src : Word) (done : List Nat) (bad : List Nat) : State :=
  let s := { wc with poison := bad }
  s.setCore { s.core with transfers := [copyOf src done] }
/-- A copy with a chunk that waits for another package, and one that has failed. -/
def askedCopy : Transfer := { copyOf 0x10100 [] with acks := [0] }
def failedCopy : Transfer := { copyOf 0x10100 [] with failed := some (0x14, 0x10100) }
def wCopies (t : Transfer) : State := wc.setCore { wc.core with transfers := [t] }
def failsAs (s : State) (t : Transfer) : Option (BitVec 8 × Word) := (transferFails s 0 t).map Prod.fst
theorem fails_as {s : State} {t : Transfer} {f : BitVec 8 × Word} (h : failsAs s t = some f) :
    ∃ u, transferFails s 0 t = some (f, u) := by
  obtain ⟨⟨g, u⟩, e, rfl⟩ := Option.map_eq_some_iff.mp h
  exact ⟨u, e⟩
theorem witness_EngineResults :
    (let s := wCopy 0x10100 [] [];
      let t := copyOf 0x10100 [];
      (findTransfer s 0 5 = some t ∧ t.mayMove 0 = true ∧ t.acks.contains 0 = false)
        ∧ moveChunk 0 t 0 s = .ok 4 (endOf (moveChunk 0 t 0 s)))
    ∧ (findTransfer (wCopies askedCopy) 0 5 = some askedCopy ∧ askedCopy.mayMove 0 = true ∧ askedCopy.acks.contains 0 = true
      ∧ chunkItems (wCopies askedCopy) 0 askedCopy 0 = []
      ∧ findTransfer (wCopies failedCopy) 0 5 = some failedCopy ∧ failedCopy.failed = some (0x14, 0x10100))
    ∧ (let s := wCopy 0x10100 [0] [];
      let t := copyOf 0x10100 [0];
      findTransfer s 0 5 = some t ∧ t.runs = true ∧ t.isOver = true)
    ∧ (let s := wCopy 0x10100 [] [0x808];
      let t := copyOf 0x10100 [];
      (findTransfer s 0 5 = some t ∧ t.failed = none ∧ t.runs = true) ∧ ∃ u, transferFails s 0 t = some ((0x14, 0x10100), u))
    ∧ (let s := wCopy 0x1000000000000 [] [];
      let t := copyOf 0x1000000000000 [];
      findTransfer s 0 5 = some t ∧ transferSoft s 0 t = some (0x06, 0x1000000000000))
    ∧ (mget wc.convoys 0 = some wc.convoy ∧ wc.convoy.ended = false ∧ wc.convoy.record = none
      ∧ (wLog.ctxOf 0).order.pending = ⟨0x10100, 0x1234⟩ :: [] ∧ (wLog.ctxOf 0).order.fault = none
      ∧ entryOwed wLog 0 0x10100 = false)
    ∧ logWrite 0 ⟨0x10100, 0x1234⟩ wLog = .ok () (endOf (logWrite 0 ⟨0x10100, 0x1234⟩ wLog)) :=
  ⟨⟨by decide +kernel, ok_end (by decide +kernel)⟩, by decide +kernel, by decide +kernel,
    ⟨by decide +kernel, fails_as (by decide +kernel)⟩, by decide +kernel, by decide +kernel, ok_end (by decide +kernel)⟩
/-- A hart that ends, in the step `n` of its end, posted by convoy 1 with its start handle and with its status at `at_`. -/
def wEnding (n : Nat) (at_ : Word) : State := let s := mapped wc
  (s.setHart { s.hart with
    status := .ending 9 n, start := some handle,
      join := { s.hart.join with status := at_, counter := some (1, 2) } }).setConvoyOf 1
      { Convoy.reset with core := some 0 }
def statusWrite (s : State) : EStateM.Result EngStop State Unit :=
  engWrite (some 0) s.hart.join.ctx s.hart.join.view .device s.hart.join.status 8 9 s
def faultOf {α : Type} (r : EStateM.Result EngStop State α) : Option (BitVec 8 × Bool × Word) :=
  match r with
  | .error (.fault c soft va) _ => some (c, soft, va)
  | _ => none
theorem fault_end {α : Type} {r : EStateM.Result EngStop State α} {c : BitVec 8} {soft : Bool} {va : Word}
    (h : faultOf r = some (c, soft, va)) : r = .error (.fault c soft va) (endOf r) := by
  unfold faultOf at h
  split at h
  · simp only [Option.some.injEq, Prod.mk.injEq] at h
    obtain ⟨rfl, rfl, rfl⟩ := h
    rfl
  · contradiction
/-- A report that is owed for a hart without a slot. -/
def late0 : Late := { id := 4, ctx := 0, convoy := 7, hidx := 0, join := Join.none, status := 0xFF, core := 0, fault := none }
abbrev endsIn (s : State) (n : Nat) : Prop := mget s.harts 0 = some s.hart ∧ s.hart.status = .ending 9 n
theorem witness_HartEndResults :
    (endsIn (wEnding 1 0) 1 ∧ ((wEnding 1 0).harts.map Prod.fst).Nodup
      ∧ (∀ d ∈ (wEnding 1 0).hart.deferred, isFabric d.va = false ∧ d.place = none) ∧ hartItems { wEnding 1 0 with cur := 0 } = []
      ∧ endsIn (wEnding 10 0) 10
      ∧ owesStores (wEnding 10 0) 0 9 = false ∧ endsIn (wEnding 2 0) 2 ∧ (wEnding 2 0).hart.join.status = 0
      ∧ endsIn (wEnding 3 0) 3)
    ∧ (endsIn (wEnding 2 0x10100) 2 ∧ (wEnding 2 0x10100).hart.join.status ≠ 0 ∧ endsIn (wEnding 2 0x40000000) 2
      ∧ endsIn (wEnding 2 0xC000000000000000) 2 ∧ (wEnding 2 0xC000000000000000).hart.join.counter = some (1, 2))
    ∧ statusWrite (wEnding 2 0x10100) = .ok () (endOf (statusWrite (wEnding 2 0x10100)))
    ∧ statusWrite (wEnding 2 0x40000000) =
      .error (.fault 0x07 true 0x40000000) (endOf (statusWrite (wEnding 2 0x40000000)))
    ∧ statusWrite (wEnding 2 0xC000000000000000) =
      .error (.fault 0x09 false 0xC000000000000000) (endOf (statusWrite (wEnding 2 0xC000000000000000)))
    ∧ (let s := wEnding 3 0
      s.hart.join.gang = none ∧ (1 : Nat) ≠ s.hart.convoy ∧ mget s.convoys 1 = some (s.convoyOf 1) ∧ (s.convoyOf 1).record = none
        ∧ (s.convoyOf 1).ended = false ∧ s.hart.start = some handle
          ∧ ((s.coreOf 0).windowOf (s.convoyOf s.hart.convoy).ctx).isSome = true
        ∧ ((s.coreOf 0).windowOf (s.convoyOf s.hart.convoy).ctx).all (fun w => w.2.valid handle) = true)
    ∧ (let s := { wc with lates := [late0] }
      s.lates.find? (fun l => l.id == 4 && l.fault.isNone) = some late0 ∧ late0.join.status = 0
        ∧ ∀ i ∈ s.items, ¬(i.convoy = late0.convoy ∧ i.hidx = late0.hidx)) :=
  ⟨by decide +kernel, by decide +kernel, ok_end (by decide +kernel), fault_end (by decide +kernel), fault_end (by decide +kernel),
    by decide +kernel, by decide +kernel⟩

/-! ### The dispatcher and the host -/

def launchPacket : BitVec 512 := BitVec.ofNat 512 (0x10000 + 100 * 2 ^ 64 + 2 * 2 ^ 128 + 3 * 2 ^ 144)
/-- Booted, cluster 0 and queue 3 given to virtual device 0, whose function is 1. -/
def wHost : State :=
  let s := mapped { wc with power := .active, bootPhase := 5 }
  let s := s.setQueueOf 3 { LQueue.reset with bind := some (0, 0, 0) }
  let s := s.setClusterOf 0 { Cluster.reset with vdev := some 0 }
  s.setFnOf 1 { s.fnOf 1 with vdev := some 0, wbase := 0x10000, busy := true, intcause := 0xF, args := Vector.replicate 6 9 }
def wQueued : State := nextOf (exec (.hostLaunchWrite 1 3 launchPacket) wHost)
def wPost : State := wHost.setCore { wHost.core with posts := [⟨handle, 0, 0, 2, (0, 0), 0, .user, true, 0, 0, false, false, 0, none⟩] }
/-- The route log has no room. -/
def wLogFull : State := wHost.setCtxOf 0 { wHost.ctxOf 0 with
  route := { Log.reset with base := 0x100, head := 0x200, limit := 0x200, en := true } }
abbrev takesPacket (s : State) (p : BitVec 512) (valid room : Bool) : Prop :=
  let u := wakeUp s
  fnServed s 1 = true ∧ fnReaches s 1 (queueVdev s 3) = true ∧ (∀ r ∈ u.queues, heldReady u r.1 = false)
    ∧ (u.queueOf 3).held = [] ∧ (u.queueOf 3).bind = some (0, 0, 0)
    ∧ queueLive u (u.queueOf 3) = some 0 ∧ Packet_.ok p 0 = valid ∧ queueFill u 3 < queueDepth ∧ routeRoom (u.ctxOf 0) 1 = room
theorem witness_HostAccessResults :
    takesPacket wHost launchPacket true true ∧ takesPacket wHost 0 false true ∧ takesPacket wLogFull launchPacket true false
    ∧ (barRange wHost 1 0x100 16 = true ∧ (wHost.fnOf 1).busy = true ∧ (2 ^ 63 : Word).getLsbD 63 = true
      ∧ fnServed wHost 0 = true ∧ (wHost.fnOf 0).busy = false ∧ (∀ i < 8, regReach wHost 1 (0x100 + i) = true)
      ∧ fnReaches wHost 1 (wHost.clusterOf 0).vdev = true)
    ∧ fnServed { wHost with power := .off } 1 = false
    ∧ (fnServed { wHost with bootPhase := 2 } 1 = false ∧ wHost.power ≠ .off ∧ (wHost.fnOf 1).vdev.isSome = true)
    ∧ wHost.bootPhase = 5 := by and_intros <;> decide +kernel

/-- A command of function 1 at the head. -/
def cmd (op : BitVec 8) (a : List Word) (code : Option (BitVec 8) := none) : Command := ⟨1, op, 0,
  Vector.ofFn fun i => a.getD i.val 0, code⟩
def wCmd (c : Command) (s : State := wHost) : State := { s with commands := [c] }
def wHalted : State := wHost.setHart { wHost.hart with status := .halted }
def wKilled : State := { wHost.setCtxOf 0 { wHost.ctxOf 0 with killed := true } with harts := [], convoys := [] }
def wGranted (v : Nat) : State := wHost.setRegionOf 513 { wHost.regionOf 513 with grant := some v }
theorem witness_HostCommandResults :
    (let s := wHost.setQueueOf 3 { wHost.queueOf 3 with held := [launchPacket] };
      (s.queueOf 3).held = [launchPacket] ∧ (s.queueOf 3).bind = some (0, 0, 0) ∧ queueLive s (s.queueOf 3) = some 0
        ∧ Packet_.ok launchPacket 0 = true ∧ queueFill s 3 < queueDepth ∧ routeRoom (s.ctxOf 0) 1 = true)
    ∧ ((wCmd (cmd 1 [] (some 3))).commands = cmd 1 [] (some 3) :: [] ∧ wHost.power ≠ .off)
    ∧ (let c := cmd 1 [0x1234567, 0x89ABCDE, 0x123457, 0x77777, 0x0000051234510003];
      c.code = none ∧ c.fn = 1 ∧ c.args[4].extractLsb' 17 3 = 0#3 ∧ c.args[4].extractLsb' 43 21 = 0#21
        ∧ c.args[1].toNat < 2 ^ 38)
    ∧ (let c := cmd 2 [3, 6, 0];
      contextArg (wCmd c) c.vdev c.args[2] = some 0 ∧ c.args[0].toNat < 256 ∧ c.args[1].toNat < 8
        ∧ queueVdev (wCmd c) c.args[0].toNat = some c.vdev ∧ ((wCmd c).queueOf 3).held = [] ∧ ((wCmd c).queueOf 3).entries = []
        ∧ (wQueued.queueOf 3).held = [] ∧ (wQueued.queueOf 3).entries ≠ [])
    ∧ ((wHost.regionOf 513).grant = none ∧ ((wGranted 0).regionOf 513).grant = some 0)
    ∧ ((wGranted 0).regionOf 513).cmds = [] ∧ ((wGranted 0).regionOf 513).busyDone = []
      ∧ ((wGranted 2).regionOf 513).grant = some 2
    ∧ (mget wKilled.contexts 0 = some (wKilled.ctxOf 0) ∧ (wKilled.ctxOf 0).vdev = 0 ∧ (wKilled.ctxOf 0).killed = true
      ∧ killOver wKilled 0 = true)
    ∧ (pendingThrough 0 (fun _ => true) wHost = false ∧ pendingThrough 0 (tlbCovers 0 0x10000) wHost = false
      ∧ (cmd 5 [2, 0x10000, 0]).args[2].toNat < 2 ^ 16 ∧ 2 ^ 16 ≤ (cmd 5 [1, 0, 0x10000]).args[2].toNat)
    ∧ ((cmd 6 [0]).args[1].toNat < 2 ^ 62 ∧ haltedHart (wCmd (cmd 6 [1])) 0 1 = none
      ∧ haltedHart (wCmd (cmd 6 [0]) wHalted) 0 0 = some wHalted.hart ∧ wHalted.hart.mma = [])
    ∧ ((cmd 8 [255]).args[0].toNat ≤ 256 ∧ (cmd 10 [2400]).args[0].toNat = 2400)
    ∧ ((cmd 9 [7, 0xFF]).args[1] = 0xFF ∧ clusterContexts (wCmd (cmd 9 [7, 0xFF])) 7 = []) := by
  and_intros <;> decide +kernel

/-! ### Errors and power -/

def wBooting (n : Nat) (f : BitVec 4) : State := { wHost with bootPhase := n, bootFail := f }
theorem witness_PackageErrorEvents :
    (wHost.power ≠ .off ∧ wHost.bootFail = 0 ∧ wHost.power = .active ∧ wHost.bootPhase = 5)
    ∧ ((wBooting 2 0).bootPhase = 2 ∧ (wBooting 3 0).bootPhase = 3 ∧ (wBooting 4 0).bootPhase = 4 ∧ (wBooting 2 2).bootFail ≠ 0)
    ∧ ({ wHost with harts := [] } : State).atWork = false ∧ ({ wHost with power := .idle } : State).power = .idle
    ∧ (1250 ≤ wHost.clockMHz ∧ wHost.clockMHz ≤ 2500)
    ∧ isVault (0x808 * 32) = true ∧ mget wHost.harts 0 = some wHost.hart ∧ 0 < (wHost.coreOf 0).tlb.length
    ∧ (let s := { wHost with baseTlb := [(1, [(0, ⟨0, 0x10000, 0x1003F⟩)])] }
      mget s.baseTlb 1 = some [(0, ⟨0, 0x10000, 0x1003F⟩)])
    ∧ ((wHost.coreOf 0).fenced = false ∧ mget wHost.harts (8 * 0 + 0) = some wHost.hart ∧ isEnding wHost.hart = false) := by
  and_intros <;> decide +kernel
/-- Regions 5, 6 and 7 open, erasing and sealed. -/
def wRegions : State :=
  let s := wHost.setRegionOf 5 { Region.reset with wear := 3, units := 5, state := .open_ }
  let s := s.setRegionOf 6 { Region.reset with wear := 4, units := 9, state := .erasing }
  s.setRegionOf 7 { Region.reset with units := 1, state := .sealed }
theorem witness_PowerLossRegions :
    mget wRegions.regions 5 = some (wRegions.regionOf 5) ∧ (wRegions.regionOf 5).state = .open_
      ∧ (wRegions.regionOf 6).state = .erasing ∧ (wRegions.regionOf 7).state = .sealed
      ∧ (wRegions.regionOf 7).units.getLsbD 1 = false := by
  and_intros <;> decide +kernel

/-! ### The fabric -/

/-- A package with a context of FCID 7 and a translation in the base die of tower 1. -/
def wFabric : State :=
  { wHost.setCtxOf 0 { wHost.ctxOf 0 with fcid := 7 } with
    baseTlb := [(1, [(0, ⟨0, 0x10000, 0x1003F⟩)])], package := 3 }
def packetIn (op : ItemOp) : Packet :=
  { src := 9, plane := 13, seq := 0, fcid := 7, view := .user, dva := 0x10100, t := .i32, op := op, unord := false, gid := 4, elem := 0
    logged := false, resent := [] }
def wNoEntry : State := { wFabric with baseTlb := [] }
def wArrived : State := { wNoEntry with arrivals := [packetIn .load] }
def wDone : State := wFabric.setStream 9 13 { InStream.reset with performed := [(0, .ack none)] }
/-- A packet that another plane has brought before, and a stream that waits for its marker's number. -/
def packetAgain : Packet := { packetIn .load with resent := [(5, 2)] }
def wAgain : State := wFabric.setStream 9 5 { InStream.reset with performed := [(2, .response (.value 8))] }
/-- A logged packet to a logged page, with room in the context's ordering log. -/
def wLogged : State := wFabric.setCtxOf 0 { wFabric.ctxOf 0 with
  order := { Log.reset with base := 0x100, head := 0x140, limit := 0x200, en := true } }
abbrev inTurn (op : ItemOp) : Prop :=
  let p := packetIn op
  atHand wFabric p = false ∧ (wFabric.stream p.src p.plane).answerTo p.seq = none ∧ itsTurn wFabric p = true
    ∧ answeredAs wFabric p = none ∧ baseHit wFabric (p.plane / 12) 0 0 p.dva.toNat = some 0x1003F
    ∧ (match underLeaf none p.view .plural (packetAcc p) p.dva.toNat 0x1003F wFabric with
      | .ok l => decide (l = word)
      | .error _ => false) = true
    ∧ waitsForLog p 0 word wFabric = false ∧ dataError wFabric 0x10100 = none
    ∧ (wFabric.coreOf (0x10100 / 2 ^ 30)).fenced = false ∧ baseHit wNoEntry (p.plane / 12) 0 0 p.dva.toNat = none
theorem witness_FabricArrivals :
    (fabricUp wFabric = true ∧ wakeUp wFabric = wFabric ∧ wFabric.inStreams = []
      ∧ fcidContext wFabric 7 = some (0, wFabric.ctxOf 0)
      ∧ wFabric.package ≠ 9 ∧ (amoNew .i32 .add (memReadN wFabric.mem 0x10100 4) 0 5).isSome = true)
    ∧ (inTurn (.store 0x55667788) ∧ inTurn .load ∧ inTurn (.amo .add 0 5 true))
    ∧ (let w := { wArrived with arrivals := [] };
      (wArrived.arrivals[0]? = some (packetIn .load) ∧ answeredAs w (packetIn .load) = none
        ∧ fcidContext w 7 = some (0, w.ctxOf 0))
        ∧ baseWalk (packetIn .load) (w.ctxOf 0) w = .ok 0x63F (endOf (baseWalk (packetIn .load) (w.ctxOf 0) w)))
    ∧ (atHand wDone (packetIn .load) = false ∧ (wDone.stream 9 13).answerTo 0 = some (.ack none))
    ∧ (atHand wAgain packetAgain = false ∧ (wAgain.stream 9 13).answerTo 0 = none ∧ itsTurn wAgain packetAgain = true
      ∧ answeredAs wAgain packetAgain = some (.response (.value 8)) ∧ ∀ x ∈ wAgain.inStreams, x.1.1 = 9 → x.2.early = [])
    ∧ ((wLogged.ctxOf 0).order.en = true ∧ (wLogged.ctxOf 0).order.room 1 = true) :=
  ⟨by decide +kernel, by decide +kernel, ⟨by decide +kernel, ok_end (by decide +kernel)⟩, by decide +kernel, by decide +kernel,
    by decide +kernel⟩
def itemOut (op : ItemOp) (waits : Bool) : Item :=
  { id := 5, dst := 9, plane := 13, seq := 4, fcid := 7, view := .user, va := 0x10100, t := .i32, op := op, unord := false, gid := 4
    elem := 0, logged := false, convoy := 0, hidx := 0, waits := waits, covers := [], unsent := false, failed := none
    resentFrom := [], transfer := none, since := 0, got := none, entry := none, place := none }
def wItem (is : List Item) : State := { wFabric with items := is, now := 1000000000 }
/-- The flag of an `fsig` that waits for item 5. -/
def flagItem : Item := { itemOut (.flag 0x10104 7) false with id := 6, covers := [5], unsent := true }
abbrev outstanding (i : Item) : Prop :=
  findItem (wItem [i]) 5 = some i ∧ i.unsent = false ∧ i.failed = none ∧ i.transfer = none ∧ i.got = none
    ∧ hartGid (wItem [i]) i.convoy i.hidx = some 0 ∧ i.since + 1000000000 ≤ (wItem [i]).now
    ∧ ∀ j ∈ (wItem [i]).items, j.unsent = false
theorem witness_FabricItemResults :
    (outstanding (itemOut (.store 5) false) ∧ outstanding (itemOut .load true))
    ∧ (findItem (wItem [itemOut (.store 5) false, flagItem]) 5 = some (itemOut (.store 5) false) ∧ flagItem.id ≠ 5
      ∧ flagItem.unsent = true ∧ flagItem.failed = none ∧ flagItem.covers = [5] ∧ flagItem.op = .flag 0x10104 7
      ∧ ((wItem [itemOut (.store 5) false, flagItem]).coreOf (0x10104 / 2 ^ 30)).fenced = false)
    ∧ (wFabric.planes.getLsbD 13 = true ∧ wFabric.power ≠ .off ∧ 3 ≤ wFabric.bootPhase) := by decide +kernel

/-! ### Gangs and the depot -/

def wPart : Option (GangPart × Nat × Nat) := makePart 9 5 7 3 2 launchPacket wFabric
def part0 : GangPart := (wPart.map Prod.fst).getD ⟨0, 0, 0, 0, 0, 0, [], none, 99⟩
def wReserved : State := { wFabric with parts := [part0] }
def gang0 (begun : Bool) : Gang :=
  { id := 5, convoy := 0, k := 2, status := 0, ctx := 0, view := .user, members := [9, 10, 11], harts := 2, queue := 3
    packet := launchPacket, idx := false, acks := [2, 0], begun := begun, isOver := false, reported := [],
      killed := false, since := 10 }
def wGang (begun : Bool) (n : Nat) : State := { wFabric with gangs := [gang0 begun], now := n }
def wMember : State := wFabric.setHart { wFabric.hart with join := { Join.none with gang := some (9, 5, 0) } }
/-- A reservation of deterministic convoys, the last one made. -/
def partDet : GangPart := { part0 with detBase := some 4 }
def wReservedDet : State := { wFabric with parts := [partDet] }
theorem witness_GangEventResults :
    (fabricUp wFabric = true ∧ (makePart 9 5 6 3 2 launchPacket (wakeUp wFabric)) = none
      ∧ makePart 9 5 7 3 2 launchPacket (wakeUp wFabric) = some (part0, 0, (wPart.map fun x => x.2.2).getD 0)
      ∧ findPart wReserved 9 5 = some part0 ∧ part0.detBase = none ∧ findPart wReservedDet 9 5 = some partDet
      ∧ (∀ p ∈ wReservedDet.parts, p.detBase.all (fun x => x ≤ 4) = true)
      ∧ ∀ q ∈ wReservedDet.queues, ∀ e ∈ q.2.entries, e.reserved = [] ∨ e.detBase ≤ 4)
    ∧ (mget wMember.harts 0 = some wMember.hart ∧ wMember.hart.join.inGang 9 5 = true ∧ isEnding wMember.hart = false)
    ∧ (findGang (wGang false 50000010) 5 = some (gang0 false) ∧ (gang0 false).acks.contains 1 = false
      ∧ mget (wGang false 50000010).convoys 0 = some wFabric.convoy ∧ wFabric.convoy.record = none ∧ wFabric.convoy.ended = false)
    ∧ findGang (wGang true 50000010) 5 = some (gang0 true) ∧ (gang0 true).killed = false ∧ (gang0 true).reported = [] := by
  and_intros <;> decide +kernel
def depotCmd (k : DepotKind) (code : Option (BitVec 3)) : DepotCmd :=
  { id := 0, kind := k, k := 2, convoy := 0, hidx := 0, ctx := 0, view := .user, cls := 0, core := 0, unit := 3, units := 2, src := 0x10000
    cl := none, begun := true, next := 0, code := code, aborted := false, fault := none, gang := none, asked := false, got := [] }
def wDepot (d : DepotCmd) (st : RegionState) : State := wHost.setRegionOf 5 { Region.reset with state := st, cmds := [d], units := 5 }
def wFaulted : State :=
  let s := wHost.setCore { wHost.core with transfers := [{ copyOf 0x10100 [] with fault := some 4 }] }
  s.setVdevOf 0 { VDev.reset with efq := [⟨0x10300, 0, 0x0A, 1, 0, 4, .transfer 0 5⟩] }

/-! ### A convoy that another one wants the core of -/

/-- A convoy of class 3 on core 0, whose virtual device has a launch of three harts and class 0 waiting, and a save area. -/
def wWanted : State :=
  let s := mapped { wc with power := .active, bootPhase := 5 }
  let packet := BitVec.ofNat 512 (0x10000 + 100 * 2 ^ 64 + 2 * 2 ^ 128 + 3 * 2 ^ 144)
  let queued : Queued := ⟨packet, 0, 0, 0, 0, none, 0, .supervisor, false, 0, none, [], false⟩
  let s := s.setQueueOf 3 { LQueue.reset with bind := some (0, 0, 0), entries := [queued] }
  let s := s.setClusterOf 0 { Cluster.reset with vdev := some 0 }
  let s := s.setCtxOf 0 { s.ctxOf 0 with ctxbase := 0x200000 }
  let s := s.setConvoy { s.convoy with cls := 3, members := [(0, 0)], core := some 0 }
  { s with mem := memWriteBytes s.mem 0x200000 (toBytes 8 0x210000 ++ toBytes 8 1) }
theorem wWanted_flat (s : State) (hm : s.mem = wWanted.mem) (hp : s.poison = []) (hc : (s.coreOf 0).fenced = false)
    (hs : s.staging.pct = 0) : Flat s := by
  have r : ∀ a, pteWord s a = pteWord wWanted a := fun a => by simp only [pteWord, hm]
  refine ⟨hp, hc, hs, ?_, ?_, fun j h1 h2 => ?_⟩
  · rw [r]; decide +kernel
  · rw [r]; decide +kernel
  · rw [r]
    have : ∀ j, j < 16 → 1 ≤ j → pteWord wWanted (0x81000 + 8 * j) = 0 := by decide +kernel
    exact this j h2 h1
theorem wWanted_saved (s : State) (hm : s.mem = wWanted.mem) (hp : s.poison = [])
    (hc : (s.coreOf 0).fenced = false ∧ (s.convoyOf 0).core = some 0 ∧ (s.convoyOf 0).ctx = 0 ∧ s.staging.pct = 0
      ∧ freeRecord s 0 = some 0x210000 ∧ (s.ctxOf 0).ptbase = 0x80000 ∧ ∀ i : Fin 8, (s.convoyOf 0).q[i].length ≤ 16)
    (hw : ∀ g ∈ residents s 0, hartOffset g.2.hidx < 0x10000000
      ∧ ((hartWords g.2 (s.convoyOf 0).ewBytes 0x20).all fun p => decide (p.1 < 0xA0000)) = true) :
    ∃ t, saveNow 0 s = some t := by
  obtain ⟨h1, h2, h3, hs, h5, h6, h7⟩ := hc
  refine saveNow_some (base := 0x210000) h2 ?_ (wWanted_flat s hm hp h1 hs) ?_ h7 (by decide) (by decide) hw
  · rw [h3]; exact h5
  · rw [h3]; exact h6
/-- The same with a route log without room, so that no decision is taken. -/
def wWantedFull : State := wWanted.setCtxOf 0 { wWanted.ctxOf 0 with
  route := { Log.reset with base := 0x100, head := 0x200, limit := 0x200, en := true } }
theorem witness_LaunchResults_yield :
    (wWanted.convoy.cls ≠ 0 ∧ wWanted.hart.convoy = 0 ∧ wanted wWanted 0 wWanted.coreId false = true
      ∧ wWantedFull.convoy.cls ≠ 0 ∧ wWantedFull.hart.convoy = 0 ∧ wanted wWantedFull 0 wWantedFull.coreId false = true)
    ∧ (mayRoute wWanted wWanted.ctxId && (saveNow 0 wWanted).isSome) = true
    ∧ (mayRoute wWantedFull wWantedFull.ctxId && (saveNow 0 wWantedFull).isSome) = false := by
  refine ⟨by decide +kernel, ?_, ?_⟩
  · obtain ⟨t, ht⟩ := wWanted_saved wWanted rfl (by decide +kernel) (by decide +kernel) (by decide +kernel)
    have : mayRoute wWanted wWanted.ctxId = true := by decide +kernel
    simp [this, ht]
  · have : mayRoute wWantedFull wWantedFull.ctxId = false := by decide +kernel
    simp [this]
/-- The convoy once its pre-emption has begun, and while an `mma` of its hart is outstanding. -/
def begun0 (s : State) : State := (residents s 0).foldl squash (s.setConvoyOf 0 { s.convoyOf 0 with leaving := true })
def wWantedBusy : State := wWanted.setHart { wWanted.hart with mma := [pending0] }
theorem leaves_of (s : State) (h : (s.convoys.map Prod.fst) = [0] ∧ (s.convoys.find? fun c => c.2.leaving) = none
      ∧ mayRoute s (s.convoyOf 0).ctx = true)
    (h2 : (s.convoyOf 0).core = some 0) (h3 : ((s.convoyOf 0).cls != 0 && !(s.convoyOf 0).ended
      && (wanted s 0 0 true || (decide ((s.convoyOf 0).placedAt + quantum ≤ s.now) && wanted s 0 0 false))) = true)
    (hn : ∃ t, saveNow 0 s = some t) : nextToLeave s = some 0 ∧ mayRoute s (s.convoyOf 0).ctx = true
      ∧ (saveNow 0 s).isSome = true := by
  obtain ⟨h1, h4, h5⟩ := h
  obtain ⟨t, hn⟩ := hn
  have h6 : qualifies s 0 = true := by
    simp only [qualifies, wouldLeave, h2, h3, h5, hn, Option.isSome_some, Bool.and_self]
  exact ⟨by simp [nextToLeave, h4, firstToLeave, h1, h6], h5, by simp [hn]⟩
theorem witness_DispatchResults_leave :
    (nextToLeave wWanted = some 0 ∧ mayRoute wWanted (wWanted.convoyOf 0).ctx = true ∧ (saveNow 0 wWanted).isSome = true)
    ∧ ((wWanted.convoyOf 0).core.all fun k => quiet (begun0 wWanted) 0 k) = true ∧ (∃ v, saveNow 0 (begun0 wWanted) = some v)
    ∧ (nextToLeave wWantedBusy = some 0 ∧ mayRoute wWantedBusy (wWantedBusy.convoyOf 0).ctx = true
      ∧ (saveNow 0 wWantedBusy).isSome = true)
    ∧ ((wWantedBusy.convoyOf 0).core.all fun k => quiet (begun0 wWantedBusy) 0 k) = false :=
  ⟨leaves_of _ (by decide +kernel) (by decide +kernel) (by decide +kernel)
      (wWanted_saved _ rfl (by decide +kernel) (by decide +kernel) (by decide +kernel)), by decide +kernel,
    wWanted_saved _ (by decide +kernel) (by decide +kernel) (by decide +kernel) (by decide +kernel),
    leaves_of _ (by decide +kernel) (by decide +kernel) (by decide +kernel)
      (wWanted_saved _ (by decide +kernel) (by decide +kernel) (by decide +kernel) (by decide +kernel)), by decide +kernel⟩
/-- A convoy that is out, with its record in mapped memory, and room for it. -/
def wOut : State := wHost.setConvoyOf 3 { Convoy.reset with record := some 0x210000, waitSince := 5 }
def placesQueue (r : Option (Waiting × Nat × List Nat)) (q core : Nat) (ks : List Nat) : Bool :=
  match r with
  | some (.queue q' _, core', ks') => decide (q' = q) && decide (core' = core) && decide (ks' = ks)
  | _ => false
theorem places_queue {r : Option (Waiting × Nat × List Nat)} {q core : Nat} {ks : List Nat} (h : placesQueue r q core ks = true) :
    ∃ e, r = some (.queue q e, core, ks) := by
  unfold placesQueue at h
  split at h
  · simp only [Bool.and_eq_true, decide_eq_true_eq] at h
    obtain ⟨⟨h1, h2⟩, h3⟩ := h
    subst h1; subst h2; subst h3
    exact ⟨_, rfl⟩
  · contradiction
def placesOut (r : Option (Waiting × Nat × List Nat)) (u core : Nat) (ks : List Nat) : Bool :=
  match r with
  | some (.out u' _, core', ks') => decide (u' = u) && decide (core' = core) && decide (ks' = ks)
  | _ => false
theorem places_out {r : Option (Waiting × Nat × List Nat)} {u core : Nat} {ks : List Nat} (h : placesOut r u core ks = true) :
    ∃ c, r = some (.out u c, core, ks) := by
  unfold placesOut at h
  split at h
  · simp only [Bool.and_eq_true, decide_eq_true_eq] at h
    obtain ⟨⟨h1, h2⟩, h3⟩ := h
    subst h1; subst h2; subst h3
    exact ⟨_, rfl⟩
  · contradiction
def wReady : Option State := makeReady 0 ((Waiting.out 3 (wOut.convoyOf 3)).need wOut) wOut
def wWindowed : State := wReady.getD wOut
theorem wWindowed_of : makeReady 0 ((Waiting.out 3 (wOut.convoyOf 3)).need wOut) wOut = some wWindowed := by
  have h : wReady.isSome = true := by decide +kernel
  obtain ⟨t, e⟩ := Option.isSome_iff_exists.mp h
  have : wWindowed = t := by rw [wWindowed, e]; rfl
  rw [this]; exact e
theorem wWindowed_flat : Flat wWindowed := by
  refine ⟨by decide +kernel, by decide +kernel, by decide +kernel, by decide +kernel, by decide +kernel, fun j h1 h2 => ?_⟩
  have : ∀ j, j < 16 → 1 ≤ j → pteWord wWindowed (0x81000 + 8 * j) = 0 := by decide +kernel
  exact this j h2 h1
theorem wOut_restored : ∃ t, restoreConvoy 3 0 [] wOut = some t := by
  have hp : (wWindowed.ctxOf (wWindowed.convoyOf 3).ctx).ptbase = 0x80000 := by decide +kernel
  exact restoreConvoy_some (base := 0x210000) (s0 := wWindowed) (by decide +kernel) wWindowed_of (by decide +kernel)
    (by decide +kernel) wWindowed_flat hp (by decide)
theorem witness_DispatchResults :
    (∃ e, nextPlaced wQueued = some (.queue 3 e, 1, [0, 1, 2]))
    ∧ (∃ c, nextPlaced wOut = some (.out 3 c, 0, [])) ∧ (∃ t, restoreConvoy 3 0 [] wOut = some t)
    ∧ (fullLogs wQueued = [] ∧ fullPosts wPost 0 = [])
    ∧ ∃ i p k, nextPost wPost 0 = some (i, p) ∧ postSlot wPost 0 p.cls = some k := by
  refine ⟨places_queue (by decide +kernel), places_out (by decide +kernel), wOut_restored, by decide +kernel, ?_⟩
  have h : ((nextPost wPost 0).map fun x => (postSlot wPost 0 x.2.cls).isSome) = some true := by decide +kernel
  obtain ⟨⟨i, p⟩, e, h⟩ := Option.map_eq_some_iff.mp h
  obtain ⟨k, hk⟩ := Option.isSome_iff_exists.mp h
  exact ⟨i, p, k, e, hk⟩

/-! ### Depot events -/

def wLines (s : State) : State := { s with staging := { s.staging with lines := [(5 * 2 ^ 18 + 1, 1)], pct := 50 } }
/-- The tables of `mapped`, checked. -/
def flatB (s : State) : Bool :=
  s.poison.isEmpty && !(s.coreOf 0).fenced && s.staging.pct == 0 && pteWord s 0x80000 == 0x81001 && pteWord s 0x81000 == 0x63F
    && (List.range 16).all fun j => j == 0 || pteWord s (0x81000 + 8 * j) == 0
theorem flatOf (s : State) (h : flatB s = true) : Flat s := by
  simp only [flatB, Bool.and_eq_true, List.isEmpty_iff, Bool.not_eq_true', beq_iff_eq, List.all_eq_true, List.mem_range,
    Bool.or_eq_true] at h
  obtain ⟨⟨⟨⟨⟨h1, h2⟩, hs⟩, h3⟩, h4⟩, h5⟩ := h
  exact ⟨h1, h2, hs, h3, h4, fun j h6 h7 => (h5 j h7).resolve_left (by omega)⟩
/-- The same command of a region that was granted anew before it ended. -/
def wBusyDone : State := wHost.setRegionOf 5 { Region.reset with busyDone := [depotCmd .dseal (some 1)] }
/-- A tower of which virtual device 0 holds a region, and half of each vault is staging share. -/
def wShared : State := { wGranted 0 with staging := { wHost.staging with pct := 50 } }
abbrev performs (k : DepotKind) : Prop := performing (wDepot (depotCmd k none) .open_) 5 = some (depotCmd k none)
theorem witness_DepotEventResults :
    (performs .dopen ∧ performs .dseal ∧ performs .stow)
    ∧ (let s := wDepot (depotCmd .stow none) .open_;
      ((depotCmd .stow none).fault = none ∧ stowMustAsk s (depotCmd .stow none) = false)
        ∧ ∃ bs u, stowRead (depotCmd .stow none) s = .ok bs u)
    ∧ (let s := wDepot (depotCmd .dseal (some 1)) .sealed;
      (s.regionOf 5).busyDone = [] ∧ (s.regionOf 5).cmds = depotCmd .dseal (some 1) :: [] ∧ stowSettled s 5 = true
        ∧ (wBusyDone.regionOf 5).busyDone = depotCmd .dseal (some 1) :: [])
    ∧ (let s := wLines (wDepot (depotCmd .dseal (some 1)) .sealed);
      (s.regionOf ((5 * 2 ^ 18 + 7) / 2 ^ 18)).state = .sealed ∧ mget s.staging.lines (5 * 2 ^ 18 + 7) = none)
    ∧ (towerDevices wShared 0 = [] ∧ towerDevices wShared 1 ≠ []
      ∧ ((towerDevices wShared 1).map fun vd => (wShared.vdevOf vd).floor).sum ≤ towerUnits wShared)
    ∧ (fnServed wFaulted (fnOfVdev wFaulted 0) = true ∧ wFaulted.power = .active
      ∧ (wFaulted.vdevOf 0).efq.find? (fun q => q.tag == 4) = some ⟨0x10300, 0, 0x0A, 1, 0, 4, .transfer 0 5⟩
      ∧ (wFaulted.vdevOf 0).efWait = [] ∧ transferCore wFaulted 5 = some 0
        ∧ findTransfer wFaulted 0 5 = some { copyOf 0x10100 [] with fault := some 4 }) := by
  refine ⟨by decide +kernel, ⟨by decide +kernel, ?_⟩, by decide +kernel, by decide +kernel, by decide +kernel, by decide +kernel⟩
  obtain ⟨bs, h⟩ := stowRead_ok (s := wDepot (depotCmd .stow none) .open_) (d := depotCmd .stow none)
    (flatOf _ (by decide +kernel)) (by decide +kernel) fun k hk => (by
    show (0x10000 + BitVec.ofNat 64 (0 * 65536 + k) : Word).toNat < _
    simp only [BitVec.toNat_add, BitVec.toNat_ofNat, show (0x10000 : Word).toNat = 0x10000 from rfl]; omega)
  exact ⟨bs, _, h⟩

/-! ### Collectives -/

/-- Two members, four 32-bit sums; the source layout and the destination are given, the destination is replicated. -/
def waybillTo (slay dst : Nat) : BitVec 1024 := BitVec.ofNat 1024
  (3 * 2 ^ 6 + 1 * 2 ^ 2 + 0x77 * 2 ^ 32 + 1 * 2 ^ 64 + 4 * 2 ^ 128
  + slay * 2 ^ 256 + 0x10100 * 2 ^ 384 + dst * 2 ^ 448 + 0x10300 * 2 ^ 512 + 0x90310 * 2 ^ 576 + 1 * 2 ^ 640)
def waybill (slay : Nat) : BitVec 1024 := waybillTo slay 0x90200
/-- Partial on the axis, so it folds; and sharded on it, so it gathers. -/
def wbFold : BitVec 1024 := waybill (2 ^ 60)
def wbGather : BitVec 1024 := waybill (2 ^ 9)
def coll0 (wb : BitVec 1024) : Coll :=
  { id := 5, ctx := 0, ring := 2, tail := 0, header := 0x90400, addr := 0x90480, waybill := wb, table := [3, 9], matched := true
    plane := 0, queued := [], granted := [], slotted := false, emptied := 0, read := [], mid := [], pushed := []
    pulled := [], parked := [], waits := []
    answers := [], outcome := none, done := false, aborted := false }
def wColl (c : Coll) : State := { wFabric with colls := [c] }
/-- Ring 2 is enabled at 0x10400 with HEAD 1 and TAIL 0, and its waybill is all zeros. -/
def wRing : State :=
  let s := { wFabric with mem := memWriteBytes (memWriteBytes wFabric.mem 0x20B020 (toBytes 8 0x10420)) 0x10400 (toBytes 8 1) }
  s.setCtxOf 0 { s.ctxOf 0 with ctxbase := 0x200000 }
theorem ringPeek_of {s : State} {bs : List Byte} (h1 : engRead none 0 .user .unit 0x10400 8 s = .ok 1 s)
    (h2 : engRead none 0 .user .unit 0x10408 8 s = .ok 0 s) (h : collRead 0 0x10480 128 s = .ok bs s) :
    ringPeek 0 0x10420 s = .ok (1, 0, BitVec.ofNat 1024 (ofBytes bs)) s := by
  have e : ringHeader 0x10420 = 0x10400 := by decide
  have e1 : (0x10400 : Word) + 8 = 0x10408 := by decide
  have e2 : (0x10400 : Word) + BitVec.ofNat 64 (128 + 128 * (0 % 2 ^ field 0x10420 0 4)) = 0x10480 := by decide
  simp only [ringPeek, e, e1, e2, bind, EStateM.bind, h1, h2, pure]
  rw [if_neg (by decide)]
  simp only [EStateM.bind, h, EStateM.pure]
/-- What the other member shows: it agrees, has no plane in common, or differs. -/
def peer0 (wb : BitVec 1024) (planes : BitVec 96) : PeerView := { fcid := 7, waybill := wb, fixed := false, table := [3, 9], planes := planes }
abbrev meets (c : Coll) (y : PeerView) : Prop := y.fcid = ((wColl c).ctxOf c.ctx).fcid
  ∧ Waybill.group y.waybill.toNat = Waybill.group c.waybill.toNat ∧ Waybill.tag y.waybill.toNat = Waybill.tag c.waybill.toNat
abbrev agrees (c : Coll) (y : PeerView) : Prop :=
  y.waybill.extractLsb' 0 384 = c.waybill.extractLsb' 0 384 ∧ y.fixed = c.fixed (wColl c) ∧ y.table = c.table
theorem witness_CollectiveStartResults :
    (mget wRing.contexts 0 = some (wRing.ctxOf 0) ∧ (wRing.ctxOf 0).killed = false ∧ fabricUp wRing = true
      ∧ ringEnabled 0x10420 = true ∧ inVault wRing 0 .load (ringHeader 0x10420) = true ∧ ringWaits wRing 0 2 = false
      ∧ wRing.colls = [])
    ∧ ringEntry wRing 0 2 = .ok 0x10420 wRing ∧ (∃ w, ringPeek 0 0x10420 wRing = .ok (1, 0, w) wRing)
    ∧ (let c := { coll0 wbGather with matched := false };
      findColl (wColl c) 5 = some c ∧ c.done = false ∧ c.live = true ∧ c.matched = false
        ∧ Waybill.tag c.waybill.toNat = 0x77 ∧ (wColl c).planes.getLsbD (0x77 % 96) = true
        ∧ meets c (peer0 wbGather (BitVec.allOnes 96)) ∧ agrees c (peer0 wbGather (BitVec.allOnes 96))
        ∧ (peer0 wbGather (BitVec.allOnes 96)).planes.getLsbD (0x77 % 96) = true
        ∧ meets c (peer0 wbFold 0) ∧ ¬agrees c (peer0 wbFold 0)
        ∧ (∀ k < 96, (peer0 wbGather 0).planes.getLsbD k = false) ∧ c.table.length ≤ [peer0 wbGather 0].length + 1)
    ∧ (let c := coll0 wbGather;
      findColl (wColl c) 5 = some c ∧ c.live = true ∧ c.matched = true ∧ 1 < c.table.length ∧ 1 ≠ c.self (wColl c))
    ∧ (let c := { coll0 wbFold with outcome := some 0, done := true };
      findColl (wColl c) 5 = some c ∧ c.done = true ∧ c.matched = true ∧ 1 < c.table.length ∧ 1 ≠ c.self (wColl c)) := by
  refine ⟨by decide +kernel, ok_here (by decide +kernel), ?_, by decide +kernel, by decide +kernel, by decide +kernel⟩
  obtain ⟨bs, h⟩ := collRead_ok (s := wRing) (ctx := 0) (va := 0x10480) (n := 128) (flatOf _ (by decide +kernel))
    (by decide +kernel)
    (by decide)
  have h1 : engRead none 0 .user .unit 0x10400 8 wRing = .ok 1 wRing := ok_here (by decide +kernel)
  have h2 : engRead none 0 .user .unit 0x10408 8 wRing = .ok 0 wRing := ok_here (by decide +kernel)
  exact ⟨_, ringPeek_of h1 h2 h⟩

/-! ### Blocks of collectives -/

def collParked (declined : Bool) : Coll :=
  { coll0 wbGather with parked := [(0, List.replicate 16 7)], waits := [(2 ^ 40, 0x07)], answers := [(2 ^ 40, declined)] }
def collRead0 : Coll := { coll0 wbGather with read := [(0, List.replicate 8 5)] }
/-- A switch at the top of a tree, and one below it; slots of the first. -/
def topSwitch : TreeSwitch := { tier := 1, switch := 5, tree := (0, 0), ports := [1, 3], port := 1, up := none, last := true }
def lowSwitch : TreeSwitch := { tier := 0, switch := 4, tree := (0, 0), ports := [0], port := 0, up := some (1, 5, 3), last := false }
def blockTag : BlockTag := ⟨0, 0, 0⟩
def data0 : List Byte := List.replicate 16 1
def emptySlot (x : TreeSwitch) : SwitchSlot := ⟨x, 0, 5, none, [], []⟩
def fullSlot : SwitchSlot := ⟨topSwitch, 0, 5, some blockTag, [(3, data0), (1, data0)], []⟩
/-- A folding collective with all its slots. -/
def collSlots (wb : BitVec 1024) : Coll := { coll0 wb with slotted := true, granted := [⟨0, 4, (0, 0)⟩, ⟨1, 5, (0, 0)⟩] }
def wSlots (wb : BitVec 1024) (xs : List SwitchSlot) : State := { wColl (collSlots wb) with switchSlots := xs }
def myWait (c : Coll) (x : TreeSwitch) : SlotWait := ⟨x, 5, ((wColl c).ctxOf c.ctx).prio, (wColl c).cycle⟩
/-- R389: a queue of requests is served in the order of arrival, whatever their priorities. -/
theorem test_slot_queue :
    (let early : SlotWait := ⟨topSwitch, 5, 7, 10⟩;
      let late : SlotWait := ⟨lowSwitch, 6, 0, 20⟩;
      insertWait late [early] = [early, late]) := by decide +kernel
theorem witness_CollectiveBlockResults_slots :
    (let c := coll0 wbFold;
      let s := wColl c;
      findColl s 5 = some c ∧ c.live = true ∧ c.matched = true ∧ c.slotted = false
        ∧ Waybill.treeOk c.wb topSwitch.tree = true ∧ c.self s = 0
        ∧ c.queued = [] ∧ c.granted = [] ∧ 8 ≤ (freeAt s (1, 5)).length ∧ s.slotWaits = [] ∧ Waybill.qslot c.wb = false
        ∧ c.done = false ∧ Waybill.qslot (waybill (2 ^ 60) + 1).toNat = true)
    ∧ (let c := { coll0 wbFold with queued := [⟨1, 5, (0, 0)⟩] };
      let s := { wColl c with slotWaits := [myWait c topSwitch] };
      c.live = true ∧ 8 ≤ (freeAt s (1, 5)).length ∧ waitsAt s (1, 5) = myWait c topSwitch :: [] ∧ (myWait c topSwitch).owner = 5
        ∧ (myWait c topSwitch).at_ = topSwitch)
    ∧ (let s := wSlots wbFold [emptySlot topSwitch];
      s.switchSlots.find? (fun y => switchName y.at_ == (1, 5) && y.slot == 0) = some (emptySlot topSwitch)
        ∧ findColl s 5 = some (collSlots wbFold) ∧ mayTake s (collSlots wbFold) (emptySlot topSwitch) 3 blockTag = true
        ∧ Waybill.tagOk wbFold.toNat blockTag = true ∧ data0.length = Waybill.tagLen wbFold.toNat blockTag
        ∧ goesUp (setSlot { emptySlot topSwitch with tag := some blockTag, arrived := [(3, data0)] } s) (collSlots wbFold) = none)
    ∧ (let s := wSlots wbFold [emptySlot lowSwitch, emptySlot topSwitch];
      let full : SwitchSlot := { emptySlot lowSwitch with tag := some blockTag, arrived := [(0, data0)] };
      let t := setSlot full s;
      mayTake s (collSlots wbFold) (emptySlot lowSwitch) 0 blockTag = true
        ∧ goesUp t (collSlots wbFold) = some (full, emptySlot topSwitch, 3)
        ∧ goesUp (setSlot ((emptySlot topSwitch).take_ 3 blockTag (slotResult t (collSlots wbFold) full))
          (setSlot (emptySlot lowSwitch) t)) (collSlots wbFold) = none)
    ∧ (let s := wSlots wbFold [fullSlot];
      1 ≠ (collSlots wbFold).self s ∧ fullSlot.holdsFor (collSlots wbFold) 1 = true ∧ 0 < Waybill.size wbFold.toNat
        ∧ fullSlot.holdsFor (collSlots wbFold) 0 = true)
    ∧ (Waybill.fixed (wbFold + 2).toNat = true ∧ (fullSlot.arrived.map Prod.fst).Nodup) := by
  and_intros <;> decide +kernel
/-- The destination lies beyond the mapping. -/
def wbBeyond : BitVec 1024 := waybillTo (2 ^ 60) 0x40000000
/-- Four members: a gather and then a reduction, and the other way round. -/
def wbTwo (slay : Nat) : BitVec 1024 := waybill slay + BitVec.ofNat 1024 (2 ^ 14 + 2 ^ 80 + 4 * 2 ^ 128)
def collTwo (slay : Nat) : Coll := { collSlots (wbTwo slay) with table := [3, 9, 10, 11], read := [(0, List.replicate 16 5)] }
def wTwo (c : Coll) (xs : List SwitchSlot) : State := { wColl c with switchSlots := xs }
def collGR : Coll := { collTwo (2 ^ 9 + 2 ^ 61) with mid := [(⟨0, 0⟩, List.replicate 32 6)] }
/-- A reduced block whose page has become resident. -/
def collResumed : Coll := { collSlots wbFold with waits := [(2 ^ 40, 0x07)], answers := [(2 ^ 40, false)] }
def collAnswered : Coll :=
  { collResumed with answers := collResumed.answers.erase (2 ^ 40 + 0, false), waits := merase collResumed.waits (2 ^ 40 + 0) }
def reduced : List Byte := slotResult (wSlots wbFold [fullSlot]) (collSlots wbFold) fullSlot
theorem witness_CollectiveBlockResults_blocks :
    (let c := coll0 wbGather;
      let s := wColl c;
      (findColl s 5 = some c ∧ c.moves = true ∧ c.unread 0 = true)
        ∧ ∃ bs u, collRead 0 (Waybill.src c.wb + BitVec.ofNat 64 (256 * 0)) (Waybill.pieceLen c.wb
          (Waybill.slay c.wb) 0) s = .ok bs u)
    ∧ (let c := collRead0;
      let s := wColl c;
      (c.moves = true ∧ c.owed s ⟨0, 0⟩ = true ∧ (List.replicate 16 (7 : Byte)).length = stepLen s c ⟨0, 0⟩
          ∧ Waybill.stepFolds c.wb 0 = false ∧ Waybill.lastStep c.wb = 0)
        ∧ ∃ bs u, stepData s c ⟨0, 0⟩ (List.replicate 16 7) = some bs
          ∧ collWrite 0 (Waybill.dst c.wb + BitVec.ofNat 64 (256 * 0)) bs s = .ok () u)
    ∧ (let c := collSlots wbFold;
      let s := wSlots wbFold [fullSlot];
      (findColl s 5 = some c ∧ c.moves = true ∧ c.owed s ⟨0, 0⟩ = true ∧ Waybill.stepFolds c.wb 0 = true
          ∧ reduced.length = stepLen s c ⟨0, 0⟩ ∧ topSlot s c ⟨0, 0⟩ = some fullSlot ∧ slotResult s c fullSlot = reduced
          ∧ topSlot (wSlots wbFold []) c ⟨0, 0⟩ = none ∧ Waybill.lastStep c.wb = 0)
        ∧ ∃ u, collWrite 0 (Waybill.dst c.wb + BitVec.ofNat 64 (256 * 0)) reduced s = .ok () u)
    ∧ (let c := collSlots wbBeyond;
      let s := wSlots wbBeyond [fullSlot];
      (findColl s 5 = some c ∧ c.moves = true ∧ c.owed s ⟨0, 0⟩ = true ∧ topSlot s c ⟨0, 0⟩ = some fullSlot
          ∧ slotResult s c fullSlot = reduced)
        ∧ ∃ u, collWrite 0 (Waybill.dst c.wb + BitVec.ofNat 64 (256 * 0)) reduced s = .error (.fault 0x07 true 0x40000000) u)
    ∧ (let c := collParked false;
      let s := wColl c;
      let c' := { c with answers := c.answers.erase (2 ^ 40 + 0, false), waits := merase c.waits (2 ^ 40 + 0) };
      (c.aborted = false ∧ mget c.parked 0 = some (List.replicate 16 7) ∧ c.answers.contains (2 ^ 40 + 0, false) = true)
        ∧ ∃ u, collWrite c.ctx (Waybill.dst c.wb + BitVec.ofNat 64 (256 * 0)) (List.replicate 16 7) (setColl c' s) = .ok () u)
    ∧ (let c := { collParked false with parked := [] };
      (mget c.parked 0 = none ∧ c.answers.contains (2 ^ 40 + 0, false) = true
          ∧ topSlot (wColl c) c ⟨Waybill.lastStep c.wb, 0⟩ = none)
        ∧ (collParked true).answers.contains (2 ^ 40 + 0, true) = true ∧ mget (collParked true).waits (2 ^ 40 + 0) = some 0x07
        ∧ (collParked true).done = false)
    ∧ (let c := { coll0 wbGather with outcome := some 3 };
      let u := setColl c (wColl c);
      c.ready = true ∧ ∃ v w x, engWrite none c.ctx .user .unit (c.addr + 88) 8 3 u = .ok () v
        ∧ (do let n ← engRead none c.ctx .user .unit (Waybill.cnt c.wb) 8
              engWrite none c.ctx .user .unit (Waybill.cnt c.wb) 8 ((n + (Waybill.incr c.wb).toNat) % 2 ^ 64)) v = .ok () w
        ∧ engWrite none c.ctx .user .unit (c.header + 8) 8 (c.tail + 1).toNat w = .ok () x) := by
  refine ⟨⟨by decide +kernel, ?_⟩, ⟨by decide +kernel, ?_⟩, ⟨by decide +kernel, ?_⟩, ⟨by decide +kernel, _,
    fault_end (by decide +kernel)⟩,
    ⟨by decide +kernel, ?_⟩, by decide +kernel, ⟨by decide +kernel, ?_⟩⟩
  · obtain ⟨bs, h⟩ := collRead_ok (s := wColl (coll0 wbGather)) (ctx := 0)
      (va := Waybill.src wbGather.toNat + BitVec.ofNat 64 (256 * 0)) (n := Waybill.pieceLen wbGather.toNat
        (Waybill.slay wbGather.toNat) 0)
      (flatOf _ (by decide +kernel)) (by decide +kernel) (by decide +kernel)
    exact ⟨bs, _, h⟩
  · have h : (stepData (wColl collRead0) collRead0 ⟨0, 0⟩ (List.replicate 16 7)).map List.length = some 16 := by decide +kernel
    obtain ⟨bs, e, hl⟩ := Option.map_eq_some_iff.mp h
    obtain ⟨t, ht⟩ := collWrite_ok (s := wColl collRead0) (ctx := 0)
      (va := Waybill.dst wbGather.toNat + BitVec.ofNat 64 (256 * 0)) (bs := bs)
      (flatOf _ (by decide +kernel)) (by decide +kernel) (by decide +kernel) (by rw [hl]; decide +kernel)
    exact ⟨bs, t, e, ht⟩
  · exact collWrite_ok (flatOf _ (by decide +kernel)) (by decide +kernel) (by decide +kernel) (by decide +kernel)
  · exact collWrite_ok (flatOf _ (by decide +kernel)) (by decide +kernel) (by decide +kernel) (by decide +kernel)
  · exact ⟨_, _, _, ok_end (by decide +kernel), ok_end (by decide +kernel), ok_end (by decide +kernel)⟩
theorem witness_CollectiveBlockResults_steps :
    (let c := collGR;
      let s := wTwo c [];
      findColl s 5 = some c ∧ c.moves = true ∧ c.done = false ∧ (c.laterPushes s).contains ⟨1, 0⟩ = true
        ∧ c.pushed.contains ⟨1, 0⟩ = false ∧ aget c.mid ⟨0, 0⟩ = some (List.replicate 32 6) ∧ (Waybill.steps c.wb)[1]? = some 1)
    ∧ (let c := { collGR with mid := [] };
      let s := wTwo c [];
      c.moves = true ∧ c.owed s ⟨0, 0⟩ = true ∧ (List.replicate 32 (7 : Byte)).length = stepLen s c ⟨0, 0⟩
        ∧ Waybill.stepFolds c.wb 0 = false ∧ Waybill.lastStep c.wb = 1
        ∧ stepData s c ⟨0, 0⟩ (List.replicate 32 7) = some (List.replicate 16 5 ++ List.replicate 16 7))
    ∧ (let c := collTwo (2 ^ 9 + 1 + 2 ^ 60);
      let s := wTwo c [fullSlot];
      c.moves = true ∧ c.owed s ⟨0, 0⟩ = true ∧ (slotResult s c fullSlot).length = stepLen s c ⟨0, 0⟩
        ∧ Waybill.stepFolds c.wb 0 = true ∧ Waybill.lastStep c.wb = 1 ∧ topSlot s c ⟨0, 0⟩ = some fullSlot)
    ∧ (let s := wTwo collResumed [fullSlot];
      (findColl s 5 = some collResumed ∧ collResumed.answers.contains (2 ^ 40 + 0, false) = true
          ∧ mget collResumed.parked 0 = none
          ∧ topSlot (setColl collAnswered s) collAnswered ⟨Waybill.lastStep collResumed.wb, 0⟩ = some fullSlot)
        ∧ ∃ u, collWrite 0 (Waybill.dst wbFold.toNat + BitVec.ofNat 64 (256 * 0))
          (slotResult (setColl collAnswered s) collAnswered fullSlot) (setColl collAnswered s) = .ok () u) := by
  refine ⟨by decide +kernel, by decide +kernel, by decide +kernel, by decide +kernel, ?_⟩
  exact collWrite_ok (flatOf _ (by decide +kernel)) (by decide +kernel) (by decide +kernel) (by decide +kernel)

/-! ### Context records -/

/-- The supervisor view, a record at s12 = 0x200000 through one TLB entry, slot 1 in s13. -/
def recordEntry : TlbEntry := ⟨0, 0x200000, 0x20043F⟩
def wRec : State :=
  let s := withRegs [(12, 0x200000), (13, 1)] (sup (wc.setConvoy { wc.convoy with cls := 1 }))
  s.setCore { s.core with tlb := [recordEntry] }
/-- Slot 1 holds a halted hart, the masks of the record are implicit ones, and its words `ws` are as given. -/
def haltedRec (ws : List (Nat × Nat)) (s : State) : State :=
  let s := s.setHartOf 1 { Hart.reset with status := .halted, pc := 0x10000, hidx := 1 }
  let masks := (0x200380, (List.replicate 16 0x40000).flatMap (toBytes 8))
  { s with mem := (masks :: ws.map fun w => (w.1, toBytes 8 w.2)).foldl (fun m p => memWriteBytes m p.1 p.2) s.mem }
def wHaltedRec : State := haltedRec [] wRec
/-- Bit 5 of the record's state word is reserved. -/
def wBadRec : State := haltedRec [(0x2001A8, 32)] wRec
/-- The record binds one accumulator, and two harts hold the sixteen that the core has. -/
def wFullRec : State :=
  let eight (b : Nat) : Vector (Option AccReg) 8 := Vector.ofFn fun a => some ⟨b + a.val, 1, 1, false, 0⟩
  let s := (wRec.setHart { wRec.hart with acc := eight 0 }).setHartOf 2 { Hart.reset with acc := eight 8, hidx := 2 }
  haltedRec [(0x200400, 2 ^ 63)] s
def recTop : Nat := 0x200000 + hartRecord
theorem hits_rec {s : State} (h : (s.coreOf s.coreId).tlb = [recordEntry] ∧ s.ctx.asid = 0 ∧ s.poison = []
  ∧ (s.coreOf 0).fenced = false
    ∧ s.staging.pct = 0 ∧ s.calm ∧ (s.harts.any fun p => p.2.armed.isSome) = false ∧ s.convoy.cls ≠ 0) :
    Hits s 0x200000 recTop recordEntry := by
  obtain ⟨h1, h2, h3, h4, h5, h6, h7, h8⟩ := h
  have b : leafBits recordEntry.leaf.toNat = 21 := by decide
  have t : recTop = 0x2A0000 := rfl
  refine ⟨fun va v1 v2 => ?_, fun va v1 v2 => ?_, fun acc => ?_, by decide, h3, h4, h5, h6, h7, h8⟩
  · rw [h1, h2]
    have e1 : (recordEntry.asid == 0) = true := by decide
    have e2 : recordEntry.base = 0x200000 := rfl
    simp only [tlbHit, List.find?, b, e1, e2, Bool.true_and]
    rw [t] at v2
    have : (decide (0x200000 ≤ va) && decide (va < 0x200000 + 2 ^ 21)) = true := by simp; omega
    rw [this]
  · rw [t] at v2
    have q : va / 1073741824 = 0 := by omega
    have m : 0x200000 + va % 2 ^ 21 = va := by omega
    have f1 : field recordEntry.leaf.toNat 12 50 * 4096 = 0x200000 := by decide
    have f2 : field recordEntry.leaf.toNat 62 2 = 0 := by decide
    have f3 : bit recordEntry.leaf.toNat 7 = false := by decide
    have f4 : bit recordEntry.leaf.toNat 6 = false := by decide
    have m' : va % 2 ^ 30 = va := by omega
    have q' : va / 2 ^ 30 = 0 := q
    simp only [leafLoc, b, f1, f2, f3, f4, m, m', q', vaultKey]
    simp
  · cases acc <;> cases s.hart.mode <;> decide
theorem hits_wRec : Hits wRec 0x200000 recTop recordEntry := hits_rec (by decide +kernel)
theorem hits_wHaltedRec : Hits wHaltedRec 0x200000 recTop recordEntry := hits_rec (by decide +kernel)
theorem hits_wBadRec : Hits wBadRec 0x200000 recTop recordEntry := hits_rec (by decide +kernel)
theorem hits_wFullRec : Hits wFullRec 0x200000 recTop recordEntry := hits_rec (by decide +kernel)
theorem rec_words {s : State} (h : Hits s 0x200000 recTop recordEntry) (o : Nat) (ho : o < 0xA0000) (h8 : o % 8 = 0) :
    recordWord 0x200000 o s = .ok (memReadN s.mem (0x200000 + o) 8) s := by
  have : recTop = 0x2A0000 := rfl
  exact h.word (at_ := 0x200000) (by decide) (by show 0x200000 + o < recTop; omega) (by show (0x200000 + o) % 8 = 0; omega)
theorem checks_rec {s : State} (h : Hits s 0x200000 recTop recordEntry) (acc : Acc) : checkRecord acc 0x200000 s = .ok () s :=
  h.checks (at_ := 0x200000) (by decide) (by decide) (by decide)
abbrev recReady (s : State) : Prop :=
  s.hart.mode = .supervisor ∧ s.canRead 13 = true ∧ s.canRead 12 = true ∧ s.reg 12 = 0x200000
    ∧ checkRecord .store 0x200000 s = .ok () s ∧ checkRecord .load 0x200000 s = .ok () s
theorem ready_rec {s : State} (h : Hits s 0x200000 recTop recordEntry)
    (r : s.hart.mode = .supervisor ∧ s.canRead 13 = true ∧ s.canRead 12 = true ∧ s.reg 12 = 0x200000) : recReady s :=
  ⟨r.1, r.2.1, r.2.2.1, r.2.2.2, checks_rec h _, checks_rec h _⟩
abbrev recFree (s : State) : List Nat := freeAccs (usedAcc { s with harts := merase s.harts 1 } s.coreId)
theorem witness_ContextRecordResults :
    (recReady wRec ∧ haltedTarget wRec (wRec.reg 13) = none)
    ∧ (recReady wHaltedRec ∧ haltedTarget wHaltedRec (wHaltedRec.reg 13) = some 1 ∧ (wHaltedRec.hartOf 1).mma = []
      ∧ (wHaltedRec.hartOf 1).poison = []
      ∧ (∃ u, State.Each (fun (p : Nat × Nat × Nat) a b => ∃ (v : State) (l : Loc),
          a.finds .scalar .store (0x200000 + BitVec.ofNat 64 p.1) p.2.1 l v ∧ (v.coreOf (l.key / 2 ^ 30)).fenced = false
            ∧ b = pokeN l.key p.2.1 p.2.2 (v.after (meter l.key p.2.1)))
        (hartWords (wHaltedRec.hartOf 1) (wHaltedRec.convoyOf (wHaltedRec.hartOf 1).convoy).ewBytes 0) wHaltedRec u)
      ∧ ∃ h k, readHart (recordWord 0x200000) (wHaltedRec.hartOf 1) wHaltedRec = .ok (some h) wHaltedRec
        ∧ claimAccs (recFree wHaltedRec) h = some k) := by
  refine ⟨⟨ready_rec hits_wRec (by decide +kernel), by decide +kernel⟩, ready_rec hits_wHaltedRec (by decide +kernel),
    by decide +kernel, by decide +kernel, by decide +kernel, ?_, ?_⟩
  · have hw : ((hartWords (wHaltedRec.hartOf 1) (wHaltedRec.convoyOf (wHaltedRec.hartOf 1).convoy).ewBytes 0).all fun p =>
        decide (p.1 < hartRecord ∧ (0x200000 + p.1) % p.2.1 = 0)) = true := by decide +kernel
    refine Hits.saves (by decide) _ (fun p hp => ?_) wHaltedRec hits_wHaltedRec
    have := of_decide_eq_true (List.all_eq_true.mp hw p hp)
    exact ⟨show 0x200000 + p.1 < 0x200000 + hartRecord by omega, this.2⟩
  · obtain ⟨h, e, ha⟩ := readHart_ok (wHaltedRec.hartOf 1) (rec_words hits_wHaltedRec) (by decide +kernel) (by decide +kernel)
    rw [if_pos (by decide +kernel)] at e
    have hk := claimAccs_isSome (free := recFree wHaltedRec) ha
    rw [decide_eq_true (by decide +kernel)] at hk
    obtain ⟨k, hk⟩ := Option.isSome_iff_exists.mp hk
    exact ⟨h, k, e, hk⟩
theorem witness_ContextRecordResults_refused :
    (recReady wBadRec ∧ haltedTarget wBadRec (wBadRec.reg 13) = some 1 ∧ (wBadRec.hartOf 1).mma = []
      ∧ readHart (recordWord 0x200000) (wBadRec.hartOf 1) wBadRec = .ok none wBadRec)
    ∧ (recReady wFullRec ∧ haltedTarget wFullRec (wFullRec.reg 13) = some 1 ∧ (wFullRec.hartOf 1).mma = []
      ∧ ∃ h, readHart (recordWord 0x200000) (wFullRec.hartOf 1) wFullRec = .ok (some h) wFullRec
        ∧ claimAccs (recFree wFullRec) h = none) := by
  refine ⟨⟨ready_rec hits_wBadRec (by decide +kernel), by decide +kernel, by decide +kernel, ?_⟩,
    ready_rec hits_wFullRec (by decide +kernel), by decide +kernel, by decide +kernel, ?_⟩
  · obtain ⟨h, e, -⟩ := readHart_ok (wBadRec.hartOf 1) (rec_words hits_wBadRec) (by decide +kernel) (by decide +kernel)
    rwa [if_neg (by decide +kernel)] at e
  · obtain ⟨h, e, ha⟩ := readHart_ok (wFullRec.hartOf 1) (rec_words hits_wFullRec) (by decide +kernel) (by decide +kernel)
    rw [if_pos (by decide +kernel)] at e
    have hk := claimAccs_isSome (free := recFree wFullRec) ha
    rw [decide_eq_false (by decide +kernel)] at hk
    exact ⟨h, e, Option.isNone_iff_eq_none.mp (Option.isSome_eq_false_iff.mp hk)⟩

/-! ### Steps -/

abbrev atTurn (s : State) : State := { s with cur := 0, turn := 1 }
abbrev unitReady (s : State) : Prop :=
  let u := atTurn s
  (s.agenda = [] ∧ s.power ≠ .off ∧ nextOwn s = none ∧ nextHart s = some 0 ∧ slotOf u.hart.pc = 0)
    ∧ oddBits 20 (field (lineWord u.hart codeLine) 12 20) = false
    ∧ lineBad u.convoy (slotWord u.hart codeLine) (lineWord u.hart codeLine) = false
    ∧ ∀ j, j < 2 → oddBits 97 ((slotWord u.hart codeLine j).toNat * 2 + b2n (bit (lineWord u.hart codeLine) (13 + j))) = false
abbrev stepReady (s : State) : Prop :=
  fetchLine (lineOf (atTurn s).hart.pc) (atTurn s) = .ok codeLine (atTurn s) ∧ unitReady s
theorem ready_of {s : State} (f : okHere (fetchLine (lineOf (atTurn s).hart.pc) (atTurn s)) codeLine (atTurn s) = true)
    (r : unitReady s) : stepReady s := ⟨ok_here f, r⟩
theorem witness_StepRunsDecoded :
    (stepReady (wRun 0x440441460083000000000000) ∧ bit (lineWord (wRun 0x440441460083000000000000).hart codeLine) 18 = false)
    ∧ (let s := wLine [(encode (.add ⟨.w64, 6, 3, .imm 0x40⟩)).headD 0, 0x440441460083000000000000, 0, 0, 0] 1;
      stepReady s ∧ bit (lineWord s.hart codeLine) 18 = true
        ∧ conflict s.convoy (slotWord s.hart codeLine 0) (slotWord s.hart codeLine 1) = false)
    ∧ (let s := wLine [0x5C0C80420012001300000000, 0xFD803002B000000000000000, 0, 0, 0] 0;
      stepReady s ∧ isChain (slotWord s.hart codeLine 0) = true)
    ∧ (let s := { wRun 0 with agenda := [.cacheRepartition] };
      s.agenda = .cacheRepartition :: [] ∧ isEvent .cacheRepartition = true ∧ s.power ≠ .off) := by
  refine ⟨⟨ready_of ?_ ?_, ?_⟩, ⟨ready_of ?_ ?_, ?_⟩, ⟨ready_of ?_ ?_, ?_⟩, ?_⟩ <;> decide +kernel
/-- A pair in package 3; s2 is the fabric address of the word of s5, and s9 is not mapped. -/
def wPairOf (i j : Instr) : State :=
  let s := mapped { wLine [(encode i).headD 0, (encode j).headD 0, 0, 0, 0] 1 with package := 3 }
  withRegs [(2, 0x8000000000010100 + 3 * 2 ^ 44), (5, 0x10100), (6, 0x55), (9, 0x4000000000)]
    (s.setCtxOf 0 { s.ctxOf 0 with fcid := 7 })
/-- R64, R110: a load in slot 2 waits for the store that slot 1 sends to its word by the fabric address, and a pair whose
second access faults has sent none (R66, R111). -/
theorem test_pair_order :
    (let t := nextOf (step (wPairOf (.st ⟨.i32, 6, 2, .imm 0, none, false⟩) (.ld ⟨.i32, 7, 5, .imm 0, none⟩)));
      t.hart.status = .stalled ∧ t.hart.firm = true ∧ t.items.length = 1)
    ∧ (let t := nextOf (step (wPairOf (.st ⟨.i32, 6, 2, .imm 0, none, false⟩) (.ld ⟨.i32, 7, 9, .imm 0, none⟩)));
      t.hart.csr.xcause = 0x06 ∧ t.items = []) := by decide +kernel
/-- The decoded instruction runs in that step. -/
theorem test_step_runs : ∃ t, step (wRun 0x440441460083000000000000) = .next t ∧ t.hart.csr.instret = 1
  ∧ t.hart.pc = 0x10001 := by
  exact ⟨nextOf (step (wRun 0x440441460083000000000000)), next_of (by decide +kernel), by decide +kernel, by decide +kernel⟩
theorem witness_StepKeepsMemory :
    (wRun 0x440441460083000000000000).memOk ∧ isNext (step (wRun 0x440441460083000000000000)) = true :=
  ⟨(by decide +kernel : memWf (wRun 0x440441460083000000000000).mem = true), by decide +kernel⟩
theorem witness_EncodeDecode : (Instr.add ⟨.w64, 6, 3, .imm 0x40⟩).wf = true
  ∧ ∀ w, Instr.add ⟨.w64, 6, 3, .imm 0x40⟩ ≠ .reservedEncoding w :=
  ⟨by decide +kernel, fun w h => by cases h⟩

end Sys2Proof.Tests
end

section
/-! PROOFS. R4: a value written to memory reads back, and its bytes stand lowest first. -/

namespace Sys2Proof.Machine

/-- What one cell of memory adds to the value of `n` bytes from key `k`. -/
def cellValue (k n : Nat) (p : Host.Cell) : Nat :=
  if k ≤ p.1 ∧ p.1 < k + n then p.2.toNat * 256 ^ (p.1 - k) else 0

theorem cellValue_zero (k : Nat) : cellValue k 0 = fun _ => 0 :=
  funext fun _ => if_neg (by omega)

/-- A cell adds to the lowest byte of a value or to the value of the bytes above it. -/
theorem cellValue_succ (k n : Nat) :
    cellValue k (n + 1) = fun p => cellValue k 1 p + 256 * cellValue (k + 1) n p := by
  funext ⟨a, b⟩
  rcases Nat.lt_or_ge a (k + 1) with low | high
  · have above : ¬ (k + 1 ≤ a ∧ a < k + 1 + n) := by omega
    simp only [cellValue, if_neg above]
    exact if_congr (by omega) rfl rfl
  · have first : ¬ (k ≤ a ∧ a < k + 1) := by omega
    have up : a - k = a - (k + 1) + 1 := by omega
    simp only [cellValue, if_neg first, Nat.zero_add, mul_ite, Nat.mul_zero, up, pow_succ']
    exact if_congr (by omega) (Nat.mul_left_comm ..) rfl

/-- A value in memory is the sum of what its cells add. -/
theorem memReadN_eq_sum (m : List Host.Cell) (k n : Nat) : memReadN m k n = (m.map (cellValue k n)).sum := by
  have add : ∀ (a : Nat) (p : Host.Cell),
      (if k ≤ p.1 ∧ p.1 < k + n then a + p.2.toNat <<< (8 * (p.1 - k)) else a) = a + cellValue k n p := by
    intro a p
    rw [cellValue, Nat.shiftLeft_eq, pow_mul]
    split <;> rfl
  simp only [memReadN, add, List.sum_eq_foldl, List.foldl_map]

@[simp] theorem memReadN_zero (m : List Host.Cell) (k : Nat) : memReadN m k 0 = 0 := by
  simp [memReadN_eq_sum, cellValue_zero]

/-- The first byte of a value is its lowest. -/
theorem memReadN_succ (m : List Host.Cell) (k n : Nat) :
    memReadN m k (n + 1) = memReadN m k 1 + 256 * memReadN m (k + 1) n := by
  simp only [memReadN_eq_sum, cellValue_succ k n, List.sum_map_add, List.sum_map_mul_left]

/-- Removing a key removes the byte that stands at it. -/
theorem memReadN_merase (m : List Host.Cell) (k : Nat) : memReadN (merase m k) k 1 = 0 := by
  have none_left : (merase m k).filter (inSpan k 1) = [] := by
    rw [List.filter_eq_nil_iff]
    intro p hp
    have away : p.1 ≠ k := by simpa using (List.mem_filter.1 hp).2
    simp only [inSpan, Bool.and_eq_true, decide_eq_true_eq]
    omega
  rw [memReadN_eq, none_left, List.foldl_nil]

theorem minsert_perm {α : Type} (m : List (Nat × α)) (k : Nat) (v : α) : (minsert m k v).Perm ((k, v) :: m) := by
  induction m with
  | nil => rfl
  | cons p t ih =>
    simp only [minsert]
    split
    · rfl
    · exact (ih.cons p).trans (.swap ..)

/-- The byte at a key is what was last written there; no second cell of that key is left. -/
theorem memReadN_memWrite (m : List Host.Cell) (k : Nat) (b : Byte) : memReadN (memWrite m k b) k 1 = b.toNat := by
  unfold memWrite
  split
  · rename_i zero
    simp [memReadN_merase, zero]
  · have rest := memReadN_merase m k
    rw [memReadN_eq_sum] at rest ⊢
    rw [mset, ((minsert_perm _ k b).map _).sum_eq, List.map_cons, List.sum_cons, rest]
    simp [cellValue]

/-- Bytes written to memory read back as the number that they stand for. -/
theorem memReadN_memWriteBytes (bs : List Byte) (m : List Host.Cell) (k : Nat) :
    memReadN (memWriteBytes m k bs) k bs.length = ofBytes bs := by
  induction bs generalizing m k with
  | nil => simp [ofBytes]
  | cons b t ih =>
    rw [memWriteBytes, List.length_cons, memReadN_succ, ih,
      memReadN_memWriteBytes_out _ _ _ _ _ (by omega), memReadN_memWrite, ofBytes]

/-- The low `n` bytes of a value stand for the value modulo 256 ^ n. -/
theorem ofBytes_toBytes (n v : Nat) : ofBytes (toBytes n v) = v % 256 ^ n := by
  induction n generalizing v with
  | zero => simp [toBytes, ofBytes, Nat.mod_one]
  | succ n ih => rw [toBytes, ofBytes, ih, BitVec.toNat_ofNat, pow_succ' 256 n, Nat.mod_mul (a := 256)]

/-- Settles O9: a write replaces the cell of each of its keys, so the bytes read back in order, for every memory. -/
theorem littleEndianMemory : Obligations.LittleEndianMemory := by
  intro m k n v
  refine ⟨?_, fun i hi => ?_, fun a ha => ?_⟩
  · have back := memReadN_memWriteBytes (toBytes n v) m k
    rwa [length_toBytes, ofBytes_toBytes] at back
  · rw [memRead_memWriteBytes_in _ _ _ _ (by simpa using hi), toBytes_get _ _ _ hi]
  · exact memRead_memWriteBytes_out _ _ _ _ (by simpa using ha)

end Sys2Proof.Machine
end

section
/-! PROOFS. R25, R88, R92, R99: what a scalar arithmetic instruction can do to the state, and what it leaves. -/

namespace Sys2Proof.Machine

/-! ### Operations that only look -/

/-- From every state the operation gives a value or traps, and the state stays as it is. -/
def Peeks {α : Type} (op : M α) : Prop := ∀ s, (∃ a, op s = .ok a s) ∨ ∃ x, op s = .error (.trap x) s

theorem peeks_pure {α : Type} (a : α) : Peeks (pure a : M α) := fun _ => .inl ⟨a, rfl⟩

theorem getHart_peeks : Peeks getHart := fun s => .inl ⟨s.hart, rfl⟩

theorem Peeks.bind {α β : Type} {op : M α} {f : α → M β} (ho : Peeks op) (hf : ∀ a, Peeks (f a)) :
    Peeks (op >>= f) := by
  intro s
  rcases ho s with ⟨a, ok⟩ | ⟨x, err⟩
  · rw [bind_ok ok]; exact hf a s
  · exact .inr ⟨x, bind_error err⟩

theorem readS_peeks (r : SReg) : Peeks (readS r) := by
  intro s
  cases h : s.canRead r with
  | true => exact .inl ⟨_, readS_ok h⟩
  | false => exact .inr ⟨_, readS_poisoned h⟩

theorem readSrc_peeks (b : Src) : Peeks (readSrc b) := by
  cases b with
  | reg r => exact readS_peeks r
  | imm i => exact peeks_pure _

theorem readF_peeks (t : EType) (r : SReg) : Peeks (readF t r) := (readS_peeks r).bind fun _ => peeks_pure _

theorem readFSrc_peeks (t : EType) (b : Src) : Peeks (readFSrc t b) := by
  cases b with
  | reg r => exact (readF_peeks t r).bind fun _ => peeks_pure _
  | imm i => exact getHart_peeks.bind fun _ => peeks_pure _

/-! ### Operations with one destination -/

/-- From every state the operation writes s[`d`], adds flags and completes, or traps with the state as it was. -/
def Computes (d : SReg) (op : M Ctl) : Prop :=
  ∀ s, (∃ v fl, op s = .ok .next (s.setHart ((s.hart.writeS d v).addFlags fl))) ∨ ∃ x, op s = .error (.trap x) s

theorem Peeks.computes {α : Type} {d : SReg} {op : M α} {f : α → M Ctl} (ho : Peeks op)
    (hf : ∀ a, Computes d (f a)) : Computes d (op >>= f) := by
  intro s
  rcases ho s with ⟨a, ok⟩ | ⟨x, err⟩
  · rw [bind_ok ok]; exact hf a s
  · exact .inr ⟨x, bind_error err⟩

/-- The end of an integer operation. -/
theorem writeS_computes (d : SReg) (v : Word) : Computes d (do writeS d v; pure .next) :=
  fun _ => .inl ⟨v, 0, by rw [bind_ok (writeS_run _ _ _), addFlags_zero]; rfl⟩

/-- The end of a floating operation. -/
theorem writeS_addFlags_computes (d : SReg) (v : Word) (fl : Flags) :
    Computes d (do writeS d v; addFlags fl; pure .next) :=
  fun _ => .inl ⟨v, fl, by
    rw [bind_ok (writeS_run _ _ _), bind_ok (addFlags_run _ _), pure_run, State.setHart_hart, State.setHart_setHart]⟩

theorem sBin_computes (f : Nat → Nat → Nat → Nat) (x : SInt) : Computes x.d (sBin f x) :=
  (readS_peeks _).computes fun _ => (readSrc_peeks _).computes fun _ => writeS_computes _ _

theorem sUn_computes (f : Nat → Nat → Nat) (x : SIntUn) : Computes x.d (sUn f x) :=
  (readS_peeks _).computes fun _ => writeS_computes _ _

theorem opSet_computes (x : SSet) : Computes x.d (opSet x) :=
  (readS_peeks _).computes fun _ => (readSrc_peeks _).computes fun _ => writeS_computes _ _

theorem opSel_computes (x : SSel) : Computes x.d (opSel x) :=
  (readS_peeks _).computes fun _ => (readSrc_peeks _).computes fun _ => (readS_peeks _).computes fun _ =>
    writeS_computes _ _

theorem opBfx_computes (x : SBfx) : Computes x.d (opBfx x) := (readS_peeks _).computes fun _ => writeS_computes _ _

theorem opBfi_computes (x : SBfi) : Computes x.d (opBfi x) :=
  (readS_peeks _).computes fun _ => (readS_peeks _).computes fun _ => writeS_computes _ _

theorem opLi_computes (x : LImm) : Computes x.d (opLi x) := writeS_computes _ _

theorem opLpc_computes (x : LImm) : Computes x.d (opLpc x) := getHart_peeks.computes fun _ => writeS_computes _ _

theorem fBin_computes (f : EType → Nat → Nat → Nat → Nat × Flags) (x : SFp) : Computes x.d (fBin f x) :=
  (readF_peeks _ _).computes fun _ => (readFSrc_peeks _ _).computes fun _ => getHart_peeks.computes fun _ =>
    writeS_addFlags_computes _ _ _

theorem fUn_computes (f : EType → Nat → Nat → Nat × Flags) (x : SFpUn) : Computes x.d (fUn f x) :=
  (readF_peeks _ _).computes fun _ => getHart_peeks.computes fun _ => writeS_addFlags_computes _ _ _

theorem opFma_computes (x : SFma) : Computes x.d (opFma x) :=
  (readF_peeks _ _).computes fun _ => (readFSrc_peeks _ _).computes fun _ => (readF_peeks _ _).computes fun _ =>
    getHart_peeks.computes fun _ => writeS_addFlags_computes _ _ _

theorem opFset_computes (x : SFset) : Computes x.d (opFset x) :=
  (readF_peeks _ _).computes fun _ => (readFSrc_peeks _ _).computes fun _ => writeS_addFlags_computes _ _ _

theorem opFcvt_computes (x : SFcvt) : Computes x.d (opFcvt x) :=
  (readF_peeks _ _).computes fun _ => getHart_peeks.computes fun _ => writeS_addFlags_computes _ _ _

theorem opFsgn_computes (x : SFsgn) : Computes x.d (opFsgn x) :=
  (readF_peeks _ _).computes fun _ => (readF_peeks _ _).computes fun _ => writeS_computes _ _

/-- What `scalarDest` names is a unit whose operation writes that register alone. -/
theorem scalarDest_computes {i : Instr} {d : SReg} (h : scalarDest i = some d) :
    ∃ op, (∀ s, exec i s = runUnit op s) ∧ Computes d op := by
  cases i with
  | add x | sub x | mul x | mulh x | mulhu x | div x | divu x | rem x | remu x | and x | or x | xor x | andn x | shl x
  | shr x | sar x | rot x | min x | max x | minu x | maxu x => cases h; exact ⟨_, fun _ => rfl, sBin_computes _ x⟩
  | set x => cases h; exact ⟨_, fun _ => rfl, opSet_computes x⟩
  | sel x => cases h; exact ⟨_, fun _ => rfl, opSel_computes x⟩
  | clz x | ctz x | popc x => cases h; exact ⟨_, fun _ => rfl, sUn_computes _ x⟩
  | bfx x => cases h; exact ⟨_, fun _ => rfl, opBfx_computes x⟩
  | bfi x => cases h; exact ⟨_, fun _ => rfl, opBfi_computes x⟩
  | li x => cases h; exact ⟨_, fun _ => rfl, opLi_computes x⟩
  | lpc x => cases h; exact ⟨_, fun _ => rfl, opLpc_computes x⟩
  | fadd x | fsub x | fmul x | fdiv x | fmin x | fmax x => cases h; exact ⟨_, fun _ => rfl, fBin_computes _ x⟩
  | fma x => cases h; exact ⟨_, fun _ => rfl, opFma_computes x⟩
  | fsqrt x | fclass x => cases h; exact ⟨_, fun _ => rfl, fUn_computes _ x⟩
  | fset x => cases h; exact ⟨_, fun _ => rfl, opFset_computes x⟩
  | fcvt x => cases h; exact ⟨_, fun _ => rfl, opFcvt_computes x⟩
  | fsgn x => cases h; exact ⟨_, fun _ => rfl, opFsgn_computes x⟩
  | _ => cases h

/-! ### Ends of a unit that changes the current hart alone -/

theorem State.sameBut.mem {s t : State} (h : s.sameBut t) : t.mem = s.mem := by rw [h.1]

theorem State.sameBut.other {s t : State} (h : s.sameBut t) {g : Nat} (hg : g ≠ s.cur) :
    mget t.harts g = mget s.harts g := by
  rw [h.1]
  exact (mget_mset ..).trans (if_neg hg.symm)

/-- A hart that stays in its convoy is all that a change of the current hart changes. -/
theorem sameBut_setHart (s : State) {h : Hart} (hc : h.convoy = s.hart.convoy) : s.sameBut (s.setHart h) := by
  refine ⟨?_, ?_⟩
  · rw [State.setHart_hart]; rfl
  · rw [State.setHart_convoy s h hc, if_pos rfl]; rfl

theorem State.setConvoy_convoy (s : State) (c : Convoy) : (s.setConvoy c).convoy = c := State.setConvoyOf_same ..

theorem resumeDetection_hart (s : State) : (resumeDetection s).hart = s.hart := by
  unfold resumeDetection
  split <;> rfl

theorem commitsHart_hart (s : State) (h : Hart) : (s.commitsHart h).hart = retire 1 (nextSlot s.hart.pc) h := by
  simp [State.commitsHart, State.commits, finishUnit]

/-- A committed unit may also end the suspension of its convoy's deadlock detection (R268). -/
theorem sameBut_commitsHart (s : State) {h : Hart} (hc : h.convoy = s.hart.convoy) : s.sameBut (s.commitsHart h) := by
  have hart := commitsHart_hart s h
  have convoys : (s.commitsHart h).convoys = (resumeDetection (s.setHart h)).convoys := rfl
  have convoy : (s.commitsHart h).convoy = (resumeDetection (s.setHart h)).convoy := by
    rw [State.convoy, hart, State.convoy, resumeDetection_hart, State.setHart_hart]; rfl
  refine ⟨?_, ?_⟩
  · rw [hart]
    unfold State.commitsHart State.commits finishUnit resumeDetection
    simp only [State.setHart_hart]
    split <;> simp [State.setHart, State.setHartOf, State.setConvoy, State.setConvoyOf, mset_mset]
  · rw [convoys, convoy]
    unfold resumeDetection
    rw [State.setHart_convoy s h hc]
    cases suspended : s.convoy.suspended with
    | false => simp [suspended, hc]
    | true =>
      rw [if_pos rfl, State.setConvoy_convoy, if_neg (by simp), State.setConvoy, State.setHart_hart, hc]
      rfl

theorem takeTrap_pc (x : Trap) (p : Bool) (pc : Word) (h : Hart) : (takeTrap x p pc h).pc = lineOf h.csr.tvec := by
  unfold takeTrap
  split <;> rfl

theorem takeTrap_mode (x : Trap) (p : Bool) (pc : Word) (h : Hart) : (takeTrap x p pc h).mode = .supervisor := by
  unfold takeTrap
  split <;> rfl

theorem takeTrap_csr (x : Trap) (p : Bool) (pc : Word) (h : Hart) :
    (takeTrap x p pc h).csr = (trapEntry x p pc h).csr := by
  unfold takeTrap
  split <;> rfl

theorem takeTrap_instret (x : Trap) (p : Bool) (pc : Word) (h : Hart) :
    (takeTrap x p pc h).csr.instret = h.csr.instret := by
  rw [takeTrap_csr]
  rfl

/-- What a computing instruction's end does to the CSRs: `instret` and `fflags` alone. -/
theorem ended_retire (n : Nat) (pc : Word) (d : SReg) (v : Word) (fl : Flags) (h : Hart) :
    h.csr.ended (retire n pc ((h.writeS d v).addFlags fl)).csr := by
  simp only [Csrs.ended, retire, Hart.addFlags, Hart.writeS_csr]

theorem ended_takeTrap (x : Trap) (p : Bool) (pc : Word) (h : Hart) : h.csr.ended (takeTrap x p pc h).csr := by
  rw [takeTrap_csr]
  rfl

/-- Settles O3: the operation of such an instruction writes its destination and flags, or traps before it writes. -/
theorem scalarFrame : Obligations.ScalarFrame := by
  intro i d s t hd ht
  obtain ⟨op, run, computes⟩ := scalarDest_computes hd
  rw [run] at ht
  rcases computes s with ⟨v, fl, ok⟩ | ⟨x, err⟩
  · obtain rfl := Host.Outcome.next.inj ((runUnit_hart ok).symm.trans ht)
    have same := sameBut_commitsHart s (h := (s.hart.writeS d v).addFlags fl) (by simp)
    refine ⟨same, same.mem, fun g hg => same.other hg, fun r hr => ?_, ?_⟩
    · have kept : ¬ (d = r ∧ d ≠ 0) := by
        rintro ⟨rfl, nz⟩
        exact hr.elim (fun ne => ne rfl) nz
      rw [commitsHart_hart]
      exact (Hart.writeS_get d r v s.hart).trans (if_neg kept)
    · rw [commitsHart_hart]
      simp [ended_retire]
  · obtain rfl := Host.Outcome.next.inj ((runUnit_trap err).symm.trans ht)
    have same := sameBut_setHart s (h := takeTrap x false s.hart.pc s.hart) (by simp)
    refine ⟨same, same.mem, fun g hg => same.other hg, fun r _ => ?_, ?_⟩
    · simp [State.traps]
    · simp [State.traps, takeTrap_pc, takeTrap_mode, ended_takeTrap, takeTrap_instret]

end Sys2Proof.Machine
end

section
/-! PROOFS. R35, R63, R103: a transfer to a bad target. -/

namespace Sys2Proof.Machine

/-- The check of a refused target raises illegal branch target (R35, R63). -/
theorem checkTarget_refused {s t : State} {target : Word} {bt : Bool} (h : s.refuses target bt t) :
    checkTarget target bt s = .error (.trap { cause := 0x03, addr := some target }) t := by
  unfold checkTarget
  rcases h with ⟨bad, rfl⟩ | ⟨good, l, found, refused⟩
  · have breaks : pcBreaks target = true := by simpa [pcBreaks, slotOf] using bad
    rw [if_pos breaks]
    rfl
  · have keeps : ¬ pcBreaks target = true := by simpa [pcBreaks, slotOf] using good
    rw [if_neg keeps]
    dsimp only
    rw [bind_ok (get_run s), found]
    dsimp only
    rw [bind_ok (set_run s t)]
    cases bt with
    | true =>
      have unset : bit (lineWord t.hart l) (22 + slotOf target) = false := refused
      simp [unset, raiseAt]
    | false =>
      obtain ⟨later, second⟩ : 0 < slotOf target ∧ bit (lineWord t.hart l) (17 + slotOf target) = true := refused
      have place : 18 + (slotOf target - 1) = 17 + slotOf target := by omega
      simp [place, later, second, raiseAt]

/-- A refused target is met before the transfer's effect (R103). -/
theorem takeJump_refused {s t : State} {target : Word} {bt : Bool} (effect : M Unit) (h : s.refuses target bt t) :
    takeJump target bt effect s = .error (.trap { cause := 0x03, addr := some target }) t :=
  bind_error (checkTarget_refused h)

/-- A branch by R70 that is taken to a refused target. -/
theorem branchIf_refused {s t : State} {p : Bool} {x : Target} (effect : M Unit) (taken : p = true)
    (h : s.refuses (branchTarget s.hart.pc x) true t) :
    branchIf p x effect s = .error (.trap { cause := 0x03, addr := some (branchTarget s.hart.pc x) }) t := by
  subst taken
  unfold branchIf
  rw [if_pos rfl, bind_ok (getHart_run s)]
  exact takeJump_refused effect h

/-! ### What stands before the transfer -/

theorem opB_branches {s : State} (x : BrReg) (ha : s.canRead x.a = true) (hb : s.canRead x.b = true) :
    opB x s = branchIf (condHolds x.cc 64 (s.reg x.a).toNat (s.reg x.b).toNat) x.t (pure ()) s := by
  unfold opB
  rw [bind_ok (readS_ok ha), bind_ok (readS_ok hb)]

theorem opBi_branches {s : State} (x : BrImm) (ha : s.canRead x.a = true) :
    opBi x s = branchIf (condHolds x.cc 64 (s.reg x.a).toNat (x.imm.signExtend 64).toNat) x.t (pure ()) s := by
  unfold opBi
  rw [bind_ok (readS_ok ha)]

/-- A transfer to the address that a register holds. -/
theorem readS_jumps {s : State} {a : SReg} (ha : s.canRead a = true) (bt : Bool) (effect : M Unit) :
    (readS a >>= fun target => takeJump target bt effect) s = takeJump (s.reg a) bt effect s :=
  bind_ok (readS_ok ha)

/-- `strip` reads its pointers and then branches unless `sc` has come to 0 (R105). -/
theorem opStrip_branches {s : State} (x : Strip) (ha : s.canRead x.a = true) (hb : s.canRead x.b = true)
    (hc : s.canRead x.c = true) (he : s.canRead x.e = true) :
    ∃ effect, opStrip x s = branchIf ((if s.hart.csr.vl ≤ s.hart.csr.sc.toNat then
      s.hart.csr.sc - BitVec.ofNat 64 s.hart.csr.vl else 0) != 0) x.t effect s := by
  unfold opStrip
  rw [bind_ok (getHart_run s), bind_ok (getConvoy_run s)]
  dsimp only
  rw [bind_ok (readS_ok ha), bind_ok (readS_ok hb), bind_ok (readS_ok hc), bind_ok (readS_ok he)]
  exact ⟨_, rfl⟩

/-- More elements are left than one strip takes. -/
theorem stripCount_ne_zero {sc : Word} {n : Nat} (h : n < sc.toNat) :
    ((if n ≤ sc.toNat then sc - BitVec.ofNat 64 n else 0) != 0) = true := by
  rw [if_pos h.le, bne_iff_ne]
  intro zero
  have := congrArg BitVec.toNat zero
  simp at this
  omega

theorem opBm_branches {s : State} (hs : s.clean) (x : BrMask) :
    opBm x s = branchIf (maskTest x.test ((List.range s.hart.csr.vl).map (s.activeAt_ x.a))) x.t (pure ()) s := by
  unfold opBm
  rw [bind_ok (getConvoy_run s), bind_ok (getHart_run s), bind_ok (checkMask_clean hs ..)]
  rfl

/-- One element of `vloopl` as the model's state predicate has it (R106). -/
theorem vloopStep_eq (a : VName) (bits : Nat) (m : MName) (i : Nat) (h : Hart) :
    vloopStep a bits m i h =
      let n := h.elem a bits i
      let h' := if n = 0 then h else h.setElem a bits i (n - 1)
      if n ≤ 1 then h'.setMaskBit m i false else h' := by
  simp only [vloopStep, Nat.sub_eq_zero_iff_le]

/-- `vloopl` counts, and branches while a mask bit is left (R106). -/
theorem opVloopl_branches {s : State} (hs : s.clean) {x : VLoop} (hm : x.c ≠ 0)
    (ha : x.a.val % s.convoy.grpRegs = 0) (hb : s.hart.m[x.c].bound = none) :
    opVloopl x s = branchIf (s.loopsOn x) x.t (setHart (s.looped x)) s := by
  have fits : require (x.c != 0 && aligned x.a s.convoy.grpRegs) s = .ok () s := by simp [hm, aligned, ha]
  have loop : ((List.range s.hart.csr.vl).filter fun i =>
        (s.hart.mask s.convoy.ewBytes x.c).active s.convoy.ewBytes i).foldl
      (fun g i => vloopStep x.a (8 * s.convoy.ewBytes) x.c i g) (s.hart.expandMask s.convoy.ewBytes x.c) = s.looped x := by
    simp only [vloopStep_eq]
    rfl
  unfold opVloopl
  rw [bind_ok (getConvoy_run s)]
  rw [bind_ok fits, bind_ok (stallBound_free (.inr hb)), bind_ok (getHart_run s), bind_ok (checkMask_clean hs ..)]
  simp only [find_clean hs, loop]
  rfl

theorem opApply_jumps {s : State} {a : CName} (hr : s.canReadC a = true) (hv : s.holds s.hart.c[a]) :
    ∃ effect, opApply a s = takeJump (entryOf s.ctx.codebase s.hart.c[a]) true effect s := by
  have valid : validate s.hart.c[a] s = .ok (s.window.2.frame (hFrame s.hart.c[a])) s := by
    unfold validate
    rw [bind_ok (get_run s), if_pos hv, pure_run]
  unfold opApply
  rw [bind_ok (readC_ok hr), bind_ok valid, bind_ok (getCtx_run s)]
  exact ⟨_, rfl⟩

/-- Settles O5: the target is checked after the operands are read and before any effect of the transfer. -/
theorem badTargetFaults : Obligations.BadTargetFaults := by
  intro s t faults label long
  refine ⟨fun x ha hb holds h => ?b, fun x ha holds h => ?bi, fun x => ⟨fun h => ?jmp, fun h => ?call⟩,
    fun a ha => ⟨fun h => ?jmpr, fun h => ?callr⟩, fun x => ⟨fun h => ?jmpl, fun h => ?calll⟩, fun ha h => ?ret,
    fun x ha hb hc he more h => ?strip, fun hs x holds h => ?bm, fun hs x hm ha hb more h => ?vloopl,
    fun a hr hv h => ?apply⟩
  case b => exact runUnit_trap ((opB_branches x ha hb).trans (branchIf_refused _ holds h))
  case bi => exact runUnit_trap ((opBi_branches x ha).trans (branchIf_refused _ holds h))
  case jmp | call => exact runUnit_trap (branchIf_refused _ rfl h)
  case jmpr | callr => exact runUnit_trap ((readS_jumps ha _ _).trans (takeJump_refused _ h))
  case jmpl | calll => exact runUnit_trap ((bind_ok (getHart_run s)).trans (takeJump_refused _ h))
  case ret => exact runUnit_trap ((readS_jumps ha _ _).trans (takeJump_refused _ h))
  case strip =>
    obtain ⟨effect, branches⟩ := opStrip_branches x ha hb hc he
    exact runUnit_trap (branches.trans (branchIf_refused effect (stripCount_ne_zero more) h))
  case bm => exact runUnit_trap ((opBm_branches hs x).trans (branchIf_refused _ holds h))
  case vloopl => exact runUnit_trap ((opVloopl_branches hs hm ha hb).trans (branchIf_refused _ more h))
  case apply =>
    obtain ⟨effect, jumps⟩ := opApply_jumps hr hv
    exact runUnit_trap (jumps.trans (takeJump_refused effect h))

end Sys2Proof.Machine
end

section
/-! PROOFS. R23, R24, R164: CSR instructions whose number, privilege and value are allowed. -/

namespace Sys2Proof.Machine

/-- A read, or a write outside the status window, of a CSR that is assigned and may be reached (R23). -/
theorem csrCheck_ok {s : State} {x : Csr} {old : Word} {write : Bool}
    (view : x.csr.toNat < 0x800 ∨ s.hart.mode = .supervisor)
    (value : csrRead s x.csr.toNat = some old) (idle : x.csr = 7 → s.hart.mma = [])
    (window : write = true → x.csr.toNat < 0x400 ∨ 0x800 ≤ x.csr.toNat) :
    csrCheck x.csr.toNat write s = .ok old s := by
  have allowed : ¬ (decide (0x800 ≤ x.csr.toNat) && s.hart.mode == .user) = true := by
    rcases view with low | sup
    · simp; omega
    · simp [sup]
  have writable : ¬ (write && decide (0x400 ≤ x.csr.toNat) && decide (x.csr.toNat < 0x800)) = true := by
    simp only [Bool.and_eq_true, decide_eq_true_eq, not_and]
    intro w
    have := window w.1
    omega
  have added : ¬ (x.csr.toNat == 0x007 && !s.hart.mma.isEmpty) = true := by
    simp only [Bool.and_eq_true, beq_iff_eq, not_and]
    intro n
    simp [idle (BitVec.eq_of_toNat_eq n)]
  unfold csrCheck
  rw [bind_ok (get_run s), if_neg allowed]
  dsimp only
  rw [value]
  dsimp only
  rw [if_neg writable, if_neg added]
  rfl

/-- The state after a CSR takes a value and s[D] its old one (R164). -/
def State.csrWritten (s : State) (x : Csr) (old new w1c : Word) : State :=
  let u := s.setHart { s.hart with csr := csrSet x.csr.toNat new s.hart.csr }
  let v := u.setCtxOf s.ctxId (ctxSet x.csr.toNat new w1c s.ctx)
  v.setHart (v.hart.writeS x.d old)

theorem csrOp_write {s : State} {x : Csr} {old : Word} {f : Word → Word → Word} {w1c : Bool}
    (check : csrCheck x.csr.toNat true s = .ok old s) (ha : s.canRead x.a = true)
    (ok : x.csr.toNat = 8 → (f old (s.reg x.a)).toNat % 8 ≤ 4) :
    csrOp x (some f) w1c s =
      .ok .next (s.csrWritten x old (f old (s.reg x.a)) (if w1c then s.reg x.a else 0)) := by
  have valid : ¬ (x.csr.toNat == 0x008 && !frmOk (f old (s.reg x.a))) = true := by
    simp only [Bool.and_eq_true, beq_iff_eq, not_and]
    intro n
    simp [frmOk, ok n]
  have ctxId : (s.setHart { s.hart with csr := csrSet x.csr.toNat (f old (s.reg x.a)) s.hart.csr }).ctxId = s.ctxId :=
    congrArg Convoy.ctx (State.setHart_convoy s _ rfl)
  unfold csrOp
  dsimp only
  rw [Option.isSome_some, bind_ok check, bind_ok (readS_ok ha), if_neg valid, bind_ok (modCsr_run _ _),
    bind_ok (modify_run _ _), bind_ok (writeS_run _ _ _), State.ctx, ctxId]
  rfl

/-- Settles O37: the number, the privilege and the value pass their checks, and the rest of the operation runs. -/
theorem csrResults : Obligations.CsrResults := by
  intro s x old view value idle
  refine ⟨?_, fun ha window => ?_⟩
  · have check := csrCheck_ok (write := false) view value idle (by simp)
    refine runUnit_hart ?_
    unfold opCsrr csrOp
    dsimp only
    rw [Option.isSome_none, bind_ok check]
    rfl
  · have check := csrCheck_ok (write := true) view value idle fun _ => window
    exact ⟨fun ok => runUnit_next (csrOp_write check ha ok), fun ok => runUnit_next (csrOp_write check ha ok),
      fun ok => runUnit_next (csrOp_write check ha ok)⟩

end Sys2Proof.Machine
end

section
/-! PROOFS. R239, R248, R315, R320 to R323: what the dispatcher does, and the hart that it starts. -/

namespace Sys2Proof.Machine

/-! ### Convoys, contexts and virtual devices as they were -/

/-- The convoys, the contexts and the virtual devices of `t` are those of `s`. -/
structure State.SameTables (s t : State) : Prop where
  convoys : t.convoys = s.convoys
  contexts : t.contexts = s.contexts
  vdevs : t.vdevs = s.vdevs

section
variable {s₀ s : State}

theorem State.SameTables.refl (s : State) : s.SameTables s := ⟨rfl, rfl, rfl⟩

theorem State.SameTables.trans {t : State} (h : s₀.SameTables s) (k : s.SameTables t) : s₀.SameTables t :=
  ⟨k.convoys.trans h.convoys, k.contexts.trans h.contexts, k.vdevs.trans h.vdevs⟩

theorem State.SameTables.convoyOf (h : s₀.SameTables s) (u : Nat) : s.convoyOf u = s₀.convoyOf u :=
  congrArg (fun m => (mget m u).getD Convoy.reset) h.convoys

theorem State.SameTables.ctxOf (h : s₀.SameTables s) (n : Nat) : s.ctxOf n = s₀.ctxOf n :=
  congrArg (fun m => (mget m n).getD Context.reset) h.contexts

theorem State.walkedTo.sameTables (h : s.walkedTo s₀) : s.SameTables s₀ := by
  obtain ⟨c, n, rfl⟩ := h
  exact ⟨rfl, rfl, rfl⟩

/-- Steps that each keep the tables keep them together. -/
theorem sameTables_foldl {α : Type} {f : State → α → State} (hf : ∀ (t : State) a, t.SameTables (f t a)) (l : List α)
    (s : State) : s.SameTables (l.foldl f s) := by
  induction l generalizing s with
  | nil => exact .refl s
  | cons a l ih => exact (hf s a).trans (ih _)

theorem wakeMonitors_sameTables (k n : Nat) (s : State) : s.SameTables (wakeMonitors k n s) := by
  unfold wakeMonitors
  split <;> exact ⟨rfl, rfl, rfl⟩

theorem pokeN_sameTables (k n v : Nat) (s : State) : s.SameTables (pokeN k n v s) := by
  refine .trans ?_ (wakeMonitors_sameTables ..)
  split <;> exact ⟨rfl, rfl, rfl⟩

theorem squash_sameTables (s : State) (p : Nat × Hart) : s.SameTables (squash s p) := by
  unfold squash
  split <;> exact ⟨rfl, rfl, rfl⟩

theorem engPlace_sameTables (core : Option Nat) (n : Nat) (view : Mode) (fam : Fam) (acc : Acc) (va : Word)
    (h : s₀.SameTables s) : EndsIn s₀.SameTables (engPlace core n view fam acc va) s := by
  have walked := translate_walked core (s.ctxOf n) view fam acc va s.walkedTo_self
  unfold EndsIn engPlace at *
  split
  · exact h
  · generalize translate core (s.ctxOf n) view fam acc va s = r at *
    cases r with
    | ok l t => exact h.trans walked.sameTables
    | error e t => exact h.trans walked.sameTables

theorem engWrite_sameTables (core : Option Nat) (ctx : Nat) (view : Mode) (fam : Fam) (va : Word) (n v : Nat)
    (h : s₀.SameTables s) : EndsIn s₀.SameTables (engWrite core ctx view fam va n v) s := by
  unfold engWrite
  refine ends_bind (engPlace_sameTables _ _ _ _ _ _ h) fun l t ht => ends_ite (fun _ => ?_) fun _ => ends_get_bind ?_
  · exact ends_modify (ht.trans ⟨rfl, rfl, rfl⟩)
  · exact ends_ite (fun _ => ends_bind (ends_throw ht _) fun _ _ hu => ends_set (ht.trans (pokeN_sameTables _ _ _ _)))
      fun _ => ends_set (ht.trans (pokeN_sameTables _ _ _ _))

/-- Operations of which each keeps a property keep it one after another. -/
theorem ends_forM {ε α : Type} {P : State → Prop} {f : α → EStateM ε State PUnit} (hf : ∀ a t, P t → EndsIn P (f a) t)
    (l : List α) {s : State} (h : P s) : EndsIn P (l.forM f) s := by
  induction l generalizing s with
  | nil => exact h
  | cons a l ih => exact ends_bind (hf a s h) fun _ t ht => ih ht

theorem saveImage_sameTables (ctx : Nat) (base : Word) (ewb : Nat) (words : List (Nat × Nat)) (hs : List (Nat × Hart))
    (h : s₀.SameTables s) : EndsIn s₀.SameTables (saveImage ctx base ewb words hs) s := by
  unfold saveImage saveWrite
  refine ends_bind (ends_forM (fun _ _ ht => engWrite_sameTables _ _ _ _ _ _ _ ht) _ h) fun _ t ht => ?_
  exact ends_forM (fun _ _ hu => ends_forM (fun _ _ hv => engWrite_sameTables _ _ _ _ _ _ _ hv) _ hu) _ ht

end

/-! ### A convoy leaves its core (R248) -/

/-- A convoy is out: it has no hart and no core, its record is written, and it stands in a restore list. -/
structure State.IsOut (s : State) (u vd : Nat) : Prop where
  harts : ∀ p ∈ s.harts, p.2.convoy ≠ u
  core : (s.convoyOf u).core = none
  record : (s.convoyOf u).record.isSome = true
  leaving : (s.convoyOf u).leaving = false
  restores : u ∈ (s.vdevOf vd).restores

theorem routeLog_isOut {s : State} {u vd : Nat} (h : s.IsOut u vd) (ctx kind cidx core slots : Nat) (seq : BitVec 40) :
    (routeLog ctx kind cidx core slots seq s).IsOut u vd := by
  unfold routeLog routeFull
  dsimp only
  split
  · exact h
  · split <;> exact ⟨h.harts, h.core, h.record, h.leaving, h.restores⟩

theorem leaveCore_isOut (u core : Nat) (base : Word) (hs : List (Nat × Hart)) (c : Convoy) (s : State) :
    (leaveCore u core base hs c s).IsOut u (s.ctxOf c.ctx).vdev := by
  refine routeLog_isOut ⟨fun p hp => ?_, ?_, ?_, ?_, ?_⟩ ..
  · have kept := (List.mem_filter.1 hp).2
    simpa using kept
  all_goals simp

/-- Writing the record leaves the tables, so the convoy goes to the list of its own virtual device. -/
theorem saveNow_isOut {u : Nat} {s v : State} (h : saveNow u s = some v) :
    v.IsOut u (s.ctxOf (s.convoyOf u).ctx).vdev := by
  unfold saveNow at h
  dsimp only at h
  split at h
  · cases h
  next core _ =>
  split at h
  · cases h
  next base _ =>
  have kept := saveImage_sameTables (s.convoyOf u).ctx base (s.convoyOf u).ewBytes
    (convoyWords (suspendFills u core s) u) (residents s u) (.refl (suspendFills u core s))
  unfold EndsIn at kept
  split at h
  · cases h
  next t image =>
  rw [image] at kept
  have tables : s.SameTables t := ⟨kept.convoys, kept.contexts, kept.vdevs⟩
  obtain rfl := Option.some.inj h
  rw [← tables.ctxOf]
  exact leaveCore_isOut ..

/-- Where a pre-emption may be decided, it begins; and the convoy is saved once it is quiet (R248). -/
theorem preEmption_leaves {s : State} {u : Nat} (next : nextToLeave s = some u)
    (route : mayRoute s (s.convoyOf u).ctx = true) (save : (saveNow u s).isSome = true) :
    exec (.preEmption u) s = .next (leave u s) := by
  show execPreEmption u s = _
  simp only [execPreEmption, next, if_pos, route, save, Bool.and_self]

/-- A pre-emption that begins changes nothing of the convoys, contexts and devices but its convoy's note of it. -/
theorem begun_sameTables (u : Nat) (s : State) :
    (s.setConvoyOf u { s.convoyOf u with leaving := true }).SameTables
      ((residents s u).foldl squash (s.setConvoyOf u { s.convoyOf u with leaving := true })) :=
  sameTables_foldl squash_sameTables _ _

/-! ### The launched hart (R36, R315) -/

/-- The start and the number of its share, and the packet's arguments. -/
theorem launchedHart_s (s : State) (e : Queued) (u ctx cidx h : Nat) (r : SReg) :
    (launchedHart s e u ctx cidx h).s[r] = match r.val with
      | 1 => BitVec.ofNat 64 (Packet_.start e.packet (cidx * Packet_.harts e.packet + h))
      | 2 => BitVec.ofNat 64 (Packet_.share e.packet (cidx * Packet_.harts e.packet + h))
      | 3 => e.packet.extractLsb' 192 64
      | 4 => e.packet.extractLsb' 256 64
      | 5 => e.packet.extractLsb' 320 64
      | 6 => e.packet.extractLsb' 384 64
      | 7 => e.packet.extractLsb' 448 64
      | _ => 0 := by
  obtain ⟨n, hn⟩ := r
  match n with
  | 0 | 1 | 2 | 3 | 4 | 5 | 6 | 7 => simp [launchedHart, Packet_.arg]
  | k + 8 => simp [launchedHart]

/-- The share of a hart is even but for one element more in each of the harts of lowest number (R315). -/
theorem packet_share (p : BitVec 512) (g : Nat) :
    Packet_.share p g = Packet_.count p / (Packet_.convoys p * Packet_.harts p)
      + if g < Packet_.count p % (Packet_.convoys p * Packet_.harts p) then 1 else 0 := by
  simp only [Packet_.share, b2n, decide_eq_true_eq]

/-- Settles O44: the dispatcher's rows as they are given, the convoy that is saved by `saveNow_isOut`, and the launched
hart's registers by the two laws above. -/
theorem dispatchResults : Obligations.DispatchResults := by
  refine ⟨fun s t q u core e c ks => ⟨fun next logs => ?_, fun next restored => ?_, fun next route save => ?_,
    fun i k p logs next slot => ?_⟩, fun s e u ctx cidx h => ?_⟩
  · show execDispatchPlace s = _
    simp only [execDispatchPlace, logs, List.foldl_nil, next]
  · show execRestore u s = _
    simp only [execRestore, next, if_pos, restored, Option.getD_some]
  · intro begun still
    have left : exec (.preEmption u) s = .next (if still = true then (saveNow u begun).getD begun else begun) :=
      preEmption_leaves next route save
    refine ⟨fun moving => ?_, fun v quiet saved => ?_⟩
    · rw [left, if_neg (by simp [moving])]
    · have tables := begun_sameTables u s
      have out := saveNow_isOut saved
      have convoy : (begun.convoyOf u).ctx = (s.convoyOf u).ctx := by
        rw [tables.convoyOf, State.setConvoyOf_same]
      rw [convoy, tables.ctxOf, State.setConvoyOf_ctxOf] at out
      refine ⟨?_, out.harts, out.core, out.record, out.leaving, out.restores⟩
      rw [left, if_pos quiet, saved, Option.getD_some]
  · show execPostedClosureStart core s = _
    simp only [execPostedClosureStart, logs, List.foldl_nil, next, slot]
  · intro p g total each more n k
    have share : Packet_.share p g = n := packet_share p g
    have sc : k.csr.sc = BitVec.ofNat 64 n := congrArg (BitVec.ofNat 64) share
    refine ⟨rfl, rfl, rfl, sc, rfl, rfl, rfl, rfl, rfl, fun r => ?_, fun r => ?_, fun r => ?_, fun a => ?_⟩
    · rw [← share]
      exact launchedHart_s s e u ctx cidx h r
    all_goals exact Vector.getElem_replicate ..

end Sys2Proof.Machine
end

section
/-! PROOFS. R56 to R58, R192 to R196: what `mma` leaves at its issue, and what it writes when it completes. -/

namespace Sys2Proof.Machine

/-! ### Elements of an accumulator -/

/-- Bit `k` of word `q` of a number of 32 bits that stands at word `p`. -/
theorem wordAt_getLsbD {p q k n : Nat} (hq : q < 16384) (hk : k < 32) (hn : n < 2 ^ 32) :
    (BitVec.ofNat 524288 n <<< (32 * p)).getLsbD (32 * q + k) = (decide (p = q) && n.testBit k) := by
  have inside : 32 * q + k < 524288 := by omega
  rw [BitVec.getLsbD_shiftLeft, BitVec.getLsbD_ofNat]
  rcases lt_trichotomy p q with below | here | above
  · have high : n.testBit (32 * q + k - 32 * p) = false :=
      Nat.testBit_lt_two_pow (hn.trans_le (Nat.pow_le_pow_right (by decide) (by omega)))
    simp [high, below.ne]
  · have width : k < 524288 := hk.trans (by decide)
    simp [here, inside, width]
  · have low : 32 * q + k < 32 * p := by omega
    simp [low, above.ne']

/-- Bit `k` of word `q` after a write of word `p`. -/
theorem accSet_getLsbD (d : AccData) {p q v k : Nat} (hq : q < 16384) (hk : k < 32) :
    (accSet d p v).getLsbD (32 * q + k) = if p = q then v.testBit k else d.getLsbD (32 * q + k) := by
  have inside : 32 * q + k < 524288 := by omega
  have ones : (2 ^ 32 - 1).testBit k = true := by rw [Nat.testBit_two_pow_sub_one, decide_eq_true hk]
  have value : (v % 2 ^ 32).testBit k = v.testBit k := by rw [Nat.testBit_mod_two_pow, decide_eq_true hk, Bool.true_and]
  rw [accSet, BitVec.getLsbD_or, BitVec.getLsbD_and, BitVec.getLsbD_not, decide_eq_true inside,
    wordAt_getLsbD hq hk (by decide), wordAt_getLsbD hq hk (Nat.mod_lt _ (by decide)), ones, value]
  by_cases h : p = q <;> simp [h]

theorem accGet_accSet_same (d : AccData) {p : Nat} (v : Nat) (hp : p < 16384) :
    accGet (accSet d p v) p = v % 2 ^ 32 := by
  refine congrArg BitVec.toNat (a₂ := BitVec.ofNat 32 v) (BitVec.eq_of_getLsbD_eq fun k hk => ?_)
  rw [BitVec.getLsbD_extractLsb', accSet_getLsbD d hp hk, if_pos rfl, BitVec.getLsbD_ofNat]

theorem accGet_accSet_ne (d : AccData) {p q : Nat} (v : Nat) (hq : q < 16384) (h : p ≠ q) :
    accGet (accSet d p v) q = accGet d q := by
  refine congrArg BitVec.toNat (BitVec.eq_of_getLsbD_eq fun k hk => ?_)
  rw [BitVec.getLsbD_extractLsb', BitVec.getLsbD_extractLsb', accSet_getLsbD d hq hk, if_neg h]

theorem accPos_inj {i j k l : Nat} (hj : j < 128) (hl : l < 128) : accPos i j = accPos k l ↔ (i, j) = (k, l) := by
  rw [Prod.mk.injEq, accPos, accPos]
  omega

/-- Writes of elements, each with a value of its own place, leave that value there and every other element as it was. -/
theorem accGet_writes (g : Nat × Nat → Nat) (i j : Nat) (hi : i < 128) (hj : j < 128) (qs : List (Nat × Nat))
    (hq : ∀ q ∈ qs, q.2 < 128) (d : AccData) :
    accGet ((qs.map fun q => (accPos q.1 q.2, g q)).foldl (fun d w => accSet d w.1 w.2) d) (accPos i j)
      = if (i, j) ∈ qs then g (i, j) % 2 ^ 32 else accGet d (accPos i j) := by
  have inside : accPos i j < 16384 := by simp only [accPos]; omega
  induction qs generalizing d with
  | nil => rfl
  | cons q qs ih =>
    rw [List.map_cons, List.foldl_cons, ih fun q' h' => hq q' (List.mem_cons_of_mem _ h')]
    by_cases later : (i, j) ∈ qs
    · rw [if_pos later, if_pos (List.mem_cons_of_mem _ later)]
    by_cases here : (i, j) = q
    · rw [if_neg later, ← here, if_pos List.mem_cons_self, accGet_accSet_same _ _ inside]
    · have apart : accPos q.1 q.2 ≠ accPos i j := fun e =>
        here ((accPos_inj (hq q List.mem_cons_self) hj).mp e).symm
      rw [if_neg later, if_neg (by simp [here, later]), accGet_accSet_ne _ _ inside apart]

theorem mem_accRegion {rows cols : Nat} {q : Nat × Nat} : q ∈ accRegion rows cols ↔ q.1 < rows ∧ q.2 < cols := by
  obtain ⟨i, j⟩ := q
  simp [accRegion]

/-- Writes to a bound name of a hart without poison change its data alone. -/
theorem setAcc_clean {h : Hart} {a : AName} {r : AccReg} (clean : h.poison = []) (bound : h.acc[a] = some r)
    (ws : List (Nat × Nat)) :
    h.setAcc a ws = { h with
      acc := h.acc.set a (some { r with data := ws.foldl (fun d w => accSet d w.1 w.2) r.data }) } := by
  simp only [Hart.setAcc, bound]
  exact clearPoison_clean (by exact clean) _

/-! ### The issue of `mma` -/

theorem boundAcc_ok {s : State} {a : AName} {r : AccReg} (h : s.hart.acc[a] = some r) : boundAcc a s = .ok r s := by
  rw [boundAcc, bind_ok (getHart_run s), h]
  rfl

theorem settleAcc_ok {s : State} {a : AName} (h : (s.hart.mma.any fun p => p.i.d == a) = false) :
    settleAcc a s = .ok () s := by
  rw [settleAcc, bind_ok (getHart_run s), h]
  rfl

theorem require_ok {p : Bool} (h : p = true) (s : State) : require p s = .ok () s := by rw [require_run, if_pos h]

/-- R192, R195: what `mma` does where its name is bound, of its kind and large enough, and free of earlier ones. -/
theorem opMma_run {s : State} {x : Mma} {r : AccReg} (clean : s.clean) (bound : s.hart.acc[x.d] = some r)
    (kind : r.int = mmaInt x) (rows : x.sa.ext1.toNat < r.rows) (cols : x.sb.ext1.toNat < r.cols)
    (fmt : x.scaled = true ∨ x.fmt ≠ .q4) (settled : (s.hart.mma.any fun q => q.i.d == x.d) = false) :
    opMma x s = .ok .next (s.setHart { s.hart with mma := s.hart.mma ++ [⟨x, mmaGroup s.hart x.fmt x.a x.sa,
      mmaGroup s.hart x.fmt x.b x.sb, s.hart.v[30], s.hart.v[31], if x.scaled then s.reg x.s else 0⟩] }) := by
  have size : (decide (x.sa.ext1.toNat + 1 ≤ r.rows) && decide (x.sb.ext1.toNat + 1 ≤ r.cols)) = true := by
    simp only [Bool.and_eq_true, decide_eq_true_eq]; exact ⟨rows, cols⟩
  have form : (x.scaled || x.fmt != .q4) = true := by simpa using fmt
  unfold opMma
  rw [bind_ok (boundAcc_ok bound), bind_ok (require_ok (beq_iff_eq.mpr kind) s), bind_ok (require_ok size s),
    bind_ok (require_ok form s), bind_ok (settleAcc_ok settled)]
  by_cases scaled : x.scaled = true
  · simp only [if_pos scaled]
    rw [bind_ok (readS_ok (clean.canRead x.s)), bind_ok (getHart_run s), if_neg (not_not_intro clean)]
    rfl
  · simp only [if_neg scaled]
    rw [bind_ok (pure_run 0 s), bind_ok (getHart_run s), if_neg (not_not_intro clean)]
    rfl

/-! ### The completion of `mma` -/

/-- The value that a completing `mma` writes to an element (R56, R58). -/
def mmaNew (p : PendingMma) (d : AccData) (q : Nat × Nat) : Nat :=
  let old := accGet d (accPos q.1 q.2)
  if mmaInt p.i then mmaInt32 p old q.1 q.2
  else (mmaFloat p (if p.i.scaled then (scaleFactor p.s).1 else 0) old q.1 q.2).1

/-- The contents of its accumulator after a completing `mma` (R194). -/
def mmaData (p : PendingMma) (d : AccData) : AccData :=
  ((mmaRegion p.i).map fun q => (accPos q.1 q.2, mmaNew p d q)).foldl (fun d w => accSet d w.1 w.2) d

/-- A completing `mma` changes the contents of its accumulator and the flags (R194, R195). -/
theorem mmaFinish_clean {p : PendingMma} {h : Hart} {r : AccReg} (clean : h.poison = [])
    (bound : h.acc[p.i.d] = some r) :
    ∃ fl, mmaFinish p h =
      Hart.addFlags fl { h with acc := h.acc.set p.i.d (some { r with data := mmaData p r.data }) } := by
  unfold mmaFinish
  rw [bound]
  cases kind : mmaInt p.i with
  | true =>
    refine ⟨0, ?_⟩
    simp only [addFlags_zero, setAcc_clean clean bound, mmaData, mmaNew, kind, if_true]
  | false =>
    simp only [setAcc_clean clean bound, mmaData, mmaNew, kind, Bool.false_eq_true, if_false, List.map_map,
      apply_ite Prod.fst]
    exact ⟨_, rfl⟩

theorem ofSigned_lt (w : Nat) (i : Int) : ofSigned w i < 2 ^ w := by
  have pos : (0 : Int) < (2 ^ w : Nat) := by positivity
  have := Int.emod_lt_of_pos i pos
  have := Int.emod_nonneg i pos.ne'
  rw [ofSigned]
  omega

/-- The new value as a word of the accumulator: that of an INT32 element fits. -/
theorem mmaNew_word (p : PendingMma) (d : AccData) (i j : Nat) :
    mmaNew p d (i, j) % 2 ^ 32 = if mmaInt p.i then mmaInt32 p (accGet d (accPos i j)) i j
      else (mmaFloat p (if p.i.scaled then (scaleFactor p.s).1 else 0) (accGet d (accPos i j)) i j).1 % 2 ^ 32 := by
  unfold mmaNew
  split
  · exact Nat.mod_eq_of_lt (ofSigned_lt 32 _)
  · rfl

theorem mem_mmaRegion {x : Mma} {i j : Nat} : (i, j) ∈ mmaRegion x ↔ i ≤ x.sa.ext1.toNat ∧ j ≤ x.sb.ext1.toNat := by
  rw [mmaRegion, mem_accRegion, Nat.lt_succ_iff, Nat.lt_succ_iff]

theorem col_of_mem_mmaRegion {x : Mma} {q : Nat × Nat} (h : q ∈ mmaRegion x) : q.2 < 128 :=
  lt_of_le_of_lt (mem_mmaRegion.mp h).2 x.sb.ext1.isLt

/-- An element after the completion: the new value in the region, and the old one outside (R194). -/
theorem accGet_mmaData (p : PendingMma) (d : AccData) {i j : Nat} (hi : i < 128) (hj : j < 128) :
    accGet (mmaData p d) (accPos i j) = if i ≤ p.i.sa.ext1.toNat ∧ j ≤ p.i.sb.ext1.toNat then mmaNew p d (i, j) % 2 ^ 32
      else accGet d (accPos i j) := by
  rw [mmaData, accGet_writes (mmaNew p d) i j hi hj _ fun q => col_of_mem_mmaRegion]
  simp only [mem_mmaRegion]

/-- Settles O24: the issue passes every check of `opMma`; the completion is one write of the region's new values. -/
theorem mmaResults : Obligations.MmaResults := by
  refine ⟨fun s x r clean bound kind rows cols fmt settled =>
    runUnit_hart (opMma_run clean bound kind rows cols fmt settled), fun p h r clean bound => ?_⟩
  obtain ⟨fl, finish⟩ := mmaFinish_clean clean bound
  rw [finish]
  refine ⟨rfl, rfl, rfl, rfl, rfl, fun a other => ?_, fun r' bound' i j hi hj => ?_⟩
  · have apart : p.i.d.val ≠ a.val := fun e => other (Fin.ext e.symm)
    exact Vector.getElem_set_ne p.i.d.isLt a.isLt apart
  · obtain rfl := Option.some.inj ((Vector.getElem_set_self _).symm.trans bound')
    rw [accGet_mmaData p r.data hi hj, mmaNew_word]

end Sys2Proof.Machine
end

section
/-! PROOFS. R67 to R77: encoding and decoding a word; R59 to R62, R77, R243: the unit that a step executes. -/

namespace Sys2Proof

/-! ### Decoding an encoded instruction -/

/-- The round trip of every instruction, by its own law; an agent's step is not well-formed as a word. -/
theorem Laws.RoundTrip.statement (i : Instr) : Laws.RoundTrip.Statement i := by
  cases i with
  -- Classes 0x00 and 0x01.
  | nop => exact nop | add x => exact add x | sub x => exact sub x | mul x => exact mul x | mulh x => exact mulh x
  | mulhu x => exact mulhu x | div x => exact div x | divu x => exact divu x | rem x => exact rem x
  | remu x => exact remu x | and x => exact and x | or x => exact or x | xor x => exact xor x | andn x => exact andn x
  | shl x => exact shl x | shr x => exact shr x | sar x => exact sar x | rot x => exact rot x | min x => exact min x
  | max x => exact max x | minu x => exact minu x | maxu x => exact maxu x | set x => exact set x
  | sel x => exact sel x | clz x => exact clz x | ctz x => exact ctz x | popc x => exact popc x | bfx x => exact bfx x
  | bfi x => exact bfi x
  -- Class 0x02.
  | li x => exact li x | lpc x => exact lpc x | jmpl x => exact jmpl x | calll x => exact calll x
  -- Class 0x03.
  | fadd x => exact fadd x | fsub x => exact fsub x | fmul x => exact fmul x | fma x => exact fma x
  | fdiv x => exact fdiv x | fsqrt x => exact fsqrt x | fmin x => exact fmin x | fmax x => exact fmax x
  | fset x => exact fset x | fcvt x => exact fcvt x | fclass x => exact fclass x | fsgn x => exact fsgn x
  -- Class 0x04.
  | b x => exact b x | bi x => exact bi x | jmp t => exact jmp t | call t => exact call t | jmpr a => exact jmpr a
  | callr a => exact callr a | ret => exact ret | strip x => exact strip x | vloopl x => exact vloopl x
  | bm x => exact bm x
  -- Class 0x05.
  | ld x => exact ld x | st x => exact st x | amo x => exact amo x | ldp x => exact ldp x | stp x => exact stp x
  | pam x => exact pam x
  -- Class 0x06.
  | fence x => exact fence x | fsig x => exact fsig x | bar => exact bar | cbar x => exact cbar x
  | wait x => exact wait x | kadd x => exact kadd x | qput x => exact qput x | qget x => exact qget x
  | launch x => exact launch x | glaunch x => exact glaunch x | yield d => exact yield d | exit => exact exit
  -- Class 0x07.
  | capture x => exact capture x | capref x => exact capref x | cdup d a => exact cdup d a | cdrop a => exact cdrop a
  | apply a => exact apply a | applyq x => exact applyq x | cenv d k => exact cenv d k | cld x => exact cld x
  | cldR d a => exact cldR d a | cst x => exact cst x | cstR d c => exact cstR d c
  -- Class 0x08.
  | trap n => exact trap n | eret => exact eret | csrr x => exact csrr x | csrw x => exact csrw x
  | csrs x => exact csrs x | csrc x => exact csrc x | tlbiAll => exact tlbiAll | tlbiAsid b => exact tlbiAsid b
  | tlbiVa x => exact tlbiVa x | ctxsave x => exact ctxsave x | ctxload x => exact ctxload x
  | logctlSync x => exact logctlSync x | logctlMark x => exact logctlMark x | logctlSwap x => exact logctlSwap x
  | halt => exact halt | wfe x => exact wfe x
  -- Class 0x10.
  | vcfg x => exact vcfg x | setvl x => exact setvl x | mcpt x => exact mcpt x | mexp x => exact mexp x
  -- Class 0x11.
  | vadd x => exact vadd x | vsub x => exact vsub x | vmul x => exact vmul x | vmulh x => exact vmulh x
  | vmulhu x => exact vmulhu x | vmacc x => exact vmacc x | vdiv x => exact vdiv x | vrem x => exact vrem x
  | vand x => exact vand x | vor x => exact vor x | vxor x => exact vxor x | vshl x => exact vshl x
  | vshr x => exact vshr x | vsar x => exact vsar x | vmin x => exact vmin x | vmax x => exact vmax x
  | vminu x => exact vminu x | vmaxu x => exact vmaxu x | vadds x => exact vadds x | vsubs x => exact vsubs x
  | vabs x => exact vabs x | vcmp x => exact vcmp x | vsel x => exact vsel x | vclz x => exact vclz x
  | vpopc x => exact vpopc x
  -- Class 0x12.
  | vfadd x => exact vfadd x | vfsub x => exact vfsub x | vfmul x => exact vfmul x | vfma x => exact vfma x
  | vfdiv x => exact vfdiv x | vfsqrt x => exact vfsqrt x | vfmin x => exact vfmin x | vfmax x => exact vfmax x
  | vfcmp x => exact vfcmp x | vfrcp x => exact vfrcp x | vfrsq x => exact vfrsq x | vfexp2 x => exact vfexp2 x
  | vflog2 x => exact vflog2 x | vfsgn x => exact vfsgn x | vfclass x => exact vfclass x
  -- Class 0x13.
  | vcvt x => exact vcvt x | vpk4 x => exact vpk4 x | vupk4 x => exact vupk4 x | vscl x => exact vscl x
  -- Class 0x14.
  | vred x => exact vred x | vfred x => exact vfred x | vscan x => exact vscan x | vfscan x => exact vfscan x
  -- Class 0x15.
  | vslup x => exact vslup x | vsldn x => exact vsldn x | vgath x => exact vgath x | vcomp x => exact vcomp x
  | vexpd x => exact vexpd x | vbshl x => exact vbshl x | vbshr x => exact vbshr x | vfnl x => exact vfnl x
  | vmvs x => exact vmvs x | vmvx x => exact vmvx x | vid x => exact vid x | vrev x => exact vrev x
  -- Class 0x16.
  | mand x => exact mand x | mor x => exact mor x | mxor x => exact mxor x | mnot x => exact mnot x
  | mandn x => exact mandn x | mpop x => exact mpop x | mfirst x => exact mfirst x
  -- Class 0x17.
  | vspush x => exact vspush x | vspop x => exact vspop x | vchain x => exact vchain x
  -- Class 0x18.
  | vld x => exact vld x | vlds x => exact vlds x | vldg x => exact vldg x | vldx x => exact vldx x
  | vst x => exact vst x | vsts x => exact vsts x | vstg x => exact vstg x | vstx x => exact vstx x
  | vstxa x => exact vstxa x | vldt x => exact vldt x | vstt x => exact vstt x
  -- Class 0x19.
  | pdot x => exact pdot x
  -- Class 0x20.
  | acfg x => exact acfg x | arel d => exact arel d | azero d => exact azero d | mma x => exact mma x
  | ald x => exact ald x | ast x => exact ast x | arow x => exact arow x
  -- Class 0x21.
  | tlook x => exact tlook x | ttag x => exact ttag x | tfill x => exact tfill x | tdrain x => exact tdrain x
  | twait x => exact twait x | trel a => exact trel a | tstat x => exact tstat x
  -- Class 0x22.
  | cpy x => exact cpy x | cpy2 x => exact cpy2 x | cstat x => exact cstat x
  -- Class 0x23.
  | munion x => exact munion x | minter x => exact minter x | mcount x => exact mcount x
  -- Class 0x24.
  | dopen x => exact dopen x | stow x => exact stow x | dseal x => exact dseal x | dquery x => exact dquery x
  -- No instruction, and the steps of the other agents.
  | reservedEncoding w => exact reservedEncoding w
  | _ => exact fun hw _ => absurd hw Bool.false_ne_true

/-- Settles O57: the round trip of each instruction, whose fields spell it in the word that it encodes to. -/
theorem encodeDecode : Obligations.EncodeDecode := Laws.RoundTrip.statement

/-! ### Words of the chapters -/

/-- R147, R148: the two words of the example chain. -/
theorem decode_chainWords : decode 0x5C0C80420012001300000000 0xFD803002B000000000000000 =
    .vchain ⟨.f32, .fmul, 8, 1, .vec 2, 0, 0, ⟨.fadd, .vec 3, .vec 0⟩, [⟨.fmax, .scalar 0, .vec 0⟩]⟩ := by
  decide +kernel

/-- Settles O56: each word is fixed, so the decoder's answer is computed. -/
theorem decodeWords : Obligations.DecodeWords := by
  refine ⟨?_, ?_, ?_, ?_, ?_, ⟨_, decode_chainWords⟩, ?_, ?_⟩ <;> decide +kernel

end Sys2Proof

namespace Sys2Proof.Machine

/-! ### What stands at a slot -/

section
variable {c : Convoy} {w : Nat → IWord} {lw k : Nat}

/-- The word of slot `j` and its parity bit agree (R61). -/
def slotSound (w : Nat → IWord) (lw j : Nat) : Prop :=
  oddBits 97 ((w j).toNat * 2 + b2n (bit lw (13 + j))) = false

/-- A slot outside a pair holds the instruction of its word, and a `vchain` reads the next slot's word too (R77). -/
theorem lineUnit_one (parity : oddBits 20 (field lw 12 20) = false) (rules : lineBad c w lw = false)
    (single : 4 ≤ k ∨ bit lw (18 + k) = false) (sound : slotSound w lw k)
    (next : isChain (w k) = true → slotSound w lw (k + 1)) :
    lineUnit c w lw k = .one (decode (w k) (if k < 4 then w (k + 1) else 0)) := by
  have unpaired : (decide (k < 4) && bit lw (18 + k)) = false := by
    rcases single with h | h <;> simp [h]
  have chain : (isChain (w k) && oddBits 97 ((w (k + 1)).toNat * 2 + b2n (bit lw (13 + (k + 1))))) = false := by
    cases h : isChain (w k) with
    | false => rfl
    | true => exact next h
  unfold slotSound at sound
  simp [lineUnit, parity, rules, unpaired, sound, chain]

/-- The first slot of a pair holds the two instructions of the pair, when they write no register in common (R64). -/
theorem lineUnit_pair (parity : oddBits 20 (field lw 12 20) = false) (rules : lineBad c w lw = false) (slot : k < 4)
    (paired : bit lw (18 + k) = true) (apart : conflict c (w k) (w (k + 1)) = false) (sound : slotSound w lw k)
    (sound' : slotSound w lw (k + 1)) : lineUnit c w lw k = .pair (decode (w k) 0) (decode (w (k + 1)) 0) := by
  unfold slotSound at sound sound'
  simp [lineUnit, parity, rules, slot, paired, apart, sound, sound']

end

/-! ### One step -/

section
variable {s t : State} {g : Nat}

/-- The unit of a line whose fetch succeeds. -/
theorem fetchUnit_ok {key : Line} (fetch : fetchLine (lineOf s.hart.pc) s = .ok key t) :
    fetchUnit s = (lineUnit s.convoy (slotWord s.hart key) (lineWord s.hart key) (slotOf s.hart.pc), t) := by
  simp only [fetchUnit, fetch]

theorem runUnitAt_one {i : Instr} (unit : fetchUnit s = (.one i, t)) : runUnitAt s = exec i t := by
  simp only [runUnitAt, unit]

theorem runUnitAt_pair {i j : Instr} (unit : fetchUnit s = (.pair i j, t)) : runUnitAt s = .next (runPair i j t) := by
  simp only [runUnitAt, unit]

/-- With nothing else to do, a step is a unit of the next hart, followed by the passing of time (log 1). -/
theorem step_unit (agenda : s.agenda = []) (on : s.power ≠ .off) (own : nextOwn s = none)
    (hart : nextHart s = some g) :
    step s = ticked (runUnitAt { s with cur := g, turn := g + 1 }) := by
  simp only [step, agenda, if_neg on, own, stepHart, hart]

/-- A step of the agenda is executed first (log 1); an unpowered package takes only its reset. -/
theorem step_agenda {i : Instr} {rest : List Instr} (agenda : s.agenda = i :: rest) (event : isEvent i = true)
    (on : s.power = .off → isReset i = true) : step s = ticked (exec i { s with agenda := rest }) := by
  have mayRun : ¬(s.power = .off ∧ (!isReset i) = true) := fun ⟨off, other⟩ => by simp [on off] at other
  simp only [step, agenda, if_neg mayRun, if_pos event]

end

/-- Settles O55: the line's checks pass, so the fetched unit is the decoded instruction or the pair, and it is run. -/
theorem stepRunsDecoded : Obligations.StepRunsDecoded := by
  refine ⟨fun s g agenda on own hart key t fetch parity rules sound => ?_,
    fun s i rest agenda event on => step_agenda agenda event on⟩
  have stepped := step_unit agenda on own hart
  have fetched := fetchUnit_ok fetch
  refine ⟨fun single next => ?_, fun slot paired apart sound' => ?_⟩
  · rw [lineUnit_one parity rules single sound next] at fetched
    rw [stepped, runUnitAt_one fetched]
  · rw [lineUnit_pair parity rules slot paired apart sound sound'] at fetched
    rw [stepped, runUnitAt_pair fetched, ticked]

end Sys2Proof.Machine
end

section
/-! PROOFS. R85, R87: a decoded word is the encoding of its instruction; the exceptions of supervisor instructions in the
user view and of reserved encodings. -/

namespace Sys2Proof

/-! ### Encoding a decoded instruction -/

/-- What the decoder answers when it rejects a word, and what it has checked when it accepts one (R76, R85). -/
theorem decode_cases (w cont : IWord) :
    decode w cont = .reservedEncoding w
      ∨ encodeWord (decode w cont) = some w.toNat ∧ (decode w cont).wf = true
        ∧ contOk (decode w cont) cont.toNat = true := by
  unfold decode
  cases extract w.toNat cont.toNat with
  | none => exact .inl rfl
  | some i =>
    dsimp only
    split
    next checked => exact .inr (by simpa [and_assoc] using checked)
    next => exact .inl rfl

theorem encode_oneSlot {i : Instr} {n : Nat} (one : ∀ x, i ≠ .vchain x) (word : encodeWord i = some n) :
    encode i = [BitVec.ofNat 96 n] := by
  unfold encode
  rw [word]
  split
  next x _ _ => exact absurd rfl (one x)
  next same => rw [Option.some.inj same]
  next wordless => cases wordless

theorem encode_vchain {x : VChain} {n : Nat} (word : encodeWord (.vchain x) = some n) :
    encode (.vchain x) = [BitVec.ofNat 96 n, BitVec.ofNat 96 (encodeCont x)] := by
  unfold encode
  rw [word]

/-- An instruction that passes the decoder's checks against two words encodes to the first, and to the second at most
beside it (R77). -/
theorem encode_checked {i : Instr} {w cont : IWord} (word : encodeWord i = some w.toNat)
    (next : contOk i cont.toNat = true) : ∃ ws, encode i = w :: ws ∧ ∀ v ∈ ws, v = cont := by
  have back (v : IWord) : BitVec.ofNat 96 v.toNat = v := by rw [BitVec.ofNat_toNat, BitVec.setWidth_eq]
  by_cases chain : ∃ x, i = .vchain x
  · obtain ⟨x, rfl⟩ := chain
    have same : encodeCont x = cont.toNat := by simpa [contOk] using next
    exact ⟨[cont], by rw [encode_vchain word, same, back, back], by simp⟩
  · exact ⟨[], by rw [encode_oneSlot (fun x h => chain ⟨x, h⟩) word, back], by simp⟩

/-- Settles O58: the decoder accepts a word only after it has encoded the instruction again and compared the words. -/
theorem decodeEncode : Obligations.DecodeEncode := by
  intro w cont
  rcases decode_cases w cont with rejected | ⟨word, wf, next⟩
  · exact .inl rejected
  · exact .inr ⟨wf, encode_checked word next⟩

end Sys2Proof

namespace Sys2Proof.Machine

/-! ### Supervisor instructions in the user view -/

section
variable {s : State}

theorem supervisor_user (user : s.hart.mode = .user) : supervisor s = .error (.trap { cause := 0x04 }) s := by
  unfold supervisor
  rw [bind_ok (getHart_run s), if_pos user]
  rfl

/-- What a supervisor instruction would do after the check of the view is not done (R87). -/
theorem supervisor_traps (user : s.hart.mode = .user) (rest : Unit → M Ctl) :
    runUnit (supervisor >>= rest) s = .next (s.traps s { cause := 0x04 }) :=
  runUnit_trap (bind_error (supervisor_user user))

/-- The privilege of a CSR access is judged first, before the CSR is looked up (R23). -/
theorem csrCheck_user (user : s.hart.mode = .user) {n : Nat} (high : 0x800 ≤ n) (write : Bool) :
    csrCheck n write s = .error (.trap { cause := 0x04 }) s := by
  unfold csrCheck
  rw [bind_ok (get_run s), if_pos (by simp [high, user])]
  rfl

theorem csrOp_traps (user : s.hart.mode = .user) {x : Csr} (high : 0x800 ≤ x.csr.toNat)
    (f : Option (Word → Word → Word)) (w1c : Bool) :
    runUnit (csrOp x f w1c) s = .next (s.traps s { cause := 0x04 }) :=
  runUnit_trap (bind_error (csrCheck_user user high f.isSome))

end

/-! ### Reserved encodings -/

theorem field_eq_div_mod (v lo len : Nat) : field v lo len = v / 2 ^ lo % 2 ^ len := by
  rw [field, Nat.shiftRight_eq_div_pow]

theorem supervisorOp_iff (op : Nat) : supervisorOp op = true ↔ op ∈ [0x02, 0x07, 0x08, 0x09, 0x0A, 0x0B] := by
  simp only [supervisorOp, Bool.or_eq_true, Bool.and_eq_true, beq_iff_eq, decide_eq_true_eq, List.mem_cons,
    List.not_mem_nil, or_false]
  omega

theorem csrOp_range_iff (op : Nat) : (3 ≤ op ∧ op ≤ 6) ↔ op ∈ [0x03, 0x04, 0x05, 0x06] := by
  simp only [List.mem_cons, List.not_mem_nil, or_false]
  omega

/-- Do the class, the op and the CSR number of a word call for the supervisor view (R87)? -/
def privilegedWord (w : IWord) : Bool :=
  wordClass w == 0x08
    && (supervisorOp (wordOp w) || (decide (3 ≤ wordOp w && wordOp w ≤ 6) && decide (0x800 ≤ field w.toNat 0 12)))

theorem privilegedWord_iff (w : IWord) :
    privilegedWord w = true ↔ w.toNat / 2 ^ 90 % 2 ^ 6 = 0x08
      ∧ (w.toNat / 2 ^ 82 % 2 ^ 8 ∈ [0x02, 0x07, 0x08, 0x09, 0x0A, 0x0B]
        ∨ w.toNat / 2 ^ 82 % 2 ^ 8 ∈ [0x03, 0x04, 0x05, 0x06] ∧ 0x800 ≤ w.toNat % 2 ^ 12) := by
  have number : field w.toNat 0 12 = w.toNat % 2 ^ 12 := rfl
  rw [← field_eq_div_mod, ← field_eq_div_mod, ← number, ← supervisorOp_iff, ← csrOp_range_iff]
  simp only [privilegedWord, Bool.and_eq_true, Bool.or_eq_true, beq_iff_eq, decide_eq_true_eq]
  rfl

theorem opReservedEncoding_privileged {w : IWord} {s : State} (user : s.hart.mode = .user)
    (privileged : privilegedWord w = true) :
    opReservedEncoding w s = .error (.trap { cause := 0x04 }) s := by
  unfold opReservedEncoding
  rw [bind_ok (getHart_run s), if_pos]
  · rfl
  · rw [user, Bool.and_assoc]
    exact privileged

theorem opReservedEncoding_illegal {w : IWord} {s : State}
    (other : ¬(s.hart.mode = .user ∧ privilegedWord w = true)) :
    opReservedEncoding w s = .error (.trap { cause := 0x01 }) s := by
  unfold opReservedEncoding
  rw [bind_ok (getHart_run s), if_neg]
  · rfl
  · rw [Bool.and_assoc, Bool.and_eq_true, beq_iff_eq]
    exact other

/-- Settles O36: each supervisor instruction judges the view before anything else, and so does a reserved encoding. -/
theorem privilegedAndReserved : Obligations.PrivilegedAndReserved := by
  refine ⟨fun s user => ⟨?_, fun _ => supervisor_traps user _, fun _ => supervisor_traps user _,
    fun _ => ⟨supervisor_traps user _, supervisor_traps user _⟩, fun _ => supervisor_traps user _,
    fun _ => supervisor_traps user _, fun _ => supervisor_traps user _, fun x high => ?_⟩, fun s w => ?_⟩
  · intro i listed
    simp only [List.mem_cons, List.not_mem_nil, or_false] at listed
    rcases listed with rfl | rfl | rfl
    · exact supervisor_traps user _
    · exact supervisor_traps user _
    · exact supervisor_traps user _
  · exact ⟨csrOp_traps user high _ _, csrOp_traps user high _ _, csrOp_traps user high _ _, csrOp_traps user high _ _⟩
  · intro cls op privileged
    have spelled : privilegedWord w = true ↔ privileged := privilegedWord_iff w
    by_cases refused : s.hart.mode = .user ∧ privileged
    · rw [if_pos refused]
      exact runUnit_trap (opReservedEncoding_privileged refused.1 (spelled.mpr refused.2))
    · rw [if_neg refused]
      exact runUnit_trap (opReservedEncoding_illegal (by rwa [spelled]))

end Sys2Proof.Machine
end

section
/-! PROOFS. R92 to R96: the results of the scalar integer instructions. -/

namespace Sys2Proof.Machine

/-! ### Numbers of width w -/

theorem shlW_eq_mul (w a b : Nat) : shlW w a b = a * 2 ^ (b % w) % 2 ^ w := by rw [shlW, Nat.shiftLeft_eq]

theorem shrW_eq_div (w a b : Nat) : shrW w a b = a / 2 ^ (b % w) := Nat.shiftRight_eq_div_pow a (b % w)

theorem rotW_eq (w a b : Nat) : rotW w a b = (a * 2 ^ (b % w) ||| a / 2 ^ (w - b % w)) % 2 ^ w := by
  rw [rotW, Nat.shiftLeft_eq, Nat.shiftRight_eq_div_pow]

/-- A number below 2^w is its own two's complement of `w` bits. -/
theorem ofSigned_natCast {w n : Nat} (h : n < 2 ^ w) : ofSigned w (n : Int) = n := by
  rw [ofSigned, ← Int.natCast_mod, Int.toNat_natCast, Nat.mod_eq_of_lt h]

theorem ofSigned_divU {w a : Nat} (b : Nat) (h : a < 2 ^ w) :
    ofSigned w (if b = 0 then 2 ^ w - 1 else (a / b : Nat)) = divU w a b := by
  have fits : divU w a b < 2 ^ w := by
    unfold divU
    split
    · exact Nat.sub_lt (Nat.two_pow_pos w) one_pos
    · exact (Nat.div_le_self a b).trans_lt h
  have cast : (if b = 0 then 2 ^ w - 1 else (a / b : Nat) : Int) = (divU w a b : Nat) := by
    unfold divU
    split
    · push_cast [Nat.one_le_two_pow]; rfl
    · rfl
  rw [cast, ofSigned_natCast fits]

theorem ofSigned_remU {w a : Nat} (b : Nat) (h : a < 2 ^ w) :
    ofSigned w (if b = 0 then 0 else (a % b : Nat)) = remU b a := by
  have fits : remU b a < 2 ^ w := by
    unfold remU
    split
    · exact Nat.two_pow_pos w
    · exact (Nat.mod_le a b).trans_lt h
  have cast : (if b = 0 then 0 else (a % b : Nat) : Int) = (remU b a : Nat) := (apply_ite Nat.cast ..).symm
  rw [cast, ofSigned_natCast fits]

/-- A truth value in a register (R93). -/
theorem ofNat_b2n (p : Bool) : BitVec.ofNat 64 (b2n p) = if p = true then 1 else 0 := by cases p <;> rfl

/-! ### Operations whose operands can be read -/

section
variable {s : State}

/-- A two-operand integer instruction completes with the result of its operation (R93). -/
theorem sBin_completes (f : Nat → Nat → Nat → Nat) {x : SInt} (ha : s.canRead x.a = true)
    (hb : s.canReadSrc x.b = true) :
    runUnit (sBin f x) s = .next (s.commitsHart (s.hart.writeS x.d (extendW x.w (f (widthBits x.w)
      ((s.reg x.a).toNat % 2 ^ widthBits x.w) ((s.src x.b).toNat % 2 ^ widthBits x.w))))) :=
  runUnit_hart (sBin_run f ha hb)

/-- A one-operand integer instruction completes with the result of its operation (R93). -/
theorem sUn_completes (f : Nat → Nat → Nat) {x : SIntUn} (ha : s.canRead x.a = true) :
    runUnit (sUn f x) s = .next (s.commitsHart (s.hart.writeS x.d
      (extendW x.w (f (widthBits x.w) ((s.reg x.a).toNat % 2 ^ widthBits x.w))))) :=
  runUnit_hart (bind_ok (readS_ok ha))

theorem opSet_run {x : SSet} (ha : s.canRead x.a = true) (hb : s.canReadSrc x.b = true) :
    opSet x s = .ok .next (s.setHart (s.hart.writeS x.d
      (if condHolds x.cc (widthBits x.w) ((s.reg x.a).toNat % 2 ^ widthBits x.w)
        ((s.src x.b).toNat % 2 ^ widthBits x.w) then 1 else 0))) := by
  unfold opSet
  rw [bind_ok (readS_ok ha), bind_ok (readSrc_ok hb), bind_ok (writeS_run _ _ _), ofNat_b2n, pure_run]

theorem opSel_run {x : SSel} (ha : s.canRead x.a = true) (hb : s.canReadSrc x.b = true) (hc : s.canRead x.c = true) :
    opSel x s = .ok .next (s.setHart (s.hart.writeS x.d
      (extendW x.w ((if s.reg x.c = 0 then s.src x.b else s.reg x.a).toNat % 2 ^ widthBits x.w)))) := by
  unfold opSel
  rw [bind_ok (readS_ok ha), bind_ok (readSrc_ok hb), bind_ok (readS_ok hc), bind_ok (writeS_run _ _ _), ite_not,
    pure_run]

theorem opBfx_run {x : SBfx} (ha : s.canRead x.a = true) :
    opBfx x s = .ok .next (s.setHart (s.hart.writeS x.d
      (if x.sx then sext (x.len1.toNat + 1) ((s.reg x.a).toNat / 2 ^ x.pos.toNat % 2 ^ (x.len1.toNat + 1))
        else BitVec.ofNat 64 ((s.reg x.a).toNat / 2 ^ x.pos.toNat % 2 ^ (x.len1.toNat + 1))))) := by
  unfold opBfx
  dsimp only
  rw [bind_ok (readS_ok ha), bind_ok (writeS_run _ _ _), field_eq_div_mod, pure_run]

theorem opBfi_run {x : SBfi} (ha : s.canRead x.a = true) (hc : s.canRead x.c = true) :
    opBfi x s = .ok .next (s.setHart (s.hart.writeS x.d
      (let mask : Word := BitVec.ofNat 64 (2 ^ (x.len1.toNat + 1) - 1) <<< x.pos.toNat;
        (s.reg x.c &&& ~~~mask) ||| ((s.reg x.a <<< x.pos.toNat) &&& mask)))) := by
  unfold opBfi
  dsimp only
  rw [bind_ok (readS_ok ha), bind_ok (readS_ok hc), bind_ok (writeS_run _ _ _), pure_run]

end

/-- Settles O1: the operands are read, and the operation is that of the table once shifts are written as products and
quotients. -/
theorem scalarIntegerResults : Obligations.ScalarIntegerResults := by
  refine ⟨fun s x ha hb => ?_, fun _ => rfl, fun s x ha hb => runUnit_hart (opSet_run ha hb),
    fun s x ha hb hc => runUnit_hart (opSel_run ha hb hc),
    fun s x ha => ⟨sUn_completes _ ha, sUn_completes _ ha, sUn_completes _ ha⟩,
    fun s x ha => runUnit_hart (opBfx_run ha), fun s x ha hc => runUnit_hart (opBfi_run ha hc), fun s x => ⟨rfl, rfl⟩⟩
  have completes (f : Nat → Nat → Nat → Nat) := sBin_completes f ha hb
  refine ⟨completes _, completes subW, completes _, completes mulhS, completes mulhU, completes _, completes _,
    completes _, completes andnW, ?shl, ?shr, completes sarW, ?rot, completes minS, completes maxS, completes _,
    completes _⟩
  case shl => exact shlW_eq_mul .. ▸ completes shlW
  case shr => exact shrW_eq_div .. ▸ completes shrW
  case rot => exact rotW_eq .. ▸ completes rotW

/-- Settles O40: signed division is the model's own; the unsigned results are below 2^w, so as integers they are the
same bits. -/
theorem divisionResults : Obligations.DivisionResults := by
  intro s x ha hb w a b sa sb least gives
  have completes (f : Nat → Nat → Nat → Nat) := sBin_completes f ha hb
  have small : a < 2 ^ w := Nat.mod_lt _ (Nat.two_pow_pos w)
  refine ⟨completes divS, ?divu, completes remS, ?remu⟩
  case divu => simp only [gives, ofSigned_divU b small]; exact completes divU
  case remu => simp only [gives, ofSigned_remU b small]; exact completes fun _ a b => remU b a

end Sys2Proof.Machine
end

section
/-! PROOFS. R98 to R102: the results of the scalar floating-point instructions. -/

namespace Sys2Proof.Machine

section
variable {s : State}

/-- The end of a floating operation: its result, then its flags (R99). -/
theorem writeS_addFlags_run (d : SReg) (v : Word) (fl : Flags) :
    (do writeS d v; addFlags fl; pure .next : M Ctl) s =
      .ok .next (s.setHart ((s.hart.writeS d v).addFlags fl)) := by
  rw [bind_ok (writeS_run _ _ _), bind_ok (addFlags_run _ _), pure_run, State.setHart_hart, State.setHart_setHart]

/-- A two-operand floating instruction completes with the result and the flags of its operation (R99). -/
theorem fBin_completes (f : EType → Nat → Nat → Nat → Nat × Flags) {x : SFp} (ha : s.canRead x.a = true)
    (hb : s.canReadSrc x.b = true) :
    let r := f x.f s.hart.csr.frm.toNat (s.freg x.f x.a) (s.fsrc x.f x.b).1
    runUnit (fBin f x) s = .next (s.commitsHart
      ((s.hart.writeS x.d (BitVec.ofNat 64 r.1)).addFlags ((s.fsrc x.f x.b).2 ||| r.2))) :=
  runUnit_hart (fBin_run f ha hb)

theorem opFma_run {x : SFma} (ha : s.canRead x.a = true) (hb : s.canReadSrc x.b = true) (hc : s.canRead x.c = true) :
    let r := feFma x.f s.hart.csr.frm.toNat (s.freg x.f x.a) (s.fsrc x.f x.b).1 (s.freg x.f x.c)
    opFma x s = .ok .next (s.setHart
      ((s.hart.writeS x.d (BitVec.ofNat 64 r.1)).addFlags ((s.fsrc x.f x.b).2 ||| r.2))) := by
  unfold opFma
  rw [bind_ok (readF_ok ha), bind_ok (readFSrc_ok hb)]
  dsimp only
  rw [bind_ok (readF_ok hc), bind_ok (getHart_run s)]
  exact writeS_addFlags_run ..

theorem opFset_run {x : SFset} (ha : s.canRead x.a = true) (hb : s.canReadSrc x.b = true) :
    let r := fCmpV x.cmp (fDecode x.f (s.freg x.f x.a)) (fDecode x.f (s.fsrc x.f x.b).1)
    opFset x s = .ok .next (s.setHart
      ((s.hart.writeS x.d (BitVec.ofNat 64 (b2n r.1))).addFlags ((s.fsrc x.f x.b).2 ||| r.2))) := by
  unfold opFset
  rw [bind_ok (readF_ok ha), bind_ok (readFSrc_ok hb)]
  exact writeS_addFlags_run ..

/-- `fclass` sets no flag (R101). -/
theorem opFclass_run {x : SFpUn} (ha : s.canRead x.a = true) :
    opFclass x s = .ok .next (s.setHart (s.hart.writeS x.d (BitVec.ofNat 64 (fClassV x.f (s.freg x.f x.a))))) := by
  unfold opFclass
  rw [fUn_run _ ha, addFlags_zero]

theorem opFcvt_run {x : SFcvt} (ha : s.canRead x.a = true) :
    let r := convert x.fd x.fs s.hart.csr.frm.toNat (s.freg x.fs x.a)
    opFcvt x s = .ok .next (s.setHart ((s.hart.writeS x.d (extendTo x.fd r.1)).addFlags r.2.1)) := by
  unfold opFcvt
  rw [bind_ok (readF_ok ha), bind_ok (getHart_run s)]
  exact writeS_addFlags_run ..

/-- `fsgn` sets no flag (R102). -/
theorem opFsgn_run {x : SFsgn} (ha : s.canRead x.a = true) (hb : s.canRead x.b = true) :
    opFsgn x s = .ok .next (s.setHart (s.hart.writeS x.d
      (BitVec.ofNat 64 (fSgnV x.f x.sel (s.freg x.f x.a) (s.freg x.f x.b))))) := by
  unfold opFsgn
  rw [bind_ok (readF_ok ha), bind_ok (readF_ok hb), bind_ok (writeS_run _ _ _), pure_run]

end

/-- Settles O2: the operands are read, and the result of the one operation is written with its flags. -/
theorem scalarFloatResults : Obligations.ScalarFloatResults := by
  refine ⟨fun s x ha hb => ?_, fun s x ha => ⟨runUnit_hart (fUn_run feSqrt ha), runUnit_hart (opFclass_run ha)⟩,
    fun s x ha => runUnit_hart (opFcvt_run ha), fun s x ha hb => runUnit_hart (opFsgn_run ha hb)⟩
  have completes (f : EType → Nat → Nat → Nat → Nat × Flags) := fBin_completes f ha hb
  exact ⟨completes feAdd, completes feSub, completes feMul, completes feDiv, completes feMin, completes feMax,
    fun c hc => runUnit_hart (opFma_run (x := ⟨x.f, x.d, x.a, x.b, c⟩) ha hb hc),
    fun cmp => runUnit_hart (opFset_run (x := ⟨x.f, cmp, x.d, x.a, x.b⟩) ha hb)⟩

end Sys2Proof.Machine
end

section
/-! PROOFS. R91, R97, R103 to R107: where the branches, jumps and calls lead, and what they leave. -/

namespace Sys2Proof.Machine

/-! ### Transfers that are taken or not -/

section
variable {s t u v : State} {op : M Ctl}

theorem runUnit_jump {target : Word} (h : op s = .ok (.jump target) t) :
    runUnit op s = .next (s.jumps t target) := runUnit_ok h

/-- An operation that comes to a branch commits with the effect of the branch, at the next slot or at the target. -/
theorem runUnit_branch {p : Bool} {x : Target} {effect : M Unit} (branches : op s = branchIf p x effect s)
    (stays : effect s = .ok () u) (goes : s.reaches (branchTarget s.hart.pc x) true t → effect t = .ok () v) :
    (p = false → runUnit op s = .next (s.commits u))
      ∧ (p = true → s.reaches (branchTarget s.hart.pc x) true t →
        runUnit op s = .next (s.jumps v (branchTarget s.hart.pc x))) :=
  ⟨fun no => runUnit_next (branches.trans (branchIf_not effect no stays)),
    fun yes found => runUnit_jump (branches.trans (branchIf_taken effect yes found (goes found)))⟩

/-- A branch with no effect of its own. -/
theorem runUnit_plainBranch {p : Bool} {x : Target} (branches : op s = branchIf p x (pure ()) s) :
    (p = false → runUnit op s = .next (s.commits s))
      ∧ (p = true → s.reaches (branchTarget s.hart.pc x) true t →
        runUnit op s = .next (s.jumps t (branchTarget s.hart.pc x))) :=
  runUnit_branch branches rfl fun _ => rfl

/-- A transfer whose target is reached: its effect, then the target. -/
theorem runUnit_transfer {target : Word} {bt : Bool} {effect : M Unit} (jumps : op s = takeJump target bt effect s)
    (found : s.reaches target bt t) (goes : effect t = .ok () v) : runUnit op s = .next (s.jumps v target) :=
  runUnit_jump (jumps.trans (takeJump_run effect found goes))

end

/-- A jump or call of R70 is a branch that is always taken. -/
theorem branchIf_true (x : Target) (effect : M Unit) (s : State) :
    branchIf true x effect s = takeJump (branchTarget s.hart.pc x) true effect s := rfl

/-- The frame id and the ring that a call leaves (R29, R104). -/
theorem pushFrame_eq (h : Hart) :
    pushFrame h =
      let id := if h.frameCount + 1 = 0 then 1 else h.frameCount + 1
      let ring := h.ring ++ [id]
      { h.writeS 31 (nextSlot h.pc) with
        frameCount := id
        ring := if 64 < ring.length then ring.drop 1 else ring
        overflow := h.overflow || decide (64 < ring.length)
        csr := { h.csr with frame := id } } := by
  simp only [pushFrame, nextId, gt_iff_lt, decide_eq_true_eq]

/-! ### `strip` -/

/-- The elements that `strip` leaves (R105). -/
def State.stripCount (s : State) : Word :=
  if s.hart.csr.vl ≤ s.hart.csr.sc.toNat then s.hart.csr.sc - BitVec.ofNat 64 s.hart.csr.vl else 0

/-- The byte step per element of field `i` of `strip` (R105). -/
def State.stripStep (s : State) (x : Strip) (i : Nat) : Nat :=
  let v := x.steps.toNat / 2 ^ (4 * i) % 16
  if v = 0 then s.convoy.ewBytes else 2 ^ (v - 1)

/-- The effect of `strip` on the hart (R105). -/
def stripHart (x : Strip) (sc : Word) (n : Nat) (step : Nat → Nat) (h : Hart) : Hart :=
  adv n x.e (step 3) (adv n x.c (step 2) (adv n x.b (step 1) (adv n x.a (step 0)
    { h with csr := { h.csr with sc := sc } })))

/-- The effect of `strip` as an operation (R105). -/
def stripEffect (x : Strip) (sc : Word) (n : Nat) (step : Nat → Nat) : M Unit := do
  modCsr fun k => { k with sc := sc }
  stripAdvance n (step 0) x.a
  stripAdvance n (step 1) x.b
  stripAdvance n (step 2) x.c
  stripAdvance n (step 3) x.e

section
variable {s : State} {x : Strip}

theorem stripStep_field (i : Nat) :
    Machine.stripStep s.convoy.ewBytes (field x.steps.toNat (4 * i) 4) = s.stripStep x i := by
  rw [field_eq_div_mod]
  rfl

/-- Advancing one pointer leaves another readable. -/
theorem canRead_adv {h : Hart} {r : SReg} (n k : Nat) (q : SReg) (hr : (s.setHart h).canRead r = true) :
    (s.setHart (adv n q k h)).canRead r = true := by
  have := canRead_mono (h := adv n q k h) r (by simpa using poison_adv n q k h) hr
  rwa [State.setHart_setHart] at this

variable (ha : s.canRead x.a = true) (hb : s.canRead x.b = true) (hc : s.canRead x.c = true)
  (he : s.canRead x.e = true)
include ha hb hc he

/-- Each pointer is advanced in turn, and stays readable until then. -/
theorem stripEffect_run (sc : Word) (n : Nat) (step : Nat → Nat) :
    stripEffect x sc n step s = .ok () (s.setHart (stripHart x sc n step s.hart)) := by
  have counted {r : SReg} (hr : s.canRead r = true) :
      (s.setHart { s.hart with csr := { s.hart.csr with sc := sc } }).canRead r = true :=
    canRead_mono r (fun _ hp => hp) hr
  unfold stripEffect
  rw [bind_ok (modCsr_run _ _), bind_ok (adv_run _ _ _ (counted ha)),
    bind_ok (adv_run _ _ _ (canRead_adv _ _ _ (counted hb))),
    bind_ok (adv_run _ _ _ (canRead_adv _ _ _ (canRead_adv _ _ _ (counted hc))))]
  exact adv_run _ _ _ (canRead_adv _ _ _ (canRead_adv _ _ _ (canRead_adv _ _ _ (counted he))))

/-- `strip` reads its pointers and then branches unless `sc` has come to 0 (R105). -/
theorem opStrip_eq :
    opStrip x s = branchIf (s.stripCount != 0) x.t (stripEffect x s.stripCount s.hart.csr.vl (s.stripStep x)) s := by
  unfold opStrip
  rw [bind_ok (getHart_run s), bind_ok (getConvoy_run s)]
  dsimp only
  rw [bind_ok (readS_ok ha), bind_ok (readS_ok hb), bind_ok (readS_ok hc), bind_ok (readS_ok he)]
  simp only [stripStep_field]
  rfl

end

/-! ### `bm` -/

/-- The test of a mask over the elements (R107). -/
theorem maskTest_map (test : MaskTest) (is : List Nat) (active : Nat → Bool) :
    maskTest test (is.map active) = match test with
      | .any => is.any active
      | .none => !is.any active
      | .all => is.all active
      | .nall => !is.all active := by
  cases test with
  | any | none => simp only [maskTest, List.any_map, Function.id_comp]
  | all | nall => simp only [maskTest, List.all_map, Function.id_comp]

/-- Settles O4: each comes to a branch or a transfer once its operands are read; a target that is reached has changed
nothing that the effect looks at. -/
theorem branchResults : Obligations.BranchResults := by
  refine ⟨fun s t => ⟨fun x ha hb => ?b, fun x ha => ?bi, fun x found => ?jmp, fun a ha found => ?jmpr,
    fun x found => ?jmpl⟩, fun s t => ?calls, fun s t x ha hb hc he => ?strip,
    fun s t clean => ⟨fun x => ?bm, fun x hm ha hb => ?vloopl⟩⟩
  case b => exact runUnit_plainBranch (opB_branches x ha hb)
  case bi => exact runUnit_plainBranch (opBi_branches x ha)
  case jmp => exact runUnit_transfer (branchIf_true x _ s) found rfl
  case jmpr => exact runUnit_transfer (readS_jumps ha _ _) found rfl
  case jmpl => exact runUnit_transfer (bind_ok (getHart_run s)) found rfl
  case calls =>
    intro id ring called
    have pushed : modHart pushFrame t = .ok () (t.setHart called) := by rw [modHart_run, pushFrame_eq]
    exact ⟨fun x found => runUnit_transfer (branchIf_true x _ s) found pushed,
      fun a ha found => runUnit_transfer (readS_jumps ha _ _) found pushed,
      fun x found => runUnit_transfer (bind_ok (getHart_run s)) found pushed,
      fun ha found => runUnit_transfer (readS_jumps ha _ _) found rfl⟩
  case strip =>
    intro n sc step advance stripped target
    have walked (found : s.reaches target true t) {r : SReg} (hr : s.canRead r = true) : t.canRead r = true := by
      rwa [State.canRead, (reaches_walked found).hart]
    have results := runUnit_branch (opStrip_eq ha hb hc he) (stripEffect_run ha hb hc he ..) (t := t) fun found =>
      stripEffect_run (walked found ha) (walked found hb) (walked found hc) (walked found he) ..
    exact ⟨fun done => results.1 (bne_eq_false_iff_eq.mpr done), fun more => results.2 (bne_iff_ne.mpr more)⟩
  case bm =>
    have tested := maskTest_map x.test (List.range s.hart.csr.vl) (s.activeAt_ x.a)
    exact runUnit_plainBranch ((opBm_branches clean x).trans (congrArg (branchIf · x.t (pure ()) s) tested))
  case vloopl =>
    exact runUnit_branch (opVloopl_branches clean hm ha hb) (setHart_run _ s) fun _ => setHart_run _ t

end Sys2Proof.Machine
end

section
/-! PROOFS. R109 to R114: scalar loads, stores and atomics of ordinary words. -/

namespace Sys2Proof.Machine

section
variable {s t : State} {l : Loc}

theorem writeC_run (r : CName) (v : Word) (s : State) :
    writeC r v s = .ok () (s.setHart (clearPoison (isClosureSite r) { s.hart with c := s.hart.c.set r v })) := rfl

/-! ### Loads -/

theorem opLd_run {x : SLoad} (ha : s.canRead x.a = true) (hb : s.canReadSrc x.b = true)
    (found : s.finds .scalar .load (s.reg x.a + s.src x.b) (tBytes x.t) l t) (sound : dataError t l.key = none) :
    opLd x s = .ok .next ((t.after (meter l.key (tBytes x.t))).setHart
      (t.hart.writeS x.d (extendTo x.t (memReadN s.mem l.key (tBytes x.t))))) := by
  unfold opLd
  rw [bind_ok (readS_ok ha), bind_ok (readSrc_ok hb), bind_ok (loadVa_finds 1 x.t found sound),
    bind_ok (writeS_run _ _ _), after_meter_hart, pure_run]

theorem opCld_run {x : CLoad} (ha : s.canRead x.a = true)
    (found : s.finds .scalar .load (s.reg x.a + simm x.off) 8 l t) (sound : dataError t l.key = none) :
    opCld x s = .ok .next ((t.after (meter l.key 8)).setHart (clearPoison (isClosureSite x.d)
      { t.hart with c := t.hart.c.set x.d (BitVec.ofNat 64 (memReadN s.mem l.key 8)) })) := by
  unfold opCld
  rw [bind_ok (readS_ok ha)]
  dsimp only
  rw [bind_ok (loadVa_finds 1 .n64 found sound), bind_ok (writeC_run _ _ _), after_meter_hart, pure_run]

/-! ### Stores -/

/-- A store at a place that was found, in a vault that is not cut off. -/
theorem storePlace_finds {fam : Fam} {va : Word} {n : Nat} (found : s.finds fam .store va n l t)
    (linked : (t.coreOf (l.key / 2 ^ 30)).fenced = false) (kind v : Nat) (ty : EType) (unord : Bool) :
    storePlace (.local_ l) kind va n v ty unord none none t =
      .ok () (pokeN l.key n v (t.after (meter l.key n))) := by
  have ⟨_, vault, host, log, calm⟩ := found
  exact storePlace_run ((finds_walked found).calm calm) vault host log linked ..

theorem storeVa_finds {fam : Fam} {va : Word} {n : Nat} (found : s.finds fam .store va n l t)
    (linked : (t.coreOf (l.key / 2 ^ 30)).fenced = false) (kind v : Nat) (ty : EType) (unord : Bool) :
    storeVa fam kind va n v ty unord none none s = .ok () (pokeN l.key n v (t.after (meter l.key n))) :=
  (bind_ok found.1).trans (storePlace_finds found linked kind v ty unord)

theorem opSt_run {x : SStore} (ha : s.canRead x.a = true) (hb : s.canReadSrc x.b = true) (hc : s.canRead x.c = true)
    (found : s.finds .scalar .store (s.reg x.a + s.src x.b) (tBytes x.t) l t)
    (linked : (t.coreOf (l.key / 2 ^ 30)).fenced = false) (idle : ∀ sc, x.rel = some sc → s.idleAt sc) :
    opSt x s = .ok .next (pokeN l.key (tBytes x.t) ((s.reg x.c).toNat % 2 ^ tBits x.t)
      (t.after (meter l.key (tBytes x.t)))) := by
  have released : releaseOpt x.rel t = .ok () t :=
    releaseOpt_none x.rel fun sc named => (finds_walked found).idleAt (idle sc named)
  unfold opSt
  rw [bind_ok (readS_ok hc), bind_ok (readS_ok ha), bind_ok (readSrc_ok hb), bind_ok found.1, bind_ok released,
    bind_ok (storePlace_finds found linked ..), pure_run]

theorem opCst_run {x : CStore} (ha : s.canRead x.a = true) (hc : s.canReadC x.c = true)
    (found : s.finds .scalar .store (s.reg x.a + simm x.off) 8 l t)
    (linked : (t.coreOf (l.key / 2 ^ 30)).fenced = false) :
    opCst x s = .ok .next (pokeN l.key 8 (s.hart.c[x.c]).toNat (t.after (meter l.key 8))) := by
  unfold opCst
  rw [bind_ok (readC_ok hc), bind_ok (readS_ok ha), bind_ok (storeVa_finds found linked ..), pure_run]

/-! ### Misaligned addresses -/

theorem opLd_misaligned {x : SLoad} (ha : s.canRead x.a = true) (hb : s.canReadSrc x.b = true)
    (off : (s.reg x.a + s.src x.b).toNat % tBytes x.t ≠ 0) :
    opLd x s = .error (.trap { cause := 0x05, addr := some (s.reg x.a + s.src x.b) }) s := by
  unfold opLd loadVa
  rw [bind_ok (readS_ok ha), bind_ok (readSrc_ok hb)]
  exact bind_error (bind_error (locate_mis off))

theorem opSt_misaligned {x : SStore} (ha : s.canRead x.a = true) (hb : s.canReadSrc x.b = true)
    (hc : s.canRead x.c = true) (off : (s.reg x.a + s.src x.b).toNat % tBytes x.t ≠ 0) :
    opSt x s = .error (.trap { cause := 0x05, addr := some (s.reg x.a + s.src x.b) }) s := by
  unfold opSt
  rw [bind_ok (readS_ok hc), bind_ok (readS_ok ha), bind_ok (readSrc_ok hb)]
  exact bind_error (locate_mis off)

end

/-! ### Atomics -/

section
variable {s t : State} {l : Loc} {x : Amo}

/-- Nothing is deferred, so there is room for one update (R333). -/
theorem deferRoom_none (empty : s.hart.deferred = []) : deferRoom 1 s = .ok () s := by
  unfold deferRoom
  rw [bind_ok (getHart_run s), empty, if_neg (by decide), pure_run]

/-- An update of a word whose page is not logged has no place in the log (R330). -/
theorem deferLocal_unlogged (log : l.log = false) (va : Word) (ty : EType) (value kind elem : Nat) :
    deferLocal l va ty value kind elem s = .ok () (s.setHart { s.hart with
      deferred := s.hart.deferred ++ [⟨va, l.key, ty, BitVec.ofNat 64 value, s.hart.mode, none, heldEntry s va⟩] }) := by
  unfold deferLocal
  rw [bind_ok (get_run s)]
  simp only [logsHere, log, Bool.false_and, Bool.false_eq_true, if_false]
  rfl

/-- The state after an atomic writes its new value, if it has one (R112). -/
def amoWritten (l : Loc) (ty : EType) (new : Option Nat) (u : State) : State :=
  match new with
  | some v => pokeN l.key (tBytes ty) v u
  | none => u

/-- One access to an ordinary word: the old value is read and the new one written (R112). -/
theorem amoAt_run (calm : t.calm) (log : l.log = false) (sound : dataError t l.key = none) (va : Word) (ty : EType)
    (op : AmoOp) (cmp c : Nat) :
    let old := memReadN t.mem l.key (tBytes ty)
    amoAt l va ty op cmp c t =
      .ok old (amoWritten l ty (amoNew ty op old cmp c) (t.after (meter l.key (tBytes ty)))) := by
  unfold amoAt
  rw [bind_ok (flushGranule_none calm.1 _), bind_ok (awaitOwn_calm calm _), bind_ok (awaitLogged_off log),
    bind_ok (checkData_none sound _ _ _), bind_ok (logOne_off log _ _ _), bind_ok (meter_run _ _ _),
    bind_ok (get_run _), after_meter_mem]
  dsimp only
  cases amoNew ty op (memReadN t.mem l.key (tBytes ty)) cmp c <;> rfl

/-- In deterministic mode a returning `amo.fadd` raises 0x17 before it reads its operands (R114). -/
theorem opAmo_returningFadd (det : s.hart.det = true) (fadd : x.op = .fadd) (returns : x.d ≠ 0) :
    opAmo x s = .error (.trap { cause := 0x17 }) s := by
  unfold opAmo
  rw [bind_ok (getHart_run s)]
  dsimp only
  rw [if_pos (by simp [det, fadd, returns])]
  rfl

theorem amo_allowed (h : s.hart.det = false ∨ x.op ≠ .fadd ∨ x.d = 0) :
    ¬(s.hart.det && x.op == .fadd && x.d != 0) = true := by
  simp only [Bool.and_eq_true, beq_iff_eq, bne_iff_ne]
  rintro ⟨⟨det, fadd⟩, returns⟩
  rcases h with h | h | h
  · simp [h] at det
  · exact h fadd
  · exact returns h

variable (ha : s.canRead x.a = true) (hb : s.canRead x.b = true) (hc : s.canRead x.c = true)
  (allowed : s.hart.det = false ∨ x.op ≠ .fadd ∨ x.d = 0)
include ha hb hc allowed

theorem opAmo_misaligned (off : (s.reg x.a).toNat % tBytes x.t ≠ 0) :
    opAmo x s = .error (.trap { cause := 0x05, addr := some (s.reg x.a) }) s := by
  unfold opAmo
  rw [bind_ok (getHart_run s)]
  dsimp only
  rw [if_neg (amo_allowed allowed), bind_ok (readS_ok ha), bind_ok (readS_ok hc), bind_ok (readS_ok hb)]
  exact bind_error (locate_mis off)

/-- An atomic whose word is found, and whose release has nothing to wait for, is deferred or performed there (R112, R114). -/
theorem opAmo_located (located : locate .amo .store (s.reg x.a) (tBytes x.t) none none s = .ok (.local_ l) t)
    (idle : x.rel = true → t.idleAt x.scope) :
    opAmo x s = (if (s.hart.det && x.op == .fadd) = true then do
        deferRoom 1
        logOne l 3 (s.reg x.a) none
        deferLocal l (s.reg x.a) x.t ((s.reg x.c).toNat % 2 ^ tBits x.t) 3 0
        pure .next
      else do
        let old ← amoAt l (s.reg x.a) x.t x.op ((s.reg x.b).toNat % 2 ^ tBits x.t) ((s.reg x.c).toNat % 2 ^ tBits x.t)
        writeS x.d (extendTo x.t old)
        pure .next : M Ctl) t := by
  have released : (if x.rel = true then releaseAt x.scope else pure ()) t = .ok () t := by
    split
    · exact releaseAt_idle (idle ‹_›)
    · rfl
  unfold opAmo
  rw [bind_ok (getHart_run s)]
  dsimp only
  rw [if_neg (amo_allowed allowed), bind_ok (readS_ok ha), bind_ok (readS_ok hc), bind_ok (readS_ok hb),
    bind_ok located, ifUnit_bind, bind_ok released]

end

section
variable {s t : State} {l : Loc} {x : Amo}
variable (ha : s.canRead x.a = true) (hb : s.canRead x.b = true) (hc : s.canRead x.c = true)
  (found : s.finds .amo .store (s.reg x.a) (tBytes x.t) l t)
include ha hb hc found

theorem opAmo_performed (plain : s.hart.det = false ∨ x.op ≠ .fadd) (sound : dataError t l.key = none)
    (idle : x.rel = true → s.idleAt x.scope) :
    let old := memReadN s.mem l.key (tBytes x.t)
    let new := amoNew x.t x.op old ((s.reg x.b).toNat % 2 ^ tBits x.t) ((s.reg x.c).toNat % 2 ^ tBits x.t)
    let u := amoWritten l x.t new (t.after (meter l.key (tBytes x.t)))
    opAmo x s = .ok .next (u.setHart (u.hart.writeS x.d (extendTo x.t old))) := by
  have ⟨located, _, _, log, calm⟩ := found
  have walked := finds_walked found
  have now : ¬(s.hart.det && x.op == .fadd) = true := by
    rcases plain with h | h <;> simp [h]
  rw [opAmo_located ha hb hc (plain.imp_right .inl) located fun rel => walked.idleAt (idle rel), if_neg now,
    bind_ok (amoAt_run (walked.calm calm) log sound ..), bind_ok (writeS_run _ _ _), walked.mem, pure_run]

/-- In deterministic mode an `amo.fadd` that returns nothing is deferred (R114, R333). -/
theorem opAmo_deferred (det : s.hart.det = true) (fadd : x.op = .fadd) (silent : x.d = 0) (rel : x.rel = false) :
    opAmo x s = .ok .next (t.setHart { t.hart with
      deferred := [⟨s.reg x.a, l.key, x.t, BitVec.ofNat 64 ((s.reg x.c).toNat % 2 ^ tBits x.t), s.hart.mode,
        none, heldEntry t (s.reg x.a)⟩] }) := by
  have ⟨located, _, _, log, calm⟩ := found
  have walked := finds_walked found
  have later : (s.hart.det && x.op == .fadd) = true := by simp [det, fadd]
  have empty : t.hart.deferred = [] := (walked.calm calm).1
  rw [opAmo_located ha hb hc (.inr (.inr silent)) located (by simp [rel]), if_pos later, bind_ok (deferRoom_none empty),
    bind_ok (logOne_off log _ _ _), bind_ok (deferLocal_unlogged log ..), empty, walked.hart, pure_run]
  rfl

end

/-! ### The statements -/

/-- Settles O6: the word is found, nothing of the hart is pending there, and the access is made; a misaligned address is
met by `locate`, before anything else. -/
theorem scalarAccessResults : Obligations.ScalarAccessResults := by
  refine ⟨fun s t l => ⟨fun x ha hb found sound => ?ld, fun x ha found sound => ?cld⟩,
    fun s t l linked => ⟨fun x ha hb hc found idle => ?st, fun x ha hc found => ?cst⟩,
    fun s => ⟨fun x ha hb off => ?ldOff, fun x ha hb hc off => ?stOff, fun x ha hb hc allowed off => ?amoOff⟩⟩
  case ld => exact runUnit_next (opLd_run ha hb found sound)
  case cld => exact runUnit_next (opCld_run ha found sound)
  case st => exact runUnit_next (opSt_run ha hb hc found linked idle)
  case cst => exact runUnit_next (opCst_run ha hc found linked)
  case ldOff => exact runUnit_trap (opLd_misaligned ha hb off)
  case stOff => exact runUnit_trap (opSt_misaligned ha hb hc off)
  case amoOff => exact runUnit_trap (opAmo_misaligned ha hb hc allowed off)

/-- Settles O7: the word is found, and the atomic is made there as one access, deferred, or refused before it reads. -/
theorem amoResults : Obligations.AmoResults := by
  refine ⟨fun s t l x ha hb hc plain found sound idle => ?_, fun s x det fadd => ⟨fun returns => ?_,
    fun t l silent rel ha hb hc found => ?_⟩⟩
  · intro w old c new u u'
    have value : amoNew x.t x.op old ((s.reg x.b).toNat % 2 ^ w) c = new := rfl
    have written : amoWritten l x.t new u = u' := rfl
    rw [← written, ← value]
    exact runUnit_next (opAmo_performed ha hb hc found plain sound idle)
  · exact runUnit_trap (opAmo_returningFadd det fadd returns)
  · exact runUnit_next (opAmo_deferred ha hb hc found det fadd silent rel)

end Sys2Proof.Machine
end

section
/-! PROOFS. R119, R124: the results of the vector integer instructions. -/

namespace Sys2Proof.Machine

/-! ### Operand B without poison -/

theorem varg_poisoned {h : Hart} (hp : h.poison = []) (s : State) (t : EType) (b : VSrc) (w i : Nat) :
    (s.varg t b).poisoned h w i = false :=
  VArg.poisoned_clean hp _ (by cases b <;> nofun) w i

theorem vfarg_poisoned {h : Hart} (hp : h.poison = []) (s : State) (t : EType) (b : VSrc) (w i : Nat) :
    (s.vfarg t b).1.poisoned h w i = false :=
  VArg.poisoned_clean hp _ (by cases b <;> nofun) w i

section
variable {s : State}

/-! ### Elementwise operations -/

theorem vInt3_run (f : Nat → Nat → Nat → Nat → Nat) (readsD : Bool) {x : VOp}
    (fits : s.fits x.t (x.d :: x.a :: vsrcGroup x.b)) :
    vInt3 f readsD x s = .ok .next (s.setHart (s.each x.m x.d (tBits x.t) fun h i =>
      (f (tBits x.t) (h.elem x.a (tBits x.t) i) ((s.varg x.t x.b).get h (tBits x.t) i) (h.elem x.d (tBits x.t) i), 0))) := by
  unfold vInt3
  rw [bind_ok (checkVec_ok fits), bind_ok (resolveB_ok fits.clean _ _), bind_ok (vecLoop_each fits.clean ..), pure_run]
  intro i h hp
  simp only [elemPoisoned_clean hp, varg_poisoned hp, Bool.and_false, Bool.or_self]

/-- A two-operand integer instruction completes with the operation of R124 at each active element. -/
theorem vInt_completes (f : Nat → Nat → Nat → Nat) {x : VOp} (fits : s.fits x.t (x.d :: x.a :: vsrcGroup x.b)) :
    runUnit (vInt f x) s = .next (s.commitsHart (s.each x.m x.d (tBits x.t) fun h i =>
      (f (tBits x.t) (h.elem x.a (tBits x.t) i) ((s.varg x.t x.b).get h (tBits x.t) i), 0))) :=
  runUnit_hart (vInt3_run (fun w a b _ => f w a b) false fits)

theorem vUnary_run (f : EType → Nat → Nat × Flags) {x : VUn} (fits : s.fits x.t [x.d, x.a]) :
    vUnary f x s = .ok .next (s.setHart (s.each x.m x.d (tBits x.t) fun h i => f x.t (h.elem x.a (tBits x.t) i))) := by
  unfold vUnary
  rw [bind_ok (checkVec_ok fits), bind_ok (vecLoop_each fits.clean ..), pure_run]
  exact fun i h hp => elemPoisoned_clean hp ..

/-- `vsel` writes every element from `vstart` on (R119). -/
theorem opVsel_run {x : VOp} (fits : s.fits x.t (x.d :: x.a :: vsrcGroup x.b)) :
    opVsel x s = .ok .next (s.setHart (((elemRange s.hart).foldl (fun g i => g.setElem x.d (tBits x.t) i
      (if s.activeAt_ x.m i then g.elem x.a (tBits x.t) i else (s.varg x.t x.b).get g (tBits x.t) i))
      s.hart).setVstart 0)) := by
  unfold opVsel
  rw [bind_ok (checkVec_ok fits), bind_ok (resolveB_ok fits.clean _ _), bind_ok (checkPred_clean fits.clean _),
    bind_ok (getConvoy_run s), bind_ok (getHart_run s), bind_ok (runElems_all fits.clean ?_ _), pure_run]
  intro i h hp
  refine ⟨?_, setElem_clean hp ..⟩
  simp only [elemResult, elemPoisoned_clean hp, varg_poisoned hp, ite_self, Bool.false_eq_true, if_false, addFlags_zero]
  rfl

/-! ### Results in mask bits -/

/-- Without poison neither the predicate nor a compact mask destination raises anything (R160). -/
theorem checkPredDest_clean (clean : s.clean) (m d : MName) : checkPredDest m d s = .ok () s := by
  unfold State.clean at clean
  unfold checkPredDest
  rw [bind_ok (getHart_run s), bind_ok (getConvoy_run s)]
  simp [raiseLowest, maskPoison, destPoison, clean]

/-- A loop that starts on a hart which an earlier part of the instruction has left without poison. -/
theorem runElems_setHart {f : Nat → Hart → Option Hart} {g : Hart → Nat → Hart} {k : Hart} (clean : k.poison = [])
    (elem : ∀ i (h : Hart), h.poison = [] → f i h = some (g h i) ∧ (g h i).poison = []) (is : List Nat) :
    runElems is f (s.setHart k) = .ok () (s.setHart ((is.foldl g k).setVstart 0)) := by
  have start : (s.setHart k).clean := by rw [State.clean, State.setHart_hart, clean]
  rw [runElems_all start elem, State.setHart_hart, State.setHart_setHart]

/-- The mask bit of one compared element, and its flags (R119, R120). -/
def compareElem (w : Nat) (d : MName) (a : VName) (b : VArg) (f : Nat → Nat → Bool × Flags) (g : Hart) (i : Nat) : Hart :=
  (g.setMaskBit d i (f (g.elem a w i) (b.get g w i)).1).addFlags (f (g.elem a w i) (b.get g w i)).2

theorem compareElem_noFlags (w : Nat) (d : MName) (a : VName) (b : VArg) (holds : Nat → Nat → Bool) :
    compareElem w d a b (fun p q => (holds p q, 0)) =
      fun g i => g.setMaskBit d i (holds (g.elem a w i) (b.get g w i)) := by
  funext g i
  exact addFlags_zero _

/-- A compare expands its destination and writes the bits of the active elements (R120). -/
theorem vCompare_run {t : EType} {d : MName} {a : VName} {b : VArg} {m : MName} (f : Nat → Nat → Bool × Flags)
    (clean : s.clean) (free : s.unbound d)
    (sound : ∀ (h : Hart) (i : Nat), h.poison = [] → b.poisoned h (tBits t) i = false) :
    vCompare t d a b m f s = .ok () (s.setHart (((s.active m).foldl (compareElem (tBits t) d a b f)
      (s.hart.expandMask s.convoy.ewBytes d)).setVstart 0)) := by
  unfold vCompare
  dsimp only
  rw [bind_ok (getConvoy_run s), bind_ok (stallBound_free free), bind_ok (checkPredDest_clean clean _ _),
    bind_ok (getHart_run s), bind_ok (modHart_run _ s)]
  refine runElems_setHart (expandMask_clean clean _ _) (fun i h hp => ⟨?_, ?_⟩) _
  · simp only [elemPoisoned_clean hp, sound h i hp, Bool.or_self, Bool.false_eq_true, if_false]
    rfl
  · rw [compareElem, addFlags_poison, setMaskBit_poison, hp]

theorem opVcmp_run {x : VCmp} (fits : s.fits x.t (x.a :: vsrcGroup x.b)) (free : s.unbound x.d) :
    opVcmp x s = .ok .next (s.setHart (((s.active x.m).foldl
      (fun g i => g.setMaskBit x.d i
      (condHolds x.cc (tBits x.t) (g.elem x.a (tBits x.t) i) ((s.varg x.t x.b).get g (tBits x.t) i)))
      (s.hart.expandMask s.convoy.ewBytes x.d)).setVstart 0)) := by
  unfold opVcmp
  rw [bind_ok (checkVec_ok fits), bind_ok (resolveB_ok fits.clean _ _),
    bind_ok (vCompare_run _ fits.clean free fun _ _ hp => varg_poisoned hp ..), compareElem_noFlags, pure_run]

end

/-! ### The statements -/

/-- Settles O10: the operands are read without poison, and the operation is that of the table once shifts are written as
products and quotients. -/
theorem vectorIntegerResults : Obligations.VectorIntegerResults := by
  intro s x fits w f gives sh
  have completes (o : Nat → Nat → Nat → Nat) := vInt_completes o fits
  refine ⟨completes _, completes subW, completes _, completes mulhS, completes mulhU,
    runUnit_hart (vInt3_run _ true fits), completes fun w a b => if tSigned x.t then divS w a b else divU w a b,
    completes fun w a b => if tSigned x.t then remS w a b else remU b a, completes _, completes _, completes _,
    ?shl, ?shr, completes sarW, completes minS, completes maxS, completes _, completes _, completes _, completes _⟩
  case shl => simp only [gives, sh, f, w, ← shlW_eq_mul]; exact completes shlW
  case shr => simp only [gives, sh, f, w, ← shrW_eq_div]; exact completes shrW

/-- Settles O11: one operand, a selection or a comparison at each element of a hart without poison; a comparison of
integers adds no flag. -/
theorem vectorSelectCompare : Obligations.VectorSelectCompare := by
  refine ⟨fun s x fits => ?unary, fun s x fits => runUnit_hart (opVsel_run fits), fun s x fits free =>
    runUnit_hart (opVcmp_run fits free)⟩
  case unary =>
    have completes (o : EType → Nat → Nat) := runUnit_hart (vUnary_run (fun t a => (o t a, 0)) fits)
    exact ⟨completes fun t a => absW (tBits t) a, completes fun t a => clzW (tBits t) a,
      completes fun t a => popW (tBits t) a⟩

end Sys2Proof.Machine
end

section
/-! PROOFS. R125, R126: the results of the vector floating-point instructions. -/

namespace Sys2Proof.Machine

section
variable {s : State}

/-- The flags of an immediate's conversion are added when the elements are done (R68). -/
theorem addFlags_end (k : Hart) (fl : Flags) :
    (do addFlags fl; pure .next : M Ctl) (s.setHart k) = .ok .next (s.setHart (k.addFlags fl)) := by
  rw [bind_ok (addFlags_run _ _), pure_run, State.setHart_hart, State.setHart_setHart]

theorem vFp_run (f : EType → Nat → Nat → Nat → Nat × Flags) {x : VOp}
    (fits : s.fits x.t (x.d :: x.a :: vsrcGroup x.b)) :
    vFp f x s = .ok .next (s.setHart ((s.each x.m x.d (tBits x.t) fun h i => f x.t s.hart.mode_
      (h.elem x.a (tBits x.t) i) ((s.vfarg x.t x.b).1.get h (tBits x.t) i)).addFlags (s.vfarg x.t x.b).2)) := by
  unfold vFp
  dsimp only
  rw [bind_ok (checkVec_ok fits), bind_ok (resolveFB_ok fits.clean _ _)]
  rw [bind_ok (getHart_run s), bind_ok (vecLoop_each fits.clean ..), addFlags_end]
  intro i h hp
  simp only [elemPoisoned_clean hp, vfarg_poisoned hp, Bool.or_self]

theorem opVfma_run {x : VFma} (fits : s.fits x.t (x.d :: x.a :: x.c :: vsrcGroup x.b)) :
    opVfma x s = .ok .next (s.setHart ((s.each x.m x.d (tBits x.t) fun h i => feFma x.t s.hart.mode_
      (h.elem x.a (tBits x.t) i) ((s.vfarg x.t x.b).1.get h (tBits x.t) i)
      (h.elem x.c (tBits x.t) i)).addFlags (s.vfarg x.t x.b).2)) := by
  unfold opVfma
  dsimp only
  rw [bind_ok (checkVec_ok fits), bind_ok (resolveFB_ok fits.clean _ _)]
  rw [bind_ok (getHart_run s), bind_ok (vecLoop_each fits.clean ..), addFlags_end]
  intro i h hp
  simp only [elemPoisoned_clean hp, vfarg_poisoned hp, Bool.or_self]

/-- `vfsgn` drops the flags of an immediate's conversion (R125). -/
theorem opVfsgn_run {x : VFsgn} (fits : s.fits x.t (x.d :: x.a :: vsrcGroup x.b)) :
    opVfsgn x s = .ok .next (s.setHart (s.each x.m x.d (tBits x.t) fun h i => (fSgnV x.t x.sel
      (h.elem x.a (tBits x.t) i) ((s.vfarg x.t x.b).1.get h (tBits x.t) i), 0))) := by
  unfold opVfsgn
  dsimp only
  rw [bind_ok (checkVec_ok fits), bind_ok (resolveFB_ok fits.clean _ _)]
  rw [bind_ok (vecLoop_each fits.clean ..), pure_run]
  intro i h hp
  simp only [elemPoisoned_clean hp, vfarg_poisoned hp, Bool.or_self]

theorem vFpUn_run (f : EType → Nat → Nat → Nat × Flags) {x : VUn} (fits : s.fits x.t [x.d, x.a]) :
    vFpUn f x s = .ok .next (s.setHart (s.each x.m x.d (tBits x.t) fun h i =>
      f x.t s.hart.mode_ (h.elem x.a (tBits x.t) i))) := by
  unfold vFpUn
  rw [bind_ok (getHart_run s), vUnary_run _ fits]

theorem opVfcmp_run {x : VFcmp} (fits : s.fits x.t (x.a :: vsrcGroup x.b)) (free : s.unbound x.d) :
    opVfcmp x s = .ok .next (s.setHart ((((s.active x.m).foldl
      (compareElem (tBits x.t) x.d x.a (s.vfarg x.t x.b).1 fun p q => fCmpV x.cmp (fDecode x.t p) (fDecode x.t q))
      (s.hart.expandMask s.convoy.ewBytes x.d)).setVstart 0).addFlags (s.vfarg x.t x.b).2)) := by
  unfold opVfcmp
  dsimp only
  rw [bind_ok (checkVec_ok fits), bind_ok (resolveFB_ok fits.clean _ _)]
  rw [bind_ok (vCompare_run _ fits.clean free fun _ _ hp => vfarg_poisoned hp ..), addFlags_end]

end

/-- Settles O12: the operands are read without poison, and the mode is that of the hart at the start; each form is its
operation at each active element. -/
theorem vectorFloatResults : Obligations.VectorFloatResults := by
  refine ⟨fun s x fits => ?binary, fun s x fits => runUnit_hart (opVfma_run fits),
    fun s x fits => runUnit_hart (opVfsgn_run fits), fun s x fits => ?unary,
    fun s x fits free => runUnit_hart (opVfcmp_run fits free)⟩
  case binary =>
    have completes (f : EType → Nat → Nat → Nat → Nat × Flags) := runUnit_hart (vFp_run f fits)
    exact ⟨completes feAdd, completes feSub, completes feMul, completes feDiv, completes feMin, completes feMax⟩
  case unary =>
    have completes (f : EType → Nat → Nat → Nat × Flags) := runUnit_hart (vFpUn_run f fits)
    exact ⟨completes feSqrt, completes fun t mode a => fRcpV t mode (fDecode t a),
      completes fun t mode a => fRsqV t mode (fDecode t a), completes fun t mode a => fExp2V t mode (fDecode t a),
      completes fun t mode a => fLog2V t mode (fDecode t a), completes fun t _ a => (fClassV t a, 0)⟩

end Sys2Proof.Machine
end

section
/-! PROOFS. R118, R128 to R132: the results of the conversions. -/

namespace Sys2Proof.Machine

/-- One converted element: its result, its flags and its saturation bit, and `amax` where AMX asks (R119, R128). -/
def convertElem (x : VConv) (f : Hart → Nat → Nat → Nat × Flags × Bool) (g : Hart) (i : Nat) : Hart :=
  let a := g.elem x.a (tBits x.src) i
  let r := f g i a
  let h := ((g.setElem x.d (tBits x.w) i r.1).addFlags r.2.1).setMaskBit x.satm i r.2.2
  if x.amx then h.amax x.src a else h

theorem amax_poison (t : EType) (v : Nat) (h : Hart) : (h.amax t v).poison = h.poison := by
  unfold Hart.amax
  split
  · rfl
  · split <;> rfl

theorem convertElem_clean {g : Hart} (clean : g.poison = []) (x : VConv)
    (f : Hart → Nat → Nat → Nat × Flags × Bool) (i : Nat) : (convertElem x f g i).poison = [] := by
  unfold convertElem
  dsimp only
  split
  · rw [amax_poison, setMaskBit_poison, addFlags_poison, setElem_clean clean]
  · rw [setMaskBit_poison, addFlags_poison, setElem_clean clean]

/-- The result of `vscl` at an element: one that is not narrow does not saturate (R132). -/
def scaledResult (x : VConv) (h : Hart) (i a : Nat) : Nat × Flags × Bool :=
  let sb := h.elem 30 8 (i / 32)
  if field sb 6 2 ≠ 0 ∨ field sb 0 6 = 63 then (canonNaN x.w, fNV, false)
  else
    let v := (valOf x.src a).scale ((field sb 0 6 : Int) - 32)
    if x.w = .e4m3 ∨ x.w = .e5m2 then toNarrowF x.w h.mode_ v
    else ((fEncode x.w h.mode_ v).1, (fEncode x.w h.mode_ v).2, false)

theorem opVscl_eq (x : VConv) : opVscl x = vConvert true (scaledResult x) x := by
  unfold opVscl
  congr 1
  funext h i a
  unfold scaledResult scaleByte
  dsimp only
  congr 1
  split
  case h_1 narrow => exact (if_pos (.inl narrow)).symm
  case h_2 narrow => exact (if_pos (.inr narrow)).symm
  case h_3 wide4 wide5 => exact (if_neg fun narrow => narrow.elim wide4 wide5).symm

section
variable {s : State} {x : VConv}

/-- A conversion whose groups are as R118 asks, a scaled one apart from the scales. -/
theorem vConvert_run (f : Hart → Nat → Nat → Nat × Flags × Bool) (clean : s.clean) (free : s.unbound x.satm)
    (sides : sidesOk s.convoy x.d x.a (tBits x.w) (tBits x.src) = true) {scaled : Bool}
    (apart : scaled = true → touchesScales x.d (sideRegs s.convoy (tBits x.w)) = false) :
    vConvert scaled f x s = .ok .next (s.setHart (((s.active x.m).foldl (convertElem x f)
      (s.hart.expandMask s.convoy.ewBytes x.satm)).setVstart 0)) := by
  have groups : (sidesOk s.convoy x.d x.a (tBits x.w) (tBits x.src)
      && !(scaled && touchesScales x.d (sideRegs s.convoy (tBits x.w)))) = true := by
    cases scaled <;> simp [sides, apart]
  unfold vConvert
  dsimp only
  rw [bind_ok (getConvoy_run s), bind_ok (require_ok groups s), bind_ok (stallBound_free free),
    bind_ok (checkPredDest_clean clean _ _), bind_ok (getHart_run s), bind_ok (modHart_run _ s),
    bind_ok (runElems_setHart (g := convertElem x f) (expandMask_clean clean _ _) ?_ _)]
  · rfl
  intro i h hp
  refine ⟨?_, convertElem_clean hp x f i⟩
  simp only [elemPoisoned_clean hp, Bool.and_false, Bool.or_self, Bool.false_eq_true, if_false]
  rfl

end

/-- Settles O13: the four conversions are one loop, and `vscl` saturates at the two narrow types alone. -/
theorem vectorConversionResults : Obligations.VectorConversionResults := by
  intro s x clean free sides gives
  refine ⟨runUnit_hart (vConvert_run _ clean free sides nofun), fun apart => ?_⟩
  have completes (f : Hart → Nat → Nat → Nat × Flags × Bool) :=
    vConvert_run (scaled := true) f clean free sides fun _ => apart
  exact ⟨runUnit_hart (completes _), runUnit_hart (completes _),
    runUnit_hart ((congrFun (opVscl_eq x) s).trans (completes (scaledResult x)))⟩

end Sys2Proof.Machine
end

section
/-! PROOFS. R52, R133 to R135: the results of the reductions and the scans. -/

namespace Sys2Proof.Machine

section
variable {s : State}

/-- The end of an instruction that changes its hart and writes a scalar. -/
theorem modHart_writeS_run (f : Hart → Hart) (d : SReg) (v : Word) (s : State) :
    (do modHart f; writeS d v; pure .next : M Ctl) s = .ok .next (s.setHart ((f s.hart).writeS d v)) := by
  rw [bind_ok (modHart_run _ s), bind_ok (writeS_run ..), State.setHart_hart, State.setHart_setHart, pure_run]

/-- The same with flags. -/
theorem modHart_writeS_addFlags_run (f : Hart → Hart) (d : SReg) (v : Word) (fl : Flags) (s : State) :
    (do modHart f; writeS d v; addFlags fl; pure .next : M Ctl) s =
      .ok .next (s.setHart (((f s.hart).writeS d v).addFlags fl)) := by
  rw [bind_ok (modHart_run _ s), writeS_addFlags_run, State.setHart_hart, State.setHart_setHart]

theorem opVred_run {x : VRed} (fits : s.fits x.t [x.a]) :
    opVred x s = .ok .next (s.setHart ((s.hart.setVstart 0).writeS x.d (extendTo x.t
      (((s.active x.m).map fun i => s.hart.elem x.a (tBits x.t) i).foldl (redOp x.op (tBits x.t))
        ((s.reg x.b).toNat % 2 ^ tBits x.t))))) := by
  rw [List.foldl_map]
  exact (bind_ok (checkVec_ok fits)).trans <| (bind_ok (readS_ok (fits.clean.canRead _))).trans <|
    (bind_ok (wholeActive_clean fits.clean ..)).trans <| (bind_ok (getHart_run s)).trans <| modHart_writeS_run ..

theorem opVfred_run {x : VFRed} (fits : s.fits x.t [x.a]) :
    let r := fredFold x.op x.t (s.freg x.t x.b) ((s.active x.m).map fun i => (i, s.hart.elem x.a (tBits x.t) i))
    opVfred x s = .ok .next (s.setHart
      (((s.hart.setVstart 0).writeS x.d (BitVec.ofNat 64 r.1)).addFlags r.2)) :=
  (bind_ok (checkVec_ok fits)).trans <| (bind_ok (readS_ok (fits.clean.canRead _))).trans <|
    (bind_ok (wholeActive_clean fits.clean ..)).trans <| (bind_ok (getHart_run s)).trans <|
    modHart_writeS_addFlags_run ..

/-- A scan writes the running values, then the last one, then its flags (R135). -/
theorem scanWith_run (f : Nat → Nat → Nat × Flags) {t : EType} (excl : Bool) {d a : VName} (b c : SReg) (m : MName)
    (fits : s.fits t [d, a]) :
    let r := scanGo f excl ((s.active m).map fun i => (i, s.hart.elem a (tBits t) i)) (s.freg t b)
    scanWith f t excl d a b c m s = .ok .next (s.setHart
      ((((s.hart.setElems d (tBits t) r.1).setVstart 0).writeS c (extendTo t r.2.1)).addFlags r.2.2)) :=
  (bind_ok (checkVec_ok fits)).trans <| (bind_ok (readS_ok (fits.clean.canRead _))).trans <|
    (bind_ok (wholeActive_clean fits.clean ..)).trans <| (bind_ok (getHart_run s)).trans <|
    modHart_writeS_addFlags_run ..

end

/-- Settles O14: without poison every active element is read, and the fold or the scan is the model's own. -/
theorem reductionScanResults : Obligations.ReductionScanResults := by
  refine ⟨⟨fun s x fits => runUnit_hart (opVred_run fits), fun s x fits => runUnit_hart (opVfred_run fits)⟩,
    fun s x fits => ?vscan, fun s x fits => ?vfscan⟩
  case vscan => exact runUnit_hart (scanWith_run (fun p q => (redOp x.op (tBits x.t) p q, 0)) x.excl x.b x.c x.m fits)
  case vfscan => exact runUnit_hart (scanWith_run (fredOp x.op x.t) x.excl x.b x.c x.m fits)

end Sys2Proof.Machine
end

section
/-! PROOFS. R137 to R142: the results of the permutations and of the moves of elements. -/

namespace Sys2Proof.Machine

/-! ### Permutations -/

section
variable {s : State}

/-- The groups are as `vtype` asks, and the destination is apart from its sources (R137). -/
theorem checkPermute_ok {t : EType} {d : VName} {srcs : List VName} (fits : s.fits t (d :: srcs))
    (apart : ∀ r ∈ srcs, overlap d r s.convoy.grpRegs = false) : checkPermute t d srcs s = .ok () s := by
  unfold checkPermute
  rw [bind_ok (checkVec_ok fits), bind_ok (getConvoy_run s), require_ok]
  rw [Bool.not_eq_true', List.any_eq_false]
  exact fun r listed => Bool.not_eq_true _ ▸ apart r listed

theorem checkPermute_one {t : EType} {d a : VName} (fits : s.fits t [d, a])
    (apart : overlap d a s.convoy.grpRegs = false) : checkPermute t d [a] s = .ok () s :=
  checkPermute_ok fits (List.forall_mem_singleton.2 apart)

/-- The end of a permutation: its elements are replaced by values of the hart as it was. -/
theorem permuteTo_next (clean : s.clean) (d : VName) (w : Nat) (is : List Nat) (picks : Nat → List Pick)
    (v : Hart → Nat → Nat) :
    (do permuteTo d w is picks v; pure .next : M Ctl) s = .ok .next (s.setHart (s.whole is d w (v s.hart))) := by
  rw [bind_ok (permuteTo_clean clean ..), pure_run]

theorem fillOf_ok (clean : s.clean) (w : Nat) (c : SReg) : fillOf w c s = .ok ((s.reg c).toNat % 2 ^ w) s :=
  bind_ok (readS_ok (clean.canRead _))

theorem opVslup_run {x : VSlide} (fits : s.fits x.t [x.d, x.a]) (apart : overlap x.d x.a s.convoy.grpRegs = false) :
    opVslup x s = .ok .next (s.setHart (s.whole (s.active x.m) x.d (tBits x.t) fun i =>
      if (s.srcZ x.n).toNat ≤ i then s.hart.elem x.a (tBits x.t) (i - (s.srcZ x.n).toNat)
      else (s.reg x.c).toNat % 2 ^ tBits x.t)) :=
  (bind_ok (checkPermute_one fits apart)).trans <| (bind_ok (readSrcZ_ok (fits.clean.canReadSrc _))).trans <|
    (bind_ok (fillOf_ok fits.clean ..)).trans <| (bind_ok (permuteDest_clean fits.clean _)).trans <|
    permuteTo_next fits.clean ..

theorem opVsldn_run {x : VSlide} (fits : s.fits x.t [x.d, x.a]) (apart : overlap x.d x.a s.convoy.grpRegs = false) :
    opVsldn x s = .ok .next (s.setHart (s.whole (s.active x.m) x.d (tBits x.t) fun i =>
      if i + (s.srcZ x.n).toNat < s.hart.csr.vl then s.hart.elem x.a (tBits x.t) (i + (s.srcZ x.n).toNat)
      else (s.reg x.c).toNat % 2 ^ tBits x.t)) :=
  (bind_ok (checkPermute_one fits apart)).trans <| (bind_ok (readSrcZ_ok (fits.clean.canReadSrc _))).trans <|
    (bind_ok (fillOf_ok fits.clean ..)).trans <| (bind_ok (permuteDest_clean fits.clean _)).trans <|
    (bind_ok (getHart_run s)).trans <| permuteTo_next fits.clean ..

/-- The index operand of `vgath` (R139). -/
def State.gatherArg (s : State) : VSrc → VArg
  | .vec r => .group r
  | .scalar r => .const (s.reg r).toNat
  | .imm k => .const k.toNat

theorem gathIndex_ok (clean : s.clean) (b : VSrc) : gathIndex b s = .ok (s.gatherArg b) s := by
  cases b with
  | vec r => rfl
  | scalar r => exact bind_ok (readS_ok (clean.canRead r))
  | imm k => rfl

theorem opVgath_run {x : VOp} (fits : s.fits x.t (x.d :: x.a :: vsrcGroup x.b))
    (apart : ∀ r ∈ x.a :: vsrcGroup x.b, overlap x.d r s.convoy.grpRegs = false) :
    opVgath x s = .ok .next (s.setHart (s.whole (s.active x.m) x.d (tBits x.t) fun i =>
      if (s.gatherArg x.b).get s.hart (tBits x.t) i < s.convoy.vlmax then
        s.hart.elem x.a (tBits x.t) ((s.gatherArg x.b).get s.hart (tBits x.t) i)
      else 0)) :=
  (bind_ok (checkPermute_ok fits apart)).trans <| (bind_ok (gathIndex_ok fits.clean _)).trans <|
    (bind_ok (permuteDest_clean fits.clean _)).trans <| (bind_ok (getConvoy_run s)).trans <|
    (bind_ok (getHart_run s)).trans <| permuteTo_next fits.clean ..

/-- Activity is read from element 0 on (R140). -/
theorem activeBelow_ok (clean : s.clean) (m : MName) : activeBelow m s = .ok (s.activeAt_ m) s :=
  (bind_ok (getConvoy_run s)).trans <| (bind_ok (getHart_run s)).trans <| bind_ok (checkMask_clean clean ..)

theorem opVexpd_run {x : VUn} (fits : s.fits x.t [x.d, x.a]) (apart : overlap x.d x.a s.convoy.grpRegs = false) :
    opVexpd x s = .ok .next (s.setHart (s.whole (s.active x.m) x.d (tBits x.t) fun i =>
      s.hart.elem x.a (tBits x.t) ((List.range i).filter (s.activeAt_ x.m)).length)) :=
  (bind_ok (checkPermute_one fits apart)).trans <| (bind_ok (activeBelow_ok fits.clean _)).trans <|
    (bind_ok (getHart_run s)).trans <| permuteTo_next fits.clean ..

theorem opVrev_run {x : VUn} (fits : s.fits x.t [x.d, x.a]) (apart : overlap x.d x.a s.convoy.grpRegs = false) :
    opVrev x s = .ok .next (s.setHart (s.whole (s.active x.m) x.d (tBits x.t) fun i =>
      s.hart.elem x.a (tBits x.t) (s.hart.csr.vl - 1 - i))) :=
  (bind_ok (checkPermute_one fits apart)).trans <| (bind_ok (permuteDest_clean fits.clean _)).trans <|
    (bind_ok (getHart_run s)).trans <| permuteTo_next fits.clean ..

/-- `vcomp` also gives the number of its source elements (R140). -/
theorem opVcomp_run {x : VComp} (fits : s.fits x.t [x.d, x.a]) (apart : overlap x.d x.a s.convoy.grpRegs = false) :
    let srcs := (List.range s.hart.csr.vl).filter (s.activeAt_ x.m)
    opVcomp x s = .ok .next (s.setHart ((s.whole
      ((List.range srcs.length).filter fun k => decide (s.hart.csr.vstart.toNat ≤ k)) x.d (tBits x.t) fun k =>
        s.hart.elem x.a (tBits x.t) (srcs.getD k 0)).writeS x.c (BitVec.ofNat 64 srcs.length))) := by
  intro srcs
  refine (bind_ok (checkPermute_one fits apart)).trans <| (bind_ok (activeBelow_ok fits.clean _)).trans <|
    (bind_ok (getHart_run s)).trans <| (bind_ok (permuteTo_clean fits.clean ..)).trans <| (bind_ok (writeS_run ..)).trans ?_
  rw [State.setHart_hart, State.setHart_setHart, pure_run]

/-! ### Moves of one element, and the sequence -/

/-- Element `j` of a group, or 0 past the last one (R142). -/
theorem opVmvs_run {x : VMvs} (fits : s.fits x.t [x.a]) :
    opVmvs x s = .ok .next (s.setHart (s.hart.writeS x.d
      (if (s.srcZ x.j).toNat < s.convoy.vlmax then
        extendTo x.t (s.hart.elem x.a (tBits x.t) (s.srcZ x.j).toNat)
      else 0))) := by
  refine (bind_ok (checkVec_ok fits)).trans <| (bind_ok (readSrcZ_ok (fits.clean.canReadSrc _))).trans <|
    (bind_ok (getConvoy_run s)).trans <| (bind_ok (getHart_run s)).trans ?_
  rw [elemPoisoned_clean fits.clean]
  split
  · rfl
  · rfl

theorem opVmvx_run {x : VMvx} (fits : s.fits x.t [x.d]) :
    opVmvx x s = .ok .next (if (s.srcZ x.j).toNat < s.convoy.vlmax then
      s.setHart (s.hart.setElem x.d (tBits x.t) (s.srcZ x.j).toNat ((s.reg x.a).toNat % 2 ^ tBits x.t)) else s) := by
  refine (bind_ok (checkVec_ok fits)).trans <| (bind_ok (readSrcZ_ok (fits.clean.canReadSrc _))).trans <|
    (bind_ok (readS_ok (fits.clean.canRead _))).trans <| (bind_ok (getConvoy_run s)).trans ?_
  split
  · rfl
  · rfl

theorem opVid_run {x : VId} (fits : s.fits x.t [x.d]) :
    opVid x s = .ok .next (s.setHart (s.whole (s.active x.m) x.d (tBits x.t) fun i =>
      (s.reg x.a + BitVec.ofNat 64 i * simm x.step).toNat % 2 ^ tBits x.t)) :=
  (bind_ok (checkVec_ok fits)).trans <| (bind_ok (readS_ok (fits.clean.canRead _))).trans <|
    (bind_ok (permuteDest_clean fits.clean _)).trans <| permuteTo_next fits.clean ..

end

/-- Settles O15: the checks pass, no source is poisoned, and the values are read from the hart as it was. -/
theorem permuteResults : Obligations.PermuteResults := by
  refine ⟨⟨fun s x fits apart => ⟨runUnit_hart (opVslup_run fits apart), runUnit_hart (opVsldn_run fits apart)⟩,
    fun s x fits apart => ?gather,
    fun s x fits apart => ⟨runUnit_hart (opVexpd_run fits apart), runUnit_hart (opVrev_run fits apart)⟩,
    fun s x fits apart => runUnit_hart (opVcomp_run fits apart)⟩,
    fun s x fits => runUnit_hart (opVmvs_run fits), fun s x fits => runUnit_next (opVmvx_run fits),
    fun s x fits => runUnit_hart (opVid_run fits)⟩
  case gather =>
    intro w index
    have same : (s.gatherArg x.b).get s.hart w = index := by
      funext i
      simp only [index]
      cases x.b with
      | vec r => rfl
      | scalar r => rfl
      | imm k => rfl
    rw [← same]
    exact runUnit_hart (opVgath_run fits apart)

end Sys2Proof.Machine
end

section
/-! PROOFS. R116, R120 to R123, R141: the results of the bit-string shifts, of the vector length and of the masks. -/

namespace Sys2Proof.Machine

/-! ### Bit strings -/

section
variable {s : State}

theorem opVbshl_run {x : VBsh} (fits : s.fits x.t [x.d, x.a]) (apart : overlap x.d x.a s.convoy.grpRegs = false) :
    opVbshl x s = .ok .next (s.setHart (s.whole (s.active x.m) x.d (tBits x.t) fun i =>
      field (if s.hart.csr.vl * tBits x.t ≤ (s.srcZ x.n).toNat then 0
        else bitString s.hart x.a (tBits x.t) s.hart.csr.vl * 2 ^ (s.srcZ x.n).toNat) (i * tBits x.t) (tBits x.t))) :=
  (bind_ok (checkPermute_one fits apart)).trans <| (bind_ok (readSrcZ_ok (fits.clean.canReadSrc _))).trans <|
    (bind_ok (permuteDest_clean fits.clean _)).trans <| (bind_ok (getHart_run s)).trans <|
    permuteTo_next fits.clean ..

theorem opVbshr_run {x : VBsh} (fits : s.fits x.t [x.d, x.a]) (apart : overlap x.d x.a s.convoy.grpRegs = false) :
    opVbshr x s = .ok .next (s.setHart (s.whole (s.active x.m) x.d (tBits x.t) fun i =>
      field (if s.hart.csr.vl * tBits x.t ≤ (s.srcZ x.n).toNat then 0
        else bitString s.hart x.a (tBits x.t) s.hart.csr.vl / 2 ^ (s.srcZ x.n).toNat) (i * tBits x.t) (tBits x.t))) :=
  (bind_ok (checkPermute_one fits apart)).trans <| (bind_ok (readSrcZ_ok (fits.clean.canReadSrc _))).trans <|
    (bind_ok (permuteDest_clean fits.clean _)).trans <| (bind_ok (getHart_run s)).trans <|
    permuteTo_next fits.clean ..

/-- The two sources of `vfnl` stand as one string, v[A] below v[B] (R141). -/
theorem opVfnl_run {x : VFnl} (fits : s.fits x.t [x.d, x.a, x.b])
    (apart : ∀ r ∈ [x.a, x.b], overlap x.d r s.convoy.grpRegs = false) :
    let w := tBits x.t
    let vl := s.hart.csr.vl
    opVfnl x s = .ok .next (s.setHart (s.whole (s.active x.m) x.d w fun i =>
      field (bitString s.hart x.b w vl * 2 ^ (vl * w) + bitString s.hart x.a w vl)
        (i * w + min (s.reg x.c).toNat (vl * w)) w)) :=
  (bind_ok (checkPermute_ok fits apart)).trans <| (bind_ok (permuteDest_clean fits.clean _)).trans <|
    (bind_ok (getHart_run s)).trans <| (bind_ok (readS_ok (fits.clean.canRead _))).trans <|
    permuteTo_next fits.clean ..

/-! ### The vector length -/

/-- What `setvl` asks for: the elements left where A is s0 (R116). -/
def State.vlRequest (s : State) : Src → Word
  | .reg r => if r = 0 then s.hart.csr.sc else s.reg r
  | .imm i => i.zeroExtend 64

theorem vlRequest_ok {a : Src} (ha : s.canReadSrc a = true) : vlRequest s.hart a s = .ok (s.vlRequest a) s := by
  cases a with
  | reg r =>
    unfold vlRequest State.vlRequest
    dsimp only
    split
    · rfl
    · exact readS_ok ha
  | imm i => rfl

theorem opSetvl_run {x : SetVl} (ha : s.canReadSrc x.a = true) :
    let vl := min (s.vlRequest x.a).toNat s.convoy.vlmax
    opSetvl x s = .ok .next (s.setHart
      (Hart.writeS x.d (BitVec.ofNat 64 vl) { s.hart with csr := { s.hart.csr with vl := vl } })) :=
  (bind_ok (getConvoy_run s)).trans <| (bind_ok (getHart_run s)).trans <| (bind_ok (vlRequest_ok ha)).trans <|
    modHart_writeS_run ..

/-! ### Whole masks -/

theorem opMcpt_run {x : MCpt} (ha : s.canReadSrc x.a = true) (free : s.unbound x.d) :
    opMcpt x s = .ok .next (if x.d = 0 then s else
      s.setHart (clearPoison (isMaskSite x.d (fun _ => false) true) { s.hart with
        m := s.hart.m.set x.d ⟨false, s.convoy.ewBytes, min (s.srcZ x.a).toNat s.convoy.vlmax, 0, none⟩ })) := by
  refine (bind_ok (getConvoy_run s)).trans <| (bind_ok (readSrcZ_ok ha)).trans <|
    (bind_ok (stallBound_free free)).trans ?_
  unfold writeMaskCompact
  split
  · rfl
  · rfl

theorem opMexp_run {x : M2} (clean : s.clean) (free : s.unbound x.d) :
    opMexp x s = .ok .next (if x.d = 0 then s else
      s.setHart { s.hart with
        m := s.hart.m.set x.d ⟨true, 0, 0, (s.hart.mask s.convoy.ewBytes x.a).expand s.convoy.ewBytes, none⟩ }) := by
  refine (bind_ok (getConvoy_run s)).trans <| (bind_ok (stallBound_free free)).trans <|
    (bind_ok (checkMask_clean clean ..)).trans <| (bind_ok (getHart_run s)).trans ?_
  unfold writeMaskAll
  split
  · rfl
  · rw [bind_ok (modHart_run _ s), clearPoison_clean, pure_run]
    exact clean

/-! ### Mask logic -/

/-- Bits 0 to `vl` - 1 of an expanded mask, where nothing is poisoned (R120, R123). -/
theorem writeMaskLow_clean {h : Hart} (clean : h.poison = []) (ewb : Nat) (m : MName) (f : Nat → Bool) :
    writeMaskLow ewb m f h =
      (List.range h.csr.vl).foldl (fun g i => g.setMaskBit m i (f i)) (h.expandMask ewb m) := by
  refine clearPoison_clean (List.foldlRecOn (motive := fun g : Hart => g.poison = []) _ _ (expandMask_clean clean ewb m)
    fun g hg i _ => ?_) _
  rw [setMaskBit_poison, hg]

/-- No operand names a poisoned element (R155). -/
theorem raiseLowest_none {es : List (Option Nat)} (sound : ∀ e ∈ es, e = none) : raiseLowest es s = .ok () s := by
  have empty : es.filterMap id = [] := List.filterMap_eq_nil_iff.2 sound
  unfold raiseLowest
  rw [empty]
  rfl

theorem maskPoison_clean {h : Hart} (clean : h.poison = []) (m : MName) (k : MaskReg) (lo hi : Nat) (p : Nat → Bool) :
    maskPoison h m k lo hi p = none := if_pos (.inr clean)

theorem destPoison_clean {h : Hart} (clean : h.poison = []) (m : MName) : destPoison h m = none := by
  simp [destPoison, clean]

theorem maskLogic_run (f : Bool → Bool → Bool) {x : M3} (clean : s.clean) (free : s.unbound x.d) :
    maskLogic f x s = .ok .next (s.setHart ((List.range s.hart.csr.vl).foldl
      (fun g i => g.setMaskBit x.d i (f (s.activeAt_ x.a i) (s.activeAt_ x.b i)))
      (s.hart.expandMask s.convoy.ewBytes x.d))) := by
  refine (bind_ok (getConvoy_run s)).trans <| (bind_ok (stallBound_free free)).trans <|
    (bind_ok (getHart_run s)).trans <| (bind_ok (raiseLowest_none ?_)).trans <| (bind_ok (modHart_run _ s)).trans ?_
  · simp [maskPoison_clean clean, destPoison_clean clean]
  · rw [writeMaskLow_clean clean]
    rfl

/-! ### Masks as numbers -/

theorem maskBits_ok (clean : s.clean) (m : MName) : maskBits m s = .ok (s.activeAt_ m) s :=
  (bind_ok (getConvoy_run s)).trans <| (bind_ok (getHart_run s)).trans <| bind_ok (checkMask_clean clean ..)

theorem opMpop_run {x : MToS} (clean : s.clean) :
    opMpop x s = .ok .next (s.setHart (s.hart.writeS x.d
      (BitVec.ofNat 64 ((List.range s.hart.csr.vl).countP (s.activeAt_ x.a))))) := by
  rw [List.countP_eq_length_filter]
  exact bind_ok (maskBits_ok clean _)

end

/-- Settles O16: a bit string is a permutation of bits, and a mask without poison is read and written bit by bit. -/
theorem maskLengthResults : Obligations.MaskLengthResults := by
  refine ⟨⟨fun s x fits apart => ⟨runUnit_hart (opVbshl_run fits apart), runUnit_hart (opVbshr_run fits apart)⟩,
      fun s x fits apart => runUnit_hart (opVfnl_run fits apart)⟩,
    ⟨fun s x ha => ?setvl, fun s x ha free => runUnit_next (opMcpt_run ha free),
      fun s x clean free => runUnit_next (opMexp_run clean free)⟩,
    fun s x clean free => ?logic,
    fun s x clean => ⟨runUnit_hart (opMpop_run clean), runUnit_hart (bind_ok (maskBits_ok clean x.a))⟩⟩
  case setvl =>
    intro request vl
    have asked : s.vlRequest x.a = request := by
      simp only [request]
      cases x.a with
      | reg r => rfl
      | imm i => rfl
    simp only [vl, ← asked]
    exact runUnit_hart (opSetvl_run ha)
  case logic =>
    have completes (f : Bool → Bool → Bool) := runUnit_hart (maskLogic_run f clean free)
    exact ⟨completes fun a b => a && b, completes fun a b => a || b, completes fun a b => a != b,
      completes fun a b => a && !b,
      runUnit_hart (maskLogic_run (x := ⟨x.d, x.a, x.a⟩) (fun a _ => !a) clean free)⟩

end Sys2Proof.Machine
end

section
/-! PROOFS. R144, R145: the results of the stream instructions. -/

namespace Sys2Proof.Machine

/-! ### Stream queues -/

section
variable {s : State}

theorem tBytes_pos_of_fits {t : EType} {rs : List VName} (fits : s.fits t rs) : 0 < tBytes t := by
  rw [fits.2.1]
  exact Nat.two_pow_pos _

theorem streamFits_ok {is : List Nat} {eb : Nat} (fits : is.length * eb ≤ streamBytes) :
    streamFits is eb s = .ok () s := by
  unfold streamFits
  rw [if_neg (Nat.not_lt.2 fits), pure_run]

/-- The elements at the head are sound where every poisoned byte lies behind them (R313). -/
theorem sqBad_none {c : Convoy} {q : SqName} {eb n : Nat} (pos : 0 < eb) (behind : ∀ p ∈ c.sqPoison[q], n * eb ≤ p) :
    c.sqBad q eb n = none := by
  refine List.find?_eq_none.2 fun j below => ?_
  rw [List.any_eq_true]
  rintro ⟨p, poisoned, at_j⟩
  have after : n ≤ p / eb := (Nat.le_div_iff_mul_le pos).2 (behind p poisoned)
  have same : p / eb = j := by simpa using at_j
  have less : j < n := List.mem_range.1 below
  omega

theorem popSq_sound {c : Convoy} {q : SqName} {n : Nat} (behind : ∀ p ∈ c.sqPoison[q], n ≤ p) :
    c.popSq q n = { c with
      sq := c.sq.set q (c.sq[q].drop n)
      sqPoison := c.sqPoison.set q (c.sqPoison[q].map fun p => p - n) } := by
  have kept : (c.sqPoison[q].filter fun p => decide (n ≤ p)) = c.sqPoison[q] :=
    List.filter_eq_self.2 fun p listed => decide_eq_true (behind p listed)
  unfold Convoy.popSq
  rw [kept]
  rfl

theorem activeRange_eq_active (s : State) (m : MName) : activeRange s.hart s.convoy.ewBytes m = s.active m := rfl

/-- A check that passes, made where a condition holds, before what is done in any case. -/
theorem checkWhere_ok {α : Type} {c : Prop} [Decidable c] {checked rest : M α} (passes : c → checked s = rest s) :
    (if c then checked else rest) s = rest s := by
  split
  · exact passes ‹_›
  · rfl

theorem opVspush_run {x : VSPush} {is : List Nat} (fits : s.fits x.t [x.a]) (active : s.active x.m = is)
    (room : s.convoy.sq[x.q].length + is.length * tBytes x.t ≤ streamBytes) :
    opVspush x s = .ok .next ((s.setConvoy (s.convoy.setSq x.q (s.convoy.sq[x.q] ++
      is.flatMap fun i => toBytes (tBytes x.t) (s.hart.elem x.a (tBits x.t) i)))).setHart
        ((s.hart.setVstart 0).writeS x.c (BitVec.ofNat 64 is.length))) := by
  subst active
  refine (bind_ok (checkVec_ok fits)).trans <| (bind_ok (checkPred_clean fits.clean _)).trans <|
    (bind_ok (getConvoy_run s)).trans <| (bind_ok (getHart_run s)).trans <|
    (bind_ok (streamFits_ok (Nat.le_of_add_left_le room))).trans <|
    (checkWhere_ok fun more => absurd room (Nat.not_le.2 more)).trans ?_
  rw [find_clean fits.clean]
  exact (bind_ok (modConvoy_run _ s)).trans (modHart_writeS_run ..)

/-- Where `.nb` is not given, the bytes of every active element are there, and they fit a queue (R145). -/
theorem opVspop_run {x : VSPop} {is : List Nat} {k : Nat} (fits : s.fits x.t [x.d]) (active : s.active x.m = is)
    (count : min is.length (s.convoy.sq[x.q].length / tBytes x.t) = k)
    (full : x.nb = false → is.length * tBytes x.t ≤ s.convoy.sq[x.q].length ∧ is.length * tBytes x.t ≤ streamBytes)
    (behind : ∀ p ∈ s.convoy.sqPoison[x.q], k * tBytes x.t ≤ p) :
    opVspop x s = .ok .next ((s.setConvoy { s.convoy with
        sq := s.convoy.sq.set x.q (s.convoy.sq[x.q].drop (k * tBytes x.t))
        sqPoison := s.convoy.sqPoison.set x.q (s.convoy.sqPoison[x.q].map fun p => p - k * tBytes x.t) }).setHart
        (((s.hart.setElems x.d (8 * tBytes x.t) (unpack (tBytes x.t) (is.take k) s.convoy.sq[x.q])).setVstart 0).writeS
          x.c (BitVec.ofNat 64 k))) := by
  subst active count
  refine (bind_ok (checkVec_ok fits)).trans <| (bind_ok (checkPred_clean fits.clean _)).trans <|
    (bind_ok (getConvoy_run s)).trans <| (bind_ok (getHart_run s)).trans <|
    (checkWhere_ok fun blocking => ?_).trans ?_
  · obtain ⟨there, whole⟩ := full (by simpa using blocking)
    exact (bind_ok (streamFits_ok whole)).trans (checkWhere_ok fun short => absurd there (Nat.not_le.2 short))
  · rw [← popSq_sound behind]
    dsimp only
    rw [activeRange_eq_active, sqBad_none (tBytes_pos_of_fits fits) behind]
    exact (bind_ok (modConvoy_run _ s)).trans (modHart_writeS_run ..)

end

end Sys2Proof.Machine
end

section
/-! PROOFS. R150: the result of a vector chain. -/

namespace Sys2Proof.Machine

/-! ### One element of a stage -/

/-- The running value of an element becomes the result of the stage, and its flags are added (R149, R150). -/
def chainElem (x : VChain) (mode : Nat) (op : StageOp) (t : VName) (p q : VArg) (g : Hart) (i : Nat) : Hart :=
  let r := stageFn op x.t mode (g.elem t (tBits x.t) i) (p.get g (tBits x.t) i) (q.get g (tBits x.t) i)
  (g.setElem x.d (tBits x.t) i r.1).addFlags r.2

theorem chainElem_clean {g : Hart} (clean : g.poison = []) (x : VChain) (mode : Nat) (op : StageOp) (t : VName)
    (p q : VArg) (i : Nat) : (chainElem x mode op t p q g i).poison = [] := by
  rw [chainElem, addFlags_poison, setElem_clean clean]

theorem stageElem_clean {g : Hart} {p q : VArg} (clean : g.poison = []) (soundP : p ≠ .bad) (soundQ : q ≠ .bad)
    (x : VChain) (mode : Nat) (op : StageOp) (t : VName) (i : Nat) :
    stageElem op x.t mode x.d t p q i g = some (chainElem x mode op t p q g i) := by
  simp only [stageElem, elemResult, elemPoisoned_clean clean, VArg.poisoned_clean clean p soundP,
    VArg.poisoned_clean clean q soundQ, Bool.and_false, Bool.or_self, Bool.false_eq_true, if_false, chainElem]

/-! ### `chstep` counts the stages, and no element reads it -/

theorem clearPoison_setChstep (p : RegSite → Bool) (n : Nat) (h : Hart) :
    clearPoison p (h.setChstep n) = (clearPoison p h).setChstep n := by
  have poison : (h.setChstep n).poison = h.poison := rfl
  unfold clearPoison
  rw [poison]
  split
  · rfl
  · rfl

theorem setElem_setChstep (r : VName) (bits i v n : Nat) (h : Hart) :
    (h.setChstep n).setElem r bits i v = (h.setElem r bits i v).setChstep n := by
  unfold Hart.setElem
  dsimp only
  rw [← clearPoison_setChstep]
  rfl

theorem setChstep_setChstep (m n : Nat) (h : Hart) : (h.setChstep m).setChstep n = h.setChstep n := rfl

theorem addFlags_setChstep (fl : Flags) (n : Nat) (h : Hart) :
    (h.setChstep n).addFlags fl = (h.addFlags fl).setChstep n := rfl

theorem VArg.get_setChstep (p : VArg) (n bits i : Nat) (h : Hart) : p.get (h.setChstep n) bits i = p.get h bits i := by
  cases p with
  | group r => rfl
  | const v => rfl
  | bad => rfl

theorem chainElem_setChstep (x : VChain) (mode : Nat) (op : StageOp) (t : VName) (p q : VArg) (n i : Nat) (g : Hart) :
    chainElem x mode op t p q (g.setChstep n) i = (chainElem x mode op t p q g i).setChstep n := by
  unfold chainElem
  dsimp only
  rw [VArg.get_setChstep, VArg.get_setChstep, setElem_setChstep, addFlags_setChstep]
  rfl

/-! ### Stages -/

theorem maskActive_eq_activeAt (s : State) (m : MName) :
    (fun i => (s.hart.mask s.convoy.ewBytes m).active s.convoy.ewBytes i) = s.activeAt_ m := rfl

section
variable {s : State} {x : VChain}

/-- A stage over its elements, the predicate that of the hart of `s`; `vstart` and `chstep` are 0 at the end (R150). -/
def State.chainStage (s : State) (x : VChain) (op : StageOp) (t : VName) (p q : VArg) (h : Hart) : Hart :=
  ((((elemRange h).filter (s.activeAt_ x.m)).foldl (chainElem x s.hart.mode_ op t p q) h).setVstart 0).setChstep 0

theorem chainStage_setChstep (op : StageOp) (t : VName) (p q : VArg) (n : Nat) (h : Hart) :
    s.chainStage x op t p q (h.setChstep n) = s.chainStage x op t p q h := by
  have elems : elemRange (h.setChstep n) = elemRange h := rfl
  unfold State.chainStage
  rw [elems, List.foldl_hom (Hart.setChstep n) fun g i => chainElem_setChstep x s.hart.mode_ op t p q n i g]
  rfl

/-- A hart without poison whose scalar registers are those of the hart of `s`: what the stages leave for the next. -/
structure State.ChainHart (s : State) (h : Hart) : Prop where
  clean : h.poison = []
  scalars : h.s = s.hart.s

theorem chainStage_chainHart {h : Hart} (ready : s.ChainHart h) (op : StageOp) (t : VName) (p q : VArg) :
    s.ChainHart (s.chainStage x op t p q h) := by
  have elems : s.ChainHart (((elemRange h).filter (s.activeAt_ x.m)).foldl (chainElem x s.hart.mode_ op t p q) h) :=
    List.foldlRecOn (motive := s.ChainHart) _ _ ready fun g hg i _ =>
      ⟨chainElem_clean hg.clean .., (Hart.setElem_s ..).trans hg.scalars⟩
  exact ⟨elems.clean, elems.scalars⟩

theorem State.ChainHart.setHart_clean {h : Hart} (ready : s.ChainHart h) : (s.setHart h).clean := by
  rw [State.clean, State.setHart_hart, ready.clean]

/-- One stage from a state without poison: `chstep` counts it. -/
theorem runStage_run {u : State} {p q : VArg} (clean : u.clean) (soundP : p ≠ .bad) (soundQ : q ≠ .bad)
    (j : Nat) (op : StageOp) (t : VName) :
    runStage j (s.activeAt_ x.m) (stageElem op x.t s.hart.mode_ x.d t p q) u =
      .ok () (u.setHart ((s.chainStage x op t p q u.hart).setChstep (j + 1))) := by
  unfold runStage
  rw [bind_ok (getHart_run _), bind_ok (runElems_all clean (fun i g hg =>
    ⟨stageElem_clean hg soundP soundQ x _ op t i, chainElem_clean hg x _ op t p q i⟩) _), modHart_run,
    State.setHart_hart, State.setHart_setHart]
  rfl

/-- A source of a continuation stage (R148). -/
def State.stageArg (s : State) (t : EType) : StageSrc → VArg
  | .vec r => .group r
  | .scalar r => .const (s.freg t r)

theorem stageArg_sound (t : EType) (y : StageSrc) : s.stageArg t y ≠ .bad := by
  cases y <;> nofun

/-- The stages before leave the scalars as they were, so every stage reads those of the start. -/
theorem resolveStage_ok {h : Hart} (ready : s.ChainHart h) (t : EType) (y : StageSrc) :
    resolveStage t y (s.setHart h) = .ok (s.stageArg t y) (s.setHart h) := by
  cases y with
  | vec r => rfl
  | scalar r =>
    have value : (s.setHart h).freg t r = s.freg t r := by
      rw [State.freg, State.freg, State.reg, State.reg, State.setHart_hart, ready.scalars]
    exact (resolveLate_ok ready.setHart_clean t r).trans (by rw [value]; rfl)

/-- A continuation stage on the running value (R150). -/
def State.chainNext (s : State) (x : VChain) (h : Hart) (st : Stage) : Hart :=
  s.chainStage x st.op x.d (s.stageArg x.t st.x) (s.stageArg x.t st.y) h

theorem runStages_run (stages : List Stage) {h : Hart} (ready : s.ChainHart h) (j : Nat) :
    runStages x s.hart.mode_ (s.activeAt_ x.m) j stages (s.setHart (h.setChstep j)) =
      .ok () (s.setHart ((stages.foldl (s.chainNext x) h).setChstep (j + stages.length))) := by
  induction stages generalizing h j with
  | nil => rfl
  | cons st rest ih =>
    have counted : s.ChainHart (h.setChstep j) := ⟨ready.clean, ready.scalars⟩
    unfold runStages
    rw [bind_ok (resolveStage_ok counted ..), bind_ok (resolveStage_ok counted ..),
      bind_ok (runStage_run counted.setHart_clean (stageArg_sound _ _) (stageArg_sound _ _) ..), State.setHart_hart,
      State.setHart_setHart, chainStage_setChstep, ih (chainStage_chainHart ready ..), List.length_cons,
      List.foldl_cons, Nat.add_right_comm j, Nat.add_assoc j]
    rfl

/-! ### The chain -/

/-- Operand B of the head, with the flags of an immediate's conversion (R68, R150). -/
def State.chainHead (s : State) (x : VChain) : VArg × Flags :=
  if x.t.isVFp then s.vfarg x.t x.b else (s.varg x.t x.b, 0)

theorem resolveHead_ok (clean : s.clean) : resolveHead x.t x.b s = .ok (s.chainHead x) s := by
  unfold resolveHead State.chainHead
  split
  · exact resolveFB_ok clean ..
  · rw [bind_ok (resolveB_ok clean ..), pure_run]

theorem chainHead_sound : (s.chainHead x).1 ≠ .bad := by
  unfold State.chainHead
  split
  · cases x.b <;> nofun
  · cases x.b <;> nofun

/-- The head, its flags with it, then each continuation stage (R150). -/
def State.chained (s : State) (x : VChain) : Hart :=
  (x.stage1 :: x.more).foldl (s.chainNext x)
    ((s.chainStage x x.op x.a (s.chainHead x).1 (.group x.c) s.hart).addFlags (s.chainHead x).2)

theorem chainStage_ended (op : StageOp) (t : VName) (p q : VArg) (h : Hart) :
    ((s.chainStage x op t p q h).setChstep 0).setVstart 0 = s.chainStage x op t p q h := by
  unfold State.chainStage
  generalize ((elemRange h).filter (s.activeAt_ x.m)).foldl (chainElem x s.hart.mode_ op t p q) h = done
  rfl

theorem addFlags_ended (fl : Flags) (h : Hart) :
    ((h.addFlags fl).setChstep 0).setVstart 0 = ((h.setChstep 0).setVstart 0).addFlags fl := rfl

/-- Every stage has already set `chstep` and `vstart` to 0. -/
theorem chained_ended : ((s.chained x).setChstep 0).setVstart 0 = s.chained x := by
  unfold State.chained
  refine List.foldlRecOn (motive := fun h : Hart => (h.setChstep 0).setVstart 0 = h) _ _ ?_
    fun h _ st _ => chainStage_ended ..
  rw [addFlags_ended, chainStage_ended]

theorem opVchain_run (fits : s.fits x.t (x.d :: x.a :: (vsrcGroup x.b ++ (if x.op == .fma then [x.c] else [])
      ++ chainGroups (x.stage1 :: x.more)))) (start : s.hart.csr.chstep = 0) :
    opVchain x s = .ok .next (s.setHart (s.chained x)) := by
  have ready : s.ChainHart ((s.chainStage x x.op x.a (s.chainHead x).1 (.group x.c) s.hart).addFlags
      (s.chainHead x).2) := by
    obtain ⟨clean, scalars⟩ := chainStage_chainHart (x := x) ⟨fits.clean, rfl⟩ x.op x.a (s.chainHead x).1 (.group x.c)
    exact ⟨clean, scalars⟩
  refine (bind_ok (checkVec_ok fits)).trans <| (bind_ok (checkPred_clean fits.clean _)).trans <|
    (bind_ok (getHart_run s)).trans <| (bind_ok (getConvoy_run s)).trans <|
    (checkWhere_ok fun _ => bind_ok (checkMask_clean fits.clean ..)).trans <|
    (congrFun (if_pos (by rw [start]; rfl)) s).trans <| (bind_ok (resolveHead_ok fits.clean)).trans <|
    (bind_ok (runStage_run (q := .group x.c) fits.clean chainHead_sound (by nofun) ..)).trans <|
    (bind_ok (addFlags_run ..)).trans ?_
  rw [State.setHart_hart, State.setHart_setHart, addFlags_setChstep, maskActive_eq_activeAt]
  refine (bind_ok (runStages_run _ ready 1)).trans <| (bind_ok (modHart_run ..)).trans ?_
  rw [State.setHart_hart, State.setHart_setHart, setChstep_setChstep]
  exact congrArg (fun h : Hart => EStateM.Result.ok Ctl.next (s.setHart h)) chained_ended

/-- A unit of two slots whose operation changes the current hart alone. -/
theorem runUnitN_hart {op : M Ctl} {h : Hart} (e : op s = .ok .next (s.setHart h)) :
    runUnitN 2 op s = .next (finishUnit .next 2 (nextSlot s.hart.pc) (s.setHart h)) := by
  simp only [runUnitN, e, if_pos]

end

/-- Settles O17: a push or a pop finds its room or its bytes; a chain is its head and then its stages, of which none
reads `chstep`. -/
theorem streamChainResults : Obligations.StreamChainResults := by
  refine ⟨⟨fun s x fits room => runUnit_next (opVspush_run fits rfl room),
    fun s x fits full behind => runUnit_next (opVspop_run fits rfl rfl full behind)⟩, fun s x fits start => ?chain⟩
  case chain =>
    intro w b arg stage head
    have sources : s.stageArg x.t = arg := by
      funext y
      cases y with
      | vec r => rfl
      | scalar r => rfl
    have next : s.chainNext x = fun h st => stage st.op x.d (arg st.x) (arg st.y) h := by
      rw [← sources]
      rfl
    have completes := runUnitN_hart (opVchain_run fits start)
    rw [State.chained, next] at completes
    exact completes

end Sys2Proof.Machine
end

section
/-! PROOFS. R153, R162, R163, R271: taking an exception, `trap`, and the return from a handler. -/

namespace Sys2Proof.Machine

/-! ### Trap entry -/

/-- With a handler a taken exception is trap entry alone (R153). -/
theorem takeTrap_handled {h : Hart} (handler : lineOf h.csr.tvec ≠ 0) (x : Trap) (paired : Bool) (pc : Word) :
    takeTrap x paired pc h = trapEntry x paired pc h := if_neg handler

/-- A taken exception leaves the hart running in its handler, or ending with the cause (R153, R271). -/
theorem takeTrap_status (x : Trap) (paired : Bool) (pc : Word) (h : Hart) :
    (takeTrap x paired pc h).status = if lineOf h.csr.tvec = 0 then .ending x.cause 1 else .running := by
  unfold takeTrap
  split <;> rfl

theorem b2n_mul (p : Bool) (k : Nat) : b2n p * k = if p = true then k else 0 := by
  cases p <;> simp [b2n]

theorem b2n_beq_supervisor (m : Mode) : b2n (m == .supervisor) = if m = .supervisor then 1 else 0 := by
  cases m <;> rfl

/-- `xstat` of a trap record: what is valid, whether the unit was a pair, and the view it ran in (R153). -/
theorem trapEntry_xstat (x : Trap) (paired : Bool) (pc : Word) (h : Hart) : (trapEntry x paired pc h).csr.xstat =
    BitVec.ofNat 5 ((if x.addr.isSome then 16 else 0) + (if x.bank.isSome then 8 else 0)
      + (if x.elem.isSome then 4 else 0) + (if paired then 2 else 0) + (if h.mode = .supervisor then 1 else 0)) := by
  simp only [trapEntry, b2n_mul, b2n_beq_supervisor]

/-- Trap entry once the four parts of the record that depend on the cause and on the unit are known (R153). -/
theorem trapEntry_of {x : Trap} {paired : Bool} {h : Hart} {addr : Word} {elem : BitVec 14} {bank stat : BitVec 5}
    (ha : x.addr.getD (x.num.getD h.csr.xaddr) = addr)
    (he : (x.elem.map (BitVec.ofNat 14)).getD h.csr.xelem = elem)
    (hb : (x.bank.map (BitVec.ofNat 5)).getD h.csr.xbank = bank)
    (hs : ∀ pc, (trapEntry x paired pc h).csr.xstat = stat) (pc : Word) : trapEntry x paired pc h = { h with
      mode := .supervisor, pc := lineOf h.csr.tvec, status := .running, resp := [], posted := 0, firm := false
      pair := none, merge := none, aged := false
      csr := { h.csr with
        xcause := x.cause, xpc := pc, xaddr := addr, xelem := elem, xbank := bank, xstat := stat } } := by
  rw [← ha, ← he, ← hb, ← hs pc]
  rfl

/-- Settles O35: with a handler the hart takes the entry, field by field; without one the end stands for its status. -/
theorem exceptionEntry : Obligations.ExceptionEntry := by
  refine ⟨fun x paired pc h handler => ?entry, fun x paired pc h absent => ⟨?status, ?cause, takeTrap_s ..⟩⟩
  case entry =>
    refine (takeTrap_handled handler ..).trans (trapEntry_of ?addr ?elem ?bank (trapEntry_xstat x paired · h) pc)
    case addr =>
      cases x.addr with
      | some a => rfl
      | none => cases x.num <;> rfl
    case elem => cases x.elem <;> rfl
    case bank => cases x.bank <;> rfl
  case status => rw [takeTrap_status, if_pos absent]
  case cause =>
    rw [takeTrap_csr]
    rfl

/-! ### `trap` -/

/-- The trap of the instruction `trap` with the number `n` (R162). -/
def softTrap (n : BitVec 16) : Trap := { cause := 0x19, num := some (n.zeroExtend 64) }

/-- The unit of `trap` commits before the exception is taken, so the trap is at the next unit (R162). -/
theorem exec_trap (n : BitVec 16) (s : State) : exec (.trap n) s =
    .next ((resumeDetection s).setHart
      (takeTrap (softTrap n) false (nextSlot s.hart.pc) (retire 1 (nextSlot s.hart.pc) s.hart))) :=
  runUnit_ok (op := opTrap n) rfl

/-- The trap record of `trap`: no address of an access is valid, `xaddr` holds the number (R153, R162). -/
theorem trapEntry_softTrap_csr (n : BitVec 16) (pc : Word) (h : Hart) :
    (trapEntry (softTrap n) false pc h).csr = { h.csr with
      xcause := 0x19, xpc := pc, xaddr := n.zeroExtend 64, xstat := if h.mode = .supervisor then 1 else 0 } := by
  have previous : BitVec.ofNat 5 (0 + 0 + 0 + 0 + if h.mode = .supervisor then 1 else 0)
      = if h.mode = .supervisor then 1 else 0 := by
    split <;> rfl
  exact congrArg Hart.csr
    (trapEntry_of rfl rfl rfl (fun pc => (trapEntry_xstat (softTrap n) false pc h).trans previous) pc)

/-! ### `eret` -/

theorem bit_zero_eq_getLsbD {w : Nat} (v : BitVec w) : bit v.toNat 0 = v.getLsbD 0 := by
  rw [bit, field_eq_div_mod, BitVec.getLsbD, Nat.testBit_zero, pow_zero, Nat.div_one, pow_one]
  rfl

/-- A target that can be fetched is checked in the mode of `xstat`.PP, and the hart is as it was (R63, R163). -/
theorem checkReturn_hart {s t : State} {target : Word} (ok : checkReturn target s = .ok () t) : t.hart = s.hart := by
  have walked := checkTarget_walked target false (s.setHart (eretTo s.hart)).walkedTo_self
  unfold checkReturn at ok
  unfold EndsIn at walked
  generalize checkTarget target false (s.setHart (eretTo s.hart)) = r at ok walked
  cases r with
  | error e u => cases ok
  | ok a u =>
    cases ok
    have found : u.hart = eretTo s.hart := (State.walkedTo.hart walked).trans (State.setHart_hart ..)
    rw [State.setHart_hart, found]
    rfl

/-- `eret` in the supervisor view jumps to `xpc` in the mode of `xstat`.PP, when that can be fetched (R163). -/
theorem exec_eret {s t : State} (view : s.hart.mode = .supervisor) (ok : checkReturn s.hart.csr.xpc s = .ok () t) :
    exec .eret s = .next (s.jumps (t.setHart (eretTo t.hart)) s.hart.csr.xpc) := by
  have allowed : supervisor s = .ok () s := by
    unfold supervisor
    rw [bind_ok (getHart_run s), view]
    rfl
  have returns : opEret s = .ok (.jump s.hart.csr.xpc) (t.setHart (eretTo t.hart)) := by
    unfold opEret
    rw [bind_ok allowed, bind_ok (getHart_run s), bind_ok ok, bind_ok (modHart_run _ _), pure_run]
  exact runUnit_jump returns

theorem jumps_pc (s t : State) (target : Word) : (s.jumps t target).hart.pc = target := by
  simp [State.jumps, finishUnit]

/-- Settles O34: the trap is taken at the next unit of the committed hart, so `eret` comes back to that unit. -/
theorem trapReturn : Obligations.TrapReturn := by
  refine ⟨fun s n => ?trap, fun s t view => ?eret⟩
  case trap =>
    have csr := (takeTrap_csr (softTrap n) false (nextSlot s.hart.pc) (retire 1 (nextSlot s.hart.pc) s.hart)).trans
      (trapEntry_softTrap_csr n _ _)
    refine ⟨_, exec_trap n s, ?_⟩
    rw [State.setHart_hart, csr]
    refine ⟨takeTrap_mode .., takeTrap_pc .., takeTrap_status .., rfl, takeTrap_s .., takeTrap_v .., takeTrap_m ..,
      takeTrap_acc .., takeTrap_c .., resumeDetection_mem s, fun u v entered ok => ?_⟩
    have view : u.hart.mode = .supervisor := by
      rw [entered]
      exact takeTrap_mode ..
    have xpc : u.hart.csr.xpc = nextSlot s.hart.pc := by
      rw [entered]
      exact congrArg Csrs.xpc csr
    rw [← xpc] at ok ⊢
    exact ⟨_, exec_eret view ok, jumps_pc ..⟩
  case eret =>
    intro mode ok
    have back : eretTo t.hart = { t.hart with mode := mode } := by
      rw [eretTo, checkReturn_hart ok, bit_zero_eq_getLsbD]
    rw [exec_eret view ok, back]

end Sys2Proof.Machine
end

section
/-! PROOFS. R178 to R182: the results of the vector loads and stores of ordinary words. -/

namespace Sys2Proof.Machine

section
variable {s t : State}

/-! ### The element loop -/

/-- Where nothing is deferred, an operation of several accesses meets no pending update (R333). -/
theorem flushBefore_empty {α : Type} {op : M α} (empty : s.hart.deferred = []) : flushBefore op s = op s := by
  unfold flushBefore
  cases op s <;> simp [flushed, empty]

theorem flushBefore_ok {α : Type} {op : M α} {a : α} (empty : s.hart.deferred = []) (ok : op s = .ok a t) :
    flushBefore op s = .ok a t :=
  (flushBefore_empty empty).trans ok

theorem memElems_clean (clean : s.clean) (m : MName) : memElems m s = .ok (s.active m) s := by
  unfold memElems
  rw [bind_ok (checkPred_clean clean m), bind_ok (getConvoy_run s), bind_ok (getHart_run s)]
  rfl

/-- The active elements are performed one after another, and `vstart` is 0 at the end (R119, R156). -/
theorem vectorAccess_run {f : Nat → M Unit} {p : Nat → State → State → Prop} {m : MName} (clean : s.clean)
    (elem : ∀ i u v, p i u v → u.clean → f i u = .ok () v ∧ v.clean) (each : State.Each p (s.active m) s t) :
    (do memLoop f (← memElems m); pure Ctl.next : M Ctl) s = .ok .next t.restart := by
  rw [bind_ok (memElems_clean clean m), bind_ok (memLoop_each elem each clean).1, pure_run]

/-! ### One element -/

/-- A word that is found is met with no earlier access pending (R109). -/
theorem State.Found.calm {α : Type} {fam : Fam} {acc : Acc} {n : Nat} {fs : List (α × Word)} {ks : List (α × Nat)}
    (found : State.Found fam acc n fs s ks t) (named : fs ≠ []) : s.calm := by
  cases found with
  | nil => exact absurd rfl named
  | cons a va fs s t u l ks first rest => exact first.2.2.2.2

section
variable {fam : Fam} {ty : EType} {fields : Hart → Nat → List (VName × Word)}

theorem loadsElem_clean {i : Nat} (loads : s.loadsElem fam ty fields i t) (clean : s.clean) : t.clean := by
  obtain ⟨ks, u, -, -, rfl⟩ := loads
  rw [State.clean, State.setHart_hart]
  exact List.foldlRecOn (motive := fun g : Hart => g.poison = []) ks _ clean fun g hg k _ => setElem_clean hg ..

theorem storesElem_clean {i : Nat} (stores : s.storesElem fam ty fields i t) (clean : s.clean) : t.clean := by
  obtain ⟨ks, u, found, -, rfl⟩ := stores
  obtain ⟨a, hart⟩ := stored_hart (tBytes ty) (fun k : VName × Nat => s.hart.elem k.1 (tBits ty) i) ks u
  rw [State.clean, hart, (found_walked found).hart, clean]

theorem loadElem_step (named : ∀ h i, fields h i ≠ []) {i : Nat} (loads : s.loadsElem fam ty fields i t)
    (clean : s.clean) : loadElem fam ty i (fields s.hart i) s = .ok () t ∧ t.clean := by
  obtain ⟨ks, u, found, -⟩ := id loads
  exact ⟨loadElem_run loads (found.calm (named _ _)), loadsElem_clean loads clean⟩

theorem storeElem_step (named : ∀ h i, fields h i ≠ []) (unord : Bool) {i : Nat}
    (stores : s.storesElem fam ty fields i t) (clean : s.clean) :
    storeElem fam ty unord i (fields s.hart i) s = .ok () t ∧ t.clean := by
  obtain ⟨ks, u, found, -⟩ := id stores
  exact ⟨storeElem_run stores (found.calm (named _ _)) clean, storesElem_clean stores clean⟩

end

theorem segFields_named (v : VName) (grp nf eb : Nat) (base : Word) (i : Nat) :
    segFields v grp (nf + 1) eb base i ≠ [] := by
  simp [segFields]

theorem checkIx_clean (clean : s.clean) (x : VMemX) (i : Nat) : checkIx x i s = .ok () s := by
  unfold checkIx
  rw [bind_ok (getHart_run s), elemPoisoned_clean clean]
  rfl

/-- An index group of an allowed size, and for a load apart from the destination (R118, R178). -/
theorem checkIndex_ok {x : VMemX} {load : Bool} (fits : s.fits x.t [x.v])
    (size : s.convoy.grpRegs * ixBits x.ix ≤ 64 * s.convoy.ewBytes)
    (placed : aligned x.b (sideRegs s.convoy (ixBits x.ix)) = true)
    (apart : load = true →
      x.v.val + s.convoy.grpRegs ≤ x.b.val ∨ x.b.val + sideRegs s.convoy (ixBits x.ix) ≤ x.v.val) :
    checkIndex x load s = .ok () s := by
  unfold checkIndex
  rw [bind_ok (checkVec_ok fits), bind_ok (getConvoy_run s)]
  have allowed : require (decide (s.convoy.grpRegs * ixBits x.ix ≤ 64 * s.convoy.ewBytes)
      && aligned x.b (sideRegs s.convoy (ixBits x.ix))) s = .ok () s := by simp [size, placed]
  rw [bind_ok allowed]
  cases load with
  | false => rfl
  | true =>
    have far : (decide (x.v.val + s.convoy.grpRegs ≤ x.b.val) ||
        decide (x.b.val + sideRegs s.convoy (ixBits x.ix) ≤ x.v.val)) = true := by simpa using apart rfl
    exact (require_run _ s).trans (if_pos far)

/-! ### The instructions -/

theorem opVld_run {x : VMem} (fits : s.fits x.t [x.v]) (empty : s.hart.deferred = [])
    (each : State.Each (State.loadsElem .unit x.t fun _ i => [(x.v, unitEa (s.reg x.a + simm x.off) (tBytes x.t) i)])
      (s.active x.m) s t) : opVld x s = .ok .next t.restart := by
  refine flushBefore_ok empty ?_
  rw [bind_ok (checkVec_ok fits), bind_ok (readS_ok (fits.clean.canRead _))]
  exact vectorAccess_run fits.clean (fun i u v => loadElem_step (by simp)) each

theorem opVlds_run {x : VMemS} (fits : s.fits x.t [x.v]) (empty : s.hart.deferred = [])
    (each : State.Each (State.loadsElem .unit x.t fun _ i => [(x.v, stridedEa (s.reg x.a + simm x.off) (s.reg x.b) i)])
      (s.active x.m) s t) : opVlds x s = .ok .next t.restart := by
  refine flushBefore_ok empty ?_
  rw [bind_ok (checkVec_ok fits), bind_ok (readS_ok (fits.clean.canRead _)),
    bind_ok (readS_ok (fits.clean.canRead _))]
  exact vectorAccess_run fits.clean (fun i u v => loadElem_step (by simp)) each

theorem opVldg_run {x : VMemG} (fits : s.fits x.t [x.v]) (empty : s.hart.deferred = [])
    (room : segFits x.v s.convoy.grpRegs (x.nf1.toNat + 1) = true)
    (each : State.Each (State.loadsElem .seg x.t fun _ i =>
      segFields x.v s.convoy.grpRegs (x.nf1.toNat + 1) (tBytes x.t) (s.reg x.a + simm x.off) i) (s.active x.m) s t) :
    opVldg x s = .ok .next t.restart := by
  refine flushBefore_ok empty ?_
  rw [bind_ok (checkVec_ok fits), bind_ok (getConvoy_run s)]
  dsimp only
  rw [bind_ok ((require_run _ s).trans (if_pos room)), bind_ok (readS_ok (fits.clean.canRead _))]
  exact vectorAccess_run fits.clean (fun i u v => loadElem_step fun _ _ => segFields_named _ _ _ _ _ _) each

theorem opVldx_run {x : VMemX} (fits : s.fits x.t [x.v]) (empty : s.hart.deferred = [])
    (size : s.convoy.grpRegs * ixBits x.ix ≤ 64 * s.convoy.ewBytes)
    (placed : aligned x.b (sideRegs s.convoy (ixBits x.ix)) = true)
    (apart : x.v.val + s.convoy.grpRegs ≤ x.b.val ∨ x.b.val + sideRegs s.convoy (ixBits x.ix) ≤ x.v.val)
    (each : State.Each (State.loadsElem .seg x.t fun h i => [(x.v, indexEa x (s.reg x.a + simm x.off) h i)])
      (s.active x.m) s t) : opVldx x s = .ok .next t.restart := by
  refine flushBefore_ok empty ?_
  rw [bind_ok (checkIndex_ok fits size placed fun _ => apart), bind_ok (readS_ok (fits.clean.canRead _))]
  refine vectorAccess_run fits.clean (fun i u v loads clean => ?_) each
  rw [bind_ok (checkIx_clean clean x i), bind_ok (getHart_run u)]
  exact loadElem_step (by simp) loads clean

theorem opVst_run {x : VMem} (fits : s.fits x.t [x.v]) (empty : s.hart.deferred = [])
    (each : State.Each (State.storesElem .unit x.t fun _ i => [(x.v, unitEa (s.reg x.a + simm x.off) (tBytes x.t) i)])
      (s.active x.m) s t) : opVst x s = .ok .next t.restart := by
  refine flushBefore_ok empty ?_
  rw [bind_ok (checkVec_ok fits), bind_ok (readS_ok (fits.clean.canRead _))]
  exact vectorAccess_run fits.clean (fun i u v => storeElem_step (by simp) x.unord) each

theorem opVsts_run {x : VMemS} (fits : s.fits x.t [x.v]) (empty : s.hart.deferred = [])
    (each : State.Each (State.storesElem .unit x.t fun _ i => [(x.v, stridedEa (s.reg x.a + simm x.off) (s.reg x.b) i)])
      (s.active x.m) s t) : opVsts x s = .ok .next t.restart := by
  refine flushBefore_ok empty ?_
  rw [bind_ok (checkVec_ok fits), bind_ok (readS_ok (fits.clean.canRead _)),
    bind_ok (readS_ok (fits.clean.canRead _))]
  exact vectorAccess_run fits.clean (fun i u v => storeElem_step (by simp) x.unord) each

theorem opVstg_run {x : VMemG} (fits : s.fits x.t [x.v]) (empty : s.hart.deferred = [])
    (room : segFits x.v s.convoy.grpRegs (x.nf1.toNat + 1) = true)
    (each : State.Each (State.storesElem .seg x.t fun _ i =>
      segFields x.v s.convoy.grpRegs (x.nf1.toNat + 1) (tBytes x.t) (s.reg x.a + simm x.off) i) (s.active x.m) s t) :
    opVstg x s = .ok .next t.restart := by
  refine flushBefore_ok empty ?_
  rw [bind_ok (checkVec_ok fits), bind_ok (getConvoy_run s)]
  dsimp only
  rw [bind_ok ((require_run _ s).trans (if_pos room)), bind_ok (readS_ok (fits.clean.canRead _))]
  exact vectorAccess_run fits.clean (fun i u v => storeElem_step (fun _ _ => segFields_named _ _ _ _ _ _) x.unord) each

theorem opVstx_run {x : VMemX} (fits : s.fits x.t [x.v]) (empty : s.hart.deferred = [])
    (size : s.convoy.grpRegs * ixBits x.ix ≤ 64 * s.convoy.ewBytes)
    (placed : aligned x.b (sideRegs s.convoy (ixBits x.ix)) = true)
    (each : State.Each (State.storesElem .seg x.t fun h i => [(x.v, indexEa x (s.reg x.a + simm x.off) h i)])
      (s.active x.m) s t) : opVstx x s = .ok .next t.restart := by
  refine flushBefore_ok empty ?_
  rw [bind_ok (checkIndex_ok fits size placed (by nofun)), bind_ok (readS_ok (fits.clean.canRead _))]
  refine vectorAccess_run fits.clean (fun i u v stores clean => ?_) each
  rw [bind_ok (checkIx_clean clean x i), bind_ok (getHart_run u)]
  exact storeElem_step (by simp) x.unord stores clean

end

/-- Settles O18: the operands pass their checks, and each element of the loop completes as its words are found. -/
theorem vectorAccessResults : Obligations.VectorAccessResults := by
  refine ⟨fun s t => ⟨fun x fits each empty => ?vld, fun x fits each empty => ?vlds,
      fun x fits room each empty => ?vldg, fun x fits => ?vldx⟩,
    fun s t => ⟨fun x fits each empty => ?vst, fun x fits each empty => ?vsts,
      fun x fits room each empty => ?vstg, fun x fits size placed each empty => ?vstx⟩⟩
  case vld => exact runUnit_next (opVld_run fits empty each)
  case vlds => exact runUnit_next (opVlds_run fits empty each)
  case vldg => exact runUnit_next (opVldg_run fits empty room each)
  case vldx =>
    intro g size placed apart each empty
    exact runUnit_next (opVldx_run fits empty size placed apart each)
  case vst => exact runUnit_next (opVst_run fits empty each)
  case vsts => exact runUnit_next (opVsts_run fits empty each)
  case vstg => exact runUnit_next (opVstg_run fits empty room each)
  case vstx => exact runUnit_next (opVstx_run fits empty size placed each)

end Sys2Proof.Machine
end

section
/-! PROOFS. R174, R304: what translation leaves: a property that outlasts the filling of a TLB and the taking of free
values outlasts locating. -/

namespace Sys2Proof.Machine

/-- Neither a TLB that is filled nor a free value that is taken ends the property. -/
structure KeptByWalks (P : State → Prop) : Prop where
  free : ∀ s n, P s → P { s with freeCount := n }
  fill : ∀ (s : State) c tlb, P s → P (s.setCoreOf c { s.coreOf c with tlb := tlb })

section
variable {P : State → Prop} {s : State} (kept : KeptByWalks P)
include kept

theorem pickEntry_keeps (table idx level : Nat) (h : P s) : EndsIn P (pickEntry table idx level) s := by
  unfold pickEntry
  refine ends_get_bind (ends_ite (fun _ => ends_pure h _) fun _ => ?_)
  exact ends_bind (show EndsIn P nextFree s from kept.free _ _ h) fun _ _ ht => ends_pure ht _

theorem walkFrom_keeps (cause : BitVec 8) (va level table : Nat) (h : P s) :
    EndsIn P (walkFrom cause va level table) s := by
  induction level generalizing table s with
  | zero => exact h
  | succ n ih =>
    unfold walkFrom
    refine ends_get_bind ?_
    dsimp only
    repeat' first
      | exact ih _ ‹_›
      | exact pickEntry_keeps kept _ _ _ ‹_›
      | exact ends_throw ‹_› _
      | exact ends_pure ‹_› _
      | refine ends_ite (fun _ => ?_) (fun _ => ?_)
      | refine ends_bind ?_ (fun _ _ _ => ?_)

theorem leafFor_keeps (core : Option Nat) (ctx : Context) (acc : Acc) (va : Nat) (h : P s) :
    EndsIn P (leafFor core ctx acc va) s := by
  unfold leafFor
  refine ends_get_bind ?_
  cases core with
  | none => exact walkFrom_keeps kept _ _ _ _ h
  | some c =>
    dsimp only
    split
    · exact ends_pure h _
    · exact ends_bind (walkFrom_keeps kept _ _ _ _ h) fun _ _ ht =>
        ends_bind (ends_modify (kept.fill _ _ _ ht)) fun _ _ hu => ends_pure hu _

theorem translate_keeps (core : Option Nat) (ctx : Context) (view : Mode) (fam : Fam) (acc : Acc) (va : Word)
    (h : P s) : EndsIn P (translate core ctx view fam acc va) s := by
  unfold translate
  refine ends_ite (fun _ => ends_throw h _) fun _ => ends_get_bind ?_
  have leaf := leafFor_keeps kept core ctx acc va.toNat h
  unfold EndsIn at leaf
  split <;> rename_i r <;> rw [r] at leaf
  · exact ends_bind (ends_set leaf) fun _ _ ht => ends_throw ht _
  · refine ends_bind (ends_set leaf) fun _ _ ht => ?_
    split
    · exact ends_throw ht _
    · exact ends_pure ht _

/-- Locating a place leaves what a walk leaves (R155). -/
theorem locate_keeps (fam : Fam) (acc : Acc) (va : Word) (n : Nat) (elem bank : Option Nat) (h : P s) :
    EndsIn P (locate fam acc va n elem bank) s := by
  unfold locate
  refine ends_get_bind (ends_ite (fun _ => ends_throw h _) fun _ => ?_)
  split
  · have place := translate_keeps kept (some s.coreId) s.ctx s.hart.mode fam acc va h
    unfold EndsIn at place
    split <;> rename_i r <;> rw [r] at place
    · exact ends_bind (ends_set place) fun _ _ ht => ends_pure ht _
    · exact ends_bind (ends_set place) fun _ _ ht => ends_throw ht _
  · exact ends_ite (fun _ => ends_pure h _) fun _ => ends_throw h _
  · exact ends_throw h _

theorem bankLoc_keeps (acc : Acc) (base : Word) (banked : Bool) (b : Nat) (h : P s) :
    EndsIn P (bankLoc acc base banked b) s := by
  unfold bankLoc
  refine ends_ite (fun _ => ends_throw h _) fun _ => ends_bind (locate_keeps kept _ _ _ _ _ _ h) fun p t ht => ?_
  cases p with
  | local_ l => exact ends_pure ht _
  | remote => exact ends_throw ht _

theorem bankCheck_keeps (acc : Acc) (base : Word) (banked : Bool) (low : Loc) (b : Nat) (h : P s) :
    EndsIn P (bankCheck acc base banked low b) s :=
  ends_bind (bankLoc_keeps kept acc base banked b h) fun _ _ ht =>
    ends_ite (fun _ => ends_pure ht _) fun _ => ends_throw ht _

end

/-- What an operation that completes keeps. -/
theorem EndsIn.ok {ε α : Type} {P : State → Prop} {op : EStateM ε State α} {s t : State} {a : α} (ends : EndsIn P op s)
    (ok : op s = .ok a t) : P t := by
  unfold EndsIn at ends
  rwa [ok] at ends

theorem EndsIn.error {ε α : Type} {P : State → Prop} {op : EStateM ε State α} {s t : State} {e : ε}
    (ends : EndsIn P op s) (err : op s = .error e t) : P t := by
  unfold EndsIn at ends
  rwa [err] at ends

/-- `t` is `s` but for free values taken and TLBs: each core has its other fields. -/
structure State.Looked (s t : State) : Prop where
  walked : s.walkedTo t
  cores : ∀ n, ∃ tlb, t.coreOf n = { s.coreOf n with tlb := tlb }

namespace State.Looked
variable {s t : State}

theorem refl (s : State) : s.Looked s := ⟨s.walkedTo_self, fun n => ⟨(s.coreOf n).tlb, rfl⟩⟩

theorem kept (s : State) : KeptByWalks s.Looked where
  free _ _ h := ⟨h.walked.free, h.cores⟩
  fill u c tlb h := by
    refine ⟨h.walked.cores, fun n => ?_⟩
    by_cases same : c = n
    · subst same
      obtain ⟨old, core⟩ := h.cores c
      exact ⟨tlb, by rw [State.setCoreOf_same, core]⟩
    · rw [State.setCoreOf_other _ _ _ _ same]
      exact h.cores n

theorem fenced (h : s.Looked t) (n : Nat) : (t.coreOf n).fenced = (s.coreOf n).fenced := by
  obtain ⟨tlb, core⟩ := h.cores n
  rw [core]

theorem bankBusy (h : s.Looked t) (n : Nat) : (t.coreOf n).bankBusy = (s.coreOf n).bankBusy := by
  obtain ⟨tlb, core⟩ := h.cores n
  rw [core]

theorem dataError (h : s.Looked t) (key : Nat) : dataError t key = Machine.dataError s key := by
  have poison : t.poison = s.poison := by
    obtain ⟨c, n, rfl⟩ := h.walked
    rfl
  unfold Machine.dataError
  rw [h.fenced, poison]

end State.Looked

end Sys2Proof.Machine
end

section
/-! PROOFS. R173 to R177: the results of the plural loads, stores and atomics. -/

namespace Sys2Proof.Machine

section
variable {s t u : State} {ls : List (Nat × Loc)}

/-! ### Operations on each of a list -/

theorem forM_foldl {α : Type} {f : α → M Unit} {g : State → α → State} (xs : List α)
    (each : ∀ x ∈ xs, ∀ v, f x v = .ok () (g v x)) (s : State) : xs.forM f s = .ok () (xs.foldl g s) := by
  induction xs generalizing s with
  | nil => rfl
  | cons x xs ih =>
    simp only [List.forM_eq_forM, List.forM_cons] at ih ⊢
    rw [bind_ok (each x List.mem_cons_self s)]
    exact ih (fun y hy => each y (List.mem_cons_of_mem x hy)) _

/-- The banks that will perform do so in ascending order (R175). -/
theorem bankRun_foldl {perform : Nat → Loc → M Unit} {g : State → Nat × Loc → State} (ls : List (Nat × Loc))
    (each : ∀ p ∈ ls, ∀ v, perform p.1 p.2 v = .ok () (g v p)) (s : State) :
    bankRun perform ls s = .ok () (ls.foldl g s) := by
  induction ls generalizing s with
  | nil => rfl
  | cons p rest ih =>
    have first := each p List.mem_cons_self s
    simp only [bankRun, first]
    exact ih (fun q hq => each q (List.mem_cons_of_mem p hq)) _

/-- Metering leaves memory and the hart. -/
theorem metered_banks (ls : List (Nat × Loc)) (s : State) :
    (ls.foldl (fun v p => v.after (meter p.2.key 4)) s).mem = s.mem
      ∧ (ls.foldl (fun v p => v.after (meter p.2.key 4)) s).hart = s.hart := by
  have metered := metered_mem_hart 4 (ls.map fun p => (p.1, p.2.key)) s
  rwa [List.foldl_map] at metered

/-! ### The checks of R174 -/

theorem State.Looked.calm (looked : s.Looked t) (calm : s.calm) : t.calm := looked.walked.calm calm

/-- Banks checked one after another: a further check of each word found adds nothing where it passes. -/
theorem bankScan_ready {acc : Acc} {base : Word} {banked : Bool} {low : Loc} {ready : Nat → Loc → M Unit}
    (banks : List Nat) (looked : s.Looked u)
    (scan : bankScan (bankCheck acc base banked low) banks u = .ok (ls, none) t)
    (pass : ∀ p ∈ ls, ∀ v, s.Looked v → ready p.1 p.2 v = .ok () v) :
    bankScan (fun b => do let l ← bankCheck acc base banked low b; ready b l; pure l) banks u = .ok (ls, none) t := by
  induction banks generalizing u ls with
  | nil => exact scan
  | cons b rest ih =>
    have ends := bankCheck_keeps (State.Looked.kept s) acc base banked low b looked
    simp only [bankScan] at scan
    split at scan
    · rename_i l v found
      split at scan
      · rename_i ks stop w tail
        obtain ⟨⟨rfl, rfl⟩, rfl⟩ : (((b, l) :: ks) = ls ∧ stop = none) ∧ w = t := by simpa using scan
        have here : (do let l ← bankCheck acc base banked low b; ready b l; pure l : M Loc) u = .ok l v := by
          rw [bind_ok found, bind_ok (pass _ List.mem_cons_self v (ends.ok found)), pure_run]
        simp only [bankScan, here, ih (ends.ok found) tail fun p hp => pass p (List.mem_cons_of_mem _ hp)]
      · cases scan
    · simp at scan
    · cases scan

theorem bankScan_looked {acc : Acc} {base : Word} {banked : Bool} {low : Loc}
    {found : List (Nat × Loc) × Option (Nat × Trap)} (banks : List Nat) (looked : s.Looked u)
    (scan : bankScan (bankCheck acc base banked low) banks u = .ok found t) :
    s.Looked t := by
  induction banks generalizing u found with
  | nil =>
    obtain ⟨-, rfl⟩ : ([], none) = found ∧ u = t := by simpa [bankScan] using scan
    exact looked
  | cons b rest ih =>
    have ends := bankCheck_keeps (State.Looked.kept s) acc base banked low b looked
    unfold EndsIn at ends
    simp only [bankScan] at scan
    split at scan <;> rename_i r <;> rw [r] at ends
    · split at scan
      · rename_i tail
        obtain ⟨-, rfl⟩ := by simpa using scan
        exact ih ends tail
      · cases scan
    · obtain ⟨-, rfl⟩ := by simpa using scan
      exact ends
    · cases scan

theorem bankLoc_looked {acc : Acc} {base : Word} {banked : Bool} {b : Nat} {l : Loc} (looked : s.Looked u)
    (loc : bankLoc acc base banked b u = .ok l t) : s.Looked t :=
  (bankLoc_keeps (State.Looked.kept s) acc base banked b looked).ok loc

theorem bankLowest_looked {base : Word} {banked : Bool} {b0 b1 : Nat} {l : Loc}
    (lowest : bankLowest base banked b0 b1 s = .ok l t) : s.Looked t := by
  unfold bankLowest at lowest
  dsimp only at lowest
  split at lowest
  · cases first : bankLoc .store base banked b0 s with
    | ok k v =>
      rw [first] at lowest
      cases lowest
      exact bankLoc_looked (.refl s) first
    | error e v =>
      rw [first] at lowest
      cases e <;> cases lowest
  · cases first : bankLoc .store base banked b1 s with
    | ok k v =>
      rw [first] at lowest
      exact bankLoc_looked (bankLoc_looked (.refl s) first) lowest
    | error e v =>
      rw [first] at lowest
      cases e <;> cases lowest

/-- No word found enters a log, so none is reserved (R330). -/
theorem logBanks_off (kind : Nat) (base : Word) (banked : Bool) (off : ∀ p ∈ ls, p.2.log = false) (s : State) :
    logBanks kind base banked ls s = .ok () s := by
  have logged : ls.filter (fun p => p.2.log) = [] := List.filter_eq_nil_iff.2 fun p hp => by simp [off p hp]
  unfold logBanks logAccesses
  rw [logged, bind_ok (get_run s)]
  simp

/-- Nothing of the hart stands before the words of the banks (R281, R330). -/
theorem bankWait_calm {l : Loc} (calm : s.calm) (off : l.log = false) : bankWait l s = .ok () s := by
  unfold bankWait
  rw [bind_ok (awaitOwn_calm calm l), awaitLogged_off off]

theorem bankData_none {base : Word} {banked : Bool} {b : Nat} {l : Loc} (sound : dataError s l.key = none) :
    bankData base banked b l s = .ok () s := by
  unfold bankData
  rw [bind_ok (get_run s), sound]
  rfl

theorem bankFence_linked {base : Word} {banked : Bool} {b : Nat} {l : Loc}
    (linked : (s.coreOf (l.key / 2 ^ 30)).fenced = false) : bankFence base banked b l s = .ok () s := by
  unfold bankFence
  rw [bind_ok (get_run s), linked]
  rfl

/-! ### `ldp` -/

theorem opLdp_empty {x : PLoad} (ha : s.canRead x.a = true) (hb : s.canRead x.b = true)
    (empty : bankSet (s.reg x.b) = []) : opLdp x s = .ok .next (s.setHart (s.hart.writeS x.d 0)) := by
  unfold opLdp
  rw [bind_ok (readS_ok ha), bind_ok (readS_ok hb), empty]
  rfl

theorem opLdp_run {x : PLoad} {b0 : Nat} (ha : s.canRead x.a = true) (hb : s.canRead x.b = true)
    (first : (bankSet (s.reg x.b)).head? = some b0)
    (found : s.findsBanks .load (s.reg x.a + simm x.off) x.banked (bankLoc .load (s.reg x.a + simm x.off) x.banked b0)
      (bankSet (s.reg x.b)) ls t) (sound : ∀ p ∈ ls, dataError t p.2.key = none) :
    let r := ldpCombine x.op (ls.map fun p => (p.1, memReadN s.mem p.2.key 4))
    let u := ls.foldl (fun v p => v.after (meter p.2.key 4)) t
    opLdp x s = .ok .next (u.setHart ((u.hart.writeS x.d (ldpExtend x.op r.1)).addFlags r.2)) := by
  intro r u
  obtain ⟨⟨low, v, lowest, scan⟩, off, calm⟩ := found
  have looked : s.Looked t := bankScan_looked _ (bankLoc_looked (.refl s) lowest) scan
  have still := looked.calm calm
  obtain ⟨rest, banks⟩ : ∃ rest, bankSet (s.reg x.b) = b0 :: rest := by
    cases set : bankSet (s.reg x.b) with
    | nil => simp [set] at first
    | cons b rest => exact ⟨rest, by simpa [set] using first⟩
  have mem : u.mem = s.mem := (metered_banks ls t).1.trans looked.walked.mem
  unfold opLdp
  rw [banks] at scan
  rw [bind_ok (readS_ok ha), bind_ok (readS_ok hb), banks]
  dsimp only
  rw [bind_ok lowest, bind_ok scan]
  dsimp only
  rw [bind_ok (forM_ok ls fun p _ => flushGranule_none still.1 _),
    bind_ok (forM_ok ls fun p hp => bankWait_calm still (off p hp)),
    bind_ok (forM_ok ls fun p hp => bankData_none (sound p hp)), bind_ok (logBanks_off 4 _ _ off t),
    bind_ok (forM_foldl ls (fun p _ w => meter_run w p.2.key 4) t), bind_ok (get_run u), bind_ok (writeS_run ..),
    bind_ok (addFlags_run ..), mem, State.setHart_hart, State.setHart_setHart, pure_run]

/-! ### `stp` and `pam` -/

/-- The banks of the set from `bstart` on (R175). -/
def banksFrom (set : Word) (start : Nat) : List Nat := (bankSet set).filter fun b => decide (start ≤ b)

/-- A set has banks 0 to 31 alone (R173). -/
theorem banksFrom_below (set : Word) (start : Nat) :
    (bankSet set).filter (fun b => decide (start ≤ b) && decide (b < 32)) = banksFrom set start := by
  refine List.filter_congr fun b hb => ?_
  have below : b < 32 := List.mem_range.1 (List.mem_filter.1 hb).1
  simp [below]

section
variable {kind : Nat} {base set : Word} {banked : Bool} {ready perform : Nat → Loc → M Unit}

theorem bankLoop_empty (empty : banksFrom set s.hart.csr.bstart.toNat = []) :
    bankLoop kind base set banked 32 ready perform s = .ok .next (s.setHart (s.hart.setBstart 0)) := by
  unfold bankLoop
  rw [bind_ok (getHart_run s)]
  dsimp only
  rw [banksFrom_below, empty]
  rfl

/-- Every bank from `bstart` on passes its checks, and then they perform in ascending order (R175). -/
theorem bankLoop_run {g : State → Nat × Loc → State} {b0 b1 : Nat} (first : (bankSet set).head? = some b0)
    (next : (banksFrom set s.hart.csr.bstart.toNat).head? = some b1)
    (found : s.findsBanks .store base banked (bankLowest base banked b0 b1)
      (banksFrom set s.hart.csr.bstart.toNat) ls t)
    (pass : ∀ p ∈ ls, ∀ v, s.Looked v → ready p.1 p.2 v = .ok () v)
    (done : ∀ p ∈ ls, ∀ v, perform p.1 p.2 v = .ok () (g v p)) :
    bankLoop kind base set banked 32 ready perform s =
      .ok .next ((ls.foldl g t).setHart ((ls.foldl g t).hart.setBstart 0)) := by
  obtain ⟨⟨low, v, lowest, scan⟩, off, -⟩ := found
  obtain ⟨rest, banks⟩ := List.head?_eq_some_iff.1 next
  have lowestBank : (bankSet set).headD b1 = b0 := by rw [List.headD_eq_head?_getD, first, Option.getD_some]
  have ready := bankScan_ready _ (bankLowest_looked lowest) scan pass
  unfold bankLoop
  rw [bind_ok (getHart_run s)]
  dsimp only
  rw [banksFrom_below]
  rw [banks] at ready ⊢
  dsimp only
  rw [lowestBank, bind_ok lowest, bind_ok ready]
  dsimp only
  rw [bind_ok (logBanks_off kind _ _ off t), bind_ok (bankRun_foldl ls done t)]
  rfl

end

theorem opStp_empty {x : PStore} (ha : s.canRead x.a = true) (hb : s.canRead x.b = true) (hc : s.canRead x.c = true)
    (empty : banksFrom (s.reg x.b) s.hart.csr.bstart.toNat = []) (quiet : s.hart.deferred = []) :
    opStp x s = .ok .next (s.setHart (s.hart.setBstart 0)) := by
  refine flushBefore_ok quiet ?_
  rw [bind_ok (readS_ok ha), bind_ok (readS_ok hb), bind_ok (readS_ok hc)]
  exact bankLoop_empty empty

theorem opPam_empty {x : PAtomic} (ha : s.canRead x.a = true) (hb : s.canRead x.b = true) (hc : s.canRead x.c = true)
    (empty : banksFrom (s.reg x.b) s.hart.csr.bstart.toNat = []) (quiet : s.hart.deferred = []) :
    opPam x s = .ok .next (s.setHart (s.hart.setBstart 0)) := by
  refine flushBefore_ok quiet ?_
  rw [bind_ok (readS_ok ha), bind_ok (readS_ok hb), bind_ok (readS_ok hc), bind_ok (getHart_run s)]
  exact bankLoop_empty empty

theorem opStp_run {x : PStore} {b0 b1 : Nat} (ha : s.canRead x.a = true) (hb : s.canRead x.b = true)
    (hc : s.canRead x.c = true) (first : (bankSet (s.reg x.b)).head? = some b0)
    (next : (banksFrom (s.reg x.b) s.hart.csr.bstart.toNat).head? = some b1)
    (found : s.findsBanks .store (s.reg x.a + simm x.off) x.banked
      (bankLowest (s.reg x.a + simm x.off) x.banked b0 b1) (banksFrom (s.reg x.b) s.hart.csr.bstart.toNat) ls t)
    (linked : ∀ p ∈ ls, (t.coreOf (p.2.key / 2 ^ 30)).fenced = false) :
    let u := ls.foldl (fun v p => pokeN p.2.key 4 ((s.reg x.c).toNat % 2 ^ 32) (v.after (meter p.2.key 4))) t
    opStp x s = .ok .next (u.setHart (u.hart.setBstart 0)) := by
  have ⟨⟨low, v, lowest, scan⟩, off, calm⟩ := found
  have looked : s.Looked t := bankScan_looked _ (bankLowest_looked lowest) scan
  refine flushBefore_ok calm.1 ?_
  rw [bind_ok (readS_ok ha), bind_ok (readS_ok hb), bind_ok (readS_ok hc)]
  refine bankLoop_run first next found (fun p hp v there => ?_) fun p _ v => bind_ok (meter_run v p.2.key 4)
  have here : (v.coreOf (p.2.key / 2 ^ 30)).fenced = false := by rw [there.fenced, ← looked.fenced, linked p hp]
  rw [bind_ok (flushGranule_none (there.calm calm).1 _), bind_ok (bankWait_calm (there.calm calm) (off p hp)),
    bankFence_linked here]

theorem opPam_run {x : PAtomic} {b0 b1 : Nat} (ha : s.canRead x.a = true) (hb : s.canRead x.b = true)
    (hc : s.canRead x.c = true) (first : (bankSet (s.reg x.b)).head? = some b0)
    (next : (banksFrom (s.reg x.b) s.hart.csr.bstart.toNat).head? = some b1)
    (found : s.findsBanks .store (s.reg x.a + simm x.off) x.banked
      (bankLowest (s.reg x.a + simm x.off) x.banked b0 b1) (banksFrom (s.reg x.b) s.hart.csr.bstart.toNat) ls t)
    (sound : ∀ p ∈ ls, dataError t p.2.key = none) (plain : s.hart.det = false ∨ x.op ≠ .fadd) :
    let u := ls.foldl (fun v p => pokeN p.2.key 4 (pamNew x.op (memReadN v.mem p.2.key 4) ((s.reg x.c).toNat % 2 ^ 32))
      (v.after (meter p.2.key 4))) t
    opPam x s = .ok .next (u.setHart (u.hart.setBstart 0)) := by
  have ⟨⟨low, v, lowest, scan⟩, off, calm⟩ := found
  have looked : s.Looked t := bankScan_looked _ (bankLowest_looked lowest) scan
  have now : (s.hart.det && x.op == .fadd) = false := by
    rcases plain with h | h <;> simp [h]
  refine flushBefore_ok calm.1 ?_
  rw [bind_ok (readS_ok ha), bind_ok (readS_ok hb), bind_ok (readS_ok hc), bind_ok (getHart_run s)]
  refine bankLoop_run first next found (fun p hp v there => ?_) fun p _ v => ?_
  · have here : dataError v p.2.key = none := by rw [there.dataError, ← looked.dataError, sound p hp]
    rw [now, if_neg (by simp), bind_ok (flushGranule_none (there.calm calm).1 _),
      bind_ok (bankWait_calm (there.calm calm) (off p hp)), bankData_none here]
  · rw [now, if_neg (by simp), bind_ok (meter_run v p.2.key 4), modify_run, after_meter_mem]

/-! ### `pam` in deterministic mode -/

/-- The pending update of a bank's word (R175, R333). -/
def bankUpdate (base : Word) (banked : Bool) (c : Nat) (v : State) (p : Nat × Loc) : Deferred :=
  ⟨bankVa base banked p.1, p.2.key, .f32, BitVec.ofNat 64 c, v.hart.mode, none, heldEntry v (bankVa base banked p.1)⟩

/-- The state after that update is deferred. -/
def bankDefer (base : Word) (banked : Bool) (c : Nat) (v : State) (p : Nat × Loc) : State :=
  v.setHart { v.hart with deferred := v.hart.deferred ++ [bankUpdate base banked c v p] }

theorem heldEntry_setHart (s : State) {h : Hart} (convoy : h.convoy = s.hart.convoy) (va : Word) :
    heldEntry (s.setHart h) va = heldEntry s va := by
  unfold heldEntry State.ctx State.ctxId
  rw [State.setHart_convoy s h convoy]
  rfl

theorem bankUpdate_bankDefer (base : Word) (banked : Bool) (c : Nat) (v : State) (p : Nat × Loc) :
    bankUpdate base banked c (bankDefer base banked c v p) = bankUpdate base banked c v := by
  funext q
  unfold bankUpdate bankDefer
  rw [heldEntry_setHart, State.setHart_hart]
  rfl

/-- The updates of all banks are deferred in order, each as it would be alone. -/
theorem bankDefer_foldl (base : Word) (banked : Bool) (c : Nat) (ls : List (Nat × Loc)) (v : State) :
    (∀ k, (ls.foldl (bankDefer base banked c) v).setHart k = v.setHart k)
      ∧ (ls.foldl (bankDefer base banked c) v).hart =
        { v.hart with deferred := v.hart.deferred ++ ls.map (bankUpdate base banked c v) } := by
  induction ls generalizing v with
  | nil => exact ⟨fun _ => rfl, by simp⟩
  | cons p rest ih =>
    obtain ⟨state, hart⟩ := ih (bankDefer base banked c v p)
    refine ⟨fun k => (state k).trans (State.setHart_setHart ..), ?_⟩
    rw [bankUpdate_bankDefer] at hart
    rw [List.foldl_cons, hart, bankDefer, State.setHart_hart]
    simp

theorem length_bankSet (set : Word) : (bankSet set).length ≤ 32 :=
  (List.length_filter_le ..).trans_eq (List.length_range ..)

theorem deferRoom_banks (empty : s.hart.deferred = []) (set : Word) : deferRoom (bankSet set).length s = .ok () s := by
  have room := length_bankSet set
  unfold deferRoom
  rw [bind_ok (getHart_run s), empty, if_neg (by simp; omega), pure_run]

/-- In deterministic mode the updates of a `pam.fadd` are deferred (R175, R333). -/
theorem opPam_deferred {x : PAtomic} {b0 b1 : Nat} (ha : s.canRead x.a = true) (hb : s.canRead x.b = true)
    (hc : s.canRead x.c = true) (first : (bankSet (s.reg x.b)).head? = some b0)
    (next : (banksFrom (s.reg x.b) s.hart.csr.bstart.toNat).head? = some b1)
    (found : s.findsBanks .store (s.reg x.a + simm x.off) x.banked
      (bankLowest (s.reg x.a + simm x.off) x.banked b0 b1) (banksFrom (s.reg x.b) s.hart.csr.bstart.toNat) ls t)
    (det : s.hart.det = true) (fadd : x.op = .fadd) :
    let update := bankUpdate (s.reg x.a + simm x.off) x.banked ((s.reg x.c).toNat % 2 ^ 32) t
    opPam x s = .ok .next (t.setHart (Hart.setBstart 0 { t.hart with deferred := ls.map update })) := by
  intro update
  have ⟨⟨low, v, lowest, scan⟩, off, calm⟩ := found
  have looked : s.Looked t := bankScan_looked _ (bankLowest_looked lowest) scan
  have later : (s.hart.det && x.op == .fadd) = true := by simp [det, fadd]
  obtain ⟨state, hart⟩ :=
    bankDefer_foldl (s.reg x.a + simm x.off) x.banked ((s.reg x.c).toNat % 2 ^ 32) ls t
  rw [(looked.calm calm).1, List.nil_append] at hart
  rw [← hart, ← state]
  refine flushBefore_ok calm.1 ?_
  rw [bind_ok (readS_ok ha), bind_ok (readS_ok hb), bind_ok (readS_ok hc), bind_ok (getHart_run s)]
  refine bankLoop_run first next found (fun p hp v there => ?_) fun p hp v => ?_
  · rw [later, if_pos rfl, deferRoom_banks (there.calm calm).1]
  · rw [later, if_pos rfl]
    exact deferLocal_unlogged (off p hp) ..

end

/-- Settles O21: the words of the banks pass the checks of R174 and R175 with nothing pending, and are then combined,
stored, updated or put among the deferred updates, bank by bank. -/
theorem pluralResults : Obligations.PluralResults := by
  refine fun s t ls => ⟨fun x ha hb => ?ldp, fun x ha hb hc => ?stp, fun x ha hb hc => ?pam⟩
  case ldp => exact ⟨fun empty => runUnit_hart (opLdp_empty ha hb empty),
    fun b0 first found sound => runUnit_next (opLdp_run ha hb first found sound)⟩
  case stp => exact ⟨fun empty quiet => runUnit_hart (opStp_empty ha hb hc empty quiet),
    fun b0 b1 first next found linked => runUnit_next (opStp_run ha hb hc first next found linked)⟩
  case pam =>
    refine ⟨fun empty quiet => runUnit_hart (opPam_empty ha hb hc empty quiet),
      fun b0 b1 first next found sound plain => runUnit_next (opPam_run ha hb hc first next found sound plain),
      fun b0 b1 first next found det fadd => ?_⟩
    obtain ⟨⟨low, v, lowest, scan⟩, -, -⟩ := id found
    have looked : s.Looked t := bankScan_looked _ (bankLowest_looked lowest) scan
    have completes := opPam_deferred ha hb hc first next found det fadd
    unfold bankUpdate at completes
    rw [looked.walked.hart] at completes ⊢
    exact runUnit_next completes

end Sys2Proof.Machine
end

section
/-! PROOFS. R184 to R186: the results of `pdot`. -/

namespace Sys2Proof.Machine

section
variable {s t : State}

/-! ### The checks of the rows -/

theorem ends_mapM {α β : Type} {P : State → Prop} {f : α → M β} (each : ∀ a u, P u → EndsIn P (f a) u) (as : List α)
    (h : P s) : EndsIn P (as.mapM f) s := by
  induction as generalizing s with
  | nil => exact ends_pure h _
  | cons a rest ih =>
    rw [List.mapM_cons]
    exact ends_bind (each a s h) fun _ _ ht => ends_bind (ih ht) fun _ _ hu => ends_pure hu _

theorem pdotGranule_keeps {P : State → Prop} (kept : KeptByWalks P) (b : Nat) (va : Word) (h : P s) :
    EndsIn P (pdotGranule b va) s := by
  unfold pdotGranule
  refine ends_bind (locate_keeps kept _ _ _ _ _ _ h) fun p t ht => ?_
  cases p with
  | remote => exact ends_throw ht _
  | local_ l => exact ends_ite (fun _ => ends_throw ht _) fun _ => ends_pure ht _

theorem pdotData_keeps {P : State → Prop} (b : Nat) (q : Word × Loc) (h : P s) : EndsIn P (pdotData b q) s := by
  unfold pdotData
  refine ends_get_bind ?_
  split
  · exact ends_throw h _
  · exact ends_pure h _

/-- The checks of the banks only walk (R185). -/
theorem pdotCheck_keeps {P : State → Prop} (kept : KeptByWalks P) (base : Word) (x : PDot) (banks : List Nat)
    (h : P s) : EndsIn P (pdotCheck base x banks) s := by
  have row (b : Nat) (u : State) (hu : P u) : EndsIn P (pdotRowCheck base x b) u :=
    ends_bind (ends_mapM (fun va v hv => pdotGranule_keeps kept b va hv) _ hu) fun _ _ hv => ends_pure hv _
  have data (p : Nat × List (Word × Loc)) (u : State) (hu : P u) : EndsIn P (p.2.forM (pdotData p.1)) u :=
    ends_forM (fun q v hv => pdotData_keeps p.1 q hv) p.2 hu
  exact ends_bind (ends_mapM row banks h) fun ps u hu => ends_bind (ends_forM data ps hu) fun _ _ hv => ends_pure hv _

/-! ### The instruction -/

/-- The dot product of a bank reads memory and the broadcast group alone. -/
theorem pdotBank_walked (walked : s.walkedTo t) : pdotBank t = pdotBank s := by
  obtain ⟨c, n, rfl⟩ := walked
  rfl

theorem pdotPoison_clean (clean : s.clean) (x : PDot) : pdotPoison s.hart x = none := by
  simp [pdotPoison, elemPoisoned_clean clean]

/-- An empty set performs nothing (R186). -/
theorem opPdot_empty {x : PDot} (clean : s.clean) (empty : bankSet (s.reg x.b) = []) : opPdot x s = .ok .next s := by
  unfold opPdot
  rw [bind_ok (readS_ok (clean.canRead _)), if_pos empty, pure_run]

theorem opPdot_run {x : PDot} {places : List (Nat × List (Word × Loc))} (clean : s.clean)
    (nonempty : bankSet (s.reg x.b) ≠ []) (placed : (s.reg x.c).toNat % 64 = 0)
    (checked : pdotCheck (s.reg x.c) x (bankSet (s.reg x.b)) s = .ok places t)
    (idle : pdotBusy s.hart.aged s.core (s.reg x.b) = false) (calm : s.calm) :
    let rs := places.map fun p => (p.1, pdotBank s p.2 (pdotRow (s.reg x.c) x p.1) x)
    opPdot x s = .ok .next (t.setHart ((t.hart.setElems x.d 32 (rs.map fun r => (r.1, r.2.1))).addFlags
      (rs.foldl (fun f r => f ||| r.2.2) 0))) := by
  intro rs
  have looked : s.Looked t := (pdotCheck_keeps (State.Looked.kept s) _ _ _ (.refl s)).ok checked
  have still : pdotBusy s.hart.aged t.core (s.reg x.b) = false := by
    have core : t.coreId = s.coreId := by
      obtain ⟨c, n, rfl⟩ := looked.walked
      rfl
    rw [← idle, pdotBusy, State.core, core, looked.bankBusy]
    rfl
  have waits (p : Nat × List (Word × Loc)) (_ : p ∈ places) :
      (p.2.forM fun q => do flushGranule q.2.key; awaitOwn q.2) t = .ok () t :=
    forM_ok p.2 fun q _ => (bind_ok (flushGranule_none (looked.calm calm).1 _)).trans
      (awaitOwn_calm (looked.calm calm) _)
  unfold opPdot
  rw [bind_ok (readS_ok (clean.canRead _)), if_neg nonempty]
  dsimp only
  rw [bind_ok (readS_ok (clean.canRead _)), bind_ok (getHart_run s), pdotPoison_clean clean]
  dsimp only
  rw [if_neg (by simp [placed]), bind_ok checked, bind_ok (getCore_run t), still, if_neg (by simp),
    bind_ok (forM_ok places waits), bind_ok (get_run t), pdotBank_walked looked.walked,
    bind_ok (modHart_run ..), bind_ok (addFlags_run ..), State.setHart_hart, State.setHart_setHart, pure_run]

end

/-- Settles O22: without poison and with its banks idle nothing stands before the rows that pass the checks, which only
walk, so each dot product is that of the memory and the group at the start. -/
theorem pdotResults : Obligations.PdotResults := by
  refine fun s x clean => ⟨fun empty => runUnit_next (opPdot_empty clean empty), ?_⟩
  exact fun t places nonempty placed checked idle calm =>
    runUnit_next (opPdot_run clean nonempty placed checked idle calm)

end Sys2Proof.Machine
end

section
/-! PROOFS. R183, R55, R333: the result of `vstxa`. -/

namespace Sys2Proof.Machine

section
variable {s t u : State} {x : VMemX}

/-! ### What a store or the meter leaves -/

theorem pokeN_items_package (k n v : Nat) (s : State) :
    (pokeN k n v s).items = s.items ∧ (pokeN k n v s).package = s.package := by
  unfold pokeN pokeBytes wakeMonitors
  dsimp only
  split <;> split <;> exact ⟨rfl, rfl⟩

/-- A store leaves nothing pending that was not pending before. -/
theorem pokeN_calm (calm : s.calm) (k n v : Nat) : (pokeN k n v s).calm := by
  obtain ⟨a, hart⟩ := pokeN_hart k n v s
  obtain ⟨items, package⟩ := pokeN_items_package k n v s
  unfold State.calm hartItems at *
  rwa [hart, items, package]

theorem after_meter_calm (calm : s.calm) (k n : Nat) : (s.after (meter k n)).calm := by
  obtain ⟨c, metered⟩ := meter_spec s k n
  simp only [State.after, metered]
  exact calm

/-! ### One group -/

/-- Values added up in order, from the first on (R55). -/
def addInOrder (t : EType) : List Nat → Nat
  | [] => 0
  | v :: vs => vs.foldl (addIn t) v

/-- The elements of a group folded in ascending order (R55, R183). -/
def scatterMerged (x : VMemX) (h : Hart) (ms : List Nat) : Nat :=
  addInOrder x.t (ms.map fun i => h.elem x.v (tBits x.t) i)

/-- A fold reads the vector registers alone. -/
theorem scatterMerged_of_v {g h : Hart} (v : g.v = h.v) (ms : List Nat) :
    scatterMerged x g ms = scatterMerged x h ms := by
  have elems : g.elem x.v (tBits x.t) = h.elem x.v (tBits x.t) := by
    funext i
    rw [Hart.elem, Hart.elem, v]
  rw [scatterMerged, scatterMerged, elems]

section
variable {l : Loc} (clean : s.clean) (off : l.log = false)
include clean off

/-- A group is added at its word in one update (R183). -/
theorem scatterGroup_adds (calm : s.calm) (now : (s.hart.det && tFloat x.t) = false) (sound : dataError s l.key = none)
    (va : Word) (low : Nat) (ms : List Nat) :
    scatterGroup x va low ms l s = .ok () (pokeN l.key (tBytes x.t)
      (addIn x.t (memReadN s.mem l.key (tBytes x.t)) (scatterMerged x s.hart ms))
      (s.after (meter l.key (tBytes x.t)))) := by
  unfold scatterGroup
  dsimp only
  rw [bind_ok (getHart_run s), if_neg (by simp [elemPoisoned_clean clean]), now, if_neg (by simp),
    bind_ok (flushGranule_none calm.1 _), bind_ok (awaitOwn_calm calm _), bind_ok (awaitLogged_off off),
    bind_ok (checkData_none sound _ _ _), bind_ok (logOne_off off _ _ _), bind_ok (meter_run _ _ _), modify_run,
    after_meter_mem]
  rfl

/-- In deterministic mode the update of a floating group is deferred (R333). -/
theorem scatterGroup_defers (later : (s.hart.det && tFloat x.t) = true) (room : s.hart.deferred.length < 256)
    (va : Word) (low : Nat) (ms : List Nat) :
    scatterGroup x va low ms l s = .ok () (s.setHart { s.hart with deferred := s.hart.deferred ++
      [⟨va, l.key, x.t, BitVec.ofNat 64 (scatterMerged x s.hart ms), s.hart.mode, none, heldEntry s va⟩] }) := by
  have fits : deferRoom 1 s = .ok () s := by
    unfold deferRoom
    rw [bind_ok (getHart_run s), if_neg (by omega), pure_run]
  unfold scatterGroup
  dsimp only
  rw [bind_ok (getHart_run s), if_neg (by simp [elemPoisoned_clean clean]), later, if_pos rfl,
    bind_ok fits, bind_ok (logOne_off off _ _ _), deferLocal_unlogged off]
  rfl

end

/-! ### The addresses -/

/-- A place and the key that stands for it. -/
def ScatterPlace (p : Nat × Loc) (k : Nat × Nat) : Prop := p.1 = k.1 ∧ p.2.key = k.2 ∧ p.2.log = false

/-- The place of one element's word (R183). -/
def scatterOne (x : VMemX) (base : Word) (i : Nat) : M Loc := do
  checkIx x i
  let va := indexEa x base (← getHart) i
  match ← locate .seg .store va (tBytes x.t) (some i) none with
  | .local_ l => pure l
  | .remote => throw (.trap { cause := 0x09, addr := some va, elem := some i })

theorem scatterScan_cons {base : Word} {i : Nat} {rest : List Nat} {l : Loc} {ls : List (Nat × Loc)}
    (one : scatterOne x base i s = .ok l u) (scan : scatterScan x base rest u = .ok (ls, none) t) :
    scatterScan x base (i :: rest) s = .ok ((i, l) :: ls, none) t := by
  rw [scatterScan]
  dsimp only
  split <;> rename_i r <;> cases one.symm.trans r
  rw [scan]

/-- The words of the elements are found one after another (R183). -/
theorem scatterScan_found {base : Word} (todo : List Nat) {ks : List (Nat × Nat)} (clean : s.clean)
    (found : State.Found .seg .store (tBytes x.t) (todo.map fun i => (i, indexEa x base s.hart i)) s ks t) :
    ∃ ls, scatterScan x base todo s = .ok (ls, none) t ∧ List.Forall₂ ScatterPlace ls ks := by
  induction todo generalizing s ks with
  | nil =>
    cases found
    exact ⟨[], rfl, .nil⟩
  | cons i rest ih =>
    cases found with
    | cons a va fs s u t l ks first others =>
      have walked := finds_walked first
      have cleanNext : u.clean := by rw [State.clean, walked.hart, clean]
      rw [← walked.hart] at others
      obtain ⟨ls, scan, places⟩ := ih cleanNext others
      refine ⟨(i, l) :: ls, ?_, .cons ⟨rfl, rfl, first.2.2.2.1⟩ places⟩
      have one : scatterOne x base i s = .ok l u := by
        unfold scatterOne
        rw [bind_ok (checkIx_clean clean x i), bind_ok (getHart_run s)]
        exact bind_ok (locate_label (some i) none first.1)
      exact scatterScan_cons one scan

/-- The place of an element has its key, and no log (R183); an element without a place has the key 0. -/
theorem scatterPlace_get {ls : List (Nat × Loc)} {ks : List (Nat × Nat)} (places : List.Forall₂ ScatterPlace ls ks)
    (i : Nat) : ((mget ls i).getD ⟨0, false, false, false⟩).key = (mget ks i).getD 0
      ∧ ((mget ls i).getD ⟨0, false, false, false⟩).log = false := by
  induction places with
  | nil => exact ⟨rfl, rfl⟩
  | cons first _ ih =>
    obtain ⟨label, key, off⟩ := first
    rw [mget_cons, mget_cons, label]
    split
    · exact ⟨key, off⟩
    · exact ih

/-! ### The loop -/

/-- What the loop needs of the hart that the groups before have left: the elements, no poison, the mode, and, unless
updates are deferred, that still nothing is pending. -/
structure State.Scattering (s : State) (ty : EType) (p : State) : Prop where
  clean : p.clean
  elems : p.hart.v = s.hart.v
  det : p.hart.det = s.hart.det
  calm : s.calm → (s.hart.det && tFloat ty) = false → p.calm

namespace State.Scattering
variable {ty : EType} {p q : State}

theorem walk (before : s.Scattering ty p) (walked : p.walkedTo q) : s.Scattering ty q where
  clean := by rw [State.clean, walked.hart, before.clean]
  elems := by rw [walked.hart, before.elems]
  det := by rw [walked.hart, before.det]
  calm c now := walked.calm (before.calm c now)

theorem defer (before : s.Scattering ty p) (later : (s.hart.det && tFloat ty) = true) (ds : List Deferred) :
    s.Scattering ty (p.setHart { p.hart with deferred := ds }) where
  clean := by rw [State.clean, State.setHart_hart, ← before.clean]
  elems := by rw [State.setHart_hart, ← before.elems]
  det := by rw [State.setHart_hart, ← before.det]
  calm _ now := by
    rw [later] at now
    cases now

theorem poke (before : s.Scattering ty p) (calm : p.calm) (k n v m : Nat) :
    s.Scattering ty (pokeN k n v (p.after (meter k m))) := by
  obtain ⟨a, hart⟩ := pokeN_hart k n v (p.after (meter k m))
  rw [after_meter_hart] at hart
  exact ⟨by rw [State.clean, hart, ← before.clean], by rw [hart, ← before.elems], by rw [hart, ← before.det],
    fun _ _ => pokeN_calm (after_meter_calm calm k m) ..⟩

end State.Scattering

/-- Element `i` of the loop: nothing is left to do but to find the word, or its group is added or deferred (R183,
R333). -/
def State.scatters (s : State) (x : VMemX) (ea : Nat → Word) (groups : List (Word × List Nat)) (ks : List (Nat × Nat))
    (i : Nat) (p q : State) : Prop :=
  match groups.find? fun g => g.2.head? == some i with
  | none => ∃ l : Loc, locate .seg .store (ea i) (tBytes x.t) (some i) none p = .ok (.local_ l) q ∧ l.log = false
  | some (va, ms) =>
    let key := (mget ks i).getD 0
    if s.hart.det && tFloat x.t then p.hart.deferred.length < 256 ∧ q = p.setHart { p.hart with
        deferred := p.hart.deferred ++
          [⟨va, key, x.t, BitVec.ofNat 64 (scatterMerged x s.hart ms), p.hart.mode, none, heldEntry p va⟩] }
    else dataError p key = none ∧ q = pokeN key (tBytes x.t)
      (addIn x.t (memReadN p.mem key (tBytes x.t)) (scatterMerged x s.hart ms)) (p.after (meter key (tBytes x.t)))

/-- Element `i` as the loop performs it. -/
def scatterElem (x : VMemX) (ea : Nat → Word) (groups : List (Word × List Nat)) (ls : List (Nat × Loc)) (i : Nat) :
    M Unit :=
  match groups.find? fun g => g.2.head? == some i with
  | some (va, ms) => scatterGroup x va i ms ((mget ls i).getD ⟨0, false, false, false⟩)
  | none => scatterLog x (ea i) i

theorem scatterElem_run {ea : Nat → Word} {groups : List (Word × List Nat)} {ls : List (Nat × Loc)}
    {ks : List (Nat × Nat)} {i : Nat} {p q : State} (places : List.Forall₂ ScatterPlace ls ks)
    (calm : groups ≠ [] → s.calm) (step : s.scatters x ea groups ks i p q) (before : s.Scattering x.t p) :
    scatterElem x ea groups ls i p = .ok () q ∧ s.Scattering x.t q := by
  obtain ⟨key, off⟩ := scatterPlace_get places i
  unfold State.scatters at step
  unfold scatterElem
  split at step
  · rename_i lone
    obtain ⟨l, located, log⟩ := step
    rw [lone]
    exact ⟨by simp only [scatterLog, located, logOne_off log], before.walk (locate_ok_walked located)⟩
  · rename_i va ms group
    have nonempty : groups ≠ [] := by
      rintro rfl
      cases group
    rw [group]
    dsimp only at step ⊢
    rw [← key, ← scatterMerged_of_v (x := x) before.elems ms] at step
    split at step
    · rename_i later
      obtain ⟨room, rfl⟩ := step
      exact ⟨scatterGroup_defers before.clean off (by rw [before.det, later]) room va i ms, before.defer later _⟩
    · rename_i now
      obtain ⟨sound, rfl⟩ := step
      have now : (s.hart.det && tFloat x.t) = false := by simpa using now
      have still := before.calm (calm nonempty) now
      exact ⟨scatterGroup_adds before.clean off still (by rw [before.det, now]) sound va i ms, before.poke still ..⟩

/-- The active elements whose group has not been folded before a restart (R183). -/
def State.scatterTodo (s : State) (x : VMemX) (ea : Nat → Word) : List Nat :=
  (s.active x.m).filter fun i =>
    !((List.range s.hart.csr.vstart.toNat).filter (s.activeAt_ x.m)).any fun j => ea j == ea i

theorem opVstxa_run {ks : List (Nat × Nat)} (fits : s.fits x.t [x.v]) (empty : s.hart.deferred = [])
    (size : s.convoy.grpRegs * ixBits x.ix ≤ 64 * s.convoy.ewBytes)
    (placed : aligned x.b (sideRegs s.convoy (ixBits x.ix)) = true)
    {ea : Nat → Word} (address : ea = indexEa x (s.reg x.a + simm x.off) s.hart)
    (found : State.Found .seg .store (tBytes x.t) ((s.scatterTodo x ea).map fun i => (i, ea i)) s ks t)
    (each : State.Each (s.scatters x ea (scatterGroups ea (s.scatterTodo x ea)) ks) (s.active x.m) t u) :
    opVstxa x s = .ok .next u.restart := by
  subst address
  have clean := fits.clean
  obtain ⟨ls, scan, places⟩ := scatterScan_found _ clean found
  have walked := found_walked found
  have calm : scatterGroups (indexEa x (s.reg x.a + simm x.off) s.hart)
      (s.scatterTodo x (indexEa x (s.reg x.a + simm x.off) s.hart)) ≠ [] → s.calm := by
    intro nonempty
    refine found.calm fun nothing => nonempty ?_
    rw [List.map_eq_nil_iff.1 nothing, scatterGroups]
  have start : s.Scattering x.t t :=
    ⟨by rw [State.clean, walked.hart, clean], by rw [walked.hart], by rw [walked.hart], fun c _ => walked.calm c⟩
  have loop := (memLoop_each (fun i p q => scatterElem_run places calm) each start).1
  refine flushBefore_ok empty ?_
  rw [bind_ok (checkIndex_ok fits size placed (by nofun)), bind_ok (readS_ok (clean.canRead _))]
  dsimp only
  rw [bind_ok (memElems_clean clean _), bind_ok (getConvoy_run s), bind_ok (getHart_run s)]
  simp only [elemPoisoned_clean clean, Bool.not_false, Bool.and_true, Bool.false_or, List.filter_true]
  refine (bind_ok scan).trans ?_
  simp only [List.filter_true]
  exact (bind_ok loop).trans rfl

end

/-- Settles O19: the scan finds every word, and each element of the loop then only finds its word again, or has its
group added or deferred, as the hart's elements at the start say. -/
theorem scatterAddResults : Obligations.ScatterAddResults := by
  intro s t u x ks fits size placed w ea todo merged update found each empty
  have folds : merged = scatterMerged x s.hart := by
    funext ms
    cases ms with
    | nil => rfl
    | cons i is => exact List.foldl_map.symm
  have step : update = s.scatters x ea (scatterGroups ea todo) ks := by
    unfold State.scatters
    rewrite [← folds]
    rfl
  exact runUnit_next (opVstxa_run fits empty size placed rfl found (step ▸ each))

end Sys2Proof.Machine
end

section
/-! PROOFS. R109, R111, R180: what the parts of a load change, wherever it stops, and the unit that they make up. -/

namespace Sys2Proof.Machine

/-! ### What a load may write -/

/-- The registers that a load may write, and whether it restarts at an element (R109, R156, R180). -/
structure LoadDest where
  scalar : SReg → Prop
  vector : VName → Prop
  restarts : Prop

theorem Hart.sameRegs.refl (h : Hart) : h.sameRegs h := ⟨rfl, rfl, rfl, rfl, rfl, rfl⟩

theorem Hart.sameRegs.trans {h k l : Hart} (hk : h.sameRegs k) (kl : k.sameRegs l) : h.sameRegs l := by
  obtain ⟨m, acc, c, mma, ring, count⟩ := hk
  obtain ⟨m', acc', c', mma', ring', count'⟩ := kl
  exact ⟨m'.trans m, acc'.trans acc, c'.trans c, mma'.trans mma, ring'.trans ring, count'.trans count⟩

/-- A hart after part of a load: only the destination has changed, and `vstart` where the load restarts. -/
structure Hart.Loaded (d : LoadDest) (h k : Hart) : Prop where
  regs : h.sameRegs k
  deferred : k.deferred = h.deferred
  scalars : ∀ r : SReg, ¬ d.scalar r → k.s[r] = h.s[r]
  vectors : ∀ r : VName, ¬ d.vector r → k.v[r] = h.v[r]
  csr : k.csr = { h.csr with vstart := k.csr.vstart }
  vstart : ¬ d.restarts → k.csr.vstart = h.csr.vstart

/-- A state after part of a load of its current hart: memory and the other harts are as they were. -/
structure State.Loaded (d : LoadDest) (s t : State) : Prop where
  mem : t.mem = s.mem
  cur : t.cur = s.cur
  others : ∀ g, g ≠ s.cur → mget t.harts g = mget s.harts g
  hart : s.hart.Loaded d t.hart

section
variable {d : LoadDest}

theorem Hart.Loaded.refl (h : Hart) : h.Loaded d h :=
  ⟨.refl _, rfl, fun _ _ => rfl, fun _ _ => rfl, rfl, fun _ => rfl⟩

/-- What a wait, or the answer to a request, changes of a hart. -/
theorem Hart.Loaded.of_wait (h : Hart) (status : Status) (stamp : Nat) (resp : List (Nat × Response))
    (pair : Option PairRun) :
    h.Loaded d { h with status, stamp, resp, pair } :=
  ⟨.refl _, rfl, fun _ _ => rfl, fun _ _ => rfl, rfl, fun _ => rfl⟩

theorem Hart.Loaded.trans {h k l : Hart} (hk : h.Loaded d k) (kl : k.Loaded d l) : h.Loaded d l where
  regs := hk.regs.trans kl.regs
  deferred := kl.deferred.trans hk.deferred
  scalars r hr := (kl.scalars r hr).trans (hk.scalars r hr)
  vectors r hr := (kl.vectors r hr).trans (hk.vectors r hr)
  csr := kl.csr.trans (congrArg (fun c : Csrs => { c with vstart := l.csr.vstart }) hk.csr)
  vstart hd := (kl.vstart hd).trans (hk.vstart hd)

section
variable {s t u : State}

theorem State.Loaded.refl (s : State) : s.Loaded d s := ⟨rfl, rfl, fun _ _ => rfl, .refl _⟩

theorem State.Loaded.trans (st : s.Loaded d t) (tu : t.Loaded d u) : s.Loaded d u where
  mem := tu.mem.trans st.mem
  cur := tu.cur.trans st.cur
  others g hg := (tu.others g (st.cur.symm ▸ hg)).trans (st.others g hg)
  hart := st.hart.trans tu.hart

/-- A change of other parts of the state. -/
theorem State.Loaded.of_parts (mem : t.mem = s.mem) (cur : t.cur = s.cur) (harts : t.harts = s.harts) :
    s.Loaded d t where
  mem := mem
  cur := cur
  others _ _ := by rw [harts]
  hart := by
    have same : t.hart = s.hart := by rw [State.hart, State.hart, State.hartOf, State.hartOf, cur, harts]
    rw [same]
    exact .refl _

theorem State.Loaded.setHart {h : Hart} (loaded : s.hart.Loaded d h) : s.Loaded d (s.setHart h) where
  mem := rfl
  cur := rfl
  others g hg := (mget_mset ..).trans (if_neg hg.symm)
  hart := by rwa [State.setHart_hart]

end

/-! ### Operations that only load -/

/-- However the operation ends, from a state without pending updates, it has only loaded. -/
structure LoadsTo {α : Type} (d : LoadDest) (op : M α) : Prop where
  ends : ∀ s : State, s.hart.deferred = [] → EndsIn (s.Loaded d) op s

section
variable {α β : Type}

theorem loadsTo_pure (a : α) : LoadsTo d (pure a : M α) := ⟨fun s _ => ends_pure (.refl s) a⟩
theorem loadsTo_throw (e : Stop) : LoadsTo d (throw e : M α) := ⟨fun s _ => ends_throw (.refl s) e⟩

/-- Operations one after another, the second with what the first has given. -/
theorem LoadsTo.bind_given {op : M α} {f : α → M β} (first : LoadsTo d op)
    (next : ∀ s a t, op s = .ok a t → LoadsTo d (f a)) : LoadsTo d (op >>= f) := by
  refine ⟨fun s empty => ?_⟩
  have ends := first.ends s empty
  unfold EndsIn at ends ⊢
  cases ran : op s with
  | error e t =>
    rw [ran] at ends
    rw [bind_error ran]
    exact ends
  | ok a t =>
    rw [ran] at ends
    rw [bind_ok ran]
    exact ends.trans ((next s a t ran).ends t (ends.hart.deferred.trans empty))

theorem LoadsTo.bind {op : M α} {f : α → M β} (first : LoadsTo d op) (next : ∀ a, LoadsTo d (f a)) :
    LoadsTo d (op >>= f) := first.bind_given fun _ a _ _ => next a

theorem LoadsTo.ite {c : Prop} [Decidable c] {x y : M α} (hx : c → LoadsTo d x) (hy : ¬ c → LoadsTo d y) :
    LoadsTo d (if c then x else y) := by
  split
  · exact hx ‹_›
  · exact hy ‹_›

theorem loadsTo_modify {f : State → State} (loads : ∀ s : State, s.Loaded d (f s)) : LoadsTo d (modify f) :=
  ⟨fun s _ => loads s⟩

theorem Peeks.loadsTo {op : M α} (peeks : Peeks op) : LoadsTo d op := by
  refine ⟨fun s _ => ?_⟩
  unfold EndsIn
  rcases peeks s with ⟨a, ok⟩ | ⟨x, err⟩
  · rw [ok]; exact .refl s
  · rw [err]; exact .refl s

theorem loadsTo_get_bind {f : State → M β} (next : ∀ s, LoadsTo d (f s)) : LoadsTo d (get >>= f) :=
  ⟨fun s empty => (next s).ends s empty⟩

theorem loadsTo_forM {f : α → M Unit} (each : ∀ a, LoadsTo d (f a)) (as : List α) : LoadsTo d (as.forM f) := by
  induction as with
  | nil => exact loadsTo_pure _
  | cons a rest ih =>
    simp only [List.forM_eq_forM, List.forM_cons] at ih ⊢
    exact (each a).bind fun _ => ih

theorem loadsTo_mapM {f : α → M β} (each : ∀ a, LoadsTo d (f a)) (as : List α) : LoadsTo d (as.mapM f) := by
  induction as with
  | nil => exact loadsTo_pure _
  | cons a rest ih =>
    rw [List.mapM_cons]
    exact (each a).bind fun _ => ih.bind fun _ => loadsTo_pure _

end

/-! ### The parts of a load -/

theorem loaded_keptByWalks (s : State) : KeptByWalks (s.Loaded d) where
  free _ _ h := h.trans (.of_parts rfl rfl rfl)
  fill _ _ _ h := h.trans (.of_parts rfl rfl rfl)

theorem locate_loads (fam : Fam) (acc : Acc) (va : Word) (n : Nat) (elem bank : Option Nat) :
    LoadsTo d (locate fam acc va n elem bank) :=
  ⟨fun s _ => locate_keeps (loaded_keptByWalks s) fam acc va n elem bank (.refl s)⟩

/-- Nothing is pending, so nothing is flushed (R333). -/
theorem flushGranule_loads (key : Nat) : LoadsTo d (flushGranule key) := by
  refine ⟨fun s empty => ?_⟩
  unfold EndsIn
  rw [flushGranule_none empty]
  exact .refl s

theorem markEarly_loads : LoadsTo d markEarly :=
  loadsTo_modify fun s => .setHart (.of_wait s.hart _ _ _ _)

theorem awaitIds_loads (ids : List Nat) {wait : M Unit} (waits : LoadsTo d wait) : LoadsTo d (awaitIds ids wait) :=
  loadsTo_get_bind fun _ => .ite (fun _ => waits) fun _ => .ite (fun _ => loadsTo_pure _) fun _ => markEarly_loads

theorem awaitOwn_loads (l : Loc) : LoadsTo d (awaitOwn l) :=
  loadsTo_get_bind fun _ => awaitIds_loads _ (loadsTo_throw _)

theorem awaitLogged_loads (l : Loc) : LoadsTo d (awaitLogged l) :=
  loadsTo_get_bind fun _ => .ite (fun _ => loadsTo_throw _) fun _ => loadsTo_pure _

theorem checkData_loads (va : Word) (key : Nat) (elem bank : Option Nat) : LoadsTo d (checkData va key elem bank) := by
  refine loadsTo_get_bind fun s => ?_
  split
  · exact loadsTo_throw _
  · exact loadsTo_pure _

theorem wantLine_loaded (line : Nat) (s : State) : s.Loaded d (wantLine line s) := by
  unfold wantLine
  split
  · exact .refl s
  · exact .of_parts rfl rfl rfl

theorem serveLine_loaded (line : Nat) (s : State) : s.Loaded d (serveLine line s) := by
  unfold serveLine stagingTouch
  split
  · exact .of_parts rfl rfl rfl
  · exact .of_parts rfl rfl rfl

theorem stagingServe_loads (key : Nat) : LoadsTo d (stagingServe key) := by
  refine ⟨fun s _ => ?_⟩
  unfold stagingServe
  refine ends_get_bind ?_
  dsimp only
  split
  · exact ends_bind (ends_set (wantLine_loaded _ s)) fun _ _ ht => ends_throw ht _
  · exact ends_bind (ends_set (.of_parts rfl rfl rfl)) fun _ _ ht => ends_pure ht _
  · exact ends_bind (ends_set (serveLine_loaded _ s)) fun _ _ ht => ends_pure ht _

theorem logAccesses_loads (log : Bool) (es : List (Nat × Nat × Word)) : LoadsTo d (logAccesses log es) := by
  refine ⟨fun s _ => ?_⟩
  unfold logAccesses
  refine ends_get_bind ?_
  dsimp only
  refine ends_ite (fun _ => ends_pure (.refl s) _) fun _ => ends_ite (fun _ => ?_) fun _ =>
    ends_set (.of_parts rfl rfl rfl)
  exact ends_bind (ends_set (.of_parts rfl rfl rfl)) fun _ _ ht => ends_throw ht _

theorem logOne_loads (l : Loc) (kind : Nat) (va : Word) (elem : Option Nat) : LoadsTo d (logOne l kind va elem) := by
  refine ⟨fun s empty => ?_⟩
  have ends := (logAccesses_loads (d := d) l.log [(kind, elem.getD 0, va)]).ends s empty
  unfold EndsIn logOne at *
  generalize logAccesses l.log [(kind, elem.getD 0, va)] s = r at *
  split <;> exact ends

theorem meter_loads (key n : Nat) : LoadsTo d (meter key n) := by
  refine ⟨fun s _ => ?_⟩
  obtain ⟨c, metered⟩ := meter_spec s key n
  unfold EndsIn
  rw [metered]
  exact .of_parts rfl rfl rfl

theorem sendItem_parts (it : Item) (s : State) : (sendItem it s).cur = s.cur ∧ (sendItem it s).harts = s.harts := by
  unfold sendItem
  dsimp only
  split
  · exact ⟨rfl, rfl⟩
  · split <;> exact ⟨rfl, rfl⟩

theorem sendItem_loaded (it : Item) (s : State) : s.Loaded d (sendItem it s) :=
  .of_parts (sendItem_mem it s) (sendItem_parts it s).1 (sendItem_parts it s).2

/-- A response that has come is taken; else the request is sent and waited for (R111). -/
theorem remoteWait_loads (va : Word) (t : EType) (op : ItemOp) (elem bank : Option Nat) :
    LoadsTo d (remoteWait va t op elem bank) := by
  refine loadsTo_get_bind fun s => ?_
  dsimp only
  rw [ifUnit_bind]
  refine LoadsTo.bind (.ite (fun _ => markEarly_loads) fun _ => loadsTo_pure _) fun _ => ?_
  refine ⟨fun u empty => ?_⟩
  unfold EndsIn
  rw [bind_ok (getHart_run u)]
  cases u.hart.resp with
  | nil =>
    refine ends_ite (fun _ => ends_throw (.refl u) _) fun _ => ends_ite (fun _ => ends_throw (.refl u) _) fun _ => ?_
    exact ends_bind (ends_modify (sendItem_loaded _ u)) fun _ _ ht => ends_throw ht _
  | cons r rest =>
    refine ends_bind (show EndsIn _ (setHart _) u from ?_) fun _ _ ht => ?_
    · exact .setHart (.of_wait u.hart _ _ _ _)
    · cases r.2 with
      | value w => exact ends_pure ht _
      | fails c => exact ends_throw ht _

theorem prepLoad_loads (p : Place) (va : Word) (elem bank : Option Nat) : LoadsTo d (prepLoad p va elem bank) := by
  cases p with
  | remote => exact loadsTo_get_bind fun _ => flushGranule_loads _
  | local_ l =>
    refine .ite (fun _ => loadsTo_pure _) fun _ => (flushGranule_loads _).bind fun _ => (awaitOwn_loads l).bind fun _ =>
      (awaitLogged_loads l).bind fun _ => .ite (fun _ => ?_) fun _ => checkData_loads ..
    refine (stagingServe_loads _).bind fun ok => ?_
    exact .ite (fun _ => (loadsTo_throw _).bind fun _ => checkData_loads ..) fun _ => checkData_loads ..

theorem hostRead_loads (n : Nat) : LoadsTo d (hostRead n : M Nat) :=
  ⟨fun s _ => ends_bind (show EndsIn _ (modifyGet _ : M Nat) s from .of_parts rfl rfl rfl) fun _ _ ht => ends_pure ht _⟩

theorem takeLoad_loads (p : Place) (va : Word) (n : Nat) (t : EType) (elem bank : Option Nat) :
    LoadsTo d (takeLoad p va n t elem bank) := by
  cases p with
  | remote => exact (remoteWait_loads ..).bind fun _ => loadsTo_pure _
  | local_ l =>
    exact .ite (fun _ => hostRead_loads n) fun _ => (meter_loads ..).bind fun _ =>
      loadsTo_get_bind fun _ => loadsTo_pure _

theorem logPlace_loads (p : Place) (kind : Nat) (va : Word) (elem : Option Nat) :
    LoadsTo d (logPlace p kind va elem) := by
  cases p with
  | remote => exact loadsTo_pure _
  | local_ l => exact logOne_loads ..

theorem loadVa_loads (fam : Fam) (kind : Nat) (va : Word) (n : Nat) (t : EType) (elem bank : Option Nat) :
    LoadsTo d (loadVa fam kind va n t elem bank) :=
  (locate_loads ..).bind fun _ => (prepLoad_loads ..).bind fun _ => (logPlace_loads ..).bind fun _ => takeLoad_loads ..

/-! ### The end of a unit that loads -/

theorem resumeDetection_parts (s : State) : (resumeDetection s).cur = s.cur ∧ (resumeDetection s).harts = s.harts := by
  unfold resumeDetection
  split <;> exact ⟨rfl, rfl⟩

/-- The end of a unit leaves every register of its hart, and of the CSRs all but those that it counts in or puts an
exception in (R25, R153). -/
structure Hart.UnitEnded (h k : Hart) : Prop where
  regs : h.sameRegs k
  scalars : k.s = h.s
  vectors : k.v = h.v
  vstart : k.csr.vstart = h.csr.vstart
  csr : h.csr.ended k.csr

theorem retire_unitEnded (n : Nat) (pc : Word) (h : Hart) : h.UnitEnded (retire n pc h) :=
  ⟨.refl _, rfl, rfl, rfl, rfl⟩

theorem takeTrap_unitEnded (x : Trap) (pc : Word) (h : Hart) : h.UnitEnded (takeTrap x false pc h) where
  regs := by simp [Hart.sameRegs]
  scalars := by simp
  vectors := by simp
  vstart := by rw [takeTrap_csr]; rfl
  csr := ended_takeTrap ..

/-- A trap after a unit that has committed (R162). -/
theorem takeTrap_retire_unitEnded (x : Trap) (n : Nat) (next pc : Word) (h : Hart) :
    h.UnitEnded (takeTrap x false pc (retire n next h)) where
  regs := by simp [Hart.sameRegs]
  scalars := by simp
  vectors := by simp
  vstart := by rw [takeTrap_csr]; rfl
  csr := by rw [takeTrap_csr]; rfl

/-- What is left when a unit that loads has ended, however it ended: its destination and the end of the unit alone have
changed registers of its hart. -/
structure State.LoadEnded (d : LoadDest) (s t : State) : Prop where
  mem : t.mem = s.mem
  others : ∀ g, g ≠ s.cur → mget t.harts g = mget s.harts g
  regs : s.hart.sameRegs t.hart
  scalars : ∀ r : SReg, ¬ d.scalar r → t.hart.s[r] = s.hart.s[r]
  vectors : ∀ r : VName, ¬ d.vector r → t.hart.v[r] = s.hart.v[r]
  csr : { s.hart.csr with vstart := t.hart.csr.vstart }.ended t.hart.csr
  vstart : ¬ d.restarts → t.hart.csr.vstart = s.hart.csr.vstart

section
variable {s t : State}

theorem State.Loaded.ended (loaded : s.Loaded d t) : s.LoadEnded d t where
  mem := loaded.mem
  others := loaded.others
  regs := loaded.hart.regs
  scalars := loaded.hart.scalars
  vectors := loaded.hart.vectors
  csr := by
    rw [← loaded.hart.csr]
    rfl
  vstart := loaded.hart.vstart

theorem State.Loaded.setHart_ended (loaded : s.Loaded d t) {h : Hart} (ended : t.hart.UnitEnded h) :
    s.LoadEnded d (t.setHart h) where
  mem := loaded.mem
  others g hg := (mget_mset ..).trans ((if_neg (loaded.cur ▸ hg.symm)).trans (loaded.others g hg))
  regs := by
    rw [State.setHart_hart]
    exact loaded.hart.regs.trans ended.regs
  scalars r hr := by rw [State.setHart_hart, ended.scalars, loaded.hart.scalars r hr]
  vectors r hr := by rw [State.setHart_hart, ended.vectors, loaded.hart.vectors r hr]
  csr := by
    rw [State.setHart_hart, ended.vstart, ← loaded.hart.csr]
    exact ended.csr
  vstart hd := by rw [State.setHart_hart, ended.vstart, loaded.hart.vstart hd]

theorem State.Loaded.traps_ended (loaded : s.Loaded d t) (x : Trap) (pc : Word) :
    s.LoadEnded d (t.setHart (takeTrap x false pc t.hart)) :=
  loaded.setHart_ended (takeTrap_unitEnded ..)

theorem State.Loaded.finish_ended (loaded : s.Loaded d t) (c : Ctl) (n : Nat) (pc : Word) :
    s.LoadEnded d (finishUnit c n pc t) := by
  obtain ⟨cur, harts⟩ := resumeDetection_parts t
  have resumed : s.Loaded d (resumeDetection t) := loaded.trans (.of_parts (resumeDetection_mem t) cur harts)
  have hart := resumeDetection_hart t
  cases c with
  | stay => exact loaded.ended
  | next | jump target => exact resumed.setHart_ended (hart ▸ retire_unitEnded ..)
  | soft x => exact resumed.setHart_ended (hart ▸ takeTrap_retire_unitEnded ..)

theorem holdUnit_loaded (i : Option Instr) (s u : State) : s.Loaded d (holdUnit i s u) := by
  unfold holdUnit
  refine List.foldlRecOn (motive := fun u : State => s.Loaded d u) _ _ ?_ fun u held j _ =>
    held.trans (sendItem_loaded _ u)
  exact State.Loaded.trans (.setHart (.of_wait s.hart _ _ _ _)) (.of_parts rfl rfl rfl)

/-- A unit whose operation only loads. -/
theorem runUnit_loadEnded {op : M Ctl} (empty : s.hart.deferred = []) (ends : EndsIn (s.Loaded d) op s)
    (ran : runUnit op s = .next t) : s.LoadEnded d t := by
  unfold EndsIn at ends
  unfold runUnit runUnitN at ran
  split at ran <;> rename_i r <;> rw [r] at ends <;> cases ran
  · exact State.Loaded.finish_ended ends ..
  · exact State.Loaded.traps_ended ends ..
  · rw [if_neg (by simp [flushed, empty])]
    exact (holdUnit_loaded _ s _).ended
  · exact (State.Loaded.trans ends (holdUnit_loaded _ _ _)).ended
  · exact (State.Loaded.trans ends (holdUnit_loaded _ _ _)).ended

end

/-! ### `ld` -/

theorem writeS_loads (r : SReg) (v : Word) (dest : r ≠ 0 → d.scalar r) : LoadsTo d (writeS r v) := by
  refine loadsTo_modify fun s => .setHart ⟨by simp [Hart.sameRegs], by simp, fun j hj => ?_, by simp, by simp, by simp⟩
  rw [Hart.writeS_get]
  exact if_neg fun (h : r = j ∧ r ≠ 0) => hj (h.1 ▸ dest h.2)

/-- What `ld` may write: s[D] (R109). -/
def scalarDestOf (r : SReg) : LoadDest := ⟨fun j => j = r ∧ r ≠ 0, fun _ => False, False⟩

theorem opLd_loads (x : SLoad) : LoadsTo (scalarDestOf x.d) (opLd x) :=
  (readS_peeks _).loadsTo.bind fun _ => (readSrc_peeks _).loadsTo.bind fun _ => (loadVa_loads ..).bind fun _ =>
    (writeS_loads (d := scalarDestOf x.d) x.d _ fun nz => ⟨rfl, nz⟩).bind fun _ => loadsTo_pure _

/-! ### The element loop -/

theorem setVstart_loaded (restarts : d.restarts) (n : Nat) (h : Hart) : h.Loaded d (h.setVstart n) :=
  ⟨.refl _, rfl, fun _ _ => rfl, fun _ _ => rfl, rfl, fun no => absurd restarts no⟩

section
variable {f : Nat → M Unit} (restarts : d.restarts)
include restarts

theorem memRest_loads (is : List Nat) (each : ∀ i ∈ is, LoadsTo d (f i)) : LoadsTo d (memRest f is) := by
  induction is with
  | nil => exact loadsTo_modify fun s => .setHart (setVstart_loaded restarts 0 _)
  | cons i rest ih =>
    refine ⟨fun s empty => ?_⟩
    have ends := (each i List.mem_cons_self).ends s empty
    have later := ih fun j hj => each j (List.mem_cons_of_mem i hj)
    unfold EndsIn at ends ⊢
    rw [memRest]
    dsimp only
    split <;> rename_i r <;> rw [r] at ends
    · exact State.Loaded.trans ends (later.ends _ (ends.hart.deferred.trans empty))
    · exact State.Loaded.trans ends (.setHart (setVstart_loaded restarts i _))
    · split
      · exact ends
      · exact (holdUnit_loaded none s _).trans (.setHart (setVstart_loaded restarts i _))

theorem memLoop_loads (is : List Nat) (each : ∀ i ∈ is, LoadsTo d (f i)) : LoadsTo d (memLoop f is) := by
  cases is with
  | nil => exact loadsTo_modify fun s => .setHart (setVstart_loaded restarts 0 _)
  | cons i rest =>
    refine ⟨fun s empty => ?_⟩
    have ends := (each i List.mem_cons_self).ends s empty
    have later := memRest_loads restarts rest fun j hj => each j (List.mem_cons_of_mem i hj)
    unfold EndsIn at ends ⊢
    rw [memLoop]
    dsimp only
    split <;> rename_i r <;> rw [r] at ends
    · exact State.Loaded.trans ends (later.ends _ (ends.hart.deferred.trans empty))
    · exact State.Loaded.trans ends (.setHart (setVstart_loaded restarts i _))
    · exact ends

end

/-! ### The elements of a vector load -/

/-- Every register but the one that holds the element is as it was (R11). -/
theorem setElem_get (r j : VName) (bits i x : Nat) (h : Hart) (other : groupReg r (bits * i / 16384) ≠ j) :
    (h.setElem r bits i x).v[j] = h.v[j] := by
  have apart : (groupReg r (bits * i / 16384)).val ≠ j.val := fun same => other (Fin.ext same)
  simp [Hart.setElem, apart]

theorem setElem_loaded (r : VName) (bits i x : Nat) (dest : d.vector (groupReg r (bits * i / 16384))) (h : Hart) :
    h.Loaded d (h.setElem r bits i x) :=
  ⟨by simp [Hart.sameRegs], by simp, by simp, fun j hj => setElem_get r j bits i x h fun same => hj (same ▸ dest),
    by simp, by simp⟩

/-! What an operation that completed in parts has given: each part completed. -/

theorem ok_of_bind {α β : Type} {op : M α} {f : α → M β} {s t : State} {b : β} (ok : (op >>= f) s = .ok b t) :
    ∃ a u, op s = .ok a u ∧ f a u = .ok b t := by
  cases ran : op s with
  | ok a u => exact ⟨a, u, rfl, (bind_ok ran).symm.trans ok⟩
  | error e u => cases (bind_error ran).symm.trans ok

theorem ok_of_mapM {α β : Type} {f : α → M β} {related : α → β → Prop}
    (each : ∀ a s b t, f a s = .ok b t → related a b) (as : List α) {s t : State} {bs : List β}
    (ok : as.mapM f s = .ok bs t) : ∀ b ∈ bs, ∃ a ∈ as, related a b := by
  induction as generalizing s bs with
  | nil =>
    cases ok
    nofun
  | cons a rest ih =>
    rw [List.mapM_cons] at ok
    obtain ⟨b, u, first, ok⟩ := ok_of_bind ok
    obtain ⟨bs, v, others, ok⟩ := ok_of_bind ok
    cases ok
    rintro c (_ | ⟨_, hc⟩)
    · exact ⟨a, List.mem_cons_self, each a s b u first⟩
    · obtain ⟨a', ha, related⟩ := ih others c hc
      exact ⟨a', List.mem_cons_of_mem a ha, related⟩

/-- The places found are those of the groups asked for. -/
theorem ok_of_locateAll {fam : Fam} {acc : Acc} {eb i : Nat} (fs : List (VName × Word)) {s t : State}
    {ps : List (VName × Word × Place)} (ok : locateAll fam acc eb i fs s = .ok ps t) :
    ∀ p ∈ ps, ∃ f ∈ fs, f.1 = p.1 := by
  induction fs generalizing s ps with
  | nil =>
    cases ok
    nofun
  | cons f rest ih =>
    rw [locateAll] at ok
    obtain ⟨q, u, -, ok⟩ := ok_of_bind ok
    obtain ⟨qs, v, others, ok⟩ := ok_of_bind ok
    cases ok
    rintro p (_ | ⟨_, hp⟩)
    · exact ⟨f, List.mem_cons_self, rfl⟩
    · obtain ⟨g, hg, same⟩ := ih others p hp
      exact ⟨g, List.mem_cons_of_mem f hg, same⟩

theorem locateAll_loads (fam : Fam) (acc : Acc) (eb i : Nat) (fs : List (VName × Word)) :
    LoadsTo d (locateAll fam acc eb i fs) := by
  induction fs with
  | nil => exact loadsTo_pure _
  | cons f rest ih => exact (locate_loads ..).bind fun _ => ih.bind fun _ => loadsTo_pure _

theorem logFields_loads (kind i : Nat) (ps : List (VName × Word × Place)) : LoadsTo d (logFields kind i ps) := by
  refine ⟨fun s empty => ?_⟩
  have ends (es : List (Nat × Nat × Word)) := (logAccesses_loads (d := d) true es).ends s empty
  unfold EndsIn logFields
  dsimp only
  split
  · rename_i err
    exact (ends _).error err
  · exact ends _

/-- An element is read whole and then written to its groups alone (R180). -/
theorem loadElem_loads (fam : Fam) (t : EType) (i : Nat) (fs : List (VName × Word))
    (dest : ∀ f ∈ fs, d.vector (groupReg f.1 (tBits t * i / 16384))) : LoadsTo d (loadElem fam t i fs) := by
  refine (locateAll_loads ..).bind_given fun s ps u located => ?_
  refine (loadsTo_forM (fun _ => prepLoad_loads ..) ps).bind fun _ => (logFields_loads ..).bind fun _ => ?_
  refine (loadsTo_mapM (fun _ => (takeLoad_loads ..).bind fun _ => loadsTo_pure _) ps).bind_given fun v vs w taken => ?_
  have names : ∀ q ∈ vs, ∃ p ∈ ps, p.1 = q.1 := ok_of_mapM (fun p v q w ok => by
    obtain ⟨x, u, -, ok⟩ := ok_of_bind ok
    cases ok
    rfl) ps taken
  refine loadsTo_modify fun s => .setHart ?_
  refine List.foldlRecOn (motive := fun g : Hart => s.hart.Loaded d g) vs _ (.refl _) fun g loaded q hq => ?_
  obtain ⟨p, hp, same⟩ := names q hq
  obtain ⟨f, hf, same'⟩ := ok_of_locateAll fs located p hp
  refine loaded.trans (setElem_loaded _ _ _ _ ?_ g)
  rw [← same, ← same']
  exact dest f hf

end

end Sys2Proof.Machine
end

section
/-! PROOFS. R4, R109, R111, R178 to R182: what stores and loads leave. -/

namespace Sys2Proof.Machine

/-! ### The vector loads -/

section
variable {d : LoadDest} {s : State}

/-- What a vector load may write: `groups` groups from v[D] on, and `vstart` (R180). -/
def groupsFrom (s : State) (r : VName) (groups : Nat) : LoadDest :=
  ⟨fun _ => False, fun j => r.val ≤ j.val ∧ j.val < r.val + groups * s.convoy.grpRegs, True⟩

/-- The registers of a group that is aligned follow one another (R11). -/
theorem aligned_room {r : VName} (placed : aligned r s.convoy.grpRegs = true) : r.val + s.convoy.grpRegs ≤ 32 := by
  have size : s.convoy.grpRegs ∣ 32 := by
    have small : s.convoy.grp.toNat < 4 := s.convoy.grp.isLt
    exact pow_dvd_pow 2 (show s.convoy.grp.toNat ≤ 5 by omega)
  have multiple : s.convoy.grpRegs ∣ r.val := Nat.dvd_of_mod_eq_zero (by simpa [aligned] using placed)
  have below := r.isLt
  exact Nat.le_of_lt_add_of_dvd (by omega) (multiple.add (dvd_refl _)) size

/-- An element below `vl` lies in its group (R28, R117). -/
theorem elem_in_group {t : EType} {i : Nat} (width : tBytes t = s.convoy.ewBytes) (vl : i < s.convoy.vlmax) :
    tBits t * i / 16384 < s.convoy.grpRegs := by
  have positive : 0 < s.convoy.ewBytes := Nat.two_pow_pos _
  have bits : tBits t = 8 * s.convoy.ewBytes := by
    rw [← width] at positive ⊢
    cases t with
    | q4 => exact absurd positive (by decide)
    | _ => rfl
  have bound : i * s.convoy.ewBytes < s.convoy.grpRegs * 2048 := by
    calc i * s.convoy.ewBytes < (i + 1) * s.convoy.ewBytes := Nat.mul_lt_mul_of_pos_right (Nat.lt_succ_self i) positive
      _ ≤ s.convoy.vlmax * s.convoy.ewBytes := Nat.mul_le_mul_right _ vl
      _ ≤ s.convoy.grpRegs * 2048 := Nat.div_mul_le_self ..
  rw [Nat.div_lt_iff_lt_mul (by decide), bits]
  calc 8 * s.convoy.ewBytes * i = 8 * (i * s.convoy.ewBytes) := by ring
    _ < s.convoy.grpRegs * 16384 := by omega

/-- The registers of `groups` groups from v[D] on, where they fit in the register file (R178). -/
theorem groupsFrom_vector {r : VName} {groups f k : Nat} (room : r.val + groups * s.convoy.grpRegs ≤ 32)
    (hf : f < groups) (hk : k < s.convoy.grpRegs) :
    (groupsFrom s r groups).vector (groupReg (groupReg r (f * s.convoy.grpRegs)) k) := by
  have last : f * s.convoy.grpRegs + s.convoy.grpRegs ≤ groups * s.convoy.grpRegs :=
    (Nat.succ_mul ..).symm.le.trans (Nat.mul_le_mul_right _ hf)
  simp only [groupsFrom, groupReg, Fin.ofNat]
  omega

theorem groupReg_zero (r : VName) : groupReg r 0 = r := Fin.ext (Nat.mod_eq_of_lt r.isLt)

/-! What stands before the elements only looks. -/

theorem peeks_raise {α : Type} (x : Trap) : Peeks (throw (.trap x) : M α) := fun _ => .inr ⟨x, rfl⟩

theorem getConvoy_peeks : Peeks getConvoy := fun s => .inl ⟨s.convoy, rfl⟩

theorem require_peeks (p : Bool) : Peeks (require p) := by
  cases p
  · exact peeks_raise _
  · exact peeks_pure _

theorem checkVec_peeks (t : EType) (rs : List VName) : Peeks (checkVec t rs) :=
  getConvoy_peeks.bind fun _ => require_peeks _

theorem checkPred_peeks (m : MName) : Peeks (checkPred m) := by
  refine getHart_peeks.bind fun _ => getHart_peeks.bind fun _ => getConvoy_peeks.bind fun _ => ?_
  split
  · exact peeks_raise _
  · exact peeks_pure _

theorem memElems_peeks (m : MName) : Peeks (memElems m) :=
  (checkPred_peeks m).bind fun _ => getConvoy_peeks.bind fun _ => getHart_peeks.bind fun _ => peeks_pure _

theorem checkIndex_peeks (x : VMemX) (load : Bool) : Peeks (checkIndex x load) := by
  refine (checkVec_peeks _ _).bind fun _ => getConvoy_peeks.bind fun _ => (require_peeks _).bind fun _ => ?_
  cases load
  · exact peeks_pure _
  · exact require_peeks _

theorem checkIx_peeks (x : VMemX) (i : Nat) : Peeks (checkIx x i) := by
  refine getHart_peeks.bind fun _ => ?_
  split
  · exact peeks_raise _
  · exact peeks_pure _

theorem Peeks.ok_same {α : Type} {op : M α} (peeks : Peeks op) {a : α} {t : State} (ok : op s = .ok a t) : t = s := by
  rcases peeks s with ⟨b, ran⟩ | ⟨x, ran⟩
  · cases ran.symm.trans ok
    rfl
  · cases ran.symm.trans ok

/-- After a look the state is the same, and what the look has given is known. -/
theorem Peeks.ends_given {α β : Type} {op : M α} {f : α → M β} (peeks : Peeks op)
    (next : ∀ a, op s = .ok a s → EndsIn (s.Loaded d) (f a) s) : EndsIn (s.Loaded d) (op >>= f) s := by
  rcases peeks s with ⟨a, ok⟩ | ⟨x, err⟩
  · unfold EndsIn
    rw [bind_ok ok]
    exact next a ok
  · unfold EndsIn
    rw [bind_error err]
    exact .refl s

theorem ok_of_require {p : Bool} {t : State} (ok : require p s = .ok () t) : p = true := by
  cases p
  · cases ok
  · rfl

theorem ok_of_checkVec {t : EType} {r : VName} {u : State} (ok : checkVec t [r] s = .ok () u) :
    tBytes t = s.convoy.ewBytes ∧ aligned r s.convoy.grpRegs = true := by
  have checked := ok_of_require ((bind_ok (getConvoy_run s)).symm.trans ok)
  simpa using checked

theorem ok_of_checkIndex {x : VMemX} {load : Bool} {u : State} (ok : checkIndex x load s = .ok () u) :
    tBytes x.t = s.convoy.ewBytes ∧ aligned x.v s.convoy.grpRegs = true := by
  obtain ⟨_, v, checked, -⟩ := ok_of_bind ok
  exact ok_of_checkVec checked

/-- The elements are those below `vl` (R119). -/
theorem ok_of_memElems {m : MName} {is : List Nat} {u : State} (ok : memElems m s = .ok is u) :
    ∀ i ∈ is, i < s.hart.csr.vl := by
  obtain ⟨_, v, looked, rest⟩ := ok_of_bind ok
  obtain rfl := (checkPred_peeks m).ok_same looked
  cases rest
  intro i hi
  have range := List.mem_range'_1.1 (List.mem_filter.1 hi).1
  omega

theorem loadElem_one {t : EType} {r : VName} (width : tBytes t = s.convoy.ewBytes)
    (placed : aligned r s.convoy.grpRegs = true) (fam : Fam) (va : Word) (i : Nat) (hi : i < s.convoy.vlmax) :
    LoadsTo (groupsFrom s r 1) (loadElem fam t i [(r, va)]) := by
  refine loadElem_loads fam t i _ fun f hf => ?_
  obtain rfl := List.mem_singleton.1 hf
  have own := groupsFrom_vector (f := 0) (by simpa using aligned_room placed) Nat.one_pos (elem_in_group width hi)
  rwa [Nat.zero_mul, groupReg_zero] at own

section
variable (empty : s.hart.deferred = []) (vl : s.hart.csr.vl ≤ s.convoy.vlmax)
include empty vl

/-- The loop of a vector load, each element of which has its place in the destination (R119). -/
theorem vectorLoad_ends {f : Nat → M Unit} {m : MName} (restarts : d.restarts)
    (each : ∀ i < s.convoy.vlmax, LoadsTo d (f i)) :
    EndsIn (s.Loaded d) (do memLoop f (← memElems m); pure Ctl.next : M Ctl) s := by
  refine (memElems_peeks m).ends_given fun is ok => ?_
  have loop := memLoop_loads restarts is fun i hi => each i ((ok_of_memElems ok i hi).trans_le vl)
  exact (loop.bind fun _ => loadsTo_pure Ctl.next).ends s empty

theorem opVld_ends (x : VMem) : EndsIn (s.Loaded (groupsFrom s x.v 1)) (opVld x) s := by
  unfold EndsIn opVld
  rw [flushBefore_empty empty]
  refine (checkVec_peeks _ _).ends_given fun _ ok => (readS_peeks _).ends_given fun _ _ => ?_
  obtain ⟨width, placed⟩ := ok_of_checkVec ok
  exact vectorLoad_ends empty vl trivial fun i hi => loadElem_one width placed _ _ i hi

theorem opVlds_ends (x : VMemS) : EndsIn (s.Loaded (groupsFrom s x.v 1)) (opVlds x) s := by
  unfold EndsIn opVlds
  rw [flushBefore_empty empty]
  refine (checkVec_peeks _ _).ends_given fun _ ok => (readS_peeks _).ends_given fun _ _ =>
    (readS_peeks _).ends_given fun _ _ => ?_
  obtain ⟨width, placed⟩ := ok_of_checkVec ok
  exact vectorLoad_ends empty vl trivial fun i hi => loadElem_one width placed _ _ i hi

theorem opVldg_ends (x : VMemG) : EndsIn (s.Loaded (groupsFrom s x.v (x.nf1.toNat + 1))) (opVldg x) s := by
  unfold EndsIn opVldg
  rw [flushBefore_empty empty]
  refine (checkVec_peeks _ _).ends_given fun _ ok => getConvoy_peeks.ends_given fun c convoy =>
    (require_peeks _).ends_given fun _ fits => (readS_peeks _).ends_given fun _ _ => ?_
  cases convoy
  obtain ⟨width, -⟩ := ok_of_checkVec ok
  have room : x.v.val + (x.nf1.toNat + 1) * s.convoy.grpRegs ≤ 32 := by simpa [segFits] using ok_of_require fits
  refine vectorLoad_ends empty vl trivial fun i hi => loadElem_loads _ _ _ _ fun q hq => ?_
  obtain ⟨f, hf, rfl⟩ := List.mem_map.1 hq
  exact groupsFrom_vector room (List.mem_range.1 hf) (elem_in_group width hi)

theorem opVldx_ends (x : VMemX) : EndsIn (s.Loaded (groupsFrom s x.v 1)) (opVldx x) s := by
  unfold EndsIn opVldx
  rw [flushBefore_empty empty]
  refine (checkIndex_peeks _ _).ends_given fun _ ok => (readS_peeks _).ends_given fun _ _ => ?_
  obtain ⟨width, placed⟩ := ok_of_checkIndex ok
  exact vectorLoad_ends empty vl trivial fun i hi => (checkIx_peeks x i).loadsTo.bind fun _ =>
    getHart_peeks.loadsTo.bind fun _ => loadElem_one width placed _ _ i hi

end

/-! ### What `st` leaves -/

/-- The bytes of a value's low part are those of the value (R4). -/
theorem byte_of_low {w c i : Nat} (within : 8 * (i + 1) ≤ w) :
    BitVec.ofNat 8 (c % 2 ^ w / 256 ^ i) = BitVec.ofNat 8 (c / 256 ^ i) := by
  have base : (256 : Nat) ^ i = 2 ^ (8 * i) := (pow_mul 2 8 i).symm
  apply BitVec.eq_of_toNat_eq
  rw [BitVec.toNat_ofNat, BitVec.toNat_ofNat, base]
  apply Nat.eq_of_testBit_eq
  intro j
  simp only [Nat.testBit_mod_two_pow, Nat.testBit_div_two_pow]
  by_cases byte : j < 8
  · have low : j + 8 * i < w := by omega
    simp [byte, low]
  · simp [byte]

theorem tBytes_le_tBits (t : EType) : 8 * tBytes t ≤ tBits t := by
  cases t <;> decide

section
variable {s t : State} {l : Loc}

theorem commits_hart (s t : State) : (s.commits t).hart = retire 1 (nextSlot s.hart.pc) t.hart := by
  simp [State.commits, finishUnit]

/-- What a committed store of an ordinary word leaves of the hart. -/
theorem stored_unitEnded (walked : s.walkedTo t) (k n v m : Nat) :
    s.hart.UnitEnded (s.commits (pokeN k n v (t.after (meter k m)))).hart := by
  obtain ⟨a, hart⟩ := pokeN_hart k n v (t.after (meter k m))
  rw [commits_hart, hart, after_meter_hart, walked.hart]
  exact ⟨⟨rfl, rfl, rfl, rfl, rfl, rfl⟩, rfl, rfl, rfl, rfl⟩

theorem stored_mem (walked : s.walkedTo t) (k n v m : Nat) :
    (s.commits (pokeN k n v (t.after (meter k m)))).mem = memWriteBytes s.mem k (toBytes n v) := by
  rw [State.commits, finishUnit_mem, pokeN, pokeBytes_mem, after_meter_mem, walked.mem]

end

end

/-- Settles O8: a store that finds its word writes it and ends; and each part of a load, wherever it stops, changes only
its destination, what a wait needs, and what the end of a unit changes. -/
theorem accessFrames : Obligations.AccessFrames := by
  refine ⟨fun s t u l x ha hb hc found ran idle linked => ?st, fun s t empty => ⟨fun x ran => ?ld, fun vl => ?vector⟩⟩
  case st =>
    have walked := finds_walked found
    obtain rfl := Host.Outcome.next.inj ((runUnit_next (opSt_run ha hb hc found linked idle)).symm.trans ran)
    have ended := stored_unitEnded walked l.key (tBytes x.t) ((s.reg x.c).toNat % 2 ^ tBits x.t) (tBytes x.t)
    obtain ⟨-, inside, outside⟩ := littleEndianMemory s.mem l.key (tBytes x.t) ((s.reg x.c).toNat % 2 ^ tBits x.t)
    rw [stored_mem walked]
    refine ⟨fun i hi => (inside i hi).trans (byte_of_low ?_), outside, ended.regs, ended.scalars, ended.vectors,
      ended.csr⟩
    have bits := tBytes_le_tBits x.t
    omega
  case ld =>
    have ended := runUnit_loadEnded empty ((opLd_loads x).ends s empty) ran
    have csr := ended.csr
    rw [ended.vstart id] at csr
    refine ⟨ended.mem, ended.others, ended.regs, fun r hr => ended.scalars r ?_,
      Vector.ext fun i hi => ended.vectors ⟨i, hi⟩ id, csr⟩
    rintro ⟨rfl, nz⟩
    exact hr.elim (fun ne => ne rfl) nz
  case vector =>
    intro keeps
    have frame {i : Instr} {op : M Ctl} {v : VName} {groups : Nat} (unit : exec i s = runUnit op s)
        (ends : EndsIn (s.Loaded (groupsFrom s v groups)) op s) : keeps i v groups := by
      intro ran
      have ended := runUnit_loadEnded empty ends (unit.symm.trans ran)
      refine ⟨ended.mem, ended.others, ended.regs, Vector.ext fun i hi => ended.scalars ⟨i, hi⟩ id,
        fun r hr => ended.vectors r ?_, ended.csr⟩
      rintro ⟨low, high⟩
      omega
    exact ⟨fun x => frame rfl (opVld_ends empty vl x), fun x => frame rfl (opVlds_ends empty vl x),
      fun x => frame rfl (opVldg_ends empty vl x), fun x => frame rfl (opVldx_ends empty vl x)⟩

end Sys2Proof.Machine
end

section
/-! PROOFS. R187, R198, R200: an `ald` over a region of more than 1,024 elements. -/

namespace Sys2Proof.Machine

/-! ### The elements that the model leaves out -/

/-- The model takes 1,024 for the most elements that a region can have, so from there on an `ald` has none to perform;
the index of R198 goes on to 16,383. -/
theorem opAld_past_1024 {s : State} {x : ALoad} {r : AccReg} (clean : s.clean) (bound : s.hart.acc[x.d] = some r)
    (pair : aldPair r.int x.mw = true) (settled : (s.hart.mma.any fun q => q.i.d == x.d) = false)
    (empty : s.hart.deferred = []) (past : 1024 ≤ s.hart.csr.vstart.toNat) : opAld x s = .ok .next s.restart := by
  have none_left : span s.hart.csr.vstart.toNat (min 1024 (r.rows * r.cols)) = [] := by
    have : min 1024 (r.rows * r.cols) - s.hart.csr.vstart.toNat = 0 := by omega
    rw [span, this, List.range'_zero]
  refine flushBefore_ok empty ?_
  rw [bind_ok (boundAcc_ok bound), bind_ok (require_ok pair s), bind_ok (settleAcc_ok settled),
    bind_ok (readS_ok (clean.canRead _)), bind_ok (readS_ok (clean.canRead _)), bind_ok (getHart_run s), none_left]
  rfl

/-- What a hart's accumulators hold does not change as its unit commits. -/
theorem commits_restart_acc (s t : State) : (s.commits t.restart).hart.acc = t.hart.acc := by
  rw [commits_hart, retire_acc, State.restart, State.setHart_hart, Hart.setVstart_acc]

/-! ### A region of 1,025 elements -/

/-- acc0 bound to a region of 41 rows and 25 columns, whose last element, number 1,024, is 1. -/
def acc1025 : AccReg := ⟨0, 41, 25, false, accSet 0 (accPos 40 24) 1⟩

/-- An `ald` of such a region stands at its last element: the matrix is in slot 0 of the tile store, which is ready and
holds zeros. -/
def ald1025 : State :=
  let s := State.reset.setHart { Hart.reset with
    s := Hart.reset.s.set 1 0xC000000000000000, csr := { Csrs.reset with vstart := 1024 }
    acc := Hart.reset.acc.set 0 (some acc1025) }
  s.setCore (s.core.setTile 0 ⟨0, some 0, .ready, false, false⟩)

/-- `ald.f32 acc0, s1, s0`. -/
def aldForm : ALoad := ⟨0, 1, 0, .f32, 1, 0, false⟩

/-- What R200 asks of it: the zero of the last element is read and written. -/
def ald1025Loaded : State :=
  ald1025.setHart ((ald1025.hart.setAcc 0 [(accPos 40 24, 0)]).addFlags 0)

theorem ald1025_bound : ald1025.hart.acc[(0 : AName)] = some acc1025 := by decide +kernel

theorem ald1025_reads : ald1025.readsAcc .f32 0xC000000000000060 0 ald1025 := by
  have slot : tileNum 0xC000000000000060 = some 0 := by decide
  simp only [State.readsAcc, slot]
  decide +kernel

theorem ald1025_data : accGet acc1025.data (accPos 40 24) = 1 := accGet_accSet_same 0 1 (by decide)

/-- The last element is loaded. -/
theorem ald1025Loaded_data : ∃ r, ald1025Loaded.hart.acc[(0 : AName)] = some r ∧ accGet r.data (accPos 40 24) = 0 := by
  have clean : ald1025.hart.poison = [] := rfl
  refine ⟨{ acc1025 with data := accSet acc1025.data (accPos 40 24) 0 }, ?_, accGet_accSet_same _ 0 (by decide)⟩
  rw [ald1025Loaded, State.setHart_hart, Hart.addFlags_acc, setAcc_clean clean ald1025_bound]
  exact Vector.getElem_set_self _

/-- Refutes O23: element 1,024 of a region of 41 by 25 is never loaded, since the model's `ald` stops before it. -/
theorem not_accumulatorResults : ¬ Obligations.AccumulatorResults := by
  rintro ⟨-, moves⟩
  have clean : ald1025.clean := rfl
  have elements : span ald1025.hart.csr.vstart.toNat (acc1025.rows * acc1025.cols) = [1024] := by decide +kernel
  have loaded := (moves ald1025 ald1025Loaded clean).1 aldForm acc1025 ald1025_bound rfl rfl rfl
    (by rw [elements]; exact .cons _ _ _ _ _ ⟨0, ald1025, ald1025_reads, rfl⟩ (.nil _))
  have skipped : exec (.ald aldForm) ald1025 = .next (ald1025.commits ald1025.restart) :=
    runUnit_next (opAld_past_1024 (x := aldForm) clean ald1025_bound rfl rfl rfl (by decide +kernel))
  have same := congrArg (fun s : State => s.hart.acc) (Host.Outcome.next.inj (skipped.symm.trans loaded))
  simp only [commits_restart_acc] at same
  obtain ⟨r, bound, zero⟩ := ald1025Loaded_data
  obtain rfl := Option.some.inj (ald1025_bound.symm.trans ((congrArg (·[(0 : AName)]) same).trans bound))
  exact absurd (ald1025_data.symm.trans zero) (by decide)

end Sys2Proof.Machine
end

section
/-! PROOFS. R16, R203 to R213, R217, R219: the tile store, its slots and how a transfer is accepted. -/

namespace Sys2Proof.Machine

section
variable {s : State}

/-! ### Conditions in an operation -/

/-- One of two operations that both go on alike. -/
theorem ite_bind_ok {α β : Type} {c : Prop} [Decidable c] {x y : M α} {f : α → M β} {t : State} {v : α}
    (ok : (if c then x else y) s = .ok v t) : (if c then x >>= f else y >>= f) s = f v t := by
  by_cases h : c <;> simp only [h, if_true, if_false] at ok ⊢ <;> exact bind_ok ok

/-! ### Slots -/

/-- A slot that may be named is found (R205). -/
theorem slotCheck_ok {v : Word} {foreign : Bool} (number : v.toNat ≤ 255)
    (shown : (s.core.tile v.toNat).hidden = false)
    (own : foreign = true ∨ (s.core.tile v.toNat).owner = none ∨ (s.core.tile v.toNat).owner = some s.hart.convoy) :
    slotCheck v foreign s = .ok (s.core.tile v.toNat) s := by
  unfold slotCheck
  have mine : (!foreign && (s.core.tile v.toNat).owner.isSome
      && (s.core.tile v.toNat).owner != some s.hart.convoy) = false := by
    rcases own with h | h | h <;> simp [h]
  rw [bind_ok (get_run s)]
  simp only [Nat.not_lt.mpr number, if_false, shown, mine, Bool.or_self, Bool.false_eq_true, pure_run]

/-- A slot of the convoy's own that is ready, or whose fill is read by chunk, is not waited for (R206, R217). -/
theorem slotReady_ok {n : Nat} {byChunk : Bool} {elem : Option Nat} (shown : (s.core.tile n).hidden = false)
    (own : (s.core.tile n).owner = some s.hart.convoy)
    (ready : (s.core.tile n).state = .ready ∨ (s.core.tile n).state = .filling ∧ byChunk = true) :
    slotReady n byChunk elem s = .ok () s := by
  unfold slotReady
  rw [bind_ok (get_run s)]
  rcases ready with h | ⟨h, rfl⟩ <;> simp [shown, own, h]

theorem tagSlot_run (n : Nat) (tag : BitVec 48) : tagSlot n tag s = .ok () (s.setCore (s.core.setTile n
    { s.core.tile n with owner := some s.hart.convoy, tag := tag })) := rfl

theorem setTileState_run (n : Nat) (st : TileState) : setTileState n st s = .ok ()
    (s.setCore (s.core.setTile n { s.core.tile n with state := st })) := rfl

@[simp] theorem setCore_hart (c : Core) : (s.setCore c).hart = s.hart := rfl
@[simp] theorem setHart_core (h : Hart) : (s.setHart h).core = s.core := rfl

/-! ### The tile instructions (R208, R211) -/

theorem opTlook_run {x : S2} (a : s.canRead x.a = true) : opTlook x s = .ok .next (s.setHart (s.hart.writeS x.d
    (match (List.range 256).find? fun n => !(s.core.tile n).hidden && (s.core.tile n).owner == some s.hart.convoy
        && (s.core.tile n).tag == (s.reg x.a).truncate 48 with
      | some n => BitVec.ofNat 64 n
      | none => BitVec.allOnes 64))) := by
  unfold opTlook
  rw [bind_ok (readS_ok a)]
  rfl

theorem opTstat_run {x : S2} (a : s.canRead x.a = true) (number : (s.reg x.a).toNat ≤ 255)
    (shown : (s.core.tile (s.reg x.a).toNat).hidden = false) : opTstat x s =
      .ok .next (s.setHart (s.hart.writeS x.d ((s.core.tile (s.reg x.a).toNat).word s.hart.convoy))) := by
  unfold opTstat
  rw [bind_ok (readS_ok a), bind_ok (slotCheck_ok number shown (.inl rfl))]
  rfl

theorem opTwait_run {x : S2} (a : s.canRead x.a = true) (number : (s.reg x.a).toNat ≤ 255)
    (shown : (s.core.tile (s.reg x.a).toNat).hidden = false)
    (idle : (s.core.tile (s.reg x.a).toNat).owner = some s.hart.convoy → (s.core.tile (s.reg x.a).toNat).busy = false) :
    opTwait x s =
      .ok .next (s.setHart (s.hart.writeS x.d ((s.core.tile (s.reg x.a).toNat).word s.hart.convoy))) := by
  have free : ((s.core.tile (s.reg x.a).toNat).owner == some s.hart.convoy && (s.core.tile (s.reg x.a).toNat).busy)
      = false := by
    rw [Bool.and_eq_false_imp, beq_iff_eq]
    exact idle
  unfold opTwait
  simp only [bind_ok (readS_ok a), bind_ok (slotCheck_ok number shown (.inl rfl)), bind_ok (getHart_run s), free,
    Bool.false_eq_true, if_false, bind_ok (writeS_run _ _ _), pure_run]

/-- An empty slot without an owner, which `ttag` of all ones claims (R208). -/
abbrev State.openSlot (s : State) (n : Nat) : Bool :=
  !(s.core.tile n).hidden && (s.core.tile n).owner.isNone && (s.core.tile n).state == .empty

section
variable {x : S3} (a : s.canRead x.a = true) (b : s.canRead x.b = true) (any : s.reg x.a = BitVec.allOnes 64)
include a b any

/-- `ttag` of all ones claims the first open slot (R208). -/
theorem opTtag_found {n : Nat} (found : (List.range 256).find? s.openSlot = some n) :
    opTtag x s = .ok .next ((s.setCore (s.core.setTile n { s.core.tile n with
      owner := some s.hart.convoy, tag := (s.reg x.b).truncate 48 })).setHart
        (s.hart.writeS x.d (BitVec.ofNat 64 n))) := by
  unfold opTtag
  rw [bind_ok (readS_ok a), bind_ok (readS_ok b), bind_ok (get_run s), if_pos any, found]
  rfl

theorem opTtag_full (full : (List.range 256).find? s.openSlot = none) :
    opTtag x s = .ok .next (s.setHart (s.hart.writeS x.d (BitVec.allOnes 64))) := by
  unfold opTtag
  rw [bind_ok (readS_ok a), bind_ok (readS_ok b), bind_ok (get_run s), if_pos any, full]
  rfl

end

theorem opTtag_slot {x : S3} (a : s.canRead x.a = true) (b : s.canRead x.b = true) (one : s.reg x.a ≠ BitVec.allOnes 64)
    (number : (s.reg x.a).toNat ≤ 255) (shown : (s.core.tile (s.reg x.a).toNat).hidden = false)
    (own : (s.core.tile (s.reg x.a).toNat).owner = none ∨ (s.core.tile (s.reg x.a).toNat).owner = some s.hart.convoy)
    (idle : (s.core.tile (s.reg x.a).toNat).busy = false) :
    opTtag x s = .ok .next ((s.setCore (s.core.setTile (s.reg x.a).toNat { s.core.tile (s.reg x.a).toNat with
        owner := some s.hart.convoy, tag := (s.reg x.b).truncate 48 })).setHart (s.hart.writeS x.d (s.reg x.a))) := by
  unfold opTtag
  simp only [bind_ok (readS_ok a), bind_ok (readS_ok b), bind_ok (get_run s), if_neg one,
    bind_ok (slotCheck_ok number shown (.inr own)), idle, Bool.false_eq_true, if_false, bind_ok (tagSlot_run _ _),
    bind_ok (writeS_run _ _ _), pure_run]
  rfl

theorem opTrel_run {a : SReg} (read : s.canRead a = true) (number : (s.reg a).toNat ≤ 255)
    (shown : (s.core.tile (s.reg a).toNat).hidden = false)
    (own : (s.core.tile (s.reg a).toNat).owner = some s.hart.convoy) (idle : (s.core.tile (s.reg a).toNat).busy = false) :
    opTrel a s = .ok .next (freeSlot s.coreId (s.reg a).toNat s) := by
  unfold opTrel
  simp only [bind_ok (readS_ok read), bind_ok (slotCheck_ok number shown (.inr (.inr own))), own, Option.isNone_some, idle,
    Bool.false_eq_true, if_false, bind_ok (modify_run _ s), pure_run]

/-! ### Accepting a transfer (R16, R219) -/

theorem engineRoom_ok {m : MName} (free : s.unbound m) (room : s.core.transfers.length < 32) :
    engineRoom m s = .ok () s := by
  unfold engineRoom
  rw [bind_ok (stallBound_free free), bind_ok (getCore_run s), if_neg (by simpa [engineQueue] using room), pure_run]

/-- Nothing of the hart within the package is left to perform (R284). -/
theorem releasePackage_ok (performed : s.performed) : releasePackage s = .ok () s := by
  unfold releasePackage
  rw [bind_ok (get_run s), bind_ok (flushWhere_none performed.1 _)]
  exact awaitFlags_none fun i mem => by simp [performed.2 i mem]

/-- Writing a mask and then binding it leaves the bound mask. -/
theorem bind_written_mask (m : MName) (x : MaskReg) (id : Nat) (p : RegSite → Bool) (h : Hart) :
    (let g := clearPoison p { h with m := h.m.set m x }
     { g with m := g.m.set m { g.m[m] with bound := some id } }) =
      clearPoison p { h with m := h.m.set m { x with bound := some id } } := by
  unfold clearPoison
  dsimp only
  split <;> simp

/-- A transfer of which no mask is m0 leaves the hart: its mask is bound, and the engine holds it. -/
theorem startTransfer_run {t : Transfer} (mask : t.mask ≠ some 0) : startTransfer t s = .ok () (s.started t) := by
  unfold startTransfer State.started
  cases named : t.mask with
  | none => rfl
  | some m =>
    have other : m ≠ 0 := fun h => mask (by rw [named, h])
    simp only [writeMaskAll, if_neg other]
    rw [bind_ok (modHart_run _ s), bind_ok (modHart_run _ _), modCore_run, State.setHart_hart, State.setHart_setHart,
      bind_written_mask]
    rfl

theorem mask_ne_zero (m : MName) : (if m = 0 then none else some m : Option MName) ≠ some 0 := by
  split
  · simp
  · simpa


/-! ### Elements of a tile access (R212, R217) -/

/-- Elements that are performed one after another, each by a function of the state and with a property of its own. -/
theorem each_foldl {α : Type} {P : α → Prop} (g : State → α → State) (is : List α) (all : ∀ i ∈ is, P i) (s : State) :
    State.Each (fun i u v => P i ∧ v = g u i) is s (is.foldl g s) := by
  induction is generalizing s with
  | nil => exact .nil s
  | cons i is ih =>
    exact .cons i is s (g s i) _ ⟨all i (by simp), rfl⟩ (ih (fun j mem => all j (by simp [mem])) _)

/-- Changes of the current hart alone, one after another. -/
theorem foldl_setHart {α : Type} (f : Hart → α → Hart) (is : List α) (s : State) :
    (is.foldl (fun u i => u.setHart (f u.hart i)) s).hart = is.foldl f s.hart
      ∧ ∀ k, (is.foldl (fun u i => u.setHart (f u.hart i)) s).setHart k = s.setHart k := by
  induction is generalizing s with
  | nil => exact ⟨rfl, fun _ => rfl⟩
  | cons i is ih =>
    obtain ⟨hart, back⟩ := ih (s.setHart (f s.hart i))
    rw [State.setHart_hart] at hart
    exact ⟨hart, fun k => (back k).trans (State.setHart_setHart _ _ _)⟩

theorem tileElem_ok {n : Nat} {va : Word} {eb e : Nat} (aligned : va.toNat % eb = 0) (within : tileNum va = some n) :
    tileElem (some n) va eb e s = .ok () s := by
  unfold tileElem
  simp [aligned, within]

theorem tileLoad_ok (sound : s.core.tilePoison = []) (va : Word) (n e : Nat) :
    tileLoad va n e s = .ok (memReadN s.mem (tileKeyOf s.coreId va) n) s := by
  unfold tileLoad
  rw [bind_ok (get_run s)]
  simp [tileBad, sound]

/-- Without poison the chunk bits of a mask choose the elements (R217). -/
theorem chunkElems_clean (clean : s.clean) (m : MName) (ea : Nat → Word) : chunkElems m ea s =
    .ok ((elemRange s.hart).filter fun i => s.hart.m[m].bits.getLsbD ((ea i).toNat % 8192 / 512)) s := by
  unfold chunkElems
  rw [bind_ok (getHart_run s)]
  have sound : (elemRange s.hart).find? (fun i => s.hart.poison.any fun x =>
      x == .maskBits m ((ea i).toNat % 8192 / 512 / 32)) = none := by
    simp [show s.hart.poison = [] from clean]
  simp only [sound, pure_run]

theorem tileIssue_ok {m : MName} {base : Word} {n : Nat} (slot : tileNum base = some n)
    (shown : (s.core.tile n).hidden = false) (own : (s.core.tile n).owner = some s.hart.convoy)
    (ready : (s.core.tile n).state = .ready ∨ (s.core.tile n).state = .filling ∧ boundFill s m n = true) :
    tileIssue m base s = .ok (boundFill s m n) s := by
  unfold tileIssue
  simp only [slot]
  rw [bind_ok (get_run s), bind_ok (slotReady_ok shown own ready), pure_run]

section
variable {x : VMem} {n : Nat}

/-- Element `i` of a tile access. -/
abbrev tileEa (s : State) (x : VMem) (i : Nat) : Word := unitEa (s.reg x.a + simm x.off) (tBytes x.t) i

/-- The element is aligned and lies in the slot (R212). -/
def tileWithin (s : State) (x : VMem) (n i : Nat) : Prop :=
  (tileEa s x i).toNat % tBytes x.t = 0 ∧ tileNum (tileEa s x i) = some n

/-- The elements that a `vldt` performs: those of the loaded chunks, or the active ones (R217). -/
def tileElems (s : State) (x : VMem) (n : Nat) : List Nat :=
  if boundFill s x.m n then (elemRange s.hart).filter fun i => s.hart.m[x.m].bits.getLsbD ((tileEa s x i).toNat % 8192 / 512)
  else s.active x.m

theorem tileElems_run (clean : s.clean) :
    (if boundFill s x.m n then chunkElems x.m (tileEa s x) else memElems x.m : M (List Nat)) s =
      .ok (tileElems s x n) s := by
  unfold tileElems
  split
  · exact chunkElems_clean clean _ _
  · exact memElems_clean clean _

/-- The hart after element `i` of a `vldt`. -/
def tileLoaded (s : State) (x : VMem) (h : Hart) (i : Nat) : Hart :=
  h.setElem x.v (tBits x.t) i (memReadN s.mem (tileKeyOf s.coreId (tileEa s x i)) (tBytes x.t))

/-- `vldt` loads its elements from the slot (R212, R217). -/
theorem opVldt_run (fits : s.fits x.t [x.v]) (slot : tileNum (s.reg x.a + simm x.off) = some n)
    (shown : (s.core.tile n).hidden = false) (own : (s.core.tile n).owner = some s.hart.convoy)
    (ready : (s.core.tile n).state = .ready ∨ (s.core.tile n).state = .filling ∧ boundFill s x.m n = true)
    (within : ∀ i ∈ tileElems s x n, tileWithin s x n i) (sound : s.core.tilePoison = []) :
    opVldt x s = .ok .next (s.setHart (((tileElems s x n).foldl (tileLoaded s x) s.hart).setVstart 0)) := by
  obtain ⟨hart, back⟩ := foldl_setHart (tileLoaded s x) (tileElems s x n) s
  unfold opVldt
  rw [bind_ok (checkVec_ok fits), bind_ok (readS_ok (fits.clean.canRead _)),
    bind_ok (tileIssue_ok slot shown own ready)]
  refine (ite_bind_ok (tileElems_run fits.clean)).trans ?_
  refine (bind_ok (memLoop_each (inv := fun u => u.core = s.core ∧ u.coreId = s.coreId ∧ u.mem = s.mem)
    (fun i u v step same => ?_)
    (each_foldl (fun u i => u.setHart (tileLoaded s x u.hart i)) _ within s) ⟨rfl, rfl, rfl⟩).1).trans ?_
  · obtain ⟨⟨aligned, inside⟩, rfl⟩ := step
    obtain ⟨core, coreId, mem⟩ := same
    rw [slot, bind_ok (tileElem_ok aligned inside), bind_ok (tileLoad_ok (by rw [core, sound]) _ _ _), mem, coreId]
    exact ⟨rfl, core, coreId, mem⟩
  · rw [pure_run, State.restart, hart, back]

/-- `vstt` stores its active elements to the slot (R212). -/
theorem opVstt_run (fits : s.fits x.t [x.v]) (slot : tileNum (s.reg x.a + simm x.off) = some n) (ready : s.tileReady n)
    (within : ∀ i ∈ s.active x.m, tileWithin s x n i) :
    opVstt x s = .ok .next ((s.active x.m).foldl (fun t i => tilePoke s.coreId ((tileEa s x i).toNat % 2 ^ 21)
        (toBytes (tBytes x.t) (s.hart.elem x.v (tBits x.t) i)) t) s).restart := by
  obtain ⟨shown, own, state⟩ := ready
  unfold opVstt
  rw [bind_ok (checkVec_ok fits), bind_ok (readS_ok (fits.clean.canRead _)),
    bind_ok (tileIssue_ok slot shown own (.inl state)), bind_ok (memElems_clean fits.clean _)]
  refine (bind_ok (memLoop_each (inv := fun u => u.hart = s.hart ∧ u.coreId = s.coreId)
    (fun i u v step same => ?_) (each_foldl _ (s.active x.m) within s) ⟨rfl, rfl⟩).1).trans (pure_run _ _)
  obtain ⟨⟨aligned, inside⟩, rfl⟩ := step
  obtain ⟨hart, coreId⟩ := same
  simp only [slot, bind_ok (getHart_run u), hart, elemPoisoned_clean fits.clean, Bool.false_eq_true, if_false,
    bind_ok (tileElem_ok aligned inside), tileStore, modify_run, coreId]
  exact ⟨trivial, hart, coreId⟩

end

/-! ### Fills and drains (R209, R219) -/

/-- The slot, the length and the address pass the checks of R205 and R209. -/
theorem tileMoveCheck_ok {slot len va : Word} (number : slot.toNat ≤ 255) (shown : (s.core.tile slot.toNat).hidden = false)
    (own : (s.core.tile slot.toNat).owner = some s.hart.convoy) (some_ : 0 < len.toNat) (most : len.toNat ≤ 8192)
    (outside : (tileNum va).isSome = false) : tileMoveCheck slot len va s = .ok (s.core.tile slot.toNat) s := by
  unfold tileMoveCheck
  have length : ¬(len.toNat = 0 ∨ len.toNat > 8192) := by omega
  simp only [bind_ok (slotCheck_ok number shown (.inr (.inr own))), length, outside, Bool.false_eq_true, if_false, pure_run]

section
variable {k : KName} {a b c : SReg} (readA : s.canRead a = true) (readB : s.canRead b = true) (readC : s.canRead c = true)
  (number : (s.reg a).toNat ≤ 255) (shown : (s.core.tile (s.reg a).toNat).hidden = false)
  (own : (s.core.tile (s.reg a).toNat).owner = some s.hart.convoy) (idle : (s.core.tile (s.reg a).toNat).busy = false)
  (some_ : 0 < (s.reg c).toNat) (most : (s.reg c).toNat ≤ 8192) (outside : (tileNum (s.reg b)).isSome = false)
  (room : s.core.transfers.length < 32) (performed : s.performed)
include readA readB readC number shown own idle some_ most outside room performed

theorem opTfill_run {m : MName} (free : s.unbound m) : opTfill ⟨k, a, b, c, m⟩ s = .ok .next
    (let u := s.started { hartTransfer s .tfill k m with
      dst := (3#64 <<< 62) + s.reg a * 8192, src := s.reg b, total := (s.reg c).toNat, row := (s.reg c).toNat
      slot := (s.reg a).toNat }
     u.setCore (u.core.setTile (s.reg a).toNat { u.core.tile (s.reg a).toNat with state := .filling })) := by
  unfold opTfill
  simp only [bind_ok (readS_ok readA), bind_ok (readS_ok readB), bind_ok (readS_ok readC),
    bind_ok (tileMoveCheck_ok number shown own some_ most outside), own, Option.isNone_some, idle, Bool.false_eq_true,
    if_false, bind_ok (engineRoom_ok free room), bind_ok (releasePackage_ok performed), bind_ok (get_run s)]
  exact bind_ok (startTransfer_run (mask_ne_zero m))

theorem opTdrain_run (filled : (s.core.tile (s.reg a).toNat).state ≠ .empty) : opTdrain ⟨k, a, b, c⟩ s = .ok .next
    (let u := s.started { hartTransfer s .tdrain k 0 with
      dst := s.reg b, src := (3#64 <<< 62) + s.reg a * 8192, total := (s.reg c).toNat, row := (s.reg c).toNat
      slot := (s.reg a).toNat }
     u.setCore (u.core.setTile (s.reg a).toNat { u.core.tile (s.reg a).toNat with state := .draining })) := by
  unfold opTdrain
  have owned : ((s.core.tile (s.reg a).toNat).owner.isNone || (s.core.tile (s.reg a).toNat).state == .empty) = false := by
    simp [own, filled]
  simp only [bind_ok (readS_ok readA), bind_ok (readS_ok readB), bind_ok (readS_ok readC),
    bind_ok (tileMoveCheck_ok number shown own some_ most outside), owned, idle, Bool.false_eq_true, if_false,
    bind_ok (engineRoom_ok (.inl rfl) room), bind_ok (releasePackage_ok performed), bind_ok (get_run s)]
  exact bind_ok (startTransfer_run (mask_ne_zero 0))

end

end

/-- Settles O25: the slot passes its checks, and for a fill or a drain the engine has room and the release is idle. -/
theorem tileResults : Obligations.TileResults := by
  refine ⟨⟨fun s x a => ⟨runUnit_hart (opTlook_run a), fun number shown => ⟨runUnit_hart (opTstat_run a number shown),
      fun idle => runUnit_hart (opTwait_run a number shown idle)⟩⟩, fun s x a b => ?ttag,
      fun s a read number shown own idle => runUnit_next (opTrel_run read number shown own idle)⟩,
    fun s k a b c readA readB readC => ?moves⟩
  case ttag =>
    dsimp only
    split
    case isTrue any =>
      split
      next n found => exact runUnit_next (opTtag_found a b any found)
      next full => exact runUnit_hart (opTtag_full a b any full)
    case isFalse one => exact fun number shown own idle => runUnit_next (opTtag_slot a b one number shown own idle)
  case moves =>
    intro slot n t number shown own idle some_ most outside room performed
    exact ⟨fun m free => runUnit_next
        (opTfill_run readA readB readC number shown own idle some_ most outside room performed free),
      fun filled => runUnit_next
        (opTdrain_run readA readB readC number shown own idle some_ most outside room performed filled)⟩

/-- Settles O20: the slot is ready or read by chunk, and each element that is performed passes its own checks. -/
theorem tileAccessResults : Obligations.TileAccessResults := by
  intro s x n fits ea within slot named shown own
  refine ⟨fun ready inside sound => ?vldt, fun ready inside => ?vstt⟩
  case vldt => exact runUnit_hart (opVldt_run fits named shown own ready inside sound)
  case vstt => exact runUnit_next (opVstt_run fits named ⟨shown, own, ready⟩ inside)

end Sys2Proof.Machine
end

section
/-! PROOFS. R215, R216, R265, R266: counters and the convoy's queues. -/

namespace Sys2Proof.Machine

section
variable {s : State}

/-- Every earlier store and atomic of the hart is over (R216). -/
theorem awaitPerformed_ok (settled : s.settled) : awaitPerformed s = .ok () s := by
  unfold awaitPerformed flushDeferred
  rw [bind_ok (flushWhere_none settled.1 _)]
  unfold awaitWhere
  rw [bind_ok (get_run s), List.filter_eq_nil_iff.mpr fun i mem => ?_]
  · exact awaitIds_nil _ s
  · have failed : i.failed ≠ none := Option.isSome_iff_ne_none.mp (settled.2 i mem)
    simp [failed]

theorem opWait_run {x : WaitK} (b : s.canReadSrc x.b = true) (reached : (s.srcZ x.b).toNat ≤ (s.convoy.k[x.k]).toNat) :
    opWait x s = .ok .next (s.setHart (s.hart.writeS x.d s.convoy.k[x.k])) := by
  unfold opWait
  simp only [bind_ok (readSrcZ_ok b), bind_ok (getConvoy_run s), Nat.not_lt.mpr reached, if_false,
    bind_ok (writeS_run _ _ _), pure_run]

theorem opKadd_run {x : KAdd} (a : s.canReadSrc x.a = true) (small : (s.srcZ x.a).toNat < 2 ^ 63) (settled : s.settled) :
    opKadd x s = .ok .next (s.setConvoy { s.convoy with k := s.convoy.k.set x.k (s.convoy.k[x.k] + s.srcZ x.a) }) := by
  unfold opKadd
  rw [bind_ok (readSrcZ_ok a), bind_ok (require_ok (by simpa using small) s), bind_ok (awaitPerformed_ok settled),
    bind_ok (modConvoy_run _ s)]
  rfl

/-! ### The queues (R265 to R267) -/

/-- The state with the flag of a queue instruction that is `.nb`. -/
def State.flagged (s : State) (nb : Option SReg) (v : Word) : State :=
  match nb with
  | some c => s.setHart (s.hart.writeS c v)
  | none => s

theorem writeNb_run (nb : Option SReg) (v : Word) (s : State) : writeNb nb v s = .ok () (s.flagged nb v) := by
  cases nb <;> rfl

/-- A flag written after another register of the hart. -/
theorem flagged_setHart (h : Hart) (nb : Option SReg) (v : Word) : (s.setHart h).flagged nb v = s.setHart (match nb with
    | some c => h.writeS c v
    | none => h) := by
  cases nb with
  | none => rfl
  | some c => simp only [State.flagged, State.setHart_hart, State.setHart_setHart]

/-- The convoy whose queue is named: the hart's own, or the poster, resident on this core and not ended (R267). -/
theorem putTarget_ok {par : Bool} {u : Nat} (target : if par = true then (∃ k, s.convoy.poster = some (u, k))
      ∧ (mget s.convoys u).isSome = true ∧ (s.convoyOf u).ended = false ∧ (s.convoyOf u).core = some s.coreId
    else u = s.hart.convoy) : putTarget par s = .ok u s := by
  unfold putTarget
  rw [bind_ok (get_run s)]
  cases par with
  | false => simp_all
  | true =>
    obtain ⟨⟨k, poster⟩, there, lives, core⟩ := target
    obtain ⟨c, convoy⟩ := Option.isSome_iff_exists.mp there
    have same : s.convoyOf u = c := by rw [State.convoyOf, convoy, Option.getD_some]
    rw [same] at lives core
    simp [poster, convoy, lives, core]

section
variable {x : QPut} {u : Nat} (a : s.canReadSrc x.a = true) (target : putTarget x.par s = .ok u s)
include a target

theorem opQput_room (room : (s.convoyOf u).q[x.q].length < 16) (performed : s.performed) : opQput x s = .ok .next
    ((s.setConvoyOf u { s.convoyOf u with
      q := (s.convoyOf u).q.set x.q ((s.convoyOf u).q[x.q] ++ [s.src x.a]) }).flagged x.nb 1) := by
  unfold opQput
  have free : ¬(s.convoyOf u).q[x.q].length ≥ queueRegs := by simpa [queueRegs] using room
  simp only [bind_ok (readSrc_ok a), bind_ok target, bind_ok (get_run s), free, if_false,
    bind_ok (releasePackage_ok performed), bind_ok (modify_run _ s), bind_ok (writeNb_run _ _ _), pure_run]

theorem opQput_full (full : 16 ≤ (s.convoyOf u).q[x.q].length) (nb : x.nb.isSome = true) :
    opQput x s = .ok .next (s.flagged x.nb 0) := by
  unfold opQput
  have taken : (s.convoyOf u).q[x.q].length ≥ queueRegs := full
  simp only [bind_ok (readSrc_ok a), bind_ok target, bind_ok (get_run s), taken, nb, if_true,
    bind_ok (writeNb_run _ _ _), pure_run]

end

section
variable {x : QGet}

theorem opQget_entry {v : Word} {rest : List Word} (entry : s.convoy.q[x.q] = v :: rest)
    (turn : x.nb = none → qgetBehind s x.q = false) : opQget x s = .ok .next
      ((s.setConvoy { s.convoy with q := s.convoy.q.set x.q rest }).setHart (match x.nb with
        | some c => (s.hart.writeS x.d v).writeS c 1
        | none => s.hart.writeS x.d v)) := by
  unfold opQget
  have first : (x.nb.isNone && qgetBehind s x.q) = false := by
    rw [Bool.and_eq_false_imp, Option.isNone_iff_eq_none]
    exact turn
  simp only [bind_ok (getConvoy_run s), entry, bind_ok (get_run s), first, Bool.false_eq_true, if_false,
    bind_ok (modConvoy_run _ s), bind_ok (writeS_run _ _ _), bind_ok (writeNb_run _ _ _), pure_run]
  rw [← flagged_setHart]
  rfl

theorem opQget_empty (empty : s.convoy.q[x.q] = []) (nb : x.nb.isSome = true) :
    opQget x s = .ok .next (s.flagged x.nb 0) := by
  unfold opQget
  simp only [bind_ok (getConvoy_run s), empty, nb, if_true, bind_ok (writeNb_run _ _ _), pure_run]

end

end

/-- Settles O32: the counter is at its target, and the queue has room or an entry, or its flag says that it has not. -/
theorem counterQueueResults : Obligations.CounterQueueResults := by
  intro s
  refine ⟨fun x b reached => runUnit_hart (opWait_run b reached),
    fun x a small settled => runUnit_next (opKadd_run a small settled), fun x u a target => ?qput, fun x => ?qget⟩
  case qput =>
    have named := putTarget_ok target
    exact ⟨fun room performed => runUnit_next (opQput_room a named room performed),
      fun full nb => runUnit_next (opQput_full a named full nb)⟩
  case qget =>
    exact ⟨fun v rest entry turn => runUnit_next (opQget_entry entry turn),
      fun empty nb => runUnit_next (opQget_empty empty nb)⟩

end Sys2Proof.Machine
end

section
/-! PROOFS. R78, R113, R285, R290, R294, R369: fences, flags and the accesses of the fabric window. -/

namespace Sys2Proof.Machine

section
variable {s t : State}

/-! ### What a fence waits for -/

/-- An optional part of an operation, and what follows it. -/
theorem optional_run {α : Type} {c : Prop} [Decidable c] {part : M PUnit} {rest : PUnit → M α}
    (run : (if c then part else pure ⟨⟩ : M PUnit) s = .ok ⟨⟩ t) :
    (if c then part >>= rest else rest ⟨⟩) s = rest ⟨⟩ t := by
  by_cases h : c
  · rw [if_pos h] at run ⊢
    exact bind_ok run
  · rw [if_neg h, pure_run] at run
    obtain ⟨-, rfl⟩ := EStateM.Result.ok.inj run
    rw [if_neg h]

/-- None of the hart's items that are named has failed. -/
theorem reportItem_none {p : Item → Bool} (well : ∀ i ∈ hartItems s, p i = true → i.failed = none) :
    reportItem p s = .ok () s := by
  have none_ : (hartItems s).find? (fun i => i.failed.isSome && p i) = none := by
    rw [List.find?_eq_none]
    intro i mem named
    rw [Bool.and_eq_true] at named
    simp [well i mem named.2] at named
  unfold reportItem
  rw [bind_ok (get_run s)]
  simp only [none_, pure_run]

theorem awaitItems_none (none_ : hartItems s = []) : awaitItems s = .ok () s := by
  unfold awaitItems
  rw [bind_ok (awaitWhere_none (fun i mem => by simp [none_] at mem) _)]
  exact reportItem_none fun i mem => by simp [none_] at mem

/-- The state after a fence of these kinds and this scope. -/
def State.fenced_ (s : State) (x : Fence) : State :=
  let u : State := match x.kinds.o, s.hart.hostLast with
    | true, some a =>
      { s.setHart { s.hart with hostLast := none } with hostFlushes := (a, s.hostWrites.length) :: s.hostFlushes }
    | _, _ => s
  if x.scope = .hart ∨ x.scope = .convoy then u else u.setHart { u.hart with code := s.mem }

theorem opFence_run {x : Fence} (empty : s.hart.deferred = []) (engine : x.kinds.e = true → enginePending s = false)
    (depot : x.kinds.d = true → depotPending s = false) (fabric : x.kinds.f = true → hartItems s = [])
    (flags : ∀ i ∈ hartItems s,
      (flagKey i).any (fun k => kindCovers x.kinds s.coreId k && inDomain x.scope s.coreId k) = false) :
    opFence x s = .ok .next (s.fenced_ x) := by
  have idle : (x.kinds.e && enginePending s || x.kinds.d && depotPending s) = false := by
    rw [Bool.or_eq_false_iff, Bool.and_eq_false_imp, Bool.and_eq_false_imp]
    exact ⟨engine, depot⟩
  have items : (if x.kinds.f = true then awaitItems else pure ⟨⟩ : M PUnit) s = .ok ⟨⟩ s := by
    split
    · exact awaitItems_none (fabric ‹_›)
    · rfl
  have host : (if x.kinds.o = true then flushHost else pure ⟨⟩ : M PUnit) s =
      .ok ⟨⟩ (if x.kinds.o = true then s.hostFlushed else s) := by
    split <;> rfl
  unfold opFence
  simp only [bind_ok (get_run s), bind_ok (flushWhere_none empty _), bind_ok (awaitFlags_none flags), idle,
    Bool.false_eq_true, if_false]
  refine (optional_run items).trans ((optional_run host).trans ?_)
  unfold State.fenced_ State.hostFlushed
  generalize x.kinds.o = o
  cases o <;> cases x.scope <;> cases s.hart.hostLast <;> rfl

/-! ### Flags (R294) -/

/-- A flag at an ordinary word: nothing of the hart is on its way to this package, so it is stored at once. -/
theorem opFsig_local {l : Loc} {x : Fsig} (a : s.canRead x.a = true) (b : s.canReadSrc x.b = true)
    (found : s.finds .fsig .store (s.reg x.a) (tBytes x.t) l t)
    (linked : (t.coreOf (l.key / 2 ^ 30)).fenced = false) : opFsig x s = .ok .next
      (pokeN l.key (tBytes x.t) ((s.src x.b).toNat % 2 ^ tBits x.t) (t.after (meter l.key (tBytes x.t)))) := by
  have calm : t.calm := (finds_walked found).calm found.2.2.2.2
  have report : reportItem (fun i => i.dst == t.package) t = .ok () t :=
    reportItem_none fun i mem here => absurd (eq_of_beq here) (calm.2 i mem)
  have covers : ownTo t (l.key / 2 ^ 30) = [] :=
    List.filter_eq_nil_iff.mpr fun i mem => by simp [leadsTo, itemKey, calm.2 i mem]
  unfold opFsig
  simp only [bind_ok (readS_ok a), bind_ok (readSrc_ok b), bind_ok found.1, bind_ok (get_run t), bind_ok report,
    bind_ok (flushWhere_none calm.1 _), covers, List.map_nil, List.isEmpty_nil, if_true,
    bind_ok (storePlace_finds found linked ..), pure_run]

/-- A flag through the fabric window covers the hart's items to its package. -/
theorem opFsig_remote {x : Fsig} (a : s.canRead x.a = true) (b : s.canReadSrc x.b = true) (empty : s.hart.deferred = [])
    (remote : locate .fsig .store (s.reg x.a) (tBytes x.t) none none s = .ok .remote s)
    (well : ∀ i ∈ (hartItems s).filter fun i => i.dst == fabricPkg (s.reg x.a), i.failed = none) :
    opFsig x s = .ok .next (sendItem { hartItem s (s.reg x.a) x.t
      (.store (BitVec.ofNat 64 ((s.src x.b).toNat % 2 ^ tBits x.t))) false false 0 with
      covers := ((hartItems s).filter fun i => i.dst == fabricPkg (s.reg x.a)).map Item.id
      unsent := !(((hartItems s).filter fun i => i.dst == fabricPkg (s.reg x.a)).map Item.id).isEmpty } s) := by
  have report : reportItem (fun i => i.dst == fabricPkg (s.reg x.a)) s = .ok () s :=
    reportItem_none fun i mem here => well i (List.mem_filter.mpr ⟨mem, here⟩)
  have same : (hartItems s).filter (fun i => i.dst == fabricPkg (s.reg x.a) && i.failed.isNone) =
      (hartItems s).filter fun i => i.dst == fabricPkg (s.reg x.a) := by
    refine List.filter_congr fun i mem => ?_
    by_cases here : (i.dst == fabricPkg (s.reg x.a)) = true
    · simp [here, well i (List.mem_filter.mpr ⟨mem, here⟩)]
    · simp [here]
  unfold opFsig
  simp only [bind_ok (readS_ok a), bind_ok (readSrc_ok b), bind_ok remote, bind_ok report, flushDeferred,
    bind_ok (flushWhere_none empty _), bind_ok (get_run s), same, bind_ok (set_run s _), pure_run]

/-! ### Loads and stores of the fabric window (R113, R369) -/

theorem flushFabric_none (empty : s.hart.deferred = []) (va : Word) : flushFabric va s = .ok () s := by
  unfold flushFabric
  rw [bind_ok (get_run s)]
  exact flushGranule_none empty _

/-- A store is handed to the base die. -/
theorem storePlace_remote (empty : s.hart.deferred = []) (fresh : s.hart.posted = 0) (kind : Nat) (va : Word) (n v : Nat)
    (ty : EType) (unord : Bool) : storePlace .remote kind va n v ty unord none none s =
      .ok () (sendItem (hartItem s va ty (.store (BitVec.ofNat 64 v)) unord false 0) s) := by
  have prep : prepStore .remote va none none s = .ok () s := flushFabric_none empty va
  have unlogged : logPlace .remote kind va none s = .ok () s := rfl
  unfold storePlace
  rw [bind_ok prep, bind_ok unlogged]
  simp only [putStore, remotePost, modify_run, fresh, Nat.lt_irrefl, if_false, Option.getD_none]

theorem opSt_remote {x : SStore} (a : s.canRead x.a = true) (b : s.canReadSrc x.b = true) (c : s.canRead x.c = true)
    (empty : s.hart.deferred = []) (fresh : s.hart.posted = 0) (plain : x.rel = none)
    (remote : locate .scalar .store (s.reg x.a + s.src x.b) (tBytes x.t) none none s = .ok .remote s) :
    opSt x s = .ok .next (sendItem (hartItem s (s.reg x.a + s.src x.b) x.t
      (.store (BitVec.ofNat 64 ((s.reg x.c).toNat % 2 ^ tBits x.t))) x.unord false 0) s) := by
  unfold opSt
  rw [bind_ok (readS_ok c), bind_ok (readS_ok a), bind_ok (readSrc_ok b), bind_ok remote, plain,
    bind_ok (releaseOpt_none none (by nofun)), bind_ok (storePlace_remote empty fresh ..), pure_run]

/-- A load that has its response takes it. -/
theorem remoteWait_response {v : Word} (alone : s.hart.pair = none)
    (response : s.hart.resp.head?.map Prod.snd = some (.value v)) (va : Word) (ty : EType) (elem bank : Option Nat) :
    remoteWait va ty .load elem bank s = .ok v (s.setHart { s.hart with resp := s.hart.resp.tail }) := by
  have plain : trialLook s va .load = false := by simp [trialLook, alone]
  obtain ⟨r, rest, resp⟩ : ∃ r rest, s.hart.resp = r :: rest := by
    cases h : s.hart.resp with
    | nil => simp [h] at response
    | cons r rest => exact ⟨r, rest, rfl⟩
  obtain ⟨id, r⟩ := r
  obtain rfl : r = .value v := by simpa [resp] using response
  unfold remoteWait
  simp only [bind_ok (get_run s), plain, Bool.false_eq_true, if_false, bind_ok (getHart_run s), resp,
    bind_ok (setHart_run _ s), pure_run, List.tail_cons]

theorem opLd_remote {x : SLoad} {v : Word} (a : s.canRead x.a = true) (b : s.canReadSrc x.b = true)
    (empty : s.hart.deferred = []) (alone : s.hart.pair = none)
    (response : s.hart.resp.head?.map Prod.snd = some (.value v))
    (remote : locate .scalar .load (s.reg x.a + s.src x.b) (tBytes x.t) none none s = .ok .remote s) :
    opLd x s = .ok .next (s.setHart (Hart.writeS x.d (extendTo x.t (v.toNat % 2 ^ (8 * tBytes x.t)))
      { s.hart with resp := s.hart.resp.tail })) := by
  have load : loadVa .scalar 1 (s.reg x.a + s.src x.b) (tBytes x.t) x.t none none s =
      .ok (v.toNat % 2 ^ (8 * tBytes x.t)) (s.setHart { s.hart with resp := s.hart.resp.tail }) := by
    have prep : prepLoad .remote (s.reg x.a + s.src x.b) none none s = .ok () s := flushFabric_none empty _
    have unlogged : logPlace .remote 1 (s.reg x.a + s.src x.b) none s = .ok () s := rfl
    unfold loadVa loadPlace
    rw [bind_ok remote, bind_ok prep, bind_ok unlogged, takeLoad]
    exact bind_ok (remoteWait_response alone response ..)
  unfold opLd
  rw [bind_ok (readS_ok a), bind_ok (readSrc_ok b), bind_ok load, bind_ok (writeS_run _ _ _), State.setHart_hart,
    State.setHart_setHart, pure_run]

end

/-- Settles O30: nothing that the fence names is pending, and an access of the fabric window is one item or response. -/
theorem fenceFabricResults : Obligations.FenceFabricResults := by
  refine ⟨⟨fun s x empty engine depot fabric flags => runUnit_next (opFence_run empty engine depot fabric flags),
      fun s t l x a b found linked => runUnit_next (opFsig_local a b found linked)⟩, fun s empty =>
    ⟨fun x a b c fresh plain remote => runUnit_next (opSt_remote a b c empty fresh plain remote),
      fun x a b remote well => runUnit_next (opFsig_remote a b empty remote well),
      fun x v a b alone response remote => runUnit_hart (opLd_remote a b empty alone response remote)⟩⟩

end Sys2Proof.Machine
end

section
/-! PROOFS. R115, R261, R262, R274: convoy and cluster barriers that complete. -/

namespace Sys2Proof.Machine

/-! ### Participants of a convoy -/

/-- Does the entry of a hart take part in the barriers of convoy `u` (R261)? -/
def takesPart (u : Nat) (p : Nat × Hart) : Bool :=
  p.2.convoy == u && (match p.2.status with
    | .ending _ _ => false
    | _ => true)

theorem participants_eq (s : State) (u : Nat) : participants s u = (s.harts.filter (takesPart u)).map Prod.fst := rfl

section
variable {s t : State}

/-- A hart that takes part stands among the participants, before or after the others. -/
theorem participants_setHart {u : Nat} {h : Hart} (part : takesPart u (s.cur, h) = true) :
    (participants (s.setHart h) u).Perm (s.cur :: ((merase s.harts s.cur).filter (takesPart u)).map Prod.fst) := by
  rw [participants_eq]
  have perm := ((minsert_perm (merase s.harts s.cur) s.cur h).filter (takesPart u)).map Prod.fst
  rwa [List.filter_cons_of_pos part] at perm

theorem mem_others {u g : Nat} :
    g ∈ ((merase s.harts s.cur).filter (takesPart u)).map Prod.fst ↔ g ≠ s.cur ∧ g ∈ participants s u := by
  simp only [participants_eq, merase, List.mem_map, List.mem_filter, bne_iff_ne]
  constructor
  · rintro ⟨p, ⟨⟨mem, other⟩, part⟩, rfl⟩
    exact ⟨other, p, ⟨mem, part⟩, rfl⟩
  · rintro ⟨other, p, ⟨mem, part⟩, rfl⟩
    exact ⟨p, ⟨⟨mem, other⟩, part⟩, rfl⟩

theorem nodup_others {u : Nat} (nodup : (participants s u).Nodup) :
    (s.cur :: ((merase s.harts s.cur).filter (takesPart u)).map Prod.fst).Nodup := by
  refine List.nodup_cons.mpr ⟨fun mem => (mem_others.mp mem).1 rfl, nodup.sublist ?_⟩
  exact (List.filter_sublist.filter _).map _

/-! ### Harts that go on together -/

/-- The harts `gs` have committed, each with changes of its own; the rest of the state that barriers speak of stays. -/
structure State.Released (s : State) (gs : List Nat) (f : Nat → Hart → Hart) (t : State) : Prop where
  harts : ∀ g ∈ gs, t.hartOf g = f g (retire 1 (nextSlot (s.hartOf g).pc) (s.hartOf g))
  others : ∀ g, g ∉ gs → t.hartOf g = s.hartOf g
  mem : t.mem = s.mem
  cur : t.cur = s.cur
  clusters : t.clusters = s.clusters
  convoys : ∀ u, ∃ b, t.convoyOf u = { s.convoyOf u with suspended := b }

theorem commitHart_released (f : Nat → Hart → Hart) (g : Nat) (s : State) :
    s.Released [g] f (commitHart (f g) s g) where
  harts j mem := by
    obtain rfl := List.mem_singleton.mp mem
    exact State.setHartOf_same ..
  others j out := State.setHartOf_other _ _ _ _ fun same => out (List.mem_singleton.mpr same.symm)
  mem := rfl
  cur := rfl
  clusters := rfl
  convoys u := by
    by_cases same : (s.hartOf g).convoy = u
    · subst same
      exact ⟨false, State.setConvoyOf_same ..⟩
    · exact ⟨(s.convoyOf u).suspended, State.setConvoyOf_other _ _ _ _ same⟩

theorem State.Released.cons {u : State} {g : Nat} {gs : List Nat} {f : Nat → Hart → Hart}
    (first : s.Released [g] f t) (rest : t.Released gs f u) (fresh : g ∉ gs) : s.Released (g :: gs) f u where
  harts j mem := by
    by_cases same : j = g
    · subst same
      rw [rest.others j fresh, first.harts j (by simp)]
    · have later := List.mem_of_ne_of_mem same mem
      rw [rest.harts j later, first.others j (by simpa using same)]
  others j out := by
    rw [List.mem_cons, not_or] at out
    rw [rest.others j out.2, first.others j (by simpa using out.1)]
  mem := rest.mem.trans first.mem
  cur := rest.cur.trans first.cur
  clusters := rest.clusters.trans first.clusters
  convoys u := by
    obtain ⟨a, ha⟩ := first.convoys u
    obtain ⟨b, hb⟩ := rest.convoys u
    exact ⟨b, by rw [hb, ha]⟩

/-- Harts that commit one after another. -/
theorem foldl_commitHart_released (f : Nat → Hart → Hart) (gs : List Nat) (nodup : gs.Nodup) (s : State) :
    s.Released gs f (gs.foldl (fun s g => commitHart (f g) s g) s) := by
  induction gs generalizing s with
  | nil => exact ⟨by simp, fun _ _ => rfl, rfl, rfl, rfl, fun u => ⟨(s.convoyOf u).suspended, rfl⟩⟩
  | cons g gs ih =>
    obtain ⟨fresh, rest⟩ := List.nodup_cons.mp nodup
    exact (commitHart_released f g s).cons (ih rest _) fresh

/-- With nothing deferred, applying a hart's updates changes nothing of it. -/
theorem applyAll_none {g : Nat} (empty : (s.hartOf g).deferred = []) :
    applyAll g s = (s.setHartOf g (s.hartOf g), none) := by
  have same : { s.hartOf g with deferred := [] } = s.hartOf g := by rw [← empty]
  unfold applyAll
  rw [empty]
  exact congrArg (fun h => (s.setHartOf g h, none)) same

theorem setHartOf_hartOf_self (g j : Nat) : (s.setHartOf g (s.hartOf g)).hartOf j = s.hartOf j := by
  by_cases same : g = j
  · subst same
    exact State.setHartOf_same ..
  · exact State.setHartOf_other _ _ _ _ same

/-- Every hart is as it was, however the list of harts stands. -/
def State.SameHarts (s t : State) : Prop := (∀ g, t.hartOf g = s.hartOf g) ∧ t = { s with harts := t.harts }

theorem flushBarrier_none (gs : List Nat) (empty : ∀ g ∈ gs, (s.hartOf g).deferred = []) :
    ∃ t, flushBarrier gs s = (t, []) ∧ s.SameHarts t := by
  induction gs generalizing s with
  | nil => exact ⟨s, rfl, fun _ => rfl, rfl⟩
  | cons g gs ih =>
    have here := applyAll_none (empty g (by simp))
    obtain ⟨t, run, harts, rest⟩ := ih (s := s.setHartOf g (s.hartOf g)) fun j mem => by
      rw [setHartOf_hartOf_self]
      exact empty j (by simp [mem])
    refine ⟨t, ?_, fun j => (harts j).trans (setHartOf_hartOf_self g j), rest⟩
    simp only [flushBarrier, here, run]

/-- The participants of a barrier of which none has anything deferred go on (R262). -/
theorem releaseBarrier_released {gs : List Nat} (nodup : gs.Nodup) (empty : ∀ g ∈ gs, (s.hartOf g).deferred = [])
    (f : Nat → Hart → Hart) : s.Released gs f (releaseBarrier gs f s) := by
  obtain ⟨t, run, harts, rest⟩ := flushBarrier_none gs empty
  unfold releaseBarrier
  rw [run]
  have released := foldl_commitHart_released f gs nodup t
  exact
    { released with
      harts := fun g mem => by rw [← harts g]; exact released.harts g mem
      others := fun g out => (released.others g out).trans (harts g)
      mem := released.mem.trans (by rw [rest])
      cur := released.cur.trans (by rw [rest])
      clusters := released.clusters.trans (by rw [rest])
      convoys := fun u => by
        have same : t.convoyOf u = s.convoyOf u := by rw [rest]; rfl
        rw [← same]
        exact released.convoys u }

/-- A hart that waited runs again once its unit is over. -/
theorem retire_waiting {h : Hart} {i : Instr} (waits : h.status = .waiting i) (n : Nat) (pc : Word) :
    (retire n pc h).status = .running := by simp [retire, waits]

theorem retire_waitsAt (n : Nat) (pc : Word) (h : Hart) : (retire n pc h).waitsAt = none := by
  unfold Hart.waitsAt retire
  cases h.status <;> rfl

theorem arrival_waiting {g : Nat} {i : Instr} (arrived : arrival s g = some i) : (s.hartOf g).status = .waiting i := by
  unfold arrival Hart.waitsAt at arrived
  cases status : (s.hartOf g).status <;> simp_all

/-! ### The convoy barrier (R262, R115) -/

@[simp] theorem setConvoy_hart (c : Convoy) : (s.setConvoy c).hart = s.hart := rfl

/-- The state in which the current hart, which did not wait, has arrived at barrier instruction `i`. -/
def State.arrivedAt (s : State) (i : Instr) : State :=
  let u := s.setHart { s.hart with
    status := .waiting i, stamp := s.now }
  u.setConvoy { u.convoy with arrived := u.convoy.arrived ||| (1#8 <<< u.hart.hidx) }

theorem beforeBarrier_ok (performed : s.performed) : beforeBarrier s = .ok () s := by
  have flags : awaitFlags (fun _ => true) s = .ok () s := awaitFlags_none fun i mem => by simp [performed.2 i mem]
  unfold beforeBarrier
  simp only [bind_ok flags, bind_ok (get_run s), performed.1, crossPath, List.any_nil, Bool.false_eq_true, if_false,
    pure_run]

@[simp] theorem arrivedAt_hart (s : State) (i : Instr) : (s.arrivedAt i).hart =
    { s.hart with status := .waiting i, stamp := s.now } := by
  unfold State.arrivedAt
  rw [setConvoy_hart, State.setHart_hart]

/-- A hart that arrives last goes on with its convoy: the barrier settles, and the hart waits no longer. -/
theorem arriveAt_last {i : Instr} (fresh : s.hart.waitsAt = none) (performed : s.performed)
    (goes : (settleBarrier s.hart.convoy (s.arrivedAt i)).hart.waitsAt = none) :
    arriveAt i s = .ok .stay (settleBarrier s.hart.convoy (s.arrivedAt i)) := by
  have free : owedBefore (fun g => (participants s s.hart.convoy).contains g) s s.cur = false := by
    simp only [owedBefore, show (s.hartOf s.cur).deferred = [] from performed.1, List.any_nil]
  have enter : enterWait i s = .ok () (s.setHart { s.hart with status := .waiting i, stamp := s.now }) := by
    simp only [enterWait, modify_run, fresh, Option.isSome_none, Bool.false_eq_true, if_false]
  have convoy : (s.arrivedAt i).hart.convoy = s.hart.convoy := by rw [arrivedAt_hart]
  unfold arriveAt
  simp only [bind_ok (get_run s), fresh, Option.isNone_none, if_true, bind_ok (beforeBarrier_ok performed), free,
    Bool.false_eq_true, if_false, bind_ok enter]
  have settle : (modify fun t => settleBarrier t.hart.convoy t : M PUnit) (s.arrivedAt i) =
      .ok () (settleBarrier s.hart.convoy (s.arrivedAt i)) := by rw [modify_run, convoy]
  refine (bind_ok (modify_run _ _)).trans ((bind_ok settle).trans ?_)
  simp only [bind_ok (getHart_run _), goes, Option.isSome_none, Bool.false_eq_true, if_false, pure_run]

section
variable {i : Instr}

theorem arrivedAt_other {g : Nat} (other : g ≠ s.cur) : (s.arrivedAt i).hartOf g = s.hartOf g :=
  State.setHart_other _ _ _ other.symm

theorem arrivedAt_hartOf {g : Nat} (waits : g ≠ s.cur → ∃ j, (s.hartOf g).status = .waiting j) :
    ∃ j n, (s.arrivedAt i).hartOf g = { s.hartOf g with status := .waiting j, stamp := n } := by
  by_cases here : g = s.cur
  · subst here
    exact ⟨i, s.now, arrivedAt_hart s i⟩
  · obtain ⟨j, status⟩ := waits here
    refine ⟨j, (s.hartOf g).stamp, (arrivedAt_other here).trans ?_⟩
    rw [← status]

theorem arrival_arrivedAt_cur (barrier : isBarrier i = true) : arrival (s.arrivedAt i) s.cur = some i := by
  have waits : ((s.arrivedAt i).hartOf s.cur).waitsAt = some i := congrArg Hart.waitsAt (arrivedAt_hart s i)
  simp only [arrival, waits, barrier, if_true]

theorem arrival_arrivedAt_other {g : Nat} (other : g ≠ s.cur) : arrival (s.arrivedAt i) g = arrival s g := by
  simp only [arrival, arrivedAt_other other]

theorem participants_arrivedAt : (participants (s.arrivedAt i) s.hart.convoy).Perm
    (s.cur :: ((merase s.harts s.cur).filter (takesPart s.hart.convoy)).map Prod.fst) :=
  participants_setHart (by simp [takesPart])

theorem mem_participants_arrivedAt (here : s.cur ∈ participants s s.hart.convoy) {g : Nat} :
    g ∈ participants (s.arrivedAt i) s.hart.convoy ↔ g ∈ participants s s.hart.convoy := by
  rw [participants_arrivedAt.mem_iff, List.mem_cons, mem_others]
  constructor
  · rintro (rfl | ⟨-, mem⟩)
    · exact here
    · exact mem
  · intro mem
    by_cases same : g = s.cur
    · exact .inl same
    · exact .inr ⟨same, mem⟩

end

/-- Where every participant has arrived, the arrivals are theirs in order. -/
theorem filterMap_arrival {gs : List Nat} {a : Nat → Instr} (all : ∀ g ∈ gs, arrival s g = some (a g)) :
    gs.filterMap (arrival s) = gs.map a := by
  induction gs with
  | nil => rfl
  | cons g gs ih =>
    rw [List.filterMap_cons_some (all g (by simp)), ih fun j mem => all j (by simp [mem]), List.map_cons]

/-- Every participant has arrived at `bar` (R262). -/
theorem settleBarrier_bar {u : Nat} (some_ : participants s u ≠ []) (all : ∀ g ∈ participants s u, arrival s g = some .bar) :
    settleBarrier u s =
      releaseBarrier (participants s u) (fun _ h => h) (s.setConvoyOf u { s.convoyOf u with arrived := 0 }) := by
  unfold settleBarrier
  simp [filterMap_arrival (a := fun _ => .bar) all, some_]

/-- What a completed `vcfg` writes of `n` to the harts `gs`, whose destinations `d` names (R115). -/
def vcfgWrites (gs : List Nat) (d : Nat → SReg) (n : Word) (g : Nat) (h : Hart) : Hart :=
  h.writeS ((mget (gs.zip (gs.map d)) g).getD 0) n

/-- Every participant has arrived at a `vcfg` of one type (R115). -/
theorem settleBarrier_vcfg {u g : Nat} {gs : List Nat} {y : Nat → VCfg} (first : participants s u = g :: gs)
    (all : ∀ j ∈ participants s u, arrival s j = some (.vcfg (y j)))
    (same : ∀ j ∈ participants s u, (y j).ew = (y g).ew ∧ (y j).grp = (y g).grp) :
    settleBarrier u s =
      let t := setVtype u (y g) (s.setConvoyOf u { s.convoyOf u with arrived := 0 })
      releaseBarrier (participants s u)
        (vcfgWrites (participants s u) (fun j => (y j).d) (BitVec.ofNat 64 (t.convoyOf u).vlmax)) t := by
  have arrived : (participants s u).filterMap (arrival s) = (participants s u).map fun j => .vcfg (y j) :=
    filterMap_arrival all
  have notBar : ((participants s u).map fun j => Instr.vcfg (y j)).all (fun i => i == .bar) = false := by
    simp [first]
  have types : ((participants s u).map fun j => Instr.vcfg (y j)).all (sameVtype (y g)) = true := by
    rw [List.all_map, List.all_eq_true]
    intro j mem
    simp [sameVtype, same j mem]
  obtain ⟨is, head⟩ : ∃ is, ((participants s u).map fun j => Instr.vcfg (y j)) = .vcfg (y g) :: is := ⟨_, by rw [first]; rfl⟩
  have some_ : ¬(participants s u = [] ∨ ((participants s u).map fun j => Instr.vcfg (y j)).length
      ≠ (participants s u).length) := by simp [first]
  unfold settleBarrier
  simp only [arrived, notBar, some_, Bool.false_eq_true, if_false]
  split
  next x tail named =>
    obtain ⟨rfl, -⟩ : y g = x ∧ is = tail := by simpa [head] using named
    rw [if_pos types, List.map_map]
    rfl
  next other => exact absurd head (other _ _)

theorem setVtype_hartOf {u g : Nat} (x : VCfg) (there : (mget s.harts g).isSome = true) (convoy : (s.hartOf g).convoy = u) :
    (setVtype u x s).hartOf g = { s.hartOf g with csr := { (s.hartOf g).csr with vl := 0, vstart := 0 } } := by
  obtain ⟨h, at_⟩ := Option.isSome_iff_exists.mp there
  have hart : s.hartOf g = h := by rw [State.hartOf, at_, Option.getD_some]
  rw [hart] at convoy ⊢
  unfold setVtype State.hartOf
  dsimp only
  rw [mget_map _ (fun p => by split <;> rfl)]
  rw [show mget (s.setConvoyOf u { s.convoyOf u with ew := x.ew, grp := x.grp }).harts g = some h from at_]
  simp [convoy]

theorem mget_isSome_of_mem {α : Type} {m : List (Nat × α)} {k : Nat} (mem : k ∈ m.map Prod.fst) :
    (mget m k).isSome = true := by
  obtain ⟨p, stands, rfl⟩ := List.mem_map.mp mem
  rw [mget, Option.isSome_map, List.find?_isSome]
  exact ⟨p, stands, beq_self_eq_true _⟩

theorem mget_zip_map {α : Type} (f : Nat → α) {gs : List Nat} {g : Nat} (mem : g ∈ gs) :
    mget (gs.zip (gs.map f)) g = some (f g) := by
  induction gs with
  | nil => cases mem
  | cons j gs ih =>
    rw [List.map_cons, List.zip_cons_cons, mget_cons]
    by_cases same : j = g
    · simp [same]
    · simp only [same, if_false]
      exact ih (List.mem_of_ne_of_mem (Ne.symm same) mem)

theorem writeS_get {r : SReg} (ne : r ≠ 0) (v : Word) (h : Hart) : (h.writeS r v).s[r] = v := by
  simp [Hart.writeS, ne]

theorem vcfgWrites_eq {gs : List Nat} {g : Nat} (mem : g ∈ gs) (d : Nat → SReg) (n : Word) (h : Hart) :
    vcfgWrites gs d n g h = h.writeS (d g) n := by rw [vcfgWrites, mget_zip_map d mem, Option.getD_some]

/-- What a barrier leaves of a participant's place, its status and its count (R262). -/
def State.passes (s t : State) (g : Nat) : Prop :=
  (t.hartOf g).pc = nextSlot (s.hartOf g).pc ∧ (t.hartOf g).status = .running
    ∧ (t.hartOf g).csr.instret = (s.hartOf g).csr.instret + 1

/-- The state in which the convoy's barrier of the current hart completes: its arrivals are cleared. -/
def State.arrivedLast (s : State) (i : Instr) : State :=
  (s.arrivedAt i).setConvoyOf s.hart.convoy { (s.arrivedAt i).convoyOf s.hart.convoy with arrived := 0 }

section
variable (here : s.cur ∈ participants s s.hart.convoy) (nodup : (participants s s.hart.convoy).Nodup)
  (members : ∀ g ∈ participants s s.hart.convoy, (s.hartOf g).convoy = s.hart.convoy ∧ (s.hartOf g).deferred = [])

include here in
/-- Each participant of a completing barrier has arrived at its own instruction. -/
theorem arrivedLast_arrivals {y : Nat → Instr} {i : Instr} (own : y s.cur = i) (barrier : isBarrier i = true)
    (arrived : ∀ g ∈ participants s s.hart.convoy, g ≠ s.cur → arrival s g = some (y g)) :
    ∀ g ∈ participants (s.arrivedAt i) s.hart.convoy, arrival (s.arrivedAt i) g = some (y g) := by
  intro g mem
  by_cases same : g = s.cur
  · rw [same, arrival_arrivedAt_cur barrier, own]
  · rw [arrival_arrivedAt_other same, arrived g ((mem_participants_arrivedAt here).mp mem) same]

include here members in
/-- A participant of a completing barrier waits and has nothing deferred; its place and its count are as they were. -/
theorem arrivedLast_hartOf {y : Nat → Instr} (i : Instr)
    (arrived : ∀ g ∈ participants s s.hart.convoy, g ≠ s.cur → arrival s g = some (y g)) {g : Nat}
    (mem : g ∈ participants (s.arrivedAt i) s.hart.convoy) :
    ∃ j n, (s.arrivedLast i).hartOf g = { s.hartOf g with status := .waiting j, stamp := n }
      ∧ (s.hartOf g).convoy = s.hart.convoy ∧ (s.hartOf g).deferred = [] := by
  have part := (mem_participants_arrivedAt here).mp mem
  obtain ⟨j, n, hart⟩ := arrivedAt_hartOf (i := i) fun other => ⟨_, arrival_waiting (arrived g part other)⟩
  exact ⟨j, n, hart, members g part⟩

include here in
theorem arrival_last {i : Instr} (fresh : s.hart.waitsAt = none) (performed : s.performed) {t : State}
    (settled : settleBarrier s.hart.convoy (s.arrivedAt i) = t) (cur : t.cur = s.cur)
    (passes : ∀ g ∈ participants s s.hart.convoy, s.passes t g) : runUnit (arriveAt i) s = .next t := by
  subst settled
  refine runUnit_ok (arriveAt_last fresh performed ?_)
  obtain ⟨-, status, -⟩ := passes _ here
  rw [State.hart, cur, Hart.waitsAt, status]

include here nodup members in
/-- The last participant arrives at `bar`. -/
theorem exec_bar_last (fresh : s.hart.waitsAt = none) (performed : s.performed)
    (arrived : ∀ g ∈ participants s s.hart.convoy, g ≠ s.cur → arrival s g = some .bar) :
    ∃ t, exec .bar s = .next t ∧ (∀ g ∈ participants s s.hart.convoy, s.passes t g)
      ∧ (t.convoyOf s.hart.convoy).arrived = 0 ∧ t.mem = s.mem := by
  have settled := settleBarrier_bar (List.ne_nil_of_mem ((mem_participants_arrivedAt here).mpr here))
    (arrivedLast_arrivals here (y := fun _ => .bar) rfl rfl arrived)
  have harts {g : Nat} := arrivedLast_hartOf here members .bar arrived (g := g)
  have released := releaseBarrier_released (s := s.arrivedLast .bar) (gs := participants (s.arrivedAt .bar) s.hart.convoy)
    (participants_arrivedAt.nodup_iff.mpr (nodup_others nodup)) (fun g mem => by
      obtain ⟨j, n, hart, -, empty⟩ := harts mem
      rw [hart]
      exact empty) (fun _ h => h)
  have passes : ∀ g ∈ participants s s.hart.convoy, s.passes (releaseBarrier
      (participants (s.arrivedAt .bar) s.hart.convoy) (fun _ h => h) (s.arrivedLast .bar)) g := by
    intro g mem
    have mem := (mem_participants_arrivedAt (i := .bar) here).mpr mem
    obtain ⟨j, n, hart, -⟩ := harts mem
    rw [State.passes, released.harts g mem, hart]
    exact ⟨rfl, retire_waiting rfl _ _, rfl⟩
  obtain ⟨b, convoy⟩ := released.convoys s.hart.convoy
  exact ⟨_, arrival_last here fresh performed settled released.cur passes, passes,
    (congrArg Convoy.arrived convoy).trans (congrArg Convoy.arrived (State.setConvoyOf_same ..)), released.mem⟩

theorem setVtype_congr {x y : VCfg} (ew : y.ew = x.ew) (grp : y.grp = x.grp) (u : Nat) : setVtype u y s = setVtype u x s := by
  unfold setVtype
  rw [ew, grp]

theorem setVtype_convoyOf (u : Nat) (x : VCfg) :
    (setVtype u x s).convoyOf u = { s.convoyOf u with ew := x.ew, grp := x.grp } := State.setConvoyOf_same ..

include here nodup members in
/-- The last participant arrives at a `vcfg` of the type of the others. -/
theorem exec_vcfg_last {x : VCfg} {y : Nat → VCfg} (own : y s.cur = x)
    (fresh : s.hart.waitsAt = none) (performed : s.performed)
    (arrived : ∀ g ∈ participants s s.hart.convoy, g ≠ s.cur → arrival s g = some (.vcfg (y g)))
    (type : ∀ g ∈ participants s s.hart.convoy, (y g).ew = x.ew ∧ (y g).grp = x.grp) :
    ∃ t, exec (.vcfg x) s = .next t
      ∧ (∀ g ∈ participants s s.hart.convoy, s.passes t g ∧ (t.hartOf g).csr.vl = 0 ∧ (t.hartOf g).csr.vstart = 0)
      ∧ (t.convoyOf s.hart.convoy).ew = x.ew ∧ (t.convoyOf s.hart.convoy).grp = x.grp
      ∧ (t.convoyOf s.hart.convoy).arrived = 0 ∧ t.mem = s.mem
      ∧ ∀ g ∈ participants s s.hart.convoy, (y g).d ≠ 0 →
        (t.hartOf g).s[(y g).d] = BitVec.ofNat 64 (2 ^ x.grp.toNat * 2048 / 2 ^ x.ew.toNat) := by
  have nonempty := List.ne_nil_of_mem ((mem_participants_arrivedAt (i := .vcfg x) here).mpr here)
  obtain ⟨g₀, rest, first⟩ := List.exists_cons_of_ne_nil nonempty
  have type' (g : Nat) (mem : g ∈ participants (s.arrivedAt (.vcfg x)) s.hart.convoy) :=
    type g ((mem_participants_arrivedAt here).mp mem)
  obtain ⟨ew, grp⟩ := type' g₀ (by simp [first])
  have settled := (settleBarrier_vcfg first (y := y)
    (arrivedLast_arrivals here (y := fun g => .vcfg (y g)) (congrArg _ own) rfl arrived)
    (fun g mem => ⟨(type' g mem).1.trans ew.symm, (type' g mem).2.trans grp.symm⟩)).trans (by rw [setVtype_congr ew grp])
  have number : (setVtype s.hart.convoy x (s.arrivedLast (.vcfg x))).convoyOf s.hart.convoy
      = { (s.arrivedLast (.vcfg x)).convoyOf s.hart.convoy with ew := x.ew, grp := x.grp } := setVtype_convoyOf ..
  have vlmax : ((setVtype s.hart.convoy x (s.arrivedLast (.vcfg x))).convoyOf s.hart.convoy).vlmax
      = 2 ^ x.grp.toNat * 2048 / 2 ^ x.ew.toNat := by rw [number]; rfl
  have harts (g : Nat) (mem : g ∈ participants (s.arrivedAt (.vcfg x)) s.hart.convoy) :
      ∃ j n, (setVtype s.hart.convoy x (s.arrivedLast (.vcfg x))).hartOf g = { s.hartOf g with
        status := .waiting j, stamp := n, csr := { (s.hartOf g).csr with vl := 0, vstart := 0 } }
        ∧ (s.hartOf g).deferred = [] := by
    obtain ⟨j, n, hart, convoy, empty⟩ := arrivedLast_hartOf here members (y := fun g => .vcfg (y g)) _ arrived mem
    have there : (mget (s.arrivedLast (.vcfg x)).harts g).isSome = true :=
      mget_isSome_of_mem ((List.filter_sublist.map _).subset mem)
    refine ⟨j, n, ?_, empty⟩
    rw [setVtype_hartOf x there (by rw [hart]; exact convoy), hart]
  have released : (setVtype s.hart.convoy x (s.arrivedLast (.vcfg x))).Released
      (participants (s.arrivedAt (.vcfg x)) s.hart.convoy)
      (vcfgWrites (participants (s.arrivedAt (.vcfg x)) s.hart.convoy) (fun j => (y j).d)
        (BitVec.ofNat 64 (2 ^ x.grp.toNat * 2048 / 2 ^ x.ew.toNat)))
      (settleBarrier s.hart.convoy (s.arrivedAt (.vcfg x))) := by
    rw [settled, ← vlmax]
    refine releaseBarrier_released (participants_arrivedAt.nodup_iff.mpr (nodup_others nodup)) (fun g mem => ?_) _
    obtain ⟨j, n, hart, empty⟩ := harts g mem
    exact (congrArg Hart.deferred hart).trans empty
  clear settled
  generalize settled : settleBarrier s.hart.convoy (s.arrivedAt (.vcfg x)) = t at released
  have after (g : Nat) (mem : g ∈ participants s s.hart.convoy) :
      s.passes t g ∧ (t.hartOf g).csr.vl = 0 ∧ (t.hartOf g).csr.vstart = 0 ∧ ((y g).d ≠ 0 →
        (t.hartOf g).s[(y g).d] = BitVec.ofNat 64 (2 ^ x.grp.toNat * 2048 / 2 ^ x.ew.toNat)) := by
    have mem := (mem_participants_arrivedAt (i := .vcfg x) here).mpr mem
    obtain ⟨j, n, hart, -⟩ := harts g mem
    rw [State.passes, released.harts g mem, vcfgWrites_eq mem, hart, Hart.writeS_pc, Hart.writeS_status, Hart.writeS_csr]
    exact ⟨⟨rfl, retire_waiting rfl _ _, rfl⟩, rfl, rfl, fun ne => writeS_get ne _ _⟩
  obtain ⟨b, convoy⟩ := released.convoys s.hart.convoy
  rw [number] at convoy
  exact ⟨t, arrival_last here fresh performed settled released.cur (fun g mem => (after g mem).1),
    fun g mem => ⟨(after g mem).1, (after g mem).2.1, (after g mem).2.2.1⟩, congrArg Convoy.ew convoy,
    congrArg Convoy.grp convoy, (congrArg Convoy.arrived convoy).trans (congrArg Convoy.arrived (State.setConvoyOf_same ..)),
    released.mem, fun g mem => (after g mem).2.2.2⟩

end

/-! ### The cluster barrier (R274) -/

theorem insertBy_perm {α : Type} (le : α → α → Bool) (x : α) (xs : List α) : (insertBy le x xs).Perm (x :: xs) := by
  induction xs with
  | nil => rfl
  | cons y ys ih =>
    unfold insertBy
    split
    · rfl
    · exact (ih.cons y).trans (.swap x y ys)

theorem sortBy_perm {α : Type} (le : α → α → Bool) (xs : List α) : (sortBy le xs).Perm xs := by
  induction xs with
  | nil => rfl
  | cons x xs ih => exact (insertBy_perm le x _).trans (ih.cons x)

theorem setCbar_cbar (cl n : Nat) (b : CBar) : ((setCbar cl n b s).clusterOf cl).cbar n = b := by
  simp only [setCbar, State.setClusterOf_same, Cluster.cbar, mget_mset_self, Option.getD_some]

/-- The participants of a cluster barrier whose last one arrives, in ascending order. -/
def CBar.last (b : CBar) (g : Nat) : List Nat := sortBy (fun a b => decide (a ≤ b)) (b.waiting ++ [g])

theorem last_perm (b : CBar) (g : Nat) : (b.last g).Perm (b.waiting ++ [g]) := sortBy_perm _ _

section
variable {x : SPair} (ca : s.canRead x.a = true) (cb : s.canRead x.b = true)
    (number : (s.reg x.a).toNat ≤ 15) (low : 1 ≤ (s.reg x.b).toNat) (high : (s.reg x.b).toNat ≤ 64)
    (b : CBar) (stands : (s.clusterOf (s.coreId / 8)).cbar (s.reg x.a).toNat = b)
    (agrees : b.count = 0 ∧ b.waiting = [] ∧ (s.reg x.b).toNat = 1 ∨ b.count = (s.reg x.b).toNat ∧ b.asid = s.ctx.asid)
    (last : (b.waiting ++ [s.cur]).length = (s.reg x.b).toNat) (nodup : (b.waiting ++ [s.cur]).Nodup) (performed : s.performed)
    (empty : ∀ g ∈ b.waiting ++ [s.cur], (s.hartOf g).deferred = [])
include ca cb number low high stands agrees last performed empty

theorem opCbar_last : opCbar x s = .ok .stay (releaseBarrier (b.last s.cur) (fun _ h => h)
    (setCbar (s.coreId / 8) (s.reg x.a).toNat CBar.reset s)) := by
  have owed : (b.last s.cur).any (owedBefore (b.last s.cur).contains s) = false :=
    List.any_eq_false.mpr fun g mem => by simp [owedBefore, empty g ((last_perm b s.cur).mem_iff.mp mem)]
  have bounds : (decide ((s.reg x.a).toNat ≤ 15) && s.reg x.b != 0 && decide ((s.reg x.b).toNat ≤ 64)) = true := by
    have : s.reg x.b ≠ 0#64 := fun zero => by simp [zero] at low
    simp [number, high, this]
  have length : (b.last s.cur).length = (s.reg x.b).toNat := (last_perm b s.cur).length_eq.trans last
  unfold opCbar
  simp only [bind_ok (readS_ok ca), bind_ok (readS_ok cb), bind_ok (require_ok bounds s), bind_ok (beforeBarrier_ok performed),
    bind_ok (get_run s), stands]
  have opened : (if b.count = 0 then ⟨(s.reg x.b).toNat, s.ctx.asid, []⟩ else b : CBar)
      = ⟨(s.reg x.b).toNat, s.ctx.asid, b.waiting⟩ := by
    rcases agrees with ⟨idle, none_, -⟩ | ⟨count, asid⟩
    · rw [if_pos idle, none_]
    · rw [if_neg (by omega), ← count, ← asid]
  unfold CBar.last at owed length
  simp only [opened, ne_eq, not_true, length, owed, Bool.false_eq_true, if_false, if_true]
  rfl

include nodup in
/-- The last of its participants arrives at a cluster barrier. -/
theorem exec_cbar_last :
    ∃ t, exec (.cbar x) s = .next t ∧ (∀ g ∈ b.waiting ++ [s.cur], (t.hartOf g).pc = nextSlot (s.hartOf g).pc
        ∧ (t.hartOf g).waitsAt = none ∧ (t.hartOf g).csr.instret = (s.hartOf g).csr.instret + 1)
      ∧ (t.clusterOf (s.coreId / 8)).cbar (s.reg x.a).toNat = { count := 0, asid := 0, waiting := [] } ∧ t.mem = s.mem := by
  have released := releaseBarrier_released (s := setCbar (s.coreId / 8) (s.reg x.a).toNat CBar.reset s)
    ((last_perm b s.cur).nodup_iff.mpr nodup) (fun g mem => empty g ((last_perm b s.cur).mem_iff.mp mem)) (fun _ h => h)
  have run := runUnit_ok (opCbar_last ca cb number low high b stands agrees last performed empty)
  generalize releaseBarrier _ _ _ = t at released run
  refine ⟨t, run, fun g mem => ?_, ?_, released.mem⟩
  · rw [released.harts g ((last_perm b s.cur).mem_iff.mpr mem)]
    exact ⟨rfl, retire_waitsAt .., rfl⟩
  · rw [State.clusterOf, released.clusters]
    exact setCbar_cbar ..

end

end

/-- The instructions at which the participants of a convoy's barrier stand, where all stand at a `vcfg` of one type. -/
theorem exists_vcfgs {s : State} {x : VCfg} {gs : List Nat}
    (arrived : ∀ g ∈ gs, g ≠ s.cur → ∃ y, arrival s g = some (.vcfg y) ∧ y.ew = x.ew ∧ y.grp = x.grp) :
    ∃ y : Nat → VCfg, y s.cur = x ∧ ∀ g ∈ gs, (g ≠ s.cur → arrival s g = some (.vcfg (y g)))
      ∧ (y g).ew = x.ew ∧ (y g).grp = x.grp := by
  have each (g : Nat) : ∃ y : VCfg, (g = s.cur → y = x) ∧ (g ∈ gs → (g ≠ s.cur → arrival s g = some (.vcfg y))
      ∧ y.ew = x.ew ∧ y.grp = x.grp) := by
    by_cases other : g ∈ gs ∧ g ≠ s.cur
    · obtain ⟨y, at_, type⟩ := arrived g other.1 other.2
      exact ⟨y, fun same => absurd same other.2, fun _ => ⟨fun _ => at_, type⟩⟩
    · exact ⟨x, fun _ => rfl, fun mem => ⟨fun ne => absurd ⟨mem, ne⟩ other, rfl, rfl⟩⟩
  choose y own types using each
  exact ⟨y, own _ rfl, types⟩

/-- Settles O31: a hart that arrives last settles the barrier, which releases every participant. -/
theorem barrierResults : Obligations.BarrierResults := by
  unfold Obligations.BarrierResults
  constructor
  · intro s u gs passed here nodup fresh performed members
    refine ⟨exec_bar_last here nodup members fresh performed, fun x arrived => ?_⟩
    obtain ⟨y, own, types⟩ := exists_vcfgs arrived
    obtain ⟨t, run, passes, ew, grp, clear, mem, dests⟩ := exec_vcfg_last here nodup members own fresh performed
      (fun g mem => (types g mem).1) (fun g mem => (types g mem).2)
    refine ⟨t, run, passes, ew, grp, clear, mem, fun g z part at_ dest => ?_⟩
    have same : y g = z := by
      by_cases cur : g = s.cur
      · rw [if_pos cur] at at_
        rw [cur, own, at_]
      · rw [if_neg cur, (types g part).1 cur] at at_
        injection at_ with at_
        injection at_
    subst same
    exact dests g part dest
  · intro s x ca cb n cnt cl b all number low high agrees last nodup performed empty
    exact exec_cbar_last ca cb number low high b rfl (by tauto) last nodup performed empty

end Sys2Proof.Machine
end

section
/-! PROOFS. R359, R319, R375, R269, R270: the state after reset; launches, `yield` and `exit`. -/

namespace Sys2Proof.Machine

/-- Settles O60, by evaluation: nothing is resident after reset, and memory is empty. -/
theorem resetState : Obligations.ResetState :=
  ⟨rfl, fun _ => rfl, rfl, rfl, rfl, fun _ resident => nomatch resident⟩

section
variable {s t : State}

/-! ### Reads of ordinary words -/

theorem State.walkedTo.settled (walked : s.walkedTo t) (settled : s.settled) : t.settled := by
  obtain ⟨c, n, rfl⟩ := walked
  exact settled

theorem State.walkedTo.metered (walked : s.walkedTo t) (key n : Nat) : s.walkedTo (t.after (meter key n)) := by
  obtain ⟨c, run⟩ := meter_spec t key n
  rw [State.after, run]
  exact walked.cores

theorem State.walkedTo.trans {u : State} (first : s.walkedTo t) (rest : t.walkedTo u) : s.walkedTo u := by
  obtain ⟨c, n, rfl⟩ := first
  obtain ⟨d, m, rfl⟩ := rest
  exact ⟨d, m, rfl⟩

theorem reads_walked {va : Word} {n v : Nat} (reads : s.reads va n v t) : s.walkedTo t := by
  obtain ⟨u, l, found, -, -, rfl⟩ := reads
  exact (finds_walked found).metered _ _

/-- Before the load of an ordinary word nothing is flushed or waited for. -/
theorem prepLoad_finds {fam : Fam} {va : Word} {n : Nat} {l : Loc} (found : s.finds fam .load va n l t)
    (sound : dataError t l.key = none) : prepLoad (.local_ l) va none none t = .ok () t := by
  have walked := finds_walked found
  obtain ⟨-, vault, host, log, calm⟩ := found
  have calm := walked.calm calm
  simp only [prepLoad, host, vault_not_depot vault, Bool.false_eq_true, if_false]
  rw [bind_ok (flushGranule_none calm.1 _), bind_ok (awaitOwn_calm calm _), bind_ok (awaitLogged_off log)]
  exact checkData_none sound _ _ _

/-- A read of an ordinary word owes no log entry. -/
theorem peekVa_reads {va : Word} {n v : Nat} (reads : s.reads va n v t) (ty : EType) : peekVa va n ty s = .ok (v, []) t := by
  obtain ⟨u, l, found, sound, rfl, rfl⟩ := reads
  have ⟨located, _, host, log, _⟩ := found
  unfold peekVa
  rw [bind_ok located, bind_ok (prepLoad_finds found sound)]
  simp only [takeLoad, host, Bool.false_eq_true, if_false, bind_assoc, pure_bind, placeLog, log]
  rw [bind_ok (meter_run _ _ _), bind_ok (get_run _), after_meter_mem, (finds_walked found).mem, pure_run]

/-- Operations in turn, each with its answer. -/
theorem mapM_each {α β : Type} {p : α → State → State → Prop} {f : α → M β} {g : α → β}
    (step : ∀ i s t, p i s t → f i s = .ok (g i) t) {is : List α} (each : State.Each p is s t) :
    is.mapM f s = .ok (is.map g) t := by
  induction each with
  | nil s => rfl
  | cons i is s t u first _ ih =>
    rw [List.mapM_cons, bind_ok (step i s t first), bind_ok ih, List.map_cons, pure_run]

theorem each_walked {α : Type} {p : α → State → State → Prop} (step : ∀ i s t, p i s t → s.walkedTo t) {is : List α}
    (each : State.Each p is s t) : s.walkedTo t := by
  induction each with
  | nil s => exact s.walkedTo_self
  | cons i is s t u first _ ih => exact (step i s t first).trans ih

theorem readsBlock_walked {base : Word} {ws : List Nat} (reads : s.readsBlock base ws t) : s.walkedTo t := by
  obtain ⟨ks, each, -⟩ := reads
  exact each_walked (fun _ _ _ => reads_walked) each

/-- A block of ordinary words owes no log entry. -/
theorem peekBlock_reads {base : Word} {ws : List Nat} (reads : s.readsBlock base ws t) :
    peekBlock base s = .ok (ws, []) t := by
  obtain ⟨ks, each, rfl⟩ := reads
  have run := mapM_each (f := fun i : Nat => peekVa (base + BitVec.ofNat 64 (8 * i)) 8 .n64)
    (g := fun i => ((mget ks i).getD 0, [])) (fun i _ _ read => peekVa_reads read .n64) each
  unfold peekBlock
  rw [bind_ok run, pure_run]
  simp [List.map_map, Function.comp_def]

theorem logAccesses_nil (log : Bool) : logAccesses log [] s = .ok () s := by
  unfold logAccesses
  rw [bind_ok (get_run s)]
  simp

/-! ### Launches -/

theorem opLaunch_run {x : Launch} {ws : List Nat} {cl ctx : Nat} (ha : s.canRead x.a = true) (hb : s.canRead x.b = true)
    (hc : s.canRead x.c = true) (aligned : (s.reg x.a).toNat % 64 = 0) (status : (s.reg x.c).toNat % 8 = 0)
    (reads : s.readsBlock (s.reg x.a) ws t) (live : liveQueue s (s.reg x.b) = some (cl, ctx))
    (valid : Packet_.ok (Packet_.ofWords ws) cl = true) (first : heldFirst t ctx = false)
    (room : routeRoom (t.ctxOf ctx) 1 = true) (free : queueFill t (s.reg x.b).toNat < 64) (settled : s.settled) :
    opLaunch x s = .ok .next (enqueue (s.reg x.b).toNat (Packet_.ofWords ws)
      { status := s.reg x.c, counter := some (s.hart.convoy, x.k), ctx := s.ctxId, view := s.hart.mode, gang := none
        reserved := [], detBase := none, logHeld := false } t) := by
  have walked := readsBlock_walked reads
  have checked : checkStatus (s.reg x.c) s = .ok () s := by simp [checkStatus, status, pure_run]
  have full : ¬queueFill t (s.reg x.b).toNat ≥ queueDepth := Nat.not_le.mpr free
  unfold opLaunch
  simp only [bind_ok (readS_ok ha), bind_ok (readS_ok hb), bind_ok (readS_ok hc), aligned, ne_eq, not_true, if_false,
    bind_ok checked, bind_ok (get_run _), live, bind_ok (peekBlock_reads reads), valid, first, room, full,
    Bool.not_true, Bool.false_eq_true, bind_ok (awaitPerformed_ok (walked.settled settled)), bind_ok (logAccesses_nil _),
    bind_ok (modify_run _ _), pure_run, walked.hart]
  obtain ⟨c, n, rfl⟩ := walked
  rfl

/-- The member words of a gang block. -/
theorem peekGang_reads {base : Word} {ws : List Nat} {w : Nat} {ks : List (Nat × Nat)} {u v : State}
    (reads : s.readsBlock base ws t) (head : State.reads (base + 64) 8 w t u)
    (members : State.Each (fun (i : Nat) a b => State.reads (base + BitVec.ofNat 64 (72 + 4 * i)) 4 ((mget ks i).getD 0) a b)
      (List.range (w % 2 ^ 18 + 1)) u v) :
    peekGang base s = .ok (⟨Packet_.ofWords ws, w, (List.range (w % 2 ^ 18 + 1)).map fun i => (mget ks i).getD 0⟩, []) v := by
  have run := mapM_each (f := fun i : Nat => peekVa (base + BitVec.ofNat 64 (72 + 4 * i)) 4 .n32)
    (g := fun i => ((mget ks i).getD 0, [])) (fun i _ _ read => peekVa_reads read .n32) members
  unfold peekGang
  rw [bind_ok (peekBlock_reads reads), bind_ok (peekVa_reads head .n64)]
  dsimp only
  rw [bind_ok run, pure_run]
  simp [List.map_map, Function.comp_def]

theorem opGlaunch_run {x : Launch} {b : GangBlock} (ha : s.canRead x.a = true) (hb : s.canRead x.b = true)
    (hc : s.canRead x.c = true) (aligned : (s.reg x.a).toNat % 64 = 0) (status : (s.reg x.c).toNat % 8 = 0)
    (queue : (s.reg x.b).toNat ≤ 255) (domain : s.ctx.fcid ≠ 0) (walked : s.walkedTo t)
    (block : peekGang (s.reg x.a) s = .ok (b, []) t) (valid : b.ok = true) (idle : s.idleAt .system) :
    opGlaunch x s = .ok .next (sendReserve x (s.reg x.b).toNat (s.reg x.c) b t) := by
  have checked : checkStatus (s.reg x.c) s = .ok () s := by simp [checkStatus, status, pure_run]
  have named : (decide ((s.reg x.b).toNat > 255) || s.ctx.fcid == 0) = false := by
    rw [decide_eq_false (Nat.not_lt.mpr queue), Bool.false_or]
    exact beq_eq_false_iff_ne.mpr domain
  unfold opGlaunch
  simp only [bind_ok (readS_ok ha), bind_ok (readS_ok hb), bind_ok (readS_ok hc), aligned, ne_eq, not_true, if_false,
    bind_ok checked, bind_ok (getCtx_run _), named, bind_ok block, valid, Bool.not_true, Bool.false_eq_true,
    bind_ok (releaseAt_idle (walked.idleAt idle)), bind_ok (logAccesses_nil _), bind_ok (modify_run _ _), pure_run]

/-! ### `exit` -/

theorem withdraw_parts (g : Nat) (s : State) :
    (withdraw g s).harts = s.harts ∧ (withdraw g s).cur = s.cur ∧ (withdraw g s).mem = s.mem := by
  have bar : (withdrawBar g s).harts = s.harts ∧ (withdrawBar g s).cur = s.cur ∧ (withdrawBar g s).mem = s.mem := by
    unfold withdrawBar
    dsimp only
    split <;> exact ⟨rfl, rfl, rfl⟩
  unfold withdraw withdrawCbar
  dsimp only
  split
  · exact bar
  · exact bar

/-- The end of the current hart. -/
theorem endHart_hart (status : BitVec 8) (s : State) :
    (endHart s.cur status s).hart = { s.hart with status := .ending status 1 } := by
  obtain ⟨harts, cur, -⟩ := withdraw_parts s.cur s
  have same : (withdraw s.cur s).hartOf s.cur = s.hart := by rw [State.hart, State.hartOf, harts]; rfl
  unfold endHart
  dsimp only
  rw [same, State.hart, State.setHartOf_cur, cur, State.setHartOf_same]

theorem endHart_mem (g : Nat) (status : BitVec 8) (s : State) : (endHart g status s).mem = s.mem :=
  (withdraw_parts g s).2.2

theorem hostFlushed_parts (s : State) : (∃ o, s.hostFlushed.hart = { s.hart with hostLast := o })
    ∧ s.hostFlushed.cur = s.cur ∧ s.hostFlushed.mem = s.mem := by
  unfold State.hostFlushed
  split
  · exact ⟨⟨none, State.setHart_hart ..⟩, rfl, rfl⟩
  · exact ⟨⟨s.hart.hostLast, rfl⟩, rfl, rfl⟩

/-- What the hart that ends finds before its status is fixed, a gang's hart having flushed its host writes (R375). -/
def State.exiting (s : State) : State := if s.hart.join.gang.isSome then s.hostFlushed else s

theorem exiting_parts (s : State) : (∃ o, s.exiting.hart = { s.hart with hostLast := o })
    ∧ s.exiting.cur = s.cur ∧ s.exiting.mem = s.mem := by
  unfold State.exiting
  split
  · exact hostFlushed_parts s
  · exact ⟨⟨s.hart.hostLast, rfl⟩, rfl, rfl⟩

/-- The state in which an `exit` has counted, and its hart ends (R270). -/
def State.exited (s : State) : State :=
  resumeDetection ((dropItems s.exiting).setHart { s.exiting.hart with
    csr := { s.exiting.hart.csr with instret := s.exiting.hart.csr.instret + 1 } })

theorem exited_parts (s : State) : (∃ o, s.exited.hart =
    { s.hart with hostLast := o, csr := { s.hart.csr with instret := s.hart.csr.instret + 1 } })
    ∧ s.exited.cur = s.cur ∧ s.exited.mem = s.mem := by
  obtain ⟨⟨o, hart⟩, cur, mem⟩ := exiting_parts s
  unfold State.exited
  rw [resumeDetection_hart, State.setHart_hart, (resumeDetection_parts _).1, resumeDetection_mem, hart]
  exact ⟨⟨o, rfl⟩, cur, mem⟩

/-- A hart with nothing outstanding ends at `exit`. -/
theorem opExit_run (mma : s.hart.mma = []) (deferred : s.hart.deferred = []) (items : hartItems s = [])
    (flushed : s.hart.flushFault = none) :
    opExit s = .ok .stay (endHart s.exited.cur (if s.hart.mode = .user then 0 else s.hart.csr.xcause) s.exited) := by
  obtain ⟨⟨o, hart⟩, cur, -⟩ := exiting_parts s
  have gang : (if s.hart.join.gang.isSome = true then flushHost else pure ()) s = .ok () s.exiting := by
    unfold State.exiting
    split
    · rfl
    · rfl
  unfold opExit
  rw [bind_ok (getHart_run s)]
  simp only [mma, List.isEmpty_nil, Bool.not_true, Bool.false_eq_true, if_false, bind_ok (modify_run _ _), deferred,
    List.length_nil, flushExit, bind_ok (get_run _), items, List.any_nil, Bool.or_self]
  rw [ifUnit_bind, bind_ok gang, bind_ok (get_run _), bind_ok (modify_run _ _), pure_run, (exited_parts s).2.1, ← cur]
  have code : (if s.exiting.hart.flushFault.isSome = true then 0x14 else if s.exiting.hart.mode = .user then 0
      else s.exiting.hart.csr.xcause) = (if s.hart.mode = .user then 0 else s.hart.csr.xcause) := by
    rw [hart]
    simp [flushed]
  rw [code]
  rfl

/-- Settles O33: each instruction follows its own path to the end of its unit. -/
theorem launchResults : Obligations.LaunchResults := by
  unfold Obligations.LaunchResults
  refine ⟨fun s t x ws ha hb hc aligned status reads => ⟨?_, ?_⟩, fun s d unwanted => ?_, fun s d cls wants => ⟨?_, ?_⟩, ?_⟩
  · intro cl ctx live valid first room free settled
    exact runUnit_next (opLaunch_run ha hb hc aligned status reads live valid first room free settled)
  · intro u v w ks queue domain head members block valid idle
    have walked := ((readsBlock_walked reads).trans (reads_walked head)).trans (each_walked (fun _ _ _ => reads_walked) members)
    exact runUnit_next (opGlaunch_run ha hb hc aligned status queue domain walked (peekGang_reads reads head members) valid idle)
  · have stays : (s.convoy.cls != 0 && wanted s s.hart.convoy s.coreId false) = false := by
      rcases unwanted with free | unwanted
      · simp [free]
      · simp [unwanted]
    refine runUnit_hart ?_
    simp only [opYield, stays, Bool.false_eq_true, if_false]
  · intro may
    have asked : (s.convoy.cls != 0 && wanted s s.hart.convoy s.coreId false) = true := by simp [cls, wants]
    have run : opYield d s = .ok .stay (leave s.hart.convoy (commitHart (Hart.writeS d 1) s s.cur)) := by
      simp only [opYield, asked, may, if_true]
    exact runUnit_ok run
  · intro may
    have asked : (s.convoy.cls != 0 && wanted s s.hart.convoy s.coreId false) = true := by simp [cls, wants]
    refine runUnit_next ?_
    simp only [opYield, asked, may, if_true, Bool.false_eq_true, if_false]
  · intro s mma deferred items flushed
    obtain ⟨⟨o, hart⟩, -, mem⟩ := exited_parts s
    refine ⟨_, runUnit_ok (c := .stay) (opExit_run mma deferred items flushed), ?_⟩
    rw [finishUnit, endHart_hart, endHart_mem, hart]
    exact ⟨rfl, rfl, rfl, mem⟩

end

end Sys2Proof.Machine
end

section
/-! PROOFS. R165, R166, R307, R331: the system instructions `tlbi`, `logctl`, `halt` and `wfe`. -/

namespace Sys2Proof.Machine

section
variable {s t : State}

theorem supervisor_ok (mode : s.hart.mode = .supervisor) : supervisor s = .ok () s := by
  unfold supervisor
  rw [bind_ok (getHart_run s), if_neg (by rw [mode]; decide)]
  rfl

/-! ### `tlbi` (R307) -/

/-- No update is deferred by any hart, and no flag is held: no access can have used an entry that is removed. -/
structure State.NothingHeld (s : State) : Prop where
  harts : ∀ p ∈ s.harts, p.2.deferred = []
  saved : ∀ c ∈ s.convoys, ∀ o ∈ c.2.out, o.2.deferred = []
  items : ∀ i ∈ s.items, flagKey i = none

theorem pendingThrough_none (none_ : s.NothingHeld) (vd : Nat) (p : TlbEntry → Bool) : pendingThrough vd p s = false := by
  have harts : (s.harts.any fun h => ((s.ctxOf (s.convoyOf h.2.convoy).ctx).vdev == vd)
      && h.2.deferred.any (usesEntry p)) = false :=
    List.any_eq_false.mpr fun h mem => by simp [none_.harts h mem]
  have saved : (s.convoys.any fun c => ((s.ctxOf c.2.ctx).vdev == vd)
      && c.2.out.any fun o => o.2.deferred.any (usesEntry p)) = false := by
    refine List.any_eq_false.mpr fun c mem => ?_
    have out : (c.2.out.any fun o => o.2.deferred.any (usesEntry p)) = false :=
      List.any_eq_false.mpr fun o at_ => by simp [none_.saved c mem o at_]
    simp [out]
  have items : (s.items.any fun i => ((s.ctxOf (s.convoyOf i.convoy).ctx).vdev == vd)
      && (flagKey i).isSome && i.entry.all p) = false :=
    List.any_eq_false.mpr fun i mem => by simp [none_.items i mem]
  simp only [pendingThrough, harts, saved, items, Bool.or_self]

theorem invalidate_run (settled : s.settled) (none_ : s.NothingHeld) (p : TlbEntry → Bool) :
    invalidate p s = .ok .next (dropTlb s.ctx.vdev p s) := by
  unfold invalidate
  simp only [bind_ok (awaitPerformed_ok settled), bind_ok (get_run s), pendingThrough_none none_, Bool.false_eq_true, if_false,
    bind_ok (modify_run _ _), pure_run]

/-! ### `logctl` (R331) -/

/-- The log is written as far as it is reserved, and no update of the hart is still to enter it. -/
structure State.LogWritten (s : State) (order : Bool) : Prop where
  pending : (theLog s.ctx order).pending = []
  held : (theLog s.ctx order).held = 0
  deferred : order = true → ∀ d ∈ s.hart.deferred, d.place = none

/-- The state with another ordering or route log of the current context. -/
def State.withLog (s : State) (order : Bool) (l : Log) : State :=
  s.setCtxOf s.ctxId (if order then { s.ctx with order := l } else { s.ctx with route := l })

theorem syncLog_run {order : Bool} (written : s.LogWritten order) : syncLog order s = .ok (theLog s.ctx order) s := by
  have owed : (order && s.hart.deferred.any fun d => d.place.isSome) = false := by
    cases order with
    | false => rfl
    | true =>
      rw [Bool.true_and]
      exact List.any_eq_false.mpr fun d mem => by simp [written.deferred rfl d mem]
  unfold syncLog
  simp only [bind_ok (getHart_run s), owed, Bool.false_eq_true, if_false, bind_ok (getCtx_run s), written.pending, written.held,
    List.isEmpty_nil, Bool.not_true, bne_self_eq_false, Bool.or_self, pure_run]

theorem setLog_run (order : Bool) (f : Log → Log) : setLog order f s = .ok () (s.withLog order (f (theLog s.ctx order))) := by
  cases order <;> rfl

theorem withLog_hart (order : Bool) (l : Log) : (s.withLog order l).hart = s.hart := rfl

theorem opLogctlSync_run {x : LogSync} (mode : s.hart.mode = .supervisor) (written : s.LogWritten x.order) :
    opLogctlSync x s = .ok .next (s.setHart (s.hart.writeS x.d (theLog s.ctx x.order).head)) := by
  unfold opLogctlSync
  rw [bind_ok (supervisor_ok mode), bind_ok (syncLog_run written), bind_ok (writeS_run _ _ _), pure_run]

theorem opLogctlSwap_run {x : LogSwap} (mode : s.hart.mode = .supervisor) (ha : s.canRead x.a = true)
    (hb : s.canRead x.b = true) (written : s.LogWritten x.order) (base : (s.reg x.a).toNat % 16 = 0)
    (limit : (s.reg x.b).toNat % 16 = 0) (order : (s.reg x.a).toNat ≤ (s.reg x.b).toNat) :
    opLogctlSwap x s = .ok .next ((s.withLog x.order { theLog s.ctx x.order with
      base := s.reg x.a, head := s.reg x.a, limit := s.reg x.b, full := false }).setHart
        (s.hart.writeS x.d (theLog s.ctx x.order).head)) := by
  have bounds : ¬((s.reg x.a).toNat % 16 ≠ 0 ∨ (s.reg x.b).toNat % 16 ≠ 0 ∨ (s.reg x.b).toNat < (s.reg x.a).toNat) := by
    omega
  unfold opLogctlSwap
  simp only [bind_ok (supervisor_ok mode), bind_ok (readS_ok ha), bind_ok (readS_ok hb), bounds, if_false,
    bind_ok (syncLog_run written), bind_ok (setLog_run _ _), bind_ok (writeS_run _ _ _), withLog_hart, pure_run]

theorem opLogctlMark_off {x : S2} (mode : s.hart.mode = .supervisor) (ha : s.canRead x.a = true) (off : s.ctx.order.en = false) :
    opLogctlMark x s = .ok .next (s.setHart (s.hart.writeS x.d (BitVec.allOnes 64))) := by
  unfold opLogctlMark
  simp only [bind_ok (supervisor_ok mode), bind_ok (readS_ok ha), bind_ok (get_run s), off, Bool.not_false, if_true,
    bind_ok (writeS_run _ _ _), pure_run]

theorem opLogctlMark_on {x : S2} (mode : s.hart.mode = .supervisor) (ha : s.canRead x.a = true) (on : s.ctx.order.en = true)
    (room : s.ctx.order.room 1 = true) :
    opLogctlMark x s = .ok .next ((s.withLog true (s.ctx.order.reserve (orderEntry s.cur 15 0 s.hart.csr.instret.toNat
      ((s.reg x.a).toNat % 2 ^ 59)))).setHart (s.hart.writeS x.d s.ctx.order.head)) := by
  unfold opLogctlMark
  simp only [bind_ok (supervisor_ok mode), bind_ok (readS_ok ha), bind_ok (get_run s), on, room, Bool.not_true,
    Bool.false_eq_true, if_false, bind_ok (setLog_run _ _), bind_ok (writeS_run _ _ _), withLog_hart, pure_run]
  rfl

/-! ### `halt` and `wfe` -/

theorem raiseInt_hart (f v : Nat) : (raiseInt f v s).hart = s.hart := by
  unfold raiseInt
  dsimp only
  split <;> rfl

theorem raiseInt_replies (f v : Nat) :
    (raiseInt f v s).replies = if (s.fnOf f).intcause.getLsbD v then s.replies else .interrupt f v :: s.replies := by
  unfold raiseInt
  dsimp only
  split <;> rfl

/-- A cause that is raised is pending. -/
theorem raiseInt_pending (f : Nat) {v : Nat} (small : v < 8) : ((raiseInt f v s).fnOf f).intcause.getLsbD v = true := by
  unfold raiseInt
  dsimp only
  split
  next pending => exact pending
  next =>
    have set_ : ∀ x : Fn, ({ s.setFnOf f x with replies := .interrupt f v :: s.replies } : State).fnOf f = x :=
      fun x => State.setFnOf_same ..
    rw [set_]
    simp [small]

theorem resumeDetection_host (s : State) : (resumeDetection s).fns = s.fns ∧ (resumeDetection s).replies = s.replies := by
  unfold resumeDetection
  split <;> exact ⟨rfl, rfl⟩

theorem opHalt_run (mode : s.hart.mode = .supervisor) (mma : s.hart.mma = []) (settled : s.settled) :
    opHalt s = .ok .stay (raiseInt (fnOfVdev s s.ctx.vdev) 5 ((resumeDetection s).setHart
      { retire 1 (nextSlot s.hart.pc) s.hart with status := .halted })) := by
  unfold opHalt
  simp only [bind_ok (supervisor_ok mode), bind_ok (getHart_run s), mma, List.isEmpty_nil, Bool.not_true, Bool.false_eq_true,
    if_false, bind_ok (awaitPerformed_ok settled), bind_ok (modify_run _ _), pure_run]

theorem opWfe_differs {x : S3} {l : Loc} (ha : s.canRead x.a = true) (hb : s.canRead x.b = true)
    (found : s.finds .wfe .load (s.reg x.a) 4 l t) (sound : dataError t l.key = none)
    (differs : memReadN s.mem l.key 4 ≠ (s.reg x.b).toNat % 2 ^ 32) :
    opWfe x s = .ok .next ((t.after (meter l.key 4)).setHart (s.hart.writeS x.d 0)) := by
  have walked := finds_walked found
  have place : wfePlace (s.reg x.a) s = .ok l t := by
    unfold wfePlace
    rw [bind_ok found.1]
    rfl
  have log : logOne l 1 (s.reg x.a) none t = .ok () t := logOne_off found.2.2.2.1 _ _ _
  unfold opWfe
  simp only [bind_ok (readS_ok ha), bind_ok (readS_ok hb), bind_ok place, bind_ok (prepLoad_finds found sound), bind_ok log,
    bind_ok (meter_run _ _ _), bind_ok (get_run _), after_meter_mem, walked.mem, ne_eq, differs, not_false_eq_true, if_true,
    bind_ok (writeS_run _ _ _), after_meter_hart, walked.hart, pure_run]

/-- Settles O38: each instruction passes its checks, and its one effect is what remains. -/
theorem systemResults : Obligations.SystemResults := by
  unfold Obligations.SystemResults
  refine ⟨fun s mode settled harts saved items => ?_, fun s mode => ?_, fun s mode mma settled => ?_, ?_⟩
  · have none_ : s.NothingHeld := ⟨harts, saved, items⟩
    refine ⟨runUnit_next ((bind_ok (supervisor_ok mode)).trans (invalidate_run settled none_ _)), fun b hb => ?_,
      fun x ha hb => ?_⟩
    · exact runUnit_next ((bind_ok (supervisor_ok mode)).trans
        ((bind_ok (readS_ok hb)).trans (invalidate_run settled none_ _)))
    · exact runUnit_next ((bind_ok (supervisor_ok mode)).trans
        ((bind_ok (readS_ok ha)).trans ((bind_ok (readS_ok hb)).trans (invalidate_run settled none_ _))))
  · intro logOf withLog written
    have known {order : Bool} (w : written order) : s.LogWritten order := ⟨w.1, w.2.1, w.2.2⟩
    refine ⟨fun x w => runUnit_hart (opLogctlSync_run mode (known w)), fun x ha hb w base limit order => ?_,
      fun x ha => ⟨fun off => runUnit_hart (opLogctlMark_off mode ha off), fun on room => ?_⟩⟩
    · exact runUnit_next (opLogctlSwap_run mode ha hb (known w) base limit order)
    · exact runUnit_next (opLogctlMark_on mode ha on room)
  · intro f
    refine ⟨_, runUnit_ok (c := .stay) (opHalt_run mode mma settled), ?_⟩
    rw [finishUnit, raiseInt_hart, State.setHart_hart, raiseInt_mem, raiseInt_replies]
    refine ⟨rfl, resumeDetection_mem s, raiseInt_pending f (by omega), ?_⟩
    obtain ⟨fns, replies⟩ := resumeDetection_host s
    simp only [State.fnOf, State.setHart_fns, State.setHart_replies, fns, replies]
    rfl
  · intro s t l x ha hb found sound differs
    exact runUnit_next (opWfe_differs ha hb found sound differs)

end

end Sys2Proof.Machine
end

section
/-! PROOFS. R144, R145, R166, R186, R195, R196, R206, R215, R265, R268: waiting units that go on. -/

namespace Sys2Proof.Machine

section
variable {s t v : State} {g : Nat} {h : Hart}

/-- The state in which hart `g` is the current one. -/
abbrev State.turned (s : State) (g : Nat) : State := { s with cur := g }

theorem turned_hart (resident : mget s.harts g = some h) : (s.turned g).hart = h := by
  unfold State.hart State.hartOf
  rw [show (s.turned g).harts = s.harts from rfl, show (s.turned g).cur = g from rfl, resident, Option.getD_some]

/-- The hart after a unit that committed. -/
theorem commits_hartOf (cur : t.cur = g) : (s.commits t).hartOf g = retire 1 (nextSlot s.hart.pc) t.hart := by
  subst cur
  unfold State.commits finishUnit
  rw [State.setHart, (resumeDetection_parts t).1, State.setHartOf_same]

theorem retire_not_stalled (n : Nat) (pc : Word) (h : Hart) : (retire n pc h).status ≠ .stalled := by
  unfold retire
  cases h.status <;> simp

/-- A waiting hart whose instruction can be performed goes on. -/
theorem wakeHart_run {p : Instr → Bool} {i : Instr} {op : M Ctl} (resident : mget s.harts g = some h)
    (stays : (s.convoyOf h.convoy).leaving = false) (waits : h.status = .waiting i) (named : p i = true)
    (known : waitOp i = some op) (run : op (s.turned g) = .ok .next t) (cur : t.cur = g) :
    wakeHart p g s = (s.turned g).commits t := by
  have at_ : h.waitsAt = some i := by rw [Hart.waitsAt, waits]
  have gone : (((s.turned g).commits t).hartOf g).waitsAt.isSome = false := by
    rw [commits_hartOf cur, retire_waitsAt]
    rfl
  unfold wakeHart
  simp only [resident, stays, Bool.false_eq_true, if_false, at_, named, known, runUnit_next run, gone]

theorem endWfe_run {p : Hart → Bool} {x : S3} (resident : mget s.harts g = some h)
    (stays : (s.convoyOf h.convoy).leaving = false) (waits : h.status = .waiting (.wfe x)) (due : p h = true) (v : Word) :
    endWfe g v p s = commitHart (fun k => Hart.writeS x.d v { k with armed := none }) s g := by
  have at_ : h.waitsAt = some (.wfe x) := by rw [Hart.waitsAt, waits]
  simp only [endWfe, resident, at_, due, stays, Bool.not_false, Bool.and_self, if_true]

theorem fetchUnit_walked (s : State) : s.walkedTo (fetchUnit s).2 := by
  have walked := fetchLine_walked (lineOf s.hart.pc) s.walkedTo_self
  cases fetch : fetchLine (lineOf s.hart.pc) s with
  | ok key t =>
    rw [EndsIn, fetch] at walked
    rw [fetchUnit_ok fetch]
    exact walked
  | error c t =>
    rw [EndsIn, fetch] at walked
    rw [show fetchUnit s = (.bad c false true, t) by simp only [fetchUnit, fetch]]
    exact walked

theorem exec_tileAccess {i : Instr} (access : isTileAccess i = true) : exec i s = runUnit (opOf i) s := by
  unfold isTileAccess at access
  split at access
  case h_10 => exact absurd access Bool.false_ne_true
  all_goals rfl

/-- A stalled tile access that can be performed goes on (R206). -/
theorem retryTile_run {i : Instr} (resident : mget s.harts g = some h) (stalled : h.status = .stalled)
    (access : isTileAccess i = true) (fetched : fetchUnit (s.turned g) = (.one i, v)) (run : exec i v = .next t)
    (goes : (t.hartOf g).status ≠ .stalled) : retryTile g s = t := by
  rw [exec_tileAccess access] at run
  unfold retryTile
  simp only [resident, stalled, ne_eq, not_true, if_false, fetched, access, if_true, run, goes]

theorem retryTile_commits {i : Instr} {u : State} (resident : mget s.harts g = some h) (stalled : h.status = .stalled)
    (access : isTileAccess i = true) (fetched : fetchUnit (s.turned g) = (.one i, v)) (run : exec i v = .next (v.commits u))
    (same : u.cur = v.cur) : retryTile g s = v.commits u := by
  have walked := fetchUnit_walked (s.turned g)
  rw [fetched] at walked
  have turn : v.cur = g := by
    obtain ⟨c, n, rfl⟩ := walked
    rfl
  refine retryTile_run resident stalled access fetched run ?_
  rw [commits_hartOf (same.trans turn)]
  exact retire_not_stalled _ _ _

theorem foldl_tilePoke_cur (core : Nat) (off : Nat → Nat) (bytes : Nat → List Byte) (is : List Nat) (s : State) :
    (is.foldl (fun t i => tilePoke core (off i) (bytes i) t) s).cur = s.cur := by
  induction is generalizing s with
  | nil => rfl
  | cons i is ih => exact ih _

/-- Settles O41: what waited is performed as the hart's unit. -/
theorem wakeResults : Obligations.WakeResults := by
  unfold Obligations.WakeResults
  refine ⟨fun s g h resident stays => ?_, fun s g h resident stays => ⟨?_, ?_, ?_, ?_⟩, ?_, ?_⟩
  · intro u
    have hart : u.hart = h := turned_hart resident
    refine ⟨fun x waits b reached => ?_, fun x v rest waits nb entry turn => ?_, fun x waits nb par a room performed => ?_,
      fun x waits fits => ?_, fun x waits fits nb => ?_⟩
    · have run := wakeHart_run resident stays waits (p := isWaitK) rfl rfl (opWait_run (s := u) b reached) rfl
      rw [hart] at run
      exact congrArg _ run
    · have run := wakeHart_run resident stays waits (p := isQgetAny) rfl rfl (opQget_entry (s := u) entry fun _ => turn) rfl
      rw [hart, nb] at run
      exact congrArg _ run
    · have target : putTarget x.par u = .ok u.hart.convoy u := by rw [par]; rfl
      have run := wakeHart_run resident stays waits (p := isQput) rfl rfl (opQput_room a target room performed) (by rw [nb]; rfl)
      rw [nb] at run
      exact congrArg _ run
    · intro is room
      have run := wakeHart_run resident stays waits (p := isVspush) rfl rfl (opVspush_run fits rfl room) rfl
      rw [hart] at run
      exact congrArg _ run
    · intro is q there whole sound
      have count : min is.length (u.convoy.sq[x.q].length / tBytes x.t) = is.length :=
        Nat.min_eq_left ((Nat.le_div_iff_mul_le (tBytes_pos_of_fits fits)).mpr there)
      have run := wakeHart_run resident stays waits (p := isVspop) rfl rfl
        (opVspop_run fits rfl count (fun _ => ⟨there, whole⟩) sound) rfl
      rw [hart, List.take_length] at run
      exact congrArg _ run
  · intro x waits ends
    refine ⟨fun written => congrArg _ (endWfe_run resident stays waits written 1), fun late => ?_⟩
    exact congrArg _ (endWfe_run resident stays waits (decide_eq_true late) 2)
  · intro stalled v
    refine ⟨fun x n within free sound fetched => ?_, fun x n within fetched => ?_, fun x a number => ?_,
      fun i access fetched t run goes => congrArg _ (retryTile_run resident stalled access fetched run goes)⟩
    · obtain ⟨fits, slot, ⟨shown, own, ready⟩, inside⟩ := within
      have elems : tileElems v x n = v.active x.m := by simp [tileElems, free]
      have run := opVldt_run fits slot shown own (.inl ready) (by rw [elems]; exact inside) sound
      rw [elems] at run
      exact congrArg _ (retryTile_commits resident stalled rfl fetched (runUnit_hart run) rfl)
    · obtain ⟨fits, slot, ready, inside⟩ := within
      exact congrArg _ (retryTile_commits resident stalled rfl fetched
        (runUnit_next (opVstt_run fits slot ready inside)) (foldl_tilePoke_cur ..))
    · intro tile shown idle fetched
      exact congrArg _ (retryTile_commits resident stalled rfl fetched
        (runUnit_hart (opTwait_run a number shown fun _ => idle)) rfl)
  · intro x t places waits u clean nonempty placed checked idle calm rs
    have hart : u.hart = h := turned_hart resident
    have walked := (pdotCheck_keeps (State.Looked.kept u) _ _ _ (.refl u)).ok checked
    have cur : t.cur = g := by
      obtain ⟨c, n, rfl⟩ := walked.walked
      rfl
    rw [← hart] at idle
    exact congrArg _ (wakeHart_run resident stays waits (p := isPdot) rfl rfl
      (opPdot_run clean nonempty placed checked idle calm) cur)
  · intro issued late
    have at_ : pdotAtIssue g s h = true := by
      rcases issued with ⟨x, waits⟩ | ⟨stalled, i, j, v, fetched, pdot⟩
      · simp [pdotAtIssue, waits, isPdot]
      · simp only [pdotAtIssue, stalled, fetched, pdot]
    refine congrArg Host.Outcome.next ?_
    have due : decide (h.stamp + ageLimit ≤ s.now) = true := decide_eq_true late
    simp only [resident, at_, due, Bool.and_self, if_true]
  · intro s g h p rest resident oldest
    refine congrArg Host.Outcome.next ?_
    simp only [resident, oldest]
  · intro s u g dead lowest
    refine congrArg Host.Outcome.next ?_
    simp only [dead, if_true, lowest]

end

end Sys2Proof.Machine
end

section
/-! PROOFS. R16, R209, R214, R219 to R222, R308, R327, R330: the steps of the copy engine, of counters and of logs. -/

namespace Sys2Proof.Machine

section
variable {s t : State}

/-! ### Chunks and ends of a transfer -/

section
variable {core id : Nat} {t : Transfer} (found : findTransfer s core id = some t)
include found

theorem chunkStep_moves {c n : Nat} {u : State} (may : t.mayMove c = true) (fresh : t.acks.contains c = false)
    (moved : moveChunk core t c s = .ok n u) :
    let t' := { t with written := t.written + n }
    let v := u.setCoreOf core { u.coreOf core with bankBusy := (u.coreOf core).bankBusy ||| chunkBanks s core t' c }
    chunkStep core id c s = if (chunkItems v core t' c).isEmpty then markChunk core t' c v
      else setTransfer core { t' with acks := t.acks ++ [c] } v := by
  unfold chunkStep
  simp only [found, may, Bool.not_true, Bool.false_eq_true, if_false, fresh, moved]

/-- A chunk that has been moved is done once none of its bytes waits. -/
theorem chunkStep_answered {c : Nat} (may : t.mayMove c = true) (moved : t.acks.contains c = true)
    (answered : chunkItems s core t c = []) : chunkStep core id c s = markChunk core t c s := by
  unfold chunkStep
  simp only [found, may, Bool.not_true, Bool.false_eq_true, if_false, moved, if_true, answered, writeCame, List.foldl_nil,
    List.isEmpty_nil]

theorem exec_transferComplete (runs : t.runs = true) (finished : t.isOver = true) :
    exec (.transferComplete core id) s = .next (finishTransfer core t none s) := by
  refine congrArg Host.Outcome.next ?_
  simp only [found, runs, finished, Bool.and_self, if_true]

theorem exec_transferFailure {cause : BitVec 8} {addr : Word} {u : State}
    (fails : t.failed = some (cause, addr) ∧ u = s
      ∨ t.failed = none ∧ t.runs = true ∧ transferFails s core t = some ((cause, addr), u)) :
    exec (.transferFailure core id cause addr) s = .next (failTransfer core t (cause, addr) u) := by
  refine congrArg Host.Outcome.next ?_
  rcases fails with ⟨failed, rfl⟩ | ⟨fresh, runs, meets⟩
  · simp only [found, failed, beq_self_eq_true, if_true]
  · simp only [found, fresh, meets, runs, beq_self_eq_true, Bool.and_self, if_true]

theorem exec_engineTranslationFault {cause : BitVec 8} {va : Word} (soft : transferSoft s core t = some (cause, va)) :
    exec (.engineTranslationFault core id) s =
      .next (let r := addFault (s.ctxOf t.ctx).vdev t.ctx 1 (BitVec.ofNat 8 core) cause va (.transfer core id) s
        setTransfer core { t with fault := some r.2 } r.1) := by
  refine congrArg Host.Outcome.next ?_
  simp only [found, soft]

end

/-! ### Counters and logs -/

/-- The counter of a convoy that is resident, with its error record where an operation failed (R21, R214, R221). -/
theorem bumpCounter_resident {u : Nat} {c : Convoy} (there : mget s.convoys u = some c) (lives : c.ended = false)
    (resident : c.record = none) (k : KName) (n : Word) (fail : Option OpFail) :
    bumpCounter u k n fail s = s.setConvoyOf u (Convoy.addK k n (match fail with
      | some f => c.addErr k f.kind f.cause f.bytes f.addr
      | none => c)) := by
  have live : liveConvoy s u = some c := by simp [liveConvoy, there, lives]
  unfold bumpCounter
  cases fail <;> simp only [live, resident]

theorem exec_orderLogEntryFill {ctx : Nat} {order : Bool} {e : LogEntry} {rest : List LogEntry}
    (oldest : (theLog (s.ctxOf ctx) order).pending = e :: rest) (free : (theLog (s.ctxOf ctx) order).fault = none)
    (due : order = true → entryOwed s ctx e.at_ = false) (written : logWrite ctx e s = .ok () t) :
    exec (.orderLogEntryFill ctx order) s = .next (onLog ctx order (fun l => { l with pending := rest }) t) := by
  have performed : (order && entryOwed s ctx e.at_) = false := by
    rw [Bool.and_eq_false_imp]
    exact due
  refine congrArg Host.Outcome.next ?_
  simp only [oldest, free, performed, Bool.false_eq_true, if_false, written]

/-- Settles O42: each step of the engine takes the one branch that its hypotheses name. -/
theorem engineResults : Obligations.EngineResults := by
  unfold Obligations.EngineResults
  refine ⟨fun s core id t found => ⟨fun c n u may fresh moved => ?_, fun c may moved answered => ?_, ?_, ?_, ?_⟩, ?_, ?_⟩
  · exact congrArg Host.Outcome.next (chunkStep_moves found may fresh moved)
  · exact congrArg Host.Outcome.next (chunkStep_answered found may moved answered)
  · exact exec_transferComplete found
  · exact fun cause addr u fails => exec_transferFailure found fails
  · exact fun cause va soft => exec_engineTranslationFault found soft
  · intro s u k n c there lives resident
    refine ⟨?_, fun f => ?_⟩
    · rw [bumpCounter_resident there lives resident, State.setConvoyOf_same]
      rfl
    · rw [bumpCounter_resident there lives resident, State.setConvoyOf_same]
      rfl
  · intro s t ctx order e rest l oldest free due written
    exact exec_orderLogEntryFill oldest free due written

end

end Sys2Proof.Machine
end

section
/-! PROOFS. R239, R261, R270, R308, R319, R333: the end of a hart. -/

namespace Sys2Proof.Machine

section
variable {s t : State} {g j : Nat} {p : Hart → Prop}

/-! ### A property of one hart, whatever the others do -/

/-- Hart `g` is there, and what is entered under its number has the property. -/
structure State.HartHas (g : Nat) (p : Hart → Prop) (s : State) : Prop where
  there : (mget s.harts g).isSome = true
  all : ∀ e ∈ s.harts, e.1 = g → p e.2

theorem State.HartHas.hartOf (has : s.HartHas g p) : p (s.hartOf g) := by
  obtain ⟨h, at_⟩ := Option.isSome_iff_exists.mp has.there
  obtain ⟨e, found, rfl⟩ := Option.map_eq_some_iff.mp at_
  have key : e.1 = g := by simpa using List.find?_some found
  rw [State.hartOf, at_, Option.getD_some]
  exact has.all e (List.mem_of_find?_eq_some found) key

theorem State.HartHas.of_harts (has : s.HartHas g p) (same : t.harts = s.harts) : t.HartHas g p :=
  ⟨by rw [same]; exact has.there, by rw [same]; exact has.all⟩

theorem State.HartHas.turned (has : s.HartHas g p) (n : Nat) : (s.turned n).HartHas g p := ⟨has.there, has.all⟩

theorem hartHas_setHartOf {h : Hart} (holds : p h) : (s.setHartOf g h).HartHas g p where
  there := by simp [State.setHartOf]
  all e mem key := by
    rcases (mem_minsert _ _ _ _).mp mem with rfl | mem
    · exact holds
    · simp [merase, key] at mem

theorem State.HartHas.setHartOf (has : s.HartHas g p) (other : j ≠ g) (h : Hart) : (s.setHartOf j h).HartHas g p where
  there := by
    rw [State.setHartOf]
    simpa [mget_mset, other] using has.there
  all e mem key := by
    rcases (mem_minsert _ _ _ _).mp mem with rfl | mem
    · exact absurd key other
    · exact has.all e (List.mem_of_mem_filter mem) key

theorem State.HartHas.map (has : s.HartHas g p) (f : Nat × Hart → Nat × Hart) (keys : ∀ e, (f e).1 = e.1)
    (keeps : ∀ e, p e.2 → p (f e).2) (harts : t.harts = s.harts.map f) : t.HartHas g p where
  there := by
    rw [harts, mget_map f keys]
    simpa using has.there
  all e mem key := by
    rw [harts] at mem
    obtain ⟨d, there, rfl⟩ := List.mem_map.mp mem
    exact keeps d (has.all d there ((keys d).symm.trans key))

/-- A hart that has left its convoy, with what is still deferred (R261). -/
def Left (status : BitVec 8) (ds : List Deferred) (h : Hart) : Prop := h.status = .ending status 10 ∧ h.deferred = ds

/-- A hart that is ending takes part in no barrier. -/
theorem not_mem_participants {status : BitVec 8} {ds : List Deferred} (has : s.HartHas g (Left status ds)) (u : Nat) :
    g ∉ participants s u := by
  intro mem
  rw [participants_eq] at mem
  obtain ⟨e, part, key⟩ := List.mem_map.mp mem
  obtain ⟨there, part⟩ := List.mem_filter.mp part
  obtain ⟨ending, -⟩ := has.all e there key
  simp [takesPart, ending] at part

theorem setHart_setHartOf (h : Hart) : s.setHart h = s.setHartOf s.cur h := rfl

theorem sendItem_harts (it : Item) (s : State) : (sendItem it s).harts = s.harts ∧ (sendItem it s).cur = s.cur := by
  unfold sendItem
  dsimp only
  split
  · exact ⟨rfl, rfl⟩
  · split <;> exact ⟨rfl, rfl⟩

section
variable {status : BitVec 8} {ds : List Deferred}

theorem State.HartHas.wakeMonitors (has : s.HartHas g (Left status ds)) (k n : Nat) :
    (wakeMonitors k n s).HartHas g (Left status ds) := by
  unfold Machine.wakeMonitors
  split
  · refine has.map _ (fun e => ?_) (fun e holds => ?_) rfl
    · split
      · split <;> rfl
      · rfl
    · split
      · split
        · exact holds
        · exact holds
      · exact holds
  · exact has

theorem State.HartHas.pokeN (has : s.HartHas g (Left status ds)) (k n v : Nat) :
    (pokeN k n v s).HartHas g (Left status ds) := by
  unfold Machine.pokeN pokeBytes
  refine State.HartHas.wakeMonitors ?_ _ _
  split <;> exact has.of_harts rfl

theorem State.HartHas.applyDeferred (has : s.HartHas g (Left status ds)) (d : Deferred) :
    (applyDeferred d s).1.HartHas g (Left status ds) := by
  unfold Machine.applyDeferred
  split
  · exact has.of_harts (sendItem_harts _ _).1
  · split
    · exact has
    · exact has.pokeN ..

theorem State.HartHas.applyAll (has : s.HartHas g (Left status ds)) (other : j ≠ g) :
    (applyAll j s).1.HartHas g (Left status ds) := by
  unfold Machine.applyAll
  dsimp only
  refine State.HartHas.setHartOf ?_ other _
  refine State.HartHas.turned ?_ _
  refine List.foldlRecOn (motive := fun acc : State × Option (BitVec 8 × Word) => acc.1.HartHas g (Left status ds)) _ _
    (has.turned j) fun acc h d _ => ?_
  have := h.applyDeferred d
  generalize Machine.applyDeferred d acc.1 = r at this ⊢
  obtain ⟨t, c⟩ := r
  cases c <;> exact this

theorem State.HartHas.flushBarrier {gs : List Nat} (out : g ∉ gs) (has : s.HartHas g (Left status ds)) :
    (flushBarrier gs s).1.HartHas g (Left status ds) := by
  induction gs generalizing s with
  | nil => exact has
  | cons j gs ih =>
    rw [List.mem_cons, not_or] at out
    exact ih out.2 (has.applyAll (Ne.symm out.1))

/-- What a fold over other harts keeps. -/
theorem State.HartHas.foldl {f : State → Nat → State} {gs : List Nat} (out : g ∉ gs)
    (step : ∀ t j, j ≠ g → t.HartHas g p → (f t j).HartHas g p) (has : s.HartHas g p) : (gs.foldl f s).HartHas g p := by
  induction gs generalizing s with
  | nil => exact has
  | cons j gs ih =>
    rw [List.mem_cons, not_or] at out
    exact ih out.2 (step s j (Ne.symm out.1) has)

theorem State.HartHas.commitHart (has : s.HartHas g p) (other : j ≠ g) (f : Hart → Hart) :
    (commitHart f s j).HartHas g p := by
  unfold Machine.commitHart
  dsimp only
  exact State.HartHas.setHartOf (has.of_harts (t := s.setConvoyOf _ _) rfl) other _

theorem State.HartHas.releaseBarrier {gs : List Nat} (out : g ∉ gs) (f : Nat → Hart → Hart)
    (has : s.HartHas g (Left status ds)) : (releaseBarrier gs f s).HartHas g (Left status ds) :=
  State.HartHas.foldl out (fun _ _ other has => has.commitHart other _) (has.flushBarrier out)

theorem State.HartHas.setVtype (has : s.HartHas g (Left status ds)) (u : Nat) (x : VCfg) :
    (setVtype u x s).HartHas g (Left status ds) := by
  refine has.map _ (fun e => ?_) (fun e holds => ?_) rfl
  · split <;> rfl
  · split
    · exact holds
    · exact holds

theorem State.HartHas.settleBarrier (has : s.HartHas g (Left status ds)) (u : Nat) :
    (settleBarrier u s).HartHas g (Left status ds) := by
  have out := not_mem_participants has u
  have base (c : Convoy) : (s.setConvoyOf u c).HartHas g (Left status ds) := has.of_harts rfl
  have traps (c : Convoy) : ((participants s u).foldl (trapHart { cause := 0x1A }) (s.setConvoyOf u c)).HartHas g
      (Left status ds) :=
    State.HartHas.foldl out (fun _ _ other has => has.setHartOf other _) (base c)
  unfold Machine.settleBarrier
  dsimp only
  split
  · exact has
  · split
    · exact (base _).releaseBarrier out _
    · split
      · split
        · exact ((base _).setVtype u _).releaseBarrier out _
        · exact traps _
      · exact traps _

theorem closeConvoy_harts (u : Nat) (s : State) : (closeConvoy u s).harts = s.harts := by
  unfold closeConvoy
  dsimp only
  generalize List.filter _ _ = ts
  have each : ∀ (ts : List (Nat × Tile)) (core : Nat) (t : State), t.harts = s.harts →
      (ts.foldl (fun s p => freeSlot core p.1 s) t).harts = s.harts := by
    intro ts core
    induction ts with
    | nil => exact fun t same => same
    | cons p ts ih => exact fun t same => ih _ same
  exact each ts _ _ rfl

/-- A hart that leaves its convoy has left it, with what could not be applied (R261, R333). -/
theorem endLeave_left (g : Nat) (status : BitVec 8) (s : State) :
    (endLeave g status s).HartHas g (Left status ((flushEnding g (withdraw g s)).hartOf g).deferred) := by
  have left : (setEnding g status 10 (flushEnding g (withdraw g s))).HartHas g
      (Left status ((flushEnding g (withdraw g s)).hartOf g).deferred) := hartHas_setHartOf ⟨rfl, rfl⟩
  unfold endLeave
  dsimp only
  split
  · exact (left.settleBarrier _).of_harts (closeConvoy_harts _ _)
  · exact left.settleBarrier _

end

/-! ### Applying what is pending (R333) -/

/-- An update at a word of this package whose access enters no log. -/
abbrev Deferred.plain (d : Deferred) : Prop := isFabric d.va = false ∧ d.place = none

theorem hartItems_pokeN (k n v : Nat) (s : State) : hartItems (pokeN k n v s) = hartItems s := by
  obtain ⟨a, hart⟩ := pokeN_hart k n v s
  have items : (pokeN k n v s).items = s.items := by
    unfold pokeN pokeBytes wakeMonitors
    dsimp only
    split <;> split <;> rfl
  unfold hartItems
  rw [hart, items]

theorem hartItems_setHart {h : Hart} (convoy : h.convoy = s.hart.convoy) (hidx : h.hidx = s.hart.hidx) :
    hartItems (s.setHart h) = hartItems s := by
  unfold hartItems
  rw [State.setHart_hart, State.setHart_items, convoy, hidx]

/-- With no item on its way, plain updates are applied until one fails; what follows it is left. -/
theorem applyUpTo_plain {ds : List Deferred} (plain : ∀ d ∈ ds, d.plain) (none_ : hartItems s = []) :
    hartItems (applyUpTo (fun _ => true) ds s).1 = []
      ∧ ((applyUpTo (fun _ => true) ds s).2.1 = [] ∨ ∃ c va, (applyUpTo (fun _ => true) ds s).2.2 = .fails c va)
      ∧ ∃ pre, ds = pre ++ (applyUpTo (fun _ => true) ds s).2.1 ∧ (ds ≠ [] → pre ≠ []) := by
  induction ds generalizing s with
  | nil => exact ⟨none_, .inl rfl, [], rfl, fun ne => ne⟩
  | cons d ds ih =>
    obtain ⟨here, place⟩ := plain d (by simp)
    have goes : mustFollow s d = false := by simp [mustFollow, followsItem, afterOthers, none_, place]
    unfold applyUpTo
    simp only [if_true, goes, Bool.false_eq_true, if_false]
    unfold applyDeferred
    simp only [here, Bool.false_eq_true, if_false]
    cases error : dataError s d.phys with
    | some c => exact ⟨none_, .inr ⟨_, _, rfl⟩, [d], rfl, by simp⟩
    | none =>
      obtain ⟨items, ends, pre, split, -⟩ := ih (s := pokeN d.phys (tBytes d.t)
        (addIn d.t (memReadN s.mem d.phys (tBytes d.t)) d.value.toNat) s) (fun e mem => plain e (by simp [mem]))
        ((hartItems_pokeN _ _ _ _).trans none_)
      exact ⟨items, ends, d :: pre, by rw [List.cons_append, ← split], by simp⟩

theorem flushExit_plain {n : Nat} (plain : ∀ d ∈ s.hart.deferred, d.plain) (none_ : hartItems s = [])
    (enough : s.hart.deferred.length ≤ n) : (flushExit n s).hart.deferred = [] := by
  induction n generalizing s with
  | zero => exact List.length_eq_zero_iff.mp (Nat.le_zero.mp enough)
  | succ n ih =>
    obtain ⟨items, ends, pre, whole, some_⟩ := applyUpTo_plain plain none_
    unfold flushExit
    generalize applyUpTo (fun _ => true) s.hart.deferred s = r at items ends whole some_
    obtain ⟨t, rest, stop⟩ := r
    dsimp only at items ends whole some_ ⊢
    generalize left : t.setHart { t.hart with deferred := rest } = u
    have hart : u.hart = { t.hart with deferred := rest } := by rw [← left, State.setHart_hart]
    have clear : hartItems u = [] := by
      rw [← left]
      rw [hartItems_setHart (by rfl) (by rfl), items]
    have shorter : rest.length ≤ n := by
      by_cases empty : s.hart.deferred = []
      · simp_all
      · have := List.length_pos_iff.mpr (some_ empty)
        rw [whole, List.length_append] at enough
        omega
    have next (f : Option Word) : (flushExit n (u.setHart { u.hart with flushFault := f })).hart.deferred = [] := by
      refine ih ?_ (by rw [hartItems_setHart (by rfl) (by rfl), clear]) ?_
      · rw [State.setHart_hart, hart]
        exact fun d mem => plain d (by rw [whole]; exact List.mem_append_right _ mem)
      · rw [State.setHart_hart, hart]
        exact shorter
    cases stop with
    | fails c va => exact next _
    | done =>
      obtain rfl | ⟨c, va, stops⟩ := ends
      · exact congrArg Hart.deferred hart
      · cases stops
    | waits =>
      obtain rfl | ⟨c, va, stops⟩ := ends
      · exact congrArg Hart.deferred hart
      · cases stops

theorem applyDeferred_cur (d : Deferred) (s : State) : (applyDeferred d s).1.cur = s.cur := by
  unfold applyDeferred
  split
  · exact (sendItem_harts _ _).2
  · split
    · rfl
    · exact pokeBytes_cur ..

theorem applyUpTo_cur (q : Deferred → Bool) (ds : List Deferred) (s : State) : (applyUpTo q ds s).1.cur = s.cur := by
  induction ds generalizing s with
  | nil => rfl
  | cons d ds ih =>
    unfold applyUpTo
    split
    · split
      · rfl
      · have first := applyDeferred_cur d s
        generalize applyDeferred d s = r at first ⊢
        obtain ⟨t, c⟩ := r
        cases c with
        | none => exact (ih t).trans first
        | some c => exact first
    · exact ih s

theorem flushExit_cur (n : Nat) (s : State) : (flushExit n s).cur = s.cur := by
  induction n generalizing s with
  | zero => rfl
  | succ n ih =>
    have first := applyUpTo_cur (fun _ => true) s.hart.deferred s
    unfold flushExit
    generalize applyUpTo (fun _ => true) s.hart.deferred s = r at first ⊢
    obtain ⟨t, rest, stop⟩ := r
    cases stop with
    | fails c va => exact (ih _).trans first
    | done => exact first
    | waits => exact first

/-- An ending hart with plain updates and no item on its way has none left. -/
theorem flushEnding_plain {h : Hart} (resident : mget s.harts g = some h) (plain : ∀ d ∈ h.deferred, d.plain)
    (none_ : hartItems (s.turned g) = []) : ((flushEnding g s).hartOf g).deferred = [] := by
  have hart : (s.turned g).hart = h := turned_hart resident
  have turned : (flushExit (s.hartOf g).deferred.length (s.turned g)).cur = g := flushExit_cur _ _
  have empties := flushExit_plain (n := (s.hartOf g).deferred.length) (by rw [hart]; exact plain) none_ (le_refl _)
  rwa [State.hart, turned] at empties

/-! ### What the engine's writes keep -/

/-- Neither a walk nor a write of memory ends the property. -/
structure KeptByWrites (P : State → Prop) : Prop extends KeptByWalks P where
  poke : ∀ s k n v, P s → P (pokeN k n v s)
  host : ∀ s a n v, P s → P (hostWrite a n v s)

theorem engPlace_keeps {P : State → Prop} (kept : KeptByWalks P) (core : Option Nat) (ctx : Nat) (view : Mode) (fam : Fam)
    (acc : Acc) (va : Word) (holds : P s) : EndsIn P (engPlace core ctx view fam acc va) s := by
  have walk := translate_keeps kept core (s.ctxOf ctx) view fam acc va holds
  unfold EndsIn engPlace at *
  split
  · exact holds
  · split
    next l t found => rwa [found] at walk
    next c soft t failed => rwa [failed] at walk

section
variable {P : State → Prop} (kept : KeptByWrites P)
include kept

theorem engWrite_keeps (core : Option Nat) (ctx : Nat) (view : Mode) (fam : Fam) (va : Word) (n v : Nat) (holds : P s) :
    EndsIn P (engWrite core ctx view fam va n v) s := by
  refine ends_bind (engPlace_keeps kept.toKeptByWalks core ctx view fam .store va holds) fun l t ht => ?_
  split
  · exact ends_modify (kept.host _ _ _ _ ht)
  · refine ends_get_bind (ends_ite (fun _ => ends_throw ht _) fun _ => ends_set (kept.poke _ _ _ _ ht))

theorem imageUpdate_keeps (ctx : Nat) (va : Word) (f : Nat → Nat) (holds : P s) : P (imageUpdate ctx va f s) := by
  unfold imageUpdate
  split
  · exact holds
  next v _ =>
    have write := engWrite_keeps kept none ctx .supervisor .device va 8 (f v % 2 ^ 64) holds
    unfold engDo saveWrite
    split
    next t done => exact write.ok done
    next => exact holds

theorem bumpCounter_keeps (convoy : ∀ s u c, P s → P (s.setConvoyOf u c)) (u : Nat) (k : KName) (n : Word)
    (fail : Option OpFail) (holds : P s) : P (bumpCounter u k n fail s) := by
  unfold bumpCounter
  split
  · exact holds
  · split
    · exact convoy _ _ _ holds
    · dsimp only
      refine imageUpdate_keeps kept _ _ _ ?_
      cases fail with
      | none => exact holds
      | some f => exact imageUpdate_keeps kept _ _ _ (imageUpdate_keeps kept _ _ _ holds)

theorem joinDone_keeps (convoy : ∀ s u c, P s → P (s.setConvoyOf u c)) {x : Join} (alone : x.gang = none)
    (core status : BitVec 8) (holds : P s) : P (joinDone x core status s) := by
  unfold joinDone
  rw [alone]
  dsimp only
  split
  · exact bumpCounter_keeps kept convoy _ _ _ _ holds
  · exact holds

end

/-! ### The last step (R239) -/

/-- What outlasts the removal of a hart of convoy `u`. -/
structure KeptByLeaving (u : Nat) (P : State → Prop) : Prop where
  harts : ∀ s hs, P s → P { s with harts := hs }
  convoy : ∀ s c, P s → P (s.setConvoyOf u c)
  gone : ∀ s, P s → P { s with convoys := merase s.convoys u }
  slot : ∀ s core n, P s → P (freeSlot core n s)

theorem closeConvoy_keeps {P : State → Prop} {u : Nat} (kept : KeptByLeaving u P) (holds : P s) : P (closeConvoy u s) := by
  unfold closeConvoy
  exact List.foldlRecOn (motive := P) _ _ (kept.convoy _ _ holds) fun t ht _ _ => kept.slot _ _ _ ht

theorem endLast_keeps {P : State → Prop} {status : BitVec 8} (kept : KeptByLeaving (s.hartOf g).convoy P)
    (holds : P (joinDone (s.hartOf g).join (BitVec.ofNat 8 (g / 8)) status s)) : P (endLast g status s) := by
  unfold endLast
  dsimp only
  split
  · exact kept.gone _ (closeConvoy_keeps kept (kept.harts _ _ holds))
  · exact kept.convoy _ _ (kept.harts _ _ holds)

theorem endLast_gone (g : Nat) (status : BitVec 8) (s : State) : mget (endLast g status s).harts g = none := by
  unfold endLast
  dsimp only
  split
  · unfold endConvoy
    dsimp only
    rw [closeConvoy_harts]
    simp [mget_merase]
  · simp [mget_merase]

theorem dropStart_parts (g : Nat) (s : State) : (dropStart g s).harts = s.harts ∧ (dropStart g s).convoys = s.convoys := by
  unfold dropStart dropHandle
  dsimp only
  split
  · split
    · split <;> exact ⟨rfl, rfl⟩
    · exact ⟨rfl, rfl⟩
  · exact ⟨rfl, rfl⟩

/-- The window with a number on a core. -/
def hasWindow (core n : Nat) (w : Window) (s : State) : Prop := mget (s.coreOf core).windows n = some w

theorem hasWindow_writes (core n : Nat) (w : Window) : KeptByWrites (hasWindow core n w) where
  free _ _ h := h
  fill s c tlb h := by
    unfold hasWindow at *
    by_cases same : c = core
    · subst same
      rw [State.setCoreOf_same]
      exact h
    · rwa [State.setCoreOf_other _ _ _ _ same]
  poke s k m v h := by
    unfold hasWindow State.coreOf at *
    rwa [pokeN_cores]
  host _ _ _ _ h := h

theorem hasWindow_leaving (core n : Nat) (w : Window) (u : Nat) : KeptByLeaving u (hasWindow core n w) where
  harts _ _ h := h
  convoy _ _ h := h
  gone _ h := h
  slot s c m h := by
    unfold hasWindow at *
    show mget ((s.setCoreOf c _).coreOf core).windows n = some w
    by_cases same : c = core
    · subst same
      rw [State.setCoreOf_same]
      exact h
    · rwa [State.setCoreOf_other _ _ _ _ same]

/-- The convoy with a number. -/
def isConvoy (u : Nat) (c : Convoy) (s : State) : Prop := s.convoyOf u = c

theorem isConvoy_leaving {u v : Nat} (other : u ≠ v) (c : Convoy) : KeptByLeaving v (isConvoy u c) where
  harts _ _ h := h
  convoy s d h := (State.setConvoyOf_other _ _ _ _ other.symm).trans h
  gone s h := by
    unfold isConvoy State.convoyOf at *
    rw [mget_merase, if_neg other.symm]
    exact h
  slot _ _ _ h := h

theorem dropStart_window {h : Hart} {x : Word} {n : Nat} {w : Window} (resident : mget s.harts g = some h)
    (start : h.start = some x) (window : (s.coreOf (g / 8)).windowOf (s.convoyOf h.convoy).ctx = some (n, w))
    (valid : w.valid x = true) : hasWindow (g / 8) n (w.drop (hFrame x)) (dropStart g s) := by
  have hart : s.hartOf g = h := by rw [State.hartOf, resident, Option.getD_some]
  unfold hasWindow dropStart dropHandle
  simp only [hart, start, window, valid, if_true, State.setCoreOf_same, mget_mset_self]

/-! ### The steps of an ending hart, and reports without a slot -/

section
variable {h : Hart} {status : BitVec 8} (number : g < 2048) (resident : mget s.harts g = some h)
include number resident

theorem exec_hartEnd_leave (ending : h.status = .ending status 1) :
    exec (.hartEnd g) s = .next (endLeave g status s) := by
  refine congrArg Host.Outcome.next ?_
  simp only [if_neg (Nat.not_le.mpr number), resident, ending]

theorem exec_hartEnd_stores (ending : h.status = .ending status 10) (owed : owesStores s g status = false) :
    exec (.hartEnd g) s = .next (endFirst g status s) := by
  have hart : s.hartOf g = h := by rw [State.hartOf, resident, Option.getD_some]
  have none_ : (s.hartOf g).deferred = [] := by
    by_contra some_
    simp [owesStores, some_] at owed
  have flushed : flushEnding g s = s := by rw [flushEnding, none_]; rfl
  refine congrArg Host.Outcome.next ?_
  simp only [if_neg (Nat.not_le.mpr number), resident, ending, flushed, owed, Bool.false_eq_true, if_false]

theorem exec_hartEnd_status (ending : h.status = .ending status 2) :
    exec (.hartEnd g) s = .next (endStatus g status s) := by
  refine congrArg Host.Outcome.next ?_
  simp only [if_neg (Nat.not_le.mpr number), resident, ending]

theorem exec_hartEnd_last (ending : h.status = .ending status 3) :
    exec (.hartEnd g) s = .next (endLast g status (dropStart g s)) := by
  refine congrArg Host.Outcome.next ?_
  simp only [if_neg (Nat.not_le.mpr number), resident, ending]

end

theorem withdraw_hartItems (g j : Nat) (s : State) : hartItems ((withdraw g s).turned j) = hartItems (s.turned j) := by
  have bar : (withdrawBar g s).items = s.items := by
    unfold withdrawBar
    dsimp only
    split <;> rfl
  have items : (withdraw g s).items = s.items := by
    unfold withdraw withdrawCbar
    dsimp only
    split <;> exact bar
  unfold hartItems State.hart State.hartOf
  rw [show ((withdraw g s).turned j).items = s.items from items,
    show ((withdraw g s).turned j).harts = s.harts from (withdraw_parts g s).1]

/-- The status write of a hart in its slot, by what comes of it (R239, R308). -/
theorem endStatus_write {h : Hart} {status : BitVec 8} (resident : mget s.harts g = some h) (named : h.join.status ≠ 0) :
    let write := engWrite (some (g / 8)) h.join.ctx h.join.view .device h.join.status 8 status.toNat s
    (∀ t, write = .ok () t → endStatus g status s = setEnding g status 3 t)
    ∧ (∀ c va t, write = .error (.fault c true va) t → endStatus g status s = setEnding g status 12
        (addFault (t.ctxOf h.join.ctx).vdev h.join.ctx 4 (BitVec.ofNat 8 (g / 8)) c va (.hartEnd g) t).1)
    ∧ ∀ c va t, write = .error (.fault c false va) t → endStatus g status s =
        setEnding g status 3 (statusFailed h.join c t) := by
  have hart : s.hartOf g = h := by rw [State.hartOf, resident, Option.getD_some]
  unfold endStatus writeStatus
  rw [hart, if_neg named]
  refine ⟨fun t run => ?_, fun c va t run => ?_, fun c va t run => ?_⟩
  all_goals simp only [run]

/-- A report without a slot, for a hart with no access on its way and no status address. -/
theorem lateStep_plain {l : Late} (status : l.join.status = 0) (none_ : ∀ i ∈ s.items, ¬(i.convoy = l.convoy ∧ i.hidx = l.hidx)) :
    lateStep l s = lateDone l s := by
  have owed : (s.items.filter fun i => !i.waits && i.transfer.isNone && i.convoy == l.convoy && i.hidx == l.hidx) = [] := by
    refine List.filter_eq_nil_iff.mpr fun i mem => ?_
    have := none_ i mem
    simp only [Bool.and_eq_true, beq_iff_eq, not_and]
    tauto
  have same : { s with items := s.items.filter fun _ => !false } = s := by
    simp
  unfold lateStep writeStatus
  simp only [owed, List.any_nil, Bool.false_eq_true, if_false, same, status, if_true]

/-- Settles O43: each step by its number; what the other harts do leaves the hart that ends. -/
theorem hartEndResults : Obligations.HartEndResults := by
  unfold Obligations.HartEndResults
  refine ⟨fun s g h status number resident => ?_, fun s n l owed status none_ => ?_⟩
  · have hart : s.hartOf g = h := by rw [State.hartOf, resident, Option.getD_some]
    refine ⟨fun ending => ⟨exec_hartEnd_leave number resident ending, fun _ => ⟨?_, fun plain none_ => ?_, ?_⟩⟩,
      exec_hartEnd_stores number resident, fun ending unnamed => ?_, fun ending named => ?_, fun ending => ?_⟩
    · exact (endLeave_left g status s).hartOf.1
    · rw [(endLeave_left g status s).hartOf.2]
      obtain ⟨harts, -, -⟩ := withdraw_parts g s
      refine flushEnding_plain (by rw [harts]; exact resident) plain ?_
      rw [withdraw_hartItems]
      exact none_
    · exact not_mem_participants (endLeave_left g status s) _
    · rw [exec_hartEnd_status number resident ending, endStatus, writeStatus, hart, if_pos unnamed]
    · intro write
      obtain ⟨made, queued, failed⟩ := endStatus_write (status := status) resident named
      refine ⟨fun t run => ?_, fun c va t run => ?_, fun c va t u k run counter => ?_⟩
      · rw [exec_hartEnd_status number resident ending, made t run]
      · rw [exec_hartEnd_status number resident ending, queued c va t run]
      · rw [exec_hartEnd_status number resident ending, failed c va t run, statusFailed, counter]
    · have ⟨harts, convoys⟩ := dropStart_parts g s
      have hart' : (dropStart g s).hartOf g = h := by rw [State.hartOf, harts]; exact hart
      refine ⟨_, exec_hartEnd_last number resident ending, endLast_gone .., ?_, ?_⟩
      · intro u k c counter alone other there resident_ lives
        have convoy : (mget (dropStart g s).convoys u) = some c := by rw [convoys]; exact there
        have joined : isConvoy u { c with k := c.k.set k (c.k[k] + 1) }
            (joinDone h.join (BitVec.ofNat 8 (g / 8)) status (dropStart g s)) := by
          unfold joinDone
          simp only [counter, alone]
          rw [bumpCounter_resident convoy lives resident_]
          exact State.setConvoyOf_same ..
        rw [← hart'] at joined other
        rw [endLast_keeps (isConvoy_leaving other _) joined]
        simp
      · intro x n w start alone window valid
        have joined := joinDone_keeps (hasWindow_writes (g / 8) n (w.drop (hFrame x))) (fun _ _ _ holds => holds) alone
          (BitVec.ofNat 8 (g / 8)) status (dropStart_window resident start window valid)
        rw [← hart'] at joined
        exact endLast_keeps (hasWindow_leaving ..) joined
  · have id : l.id = n := by
      have := List.find?_some owed
      simp only [Bool.and_eq_true, beq_iff_eq] at this
      exact this.1
    refine congrArg Host.Outcome.next ?_
    simp only [Nat.le_add_right, if_true, Nat.add_sub_cancel_left, owed]
    rw [lateStep_plain status none_, lateDone, dropLate, id]

end

end Sys2Proof.Machine
end

section
/-! PROOFS. R251, R252: saving and loading a halted hart. -/

namespace Sys2Proof.Machine

section
variable {s t u : State} {x : S3}

/-- Operations in turn. -/
theorem forM_each {α : Type} {p : α → State → State → Prop} {f : α → M Unit} (step : ∀ i s t, p i s t → f i s = .ok () t)
    {is : List α} (each : State.Each p is s t) : is.forM f s = .ok () t := by
  induction each with
  | nil s => rfl
  | cons i is s t u first _ ih =>
    simp only [List.forM_eq_forM, List.forM_cons] at ih ⊢
    rw [bind_ok (step i s t first), ih]

section
variable (mode : s.hart.mode = .supervisor) (ha : s.canRead x.a = true) (hb : s.canRead x.b = true)
include mode ha hb

section
variable (paged : checkRecord .store (s.reg x.b) s = .ok () t)
include paged

theorem opCtxsave_absent (absent : haltedTarget t (s.reg x.a) = none) :
    opCtxsave x s = .ok .next (t.setHart (t.hart.writeS x.d 1)) := by
  unfold opCtxsave
  simp only [bind_ok (supervisor_ok mode), bind_ok (readS_ok ha), bind_ok (readS_ok hb), bind_ok paged, bind_ok (get_run _),
    absent, bind_ok (writeS_run _ _ _), pure_run]

/-- The words of the record are stored one after another (R251). -/
theorem opCtxsave_saves {g : Nat} (target : haltedTarget t (s.reg x.a) = some g) (mma : (t.hartOf g).mma = [])
    (sound : (t.hartOf g).poison = [])
    (stores : State.Each (fun (p : Nat × Nat × Nat) a b => ∃ (v : State) (l : Loc),
        a.finds .scalar .store (s.reg x.b + BitVec.ofNat 64 p.1) p.2.1 l v ∧ (v.coreOf (l.key / 2 ^ 30)).fenced = false
          ∧ b = pokeN l.key p.2.1 p.2.2 (v.after (meter l.key p.2.1)))
      (hartWords (t.hartOf g) (t.convoyOf (t.hartOf g).convoy).ewBytes 0) t u) :
    opCtxsave x s = .ok .next (u.setHart (u.hart.writeS x.d 0)) := by
  have saved := forM_each (f := fun p => storeVa .scalar 2 (s.reg x.b + BitVec.ofNat 64 p.1) p.2.1 p.2.2
      (if p.2.1 = 4 then .n32 else .n64) false none none) (fun p a b step => by
    obtain ⟨v, l, found, linked, rfl⟩ := step
    exact storeVa_finds found linked ..) stores
  unfold opCtxsave
  simp only [bind_ok (supervisor_ok mode), bind_ok (readS_ok ha), bind_ok (readS_ok hb), bind_ok paged, bind_ok (get_run _),
    target, mma, sound, List.isEmpty_nil, Bool.not_true, Bool.false_eq_true, if_false, bind_ok saved, bind_ok (writeS_run _ _ _),
    pure_run]

end

section
variable (paged : checkRecord .load (s.reg x.b) s = .ok () t)
include paged

theorem opCtxload_absent (absent : haltedTarget t (s.reg x.a) = none) :
    opCtxload x s = .ok .next (t.setHart (t.hart.writeS x.d 1)) := by
  unfold opCtxload
  simp only [bind_ok (supervisor_ok mode), bind_ok (readS_ok ha), bind_ok (readS_ok hb), bind_ok paged, bind_ok (get_run _),
    absent, bind_ok (writeS_run _ _ _), pure_run]

variable {g : Nat} (target : haltedTarget t (s.reg x.a) = some g) (mma : (t.hartOf g).mma = [])
include target mma

theorem opCtxload_invalid (read : readHart (recordWord (s.reg x.b)) (t.hartOf g) t = .ok none u) :
    opCtxload x s = .ok .next (u.setHart (u.hart.writeS x.d 3)) := by
  unfold opCtxload
  simp only [bind_ok (supervisor_ok mode), bind_ok (readS_ok ha), bind_ok (readS_ok hb), bind_ok paged, bind_ok (get_run _),
    target, mma, List.isEmpty_nil, Bool.not_true, Bool.false_eq_true, if_false, bind_ok read, bind_ok (writeS_run _ _ _),
    pure_run]

variable {h : Hart} (read : readHart (recordWord (s.reg x.b)) (t.hartOf g) t = .ok (some h) u)
include read

theorem opCtxload_full
    (full : claimAccs (freeAccs (usedAcc { u with harts := merase u.harts g } u.coreId)) h = none) :
    opCtxload x s = .ok .next (u.setHart (u.hart.writeS x.d 2)) := by
  unfold opCtxload
  simp only [bind_ok (supervisor_ok mode), bind_ok (readS_ok ha), bind_ok (readS_ok hb), bind_ok paged, bind_ok (get_run _),
    target, mma, List.isEmpty_nil, Bool.not_true, Bool.false_eq_true, if_false, bind_ok read, full, bind_ok (writeS_run _ _ _),
    pure_run]

theorem opCtxload_loads {k : Hart}
    (claimed : claimAccs (freeAccs (usedAcc { u with harts := merase u.harts g } u.coreId)) h = some k) :
    opCtxload x s = .ok .next ((u.setHartOf g { k with status := .halted }).setHart
      ((u.setHartOf g { k with status := .halted }).hart.writeS x.d 0)) := by
  unfold opCtxload
  simp only [bind_ok (supervisor_ok mode), bind_ok (readS_ok ha), bind_ok (readS_ok hb), bind_ok paged, bind_ok (get_run _),
    target, mma, List.isEmpty_nil, Bool.not_true, Bool.false_eq_true, if_false, bind_ok read, claimed,
    bind_ok (set_run _ _), bind_ok (writeS_run _ _ _), pure_run]

end

end

/-- Settles O39: the target, the record and the free accumulators decide what is answered. -/
theorem contextRecordResults : Obligations.ContextRecordResults := by
  intro s t x mode ha hb base
  refine ⟨fun paged => ⟨fun absent => ?_, fun g u target mma sound stores => ?_⟩,
    fun paged => ⟨fun absent => ?_, fun g u target mma => ⟨fun read => ?_, fun h read => ⟨fun full => ?_, fun k claimed => ?_⟩⟩⟩⟩
  · exact runUnit_next (opCtxsave_absent mode ha hb paged absent)
  · exact runUnit_next (opCtxsave_saves mode ha hb paged target mma sound stores)
  · exact runUnit_next (opCtxload_absent mode ha hb paged absent)
  · exact runUnit_next (opCtxload_invalid mode ha hb paged target mma read)
  · exact runUnit_next (opCtxload_full mode ha hb paged target mma read full)
  · exact runUnit_next (opCtxload_loads mode ha hb paged target mma read claimed)

end

end Sys2Proof.Machine
end

section
/-! PROOFS. R222, R238: what a command posts where a core's list of windows does not rise (log 3 keeps it rising). -/

namespace Sys2Proof.Machine

/-- Frame 0 of a window, captured: handle 1 is valid in it. -/
def capturedFrame : Frame := { Frame.reset with refc := 1, live := true }

/-- Windows 7 and 8, both of context 0, stand on core 0 with falling keys: the hart's window is 7. Taking a reference sets
key 1, which puts it behind key 0: the hart's window is then 8. -/
def shuffled : State :=
  let s := State.reset.setHart { Hart.reset with c := Hart.reset.c.set 0 1 }
  let t := s.setCore { s.core with
    windows := [(1, ⟨7, s.ctxId, [(0, capturedFrame)], []⟩), (0, ⟨8, s.ctxId, [], []⟩)] }
  t.setRegionOf 0 { t.regionOf 0 with grant := some t.ctx.vdev }

/-- The closure in c0 can be taken. -/
theorem shuffled_closureOk : shuffled.closureOk (some 0) :=
  have taken : shuffled.canReadC 0 = true ∧ shuffled.holdsRef shuffled.hart.c[(0 : CName)]
    ∧ postsTaken shuffled shuffled.coreId < postQueue := by decide +kernel
  taken

/-- Something read off the state in which an instruction ends. -/
def outcomeOf {α : Type} (read : State → Option α) : Host.Outcome State Fault Refusal → Option α
  | .next t => read t
  | _ => none

/-- The window that the closure of the first transfer is posted to. -/
def transferWin (t : State) : Option Nat := (t.core.transfers.head?.bind Transfer.cl).map Post.win
/-- The window that the closure of the first command of region 0 is posted to. -/
def commandWin (t : State) : Option Nat := ((t.regionOf 0).cmds.head?.bind DepotCmd.cl).map Post.win
/-- The window of the first post of the core. -/
def postWin (t : State) : Option Nat := t.core.posts.head?.map Post.win

/-- `cpy` of no bytes with a completion closure. -/
def shuffledCopy : Copy := ⟨0, 0, 0, 0, 0, 0, some 0⟩

/-- Refutes O26: `cpy` reads its window after it has taken the reference, and the post that it enters names window 8, where
that of the state before names 7. -/
theorem not_copyResults : ¬ Obligations.CopyResults := by
  rintro ⟨copies, -⟩
  have copied := (copies shuffled shuffledCopy (by decide +kernel) (by decide +kernel) (by decide +kernel) (by decide +kernel)
    (by decide +kernel) (by decide +kernel) shuffled_closureOk (by decide +kernel) (by decide +kernel)).1 (by decide +kernel)
  have win : outcomeOf transferWin (exec (.cpy shuffledCopy) shuffled) = some 8 := by decide +kernel
  rw [copied] at win
  exact absurd win (by decide +kernel)

/-- `dopen` of region 0 with a completion closure. -/
def shuffledOpen : DCmd := ⟨0, 0, some 0⟩

/-- Refutes O28: a depot command reads its window after it has taken the reference. -/
theorem not_depotResults : ¬ Obligations.DepotResults := by
  rintro ⟨commands, -⟩
  have opened := (commands shuffled shuffledOpen (by decide +kernel) (by decide +kernel) shuffled_closureOk
    (by decide +kernel) (by decide +kernel) (by decide +kernel)).1
  have win : outcomeOf commandWin (exec (.dopen shuffledOpen) shuffled) = some 8 := by decide +kernel
  rw [opened] at win
  exact absurd win (by decide +kernel)

/-- `applyq` of the handle in c0. -/
def shuffledApply : ApplyQ := ⟨0, 0, 0⟩

/-- Refutes O29: `applyq` reads its window after it has taken the reference. -/
theorem not_closureResults : ¬ Obligations.ClosureResults := by
  rintro ⟨-, -, applies⟩
  have applied := applies shuffled shuffledApply (by decide +kernel) (by decide +kernel) (by decide +kernel)
    (by decide +kernel) (by decide +kernel) (by decide +kernel)
  have win : outcomeOf postWin (exec (.applyq shuffledApply) shuffled) = some 8 := by decide +kernel
  rw [applied] at win
  exact absurd win (by decide +kernel)

end Sys2Proof.Machine
end

section
/-! PROOFS. R223 to R225: a merge of indices beyond 2^64 (log 3 keeps one cell to a byte). -/

namespace Sys2Proof.Machine

/-! ### Words that one TLB entry maps -/

section
variable {s : State} {base top : Nat} {e : TlbEntry}

theorem Hits.reads (hits : Hits s base top e) {va : Word} {n : Nat} (low : base ≤ va.toNat) (high : va.toNat < top)
    (aligned : va.toNat % n = 0) : s.reads va n (memReadN s.mem va.toNat n) s :=
  ⟨s, _, hits.finds low high aligned, hits.data high, rfl, (hits.meter _ _).symm⟩

/-- Both words of an output entry are written. -/
theorem Hits.writesPair (hits : Hits s base top e) (none_ : hartItems s = []) {m : MergeArgs} {n : Nat}
    (low : base ≤ (entryVa m.oidx m.ix n).toNat ∧ base ≤ (entryVa m.oval (tBytes m.t) n).toNat)
    (high : (entryVa m.oidx m.ix n).toNat < top ∧ (entryVa m.oval (tBytes m.t) n).toNat < top)
    (aligned : (entryVa m.oidx m.ix n).toNat % m.ix = 0 ∧ (entryVa m.oval (tBytes m.t) n).toNat % tBytes m.t = 0) (i v : Nat) :
    s.writesPair m n i v (pokeN (entryVa m.oval (tBytes m.t) n).toNat (tBytes m.t) v
      (pokeN (entryVa m.oidx m.ix n).toNat m.ix i s)) := by
  have linked {k : Nat} (small : k < top) : (s.coreOf (k / 2 ^ 30)).fenced = false := by
    rw [Nat.div_eq_of_lt (small.trans_le hits.low)]
    exact hits.up
  refine ⟨s, s, _, _, hits.finds low.1 high.1 aligned.1, hits.finds low.2 high.2 aligned.2, linked high.1, linked high.2,
    by simp [none_], ?_⟩
  rw [hits.meter, (hits.poke _ _ _).meter]

end

/-! ### A merge whose index is beyond every index -/

/-- The block of a merge of one entry with none, of 64-bit indices: the second index that is output stands where the first
list's index is. -/
def overBlock : List Nat := [0x200408, 0x200420, 1, 0x200440, 0x200460, 0, 0x200400, 0x2004C0]

/-- The merge as the model takes it from the block. -/
def overArgs : MergeArgs := ⟨.union, .i32, false, 8, 0x200408, 0x200420, 1, 0x200440, 0x200460, 0, 0x200400, 0x2004C0⟩

def overEntry : TlbEntry := ⟨0, 0x200000, 0x20043F⟩

/-- The block stands at 0x200200. The high byte of the one index, at 0x20040F, stands in two cells, 255 in each: the index
reads as 510 * 2^56, above 2^64, which stands for the end of a list. -/
def overIndex : State :=
  let s := State.reset.setHart { Hart.reset with s := Hart.reset.s.set 8 0x200200 }
  let t := s.setConvoy { s.convoy with cls := 1 }
  let u := t.setCore { t.core with tlb := [overEntry] }
  { u with mem := (0x20040F, 255) :: (0x20040F, 255) :: memWriteBytes [] 0x200200 (overBlock.flatMap (toBytes 8)) }

theorem overIndex_hits : Hits overIndex 0x200000 0x201000 overEntry where
  hit va low high := by
    have tlb : (overIndex.coreOf overIndex.coreId).tlb = [overEntry] := by decide +kernel
    have asid : overIndex.ctx.asid = 0 := by decide +kernel
    have size : 2 ^ leafBits overEntry.leaf.toNat = 0x200000 := by decide +kernel
    have covers : (overEntry.asid == 0 && decide (overEntry.base ≤ va)
        && decide (va < overEntry.base + 2 ^ leafBits overEntry.leaf.toNat)) = true := by
      rw [size, Bool.and_eq_true, Bool.and_eq_true]
      refine ⟨⟨by decide, decide_eq_true low⟩, decide_eq_true ?_⟩
      have base : overEntry.base = 0x200000 := rfl
      omega
    rw [tlb, asid, tlbHit]
    rw [List.find?_cons_of_pos]
    exact covers
  leaf va low high := by
    have size : 2 ^ leafBits overEntry.leaf.toNat = 0x200000 := by decide +kernel
    have page : field overEntry.leaf.toNat 12 50 * 4096 = 0x200000 := by decide
    have kind : field overEntry.leaf.toNat 62 2 = 0 := by decide
    have banked : bit overEntry.leaf.toNat 7 = false := by decide
    have logged : bit overEntry.leaf.toNat 6 = false := by decide
    have whole : 0x200000 + va % 0x200000 = va := by
      rw [Nat.mod_eq_sub_mod low, Nat.mod_eq_of_lt (by omega), Nat.add_sub_cancel' low]
    have vault : va / 2 ^ 30 = 0 := Nat.div_eq_of_lt (by omega)
    have offset : va % 2 ^ 30 = va := Nat.mod_eq_of_lt (by omega)
    simp only [leafLoc, size, page, kind, banked, logged, whole, vault, offset, vaultKey]
    simp
  allows acc := by
    cases acc <;> decide +kernel
  low := by decide
  clean := by decide +kernel
  up := by decide +kernel
  share := by decide +kernel
  still := by decide +kernel
  calm := by decide +kernel
  unmetered := by decide +kernel

theorem entryVa_toNat {base : Word} {n k : Nat} (fits : base.toNat + k * n < 2 ^ 64) :
    (entryVa base n k).toNat = base.toNat + k * n := by
  rw [entryVa, BitVec.toNat_add, BitVec.toNat_ofNat, Nat.mod_eq_of_lt (a := k * n) (by omega), Nat.mod_eq_of_lt fits]

/-- Output entry `n`, the end of the second list with its value there, is written. -/
def overOut (n i v : Nat) (s : State) : State := pokeN (0x2004C0 + n * 4) 4 v (pokeN (0x200400 + n * 8) 8 i s)

theorem overOut_hits {s : State} (hits : Hits s 0x200000 0x201000 overEntry) (n i v : Nat) :
    Hits (overOut n i v s) 0x200000 0x201000 overEntry := (hits.poke _ _ _).poke _ _ _

theorem overOut_items {s : State} (none_ : hartItems s = []) (n i v : Nat) : hartItems (overOut n i v s) = [] :=
  (hartItems_pokeN _ _ _ _).trans ((hartItems_pokeN _ _ _ _).trans none_)

/-- The first index, which stands while nothing overwrites it. -/
theorem over_index {s : State} (hits : Hits s 0x200000 0x201000 overEntry) :
    State.reads (entryVa overArgs.idxa overArgs.ix 0) overArgs.ix (memReadN s.mem 0x200408 8) s s :=
  hits.reads (va := 0x200408) (by decide) (by decide) (by decide)

section
variable {s : State} (hits : Hits s 0x200000 0x201000 overEntry) (none_ : hartItems s = [])
include hits none_

theorem over_writes {n : Nat} (small : n < 4) (i v : Nat) : s.writesPair overArgs n i v (overOut n i v s) := by
  have index : (entryVa overArgs.oidx overArgs.ix n).toNat = 0x200400 + n * 8 := entryVa_toNat (by
    show 0x200400 + n * 8 < 2 ^ 64
    omega)
  have value : (entryVa overArgs.oval (tBytes overArgs.t) n).toNat = 0x2004C0 + n * 4 := entryVa_toNat (by
    show 0x2004C0 + n * 4 < 2 ^ 64
    omega)
  have written := hits.writesPair none_ (m := overArgs) (n := n) (by omega) (by omega)
    ⟨by rw [index]; show (0x200400 + n * 8) % 8 = 0; omega, by rw [value]; show (0x2004C0 + n * 4) % 4 = 0; omega⟩ i v
  rwa [index, value] at written

/-- While the index of the first list is above the end of a list, a step takes an entry of the second, which has none. -/
theorem over_spills {n : Nat} (small : n < 2) (above : 2 ^ 64 < memReadN s.mem 0x200408 8) :
    State.mergesOne overArgs 0 n n s 0 (n + 1) (n + 1)
      (overOut n (2 ^ 64) (memReadN s.mem (0x200460 + n * 4) 4) s) := by
  have at_ : (entryVa overArgs.valb (tBytes overArgs.t) n).toNat = 0x200460 + n * 4 := entryVa_toNat (by
    show 0x200460 + n * 4 < 2 ^ 64
    omega)
  have value : State.reads (entryVa overArgs.valb (tBytes overArgs.t) n) (tBytes overArgs.t)
      (memReadN s.mem (0x200460 + n * 4) 4) s s := by
    have read := hits.reads (va := entryVa overArgs.valb (tBytes overArgs.t) n) (n := 4) (by omega) (by omega) (by omega)
    rwa [at_] at read
  refine ⟨_, 2 ^ 64, s, s, over_index hits, ⟨rfl, rfl⟩, (if_pos above).symm, (if_neg (by omega)).symm, ?_⟩
  dsimp only [overArgs]
  rw [if_pos (by omega), if_neg (by decide), if_neg (by omega), Nat.min_eq_right (by omega)]
  exact ⟨_, s, value, over_writes hits none_ (by omega) _ _, rfl⟩

/-- Once the index is below the end of a list, a step takes it. -/
theorem over_takes (below : memReadN s.mem 0x200408 8 < 2 ^ 64) :
    State.mergesOne overArgs 0 2 2 s 1 2 3
      (overOut 2 (memReadN s.mem 0x200408 8) (memReadN s.mem 0x200420 4) s) := by
  have value : State.reads (entryVa overArgs.vala (tBytes overArgs.t) 0) (tBytes overArgs.t) (memReadN s.mem 0x200420 4) s s :=
    hits.reads (va := 0x200420) (by decide) (by decide) (by decide)
  refine ⟨_, 2 ^ 64, s, s, over_index hits, ⟨rfl, rfl⟩, (if_neg (by omega)).symm, (if_pos below).symm, ?_⟩
  dsimp only [overArgs]
  rw [if_pos (by omega), if_neg (by decide), if_pos below, Nat.min_eq_left (by omega)]
  exact ⟨_, s, value, over_writes hits none_ (by omega) _ _, rfl⟩

end

/-- Two outputs of the end of a list, of which the second writes zeros over the index, and then the index 0. -/
def over1 : State := overOut 0 (2 ^ 64) (memReadN overIndex.mem 0x200460 4) overIndex
def over2 : State := overOut 1 (2 ^ 64) (memReadN over1.mem 0x200464 4) over1
def over3 : State := overOut 2 (memReadN over2.mem 0x200408 8) (memReadN over2.mem 0x200420 4) over2

theorem over_merges : State.Merges overArgs 0 0 0 overIndex 3 over3 := by
  have hits1 := overOut_hits overIndex_hits 0 (2 ^ 64) (memReadN overIndex.mem 0x200460 4)
  have hits2 := overOut_hits hits1 1 (2 ^ 64) (memReadN over1.mem 0x200464 4)
  have none0 : hartItems overIndex = [] := by decide +kernel
  have none1 := overOut_items none0 0 (2 ^ 64) (memReadN overIndex.mem 0x200460 4)
  have none2 := overOut_items none1 1 (2 ^ 64) (memReadN over1.mem 0x200464 4)
  have step1 := over_spills overIndex_hits none0 (n := 0) (by decide) (by decide +kernel)
  have step2 := over_spills hits1 none1 (n := 1) (by decide) (by decide +kernel)
  have step3 := over_takes hits2 none2 (by decide +kernel)
  exact .step _ _ _ _ _ _ _ _ _ _ (by decide) step1 (.step _ _ _ _ _ _ _ _ _ _ (by decide) step2
    (.step _ _ _ _ _ _ _ _ _ _ (by decide) step3 (.done _ _ _ _ (by decide) (by decide))))

theorem each_same {α : Type} {p : α → State → State → Prop} {s : State} (is : List α) (all : ∀ i ∈ is, p i s s) :
    State.Each p is s s := by
  induction is with
  | nil => exact .nil s
  | cons i is ih => exact .cons i is s s s (all i (by simp)) (ih fun j mem => all j (by simp [mem]))

/-- The block is read. -/
theorem over_block : overIndex.readsBlock 0x200200 overBlock overIndex := by
  refine ⟨(List.range 8).zip overBlock, each_same _ fun i mem => ?_, by decide +kernel⟩
  have words : ∀ i ∈ List.range 8, memReadN overIndex.mem (0x200200 + 8 * i) 8
      = (mget ((List.range 8).zip overBlock) i).getD 0 := by decide +kernel
  have small := List.mem_range.mp mem
  have at_ : ((0x200200 : Word) + BitVec.ofNat 64 (8 * i)).toNat = 0x200200 + 8 * i := by
    rw [BitVec.toNat_add, BitVec.toNat_ofNat, Nat.mod_eq_of_lt (a := 8 * i) (by omega)]
    exact Nat.mod_eq_of_lt (by show 0x200200 + 8 * i < 2 ^ 64; omega)
  have read := overIndex_hits.reads (va := 0x200200 + BitVec.ofNat 64 (8 * i)) (n := 8) (by omega) (by omega) (by omega)
  rwa [at_, words i mem] at read

/-- The count that the merge leaves in s7. -/
def countLeft (t : State) : Option Word := some t.hart.s[(7 : SReg)]

/-- Refutes O27: the model's merge makes two steps at most for one entry, and leaves the count 2, where the steps to the ends
of both lists output 3 entries. -/
theorem not_mergeResults : ¬ Obligations.MergeResults := by
  intro merges
  have merged := (merges overIndex overIndex over3 7 8 overBlock 3 .i32 false true (by decide +kernel) (by decide +kernel)
    (by decide +kernel) (by decide +kernel) over_block (by decide +kernel) (by decide +kernel)).1 over_merges
  have count : outcomeOf countLeft (exec (.munion ⟨.i32, 7, 8, false, true⟩) overIndex) = some 2 := by decide +kernel
  rw [merged] at count
  exact absurd count (by decide +kernel)

end Sys2Proof.Machine
end

section
/-! PROOFS. R309, R329, R369, R370: fabric packets that arrive. -/

namespace Sys2Proof.Machine

section
variable {s t u : State} {src : Nat} {p : Packet} {ctx leaf : Nat} {c : Context}

/-! ### Sources that have no packet waiting for its turn -/

/-- No packet of the source waits for earlier ones. -/
def State.NoneEarly (s : State) (src : Nat) : Prop := ∀ x ∈ s.inStreams, x.1.1 = src → x.2.early = []

theorem State.NoneEarly.of_streams (none_ : s.NoneEarly src) (same : t.inStreams = s.inStreams) : t.NoneEarly src := by
  unfold State.NoneEarly
  rwa [same]

theorem State.NoneEarly.stream (none_ : s.NoneEarly src) (plane : Nat) : (s.stream src plane).early = [] := by
  unfold State.stream aget
  cases found : s.inStreams.find? fun x => decide (x.1 = (src, plane)) with
  | none => rfl
  | some x =>
    have key : x.1 = (src, plane) := by simpa using List.find?_some found
    exact none_ x (List.mem_of_find?_eq_some found) (by rw [key])

theorem State.NoneEarly.setStream (none_ : s.NoneEarly src) (plane : Nat) {x : InStream} (early : x.early = []) :
    (s.setStream src plane x).NoneEarly src := by
  intro y mem from_
  rcases List.mem_cons.mp mem with rfl | old
  · exact early
  · exact none_ y (List.mem_of_mem_filter old) from_

/-- Packets are offered only where some wait. -/
theorem State.NoneEarly.drainAll (none_ : s.NoneEarly src) : drainAll src s = s := by
  have zero : earlyCount s src = 0 := by
    refine List.sum_eq_zero fun n mem => ?_
    obtain ⟨x, found, rfl⟩ := List.mem_map.mp mem
    obtain ⟨mem, from_⟩ := List.mem_filter.mp found
    rw [none_ x mem (by simpa using from_), List.length_nil]
  rw [Machine.drainAll, zero, drain]

theorem advance_early (n : Nat) (x : InStream) : (advance n x).early = x.early := by
  induction n generalizing x with
  | zero => rfl
  | succ n ih =>
    unfold advance
    split
    · exact ih _
    · rfl

theorem noteDone_noneEarly (none_ : s.NoneEarly src) (a : Answer) (tag : Nat × BitVec 32) :
    (noteDone src a s tag).NoneEarly src := by
  refine none_.setStream tag.1 ?_
  simp only [InStream.prune, advance_early, none_.stream, List.filter_nil]

theorem settle_noneEarly (none_ : s.NoneEarly p.src) (a : Answer) : (settle p a s).NoneEarly p.src := by
  have noted : ((packetTags p).foldl (noteDone p.src a) s).NoneEarly p.src :=
    List.foldlRecOn (motive := fun t : State => t.NoneEarly p.src) _ _ none_ fun _ kept tag _ => noteDone_noneEarly kept a tag
  exact noted.of_streams rfl

theorem settle_drained (none_ : s.NoneEarly p.src) (a : Answer) : drainAll p.src (settle p a s) = settle p a s :=
  (settle_noneEarly none_ a).drainAll

/-! ### What a packet's access leaves -/

theorem pokeN_inStreams (k n v : Nat) (s : State) : (pokeN k n v s).inStreams = s.inStreams := by
  unfold pokeN pokeBytes wakeMonitors
  dsimp only
  split <;> split <;> rfl

theorem logRemote_inStreams (p : Packet) (ctx : Nat) (l : Loc) (s : State) :
    (logRemote p ctx l s).inStreams = s.inStreams := by
  unfold logRemote
  dsimp only
  split
  · rfl
  · split <;> rfl

theorem wakeUp_inStreams (s : State) : (wakeUp s).inStreams = s.inStreams := by
  unfold wakeUp
  split <;> rfl

theorem logRemote_reserves {l : Loc} (packet : p.logged = true) (page : l.log = true)
    (enabled : (s.ctxOf ctx).order.en = true) (room : (s.ctxOf ctx).order.room 1 = true) :
    logRemote p ctx l s = s.setCtxOf ctx { s.ctxOf ctx with
      order := (s.ctxOf ctx).order.reserve (orderEntry p.gid (packetKind p) p.elem (p.src % 2 ^ 18) (p.dva.toNat / 32)) } := by
  unfold logRemote
  simp only [packet, page, enabled, room, Bool.and_self, Bool.not_true, Bool.false_eq_true, if_false]

/-! ### Packets that are performed -/

theorem performUnder_located {l : Loc} (located : underLeaf none p.view .plural (packetAcc p) p.dva.toNat leaf s = .ok l)
    (free : waitsForLog p ctx l s = false) :
    performUnder p ctx leaf s = some (settle p (performAt p ctx l s).1 (performAt p ctx l s).2) := by
  unfold performUnder
  rw [located]
  simp only [free, Bool.false_eq_true, if_false]

section
variable {l : Loc}

theorem performAt_store {d : Word} (op : p.op = .store d) (joined : (s.coreOf (l.key / 2 ^ 30)).fenced = false) :
    performAt p ctx l s = (.ack none, pokeN l.key (tBytes p.t) d.toNat (logRemote p ctx l s)) := by
  unfold performAt
  simp only [op, joined, Bool.false_eq_true, if_false]

theorem performAt_load (op : p.op = .load) (clean : dataError s l.key = none) :
    performAt p ctx l s =
      (.response (.value (BitVec.ofNat 64 (memReadN s.mem l.key (tBytes p.t)))), logRemote p ctx l s) := by
  unfold performAt
  simp only [op, clean]

theorem performAt_amo {op : AmoOp} {cmp d : Word} {ret : Bool} {new : Nat} (is_ : p.op = .amo op cmp d ret)
    (clean : dataError s l.key = none) (sum : amoNew p.t op (memReadN s.mem l.key (tBytes p.t)) cmp.toNat d.toNat = some new) :
    performAt p ctx l s =
      (if ret then .response (.value (BitVec.ofNat 64 (memReadN s.mem l.key (tBytes p.t)))) else .ack none,
        pokeN l.key (tBytes p.t) new (logRemote p ctx l s)) := by
  unfold performAt
  simp only [is_, clean, sum]

end

/-- An event that performs a packet under its leaf in `v`, and then offers what waited for it. -/
def PerformsIn (i : Instr) (p : Packet) (ctx leaf : Nat) (s v : State) : Prop :=
  ∀ w : State, performUnder p ctx leaf v = some w → exec i s = .next (drainAll p.src w)

/-- The three kinds of access that an event performs (R309). -/
theorem PerformsIn.accesses {i : Instr} {v : State} (run : PerformsIn i p ctx leaf s v) (none_ : v.NoneEarly p.src) {l : Loc}
    (located : underLeaf none p.view .plural (packetAcc p) p.dva.toNat leaf v = .ok l) (free : waitsForLog p ctx l v = false) :
    (∀ d : Word, p.op = .store d → (v.coreOf (l.key / 2 ^ 30)).fenced = false →
      exec i s = .next (settle p (.ack none) (pokeN l.key (tBytes p.t) d.toNat (logRemote p ctx l v))))
    ∧ (p.op = .load → dataError v l.key = none →
      exec i s = .next (settle p (.response (.value (BitVec.ofNat 64 (memReadN v.mem l.key (tBytes p.t)))))
        (logRemote p ctx l v)))
    ∧ ∀ (op : AmoOp) (cmp d : Word) (ret : Bool), p.op = .amo op cmp d ret → dataError v l.key = none →
      ∀ new : Nat, amoNew p.t op (memReadN v.mem l.key (tBytes p.t)) cmp.toNat d.toNat = some new →
        exec i s = .next (settle p
          (if ret then .response (.value (BitVec.ofNat 64 (memReadN v.mem l.key (tBytes p.t)))) else .ack none)
          (pokeN l.key (tBytes p.t) new (logRemote p ctx l v))) := by
  have logged : (logRemote p ctx l v).NoneEarly p.src := none_.of_streams (logRemote_inStreams p ctx l v)
  have stored (n : Nat) : (pokeN l.key (tBytes p.t) n (logRemote p ctx l v)).NoneEarly p.src :=
    logged.of_streams (pokeN_inStreams _ _ _ _)
  have ran := run _ (performUnder_located located free)
  refine ⟨fun d op joined => ?_, fun op clean => ?_, fun op cmp d ret is_ clean new sum => ?_⟩
  · rw [ran, performAt_store op joined, settle_drained (stored _)]
  · rw [ran, performAt_load op clean, settle_drained logged]
  · rw [ran, performAt_amo is_ clean sum, settle_drained (stored _)]

/-! ### Packets that are offered -/

theorem offer_answered {a : Answer} (again : answeredAs s p = some a) : offer p s = settle p a s := by
  unfold offer
  rw [again]

section
variable (new : answeredAs s p = none) (named : fcidContext s p.fcid = some (ctx, c))
  (access : ∀ g i v, p.op ≠ .report g i v)
include new named access

theorem offer_held (held : baseHit s (p.plane / 12) c.vdev c.asid p.dva.toNat = some leaf) :
    offer p s = (performUnder p ctx leaf s).getD { s with arrivals := s.arrivals ++ [p] } := by
  unfold offer
  rw [new, named]
  cases op : p.op with
  | report g i v => exact absurd op (access g i v)
  | _ => simp only [packetTower, held]

theorem offer_missed (missed : baseHit s (p.plane / 12) c.vdev c.asid p.dva.toNat = none) :
    offer p s = { s with arrivals := s.arrivals ++ [p] } := by
  unfold offer
  rw [new, named]
  cases op : p.op with
  | report g i v => exact absurd op (access g i v)
  | _ => simp only [packetTower, missed]

end

section
variable (up : fabricUp s = true)
include up

/-- A packet in its turn is offered. -/
theorem arrival_offers (away : atHand (wakeUp s) p = false) (unanswered : ((wakeUp s).stream p.src p.plane).answerTo p.seq = none)
    (turn : itsTurn (wakeUp s) p = true) :
    exec (.fabricPacketArrival p) s = .next (drainAll p.src (offer p (wakeUp s))) := by
  refine congrArg Host.Outcome.next ?_
  unfold arrive
  simp only [up, away, unanswered, turn, if_true, Bool.false_eq_true, if_false]

theorem arrival_again {a : Answer} (away : atHand (wakeUp s) p = false)
    (answered : ((wakeUp s).stream p.src p.plane).answerTo p.seq = some a) :
    exec (.fabricPacketArrival p) s =
      .next { wakeUp s with sent := (wakeUp s).sent ++ [.answer p.src p.plane p.seq a] } := by
  refine congrArg Host.Outcome.next ?_
  unfold arrive
  simp only [up, away, answered, if_true, Bool.false_eq_true, if_false]

/-- A marker of another package is noted (R370). -/
theorem marker_noted {op np : Nat} {last : BitVec 32} (other : src ≠ s.package) (none_ : s.NoneEarly src) :
    exec (.switchMarkerArrival src op np last) s =
      .next ((wakeUp s).setStream src np { (wakeUp s).stream src np with until_ := some (op, last) }) := by
  have woken : (wakeUp s).NoneEarly src := none_.of_streams (wakeUp_inStreams s)
  have noted := woken.setStream np (x := { (wakeUp s).stream src np with until_ := some (op, last) }) (woken.stream np)
  refine congrArg Host.Outcome.next ?_
  simp only [up, Bool.not_true, Bool.false_eq_true, if_false, if_neg other]
  exact noted.drainAll

end

/-! ### Packets whose translation returns -/

section
variable {n : Nat} (parked : s.arrivals[n]? = some p)
  (new : answeredAs { s with arrivals := s.arrivals.eraseIdx n } p = none)
  (named : fcidContext { s with arrivals := s.arrivals.eraseIdx n } p.fcid = some (ctx, c))
include parked new named

theorem return_performs_held
    (held : baseHit { s with arrivals := s.arrivals.eraseIdx n } (p.plane / 12) c.vdev c.asid p.dva.toNat = some leaf) :
    PerformsIn (.translationReturn n) p ctx leaf s { s with arrivals := s.arrivals.eraseIdx n } := by
  intro w done
  refine congrArg Host.Outcome.next ?_
  rw [parked]
  simp only [new, named, packetTower, held, done, Option.getD_some]

theorem return_performs_walked {v : State}
    (missed : baseHit { s with arrivals := s.arrivals.eraseIdx n } (p.plane / 12) c.vdev c.asid p.dva.toNat = none)
    (walked : baseWalk p c { s with arrivals := s.arrivals.eraseIdx n } = .ok leaf v) :
    PerformsIn (.translationReturn n) p ctx leaf s v := by
  intro w done
  refine congrArg Host.Outcome.next ?_
  rw [parked]
  simp only [new, named, packetTower, missed, walked, done, Option.getD_some]

end

end

/-- Settles O49: a packet in its turn is performed at once or parked; where no packet of its source waits, nothing else
happens. -/
theorem fabricArrivals : Obligations.FabricArrivals := by
  unfold Obligations.FabricArrivals
  refine ⟨fun s p up => ?_, fun s p ctx l packet page enabled room => logRemote_reserves packet page enabled room⟩
  intro u performs
  refine ⟨fun away unanswered turn new ctx c named access => ⟨fun leaf held none_ l located free => ?_, fun missed none_ => ?_⟩,
    fun n ctx c parked => ?_, fun a away answered => arrival_again up away answered,
    fun a away unanswered turn again none_ => ?_, fun src op np last other none_ => marker_noted up other none_⟩
  · have run : PerformsIn (.fabricPacketArrival p) p ctx leaf s u := fun w done => by
      rw [arrival_offers up away unanswered turn, offer_held new named access held, done, Option.getD_some]
    exact run.accesses none_ located free
  · rw [arrival_offers up away unanswered turn, offer_missed new named access missed]
    have parked : State.NoneEarly { u with arrivals := u.arrivals ++ [p] } p.src := State.NoneEarly.of_streams (s := u) none_ rfl
    exact congrArg Host.Outcome.next parked.drainAll
  · intro w new named access
    exact ⟨fun leaf held none_ l located free => (return_performs_held parked new named held).accesses none_ located free,
      fun leaf v missed walked none_ l located free =>
        (return_performs_walked parked new named missed walked).accesses none_ located free⟩
  · rw [arrival_offers up away unanswered turn, offer_answered again, settle_drained none_]

end Sys2Proof.Machine
end

section
/-! PROOFS. R111, R113, R294, R366, R369, R371, R387: items of the fabric, and planes that go down. -/

namespace Sys2Proof.Machine

section
variable {s t u : State} {id port : Nat} {it : Item}

theorem pokeN_mem (k n v : Nat) (s : State) : (pokeN k n v s).mem = memWriteBytes s.mem k (toBytes n v) := pokeBytes_mem _ _ _

/-! ### Items with nothing held -/

/-- No item is held for a flag. -/
def State.AllSent (s : State) : Prop := ∀ i ∈ s.items, i.unsent = false

theorem State.AllSent.map (all : s.AllSent) {f : Item → Item} (keeps : ∀ i : Item, i.unsent = false → (f i).unsent = false) :
    State.AllSent { s with items := s.items.map f } := by
  intro j mem
  obtain ⟨i, old, rfl⟩ := List.mem_map.mp mem
  exact keeps i (all i old)

theorem State.AllSent.dropItem (all : s.AllSent) (id : Nat) : (Machine.dropItem id s).AllSent :=
  fun _ mem => all _ (List.mem_of_mem_filter mem)

theorem State.AllSent.uncover (all : s.AllSent) (id : Nat) : (Machine.uncover id s).AllSent :=
  State.AllSent.map (all.dropItem id) fun _ sent => sent

theorem State.AllSent.failItem (all : s.AllSent) (id : Nat) (cause : BitVec 8) : (Machine.failItem id cause s).AllSent :=
  all.map fun i sent => by split_ifs <;> simp [sent]

theorem State.AllSent.setItem (all : s.AllSent) (sent : it.unsent = false) : (Machine.setItem it s).AllSent :=
  all.map fun i old => by split_ifs <;> assumption

/-- Where nothing is held, nothing is released. -/
theorem State.AllSent.releaseFlags (all : s.AllSent) (n : Nat) : Machine.releaseFlags n s = s := by
  have none_ : sendable s = none := by
    refine List.find?_eq_none.mpr fun i mem => ?_
    rw [all i mem]
    exact Bool.false_ne_true
  cases n with
  | zero => rfl
  | succ n => rw [Machine.releaseFlags, none_]

theorem State.AllSent.itemDone (all : s.AllSent) (id : Nat) : Machine.itemDone id s = Machine.uncover id s :=
  (all.uncover id).releaseFlags _

theorem State.AllSent.itemFails (all : s.AllSent) (id : Nat) (cause : BitVec 8) :
    Machine.itemFails id cause s = Machine.failItem id cause s :=
  (all.failItem id cause).releaseFlags _

/-! ### Finding items again -/

theorem findItem_id (found : findItem s id = some it) : it.id = id := by
  simpa using List.find?_some found

theorem findItem_uncover (id : Nat) (s : State) : findItem (uncover id s) id = none := by
  refine List.find?_eq_none.mpr fun j mem => ?_
  obtain ⟨i, kept, rfl⟩ := List.mem_map.mp mem
  simpa using (List.mem_filter.mp kept).2

theorem uncover_mem (id : Nat) (s : State) : (uncover id s).mem = s.mem := rfl

theorem uncover_only (only : s.items = [it]) : (uncover it.id s).items = [] := by
  unfold uncover dropItem
  simp [only]

theorem findItem_failItem (found : findItem s id = some it) (cause : BitVec 8) :
    ∃ j, findItem (failItem id cause s) id = some j ∧ j.failed = some cause := by
  refine ⟨{ it with failed := some cause, unsent := false }, ?_, rfl⟩
  unfold findItem failItem at *
  rw [List.find?_map]
  have same : ((fun i : Item => i.id == id) ∘ fun i => if i.id = id then { i with failed := some cause, unsent := false }
      else if i.covers.contains id then { i with failed := some cause, unsent := false, covers := [] } else i)
      = fun i : Item => i.id == id := by
    funext i
    simp only [Function.comp_apply]
    split_ifs <;> rfl
  rw [same, found, Option.map_some, if_pos (by simpa using List.find?_some found)]

theorem dropOwn_fields (it : Item) (s : State) :
    (dropOwn it s).items = s.items ∧ (dropOwn it s).mem = s.mem ∧ (dropOwn it s).harts = s.harts
      ∧ (dropOwn it s).cores = s.cores := by
  unfold dropOwn
  split <;> exact ⟨rfl, rfl, rfl, rfl⟩

theorem State.AllSent.dropOwn (all : s.AllSent) (it : Item) : (Machine.dropOwn it s).AllSent := by
  unfold State.AllSent
  rwa [(dropOwn_fields it s).1]

/-- A held flag that waits for nothing more is stored (R294). -/
theorem releaseFlags_stores {key : Nat} {data : Word} (only : s.items = [it]) (held : it.unsent = true) (live : it.failed = none)
    (free : it.covers = []) (op : it.op = .flag key data) (joined : (s.coreOf (key / 2 ^ 30)).fenced = false) :
    releaseFlags 1 s = pokeN key (tBytes it.t) data.toNat (uncover it.id s) := by
  have ready : sendable s = some it := by
    unfold sendable
    rw [only]
    simp [held, live, free]
  rw [releaseFlags, ready]
  simp only [op, releaseFlags, storeFlag, joined, Bool.false_eq_true, if_false]

/-! ### Acknowledgements -/

/-- What is counted for the transfer of an item that is acknowledged. -/
def countAck (it : Item) (s : State) : State :=
  match it.transfer with
  | some (core, n, _) => if core < 65536 then countByte core n s else s
  | none => s

theorem countAck_fields (it : Item) (s : State) :
    (countAck it s).items = s.items ∧ (countAck it s).mem = s.mem ∧ (countAck it s).harts = s.harts := by
  unfold countAck countByte
  split
  · split_ifs
    · split <;> exact ⟨rfl, rfl, rfl⟩
    · exact ⟨rfl, rfl, rfl⟩
  · exact ⟨rfl, rfl, rfl⟩

section
variable (found : findItem s id = some it) (posted : it.waits = false) (sent : it.unsent = false) (live : it.failed = none)
include found posted sent live

theorem fabricAck_counts : exec (.fabricAck id none) s = .next (countAck it (itemDone id (dropOwn it s))) := by
  refine congrArg Host.Outcome.next ?_
  rw [found]
  simp only [posted, sent, live, Option.isSome_none, Bool.or_self, Bool.false_eq_true, if_false]
  rfl

theorem fabricAck_fails (c : BitVec 8) : exec (.fabricAck id (some c)) s = .next (itemFails id c (dropOwn it s)) := by
  refine congrArg Host.Outcome.next ?_
  rw [found]
  simp only [posted, sent, live, Option.isSome_none, Bool.or_self, Bool.false_eq_true, if_false]

/-- An acknowledged item is gone (R369). -/
theorem fabricAck_frees (all : s.AllSent) :
    ∃ t, exec (.fabricAck id none) s = .next t ∧ findItem t id = none ∧ t.mem = s.mem ∧ t.harts = s.harts := by
  obtain ⟨-, memOwn, hartsOwn, -⟩ := dropOwn_fields it s
  obtain ⟨items, mem, harts⟩ := countAck_fields it (uncover id (dropOwn it s))
  refine ⟨_, fabricAck_counts found posted sent live, ?_⟩
  rw [(all.dropOwn it).itemDone]
  refine ⟨?_, mem.trans memOwn, harts.trans hartsOwn⟩
  unfold findItem
  rw [items]
  exact findItem_uncover id _

theorem fabricAck_keepsFailed (all : s.AllSent) (c : BitVec 8) :
    ∃ t j, exec (.fabricAck id (some c)) s = .next t ∧ findItem t id = some j ∧ j.failed = some c ∧ t.mem = s.mem
      ∧ t.harts = s.harts := by
  obtain ⟨itemsOwn, memOwn, hartsOwn, -⟩ := dropOwn_fields it s
  have found' : findItem (dropOwn it s) id = some it := by
    unfold findItem
    rwa [itemsOwn]
  obtain ⟨j, at_, failed⟩ := findItem_failItem found' c
  refine ⟨_, j, fabricAck_fails found posted sent live c, ?_⟩
  rw [(all.dropOwn it).itemFails]
  exact ⟨at_, failed, memOwn, hartsOwn⟩

/-- The flag that waited for the last of its items is stored (R294). -/
theorem fabricAck_storesFlag {flag : Item} {key : Nat} {data : Word} (items : s.items = [it, flag]) (other : flag.id ≠ id)
    (held : flag.unsent = true) (liveFlag : flag.failed = none) (covers : flag.covers = [id])
    (op : flag.op = .flag key data) (joined : (s.coreOf (key / 2 ^ 30)).fenced = false) :
    ∃ t, exec (.fabricAck id none) s = .next t ∧ t.items = [] ∧ t.mem = (pokeN key (tBytes flag.t) data.toNat s).mem := by
  obtain ⟨itemsOwn, memOwn, -, coresOwn⟩ := dropOwn_fields it s
  have itemId := findItem_id found
  obtain ⟨bare, left, heldBare, liveBare, freeBare, opBare, typeBare⟩ : ∃ bare : Item,
      (uncover id (dropOwn it s)).items = [bare] ∧ bare.unsent = true ∧ bare.failed = none ∧ bare.covers = []
        ∧ bare.op = .flag key data ∧ bare.t = flag.t := by
    refine ⟨{ flag with covers := [] }, ?_, held, liveFlag, rfl, op, rfl⟩
    unfold uncover dropItem
    simp [itemsOwn, items, itemId, other, covers]
  have fenced : ((uncover id (dropOwn it s)).coreOf (key / 2 ^ 30)).fenced = false := by
    unfold State.coreOf at *
    rwa [show (uncover id (dropOwn it s)).cores = s.cores from coresOwn]
  have done : itemDone id (dropOwn it s)
      = pokeN key (tBytes flag.t) data.toNat (uncover bare.id (uncover id (dropOwn it s))) := by
    rw [← typeBare, ← releaseFlags_stores left heldBare liveBare freeBare opBare fenced]
    exact congrArg (releaseFlags · _) (congrArg List.length left)
  obtain ⟨countItems, countMem, -⟩ := countAck_fields it (itemDone id (dropOwn it s))
  refine ⟨_, fabricAck_counts found posted sent live, ?_, ?_⟩
  · rw [countItems, done, (pokeN_items_package _ _ _ _).1]
    exact uncover_only left
  · rw [countMem, done, pokeN_mem, pokeN_mem]
    rw [uncover_mem, uncover_mem, memOwn]

end

/-! ### Responses -/

/-- A response reaches the hart that waits for it (R111, R113). -/
theorem deliver_reaches {g : Nat} {r : Response} (all : s.AllSent) (own : it.transfer = none)
    (hart : hartGid s it.convoy it.hidx = some g) :
    deliver it r s = (uncover it.id s).setHartOf g { s.hartOf g with resp := (s.hartOf g).resp ++ [(it.id, r)] } := by
  unfold deliver
  rw [own]
  dsimp only
  rw [all.itemDone, show hartGid (uncover it.id s) it.convoy it.hidx = some g from hart]
  rfl

theorem remoteResponse_reaches (found : findItem s id = some it) (waits : it.waits = true) (sent : it.unsent = false)
    (live : it.failed = none) (open_ : it.got = none) (own : it.transfer = none) (all : s.AllSent) {g : Nat} (r : Response)
    (hart : hartGid s it.convoy it.hidx = some g) :
    ∃ t, exec (.remoteResponse id r) s = .next t ∧ findItem t id = none ∧ t.mem = s.mem
      ∧ t.hartOf g = { s.hartOf g with resp := (s.hartOf g).resp ++ [(id, r)] } := by
  obtain ⟨-, memOwn, hartsOwn, -⟩ := dropOwn_fields it s
  have itemId := findItem_id found
  have hart' : hartGid (dropOwn it s) it.convoy it.hidx = some g := by
    unfold hartGid
    rwa [hartsOwn]
  have run : exec (.remoteResponse id r) s = .next (deliver it r (dropOwn it s)) := by
    refine congrArg Host.Outcome.next ?_
    rw [found]
    simp only [waits, sent, Item.answered, live, open_, Option.isSome_none, Bool.not_true, Bool.or_self, Bool.false_eq_true,
      if_false]
  refine ⟨_, run, ?_⟩
  rw [deliver_reaches (all.dropOwn it) own hart']
  subst itemId
  refine ⟨findItem_uncover _ _, memOwn, ?_⟩
  rw [State.setHartOf_same, show (dropOwn it s).hartOf g = s.hartOf g by unfold State.hartOf; rw [hartsOwn]]

/-! ### Time limits -/

theorem itemTimeout_unreachable (found : findItem s id = some it) (sent : it.unsent = false) (live : it.failed = none)
    (open_ : it.got = none) (late : it.since + 1000000000 ≤ s.now) :
    exec (.fabricItemTimeout id) s = .next (unreachable it s) := by
  refine congrArg Host.Outcome.next ?_
  rw [found]
  simp only [sent, Item.answered, live, open_, Option.isSome_none, Bool.or_self, Bool.false_or, decide_eq_true_eq,
    if_neg (show ¬ s.now < it.since + itemLimit from not_lt.mpr late)]

theorem unreachable_access (access : ∀ a b c, it.op ≠ .report a b c) (s : State) :
    unreachable it s = if it.waits then deliver it (.fails 0x16) s else itemFails it.id 0x16 s := by
  unfold unreachable
  cases op : it.op with
  | report a b c => exact absurd op (access a b c)
  | _ => rfl

/-! ### What moving streams leaves (R366, R370) -/

/-- Work on items that leaves planes and collectives, and memory where no flag is held. -/
structure State.ItemWork (s t : State) : Prop where
  planes : t.planes = s.planes
  colls : t.colls = s.colls
  sent : s.AllSent → t.AllSent
  mem : s.AllSent → t.mem = s.mem

theorem State.ItemWork.refl (s : State) : s.ItemWork s := ⟨rfl, rfl, fun all => all, fun _ => rfl⟩

theorem State.ItemWork.trans (first_ : s.ItemWork t) (then_ : t.ItemWork u) : s.ItemWork u :=
  ⟨then_.planes.trans first_.planes, then_.colls.trans first_.colls, fun all => then_.sent (first_.sent all),
    fun all => (then_.mem (first_.sent all)).trans (first_.mem all)⟩

theorem State.ItemWork.of_items (planes : t.planes = s.planes) (colls : t.colls = s.colls) (mem : t.mem = s.mem)
    (items : t.items = s.items) : s.ItemWork t :=
  ⟨planes, colls, fun all => by unfold State.AllSent; rwa [items], fun _ => mem⟩

theorem foldl_itemWork {β : Type} {f : State → β → State} (l : List β)
    (each : ∀ x ∈ l, ∀ t : State, t.ItemWork (f t x)) (s : State) : s.ItemWork (l.foldl f s) :=
  List.foldlRecOn (motive := fun t : State => s.ItemWork t) l f (.refl s) fun t work x mem => work.trans (each x mem t)

theorem uncover_itemWork (id : Nat) (s : State) : s.ItemWork (uncover id s) :=
  ⟨rfl, rfl, fun all => all.uncover id, fun _ => rfl⟩

theorem failItem_itemWork (id : Nat) (cause : BitVec 8) (s : State) : s.ItemWork (failItem id cause s) :=
  ⟨rfl, rfl, fun all => all.failItem id cause, fun _ => rfl⟩

theorem setItem_itemWork (sent : it.unsent = false) (s : State) : s.ItemWork (setItem it s) :=
  ⟨rfl, rfl, fun all => all.setItem sent, fun _ => rfl⟩

theorem pokeN_planes_colls (k n v : Nat) (s : State) :
    (pokeN k n v s).planes = s.planes ∧ (pokeN k n v s).colls = s.colls := by
  unfold pokeN pokeBytes wakeMonitors
  dsimp only
  split <;> split <;> exact ⟨rfl, rfl⟩

theorem storeFlag_planes_colls (i : Item) (key : Nat) (data : Word) (s : State) :
    (storeFlag i key data s).planes = s.planes ∧ (storeFlag i key data s).colls = s.colls := by
  unfold storeFlag
  split
  · exact ⟨rfl, rfl⟩
  · exact pokeN_planes_colls _ _ _ _

theorem releaseFlags_planes_colls (n : Nat) (s : State) :
    (releaseFlags n s).planes = s.planes ∧ (releaseFlags n s).colls = s.colls := by
  induction n generalizing s with
  | zero => exact ⟨rfl, rfl⟩
  | succ n ih =>
    unfold releaseFlags
    split
    · exact ⟨rfl, rfl⟩
    · split
      · exact ⟨(ih _).1.trans (storeFlag_planes_colls _ _ _ _).1, (ih _).2.trans (storeFlag_planes_colls _ _ _ _).2⟩
      · exact ih _
      · exact ih _

theorem releaseFlags_itemWork (n : Nat) (s : State) : s.ItemWork (releaseFlags n s) := by
  obtain ⟨planes, colls⟩ := releaseFlags_planes_colls n s
  refine ⟨planes, colls, fun all => ?_, fun all => ?_⟩
  · rwa [all.releaseFlags n]
  · rw [all.releaseFlags n]

theorem itemDone_itemWork (id : Nat) (s : State) : s.ItemWork (itemDone id s) :=
  (uncover_itemWork id s).trans (releaseFlags_itemWork _ _)

theorem itemFails_itemWork (id : Nat) (cause : BitVec 8) (s : State) : s.ItemWork (itemFails id cause s) :=
  (failItem_itemWork id cause s).trans (releaseFlags_itemWork _ _)

theorem deliver_fails_itemWork (sent : it.unsent = false) (cause : BitVec 8) (s : State) :
    s.ItemWork (deliver it (.fails cause) s) := by
  unfold deliver
  split
  · dsimp only
    split
    · exact itemDone_itemWork _ _
    · exact (itemDone_itemWork it.id s).trans (.of_items rfl rfl rfl rfl)
  · exact setItem_itemWork (it := { it with failed := some _ }) sent s
  · contradiction

theorem unreachable_itemWork (sent : it.unsent = false) (s : State) : s.ItemWork (unreachable it s) := by
  unfold unreachable
  split
  · exact ⟨rfl, rfl, fun all => all.dropItem _, fun _ => rfl⟩
  · split
    · exact deliver_fails_itemWork sent _ s
    · exact itemFails_itemWork _ _ s

theorem resend_itemWork (p : Nat) (it : Item) (s : State) : s.ItemWork (resend p it s) :=
  (State.ItemWork.of_items rfl rfl rfl rfl : s.ItemWork (numberItem it p s).2).trans (setItem_itemWork rfl _)

theorem moveStream_itemWork (p dst : Nat) (s : State) : s.ItemWork (moveStream p dst s) := by
  unfold moveStream
  dsimp only
  split
  · refine foldl_itemWork _ (fun i mem t => unreachable_itemWork ?_ t) s
    have plane := (List.mem_filter.mp ((sortBy_perm _ _).mem_iff.mp mem)).2
    simp [onPlane] at plane
    exact plane.2.1.2
  · split
    · exact foldl_itemWork _ (fun i _ t => resend_itemWork _ i t) s
    · exact (foldl_itemWork _ (fun i _ t => resend_itemWork _ i t) s).trans (.of_items rfl rfl rfl rfl)

theorem raiseInt_itemWork (f v : Nat) (s : State) : s.ItemWork (raiseInt f v s) := by
  unfold raiseInt
  dsimp only
  split
  · exact .refl s
  · exact .of_items rfl rfl rfl rfl

theorem mcWrite_itemWork (e : BitVec 256) (s : State) : s.ItemWork (mcWrite e s) := by
  unfold mcWrite
  dsimp only
  refine State.ItemWork.trans ?_ (raiseInt_itemWork 0 2 _)
  exact .of_items rfl rfl rfl rfl

/-- A plane that is down for the package (R366). -/
theorem planeDown_itemWork (port : Nat) (s : State) :
    State.ItemWork { s with planes := s.planes &&& ~~~(1#96 <<< port) } (planeDown port s) :=
  (mcWrite_itemWork _ _).trans (foldl_itemWork _ (fun d _ t => moveStream_itemWork port d t) _)

/-! ### Collectives that end (R387) -/

section
variable {c d : Coll}

/-- The end of a collective leaves planes and memory. -/
theorem endColl_planes_mem (id : Nat) (status : BitVec 64) (s : State) :
    (endColl id status s).planes = s.planes ∧ (endColl id status s).mem = s.mem := by
  unfold endColl
  split
  · exact ⟨rfl, rfl⟩
  · split <;> exact ⟨rfl, rfl⟩

theorem foldl_endColl_planes_mem (status : BitVec 64) (l : List Nat) (s : State) :
    (l.foldl (fun s id => endColl id status s) s).planes = s.planes
      ∧ (l.foldl (fun s id => endColl id status s) s).mem = s.mem :=
  List.foldlRecOn (motive := fun t : State => t.planes = s.planes ∧ t.mem = s.mem) l _ ⟨rfl, rfl⟩ fun _ same id _ =>
    ⟨(endColl_planes_mem id status _).1.trans same.1, (endColl_planes_mem id status _).2.trans same.2⟩

theorem findColl_id (found : findColl s id = some c) : c.id = id := by
  simpa using List.find?_some found

theorem findColl_setColl (d : Coll) (s : State) (id : Nat) :
    findColl (setColl d s) id = (findColl s id).map fun x => if x.id = d.id then d else x := by
  unfold findColl setColl
  rw [List.find?_map]
  have same : ((fun x : Coll => x.id == id) ∘ fun x => if x.id = d.id then d else x) = fun x : Coll => x.id == id := by
    funext x
    by_cases is_ : x.id = d.id <;> simp [is_]
  rw [same]

theorem findColl_setColl_own (found : findColl s d.id = some c) : findColl (setColl d s) d.id = some d := by
  rw [findColl_setColl, found, Option.map_some, if_pos (findColl_id found)]

theorem findColl_setColl_other (ne : d.id ≠ id) : findColl (setColl d s) id = findColl s id := by
  rw [findColl_setColl]
  cases found : findColl s id with
  | none => rfl
  | some e => rw [Option.map_some, if_neg fun same => ne (same.symm.trans (findColl_id found))]

theorem findColl_dropColl_other {other : Nat} (ne : other ≠ id) : findColl (dropColl other s) id = findColl s id := by
  unfold findColl dropColl freeSlots
  rw [List.find?_filter]
  refine congrArg (List.find? · s.colls) (funext fun x => ?_)
  by_cases is_ : x.id = id
  · simp [is_, ne.symm]
  · simp [is_]

/-- The end of one collective leaves another as it is. -/
theorem endColl_other (status : BitVec 64) {other : Nat} (ne : other ≠ id) :
    findColl (endColl other status s) id = findColl s id := by
  unfold endColl
  split
  · rfl
  · next d found =>
    split
    · exact findColl_dropColl_other ne
    · exact findColl_setColl_other ((findColl_id found).trans_ne ne)

theorem endColl_own (status : BitVec 64) (found : findColl s c.id = some c) (going : c.done = false) :
    findColl (endColl c.id status s) c.id
      = some { c with outcome := some status, parked := [], waits := [], answers := [] } := by
  have ended : endColl c.id status s =
      setColl { c with outcome := some status, parked := [], waits := [], answers := [] } (freeSlots c.id s) := by
    unfold endColl
    rw [found]
    exact if_neg (by simp [going])
  rw [ended]
  exact findColl_setColl_own (d := { c with outcome := some status, parked := [], waits := [], answers := [] }) found

/-- Collectives that end in turn: each that goes on is ended once. -/
theorem foldl_endColl_finds (status : BitVec 64) {l : List Nat} (apart : l.Nodup) (mem : c.id ∈ l) (going : c.done = false)
    (found : findColl s c.id = some c) :
    findColl (l.foldl (fun s id => endColl id status s) s) c.id
      = some { c with outcome := some status, parked := [], waits := [], answers := [] } := by
  have later (l : List Nat) (others : c.id ∉ l) (t : State) :
      findColl (l.foldl (fun s id => endColl id status s) t) c.id = findColl t c.id :=
    List.foldlRecOn (motive := fun u : State => findColl u c.id = findColl t c.id) l _ rfl fun u same id at_ =>
      (endColl_other status (ne_of_mem_of_not_mem at_ others)).trans same
  obtain ⟨before, after, rfl⟩ := List.append_of_mem mem
  obtain ⟨-, rest, disjoint⟩ := List.nodup_append.mp apart
  have notBefore : c.id ∉ before := fun at_ => disjoint _ at_ _ (List.mem_cons_self ..) rfl
  have notAfter : c.id ∉ after := (List.nodup_cons.mp rest).1
  rw [List.foldl_append, List.foldl_cons, later after notAfter]
  exact endColl_own status ((later before notBefore s).trans found) going

theorem find?_id_of_nodup (apart : (s.colls.map Coll.id).Nodup) (mem : c ∈ s.colls) : findColl s c.id = some c := by
  cases found : findColl s c.id with
  | none => exact absurd (List.find?_eq_none.mp found c mem) (by simp)
  | some d => exact congrArg some (List.inj_on_of_nodup_map apart (List.mem_of_find?_eq_some found) mem (findColl_id found))

/-- A port goes down with its plane and the collectives on it (R366, R387). -/
theorem portDown_ends (real : port < 96) (up : s.planes.getLsbD port = true) (powered : s.power ≠ .off)
    (boot : 3 ≤ s.bootPhase) :
    exec (.portDown port) s = .next (((s.colls.filter fun c => c.open_ && c.plane == port).map Coll.id).foldl
      (fun s id => endColl id (collStatus 6 0 0) s) (planeDown port s)) := by
  refine congrArg Host.Outcome.next (if_neg ?_)
  simp [powered, up]
  omega

end

end

/-- Settles O50: an item that is answered is dropped or marked; where nothing is held for a flag, nothing else moves. -/
theorem fabricItemResults : Obligations.FabricItemResults := by
  unfold Obligations.FabricItemResults
  intro s
  refine ⟨fun it id found sent live => ⟨fun posted => ⟨fun all => ?_, fun flag key data items other held liveFlag covers op joined =>
      fabricAck_storesFlag found posted sent live items other held liveFlag covers op joined⟩,
    fun waits own open_ all g r hart => remoteResponse_reaches found waits sent live open_ own all r hart,
    fun late open_ access all => ?_⟩, fun port real up powered boot => ?_⟩
  · exact ⟨fabricAck_frees found posted sent live all, fabricAck_keepsFailed found posted sent live all⟩
  · have run := itemTimeout_unreachable found sent live open_ late
    rw [unreachable_access access] at run
    have itemId := findItem_id found
    refine ⟨fun posted => ?_, fun waits own g hart => ?_⟩
    · obtain ⟨j, at_, failed⟩ := findItem_failItem found 0x16
      refine ⟨_, j, run, ?_⟩
      rw [posted, if_neg Bool.false_ne_true, State.AllSent.itemFails all, itemId]
      exact ⟨at_, failed, rfl⟩
    · refine ⟨_, run, ?_⟩
      rw [waits, if_pos rfl, deliver_reaches all own hart, itemId]
      exact ⟨findItem_uncover _ _, State.setHartOf_same ..⟩
  · have work := planeDown_itemWork port s
    have ended := foldl_endColl_planes_mem (collStatus 6 0 0)
      ((s.colls.filter fun c => c.open_ && c.plane == port).map Coll.id) (planeDown port s)
    refine ⟨_, portDown_ends real up powered boot, ended.1.trans work.planes, fun all => ended.2.trans (work.mem all),
      fun apart c mem open_ going on_ => ?_⟩
    refine foldl_endColl_finds _ (apart.sublist (List.filter_sublist.map _)) ?_ going ?_
    · exact List.mem_map.mpr ⟨c, List.mem_filter.mpr ⟨mem, by simp [open_, on_]⟩, rfl⟩
    · unfold findColl
      rw [work.colls]
      exact find?_id_of_nodup apart mem

end Sys2Proof.Machine
end

section
/-! PROOFS. R336: what regions and the depot hold after a loss of power. -/

namespace Sys2Proof.Machine

section
variable {s : State} {r u k : Nat} {x y : Region} {i : Instr}

theorem mget_map_values {α β : Type} (f : α → β) (m : List (Nat × α)) (k : Nat) :
    mget (m.map fun p => (p.1, f p.2)) k = (mget m k).map f := by
  induction m with
  | nil => rfl
  | cons p t ih =>
    rw [List.map_cons, mget_cons, mget_cons, ih]
    split <;> rfl

/-- Bytes that a filter by key drops read as zero. -/
theorem memRead_filter_dropped (keep : Nat → Bool) (m : List Host.Cell) {k : Nat} (dropped : keep k = false) :
    memRead (m.filter fun c => keep c.1) k = 0 := by
  have none_ : mget (m.filter fun c => keep c.1) k = none := by
    refine Option.map_eq_none_iff.mpr (List.find?_eq_none.mpr fun c mem => ?_)
    have kept : keep c.1 = true := (List.mem_filter.mp mem).2
    intro at_
    rw [beq_iff_eq] at at_
    rw [at_, dropped] at kept
    exact Bool.false_ne_true kept
  rw [memRead, none_, Option.getD_none]

theorem depotKeeps_unit {rs : List (Nat × Region)} (region : mget rs r = some y) (unit : u < 16384) (off : k < 65536)
    (empty : y.units.getLsbD u = false) : depotKeeps rs (2 ^ 42 + r * 2 ^ 30 + u * 65536 + k) = false := by
  have key : (2 ^ 42 + r * 2 ^ 30 + u * 65536 + k - 2 ^ 42) / 2 ^ 30 = r
      ∧ (2 ^ 42 + r * 2 ^ 30 + u * 65536 + k - 2 ^ 42) % 2 ^ 30 / unitBytes = u := by
    unfold unitBytes
    omega
  unfold depotKeeps
  simp only [key.1, key.2, region, empty, Bool.and_false]

/-- A region as it comes up, by its state (R336). -/
theorem powerUp_states (x : Region) : x.powerUp.wear = x.wear
    ∧ ((x.state = .open_ ∨ x.state = .erasing) → x.powerUp.state = .open_ ∧ x.powerUp.vfail = true ∧ x.powerUp.units = 0)
    ∧ ((x.state = .sealed ∨ x.state = .retired) → x.powerUp.state = x.state ∧ x.powerUp.units = x.units) := by
  unfold Region.powerUp
  cases x.state <;> simp

/-- The regions and the depot of a package that has lost its power. -/
def State.PoweredUpFrom (s t : State) : Prop :=
  t.regions = s.regions.map (fun r => (r.1, r.2.powerUp)) ∧ t.mem = s.mem.filter fun c => depotKeeps t.regions c.1

theorem powerLoss_clears (event : i ∈ [Instr.packageReset, .powerRemoved, .thermalTrip]) :
    ∃ t, exec i s = .next t ∧ s.PoweredUpFrom t := by
  simp only [List.mem_cons, List.not_mem_nil, or_false] at event
  rcases event with rfl | rfl | rfl <;> exact ⟨_, rfl, rfl, rfl⟩

end

/-- Settles O48: every region comes up by `powerUp`, and the depot is filtered by the unit bits that are then left. -/
theorem powerLossRegions : Obligations.PowerLossRegions := by
  intro s i event
  obtain ⟨t, run, regions, mem⟩ := powerLoss_clears (s := s) event
  refine ⟨t, run, fun r x _ region => ⟨x.powerUp, ?_, ?_⟩⟩
  · rw [regions, mget_map_values, region, Option.map_some]
  · obtain ⟨wear, lost, kept⟩ := powerUp_states x
    refine ⟨wear, lost, kept, fun u k unit off empty => ?_⟩
    rw [mem]
    refine memRead_filter_dropped _ _ (depotKeeps_unit (y := x.powerUp) ?_ unit off empty)
    rw [regions, mget_map_values, region, Option.map_some]

end Sys2Proof.Machine
end

section
/-! PROOFS. R318, R326, R356, R363: the commands of the host. -/

namespace Sys2Proof.Machine

section
variable {s t : State} {f n : Nat} {c : Command} {rest : List Command}

/-! ### What the effects of commands leave -/

/-- The queue of commands is left as it is. -/
theorem divideTower_commands (tower : Nat) (s : State) : (divideTower tower s).commands = s.commands := rfl

theorem regrant_commands (r : Nat) (vd : Option Nat) (s : State) : (regrant r vd s).commands = s.commands := by
  unfold regrant
  dsimp only
  split
  · rfl
  · exact divideTower_commands _ _

theorem hostWrites_commands (base : Nat) (ws : List (Nat × Nat × Nat)) (s : State) :
    (ws.foldl (fun s w => hostWrite (base + w.1) w.2.1 w.2.2 s) s).commands = s.commands :=
  List.foldlRecOn (motive := fun t : State => t.commands = s.commands) ws _ rfl fun _ same _ _ => same

theorem clearCluster_commands (cl : Nat) (s : State) : (clearCluster cl s).commands = s.commands :=
  List.foldlRecOn (motive := fun t : State => t.commands = s.commands) ((List.range 8).map fun k => 8 * cl + k) _ rfl
    fun _ same _ _ => same

/-! ### Packets held at a window (R318) -/

section
variable {q cl vd ctx : Nat} {p : BitVec 512}

/-- How a packet of the host is enqueued (R318). -/
def hostParams (ctx : Nat) : LaunchInfo :=
  { status := 0, counter := none, ctx := ctx, view := .user, gang := none, reserved := [], detBase := none, logHeld := false }

theorem placePacket_enqueues (f : Nat) (first_ : (s.queueOf q).held = []) (bound : (s.queueOf q).bind = some (cl, vd, ctx))
    (live : queueLive s (s.queueOf q) = some ctx) (valid : Packet_.ok p cl = true) (room : queueFill s q < queueDepth)
    (log : routeRoom (s.ctxOf ctx) 1 = true) : placePacket f q p s = enqueue q p (hostParams ctx) s := by
  unfold placePacket
  simp only [first_, List.isEmpty_nil, Bool.not_true, Bool.false_eq_true, if_false, live, bound, valid,
    decide_eq_false (not_le.mpr room), ge_iff_le, Bool.or_self, log]
  rfl

theorem heldPacket_enqueued (held : (s.queueOf q).held = [p])
    (bound : (s.queueOf q).bind = some (cl, vd, ctx)) (live : queueLive s (s.queueOf q) = some ctx)
    (valid : Packet_.ok p cl = true) (room : queueFill s q < queueDepth) (log : routeRoom (s.ctxOf ctx) 1 = true) :
    exec (.heldPacketEnqueue q) s =
      .next (enqueue q p (hostParams ctx) (s.setQueueOf q { s.queueOf q with held := [] })) := by
  have ready : heldReady s q = true := by
    unfold heldReady
    simp [held, live, log, room]
  refine congrArg Host.Outcome.next ((if_pos ready).trans ?_)
  unfold releaseWindow
  dsimp only
  rw [held, List.foldl_cons, List.foldl_nil]
  have queue := State.setQueueOf_same s q { s.queueOf q with held := [] }
  refine placePacket_enqueues (vd := vd) _ ?_ ?_ ?_ valid ?_ log
  · rw [queue]
  · rw [queue]
    exact bound
  · rw [queue]
    exact live
  · unfold queueFill
    rw [queue]
    exact room

end

/-! ### The command at the head -/

/-- The state in which the command at the head has ended with a CODE. -/
def State.ended (t : State) (c : Command) (rest : List Command) (code : BitVec 8) : State :=
  { t with commands := { c with code := some code } :: rest }

section
variable (head : s.commands = c :: rest)
include head

theorem commandDone_reports (own : c.fn = f) {code : BitVec 8} (over_ : c.code = some code) :
    exec (.commandDone f) s = .next (raiseInt f 0
      { s.setFnOf f { s.fnOf f with
          busy := false, code := code
          args := if c.op = 1 ∧ code = 0 then (s.fnOf f).args.set 0 c.args[0] else (s.fnOf f).args } with
        commands := rest }) := by
  refine congrArg Host.Outcome.next ?_
  simp only [head, over_, own, if_true, Command.results]

variable (own : c.fn = f) (powered : s.power ≠ .off) (open_ : c.code = none)
include own powered open_

theorem theCommand_head : theCommand s f c.op = some c := by
  unfold theCommand
  rw [head]
  exact if_pos ⟨own, rfl, by rw [open_]; rfl, powered⟩

/-- A command whose effect has a CODE ends with it (R356). -/
theorem command_ends {op : BitVec 8} (is_ : c.op = op) {act : Command → State → Option (BitVec 8) × State}
    {code : BitVec 8} (effect : act c s = (some code, t)) (same : t.commands = s.commands) :
    command f op act s = .next (t.ended c rest code) := by
  subst is_
  unfold command answer
  simp only [theCommand_head head own powered open_, effect, same, head, State.ended]

theorem createContext_ends (is_ : c.op = 1) (low : c.args[4].extractLsb' 17 3 = 0#3)
    (high : c.args[4].extractLsb' 43 21 = 0#21) (table : c.args[1].toNat < 2 ^ 38) :
    ∃ t, exec (.createContext f) s = .next t ∧ t.ctxOf s.nextContext = newContext c
      ∧ t.commands = { c with code := some 0, args := c.args.set 0 (BitVec.ofNat 64 s.nextContext) } :: rest := by
  have at_ : theCommand s f 1 = some c := is_ ▸ theCommand_head head own powered open_
  have fits : ((c.args[4].extractLsb' 17 3 != 0#3) || (c.args[4].extractLsb' 43 21 != 0#21)
      || decide (2 ^ 38 ≤ c.args[1].toNat)) = false := by
    rw [low, high, decide_eq_false (not_le.mpr table)]
    rfl
  refine ⟨answer 0 (c.args.set 0 (BitVec.ofNat 64 s.nextContext))
    { s with contexts := mset s.contexts s.nextContext (newContext c), nextContext := s.nextContext + 1 },
    congrArg Host.Outcome.next ?_, ?_⟩
  · simp only [at_, fits, Bool.false_eq_true, if_false]
  · unfold answer
    simp only [head, State.ctxOf, mget_mset_self, Option.getD_some, and_self]

theorem bindQueue_ends (is_ : c.op = 2) {ctx : Nat} (named : contextArg s c.vdev c.args[2] = some ctx)
    (queue : c.args[0].toNat < 256) (cluster : c.args[1].toNat < 8)
    (mine : f = 0 ∨ queueVdev s c.args[0].toNat = none ∨ queueVdev s c.args[0].toNat = some c.vdev)
    (clear : (s.queueOf c.args[0].toNat).held = []) :
    exec (.bindQueue f) s = .next (if (s.queueOf c.args[0].toNat).entries = [] then
        (s.setQueueOf c.args[0].toNat
          { s.queueOf c.args[0].toNat with bind := some (c.args[1].toNat, c.vdev, ctx) }).ended c rest 0
      else s.ended c rest 3) := by
  have range : ¬ (256 ≤ c.args[0].toNat ∨ 8 ≤ c.args[1].toNat) := by omega
  have allowed : ¬ (f ≠ 0 ∧ (s.queueOf c.args[0].toNat).bind.isSome ∧ queueVdev s c.args[0].toNat ≠ some c.vdev) := by
    rintro ⟨vf, bound, other⟩
    rcases mine with pf | none_ | own_
    · exact vf pf
    · rw [queueVdev, Option.map_eq_none_iff] at none_
      rw [none_] at bound
      exact Bool.false_ne_true bound
    · exact other own_
  by_cases empty : (s.queueOf c.args[0].toNat).entries = []
  · rw [if_pos empty]
    change execBindQueue f s = _
    unfold execBindQueue
    refine command_ends head own powered open_ is_ ?_ rfl
    simp only [named, range, allowed, empty, clear, List.isEmpty_nil, Bool.not_true, Bool.or_self, Bool.false_eq_true,
      if_false]
  · rw [if_neg empty]
    change execBindQueue f s = _
    unfold execBindQueue
    refine command_ends head own powered open_ is_ ?_ rfl
    simp only [named, range, allowed, empty, clear, List.isEmpty_nil, List.isEmpty_eq_false_iff.mpr, Bool.not_true,
      Bool.not_false, Bool.or_false, if_false, if_true, ne_eq, not_false_eq_true]

theorem grantRegion_ends (is_ : c.op = 3) (region : c.args[0].toNat < 4096)
    (free : (s.regionOf c.args[0].toNat).grant = none ∨ (s.regionOf c.args[0].toNat).grant = some c.vdev) :
    (c.args[1] = 1 → exec (.grantRegion f) s = .next
      ((regrant c.args[0].toNat (some c.vdev) s).ended c rest 0))
    ∧ (c.args[1] = 0 → (s.regionOf c.args[0].toNat).cmds = [] → (s.regionOf c.args[0].toNat).busyDone = [] →
      exec (.grantRegion f) s = .next
        ((regrant c.args[0].toNat none s).ended c rest 0)) := by
  have allowed : ¬ ((s.regionOf c.args[0].toNat).grant.isSome ∧ (s.regionOf c.args[0].toNat).grant ≠ some c.vdev) := by
    rintro ⟨given, other⟩
    rcases free with none_ | own_
    · rw [none_] at given
      exact Bool.false_ne_true given
    · exact other own_
  refine ⟨fun grant => ?_, fun take cmds done => ?_⟩
  · change execGrantRegion f s = _
    unfold execGrantRegion
    refine command_ends head own powered open_ is_ ?_ (regrant_commands _ _ _)
    have range : ¬ (4096 ≤ c.args[0].toNat ∨ 2 ≤ c.args[1].toNat) := by
      rw [grant]
      exact fun bad => bad.elim (by omega) (by decide)
    simp only [range, allowed, if_pos grant, if_false]
  · change execGrantRegion f s = _
    unfold execGrantRegion
    refine command_ends head own powered open_ is_ ?_ (regrant_commands _ _ _)
    have range : ¬ (4096 ≤ c.args[0].toNat ∨ 2 ≤ c.args[1].toNat) := by
      rw [take]
      exact fun bad => bad.elim (by omega) (by decide)
    have takes : ¬ c.args[1] = 1 := by
      rw [take]
      decide
    simp only [range, allowed, takes, cmds, done, List.isEmpty_nil, Bool.not_true, Bool.or_self, Bool.false_eq_true, if_false]

theorem grantRegion_taken (is_ : c.op = 3) (region : c.args[0].toNat < 4096) (grant : c.args[1] = 1)
    (other : ∃ v, (s.regionOf c.args[0].toNat).grant = some v ∧ v ≠ c.vdev) :
    exec (.grantRegion f) s = .next (s.ended c rest 3) := by
  obtain ⟨v, given, ne⟩ := other
  change execGrantRegion f s = _
  unfold execGrantRegion
  refine command_ends head own powered open_ is_ ?_ rfl
  have range : ¬ (4096 ≤ c.args[0].toNat ∨ 2 ≤ c.args[1].toNat) := by
    rw [grant]
    exact fun bad => bad.elim (by omega) (by decide)
  have taken : (s.regionOf c.args[0].toNat).grant.isSome ∧ (s.regionOf c.args[0].toNat).grant ≠ some c.vdev := by
    rw [given]
    exact ⟨rfl, fun same => ne (Option.some.inj same)⟩
  simp only [range, taken, if_true, if_false, ne_eq, not_false_eq_true, and_self]

theorem killContext_ends (is_ : c.op = 4) {x : Context} (there : mget s.contexts c.args[0].toNat = some x)
    (mine : x.vdev = c.vdev) (killed : x.killed = true) (done : killOver s c.args[0].toNat = true) :
    exec (.killContext f) s = .next
      ((killFinish c.args[0].toNat s).ended c rest 0) := by
  change execKillContext f s = _
  unfold execKillContext
  refine command_ends head own powered open_ is_ ?_ rfl
  simp only [there, mine, killed, done, if_true, ne_eq, not_true_eq_false, if_false]

/-! ### Invalidation -/

section
variable (is_ : c.op = 5) {p : TlbEntry → Bool} (settled : pendingThrough c.vdev p s = false)
include is_

section
include settled

theorem invalidate_all_ends (kind : c.args[0] = 0) (all : p = fun _ => true) : exec (.invalidate f) s = .next
    ((dropTlb c.vdev p s).ended c rest 0) := by
  subst all
  change execInvalidate f s = _
  unfold execInvalidate
  refine command_ends head own powered open_ is_ ?_ rfl
  have number : c.args[0].toNat = 0 := by rw [kind]; rfl
  simp only [number, settled, Bool.false_eq_true, if_false]

theorem invalidate_asid_ends (kind : c.args[0] = 1) (asid : c.args[2].toNat < 2 ^ 16)
    (space : p = fun e => e.asid == c.args[2].truncate 16) : exec (.invalidate f) s = .next
    ((dropTlb c.vdev p s).ended c rest 0) := by
  subst space
  change execInvalidate f s = _
  unfold execInvalidate
  refine command_ends head own powered open_ is_ ?_ rfl
  have number : c.args[0].toNat = 1 := by rw [kind]; rfl
  simp only [number, not_le.mpr asid, settled, Bool.false_eq_true, if_false]

theorem invalidate_va_ends (kind : c.args[0] = 2) (asid : c.args[2].toNat < 2 ^ 16)
    (covers : p = tlbCovers (c.args[2].truncate 16) c.args[1].toNat) : exec (.invalidate f) s = .next
    ((dropTlb c.vdev p s).ended c rest 0) := by
  subst covers
  change execInvalidate f s = _
  unfold execInvalidate
  refine command_ends head own powered open_ is_ ?_ rfl
  have number : c.args[0].toNat = 2 := by rw [kind]; rfl
  simp only [number, not_le.mpr asid, settled, Bool.false_eq_true, if_false]

end

theorem invalidate_refused (bad : 2 < c.args[0].toNat ∨ c.args[0] ≠ 0 ∧ 2 ^ 16 ≤ c.args[2].toNat) :
    exec (.invalidate f) s = .next (s.ended c rest 1) := by
  change execInvalidate f s = _
  unfold execInvalidate
  refine command_ends head own powered open_ is_ ?_ rfl
  have nonzero : c.args[0].toNat ≠ 0 := by
    rcases bad with large | ⟨ne, -⟩
    · omega
    · exact fun zero => ne (BitVec.eq_of_toNat_eq zero)
  dsimp only
  split
  · exact absurd ‹_› nonzero
  · exact if_pos (by omega)
  · exact if_pos (by omega)
  · rfl

end

/-! ### Harts -/

section
variable (is_ : c.op = 6) (slot : c.args[0].toNat < 2048) (address : c.args[1].toNat < 2 ^ 62)
include is_ slot address

theorem readHart_none (none_ : haltedHart s c.vdev c.args[0].toNat = none) :
    exec (.readHart f) s = .next (s.ended c rest 3) := by
  change execReadHart f s = _
  unfold execReadHart
  refine command_ends head own powered open_ is_ ?_ rfl
  have range : ¬ (2048 ≤ c.args[0].toNat ∨ 2 ^ 62 ≤ c.args[1].toNat) := by omega
  simp only [range, none_, if_false]

theorem readHart_ends {h : Hart} (there : haltedHart s c.vdev c.args[0].toNat = some h) (idle : h.mma = []) :
    exec (.readHart f) s = .next (((hartWords h (s.convoyOf h.convoy).ewBytes 0).foldl
      (fun s w => hostWrite (c.args[1].toNat + w.1) w.2.1 w.2.2 s) s).ended c rest 0) := by
  change execReadHart f s = _
  unfold execReadHart
  refine command_ends head own powered open_ is_ ?_ (hostWrites_commands _ _ _)
  have range : ¬ (2048 ≤ c.args[0].toNat ∨ 2 ^ 62 ≤ c.args[1].toNat) := by omega
  simp only [range, there, idle, List.isEmpty_nil, if_true, if_false]

end

section
variable (is_ : c.op = 7) (slot : c.args[0].toNat < 2048)
include is_ slot

theorem resumeHart_none (none_ : haltedHart s c.vdev c.args[0].toNat = none) :
    exec (.resumeHart f) s = .next (s.ended c rest 3) := by
  change execResumeHart f s = _
  unfold execResumeHart
  refine command_ends head own powered open_ is_ ?_ rfl
  simp only [not_le.mpr slot, none_, if_false]

theorem resumeHart_ends {h : Hart} (there : haltedHart s c.vdev c.args[0].toNat = some h) :
    exec (.resumeHart f) s = .next ((s.setHartOf c.args[0].toNat { h with status := .running }).ended c rest 0) := by
  change execResumeHart f s = _
  unfold execResumeHart
  refine command_ends head own powered open_ is_ ?_ rfl
  simp only [not_le.mpr slot, there, if_false]

end

/-! ### Floors, clusters and power -/

theorem cacheFloor_ends (is_ : c.op = 8) (floor : c.args[0].toNat ≤ 256) :
    exec (.cacheFloor f) s = .next ((s.setVdevOf c.vdev { s.vdevOf c.vdev with floor := c.args[0].toNat }).ended c rest 0) := by
  change execCacheFloor f s = _
  unfold execCacheFloor
  refine command_ends head own powered open_ is_ ?_ rfl
  simp only [not_lt.mpr floor, if_false]

theorem assignCluster_ends (is_ : c.op = 9) (cluster : c.args[0].toNat < 32)
    (device : c.args[1].toNat < 32 ∨ c.args[1] = 0xFF) (idle : clusterContexts s c.args[0].toNat = []) :
    exec (.assignCluster f) s = .next (((clearCluster c.args[0].toNat s).setClusterOf c.args[0].toNat
        { (clearCluster c.args[0].toNat s).clusterOf c.args[0].toNat with
          vdev := if c.args[1] = 0xFF then none else some c.args[1].toNat }).ended c rest 0) := by
  change execAssignCluster f s = _
  unfold execAssignCluster
  refine command_ends head own powered open_ is_ ?_
    ((State.setClusterOf_commands ..).trans (clearCluster_commands _ _))
  have none_ : (c.args[1].toNat = 0xFF) = (c.args[1] = 0xFF) :=
    propext ⟨fun same => BitVec.eq_of_toNat_eq same, fun same => by rw [same]; rfl⟩
  have range : ¬ (32 ≤ c.args[0].toNat ∨ 32 ≤ c.args[1].toNat ∧ c.args[1].toNat ≠ 0xFF) := by
    rw [ne_eq, none_]
    rintro (bad | ⟨bad, other⟩)
    · omega
    · exact device.elim (by omega) other
  simp only [range, idle, List.filter_nil, List.foldl_nil, List.all_nil, if_true, if_false, none_]

theorem powerLimit_ends (is_ : c.op = 10) : exec (.powerLimit f) s = .next
    (if 2400 ≤ c.args[0].toNat ∧ c.args[0].toNat ≤ 3600 then
      State.ended { s with powerLimit := c.args[0].toNat } c rest 0
    else s.ended c rest 1) := by
  by_cases range : 2400 ≤ c.args[0].toNat ∧ c.args[0].toNat ≤ 3600
  · rw [if_pos range]
    change execPowerLimit f s = _
    unfold execPowerLimit
    refine command_ends head own powered open_ is_ ?_ rfl
    exact if_neg (by omega)
  · rw [if_neg range]
    change execPowerLimit f s = _
    unfold execPowerLimit
    refine command_ends head own powered open_ is_ ?_ rfl
    exact if_pos (by omega)

end

end

/-- Settles O46: the controller is at the command, whose effect leaves the queue of commands, and ends it with its CODE. -/
theorem hostCommandResults : Obligations.HostCommandResults := by
  unfold Obligations.HostCommandResults
  refine ⟨fun s q cl vd ctx p held bound live valid room log => heldPacket_enqueued held bound live valid room log,
    fun s f c rest head own powered => ?_⟩
  intro ends
  refine ⟨fun code over_ => commandDone_reports head own over_, fun open_ => ⟨fun is_ low high table =>
      createContext_ends head own powered open_ is_ low high table, fun is_ ctx named queue cluster mine => ?_,
    fun is_ region => ?_, fun is_ x there mine killed done =>
      killContext_ends head own powered open_ is_ there mine killed done, fun is_ => ?_, fun is_ slot address =>
      ⟨readHart_none head own powered open_ is_ slot address, fun h there idle =>
        readHart_ends head own powered open_ is_ slot address there idle⟩, fun is_ slot =>
      ⟨resumeHart_none head own powered open_ is_ slot, fun h there =>
        resumeHart_ends head own powered open_ is_ slot there⟩, cacheFloor_ends head own powered open_,
    fun is_ cluster device idle => assignCluster_ends head own powered open_ is_ cluster device idle, fun is_ => ?_⟩⟩
  · intro x clear
    refine (bindQueue_ends head own powered open_ is_ named queue cluster mine clear).trans ?_
    exact apply_ite Host.Outcome.next _ _ _
  · intro r x
    refine ⟨fun grant free => (grantRegion_ends head own powered open_ is_ region free).1 grant,
      fun grant other => grantRegion_taken head own powered open_ is_ region grant other,
      fun take free cmds done => (grantRegion_ends head own powered open_ is_ region free).2 take cmds done⟩
  · intro asid drops
    exact ⟨fun kind settled => invalidate_all_ends head own powered open_ is_ settled kind rfl,
      fun small => ⟨fun kind settled => invalidate_asid_ends head own powered open_ is_ settled kind small rfl,
        fun kind settled => invalidate_va_ends head own powered open_ is_ settled kind small rfl⟩,
      invalidate_refused head own powered open_ is_⟩
  · exact (powerLimit_ends head own powered open_ is_).trans (apply_ite Host.Outcome.next _ _ _)

end Sys2Proof.Machine
end

section
/-! PROOFS. R5, R273, R318, R327, R353 to R356, R358, R359, R361: what the host reads and writes. -/

namespace Sys2Proof.Machine

section
variable {s : State} {f q : Nat} {p : Bool} {act : State → State}

/-! ### Requests -/

theorem hostRequest_served (served : fnServed s f = true) (reaches : p = true) : hostRequest f p act s = act (wakeUp s) := by
  unfold hostRequest
  rw [served, reaches]
  rfl

theorem hostRequest_refused (refused : (fnServed s f && p) = false) : hostRequest f p act s = reply .unsupported s := by
  unfold hostRequest
  rw [refused]
  rfl

theorem hostRequest_unserved (unserved : fnServed s f = false) : hostRequest f p act s = reply .unsupported s :=
  hostRequest_refused (by rw [unserved, Bool.false_and])

theorem hostRequest_unreached (unreached : p = false) : hostRequest f p act s = reply .unsupported s :=
  hostRequest_refused (by rw [unreached, Bool.and_false])

theorem wakeUp_fnOf (f : Nat) (s : State) : (wakeUp s).fnOf f = s.fnOf f := by
  unfold wakeUp
  split <;> rfl

theorem wakeUp_replies (s : State) : (wakeUp s).replies = s.replies := by
  unfold wakeUp
  split <;> rfl

/-! ### Launch windows (R318, R327, R358) -/

theorem releaseWindows_none (none_ : ∀ r ∈ s.queues, heldReady s r.1 = false) (n : Nat) : releaseWindows n s = s := by
  have found : s.queues.find? (fun q => heldReady s q.1) = none :=
    List.find?_eq_none.mpr fun r mem => by rw [none_ r mem]; exact Bool.false_ne_true
  cases n with
  | zero => rfl
  | succ n => rw [releaseWindows, found]

section
variable {cl vd ctx : Nat} {packet : BitVec 512}

/-- A packet of the host finds its window with nothing held (R318). -/
theorem hostLaunchWrite_places (served : fnServed s f = true) (window : q < 256)
    (reaches : fnReaches s f (queueVdev s q) = true) (none_ : ∀ r ∈ (wakeUp s).queues, heldReady (wakeUp s) r.1 = false)
    (first_ : ((wakeUp s).queueOf q).held = []) :
    exec (.hostLaunchWrite f q packet) s = .next (placePacket f q packet (wakeUp s)) := by
  refine congrArg Host.Outcome.next ((hostRequest_served served ?_).trans ?_)
  · rw [decide_eq_true window, reaches, Bool.and_self]
  · unfold hostPacket
    rw [releaseWindows_none none_, first_, ite_self]

section
variable (first_ : (s.queueOf q).held = []) (bound : (s.queueOf q).bind = some (cl, vd, ctx))
  (live : queueLive s (s.queueOf q) = some ctx)
include first_ bound live

theorem placePacket_discards (bad : Packet_.ok packet cl = false ∨ queueDepth ≤ queueFill s q) :
    placePacket f q packet s = raiseInt f 3 (discardPacket q 1 s) := by
  have refused : (!Packet_.ok packet cl || decide (queueFill s q ≥ queueDepth)) = true := by
    rw [Bool.or_eq_true]
    exact bad.imp (fun invalid => by rw [invalid]; rfl) decide_eq_true
  unfold placePacket
  simp only [first_, List.isEmpty_nil, Bool.not_true, Bool.false_eq_true, if_false, live, bound, refused, if_true]
  rfl

theorem placePacket_holds (valid : Packet_.ok packet cl = true) (room : queueFill s q < queueDepth)
    (full : routeRoom (s.ctxOf ctx) 1 = false) : placePacket f q packet s =
      raiseInt f 4 (raiseInt f 3 (routeFull ctx (s.setQueueOf q { s.queueOf q with held := [packet] }))) := by
  unfold placePacket
  simp only [first_, List.isEmpty_nil, Bool.not_true, Bool.false_eq_true, if_false, live, bound, valid,
    decide_eq_false (not_le.mpr room), ge_iff_le, Bool.or_self, full, Bool.not_false, if_true]

end

end

/-! ### Registers (R355, R356) -/

/-- An offset below the machine-check log and outside DISCARD is reached by every function. -/
theorem regReach_low {off : Nat} (low : off < 0x400) : regReach s f off = true := by
  have size : 0x400 < bar0Bytes f := by
    unfold bar0Bytes
    split <;> decide
  have none_ : discardAt off = none := if_neg (by omega)
  unfold regReach
  rw [none_, decide_eq_true (by omega), decide_eq_false (by omega : ¬ 0x10000 ≤ off)]
  simp

theorem regReach_log {off : Nat} (vf : f ≠ 0) (from_ : 0x10000 ≤ off) (upto : off < 0x30010) : regReach s f off = false := by
  unfold regReach
  rw [decide_eq_true from_, decide_eq_true upto, beq_eq_false_iff_ne.mpr vf]
  simp

theorem registerWrite_served (served : fnServed s f = true) {off : Nat} (low : off < 0x400) (data : Word) :
    exec (.registerWrite f (.write off) data) s = .next (writeRegister f off data (wakeUp s)) :=
  congrArg Host.Outcome.next (hostRequest_served served (regReach_low low))

theorem writeRegister_arg (i : Fin 6) (data : Word) (s : State) :
    writeRegister f (0x108 + 8 * i.val) data s = s.setFnOf f { s.fnOf f with args := (s.fnOf f).args.set i data } := by
  have small := i.isLt
  have named : argIndex (0x108 + 8 * i.val) = some i := by
    unfold argIndex
    rw [dif_pos (by omega)]
    exact congrArg some (Fin.ext (by simp))
  unfold writeRegister
  simp only [named]

theorem writeRegister_intcause (data : Word) (s : State) : writeRegister f 0x300 data s =
    s.setFnOf f { s.fnOf f with intcause := (s.fnOf f).intcause &&& ~~~(data.truncate 8) } := rfl

theorem writeRegister_cmd (data : Word) (s : State) : writeRegister f 0x100 data s = writeCmd f data s := rfl

section
variable {data : Word} (go : data.getLsbD 63 = true)
include go

/-- A GO while BUSY is discarded whole. -/
theorem writeCmd_busy (busy : (s.fnOf f).busy = true) :
    writeCmd f data s = s.setFnOf f { s.fnOf f with lost := true } := by
  unfold writeCmd
  simp only [go, busy, Bool.not_true, Bool.false_eq_true, if_false, if_true]

/-- The command that a GO takes, with the code that its arguments are judged to have (log 38). -/
def takenCommand (s : State) (f : Nat) (data : Word) : Command :=
  let op : BitVec 8 := data.extractLsb' 48 8
  let vd := if f = 0 then (data.extractLsb' 40 8).toNat else (s.fnOf f).vdev.getD 0
  { fn := f, op, vdev := vd, args := (s.fnOf f).args
    code := if op = 0 ∨ 10 < op.toNat ∨ 31 < vd then some 1
      else if f ≠ 0 ∧ op ∈ [(3 : BitVec 8), 8, 9, 10] then some 2 else none }

theorem writeCmd_takes (idle : (s.fnOf f).busy = false) : writeCmd f data s =
    { s.setFnOf f { s.fnOf f with cmd := data &&& 0x00FFFF0000000000#64, busy := true } with
      commands := s.commands ++ [takenCommand s f data] } := by
  unfold writeCmd takenCommand
  simp only [go, idle, Bool.not_true, Bool.false_eq_true, if_false]
  generalize (data.extractLsb' 48 8 : BitVec 8) = op
  generalize (if f = 0 then (data.extractLsb' 40 8).toNat else (s.fnOf f).vdev.getD 0) = vd
  simp [and_comm, or_assoc]

end

/-! ### Reads of registers (R355, R359) -/

/-- An aligned doubleword of BAR 0. -/
theorem regBytes_doubleword {n : Nat} (s : State) (f : Nat) : regBytes s f (8 * n) 8 = toBytes 8 (regWord s f (8 * n)) := by
  unfold regBytes
  refine List.ext_getElem (by simp) fun i h _ => ?_
  have small : i < 8 := by simpa using h
  rw [toBytes_get _ _ _ small, List.getElem_map, List.getElem_range, show (8 * n + i) / 8 * 8 = 8 * n by omega, show (8 * n + i) % 8 = i by omega,
    pow_mul, show 2 ^ 8 = 256 from rfl]

theorem regBytes_ident (s : State) (f : Nat) : regBytes s f 0 8 = toBytes 8 0x53475738 := regBytes_doubleword (n := 0) s f

theorem regBytes_bootstat (s : State) (f : Nat) : regBytes s f 8 8 = toBytes 8 (bootWord s) := regBytes_doubleword (n := 1) s f

theorem bootWord_wakeUp (s : State) : bootWord (wakeUp s) = bootWord s := by
  unfold wakeUp
  split <;> rfl

theorem readRegister_served (served : fnServed s f = true) {off len : Nat} (reaches : ∀ i < len, regReach s f (off + i) = true) :
    readRegister f off len s = regRead f off len (wakeUp s) := by
  unfold readRegister
  dsimp only
  rw [served, Bool.not_true, Bool.and_false, if_neg Bool.false_ne_true]
  exact hostRequest_served served (List.all_eq_true.mpr fun i mem => reaches i (List.mem_range.mp mem))

/-- IDENT and BOOTSTAT answer in every phase (R359). -/
theorem readRegister_early (powered : s.power ≠ .off) (mine : f = 0 ∨ f ≤ 64 ∧ (s.fnOf f).vdev.isSome = true) {off : Nat}
    (first_ : off + 8 ≤ 0x10) {bs : List Byte} (own : regBytes s f off 8 = bs) (woken : regBytes (wakeUp s) f off 8 = bs) :
    (readRegister f off 8 s).replies = .data bs :: s.replies := by
  cases served : fnServed s f with
  | true =>
    rw [readRegister_served served fun i small => regReach_low (by omega)]
    exact congr (congrArg _ (congrArg Reply.data woken)) (wakeUp_replies s)
  | false =>
    have early : (s.power != .off && decide (off + 8 ≤ 0x10) && (f == 0 || (s.fnOf f).vdev.isSome)) = true := by
      rw [decide_eq_true first_]
      rcases mine with rfl | ⟨-, bound⟩ <;> simp [*]
    unfold readRegister
    simp only [early, served, Bool.not_false, Bool.and_self, if_true]
    exact congrArg (· :: s.replies) (congrArg Reply.data own)

/-! ### What configures a function (R353), and barriers (R273) -/

theorem bind_results (served : fnServed s 0 = true) {vf d : Nat} (from_ : 1 ≤ vf) (upto : vf ≤ 64) (device : d < 32) :
    exec (.registerWrite 0 (.bind vf) (BitVec.ofNat 64 d)) s =
      .next (if s.fns.any fun p => p.1 != 0 && p.1 != vf && p.2.vdev == some d
        then { s with replies := .unsupported :: s.replies }
        else (wakeUp s).setFnOf vf { (wakeUp s).fnOf vf with vdev := some d }) := by
  have number : (BitVec.ofNat 64 d).toNat = d := by
    rw [BitVec.toNat_ofNat]
    exact Nat.mod_eq_of_lt (by omega)
  have other : d ≠ 0xFF := by omega
  have may : mayBind s vf (some d) = !(s.fns.any fun p => p.1 != 0 && p.1 != vf && p.2.vdev == some d) := by
    unfold mayBind
    simp only [decide_eq_true from_, decide_eq_true upto, decide_eq_true device, Bool.true_and]
  refine congrArg Host.Outcome.next ?_
  simp only [number, other, if_false, may, beq_self_eq_true, Bool.true_and]
  cases s.fns.any fun p => p.1 != 0 && p.1 != vf && p.2.vdev == some d with
  | true => exact hostRequest_unreached rfl
  | false => exact hostRequest_served served rfl

theorem resize_results (served : fnServed s f = true) {n : Nat} (small : n ≤ 8) :
    exec (.registerWrite f .resize (BitVec.ofNat 64 n)) s =
      .next ((wakeUp s).setFnOf f { (wakeUp s).fnOf f with bar4 := n }) := by
  have number : (BitVec.ofNat 64 n).toNat = n := by
    rw [BitVec.toNat_ofNat]
    exact Nat.mod_eq_of_lt (by omega)
  refine congrArg Host.Outcome.next ?_
  simp only [number]
  exact hostRequest_served served (decide_eq_true small)

theorem cbar_reported (served : fnServed s f = true) {cl n : Nat} (cluster : cl < 32) (number : n < 16)
    (reaches : fnReaches s f (s.clusterOf cl).vdev = true) :
    exec (.registerWrite f (.cbar cl) (BitVec.ofNat 64 n)) s = .next (reply
      (.data (toBytes 8 (((wakeUp s).clusterOf cl).cbar n).word.toNat)) (wakeUp s)) := by
  have same : (BitVec.ofNat 64 n).toNat = n := by
    rw [BitVec.toNat_ofNat]
    exact Nat.mod_eq_of_lt (by omega)
  refine congrArg Host.Outcome.next ?_
  simp only [same]
  exact hostRequest_served served (by rw [decide_eq_true cluster, decide_eq_true number, reaches]; rfl)

/-! ### SPDM (R361) -/

section
variable (powered : s.power ≠ .off) (boot : s.bootPhase = 5)
include powered boot

theorem spdmAnswer_answers (code : BitVec 8) (body : State → List Byte) : spdmAnswer code body s =
    .next { wakeUp s with replies := .spdm code (body s) :: (wakeUp s).replies } := by
  unfold spdmAnswer
  rw [beq_eq_false_iff_ne.mpr powered, boot]
  rfl

theorem spdm_answers {i : Instr} {code : BitVec 8} (body : State → List Byte) (event : exec i s = spdmAnswer code body s) :
    exec i s = .next { wakeUp s with replies := .spdm code (body s) :: (wakeUp s).replies } :=
  event.trans (spdmAnswer_answers powered boot code body)

/-- An answer after a fresh free value. -/
theorem spdm_fresh {i : Instr} {code : BitVec 8} (body : State → List Byte)
    (event : exec i s = spdmAnswer code body { s with freeCount := s.freeCount + 1 }) : exec i s =
      .next { wakeUp s with
        replies := .spdm code (body { s with freeCount := s.freeCount + 1 }) :: (wakeUp s).replies
        freeCount := (wakeUp s).freeCount + 1 } := by
  rw [event, spdmAnswer_answers (s := { s with freeCount := s.freeCount + 1 }) powered boot]
  unfold wakeUp
  dsimp only
  split <;> rfl

end

end

/-- Settles O45: a function that is served and reaches what it names is answered in the state that its request has woken;
any other gets Unsupported Request. -/
theorem hostAccessResults : Obligations.HostAccessResults := by
  unfold Obligations.HostAccessResults
  intro s f u
  refine ⟨fun served => ⟨fun q cl vd ctx p window reaches none_ first_ bound live => ?_, fun q window reaches => ?_,
      fun off len range => congrArg Host.Outcome.next (hostRequest_served served range),
      fun off data range => congrArg Host.Outcome.next (hostRequest_served served range), fun i data => ?_, fun data => ?_,
      fun data go busy => ?_, fun data go idle => ?_, fun off len reaches =>
        congrArg Host.Outcome.next (readRegister_served served reaches), fun vf d pf from_ upto device => ?_,
      fun n small => resize_results served small, fun cl n cluster number reaches =>
        cbar_reported served cluster number reaches⟩,
    fun unserved i mem => ?_, fun vf off data from_ upto =>
      congrArg Host.Outcome.next (hostRequest_unreached (regReach_log vf from_ upto)),
    fun powered mine => ?_, fun powered boot nonce code => ?_⟩
  · have placed := hostLaunchWrite_places (packet := p) served window reaches none_ first_
    refine ⟨fun valid room log => ?_, fun bad => ?_, fun valid room full => ?_⟩
    · rw [placed, placePacket_enqueues f first_ bound live valid room log]
      rfl
    · rw [placed, placePacket_discards first_ bound live bad]
    · rw [placed, placePacket_holds first_ bound live valid room full]
  · exact congrArg Host.Outcome.next (hostRequest_served served (by rw [decide_eq_true window, reaches, Bool.and_self]))
  · have small := i.isLt
    rw [registerWrite_served served (by omega), writeRegister_arg]
  · rw [registerWrite_served served (by omega), writeRegister_intcause]
  · rw [registerWrite_served served (by omega), writeRegister_cmd, writeCmd_busy go busy]
  · have run := registerWrite_served served (off := 0x100) (by omega) data
    rw [writeRegister_cmd, writeCmd_takes go idle] at run
    refine ⟨_, takenCommand u f data, run, rfl, rfl, rfl, rfl, congrArg Fn.busy (State.setFnOf_same ..), fun pf => if_pos pf, fun vf => ?_, rfl⟩
    have bound : ((wakeUp s).fnOf f).vdev.isSome = true := by
      unfold fnServed at served
      simp [vf] at served
      rw [wakeUp_fnOf]
      exact served.2.2
    obtain ⟨vd, at_⟩ := Option.isSome_iff_exists.mp bound
    unfold takenCommand
    dsimp only
    rw [if_neg vf, at_, Option.getD_some]
  · subst pf
    exact bind_results served from_ upto device
  · simp only [List.mem_cons, List.not_mem_nil, or_false] at mem
    rcases mem with rfl | rfl | rfl | rfl | rfl | rfl
    case inr.inr.inr.inr.inl =>
      refine congrArg Host.Outcome.next ?_
      unfold readRegister
      simp only [show ¬ 0x100 + (8 : Word).toNat ≤ 0x10 by decide, decide_false, Bool.and_false, Bool.false_and,
        Bool.false_eq_true, if_false]
      exact hostRequest_unserved unserved
    all_goals exact congrArg Host.Outcome.next (hostRequest_unserved unserved)
  · exact ⟨_, _, rfl, readRegister_early powered mine (by omega) (regBytes_ident s f) (regBytes_ident _ f), rfl,
      readRegister_early powered mine (by omega) (regBytes_bootstat s f) ((regBytes_bootstat _ f).trans (by
        rw [bootWord_wakeUp, bootWord]))⟩
  · intro answers fresh
    let free := Config.freeSpdmBytes s.freeCount
    exact ⟨⟨_, spdm_fresh powered boot (fun _ => [0, 1, free.headD 0, 0x13]) rfl⟩,
      ⟨_, spdm_fresh powered boot (fun _ => free) rfl⟩,
      spdm_answers powered boot (fun s => 1 :: Config.freeDigest s.chain) rfl,
      spdm_answers powered boot (fun s => 0 :: s.chain) rfl,
      fun slot other => spdm_answers powered boot (fun _ => [0x01, 0]) (congrFun (if_neg other) s),
      ⟨_, spdm_fresh powered boot (fun t => 0 :: (Config.freeDigest t.chain ++ toBytes 32 nonce.toNat ++ signed free)) rfl⟩,
      ⟨_, spdm_fresh powered boot (fun t => 4 :: (t.measured.flatten ++ toBytes 32 nonce.toNat ++ signed free)) rfl⟩,
      spdm_answers powered boot (fun _ => toBytes 4 0x8 ++ toBytes 4 0x2) rfl,
      spdm_answers powered boot (fun _ => [0x07, code]) rfl⟩

end Sys2Proof.Machine
end

section
/-! PROOFS. R379, R383, R386, R387, R394: collectives that start, and failures that end them. -/

namespace Sys2Proof.Machine

section
variable {s t u : State} {id : Nat} {c : Coll}

/-! ### What the engines' reads keep -/

/-- Neither a walk nor the staging cache ends the property. -/
structure KeptByReads (P : State → Prop) : Prop extends KeptByWalks P where
  stage : ∀ s g, P s → P { s with staging := g }

theorem ends_mapM_each {ε α β : Type} {P : State → Prop} {f : α → EStateM ε State β}
    (each : ∀ a u, P u → EndsIn P (f a) u) (as : List α) (holds : P s) : EndsIn P (as.mapM f) s := by
  induction as generalizing s with
  | nil => exact ends_pure holds _
  | cons a as ih =>
    rw [List.mapM_cons]
    exact ends_bind (each a s holds) fun _ _ ht => ends_bind (ih ht) fun _ _ hu => ends_pure hu _

section
variable {P : State → Prop} (kept : KeptByReads P)
include kept

theorem wantLine_keeps (line : Nat) (holds : P s) : P (wantLine line s) := by
  unfold wantLine
  split
  · exact holds
  · exact kept.stage _ _ holds

theorem serveLine_keeps (line : Nat) (holds : P s) : P (serveLine line s) := by
  unfold serveLine stagingTouch
  dsimp only
  split <;> exact kept.stage _ _ holds

theorem hostRead_keeps {ε : Type} (n : Nat) (holds : P s) : EndsIn P (hostRead n : EStateM ε State Nat) s :=
  kept.free _ _ holds

/-- What a read does with a word that it has reached. -/
def dataRead (va : Word) (n key : Nat) (v : State) : EngM Nat :=
  match dataError v key with
  | some c => throw (.fault c false va)
  | none => return memReadN v.mem key n

theorem engRead_keeps (core : Option Nat) (ctx : Nat) (view : Mode) (fam : Fam) (va : Word) (n : Nat) (holds : P s) :
    EndsIn P (engRead core ctx view fam va n) s := by
  unfold engRead
  refine ends_bind (engPlace_keeps kept.toKeptByWalks core ctx view fam .load va holds) fun l v hv =>
    ends_ite (fun _ => hostRead_keeps kept n hv) fun _ => ends_get_bind ?_
  have data (w : State) (hw : P w) : EndsIn P (dataRead va n l.key v) w := by
    unfold dataRead
    split
    · exact ends_throw hw _
    · exact ends_pure hw _
  dsimp only
  split
  · split
    · exact ends_bind (ends_set (wantLine_keeps kept _ hv)) fun _ _ hw => ends_bind (ends_throw hw _) fun _ _ hx => data _ hx
    · exact ends_bind (ends_set (kept.stage _ _ hv)) fun _ _ hw => ends_bind (ends_throw hw _) fun _ _ hx => data _ hx
    · exact ends_bind (ends_set (serveLine_keeps kept _ hv)) fun _ _ hw => data _ hw
  · exact data _ hv

theorem readTable_keeps (ctx : Nat) (va : Word) (n : Nat) (holds : P s) : EndsIn P (readTable ctx va n) s :=
  ends_mapM_each (fun _ _ hu => engRead_keeps kept _ _ _ _ _ _ hu) _ holds

end

theorem sameColls_keptByReads (u : State) : KeptByReads (fun t => t.colls = u.colls) where
  free _ _ same := same
  fill _ _ _ same := same
  stage _ _ same := same

theorem raiseInt_colls (f v : Nat) (s : State) : (raiseInt f v s).colls = s.colls := (raiseInt_itemWork f v s).colls

theorem addFault_colls (vd ctx : Nat) (engine core cause : BitVec 8) (va : Word) (target : EngineTarget) (s : State) :
    (addFault vd ctx engine core cause va target s).1.colls = s.colls := by
  unfold addFault
  dsimp only
  split
  · split
    · exact raiseInt_colls _ _ _
    · rfl
  · rfl

/-! ### A waybill that is taken (R379, R383) -/

/-- The collective of one waybill, whatever has come of it. -/
structure Coll.SameWaybill (c d : Coll) : Prop where
  waybill : d.waybill = c.waybill
  tail : d.tail = c.tail
  ctx : d.ctx = c.ctx
  ring : d.ring = c.ring

/-- The collective is still there. -/
def State.HasWaybill (id : Nat) (c : Coll) (t : State) : Prop := ∃ d, findColl t id = some d ∧ c.SameWaybill d

theorem findColl_of_colls (same : t.colls = s.colls) (id : Nat) : findColl t id = findColl s id := by
  unfold findColl
  rw [same]

section
variable (found : findColl s id = some c)
include found

theorem setColl_hasWaybill {d : Coll} (own : d.id = id) (same : c.SameWaybill d) : State.HasWaybill id c (setColl d s) := by
  subst own
  exact ⟨d, findColl_setColl_own found, same⟩

theorem hasWaybill_self : s.HasWaybill id c := ⟨c, found, rfl, rfl, rfl, rfl⟩

theorem endColl_hasWaybill (status : BitVec 64) (going : c.done = false) : State.HasWaybill id c (endColl id status s) := by
  obtain rfl := findColl_id found
  exact ⟨_, endColl_own status found going, rfl, rfl, rfl, rfl⟩

theorem collFault_hasWaybill (going : c.done = false) (part : Nat) (cause : BitVec 8) (soft : Bool) (va : Word) :
    State.HasWaybill id c (collFault id part cause soft va s) := by
  have own : c.id = id := findColl_id found
  unfold collFault
  rw [found]
  dsimp only
  split
  · refine setColl_hasWaybill ?_ own ⟨rfl, rfl, rfl, rfl⟩
    rw [findColl_of_colls (addFault_colls ..)]
    exact found
  · exact endColl_hasWaybill found _ going

theorem checkTable_hasWaybill (going : c.done = false) : State.HasWaybill id c (checkTable id s) := by
  have own : c.id = id := findColl_id found
  have read := readTable_keeps (sameColls_keptByReads s) c.ctx (Waybill.gaddr c.wb) (Waybill.size c.wb) rfl
  unfold checkTable
  rw [found]
  dsimp only
  split
  · exact collFault_hasWaybill found going _ _ _ _
  · exact hasWaybill_self found
  next ms s1 done =>
    have found' : findColl s1 id = some c := (findColl_of_colls (read.ok done) id).trans found
    split
    · exact setColl_hasWaybill found' own ⟨rfl, rfl, rfl, rfl⟩
    · exact endColl_hasWaybill found' _ going

theorem checkWaybill_hasWaybill (going : c.done = false) : State.HasWaybill id c (checkWaybill id s) := by
  unfold checkWaybill
  rw [found]
  dsimp only
  split
  · exact endColl_hasWaybill found _ going
  · split
    · exact collFault_hasWaybill found going _ _ _ _
    · exact endColl_hasWaybill found _ going
    · split
      · exact checkTable_hasWaybill found going
      · exact endColl_hasWaybill found _ going

theorem checkWaybill_invalid (bad : Waybill.ok c.wb = false) : checkWaybill id s = endColl id (collStatus 1 0 0) s := by
  unfold checkWaybill
  rw [found]
  dsimp only
  rw [bad]
  rfl

end

/-- The collective as a waybill is taken. -/
def newColl (s : State) (ctx r d tail : Nat) (w : BitVec 1024) : Coll :=
  { id := s.nextColl, ctx, ring := r, tail := BitVec.ofNat 64 tail, header := ringHeader d
    addr := ringHeader d + BitVec.ofNat 64 (128 + 128 * (tail % 2 ^ field d 0 4)), waybill := w, table := [], matched := false
    plane := 0, queued := [], granted := [], slotted := false, emptied := 0, read := [], mid := [], pushed := []
    pulled := [], parked := [], waits := [], answers := [], outcome := none, done := false, aborted := false }

/-- The state in which it is checked. -/
def State.withColl (s : State) (c : Coll) : State := wakeUp { s with colls := s.colls ++ [c], nextColl := s.nextColl + 1 }

theorem takeWaybill_checks (ctx r d tail : Nat) (w : BitVec 1024) (s : State) :
    takeWaybill ctx r d tail w s = checkWaybill s.nextColl (s.withColl (newColl s ctx r d tail w)) := rfl

theorem findColl_withColl (fresh : ∀ x ∈ s.colls, x.id ≠ c.id) : findColl (s.withColl c) c.id = some c := by
  have colls : (s.withColl c).colls = s.colls ++ [c] := by
    unfold State.withColl wakeUp
    split <;> rfl
  unfold findColl
  rw [colls, List.find?_append, List.find?_eq_none.mpr fun x mem => by simpa using fresh x mem]
  simp

/-- The outcome of a visit that finds a waybill (R379, R383). -/
theorem takeWaybill_takes (fresh : ∀ x ∈ s.colls, x.id ≠ s.nextColl) (ctx r d tail : Nat) (w : BitVec 1024) :
    ∃ e, findColl (takeWaybill ctx r d tail w s) s.nextColl = some e ∧ e.waybill = w ∧ e.tail = BitVec.ofNat 64 tail
      ∧ e.ctx = ctx ∧ e.ring = r ∧ (Waybill.ok w.toNat = false → e.outcome = some 1 ∧ e.table = []) := by
  have found := findColl_withColl (c := newColl s ctx r d tail w) fresh
  rw [takeWaybill_checks]
  obtain ⟨e, at_, same⟩ := checkWaybill_hasWaybill found rfl
  refine ⟨e, at_, same.waybill, same.tail, same.ctx, same.ring, fun bad => ?_⟩
  have ended := endColl_own (collStatus 1 0 0) found rfl
  rw [checkWaybill_invalid found bad] at at_
  obtain rfl : _ = e := Option.some.inj (ended.symm.trans at_)
  exact ⟨rfl, rfl⟩

/-! ### A visit (R379) -/

section
variable {ctx r d tail head : Nat} {x : Context} {w : BitVec 1024} {v : State}
  (there : mget s.contexts ctx = some x) (lives : x.killed = false) (up : fabricUp s = true) (small : r < 64)
  (free : ringWaits s ctx r = false) (idle : ∀ c ∈ s.colls, c.ctx = ctx → c.ring = r → c.done = true)
  (entry : ringEntry s ctx r = .ok d v) (enabled : ringEnabled d = true)
  (vault : inVault v ctx .load (ringHeader d) = true) (peek : ringPeek ctx d v = .ok (head, tail, w) u)
include there lives up small free idle entry enabled vault peek

theorem ringVisit_looks :
    exec (.ringVisit ctx r) s = .next (if head ≤ tail then u else takeWaybill ctx r d tail w u) := by
  have none_ : s.colls.find? (fun c => c.ctx == ctx && c.ring == r && !c.done) = none := by
    refine List.find?_eq_none.mpr fun c mem going => ?_
    simp only [Bool.and_eq_true, beq_iff_eq, Bool.not_eq_true'] at going
    rw [idle c mem going.1.1 going.1.2] at going
    exact Bool.false_ne_true going.2.symm
  refine congrArg Host.Outcome.next ?_
  rw [there]
  simp only [lives, up, decide_eq_false (not_le.mpr small), Bool.not_true, Bool.or_self, Bool.false_eq_true, if_false]
  unfold visitRing
  simp only [free, none_, entry, enabled, vault, peek, Bool.not_true, Bool.or_self, Bool.false_eq_true, if_false]

end

/-! ### Ends and matches (R386, R387, R394) -/

/-- The collective has ended with a STATUS; its slots and requests are freed, and memory is left. -/
def State.EndsColl (s : State) (id : Nat) (c : Coll) (status : BitVec 64) (t : State) : Prop :=
  findColl t id = some { c with outcome := some status, parked := [], waits := [], answers := [] }
    ∧ (∀ x ∈ t.switchSlots, x.owner ≠ id) ∧ (∀ x ∈ t.slotWaits, x.owner ≠ id) ∧ t.mem = s.mem

theorem endColl_ends (found : findColl s id = some c) (going : c.done = false) (status : BitVec 64) :
    s.EndsColl id c status (endColl id status s) := by
  obtain rfl := findColl_id found
  refine ⟨endColl_own status found going, ?_, ?_, (endColl_planes_mem _ _ _).2⟩
  all_goals
    unfold endColl
    rw [found]
    dsimp only
    rw [going, if_neg Bool.false_ne_true]
    intro y mem
    simpa using (List.mem_filter.mp mem).2

theorem endColl_done (found : findColl s id = some c) (done : c.done = true) (status : BitVec 64) :
    endColl id status s = dropColl id s := by
  unfold endColl
  rw [found]
  exact if_pos done

section
variable (found : findColl s id = some c)
include found

theorem planeLost_ends (open_ : c.open_ = true) :
    exec (.collectivePlaneLost id) s = .next (endColl id (collStatus 6 0 0) s) := by
  refine congrArg Host.Outcome.next ?_
  rw [found]
  exact if_pos open_

theorem peerFailed_ends (open_ : (c.live || c.done) = true) {peer : Nat} (member : peer < c.table.length)
    (other : peer ≠ c.self s) : exec (.collectivePeerFailed id peer) s = .next (endColl id (collStatus 4 0 peer) s) := by
  refine congrArg Host.Outcome.next ?_
  rw [found]
  refine if_pos ?_
  rw [open_, decide_eq_true member, bne_iff_ne.mpr other]
  rfl

section
variable (live : c.live = true) (unmatched : c.matched = false) {peers : List PeerView}
  (meet : peers.all (viewsMeet (c.view s)) = true)
include live unmatched meet

theorem match_differs (differ : peers.all (viewsAgree (c.view s)) = false) :
    exec (.waybillMatch id peers) s = .next (endColl id (collStatus 3 0 0) s) := by
  refine congrArg Host.Outcome.next ?_
  rw [found]
  simp only [live, unmatched, meet, differ, Bool.not_true, Bool.not_false, Bool.or_self, Bool.false_eq_true, if_false, if_true]

section
variable (agree : peers.all (viewsAgree (c.view s)) = true) (all : c.table.length ≤ peers.length + 1)
include agree all

theorem match_planes {p : Nat} (first_ : collPlane c (c.view s :: peers) = some p) :
    exec (.waybillMatch id peers) s = .next (setColl { c with matched := true, plane := p } s) := by
  refine congrArg Host.Outcome.next ?_
  rw [found]
  simp only [live, unmatched, meet, agree, not_lt.mpr all, first_, Bool.not_true, Bool.or_self, Bool.false_eq_true, if_false]

theorem match_noPlane (none_ : collPlane c (c.view s :: peers) = none) :
    exec (.waybillMatch id peers) s = .next (endColl id (collStatus 6 0 0) s) := by
  refine congrArg Host.Outcome.next ?_
  rw [found]
  simp only [live, unmatched, meet, agree, not_lt.mpr all, none_, Bool.not_true, Bool.or_self, Bool.false_eq_true, if_false]

end

end

end

/-- Code 4 with the number of the peer (R394). -/
theorem peerStatus (peer : Nat) : collStatus 4 0 peer = BitVec.ofNat 64 (4 + peer * 2 ^ 32) := by
  have zero : (0 : BitVec 8).toNat = 0 := rfl
  unfold collStatus
  rw [zero]
  exact congrArg (BitVec.ofNat 64) (by omega)

/-! ### The first common plane (R387) -/

/-- Plane number `k` from TAG on. -/
def Coll.planeFrom (c : Coll) (k : Nat) : Nat := (Waybill.tag c.waybill.toNat + k) % 96

/-- It is up at every member. -/
def Coll.UpAt (c : Coll) (s : State) (peers : List PeerView) (k : Nat) : Prop :=
  s.planes.getLsbD (c.planeFrom k) = true ∧ ∀ y ∈ peers, y.planes.getLsbD (c.planeFrom k) = true

theorem collPlane_finds (c : Coll) (s : State) (peers : List PeerView) :
    collPlane c (c.view s :: peers) = ((List.range 96).find? fun k =>
      (c.view s :: peers).all fun v => v.planes.getLsbD (c.planeFrom k)).map c.planeFrom := by
  have from_ (k : Nat) : (Waybill.tag c.wb % 96 + k) % 96 = c.planeFrom k := Nat.mod_add_mod _ _ _
  unfold collPlane
  simp only [from_]
  rw [List.find?_map]
  rfl

theorem upAt_iff (c : Coll) (s : State) (peers : List PeerView) (k : Nat) :
    ((c.view s :: peers).all fun v => v.planes.getLsbD (c.planeFrom k)) = true ↔ c.UpAt s peers k := by
  rw [List.all_cons, Bool.and_eq_true, List.all_eq_true]
  rfl

theorem collPlane_first {peers : List PeerView} {k : Nat} (small : k < 96) (up : c.UpAt s peers k)
    (first_ : ∀ j < k, ¬ c.UpAt s peers j) : collPlane c (c.view s :: peers) = some (c.planeFrom k) := by
  rw [collPlane_finds, List.find?_range_eq_some.mpr ⟨(upAt_iff ..).mpr up, List.mem_range.mpr small, fun j before => ?_⟩]
  · rfl
  · rw [Bool.not_eq_true', ← Bool.not_eq_true, upAt_iff]
    exact first_ j before

theorem collPlane_none {peers : List PeerView} (down : ∀ k < 96, ¬ c.UpAt s peers k) :
    collPlane c (c.view s :: peers) = none := by
  rw [collPlane_finds, List.find?_eq_none.mpr fun k mem => ?_]
  · rfl
  · rw [upAt_iff]
    exact down k (List.mem_range.mp mem)

theorem views_meet {peers : List PeerView} (meet : ∀ y ∈ peers, y.fcid = (s.ctxOf c.ctx).fcid
    ∧ Waybill.group y.waybill.toNat = Waybill.group c.waybill.toNat
    ∧ Waybill.tag y.waybill.toNat = Waybill.tag c.waybill.toNat) : peers.all (viewsMeet (c.view s)) = true := by
  refine List.all_eq_true.mpr fun y mem => ?_
  obtain ⟨fcid, group, tag⟩ := meet y mem
  unfold viewsMeet Coll.view
  simp only [fcid, group, tag, beq_self_eq_true, Bool.and_self]

theorem viewsAgree_iff (c : Coll) (s : State) (y : PeerView) : viewsAgree (c.view s) y = true ↔
    y.waybill.extractLsb' 0 384 = c.waybill.extractLsb' 0 384 ∧ y.fixed = c.fixed s ∧ y.table = c.table := by
  unfold viewsAgree Coll.view
  simp only [Bool.and_eq_true, beq_iff_eq, and_assoc]
  exact ⟨fun ⟨a, b, d⟩ => ⟨a.symm, b.symm, d.symm⟩, fun ⟨a, b, d⟩ => ⟨a.symm, b.symm, d.symm⟩⟩

end

/-- Settles O53: a visit takes the waybill numbered TAIL and checks it; a match takes the first plane that every view has;
and each failure is the end of the collective with its STATUS. -/
theorem collectiveStartResults : Obligations.CollectiveStartResults := by
  unfold Obligations.CollectiveStartResults
  intro s
  refine ⟨fun ctx r d tail x w v there lives up small free idle entry enabled vault head u peek => ?_,
    fun id c found going => ?_, fun id c found done => ⟨fun matched => ?_, fun peer member other => ?_⟩⟩
  · have visit := ringVisit_looks there lives up small free idle entry enabled vault peek
    refine ⟨fun empty => by rw [visit, if_pos empty], fun posted fresh => ?_⟩
    obtain ⟨e, taken⟩ := takeWaybill_takes fresh ctx r d tail w
    exact ⟨_, e, by rw [visit, if_neg (not_le.mpr posted)], taken⟩
  · intro ended live
    have ends := endColl_ends found going
    refine ⟨fun unmatched peers meet => ?_, fun matched => ?_, fun peer member other small => ?_⟩
    · intro agrees plane isUp
      have met := views_meet meet
      refine ⟨fun ⟨y, mem, differs⟩ => ?_, fun agree all => ⟨fun k small up first_ => ?_, fun down => ?_⟩⟩
      · refine ⟨_, match_differs found live unmatched met ?_, ends _⟩
        rw [← Bool.not_eq_true, List.all_eq_true]
        exact fun every => differs ((viewsAgree_iff c s y).mp (every y mem))
      · have agreed := List.all_eq_true.mpr fun y mem => (viewsAgree_iff c s y).mpr (agree y mem)
        exact match_planes found live unmatched met agreed all (collPlane_first small up first_)
      · have agreed := List.all_eq_true.mpr fun y mem => (viewsAgree_iff c s y).mpr (agree y mem)
        exact ⟨_, match_noPlane found live unmatched met agreed all (collPlane_none down), ends _⟩
    · exact ⟨_, planeLost_ends found (by rw [Coll.open_, live, matched]; rfl), ends _⟩
    · refine ⟨_, peerFailed_ends found (by rw [live]; rfl) member other, ?_⟩
      rw [← peerStatus]
      exact ends _
  · rw [planeLost_ends found (by rw [Coll.open_, done, matched, Bool.or_true]; rfl), endColl_done found done]
  · rw [peerFailed_ends found (by rw [done, Bool.or_true]) member other, endColl_done found done]

end Sys2Proof.Machine
end

section
/-! PROOFS. R308, R335, R339 to R345, R348, R349: depot commands that end, and the staging cache. -/

namespace Sys2Proof.Machine

section
variable {s t u : State} {r : Nat} {d : DepotCmd} {rest : List DepotCmd}

/-! ### The command that is performed -/

theorem performing_head (at_ : performing s r = some d) : ∃ rest, (s.regionOf r).cmds = d :: rest := by
  unfold performing at at_
  split at at_
  next e rest cmds =>
    obtain ⟨-, same⟩ := Option.ite_none_right_eq_some.mp at_
    exact ⟨rest, by rw [cmds, Option.some.inj same]⟩
  next => exact absurd at_ (Option.some_ne_none d).symm

/-- The code with which the head ends (R345). -/
def DepotCmd.coded (d : DepotCmd) (c : BitVec 3) : BitVec 3 := if d.aborted then 7 else c

theorem headEnds_regionOf {x : Region} (region : s.regionOf r = x) (cmds : x.cmds = d :: rest) (code : BitVec 3) :
    (headEnds r code s).regionOf r = { x with cmds := { d with code := some (d.coded code) } :: rest } := by
  unfold headEnds onHead
  simp only [region, cmds]
  exact State.setRegionOf_same ..

theorem onHead_fields (r : Nat) (f : DepotCmd → DepotCmd) (s : State) :
    (onHead r f s).mem = s.mem ∧ (onHead r f s).staging = s.staging := by
  unfold onHead
  dsimp only
  split <;> exact ⟨rfl, rfl⟩

theorem headEnds_fields (r : Nat) (code : BitVec 3) (s : State) :
    (headEnds r code s).mem = s.mem ∧ (headEnds r code s).staging = s.staging := onHead_fields r _ s

/-- An interrupt leaves everything but the function's causes and what the host is told. -/
theorem raiseInt_frame (f v : Nat) (s : State) : ∃ fns replies, raiseInt f v s = { s with fns := fns, replies := replies } := by
  unfold raiseInt
  dsimp only
  split
  · exact ⟨s.fns, s.replies, rfl⟩
  · exact ⟨_, _, rfl⟩

/-- The machine-check log takes its entry; besides its places and its interrupt nothing changes. -/
theorem mcWrite_frame (e : BitVec 256) (s : State) : ∃ fns replies head read lost, mcWrite e s = { s with
    fns := fns, replies := replies, mclog := (e :: s.mclog).take mcSize, mchead := head, mcread := read, mcovf := lost } := by
  unfold mcWrite
  obtain ⟨fns, replies, raised⟩ := raiseInt_frame 0 2 { s with
    mclog := (e :: s.mclog).take mcSize
    mchead := (s.mchead + 1) % mcSize
    mcread := s.mcread.filter fun i => i != s.mchead
    mcovf := if decide (s.mclog.length ≥ mcSize) && !s.mcread.contains s.mchead && s.mcovf != BitVec.allOnes 32
      then s.mcovf + 1 else s.mcovf }
  exact ⟨fns, replies, _, _, _, raised⟩

theorem mcWrite_regionOf (e : BitVec 256) (s : State) (r : Nat) : (mcWrite e s).regionOf r = s.regionOf r := by
  obtain ⟨_, _, _, _, _, frame⟩ := mcWrite_frame e s
  rw [frame]
  rfl

theorem retire_regionOf (r : Nat) (s : State) : (retire_ r s).regionOf r = { s.regionOf r with state := .retired } :=
  (mcWrite_regionOf ..).trans (State.setRegionOf_same ..)

theorem retire_mem (r : Nat) (s : State) : (retire_ r s).mem = s.mem := mcWrite_mem _ _

/-! ### Erases (R342) -/

/-- The state in which the flash has erased a region, whether or not it has failed. -/
def State.erased (s : State) (r : Nat) : State :=
  { s.setRegionOf r { s.regionOf r with units := 0, vfail := false, done := 0 } with
    mem := memClear s.mem (depotKey (r * 2 ^ 30)) (2 ^ 30) }

theorem memRead_memClear_in (m : List Host.Cell) {k n a : Nat} (from_ : k ≤ a) (below : a < k + n) :
    memRead (memClear m k n) a = 0 :=
  memRead_filter_dropped (fun a => decide (a < k) || decide (k + n ≤ a)) m (by simp; omega)

/-- What an erase leaves of memory: zeroes in the region, and every other byte. -/
theorem erased_mem (small : r < 4096) (mem : t.mem = (s.erased r).mem) :
    (∀ k, k < 2 ^ 30 → memRead t.mem (2 ^ 42 + r * 2 ^ 30 + k) = 0)
      ∧ ∀ k, isDepot k = false → memRead t.mem k = memRead s.mem k := by
  rw [mem]
  refine ⟨fun k below => memRead_memClear_in _ ?_ ?_, fun k other => memRead_memClear_out _ _ _ _ ?_⟩
  · unfold depotKey
    omega
  · unfold depotKey
    omega
  · unfold isDepot at other
    simp at other
    unfold depotKey
    omega

section
variable (at_ : performing s r = some d)
include at_

theorem eraseDone_opens (kind : d.kind = .dopen) : exec (.depotEraseDone r true) s =
    .next (headEnds r 0 ((s.erased r).setRegionOf r { (s.erased r).regionOf r with state := .open_ })) := by
  refine congrArg Host.Outcome.next ?_
  simp only [at_, kind, ne_eq, not_true_eq_false, if_false, if_true]
  rfl

theorem eraseDone_retires (kind : d.kind = .dopen) :
    exec (.depotEraseDone r false) s = .next (headEnds r 2 (retire_ r (s.erased r))) := by
  refine congrArg Host.Outcome.next ?_
  simp only [at_, kind, ne_eq, not_true_eq_false, Bool.false_eq_true, if_false]
  rfl

/-! ### Seals (R344) -/

theorem sealDone_seals (kind : d.kind = .dseal) : exec (.depotSealDone r true) s =
    .next (headEnds r 0 (dropLines r (s.setRegionOf r { s.regionOf r with state := .sealed }))) := by
  refine congrArg Host.Outcome.next ?_
  simp only [at_, kind, ne_eq, not_true_eq_false, if_false, if_true]

theorem sealDone_retires (kind : d.kind = .dseal) :
    exec (.depotSealDone r false) s = .next (headEnds r 2 (retire_ r s)) := by
  refine congrArg Host.Outcome.next ?_
  simp only [at_, kind, ne_eq, not_true_eq_false, Bool.false_eq_true, if_false]

/-! ### Units of a `stow` (R343) -/

theorem stowUnit_reads (kind : d.kind = .stow) (clear : d.fault = none) (asked : stowMustAsk s d = false) {bs : List Nat}
    (read : stowRead d s = .ok bs u) : exec (.stowUnitDone r .done) s = .next (unitDone r d bs u)
      ∧ exec (.stowUnitDone r .verifyFail) s = .next (unitDiffers r d bs u) := by
  constructor
  all_goals
    refine congrArg Host.Outcome.next ?_
    simp only [at_, kind, clear, asked, read, ne_eq, not_true_eq_false, Option.isSome_none, Bool.false_eq_true, or_self,
      Bool.false_and, if_false]

end

theorem erased_regionOf (s : State) (r : Nat) :
    (s.erased r).regionOf r = { s.regionOf r with units := 0, vfail := false, done := 0 } :=
  State.setRegionOf_same s r { s.regionOf r with units := 0, vfail := false, done := 0 }

theorem dropLines_regionOf (r k : Nat) (s : State) : (dropLines r s).regionOf k = s.regionOf k := rfl

theorem eraseDone_region (cmds : (s.regionOf r).cmds = d :: rest) :
    (headEnds r 0 ((s.erased r).setRegionOf r { (s.erased r).regionOf r with state := .open_ })).regionOf r =
      { s.regionOf r with
        units := 0, vfail := false, done := 0, state := .open_, cmds := { d with code := some (d.coded 0) } :: rest } := by
  have region : ((s.erased r).setRegionOf r { (s.erased r).regionOf r with state := .open_ }).regionOf r
      = { s.regionOf r with units := 0, vfail := false, done := 0, state := .open_ } := by
    rw [State.setRegionOf_same, erased_regionOf]
  exact headEnds_regionOf region cmds 0

theorem eraseFails_region (cmds : (s.regionOf r).cmds = d :: rest) :
    (headEnds r 2 (retire_ r (s.erased r))).regionOf r = { s.regionOf r with
      units := 0, vfail := false, done := 0, state := .retired, cmds := { d with code := some (d.coded 2) } :: rest } := by
  have region := retire_regionOf r (s.erased r)
  rw [erased_regionOf] at region
  exact headEnds_regionOf region cmds 2

theorem sealDone_region (cmds : (s.regionOf r).cmds = d :: rest) :
    (headEnds r 0 (dropLines r (s.setRegionOf r { s.regionOf r with state := .sealed }))).regionOf r =
      { s.regionOf r with state := .sealed, cmds := { d with code := some (d.coded 0) } :: rest } := by
  have region : (dropLines r (s.setRegionOf r { s.regionOf r with state := .sealed })).regionOf r
      = { s.regionOf r with state := .sealed } := by
    rw [dropLines_regionOf, State.setRegionOf_same]
  exact headEnds_regionOf region cmds 0

theorem sealFails_region (cmds : (s.regionOf r).cmds = d :: rest) : (headEnds r 2 (retire_ r s)).regionOf r =
    { s.regionOf r with state := .retired, cmds := { d with code := some (d.coded 2) } :: rest } :=
  headEnds_regionOf (retire_regionOf r s) cmds 2

theorem dropLines_none (r : Nat) {l : Nat} (own : l / 2 ^ 18 = r) (s : State) :
    mget (dropLines r s).staging.lines l = none := by
  refine Option.map_eq_none_iff.mpr (List.find?_eq_none.mpr fun e mem at_ => ?_)
  have kept : (e.1 / 2 ^ 18 != r) = true := (List.mem_filter.mp mem).2
  rw [beq_iff_eq.mp at_, own, bne_self_eq_false] at kept
  exact Bool.false_ne_true kept

/-! ### Completion (R339) -/

/-- What the end of a command leaves: LAST and SEQ, its counter, and its closure (R335, R339). -/
def State.completes (s : State) (r : Nat) (d : DepotCmd) (c : BitVec 3) (x : Region) : State :=
  postDone d.core d.cl (bumpCounter d.convoy d.k 1 none
    (s.setRegionOf r { x with
      last := c, seq := x.seq + 1, done := if d.kind = .stow ∧ d.begun = true then d.next else x.done }))

theorem completeCommand_set (r : Nat) (d : DepotCmd) (c : BitVec 3) (x : Region) (s : State) :
    completeCommand r d c (s.setRegionOf r x) = s.completes r d c x := by
  unfold completeCommand State.completes
  simp only [State.setRegionOf_same]
  simp only [State.setRegionOf, mset_mset]

section
variable {c : BitVec 3} (code : d.code = some c)
include code

theorem commandComplete_head (none_ : (s.regionOf r).busyDone = []) (cmds : (s.regionOf r).cmds = d :: rest)
    (settled : stowSettled s r = true) : exec (.depotCommandComplete r) s =
      .next (beginHead r ((dropStowItems r s).completes r d c { s.regionOf r with cmds := rest })) := by
  rw [← completeCommand_set]
  refine congrArg Host.Outcome.next ?_
  simp only [none_, cmds, code, settled, Bool.not_true, Bool.false_eq_true, if_false]

theorem commandComplete_busy (busy : (s.regionOf r).busyDone = d :: rest) : exec (.depotCommandComplete r) s =
    .next (s.completes r d c { s.regionOf r with busyDone := rest }) := by
  rw [← completeCommand_set]
  refine congrArg Host.Outcome.next ?_
  simp only [busy, code, Option.getD_some]

end

/-! ### Lines that are filled (R348) -/

/-- A line that was filled for a load is held until it has served it. -/
theorem trimLines_holds {l : Nat} (filled : mget s.staging.lines l = some 1) :
    mget (trimLines s).staging.lines l = some 1 := by
  unfold trimLines
  dsimp only
  rw [mget_filter, filled]
  intro e own
  rw [own]
  split
  · simp [filled]
  · rfl

theorem lineFill_fills {l : Nat} (region : l / 2 ^ 18 < 4096) (sealed_ : (s.regionOf (l / 2 ^ 18)).state = .sealed)
    (missed : mget s.staging.lines l = none) : ∃ t, exec (.stagingLineFill l false) s = .next t
      ∧ t = { s with staging := t.staging } ∧ mget t.staging.lines l = some 1
      ∧ t.staging.wanted = s.staging.wanted.erase l := by
  have fills : (decide (l / 2 ^ 18 < 4096) && (s.regionOf (l / 2 ^ 18)).state == .sealed
      && (mget s.staging.lines l).isNone) = true := by
    rw [decide_eq_true region, sealed_, missed]
    rfl
  refine ⟨_, congrArg Host.Outcome.next (if_pos fills), rfl, trimLines_holds (mget_mset_self ..), rfl⟩

/-! ### The division of units (R349) -/

section
variable {tower : Nat} {a b v w : Nat × Nat} {us : List (Nat × Nat)}

/-- Does one device come before another when a unit is handed out? -/
def betterShare (s : State) (tower : Nat) (a b : Nat × Nat) : Bool :=
  decide (monitorGain s tower b.1 b.2 < monitorGain s tower a.1 a.2)
    || (monitorGain s tower a.1 a.2 == monitorGain s tower b.1 b.2
      && (decide (a.2 < b.2) || (a.2 == b.2 && decide (a.1 < b.1))))

theorem betterShare_iff : betterShare s tower a b = true ↔
    monitorGain s tower b.1 b.2 < monitorGain s tower a.1 a.2
      ∨ monitorGain s tower a.1 a.2 = monitorGain s tower b.1 b.2 ∧ (a.2 < b.2 ∨ a.2 = b.2 ∧ a.1 < b.1) := by
  unfold betterShare
  simp only [Bool.or_eq_true, Bool.and_eq_true, decide_eq_true_eq, beq_iff_eq]

/-- One that comes before no better one comes before neither. -/
theorem betterShare_notLater (first_ : ¬ betterShare s tower a b = true) (second : ¬ betterShare s tower v a = true) :
    ¬ betterShare s tower v b = true := by
  rw [betterShare_iff] at *
  omega

theorem betterShare_trans (first_ : betterShare s tower v a = true) (second : ¬ betterShare s tower v b = true) :
    ¬ betterShare s tower a b = true := by
  rw [betterShare_iff] at *
  omega

theorem not_betterShare (later : ¬ betterShare s tower w b = true) :
    monitorGain s tower w.1 w.2 < monitorGain s tower b.1 b.2
      ∨ monitorGain s tower w.1 w.2 = monitorGain s tower b.1 b.2 ∧ (b.2 < w.2 ∨ b.2 = w.2 ∧ b.1 ≤ w.1) := by
  rw [betterShare_iff] at later
  omega

/-- The device that gets the next unit. -/
def bestShare (s : State) (tower : Nat) (us : List (Nat × Nat)) : Option (Nat × Nat) :=
  us.foldl (fun acc u => some (acc.elim u fun v => if betterShare s tower u v then u else v)) none

theorem bestShare_from (us : List (Nat × Nat)) (v : Nat × Nat) :
    ∃ b, us.foldl (fun acc u => some (acc.elim u fun v => if betterShare s tower u v then u else v)) (some v) = some b
      ∧ (b = v ∨ b ∈ us) ∧ ¬ betterShare s tower v b = true ∧ ∀ w ∈ us, ¬ betterShare s tower w b = true := by
  induction us generalizing v with
  | nil =>
    refine ⟨v, rfl, .inl rfl, ?_, fun _ mem => absurd mem List.not_mem_nil⟩
    rw [betterShare_iff]
    omega
  | cons u us ih =>
    rw [List.foldl_cons, Option.elim_some]
    by_cases better : betterShare s tower u v = true
    · obtain ⟨b, found, among, notHead, notRest⟩ := ih u
      rw [if_pos better]
      exact ⟨b, found, .inr (among.elim (fun e => e ▸ List.mem_cons_self ..) (List.mem_cons_of_mem _)),
        betterShare_trans better notHead, List.forall_mem_cons.mpr ⟨notHead, notRest⟩⟩
    · obtain ⟨b, found, among, notHead, notRest⟩ := ih v
      rw [if_neg better]
      exact ⟨b, found, among.imp_right (List.mem_cons_of_mem _), notHead,
        List.forall_mem_cons.mpr ⟨betterShare_notLater notHead better, notRest⟩⟩

/-- The best share is one of them, and none comes before it. -/
theorem bestShare_best (some_ : us ≠ []) :
    ∃ b ∈ us, bestShare s tower us = some b ∧ ∀ w ∈ us, ¬ betterShare s tower w b = true := by
  cases us with
  | nil => exact absurd rfl some_
  | cons u us =>
    obtain ⟨b, found, among, notHead, notRest⟩ := bestShare_from (s := s) (tower := tower) us u
    exact ⟨b, among.elim (fun e => e ▸ List.mem_cons_self ..) (List.mem_cons_of_mem _), found,
      List.forall_mem_cons.mpr ⟨notHead, notRest⟩⟩

theorem handOut_succ (n : Nat) (us : List (Nat × Nat)) : handOut s tower (n + 1) us =
    (bestShare s tower us).elim us fun b => handOut s tower n (us.map fun u => if u.1 = b.1 then (u.1, u.2 + 1) else u) := by
  have same : (fun (acc : Option (Nat × Nat)) (u : Nat × Nat) =>
      some (acc.elim u fun v => if betterShare s tower u v then u else v)) = fun acc u => match acc with
        | none => some u
        | some v => if betterShare s tower u v then some u else some v := by
    funext acc u
    cases acc with
    | none => rfl
    | some v => exact apply_ite some _ _ _
  unfold bestShare
  rw [same, handOut]
  unfold betterShare
  dsimp only
  generalize List.foldl _ none us = best
  cases best <;> rfl

theorem handOut_nil (n : Nat) : handOut s tower n [] = [] := by
  cases n with
  | zero => rfl
  | succ n => rw [handOut_succ]; rfl

/-- Units are handed out one at a time (R349). -/
theorem handOut_handsOut (n : Nat) (some_ : us ≠ []) (apart : (us.map Prod.fst).Nodup) :
    s.HandsOut tower n us (handOut s tower n us) := by
  induction n generalizing us with
  | zero => exact .done us
  | succ n ih =>
    obtain ⟨⟨vd, k⟩, mem, best, none_⟩ := bestShare_best (s := s) (tower := tower) some_
    have given : (us.map fun u => if u.1 = vd then (u.1, u.2 + 1) else u)
        = us.map fun u => if u.1 = vd then (vd, k + 1) else u := by
      refine List.map_congr_left fun u at_ => ?_
      by_cases own : u.1 = vd
      · obtain rfl := List.inj_on_of_nodup_map apart at_ mem own
        rfl
      · rw [if_neg own, if_neg own]
    have keys : (us.map fun u => if u.1 = vd then (vd, k + 1) else u).map Prod.fst = us.map Prod.fst := by
      rw [List.map_map]
      refine List.map_congr_left fun u _ => ?_
      by_cases own : u.1 = vd <;> simp [own]
    refine .give n vd k us _ mem (fun w at_ => not_betterShare (none_ w at_)) ?_
    rw [handOut_succ, best, Option.elim_some, given]
    exact ih (by simpa using some_) (keys ▸ apart)

/-- Floors that the units of a tower meet are given in full. -/
theorem floors_full (s : State) (left : Nat) (ds : List Nat) (fit : (ds.map fun vd => (s.vdevOf vd).floor).sum ≤ left) :
    floors s left ds = ds.map fun vd => (vd, (s.vdevOf vd).floor) := by
  induction ds generalizing left with
  | nil => rfl
  | cons vd ds ih =>
    rw [List.map_cons, List.sum_cons] at fit
    rw [floors, List.map_cons]
    rw [min_eq_right (by omega), ih _ (by omega)]

/-- The units that the devices of a tower get. -/
def State.shares (s : State) (tower : Nat) : List (Nat × Nat) :=
  let fs := floors s (towerUnits s) (towerDevices s tower)
  handOut s tower (towerUnits s - (fs.map Prod.snd).sum) fs

theorem shares_none (none_ : towerDevices s tower = []) : s.shares tower = [] := by
  unfold State.shares
  rw [none_]
  exact handOut_nil _

theorem shares_handsOut (some_ : towerDevices s tower ≠ [])
    (fit : (((towerDevices s tower).map fun vd => (vd, (s.vdevOf vd).floor)).map Prod.snd).sum ≤ towerUnits s) :
    s.HandsOut tower
      (towerUnits s - (((towerDevices s tower).map fun vd => (vd, (s.vdevOf vd).floor)).map Prod.snd).sum)
      ((towerDevices s tower).map fun vd => (vd, (s.vdevOf vd).floor)) (s.shares tower) := by
  unfold State.shares
  rw [floors_full s _ _ (by simpa [List.map_map, Function.comp_def] using fit)]
  refine handOut_handsOut _ (by simpa using some_) ?_
  rw [List.map_map]
  simpa [Function.comp_def, towerDevices] using List.nodup_range.filter _

end

/-- A state in which some towers have been divided: what a division looks at is as it was. -/
structure State.DividesFrom (s t : State) : Prop where
  frame : t = { s with staging := t.staging }
  hits : t.staging.hits = s.staging.hits
  pct : t.staging.pct = s.staging.pct

theorem State.DividesFrom.refl (s : State) : s.DividesFrom s := ⟨rfl, rfl, rfl⟩

theorem State.DividesFrom.divide (from_ : s.DividesFrom t) (tower : Nat) : s.DividesFrom (divideTower tower t) := by
  refine ⟨?_, from_.hits, from_.pct⟩
  have frame := from_.frame
  calc divideTower tower t = { t with staging := (divideTower tower t).staging } := rfl
    _ = _ := by rw [frame]

theorem floors_of_vdevs (same : t.vdevs = s.vdevs) (left : Nat) (ds : List Nat) : floors t left ds = floors s left ds := by
  induction ds generalizing left with
  | nil => rfl
  | cons vd ds ih =>
    have own : t.vdevOf vd = s.vdevOf vd := by
      unfold State.vdevOf
      rw [same]
    rw [floors, floors, own, ih]

theorem handOut_of_hits (same : t.staging.hits = s.staging.hits) (tower n : Nat) (us : List (Nat × Nat)) :
    handOut t tower n us = handOut s tower n us := by
  have gain (vd k : Nat) : monitorGain t tower vd k = monitorGain s tower vd k := by
    unfold monitorGain
    rw [same]
  induction n generalizing us with
  | zero => rfl
  | succ n ih =>
    have best : bestShare t tower us = bestShare s tower us := by
      unfold bestShare betterShare
      simp only [gain]
    rw [handOut_succ, handOut_succ, best]
    cases bestShare s tower us with
    | none => rfl
    | some b => exact ih _

theorem State.DividesFrom.shares (from_ : s.DividesFrom t) (tower : Nat) : t.shares tower = s.shares tower := by
  have vdevs : t.vdevs = s.vdevs := by rw [from_.frame]
  have devices : towerDevices t tower = towerDevices s tower := by
    unfold towerDevices
    rw [from_.frame]
  have units : towerUnits t = towerUnits s := by
    unfold towerUnits
    rw [from_.pct]
  unfold State.shares
  dsimp only
  rw [devices, units, floors_of_vdevs vdevs, handOut_of_hits from_.hits]

/-- The units of the tower that is divided are its shares, those of another tower stay. -/
theorem divideTower_units (k tower vd n : Nat) (s : State) :
    ((tower, vd), n) ∈ (divideTower k s).staging.units ↔
      if k = tower then (vd, n) ∈ s.shares k else ((tower, vd), n) ∈ s.staging.units := by
  have units : (divideTower k s).staging.units =
      s.staging.units.filter (fun u => u.1.1 != k) ++ (s.shares k).map fun u => ((k, u.1), u.2) := rfl
  rw [units]
  by_cases own : k = tower
  · simp [own]
  · simp [own, Ne.symm own]

theorem divided_from (from_ : s.DividesFrom t) (l : List Nat) : s.DividesFrom (l.foldl (fun s k => divideTower k s) t) :=
  List.foldlRecOn (motive := fun u : State => s.DividesFrom u) l _ from_ fun _ divided k _ => divided.divide k

theorem divided_units (from_ : s.DividesFrom t) (l : List Nat) (tower vd n : Nat) :
    ((tower, vd), n) ∈ (l.foldl (fun s k => divideTower k s) t).staging.units ↔
      if tower ∈ l then (vd, n) ∈ s.shares tower else ((tower, vd), n) ∈ t.staging.units := by
  induction l generalizing t with
  | nil => simp
  | cons k l ih =>
    rw [List.foldl_cons, ih (from_.divide k), divideTower_units, from_.shares]
    by_cases later : tower ∈ l
    · simp [later]
    · by_cases own : k = tower
      · simp [own]
      · simp [later, own, Ne.symm own]

theorem State.DividesFrom.finish (from_ : s.DividesFrom t) (g : Staging) (at_ : Nat) :
    { t with staging := g, dividedAt := at_ } = { s with staging := g, dividedAt := at_ } := by
  rw [from_.frame]

/-- The state whose eight towers have been divided. -/
def State.divided (s : State) : State := (List.range 8).foldl (fun s k => divideTower k s) s

theorem divided_divides (s : State) : s.DividesFrom s.divided := by
  unfold State.divided
  exact divided_from (.refl s) _

theorem divided_shares {tower : Nat} (small : tower < 8) (vd n : Nat) :
    ((tower, vd), n) ∈ s.divided.staging.units ↔ (vd, n) ∈ s.shares tower := by
  unfold State.divided
  rw [divided_units (.refl s), if_pos (List.mem_range.mpr small)]

/-- The state in which the division is over: its monitors begin again. -/
def State.repartitioned (t : State) (at_ : Nat) : State :=
  { t with staging := { t.staging with hits := [] }, dividedAt := at_ }

theorem repartitioned_units (t : State) (at_ : Nat) : (t.repartitioned at_).staging.units = t.staging.units := rfl

theorem repartitioned_hits (t : State) (at_ : Nat) : (t.repartitioned at_).staging.hits = [] := rfl

theorem State.DividesFrom.repartitioned (from_ : s.DividesFrom t) (at_ : Nat) :
    t.repartitioned at_ = { s with staging := (t.repartitioned at_).staging, dividedAt := at_ } := from_.finish _ _

theorem repartition_run (s : State) : exec .cacheRepartition s = .next (s.divided.repartitioned s.now) := rfl

/-! ### What the end of a transfer keeps (R214, R220) -/

/-- Neither what the engine writes nor what it counts, posts and frees ends the property. -/
structure KeptByEngine (P : State → Prop) : Prop extends KeptByWrites P where
  convoy : ∀ s u c, P s → P (s.setConvoyOf u c)
  post : ∀ (s : State) n posts, P s → P (s.setCtxOf n { s.ctxOf n with posts := posts })
  core : ∀ (s : State) n c, c.fenced = (s.coreOf n).fenced → P s → P (s.setCoreOf n c)
  masks : ∀ (s : State) g m, P s → P (s.setHartOf g { s.hartOf g with m := m })
  items : ∀ (s : State) is, P s → P { s with items := is }
  seq : ∀ (s : State) vd n, P s → P (s.setVdevOf vd { s.vdevOf vd with seq := n })
  clear : ∀ (s : State) k n, P s → P { s with mem := memClear s.mem k n }

section
variable {P : State → Prop} (kept : KeptByEngine P)
include kept

theorem setChunkBits_keeps (x : Transfer) (ks : List Nat) (holds : P s) : P (setChunkBits x ks s) := by
  unfold setChunkBits
  split
  · exact holds
  · split
    · dsimp only
      split
      · exact kept.masks _ _ _ holds
      · exact holds
    · split
      · exact holds
      · exact List.foldlRecOn (motive := P) ks _ holds fun _ held _ _ =>
          imageUpdate_keeps kept.toKeptByWrites _ _ _ held

theorem unbindMask_keeps (x : Transfer) (holds : P s) : P (unbindMask x s) := by
  unfold unbindMask
  split
  · dsimp only
    split
    · exact kept.masks _ _ _ holds
    · exact holds
  · exact holds

theorem writePosts_keeps (ctx : Nat) (holds : P s) : P (writePosts ctx s) := by
  have save (va : Word) (v : Nat) (u : State) (hu : P u) : EndsIn P (saveWrite ctx va v) u :=
    engWrite_keeps kept.toKeptByWrites _ _ _ _ _ _ _ hu
  unfold writePosts
  dsimp only
  cases done : engDo _ s with
  | none => exact holds
  | some u =>
    unfold engDo at done
    split at done
    next _ v run =>
      obtain rfl := Option.some.inj done
      refine EndsIn.ok ?_ run
      exact ends_bind (save _ _ _ holds) fun _ v hv => ends_forM (fun p w hw =>
        ends_bind (save _ _ _ hw) fun _ _ hx => ends_bind (save _ _ _ hx) fun _ _ hy => save _ _ _ hy) _ hv
    next => exact absurd done.symm (Option.some_ne_none u)

theorem appendPost_keeps (n : Nat) (p : Post) (holds : P s) : P (appendPost n p s) := by
  have counted := kept.seq _ (s.ctxOf p.ctx).vdev ((s.vdevOf (s.ctxOf p.ctx).vdev).seq + 1) holds
  unfold appendPost
  dsimp only
  split
  · exact writePosts_keeps kept _ (kept.post _ p.ctx _ counted)
  · exact kept.core _ _ _ rfl counted

theorem postDone_keeps (n : Nat) (p : Option Post) (holds : P s) : P (postDone n p s) := by
  cases p with
  | none => exact holds
  | some p => exact appendPost_keeps kept n p holds

theorem freeSlot_keeps (n k : Nat) (holds : P s) : P (freeSlot n k s) := by
  have emptied := kept.core s n { s.coreOf n with
    tiles := merase (s.coreOf n).tiles k
    tilePoison := (s.coreOf n).tilePoison.filter fun w => w / 2048 != k } rfl holds
  exact kept.clear _ (tileKey n (k * 8192)) 8192 emptied

theorem finishTransfer_keeps (n : Nat) (x : Transfer) (fail : Option (BitVec 8 × Word)) (holds : P s) :
    P (finishTransfer n x fail s) := by
  unfold finishTransfer
  refine postDone_keeps kept _ _ (kept.items _ _ (unbindMask_keeps kept _ (bumpCounter_keeps kept.toKeptByWrites
    kept.convoy _ _ _ _ (setChunkBits_keeps kept _ _ ?_))))
  split
  · exact kept.core _ _ _ rfl holds
  · split
    · exact freeSlot_keeps kept _ _ (kept.core _ _ _ rfl holds)
    · exact kept.core _ _ _ rfl holds

theorem failTransfer_keeps (n : Nat) (x : Transfer) (f : BitVec 8 × Word) (holds : P s) : P (failTransfer n x f s) := by
  unfold failTransfer
  split
  · exact finishTransfer_keeps kept _ _ _ holds
  · exact kept.core _ _ _ rfl holds

end

/-! ### Answers to engine faults (R308) -/

/-- No record waits for the engine-fault queue of a virtual device. -/
def noneWaits (vd : Nat) (s : State) : Prop := (s.vdevOf vd).efWait = []

theorem noneWaits_setVdevOf {vd n : Nat} {x : VDev} (same : x.efWait = (s.vdevOf n).efWait) (none_ : noneWaits vd s) :
    noneWaits vd (s.setVdevOf n x) := by
  unfold noneWaits State.vdevOf State.setVdevOf at *
  rw [mget_mset]
  split
  next own =>
    subst own
    exact same.trans none_
  next => exact none_

theorem noneWaits_kept (vd : Nat) : KeptByEngine (noneWaits vd) where
  free _ _ none_ := none_
  fill _ _ _ none_ := none_
  poke s k n v none_ := by
    unfold noneWaits State.vdevOf at *
    rwa [show (pokeN k n v s).vdevs = s.vdevs by unfold pokeN pokeBytes wakeMonitors; dsimp only; split <;> split <;> rfl]
  host _ _ _ _ none_ := none_
  convoy _ _ _ none_ := none_
  post _ _ _ none_ := none_
  core _ _ _ _ none_ := none_
  masks _ _ _ none_ := none_
  items _ _ none_ := none_
  seq _ _ _ none_ := noneWaits_setVdevOf rfl none_
  clear _ _ _ none_ := none_

theorem admitFault_none {vd : Nat} (none_ : noneWaits vd s) : admitFault vd s = s := by
  unfold admitFault
  dsimp only
  rw [show (s.vdevOf vd).efWait = [] from none_]

theorem wakeUp_active (active : s.power = .active) : wakeUp s = s := by
  unfold wakeUp
  rw [if_neg (by rw [active]; decide)]

section
variable {vd core id : Nat} {tag : BitVec 8} {q : EngineFault} {x : Transfer}

/-- The state in which the record that is answered has left its queue. -/
def State.answered (s : State) (vd : Nat) (tag : BitVec 8) : State :=
  s.setVdevOf vd { s.vdevOf vd with efq := (s.vdevOf vd).efq.filter fun y => y.tag != tag }

theorem answered_noneWaits (none_ : (s.vdevOf vd).efWait = []) : noneWaits vd (s.answered vd tag) :=
  noneWaits_setVdevOf rfl none_

theorem answerTarget_transfer (record : q.tag = tag) (target : q.target = .transfer core id)
    (found : findTransfer s core id = some x) (at_ : transferCore s id = some core) (stalled : x.fault = some tag)
    (declined : Bool) : answerTarget q declined s = if declined then failTransfer core { x with fault := none } (q.cause, q.va) s
      else setTransfer core { x with fault := none } s := by
  unfold answerTarget answerTransfer
  simp only [target, at_, found, stalled, record, ne_eq, not_true_eq_false, if_false]

variable (served : fnServed s (fnOfVdev s vd) = true) (active : s.power = .active)
  (queued : (s.vdevOf vd).efq.find? (fun q => q.tag == tag) = some q) (none_ : (s.vdevOf vd).efWait = [])
  (target : q.target = .transfer core id) (found : findTransfer s core id = some x) (at_ : transferCore s id = some core)
  (stalled : x.fault = some tag)
include served active queued none_ target found at_ stalled

theorem faultAnswer_goesOn : exec (.engineFaultAnswer vd tag false) s =
    .next (setTransfer core { x with fault := none } (s.answered vd tag)) := by
  have record : q.tag = tag := by simpa using List.find?_some queued
  have goes := answerTarget_transfer (s := s.answered vd tag) record target found at_ stalled false
  refine congrArg Host.Outcome.next ((hostRequest_served served rfl).trans ?_)
  rw [wakeUp_active active]
  unfold answerFault
  simp only [queued]
  refine (congrArg (admitFault vd) goes).trans (admitFault_none ?_)
  exact (noneWaits_kept vd).core _ _ _ rfl (answered_noneWaits none_)

theorem faultAnswer_fails : exec (.engineFaultAnswer vd tag true) s =
    .next (failTransfer core { x with fault := none } (q.cause, q.va) (s.answered vd tag)) := by
  have record : q.tag = tag := by simpa using List.find?_some queued
  have fails := answerTarget_transfer (s := s.answered vd tag) record target found at_ stalled true
  refine congrArg Host.Outcome.next ((hostRequest_served served rfl).trans ?_)
  rw [wakeUp_active active]
  unfold answerFault
  simp only [queued]
  refine (congrArg (admitFault vd) fails).trans (admitFault_none ?_)
  exact failTransfer_keeps (noneWaits_kept vd) _ _ _ (answered_noneWaits none_)

end

end

/-- Settles O52: each event of the depot's head, of the staging cache and of an answer is the step that the model makes of
it, and the division of a tower's units follows the order of R349 one unit at a time. -/
theorem depotEventResults : Obligations.DepotEventResults := by
  unfold Obligations.DepotEventResults
  intro s
  refine ⟨fun r d small at_ => ?_, fun r d rest c code => ⟨commandComplete_head code, commandComplete_busy code⟩,
    fun l region sealed_ missed => lineFill_fills region sealed_ missed, ?_,
    fun vd core id tag q x served active queued none_ target found at_ stalled =>
      ⟨faultAnswer_goesOn served active queued none_ target found at_ stalled,
        faultAnswer_fails served active queued none_ target found at_ stalled⟩⟩
  · intro x coded
    obtain ⟨rest, cmds⟩ := performing_head at_
    have tail : x.cmds.tail = rest := congrArg List.tail cmds
    rw [tail]
    refine ⟨fun kind => ⟨⟨_, eraseDone_opens at_ kind, eraseDone_region cmds, erased_mem small (headEnds_fields ..).1⟩,
        ⟨_, eraseDone_retires at_ kind, eraseFails_region cmds,
          erased_mem small ((headEnds_fields ..).1.trans (retire_mem ..))⟩⟩,
      fun kind => ⟨⟨_, sealDone_seals at_ kind, sealDone_region cmds, (headEnds_fields ..).1, fun l own => ?_⟩,
        ⟨_, sealDone_retires at_ kind, sealFails_region cmds, (headEnds_fields ..).1.trans (retire_mem ..)⟩⟩,
      fun kind clear asked bs u read => stowUnit_reads at_ kind clear asked read⟩
    rw [(headEnds_fields ..).2]
    exact dropLines_none r own _
  · refine ⟨s.divided.repartitioned s.now, repartition_run s, repartitioned_hits .., (divided_divides s).repartitioned _,
      fun tower small => ?_⟩
    have units (vd n : Nat) :
        ((tower, vd), n) ∈ (s.divided.repartitioned s.now).staging.units ↔ (vd, n) ∈ s.shares tower := by
      rw [repartitioned_units]
      exact divided_shares small vd n
    generalize s.divided.repartitioned s.now = t at *
    intro ds floors sum
    refine ⟨fun none_ u mem own => ?_, fun some_ fit => ⟨s.shares tower, shares_handsOut some_ fit, units⟩⟩
    subst own
    have mine := (units u.1.2 u.2).mp mem
    rw [shares_none none_] at mine
    exact absurd mine List.not_mem_nil

end Sys2Proof.Machine
end

section
/-! PROOFS. R239, R326, R375, R376: what reports, and the ends of operations, keep. -/

namespace Sys2Proof.Machine

section
variable {s t : State} {P : State → Prop}

theorem foldl_keeps {β : Type} {f : State → β → State} (each : ∀ t x, P t → P (f t x)) (l : List β) (holds : P s) :
    P (l.foldl f s) := List.foldlRecOn (motive := P) l f holds fun t held x _ => each t x held

/-! ### Reports of harts with no slot -/

/-- The property is one of the harts, the cores and memory, which neither a store, a filled TLB, a freed slot nor a dropped
handle ends. -/
structure KeptByReports (P : State → Prop) : Prop where
  frame : ∀ {s t : State}, P s → t.harts = s.harts → t.cores = s.cores → t.mem = s.mem → P t
  poke : ∀ s k n v, P s → P (pokeN k n v s)
  clear : ∀ s k n, P s → P { s with mem := memClear s.mem k n }
  core : ∀ (s : State) n c, c.fenced = (s.coreOf n).fenced → c.posts = (s.coreOf n).posts → P s → P (s.setCoreOf n c)

theorem KeptByReports.toWrites (kept : KeptByReports P) : KeptByWrites P where
  free _ _ holds := kept.frame holds rfl rfl rfl
  fill _ _ _ holds := kept.core _ _ _ rfl rfl holds
  poke := kept.poke
  host _ _ _ _ holds := kept.frame holds rfl rfl rfl

section
variable (kept : KeptByReports P)
include kept

theorem bumpCounter_reports (u : Nat) (k : KName) (n : Word) (fail : Option OpFail) (holds : P s) :
    P (bumpCounter u k n fail s) :=
  bumpCounter_keeps kept.toWrites (fun _ _ _ held => kept.frame held rfl rfl rfl) u k n fail holds

theorem sendItem_reports (it : Item) (holds : P s) : P (sendItem it s) := by
  unfold sendItem
  dsimp only
  split
  · exact kept.frame holds rfl rfl rfl
  · split <;> exact kept.frame holds rfl rfl rfl

theorem addFault_reports (vd ctx : Nat) (engine core cause : BitVec 8) (va : Word) (target : EngineTarget) (holds : P s) :
    P (addFault vd ctx engine core cause va target s).1 := by
  unfold addFault
  dsimp only
  split
  · split
    · obtain ⟨fns, replies, raised⟩ := raiseInt_frame (fnOfVdev (s.setVdevOf vd { s.vdevOf vd with
        efq := (s.vdevOf vd).efq ++ [⟨va, (s.ctxOf ctx).asid, cause, engine, core, (s.vdevOf vd).efTag, target⟩]
        efTag := (s.vdevOf vd).efTag + 1 }) vd) 1 (s.setVdevOf vd { s.vdevOf vd with
        efq := (s.vdevOf vd).efq ++ [⟨va, (s.ctxOf ctx).asid, cause, engine, core, (s.vdevOf vd).efTag, target⟩]
        efTag := (s.vdevOf vd).efTag + 1 })
      rw [raised]
      exact kept.frame holds rfl rfl rfl
    · exact kept.frame holds rfl rfl rfl
  · exact kept.frame holds rfl rfl rfl

theorem statusFailed_reports (j : Join) (cause : BitVec 8) (holds : P s) : P (statusFailed j cause s) := by
  unfold statusFailed
  split
  · exact bumpCounter_reports kept _ _ _ _ holds
  · exact holds

/-- The state that a status write leaves. -/
def StatusWrite.state : StatusWrite → State
  | .made s => s
  | .queued s _ => s
  | .waits s => s

theorem writeStatus_reports (walker : Option Nat) (core : BitVec 8) (j : Join) (status : BitVec 8) (target : EngineTarget)
    (holds : P s) : P (writeStatus walker core j status target s).state := by
  have write := engWrite_keeps kept.toWrites walker j.ctx j.view .device j.status 8 status.toNat holds
  unfold writeStatus
  split
  · exact holds
  · unfold EndsIn at write
    split
    next _ u run => rwa [run] at write
    next c va u run =>
      rw [run] at write
      exact addFault_reports kept _ _ _ _ _ _ _ write
    next c va u run =>
      rw [run] at write
      exact statusFailed_reports kept j c write
    next u run => rwa [run] at write

/-- The join of hart `i` of a gang, at its issuer. -/
def Gang.join (x : Gang) (i : Nat) : Join :=
  { status := if x.status = 0 then 0 else x.status + BitVec.ofNat 64 (8 * i), counter := some (x.convoy, x.k)
    ctx := x.ctx, view := x.view, gang := none }

theorem gangReport_reports (gang i : Nat) (core status : BitVec 8) (holds : P s) : P (gangReport gang i core status s) := by
  unfold gangReport
  split
  · exact holds
  next x _ =>
    split
    · exact holds
    · have write := writeStatus_reports kept none core (x.join i) status (.late s.nextLate) holds
      unfold Gang.join at write
      dsimp only
      generalize writeStatus none core _ status (.late s.nextLate) s = w at *
      cases w with
      | made u => exact kept.frame (bumpCounter_reports kept _ _ _ _ write) rfl rfl rfl
      | queued u tag => exact kept.frame write rfl rfl rfl
      | waits u => exact kept.frame write rfl rfl rfl

theorem tellIssuer_reports (issuer gang i : Nat) (core status : BitVec 8) (holds : P s) :
    P (tellIssuer issuer gang i core status s) := by
  unfold tellIssuer
  split
  · exact gangReport_reports kept _ _ _ _ holds
  · exact sendItem_reports kept _ holds

theorem joinDone_reports (j : Join) (core status : BitVec 8) (holds : P s) : P (joinDone j core status s) := by
  obtain ⟨place, counter, ctx, view, gang⟩ := j
  rcases counter with _ | ⟨u, k⟩ <;> rcases gang with _ | ⟨issuer, gang, i⟩ <;> unfold joinDone
  · exact holds
  · exact tellIssuer_reports kept _ _ _ _ _ holds
  · exact bumpCounter_reports kept _ _ _ _ holds
  · exact tellIssuer_reports kept _ _ _ _ _ (bumpCounter_reports kept _ _ _ _ holds)

theorem lateStep_reports (l : Late) (holds : P s) : P (lateStep l s) := by
  unfold lateStep
  extract_lets owed without
  split
  · exact holds
  · have write := writeStatus_reports kept none l.core l.join l.status (.late l.id)
      (kept.frame (t := without) holds rfl rfl rfl)
    generalize writeStatus none l.core l.join l.status (.late l.id) without = w at *
    cases w with
    | made u => exact joinDone_reports kept _ _ _ (kept.frame write rfl rfl rfl)
    | queued u tag => exact kept.frame write rfl rfl rfl
    | waits u => exact write

theorem reportJoin_reports (ctx : Nat) (core : BitVec 8) (convoy hidx : Nat) (j : Join) (status : BitVec 8) (holds : P s) :
    P (reportJoin ctx core convoy hidx j status s) :=
  lateStep_reports kept _ (kept.frame holds rfl rfl rfl)

theorem dropHandle_reports (core ctx : Nat) (x : Word) (holds : P s) : P (dropHandle core ctx x s) := by
  unfold dropHandle
  dsimp only
  split
  · split
    · exact kept.core _ _ _ rfl rfl holds
    · exact holds
  · exact holds

theorem applyDeferred_reports (d : Deferred) (holds : P s) : P (applyDeferred d s).1 := by
  unfold applyDeferred
  split
  · exact sendItem_reports kept _ holds
  · split
    · exact holds
    · exact kept.poke _ _ _ _ holds

theorem freeSlot_reports (n k : Nat) (holds : P s) : P (freeSlot n k s) := by
  have emptied := kept.core s n { s.coreOf n with
    tiles := merase (s.coreOf n).tiles k
    tilePoison := (s.coreOf n).tilePoison.filter fun w => w / 2048 != k } rfl rfl holds
  exact kept.clear _ (tileKey n (k * 8192)) 8192 emptied

theorem closeConvoy_reports (u : Nat) (holds : P s) : P (closeConvoy u s) :=
  foldl_keeps (fun _ _ held => freeSlot_reports kept _ _ held) _ (kept.frame holds rfl rfl rfl)

theorem applyOut_reports (u : Nat) (o : Nat × OutHart) (d : Deferred) (holds : P s) : P (applyOut u o s d) := by
  unfold applyOut
  split
  · exact sendItem_reports kept _ holds
  · exact applyDeferred_reports kept d holds

/-- Harts of a convoy that is out end (R326). -/
theorem stopOut_reports (p : OutHart → Bool) (u : Nat) (holds : P s) : P (stopOut p u s) := by
  unfold stopOut
  extract_lets c gone applied left convoy without closed reported
  split
  · exact holds
  · have h1 : P applied := foldl_keeps (fun t o held => foldl_keeps (fun v d hv => applyOut_reports kept u o d hv) _ held) _
      holds
    have h2 : P without := kept.frame h1 rfl rfl rfl
    have h3 : P closed := by
      unfold closed
      split
      · exact closeConvoy_reports kept u h2
      · exact h2
    have h4 : P reported := foldl_keeps (fun _ _ held => reportJoin_reports kept _ _ _ _ _ _ held) _ h3
    split
    · exact kept.frame h4 rfl rfl rfl
    · exact h4

theorem dropQueued_reports (ctx : Nat) (e : Queued) (holds : P s) : P (dropQueued ctx e s) := by
  unfold dropQueued
  dsimp only
  split
  · exact holds
  · exact foldl_keeps (fun _ _ held => reportJoin_reports kept _ _ _ _ _ _ held) _ holds

/-- The reports of posts that are discarded. -/
theorem failPosts_reports (p : Nat → Post → Bool) (status : BitVec 8) (without : P { s with
      cores := s.cores.map fun c => (c.1, { c.2 with posts := c.2.posts.filter fun x => !p c.1 x })
      contexts := s.contexts.map fun c => (c.1, { c.2 with posts := c.2.posts.filter fun x => !p 256 x }) }) :
    P (failPosts p status s) := by
  unfold failPosts
  dsimp only
  refine foldl_keeps (fun _ _ held => reportJoin_reports kept _ _ _ _ _ _ held) _ (foldl_keeps (fun _ _ held =>
    reportJoin_reports kept _ _ _ _ _ _ (dropHandle_reports kept _ _ _ held)) _ without)

end

/-! ### Operations that stop -/

/-- The property outlasts what the engine does to cores and masks as well. -/
structure KeptByWork (P : State → Prop) : Prop extends KeptByReports P where
  work : ∀ (s : State) n c, c.fenced = (s.coreOf n).fenced → P s → P (s.setCoreOf n c)
  masks : ∀ (s : State) g m, P s → P (s.setHartOf g { s.hartOf g with m := m })
  posts : ∀ (s : State) (f : Nat → Post → Bool), P s →
    P { s with cores := s.cores.map fun c => (c.1, { c.2 with posts := c.2.posts.filter (f c.1) }) }

theorem KeptByWork.toEngine (kept : KeptByWork P) : KeptByEngine P where
  toKeptByWrites := kept.toWrites
  convoy _ _ _ holds := kept.frame holds rfl rfl rfl
  post _ _ _ holds := kept.frame holds rfl rfl rfl
  core := kept.work
  masks := kept.masks
  items _ _ holds := kept.frame holds rfl rfl rfl
  seq _ _ _ holds := kept.frame holds rfl rfl rfl
  clear := kept.clear

section
variable (kept : KeptByWork P)
include kept

theorem stopTransfers_keeps (p : Nat → Transfer → Bool) (cause : BitVec 8) (holds : P s) : P (stopTransfers p cause s) := by
  unfold stopTransfers
  exact foldl_keeps (fun _ _ held => foldl_keeps (fun _ _ hv => failTransfer_keeps kept.toEngine _ _ _ hv) _ held) _ holds

theorem failPosts_keeps (p : Nat → Post → Bool) (status : BitVec 8) (holds : P s) : P (failPosts p status s) :=
  failPosts_reports kept.toKeptByReports p status (kept.frame (kept.posts s (fun n x => !p n x) holds) rfl rfl rfl)

end

/-! ### The status of one hart -/

/-- Conditions on a hart that neither monitors nor masks are part of. -/
structure HartKept (p : Hart → Prop) : Prop where
  armed : ∀ h a, p h → p { h with armed := a }
  masks : ∀ h m, p h → p { h with m := m }

section
variable {g : Nat} {p : Hart → Prop} (own : HartKept p)
include own

theorem hartHas_wakeMonitors (has : s.HartHas g p) (k n : Nat) : (wakeMonitors k n s).HartHas g p := by
  unfold wakeMonitors
  split
  · refine has.map _ (fun e => ?_) (fun e holds => ?_) rfl
    · split
      · split <;> rfl
      · rfl
    · split
      · split
        · exact own.armed _ _ holds
        · exact holds
      · exact holds
  · exact has

theorem hartHas_pokeN (has : s.HartHas g p) (k n v : Nat) : (pokeN k n v s).HartHas g p := by
  unfold pokeN pokeBytes
  refine hartHas_wakeMonitors own ?_ _ _
  split <;> exact has.of_harts rfl

/-- What one hart is outlasts reports and the ends of operations. -/
theorem hartHas_kept : KeptByWork (State.HartHas g p) where
  frame has harts _ _ := has.of_harts harts
  poke _ k n v has := hartHas_pokeN own has k n v
  clear _ _ _ has := has.of_harts rfl
  core _ _ _ _ _ has := has.of_harts rfl
  work _ _ _ _ has := has.of_harts rfl
  posts _ _ has := has.of_harts rfl
  masks s j m has := by
    by_cases mine : j = g
    · subst mine
      exact hartHas_setHartOf (own.masks _ _ has.hartOf)
    · exact has.setHartOf mine _

end

end

end Sys2Proof.Machine
end

section
/-! PROOFS. R332, R374 to R376: gang launches, at the issuer and at a member. -/

namespace Sys2Proof.Machine

section
variable {s t : State} {gang : Nat} {g : Gang}

/-! ### A member reserves (R375) -/

theorem makePart_owes {issuer q m vd n : Nat} {fcid : BitVec 20} {packet : BitVec 512} {part : GangPart}
    (made : makePart issuer gang fcid q m packet s = some (part, vd, n)) :
    part.logged = if (s.ctxOf part.ctx).route.en then 1 + Packet_.convoys packet else 0 := by
  unfold makePart at made
  split at made
  next ctx cl vd' c' live bound =>
    dsimp only at made
    split at made
    · exact absurd made (by simp)
    · obtain ⟨sl, -, same⟩ := Option.map_eq_some_iff.mp made
      cases same
      rfl
  · exact absurd made (by simp)

/-- What a member without the messages of the gang to itself is. -/
structure SameButSent (s t : State) : Prop where
  harts : t.harts = s.harts
  queues : t.queues = s.queues
  parts : t.parts = s.parts
  contexts : t.contexts = s.contexts
  vdevs : t.vdevs = s.vdevs
  gangs : t.gangs = s.gangs
  now : t.now = s.now

theorem wakeUp_takeOwn_same (m : Sent) (s : State) : SameButSent s (wakeUp (takeOwn m s)) := by
  unfold wakeUp takeOwn
  split <;> exact ⟨rfl, rfl, rfl, rfl, rfl, rfl, rfl⟩

/-- A message of an issuer has arrived at the member. -/
def State.took (s : State) (issuer : Nat) (m : Sent) : State := wakeUp (if issuer = s.package then takeOwn m s else s)

theorem took_same (issuer : Nat) (m : Sent) (s : State) : SameButSent s (s.took issuer m) := by
  unfold State.took wakeUp takeOwn
  split <;> split <;> exact ⟨rfl, rfl, rfl, rfl, rfl, rfl, rfl⟩

theorem took_findPart (i : Nat) (m : Sent) (s : State) (issuer gang : Nat) :
    findPart (s.took i m) issuer gang = findPart s issuer gang := by
  unfold findPart
  rw [(took_same i m s).parts]

section
variable {issuer q m : Nat} {fcid : BitVec 20} {p : BitVec 512} {idx : Bool} (up : fabricUp s = true)
include up

theorem gangReserve_silent
    (none_ : makePart issuer gang fcid q m (memberPacket p idx m) (s.took issuer (.reserve s.package gang m)) = none) :
    exec (.gangReserve issuer gang fcid q m p idx) s = .next (s.took issuer (.reserve s.package gang m)) := by
  change execGangReserve issuer gang fcid q m p idx s = _
  unfold State.took at *
  unfold execGangReserve
  simp only [up, Bool.not_true, Bool.false_eq_true, if_false, none_]

theorem gangReserve_acknowledges {part : GangPart} {vd n : Nat}
    (made : makePart issuer gang fcid q m (memberPacket p idx m) (s.took issuer (.reserve s.package gang m))
      = some (part, vd, n)) :
    ∃ t, exec (.gangReserve issuer gang fcid q m p idx) s = .next t ∧ t.parts = s.parts ++ [part]
      ∧ t.sent = (s.took issuer (.reserve s.package gang m)).sent ++ [.gangAck issuer gang m]
      ∧ t.harts = s.harts ∧ t.queues = s.queues
      ∧ (t.ctxOf part.ctx).route.held = (s.ctxOf part.ctx).route.held
        + (if (s.ctxOf part.ctx).route.en then 1 + Packet_.convoys (memberPacket p idx m) else 0)
      ∧ (t.vdevOf vd).detCount = (s.vdevOf vd).detCount + n := by
  obtain ⟨harts, queues, parts, contexts, vdevs, -, -⟩ := took_same issuer (.reserve s.package gang m) s
  have owes := makePart_owes made
  generalize same : s.took issuer (.reserve s.package gang m) = u at *
  have ctx : u.ctxOf part.ctx = s.ctxOf part.ctx := by rw [State.ctxOf, State.ctxOf, contexts]
  have vdev : u.vdevOf vd = s.vdevOf vd := by rw [State.vdevOf, State.vdevOf, vdevs]
  have run : exec (.gangReserve issuer gang fcid q m p idx) s = .next
      { (u.setCtxOf part.ctx { u.ctxOf part.ctx with route := { (u.ctxOf part.ctx).route with
          held := (u.ctxOf part.ctx).route.held + part.logged } }).setVdevOf vd
            { u.vdevOf vd with detCount := (u.vdevOf vd).detCount + n } with
        parts := u.parts ++ [part], sent := u.sent ++ [.gangAck issuer gang m] } := by
    change execGangReserve issuer gang fcid q m p idx s = _
    unfold State.took at same
    unfold execGangReserve
    simp only [up, Bool.not_true, Bool.false_eq_true, if_false, same, made]
    rfl
  refine ⟨_, run, congrArg (· ++ [part]) parts, rfl, harts, queues, ?_, ?_⟩
  · rw [ctx] at owes
    rw [ctx, owes]
    exact congrArg (fun c : Context => c.route.held) (State.setCtxOf_same ..)
  · rw [vdev]
    exact congrArg VDev.detCount (State.setVdevOf_same ..)

end

section
variable {issuer : Nat} {p : GangPart} (found : findPart s issuer gang = some p)
include found

theorem gangBegin_enqueues : exec (.gangBegin issuer gang) s = .next (enqueue p.queue p.packet
    { status := 0, counter := none, ctx := p.ctx, view := .user
      gang := some (issuer, gang, p.member * (Packet_.convoys p.packet * Packet_.harts p.packet))
      reserved := p.slots, detBase := p.detBase, logHeld := p.logged != 0 }
    (dropPart issuer gang (s.took issuer (.begin_ s.package gang)))) := by
  change execGangBegin issuer gang s = _
  unfold execGangBegin
  simp only [found]
  rfl

/-- What a member holds for a gang is free again, but for its places in the count. -/
def State.unreserved (s : State) (issuer gang : Nat) (p : GangPart) : State :=
  releaseHeld p.ctx p.logged (dropPart issuer gang (s.took issuer (.abort s.package gang)))

theorem gangAbort_frees (unplaced : p.detBase = none) :
    exec (.gangAbort issuer gang) s = .next (s.unreserved issuer gang p) := by
  have at_ : findPart (wakeUp (if issuer = s.package then takeOwn (.abort s.package gang) s else s)) issuer gang = some p :=
    (took_findPart issuer (.abort s.package gang) s issuer gang).trans found
  change execGangAbort issuer gang s = _
  unfold execGangAbort
  simp only [at_, unplaced]
  rfl

theorem gangAbort_givesBack {b : Nat} (placed : p.detBase = some b) :
    exec (.gangAbort issuer gang) s = .next (giveBackDet ((s.unreserved issuer gang p).ctxOf p.ctx).vdev b
      (Packet_.convoys p.packet) (s.unreserved issuer gang p)) := by
  have at_ : findPart (wakeUp (if issuer = s.package then takeOwn (.abort s.package gang) s else s)) issuer gang = some p :=
    (took_findPart issuer (.abort s.package gang) s issuer gang).trans found
  change execGangAbort issuer gang s = _
  unfold execGangAbort
  simp only [at_, placed]
  rfl

end

theorem giveBackDet_count {vd b n : Nat} (parts : ∀ p ∈ s.parts, ∀ x, p.detBase = some x → x ≤ b)
    (queued : ∀ q ∈ s.queues, ∀ e ∈ q.2.entries, e.reserved = [] ∨ e.detBase ≤ b) :
    ((giveBackDet vd b n s).vdevOf vd).detCount = (s.vdevOf vd).detCount - n := by
  have noPart : (s.parts.any fun p => (s.queueOf p.queue).bind.any (fun b => b.2.1 == vd)
      && p.detBase.any fun x => decide (b < x)) = false := by
    rw [List.any_eq_false]
    intro p mem
    cases base : p.detBase with
    | none => simp
    | some x =>
      have := parts p mem x base
      simp only [Option.any_some, Bool.and_eq_true, decide_eq_true_eq, not_and]
      omega
  have noEntry : (s.queues.any fun q => (s.queueOf q.1).bind.any (fun b => b.2.1 == vd)
      && q.2.entries.any fun e => !e.reserved.isEmpty && decide (b < e.detBase)) = false := by
    rw [List.any_eq_false]
    intro q mem
    have none_ : (q.2.entries.any fun e => !e.reserved.isEmpty && decide (b < e.detBase)) = false := by
      rw [List.any_eq_false]
      intro e at_
      rcases queued q mem e at_ with empty | early
      · simp [empty]
      · simp only [Bool.and_eq_true, decide_eq_true_eq, not_and]
        omega
    rw [none_, Bool.and_false]
    decide
  unfold giveBackDet
  simp only [noPart, noEntry, Bool.or_false, Bool.false_eq_true, if_false]
  exact congrArg VDev.detCount (State.setVdevOf_same ..)

/-! ### A member stops (R376) -/

/-- The hart has ended with a status, and leaves its convoy next. -/
def Stopped (status : BitVec 8) (h : Hart) : Prop := h.status = .ending status 1

theorem stopped_kept (status : BitVec 8) : HartKept (Stopped status) where
  armed _ _ holds := holds
  masks _ _ holds := holds

theorem stopHart_keeps {i : Nat} {status : BitVec 8} (j : Nat) (has : s.HartHas i (Stopped status)) :
    (stopHart status s j).HartHas i (Stopped status) := by
  unfold stopHart
  split
  · exact has
  next h there =>
    split
    · exact has
    next live =>
      have withdrawn : (withdraw j s).HartHas i (Stopped status) := has.of_harts (withdraw_parts j s).1
      by_cases mine : j = i
      · subst mine
        exact hartHas_setHartOf rfl
      · exact withdrawn.setHartOf mine _

theorem stopHart_stops {i : Nat} {h : Hart} (status : BitVec 8) (there : mget s.harts i = some h)
    (live : isEnding h = false) : (stopHart status s i).HartHas i (Stopped status) := by
  unfold stopHart
  simp only [there, live, Bool.false_eq_true, if_false]
  exact hartHas_setHartOf rfl

theorem stopHart_other {i j : Nat} (status : BitVec 8) (other : j ≠ i) :
    mget (stopHart status s j).harts i = mget s.harts i := by
  unfold stopHart
  split
  · rfl
  · split
    · rfl
    · dsimp only
      unfold State.setHartOf
      rw [mget_mset, if_neg other, (withdraw_parts j s).1]

theorem stopHarts_stop {i : Nat} {h : Hart} (status : BitVec 8) (live : isEnding h = false) {js : List Nat} (mem : i ∈ js)
    (there : mget s.harts i = some h) : (js.foldl (stopHart status) s).HartHas i (Stopped status) := by
  induction js generalizing s with
  | nil => cases mem
  | cons j js ih =>
    by_cases own : j = i
    · subst own
      exact foldl_keeps (fun _ _ has => stopHart_keeps _ has) js (stopHart_stops status there live)
    · exact ih ((List.mem_cons.mp mem).resolve_left (Ne.symm own)) ((stopHart_other status own).trans there)

theorem dropGangQueued_reports {P : State → Prop} (kept : KeptByReports P) (issuer gang : Nat) (holds : P s) :
    P (dropGangQueued issuer gang s) := by
  unfold dropGangQueued
  refine foldl_keeps (fun t q held => ?_) _ holds
  extract_lets es dropped x
  have left : P dropped := List.foldlRecOn (motive := P) es _ held fun _ hu _ _ =>
    kept.frame (dropQueued_reports kept _ _ hu) rfl rfl rfl
  split
  · exact left
  · exact kept.frame left rfl rfl rfl

theorem gangKill_stops {i issuer : Nat} {h : Hart} (there : mget s.harts i = some h)
    (own : h.join.inGang issuer gang = true) (live : isEnding h = false) :
    ∃ t, exec (.gangKill issuer gang) s = .next t ∧ t.HartHas i (Stopped 0xFF) := by
  refine ⟨_, rfl, ?_⟩
  have kept := hartHas_kept (g := i) (stopped_kept 0xFF)
  have harts := (took_same issuer (.kill s.package gang) s).harts
  refine dropGangQueued_reports kept.toKeptByReports _ _ (failPosts_keeps kept _ _ ?_)
  refine kept.frame (stopTransfers_keeps kept _ _ (foldl_keeps (fun _ _ has =>
    stopOut_reports kept.toKeptByReports _ _ has) _ (stopHarts_stop 0xFF live ?_ ?_))) rfl rfl rfl
  · refine List.mem_map.mpr ⟨(i, h), List.mem_filter.mpr ⟨?_, own⟩, rfl⟩
    obtain ⟨e, found, rfl⟩ := Option.map_eq_some_iff.mp there
    have key : e.1 = i := by simpa using List.find?_some found
    exact key ▸ harts ▸ List.mem_of_find?_eq_some found
  · exact (congrArg (mget · i) harts).trans there

/-! ### The issuer -/

theorem findGang_id (found : findGang s gang = some g) : g.id = gang := by
  simpa using List.find?_some found

theorem findGang_setGang {x : Gang} (found : findGang s x.id = some g) : findGang (setGang x s) x.id = some x := by
  unfold findGang setGang at *
  rw [List.find?_map]
  have same : ((fun y : Gang => y.id == x.id) ∘ fun y => if y.id = x.id then x else y) = fun y : Gang => y.id == x.id := by
    funext y
    by_cases is_ : y.id = x.id <;> simp [is_]
  rw [same, found, Option.map_some, if_pos (by simpa using List.find?_some found)]

/-- A gang of which hart `i` has reported as well. -/
def Gang.heard (g : Gang) (i : Nat) : Gang := { g with reported := i :: g.reported }

/-- What the report of hart `i` of a gang leaves, at a counter that is there. -/
def State.hears (s : State) (g : Gang) (c : Convoy) (i : Nat) : State :=
  { s.setConvoyOf g.convoy (c.addK g.k 1) with
    gangs := if decide (g.total ≤ g.reported.length + 1) then s.gangs.filter fun z => z.id != g.id
      else (setGang (g.heard i) s).gangs }

theorem gangReport_counts {i : Nat} {c : Convoy} (core status : BitVec 8) (found : findGang s gang = some g)
    (unnamed : g.status = 0) (fresh : g.reported.contains i = false) (small : i < g.total)
    (there : mget s.convoys g.convoy = some c) (present : c.record = none) (lives : c.ended = false) :
    gangReport gang i core status s = s.hears g c i := by
  have id := findGang_id found
  subst id
  have notLate : decide (g.members.length * g.harts ≤ i) = false := decide_eq_false (Nat.not_le.mpr small)
  unfold findGang at found
  unfold gangReport
  simp only [found, fresh, notLate, Bool.or_false, Bool.false_eq_true, if_false, if_pos unnamed]
  unfold writeStatus
  rw [if_pos rfl]
  simp only [bumpCounter_resident there lives, present]
  rfl

theorem addK_own (c : Convoy) (k : KName) (n : Word) : (c.addK k n).k[k] = c.k[k] + n := by
  unfold Convoy.addK
  simp

/-- The harts of a gang report, each once, at a counter that is there. -/
theorem gangReports_count {c : Convoy} (core status : BitVec 8) (unnamed : g.status = 0) {is : List Nat}
    (apart : is.Nodup) (small : ∀ i ∈ is, i < g.total) (fit : g.reported.length + is.length ≤ g.total)
    (fresh : ∀ i ∈ is, i ∉ g.reported) (id : g.id = gang) (found : is ≠ [] → findGang s gang = some g)
    (there : mget s.convoys g.convoy = some c) (present : c.record = none) (lives : c.ended = false) :
    let t := is.foldl (fun s i => gangReport gang i core status s) s
    t.harts = s.harts ∧ t.sent = s.sent
      ∧ (t.convoyOf g.convoy).k[g.k] = c.k[g.k] + BitVec.ofNat 64 is.length := by
  induction is generalizing s g c with
  | nil =>
    refine ⟨rfl, rfl, ?_⟩
    rw [List.foldl_nil, State.convoyOf, there]
    simp
  | cons i is ih =>
    obtain ⟨new, apart'⟩ := List.nodup_cons.mp apart
    have once := gangReport_counts core status (found (List.cons_ne_nil _ _)) unnamed
      (by simpa using fresh i List.mem_cons_self) (small i List.mem_cons_self) there present lives
    rw [List.foldl_cons, once]
    have next : is ≠ [] → findGang (s.hears g c i) gang = some (g.heard i) := fun more => by
      have going : decide (g.total ≤ g.reported.length + 1) = false := decide_eq_false (by
        have := List.length_pos_iff.mpr more
        simp only [List.length_cons] at fit
        omega)
      unfold State.hears
      rw [going]
      subst id
      exact findGang_setGang (x := g.heard i) (found (List.cons_ne_nil _ _))
    obtain ⟨harts, sent, k⟩ := ih (s := s.hears g c i) (g := g.heard i) (c := c.addK g.k 1) unnamed apart'
      (fun j mem => small j (List.mem_cons_of_mem _ mem))
      (show (g.reported.length + 1) + is.length ≤ g.total by simp only [List.length_cons] at fit; omega)
      (fun j mem at_ => (List.mem_cons.mp at_).elim (fun same => new (same ▸ mem)) (fresh j (List.mem_cons_of_mem _ mem)))
      id next (mget_mset_self ..) present lives
    refine ⟨harts, sent, k.trans ?_⟩
    change (c.addK g.k 1).k[g.k] + _ = _
    rw [addK_own, List.length_cons, BitVec.add_assoc, Nat.add_comm is.length, BitVec.ofNat_add]
    rfl

/-- A gang that member `m` has acknowledged. -/
def Gang.acked (g : Gang) (m : Nat) (begun : Bool) : Gang := { g with acks := m :: g.acks, begun := begun }

theorem gangAck_acknowledges {m : Nat} (found : findGang s gang = some g) (waiting : g.begun = false)
    (member : m < g.members.length) (fresh : g.acks.contains m = false) :
    ∃ t, exec (.gangAck gang m) s = .next t ∧ ∃ g', findGang t gang = some g' ∧ g'.acks = m :: g.acks
      ∧ (g'.begun = true ↔ g.acks.length + 1 = g.members.length ∧ s.now ≤ g.since + 50000000)
      ∧ (∀ d ∈ g.members, g'.begun = true → Sent.begin_ d gang ∈ t.sent) := by
  have id := findGang_id found
  subst id
  have same : SameButSent s (wakeUp (takeOwn (.gangAck s.package g.id m) s)) :=
    wakeUp_takeOwn_same (.gangAck s.package g.id m) s
  have run : ∃ u, u.gangs = s.gangs ∧ exec (.gangAck g.id m) s = .next (
      if g.acks.length + 1 = g.members.length ∧ s.now ≤ g.since + gangLimit then
        { setGang (g.acked m true) u with sent := u.sent ++ g.members.map fun m => .begin_ m g.id }
      else setGang (g.acked m false) u) := by
    refine ⟨_, same.gangs, ?_⟩
    change execGangAck g.id m s = _
    unfold execGangAck
    simp only [found, waiting, decide_eq_false (Nat.not_le.mpr member), fresh, Bool.or_false, Bool.false_eq_true, if_false]
    rfl
  obtain ⟨u, gangs, run⟩ := run
  have kept : findGang u g.id = some g := by
    unfold findGang at *
    rwa [gangs]
  rw [run]
  refine ⟨_, rfl, ?_⟩
  by_cases inTime : g.acks.length + 1 = g.members.length ∧ s.now ≤ g.since + gangLimit
  · rw [if_pos inTime]
    exact ⟨_, findGang_setGang (x := g.acked m true) kept, rfl, iff_of_true rfl inTime,
      fun d mem _ => List.mem_append_right _ (List.mem_map_of_mem mem)⟩
  · rw [if_neg inTime]
    exact ⟨_, findGang_setGang (x := g.acked m false) kept, rfl, iff_of_false Bool.false_ne_true inTime,
      fun d mem begun => absurd begun Bool.false_ne_true⟩

/-- KILL to every member of a gang but one. -/
def Gang.kills (g : Gang) (m : Nat) : List Sent :=
  ((g.members.zip (List.range g.members.length)).filter fun x => x.2 != m).map fun x => .kill x.1 g.id

theorem kill_mem_kills {m i d : Nat} (other : i ≠ m) (at_ : g.members[i]? = some d) : Sent.kill d g.id ∈ g.kills m := by
  refine List.mem_map.mpr ⟨(d, i), List.mem_filter.mpr ⟨?_, by simpa using other⟩, rfl⟩
  have small := (List.getElem?_eq_some_iff.mp at_).1
  exact List.mem_of_getElem? (i := i) (List.getElem?_zip_eq_some.mpr ⟨at_, by simp [small]⟩)

section
variable {c : Convoy} (found : findGang s gang = some g) (unnamed : g.status = 0) (none_ : g.reported = [])
  (there : mget s.convoys g.convoy = some c) (present : c.record = none) (lives : c.ended = false)
include found unnamed none_ there present lives

theorem gangTimeout_aborts (waiting : g.begun = false) (late : g.since + 50000000 ≤ s.now) :
    ∃ t, exec (.gangTimeout gang) s = .next t ∧ t.sent = s.sent ++ g.members.map (fun d => .abort d gang)
      ∧ (t.convoyOf g.convoy).k[g.k] = c.k[g.k] + BitVec.ofNat 64 (g.members.length * g.harts) ∧ t.harts = s.harts := by
  have notYet : ¬ (g.begun = true ∨ s.now < g.since + gangLimit) := by
    rw [waiting]
    exact fun or_ => or_.elim Bool.false_ne_true fun early => absurd late (Nat.not_le.mpr early)
  obtain ⟨harts, sent, k⟩ := gangReports_count (s := { s with sent := s.sent ++ g.members.map fun m => .abort m gang })
    (is := List.range g.total) 0xFF 0xFE unnamed List.nodup_range (fun i mem => List.mem_range.mp mem)
    (by rw [none_, List.length_range]; exact (Nat.zero_add _).le) (by simp [none_]) (findGang_id found) (fun _ => found)
    there present lives
  rw [List.length_range] at k
  refine ⟨_, ?_, sent, k, harts⟩
  change execGangTimeout gang s = _
  unfold execGangTimeout
  simp only [found, if_neg notYet]

theorem gangMemberFailure_kills {m : Nat} (going : g.begun = true) (first_ : g.killed = false) (member : m < g.members.length)
    (killed : Bool) :
    ∃ t, exec (.gangMemberFailure gang m killed) s = .next t
      ∧ (∀ i, i < g.members.length → i ≠ m → ∀ d, g.members[i]? = some d → Sent.kill d gang ∈ t.sent)
      ∧ (t.convoyOf g.convoy).k[g.k] = c.k[g.k] + BitVec.ofNat 64 g.harts ∧ t.harts = s.harts := by
  have id := findGang_id found
  subst id
  have acts : ¬ ((!g.begun) = true ∨ g.members.length ≤ m) := by
    rw [going]
    exact fun or_ => or_.elim Bool.false_ne_true (Nat.not_le.mpr member)
  have whole : m * g.harts + g.harts ≤ g.total := by
    rw [← Nat.succ_mul]
    exact Nat.mul_le_mul_right _ member
  obtain ⟨harts, sent, k⟩ := gangReports_count (g := { g with killed := true })
    (s := setGang { g with killed := true } { s with sent := s.sent ++ g.kills m })
    (is := List.range' (m * g.harts) g.harts) 0xFF (if killed then 0xFF else 0x16) unnamed List.nodup_range'
    (fun i mem => Nat.lt_of_lt_of_le (List.mem_range'_1.mp mem).2 whole)
    (by
      rw [List.length_range', none_]
      exact (Nat.zero_add _).le.trans ((Nat.le_add_left ..).trans whole))
    (by simp [none_]) rfl (fun _ => findGang_setGang (x := { g with killed := true }) found) there present lives
  rw [List.length_range'] at k
  refine ⟨_, ?_, fun i _ other d at_ => sent ▸ List.mem_append_right _ (kill_mem_kills other at_), k, harts⟩
  change execGangMemberFailure g.id m killed s = _
  unfold execGangMemberFailure
  simp only [found, if_neg acts, first_, Bool.false_eq_true, if_false]
  rfl

end

end

/-- Settles O51. -/
theorem gangEventResults : Obligations.GangEventResults := by
  unfold Obligations.GangEventResults
  refine ⟨fun s issuer gang => ?_, fun s vd b n parts queued => giveBackDet_count parts queued, fun s gang m g found => ?_⟩
  · refine ⟨fun fcid q m p idx up => ⟨fun none_ => gangReserve_silent up none_, fun part vd n made =>
      gangReserve_acknowledges up made⟩, fun p found => ⟨gangBegin_enqueues found, fun unplaced =>
        gangAbort_frees found unplaced, fun b placed => gangAbort_givesBack found placed⟩, ?_⟩
    · refine ⟨_, rfl, fun i h there own live => ?_⟩
      obtain ⟨t, run, has⟩ := gangKill_stops (issuer := issuer) (gang := gang) there own live
      cases run
      exact has.hartOf
  · refine ⟨fun waiting member fresh => gangAck_acknowledges found waiting member fresh,
      fun c unnamed none_ there present lives => ⟨fun waiting late =>
        gangTimeout_aborts found unnamed none_ there present lives waiting late,
      fun going first_ member killed =>
        gangMemberFailure_kills found unnamed none_ there present lives going first_ member killed⟩⟩

end Sys2Proof.Machine
end

section
/-! PROOFS. R173 to R183, R198, R199: what the accesses of a unit keep. -/

namespace Sys2Proof.Machine

/-- The property is one of the harts, of which hart is current, and of memory, which neither a change of the current hart nor
a store ends. -/
structure KeptByUnits (P : State → Prop) : Prop where
  frame : ∀ {s t : State}, P s → t.harts = s.harts → t.cur = s.cur → t.mem = s.mem → P t
  hart : ∀ {s : State} h, P s → P (s.setHart h)
  poke : ∀ {s : State} k bs, P s → P (pokeBytes k bs s)
  write : ∀ {s : State} k bs, P s → P { s with mem := memWriteBytes s.mem k bs }

section
variable {s t : State} {P : State → Prop} (kept : KeptByUnits P)
include kept

theorem walkedTo_units (holds : P s) : ∀ u, s.walkedTo u → P u :=
  fun _ ⟨_, _, walked⟩ => kept.frame holds (walked ▸ rfl) (walked ▸ rfl) (walked ▸ rfl)

theorem locate_units (fam : Fam) (acc : Acc) (va : Word) (n : Nat) (e b : Option Nat) (holds : P s) :
    EndsIn P (locate fam acc va n e b) s :=
  ends_mono (locate_walked fam acc va n e b s.walkedTo_self) (walkedTo_units kept holds)

theorem sendItem_units (it : Item) (holds : P s) : P (sendItem it s) :=
  kept.frame holds (sendItem_harts it s).1 (sendItem_harts it s).2 (sendItem_mem it s)

theorem holdUnit_units (i : Option Instr) (u : State) (holds : P s) : P (holdUnit i s u) :=
  foldl_keeps (fun _ _ held => sendItem_units kept _ held) _ (kept.frame (kept.hart _ holds) rfl rfl rfl)

theorem modHart_units (f : Hart → Hart) (holds : P s) : EndsIn P (modHart f) s := ends_modify (kept.hart _ holds)

/-! ### Deferred updates (R333) -/

theorem applyDeferred_units (d : Deferred) (holds : P s) : P (applyDeferred d s).1 := by
  unfold applyDeferred
  split
  · exact sendItem_units kept _ holds
  · split
    · exact holds
    · exact kept.poke _ _ holds

theorem applyUpTo_units (p : Deferred → Bool) (ds : List Deferred) (holds : P s) : P (applyUpTo p ds s).1 := by
  induction ds generalizing s with
  | nil => exact holds
  | cons d ds ih =>
    have applied := applyDeferred_units kept d holds
    unfold applyUpTo
    split
    · split
      · exact holds
      · split
        next u run =>
          rw [run] at applied
          exact ih applied
        next u c run => rwa [run] at applied
    · exact ih holds

theorem flushWhere_units (p : Deferred → Bool) (holds : P s) : EndsIn P (flushWhere p) s := by
  unfold flushWhere
  refine ends_bind (ends_get_bind (ends_pure holds _)) fun h t ht => ends_ite (fun _ => ?_) fun _ => ends_pure ht _
  refine ends_get_bind ?_
  have applied := applyUpTo_units kept (fun d => p d || crossPath t h.deferred) h.deferred ht
  generalize applyUpTo (fun d => p d || crossPath t h.deferred) h.deferred t = r at *
  obtain ⟨u, rest, bad⟩ := r
  refine ends_bind (ends_set (kept.hart _ applied)) fun _ v hv => ?_
  cases bad with
  | done => exact ends_pure hv _
  | fails c a => exact ends_throw hv _
  | waits => exact ends_throw hv _

theorem flushGranule_units (k : Nat) (holds : P s) : EndsIn P (flushGranule k) s :=
  ends_get_bind (ends_ite (fun _ => flushWhere_units kept _ holds) fun _ => ends_pure holds _)

theorem deferRoom_units (n : Nat) (holds : P s) : EndsIn P (deferRoom n) s :=
  ends_bind (ends_get_bind (ends_pure holds _)) fun _ _ ht =>
    ends_ite (fun _ => flushWhere_units kept _ ht) fun _ => ends_pure ht _

theorem deferLocal_units (l : Loc) (va : Word) (t : EType) (v k e : Nat) (holds : P s) :
    EndsIn P (deferLocal l va t v k e) s := ends_get_bind (modHart_units kept _ holds)

/-- An operation that meets pending updates starts again after them. -/
theorem flushBefore_units {α : Type} {op : M α} (each : Keeps P op) (holds : P s) : EndsIn P (flushBefore op) s := by
  have flush := flushWhere_units kept (fun _ => true) holds
  unfold EndsIn flushBefore flushDeferred at *
  generalize flushWhere (fun _ => true) s = r at *
  extract_lets _ met
  split
  · cases r with
    | ok _ u => exact each u flush
    | error _ u => exact flush
  · exact each s holds

/-! ### Waits and logs -/

omit kept in
/-- A step that is taken only under a condition, before what comes next in any case. -/
theorem ends_when {ε α β : Type} {c : Prop} [Decidable c] {x : EStateM ε State α} {k : EStateM ε State β} (holds : P s)
    (first_ : EndsIn P x s) (next_ : ∀ u, P u → EndsIn P k u) : EndsIn P (if c then x >>= fun _ => k else k) s :=
  ends_ite (fun _ => ends_bind first_ fun _ u hu => next_ u hu) fun _ => next_ s holds

theorem markEarly_units (holds : P s) : EndsIn P markEarly s := modHart_units kept _ holds

theorem awaitOwn_units (l : Loc) (holds : P s) : EndsIn P (awaitOwn l) s :=
  ends_get_bind (ends_get_bind (ends_ite (fun _ => ends_throw holds _)
    fun _ => ends_ite (fun _ => ends_pure holds _) fun _ => markEarly_units kept holds))

omit kept in
theorem awaitLogged_units (l : Loc) (holds : P s) : EndsIn P (awaitLogged l) s :=
  ends_get_bind (ends_ite (fun _ => ends_throw holds _) fun _ => ends_pure holds _)

theorem stagingServe_units (k : Nat) (holds : P s) : EndsIn P (stagingServe k) s := by
  unfold stagingServe
  refine ends_get_bind ?_
  dsimp only
  split
  · refine ends_bind (ends_set ?_) fun _ _ hu => ends_throw hu _
    unfold wantLine
    split
    · exact holds
    · exact kept.frame holds rfl rfl rfl
  · exact ends_bind (ends_set (kept.frame holds rfl rfl rfl)) fun _ _ hu => ends_pure hu _
  · refine ends_bind (ends_set ?_) fun _ _ hu => ends_pure hu _
    unfold serveLine stagingTouch
    split <;> exact kept.frame holds rfl rfl rfl

theorem logAccesses_units (log : Bool) (es : List (Nat × Nat × Word)) (holds : P s) : EndsIn P (logAccesses log es) s := by
  unfold logAccesses
  refine ends_get_bind (ends_ite (fun _ => ends_pure holds _) fun _ => ends_ite (fun _ => ?_)
    fun _ => ends_set (kept.frame holds rfl rfl rfl))
  exact ends_bind (ends_set (kept.frame holds rfl rfl rfl)) fun _ _ hu => ends_throw hu _

theorem logOne_units (l : Loc) (k : Nat) (va : Word) (e : Option Nat) (holds : P s) : EndsIn P (logOne l k va e) s := by
  have log := logAccesses_units kept l.log [(k, e.getD 0, va)] holds
  unfold EndsIn logOne at *
  generalize logAccesses l.log [(k, e.getD 0, va)] s = r at *
  split <;> exact log

omit kept in
theorem checkData_units (va : Word) (k : Nat) (e b : Option Nat) (holds : P s) : EndsIn P (checkData va k e b) s := by
  unfold checkData
  refine ends_get_bind ?_
  split
  · exact ends_throw holds _
  · exact ends_pure holds _

theorem meter_units (k n : Nat) (holds : P s) : EndsIn P (meter k n) s :=
  ends_get_bind (ends_ite (fun _ => ends_set (kept.frame holds rfl rfl rfl)) fun _ => ends_pure holds _)

/-! ### Loads and stores -/

theorem remoteWait_units (va : Word) (t : EType) (op : ItemOp) (e b : Option Nat) (holds : P s) :
    EndsIn P (remoteWait va t op e b) s := by
  unfold remoteWait
  refine ends_get_bind (ends_when holds (markEarly_units kept holds) fun u hu => ?_)
  refine ends_bind (ends_get_bind (ends_pure hu _)) fun h v hv => ?_
  split
  · refine ends_bind (ends_modify (kept.hart _ hv)) fun _ w hw => ?_
    split
    · exact ends_pure hw _
    · exact ends_throw hw _
  · exact ends_ite (fun _ => ends_throw hv _) fun _ => ends_ite (fun _ => ends_throw hv _) fun _ =>
      ends_bind (ends_modify (sendItem_units kept _ hv)) fun _ _ hw => ends_throw hw _

theorem remotePost_units (va : Word) (t : EType) (op : ItemOp) (u : Bool) (e : Nat) (holds : P s) :
    EndsIn P (remotePost va t op u e) s := by
  refine ends_modify ?_
  split
  · exact kept.hart _ holds
  · exact sendItem_units kept _ holds

theorem prepLoad_units (p : Place) (va : Word) (e b : Option Nat) (holds : P s) : EndsIn P (prepLoad p va e b) s := by
  cases p with
  | remote => exact ends_get_bind (flushGranule_units kept _ holds)
  | local_ l =>
    refine ends_ite (fun _ => ends_pure holds _) fun _ => ends_bind (flushGranule_units kept _ holds) fun _ _ ha =>
      ends_bind (awaitOwn_units kept _ ha) fun _ _ hb => ends_bind (awaitLogged_units _ hb) fun _ t ht =>
      ends_ite (fun _ => ?_) fun _ => checkData_units _ _ _ _ ht
    exact ends_bind (stagingServe_units kept _ ht) fun _ _ hu =>
      ends_when hu (ends_throw hu _) fun _ hv => checkData_units _ _ _ _ hv

theorem takeLoad_units (p : Place) (va : Word) (n : Nat) (t : EType) (e b : Option Nat) (holds : P s) :
    EndsIn P (takeLoad p va n t e b) s := by
  cases p with
  | remote => exact ends_bind (remoteWait_units kept _ _ _ _ _ holds) fun _ _ hu => ends_pure hu _
  | local_ l =>
    exact ends_ite (fun _ => ends_bind (show P _ from kept.frame holds rfl rfl rfl) fun _ _ hu => ends_pure hu _)
      fun _ => ends_bind (meter_units kept _ _ holds) fun _ _ hu => ends_get_bind (ends_pure hu _)

theorem logPlace_units (p : Place) (k : Nat) (va : Word) (e : Option Nat) (holds : P s) : EndsIn P (logPlace p k va e) s := by
  cases p with
  | remote => exact ends_pure holds _
  | local_ l => exact logOne_units kept l k va e holds

theorem loadVa_units (fam : Fam) (k : Nat) (va : Word) (n : Nat) (t : EType) (e b : Option Nat) (holds : P s) :
    EndsIn P (loadVa fam k va n t e b) s :=
  ends_bind (locate_units kept fam .load va n e b holds) fun p _ h1 => ends_bind (prepLoad_units kept p va e b h1)
    fun _ _ h2 => ends_bind (logPlace_units kept p k va e h2) fun _ _ h3 => takeLoad_units kept p va n t e b h3

theorem prepStore_units (p : Place) (va : Word) (e b : Option Nat) (holds : P s) : EndsIn P (prepStore p va e b) s := by
  cases p with
  | remote => exact ends_get_bind (flushGranule_units kept _ holds)
  | local_ l =>
    exact ends_ite (fun _ => ends_pure holds _) fun _ => ends_bind (flushGranule_units kept _ holds) fun _ _ ha =>
      ends_bind (awaitOwn_units kept _ ha) fun _ _ hb => ends_bind (awaitLogged_units _ hb) fun _ _ ht =>
      ends_get_bind (ends_ite (fun _ => ends_throw ht _) fun _ => ends_pure ht _)

theorem putStore_units (p : Place) (va : Word) (n v : Nat) (t : EType) (u : Bool) (e : Option Nat) (holds : P s) :
    EndsIn P (putStore p va n v t u e) s := by
  cases p with
  | remote => exact remotePost_units kept _ _ _ _ _ holds
  | local_ l =>
    exact ends_ite (fun _ => ends_modify (kept.frame (kept.hart { s.hart with hostLast := some l.key } holds) rfl rfl rfl))
      fun _ => ends_bind (meter_units kept _ _ holds) fun _ _ hu => ends_modify (kept.poke _ _ hu)

theorem storeVa_units (fam : Fam) (k : Nat) (va : Word) (n v : Nat) (t : EType) (u : Bool) (e b : Option Nat) (holds : P s) :
    EndsIn P (storeVa fam k va n v t u e b) s :=
  ends_bind (locate_units kept fam .store va n e b holds) fun p _ h1 => ends_bind (prepStore_units kept p va e b h1)
    fun _ _ h2 => ends_bind (logPlace_units kept p k va e h2) fun _ _ h3 => putStore_units kept p va n v t u e h3

/-! ### Elements in order (R156, R180, R181) -/

theorem memRest_units {f : Nat → M Unit} (each : ∀ i, Keeps P (f i)) (is : List Nat) (holds : P s) :
    EndsIn P (memRest f is) s := by
  induction is generalizing s with
  | nil => exact modHart_units kept _ holds
  | cons i is ih =>
    have one := each i s holds
    unfold EndsIn at one ⊢
    simp only [memRest]
    split
    next u run =>
      rw [run] at one
      exact ih one
    next tr u run =>
      rw [run] at one
      exact kept.hart _ one
    next e u _ run =>
      rw [run] at one
      split
      · exact one
      · exact kept.hart _ (holdUnit_units kept none u holds)

theorem memLoop_units {f : Nat → M Unit} (each : ∀ i, Keeps P (f i)) (is : List Nat) (holds : P s) :
    EndsIn P (memLoop f is) s := by
  cases is with
  | nil => exact modHart_units kept _ holds
  | cons i is =>
    have one := each i s holds
    unfold EndsIn at one ⊢
    simp only [memLoop]
    split
    next u run =>
      rw [run] at one
      exact memRest_units kept each is one
    next tr u run =>
      rw [run] at one
      exact kept.hart _ one
    next e u _ run => rwa [run] at one

theorem locateAll_units (fam : Fam) (acc : Acc) (eb i : Nat) (fs : List (VName × Word)) (holds : P s) :
    EndsIn P (locateAll fam acc eb i fs) s := by
  induction fs generalizing s with
  | nil => exact ends_pure holds _
  | cons f fs ih =>
    exact ends_bind (locate_units kept _ _ _ _ _ _ holds) fun _ _ hu => ends_bind (ih hu) fun _ _ hv => ends_pure hv _

theorem logFields_units (k i : Nat) (ps : List (VName × Word × Place)) (holds : P s) : EndsIn P (logFields k i ps) s := by
  unfold EndsIn logFields
  extract_lets es
  have log := logAccesses_units kept true es holds
  unfold EndsIn at log
  split
  next tr u run => rwa [run] at log
  · exact log

theorem loadElem_units (fam : Fam) (t : EType) (i : Nat) (fs : List (VName × Word)) : Keeps P (loadElem fam t i fs) :=
  fun _ holds => ends_bind (locateAll_units kept _ _ _ _ _ holds) fun _ _ h1 =>
    ends_bind (ends_forM (fun p _ hu => prepLoad_units kept p.2.2 _ _ _ hu) _ h1) fun _ _ h2 =>
    ends_bind (logFields_units kept _ _ _ h2) fun _ _ h3 =>
    ends_bind (ends_mapM (fun p _ hu => ends_bind (takeLoad_units kept p.2.2 _ _ _ _ _ hu) fun _ _ hv => ends_pure hv _) _ h3)
      fun _ _ h4 => modHart_units kept _ h4

theorem storeElem_units (fam : Fam) (t : EType) (u : Bool) (i : Nat) (fs : List (VName × Word)) :
    Keeps P (storeElem fam t u i fs) :=
  fun _ holds => ends_bind (ends_get_bind (ends_pure holds _)) fun _ _ h0 => ends_when h0 (ends_throw h0 _) fun _ h1 =>
    ends_bind (locateAll_units kept _ _ _ _ _ h1) fun _ _ h2 =>
    ends_bind (ends_forM (fun p _ hu => prepStore_units kept p.2.2 _ _ _ hu) _ h2) fun _ _ h3 =>
    ends_bind (logFields_units kept _ _ _ h3) fun _ _ h4 =>
    ends_forM (fun p _ hu => putStore_units kept p.2.2 _ _ _ _ _ _ hu) _ h4

/-! ### Vector memory instructions (R178 to R183) -/

omit kept in
theorem getHart_units : Keeps P getHart := fun _ holds => ends_get_bind (ends_pure holds _)

omit kept in
theorem getConvoy_units : Keeps P getConvoy := fun _ holds => ends_get_bind (ends_pure holds _)

omit kept in
theorem require_units (p : Bool) : Keeps P (require p) :=
  fun _ holds => ends_ite (fun _ => ends_pure holds _) fun _ => ends_throw holds _

omit kept in
theorem readS_units (r : SReg) : Keeps P (readS r) :=
  fun s holds => ends_bind (getHart_units s holds) fun _ _ hu => ends_ite (fun _ => ends_pure hu _) fun _ =>
    ends_ite (fun _ => ends_throw hu _) fun _ => ends_pure hu _

omit kept in
theorem checkVec_units (t : EType) (rs : List VName) : Keeps P (checkVec t rs) :=
  fun s holds => ends_bind (getConvoy_units s holds) fun _ u hu => require_units _ u hu

omit kept in
theorem memElems_units (m : MName) : Keeps P (memElems m) := by
  intro s holds
  refine ends_bind (ends_bind (getHart_units s holds) fun _ u hu => ?_) fun _ u hu =>
    ends_bind (getConvoy_units u hu) fun _ v hv => ends_bind (getHart_units v hv) fun _ _ hw => ends_pure hw _
  unfold checkMask
  refine ends_bind (getHart_units u hu) fun _ v hv => ends_bind (getConvoy_units v hv) fun _ w hw => ?_
  split
  · exact ends_throw hw _
  · exact ends_pure hw _

/-- A loop of element accesses at addresses from a base register (R179). -/
theorem stride_units {v : VMem} {f : Word → Nat → M Unit} (each : ∀ base i, Keeps P (f base i)) :
    Keeps P (flushBefore do
      checkVec v.t [v.v]
      let base := (← readS v.a) + simm v.off
      memLoop (f base) (← memElems v.m)
      pure .next : M Ctl) :=
  fun _ holds => flushBefore_units kept (fun s holds => ends_bind (checkVec_units _ _ s holds) fun _ u hu =>
    ends_bind (readS_units _ u hu) fun _ v hv => ends_bind (memElems_units _ v hv) fun _ _ hw =>
    ends_bind (memLoop_units kept (each _) _ hw) fun _ _ hx => ends_pure hx _) holds

theorem opVld_units (x : VMem) : Keeps P (opVld x) := stride_units kept
  (f := fun base i => loadElem .unit x.t i [(x.v, unitEa base (tBytes x.t) i)]) fun _ _ => loadElem_units kept _ _ _ _

theorem opVst_units (x : VMem) : Keeps P (opVst x) := stride_units kept
  (f := fun base i => storeElem .unit x.t x.unord i [(x.v, unitEa base (tBytes x.t) i)])
  fun _ _ => storeElem_units kept _ _ _ _ _

/-- The same with a stride register. -/
theorem strided_units {v : VMemS} {f : Word → Word → Nat → M Unit} (each : ∀ base b i, Keeps P (f base b i)) :
    Keeps P (flushBefore do
      checkVec v.t [v.v]
      let base := (← readS v.a) + simm v.off
      let b ← readS v.b
      memLoop (f base b) (← memElems v.m)
      pure .next : M Ctl) :=
  fun _ holds => flushBefore_units kept (fun s holds => ends_bind (checkVec_units _ _ s holds) fun _ u hu =>
    ends_bind (readS_units _ u hu) fun _ v hv => ends_bind (readS_units _ v hv) fun _ w hw =>
    ends_bind (memElems_units _ w hw) fun _ _ hx => ends_bind (memLoop_units kept (each _ _) _ hx) fun _ _ hy =>
    ends_pure hy _) holds

theorem opVlds_units (x : VMemS) : Keeps P (opVlds x) := strided_units kept
  (f := fun base b i => loadElem .unit x.t i [(x.v, stridedEa base b i)]) fun _ _ _ => loadElem_units kept _ _ _ _

theorem opVsts_units (x : VMemS) : Keeps P (opVsts x) := strided_units kept
  (f := fun base b i => storeElem .unit x.t x.unord i [(x.v, stridedEa base b i)])
  fun _ _ _ => storeElem_units kept _ _ _ _ _

/-- The same with segments of several fields. -/
theorem segments_units {v : VMemG} {f : Convoy → Word → Nat → M Unit} (each : ∀ c base i, Keeps P (f c base i)) :
    Keeps P (flushBefore do
      checkVec v.t [v.v]
      let c ← getConvoy
      require (segFits v.v c.grpRegs (v.nf1.toNat + 1))
      let base := (← readS v.a) + simm v.off
      memLoop (f c base) (← memElems v.m)
      pure .next : M Ctl) :=
  fun _ holds => flushBefore_units kept (fun s holds => ends_bind (checkVec_units _ _ s holds) fun _ u hu =>
    ends_bind (getConvoy_units u hu) fun _ v hv => ends_bind (require_units _ v hv) fun _ w hw =>
    ends_bind (readS_units _ w hw) fun _ x hx => ends_bind (memElems_units _ x hx) fun _ _ hy =>
    ends_bind (memLoop_units kept (each _ _) _ hy) fun _ _ hz => ends_pure hz _) holds

theorem opVldg_units (x : VMemG) : Keeps P (opVldg x) := segments_units kept
  (f := fun c base i => loadElem .seg x.t i (segFields x.v c.grpRegs (x.nf1.toNat + 1) (tBytes x.t) base i))
  fun _ _ _ => loadElem_units kept _ _ _ _

theorem opVstg_units (x : VMemG) : Keeps P (opVstg x) := segments_units kept
  (f := fun c base i => storeElem .seg x.t x.unord i (segFields x.v c.grpRegs (x.nf1.toNat + 1) (tBytes x.t) base i))
  fun _ _ _ => storeElem_units kept _ _ _ _ _

omit kept in
theorem checkIndex_units (x : VMemX) (load : Bool) : Keeps P (checkIndex x load) :=
  fun s holds => ends_bind (checkVec_units _ _ s holds) fun _ u hu => ends_bind (getConvoy_units u hu) fun _ v hv =>
    ends_bind (require_units _ v hv) fun _ w hw => ends_ite (fun _ => require_units _ w hw) fun _ => ends_pure hw _

omit kept in
theorem checkIx_units (x : VMemX) (i : Nat) : Keeps P (checkIx x i) :=
  fun s holds => ends_bind (getHart_units s holds) fun _ _ hu => ends_ite (fun _ => ends_throw hu _) fun _ => ends_pure hu _

/-- The same at addresses from an index group. -/
theorem indexed_units {x : VMemX} {load : Bool} {f : Word → Hart → Nat → M Unit} (each : ∀ base h i, Keeps P (f base h i)) :
    Keeps P (flushBefore do
      checkIndex x load
      let base := (← readS x.a) + simm x.off
      memLoop (fun i => do
        checkIx x i
        f base (← getHart) i) (← memElems x.m)
      pure .next : M Ctl) :=
  fun _ holds => flushBefore_units kept (fun s holds => ends_bind (checkIndex_units _ _ s holds) fun _ u hu =>
    ends_bind (readS_units _ u hu) fun _ v hv => ends_bind (memElems_units _ v hv) fun _ _ hw =>
    ends_bind (memLoop_units kept (fun i y hy => ends_bind (checkIx_units x i y hy) fun _ z hz =>
      ends_bind (getHart_units z hz) fun _ a ha => each _ _ _ a ha) _ hw) fun _ _ hx => ends_pure hx _) holds

theorem opVldx_units (x : VMemX) : Keeps P (opVldx x) := indexed_units kept
  (f := fun base h i => loadElem .seg x.t i [(x.v, indexEa x base h i)]) fun _ _ _ => loadElem_units kept _ _ _ _

theorem opVstx_units (x : VMemX) : Keeps P (opVstx x) := indexed_units kept
  (f := fun base h i => storeElem .seg x.t x.unord i [(x.v, indexEa x base h i)])
  fun _ _ _ => storeElem_units kept _ _ _ _ _

theorem scatterScan_units (x : VMemX) (base : Word) (is : List Nat) : Keeps P (scatterScan x base is) := by
  induction is with
  | nil => exact fun _ holds => ends_pure holds _
  | cons i is ih =>
    intro s holds
    unfold EndsIn scatterScan
    extract_lets one
    have first_ : EndsIn P one s := ends_bind (checkIx_units x i s holds) fun _ u hu =>
      ends_bind (getHart_units u hu) fun _ v hv => ends_bind (locate_units kept _ _ _ _ _ _ hv) fun p w hw => by
        cases p with
        | local_ l => exact ends_pure hw _
        | remote => exact ends_throw hw _
    unfold EndsIn at first_
    generalize one s = r at *
    cases r with
    | ok l u =>
      have rest := ih u first_
      unfold EndsIn at rest
      dsimp only
      generalize scatterScan x base is u = r at *
      cases r with
      | ok a v => exact rest
      | error e v => exact rest
    | error e u => cases e <;> exact first_

theorem scatterGroup_units (x : VMemX) (va : Word) (low : Nat) (ms : List Nat) (l : Loc) :
    Keeps P (scatterGroup x va low ms l) := by
  intro s holds
  refine ends_bind (getHart_units s holds) fun _ u hu => ends_when hu (ends_throw hu _) fun v hv => ends_ite (fun _ => ?_)
    fun _ => ?_
  · exact ends_bind (deferRoom_units kept _ hv) fun _ _ hw => ends_bind (logOne_units kept _ _ _ _ hw) fun _ _ hx =>
      deferLocal_units kept _ _ _ _ _ _ hx
  · exact ends_bind (flushGranule_units kept _ hv) fun _ _ h1 => ends_bind (awaitOwn_units kept _ h1) fun _ _ h2 =>
      ends_bind (awaitLogged_units _ h2) fun _ _ h3 => ends_bind (checkData_units _ _ _ _ h3) fun _ _ h4 =>
      ends_bind (logOne_units kept _ _ _ _ h4) fun _ _ h5 => ends_bind (meter_units kept _ _ h5) fun _ _ h6 =>
      ends_modify (kept.poke _ _ h6)

theorem scatterLog_units (x : VMemX) (va : Word) (i : Nat) : Keeps P (scatterLog x va i) := by
  intro s holds
  have found := locate_units kept .seg .store va (tBytes x.t) (some i) none holds
  unfold EndsIn scatterLog at *
  split
  next l u run =>
    rw [run] at found
    exact logOne_units kept l 3 va (some i) found
  next u run => exact holds
  next e u run => exact holds

theorem opVstxa_units (x : VMemX) : Keeps P (opVstxa x) := by
  intro s holds
  refine flushBefore_units kept (fun s holds => ?_) holds
  refine ends_bind (checkIndex_units _ _ s holds) fun _ u hu => ends_bind (readS_units _ u hu) fun a v hv =>
    ends_bind (memElems_units _ v hv) fun act w hw => ends_bind (getConvoy_units w hw) fun c w1 h1 =>
    ends_bind (getHart_units w1 h1) fun h w2 h2 => ends_bind (scatterScan_units kept x _ _ w2 h2) fun r w3 h3 => ?_
  obtain ⟨ls, bad⟩ := r
  refine ends_bind (memLoop_units kept (fun i y hy => ?_) _ h3) fun _ w4 h4 => ?_
  · dsimp only
    split
    · exact scatterGroup_units kept _ _ _ _ _ y hy
    · exact scatterLog_units kept _ _ _ y hy
  · cases bad with
    | none => exact ends_pure h4 _
    | some b => exact ends_bind (modHart_units kept _ h4) fun _ _ h5 => ends_throw h5 _

/-! ### `ald` and `ast` (R198 to R200) -/

omit kept in
theorem boundAcc_units (a : AName) : Keeps P (boundAcc a) := by
  intro s holds
  refine ends_bind (getHart_units s holds) fun _ u hu => ?_
  split
  · exact ends_pure hu _
  · exact ends_throw hu _

omit kept in
theorem settleAcc_units (a : AName) : Keeps P (settleAcc a) :=
  fun s holds => ends_bind (getHart_units s holds) fun _ _ hu => ends_ite (fun _ => ends_throw hu _) fun _ => ends_pure hu _

omit kept in
theorem slotReady_units (n : Nat) (byChunk : Bool) (e : Option Nat) : Keeps P (slotReady n byChunk e) :=
  fun _ holds => ends_get_bind (ends_when holds (ends_throw holds _) fun _ hu =>
    ends_ite (fun _ => ends_pure hu _) fun _ => ends_throw hu _)

omit kept in
theorem tileLoad_units (va : Word) (n e : Nat) : Keeps P (tileLoad va n e) :=
  fun _ holds => ends_get_bind (ends_when holds (ends_throw holds _) fun _ hu => ends_pure hu _)

theorem tileStore_units (va : Word) (n v : Nat) : Keeps P (tileStore va n v) :=
  fun s holds => ends_modify (kept.frame (kept.write (tileKey s.coreId (va.toNat % 2 ^ 21)) (toBytes n v) holds) rfl rfl rfl)

theorem accLoad_units (t : EType) (va : Word) (e : Nat) : Keeps P (accLoad t va e) := by
  intro s holds
  unfold accLoad
  split
  · exact ends_when holds (ends_throw holds _) fun u hu => ends_bind (slotReady_units _ _ _ u hu) fun _ v hv =>
      tileLoad_units _ _ _ v hv
  · exact loadVa_units kept _ _ _ _ _ _ _ holds

theorem accStore_units (t : EType) (va : Word) (v e : Nat) : Keeps P (accStore t va v e) := by
  intro s holds
  unfold accStore
  split
  · exact ends_when holds (ends_throw holds _) fun u hu => ends_bind (slotReady_units _ _ _ u hu) fun _ v hv =>
      tileStore_units kept _ _ _ v hv
  · exact storeVa_units kept _ _ _ _ _ _ _ _ _ holds

omit kept in
theorem readScale_units (scaled : Bool) (r : SReg) : Keeps P (readScale scaled r) :=
  fun s holds => ends_ite (fun _ => ends_bind (readS_units r s holds) fun _ _ hu => ends_pure hu _) fun _ => ends_pure holds _

theorem opAldTo_units (n : Nat) (x : ALoad) : Keeps P (opAldTo n x) :=
  fun _ holds => flushBefore_units kept (fun s holds => ends_bind (boundAcc_units _ s holds) fun _ u1 h1 =>
    ends_bind (require_units _ u1 h1) fun _ u2 h2 => ends_bind (settleAcc_units _ u2 h2) fun _ u3 h3 =>
    ends_bind (readS_units _ u3 h3) fun _ u4 h4 => ends_bind (readS_units _ u4 h4) fun _ u5 h5 =>
    ends_bind (getHart_units u5 h5) fun _ _ h6 => ends_bind (memLoop_units kept (fun e v hv =>
      ends_bind (accLoad_units kept _ _ e v hv) fun _ _ hw => modHart_units kept _ hw) _ h6) fun _ _ h7 => ends_pure h7 _) holds

theorem opAstTo_units (n : Nat) (x : AStore) : Keeps P (opAstTo n x) :=
  fun _ holds => flushBefore_units kept (fun s holds => ends_bind (boundAcc_units _ s holds) fun _ u1 h1 =>
    ends_bind (require_units _ u1 h1) fun _ u2 h2 => ends_bind (settleAcc_units _ u2 h2) fun _ u3 h3 =>
    ends_bind (readS_units _ u3 h3) fun _ u4 h4 => ends_bind (readS_units _ u4 h4) fun _ u5 h5 =>
    ends_bind (readScale_units _ _ u5 h5) fun _ u6 h6 => ends_bind (getHart_units u6 h6) fun _ _ h7 =>
    ends_bind (memLoop_units kept (fun e _ hv => ends_when hv (ends_throw hv _) fun w hw =>
      ends_bind (accStore_units kept _ _ _ e w hw) fun _ _ hx => modHart_units kept _ hx) _ h7) fun _ _ h8 =>
    ends_pure h8 _) holds

/-! ### `stp` and `pam` (R174, R175) -/

theorem bankLoc_units (acc : Acc) (base : Word) (banked : Bool) (b : Nat) : Keeps P (bankLoc acc base banked b) :=
  fun _ holds => ends_when holds (ends_throw holds _) fun _ hu =>
    ends_bind (locate_units kept _ _ _ _ _ _ hu) fun p _ hw => by
      cases p with
      | local_ l => exact ends_pure hw _
      | remote => exact ends_throw hw _

theorem bankCheck_units (acc : Acc) (base : Word) (banked : Bool) (low : Loc) (b : Nat) :
    Keeps P (bankCheck acc base banked low b) :=
  fun s holds => ends_bind (bankLoc_units kept _ _ _ _ s holds) fun _ _ hu =>
    ends_ite (fun _ => ends_pure hu _) fun _ => ends_throw hu _

omit kept in
theorem bankScan_units {check : Nat → M Loc} (each : ∀ b, Keeps P (check b)) (bs : List Nat) : Keeps P (bankScan check bs) := by
  induction bs with
  | nil => exact fun _ holds => ends_pure holds _
  | cons b bs ih =>
    intro s holds
    have first_ := each b s holds
    unfold EndsIn at first_ ⊢
    simp only [bankScan]
    generalize check b s = r at *
    cases r with
    | ok l u =>
      have rest := ih u first_
      unfold EndsIn at rest
      dsimp only
      generalize bankScan check bs u = r at *
      cases r with
      | ok a v => exact rest
      | error e v => exact rest
    | error e u => cases e <;> exact first_

theorem bankStop_units {α : Type} (b : Nat) (tr : Trap) : Keeps P (bankStop b tr : M α) :=
  fun _ holds => ends_bind (modHart_units kept _ holds) fun _ _ hu => ends_throw hu _

theorem bankRun_units {perform : Nat → Loc → M Unit} (each : ∀ b l, Keeps P (perform b l)) (ls : List (Nat × Loc)) :
    Keeps P (bankRun perform ls) := by
  induction ls with
  | nil => exact fun _ holds => ends_pure holds _
  | cons p ls ih =>
    obtain ⟨b, l⟩ := p
    intro s holds
    have first_ := each b l s holds
    unfold EndsIn at first_ ⊢
    simp only [bankRun]
    generalize perform b l s = r at *
    cases r with
    | ok _ u => exact ih u first_
    | error e u =>
      cases e with
      | trap tr => exact bankStop_units kept b tr u first_
      | _ => exact first_

theorem bankLowest_units (base : Word) (banked : Bool) (b0 b1 : Nat) : Keeps P (bankLowest base banked b0 b1) := by
  intro s holds
  unfold EndsIn bankLowest
  extract_lets stopAt
  have stops : ∀ b r, P (endState r) → P (endState (stopAt b r)) := fun b r hr => by
    cases r with
    | ok l u => exact hr
    | error e u =>
      cases e with
      | trap tr => exact bankStop_units kept b tr u hr
      | _ => exact hr
  have bank : ∀ b u, P u → P (endState (bankLoc .store base banked b u)) := bankLoc_units kept _ _ _
  split
  · exact stops _ _ (bank _ _ holds)
  · have first_ := stops b1 _ (bank b1 _ holds)
    generalize stopAt b1 (bankLoc .store base banked b1 s) = r at *
    cases r with
    | ok _ u => exact bank _ _ first_
    | error e u => exact first_

theorem bankLoop_units (k : Nat) (base set : Word) (banked : Bool) (upTo : Nat) {ready perform : Nat → Loc → M Unit}
    (prepares : ∀ b l, Keeps P (ready b l)) (performs : ∀ b l, Keeps P (perform b l)) :
    Keeps P (bankLoop k base set banked upTo ready perform) := by
  intro s holds
  refine ends_bind (getHart_units s holds) fun h u hu => ?_
  dsimp only
  split
  · exact ends_bind (modHart_units kept _ hu) fun _ _ hv => ends_pure hv _
  next b1 todo _ =>
    refine ends_bind (bankLowest_units kept _ _ _ _ u hu) fun low v hv => ends_bind (bankScan_units
      (fun b w hw => ends_bind (bankCheck_units kept _ _ _ _ _ w hw) fun l x hx => ends_bind (prepares b l x hx)
        fun _ _ hy => ends_pure hy _) _ v hv) fun r w hw => ?_
    obtain ⟨ls, bad⟩ := r
    refine ends_bind (logAccesses_units kept _ _ hw) fun _ x hx => ends_bind (bankRun_units kept performs _ x hx)
      fun _ y hy => ?_
    cases bad with
    | none => exact ends_bind (modHart_units kept _ hy) fun _ _ hz => ends_pure hz _
    | some b => exact ends_bind (bankStop_units kept _ _ y hy) fun _ _ hz => ends_pure hz _

theorem bankWait_units (l : Loc) : Keeps P (bankWait l) :=
  fun _ holds => ends_bind (awaitOwn_units kept _ holds) fun _ _ hu => awaitLogged_units _ hu

omit kept in
theorem bankFence_units (base : Word) (banked : Bool) (b : Nat) (l : Loc) : Keeps P (bankFence base banked b l) :=
  fun _ holds => ends_get_bind (ends_ite (fun _ => ends_throw holds _) fun _ => ends_pure holds _)

omit kept in
theorem bankData_units (base : Word) (banked : Bool) (b : Nat) (l : Loc) : Keeps P (bankData base banked b l) := by
  intro s holds
  refine ends_get_bind ?_
  split
  · exact ends_throw holds _
  · exact ends_pure holds _

theorem opStpTo_units (n : Nat) (x : PStore) : Keeps P (opStpTo n x) :=
  fun _ holds => flushBefore_units kept (fun s holds => ends_bind (readS_units _ s holds) fun _ u hu =>
    ends_bind (readS_units _ u hu) fun _ v hv => ends_bind (readS_units _ v hv) fun _ w hw =>
    bankLoop_units kept _ _ _ _ _
      (fun b l _ hx => ends_bind (flushGranule_units kept _ hx) fun _ y hy => ends_bind (bankWait_units kept l y hy)
        fun _ z hz => bankFence_units _ _ b l z hz)
      (fun _ _ _ hx => ends_bind (meter_units kept _ _ hx) fun _ _ hy => ends_modify (kept.poke _ _ hy)) w hw) holds

theorem opPamTo_units (n : Nat) (x : PAtomic) : Keeps P (opPamTo n x) :=
  fun _ holds => flushBefore_units kept (fun s holds => ends_bind (readS_units _ s holds) fun _ u hu =>
    ends_bind (readS_units _ u hu) fun _ v hv => ends_bind (readS_units _ v hv) fun _ w hw =>
    ends_bind (getHart_units w hw) fun _ x hx => bankLoop_units kept _ _ _ _ _
      (fun b l _ hx => ends_ite (fun _ => deferRoom_units kept _ hx) fun _ => ends_bind (flushGranule_units kept _ hx)
        fun _ y hy => ends_bind (bankWait_units kept l y hy) fun _ z hz => bankData_units _ _ b l z hz)
      (fun _ _ _ hx => ends_ite (fun _ => deferLocal_units kept _ _ _ _ _ _ hx) fun _ =>
        ends_bind (meter_units kept _ _ hx) fun _ _ hy => ends_modify (kept.poke _ _ hy)) x hx) holds

end

end Sys2Proof.Machine
end

section
/-! PROOFS. R160, R312, R313, R325, R359 to R364: reset, power, the clock, and errors. -/

namespace Sys2Proof.Machine

section
variable {s t : State} {P : State → Prop} {core g j : Nat}

/-! ### Reset and boot (R359) -/

theorem cleared_vault {k : Nat} (vault : isVault k = true) : memRead s.cleared.mem k = 0 := by
  have outside : isDepot k = false := by
    unfold isVault isDepot at *
    simp only [decide_eq_true_eq, Bool.and_eq_false_iff, decide_eq_false_iff_not] at *
    omega
  exact memRead_filter_dropped (depotKeeps _) s.mem (by rw [depotKeeps, outside, Bool.false_and])

section
variable (on : s.power ≠ .off) (sound : s.bootFail = 0)
include on sound

theorem bootPhaseAdvance_goesOn (early : s.bootPhase < 5) :
    ∃ t, exec (.bootPhaseAdvance 0) s = .next t ∧ t.bootPhase = s.bootPhase + 1 ∧ t.bootFail = 0
      ∧ t.regions = s.regions ∧ (s.bootPhase ≠ 3 → t.mem = s.mem) ∧ (s.bootPhase = 2 → t.staging.pct ≤ 50)
      ∧ (s.bootPhase = 3 → t.poison = []
        ∧ ∀ k : Nat, memRead t.mem k = if k < 2 ^ 38 then 0 else memRead s.mem k)
      ∧ (s.bootPhase = 4 → t.measured.length = 4) := by
  have going : ¬ (s.power = .off ∨ 5 ≤ s.bootPhase ∨ s.bootFail ≠ 0) := by
    simp only [not_or, not_le, ne_eq, not_not]
    exact ⟨on, early, sound⟩
  refine ⟨_, rfl, ?_⟩
  rw [if_neg going, if_neg (fun h => h rfl)]
  by_cases second : s.bootPhase = 2
  · rw [if_pos second, second]
    exact ⟨rfl, sound, rfl, fun _ => rfl, fun _ => Nat.min_le_right _ _, fun h => absurd h (by decide),
      fun h => absurd h (by decide)⟩
  rw [if_neg second]
  by_cases third : s.bootPhase = 3
  · dsimp only
    rw [if_pos third]
    refine ⟨rfl, sound, rfl, fun h => absurd third h, fun h => absurd h second, fun _ => ⟨rfl, fun k => ?_⟩, fun h => ?_⟩
    · split
      next vault => exact memRead_memClear_in _ (Nat.zero_le _) (by omega)
      next beyond => exact memRead_memClear_out _ _ _ _ (by omega)
    · exact absurd (third.symm.trans h) (by decide)
  dsimp only
  rw [if_neg third]
  by_cases fourth : s.bootPhase = 4
  · rw [if_pos fourth]
    exact ⟨rfl, sound, rfl, fun _ => rfl, fun h => absurd h second, fun h => absurd h third, fun _ => rfl⟩
  · rw [if_neg fourth]
    exact ⟨rfl, sound, rfl, fun _ => rfl, fun h => absurd h second, fun h => absurd h third, fun h => absurd h fourth⟩

theorem bootPhaseAdvance_fails {f : BitVec 4} (early : s.bootPhase < 5) (failure : f ≠ 0) (may : bootMayFail s.bootPhase f = true) :
    exec (.bootPhaseAdvance f) s = .next { s with bootFail := f } := by
  have going : ¬ (s.power = .off ∨ 5 ≤ s.bootPhase ∨ s.bootFail ≠ 0) := by
    simp only [not_or, not_le, ne_eq, not_not]
    exact ⟨on, early, sound⟩
  change execBootPhaseAdvance f s = _
  unfold execBootPhaseAdvance
  rw [if_neg going, if_pos failure, if_pos may]

end

theorem bootPhaseAdvance_stopped (failed : s.bootFail ≠ 0) (f : BitVec 4) : exec (.bootPhaseAdvance f) s = .next s := by
  change execBootPhaseAdvance f s = _
  unfold execBootPhaseAdvance
  rw [if_pos (.inr (.inr failed))]

/-! ### Idle and the clock (R362, R363) -/

theorem idleEntry_delays (active : s.power = .active) (ready : s.bootPhase = 5) (rests : s.atWork = false) :
    exec .idleEntry s = .next (if s.activeAt + 10000000 ≤ s.now then { s with power := .idle } else s) := by
  change execIdleEntry s = _
  unfold execIdleEntry
  simp only [active, ready, rests, Bool.not_false, true_and]
  rfl

theorem clockStep_steps (on : s.power ≠ .off) (up : Bool) : ∃ t, exec (.clockStep up) s = .next t
    ∧ t = { s with clockMHz := t.clockMHz } ∧ (up = true → s.clockMHz + 125 ≤ 2500 → t.clockMHz = s.clockMHz + 125)
    ∧ (up = false → 1375 ≤ s.clockMHz → t.clockMHz = s.clockMHz - 125)
    ∧ (1250 ≤ s.clockMHz → 1250 ≤ t.clockMHz) ∧ (s.clockMHz ≤ 2500 → t.clockMHz ≤ 2500) := by
  refine ⟨_, rfl, ?_⟩
  rw [if_neg on]
  cases up with
  | true =>
    rw [if_pos rfl]
    split
    next room =>
      exact ⟨rfl, fun _ _ => rfl, fun h => absurd h (by decide), fun h => Nat.le_trans h (Nat.le_add_right ..), fun _ => room⟩
    next full => exact ⟨rfl, fun _ h => absurd h full, fun h => absurd h (by decide), id, id⟩
  | false =>
    rw [if_neg Bool.false_ne_true]
    split
    next room =>
      exact ⟨rfl, fun h => absurd h (by decide), fun _ _ => rfl, fun _ => by dsimp only; omega, fun h => by dsimp only; omega⟩
    next low => exact ⟨rfl, fun h => absurd h (by decide), fun _ h => absurd h low, id, id⟩

/-! ### Soft errors (R160, R313) -/

theorem mcWrite_head (e : BitVec 256) (s : State) : (mcWrite e s).mclog.head? = some e := by
  obtain ⟨_, _, _, _, _, frame⟩ := mcWrite_frame e s
  rw [frame]
  rfl

theorem mcWrite_keeps (frame : ∀ u : State, u.harts = s.harts → u.cores = s.cores → u.mem = s.mem → P u) (e : BitVec 256) :
    P (mcWrite e s) := by
  obtain ⟨_, _, _, _, _, same⟩ := mcWrite_frame e s
  exact frame _ (by rw [same]) (by rw [same]) (by rw [same])

theorem mcWrite_parts (e : BitVec 256) (s : State) :
    (mcWrite e s).harts = s.harts ∧ (mcWrite e s).mem = s.mem ∧ (mcWrite e s).poison = s.poison := by
  obtain ⟨_, _, _, _, _, same⟩ := mcWrite_frame e s
  rw [same]
  exact ⟨rfl, rfl, rfl⟩

section
variable (vault : isVault (g * 32) = true)
include vault

theorem dramEccError_poisons :
    ∃ t, exec (.dramEccError g true) s = .next t ∧ g ∈ t.poison ∧ t.mem = s.mem ∧ t.harts = s.harts
      ∧ t.mclog.head? = some (mcEntry s.cycle (BitVec.ofNat 64 (g * 32)) 2 0 0 (granuleBank g).1 (granuleBank g).2) := by
  refine ⟨_, rfl, ?_⟩
  rw [vault, Bool.not_true, if_neg Bool.false_ne_true]
  obtain ⟨harts, mem, poison⟩ := mcWrite_parts (mcEntry s.cycle (BitVec.ofNat 64 (g * 32)) 2 0 0 (granuleBank g).1
    (granuleBank g).2) (if true = true ∧ (!s.poison.contains g) = true then { s with poison := g :: s.poison } else s)
  refine ⟨?_, mem.trans ?_, harts.trans ?_, mcWrite_head _ _⟩
  · refine poison.symm ▸ ?_
    split
    · exact List.mem_cons_self
    next marked => simpa using marked
  · split <;> rfl
  · split <;> rfl

theorem dramEccError_corrects :
    ∃ t, exec (.dramEccError g false) s = .next t ∧ t.poison = s.poison ∧ t.mem = s.mem ∧ t.harts = s.harts := by
  refine ⟨_, rfl, ?_⟩
  rw [vault, Bool.not_true, if_neg Bool.false_ne_true]
  obtain ⟨harts, mem, poison⟩ := mcWrite_parts (mcEntry s.cycle (BitVec.ofNat 64 (g * 32)) 1 0 0 (granuleBank g).1
    (granuleBank g).2) s
  exact ⟨poison, mem, harts⟩

end

theorem poisonHart_marks {h : Hart} (r : RegSite) (there : mget s.harts g = some h) :
    r ∈ ((poisonHart g r s).hartOf g).poison ∧ (poisonHart g r s).mem = s.mem
      ∧ ∀ g', g' ≠ g → mget (poisonHart g r s).harts g' = mget s.harts g' := by
  unfold poisonHart
  simp only [there]
  split
  next marked =>
    refine ⟨?_, rfl, fun _ _ => rfl⟩
    rw [State.hartOf, there]
    simpa using marked
  · refine ⟨?_, rfl, fun g' other => ?_⟩
    · rw [State.setHartOf_same]
      exact List.mem_cons_self
    · rw [State.setHartOf, mget_mset, if_neg (Ne.symm other)]

section
variable {h : Hart} (there : mget s.harts g = some h) (r : RegSite)
include there

theorem registerEccError_poisons : ∃ t, exec (.registerEccError (.hart g r) true) s = .next t ∧ r ∈ (t.hartOf g).poison
    ∧ t.mem = s.mem ∧ t.mclog.head? = some (mcEntry s.cycle 0 3 0 g (g / 8) 0)
    ∧ (∀ g', g' ≠ g → mget t.harts g' = mget s.harts g') := by
  have run : exec (.registerEccError (.hart g r) true) s = .next (mcWrite (mcEntry s.cycle 0 3 0 g (g / 8) 0) (poisonHart g r s)) := by
    change execRegisterEccError (.hart g r) true s = _
    unfold execRegisterEccError siteExists
    simp only [there, Option.isSome_some, Bool.not_true, Bool.false_eq_true, if_false, if_true]
    rfl
  obtain ⟨marked, mem, others⟩ := poisonHart_marks r there
  obtain ⟨harts, memory, -⟩ := mcWrite_parts (mcEntry s.cycle 0 3 0 g (g / 8) 0) (poisonHart g r s)
  refine ⟨_, run, ?_, memory.trans mem, mcWrite_head _ _, fun g' other => ?_⟩
  · rwa [State.hartOf, harts]
  · rw [harts]
    exact others g' other

theorem registerEccError_corrects : ∃ t, exec (.registerEccError (.hart g r) false) s = .next t ∧ t.harts = s.harts
    ∧ t.mem = s.mem := by
  have run : exec (.registerEccError (.hart g r) false) s = .next (mcWrite (mcEntry s.cycle 0 1 0 g (g / 8) 0) s) := by
    change execRegisterEccError (.hart g r) false s = _
    unfold execRegisterEccError siteExists
    simp only [there, Option.isSome_some, Bool.not_true, Bool.false_eq_true, if_false]
    rfl
  obtain ⟨harts, mem, -⟩ := mcWrite_parts (mcEntry s.cycle 0 1 0 g (g / 8) 0) s
  exact ⟨_, run, harts, mem⟩

end

/-! ### A vertical link fails (R312) -/

/-- Hart `j` is there and has not ended. -/
def State.Lives (j : Nat) (s : State) : Prop := ∃ h, mget s.harts j = some h ∧ isEnding h = false

theorem lives_setHartOf {h : Hart} (other : g ≠ j) (lives : s.Lives j) : (s.setHartOf g h).Lives j := by
  obtain ⟨x, there, live⟩ := lives
  exact ⟨x, by rw [State.setHartOf, mget_mset, if_neg other, there], live⟩

theorem lives_wakeMonitors (k n : Nat) (lives : s.Lives j) : (wakeMonitors k n s).Lives j := by
  obtain ⟨x, there, live⟩ := lives
  unfold wakeMonitors
  split
  · refine ⟨_, (mget_map _ (fun p => ?_) _ _).trans (congrArg _ there), ?_⟩
    · split
      · split <;> rfl
      · rfl
    · dsimp only
      split
      · split
        · exact live
        · exact live
      · exact live
  · exact ⟨x, there, live⟩

theorem wakeMonitors_cur (k n : Nat) (s : State) : (wakeMonitors k n s).cur = s.cur := by
  unfold wakeMonitors
  split <;> rfl

/-- Hart `j` is there and has not ended, while another hart is current. -/
structure State.Beside (g j : Nat) (s : State) : Prop where
  cur : s.cur = g
  lives : s.Lives j

theorem beside_units (other : g ≠ j) : KeptByUnits (State.Beside g j) where
  frame beside harts cur _ := ⟨cur.trans beside.cur, by
    have lives := beside.lives
    rwa [State.Lives, ← harts] at lives⟩
  hart _ beside := ⟨beside.cur, lives_setHartOf (beside.cur ▸ other) beside.lives⟩
  write _ _ beside := ⟨beside.cur, beside.lives⟩
  poke k bs beside := by
    unfold pokeBytes
    refine ⟨(wakeMonitors_cur _ _ _).trans ?_, lives_wakeMonitors _ _ ?_⟩
    · split <;> exact beside.cur
    · split <;> exact beside.lives

theorem accessBelow_units (kept : KeptByUnits P) {i : Instr} {n top : Nat} {h : Hart} {op : M Ctl} {bank : Bool}
    (below : accessBelow i n h = some (op, bank, top)) : Keeps P op := by
  have limited {op : M Ctl} (each : Keeps P op) : Keeps P (do modCsr fun x => { x with vl := n }; op) :=
    fun _ holds => ends_bind (modHart_units kept _ holds) fun _ u hu => each u hu
  unfold accessBelow at below
  split at below <;> cases below
  · exact limited (opVld_units kept _)
  · exact limited (opVlds_units kept _)
  · exact limited (opVldg_units kept _)
  · exact limited (opVldx_units kept _)
  · exact limited (opVst_units kept _)
  · exact limited (opVsts_units kept _)
  · exact limited (opVstg_units kept _)
  · exact limited (opVstx_units kept _)
  · exact limited (opVstxa_units kept _)
  · exact opAldTo_units kept _ _
  · exact opAstTo_units kept _ _
  · exact opStpTo_units kept _ _
  · exact opPamTo_units kept _ _

theorem commitBelow_lives {n : Nat} (other : g ≠ j) (lives : s.Lives j) (commits : commitBelow g n s = some t) : t.Lives j := by
  unfold commitBelow at commits
  dsimp only at commits
  have fetched := fetchUnit_walked { s with cur := g }
  split at commits
  next i u run =>
    rw [run] at fetched
    have beside : State.Beside g j u := walkedTo_units (beside_units other) (s := { s with cur := g }) ⟨rfl, lives⟩ u fetched
    split at commits
    · cases commits
    next op bank top below =>
      have kept := accessBelow_units (beside_units other) below u beside
      unfold EndsIn at kept
      obtain ⟨-, commits⟩ := Option.ite_none_left_eq_some.mp commits
      generalize op u = r at *
      cases r with
      | error e v => cases commits
      | ok c v =>
        obtain rfl := Option.some.inj commits
        exact lives_setHartOf (kept.cur ▸ other) kept.lives
  · cases commits

/-- The hart has its trap record of a failed link. -/
def LinkFault (addr : Word) (elem : Nat) (x : Csrs) : Prop := x.xcause = 0x15 ∧ x.xaddr = addr ∧ x.xelem = BitVec.ofNat 14 elem

theorem linkTrap_lives (elem : Nat) (addr : Word) (lives : s.Lives j) : ∃ h, mget (linkTrap g elem addr s).harts j = some h
    ∧ isEnding h = false ∧ (g = j → LinkFault addr elem h.csr) := by
  unfold linkTrap
  obtain ⟨x, there, live⟩ := id lives
  by_cases own : g = j
  · subst own
    simp only [there, live, Bool.false_eq_true, if_false]
    exact ⟨_, mget_mset_self .., rfl, fun _ => ⟨rfl, rfl, rfl⟩⟩
  · suffices kept : (linkTrap g elem addr s).Lives j by
      obtain ⟨y, at_, goes⟩ := kept
      exact ⟨y, at_, goes, fun same => absurd same own⟩
    unfold linkTrap
    split
    · exact lives
    · split
      · exact lives
      · refine lives_setHartOf own ?_
        split
        · exact lives_setHartOf own lives
        · cases commits : commitBelow g elem s with
          | none => exact lives
          | some t => exact commitBelow_lives own lives commits

/-- The hart ends with a status, its registers of control as they were. -/
def StoppedWith (status : BitVec 8) (x : Csrs) (h : Hart) : Prop := h.status = .ending status 1 ∧ h.csr = x

theorem stoppedWith_kept (status : BitVec 8) (x : Csrs) : HartKept (StoppedWith status x) where
  armed _ _ holds := holds
  masks _ _ holds := holds

theorem fenceHart_keeps {x : Csrs} (i : Nat) (has : s.HartHas j (StoppedWith 0x15 x)) :
    (fenceHart s i).HartHas j (StoppedWith 0x15 x) := by
  unfold fenceHart
  split
  · exact has
  next h there =>
    split
    · exact has
    next live =>
      have other : i ≠ j := fun same => live (by
        have own := has.hartOf
        rw [State.hartOf, ← same, there, Option.getD_some] at own
        rw [isEnding, own.1])
      refine State.HartHas.of_harts ?_ (mcWrite_parts _ _).1
      unfold stopHart
      simp only [there, live, Bool.false_eq_true, if_false]
      exact State.HartHas.setHartOf (has.of_harts (withdraw_parts i s).1) other _

theorem fenceHart_stops {h : Hart} (there : mget s.harts j = some h) (live : isEnding h = false) :
    (fenceHart s j).HartHas j (StoppedWith 0x15 h.csr) := by
  unfold fenceHart stopHart
  simp only [there, live, Bool.false_eq_true, if_false]
  refine State.HartHas.of_harts (hartHas_setHartOf ⟨rfl, ?_⟩) (mcWrite_parts _ _).1
  rw [State.hartOf, (withdraw_parts j s).1, there]
  rfl

theorem fenceHart_other {i : Nat} (other : i ≠ j) : mget (fenceHart s i).harts j = mget s.harts j := by
  unfold fenceHart
  split
  · rfl
  · split
    · rfl
    · rw [(mcWrite_parts _ _).1, stopHart_other _ other]

theorem fenceHarts_stop {h : Hart} (live : isEnding h = false) {js : List Nat} (mem : j ∈ js)
    (there : mget s.harts j = some h) : (js.foldl fenceHart s).HartHas j (StoppedWith 0x15 h.csr) := by
  induction js generalizing s with
  | nil => cases mem
  | cons i js ih =>
    by_cases own : i = j
    · subst own
      exact foldl_keeps (fun _ _ has => fenceHart_keeps _ has) js (fenceHart_stops there live)
    · exact ih ((List.mem_cons.mp mem).resolve_left (Ne.symm own)) ((fenceHart_other own).trans there)

theorem withdraw_cores (i : Nat) (s : State) : (withdraw i s).cores = s.cores := by
  have bar : (withdrawBar i s).cores = s.cores := by
    unfold withdrawBar
    dsimp only
    split <;> rfl
  unfold withdraw withdrawCbar
  dsimp only
  split <;> exact bar

theorem fenceHart_cores (i : Nat) (s : State) : (fenceHart s i).cores = s.cores := by
  unfold fenceHart
  split
  · rfl
  next h there =>
    split
    · rfl
    next live =>
      obtain ⟨_, _, _, _, _, same⟩ := mcWrite_frame (mcEntry s.cycle h.csr.xaddr 7 0x15 i (i / 8) 0) (stopHart 0x15 s i)
      rw [same]
      unfold stopHart
      simp only [there, live, Bool.false_eq_true, if_false]
      exact withdraw_cores i s

/-- The core is cut off. -/
def Fenced (core : Nat) (s : State) : Prop := (s.coreOf core).fenced = true

theorem fenced_setCoreOf {n : Nat} {c : Core} (same : c.fenced = (s.coreOf n).fenced) (fenced : Fenced core s) :
    Fenced core (s.setCoreOf n c) := by
  unfold Fenced at *
  by_cases own : n = core
  · subst own
    rw [State.setCoreOf_same, same, fenced]
  · rwa [State.setCoreOf_other _ _ _ _ own]

theorem filteredPosts_coreOf (s : State) (f : Nat → Post → Bool) (n : Nat) :
    State.coreOf { s with cores := s.cores.map fun c => (c.1, { c.2 with posts := c.2.posts.filter (f c.1) }) } n
      = { s.coreOf n with posts := (s.coreOf n).posts.filter (f n) } := by
  unfold State.coreOf
  rw [mget_map (fun c : Nat × Core => (c.1, { c.2 with posts := c.2.posts.filter (f c.1) })) (fun _ => rfl)]
  cases mget s.cores n <;> rfl

theorem fenced_kept (core : Nat) : KeptByWork (Fenced core) where
  frame fenced _ cores _ := by rwa [Fenced, State.coreOf, cores]
  poke _ _ _ _ fenced := by rwa [Fenced, State.coreOf, pokeN_cores]
  clear _ _ _ fenced := fenced
  core _ _ _ same _ := fenced_setCoreOf same
  work _ _ _ same := fenced_setCoreOf same
  posts s f fenced := (congrArg Core.fenced (filteredPosts_coreOf s f core)).trans fenced
  masks _ _ _ fenced := fenced

/-- The core is cut off, and nothing is queued on it. -/
structure LostPosts (core : Nat) (s : State) : Prop where
  fenced : Fenced core s
  posts : (s.coreOf core).posts = []

theorem lostPosts_kept (core : Nat) : KeptByReports (LostPosts core) where
  frame lost _ cores _ := ⟨by rw [Fenced, State.coreOf, cores]; exact lost.fenced, by rw [State.coreOf, cores]; exact lost.posts⟩
  poke _ _ _ _ lost :=
    ⟨by rw [Fenced, State.coreOf, pokeN_cores]; exact lost.fenced, by rw [State.coreOf, pokeN_cores]; exact lost.posts⟩
  clear _ _ _ lost := ⟨lost.fenced, lost.posts⟩
  core s n c fenced posts lost := ⟨fenced_setCoreOf fenced lost.fenced, by
    by_cases own : n = core
    · subst own
      rw [State.setCoreOf_same, posts, lost.posts]
    · rw [State.setCoreOf_other _ _ _ _ own, lost.posts]⟩

theorem loseCore_loses (fenced : Fenced core s) : Fenced core (loseCore core s) ∧ ((loseCore core s).coreOf core).tiles = []
    ∧ ((loseCore core s).coreOf core).windows = [] ∧ ((loseCore core s).coreOf core).posts = [] := by
  unfold loseCore
  extract_lets stopped without
  have cut : Fenced core stopped := stopTransfers_keeps (fenced_kept core) _ _ fenced
  have lost : LostPosts core without := by
    refine failPosts_reports (lostPosts_kept core) _ _ ?_
    have posts := filteredPosts_coreOf stopped (fun n _ => !(n == core)) core
    refine ⟨(congrArg Core.fenced posts).trans cut, (congrArg Core.posts posts).trans ?_⟩
    simp
  have same : (without.setCoreOf core { without.coreOf core with tiles := [], tilePoison := [], windows := [] }).coreOf core
      = { without.coreOf core with tiles := [], tilePoison := [], windows := [] } := State.setCoreOf_same ..
  exact ⟨(congrArg Core.fenced same).trans lost.fenced, congrArg Core.tiles same, congrArg Core.windows same,
    (congrArg Core.posts same).trans lost.posts⟩

theorem loseCore_harts {p : Hart → Prop} (own : HartKept p) (has : s.HartHas j p) : (loseCore core s).HartHas j p :=
  State.HartHas.of_harts (failPosts_keeps (hartHas_kept own) _ _ (stopTransfers_keeps (hartHas_kept own) _ _ has)) rfl

/-- The core is cut off, which the machine-check log records, and its harts end. -/
def State.cutOff (s : State) (core : Nat) (e : BitVec 256) : State :=
  ((List.range 8).map fun k => 8 * core + k).foldl fenceHart
    (mcWrite e (s.setCoreOf core { s.coreOf core with fenced := true }))

theorem cutOff_fenced (core : Nat) (e : BitVec 256) (s : State) : Fenced core (s.cutOff core e) := by
  refine foldl_keeps (P := Fenced core) (fun u i held => ?_) _ (mcWrite_keeps (fun u _ cores _ => ?_) e)
  · rwa [Fenced, State.coreOf, fenceHart_cores]
  · rw [Fenced, State.coreOf, cores]
    exact congrArg Core.fenced (State.setCoreOf_same ..)

theorem cutOff_stops {k : Nat} {h : Hart} (e : BitVec 256) (below : k < 8) (there : mget s.harts (8 * core + k) = some h)
    (live : isEnding h = false) : (s.cutOff core e).HartHas (8 * core + k) (StoppedWith 0x15 h.csr) :=
  fenceHarts_stop live (List.mem_map.mpr ⟨k, List.mem_range.mpr below, rfl⟩)
    ((congrArg (mget · _) (mcWrite_parts e (s.setCoreOf core { s.coreOf core with fenced := true })).1).trans there)

/-- The element whose data did not arrive has trapped, where it is one of the core. -/
def State.linkTrapped (s : State) (core g elem : Nat) (addr : Word) : State :=
  if g / 8 = core then linkTrap g elem addr s else s

theorem verticalLinkFailure_run {elem : Nat} {addr : Word} (small : core < 256) (whole : (s.coreOf core).fenced = false) :
    exec (.verticalLinkFailure core g elem addr) s = .next (loseCore core ((s.linkTrapped core g elem addr).cutOff core
      (mcEntry s.cycle (BitVec.ofNat 64 (core * 2 ^ 30)) 4 0x15 0 core 0))) := by
  have acts : ¬ (256 ≤ core ∨ (s.coreOf core).fenced = true) := by
    rw [whole]
    exact fun or_ => or_.elim (Nat.not_le.mpr small) Bool.false_ne_true
  change execVerticalLinkFailure core g elem addr s = _
  unfold execVerticalLinkFailure
  rw [if_neg acts]
  rfl

theorem verticalLinkFailure_ends {k elem : Nat} {addr : Word} {h : Hart} (e : BitVec 256) (below : k < 8)
    (there : mget s.harts (8 * core + k) = some h) (live : isEnding h = false) :
    let t := loseCore core ((s.linkTrapped core g elem addr).cutOff core e)
    (t.hartOf (8 * core + k)).status = .ending 0x15 1
      ∧ (g = 8 * core + k → LinkFault addr elem (t.hartOf g).csr) := by
  have trapped : ∃ x, mget (s.linkTrapped core g elem addr).harts (8 * core + k) = some x ∧ isEnding x = false
      ∧ (g = 8 * core + k → LinkFault addr elem x.csr) := by
    unfold State.linkTrapped
    split
    next own => exact linkTrap_lives elem addr ⟨h, there, live⟩
    next away => exact ⟨h, there, live, fun own => absurd (by omega) away⟩
  obtain ⟨x, present, goes, fault⟩ := trapped
  obtain ⟨status, csr⟩ := (loseCore_harts (core := core) (stoppedWith_kept 0x15 x.csr)
    (cutOff_stops e below present goes)).hartOf
  refine ⟨status, fun own => ?_⟩
  subst own
  rw [csr]
  exact fault rfl

end

/-- Settles O47. -/
theorem packageErrorEvents : Obligations.PackageErrorEvents := by
  unfold Obligations.PackageErrorEvents
  refine ⟨fun s => ⟨⟨_, rfl, rfl, rfl, rfl, rfl, rfl, rfl, fun k vault => cleared_vault vault⟩, ?_, fun on sound =>
    ⟨fun early => bootPhaseAdvance_goesOn on sound early, fun second f mem => ?_, fun early =>
      bootPhaseAdvance_fails on sound early (by decide) (by simp [bootMayFail, early])⟩,
    fun on failed f => bootPhaseAdvance_stopped failed f, idleEntry_delays, fun idle => ?_, clockStep_steps⟩,
    fun s core => ⟨fun g vault => ?_, fun _ => rfl, fun g h r there =>
      ⟨registerEccError_poisons there r, registerEccError_corrects there r⟩, fun n small at_ => ?_,
      fun b n es cached at_ => ?_, fun small => ?_, fun g elem addr small whole => ?_⟩⟩
  · simp only [List.mem_cons, List.not_mem_nil, or_false, forall_eq_or_imp, forall_eq]
    exact ⟨⟨_, rfl, rfl, rfl, rfl⟩, ⟨_, rfl, rfl, rfl, rfl⟩⟩
  · simp only [List.mem_cons, List.not_mem_nil, or_false] at mem
    refine bootPhaseAdvance_fails on sound (by omega) ?_ ?_
    · rcases mem with rfl | rfl | rfl <;> decide
    · rw [second]
      rcases mem with rfl | rfl | rfl <;> decide
  · change Host.Outcome.next (wakeUp s) = _
    rw [wakeUp, if_pos idle]
  · obtain ⟨t, run, poisoned, mem, harts, entry⟩ := dramEccError_poisons (s := s) vault
    exact ⟨t, run, poisoned, mem, harts, entry, dramEccError_corrects vault⟩
  · change execTlbParityError core n s = _
    unfold execTlbParityError
    rw [if_neg (by omega), if_pos at_]
  · change execTlbParityError (256 + b) n s = _
    unfold execTlbParityError
    simp only [Nat.le_add_right, if_true, Nat.add_sub_cancel_left, cached, Option.getD_some, if_pos at_]
  · change execClass0MeteringWindow core s = _
    unfold execClass0MeteringWindow
    rw [if_pos small]
  · obtain ⟨fenced, tiles, windows, posts⟩ := loseCore_loses (cutOff_fenced core
      (mcEntry s.cycle (BitVec.ofNat 64 (core * 2 ^ 30)) 4 0x15 0 core 0) (s.linkTrapped core g elem addr))
    exact ⟨_, verticalLinkFailure_run small whole, fenced, tiles, windows, posts, fun k below h there live =>
      verticalLinkFailure_ends _ below there live⟩

end Sys2Proof.Machine
end

section
/-! PROOFS. R379, R384, R388 to R393: switch slots, folds and blocks of collectives. -/

namespace Sys2Proof.Machine

section
variable {s t : State} {id : Nat} {c : Coll}

/-! ### Requests for slots (R389) -/

/-- The collective after a switch has given it eight slots. -/
def Coll.withSlots (c : Coll) (x : TreeSwitch) : Coll :=
  { c with granted := c.granted ++ [treePlace x], queued := c.queued.filter (fun y => y != treePlace x), slotted := x.last }

/-- Eight slots of a switch are the collective's, and its request there is served. -/
def State.givesSlots (s : State) (c : Coll) (x : TreeSwitch) : State :=
  setColl (c.withSlots x) { s with
    switchSlots := s.switchSlots ++ ((freeAt s (x.tier, x.switch)).take 8).map fun k => ⟨x, k, c.id, none, [], []⟩
    slotWaits := s.slotWaits.filter fun y => ¬(treePlace y.at_ = treePlace x ∧ y.owner = c.id) }

theorem grantSlots_gives (c : Coll) (x : TreeSwitch) (s : State) : grantSlots c x s = s.givesSlots c x := by
  have same : (fun y : SlotWait => !(treePlace y.at_ == treePlace x && y.owner == c.id))
      = fun y => decide ¬(treePlace y.at_ = treePlace x ∧ y.owner = c.id) := by
    funext y
    rw [decide_not, Bool.decide_and]
    rfl
  unfold grantSlots State.givesSlots
  rw [same]
  rfl

section
variable (found : findColl s id = some c) {x : TreeSwitch}
include found

theorem slotGrant_gives (live : c.live = true) (room : 8 ≤ (freeAt s (x.tier, x.switch)).length) {y : SlotWait} {ys : List SlotWait}
    (waits : waitsAt s (x.tier, x.switch) = y :: ys) (owner : y.owner = id) (at_ : y.at_ = x) :
    exec (.slotGrant id x) s = .next (s.givesSlots c x) := by
  refine congrArg Host.Outcome.next ?_
  rw [found]
  refine Eq.trans (if_pos ?_) (grantSlots_gives c x s)
  rw [switchName, waits, live, decide_eq_true room]
  simp [owner, at_]

variable (asks : c.asks x = true)
include asks

theorem slotRequest_granted (room : 8 ≤ (freeAt s (x.tier, x.switch)).length)
    (first_ : ∀ y ∈ s.slotWaits, (y.at_.tier, y.at_.switch) = (x.tier, x.switch) → (slotWait s c x).before y = true) :
    exec (.slotRequest id x .granted) s = .next (s.givesSlots c x) := by
  refine congrArg Host.Outcome.next ?_
  rw [found]
  dsimp only
  rw [asks, Bool.not_true, if_neg Bool.false_ne_true]
  refine Eq.trans (if_pos ⟨room, List.all_eq_true.mpr fun y mem => ?_⟩) (grantSlots_gives c x s)
  obtain ⟨waits, at_⟩ := List.mem_filter.mp mem
  exact first_ y waits (by simpa [switchName] using at_)

theorem slotRequest_queued (qslot : Waybill.qslot c.wb = true) (asker : c.self s = 0) :
    exec (.slotRequest id x .queued) s = .next (setColl { c with queued := [treePlace x] } { s with
      slotWaits := insertWait (slotWait s c x) s.slotWaits }) := by
  refine congrArg Host.Outcome.next ?_
  rw [found]
  dsimp only
  rw [asks, Bool.not_true, if_neg Bool.false_ne_true, qslot, asker]
  rfl

theorem slotRequest_refused (noWait : Waybill.qslot c.wb = false) :
    exec (.slotRequest id x .refused) s = .next (endColl id (collStatus 2 0 0) s) := by
  refine congrArg Host.Outcome.next ?_
  rw [found]
  dsimp only
  rw [asks, Bool.not_true, if_neg Bool.false_ne_true, noWait]
  rfl

end

theorem asks_of {x : TreeSwitch} (live : c.live = true) (matched : c.matched = true) (slotted : c.slotted = false)
    (tree : Waybill.treeOk c.wb x.tree = true) (queued : c.queued = [])
    (above : ∀ y ∈ c.granted, placeBefore y (treePlace x) = true) : c.asks x = true := by
  unfold Coll.asks
  rw [live, matched, slotted, tree, queued, List.all_eq_true.mpr above]
  rfl

/-! ### The order of requests (R389) -/

theorem before_iff (a b : SlotWait) : a.before b = true ↔
    a.prio < b.prio ∨ (a.prio = b.prio ∧ (a.since < b.since ∨ (a.since = b.since ∧ a.at_.port < b.at_.port))) := by
  unfold SlotWait.before
  simp only [bne_iff_ne, ne_eq]
  split
  next apart => simp [apart]
  next same =>
    split
    next later => simp [not_not.mp same, later]
    next now => simp [not_not.mp same, not_not.mp now]

/-- The request came to its switch first. -/
def SlotWait.first_ (a b : SlotWait) : Prop := a.since < b.since ∨ (a.since = b.since ∧ a.before b = true)

theorem first_trans {a b d : SlotWait} (ab : a.first_ b) (bd : b.first_ d) : a.first_ d := by
  unfold SlotWait.first_ at *
  rw [before_iff] at *
  bv_omega

theorem first_asymm {a b : SlotWait} (ab : a.first_ b) : ¬ b.first_ a := by
  unfold SlotWait.first_ at *
  rw [before_iff] at *
  bv_omega

theorem insertWait_perm (w : SlotWait) (ys : List SlotWait) : (insertWait w ys).Perm (w :: ys) := by
  induction ys with
  | nil => rfl
  | cons y ys ih =>
    unfold insertWait
    split
    · rfl
    · exact (ih.cons y).trans (List.Perm.swap w y ys)

theorem insertWait_ordered (w : SlotWait) {ys : List SlotWait} (ordered : ys.Pairwise fun a b => ¬ b.first_ a) :
    (insertWait w ys).Pairwise fun a b => ¬ b.first_ a := by
  induction ys with
  | nil => exact List.pairwise_singleton _ _
  | cons y ys ih =>
    obtain ⟨head, tail⟩ := List.pairwise_cons.mp ordered
    unfold insertWait
    split
    next earlier =>
      refine List.pairwise_cons.mpr ⟨fun z mem => ?_, ordered⟩
      rcases List.mem_cons.mp mem with rfl | mem
      · exact first_asymm earlier
      · exact fun ahead => head z mem (first_trans ahead earlier)
    next later =>
      refine List.pairwise_cons.mpr ⟨fun z mem => ?_, ih tail⟩
      rcases List.mem_cons.mp ((insertWait_perm w ys).mem_iff.mp mem) with rfl | mem
      · exact later
      · exact head z mem

/-! ### Folds at a switch (R388, R390, R391) -/

theorem passUp_none {n : Nat} (none_ : goesUp s c = none) : passUp c n s = s := by
  cases n with
  | zero => rfl
  | succ n =>
    unfold passUp
    rw [none_]

theorem passUp_some {n : Nat} {a b : SwitchSlot} {p : Nat} (some_ : goesUp s c = some (a, b, p)) :
    passUp c (n + 1) s = passUp c n (setSlot (b.take_ p (a.tag.getD ⟨0, 0, 0⟩) (slotResult s c a)) (setSlot a.emptied s)) := by
  rw [passUp, some_]

section
variable {tier sw n : Nat} {x : SwitchSlot}
  (at_ : s.switchSlots.find? (fun y => switchName y.at_ == (tier, sw) && y.slot == n) = some x)
  (found : findColl s x.owner = some c)
include at_ found

theorem switchFold_arrive {port : Nat} {tag : BlockTag} {data : List Byte} (may : mayTake s c x port tag = true)
    (ok : Waybill.tagOk c.wb tag = true) (len : data.length = Waybill.tagLen c.wb tag) :
    exec (.switchFold tier sw n (.arrive port tag data)) s = .next (settleSlots c (setSlot (x.take_ port tag data) s)) := by
  refine congrArg Host.Outcome.next ?_
  rw [at_]
  dsimp only
  rw [found]
  refine if_pos ?_
  rw [may, ok, len]
  simp

theorem switchFold_pulled {m : Nat} (other : m ≠ c.self s) (holds : x.holdsFor c m = true) :
    exec (.switchFold tier sw n (.pulled m)) s = .next (pulledBy c x m s) := by
  refine congrArg Host.Outcome.next ?_
  rw [at_]
  dsimp only
  rw [found]
  refine if_pos ?_
  rw [holds]
  simpa using other

omit found in
/-- A result that goes up once, and no further. -/
theorem settleSlots_once {a b y : SwitchSlot} {p : Nat} (some_ : goesUp (setSlot y s) c = some (a, b, p))
    (none_ : goesUp (setSlot (b.take_ p (a.tag.getD ⟨0, 0, 0⟩) (slotResult (setSlot y s) c a))
      (setSlot a.emptied (setSlot y s))) c = none) :
    settleSlots c (setSlot y s) = setSlot (b.take_ p (a.tag.getD ⟨0, 0, 0⟩) (slotResult (setSlot y s) c a))
      (setSlot a.emptied (setSlot y s)) := by
  have slots : 0 < (setSlot y s).switchSlots.length := by
    unfold setSlot
    rw [List.length_map]
    exact List.length_pos_of_mem (List.mem_of_find?_eq_some at_)
  unfold settleSlots
  obtain ⟨k, fuel⟩ : ∃ k, 4 * (setSlot y s).switchSlots.length = k + 1 := ⟨4 * (setSlot y s).switchSlots.length - 1, by omega⟩
  rw [fuel, passUp_some some_, passUp_none none_]

end

theorem pulledBy_waits {x : SwitchSlot} {m k : Nat} (member : k < Waybill.size c.wb) (other : k ≠ m)
    (holds : x.holdsFor c k = true) : pulledBy c x m s = setSlot { x with pulled := x.pulled ++ [m] } s := by
  have still : SwitchSlot.holdsFor { x with pulled := x.pulled ++ [m] } c k = true := by
    unfold SwitchSlot.holdsFor SwitchSlot.isFull at *
    simp only [Bool.and_eq_true, Bool.not_eq_true', List.contains_eq_mem, decide_eq_false_iff_not, List.mem_append,
      List.mem_singleton, not_or] at holds ⊢
    obtain ⟨⟨top, fresh⟩, receives⟩ := holds
    exact ⟨⟨top, fresh, other⟩, receives⟩
  exact if_pos (List.any_eq_true.mpr ⟨k, List.mem_range.mpr member, still⟩)

theorem insertBy_sorted (x : Nat × List Byte) {xs : List (Nat × List Byte)} (sorted : xs.Pairwise fun a b => a.1 ≤ b.1) :
    (insertBy (fun a b => decide (a.1 ≤ b.1)) x xs).Pairwise fun a b => a.1 ≤ b.1 := by
  induction xs with
  | nil => exact List.pairwise_singleton _ _
  | cons y xs ih =>
    obtain ⟨head, tail⟩ := List.pairwise_cons.mp sorted
    unfold insertBy
    split
    next below =>
      have le : x.1 ≤ y.1 := of_decide_eq_true below
      refine List.pairwise_cons.mpr ⟨fun z mem => ?_, sorted⟩
      rcases List.mem_cons.mp mem with rfl | mem
      · exact le
      · exact le.trans (head z mem)
    next above =>
      have le : y.1 ≤ x.1 := Nat.le_of_not_le fun below => above (decide_eq_true below)
      refine List.pairwise_cons.mpr ⟨fun z mem => ?_, ih tail⟩
      rcases List.mem_cons.mp ((insertBy_perm _ x xs).mem_iff.mp mem) with rfl | mem
      · exact le
      · exact head z mem

theorem sortBy_sorted (xs : List (Nat × List Byte)) :
    (sortBy (fun a b => decide (a.1 ≤ b.1)) xs).Pairwise fun a b => a.1 ≤ b.1 := by
  induction xs with
  | nil => exact List.Pairwise.nil
  | cons x xs ih => exact insertBy_sorted x ih

theorem sortedArrivals_eq {xs ys : List (Nat × List Byte)} (perm : xs.Perm ys) (apart : (xs.map Prod.fst).Nodup) :
    sortBy (fun a b => decide (a.1 ≤ b.1)) xs = sortBy (fun a b => decide (a.1 ≤ b.1)) ys := by
  have key : ∀ a ∈ xs, ∀ b ∈ xs, a.1 = b.1 → a = b := fun a ma b mb same =>
    List.inj_on_of_nodup_map apart ma mb same
  refine List.Perm.eq_of_pairwise (le := fun a b => a.1 ≤ b.1) (fun a b ma mb ab ba => ?_) (sortBy_sorted xs) (sortBy_sorted ys)
    ((sortBy_perm _ xs).trans (perm.trans (sortBy_perm _ ys).symm))
  exact key a ((sortBy_perm _ xs).mem_iff.mp ma) b (perm.mem_iff.mpr ((sortBy_perm _ ys).mem_iff.mp mb)) (le_antisymm ab ba)

theorem slotResult_fixed {x y : SwitchSlot} (fixed : Waybill.fixed c.wb = true ∨ (s.ctxOf c.ctx).det = true)
    (perm : x.arrived.Perm y.arrived) (apart : (x.arrived.map Prod.fst).Nodup) : slotResult s c x = slotResult s c y := by
  have inForce : c.fixed s = true := by simpa [Coll.fixed] using fixed
  unfold slotResult
  simp only [inForce, if_true, sortedArrivals_eq perm apart]

/-! ### Blocks that are pushed (R388, R392) -/

theorem setColl_laterPushes (d c : Coll) (s : State) : c.laterPushes (setColl d s) = c.laterPushes s := rfl

theorem settleDone_going {d : Coll} (going : d.done = false) (s : State) : settleDone d s = s :=
  if_neg (by rw [going]; simp)

section
variable (found : findColl s id = some c)
include found

theorem blockPush_first {b : Nat} {bs : List Byte} {u : State} (moves : c.moves = true) (unread : c.unread b = true)
    (read : collRead c.ctx (Waybill.src c.wb + BitVec.ofNat 64 (256 * b))
      (Waybill.pieceLen c.wb (Waybill.slay c.wb) b) s = .ok bs u) :
    exec (.blockPush id ⟨0, b⟩) s = .next (pushBlock c ⟨0, b⟩ bs (setColl { c with read := mset c.read b bs } u)) := by
  refine congrArg Host.Outcome.next ?_
  rw [found]
  dsimp only
  rw [moves, Bool.not_true, if_neg Bool.false_ne_true, if_pos rfl, unread, Bool.not_true, if_neg Bool.false_ne_true, read]

theorem blockPush_later {x : StepBlock} {a : Nat} {bs : List Byte} (moves : c.moves = true) (going : c.done = false)
    (later : 0 < x.step) (owed : (c.laterPushes s).contains x = true) (fresh : c.pushed.contains x = false)
    (left : aget c.mid ⟨x.step - 1, x.block⟩ = some bs) (axis : (Waybill.steps c.wb)[x.step]? = some a) :
    exec (.blockPush id x) s = .next { setColl { c with pushed := c.pushed ++ [x] } s with
      sent := s.sent ++ [.push id a x.block bs] } := by
  obtain rfl := findColl_id found
  refine congrArg Host.Outcome.next ?_
  rw [found]
  dsimp only
  rw [moves, Bool.not_true, if_neg Bool.false_ne_true, if_neg (Nat.ne_of_gt later), owed, fresh, left]
  refine (settleDone_going (d := { c with pushed := c.pushed ++ [x] }) going _).trans ?_
  unfold pushBlock
  rw [axis]
  rfl

/-! ### Blocks that come -/

section
variable {x : StepBlock} {data : List Byte} (moves : c.moves = true) (owed : c.owed s x = true)
  (len : data.length = stepLen s c x)
include moves owed len

omit found in
theorem blockPull_owed : ¬ (!c.moves || !c.owed s x || data.length != stepLen s c x) = true := by
  rw [moves, owed, len]
  simp

theorem blockPull_pushed {bs : List Byte} (plain : Waybill.stepFolds c.wb x.step = false)
    (held : stepData s c x data = some bs) : exec (.blockPull id x data) s = .next
      (if x.step == Waybill.lastStep c.wb then writeBlock id x.block bs s else setColl (c.keep x bs) s) := by
  refine congrArg Host.Outcome.next ?_
  rw [found]
  dsimp only
  rw [if_neg (blockPull_owed moves owed len), plain, if_neg Bool.false_ne_true, held]

theorem blockPull_none (folds : Waybill.stepFolds c.wb x.step = true) (none_ : topSlot s c x = none) :
    exec (.blockPull id x data) s = .next s := by
  refine congrArg Host.Outcome.next ?_
  rw [found]
  dsimp only
  rw [if_neg (blockPull_owed moves owed len), if_pos folds, none_]

theorem blockPull_folded {y : SwitchSlot} (folds : Waybill.stepFolds c.wb x.step = true) (top : topSlot s c x = some y)
    (result : slotResult s c y = data) : exec (.blockPull id x data) s = .next
      (if x.step == Waybill.lastStep c.wb then pullBlock c y x.block data s
        else pulledBy (c.keep x data) y (c.self s) (setColl (c.keep x data) s)) := by
  refine congrArg Host.Outcome.next ?_
  rw [found]
  dsimp only
  rw [if_neg (blockPull_owed moves owed len), if_pos folds, top]
  dsimp only
  rw [if_neg (by simp [result])]

end

end

theorem writeBlock_writes {b : Nat} {bs : List Byte} {u : State} (found : findColl s id = some c)
    (write : collWrite c.ctx (Waybill.dst c.wb + BitVec.ofNat 64 (256 * b)) bs s = .ok () u) :
    writeBlock id b bs s = setColl { c with pulled := c.pulled ++ [b], parked := merase c.parked b } u := by
  unfold writeBlock
  rw [found]
  dsimp only
  rw [write]

theorem pullBlock_pulls {b : Nat} {y : SwitchSlot} {bs : List Byte} {u : State}
    (write : collWrite c.ctx (Waybill.dst c.wb + BitVec.ofNat 64 (256 * b)) bs s = .ok () u) :
    pullBlock c y b bs s = pulledBy { c with pulled := c.pulled ++ [b] } y (c.self s)
      (setColl { c with pulled := c.pulled ++ [b] } u) := by
  unfold pullBlock
  rw [write]

theorem addFault_switchSlots (vd ctx : Nat) (engine core cause : BitVec 8) (va : Word) (target : EngineTarget) (s : State) :
    (addFault vd ctx engine core cause va target s).1.switchSlots = s.switchSlots := by
  unfold addFault
  dsimp only
  split
  · split
    · obtain ⟨fns, replies, raised⟩ := raiseInt_frame (fnOfVdev (s.setVdevOf vd { s.vdevOf vd with
        efq := (s.vdevOf vd).efq ++ [⟨va, (s.ctxOf ctx).asid, cause, engine, core, (s.vdevOf vd).efTag, target⟩]
        efTag := (s.vdevOf vd).efTag + 1 }) vd) 1 (s.setVdevOf vd { s.vdevOf vd with
        efq := (s.vdevOf vd).efq ++ [⟨va, (s.ctxOf ctx).asid, cause, engine, core, (s.vdevOf vd).efTag, target⟩]
        efTag := (s.vdevOf vd).efTag + 1 })
      rw [raised]
      rfl
    · rfl
  · rfl

theorem pullBlock_waits {b : Nat} {y : SwitchSlot} {bs : List Byte} {e : BitVec 8} {va : Word} {u : State}
    (found : findColl s c.id = some c)
    (write : collWrite c.ctx (Waybill.dst c.wb + BitVec.ofNat 64 (256 * b)) bs s = .error (.fault e true va) u) :
    (pullBlock c y b bs s).switchSlots = s.switchSlots ∧ (pullBlock c y b bs s).mem = s.mem := by
  unfold pullBlock
  rw [write]
  dsimp only
  unfold collFault
  rw [found]
  exact ⟨addFault_switchSlots .., addFault_mem ..⟩

/-! ### Answers of the driver (R308, R392) -/

/-- The collective without the answer for a part. -/
def Coll.heard (c : Coll) (part : Nat) (declined : Bool) : Coll :=
  { c with answers := c.answers.erase (part, declined), waits := merase c.waits part }

theorem findColl_heard (found : findColl s id = some c) (part : Nat) (declined : Bool) :
    findColl (setColl (c.heard part declined) s) id = some (c.heard part declined) := by
  obtain rfl := findColl_id found
  exact findColl_setColl_own (d := c.heard part declined) found

section
variable {b : Nat} (small : b < 2 ^ 40)
include small

theorem resumePart_parked {bs : List Byte} (parked : mget c.parked b = some bs) (s : State) :
    resumePart c (2 ^ 40 + b) s = writeBlock c.id b bs s := by
  unfold resumePart tablePart
  simp only [Nat.add_sub_cancel_left, parked]
  rw [if_neg (by omega), if_pos (by omega)]

theorem resumePart_top {y : SwitchSlot} (none_ : mget c.parked b = none)
    (top : topSlot s c ⟨Waybill.lastStep c.wb, b⟩ = some y) :
    resumePart c (2 ^ 40 + b) s = pullBlock c y b (slotResult s c y) s := by
  unfold resumePart tablePart
  simp only [Nat.add_sub_cancel_left, none_, top]
  rw [if_neg (by omega), if_pos (by omega)]

theorem resumePart_nothing (none_ : mget c.parked b = none)
    (nothing : topSlot s c ⟨Waybill.lastStep c.wb, b⟩ = none) : resumePart c (2 ^ 40 + b) s = s := by
  unfold resumePart tablePart
  simp only [Nat.add_sub_cancel_left, none_, nothing]
  rw [if_neg (by omega), if_pos (by omega)]

end

section
variable {part : Nat} (found : findColl s id = some c) (going : c.aborted = false)
include found going

theorem parkedBlockResume_resolved (resolved : c.answers.contains (part, false) = true) :
    exec (.parkedBlockResume id part false) s
      = .next (resumePart (c.heard part false) part (setColl (c.heard part false) s)) := by
  have acts : ¬ (c.aborted || !c.answers.contains (part, false)) = true := by
    rw [going, resolved]
    decide
  refine congrArg Host.Outcome.next ?_
  rw [found]
  dsimp only
  rw [if_neg acts]
  rfl

theorem parkedBlockResume_declined (declined : c.answers.contains (part, true) = true) (notEnd : part ≠ endPart) :
    exec (.parkedBlockResume id part true) s = .next (endColl id
      (collStatus 5 ((mget c.waits part).getD 0) (c.self s)) (setColl (c.heard part true) s)) := by
  have acts : ¬ (c.aborted || !c.answers.contains (part, true)) = true := by
    rw [going, declined]
    decide
  refine congrArg Host.Outcome.next ?_
  rw [found]
  dsimp only
  rw [if_neg acts, Bool.not_true, if_neg Bool.false_ne_true, if_neg notEnd]
  rfl

/-- A destination block whose fault the driver has declined ends the waybill with code 5. -/
theorem parkedBlockResume_ends {cause : BitVec 8} (declined : c.answers.contains (part, true) = true) (notEnd : part ≠ endPart)
    (waits : mget c.waits part = some cause) (open_ : c.done = false) :
    ∃ t, exec (.parkedBlockResume id part true) s = .next t ∧ ∃ c', findColl t id = some c'
      ∧ c'.outcome = some (BitVec.ofNat 64 (c.self s * 2 ^ 32 + cause.toNat * 256 + 5)) ∧ t.mem = s.mem := by
  obtain ⟨ended, -, -, mem⟩ := endColl_ends (findColl_heard found part true) open_
    (collStatus 5 ((mget c.waits part).getD 0) (c.self s))
  refine ⟨_, parkedBlockResume_declined found going declined notEnd, _, ended, ?_, mem⟩
  rw [waits]
  rfl

end

/-! ### Completion (R379, R393, R394) -/

section
variable (found : findColl s id = some c)
include found

theorem waybillComplete_aborted (aborted : c.aborted = true) : exec (.waybillComplete id) s = .next (dropColl id s) := by
  refine congrArg Host.Outcome.next ?_
  rw [found]
  exact if_pos aborted

/-- The collective with its STATUS fixed. -/
def Coll.fixedStatus (c : Coll) : Coll := { c with outcome := some (c.outcome.getD 0) }

theorem waybillComplete_ready (going : c.aborted = false) (ready : c.ready = true) :
    exec (.waybillComplete id) s = .next (completeColl id (setColl c.fixedStatus s)) := by
  refine congrArg Host.Outcome.next ?_
  rw [found]
  exact (if_neg (by simp [going])).trans (if_pos ready)

end

theorem dropColl_setColl (d : Coll) (s : State) : dropColl d.id (setColl d s) = dropColl d.id s := by
  have same : (s.colls.map fun x => if x.id = d.id then d else x).filter (fun x => x.id != d.id)
      = s.colls.filter fun x => x.id != d.id := by
    induction s.colls with
    | nil => rfl
    | cons x xs ih =>
      rw [List.map_cons, List.filter_cons, List.filter_cons, ih]
      by_cases own : x.id = d.id
      · simp [own]
      · simp [own]
  unfold dropColl freeSlots setColl
  dsimp only
  rw [same]

/-- Does a collective that is complete here still hold slots, or owe others blocks? -/
def Coll.needed (c : Coll) (s : State) : Bool :=
  (s.switchSlots.any fun y => y.owner == c.id) || !(c.laterPushes s).all c.pushed.contains

theorem settleDone_done (done : c.done = true) (s : State) :
    settleDone c s = if c.needed s = true then s else dropColl c.id s := by
  unfold settleDone Coll.needed
  rw [done]
  cases s.switchSlots.any fun y => y.owner == c.id <;> cases (c.laterPushes s).all c.pushed.contains <;> rfl

theorem leaveColl_leaves {code : BitVec 64} (status : c.outcome = some code) (s : State) :
    leaveColl c s = if code = 0 ∧ c.needed s = true then setColl { c with done := true } s else dropColl c.id s := by
  have success_iff : c.outcome = some (collStatus 0 0 0) ↔ code = 0 := by
    rw [status, Option.some.injEq]
    rfl
  unfold leaveColl
  by_cases success : code = 0
  · rw [if_pos (success_iff.mpr success), settleDone_done rfl]
    have same : Coll.needed { c with done := true } (setColl { c with done := true } s) = c.needed s := rfl
    rw [same, dropColl_setColl { c with done := true } s]
    by_cases needed : c.needed s = true
    · rw [if_pos needed, if_pos ⟨success, needed⟩]
    · rw [if_neg needed, if_neg fun h => needed h.2]
  · rw [if_neg fun same => success (success_iff.mp same), if_neg fun h => success h.1]

theorem completeColl_completes {v w x : State} (found : findColl s id = some c) {code : BitVec 64} (status : c.outcome = some code)
    (first_ : engWrite none c.ctx .user .unit (c.addr + 88) 8 code.toNat s = .ok () v)
    (second : (do
      let n ← engRead none c.ctx .user .unit (Waybill.cnt c.wb) 8
      engWrite none c.ctx .user .unit (Waybill.cnt c.wb) 8 ((n + (Waybill.incr c.wb).toNat) % 2 ^ 64)) v = .ok () w)
    (third : engWrite none c.ctx .user .unit (c.header + 8) 8 (c.tail + 1).toNat w = .ok () x) :
    completeColl id s = leaveColl c x := by
  have all : (completeWrites c).forM completeColl.id_ s = .ok () x := by
    have value : code = c.outcome.getD 0 := by rw [status, Option.getD_some]
    rw [value] at first_
    exact (forM_cons_run (f := completeColl.id_) _ first_).trans ((forM_cons_run (f := completeColl.id_) _ second).trans
      (forM_cons_run (f := completeColl.id_) _ third))
  unfold completeColl
  rw [found]
  dsimp only
  rw [all]

end

/-- Settles O54. -/
theorem collectiveBlockResults : Obligations.CollectiveBlockResults := by
  unfold Obligations.CollectiveBlockResults
  refine ⟨⟨fun s id x c found live => ?_, before_iff, fun w ys => ⟨insertWait_perm w ys, insertWait_ordered w⟩,
    fun s tier sw n x c at_ found => ⟨fun port tag data may ok len => ?_, fun m other holds =>
      ⟨switchFold_pulled at_ found other holds, fun ⟨k, member, apart, top⟩ => pulledBy_waits member apart top⟩⟩,
    fun s c x y fixed perm apart => slotResult_fixed fixed perm apart⟩,
    fun s id b c found => ⟨fun moves unread bs u read => ?_, fun moves going x a bs later owed fresh left axis =>
      blockPush_later found moves going later owed fresh left axis, fun x data moves owed len => ?_, fun going small => ?_,
      waybillComplete_aborted found, fun going ready => ?_⟩⟩
  · obtain rfl := findColl_id found
    refine ⟨fun matched slotted tree queued above => ?_, fun room ⟨y, ys, waits, owner, at_⟩ =>
      slotGrant_gives found live room waits owner at_⟩
    have asks := asks_of live matched slotted tree queued above
    refine ⟨slotRequest_granted found asks, slotRequest_queued found asks, fun noWait going => ?_⟩
    obtain ⟨ended, free, -, -⟩ := endColl_ends found going (collStatus 2 0 0)
    exact ⟨_, slotRequest_refused found asks noWait, ended, free⟩
  · intro t
    refine ⟨fun none_ => ?_, fun a b p some_ => ?_⟩
    · rw [switchFold_arrive at_ found may ok len]
      exact congrArg Host.Outcome.next (passUp_none none_)
    · intro u none_
      rw [switchFold_arrive at_ found may ok len]
      exact congrArg Host.Outcome.next (settleSlots_once at_ some_ none_)
  · intro v
    obtain rfl := findColl_id found
    rw [blockPush_first found moves unread read]
    rfl
  · intro last place kept taken
    refine ⟨fun plain bs held => ⟨fun between => ?_, fun at_ u write => ?_⟩, fun folds => ⟨fun none_ =>
      blockPull_none found moves owed len folds none_, fun y top result => ⟨fun between => ?_, fun at_ =>
        ⟨fun u write => ?_, fun e va u write => ?_⟩⟩⟩⟩
    · rw [blockPull_pushed found moves owed len plain held, if_neg (by simpa using between)]
      rfl
    · rw [blockPull_pushed found moves owed len plain held, if_pos (by simpa using at_), writeBlock_writes found write]
    · rw [blockPull_folded found moves owed len folds top result, if_neg (by simpa using between)]
      rfl
    · rw [blockPull_folded found moves owed len folds top result, if_pos (by simpa using at_), pullBlock_pulls write]
    · obtain rfl := findColl_id found
      refine ⟨_, blockPull_folded found moves owed len folds top result, ?_⟩
      rw [if_pos (by simpa using at_)]
      exact pullBlock_waits found write
  · intro c' v place
    refine ⟨fun resolved => ⟨fun none_ nothing => ?_, fun y u none_ top write => ?_, fun bs u parked write => ?_⟩,
      fun cause declined waits open_ => parkedBlockResume_ends found going declined (by unfold endPart; omega) waits open_⟩
    · rw [parkedBlockResume_resolved found going resolved]
      exact congrArg Host.Outcome.next (resumePart_nothing small (c := c.heard (2 ^ 40 + b) false) none_ nothing)
    · intro taken
      rw [parkedBlockResume_resolved found going resolved]
      exact congrArg Host.Outcome.next ((resumePart_top small (c := c.heard (2 ^ 40 + b) false) none_ top).trans
        (pullBlock_pulls (c := c.heard (2 ^ 40 + b) false) write))
    · rw [parkedBlockResume_resolved found going resolved]
      obtain rfl := findColl_id found
      exact congrArg Host.Outcome.next ((resumePart_parked small (c := c.heard (2 ^ 40 + b) false) parked _).trans
        (writeBlock_writes (c := c.heard (2 ^ 40 + b) false) (findColl_heard found (2 ^ 40 + b) false) write))
  · intro code c' v w x first_ second third needed
    obtain rfl := findColl_id found
    rw [waybillComplete_ready found going ready]
    exact congrArg Host.Outcome.next ((completeColl_completes (c := c.fixedStatus)
      (findColl_setColl_own (d := c.fixedStatus) found) rfl first_ second third).trans
      (leaveColl_leaves (c := c.fixedStatus) rfl x))

end Sys2Proof.Machine
end

section
/-! PROOFS. Log 3: the operations keep memory in its canonical form. What ties an operation to its parts (`keeps_bind`
and the like), then the operations that many instructions share. -/

namespace Sys2Proof.Machine

section
variable {ε α β : Type} {P : State → Prop}

theorem keeps_pure (a : α) : Keeps P (pure a : EStateM ε State α) := fun _ h => ends_pure h a
theorem keeps_throw (e : ε) : Keeps P (throw e : EStateM ε State α) := fun _ h => ends_throw h e
theorem keeps_set {t : State} (h : P t) : Keeps P (set t : EStateM ε State PUnit) := fun _ _ => ends_set h
theorem keeps_modify {f : State → State} (h : ∀ s, P s → P (f s)) : Keeps P (modify f : EStateM ε State PUnit) :=
  fun s hs => ends_modify (h s hs)

theorem keeps_bind {x : EStateM ε State α} {f : α → EStateM ε State β} (hx : Keeps P x) (hf : ∀ a, Keeps P (f a)) :
    Keeps P (x >>= f) := fun s h => ends_bind (hx s h) hf

/-- What follows a look at the state may use that the property holds of what was seen. -/
theorem keeps_read {f : State → EStateM ε State β} (hf : ∀ s, P s → Keeps P (f s)) :
    Keeps P ((get : EStateM ε State State) >>= f) := fun s h => ends_get_bind (hf s h s h)

theorem keeps_ite {c : Prop} [Decidable c] {x y : EStateM ε State α} (hx : Keeps P x) (hy : Keeps P y) :
    Keeps P (if c then x else y) := fun s h => ends_ite (fun _ => hx s h) fun _ => hy s h

/-- A step that is taken only under a condition, before what comes next in any case. -/
theorem keeps_when {c : Prop} [Decidable c] {x : EStateM ε State PUnit} {k : PUnit → EStateM ε State β} (hx : Keeps P x)
    (hk : ∀ a, Keeps P (k a)) : Keeps P (if c then x >>= k else k ⟨⟩) := keeps_ite (keeps_bind hx hk) (hk _)

theorem keeps_mapM {f : α → EStateM ε State β} (each : ∀ a, Keeps P (f a)) (as : List α) : Keeps P (as.mapM f) :=
  fun _ h => ends_mapM_each each as h

theorem keeps_forM {f : α → EStateM ε State PUnit} (each : ∀ a, Keeps P (f a)) (as : List α) : Keeps P (as.forM f) :=
  fun _ h => ends_forM each as h

end

/-- However the operation ends, memory stays in its canonical form. -/
abbrev Canon {ε α : Type} (op : EStateM ε State α) : Prop := Keeps State.memOk op

/-- Memory stays in its canonical form under the accesses of a unit. -/
theorem memOk_units : KeptByUnits State.memOk where
  frame holds _ _ memory := memOk_of_mem holds memory
  hart _ holds := setHart_memOk holds _
  poke _ _ holds := pokeBytes_memOk holds _ _
  write _ _ holds := memWf_memWriteBytes _ _ _ holds

/-- Memory stays in its canonical form under the reports and the work of the engines. -/
theorem memOk_work : KeptByWork State.memOk where
  frame holds _ _ memory := memOk_of_mem holds memory
  poke _ _ _ _ holds := pokeN_memOk holds _ _ _
  clear _ _ _ holds := memWf_memClear _ _ _ holds
  core _ _ _ _ _ holds := holds
  work _ _ _ _ holds := holds
  masks _ _ _ holds := holds
  posts _ _ holds := holds

theorem sendItem_memOk (it : Item) {s : State} (holds : s.memOk) : (sendItem it s).memOk :=
  memOk_of_mem holds (sendItem_mem it s)

/-! ### The shared operations of the laws -/

theorem require_canon (p : Bool) : Canon (require p) := require_units _

theorem getHart_canon : Canon getHart := getHart_units

theorem getConvoy_canon : Canon getConvoy := getConvoy_units

theorem readS_canon (r : SReg) : Canon (readS r) := fun _ => readS_memOk _

theorem readC_canon (r : CName) : Canon (readC r) := fun _ => readC_memOk _

theorem checkMask_canon (m : MName) (lo hi : Nat) (p : Nat → Bool) :
    Canon (checkMask m lo hi p) := fun _ => checkMask_memOk _ _ _ _

theorem logAccesses_canon (log : Bool) (es : List (Nat × Nat × Word)) :
    Canon (logAccesses log es) := fun _ => logAccesses_memOk _ _

theorem awaitIds_canon (ids : List Nat) {wait : M Unit} (each : Canon wait) :
    Canon (awaitIds ids wait) := fun _ => awaitIds_memOk _ each

theorem awaitWhere_canon (p : State → Item → Bool) {wait : M Unit} (each : Canon wait) :
    Canon (awaitWhere p wait) := fun _ => awaitWhere_memOk _ each

theorem remoteWait_canon (va : Word) (t : EType) (op : ItemOp) (elem bank : Option Nat) :
    Canon (remoteWait va t op elem bank) := fun _ => remoteWait_memOk _ _ _ _ _

theorem remotePost_canon (va : Word) (t : EType) (op : ItemOp) (unord : Bool) (elem : Nat) :
    Canon (remotePost va t op unord elem) := fun _ => remotePost_memOk _ _ _ _ _

theorem awaitOwn_canon (l : Loc) : Canon (awaitOwn l) := fun _ => awaitOwn_memOk _

theorem flushWhere_canon (p : Deferred → Bool) : Canon (flushWhere p) := fun _ => flushWhere_memOk _

theorem flushGranule_canon (key : Nat) : Canon (flushGranule key) := fun _ => flushGranule_memOk _

theorem deferRoom_canon (n : Nat) : Canon (deferRoom n) := fun _ => deferRoom_units memOk_units _

theorem awaitItems_canon : Canon awaitItems := fun _ => awaitItems_memOk

theorem flushHost_canon : Canon flushHost := fun _ => flushHost_memOk

theorem releaseAt_canon (sc : Scope) : Canon (releaseAt sc) := fun _ => releaseAt_memOk _

theorem awaitLogged_canon (l : Loc) : Canon (awaitLogged l) := fun _ => awaitLogged_memOk _

theorem deferLocal_canon (l : Loc) (va : Word) (t : EType) (value kind elem : Nat) :
    Canon (deferLocal l va t value kind elem) := fun _ => deferLocal_units memOk_units _ _ _ _ _ _

theorem locate_canon (fam : Fam) (acc : Acc) (va : Word) (n : Nat) (elem bank : Option Nat) :
    Canon (locate fam acc va n elem bank) := fun _ => locate_memOk _ _ _ _ _ _

theorem meter_canon (key n : Nat) : Canon (meter key n) := fun _ => meter_memOk _ _

theorem checkData_canon (va : Word) (key : Nat) (elem bank : Option Nat) :
    Canon (checkData va key elem bank) := fun _ => checkData_memOk _ _ _ _

theorem logOne_canon (l : Loc) (kind : Nat) (va : Word) (elem : Option Nat) :
    Canon (logOne l kind va elem) := fun _ => logOne_memOk _ _ _ _

theorem prepLoad_canon (p : Place) (va : Word) (elem bank : Option Nat) :
    Canon (prepLoad p va elem bank) := fun _ => prepLoad_memOk _ _ _ _

theorem takeLoad_canon (p : Place) (va : Word) (n : Nat) (t : EType) (elem bank : Option Nat) :
    Canon (takeLoad p va n t elem bank) := fun _ => takeLoad_memOk _ _ _ _ _ _

theorem loadVa_canon (fam : Fam) (kind : Nat) (va : Word) (n : Nat) (t : EType) (elem bank : Option Nat) :
    Canon (loadVa fam kind va n t elem bank) := fun _ => loadVa_memOk _ _ _ _ _ _ _

theorem prepStore_canon (p : Place) (va : Word) (elem bank : Option Nat) :
    Canon (prepStore p va elem bank) := fun _ => prepStore_memOk _ _ _ _

theorem putStore_canon (p : Place) (va : Word) (n v : Nat) (t : EType) (unord : Bool) (elem : Option Nat) :
    Canon (putStore p va n v t unord elem) := fun _ => putStore_memOk _ _ _ _ _ _ _

theorem storePlace_canon (p : Place) (kind : Nat) (va : Word) (n v : Nat) (t : EType) (unord : Bool)
    (elem bank : Option Nat) : Canon (storePlace p kind va n v t unord elem bank) :=
  fun _ => storePlace_memOk _ _ _ _ _ _ _ _ _

theorem storeVa_canon (fam : Fam) (kind : Nat) (va : Word) (n v : Nat) (t : EType) (unord : Bool) (elem bank : Option Nat) :
    Canon (storeVa fam kind va n v t unord elem bank) := fun _ => storeVa_memOk _ _ _ _ _ _ _ _ _

theorem checkTarget_canon (target : Word) (needBt : Bool) :
    Canon (checkTarget target needBt) := fun _ => checkTarget_memOk _ _

theorem readSrc_canon (r : Src) : Canon (readSrc r) := fun _ => readSrc_memOk _

theorem readSrcZ_canon (r : Src) : Canon (readSrcZ r) := fun _ => readSrcZ_memOk _

theorem checkVec_canon (t : EType) (rs : List VName) : Canon (checkVec t rs) := checkVec_units _ _

theorem runElems_canon (is : List Nat) (f : Nat → Hart → Option Hart) : Canon (runElems is f) :=
  fun _ => runElems_memOk _ _

theorem checkPred_canon (m : MName) : Canon (checkPred m) := fun _ => checkPred_memOk _

theorem vecLoop_canon (m : MName) (f : Nat → Hart → Option Hart) : Canon (vecLoop m f) := fun _ => vecLoop_memOk _ _

theorem memLoop_canon {f : Nat → M Unit} (r : List Nat) (each : ∀ a0, Canon (f a0)) :
    Canon (memLoop f r) := fun _ => memLoop_units memOk_units each _

theorem memElems_canon (m : MName) : Canon (memElems m) := memElems_units _

theorem slotReady_canon (n : Nat) (byChunk : Bool) (elem : Option Nat) :
    Canon (slotReady n byChunk elem) := slotReady_units _ _ _

theorem tileLoad_canon (va : Word) (n e : Nat) : Canon (tileLoad va n e) := tileLoad_units _ _ _

theorem tileStore_canon (va : Word) (n v : Nat) : Canon (tileStore va n v) := tileStore_units memOk_units _ _ _

theorem bankLoc_canon (acc : Acc) (base : Word) (banked : Bool) (b : Nat) :
    Canon (bankLoc acc base banked b) := bankLoc_units memOk_units _ _ _ _

theorem bankCheck_canon (acc : Acc) (base : Word) (banked : Bool) (low : Loc) (b : Nat) :
    Canon (bankCheck acc base banked low b) := bankCheck_units memOk_units _ _ _ _ _

theorem bankScan_canon {check : Nat → M Loc} (r : List Nat) (each : ∀ a0, Canon (check a0)) :
    Canon (bankScan check r) := bankScan_units each _

theorem bankData_canon (base : Word) (banked : Bool) (b : Nat) (l : Loc) :
    Canon (bankData base banked b l) := bankData_units _ _ _ _

theorem bankWait_canon (l : Loc) : Canon (bankWait l) := bankWait_units memOk_units _

theorem opStpTo_canon (n : Nat) (x : PStore) : Canon (opStpTo n x) := opStpTo_units memOk_units _ _

theorem opPamTo_canon (n : Nat) (x : PAtomic) : Canon (opPamTo n x) := opPamTo_units memOk_units _ _

theorem boundAcc_canon (a : AName) : Canon (boundAcc a) := boundAcc_units _

theorem settleAcc_canon (a : AName) : Canon (settleAcc a) := settleAcc_units _

theorem opAldTo_canon (n : Nat) (x : ALoad) : Canon (opAldTo n x) := opAldTo_units memOk_units _ _

theorem opAstTo_canon (n : Nat) (x : AStore) : Canon (opAstTo n x) := opAstTo_units memOk_units _ _

/-! ### Parts of the state, registers and masks -/

theorem setHart_canon (h : Hart) : Canon (setHart h) := keeps_modify fun _ h => h

theorem modHart_canon (f : Hart → Hart) : Canon (modHart f) := keeps_modify fun _ h => h

theorem modCsr_canon (f : Csrs → Csrs) : Canon (modCsr f) := modHart_canon _

theorem modConvoy_canon (f : Convoy → Convoy) : Canon (modConvoy f) := keeps_modify fun _ h => h

theorem getCore_canon : Canon getCore := keeps_read fun _ _ => keeps_pure _

theorem modCore_canon (f : Core → Core) : Canon (modCore f) := keeps_modify fun _ h => h

theorem getCtx_canon : Canon getCtx := keeps_read fun _ _ => keeps_pure _

theorem writeS_canon (r : SReg) (v : Word) : Canon (writeS r v) := modHart_canon _

theorem writeC_canon (r : CName) (v : Word) : Canon (writeC r v) := modHart_canon _

theorem stallBound_canon (m : MName) : Canon (stallBound m) :=
  keeps_bind getHart_canon fun _ => keeps_ite (keeps_throw _) (keeps_pure _)

theorem writeMaskCompact_canon (m : MName) (count ew : Nat) : Canon (writeMaskCompact m count ew) :=
  keeps_ite (keeps_pure _) (modHart_canon _)

theorem writeMaskAll_canon (m : MName) (bits : VReg) : Canon (writeMaskAll m bits) :=
  keeps_ite (keeps_pure _) (modHart_canon _)

theorem flushDeferred_canon : Canon flushDeferred := flushWhere_canon _

theorem flushFabric_canon (va : Word) : Canon (flushFabric va) := keeps_read fun _ _ => flushGranule_canon _

theorem deferUpdate_canon (d : Deferred) : Canon (deferUpdate d) := modHart_canon _

theorem reportItem_canon (p : Item → Bool) : Canon (reportItem p) :=
  keeps_read fun _ h0 => by
      split
      · exact keeps_bind (keeps_set h0) fun _ => keeps_throw _
      · exact keeps_pure _

theorem awaitPerformed_canon : Canon awaitPerformed :=
  keeps_bind flushDeferred_canon fun _ => awaitWhere_canon _ (keeps_throw _)

theorem awaitFlags_canon (p : Nat → Bool) : Canon (awaitFlags p) := awaitWhere_canon _ (keeps_throw _)

theorem releasePackage_canon : Canon releasePackage :=
  keeps_read fun _ _ => keeps_bind (flushWhere_canon _) fun _ => awaitFlags_canon _

theorem addFlags_canon (fl : Flags) : Canon (addFlags fl) := modHart_canon _

theorem readF_canon (t : EType) (r : SReg) : Canon (readF t r) := keeps_bind (readS_canon _) fun _ => keeps_pure _

theorem readFSrc_canon (t : EType) (r : Src) : Canon (readFSrc t r) := by
  unfold readFSrc
  split
  · exact keeps_bind (readF_canon _ _) fun _ => keeps_pure _
  · exact keeps_bind getHart_canon fun _ => keeps_pure _

theorem resolveLate_canon (t : EType) (r : SReg) : Canon (resolveLate t r) :=
  keeps_bind getHart_canon fun _ => keeps_ite (keeps_pure _) (keeps_bind (readF_canon _ _) fun _ => keeps_pure _)

theorem resolveB_canon (t : EType) (r : VSrc) : Canon (resolveB t r) := by
  unfold resolveB
  split
  · exact keeps_pure _
  · exact resolveLate_canon _ _
  · exact keeps_pure _

theorem resolveFB_canon (t : EType) (r : VSrc) : Canon (resolveFB t r) := by
  unfold resolveFB
  split
  · exact keeps_pure _
  · exact keeps_bind (resolveLate_canon _ _) fun _ => keeps_pure _
  · exact keeps_bind getHart_canon fun _ => keeps_pure _

theorem raiseLowest_canon (es : List (Option Nat)) : Canon (raiseLowest es) := by
  unfold raiseLowest
  split
  · exact keeps_throw _
  · exact keeps_pure _

theorem checkPredDest_canon (m d : MName) : Canon (checkPredDest m d) :=
  keeps_bind getHart_canon fun _ => keeps_bind getConvoy_canon fun _ => raiseLowest_canon _

theorem sBin_canon (f : Nat → Nat → Nat → Nat) (x : SInt) : Canon (sBin f x) :=
  keeps_bind (readS_canon _) fun _ => keeps_bind (readSrc_canon _) fun _ => keeps_bind (writeS_canon _ _) fun _ =>
    keeps_pure _

theorem sUn_canon (f : Nat → Nat → Nat) (x : SIntUn) : Canon (sUn f x) :=
  keeps_bind (readS_canon _) fun _ => keeps_bind (writeS_canon _ _) fun _ => keeps_pure _

theorem opSet_canon (x : SSet) : Canon (opSet x) :=
  keeps_bind (readS_canon _) fun _ => keeps_bind (readSrc_canon _) fun _ => keeps_bind (writeS_canon _ _) fun _ =>
    keeps_pure _

theorem opSel_canon (x : SSel) : Canon (opSel x) :=
  keeps_bind (readS_canon _) fun _ => keeps_bind (readSrc_canon _) fun _ => keeps_bind (readS_canon _) fun _ =>
    keeps_bind (writeS_canon _ _) fun _ => keeps_pure _

theorem opBfx_canon (x : SBfx) : Canon (opBfx x) :=
  keeps_bind (readS_canon _) fun _ => keeps_bind (writeS_canon _ _) fun _ => keeps_pure _

theorem opBfi_canon (x : SBfi) : Canon (opBfi x) :=
  keeps_bind (readS_canon _) fun _ => keeps_bind (readS_canon _) fun _ => keeps_bind (writeS_canon _ _) fun _ =>
    keeps_pure _

theorem opLi_canon (x : LImm) : Canon (opLi x) := keeps_bind (writeS_canon _ _) fun _ => keeps_pure _

theorem opLpc_canon (x : LImm) : Canon (opLpc x) :=
  keeps_bind getHart_canon fun _ => keeps_bind (writeS_canon _ _) fun _ => keeps_pure _

theorem takeJump_canon (target : Word) (needBt : Bool) {effect : M Unit} (each : Canon effect) :
    Canon (takeJump target needBt effect) :=
  keeps_bind (checkTarget_canon _ _) fun _ => keeps_bind each fun _ => keeps_pure _

theorem branchIf_canon (p : Bool) (t : Target) {effect : M Unit} (each : Canon effect) : Canon (branchIf p t effect) :=
  keeps_ite (keeps_bind getHart_canon fun _ => takeJump_canon _ _ each) (keeps_bind each fun _ => keeps_pure _)

theorem opB_canon (x : BrReg) : Canon (opB x) :=
  keeps_bind (readS_canon _) fun _ => keeps_bind (readS_canon _) fun _ => branchIf_canon _ _ (keeps_pure _)

theorem opBi_canon (x : BrImm) : Canon (opBi x) := keeps_bind (readS_canon _) fun _ => branchIf_canon _ _ (keeps_pure _)

theorem opJmpr_canon (a : SReg) : Canon (opJmpr a) := keeps_bind (readS_canon _) fun _ => takeJump_canon _ _ (keeps_pure _)

theorem opCallr_canon (a : SReg) : Canon (opCallr a) :=
  keeps_bind (readS_canon _) fun _ => takeJump_canon _ _ (modHart_canon _)

theorem opRet_canon : Canon opRet := keeps_bind (readS_canon _) fun _ => takeJump_canon _ _ (modHart_canon _)

theorem stripAdvance_canon (n step : Nat) (r : SReg) : Canon (stripAdvance n step r) :=
  keeps_ite (keeps_pure _) (keeps_bind (readS_canon _) fun _ => writeS_canon _ _)

theorem opStrip_canon (x : Strip) : Canon (opStrip x) :=
  keeps_bind getHart_canon fun _ => keeps_bind getConvoy_canon fun _ => keeps_bind (readS_canon _) fun _ =>
    keeps_bind (readS_canon _) fun _ => keeps_bind (readS_canon _) fun _ => keeps_bind (readS_canon _) fun _ =>
    branchIf_canon _ _
      (keeps_bind (modCsr_canon _) fun _ =>
       keeps_bind (stripAdvance_canon _ _ _) fun _ =>
       keeps_bind (stripAdvance_canon _ _ _) fun _ =>
       keeps_bind (stripAdvance_canon _ _ _) fun _ =>
       stripAdvance_canon _ _ _)

theorem opVloopl_canon (x : VLoop) : Canon (opVloopl x) :=
  keeps_bind getConvoy_canon fun _ => keeps_bind (require_canon _) fun _ => keeps_bind (stallBound_canon _) fun _ =>
    keeps_bind getHart_canon fun _ => keeps_bind (checkMask_canon _ _ _ _) fun _ => by
      dsimp only
      split
      · exact keeps_bind (keeps_throw _) fun _ => branchIf_canon _ _ (setHart_canon _)
      · exact branchIf_canon _ _ (setHart_canon _)

theorem opBm_canon (x : BrMask) : Canon (opBm x) :=
  keeps_bind getConvoy_canon fun _ => keeps_bind getHart_canon fun _ => keeps_bind (checkMask_canon _ _ _ _) fun _ =>
    branchIf_canon _ _ (keeps_pure _)

theorem opJmpl_canon (x : LJump) : Canon (opJmpl x) := keeps_bind getHart_canon fun _ => takeJump_canon _ _ (keeps_pure _)

theorem opCalll_canon (x : LJump) : Canon (opCalll x) :=
  keeps_bind getHart_canon fun _ => takeJump_canon _ _ (modHart_canon _)

theorem opLd_canon (x : SLoad) : Canon (opLd x) :=
  keeps_bind (readS_canon _) fun _ => keeps_bind (readSrc_canon _) fun _ => keeps_bind (loadVa_canon _ _ _ _ _ _ _) fun _ =>
    keeps_bind (writeS_canon _ _) fun _ => keeps_pure _

theorem releaseOpt_canon (r : Option Scope) : Canon (releaseOpt r) := by
  unfold releaseOpt
  split
  · exact releaseAt_canon _
  · exact keeps_pure _

theorem opSt_canon (x : SStore) : Canon (opSt x) :=
  keeps_bind (readS_canon _) fun _ => keeps_bind (readS_canon _) fun _ => keeps_bind (readSrc_canon _) fun _ =>
    keeps_bind (locate_canon _ _ _ _ _ _) fun _ => keeps_bind (releaseOpt_canon _) fun _ =>
    keeps_bind (storePlace_canon _ _ _ _ _ _ _ _ _) fun _ => keeps_pure _

theorem amoAt_canon (l : Loc) (va : Word) (t : EType) (op : AmoOp) (cmp c : Nat) :
    Canon (amoAt l va t op cmp c) :=
  keeps_bind (flushGranule_canon _) fun _ => keeps_bind (awaitOwn_canon _) fun _ =>
    keeps_bind (awaitLogged_canon _) fun _ => keeps_bind (checkData_canon _ _ _ _) fun _ =>
    keeps_bind (logOne_canon _ _ _ _) fun _ => keeps_bind (meter_canon _ _) fun _ => keeps_read fun _ _ => by
      dsimp only
      split
      · exact keeps_bind (keeps_modify fun _ h => (pokeN_memOk h _ _ _)) fun _ => keeps_pure _
      · exact keeps_pure _

theorem awaitPosted_canon : Canon awaitPosted :=
  keeps_read fun _ _ => by
      split
      · exact keeps_ite (awaitIds_canon _ (keeps_bind (setHart_canon _) fun _ => keeps_throw _)) (keeps_pure _)
      · exact keeps_pure _

theorem opAmo_canon (x : Amo) : Canon (opAmo x) :=
  keeps_bind getHart_canon fun _ =>
    keeps_when (keeps_throw _) fun _ => keeps_bind (readS_canon _) fun _ => keeps_bind (readS_canon _) fun _ =>
      keeps_bind (readS_canon _) fun _ => keeps_bind (locate_canon _ _ _ _ _ _) fun _ =>
      keeps_when (releaseAt_canon _) fun _ =>
        keeps_ite (by
             split
             · exact keeps_bind (deferRoom_canon _) fun _ => keeps_bind (logOne_canon _ _ _ _) fun _ =>
                 keeps_bind (deferLocal_canon _ _ _ _ _ _) fun _ => keeps_pure _
             · exact keeps_bind (deferRoom_canon _) fun _ => keeps_bind getHart_canon fun _ =>
                 keeps_bind (deferUpdate_canon _) fun _ => keeps_pure _)
          (by
             split
             · exact keeps_bind (amoAt_canon _ _ _ _ _ _) fun _ => keeps_bind (writeS_canon _ _) fun _ => keeps_pure _
             · exact keeps_bind (flushFabric_canon _) fun _ =>
                 keeps_ite (keeps_bind (remotePost_canon _ _ _ _ _) fun _ =>
                    keeps_when awaitPosted_canon fun _ => keeps_pure _)
                   (keeps_bind (remoteWait_canon _ _ _ _ _) fun _ => keeps_bind (writeS_canon _ _) fun _ => keeps_pure _))

theorem setWindow_canon (n : Nat) (w : Window) : Canon (setWindow n w) := modCore_canon _

theorem validate_canon (h : Word) : Canon (validate h) := keeps_read fun _ _ => keeps_ite (keeps_pure _) (keeps_throw _)

theorem captureWith_canon (d : CName) (a : SReg) (bm : BitVec 32) (ref : Option SReg) : Canon (captureWith d a bm ref) :=
  keeps_bind (readS_canon _) fun _ => keeps_bind (keeps_mapM (fun _ => readS_canon _) _) fun _ => by
      dsimp only
      split
      · exact keeps_bind (readS_canon _) fun _ => keeps_read fun _ _ =>
          keeps_when (keeps_throw _) fun _ => by
              split
              · exact keeps_throw _
              · exact keeps_bind (setWindow_canon _ _) fun _ => keeps_bind (writeC_canon _ _) fun _ => keeps_pure _
      · exact keeps_bind (keeps_pure _) fun _ => keeps_read fun _ _ =>
          keeps_when (keeps_throw _) fun _ => by
              split
              · exact keeps_throw _
              · exact keeps_bind (setWindow_canon _ _) fun _ => keeps_bind (writeC_canon _ _) fun _ => keeps_pure _

theorem opCdup_canon (d a : CName) : Canon (opCdup d a) :=
  keeps_bind (readC_canon _) fun _ => keeps_bind (validate_canon _) fun _ =>
    keeps_when (keeps_throw _) fun _ => keeps_read fun _ _ => keeps_bind (setWindow_canon _ _) fun _ =>
      keeps_bind (writeC_canon _ _) fun _ => keeps_pure _

theorem opCdrop_canon (a : CName) : Canon (opCdrop a) :=
  keeps_bind (readC_canon _) fun _ => keeps_bind (validate_canon _) fun _ => keeps_read fun _ _ =>
    keeps_bind (setWindow_canon _ _) fun _ => keeps_bind (writeC_canon _ _) fun _ => keeps_pure _

theorem opApply_canon (a : CName) : Canon (opApply a) :=
  keeps_bind (readC_canon _) fun _ => keeps_bind (validate_canon _) fun _ => keeps_bind getCtx_canon fun _ =>
    takeJump_canon _ _ (keeps_bind (modHart_canon _) fun _ => modCsr_canon _)

theorem opCenv_canon (d : SReg) (k : BitVec 4) : Canon (opCenv d k) :=
  keeps_bind getHart_canon fun _ => keeps_bind (validate_canon _) fun _ =>
    keeps_ite (keeps_bind (require_canon _) fun _ =>
       keeps_when (keeps_throw _) fun _ => keeps_bind (writeS_canon _ _) fun _ => keeps_pure _)
      (keeps_bind (require_canon _) fun _ =>
       keeps_when (keeps_throw _) fun _ => keeps_read fun _ _ =>
         keeps_when (keeps_throw _) fun _ =>
           keeps_when (keeps_throw _) fun _ => keeps_bind (writeS_canon _ _) fun _ => keeps_pure _)

theorem opCld_canon (x : CLoad) : Canon (opCld x) :=
  keeps_bind (readS_canon _) fun _ => keeps_bind (loadVa_canon _ _ _ _ _ _ _) fun _ =>
    keeps_bind (writeC_canon _ _) fun _ => keeps_pure _

theorem opCldR_canon (d : CName) (a : SReg) : Canon (opCldR d a) :=
  keeps_bind (readS_canon _) fun _ => keeps_bind (writeC_canon _ _) fun _ => keeps_pure _

theorem opCst_canon (x : CStore) : Canon (opCst x) :=
  keeps_bind (readC_canon _) fun _ => keeps_bind (readS_canon _) fun _ =>
    keeps_bind (storeVa_canon _ _ _ _ _ _ _ _ _) fun _ => keeps_pure _

theorem opCstR_canon (d : SReg) (c : CName) : Canon (opCstR d c) :=
  keeps_bind (readC_canon _) fun _ => keeps_bind (writeS_canon _ _) fun _ => keeps_pure _

theorem vInt3_canon (f : Nat → Nat → Nat → Nat → Nat) (readsD : Bool) (x : VOp) : Canon (vInt3 f readsD x) :=
  keeps_bind (checkVec_canon _ _) fun _ => keeps_bind (resolveB_canon _ _) fun _ => keeps_bind (vecLoop_canon _ _) fun _ =>
    keeps_pure _

end Sys2Proof.Machine
end

section
/-! PROOFS. Log 3: the operations of the vector unit, the tiles and the accumulators keep memory in its canonical form. -/

namespace Sys2Proof.Machine

theorem vInt_canon (f : Nat → Nat → Nat → Nat) (x : VOp) : Canon (vInt f x) := vInt3_canon _ _ _

theorem vUnary_canon (f : EType → Nat → Nat × Flags) (x : VUn) : Canon (vUnary f x) :=
  keeps_bind (checkVec_canon _ _) fun _ => keeps_bind (vecLoop_canon _ _) fun _ => keeps_pure _

theorem vCompare_canon (t : EType) (d : MName) (a : VName) (b : VArg) (m : MName) (f : Nat → Nat → Bool × Flags) :
    Canon (vCompare t d a b m f) :=
  keeps_bind getConvoy_canon fun _ => keeps_bind (stallBound_canon _) fun _ => keeps_bind (checkPredDest_canon _ _) fun _ =>
    keeps_bind getHart_canon fun _ => keeps_bind (modHart_canon _) fun _ => runElems_canon _ _

theorem opVcmp_canon (x : VCmp) : Canon (opVcmp x) :=
  keeps_bind (checkVec_canon _ _) fun _ => keeps_bind (resolveB_canon _ _) fun _ =>
    keeps_bind (vCompare_canon _ _ _ _ _ _) fun _ => keeps_pure _

theorem opVsel_canon (x : VOp) : Canon (opVsel x) :=
  keeps_bind (checkVec_canon _ _) fun _ => keeps_bind (resolveB_canon _ _) fun _ => keeps_bind (checkPred_canon _) fun _ =>
    keeps_bind getConvoy_canon fun _ => keeps_bind getHart_canon fun _ => keeps_bind (runElems_canon _ _) fun _ =>
    keeps_pure _

theorem vConvert_canon (scaled : Bool) (f : Hart → Nat → Nat → Nat × Flags × Bool) (x : VConv) :
    Canon (vConvert scaled f x) :=
  keeps_bind getConvoy_canon fun _ => keeps_bind (require_canon _) fun _ => keeps_bind (stallBound_canon _) fun _ =>
    keeps_bind (checkPredDest_canon _ _) fun _ => keeps_bind getHart_canon fun _ => keeps_bind (modHart_canon _) fun _ =>
    keeps_bind (runElems_canon _ _) fun _ => keeps_pure _

theorem slotCheck_canon (v : Word) (foreign : Bool) : Canon (slotCheck v foreign) :=
  keeps_read fun _ _ => keeps_when (keeps_throw _) fun _ => keeps_when (keeps_throw _) fun _ => keeps_pure _

theorem opTlook_canon (x : S2) : Canon (opTlook x) :=
  keeps_bind (readS_canon _) fun _ => keeps_read fun _ _ => keeps_bind (writeS_canon _ _) fun _ => keeps_pure _

theorem tagSlot_canon (n : Nat) (tag : BitVec 48) : Canon (tagSlot n tag) := keeps_modify fun _ h => h

theorem opTtag_canon (x : S3) : Canon (opTtag x) :=
  keeps_bind (readS_canon _) fun _ => keeps_bind (readS_canon _) fun _ => keeps_read fun _ _ =>
    keeps_ite (by
         split
         · exact keeps_bind (writeS_canon _ _) fun _ => keeps_pure _
         · exact keeps_bind (tagSlot_canon _ _) fun _ => keeps_bind (writeS_canon _ _) fun _ => keeps_pure _)
      (keeps_bind (slotCheck_canon _ _) fun _ =>
       keeps_when (keeps_throw _) fun _ => keeps_bind (tagSlot_canon _ _) fun _ => keeps_bind (writeS_canon _ _) fun _ =>
         keeps_pure _)

theorem opTstat_canon (x : S2) : Canon (opTstat x) :=
  keeps_bind (readS_canon _) fun _ => keeps_bind (slotCheck_canon _ _) fun _ => keeps_bind getHart_canon fun _ =>
    keeps_bind (writeS_canon _ _) fun _ => keeps_pure _

theorem opTwait_canon (x : S2) : Canon (opTwait x) :=
  keeps_bind (readS_canon _) fun _ => keeps_bind (slotCheck_canon _ _) fun _ => keeps_bind getHart_canon fun _ =>
    keeps_when (keeps_throw _) fun _ => keeps_bind (writeS_canon _ _) fun _ => keeps_pure _

theorem opTrel_canon (a : SReg) : Canon (opTrel a) :=
  keeps_bind (readS_canon _) fun _ => keeps_bind (slotCheck_canon _ _) fun _ =>
    keeps_when (keeps_throw _) fun _ =>
      keeps_when (keeps_throw _) fun _ => keeps_bind (keeps_modify fun _ h => (freeSlot_memOk _ _ h)) fun _ => keeps_pure _

theorem engineRoom_canon (m : MName) : Canon (engineRoom m) :=
  keeps_bind (stallBound_canon _) fun _ => keeps_bind getCore_canon fun _ => keeps_ite (keeps_throw _) (keeps_pure _)

theorem startTransfer_canon (t : Transfer) : Canon (startTransfer t) := by
  unfold startTransfer
  exact by
      dsimp only
      split
      · exact keeps_bind (writeMaskAll_canon _ _) fun _ => keeps_bind (modHart_canon _) fun _ => modCore_canon _
      · exact modCore_canon _

theorem tileMoveCheck_canon (slot len va : Word) : Canon (tileMoveCheck slot len va) :=
  keeps_bind (slotCheck_canon _ _) fun _ =>
    keeps_when (keeps_throw _) fun _ => keeps_when (keeps_throw _) fun _ => keeps_pure _

theorem setTileState_canon (n : Nat) (st : TileState) : Canon (setTileState n st) := modCore_canon _

theorem opTfill_canon (x : TFill) : Canon (opTfill x) :=
  keeps_bind (readS_canon _) fun _ => keeps_bind (readS_canon _) fun _ => keeps_bind (readS_canon _) fun _ =>
    keeps_bind (tileMoveCheck_canon _ _ _) fun _ =>
    keeps_when (keeps_throw _) fun _ =>
      keeps_when (keeps_throw _) fun _ => keeps_bind (engineRoom_canon _) fun _ => keeps_bind releasePackage_canon fun _ =>
        keeps_read fun _ _ => keeps_bind (startTransfer_canon _) fun _ => keeps_bind (setTileState_canon _ _) fun _ =>
        keeps_pure _

theorem opTdrain_canon (x : TDrain) : Canon (opTdrain x) :=
  keeps_bind (readS_canon _) fun _ => keeps_bind (readS_canon _) fun _ => keeps_bind (readS_canon _) fun _ =>
    keeps_bind (tileMoveCheck_canon _ _ _) fun _ =>
    keeps_when (keeps_throw _) fun _ =>
      keeps_when (keeps_throw _) fun _ => keeps_bind (engineRoom_canon _) fun _ => keeps_bind releasePackage_canon fun _ =>
        keeps_read fun _ _ => keeps_bind (startTransfer_canon _) fun _ => keeps_bind (setTileState_canon _ _) fun _ =>
        keeps_pure _

theorem tileElem_canon (slot : Option Nat) (va : Word) (n e : Nat) : Canon (tileElem slot va n e) :=
  keeps_when (keeps_throw _) fun _ => keeps_ite (keeps_throw _) (keeps_pure _)

theorem chunkElems_canon (m : MName) (ea : Nat → Word) : Canon (chunkElems m ea) :=
  keeps_bind getHart_canon fun _ => by
      dsimp only
      split
      · exact keeps_throw _
      · exact keeps_pure _

theorem tileIssue_canon (m : MName) (base : Word) : Canon (tileIssue m base) := by
  unfold tileIssue
  split
  · exact keeps_pure _
  · exact keeps_read fun _ _ => keeps_bind (slotReady_canon _ _ _) fun _ => keeps_pure _

theorem opVldt_canon (x : VMem) : Canon (opVldt x) :=
  keeps_bind (checkVec_canon _ _) fun _ => keeps_bind (readS_canon _) fun _ => keeps_bind (tileIssue_canon _ _) fun _ =>
    keeps_ite (keeps_bind (chunkElems_canon _ _) fun _ =>
       keeps_bind (memLoop_canon _
          (fun _ =>
           keeps_bind (tileElem_canon _ _ _ _) fun _ =>
           keeps_bind (tileLoad_canon _ _ _) fun _ =>
           modHart_canon _)) fun _ =>
       keeps_pure _)
      (keeps_bind (memElems_canon _) fun _ =>
       keeps_bind (memLoop_canon _
          (fun _ =>
           keeps_bind (tileElem_canon _ _ _ _) fun _ =>
           keeps_bind (tileLoad_canon _ _ _) fun _ =>
           modHart_canon _)) fun _ =>
       keeps_pure _)

theorem opVstt_canon (x : VMem) : Canon (opVstt x) :=
  keeps_bind (checkVec_canon _ _) fun _ => keeps_bind (readS_canon _) fun _ => keeps_bind (tileIssue_canon _ _) fun _ =>
    keeps_bind (memElems_canon _) fun _ =>
    keeps_bind (memLoop_canon _
       (fun _ =>
        keeps_bind getHart_canon fun _ =>
        keeps_when (keeps_throw _) fun _ => keeps_bind (tileElem_canon _ _ _ _) fun _ => tileStore_canon _ _ _)) fun _ =>
    keeps_pure _

/-- A post is appended in its core's queue or in the saved one. -/
theorem appendPost_memOk (core : Nat) (p : Post) {s : State} (holds : s.memOk) : (appendPost core p s).memOk :=
  appendPost_keeps memOk_work.toEngine core p holds

theorem postRoom_canon : Canon postRoom := keeps_read fun _ _ => keeps_ite (keeps_throw _) (keeps_pure _)

theorem takeRef_canon (h : Word) : Canon (takeRef h) := keeps_read fun _ _ => setWindow_canon _ _

theorem checkRef_canon (h : Word) : Canon (checkRef h) :=
  keeps_bind (validate_canon _) fun _ => keeps_ite (keeps_throw _) (keeps_pure _)

theorem checkStatus_canon (a : Word) : Canon (checkStatus a) := keeps_ite (keeps_throw _) (keeps_pure _)

theorem opApplyq_canon (x : ApplyQ) : Canon (opApplyq x) :=
  keeps_bind (readC_canon _) fun _ => keeps_bind (readS_canon _) fun _ => keeps_bind (checkRef_canon _) fun _ =>
    keeps_bind (checkStatus_canon _) fun _ => keeps_bind postRoom_canon fun _ => keeps_bind awaitPerformed_canon fun _ =>
    keeps_bind (takeRef_canon _) fun _ => keeps_bind (keeps_modify fun _ h => (appendPost_memOk _ _ h)) fun _ =>
    keeps_pure _

theorem closureArg_canon (cl : Option CName) : Canon (closureArg cl) := by
  unfold closureArg
  split
  · exact keeps_pure _
  · exact keeps_bind (readC_canon _) fun _ => keeps_bind (checkRef_canon _) fun _ => keeps_pure _

theorem takeClosure_canon (cl : Option Word) : Canon (takeClosure cl) := by
  unfold takeClosure
  split
  · exact keeps_pure _
  · exact takeRef_canon _

theorem startCopy_canon (kind : TransferKind) (x : Copy) (total row : Nat) (dpitch spitch : Word) :
    Canon (startCopy kind x total row dpitch spitch) :=
  keeps_bind (readS_canon _) fun _ => keeps_bind (readS_canon _) fun _ => keeps_bind (require_canon _) fun _ =>
    keeps_bind (require_canon _) fun _ =>
    keeps_when (keeps_throw _) fun _ =>
      keeps_when (keeps_throw _) fun _ => keeps_bind (closureArg_canon _) fun _ => keeps_bind (engineRoom_canon _) fun _ =>
        keeps_when postRoom_canon fun _ => keeps_bind releasePackage_canon fun _ =>
          keeps_bind (takeClosure_canon _) fun _ => keeps_read fun _ _ => keeps_bind (startTransfer_canon _) fun _ =>
          keeps_pure _

theorem opCpy_canon (x : Copy) : Canon (opCpy x) := keeps_bind (readS_canon _) fun _ => startCopy_canon _ _ _ _ _ _

theorem opCpy2_canon (x : Copy) : Canon (opCpy2 x) :=
  keeps_bind (readS_canon _) fun _ => keeps_bind (readS_canon _) fun _ => startCopy_canon _ _ _ _ _ _

theorem opCstat_canon (x : CStat) : Canon (opCstat x) :=
  keeps_bind getConvoy_canon fun _ => keeps_bind (writeS_canon _ _) fun _ => keeps_bind (writeS_canon _ _) fun _ =>
    keeps_when (modConvoy_canon _) fun _ => keeps_pure _

theorem checkGrant_canon (r : Nat) : Canon (checkGrant r) := keeps_read fun _ _ => keeps_ite (keeps_throw _) (keeps_pure _)

theorem regionArg_canon (v : Word) : Canon (regionArg v) :=
  keeps_bind (require_canon _) fun _ => keeps_bind (checkGrant_canon _) fun _ => keeps_pure _

theorem beginHead_mem (r : Nat) (s : State) : (beginHead r s).mem = s.mem := by
  unfold beginHead
  dsimp only
  repeat' split
  all_goals rfl

theorem acceptCommand_memOk (r : Nat) (c : DepotCmd) {s : State} (holds : s.memOk) : (acceptCommand r c s).memOk := by
  unfold acceptCommand
  dsimp only
  split
  · exact holds
  · exact memOk_of_mem holds (beginHead_mem _ _)

theorem giveCommand_canon (r : Nat) (c : State → DepotCmd) (cl : Option CName) : Canon (giveCommand r c cl) :=
  keeps_bind getHart_canon fun _ =>
    keeps_ite (keeps_bind (modHart_canon _) fun _ => keeps_pure _)
      (keeps_bind (closureArg_canon _) fun _ =>
       keeps_when postRoom_canon fun _ => keeps_bind releasePackage_canon fun _ => keeps_bind (takeClosure_canon _) fun _ =>
         keeps_bind (keeps_modify fun _ h => acceptCommand_memOk _ _ h) fun _ =>
         keeps_pure _)

theorem opDopen_canon (x : DCmd) : Canon (opDopen x) :=
  keeps_bind (readS_canon _) fun _ => keeps_bind (regionArg_canon _) fun _ => giveCommand_canon _ _ _

theorem opDseal_canon (x : DCmd) : Canon (opDseal x) :=
  keeps_bind (readS_canon _) fun _ => keeps_bind (regionArg_canon _) fun _ => giveCommand_canon _ _ _

theorem opStow_canon (x : Stow) : Canon (opStow x) :=
  keeps_bind (readS_canon _) fun _ => keeps_bind (readS_canon _) fun _ => keeps_bind (readS_canon _) fun _ =>
    keeps_bind (require_canon _) fun _ => keeps_bind (checkGrant_canon _) fun _ => keeps_bind (require_canon _) fun _ =>
    giveCommand_canon _ _ _

theorem opDquery_canon (x : S2) : Canon (opDquery x) :=
  keeps_bind (readS_canon _) fun _ => keeps_bind (regionArg_canon _) fun _ => keeps_read fun _ _ =>
    keeps_bind (writeS_canon _ _) fun _ => keeps_pure _

theorem logBanks_canon (kind : Nat) (base : Word) (banked : Bool) (ls : List (Nat × Loc)) :
    Canon (logBanks kind base banked ls) :=
  logAccesses_canon _ _

theorem opLdp_canon (x : PLoad) : Canon (opLdp x) :=
  keeps_bind (readS_canon _) fun _ => keeps_bind (readS_canon _) fun _ => by
      dsimp only
      split
      · exact keeps_bind (writeS_canon _ _) fun _ => keeps_pure _
      · exact keeps_bind (bankLoc_canon _ _ _ _) fun _ =>
          keeps_bind (bankScan_canon _ (fun _ => bankCheck_canon _ _ _ _ _)) fun _ => by
            split
            · exact keeps_bind (keeps_throw _) fun _ => keeps_pure _
            · exact keeps_bind (keeps_forM (fun _ => flushGranule_canon _) _) fun _ =>
                keeps_bind (keeps_forM (fun _ => bankWait_canon _) _) fun _ =>
                keeps_bind (keeps_forM (fun _ => bankData_canon _ _ _ _) _) fun _ =>
                keeps_bind (logBanks_canon _ _ _ _) fun _ => keeps_bind (keeps_forM (fun _ => meter_canon _ _) _) fun _ =>
                keeps_read fun _ _ => keeps_bind (writeS_canon _ _) fun _ => keeps_bind (addFlags_canon _) fun _ =>
                keeps_pure _

theorem wholeActive_canon (a : VName) (w : Nat) (m : MName) : Canon (wholeActive a w m) :=
  keeps_bind (checkPred_canon _) fun _ => keeps_bind getConvoy_canon fun _ => keeps_bind getHart_canon fun _ => by
      dsimp only
      split
      · exact keeps_throw _
      · exact keeps_pure _

theorem opVred_canon (x : VRed) : Canon (opVred x) :=
  keeps_bind (checkVec_canon _ _) fun _ => keeps_bind (readS_canon _) fun _ => keeps_bind (wholeActive_canon _ _ _) fun _ =>
    keeps_bind getHart_canon fun _ => keeps_bind (modHart_canon _) fun _ => keeps_bind (writeS_canon _ _) fun _ =>
    keeps_pure _

theorem opVfred_canon (x : VFRed) : Canon (opVfred x) :=
  keeps_bind (checkVec_canon _ _) fun _ => keeps_bind (readS_canon _) fun _ => keeps_bind (wholeActive_canon _ _ _) fun _ =>
    keeps_bind getHart_canon fun _ => keeps_bind (modHart_canon _) fun _ => keeps_bind (writeS_canon _ _) fun _ =>
    keeps_bind (addFlags_canon _) fun _ => keeps_pure _

theorem scanWith_canon (f : Nat → Nat → Nat × Flags) (t : EType) (excl : Bool) (d a : VName) (b c : SReg) (m : MName) :
    Canon (scanWith f t excl d a b c m) :=
  keeps_bind (checkVec_canon _ _) fun _ => keeps_bind (readS_canon _) fun _ => keeps_bind (wholeActive_canon _ _ _) fun _ =>
    keeps_bind getHart_canon fun _ => keeps_bind (modHart_canon _) fun _ => keeps_bind (writeS_canon _ _) fun _ =>
    keeps_bind (addFlags_canon _) fun _ => keeps_pure _

theorem pdotGranule_canon (b : Nat) (va : Word) : Canon (pdotGranule b va) :=
  keeps_bind (locate_canon _ _ _ _ _ _) fun _ => by
      split
      · exact keeps_throw _
      · exact keeps_when (keeps_throw _) fun _ => keeps_pure _

theorem pdotRowCheck_canon (base : Word) (x : PDot) (b : Nat) : Canon (pdotRowCheck base x b) :=
  keeps_bind (keeps_mapM (fun _ => pdotGranule_canon _ _) _) fun _ => keeps_pure _

theorem pdotData_canon (b : Nat) (q : Word × Loc) : Canon (pdotData b q) :=
  keeps_read fun _ _ => by
      split
      · exact keeps_throw _
      · exact keeps_pure _

theorem pdotCheck_canon (base : Word) (x : PDot) (banks : List Nat) : Canon (pdotCheck base x banks) :=
  keeps_bind (keeps_mapM (fun _ => pdotRowCheck_canon _ _ _) _) fun _ =>
    keeps_bind (keeps_forM (fun _ => keeps_forM (fun _ => pdotData_canon _ _) _) _) fun _ => keeps_pure _

theorem opPdot_canon (x : PDot) : Canon (opPdot x) :=
  keeps_bind (readS_canon _) fun _ =>
    keeps_ite (keeps_pure _)
      (keeps_bind (readS_canon _) fun _ =>
       keeps_bind getHart_canon fun _ => by
         dsimp only
         split
         · exact keeps_bind (keeps_throw _) fun _ =>
             keeps_when (keeps_throw _) fun _ => keeps_bind (pdotCheck_canon _ _ _) fun _ =>
               keeps_bind getCore_canon fun _ =>
               keeps_when (keeps_throw _) fun _ =>
                 keeps_bind (keeps_forM (fun _ =>
                     keeps_forM (fun _ => keeps_bind (flushGranule_canon _) fun _ => awaitOwn_canon _) _) _) fun _ =>
                 keeps_read fun _ _ => keeps_bind (modHart_canon _) fun _ => keeps_bind (addFlags_canon _) fun _ =>
                 keeps_pure _
         · exact keeps_when (keeps_throw _) fun _ => keeps_bind (pdotCheck_canon _ _ _) fun _ =>
               keeps_bind getCore_canon fun _ =>
               keeps_when (keeps_throw _) fun _ =>
                 keeps_bind (keeps_forM (fun _ =>
                     keeps_forM (fun _ => keeps_bind (flushGranule_canon _) fun _ => awaitOwn_canon _) _) _) fun _ =>
                 keeps_read fun _ _ => keeps_bind (modHart_canon _) fun _ => keeps_bind (addFlags_canon _) fun _ =>
                 keeps_pure _)

theorem checkPermute_canon (t : EType) (d : VName) (srcs : List VName) : Canon (checkPermute t d srcs) :=
  keeps_bind (checkVec_canon _ _) fun _ => keeps_bind getConvoy_canon fun _ => require_canon _

theorem permuteTo_canon (d : VName) (w : Nat) (is : List Nat) (picks : Nat → List Pick) (value : Hart → Nat → Nat) :
    Canon (permuteTo d w is picks value) :=
  keeps_bind getHart_canon fun _ => by
      split
      · exact keeps_throw _
      · exact setHart_canon _

theorem permuteDest_canon (m : MName) : Canon (permuteDest m) :=
  keeps_bind (checkPred_canon _) fun _ => keeps_bind getConvoy_canon fun _ => keeps_bind getHart_canon fun _ => keeps_pure _

theorem fillOf_canon (w : Nat) (c : SReg) : Canon (fillOf w c) := keeps_bind (readS_canon _) fun _ => keeps_pure _

theorem opVslup_canon (x : VSlide) : Canon (opVslup x) :=
  keeps_bind (checkPermute_canon _ _ _) fun _ => keeps_bind (readSrcZ_canon _) fun _ =>
    keeps_bind (fillOf_canon _ _) fun _ => keeps_bind (permuteDest_canon _) fun _ =>
    keeps_bind (permuteTo_canon _ _ _ _ _) fun _ => keeps_pure _

theorem opVsldn_canon (x : VSlide) : Canon (opVsldn x) :=
  keeps_bind (checkPermute_canon _ _ _) fun _ => keeps_bind (readSrcZ_canon _) fun _ =>
    keeps_bind (fillOf_canon _ _) fun _ => keeps_bind (permuteDest_canon _) fun _ => keeps_bind getHart_canon fun _ =>
    keeps_bind (permuteTo_canon _ _ _ _ _) fun _ => keeps_pure _

theorem gathIndex_canon (r : VSrc) : Canon (gathIndex r) := by
  unfold gathIndex
  split
  · exact keeps_pure _
  · exact keeps_bind (readS_canon _) fun _ => keeps_pure _
  · exact keeps_pure _

theorem opVgath_canon (x : VOp) : Canon (opVgath x) :=
  keeps_bind (checkPermute_canon _ _ _) fun _ => keeps_bind (gathIndex_canon _) fun _ =>
    keeps_bind (permuteDest_canon _) fun _ => keeps_bind getConvoy_canon fun _ => keeps_bind getHart_canon fun _ =>
    keeps_bind (permuteTo_canon _ _ _ _ _) fun _ => keeps_pure _

theorem activeBelow_canon (m : MName) : Canon (activeBelow m) :=
  keeps_bind getConvoy_canon fun _ => keeps_bind getHart_canon fun _ => keeps_bind (checkMask_canon _ _ _ _) fun _ =>
    keeps_pure _

theorem opVcomp_canon (x : VComp) : Canon (opVcomp x) :=
  keeps_bind (checkPermute_canon _ _ _) fun _ => keeps_bind (activeBelow_canon _) fun _ => keeps_bind getHart_canon fun _ =>
    keeps_bind (permuteTo_canon _ _ _ _ _) fun _ => keeps_bind (writeS_canon _ _) fun _ => keeps_pure _

theorem opVexpd_canon (x : VUn) : Canon (opVexpd x) :=
  keeps_bind (checkPermute_canon _ _ _) fun _ => keeps_bind (activeBelow_canon _) fun _ => keeps_bind getHart_canon fun _ =>
    keeps_bind (permuteTo_canon _ _ _ _ _) fun _ => keeps_pure _

theorem opVbshl_canon (x : VBsh) : Canon (opVbshl x) :=
  keeps_bind (checkPermute_canon _ _ _) fun _ => keeps_bind (readSrcZ_canon _) fun _ =>
    keeps_bind (permuteDest_canon _) fun _ => keeps_bind getHart_canon fun _ =>
    keeps_bind (permuteTo_canon _ _ _ _ _) fun _ => keeps_pure _

theorem opVbshr_canon (x : VBsh) : Canon (opVbshr x) :=
  keeps_bind (checkPermute_canon _ _ _) fun _ => keeps_bind (readSrcZ_canon _) fun _ =>
    keeps_bind (permuteDest_canon _) fun _ => keeps_bind getHart_canon fun _ =>
    keeps_bind (permuteTo_canon _ _ _ _ _) fun _ => keeps_pure _

theorem opVfnl_canon (x : VFnl) : Canon (opVfnl x) :=
  keeps_bind (checkPermute_canon _ _ _) fun _ => keeps_bind (permuteDest_canon _) fun _ => keeps_bind getHart_canon fun _ =>
    keeps_bind (readS_canon _) fun _ => keeps_bind (permuteTo_canon _ _ _ _ _) fun _ => keeps_pure _

theorem opVmvs_canon (x : VMvs) : Canon (opVmvs x) :=
  keeps_bind (checkVec_canon _ _) fun _ => keeps_bind (readSrcZ_canon _) fun _ => keeps_bind getConvoy_canon fun _ =>
    keeps_bind getHart_canon fun _ =>
    keeps_ite (keeps_ite (keeps_bind (keeps_throw _) fun _ => keeps_pure _)
         (keeps_bind (writeS_canon _ _) fun _ => keeps_pure _))
      (keeps_bind (writeS_canon _ _) fun _ => keeps_pure _)

theorem opVmvx_canon (x : VMvx) : Canon (opVmvx x) :=
  keeps_bind (checkVec_canon _ _) fun _ => keeps_bind (readSrcZ_canon _) fun _ => keeps_bind (readS_canon _) fun _ =>
    keeps_bind getConvoy_canon fun _ => keeps_when (modHart_canon _) fun _ => keeps_pure _

theorem opVid_canon (x : VId) : Canon (opVid x) :=
  keeps_bind (checkVec_canon _ _) fun _ => keeps_bind (readS_canon _) fun _ => keeps_bind (permuteDest_canon _) fun _ =>
    keeps_bind (permuteTo_canon _ _ _ _ _) fun _ => keeps_pure _

theorem opVrev_canon (x : VUn) : Canon (opVrev x) :=
  keeps_bind (checkPermute_canon _ _ _) fun _ => keeps_bind (permuteDest_canon _) fun _ => keeps_bind getHart_canon fun _ =>
    keeps_bind (permuteTo_canon _ _ _ _ _) fun _ => keeps_pure _

theorem fBin_canon (f : EType → Nat → Nat → Nat → Nat × Flags) (x : SFp) : Canon (fBin f x) :=
  keeps_bind (readF_canon _ _) fun _ => keeps_bind (readFSrc_canon _ _) fun _ => keeps_bind getHart_canon fun _ =>
    keeps_bind (writeS_canon _ _) fun _ => keeps_bind (addFlags_canon _) fun _ => keeps_pure _

theorem fUn_canon (f : EType → Nat → Nat → Nat × Flags) (x : SFpUn) : Canon (fUn f x) :=
  keeps_bind (readF_canon _ _) fun _ => keeps_bind getHart_canon fun _ => keeps_bind (writeS_canon _ _) fun _ =>
    keeps_bind (addFlags_canon _) fun _ => keeps_pure _

theorem opFma_canon (x : SFma) : Canon (opFma x) :=
  keeps_bind (readF_canon _ _) fun _ => keeps_bind (readFSrc_canon _ _) fun _ => keeps_bind (readF_canon _ _) fun _ =>
    keeps_bind getHart_canon fun _ => keeps_bind (writeS_canon _ _) fun _ => keeps_bind (addFlags_canon _) fun _ =>
    keeps_pure _

theorem opFset_canon (x : SFset) : Canon (opFset x) :=
  keeps_bind (readF_canon _ _) fun _ => keeps_bind (readFSrc_canon _ _) fun _ => keeps_bind (writeS_canon _ _) fun _ =>
    keeps_bind (addFlags_canon _) fun _ => keeps_pure _

theorem opFcvt_canon (x : SFcvt) : Canon (opFcvt x) :=
  keeps_bind (readF_canon _ _) fun _ => keeps_bind getHart_canon fun _ => keeps_bind (writeS_canon _ _) fun _ =>
    keeps_bind (addFlags_canon _) fun _ => keeps_pure _

theorem opFsgn_canon (x : SFsgn) : Canon (opFsgn x) :=
  keeps_bind (readF_canon _ _) fun _ => keeps_bind (readF_canon _ _) fun _ => keeps_bind (writeS_canon _ _) fun _ =>
    keeps_pure _

theorem vFp_canon (f : EType → Nat → Nat → Nat → Nat × Flags) (x : VOp) : Canon (vFp f x) :=
  keeps_bind (checkVec_canon _ _) fun _ => keeps_bind (resolveFB_canon _ _) fun _ => keeps_bind getHart_canon fun _ =>
    keeps_bind (vecLoop_canon _ _) fun _ => keeps_bind (addFlags_canon _) fun _ => keeps_pure _

theorem vFpUn_canon (f : EType → Nat → Nat → Nat × Flags) (x : VUn) : Canon (vFpUn f x) :=
  keeps_bind getHart_canon fun _ => vUnary_canon _ _

theorem opVfma_canon (x : VFma) : Canon (opVfma x) :=
  keeps_bind (checkVec_canon _ _) fun _ => keeps_bind (resolveFB_canon _ _) fun _ => keeps_bind getHart_canon fun _ =>
    keeps_bind (vecLoop_canon _ _) fun _ => keeps_bind (addFlags_canon _) fun _ => keeps_pure _

theorem opVfcmp_canon (x : VFcmp) : Canon (opVfcmp x) :=
  keeps_bind (checkVec_canon _ _) fun _ => keeps_bind (resolveFB_canon _ _) fun _ =>
    keeps_bind (vCompare_canon _ _ _ _ _ _) fun _ => keeps_bind (addFlags_canon _) fun _ => keeps_pure _

theorem opVfsgn_canon (x : VFsgn) : Canon (opVfsgn x) :=
  keeps_bind (checkVec_canon _ _) fun _ => keeps_bind (resolveFB_canon _ _) fun _ => keeps_bind (vecLoop_canon _ _) fun _ =>
    keeps_pure _

theorem streamFits_canon (is : List Nat) (eb : Nat) : Canon (streamFits is eb) := keeps_ite (keeps_throw _) (keeps_pure _)

theorem opVspush_canon (x : VSPush) : Canon (opVspush x) :=
  keeps_bind (checkVec_canon _ _) fun _ => keeps_bind (checkPred_canon _) fun _ => keeps_bind getConvoy_canon fun _ =>
    keeps_bind getHart_canon fun _ => keeps_bind (streamFits_canon _ _) fun _ =>
    keeps_when (keeps_throw _) fun _ => by
        split
        · exact keeps_throw _
        · exact keeps_bind (modConvoy_canon _) fun _ => keeps_bind (modHart_canon _) fun _ =>
            keeps_bind (writeS_canon _ _) fun _ => keeps_pure _

theorem opVspop_canon (x : VSPop) : Canon (opVspop x) :=
  keeps_bind (checkVec_canon _ _) fun _ => keeps_bind (checkPred_canon _) fun _ => keeps_bind getConvoy_canon fun _ =>
    keeps_bind getHart_canon fun _ =>
    keeps_ite (keeps_bind (streamFits_canon _ _) fun _ =>
       keeps_ite (keeps_bind (keeps_throw _) fun _ => by
            dsimp only
            split
            · exact keeps_bind (keeps_throw _) fun _ => keeps_bind (modConvoy_canon _) fun _ =>
                keeps_bind (modHart_canon _) fun _ => keeps_bind (writeS_canon _ _) fun _ => keeps_pure _
            · exact keeps_bind (modConvoy_canon _) fun _ => keeps_bind (modHart_canon _) fun _ =>
                keeps_bind (writeS_canon _ _) fun _ => keeps_pure _)
         (by
            dsimp only
            split
            · exact keeps_bind (keeps_throw _) fun _ => keeps_bind (modConvoy_canon _) fun _ =>
                keeps_bind (modHart_canon _) fun _ => keeps_bind (writeS_canon _ _) fun _ => keeps_pure _
            · exact keeps_bind (modConvoy_canon _) fun _ => keeps_bind (modHart_canon _) fun _ =>
                keeps_bind (writeS_canon _ _) fun _ => keeps_pure _))
      (by
         dsimp only
         split
         · exact keeps_bind (keeps_throw _) fun _ => keeps_bind (modConvoy_canon _) fun _ =>
             keeps_bind (modHart_canon _) fun _ => keeps_bind (writeS_canon _ _) fun _ => keeps_pure _
         · exact keeps_bind (modConvoy_canon _) fun _ => keeps_bind (modHart_canon _) fun _ =>
             keeps_bind (writeS_canon _ _) fun _ => keeps_pure _)

theorem resolveStage_canon (ty : EType) (r : StageSrc) : Canon (resolveStage ty r) := by
  unfold resolveStage
  split
  · exact keeps_pure _
  · exact resolveLate_canon _ _

theorem resolveHead_canon (ty : EType) (b : VSrc) : Canon (resolveHead ty b) :=
  keeps_ite (resolveFB_canon _ _) (keeps_bind (resolveB_canon _ _) fun _ => keeps_pure _)

theorem runStage_canon (j : Nat) (act : Nat → Bool) (f : Nat → Hart → Option Hart) : Canon (runStage j act f) :=
  keeps_bind getHart_canon fun _ => keeps_bind (runElems_canon _ _) fun _ => modHart_canon _

theorem runStages_canon (x : VChain) (mode : Nat) (act : Nat → Bool) (j : Nat) (stages : List Stage) :
    Canon (runStages x mode act j stages) := by
  induction stages generalizing j with
  | nil => exact keeps_pure _
  | cons stage rest ih =>
    exact keeps_bind (resolveStage_canon _ _) fun _ => keeps_bind (resolveStage_canon _ _) fun _ =>
      keeps_bind (runStage_canon _ _ _) fun _ => ih _

theorem opVchain_canon (x : VChain) : Canon (opVchain x) :=
  keeps_bind (checkVec_canon _ _) fun _ => keeps_bind (checkPred_canon _) fun _ => keeps_bind getHart_canon fun _ =>
    keeps_bind getConvoy_canon fun _ =>
    keeps_when (checkMask_canon _ _ _ _) fun _ =>
      keeps_ite (keeps_bind (resolveHead_canon _ _) fun _ =>
         keeps_bind (runStage_canon _ _ _) fun _ =>
         keeps_bind (addFlags_canon _) fun _ =>
         keeps_bind (runStages_canon _ _ _ _ _) fun _ =>
         keeps_bind (modHart_canon _) fun _ =>
         keeps_pure _)
        (keeps_bind (runStages_canon _ _ _ _ _) fun _ => keeps_bind (modHart_canon _) fun _ => keeps_pure _)

theorem opAcfg_canon (x : ACfg) : Canon (opAcfg x) :=
  keeps_read fun _ _ => by
      dsimp only
      split
      · exact keeps_bind (keeps_pure _) fun _ => keeps_bind (settleAcc_canon _) fun _ =>
          keeps_bind (modHart_canon _) fun _ => keeps_pure _
      · split
        · exact keeps_bind (keeps_pure _) fun _ => keeps_bind (settleAcc_canon _) fun _ =>
            keeps_bind (modHart_canon _) fun _ => keeps_pure _
        · exact keeps_bind (keeps_throw _) fun _ => keeps_bind (settleAcc_canon _) fun _ =>
            keeps_bind (modHart_canon _) fun _ => keeps_pure _

theorem opArel_canon (d : AName) : Canon (opArel d) :=
  keeps_bind (boundAcc_canon _) fun _ => keeps_bind (settleAcc_canon _) fun _ => keeps_bind (modHart_canon _) fun _ =>
    keeps_pure _

theorem opAzero_canon (d : AName) : Canon (opAzero d) :=
  keeps_bind (boundAcc_canon _) fun _ => keeps_bind (settleAcc_canon _) fun _ => keeps_bind (modHart_canon _) fun _ =>
    keeps_pure _

theorem opMma_canon (x : Mma) : Canon (opMma x) :=
  keeps_bind (boundAcc_canon _) fun _ => keeps_bind (require_canon _) fun _ => keeps_bind (require_canon _) fun _ =>
    keeps_bind (require_canon _) fun _ => keeps_bind (settleAcc_canon _) fun _ =>
    keeps_ite (keeps_bind (readS_canon _) fun _ =>
       keeps_bind getHart_canon fun _ =>
       keeps_ite (by
            split
            · exact keeps_bind (keeps_throw _) fun _ => keeps_bind (modHart_canon _) fun _ => keeps_pure _
            · exact keeps_bind (modHart_canon _) fun _ => keeps_pure _)
         (keeps_bind (modHart_canon _) fun _ => keeps_pure _))
      (keeps_bind (keeps_pure _) fun _ =>
       keeps_bind getHart_canon fun _ =>
       keeps_ite (by
            split
            · exact keeps_bind (keeps_throw _) fun _ => keeps_bind (modHart_canon _) fun _ => keeps_pure _
            · exact keeps_bind (modHart_canon _) fun _ => keeps_pure _)
         (keeps_bind (modHart_canon _) fun _ => keeps_pure _))

theorem opArow_canon (x : ARow) : Canon (opArow x) :=
  keeps_bind (boundAcc_canon _) fun _ => keeps_bind (require_canon _) fun _ => keeps_bind (readSrcZ_canon _) fun _ =>
    keeps_bind (settleAcc_canon _) fun _ => keeps_bind (require_canon _) fun _ => keeps_bind getHart_canon fun _ => by
      split
      · exact keeps_throw _
      · exact keeps_bind (modHart_canon _) fun _ => keeps_pure _

theorem peekVa_canon (va : Word) (n : Nat) (t : EType) : Canon (peekVa va n t) :=
  keeps_bind (locate_canon _ _ _ _ _ _) fun _ => keeps_bind (prepLoad_canon _ _ _ _) fun _ =>
    keeps_bind (takeLoad_canon _ _ _ _ _ _) fun _ => keeps_pure _

theorem peekBlock_canon (base : Word) : Canon (peekBlock base) :=
  keeps_bind (keeps_mapM (fun _ => peekVa_canon _ _ _) _) fun _ => keeps_pure _

theorem readBlock_canon (base : Word) : Canon (readBlock base) :=
  keeps_bind (peekBlock_canon _) fun _ => keeps_bind (logAccesses_canon _ _) fun _ => keeps_pure _

theorem indexAt_canon (m : MergeArgs) (base : Word) (cnt k : Nat) : Canon (indexAt m base cnt k) :=
  keeps_ite (peekVa_canon _ _ _) (keeps_pure _)

theorem valueAt_canon (m : MergeArgs) (base : Word) (k : Nat) : Canon (valueAt m base k) := peekVa_canon _ _ _

theorem mergeValue_canon (m : MergeArgs) (pa pb i : Nat) (one : Option Bool) :
    Canon (mergeValue m pa pb i one) := by
  unfold mergeValue
  split
  · exact keeps_pure _
  · exact keeps_pure _
  · exact keeps_ite (keeps_bind (valueAt_canon _ _ _) fun _ => keeps_pure _)
        (keeps_bind (valueAt_canon _ _ _) fun _ => keeps_pure _)
  · exact keeps_bind (valueAt_canon _ _ _) fun _ => keeps_bind (valueAt_canon _ _ _) fun _ => keeps_pure _

theorem mergeWrite_canon (m : MergeArgs) (n : Nat) (out : Option (Nat × Nat)) (owed : List (Nat × Nat × Word)) :
    Canon (mergeWrite m n out owed) := by
  unfold mergeWrite
  split
  · exact logAccesses_canon _ _
  · exact keeps_bind (locate_canon _ _ _ _ _ _) fun _ => keeps_bind (locate_canon _ _ _ _ _ _) fun _ =>
      keeps_bind (prepStore_canon _ _ _ _) fun _ => keeps_bind (prepStore_canon _ _ _ _) fun _ =>
      keeps_bind (awaitWhere_canon _ (keeps_throw _)) fun _ => keeps_bind (logAccesses_canon _ _) fun _ =>
      keeps_bind (putStore_canon _ _ _ _ _ _ _) fun _ => putStore_canon _ _ _ _ _ _ _

theorem mergeStep_canon (m : MergeArgs) (pa pb n : Nat) : Canon (mergeStep m pa pb n) :=
  keeps_bind (indexAt_canon _ _ _ _) fun _ => keeps_bind (indexAt_canon _ _ _ _) fun _ =>
    keeps_bind (mergeValue_canon _ _ _ _ _) fun _ => keeps_bind (mergeWrite_canon _ _ _ _) fun _ =>
    keeps_bind (addFlags_canon _) fun _ => keeps_pure _

/-- A merge that stops between two steps has done those before. -/
theorem mergeLoop_canon (m : MergeArgs) (fuel : Nat) (r : MergeRun) : Canon (mergeLoop m fuel r) := by
  induction fuel generalizing r with
  | zero => exact modHart_canon _
  | succ fuel ih =>
    refine keeps_ite (modHart_canon _) fun s holds => ?_
    have taken := mergeStep_canon m r.pa r.pb r.n s holds
    have flush := flushDeferred_canon s holds
    unfold EndsIn at *
    beta_reduce
    generalize mergeStep m r.pa r.pb r.n s = taken_ at *
    generalize flushDeferred s = flush_ at *
    obtain ⟨⟨pa, pb, n⟩, u⟩ | ⟨stop, u⟩ := taken_
    · exact ih _ _ taken
    · cases stop with
      | trap t => exact taken
      | _ =>
        dsimp only
        split
        · obtain ⟨a, v⟩ | ⟨stop', v⟩ := flush_
          · exact flush
          · cases stop' <;> exact flush
        · exact holdUnit_memOk none u holds

theorem mergeCount_canon (d : SReg) (pa pb : Nat) : Canon (mergeCount d pa pb) :=
  keeps_ite (keeps_pure _) (keeps_bind (readS_canon _) fun _ => keeps_pure _)

theorem mergeStart_canon (d a : SReg) : Canon (mergeStart d a) :=
  keeps_bind getHart_canon fun _ => by
      split
      · exact keeps_pure _
      · exact keeps_bind (readS_canon _) fun _ =>
          keeps_when (keeps_throw _) fun _ => keeps_bind (readBlock_canon _) fun _ => keeps_bind getHart_canon fun _ =>
            keeps_bind (mergeCount_canon _ _ _) fun _ => keeps_pure _

theorem mergeRun_canon (op : MergeOp) (t : EType) (kz ix64 : Bool) (d a : SReg) :
    Canon (mergeRun op t kz ix64 d a) :=
  keeps_bind (mergeStart_canon _ _) fun _ => keeps_bind (require_canon _) fun _ =>
    keeps_bind (mergeLoop_canon _ _ _) fun _ => keeps_pure _

theorem routeOf_mem (held : Bool) (ctx kind cidx core slots : Nat) (seq : BitVec 40) (s : State) :
    (routeOf held ctx kind cidx core slots seq s).mem = s.mem := by
  unfold routeOf routeLog routeFull
  dsimp only
  split
  · rfl
  · split
    · rfl
    · split <;> rfl

theorem enqueue_memOk (q : Nat) (p : BitVec 512) (i : LaunchInfo) {s : State} (holds : s.memOk) :
    (enqueue q p i s).memOk := by
  unfold enqueue
  split
  · exact holds
  · exact memOk_of_mem holds (routeOf_mem _ _ _ _ _ _ _ _)

theorem opLaunch_canon (x : Launch) : Canon (opLaunch x) :=
  keeps_bind (readS_canon _) fun _ => keeps_bind (readS_canon _) fun _ => keeps_bind (readS_canon _) fun _ =>
    keeps_when (keeps_throw _) fun _ => keeps_bind (checkStatus_canon _) fun _ => keeps_read fun _ _ => by
        split
        · exact keeps_throw _
        · exact keeps_bind (peekBlock_canon _) fun _ =>
            keeps_when (keeps_throw _) fun _ => keeps_read fun _ h1 =>
              keeps_when (keeps_throw _) fun _ =>
                keeps_ite (keeps_bind (keeps_set h1) fun _ =>
                   keeps_bind (keeps_throw _) fun _ =>
                   keeps_when (keeps_throw _) fun _ => keeps_bind awaitPerformed_canon fun _ =>
                     keeps_bind (logAccesses_canon _ _) fun _ =>
                     keeps_bind (keeps_modify fun _ h => (enqueue_memOk _ _ _ h)) fun _ => keeps_pure _)
                  (keeps_when (keeps_throw _) fun _ => keeps_bind awaitPerformed_canon fun _ =>
                     keeps_bind (logAccesses_canon _ _) fun _ =>
                     keeps_bind (keeps_modify fun _ h => (enqueue_memOk _ _ _ h)) fun _ => keeps_pure _)

end Sys2Proof.Machine
end

section
/-! PROOFS. Log 3: fences, barriers, queues, CSRs and the supervisor keep memory in its canonical form, and with them
every operation that may stand in a pair. -/

namespace Sys2Proof.Machine

theorem vlRequest_canon (h : Hart) (r : Src) : Canon (vlRequest h r) := by
  unfold vlRequest
  split
  · exact keeps_ite (keeps_pure _) (readS_canon _)
  · exact keeps_pure _

theorem opSetvl_canon (x : SetVl) : Canon (opSetvl x) :=
  keeps_bind getConvoy_canon fun _ => keeps_bind getHart_canon fun _ => keeps_bind (vlRequest_canon _ _) fun _ =>
    keeps_bind (modCsr_canon _) fun _ => keeps_bind (writeS_canon _ _) fun _ => keeps_pure _

theorem opMcpt_canon (x : MCpt) : Canon (opMcpt x) :=
  keeps_bind getConvoy_canon fun _ => keeps_bind (readSrcZ_canon _) fun _ => keeps_bind (stallBound_canon _) fun _ =>
    keeps_bind (writeMaskCompact_canon _ _ _) fun _ => keeps_pure _

theorem opMexp_canon (x : M2) : Canon (opMexp x) :=
  keeps_bind getConvoy_canon fun _ => keeps_bind (stallBound_canon _) fun _ => keeps_bind (checkMask_canon _ _ _ _) fun _ =>
    keeps_bind getHart_canon fun _ => keeps_bind (writeMaskAll_canon _ _) fun _ => keeps_pure _

theorem maskBits_canon (m : MName) : Canon (maskBits m) :=
  keeps_bind getConvoy_canon fun _ => keeps_bind getHart_canon fun _ => keeps_bind (checkMask_canon _ _ _ _) fun _ =>
    keeps_pure _

theorem maskLogic_canon (f : Bool → Bool → Bool) (x : M3) : Canon (maskLogic f x) :=
  keeps_bind getConvoy_canon fun _ => keeps_bind (stallBound_canon _) fun _ => keeps_bind getHart_canon fun _ =>
    keeps_bind (raiseLowest_canon _) fun _ => keeps_bind (modHart_canon _) fun _ => keeps_pure _

theorem opMpop_canon (x : MToS) : Canon (opMpop x) :=
  keeps_bind (maskBits_canon _) fun _ => keeps_bind getHart_canon fun _ => keeps_bind (writeS_canon _ _) fun _ =>
    keeps_pure _

theorem opMfirst_canon (x : MToS) : Canon (opMfirst x) :=
  keeps_bind (maskBits_canon _) fun _ => keeps_bind getHart_canon fun _ => keeps_bind (writeS_canon _ _) fun _ =>
    keeps_pure _

theorem refetch_canon : Canon refetch := keeps_modify fun _ h => h

theorem opFence_canon (x : Fence) : Canon (opFence x) :=
  keeps_read fun _ _ => keeps_bind (flushWhere_canon _) fun _ => keeps_bind (awaitFlags_canon _) fun _ =>
    keeps_read fun _ _ =>
    keeps_when (keeps_throw _) fun _ =>
      keeps_when awaitItems_canon fun _ =>
        keeps_when flushHost_canon fun _ => keeps_when refetch_canon fun _ => keeps_pure _

theorem opFsig_canon (x : Fsig) : Canon (opFsig x) :=
  keeps_bind (readS_canon _) fun _ => keeps_bind (readSrc_canon _) fun _ =>
    keeps_bind (locate_canon _ _ _ _ _ _) fun _ => by
      split
      · exact keeps_read fun _ _ => keeps_bind (reportItem_canon _) fun _ => keeps_bind (flushWhere_canon _) fun _ =>
          keeps_read fun _ _ =>
          keeps_ite (keeps_bind (storePlace_canon _ _ _ _ _ _ _ _ _) fun _ => keeps_pure _)
            (keeps_when (keeps_throw _) fun _ => keeps_bind (awaitLogged_canon _) fun _ =>
               keeps_bind (logOne_canon _ _ _ _) fun _ => keeps_bind (keeps_modify fun _ h => h) fun _ => keeps_pure _)
      · exact keeps_bind (reportItem_canon _) fun _ => keeps_bind flushDeferred_canon fun _ => keeps_read fun _ h0 =>
          keeps_bind (keeps_set (sendItem_memOk _ h0)) fun _ => keeps_pure _

theorem enterWait_canon (i : Instr) : Canon (enterWait i) := keeps_modify fun _ h => h

theorem beforeBarrier_canon : Canon beforeBarrier :=
  keeps_bind (awaitFlags_canon _) fun _ => keeps_read fun _ _ =>
    keeps_when flushDeferred_canon fun _ => keeps_read fun _ _ => keeps_ite (keeps_throw _) (keeps_pure _)

/-! ### The end of a barrier (R262, R274, R333) -/

theorem trapHart_memOk (t : Trap) (g : Nat) {s : State} (holds : s.memOk) : (trapHart t s g).memOk := holds

theorem commitHart_memOk (f : Hart → Hart) (g : Nat) {s : State} (holds : s.memOk) : (commitHart f s g).memOk := holds

theorem applyAll_memOk (g : Nat) {s : State} (holds : s.memOk) : (applyAll g s).1.memOk := by
  refine List.foldlRecOn (motive := fun r : State × Option (BitVec 8 × Word) => r.1.memOk) _ _
    (show State.memOk { s with cur := g } from holds) fun r held d _ => ?_
  have applied := applyDeferred_memOk d held
  split
  next u run => rwa [run] at applied
  next u c run => rwa [run] at applied

theorem flushBarrier_memOk (gs : List Nat) {s : State} (holds : s.memOk) : (flushBarrier gs s).1.memOk := by
  induction gs generalizing s with
  | nil => exact holds
  | cons g gs ih => exact ih (applyAll_memOk g holds)

theorem releaseBarrier_memOk (gs : List Nat) (f : Nat → Hart → Hart) {s : State} (holds : s.memOk) :
    (releaseBarrier gs f s).memOk :=
  foldl_memOk (fun _ _ held => commitHart_memOk _ _ held) _ (flushBarrier_memOk gs holds)

theorem settleBarrier_memOk (u : Nat) {s : State} (holds : s.memOk) : (settleBarrier u s).memOk := by
  unfold settleBarrier
  dsimp only
  split
  · exact holds
  · split
    · exact releaseBarrier_memOk _ _ holds
    · split
      · split
        · exact releaseBarrier_memOk _ _ holds
        · exact foldl_memOk (fun _ _ held => trapHart_memOk _ _ held) _ holds
      · exact foldl_memOk (fun _ _ held => trapHart_memOk _ _ held) _ holds

theorem arriveAt_canon (i : Instr) : Canon (arriveAt i) :=
  keeps_read fun _ _ =>
    keeps_ite (keeps_bind beforeBarrier_canon fun _ =>
       keeps_read fun _ _ =>
       keeps_ite (keeps_bind (keeps_throw _) fun _ =>
          keeps_bind (enterWait_canon _) fun _ =>
          keeps_bind (keeps_modify fun _ h => h) fun _ =>
          keeps_bind (keeps_modify fun _ h => (settleBarrier_memOk _ h)) fun _ =>
          keeps_bind getHart_canon fun _ =>
          keeps_when (keeps_throw _) fun _ => keeps_pure _)
         (keeps_bind (enterWait_canon _) fun _ =>
          keeps_bind (keeps_modify fun _ h => h) fun _ =>
          keeps_bind (keeps_modify fun _ h => (settleBarrier_memOk _ h)) fun _ =>
          keeps_bind getHart_canon fun _ =>
          keeps_when (keeps_throw _) fun _ => keeps_pure _))
      (keeps_bind (enterWait_canon _) fun _ =>
       keeps_bind (keeps_modify fun _ h => h) fun _ =>
       keeps_bind (keeps_modify fun _ h => (settleBarrier_memOk _ h)) fun _ =>
       keeps_bind getHart_canon fun _ =>
       keeps_when (keeps_throw _) fun _ => keeps_pure _)

theorem opCbar_canon (x : SPair) : Canon (opCbar x) := by
  refine keeps_bind (readS_canon _) fun _ => keeps_bind (readS_canon _) fun _ => keeps_bind (require_canon _) fun _ =>
    keeps_bind beforeBarrier_canon fun _ => keeps_read fun s holds => keeps_when (keeps_throw _) fun _ =>
    keeps_when (keeps_bind (keeps_set (foldl_memOk (fun _ _ held => trapHart_memOk _ _ held) _ ?_)) fun _ => keeps_throw _)
      fun _ => keeps_ite (keeps_when (keeps_throw _) fun _ => keeps_bind (keeps_set (releaseBarrier_memOk _ _ ?_)) fun _ =>
        keeps_pure _) (keeps_bind (keeps_set ?_) fun _ => keeps_throw _)
  all_goals exact holds

theorem opWait_canon (x : WaitK) : Canon (opWait x) :=
  keeps_bind (readSrcZ_canon _) fun _ => keeps_bind getConvoy_canon fun _ =>
    keeps_when (keeps_throw _) fun _ => keeps_bind (writeS_canon _ _) fun _ => keeps_pure _

theorem opKadd_canon (x : KAdd) : Canon (opKadd x) :=
  keeps_bind (readSrcZ_canon _) fun _ => keeps_bind (require_canon _) fun _ => keeps_bind awaitPerformed_canon fun _ =>
    keeps_bind (modConvoy_canon _) fun _ => keeps_pure _

theorem putTarget_canon (par : Bool) : Canon (putTarget par) :=
  keeps_read fun _ _ =>
    keeps_ite (keeps_pure _)
      (by
         split
         · exact keeps_throw _
         · split
           · exact keeps_ite (keeps_pure _) (keeps_throw _)
           · exact keeps_throw _)

theorem writeNb_canon (nb : Option SReg) (v : Word) : Canon (writeNb nb v) := by
  unfold writeNb
  split
  · exact writeS_canon _ _
  · exact keeps_pure _

theorem opQput_canon (x : QPut) : Canon (opQput x) :=
  keeps_bind (readSrc_canon _) fun _ => keeps_bind (putTarget_canon _) fun _ => keeps_read fun _ _ =>
    keeps_ite (keeps_ite (keeps_bind (writeNb_canon _ _) fun _ => keeps_pure _) (keeps_throw _))
      (keeps_bind releasePackage_canon fun _ =>
       keeps_bind (keeps_modify fun _ h => h) fun _ =>
       keeps_bind (writeNb_canon _ _) fun _ =>
       keeps_pure _)

theorem opQget_canon (x : QGet) : Canon (opQget x) :=
  keeps_bind getConvoy_canon fun _ => by
      split
      · exact keeps_ite (keeps_bind (writeNb_canon _ _) fun _ => keeps_pure _) (keeps_throw _)
      · exact keeps_read fun _ _ =>
          keeps_when (keeps_throw _) fun _ => keeps_bind (modConvoy_canon _) fun _ => keeps_bind (writeS_canon _ _) fun _ =>
            keeps_bind (writeNb_canon _ _) fun _ => keeps_pure _

/-! ### The end of a hart (R270, R333) -/

theorem flushExit_memOk (n : Nat) {s : State} (holds : s.memOk) : (flushExit n s).memOk := by
  induction n generalizing s with
  | zero => exact holds
  | succ n ih =>
    have applied := applyUpTo_memOk (fun _ => true) s.hart.deferred holds
    unfold flushExit
    dsimp only
    split
    · exact ih applied
    · exact applied

theorem endHart_memOk (g : Nat) (status : BitVec 8) {s : State} (holds : s.memOk) : (endHart g status s).memOk :=
  memOk_of_mem holds (endHart_mem g status s)

theorem opExit_canon : Canon opExit :=
  keeps_bind getHart_canon fun _ =>
    keeps_when (keeps_throw _) fun _ => keeps_bind (keeps_modify fun _ h => (flushExit_memOk _ h)) fun _ =>
      keeps_read fun _ _ =>
      keeps_when (keeps_throw _) fun _ =>
        keeps_when flushHost_canon fun _ => keeps_read fun _ _ =>
          keeps_bind (keeps_modify fun _ h => (endHart_memOk _ _ (resumeDetection_memOk h))) fun _ => keeps_pure _

theorem readNum_canon {rd : Nat → M Nat} (off n : Nat) (each : ∀ a0, Canon (rd a0)) : Canon (readNum rd off n) :=
  keeps_bind (keeps_mapM (fun _ => each _) _) fun _ => keeps_pure _

theorem readMask_canon {rd : Nat → M Nat} (i w : Nat) (each : ∀ a0, Canon (rd a0)) : Canon (readMask rd i w) :=
  keeps_ite (keeps_bind (readNum_canon _ _ each) fun _ => keeps_pure _) (keeps_bind (keeps_pure _) fun _ => keeps_pure _)

theorem readAcc_canon {rd : Nat → M Nat} (a rows cols : Nat) (each : ∀ a0, Canon (rd a0)) :
    Canon (readAcc rd a rows cols) :=
  keeps_bind (keeps_mapM (fun _ => keeps_mapM (fun _ => keeps_bind (each _) fun _ => keeps_pure _) _) _) fun _ =>
    keeps_pure _

theorem readAccs_canon {rd : Nat → M Nat} (ds : List (Option (Nat × Nat × Bool))) (each : ∀ a0, Canon (rd a0)) :
    Canon (readAccs rd ds) :=
  keeps_mapM (fun _ => by
         split
         · exact keeps_pure _
         · exact keeps_bind (readAcc_canon _ _ _ each) fun _ => keeps_pure _) _

theorem readHart_canon {rd : Nat → M Nat} (old : Hart) (each : ∀ a0, Canon (rd a0)) : Canon (readHart rd old) :=
  keeps_bind (keeps_mapM (fun _ => each _) _) fun _ => keeps_bind (keeps_mapM (fun _ => each _) _) fun _ =>
    keeps_bind (each _) fun _ => keeps_bind (each _) fun _ => keeps_bind (each _) fun _ =>
    keeps_bind (keeps_mapM (fun _ => each _) _) fun _ => keeps_bind (readNum_canon _ _ each) fun _ =>
    keeps_bind (keeps_mapM (fun _ => each _) _) fun _ => keeps_bind (keeps_mapM (fun _ => each _) _) fun _ =>
    keeps_bind (keeps_mapM (fun _ => readMask_canon _ _ each) _) fun _ =>
    keeps_ite (keeps_pure _)
      (keeps_bind (keeps_mapM (fun _ => readNum_canon _ _ each) _) fun _ =>
       keeps_bind (readAccs_canon _ each) fun _ =>
       keeps_pure _)

theorem csrCheck_canon (n : Nat) (write : Bool) : Canon (csrCheck n write) :=
  keeps_read fun _ _ =>
    keeps_when (keeps_throw _) fun _ => by
        split
        · exact keeps_throw _
        · exact keeps_when (keeps_throw _) fun _ => keeps_when (keeps_throw _) fun _ => keeps_pure _

theorem csrOp_canon (x : Csr) (f : Option (Word → Word → Word)) (w1c : Bool) : Canon (csrOp x f w1c) :=
  keeps_bind (csrCheck_canon _ _) fun _ => by
      dsimp only
      split
      · exact keeps_bind (writeS_canon _ _) fun _ => keeps_pure _
      · exact keeps_bind (readS_canon _) fun _ =>
          keeps_when (keeps_throw _) fun _ => keeps_bind (modCsr_canon _) fun _ =>
            keeps_bind (keeps_modify fun _ h => h) fun _ => keeps_bind (writeS_canon _ _) fun _ => keeps_pure _

theorem supervisor_canon : Canon supervisor := keeps_bind getHart_canon fun _ => keeps_ite (keeps_throw _) (keeps_pure _)

theorem opTrap_canon (n : BitVec 16) : Canon (opTrap n) := keeps_pure _

/-- The line of a return is fetched in the mode that `eret` returns to. -/
theorem checkReturn_canon (target : Word) : Canon (checkReturn target) := by
  intro s holds
  have check := checkTarget_canon target false (s.setHart (eretTo s.hart)) holds
  unfold EndsIn checkReturn at *
  dsimp only
  generalize checkTarget target false (s.setHart (eretTo s.hart)) = r at *
  cases r <;> exact check

theorem opEret_canon : Canon opEret :=
  keeps_bind supervisor_canon fun _ => keeps_bind getHart_canon fun _ => keeps_bind (checkReturn_canon _) fun _ =>
    keeps_bind (modHart_canon _) fun _ => keeps_pure _

theorem raiseInt_memOk (f v : Nat) {s : State} (holds : s.memOk) : (raiseInt f v s).memOk :=
  memOk_of_mem holds (raiseInt_mem f v s)

theorem opHalt_canon : Canon opHalt :=
  keeps_bind supervisor_canon fun _ => keeps_bind getHart_canon fun _ =>
    keeps_when (keeps_throw _) fun _ => keeps_bind awaitPerformed_canon fun _ =>
      keeps_bind (keeps_modify fun _ h => (raiseInt_memOk _ _ (setHart_memOk (resumeDetection_memOk h) _))) fun _ =>
      keeps_pure _

theorem wfePlace_canon (ea : Word) : Canon (wfePlace ea) :=
  keeps_bind (locate_canon _ _ _ _ _ _) fun _ => by
      split
      · exact keeps_pure _
      · exact keeps_throw _

theorem opWfe_canon (x : S3) : Canon (opWfe x) :=
  keeps_bind (readS_canon _) fun _ => keeps_bind (readS_canon _) fun _ => keeps_bind (wfePlace_canon _) fun _ =>
    keeps_bind (prepLoad_canon _ _ _ _) fun _ => keeps_bind (logOne_canon _ _ _ _) fun _ =>
    keeps_bind (meter_canon _ _) fun _ => keeps_read fun _ _ =>
    keeps_ite (keeps_bind (writeS_canon _ _) fun _ => keeps_pure _) (keeps_bind (modHart_canon _) fun _ => keeps_throw _)

theorem invalidate_canon (p : TlbEntry → Bool) : Canon (invalidate p) :=
  keeps_bind awaitPerformed_canon fun _ => keeps_read fun _ _ =>
    keeps_when (keeps_throw _) fun _ => keeps_bind (keeps_modify fun _ h => h) fun _ => keeps_pure _

theorem opTlbiAll_canon : Canon opTlbiAll := keeps_bind supervisor_canon fun _ => invalidate_canon _

theorem opTlbiAsid_canon (b : SReg) : Canon (opTlbiAsid b) :=
  keeps_bind supervisor_canon fun _ => keeps_bind (readS_canon _) fun _ => invalidate_canon _

theorem opTlbiVa_canon (x : SPair) : Canon (opTlbiVa x) :=
  keeps_bind supervisor_canon fun _ => keeps_bind (readS_canon _) fun _ => keeps_bind (readS_canon _) fun _ =>
    invalidate_canon _

theorem checkRecord_canon (acc : Acc) (base : Word) : Canon (checkRecord acc base) := by
  unfold checkRecord
  exact keeps_when (keeps_throw _) fun _ =>
    keeps_forM (fun _ => keeps_bind (locate_canon _ _ _ _ _ _) fun _ => keeps_pure _) _

theorem recordWord_canon (base : Word) (off : Nat) : Canon (recordWord base off) := loadVa_canon _ _ _ _ _ _ _

theorem opCtxsave_canon (x : S3) : Canon (opCtxsave x) :=
  keeps_bind supervisor_canon fun _ => keeps_bind (readS_canon _) fun _ => keeps_bind (readS_canon _) fun _ =>
    keeps_bind (checkRecord_canon _ _) fun _ => keeps_read fun _ _ => by
      split
      · exact keeps_bind (writeS_canon _ _) fun _ => keeps_pure _
      · exact keeps_when (keeps_throw _) fun _ =>
            keeps_when (keeps_throw _) fun _ =>
              keeps_bind (keeps_forM (fun _ => storeVa_canon _ _ _ _ _ _ _ _ _) _) fun _ =>
              keeps_bind (writeS_canon _ _) fun _ => keeps_pure _

theorem opCtxload_canon (x : S3) : Canon (opCtxload x) :=
  keeps_bind supervisor_canon fun _ => keeps_bind (readS_canon _) fun _ => keeps_bind (readS_canon _) fun _ =>
    keeps_bind (checkRecord_canon _ _) fun _ => keeps_read fun _ _ => by
      split
      · exact keeps_bind (writeS_canon _ _) fun _ => keeps_pure _
      · exact keeps_when (keeps_throw _) fun _ => keeps_bind (readHart_canon _ (fun _ => recordWord_canon _ _)) fun _ => by
              split
              · exact keeps_bind (writeS_canon _ _) fun _ => keeps_pure _
              · exact keeps_read fun _ h1 => by
                    dsimp only
                    split
                    · exact keeps_bind (writeS_canon _ _) fun _ => keeps_pure _
                    · exact keeps_bind (keeps_set h1) fun _ => keeps_bind (writeS_canon _ _) fun _ => keeps_pure _

theorem setLog_canon (order : Bool) (f : Log → Log) : Canon (setLog order f) := keeps_modify fun _ h => h

theorem syncLog_canon (order : Bool) : Canon (syncLog order) :=
  keeps_bind getHart_canon fun _ =>
    keeps_when flushDeferred_canon fun _ => keeps_bind getCtx_canon fun _ =>
      keeps_when (keeps_throw _) fun _ => keeps_pure _

theorem opLogctlSync_canon (x : LogSync) : Canon (opLogctlSync x) :=
  keeps_bind supervisor_canon fun _ => keeps_bind (syncLog_canon _) fun _ => keeps_bind (writeS_canon _ _) fun _ =>
    keeps_pure _

theorem opLogctlMark_canon (x : S2) : Canon (opLogctlMark x) :=
  keeps_bind supervisor_canon fun _ => keeps_bind (readS_canon _) fun _ => keeps_read fun _ _ =>
    keeps_ite (keeps_bind (writeS_canon _ _) fun _ => keeps_pure _)
      (keeps_ite (keeps_bind (setLog_canon _ _) fun _ => keeps_throw _)
         (keeps_bind (setLog_canon _ _) fun _ => keeps_bind (writeS_canon _ _) fun _ => keeps_pure _))

theorem opLogctlSwap_canon (x : LogSwap) : Canon (opLogctlSwap x) :=
  keeps_bind supervisor_canon fun _ => keeps_bind (readS_canon _) fun _ => keeps_bind (readS_canon _) fun _ =>
    keeps_when (keeps_throw _) fun _ => keeps_bind (syncLog_canon _) fun _ => keeps_bind (setLog_canon _ _) fun _ =>
      keeps_bind (writeS_canon _ _) fun _ => keeps_pure _

theorem opReservedEncoding_canon (w : IWord) : Canon (opReservedEncoding w) :=
  keeps_bind getHart_canon fun _ => keeps_when (keeps_throw _) fun _ => keeps_throw _

/-! ### Pre-emption (R248, R249, R269) -/

theorem withdrawCbar_memOk (cl g : Nat) {s : State} (holds : s.memOk) : (withdrawCbar cl g s).memOk := by
  unfold withdrawCbar
  dsimp only
  split <;> exact holds

theorem saveImage_canon (ctx : Nat) (base : Word) (ewb : Nat) (words : List (Nat × Nat)) (hs : List (Nat × Hart)) :
    Canon (saveImage ctx base ewb words hs) :=
  keeps_bind (keeps_forM (fun _ _ => engWrite_memOk _ _ _ _ _ _ _) _) fun _ =>
    keeps_forM (fun _ => keeps_forM (fun _ _ => engWrite_memOk _ _ _ _ _ _ _) _) _

theorem leaveCore_memOk (u core : Nat) (base : Word) (hs : List (Nat × Hart)) (c : Convoy) {s : State} (holds : s.memOk) :
    (leaveCore u core base hs c s).memOk := by
  have freed := foldl_memOk (f := fun s n => freeSlot core n s) (fun _ _ held => freeSlot_memOk _ _ held)
    (((s.coreOf core).tiles.filter fun p => p.2.owner == some u && p.2.hidden).map Prod.fst) holds
  exact memOk_of_mem (foldl_memOk (fun _ _ held => withdrawCbar_memOk _ _ held) hs freed) (routeOf_mem false _ _ _ _ _ _ _)

theorem saveNow_memOk (u : Nat) {s v : State} (holds : s.memOk) (saved : saveNow u s = some v) : v.memOk := by
  unfold saveNow at saved
  dsimp only at saved
  split at saved
  · cases saved
  next core _ =>
    split at saved
    · cases saved
    next base _ =>
      have image := saveImage_canon (s.convoyOf u).ctx base (s.convoyOf u).ewBytes
        (convoyWords (suspendFills u core s) u) (residents s u) _ (show (suspendFills u core s).memOk from holds)
      unfold EndsIn at image
      split at saved
      · cases saved
      next w run =>
        rw [run] at image
        cases saved
        exact leaveCore_memOk _ _ _ _ _ image

theorem squash_memOk (p : Nat × Hart) {s : State} (holds : s.memOk) : (squash s p).memOk := by
  unfold squash
  split <;> exact holds

theorem leave_memOk (u : Nat) {s : State} (holds : s.memOk) : (leave u s).memOk := by
  have squashed := foldl_memOk (f := squash) (fun _ _ held => squash_memOk _ held) (residents s u)
    (show (s.setConvoyOf u { s.convoyOf u with leaving := true }).memOk from holds)
  unfold leave
  dsimp only
  split
  · cases run : saveNow u _ with
    | none => exact squashed
    | some v => exact saveNow_memOk u squashed run
  · exact squashed

theorem toldFull_memOk (ctx : Nat) {s : State} (holds : s.memOk) : (toldFull ctx s).memOk := by
  unfold toldFull
  split
  · exact holds
  · exact raiseInt_memOk _ _ holds

/-- A convoy that yields is saved, or told why not. -/
theorem opYield_canon (d : SReg) : Canon (opYield d) := by
  intro s holds
  unfold EndsIn opYield
  dsimp only
  split
  · split
    · exact leave_memOk _ (commitHart_memOk _ _ holds)
    · exact toldFull_memOk _ holds
  · exact holds

theorem peekGang_canon (a : Word) : Canon (peekGang a) :=
  keeps_bind (peekBlock_canon _) fun _ => keeps_bind (peekVa_canon _ _ _) fun _ =>
    keeps_bind (keeps_mapM (fun _ => peekVa_canon _ _ _) _) fun _ => keeps_pure _

theorem opGlaunch_canon (x : Launch) : Canon (opGlaunch x) :=
  keeps_bind (readS_canon _) fun _ => keeps_bind (readS_canon _) fun _ => keeps_bind (readS_canon _) fun _ =>
    keeps_when (keeps_throw _) fun _ => keeps_bind (checkStatus_canon _) fun _ => keeps_bind getCtx_canon fun _ =>
      keeps_when (keeps_throw _) fun _ => keeps_bind (peekGang_canon _) fun _ =>
        keeps_when (keeps_throw _) fun _ => keeps_bind (releaseAt_canon _) fun _ =>
          keeps_bind (logAccesses_canon _ _) fun _ => keeps_bind (keeps_modify fun _ h => h) fun _ => keeps_pure _

/-- Every operation that may stand in a pair keeps memory in its canonical form. -/
theorem opOf_canon (i : Instr) : Canon (opOf i) := by
  unfold opOf
  cases i
  case nop => exact keeps_pure _
  case add | sub | mul | mulh | mulhu | div | divu | rem | remu | and | or | xor | andn | shl | shr | sar | rot | min |
    max | minu | maxu => exact sBin_canon _ _
  case set => exact opSet_canon _
  case sel => exact opSel_canon _
  case clz | ctz | popc => exact sUn_canon _ _
  case bfx => exact opBfx_canon _
  case bfi => exact opBfi_canon _
  case li => exact opLi_canon _
  case lpc => exact opLpc_canon _
  case jmpl => exact opJmpl_canon _
  case calll => exact opCalll_canon _
  case fadd | fsub | fmul | fdiv | fmin | fmax => exact fBin_canon _ _
  case fma => exact opFma_canon _
  case fsqrt | fclass => exact fUn_canon _ _
  case fset => exact opFset_canon _
  case fcvt => exact opFcvt_canon _
  case fsgn => exact opFsgn_canon _
  case b => exact opB_canon _
  case bi => exact opBi_canon _
  case jmp => exact branchIf_canon _ _ (keeps_pure _)
  case call => exact branchIf_canon _ _ (modHart_canon _)
  case jmpr => exact opJmpr_canon _
  case callr => exact opCallr_canon _
  case ret => exact opRet_canon
  case strip => exact opStrip_canon _
  case vloopl => exact opVloopl_canon _
  case bm => exact opBm_canon _
  case ld => exact opLd_canon _
  case st => exact opSt_canon _
  case amo => exact opAmo_canon _
  case ldp => exact opLdp_canon _
  case stp => exact opStpTo_canon _ _
  case pam => exact opPamTo_canon _ _
  case capture | capref => exact captureWith_canon _ _ _ _
  case cdup => exact opCdup_canon _ _
  case cdrop => exact opCdrop_canon _
  case apply => exact opApply_canon _
  case applyq => exact opApplyq_canon _
  case cenv => exact opCenv_canon _ _
  case cld => exact opCld_canon _
  case cldR => exact opCldR_canon _ _
  case cst => exact opCst_canon _
  case cstR => exact opCstR_canon _ _
  case setvl => exact opSetvl_canon _
  case mcpt => exact opMcpt_canon _
  case mexp => exact opMexp_canon _
  case vadd | vsub | vmul | vmulh | vmulhu | vdiv | vrem | vand | vor | vxor | vshl | vshr | vsar | vmin | vmax | vminu
    | vmaxu | vadds | vsubs => exact vInt_canon _ _
  case vmacc => exact vInt3_canon _ _ _
  case vabs | vclz | vpopc => exact vUnary_canon _ _
  case vcmp => exact opVcmp_canon _
  case vsel => exact opVsel_canon _
  case vfadd | vfsub | vfmul | vfdiv | vfmin | vfmax => exact vFp_canon _ _
  case vfma => exact opVfma_canon _
  case vfsqrt | vfrcp | vfrsq | vfexp2 | vflog2 | vfclass => exact vFpUn_canon _ _
  case vfcmp => exact opVfcmp_canon _
  case vfsgn => exact opVfsgn_canon _
  case vcvt | vpk4 | vupk4 | vscl => exact vConvert_canon _ _ _
  case vred => exact opVred_canon _
  case vfred => exact opVfred_canon _
  case vscan | vfscan => exact scanWith_canon _ _ _ _ _ _ _ _
  case vslup => exact opVslup_canon _
  case vsldn => exact opVsldn_canon _
  case vgath => exact opVgath_canon _
  case vcomp => exact opVcomp_canon _
  case vexpd => exact opVexpd_canon _
  case vbshl => exact opVbshl_canon _
  case vbshr => exact opVbshr_canon _
  case vfnl => exact opVfnl_canon _
  case vmvs => exact opVmvs_canon _
  case vmvx => exact opVmvx_canon _
  case vid => exact opVid_canon _
  case vrev => exact opVrev_canon _
  case mand | mor | mxor | mnot | mandn => exact maskLogic_canon _ _
  case mpop => exact opMpop_canon _
  case mfirst => exact opMfirst_canon _
  case vld => exact opVld_units memOk_units _
  case vlds => exact opVlds_units memOk_units _
  case vldg => exact opVldg_units memOk_units _
  case vldx => exact opVldx_units memOk_units _
  case vst => exact opVst_units memOk_units _
  case vsts => exact opVsts_units memOk_units _
  case vstg => exact opVstg_units memOk_units _
  case vstx => exact opVstx_units memOk_units _
  case vstxa => exact opVstxa_units memOk_units _
  case vldt => exact opVldt_canon _
  case vstt => exact opVstt_canon _
  case pdot => exact opPdot_canon _
  case acfg => exact opAcfg_canon _
  case arel => exact opArel_canon _
  case azero => exact opAzero_canon _
  case mma => exact opMma_canon _
  case ald => exact opAldTo_canon _ _
  case ast => exact opAstTo_canon _ _
  case arow => exact opArow_canon _
  case tlook => exact opTlook_canon _
  case ttag => exact opTtag_canon _
  case tfill => exact opTfill_canon _
  case tdrain => exact opTdrain_canon _
  case twait => exact opTwait_canon _
  case trel => exact opTrel_canon _
  case tstat => exact opTstat_canon _
  case cpy => exact opCpy_canon _
  case cpy2 => exact opCpy2_canon _
  case cstat => exact opCstat_canon _
  case munion | minter | mcount => exact mergeRun_canon _ _ _ _ _ _
  case dopen => exact opDopen_canon _
  case stow => exact opStow_canon _
  case dseal => exact opDseal_canon _
  case dquery => exact opDquery_canon _
  case reservedEncoding => exact opReservedEncoding_canon _
  all_goals exact keeps_throw _

end Sys2Proof.Machine
end

section
/-! PROOFS. Log 3: what waits, the engines, the ends of harts and the dispatcher do to the state keeps memory in its
canonical form. -/

namespace Sys2Proof.Machine

section
variable {s t : State}

theorem memOk_of_ok {ε α : Type} {op : EStateM ε State α} {a : α} (canon : Canon op)
    (run : op s = .ok a t) (holds : s.memOk) : t.memOk := by
  have ends := canon s holds
  unfold EndsIn at ends
  rwa [run] at ends

theorem memOk_of_error {ε α : Type} {op : EStateM ε State α} {e : ε} (canon : Canon op)
    (run : op s = .error e t) (holds : s.memOk) : t.memOk := by
  have ends := canon s holds
  unfold EndsIn at ends
  rwa [run] at ends

theorem keeps_forM_mem {ε α : Type} {f : α → EStateM ε State PUnit} {as : List α} (each : ∀ a ∈ as, Canon (f a)) :
    Canon (as.forM f) := by
  induction as with
  | nil => exact keeps_pure _
  | cons a as ih =>
    exact keeps_bind (each a List.mem_cons_self) fun _ => ih fun b mem => each b (List.mem_cons_of_mem a mem)

theorem memOk_of_snd {α : Type} {p : α × State} {a : α} (run : p = (a, t)) (holds : p.2.memOk) : t.memOk := by
  rwa [run] at holds

theorem memOk_ite {c : Prop} [Decidable c] (hs : s.memOk) (ht : t.memOk) : (if c then s else t).memOk := by
  split
  · exact hs
  · exact ht

end

/-- The state that is found, if one is, has memory in its canonical form. -/
def Kept (o : Option State) : Prop := ∀ t, o = some t → t.memOk

theorem kept_none : Kept none := nofun
theorem kept_some {s : State} (holds : s.memOk) : Kept (some s) := fun _ found => Option.some.inj found ▸ holds

theorem kept_ite {c : Prop} [Decidable c] {o o' : Option State} (ho : Kept o) (ho' : Kept o') :
    Kept (if c then o else o') := by
  split
  · exact ho
  · exact ho'

theorem kept_bind {o : Option State} {f : State → Option State} (ho : Kept o) (hf : ∀ t, t.memOk → Kept (f t)) :
    Kept (o.bind f) := fun u found =>
  have ⟨t, before, after⟩ := Option.bind_eq_some_iff.mp found
  hf t (ho t before) u after

theorem kept_getD {o : Option State} {s : State} (ho : Kept o) (holds : s.memOk) : (o.getD s).memOk := by
  cases found : o with
  | none => exact holds
  | some t => exact ho t found

theorem foldl_kept {α : Type} {f : Option State → α → Option State} (each : ∀ o a, Kept o → Kept (f o a))
    (l : List α) {o : Option State} (ho : Kept o) : Kept (l.foldl f o) := by
  induction l generalizing o with
  | nil => exact ho
  | cons a l ih => exact ih (each o a ho)

/-- As `Kept`, for a state that is found with something else. -/
def KeptPair {α : Type} (o : Option (α × State)) : Prop := ∀ a t, o = some (a, t) → t.memOk

theorem keptPair_none {α : Type} : KeptPair (none : Option (α × State)) := nofun

theorem keptPair_some {α : Type} {a : α} {s : State} (holds : s.memOk) : KeptPair (some (a, s)) := fun _ _ found =>
  (Prod.mk.inj (Option.some.inj found)).2 ▸ holds

/-- However the instruction ends, memory of the state that it leaves is in its canonical form. -/
def Stays {F R : Type} (o : Host.Outcome State F R) : Prop := ∀ t, o = .next t → t.memOk

theorem stays_next {F R : Type} {s : State} (holds : s.memOk) : Stays (.next s : Host.Outcome State F R) :=
  fun _ ends => Host.Outcome.next.inj ends ▸ holds

theorem runUnitN_stays (n : Nat) {op : M Ctl} (canon : Canon op) {s : State} (holds : s.memOk) : Stays (runUnitN n op s) :=
  fun _ ends => runUnitN_memOk n holds (canon s holds) ends

theorem runUnit_stays {op : M Ctl} (canon : Canon op) {s : State} (holds : s.memOk) : Stays (runUnit op s) :=
  runUnitN_stays 1 canon holds

theorem memOk_walks : KeptByWalks State.memOk := memOk_work.toWrites.toKeptByWalks

theorem memOk_reads : KeptByReads State.memOk where
  toKeptByWalks := memOk_walks
  stage _ _ holds := holds

/-! ### Parts of the state, fetches and the save area -/

theorem setHartOf_memOk {s : State} (g : Nat) (h : Hart) (holds : s.memOk) : (State.setHartOf s g h).memOk := holds

theorem setCoreOf_memOk {s : State} (n : Nat) (c : Core) (holds : s.memOk) : (State.setCoreOf s n c).memOk := holds

theorem setConvoyOf_memOk {s : State} (u : Nat) (c : Convoy) (holds : s.memOk) : (State.setConvoyOf s u c).memOk := holds

theorem setClusterOf_memOk {s : State} (n : Nat) (c : Cluster) (holds : s.memOk) : (State.setClusterOf s n c).memOk := holds

theorem walkFrom_canon (cause : BitVec 8) (va level table : Nat) : Canon (walkFrom cause va level table) :=
  fun _ holds => walkFrom_keeps memOk_walks _ _ _ _ holds

theorem translate_canon (core : Option Nat) (ctx : Context) (view : Mode) (fam : Fam) (acc : Acc) (va : Word) :
    Canon (translate core ctx view fam acc va) := fun _ holds => translate_keeps memOk_walks _ _ _ _ _ _ holds

theorem hostWrite_memOk (a n v : Nat) {s : State} (holds : s.memOk) : (hostWrite a n v s).memOk := holds

theorem numberItem_memOk (it : Item) (p : Nat) {s : State} (holds : s.memOk) : (numberItem it p s).2.memOk := holds

theorem flushFirst_memOk (paired : Bool) {s : State} (holds : s.memOk) : (flushFirst paired s).memOk := by
  unfold flushFirst
  split
  · next run => exact (memOk_of_error flushDeferred_canon run holds :)
  · next run => exact keepHeld_memOk _ (memOk_of_error flushDeferred_canon run holds :)
  · next run => exact keepHeld_memOk _ (memOk_of_ok flushDeferred_canon run holds :)

theorem hostFlushed_memOk {s : State} (holds : s.memOk) : (State.hostFlushed s).memOk := by
  unfold State.hostFlushed
  split <;> exact holds

theorem fetchLine_canon (line : Word) : Canon (fetchLine line) :=
  keeps_read fun _ held => keeps_when (keeps_throw _) fun _ => by
    split
    · next run => exact keeps_bind (keeps_set (memOk_of_error (translate_canon _ _ _ _ _ _) run held)) fun _ =>
        keeps_throw _
    · next run =>
      refine keeps_bind (keeps_set (memOk_of_ok (translate_canon _ _ _ _ _ _) run held)) fun _ =>
        keeps_when (keeps_throw _) fun _ => ?_
      split
      · exact keeps_throw _
      · split
        · exact keeps_throw _
        · exact keeps_pure _

theorem engRead_canon (core : Option Nat) (ctx : Nat) (view : Mode) (fam : Fam) (va : Word) (n : Nat) :
    Canon (engRead core ctx view fam va n) := fun _ holds => engRead_memOk _ _ _ _ _ _ holds

theorem engWrite_canon (core : Option Nat) (ctx : Nat) (view : Mode) (fam : Fam) (va : Word) (n v : Nat) :
    Canon (engWrite core ctx view fam va n v) := fun _ holds => engWrite_memOk _ _ _ _ _ _ _ holds

theorem saveWrite_canon (ctx : Nat) (va : Word) (v : Nat) : Canon (saveWrite ctx va v) := engWrite_canon _ _ _ _ _ _ _

theorem saveRead_canon (ctx : Nat) (va : Word) : Canon (saveRead ctx va) := engRead_canon _ _ _ _ _ _

theorem writePosts_memOk (ctx : Nat) {s : State} (holds : s.memOk) : (writePosts ctx s).memOk :=
  writePosts_keeps memOk_work.toEngine _ holds

theorem beginHead_memOk (r : Nat) {s : State} (holds : s.memOk) : (beginHead r s).memOk :=
  memOk_of_mem holds (beginHead_mem r s)

theorem fetchUnit_memOk {s : State} (holds : s.memOk) : (fetchUnit s).2.memOk := by
  unfold fetchUnit
  dsimp only
  split
  · next run => exact (memOk_of_error (fetchLine_canon _) run holds :)
  · next run => exact (memOk_of_ok (fetchLine_canon _) run holds :)

theorem routeLog_memOk (ctx kind cidx core slots : Nat) (seq : BitVec 40) {s : State} (holds : s.memOk) :
    (routeLog ctx kind cidx core slots seq s).memOk := by
  unfold routeLog
  dsimp only
  split
  · exact holds
  · split <;> exact holds

theorem routeOf_memOk (held : Bool) (ctx kind cidx core slots : Nat) (seq : BitVec 40) {s : State} (holds : s.memOk) :
    (routeOf held ctx kind cidx core slots seq s).memOk := memOk_of_mem holds (routeOf_mem _ _ _ _ _ _ _ s)

theorem releaseHeld_memOk (ctx n : Nat) {s : State} (holds : s.memOk) : (releaseHeld ctx n s).memOk := holds

theorem giveBackDet_memOk (vd base n : Nat) {s : State} (holds : s.memOk) :
    (giveBackDet vd base n s).memOk := by
  unfold giveBackDet
  dsimp only
  split <;> exact holds

theorem opBar_canon : Canon opBar := arriveAt_canon _

theorem opVcfg_canon (x : VCfg) : Canon (opVcfg x) := arriveAt_canon _

theorem withdraw_memOk (g : Nat) {s : State} (holds : s.memOk) : (withdraw g s).memOk :=
  memOk_of_mem holds (withdraw_parts g s).2.2

/-! ### Pairs and waits -/

theorem bothOps_canon (i j : Instr) : Canon (bothOps i j) :=
  keeps_bind (keeps_modify fun _ h => h) fun _ => keeps_bind getHart_canon fun _ => keeps_bind (opOf_canon _) fun _ =>
    keeps_bind getHart_canon fun _ => keeps_bind (setHart_canon _) fun _ => keeps_bind (opOf_canon _) fun _ =>
    keeps_bind getHart_canon fun _ => keeps_bind (setHart_canon _) fun _ => keeps_pure _

theorem holdPair_memOk {s t : State} (hs : s.memOk) (_ : t.memOk) : (holdPair s t).memOk := by
  unfold holdPair
  split <;> exact holdUnit_memOk _ _ hs

theorem failPair_memOk (x : Trap) {s t : State} (hs : s.memOk) (_ : t.memOk) : (failPair x s t).memOk :=
  memOk_ite hs hs

theorem stopPair_memOk (e : Stop) {s s' : State} (holds : s.memOk) (holds1 : s'.memOk) :
    (stopPair e s s').memOk := by
  unfold stopPair
  split
  · exact flushFirst_memOk _ holds
  · split
    · exact failPair_memOk _ holds holds1
    · exact holdPair_memOk holds holds1

theorem runFirm_memOk (i j : Instr) {s : State} (holds : s.memOk) : (runFirm i j s).memOk := by
  unfold runFirm
  split
  · next run => exact finishUnit_memOk _ _ _ (memOk_of_ok (bothOps_canon _ _) run holds :)
  · next run => exact stopPair_memOk _ holds (memOk_of_error (bothOps_canon _ _) run holds :)

theorem runPair_memOk (i j : Instr) {s : State} (holds : s.memOk) : (runPair i j s).memOk := by
  unfold runPair
  split
  · exact runFirm_memOk _ _ holds
  · split
    · next run =>
        split
        · exact runFirm_memOk _ _ holds
        · exact finishUnit_memOk _ _ _ (memOk_of_ok (bothOps_canon _ _) run holds :)
    · next run => exact stopPair_memOk _ holds (memOk_of_error (bothOps_canon _ _) run holds :)

/-- The operations at which a hart waits. -/
theorem waitOp_canon {i : Instr} {op : M Ctl} (waits : waitOp i = some op) : Canon op := by
  unfold waitOp at waits
  split at waits
  case h_9 => nomatch waits
  all_goals obtain rfl := Option.some.inj waits
  case h_1 => exact opQget_canon _
  case h_2 => exact opQput_canon _
  case h_3 => exact opWait_canon _
  case h_4 => exact opVspush_canon _
  case h_5 => exact opVspop_canon _
  case h_6 => exact opBar_canon
  case h_7 => exact opVcfg_canon _
  case h_8 => exact opPdot_canon _

theorem wakeHart_memOk (p : Instr → Bool) (g : Nat) {s : State} (holds : s.memOk) : (wakeHart p g s).memOk := by
  unfold wakeHart
  split
  · exact holds
  · split
    · exact holds
    · split
      · split
        · split
          · exact holds
          · next named _ _ run _ => exact (runUnit_stays (waitOp_canon named) (s := { s with cur := g }) holds _ run :)
        · exact holds
      · exact holds

theorem execQgetWake_stays (g : Nat) {s : State} (holds : s.memOk) : Stays (execQgetWake g s) :=
  stays_next (wakeHart_memOk _ _ holds)

theorem execQputWake_stays (g : Nat) {s : State} (holds : s.memOk) : Stays (execQputWake g s) :=
  stays_next (wakeHart_memOk _ _ holds)

theorem execWaitWake_stays (g : Nat) {s : State} (holds : s.memOk) : Stays (execWaitWake g s) :=
  stays_next (wakeHart_memOk _ _ holds)

theorem execVspushWake_stays (g : Nat) {s : State} (holds : s.memOk) : Stays (execVspushWake g s) :=
  stays_next (wakeHart_memOk _ _ holds)

theorem execVspopWake_stays (g : Nat) {s : State} (holds : s.memOk) : Stays (execVspopWake g s) :=
  stays_next (wakeHart_memOk _ _ holds)

theorem endWfe_memOk (g : Nat) (v : Word) (p : Hart → Bool) {s : State} (holds : s.memOk) : (endWfe g v p s).memOk := by
  unfold endWfe
  split
  · exact holds
  · split
    · split <;> exact holds
    · exact holds

theorem execWfeWake_stays (g : Nat) {s : State} (holds : s.memOk) : Stays (execWfeWake g s) :=
  stays_next (endWfe_memOk _ _ _ holds)

theorem execWfeTimeout_stays (g : Nat) {s : State} (holds : s.memOk) : Stays (execWfeTimeout g s) :=
  stays_next (endWfe_memOk _ _ _ holds)

theorem retryTile_memOk (g : Nat) {s : State} (holds : s.memOk) : (retryTile g s).memOk := by
  unfold retryTile
  split
  · exact holds
  · split
    · exact holds
    · split
      · next run =>
          split
          · split
            · next run2 =>
                split
                · exact holds
                · exact ((runUnit_stays (opOf_canon _) (memOk_of_snd run (fetchUnit_memOk holds) :)) _ run2 :)
            · exact holds
          · exact holds
      · next run =>
          split
          · dsimp only
            split
            · exact holds
            · exact runPair_memOk _ _ (memOk_of_snd run (fetchUnit_memOk holds) :)
          · exact holds
      · exact holds

theorem execTileStallRelease_stays (g : Nat) {s : State} (holds : s.memOk) : Stays (execTileStallRelease g s) :=
  stays_next (retryTile_memOk _ holds)

theorem execConvoyDeadlock_stays (u : Nat) {s : State} (holds : s.memOk) : Stays (execConvoyDeadlock u s) := by
  refine stays_next ?_
  split
  · split
    · exact withdraw_memOk _ holds
    · exact holds
  · exact holds

theorem execMmaComplete_stays (g : Nat) {s : State} (holds : s.memOk) : Stays (execMmaComplete g s) := by
  refine stays_next ?_
  split
  · exact holds
  · split <;> exact holds

theorem execPdotComplete_stays (g : Nat) {s : State} (holds : s.memOk) : Stays (execPdotComplete g s) :=
  stays_next (wakeHart_memOk _ _ holds)

theorem execNearBankAgeing_stays (g : Nat) {s : State} (holds : s.memOk) : Stays (execNearBankAgeing g s) := by
  refine stays_next ?_
  split
  · exact holds
  · split <;> exact holds

/-! ### The copy engine -/

theorem addFault_memOk (vd ctx : Nat) (engine core cause : BitVec 8) (va : Word) (target : EngineTarget) {s : State}
    (holds : s.memOk) :
    (addFault vd ctx engine core cause va target s).1.memOk :=
  addFault_reports memOk_work.toKeptByReports _ _ _ _ _ _ _ holds

theorem mcWrite_memOk (e : BitVec 256) {s : State} (holds : s.memOk) : (mcWrite e s).memOk :=
  memOk_of_mem holds (mcWrite_mem _ _)

theorem engSend_canon (core : Nat) (t : Transfer) (k : Nat) (va : Word) (op : ItemOp) : Canon (engSend core t k va op) :=
  keeps_read fun _ h0 =>
    keeps_when (keeps_throw _) fun _ => keeps_when (keeps_throw _) fun _ => keeps_set (sendItem_memOk _ h0)

theorem engSource_canon (core : Nat) (t : Transfer) (k : Nat) : Canon (engSource core t k) :=
  keeps_ite (keeps_read fun _ _ => keeps_when (keeps_throw _) fun _ => keeps_pure _)
      (keeps_ite (keeps_bind (engSend_canon _ _ _ _ _) fun _ => keeps_pure _)
         (keeps_bind (engRead_canon _ _ _ _ _ _) fun _ => keeps_pure _))

theorem engDest_canon (core : Nat) (t : Transfer) (k v : Nat) : Canon (engDest core t k v) :=
  keeps_ite (keeps_modify fun _ h => tilePoke_memOk _ _ _ h)
      (keeps_ite (engSend_canon _ _ _ _ _) (engWrite_canon _ _ _ _ _ _ _))

theorem heal_memOk (core : Option Nat) (ctx : Nat) (view : Mode) (vas : List Word) {s : State} (holds : s.memOk) :
    (heal core ctx view vas s).memOk := by
  unfold heal
  split <;> exact holds

theorem healChunk_memOk (core : Nat) (t : Transfer) (bs : List (Nat × Nat)) {s : State} (holds : s.memOk) :
    (healChunk core t bs s).memOk := by
  unfold healChunk
  split
  · split
    · exact holds
    · exact tilePoke_memOk _ _ _ holds
  · exact heal_memOk _ _ _ _ holds

theorem moveChunk_canon (core : Nat) (t : Transfer) (c : Nat) : Canon (moveChunk core t c) :=
  keeps_bind (keeps_mapM (fun _ => keeps_bind (engSource_canon _ _ _) fun _ => keeps_pure _) _) fun _ =>
    keeps_bind (keeps_forM (fun _ => engDest_canon _ _ _ _) _) fun _ =>
    keeps_bind (keeps_modify fun _ h => healChunk_memOk _ _ _ h) fun _ => keeps_pure _

theorem markChunk_memOk (core : Nat) (t : Transfer) (c : Nat) {s : State} (holds : s.memOk) :
    (markChunk core t c s).memOk :=
  setChunkBits_memOk _ _ holds

theorem countByte_memOk (core id : Nat) {s : State} (holds : s.memOk) : (countByte core id s).memOk := by
  unfold countByte
  split <;> exact holds

theorem setItem_memOk (it : Item) {s : State} (holds : s.memOk) : (setItem it s).memOk := holds

theorem dropItem_memOk (id : Nat) {s : State} (holds : s.memOk) : (dropItem id s).memOk := holds

theorem engineByte_memOk (it : Item) (core id k : Nat) (w : Word) {s : State} (holds : s.memOk) :
    (engineByte it core id k w s).memOk := by
  unfold engineByte
  split
  · exact holds
  · split
    · exact holds
    · split
      · next run =>
          dsimp only
          split
          · exact dropItem_memOk _ (memOk_of_ok (engDest_canon _ _ _ _) run holds :)
          · exact countByte_memOk _ _ (dropItem_memOk _ (memOk_of_ok (engDest_canon _ _ _ _) run holds :))
      · exact holds
      · exact holds

theorem writeCame_memOk (core id : Nat) (its : List Item) {s : State} (holds : s.memOk) :
    (writeCame core id its s).memOk :=
  foldl_memOk (fun _ _ held => by
      split
      · exact engineByte_memOk _ _ _ _ _ held
      · exact held) _ holds

theorem chunkStep_memOk (core id c : Nat) {s : State} (holds : s.memOk) : (chunkStep core id c s).memOk := by
  unfold chunkStep
  split
  · exact holds
  · split
    · exact holds
    · split
      · dsimp only
        split
        · split
          · exact markChunk_memOk _ _ _ (writeCame_memOk _ _ _ holds)
          · exact writeCame_memOk _ _ _ holds
        · exact writeCame_memOk _ _ _ holds
      · split
        · exact holds
        · exact holds
        · next run =>
            dsimp only
            split
            · exact markChunk_memOk _ _ _ (memOk_of_ok (moveChunk_canon _ _ _) run holds :)
            · exact (memOk_of_ok (moveChunk_canon _ _ _) run holds :)

theorem execFillChunkComplete_stays (core id chunk : Nat) {s : State} (holds : s.memOk) :
    Stays (execFillChunkComplete core id chunk s) :=
  stays_next (chunkStep_memOk _ _ _ holds)

theorem postDone_memOk (core : Nat) (p : Option Post) {s : State} (holds : s.memOk) : (postDone core p s).memOk :=
  postDone_keeps memOk_work.toEngine _ _ holds

theorem finishTransfer_memOk (core : Nat) (t : Transfer) (fail : Option (BitVec 8 × Word)) {s : State} (holds : s.memOk) :
    (finishTransfer core t fail s).memOk :=
  finishTransfer_keeps memOk_work.toEngine _ _ _ holds

theorem execTransferComplete_stays (core id : Nat) {s : State} (holds : s.memOk) :
    Stays (execTransferComplete core id s) := by
  refine stays_next ?_
  split
  · split
    · exact finishTransfer_memOk _ _ _ holds
    · exact holds
  · exact holds

theorem transferFails_kept {s : State} (core : Nat) (t : Transfer) (holds : s.memOk) :
    KeptPair (transferFails s core t) := by
  unfold transferFails
  split
  · exact keptPair_some holds
  · split
    · exact keptPair_none
    · split
      · exact keptPair_some holds
      · exact keptPair_none

theorem failTransfer_memOk (core : Nat) (t : Transfer) (f : BitVec 8 × Word) {s : State} (holds : s.memOk) :
    (failTransfer core t f s).memOk :=
  failTransfer_keeps memOk_work.toEngine _ _ _ holds

theorem execTransferFailure_stays (core id : Nat) (cause : BitVec 8) (addr : Word) {s : State} (holds : s.memOk) :
    Stays (execTransferFailure core id cause addr s) := by
  refine stays_next ?_
  split
  · split
    · split
      · exact failTransfer_memOk _ _ _ holds
      · exact holds
    · split
      · next run =>
          split
          · exact failTransfer_memOk _ _ _ ((transferFails_kept _ _ holds) _ _ run :)
          · exact holds
      · exact holds
  · exact holds

theorem execEngineTranslationFault_stays (core id : Nat) {s : State} (holds : s.memOk) :
    Stays (execEngineTranslationFault core id s) := by
  refine stays_next ?_
  split
  · split
    · exact addFault_memOk _ _ _ _ _ _ _ holds
    · exact holds
  · exact holds

/-! ### The end of a hart -/

theorem closeConvoy_memOk (u : Nat) {s : State} (holds : s.memOk) : (closeConvoy u s).memOk :=
  closeConvoy_reports memOk_work.toKeptByReports _ holds

theorem endConvoy_memOk (u : Nat) {s : State} (holds : s.memOk) : (endConvoy u s).memOk := closeConvoy_memOk _ holds

theorem flushEnding_memOk (g : Nat) {s : State} (holds : s.memOk) : (flushEnding g s).memOk := flushExit_memOk _ holds

theorem setEnding_memOk (g : Nat) (status : BitVec 8) (n : Nat) {s : State} (holds : s.memOk) :
    (setEnding g status n s).memOk := holds

theorem endLeave_memOk (g : Nat) (status : BitVec 8) {s : State} (holds : s.memOk) : (endLeave g status s).memOk := by
  unfold endLeave
  extract_lets u s1 s2
  have h1 : s1.memOk := setEnding_memOk _ _ _ (flushEnding_memOk _ (withdraw_memOk _ holds))
  have h2 : s2.memOk := settleBarrier_memOk u h1
  exact memOk_ite (closeConvoy_memOk u h2) h2

theorem endFirst_memOk (g : Nat) (status : BitVec 8) {s : State} (holds : s.memOk) : (endFirst g status s).memOk :=
  memOk_ite (hostFlushed_memOk holds) holds

theorem statusFailed_memOk (j : Join) (cause : BitVec 8) {s : State} (holds : s.memOk) : (statusFailed j cause s).memOk :=
  statusFailed_reports memOk_work.toKeptByReports _ _ holds

theorem endStatus_memOk (g : Nat) (status : BitVec 8) {s : State} (holds : s.memOk) : (endStatus g status s).memOk := by
  have write := writeStatus_reports memOk_work.toKeptByReports (some (g / 8)) (BitVec.ofNat 8 (g / 8)) (s.hartOf g).join
    status
    (.hartEnd g) holds
  unfold endStatus
  cases ends : writeStatus (some (g / 8)) (BitVec.ofNat 8 (g / 8)) (s.hartOf g).join status (.hartEnd g) s with
  | made u => exact (ends ▸ write :)
  | queued u tag => exact (ends ▸ write :)
  | waits u => exact (ends ▸ write :)

theorem dropHandle_memOk (core ctx : Nat) (x : Word) {s : State} (holds : s.memOk) :
    (dropHandle core ctx x s).memOk :=
  dropHandle_reports memOk_work.toKeptByReports _ _ _ holds

theorem dropStart_memOk (g : Nat) {s : State} (holds : s.memOk) : (dropStart g s).memOk := by
  unfold dropStart
  dsimp only
  split
  · exact dropHandle_memOk _ _ _ holds
  · exact holds

theorem gangReport_memOk (gang i : Nat) (core status : BitVec 8) {s : State} (holds : s.memOk) :
    (gangReport gang i core status s).memOk :=
  gangReport_reports memOk_work.toKeptByReports _ _ _ _ holds

theorem joinDone_memOk (j : Join) (core status : BitVec 8) {s : State} (holds : s.memOk) :
    (joinDone j core status s).memOk :=
  joinDone_reports memOk_work.toKeptByReports _ _ _ holds

theorem endLast_memOk (g : Nat) (status : BitVec 8) {s : State} (holds : s.memOk) : (endLast g status s).memOk := by
  unfold endLast
  dsimp only
  split
  · exact endConvoy_memOk _ (joinDone_memOk _ _ _ holds)
  · exact joinDone_memOk _ _ _ holds

theorem lateDone_memOk (l : Late) {s : State} (holds : s.memOk) : (lateDone l s).memOk := joinDone_memOk _ _ _ holds

theorem lateStep_memOk (l : Late) {s : State} (holds : s.memOk) : (lateStep l s).memOk :=
  lateStep_reports memOk_work.toKeptByReports _ holds

theorem execHartEnd_stays (g : Nat) {s : State} (holds : s.memOk) : Stays (execHartEnd g s) := by
  refine stays_next ?_
  split
  · split
    · exact lateStep_memOk _ holds
    · exact holds
  · split
    · exact holds
    · split
      · exact endLeave_memOk _ _ holds
      · dsimp only
        split
        · exact flushEnding_memOk _ holds
        · exact endFirst_memOk _ _ (flushEnding_memOk _ holds)
      · exact endStatus_memOk _ _ holds
      · exact endLast_memOk _ _ (dropStart_memOk _ holds)
      · exact holds

/-! ### Logs -/

theorem onLog_memOk (ctx : Nat) (order : Bool) (f : Log → Log) {s : State} (holds : s.memOk) :
    (onLog ctx order f s).memOk :=
  holds

theorem discardFrom_memOk (ctx : Nat) (order : Bool) (a : Word) {s : State} (holds : s.memOk) :
    (discardFrom ctx order a s).memOk := by
  unfold discardFrom
  dsimp only
  split <;> exact holds

theorem logWrite_canon (ctx : Nat) (e : LogEntry) : Canon (logWrite ctx e) :=
  keeps_bind (saveWrite_canon _ _ _) fun _ => saveWrite_canon _ _ _

theorem execOrderLogEntryFill_stays (ctx : Nat) (order : Bool) {s : State} (holds : s.memOk) :
    Stays (execOrderLogEntryFill ctx order s) := by
  refine stays_next ?_
  dsimp only
  split
  · split
    · exact holds
    · split
      · next run => exact onLog_memOk _ _ _ (memOk_of_ok (logWrite_canon _ _) run holds :)
      · next run =>
          exact onLog_memOk _ _ _ (addFault_memOk _ _ _ _ _ _ _ (memOk_of_error (logWrite_canon _ _) run holds :))
      · next run => exact discardFrom_memOk _ _ _ (memOk_of_error (logWrite_canon _ _) run holds :)
      · next run => exact (memOk_of_error (logWrite_canon _ _) run holds :)
  · exact holds

/-! ### Room on a core -/

theorem wakeUp_memOk {s : State} (holds : s.memOk) : (wakeUp s).memOk := by
  unfold wakeUp
  split <;> exact holds

theorem reclaimSlot_kept (u : Nat) {s : State} (n : Nat) (holds : s.memOk) : Kept (reclaimSlot u s n) := by
  unfold reclaimSlot
  dsimp only
  split
  · exact kept_none
  · split
    · exact kept_none
    · next run =>
        exact kept_some (freeSlot_memOk _ _ (memOk_of_ok (keeps_bind (keeps_forM (fun _ => saveWrite_canon _ _ _) _)
          fun _ => keeps_forM (fun _ => saveWrite_canon _ _ _) _) run holds :))

theorem reclaim_kept {s : State} (u : Nat) (holds : s.memOk) : Kept (reclaim s u) :=
  foldl_kept (fun _ _ held => kept_bind held fun _ held => reclaimSlot_kept _ _ held) _ (kept_some holds)

theorem tileRoom_kept (core : Nat) (keep : List Nat) (n : Nat) {s : State} (holds : s.memOk) :
    Kept (tileRoom core keep n s) := by
  unfold tileRoom
  dsimp only
  split
  · exact kept_some holds
  · split
    · next run =>
        split
        · exact kept_some ((foldl_kept (fun _ _ held => kept_bind held fun _ held => reclaim_kept _ held) _
            (kept_some holds)) _ run :)
        · exact kept_none
    · exact kept_none

theorem saveWindow_canon (w : Window) : Canon (saveWindow w) :=
  keeps_read fun _ _ =>
    keeps_bind (keeps_forM (fun _ =>
        keeps_bind (saveWrite_canon _ _ _) fun _ =>
        keeps_forM (fun _ => saveWrite_canon _ _ _) _) _) fun _ =>
    keeps_bind (keeps_forM (fun _ => saveWrite_canon _ _ _) _) fun _ => saveWrite_canon _ _ _

theorem loadWindow_canon (ctx : Nat) : Canon (loadWindow ctx) :=
  keeps_read fun _ _ =>
    keeps_bind (keeps_mapM (fun _ =>
        keeps_bind (saveRead_canon _ _) fun _ =>
        keeps_bind (keeps_mapM (fun _ => saveRead_canon _ _) _) fun _ =>
        keeps_pure _) _) fun _ =>
    keeps_bind (keeps_mapM (fun _ => saveRead_canon _ _) _) fun _ => keeps_bind (saveRead_canon _ _) fun _ =>
    keeps_read fun _ _ => keeps_pure _

theorem evict_kept (core n : Nat) (w : Window) {s : State} (holds : s.memOk) : Kept (evict core n w s) := by
  unfold evict
  split
  · exact kept_none
  · next run => exact kept_some (writePosts_memOk _ (memOk_of_ok (saveWindow_canon _) run holds :))

theorem readPosts_canon (ctx : Nat) : Canon (readPosts ctx) :=
  keeps_read fun _ _ => keeps_bind (saveRead_canon _ _) fun _ =>
    keeps_mapM (fun _ =>
       keeps_bind (saveRead_canon _ _) fun _ =>
       keeps_bind (saveRead_canon _ _) fun _ =>
       keeps_bind (saveRead_canon _ _) fun _ =>
       keeps_pure _) _

theorem ensureWindow_kept (core ctx : Nat) {s : State} (holds : s.memOk) : Kept (ensureWindow core ctx s) := by
  unfold ensureWindow
  dsimp only
  split
  · exact kept_some holds
  · split
    · exact kept_none
    · next n t room =>
      have roomy : t.memOk := by
        split at room
        · exact (Prod.mk.inj (Option.some.inj room)).2 ▸ holds
        · split at room
          · obtain ⟨v, left, same⟩ := Option.map_eq_some_iff.mp room
            exact (Prod.mk.inj same).2 ▸ evict_kept _ _ _ holds v left
          · nomatch room
      split
      · split
        · next run =>
          exact kept_some (memOk_of_ok (keeps_bind (loadWindow_canon _) fun _ => keeps_bind (readPosts_canon _) fun _ =>
            keeps_bind (saveWrite_canon _ _ _) fun _ => keeps_pure _) run roomy :)
        · exact kept_none
      · exact kept_some roomy

theorem followWindow_kept (core ctx win : Nat) {s : State} (holds : s.memOk) :
    Kept (followWindow core ctx win s) := by
  unfold followWindow
  dsimp only
  split
  · split
    · exact kept_some holds
    · split
      · exact ensureWindow_kept _ _ holds
      · split
        · exact kept_none
        · exact kept_bind (evict_kept _ _ _ holds) fun _ held => ensureWindow_kept _ _ held
  · split
    · exact kept_none
    · exact ensureWindow_kept _ _ holds

theorem makeReady_kept (core : Nat) (n : Need) {s : State} (holds : s.memOk) : Kept (makeReady core n s) := by
  unfold makeReady
  split
  · exact kept_bind (ensureWindow_kept _ _ holds) fun _ held => tileRoom_kept _ _ _ held
  · exact kept_bind (kept_bind (kept_ite (kept_some holds) (reclaim_kept _ holds)) fun _ held => followWindow_kept _ _ _
      held) fun _ held => kept_ite (tileRoom_kept _ _ _ held) kept_none

theorem startHart_memOk (g : Nat) (h : Hart) {s : State} (holds : s.memOk) : (startHart g h s).memOk := by
  unfold startHart
  change State.memOk (match checkTarget _ true _ with
    | .ok _ t => t
    | .error (.trap x) t => t.setHartOf g _
    | .error _ t => t)
  split
  · next run => exact memOk_of_ok (checkTarget_canon _ _) run holds
  · next run => exact (memOk_of_error (checkTarget_canon _ _) run holds :)
  · next run => exact memOk_of_error (checkTarget_canon _ _) run holds

theorem addConvoy_memOk (core : Nat) (c : Convoy) {s : State} (holds : s.memOk) : (addConvoy core c s).2.memOk := holds

theorem placeQueued_memOk (q : Nat) (e : Queued) (core : Nat) (ks : List Nat) {s : State} (holds : s.memOk) :
    (placeQueued q e core ks s).memOk := by
  unfold placeQueued
  split
  · exact holds
  · split
    · exact holds
    · next ready =>
      extract_lets p n _ r s2 e' x rest s3 eff
      have started : s2.memOk := foldl_memOk (fun _ _ held => startHart_memOk _ _ held) _
        (addConvoy_memOk _ _ (makeReady_kept _ _ holds _ ready))
      exact routeOf_memOk _ _ _ _ _ _ _ (wakeUp_memOk started)

theorem execDispatchPlace_stays {s : State} (holds : s.memOk) : Stays (execDispatchPlace s) := by
  refine stays_next ?_
  split
  · exact placeQueued_memOk _ _ _ _ (foldl_memOk (fun _ _ held => toldFull_memOk _ held) _ holds)
  · exact foldl_memOk (fun _ _ held => toldFull_memOk _ held) _ holds

theorem startPost_memOk (core i : Nat) (p : Post) (k : Nat) {s0 : State} (holds : s0.memOk) :
    (startPost core i p k s0).memOk :=
  routeLog_memOk _ _ _ _ _ _ (wakeUp_memOk (startHart_memOk _ _ (addConvoy_memOk _ _ (kept_getD (tileRoom_kept _ _ _ holds)
    holds))))

theorem execPostedClosureStart_stays (core : Nat) {s : State} (holds : s.memOk) : Stays (execPostedClosureStart core s) :=
    by
  refine stays_next ?_
  split
  · split
    · exact startPost_memOk _ _ _ _ (foldl_memOk (fun _ _ held => toldFull_memOk _ held) _ holds)
    · exact foldl_memOk (fun _ _ held => toldFull_memOk _ held) _ holds
  · split
    · exact kept_getD (ensureWindow_kept _ _ (foldl_memOk (fun _ _ held => toldFull_memOk _ held) _ holds)) (foldl_memOk
        (fun _ _ held => toldFull_memOk _ held) _ holds)
    · exact foldl_memOk (fun _ _ held => toldFull_memOk _ held) _ holds

theorem execPreEmption_stays (u : Nat) {s : State} (holds : s.memOk) : Stays (execPreEmption u s) := by
  refine stays_next ?_
  split
  · split
    · exact leave_memOk _ holds
    · exact toldFull_memOk _ holds
  · split
    · exact toldFull_memOk _ holds
    · exact holds

theorem recordRead_canon (ctx : Nat) (base : Word) (off : Nat) : Canon (recordRead ctx base off) := fun s holds => by
  have read := saveRead_canon ctx (base + BitVec.ofNat 64 off) s holds
  unfold EndsIn recordRead at *
  split
  · next run => rwa [run] at read
  · next run =>
    rw [run] at read
    exact read

/-- Takes the leading `have`s off a step without rewriting what they bind. -/
theorem kept_app {α : Type} {f : α → Option State} {a : α} (ho : Kept (f a)) : Kept (f a) := ho

/-- `restoreHart_kept` as a property of the function: the kernel then compares `restoreHart` with its definition, and
does not evaluate the reads of a record to compare two of its results. -/
def KeepsRestored (restore : Nat → Convoy → Word → Nat × OutHart → Nat → State → Option State) : Prop :=
  ∀ u c base o g s, s.memOk → Kept (restore u c base o g s)

theorem keepsRestored_iff {restore : Nat → Convoy → Word → Nat × OutHart → Nat → State → Option State} :
    KeepsRestored restore ↔ ∀ u c base o g s, s.memOk → Kept (restore u c base o g s) := .rfl

theorem restoreHart_keepsRestored : KeepsRestored restoreHart := by
  delta restoreHart
  refine keepsRestored_iff.mpr fun u c base o g s holds => kept_app ?_
  split
  · next read _ =>
    refine kept_app ?_
    split
    · exact kept_none
    · have loaded := memOk_of_ok (readHart_canon _ fun _ => recordRead_canon _ _ _) read holds
      exact kept_some (setHartOf_memOk _ _ (setConvoyOf_memOk _ _ (setHartOf_memOk _ _ loaded)))
  · exact kept_none

theorem restoreHart_kept (u : Nat) (c : Convoy) (base : Word) (o : Nat × OutHart) (g : Nat) {s : State} (holds : s.memOk) :
    Kept (restoreHart u c base o g s) :=
  keepsRestored_iff.mp restoreHart_keepsRestored u c base o g s holds

theorem readConvoy_canon (c : Convoy) (base : Word) : Canon (readConvoy c base) :=
  keeps_bind (saveRead_canon _ _) fun _ => keeps_bind (keeps_mapM (fun _ => saveRead_canon _ _) _) fun _ =>
    keeps_bind (keeps_mapM (fun _ => saveRead_canon _ _) _) fun _ => keeps_bind (saveRead_canon _ _) fun _ =>
    keeps_bind (keeps_mapM (fun _ => keeps_mapM (fun _ => saveRead_canon _ _) _) _) fun _ =>
    keeps_bind (saveRead_canon _ _) fun _ => keeps_bind (saveRead_canon _ _) fun _ =>
    keeps_bind (keeps_mapM (fun _ => saveRead_canon _ _) _) fun _ =>
    keeps_bind (keeps_mapM (fun _ => saveRead_canon _ _) _) fun _ => keeps_pure _

theorem putBack_canon (u core ctx : Nat) (base : Word) (r : Reclaimed) :
    Canon (putBack u core ctx base r) :=
  keeps_bind (saveRead_canon _ _) fun _ => keeps_bind (keeps_mapM (fun _ => saveRead_canon _ _) _) fun _ =>
    keeps_modify fun _ h => setCoreOf_memOk _ _ (tilePoke_memOk _ _ _ h)

theorem restoreConvoy_kept (u core : Nat) (ks : List Nat) {s : State} (holds : s.memOk) :
    Kept (restoreConvoy u core ks s) := by
  unfold restoreConvoy
  dsimp only
  split
  · next ready =>
    split
    · exact kept_none
    · next image =>
      split
      · exact kept_none
      · next harts =>
        have placed := memOk_of_ok (keeps_bind (readConvoy_canon _ _) fun _ =>
          keeps_bind (keeps_forM (fun _ => putBack_canon _ _ _ _ _) _) fun _ => keeps_pure _) image
          (makeReady_kept _ _ holds _ ready)
        have restored := foldl_kept (fun _ _ held => kept_bind held fun _ hv => restoreHart_kept _ _ _ _ _ hv) _
          (kept_some (by exact placed)) _ harts
        exact kept_some (settleBarrier_memOk _ (routeLog_memOk _ _ _ _ _ _ (wakeUp_memOk (imageUpdate_memOk _ _ _
          restored))))
  · exact kept_none

theorem execRestore_stays (u : Nat) {s : State} (holds : s.memOk) : Stays (execRestore u s) := by
  refine stays_next ?_
  split
  · split
    · exact kept_getD (restoreConvoy_kept _ _ _ holds) holds
    · exact holds
  · exact holds

end Sys2Proof.Machine
end

section
/-! PROOFS. Log 3: what the host, the depot, errors, the fabric, gangs and collectives do to the state keeps memory in its
canonical form. -/

namespace Sys2Proof.Machine

/-! ### Killed contexts -/

theorem stopHart_memOk (status : BitVec 8) {s : State} (g : Nat) (holds : s.memOk) : (stopHart status s g).memOk := by
  unfold stopHart
  split
  · exact holds
  · split
    · exact holds
    · exact withdraw_memOk _ holds

theorem stopOut_memOk (p : OutHart → Bool) (u : Nat) {s : State} (holds : s.memOk) : (stopOut p u s).memOk :=
  stopOut_reports memOk_work.toKeptByReports _ _ holds

theorem stopTransfers_memOk (p : Nat → Transfer → Bool) (cause : BitVec 8) {s : State} (holds : s.memOk) :
    (stopTransfers p cause s).memOk :=
  stopTransfers_keeps memOk_work _ _ holds

theorem stopDepot_memOk (p : DepotCmd → Bool) {s : State} (holds : s.memOk) : (stopDepot p s).memOk := holds

theorem stopPosts_memOk (p : Post → Bool) {s : State} (holds : s.memOk) : (stopPosts p s).memOk := holds

theorem failPosts_memOk (p : Nat → Post → Bool) (status : BitVec 8) {s : State} (holds : s.memOk) :
    (failPosts p status s).memOk :=
  failPosts_reports memOk_work.toKeptByReports _ _ holds

theorem dropQueued_memOk (ctx : Nat) (e : Queued) {s : State} (holds : s.memOk) : (dropQueued ctx e s).memOk :=
  dropQueued_reports memOk_work.toKeptByReports _ _ holds

theorem idleBarriers_memOk (vd : Nat) (asid : BitVec 16) {s : State} (holds : s.memOk) : (idleBarriers vd asid s).memOk :=
  holds

theorem killStart_memOk (ctx : Nat) {s : State} (holds : s.memOk) : (killStart ctx s).memOk := by
  unfold killStart
  extract_lets x s1 gs s2 us s3 s4 qs s5 s6 s7 dropped s8
  have h2 : s2.memOk := foldl_memOk (fun _ _ held => stopHart_memOk _ _ held) _ holds
  have h3 : s3.memOk := foldl_memOk (fun _ _ held => stopOut_memOk _ _ held) _ h2
  have h4 : s4.memOk := stopDepot_memOk _ (stopTransfers_memOk _ _ h3)
  have h5 : s5.memOk :=
    foldl_memOk (fun _ _ held => foldl_memOk (fun _ _ ht => dropQueued_memOk _ _ ht) _ held) _ h4
  have h6 : s6.memOk := by
    refine foldl_memOk (fun t q held => ?_) _ h5
    dsimp only
    split
    · exact held
    · exact raiseInt_memOk _ _ held
  have h7 : s7.memOk := idleBarriers_memOk _ _ (stopPosts_memOk _ h6)
  have h8 : s8.memOk := by
    refine foldl_memOk (fun t p held => ?_) _ (memOk_of_mem h7 rfl)
    split
    · exact giveBackDet_memOk _ _ _ held
    · exact held
  exact memOk_of_mem h8 rfl

theorem killFinish_memOk (ctx : Nat) {s : State} (holds : s.memOk) : (killFinish ctx s).memOk := holds

/-! ### Host accesses and commands -/

theorem reply_memOk (r : Reply) {s : State} (holds : s.memOk) : (reply r s).memOk := holds

theorem hostRequest_memOk (f : Nat) (p : Bool) (act : State → State) {s : State} (each : ∀ s, s.memOk → (act s).memOk)
    (holds : s.memOk) :
    (hostRequest f p act s).memOk := by
  unfold hostRequest
  split
  · exact each _ (wakeUp_memOk holds)
  · exact holds

theorem discardOne_memOk (f q : Nat) {s : State} (holds : s.memOk) : (discardOne f q s).memOk :=
  raiseInt_memOk _ _ holds

theorem placePacket_memOk (f q : Nat) (p : BitVec 512) {s : State} (holds : s.memOk) :
    (placePacket f q p s).memOk := by
  unfold placePacket
  dsimp only
  split
  · exact holds
  · split
    · split
      · exact discardOne_memOk _ _ holds
      · split
        · exact raiseInt_memOk _ _ (raiseInt_memOk _ _ holds)
        · exact enqueue_memOk _ _ _ holds
    · exact discardOne_memOk _ _ holds

theorem releaseWindow_memOk (q : Nat) {s : State} (holds : s.memOk) : (releaseWindow q s).memOk :=
  foldl_memOk (fun _ _ held => placePacket_memOk _ _ _ held) _ holds

theorem releaseWindows_memOk (n : Nat) {s : State} (holds : s.memOk) : (releaseWindows n s).memOk := by
  induction n generalizing s with
  | zero => exact holds
  | succ n ih =>
    unfold releaseWindows
    split
    · exact ih (releaseWindow_memOk _ holds)
    · exact holds

theorem hostPacket_memOk (f q : Nat) (p : BitVec 512) {s : State} (holds : s.memOk) :
    (hostPacket f q p s).memOk := by
  unfold hostPacket
  split
  · exact placePacket_memOk _ _ _ (releaseWindows_memOk _ holds)
  · exact placePacket_memOk _ _ _ holds

theorem execHostLaunchWrite_stays (fn q : Nat) (packet : BitVec 512) {s : State} (holds : s.memOk) :
    Stays (execHostLaunchWrite fn q packet s) :=
  stays_next (hostRequest_memOk _ _ _ (fun _ held => hostPacket_memOk _ _ _ held) holds)

theorem execHeldPacketEnqueue_stays (q : Nat) {s : State} (holds : s.memOk) : Stays (execHeldPacketEnqueue q s) := by
  refine stays_next ?_
  split
  · exact releaseWindow_memOk _ holds
  · exact holds

theorem execHostBar4Read_stays (fn off len : Nat) {s : State} (holds : s.memOk) :
    Stays (execHostBar4Read fn off len s) :=
  stays_next (hostRequest_memOk _ _ _ (fun _ held => held) holds)

theorem execHostBar4Write_stays (fn off : Nat) (data : List Byte) {s : State} (holds : s.memOk) :
    Stays (execHostBar4Write fn off data s) :=
  stays_next (hostRequest_memOk _ _ _ (fun _ held => pokeBytes_memOk held _ _) holds)

theorem writeCmd_memOk (f : Nat) (data : Word) {s : State} (holds : s.memOk) : (writeCmd f data s).memOk := by
  unfold writeCmd
  dsimp only
  split
  · exact holds
  · split <;> exact holds

theorem execDiscardReset_stays (fn q : Nat) {s : State} (holds : s.memOk) : Stays (execDiscardReset fn q s) :=
  stays_next (hostRequest_memOk _ _ _ (fun _ held => held) holds)

theorem answer_memOk (code : BitVec 8) (args : Vector Word 6) {s : State} (holds : s.memOk) :
    (answer code args s).memOk := by
  unfold answer
  split <;> exact holds

theorem command_stays (f : Nat) (op : BitVec 8) (act : Command → State → Option (BitVec 8) × State) {s : State}
    (each : ∀ a0 s, s.memOk → (act a0 s).2.memOk) (holds : s.memOk) :
    Stays (command f op act s) := by
  refine stays_next ?_
  split
  · exact holds
  · split
    · next run => exact (memOk_of_snd run (each _ _ holds) :)
    · next run => exact answer_memOk _ _ (memOk_of_snd run (each _ _ holds) :)

theorem execCreateContext_stays (fn : Nat) {s : State} (holds : s.memOk) : Stays (execCreateContext fn s) := by
  refine stays_next ?_
  split
  · exact holds
  · dsimp only
    split <;> exact answer_memOk _ _ holds

theorem execBindQueue_stays (fn : Nat) {s : State} (holds : s.memOk) : Stays (execBindQueue fn s) :=
  command_stays _ _ _ (fun _ _ held => by
     dsimp only
     split
     · exact held
     · split
       · exact held
       · split
         · exact held
         · split
           · exact held
           · exact held) holds

theorem execInvalidate_stays (fn : Nat) {s : State} (holds : s.memOk) : Stays (execInvalidate fn s) :=
  command_stays _ _ _ (fun _ _ held => by
     dsimp only
     split
     · split <;> exact held
     · split
       · exact held
       · split <;> exact held
     · split
       · exact held
       · split <;> exact held
     · exact held) holds

theorem execReadHart_stays (fn : Nat) {s : State} (holds : s.memOk) : Stays (execReadHart fn s) :=
  command_stays _ _ _ (fun _ _ held => by
     dsimp only
     split
     · exact held
     · split
       · exact held
       · split
         · exact foldl_memOk (fun _ _ held => hostWrite_memOk _ _ _ held) _ held
         · exact held) holds

theorem execResumeHart_stays (fn : Nat) {s : State} (holds : s.memOk) : Stays (execResumeHart fn s) :=
  command_stays _ _ _ (fun _ _ held => by
     dsimp only
     split
     · exact held
     · split
       · exact held
       · exact held) holds

theorem execKillContext_stays (fn : Nat) {s : State} (holds : s.memOk) : Stays (execKillContext fn s) :=
  command_stays _ _ _ (fun c t held => by
    have killed (x : Context) : (if x.killed then t else killStart c.args[0].toNat t).memOk :=
      memOk_ite held (killStart_memOk _ held)
    dsimp only
    split
    · exact held
    · next x _ =>
      split
      · exact held
      · specialize killed x
        generalize (if x.killed then t else killStart c.args[0].toNat t) = u at *
        split
        · exact killed
        · exact killed) holds

theorem clearCluster_memOk (cl : Nat) {s : State} (holds : s.memOk) : (clearCluster cl s).memOk := by
  unfold clearCluster
  refine memOk_of_mem (foldl_memOk (fun t k held => ?_) _ holds) rfl
  exact memWf_memClear _ _ _ (memWf_memClear _ _ _ held)

theorem execAssignCluster_stays (fn : Nat) {s : State} (holds : s.memOk) : Stays (execAssignCluster fn s) :=
  command_stays _ _ _ (fun _ t held => by
    have ended (l : List Nat) : (l.foldl (fun s n => killStart n s) t).memOk :=
      foldl_memOk (fun _ _ ht => killStart_memOk _ ht) l held
    dsimp only
    split
    · exact held
    · generalize (List.filter _ _ : List Nat) = live
      split
      · exact setClusterOf_memOk _ _ (clearCluster_memOk _ (foldl_memOk (fun _ _ ht => killFinish_memOk _ ht) _
          (ended live)))
      · exact ended live) holds

theorem execPowerLimit_stays (fn : Nat) {s : State} (holds : s.memOk) : Stays (execPowerLimit fn s) :=
  command_stays _ _ _ (fun _ _ held => by
     dsimp only
     split
     · exact held
     · exact held) holds

theorem execCommandDone_stays (fn : Nat) {s : State} (holds : s.memOk) : Stays (execCommandDone fn s) := by
  refine stays_next ?_
  split
  · split
    · split
      · exact raiseInt_memOk _ _ holds
      · exact holds
    · exact holds
  · exact holds

/-! ### The depot and the staging cache -/

theorem onHead_memOk (r : Nat) (f : DepotCmd → DepotCmd) {s : State} (holds : s.memOk) : (onHead r f s).memOk := by
  unfold onHead
  dsimp only
  split <;> exact holds

theorem headEnds_memOk (r : Nat) (code : BitVec 3) {s : State} (holds : s.memOk) : (headEnds r code s).memOk :=
  onHead_memOk _ _ holds

theorem retire_memOk (r : Nat) {s : State} (holds : s.memOk) : (retire_ r s).memOk := mcWrite_memOk _ holds

theorem execDepotEraseDone_stays (region : Nat) (ok : Bool) {s : State} (holds : s.memOk) :
    Stays (execDepotEraseDone region ok s) := by
  refine stays_next ?_
  split
  · split
    · exact holds
    · dsimp only
      split
      · exact headEnds_memOk _ _ (memWf_memClear _ _ _ holds)
      · exact headEnds_memOk _ _ (retire_memOk _ (memWf_memClear _ _ _ holds))
  · exact holds

theorem execDepotSealDone_stays (region : Nat) (ok : Bool) {s : State} (holds : s.memOk) :
    Stays (execDepotSealDone region ok s) := by
  refine stays_next ?_
  split
  · split
    · exact holds
    · split
      · exact headEnds_memOk _ _ holds
      · exact headEnds_memOk _ _ (retire_memOk _ holds)
  · exact holds

theorem stowByte_canon (d : DepotCmd) (k : Nat) : Canon (stowByte d k) :=
  keeps_ite (keeps_read fun _ _ =>
       keeps_when (keeps_throw _) fun _ => by
           split
           · exact keeps_pure _
           · exact keeps_throw _)
      (engRead_canon _ _ _ _ _ _)

theorem stowRead_canon (d : DepotCmd) : Canon (stowRead d) := keeps_mapM (fun _ => stowByte_canon _ _) _

theorem stowAsk_memOk (r : Nat) (d : DepotCmd) {s : State} (holds : s.memOk) : (stowAsk r d s).memOk :=
  onHead_memOk _ _ (foldl_memOk (fun _ _ held => sendItem_memOk _ held) _ holds)

theorem dropStowItems_memOk (r : Nat) {s : State} (holds : s.memOk) : (dropStowItems r s).memOk := holds

theorem programUnit_memOk (r : Nat) (d : DepotCmd) (bs : List Nat) {s : State} (holds : s.memOk) :
    (programUnit r d bs s).memOk :=
  memWf_memWriteBytes _ _ _ holds

theorem unitDone_memOk (r : Nat) (d : DepotCmd) (bs : List Nat) {s : State} (holds : s.memOk) :
    (unitDone r d bs s).memOk := by
  unfold unitDone
  dsimp only
  split
  · exact headEnds_memOk _ _ (onHead_memOk _ _ (dropStowItems_memOk _ (programUnit_memOk _ _ _ holds)))
  · exact onHead_memOk _ _ (dropStowItems_memOk _ (programUnit_memOk _ _ _ holds))

theorem unitDiffers_memOk (r : Nat) (d : DepotCmd) (bs : List Nat) {s : State} (holds : s.memOk) :
    (unitDiffers r d bs s).memOk :=
  headEnds_memOk _ _ (programUnit_memOk _ _ _ holds)

theorem unitFaults_memOk (r : Nat) (d : DepotCmd) {s : State} (holds : s.memOk) : (unitFaults r d s).memOk := by
  unfold unitFaults
  split
  · exact headEnds_memOk _ _ holds
  · split
    · exact onHead_memOk _ _ (addFault_memOk _ _ _ _ _ _ _ holds)
    · exact headEnds_memOk _ _ holds
    · exact holds

theorem execStowUnitDone_stays (region : Nat) (r : StowResult) {s : State} (holds : s.memOk) :
    Stays (execStowUnitDone region r s) := by
  refine stays_next ?_
  split
  · split
    · exact holds
    · split
      · exact stowAsk_memOk _ _ holds
      · split
        · next run => exact unitDone_memOk _ _ _ (memOk_of_ok (stowRead_canon _) run holds :)
        · next run => exact unitDiffers_memOk _ _ _ (memOk_of_ok (stowRead_canon _) run holds :)
        · next run => exact headEnds_memOk _ _ (retire_memOk _ (memOk_of_ok (stowRead_canon _) run holds :))
        · split
          · exact headEnds_memOk _ _ holds
          · exact unitFaults_memOk _ _ holds
        · split
          · exact headEnds_memOk _ _ holds
          · exact holds
        · split
          · exact headEnds_memOk _ _ holds
          · exact holds
  · exact holds

theorem completeCommand_memOk (r : Nat) (d : DepotCmd) (code : BitVec 3) {s : State} (holds : s.memOk) :
    (completeCommand r d code s).memOk :=
  postDone_memOk _ _ (bumpCounter_memOk _ _ _ _ holds)

theorem execDepotCommandComplete_stays (region : Nat) {s : State} (holds : s.memOk) :
    Stays (execDepotCommandComplete region s) := by
  refine stays_next ?_
  dsimp only
  split
  · exact completeCommand_memOk _ _ _ holds
  · split
    · split
      · exact holds
      · exact beginHead_memOk _ (completeCommand_memOk _ _ _ holds)
    · exact holds
  · exact holds

theorem divideTower_memOk (tower : Nat) {s : State} (holds : s.memOk) : (divideTower tower s).memOk := holds

theorem execCacheRepartition_stays {s : State} (holds : s.memOk) : Stays (execCacheRepartition s) :=
  stays_next (memOk_of_mem (foldl_memOk (fun _ _ held => divideTower_memOk _ held) _ holds) rfl)

theorem execStagingLineFill_stays (line : Nat) (flashError : Bool) {s : State} (holds : s.memOk) :
    Stays (execStagingLineFill line flashError s) := by
  refine stays_next ?_
  dsimp only
  split <;> exact holds

theorem regrant_memOk (r : Nat) (vd : Option Nat) {s : State} (holds : s.memOk) : (regrant r vd s).memOk := by
  unfold regrant
  dsimp only
  split
  · exact holds
  · exact divideTower_memOk _ holds

theorem execGrantRegion_stays (fn : Nat) {s : State} (holds : s.memOk) : Stays (execGrantRegion fn s) :=
  command_stays _ _ _ (fun _ _ held => by
     dsimp only
     split
     · exact held
     · split
       · exact held
       · split
         · exact regrant_memOk _ _ held
         · split
           · exact held
           · exact regrant_memOk _ _ held) holds

theorem execCacheFloor_stays (fn : Nat) {s : State} (holds : s.memOk) : Stays (execCacheFloor fn s) :=
  command_stays _ _ _ (fun _ _ held => by
     dsimp only
     split
     · exact held
     · exact held) holds

/-! ### Answers to engine faults, registers and SPDM -/

theorem failReclaimed_memOk (u : Nat) (r : Reclaimed) (t : Transfer) (f : BitVec 8 × Word) {s : State} (holds : s.memOk) :
    (failReclaimed u r t f s).memOk :=
  postDone_memOk _ _ (bumpCounter_memOk _ _ _ _ (setChunkBits_memOk _ _ (foldl_memOk (fun _ _ held => imageUpdate_memOk _ _
    _ held) _ (imageUpdate_memOk _ _ _ holds))))

theorem answerTransfer_memOk (id : Nat) (r : EngineFault) (declined : Bool) {s : State} (holds : s.memOk) :
    (answerTransfer id r declined s).memOk := by
  unfold answerTransfer
  split
  · split
    · exact holds
    · split
      · exact holds
      · split
        · exact failTransfer_memOk _ _ _ holds
        · exact holds
  · split
    · exact holds
    · split
      · exact failReclaimed_memOk _ _ _ _ holds
      · exact holds
  · exact holds

theorem answerEnd_memOk (g : Nat) (r : EngineFault) (declined : Bool) {s : State} (holds : s.memOk) :
    (answerEnd g r declined s).memOk := by
  unfold answerEnd
  split
  · exact holds
  · split
    · split
      · exact statusFailed_memOk _ _ holds
      · exact holds
    · exact holds

theorem answerLate_memOk (id : Nat) (r : EngineFault) (declined : Bool) {s : State} (holds : s.memOk) :
    (answerLate id r declined s).memOk := by
  unfold answerLate
  split
  · exact holds
  · split
    · exact holds
    · split
      · exact lateDone_memOk _ (statusFailed_memOk _ _ holds)
      · exact holds

theorem answerLog_memOk (ctx : Nat) (order : Bool) (r : EngineFault) (declined : Bool) {s : State} (holds : s.memOk) :
    (answerLog ctx order r declined s).memOk := by
  unfold answerLog
  dsimp only
  split
  · exact holds
  · split
    · exact discardFrom_memOk _ _ _ holds
    · exact holds

theorem answerStow_memOk (region : Nat) (r : EngineFault) (declined : Bool) {s : State} (holds : s.memOk) :
    (answerStow region r declined s).memOk := by
  unfold answerStow
  split
  · exact holds
  · split
    · exact holds
    · dsimp only
      split
      · exact headEnds_memOk _ _ (onHead_memOk _ _ holds)
      · exact onHead_memOk _ _ holds

theorem answerTarget_memOk (r : EngineFault) (declined : Bool) {s : State} (holds : s.memOk) :
    (answerTarget r declined s).memOk := by
  unfold answerTarget
  split
  · exact answerTransfer_memOk _ _ _ holds
  · exact answerEnd_memOk _ _ _ holds
  · exact answerLate_memOk _ _ _ holds
  · exact answerLog_memOk _ _ _ _ holds
  · exact answerStow_memOk _ _ _ holds
  · exact holds
  · exact holds

theorem admitFault_memOk (vd : Nat) {s : State} (holds : s.memOk) : (admitFault vd s).memOk := by
  unfold admitFault
  dsimp only
  split
  · split
    · split
      · exact raiseInt_memOk _ _ holds
      · exact holds
    · exact holds
  · exact holds

theorem answerFault_memOk (vdev : Nat) (tag : BitVec 8) (declined : Bool) {s : State} (holds : s.memOk) :
    (answerFault vdev tag declined s).memOk := by
  unfold answerFault
  dsimp only
  split
  · exact holds
  · exact admitFault_memOk _ (answerTarget_memOk _ _ holds)

theorem execEngineFaultAnswer_stays (vdev : Nat) (tag : BitVec 8) (declined : Bool) {s : State} (holds : s.memOk) :
    Stays (execEngineFaultAnswer vdev tag declined s) :=
  stays_next (hostRequest_memOk _ _ _ (fun _ held => answerFault_memOk _ _ _ held) holds)

theorem writeRegister_memOk (f off : Nat) (data : Word) {s : State} (holds : s.memOk) :
    (writeRegister f off data s).memOk := by
  unfold writeRegister
  dsimp only
  split
  · exact holds
  · split <;> exact holds
  · split
    · exact holds
    · split
      · exact writeCmd_memOk _ _ holds
      · split
        · exact holds
        · split
          · split
            · exact answerFault_memOk _ _ _ holds
            · exact holds
          · split
            · exact holds
            · split <;> exact holds

theorem regRead_memOk (f off len : Nat) {s : State} (holds : s.memOk) : (regRead f off len s).memOk := holds

theorem readRegister_memOk (f off len : Nat) {s : State} (holds : s.memOk) :
    (readRegister f off len s).memOk := by
  unfold readRegister
  dsimp only
  split
  · exact holds
  · exact hostRequest_memOk _ _ _ (fun _ held => regRead_memOk _ _ _ held) holds

theorem execRegisterWrite_stays (fn : Nat) (x : RegAccess) (data : Word) {s : State} (holds : s.memOk) :
    Stays (execRegisterWrite fn x data s) := by
  refine stays_next ?_
  dsimp only
  split
  · exact hostRequest_memOk _ _ _ (fun _ held => writeRegister_memOk _ _ _ held) holds
  · exact readRegister_memOk _ _ _ holds
  · exact hostRequest_memOk _ _ _ (fun _ held => held) holds
  · exact hostRequest_memOk _ _ _ (fun _ held => held) holds
  · exact hostRequest_memOk _ _ _ (fun _ held => held) holds

theorem spdmAnswer_stays (code : BitVec 8) (body : State → List Byte) {s : State} (holds : s.memOk) :
    Stays (spdmAnswer code body s) := by
  refine stays_next ?_
  split
  · exact holds
  · exact reply_memOk _ (wakeUp_memOk holds)

theorem spdmFree_stays (k : List Byte →
    State → Host.Outcome State Fault Refusal) {s : State} (each : ∀ a0 s, s.memOk → Stays (k a0 s)) (holds : s.memOk) :
    Stays (spdmFree k s) :=
  each _ _ holds

theorem spdmSlot_stays (slot : Nat) (code : BitVec 8) (body : State → List Byte) {s : State} (holds : s.memOk) :
    Stays (spdmSlot slot code body s) := by
  unfold spdmSlot
  split <;> exact spdmAnswer_stays _ _ holds

theorem execSpdmGetVersion_stays {s : State} (holds : s.memOk) : Stays (execSpdmGetVersion s) :=
  spdmFree_stays _ (fun _ _ held => spdmAnswer_stays _ _ held) holds

theorem execSpdmGetCapabilities_stays {s : State} (holds : s.memOk) : Stays (execSpdmGetCapabilities s) :=
  spdmFree_stays _ (fun _ _ held => spdmAnswer_stays _ _ held) holds

theorem execSpdmNegotiateAlgorithms_stays {s : State} (holds : s.memOk) : Stays (execSpdmNegotiateAlgorithms s) :=
  spdmAnswer_stays _ _ holds

theorem execSpdmGetDigests_stays {s : State} (holds : s.memOk) : Stays (execSpdmGetDigests s) :=
  spdmAnswer_stays _ _ holds

theorem execSpdmGetCertificate_stays (slot : Nat) {s : State} (holds : s.memOk) : Stays (execSpdmGetCertificate slot s) :=
  spdmSlot_stays _ _ _ holds

theorem execSpdmChallenge_stays (slot : Nat) (nonce : BitVec 256) {s : State} (holds : s.memOk) :
    Stays (execSpdmChallenge slot nonce s) :=
  spdmFree_stays _ (fun _ _ held => spdmSlot_stays _ _ _ held) holds

theorem execSpdmGetMeasurements_stays (nonce : BitVec 256) {s : State} (holds : s.memOk) :
    Stays (execSpdmGetMeasurements nonce s) :=
  spdmFree_stays _ (fun _ _ held => spdmAnswer_stays _ _ held) holds

theorem execSpdmUnsupported_stays (code : BitVec 8) {s : State} (holds : s.memOk) : Stays (execSpdmUnsupported code s) :=
  spdmAnswer_stays _ _ holds

/-! ### Reset, power and the clock -/

theorem cleared_memOk {s : State} (holds : s.memOk) : (State.cleared s).memOk := memWf_filter _ _ holds

theorem execPackageReset_stays {s : State} (holds : s.memOk) : Stays (execPackageReset s) :=
  stays_next (cleared_memOk holds)

theorem execPowerRemoved_stays {s : State} (holds : s.memOk) : Stays (execPowerRemoved s) :=
  stays_next (cleared_memOk holds)

theorem execThermalTrip_stays {s : State} (holds : s.memOk) : Stays (execThermalTrip s) := stays_next (cleared_memOk holds)

theorem execBootPhaseAdvance_stays (failure : BitVec 4) {s : State} (holds : s.memOk) :
    Stays (execBootPhaseAdvance failure s) := by
  refine stays_next ?_
  split
  · exact holds
  · split
    · split <;> exact holds
    · split
      · exact holds
      · dsimp only
        split
        · exact memWf_memClear _ _ _ holds
        · split <;> exact holds

theorem execIdleEntry_stays {s : State} (holds : s.memOk) : Stays (execIdleEntry s) := by
  refine stays_next ?_
  split <;> exact holds

theorem execIdleWake_stays {s : State} (holds : s.memOk) : Stays (execIdleWake s) := stays_next (wakeUp_memOk holds)

theorem execClockStep_stays (up : Bool) {s : State} (holds : s.memOk) : Stays (execClockStep up s) := by
  refine stays_next ?_
  split
  · exact holds
  · split
    · split
      · exact memOk_of_mem holds rfl
      · exact holds
    · split
      · exact memOk_of_mem holds rfl
      · exact holds

/-! ### Errors and links -/

theorem poisonHart_memOk (g : Nat) (r : RegSite) {s : State} (holds : s.memOk) : (poisonHart g r s).memOk := by
  unfold poisonHart
  split
  · exact holds
  · split <;> exact holds

theorem poisonTile_memOk (core w : Nat) {s : State} (holds : s.memOk) : (poisonTile core w s).memOk := by
  unfold poisonTile
  dsimp only
  split <;> exact holds

theorem poisonFrame_memOk (core win f dw : Nat) {s : State} (holds : s.memOk) :
    (poisonFrame core win f dw s).memOk := by
  unfold poisonFrame
  dsimp only
  split
  · exact holds
  · split <;> exact holds

theorem poisonSite_memOk (x : SramSite) {s : State} (holds : s.memOk) : (poisonSite x s).memOk := by
  unfold poisonSite
  split
  · exact poisonHart_memOk _ _ holds
  · dsimp only
    split
    · exact holds
    · exact poisonTile_memOk _ _ holds
  · exact poisonFrame_memOk _ _ _ _ holds

theorem execRegisterEccError_stays (site : SramSite) (uncorrectable : Bool) {s : State} (holds : s.memOk) :
    Stays (execRegisterEccError site uncorrectable s) := by
  refine stays_next ?_
  split
  · exact holds
  · exact mcWrite_memOk _ (memOk_ite (poisonSite_memOk _ holds) holds)

theorem execDramEccError_stays (granule : Nat) (uncorrectable : Bool) {s : State} (holds : s.memOk) :
    Stays (execDramEccError granule uncorrectable s) := by
  refine stays_next ?_
  split
  · exact holds
  · exact mcWrite_memOk _ (memOk_ite holds holds)

theorem execDramScrub_stays (_core _bank : Nat) {s : State} (holds : s.memOk) :
    Stays (execDramScrub _core _bank s) :=
  stays_next holds

theorem execTlbParityError_stays (core index : Nat) {s : State} (holds : s.memOk) :
    Stays (execTlbParityError core index s) := by
  refine stays_next ?_
  dsimp only
  split
  · split <;> exact holds
  · split <;> exact holds

/-- An access of elements or banks below a bound. -/
theorem accessBelow_canon {i : Instr} {n : Nat} {h : Hart} {op : M Ctl} {bank : Bool} {top : Nat}
    (below : accessBelow i n h = some (op, bank, top)) : Canon op := by
  unfold accessBelow at below
  dsimp only at below
  split at below
  case h_14 => nomatch below
  all_goals obtain ⟨rfl, -⟩ := Prod.mk.inj (Option.some.inj below)
  case h_10 => exact opAldTo_canon _ _
  case h_11 => exact opAstTo_canon _ _
  case h_12 => exact opStpTo_canon _ _
  case h_13 => exact opPamTo_canon _ _
  all_goals exact keeps_bind (modCsr_canon _) fun _ => opOf_canon _

theorem commitBelow_kept (g n : Nat) {s : State} (holds : s.memOk) : Kept (commitBelow g n s) := by
  unfold commitBelow
  extract_lets h
  split
  · next fetch =>
    have fetched := memOk_of_snd fetch (fetchUnit_memOk (s := { s with cur := g }) holds)
    split
    · exact kept_none
    · next op bank top below =>
      extract_lets first
      split
      · exact kept_none
      · split
        · exact kept_none
        · next run => exact kept_some (memOk_of_ok (accessBelow_canon below) run fetched :)
  · exact kept_none

theorem linkTrap_memOk (g elem : Nat) (addr : Word) {s : State} (holds : s.memOk) :
    (linkTrap g elem addr s).memOk := by
  unfold linkTrap
  split
  · exact holds
  · split
    · exact holds
    · exact setHartOf_memOk _ _ (by
            split
            · exact holds
            · exact kept_getD (commitBelow_kept _ _ holds) holds)

theorem fenceHart_memOk {s : State} (g : Nat) (holds : s.memOk) : (fenceHart s g).memOk := by
  unfold fenceHart
  split
  · exact holds
  · split
    · exact holds
    · exact mcWrite_memOk _ (stopHart_memOk _ _ holds)

theorem loseCore_memOk (core : Nat) {s : State} (holds : s.memOk) : (loseCore core s).memOk :=
  memWf_memClear _ _ _ (failPosts_memOk _ _ (stopTransfers_memOk _ _ holds))

theorem execVerticalLinkFailure_stays (core g elem : Nat) (addr : Word) {s : State} (holds : s.memOk) :
    Stays (execVerticalLinkFailure core g elem addr s) := by
  refine stays_next ?_
  split
  · exact holds
  · exact loseCore_memOk _ (foldl_memOk (fun _ _ held => fenceHart_memOk _ held) _ (mcWrite_memOk _ (memOk_ite
      (linkTrap_memOk _ _ _ holds) holds)))

theorem execClass0MeteringWindow_stays (core : Nat) {s : State} (holds : s.memOk) :
    Stays (execClass0MeteringWindow core s) := by
  refine stays_next ?_
  split <;> exact holds

/-! ### Items of the fabric -/

theorem failItem_memOk (id : Nat) (cause : BitVec 8) {s : State} (holds : s.memOk) : (failItem id cause s).memOk := holds

theorem storeFlag_memOk (i : Item) (key : Nat) (data : Word) {s : State} (holds : s.memOk) :
    (storeFlag i key data s).memOk := by
  unfold storeFlag
  split
  · exact failItem_memOk _ _ holds
  · exact pokeN_memOk (memOk_of_mem holds (uncover_mem i.id s)) _ _ _

theorem releaseFlags_memOk (n : Nat) {s : State} (holds : s.memOk) : (releaseFlags n s).memOk := by
  induction n generalizing s with
  | zero => exact holds
  | succ n ih =>
    unfold releaseFlags
    split
    · exact holds
    · split
      · exact ih (storeFlag_memOk _ _ _ holds)
      · exact ih (failItem_memOk _ _ holds)
      · exact ih (setItem_memOk _ (numberItem_memOk _ _ holds))

theorem itemDone_memOk (id : Nat) {s : State} (holds : s.memOk) : (itemDone id s).memOk := releaseFlags_memOk _ holds

theorem itemFails_memOk (id : Nat) (cause : BitVec 8) {s : State} (holds : s.memOk) : (itemFails id cause s).memOk :=
  releaseFlags_memOk _ holds

theorem deliver_memOk (it : Item) (r : Response) {s : State} (holds : s.memOk) : (deliver it r s).memOk := by
  unfold deliver
  split
  · dsimp only
    split <;> exact itemDone_memOk _ holds
  · exact holds
  · split
    · exact engineByte_memOk _ _ _ _ _ holds
    · exact onHead_memOk _ _ holds

theorem unreachable_memOk (it : Item) {s : State} (holds : s.memOk) : (unreachable it s).memOk := by
  unfold unreachable
  split
  · exact holds
  · split
    · exact deliver_memOk _ _ holds
    · exact itemFails_memOk _ _ holds

theorem dropOwn_memOk (it : Item) {s : State} (holds : s.memOk) : (dropOwn it s).memOk := by
  unfold dropOwn
  split <;> exact holds

theorem execFabricAck_stays (id : Nat) (cause : Option (BitVec 8)) {s : State} (holds : s.memOk) :
    Stays (execFabricAck id cause s) := by
  refine stays_next ?_
  split
  · exact holds
  · split
    · exact holds
    · split
      · dsimp only
        split
        · split
          · exact countByte_memOk _ _ (itemDone_memOk _ (dropOwn_memOk _ holds))
          · exact itemDone_memOk _ (dropOwn_memOk _ holds)
        · exact itemDone_memOk _ (dropOwn_memOk _ holds)
      · exact itemFails_memOk _ _ (dropOwn_memOk _ holds)

theorem execRemoteResponse_stays (id : Nat) (r : Response) {s : State} (holds : s.memOk) :
    Stays (execRemoteResponse id r s) := by
  refine stays_next ?_
  split
  · exact holds
  · split
    · exact holds
    · exact deliver_memOk _ _ (dropOwn_memOk _ holds)

theorem execFabricItemTimeout_stays (id : Nat) {s : State} (holds : s.memOk) : Stays (execFabricItemTimeout id s) := by
  refine stays_next ?_
  split
  · exact holds
  · split
    · exact holds
    · exact unreachable_memOk _ holds

theorem resend_memOk (p : Nat) (it : Item) {s : State} (holds : s.memOk) : (resend p it s).memOk :=
  numberItem_memOk it p holds

theorem moveStream_memOk (p dst : Nat) {s : State} (holds : s.memOk) : (moveStream p dst s).memOk := by
  unfold moveStream
  dsimp only
  split
  · exact foldl_memOk (fun _ _ held => unreachable_memOk _ held) _ holds
  · split
    · exact foldl_memOk (fun _ _ held => resend_memOk _ _ held) _ holds
    · exact memOk_of_mem (foldl_memOk (fun _ _ held => resend_memOk _ _ held) _ holds) rfl

theorem planeDown_memOk (port : Nat) {s : State} (holds : s.memOk) : (planeDown port s).memOk :=
  foldl_memOk (fun _ _ held => moveStream_memOk _ _ held) _ (mcWrite_memOk _ holds)

theorem setStream_memOk {s : State} (src p : Nat) (x : InStream) (holds : s.memOk) :
    (State.setStream s src p x).memOk :=
  holds

theorem noteDone_memOk (src : Nat) (a : Answer) {s : State} (tag : Nat × BitVec 32) (holds : s.memOk) :
    (noteDone src a s tag).memOk :=
  holds

theorem settle_memOk (p : Packet) (a : Answer) {s : State} (holds : s.memOk) : (settle p a s).memOk :=
  memOk_of_mem (foldl_memOk (fun _ _ held => noteDone_memOk _ _ _ held) _ holds) rfl

theorem logRemote_memOk (p : Packet) (ctx : Nat) (l : Loc) {s : State} (holds : s.memOk) : (logRemote p ctx l s).memOk := by
  unfold logRemote
  dsimp only
  split
  · exact holds
  · split <;> exact holds

theorem performAt_memOk (p : Packet) (ctx : Nat) (l : Loc) {s : State} (holds : s.memOk) :
    (performAt p ctx l s).2.memOk := by
  have logged := logRemote_memOk p ctx l holds
  unfold performAt
  dsimp only
  split
  · split
    · exact holds
    · exact logged
  · split
    · exact holds
    · exact pokeN_memOk logged _ _ _
  · split
    · exact holds
    · dsimp only
      split
      · exact pokeN_memOk logged _ _ _
      · exact logged
  · exact gangReport_memOk _ _ _ _ holds
  · exact holds

theorem baseWalk_canon (p : Packet) (c : Context) : Canon (baseWalk p c) :=
  keeps_bind (walkFrom_canon _ _ _ _) fun _ => keeps_bind (keeps_modify fun _ h => h) fun _ => keeps_pure _

theorem performUnder_kept (p : Packet) (ctx leaf : Nat) {s : State} (holds : s.memOk) :
    Kept (performUnder p ctx leaf s) := by
  unfold performUnder
  split
  · exact kept_some (settle_memOk _ _ holds)
  · split
    · exact kept_none
    · exact kept_some (settle_memOk _ _ (performAt_memOk _ _ _ holds))

theorem offer_memOk (p : Packet) {s : State} (holds : s.memOk) : (offer p s).memOk := by
  unfold offer
  split
  · exact settle_memOk _ _ holds
  · exact settle_memOk _ _ (gangReport_memOk _ _ _ _ holds)
  · split
    · exact settle_memOk _ _ holds
    · split
      · exact kept_getD (performUnder_kept _ _ _ holds) holds
      · exact holds

theorem drain_memOk (src n : Nat) {s : State} (holds : s.memOk) : (drain src n s).memOk := by
  induction n generalizing s with
  | zero => exact holds
  | succ n ih =>
    unfold drain
    dsimp only
    split
    · exact holds
    · exact ih (offer_memOk _ (setStream_memOk _ _ _ holds))

theorem drainAll_memOk (src : Nat) {s : State} (holds : s.memOk) : (drainAll src s).memOk := drain_memOk _ _ holds

theorem arrive_memOk (p : Packet) {s : State} (holds : s.memOk) : (arrive p s).memOk := by
  unfold arrive
  split
  · exact holds
  · split
    · exact holds
    · split
      · exact drainAll_memOk _ (offer_memOk _ holds)
      · exact holds

theorem execFabricPacketArrival_stays (p : Packet) {s : State} (holds : s.memOk) : Stays (execFabricPacketArrival p s) := by
  refine stays_next ?_
  split
  · exact arrive_memOk _ (wakeUp_memOk holds)
  · exact holds

theorem execTranslationReturn_stays (n : Nat) {s : State} (holds : s.memOk) : Stays (execTranslationReturn n s) := by
  refine stays_next ?_
  split
  · exact holds
  · exact drainAll_memOk _ (by
          split
          · exact settle_memOk _ _ holds
          · exact settle_memOk _ _ holds
          · split
            · exact kept_getD (performUnder_kept _ _ _ holds) holds
            · split
              · next run => exact settle_memOk _ _ (memOk_of_error (baseWalk_canon _ _) run holds :)
              · next run =>
                  exact kept_getD (performUnder_kept _ _ _ (memOk_of_ok (baseWalk_canon _ _) run holds :)) (memOk_of_ok
                    (baseWalk_canon _ _) run holds :))

theorem execSwitchMarkerArrival_stays (src oldPlane newPlane : Nat) (last : BitVec 32) {s : State} (holds : s.memOk) :
    Stays (execSwitchMarkerArrival src oldPlane newPlane last s) := by
  refine stays_next ?_
  split
  · exact holds
  · exact drainAll_memOk _ (memOk_ite (wakeUp_memOk holds) (wakeUp_memOk holds))

/-! ### Gangs -/

theorem execGangAck_stays (gang member : Nat) {s : State} (holds : s.memOk) : Stays (execGangAck gang member s) := by
  refine stays_next ?_
  split
  · exact holds
  · dsimp only
    split
    · exact wakeUp_memOk holds
    · split <;> exact wakeUp_memOk holds

theorem execGangTimeout_stays (gang : Nat) {s : State} (holds : s.memOk) : Stays (execGangTimeout gang s) := by
  refine stays_next ?_
  split
  · exact holds
  · split
    · exact holds
    · exact foldl_memOk (fun _ _ held => gangReport_memOk _ _ _ _ held) _ holds

theorem execGangMemberFailure_stays (gang member : Nat) (killed : Bool) {s : State} (holds : s.memOk) :
    Stays (execGangMemberFailure gang member killed s) := by
  refine stays_next ?_
  split
  · exact holds
  · split
    · exact holds
    · exact foldl_memOk (fun _ _ held => gangReport_memOk _ _ _ _ held) _ (memOk_ite holds holds)

theorem execGangReserve_stays (issuer gang : Nat) (fcid : BitVec 20) (queue member : Nat) (packet : BitVec 512)
    (idx : Bool) {s : State} (holds : s.memOk) :
    Stays (execGangReserve issuer gang fcid queue member packet idx s) := by
  refine stays_next ?_
  split
  · exact holds
  · extract_lets s0 s1
    have h1 : s1.memOk := wakeUp_memOk (memOk_ite holds holds)
    split
    · exact h1
    · exact memOk_of_mem h1 rfl

theorem dropPart_memOk (issuer gang : Nat) {s : State} (holds : s.memOk) : (dropPart issuer gang s).memOk := holds

theorem execGangBegin_stays (issuer gang : Nat) {s : State} (holds : s.memOk) :
    Stays (execGangBegin issuer gang s) := by
  refine stays_next ?_
  split
  · exact holds
  · exact enqueue_memOk _ _ _ (dropPart_memOk _ _ (wakeUp_memOk (memOk_ite holds holds)))

theorem execGangAbort_stays (issuer gang : Nat) {s : State} (holds : s.memOk) :
    Stays (execGangAbort issuer gang s) := by
  refine stays_next ?_
  dsimp only
  split
  · exact wakeUp_memOk (memOk_ite holds holds)
  · split
    · exact giveBackDet_memOk _ _ _ (releaseHeld_memOk _ _ (dropPart_memOk _ _ (wakeUp_memOk (memOk_ite holds holds))))
    · exact releaseHeld_memOk _ _ (dropPart_memOk _ _ (wakeUp_memOk (memOk_ite holds holds)))

theorem dropGangQueued_memOk (issuer gang : Nat) {s : State} (holds : s.memOk) :
    (dropGangQueued issuer gang s).memOk :=
  dropGangQueued_reports memOk_work.toKeptByReports _ _ holds

theorem execGangKill_stays (issuer gang : Nat) {s : State} (holds : s.memOk) :
    Stays (execGangKill issuer gang s) :=
  stays_next (dropGangQueued_memOk _ _ (failPosts_memOk _ _ (stopDepot_memOk _ (stopTransfers_memOk _ _ (foldl_memOk
    (fun _ _ held => stopOut_memOk _ _ held) _ (foldl_memOk (fun _ _ held => stopHart_memOk _ _ held) _ (wakeUp_memOk
    (memOk_ite holds holds))))))))

/-! ### Collectives -/

theorem endColl_memOk (id : Nat) (status : BitVec 64) {s : State} (holds : s.memOk) : (endColl id status s).memOk := by
  unfold endColl
  split
  · exact holds
  · split <;> exact holds

theorem collFault_memOk (id part : Nat) (cause : BitVec 8) (soft : Bool) (va : Word) {s : State} (holds : s.memOk) :
    (collFault id part cause soft va s).memOk := by
  unfold collFault
  split
  · exact holds
  · split
    · exact addFault_memOk _ _ _ _ _ _ _ holds
    · exact endColl_memOk _ _ holds

theorem collRead_canon (ctx : Nat) (va : Word) (n : Nat) : Canon (collRead ctx va n) :=
  keeps_mapM (fun _ => keeps_bind (engRead_canon _ _ _ _ _ _) fun _ => keeps_pure _) _

theorem collWrite_canon (ctx : Nat) (va : Word) (bs : List Byte) : Canon (collWrite ctx va bs) :=
  keeps_bind (keeps_forM (fun _ => engWrite_canon _ _ _ _ _ _ _) _) fun _ => keeps_modify fun _ h => heal_memOk _ _ _ _ h

theorem ringPeek_canon (ctx d : Nat) : Canon (ringPeek ctx d) :=
  keeps_bind (engRead_canon _ _ _ _ _ _) fun _ => keeps_bind (engRead_canon _ _ _ _ _ _) fun _ =>
    keeps_ite (keeps_pure _) (keeps_bind (collRead_canon _ _ _) fun _ => keeps_pure _)

theorem readTable_canon (ctx : Nat) (va : Word) (n : Nat) : Canon (readTable ctx va n) := fun _ holds => readTable_keeps
    memOk_reads _ _ _ holds

theorem checkTable_memOk (id : Nat) {s : State} (holds : s.memOk) : (checkTable id s).memOk := by
  unfold checkTable
  split
  · exact holds
  · split
    · exact collFault_memOk _ _ _ _ _ holds
    · exact holds
    · next run =>
        split
        · exact (memOk_of_ok (readTable_canon _ _ _) run holds :)
        · exact endColl_memOk _ _ (memOk_of_ok (readTable_canon _ _ _) run holds :)

theorem checkWaybill_memOk (id : Nat) {s : State} (holds : s.memOk) : (checkWaybill id s).memOk := by
  unfold checkWaybill
  split
  · exact holds
  · split
    · exact endColl_memOk _ _ holds
    · split
      · exact collFault_memOk _ _ _ _ _ holds
      · exact endColl_memOk _ _ holds
      · split
        · exact checkTable_memOk _ holds
        · exact endColl_memOk _ _ holds

theorem takeWaybill_memOk (ctx r d tail : Nat) (w : BitVec 1024) {s : State} (holds : s.memOk) :
    (takeWaybill ctx r d tail w s).memOk :=
  checkWaybill_memOk _ (wakeUp_memOk holds)

theorem ringFault_memOk (ctx r : Nat) (cause : BitVec 8) (va : Word) {s : State} (holds : s.memOk) :
    (ringFault ctx r cause va s).memOk :=
  addFault_memOk _ _ _ _ _ _ _ holds

theorem visitRing_memOk (ctx r : Nat) {s : State} (holds : s.memOk) : (visitRing ctx r s).memOk := by
  unfold visitRing
  split
  · exact holds
  · split
    · split
      · exact checkWaybill_memOk _ holds
      · exact holds
    · split
      · exact ringFault_memOk _ _ _ _ holds
      · exact holds
      · exact holds
      · next d u run =>
        have read : u.memOk := memOk_of_ok (saveRead_canon _ _) run holds
        split
        · exact holds
        · split
          · exact ringFault_memOk _ _ _ _ read
          · exact holds
          · split
            · exact memOk_of_ok (ringPeek_canon _ _) ‹_› read
            · exact takeWaybill_memOk _ _ _ _ _ (memOk_of_ok (ringPeek_canon _ _) ‹_› read)

theorem execRingVisit_stays (ctx ring : Nat) {s : State} (holds : s.memOk) : Stays (execRingVisit ctx ring s) := by
  refine stays_next ?_
  split
  · split
    · exact holds
    · exact visitRing_memOk _ _ holds
  · exact holds

theorem execWaybillMatch_stays (id : Nat) (peers : List PeerView) {s : State} (holds : s.memOk) :
    Stays (execWaybillMatch id peers s) := by
  refine stays_next ?_
  split
  · exact holds
  · dsimp only
    split
    · exact holds
    · split
      · exact endColl_memOk _ _ holds
      · split
        · exact holds
        · split
          · exact endColl_memOk _ _ holds
          · exact holds

theorem execCollectivePlaneLost_stays (id : Nat) {s : State} (holds : s.memOk) : Stays (execCollectivePlaneLost id s) := by
  refine stays_next ?_
  split
  · exact holds
  · split
    · exact endColl_memOk _ _ holds
    · exact holds

theorem execPortDown_stays (port : Nat) {s : State} (holds : s.memOk) : Stays (execPortDown port s) := by
  refine stays_next ?_
  split
  · exact holds
  · exact foldl_memOk (fun _ _ held => endColl_memOk _ _ held) _ (planeDown_memOk _ holds)

theorem execCollectivePeerFailed_stays (id peer : Nat) {s : State} (holds : s.memOk) :
    Stays (execCollectivePeerFailed id peer s) := by
  refine stays_next ?_
  split
  · exact holds
  · split
    · exact endColl_memOk _ _ holds
    · exact holds

theorem execSlotRequest_stays (id : Nat) (x : TreeSwitch) (r : SlotAnswer) {s : State} (holds : s.memOk) :
    Stays (execSlotRequest id x r s) := by
  refine stays_next ?_
  split
  · exact holds
  · split
    · exact holds
    · split
      · dsimp only
        split <;> exact holds
      · split <;> exact holds
      · split
        · exact holds
        · exact endColl_memOk _ _ holds

theorem execSlotGrant_stays (id : Nat) (x : TreeSwitch) {s : State} (holds : s.memOk) : Stays (execSlotGrant id x s) := by
  refine stays_next ?_
  split
  · exact holds
  · split <;> exact holds

theorem setSlot_memOk (x : SwitchSlot) {s : State} (holds : s.memOk) : (setSlot x s).memOk := holds

theorem passUp_memOk (c : Coll) (n : Nat) {s : State} (holds : s.memOk) : (passUp c n s).memOk := by
  induction n generalizing s with
  | zero => exact holds
  | succ n ih =>
    unfold passUp
    split
    · exact holds
    · exact ih (setSlot_memOk _ (setSlot_memOk _ holds))

theorem settleSlots_memOk (c : Coll) {s : State} (holds : s.memOk) : (settleSlots c s).memOk := passUp_memOk _ _ holds

theorem settleDone_memOk (c : Coll) {s : State} (holds : s.memOk) : (settleDone c s).memOk := by
  unfold settleDone
  split <;> exact holds

theorem pulledBy_memOk (c : Coll) (x : SwitchSlot) (m : Nat) {s : State} (holds : s.memOk) : (pulledBy c x m s).memOk := by
  unfold pulledBy
  dsimp only
  split
  · exact holds
  · split
    · exact settleSlots_memOk _ holds
    · exact settleDone_memOk _ holds

theorem execSwitchFold_stays (tier switch slot : Nat) (e : SlotEvent) {s : State} (holds : s.memOk) :
    Stays (execSwitchFold tier switch slot e s) := by
  refine stays_next ?_
  split
  · exact holds
  · split
    · exact holds
    · split
      · split
        · exact settleSlots_memOk _ holds
        · exact holds
      · split
        · exact pulledBy_memOk _ _ _ holds
        · exact holds

theorem pushBlock_memOk (c : Coll) (x : StepBlock) (bs : List Byte) {s : State} (holds : s.memOk) :
    (pushBlock c x bs s).memOk := by
  unfold pushBlock
  split <;> exact holds

theorem execBlockPush_stays (id : Nat) (x : StepBlock) {s : State} (holds : s.memOk) : Stays (execBlockPush id x s) := by
  refine stays_next ?_
  split
  · exact holds
  · split
    · exact holds
    · split
      · split
        · exact holds
        · dsimp only
          split
          · exact collFault_memOk _ _ _ _ _ holds
          · exact holds
          · next run => exact pushBlock_memOk _ _ _ (memOk_of_ok (collRead_canon _ _ _) run holds :)
      · split
        · exact settleDone_memOk _ (pushBlock_memOk _ _ _ holds)
        · exact holds

theorem writeBlock_memOk (id b : Nat) (bs : List Byte) {s : State} (holds : s.memOk) :
    (writeBlock id b bs s).memOk := by
  unfold writeBlock
  split
  · exact holds
  · split
    · next run => exact (memOk_of_ok (collWrite_canon _ _ _) run holds :)
    · exact collFault_memOk _ _ _ _ _ holds
    · exact collFault_memOk _ _ _ _ _ holds
    · exact holds

theorem pullBlock_memOk (c : Coll) (x : SwitchSlot) (b : Nat) (bs : List Byte) {s : State} (holds : s.memOk) :
    (pullBlock c x b bs s).memOk := by
  unfold pullBlock
  split
  · next run => exact pulledBy_memOk _ _ _ (memOk_of_ok (collWrite_canon _ _ _) run holds :)
  · exact collFault_memOk _ _ _ _ _ holds
  · exact holds

theorem execBlockPull_stays (id : Nat) (x : StepBlock) (data : List Byte) {s : State} (holds : s.memOk) :
    Stays (execBlockPull id x data s) := by
  refine stays_next ?_
  split
  · exact holds
  · dsimp only
    split
    · exact holds
    · split
      · split
        · split
          · exact holds
          · split
            · exact pullBlock_memOk _ _ _ _ holds
            · exact pulledBy_memOk _ _ _ holds
        · exact holds
      · split
        · exact holds
        · split
          · exact writeBlock_memOk _ _ _ holds
          · exact holds

theorem leaveColl_memOk (c : Coll) {s : State} (holds : s.memOk) : (leaveColl c s).memOk := by
  unfold leaveColl
  split
  · exact settleDone_memOk _ holds
  · exact holds

/-- The writes that complete a waybill. -/
theorem completeWrites_canon (c : Coll) : ∀ m ∈ completeWrites c, Canon m := by
  simp only [completeWrites, List.forall_mem_cons, List.not_mem_nil, false_imp_iff, implies_true, and_true]
  exact ⟨engWrite_canon _ _ _ _ _ _ _, keeps_bind (engRead_canon _ _ _ _ _ _) fun _ => engWrite_canon _ _ _ _ _ _ _,
    engWrite_canon _ _ _ _ _ _ _⟩

theorem forceComplete_memOk (c : Coll) {s : State} (holds : s.memOk) : (forceComplete c s).memOk :=
  leaveColl_memOk _ (List.foldlRecOn (motive := State.memOk) _ _ holds fun t held m mem =>
    kept_getD (fun _ made => engDo_memOk (completeWrites_canon c m mem t held) made) held)

theorem completeColl_memOk (id : Nat) {s : State} (holds : s.memOk) : (completeColl id s).memOk := by
  unfold completeColl
  split
  · exact holds
  · next c _ =>
    split
    · exact leaveColl_memOk _ (memOk_of_ok (keeps_forM_mem (completeWrites_canon c)) ‹_› holds)
    · exact addFault_memOk _ _ _ _ _ _ _ holds
    · exact forceComplete_memOk _ holds

theorem execWaybillComplete_stays (id : Nat) {s : State} (holds : s.memOk) : Stays (execWaybillComplete id s) := by
  refine stays_next ?_
  split
  · exact holds
  · split
    · exact holds
    · split
      · exact completeColl_memOk _ holds
      · exact holds

theorem resumePart_memOk (c : Coll) (part : Nat) {s : State} (holds : s.memOk) : (resumePart c part s).memOk := by
  unfold resumePart
  dsimp only
  split
  · exact checkWaybill_memOk _ holds
  · split
    · split
      · exact writeBlock_memOk _ _ _ holds
      · exact pullBlock_memOk _ _ _ _ holds
      · exact holds
    · exact holds

theorem execParkedBlockResume_stays (id block : Nat) (declined : Bool) {s : State} (holds : s.memOk) :
    Stays (execParkedBlockResume id block declined s) := by
  refine stays_next ?_
  split
  · exact holds
  · split
    · exact holds
    · dsimp only
      split
      · exact resumePart_memOk _ _ holds
      · split
        · exact forceComplete_memOk _ holds
        · exact endColl_memOk _ _ holds

theorem tick_memOk {s : State} (holds : s.memOk) : (tick s).memOk := holds


end Sys2Proof.Machine
end

section
/-! PROOFS. Log 3: every step keeps memory in its canonical form: the rows of the table, the steps that the package takes
by itself, and the units of the harts. -/

namespace Sys2Proof.Machine

/-! ### The rows of the table -/

section
variable {s : State} (holds : s.memOk)
include holds

theorem stays_of_opOf {i : Instr} (unit : exec i s = runUnit (opOf i) s) : Stays (exec i s) :=
  unit ▸ runUnit_stays (opOf_canon i) holds

/-- The steps of the other agents. -/
theorem event_stays {i : Instr} (event : isEvent i = true) : Stays (exec i s) := by
  cases i
  case qgetWake => exact execQgetWake_stays _ holds
  case qputWake => exact execQputWake_stays _ holds
  case waitWake => exact execWaitWake_stays _ holds
  case wfeWake => exact execWfeWake_stays _ holds
  case wfeTimeout => exact execWfeTimeout_stays _ holds
  case vspushWake => exact execVspushWake_stays _ holds
  case vspopWake => exact execVspopWake_stays _ holds
  case tileStallRelease => exact execTileStallRelease_stays _ holds
  case convoyDeadlock => exact execConvoyDeadlock_stays _ holds
  case mmaComplete => exact execMmaComplete_stays _ holds
  case pdotComplete => exact execPdotComplete_stays _ holds
  case nearBankAgeing => exact execNearBankAgeing_stays _ holds
  case fillChunkComplete => exact execFillChunkComplete_stays _ _ _ holds
  case transferComplete => exact execTransferComplete_stays _ _ holds
  case transferFailure => exact execTransferFailure_stays _ _ _ _ holds
  case engineFaultAnswer => exact execEngineFaultAnswer_stays _ _ _ holds
  case postedClosureStart => exact execPostedClosureStart_stays _ holds
  case hartEnd => exact execHartEnd_stays _ holds
  case dispatchPlace => exact execDispatchPlace_stays holds
  case preEmption => exact execPreEmption_stays _ holds
  case restore => exact execRestore_stays _ holds
  case orderLogEntryFill => exact execOrderLogEntryFill_stays _ _ holds
  case hostLaunchWrite => exact execHostLaunchWrite_stays _ _ _ holds
  case heldPacketEnqueue => exact execHeldPacketEnqueue_stays _ holds
  case hostBar4Read => exact execHostBar4Read_stays _ _ _ holds
  case hostBar4Write => exact execHostBar4Write_stays _ _ _ holds
  case createContext => exact execCreateContext_stays _ holds
  case bindQueue => exact execBindQueue_stays _ holds
  case grantRegion => exact execGrantRegion_stays _ holds
  case killContext => exact execKillContext_stays _ holds
  case invalidate => exact execInvalidate_stays _ holds
  case readHart => exact execReadHart_stays _ holds
  case resumeHart => exact execResumeHart_stays _ holds
  case cacheFloor => exact execCacheFloor_stays _ holds
  case assignCluster => exact execAssignCluster_stays _ holds
  case powerLimit => exact execPowerLimit_stays _ holds
  case commandDone => exact execCommandDone_stays _ holds
  case discardReset => exact execDiscardReset_stays _ _ holds
  case registerWrite => exact execRegisterWrite_stays _ _ _ holds
  case spdmGetVersion => exact execSpdmGetVersion_stays holds
  case spdmGetCapabilities => exact execSpdmGetCapabilities_stays holds
  case spdmNegotiateAlgorithms => exact execSpdmNegotiateAlgorithms_stays holds
  case spdmGetDigests => exact execSpdmGetDigests_stays holds
  case spdmGetCertificate => exact execSpdmGetCertificate_stays _ holds
  case spdmChallenge => exact execSpdmChallenge_stays _ _ holds
  case spdmGetMeasurements => exact execSpdmGetMeasurements_stays _ holds
  case spdmUnsupported => exact execSpdmUnsupported_stays _ holds
  case packageReset => exact execPackageReset_stays holds
  case bootPhaseAdvance => exact execBootPhaseAdvance_stays _ holds
  case idleEntry => exact execIdleEntry_stays holds
  case idleWake => exact execIdleWake_stays holds
  case powerRemoved => exact execPowerRemoved_stays holds
  case thermalTrip => exact execThermalTrip_stays holds
  case clockStep => exact execClockStep_stays _ holds
  case registerEccError => exact execRegisterEccError_stays _ _ holds
  case dramEccError => exact execDramEccError_stays _ _ holds
  case dramScrub core bank => exact execDramScrub_stays core bank holds
  case verticalLinkFailure => exact execVerticalLinkFailure_stays _ _ _ _ holds
  case translationReturn => exact execTranslationReturn_stays _ holds
  case portDown => exact execPortDown_stays _ holds
  case fabricPacketArrival => exact execFabricPacketArrival_stays _ holds
  case switchMarkerArrival => exact execSwitchMarkerArrival_stays _ _ _ _ holds
  case fabricAck => exact execFabricAck_stays _ _ holds
  case remoteResponse => exact execRemoteResponse_stays _ _ holds
  case fabricItemTimeout => exact execFabricItemTimeout_stays _ holds
  case gangReserve => exact execGangReserve_stays _ _ _ _ _ _ _ holds
  case gangAck => exact execGangAck_stays _ _ holds
  case gangBegin => exact execGangBegin_stays _ _ holds
  case gangTimeout => exact execGangTimeout_stays _ holds
  case gangAbort => exact execGangAbort_stays _ _ holds
  case gangMemberFailure => exact execGangMemberFailure_stays _ _ _ holds
  case gangKill => exact execGangKill_stays _ _ holds
  case depotEraseDone => exact execDepotEraseDone_stays _ _ holds
  case stowUnitDone => exact execStowUnitDone_stays _ _ holds
  case depotSealDone => exact execDepotSealDone_stays _ _ holds
  case depotCommandComplete => exact execDepotCommandComplete_stays _ holds
  case stagingLineFill => exact execStagingLineFill_stays _ _ holds
  case cacheRepartition => exact execCacheRepartition_stays holds
  case ringVisit => exact execRingVisit_stays _ _ holds
  case waybillMatch => exact execWaybillMatch_stays _ _ holds
  case slotRequest => exact execSlotRequest_stays _ _ _ holds
  case slotGrant => exact execSlotGrant_stays _ _ holds
  case blockPush => exact execBlockPush_stays _ _ holds
  case switchFold => exact execSwitchFold_stays _ _ _ _ holds
  case blockPull => exact execBlockPull_stays _ _ _ holds
  case parkedBlockResume => exact execParkedBlockResume_stays _ _ _ holds
  case waybillComplete => exact execWaybillComplete_stays _ holds
  case collectivePlaneLost => exact execCollectivePlaneLost_stays _ holds
  case collectivePeerFailed => exact execCollectivePeerFailed_stays _ _ holds
  case engineTranslationFault => exact execEngineTranslationFault_stays _ _ holds
  case tlbParityError => exact execTlbParityError_stays _ _ holds
  case class0MeteringWindow => exact execClass0MeteringWindow_stays _ holds
  all_goals nomatch event

/-- The instructions of a hart: those that may stand in a pair are `opOf`, and the others have operations of their own. -/
theorem unit_stays {i : Instr} (unit : isEvent i = false) : Stays (exec i s) := by
  cases i
  case fence => exact runUnit_stays (opFence_canon _) holds
  case fsig => exact runUnit_stays (opFsig_canon _) holds
  case bar => exact runUnit_stays (arriveAt_canon _) holds
  case cbar => exact runUnit_stays (opCbar_canon _) holds
  case wait => exact runUnit_stays (opWait_canon _) holds
  case kadd => exact runUnit_stays (opKadd_canon _) holds
  case qput => exact runUnit_stays (opQput_canon _) holds
  case qget => exact runUnit_stays (opQget_canon _) holds
  case launch => exact runUnit_stays (opLaunch_canon _) holds
  case glaunch => exact runUnit_stays (opGlaunch_canon _) holds
  case yield => exact runUnit_stays (opYield_canon _) holds
  case exit => exact runUnit_stays opExit_canon holds
  case trap => exact runUnit_stays (opTrap_canon _) holds
  case eret => exact runUnit_stays opEret_canon holds
  case csrr => exact runUnit_stays (csrOp_canon _ _ _) holds
  case csrw => exact runUnit_stays (csrOp_canon _ _ _) holds
  case csrs => exact runUnit_stays (csrOp_canon _ _ _) holds
  case csrc => exact runUnit_stays (csrOp_canon _ _ _) holds
  case tlbiAll => exact runUnit_stays opTlbiAll_canon holds
  case tlbiAsid => exact runUnit_stays (opTlbiAsid_canon _) holds
  case tlbiVa => exact runUnit_stays (opTlbiVa_canon _) holds
  case ctxsave => exact runUnit_stays (opCtxsave_canon _) holds
  case ctxload => exact runUnit_stays (opCtxload_canon _) holds
  case logctlSync => exact runUnit_stays (opLogctlSync_canon _) holds
  case logctlMark => exact runUnit_stays (opLogctlMark_canon _) holds
  case logctlSwap => exact runUnit_stays (opLogctlSwap_canon _) holds
  case halt => exact runUnit_stays opHalt_canon holds
  case wfe => exact runUnit_stays (opWfe_canon _) holds
  case vcfg => exact runUnit_stays (arriveAt_canon _) holds
  case vspush => exact runUnit_stays (opVspush_canon _) holds
  case vspop => exact runUnit_stays (opVspop_canon _) holds
  case vchain => exact runUnitN_stays 2 (opVchain_canon _) holds
  case qgetWake | qputWake | waitWake | wfeWake | wfeTimeout | vspushWake | vspopWake | tileStallRelease |
    convoyDeadlock | mmaComplete | pdotComplete | nearBankAgeing | fillChunkComplete | transferComplete |
    transferFailure | engineFaultAnswer | postedClosureStart | hartEnd | dispatchPlace | preEmption | restore |
    orderLogEntryFill | hostLaunchWrite | heldPacketEnqueue | hostBar4Read | hostBar4Write | createContext |
    bindQueue | grantRegion | killContext | invalidate | readHart | resumeHart | cacheFloor | assignCluster |
    powerLimit | commandDone | discardReset | registerWrite | spdmGetVersion | spdmGetCapabilities |
    spdmNegotiateAlgorithms | spdmGetDigests | spdmGetCertificate | spdmChallenge | spdmGetMeasurements |
    spdmUnsupported | packageReset | bootPhaseAdvance | idleEntry | idleWake | powerRemoved | thermalTrip |
    clockStep | registerEccError | dramEccError | dramScrub | verticalLinkFailure | translationReturn | portDown |
    fabricPacketArrival | switchMarkerArrival | fabricAck | remoteResponse | fabricItemTimeout | gangReserve |
    gangAck | gangBegin | gangTimeout | gangAbort | gangMemberFailure | gangKill | depotEraseDone | stowUnitDone |
    depotSealDone | depotCommandComplete | stagingLineFill | cacheRepartition | ringVisit | waybillMatch |
    slotRequest | slotGrant | blockPush | switchFold | blockPull | parkedBlockResume | waybillComplete |
    collectivePlaneLost | collectivePeerFailed | engineTranslationFault | tlbParityError | class0MeteringWindow =>
    nomatch unit
  all_goals exact stays_of_opOf holds rfl

theorem exec_stays (i : Instr) : Stays (exec i s) := by
  cases kind : isEvent i with
  | true => exact event_stays holds kind
  | false => exact unit_stays holds kind

end

/-! ### The steps that the package takes by itself -/

/-- The step keeps memory in its canonical form. -/
def Sound (act : Act) : Prop := ∀ s : State, s.memOk → Stays (act s)

/-- Every step of a list does. -/
def AllSound (acts : List Act) : Prop := ∀ act ∈ acts, Sound act

theorem allSound_nil : AllSound [] := nofun

theorem allSound_cons {act : Act} {acts : List Act} (sound : Sound act) (rest : AllSound acts) : AllSound (act :: acts) :=
  List.forall_mem_cons.mpr ⟨sound, rest⟩

theorem allSound_one {act : Act} (sound : Sound act) : AllSound [act] := allSound_cons sound allSound_nil

theorem allSound_append {as bs : List Act} (ha : AllSound as) (hb : AllSound bs) : AllSound (as ++ bs) :=
  List.forall_mem_append.mpr ⟨ha, hb⟩

theorem allSound_ite {c : Prop} [Decidable c] {as bs : List Act} (ha : AllSound as) (hb : AllSound bs) :
    AllSound (if c then as else bs) := by
  split
  · exact ha
  · exact hb

theorem allSound_map {α : Type} {f : α → Act} (each : ∀ a, Sound (f a)) (l : List α) : AllSound (l.map f) :=
  List.forall_mem_map.mpr fun a _ => each a

theorem allSound_flatMap {α : Type} {f : α → List Act} (each : ∀ a, AllSound (f a)) (l : List α) :
    AllSound (l.flatMap f) :=
  fun _ mem =>
  have ⟨a, _, at_⟩ := List.mem_flatMap.mp mem
  each a _ at_

theorem allSound_filterMap {α : Type} {f : α → Option Act} (each : ∀ a act, f a = some act → Sound act)
    (l : List α) : AllSound (l.filterMap f) := fun _ mem =>
  have ⟨a, _, found⟩ := List.mem_filterMap.mp mem
  each a _ found

/-- A message that the package takes only from itself. -/
theorem sound_of_own {own : Prop} [Decidable own] {act act' : Act} (sound : Sound act)
    (found : (if own then some act else none) = some act') : Sound act' := by
  split at found
  · exact Option.some.inj found ▸ sound
  · nomatch found

theorem commandSteps_sound (cs : List Command) : AllSound (commandSteps cs) := by
  unfold commandSteps
  split
  · exact allSound_nil
  · split
    · exact allSound_one fun _ => execCommandDone_stays _
    · split
      · exact allSound_one fun _ => execCreateContext_stays _
      · exact allSound_one fun _ => execBindQueue_stays _
      · exact allSound_one fun _ => execGrantRegion_stays _
      · exact allSound_one fun _ => execKillContext_stays _
      · exact allSound_one fun _ => execInvalidate_stays _
      · exact allSound_one fun _ => execReadHart_stays _
      · exact allSound_one fun _ => execResumeHart_stays _
      · exact allSound_one fun _ => execCacheFloor_stays _
      · exact allSound_one fun _ => execAssignCluster_stays _
      · exact allSound_one fun _ => execPowerLimit_stays _
      · exact allSound_nil

theorem hartSteps_sound (s : State) (g : Nat) (h : Hart) : AllSound (hartSteps s g h) := by
  unfold hartSteps
  refine allSound_append (allSound_append (allSound_append ?_ ?_) ?_) ?_
  · exact allSound_ite allSound_nil (allSound_one fun _ => execMmaComplete_stays _)
  · split
    · split
      · exact allSound_one fun _ => execQgetWake_stays _
      · exact allSound_one fun _ => execQputWake_stays _
      · exact allSound_one fun _ => execWaitWake_stays _
      · exact allSound_cons (fun _ => execWfeWake_stays _) (allSound_one fun _ => execWfeTimeout_stays _)
      · exact allSound_one fun _ => execVspushWake_stays _
      · exact allSound_one fun _ => execVspopWake_stays _
      · exact allSound_one fun _ => execPdotComplete_stays _
      · exact allSound_nil
    · exact allSound_one fun _ => execHartEnd_stays _
    · exact allSound_nil
  · refine allSound_ite allSound_nil ?_
    split
    · exact allSound_ite (allSound_one fun _ => execConvoyDeadlock_stays _) allSound_nil
    · exact allSound_nil
  · exact allSound_ite (allSound_one fun _ => execNearBankAgeing_stays _) allSound_nil

theorem transferSteps_sound (s : State) (core : Nat) (t : Transfer) : AllSound (transferSteps s core t) := by
  unfold transferSteps
  refine allSound_append (allSound_append (allSound_append (allSound_append ?_ ?_) ?_) ?_) ?_
  · split
    · exact allSound_one fun _ => execTransferFailure_stays _ _ _ _
    · exact allSound_nil
  · split
    · exact allSound_one fun _ => execTransferFailure_stays _ _ _ _
    · exact allSound_nil
  · exact allSound_ite (allSound_one fun _ => execEngineTranslationFault_stays _ _) allSound_nil
  · exact allSound_map (fun _ _ => execFillChunkComplete_stays _ _ _) _
  · exact allSound_one fun _ => execTransferComplete_stays _ _

theorem coreSteps_sound (s : State) (n : Nat) (c : Core) : AllSound (coreSteps s n c) :=
  allSound_append (allSound_flatMap (transferSteps_sound s n) _)
    (allSound_ite allSound_nil (allSound_one fun _ => execPostedClosureStart_stays _))

theorem contextSteps_sound (s : State) (n : Nat) (c : Context) : AllSound (contextSteps s n c) :=
  allSound_append
    (allSound_append (allSound_ite allSound_nil (allSound_one fun _ => execOrderLogEntryFill_stays _ _))
      (allSound_ite allSound_nil (allSound_one fun _ => execOrderLogEntryFill_stays _ _)))
    (allSound_ite (allSound_map (fun _ _ => execPostedClosureStart_stays _) _) allSound_nil)

theorem regionSteps_sound (r : Nat) (x : Region) : AllSound (regionSteps r x) := by
  unfold regionSteps
  refine allSound_append ?_ (allSound_ite allSound_nil (allSound_one fun _ => execDepotCommandComplete_stays _))
  split
  · split
    · split
      · exact allSound_one fun _ => execDepotEraseDone_stays _ _
      · exact allSound_cons (fun _ => execStowUnitDone_stays _ _) (allSound_one fun _ => execStowUnitDone_stays _ _)
      · exact allSound_one fun _ => execDepotSealDone_stays _ _
    · exact allSound_ite (allSound_one fun _ => execDepotCommandComplete_stays _) allSound_nil
  · exact allSound_nil

theorem fabricSteps_sound (s : State) : AllSound (fabricSteps s) := by
  unfold fabricSteps
  refine allSound_append (allSound_append (allSound_append ?_ ?_) ?_) ?_
  · exact allSound_map (fun _ _ => execFabricPacketArrival_stays _) _
  · refine allSound_filterMap (fun m act found => ?_) _
    split at found
    · split at found
      · obtain ⟨i, -, named⟩ := Option.map_eq_some_iff.mp found
        subst named
        split
        · exact fun _ => execFabricAck_stays _ _
        · exact fun _ => execRemoteResponse_stays _ _
      · nomatch found
    · exact sound_of_own (fun _ => execSwitchMarkerArrival_stays _ _ _ _) found
    · nomatch found
  · exact allSound_map (fun _ _ => execTranslationReturn_stays _) _
  · exact allSound_map (fun _ _ => execFabricItemTimeout_stays _) _

theorem gangSteps_sound (s : State) : AllSound (gangSteps s) := by
  unfold gangSteps
  refine allSound_append (allSound_append ?_ ?_) ?_
  · refine allSound_filterMap (fun m act found => ?_) _
    split at found
    · split at found
      · obtain ⟨x, -, named⟩ := Option.map_eq_some_iff.mp found
        exact named ▸ fun _ => execGangReserve_stays _ _ _ _ _ _ _
      · nomatch found
    · exact sound_of_own (fun _ => execGangAck_stays _ _) found
    · exact sound_of_own (fun _ => execGangBegin_stays _ _) found
    · exact sound_of_own (fun _ => execGangAbort_stays _ _) found
    · exact sound_of_own (fun _ => execGangKill_stays _ _) found
    · nomatch found
  · exact allSound_flatMap (fun _ => allSound_map (fun _ _ => execGangMemberFailure_stays _ _ _) _) _
  · exact allSound_map (fun _ _ => execGangTimeout_stays _) _

theorem collSteps_sound (s : State) (c : Coll) : AllSound (collSteps s c) := by
  unfold collSteps
  refine allSound_append (allSound_append (allSound_map (fun _ _ => execParkedBlockResume_stays _ _ _) _)
    (allSound_map (fun _ _ => execSlotGrant_stays _ _) _)) (allSound_ite (allSound_one fun _ => execWaybillComplete_stays _)
    (allSound_append (allSound_append ?_ ?_) (allSound_ite allSound_nil
      (allSound_append (allSound_append (allSound_append (allSound_append ?_ ?_) ?_) ?_) ?_))))
  · exact allSound_ite (allSound_one fun _ => execCollectivePlaneLost_stays _) allSound_nil
  · exact allSound_ite (allSound_one fun _ => execWaybillMatch_stays _ _) allSound_nil
  · exact allSound_map (fun _ _ => execBlockPush_stays _ _) _
  · exact allSound_map (fun _ _ => execBlockPush_stays _ _) _
  · exact allSound_map (fun _ _ => execBlockPull_stays _ _ _) _
  · refine allSound_filterMap (fun x act found => ?_) _
    obtain ⟨y, -, named⟩ := Option.map_eq_some_iff.mp found
    exact named ▸ fun _ => execBlockPull_stays _ _ _
  · exact allSound_one fun _ => execWaybillComplete_stays _

theorem ringSteps_sound (s : State) : AllSound (ringSteps s) := by
  unfold ringSteps
  refine allSound_ite allSound_nil ?_
  split
  · exact allSound_one fun _ => execRingVisit_stays _ _
  · exact allSound_nil

theorem dispatchSteps_sound (s : State) : AllSound (dispatchSteps s) := by
  unfold dispatchSteps
  have held (l : List (Nat × LQueue)) : AllSound (l.map fun q => execHeldPacketEnqueue q.1) :=
    allSound_map (fun _ _ => execHeldPacketEnqueue_stays _) l
  have leave (l : List Nat) : AllSound (l.map execPreEmption) := allSound_map (fun _ _ => execPreEmption_stays _) l
  refine allSound_ite (held _) (allSound_append (allSound_append (allSound_append (held _) ?_) (leave _)) (leave _))
  split
  · exact allSound_one fun _ => execDispatchPlace_stays
  · exact allSound_one fun _ => execRestore_stays _
  · exact allSound_ite allSound_nil (allSound_one fun _ => execDispatchPlace_stays)

theorem ownSteps_sound (s : State) : AllSound (ownSteps s) := by
  unfold ownSteps
  refine allSound_ite (allSound_ite (allSound_one fun _ => execBootPhaseAdvance_stays _) allSound_nil) ?_
  refine allSound_append (allSound_append (allSound_append (allSound_append (allSound_append (allSound_append
    (allSound_append (allSound_append (allSound_append (allSound_append (allSound_append (allSound_append
    (allSound_append ?_ ?_) ?_) ?_) ?_) ?_) ?_) ?_) ?_) ?_) ?_) ?_) ?_) ?_
  · exact commandSteps_sound _
  · exact allSound_flatMap (fun _ => hartSteps_sound _ _ _) _
  · exact allSound_flatMap (fun _ => coreSteps_sound _ _ _) _
  · exact allSound_flatMap (fun _ => contextSteps_sound _ _ _) _
  · exact allSound_flatMap (fun _ => regionSteps_sound _ _) _
  · exact allSound_map (fun _ _ => execStagingLineFill_stays _ _) _
  · exact fabricSteps_sound s
  · exact gangSteps_sound s
  · exact allSound_flatMap (collSteps_sound s) _
  · exact ringSteps_sound s
  · exact dispatchSteps_sound s
  · exact allSound_map (fun _ _ => execHartEnd_stays _) _
  · exact allSound_ite (allSound_one fun _ => execCacheRepartition_stays) allSound_nil
  · exact allSound_ite (allSound_one fun _ => execIdleEntry_stays) allSound_nil

/-! ### The step -/

theorem ticked_stays {o : Host.Outcome State Fault Refusal} (stays : Stays o) : Stays (ticked o) := by
  cases o with
  | next s => exact stays_next (tick_memOk (stays s rfl))
  | fault e => nofun
  | refused r => nofun

theorem runUnitAt_stays {s : State} (holds : s.memOk) : Stays (runUnitAt s) := by
  have fetched := fetchUnit_memOk holds
  unfold runUnitAt
  split
  · next run => exact exec_stays (memOk_of_snd run fetched) _
  · next run => exact stays_next (runPair_memOk _ _ (memOk_of_snd run fetched))
  · next run => exact stays_next (memOk_of_snd run fetched :)

theorem stepHart_stays {s : State} (holds : s.memOk) : Stays (stepHart s) := by
  unfold stepHart
  split
  · exact stays_next (tick_memOk holds)
  · exact ticked_stays (runUnitAt_stays holds)

theorem step_stays {s : State} (holds : s.memOk) : Stays (step s) := by
  unfold step
  split
  · split
    · nofun
    · split
      · exact ticked_stays (exec_stays (by exact holds) _)
      · exact stepHart_stays holds
  · split
    · nofun
    · split
      · next act found => exact ticked_stays (ownSteps_sound s act (List.mem_of_find?_eq_some found) s holds)
      · exact stepHart_stays holds

/-- Settles O59: an instruction, a pair, a step of another agent and the passing of time each write memory through the
operations that keep its form, or leave it. -/
theorem stepKeepsMemory : Obligations.StepKeepsMemory := by
  unfold Obligations.StepKeepsMemory
  exact fun s t holds steps => step_stays holds t steps

end Sys2Proof.Machine
end
